-- ==== Sys2Proof/Word.lean ====
section
/-! DEFINITION. The word types of the T1280 and nothing else: a byte of a packet or of flash, and the 32-bit word of a
sill register or of a Jenux sequence. -/

namespace Sys2Proof

/-- One byte of a packet, of flash or of a key. -/
abbrev Byte := BitVec 8

/-- The 32-bit word of a sill register (R83), of a Jenux SEQUENCE (R112) and of the event sequence (R127). -/
abbrev Word32 := BitVec 32

end Sys2Proof
end

