-- ==== Sys2Proof/Machine/Table.lean ====
section
/-! DEFINITION. A finite table: a list of (index, entry) pairs in one canonical form, strictly rising indices and no entry equal
to the default. Everything the device numbers (units, domains, queues, slots) is held in one, so that equal contents are equal
data and a state after reset stays small. -/

namespace Sys2Proof.Machine

/-- Entries by index; an index not listed holds the table's default, which its accessor names. -/
abbrev Tbl (α : Type) := List (Nat × α)

/-- The entry at index `k`, or the default `d`. -/
def tblGet {α : Type} (d : α) : Tbl α → Nat → α
  | [], _ => d
  | (j, v) :: r, k => if j = k then v else tblGet d r k

/-- `t` without an entry at `k`. -/
def tblErase {α : Type} : Tbl α → Nat → Tbl α
  | [], _ => []
  | (j, v) :: r, k => if j = k then tblErase r k else (j, v) :: tblErase r k

/-- `t` with `v` at `k`, in rising order of index. -/
def tblInsert {α : Type} : Tbl α → Nat → α → Tbl α
  | [], k, v => [(k, v)]
  | (j, w) :: r, k, v =>
    if k < j then (k, v) :: (j, w) :: r
    else if j = k then (k, v) :: r
    else (j, w) :: tblInsert r k v

/-- Write `v` at `k`; writing the default removes the entry, which keeps the canonical form. -/
def tblSet {α : Type} [DecidableEq α] (d : α) (t : Tbl α) (k : Nat) (v : α) : Tbl α :=
  if v = d then tblErase t k else tblInsert t k v

/-- Change the entry at `k` by `f`. -/
def tblMod {α : Type} [DecidableEq α] (d : α) (t : Tbl α) (k : Nat) (f : α → α) : Tbl α :=
  tblSet d t k (f (tblGet d t k))

/-- Strictly rising indices. -/
def tblSorted {α : Type} : Tbl α → Bool
  | [] => true
  | [_] => true
  | (j, _) :: (k, w) :: r => decide (j < k) && tblSorted ((k, w) :: r)

/-- The canonical form: rising indices, no entry equal to the default. -/
def tblWf {α : Type} [DecidableEq α] (d : α) (t : Tbl α) : Bool :=
  tblSorted t && t.all (fun e => decide (e.2 ≠ d))

end Sys2Proof.Machine
end

