-- ==== Sys2Proof/Machine/Parts/Operand.lean ====
section
/-! DEFINITION. The types of the commands' operands that state shares with them: straps, supplies, ports, packets and times. -/

namespace Sys2Proof.Machine

/-- One reading of the four straps of R42. -/
structure Straps where
  role : BitVec 2 := 0
  bootSrc : Bool := false
  tie : Bool := false
  deriving DecidableEq, Repr

/-- The supplies of R68, numbered as SEQ_SUPPLY of SL_BOOT_STATUS numbers them. -/
inductive Supply where
  | sill | io | core | hsio | dram | conv | ana
  deriving DecidableEq, Repr

/-- The port a packet arrives on and its reply leaves by. -/
inductive Port where
  | control
  /-- Tenon port TNp. -/
  | tenon (p : Nat)
  | stream
  deriving DecidableEq, Repr

/-- A Jenux packet as R112 lays it out; its trailer is computed when it is sent. -/
structure Packet where
  version : BitVec 8 := 0x24
  flags : BitVec 16 := 0
  opcode : BitVec 16 := 0
  target : BitVec 16 := 0
  unit : BitVec 16 := 0
  session : BitVec 16 := 0
  seq : Word32 := 0
  status : BitVec 16 := 0
  payload : List Byte := []
  deriving DecidableEq, Repr

/-- The status codes of R521. -/
inductive Status where
  | ok | busy | length | crc | opcode | param | role | state | unsupported | floor | slotBound | keyErased | nonceExhausted
  | auth | pmbusNack | capacity | cd | lanesBusy | laneRate | slotBusy | slotCount | tableFull | notEmpty | parent | reserve
  | shimFull | tsBusy | usage | record | fuse | calRange | calRecord | monRoute | partly | domRole | notManager | noReply
  | mismatch | tie | peer | imageInvalid | rollback | flash | sequence | restarted
  deriving DecidableEq, Repr

/-- A time of day: 48 bits of seconds and 32 bits of nanoseconds below 10⁹ (R410). -/
structure Tod where
  sec : Nat := 0
  ns : Nat := 0
  deriving DecidableEq, Repr

/-- A JTAG instruction: those of R44 that execute without debug unlock, and the three groups of R95. -/
inductive Jtag where
  | bypass | idcode | samplePreload | extest | extestPulse | extestTrain
  /-- A boundary or scan instruction beyond R44: level 1. -/
  | scan
  /-- Management-processor halt, step and memory access: level 2. -/
  | mpAccess
  /-- A die test mode: level 3. -/
  | dieTest
  deriving DecidableEq, Repr

/-- A Jenux request for the command that a constructor of `Instr` names: its packet less OPCODE, and the port it arrived by.
The parts of R112 that a well-formed request holds at zero (STATUS, the reserved word) are not carried. -/
structure Request where
  port : Port := .control
  version : BitVec 8 := 0x24
  flags : BitVec 16 := 1
  target : BitVec 16 := 0
  unit : BitVec 16 := 0
  session : BitVec 16 := 0
  seq : Word32 := 0
  payload : List Byte := []
  /-- For a request that arrives by a Tenon port: ORIGIN and ORIGIN_ROLE of its message (R471). -/
  origin : Nat := 0
  originRole : Nat := 0
  deriving DecidableEq, Repr

/-- A map message of R479: level (0 ring, 1 district, 2 domain), the address of the manager that sends it, the numbers reached
east and west, versions by number, the floor (0xFFFF_FFFF unknown) with its sequence, and the address the manager gives each
serial it has seen, none where no number is free (R478). -/
structure MapMsg where
  level : Nat
  manager : Nat
  east : Nat
  west : Nat
  fws : List (Nat × Nat)
  floor : Nat
  floorSeq : Nat
  numbers : List (List Byte × Option Nat)
  deriving DecidableEq, Repr

/-- A message of the stream port or a Tenon port as it waits or travels. -/
inductive Body where
  /-- VC 0 to 2: a Jenux packet, and the journal entry of a reply. -/
  | packet (p : Packet) (entry : Option Nat)
  /-- VC 3 of the stream port: unit, kind and records (R456). -/
  | records (unit kind : Nat) (rs : List (List Byte))
  /-- VC 3 of a Tenon port: a block of a distributed image (R471), with the scope of its distribution (log entry 21). -/
  | image (scope : BitVec 16) (offset length : Nat) (data : List Byte)
  /-- The brace heartbeat of R365. -/
  | heartbeat (data : List Byte)
  /-- A map of R479. -/
  | map (m : MapMsg)
  /-- A fence of R482: level, the range of numbers it holds, and whether it is on its way back. -/
  | fence (level mask : Nat) (returned : Bool)
  deriving DecidableEq, Repr

/-- A data message (R456, R471). -/
structure Message where
  vc : Nat
  hops : Nat := 0
  originRole : Nat := 0
  origin : Nat := 0
  seq : Word32 := 0
  body : Body
  deriving DecidableEq, Repr

/-- A link-control message (R458, R471). -/
structure LinkControl where
  freed : List Word32 := []
  ack : Word32 := 0
  grants : List Nat := []
  sleep : Bool := false
  retrain : Bool := false
  deriving DecidableEq, Repr

/-- What a HELLO carries (R473). -/
structure Hello where
  revMin : Nat
  revMax : Nat
  portRole : Nat
  strapRole : Nat
  address : Nat
  assigned : Bool
  manager : Bool
  fw : Nat
  floor : Nat
  floorSeq : Nat
  epoch : Word32
  nonce : List Byte
  serial : List Byte
  deriving DecidableEq, Repr

/-- What an AUTH carries (R474): the identity and agreement keys of the certificate, its signature, OWNER_SET and the signature. -/
structure Auth where
  idPub : List Byte
  agrPub : List Byte
  certR : List Byte
  certS : List Byte
  ownerSet : List Byte
  sigR : List Byte
  sigS : List Byte
  deriving DecidableEq, Repr

/-- A device a manager sees on its ring, in east order: its serial, strap role, FW_VERSION and the ways that reach it. -/
structure Seen where
  serial : List Byte
  standby : Bool
  fw : Nat
  east : Bool
  west : Bool
  deriving DecidableEq, Repr

/-- The input power of a carrier unit, in hundredths of a dB of ADC full scale (R187). -/
structure InputPower where
  unit : Fin 4
  level : Int
  deriving DecidableEq, Repr

/-- What one received ACF shows (R230): whether its training correlates by at least 0.5, its header, the skews measured, and the phase
slips corrected at its pilots (R180). Its overhead and OTUCn bits come out of the codewords decoded since the last one (R209). -/
structure AcfSeen where
  training : Bool
  header : BitVec 64
  skewLo : Option Int := none
  skewHi : Option Int := none
  slips : Nat := 0
  deriving DecidableEq, Repr

/-- A codeword that goes through the receive chain (R173, R197, R232, R451): its group and its number in the group, the ADC samples of
the blocks of 64 symbols that hold the group, lanes XI, XQ, YI and YQ, the ToD of stage 1 and the signed offsets of its stages, and
whether it left the chain unfinished. What the code of an agreement shows, in LINE_MODE 1 and 2: its coded bits, the bits changed and
whether it converged (R236). -/
structure Decoded where
  group : Nat
  codeword : Nat
  adc : List (Int × Int × Int × Int) := []
  stage1 : Tod := {}
  deltas : List Nat := []
  incomplete : Bool := false
  bits : Nat := 0
  changed : Nat := 0
  converged : Bool := true
  deriving DecidableEq, Repr

/-- What the mappers give one OTUCn frame (R261): the OPUCn payload of each slice, 15 232 bytes row by row. -/
structure OtuLoad where
  payload : List (List Byte)
  deriving DecidableEq, Repr

/-- What a receive framer sees of one OTUCn frame period: whether the carrier unit marked it valid, that it lies at a position other than
the one held, where it starts among the OTUCn bits of its ACF when it is the first to start there (R249), its slices as cut from the
unit's OTUCn bits and descrambled, 15 296 bytes each, the cells of it that are bad and the tributaries with ODUflex BIP errors
(tributary, errored blocks). -/
structure OtuSeen where
  valid : Bool := true
  elsewhere : Bool := false
  start : Option Nat := none
  slices : List (List Byte) := []
  badCells : List Nat := []
  tribErrors : List (Nat × Nat) := []
  deriving DecidableEq, Repr

/-- What one read of a DRAM word finds (R325, R327). -/
inductive WordSeen where
  | clean | corrected | poison
  /-- Poison's syndrome over data that is not all 0xA5. -/
  | mimic
  | uncorrectable
  deriving DecidableEq, Repr

/-- A word that does not read as stored: stack, word address, finding. -/
structure OddWord where
  stack : Nat
  word : Nat
  seen : WordSeen
  deriving DecidableEq, Repr

/-- Host RS(544,514) codewords of a client since its last report: received, corrected, uncorrectable, symbols corrected (R293). -/
structure HostFec where
  codewords : Nat := 0
  corrected : Nat := 0
  uncorrectable : Nat := 0
  symbols : Nat := 0
  deriving DecidableEq, Repr

/-- A GFP frame as the demapper meets it: its cHEC (0 good, 1 one bit wrong, 2 worse), and, unless it is an idle frame, whether its tHEC
can be read, its UPI and its length. -/
structure GfpSeen where
  chec : Fin 3
  idle : Bool
  thec : Bool := true
  upi : Nat := 1
  length : Nat := 0
  deriving DecidableEq, Repr

/-- What a brace heartbeat says (R365). -/
structure Heartbeat where
  state : Nat
  tie : Bool
  fw : Nat
  digest : List Byte
  deriving DecidableEq, Repr

end Sys2Proof.Machine
end

