-- ==== Sys2Proof/Syntax.lean ====
section
/-! DEFINITION. The commands of spec/opcode_table.json, one constructor a row in the table's order. A command is a Jenux
request Salurn takes, a transaction on a port, a pin or supply event, or a moment the spec gives the hardware. Operands carry
what the spec leaves to the outside; a Jenux request carries its packet. -/

namespace Sys2Proof

open Sys2Proof.Machine

/-- A command of the T1280. Each constructor's docstring gives the rule of its row and what happens. -/
inductive Instr where
  /-- R80. VDD_SILL rises and the sill leaves its power-on reset 1 ms after SILL_CLK starts, resetting sill registers, ToD and keys. -/
  | sillPowerOn
  /-- R80. VDD_SILL stays below 80 % of nominal for 20 ns and the sill re-enters its power-on reset. -/
  | sillPowerLoss
  /-- R70. A supply other than VDD_SILL stays below 80 % for 20 ns while the hub is out of reset, and the sill holds the hub in reset. -/
  | supplyHold (x : Supply)
  /-- R70. A supply excursion departs from the order of R68 or R69 and the sill records RESET_CAUSE 0x6, SEQ_FAULT and the supply. -/
  | sequenceFault (x : Supply)
  /-- R70. The hub supplies fall below 10 % in reverse order with VDD_SILL kept, and the sill records RESET_CAUSE 0x7. -/
  | hubPowerLoss
  /-- R87. 1 ms after the last supply reaches 90 %, the hub may be released if RESET_N is high. -/
  | suppliesValid
  /-- R80. RESET_N goes low and the hub and carrier dies enter device reset with keys zeroised. -/
  | resetNFall
  /-- R87. RESET_N rises and the sill releases the hub, or ends a sequence-fault hold when R70 allows. -/
  | resetNRise
  /-- R43. A 640 ns window of 16 strap readings ends; the straps are accepted and the ROM starts, or the window repeats. -/
  | strapWindow (readings : Vector Straps 16)
  /-- R43. 1 024 windows pass without agreement and the device stays in reset with STRAP_FAULT set. -/
  | strapFault
  /-- R91. The ROM finishes reading a bank and applies the checks of R91, booting it, trying the other bank or entering LOAD_WAIT. -/
  | bankCheck
  /-- R94. Salurn's INIT self-test ends, Salurn reaches RUN, sets SALURN_READY, applies SL_WAKE_TOL and raises EV_BOOT_DONE and deferred events. -/
  | salurnInitDone (selfTest : Bool)
  /-- R80. A keyed write of SL_RESET_CTRL[SILL] performs a sill reset equal to a sill power-on. -/
  | sillReset (w : Word32)
  /-- R80. A keyed write of SL_RESET_CTRL[HUB] resets the hub and carrier dies with RESET_CAUSE 0x4. -/
  | hubResetByRegister (w : Word32)
  /-- R82. A keyed write of SL_RESET_CTRL[MP] restarts the management processor alone. -/
  | mpRestartByRegister (w : Word32)
  /-- R192. A keyed write of SL_RESET_CTRL[CU] restarts the named carrier units while Salurn is in RUN. -/
  | cuRestartByRegister (w : Word32)
  /-- R83. A control-port write to a sill register without behaviour of its own updates RW fields or clears W1C bits. -/
  | sillRegisterWrite (addr : Byte) (data : List Byte)
  /-- R82. The watchdog receives no strobe for 1 s and restarts the management processor. -/
  | watchdogExpiry
  /-- R82. The two lockstep cores disagree and the management processor restarts within 1 µs. -/
  | lockstepMismatch
  /-- R133. The restarted Salurn resolves every journal entry in order, re-executes unanswered GET requests and raises EV_MP_RESTARTED. -/
  | mpRestartComplete
  /-- R100. An activated Salurn is not in RUN within 30 s and the trial rolls back with cause 2. -/
  | trialTimeout
  /-- R98. The ToD reaches the EPOCH of a pending activation and the management processor restarts into the staged bank. -/
  | activationEpoch
  /-- R96. A debug unlock reaches its expiry and its level ends. -/
  | debugUnlockExpiry
  /-- R95. A debug challenge nonce passes 60 s unused and expires. -/
  | debugNonceExpiry
  /-- R44. A JTAG instruction is loaded, executing if permitted; EXTEST stops traffic and holds MIR_ACT_OUT at 0. -/
  | jtagInstructionLoad (j : Jtag)
  /-- R108. A push transaction ends and the packet is taken into a free receive buffer or discarded with OVERRUN. -/
  | cpPushPacket (bytes : List Byte)
  /-- R109. A pull transaction returns the head of the outgoing queue, removing it only if clocked out whole. -/
  | cpPull (clocked : Nat)
  /-- R105. A transaction whose first byte is not a defined type is ignored with CP_MISO driven low. -/
  | cpInvalidTransaction (first : Byte)
  /-- R116. Salurn takes a packet that fails checks 1 to 6 before any command is known and discards or rejects it. -/
  | malformedPacket (port : Port) (bytes : List Byte) (count : Nat)
  /-- R480. A request whose TARGET names other devices is forwarded toward them after checks 1 to 8. -/
  | packetForward (port : Port) (p : Packet)
  /-- R128. An event waiting in the control-port route queue enters the outgoing queue when it has room. -/
  | eventToOutgoingQueue
  /-- R128. A route that dropped events regains space and queues EV_EVENTS_LOST with the first lost sequence and the count. -/
  | eventsLostQueued (route : Fin 3)
  /-- R121. No request arrives on a session for its idle time and it closes with EV_SESSION_CLOSED cause 2. -/
  | sessionIdleExpiry (number : Nat)
  /-- R120. A session still awaiting authentication after 30 s is discarded with EV_SESSION_CLOSED cause 4. -/
  | sessionAuthExpiry (number : Nat)
  /-- R101. The reset ordered by SYSTEM.RESET starts once its reply has been pulled or 10 ms have passed. -/
  | systemResetExecute
  /-- R101. Returns serial, SL_IDCODE, speed grade, floor and revocation mask. -/
  | systemGetIdentity (q : Request)
  /-- R101. Orders a hub reset, management-processor restart or carrier unit restart by SCOPE. -/
  | systemReset (q : Request)
  /-- R95. Issues a fresh 32-byte debug unlock nonce valid for 60 s. -/
  | systemGetDebugChallenge (q : Request)
  /-- R96. Verifies a signed unlock token and grants the requested debug level, erasing keys for levels 2 and 3. -/
  | systemDebugUnlock (q : Request)
  /-- R514. Returns entries of the event history from FROM_SEQ. -/
  | systemGetEvents (q : Request)
  /-- R75. Sets the latency tolerance of one or all domains of a class and reports their state and deepest state. -/
  | powerSetTolerance (q : Request)
  /-- R76. Returns the state, deepest state and tolerance of the named domains. -/
  | powerGetState (q : Request)
  /-- R77. Returns the VDD_CORE target, regulator readings and estimated device power. -/
  | powerGetPower (q : Request)
  /-- R78. Sets the regulator's PMBus address, reads its identity and resumes voltage adaptation. -/
  | powerSetRegulator (q : Request)
  /-- R190. Sets a carrier unit's line format, at once or at an epoch. -/
  | carrierSetFormat (q : Request)
  /-- R203. Enables or disables a unit's transmit and receive paths. -/
  | carrierSetPath (q : Request)
  /-- R204. Sets dispersion, equaliser, tracking, nonlinear compensation and other DSP settings. -/
  | carrierSetDsp (q : Request)
  /-- R205. Declares the spectral order and adjacency and which die pairs may join. -/
  | carrierSetSpectralOrder (q : Request)
  /-- R201. Returns acquisition state, estimates, joinery state and skews of a unit. -/
  | carrierGetStatus (q : Request)
  /-- R189. Restarts the unit's receive acquisition cold or warm. -/
  | carrierReacquire (q : Request)
  /-- R201. Returns the format and DSP settings in force or pending. -/
  | carrierGetConfig (q : Request)
  /-- R190. The ToD reaches the EPOCH of a pending APPLY 1 format change and the change becomes due at the next boundary. -/
  | formatEpoch (u : Fin 4)
  /-- R209. A carrier unit builds and sends one ACF, applying pending settings, mutes, trims and FEC injection at its boundary. -/
  | acfFrameTx (u : Fin 4) (clipped : Nat)
  /-- R230. A carrier unit receives one ACF, checks training, header and overhead and passes its OTUCn bits to the hub. -/
  | acfFrameRx (u : Fin 4) (f : AcfSeen)
  /-- R230. Four consecutive failed trainings or mismatched headers declare loss of ACF frame, cause 2. -/
  | acfLossOfFrame (u : Fin 4)
  /-- R188. Input power stays below threshold for 10 µs and the receive enters LOS_HOLD, freezing values. -/
  | lossOfSignal (x : InputPower)
  /-- R187. Input power returns for 100 µs and loss of signal clears, starting warm or cold acquisition. -/
  | losClear (x : InputPower)
  /-- R188. Loss of signal lasts 1 s and the held acquisition values are discarded. -/
  | losHoldExpiry (u : Fin 4)
  /-- R184. An acquisition stage completes and the receive moves to the next state, raising EV_CARRIER_LOCKED on TRACKING. -/
  | acqStageDone (u : Fin 4) (scores : List (Int × Nat)) (dgd snr : Nat) (freq : Int) (sop : Nat)
  /-- R184. An acquisition stage exceeds its maximum time and acquisition restarts at AGC. -/
  | acqStageTimeout (u : Fin 4)
  /-- R189. SNR_EST stays below 3.0 dB for 64 pilot blocks or the offset exceeds ±4.5 GHz and the receive leaves TRACKING. -/
  | equaliserDivergence (u : Fin 4)
  /-- R232. LDPC and staircase decoding of a codeword completes and its counts and any tag record are written. -/
  | codewordDecoded (u : Fin 4) (w : Decoded)
  /-- R195. A joined pair falls back to single-carrier compensation at each unit's next frame boundary. -/
  | joineryFallback (pair : Fin 4)
  /-- R196. Skew stays within bound and spread for 64 frames and the pair joins. -/
  | joineryJoin (pair : Fin 4)
  /-- R199. Four consecutive discarded frames suspend decoder-aided equalisation. -/
  | daeSuspend (u : Fin 4)
  /-- R199. Sixteen consecutive good frames resume decoder-aided equalisation. -/
  | daeResume (u : Fin 4)
  /-- R158. A full calibration ends and EV_CAL_DONE is raised, making the transmit output live or starting acquisition. -/
  | fullCalibrationDone (u : Fin 5) (tx : Bool)
  /-- R156. INTERVAL_S after the last round started, a new in-service calibration round opens its windows. -/
  | calRoundStart (u : Fin 5)
  /-- R154. An estimate window closes and, after window B, each estimate is accepted or rejected. -/
  | calWindowDone (u : Fin 5) (estimates : List (Nat × Nat × Int))
  /-- R159. A due monitor calibration step runs in an idle period of the converters. -/
  | monCalStep
  /-- R143. A bias output advances its ramp toward its target code. -/
  | biasRampStep (u : Fin 4) (ch : Fin 4) (limited : Bool)
  /-- R146. A falling edge on OAn_INT_N raises EV_PIC_INT for the site. -/
  | picInterrupt (u : Fin 4) (highNs : Nat)
  /-- R163. Returns the calibration layers and value in force of a range of elements. -/
  | calGetParam (q : Request)
  /-- R164. Sets OVERLAY of a range of elements and replies after they are stepped in. -/
  | calSetOverlay (q : Request)
  /-- R149. Writes the OVERLAY values to the copy of the user calibration record not in force. -/
  | calSaveRecord (q : Request)
  /-- R158. Starts a full calibration or one in-service round. -/
  | calRun (q : Request)
  /-- R164. Sets the enabled parameters, round interval and window exponents. -/
  | calSetPolicy (q : Request)
  /-- R161. Returns calibration counts, last step time, flags and bias codes. -/
  | calGetStats (q : Request)
  /-- R157. Sets DAC swing and ADC full scale at the next boundary. -/
  | calSetAnalog (q : Request)
  /-- R143. Sets a bias output's target code and ramp rate. -/
  | calSetBias (q : Request)
  /-- R145. Applies RELEASE or HOLD to OAn_PIC_RST_N and makes one SPI transfer to the photonic circuit. -/
  | calPicSpi (q : Request)
  /-- R60. An idle domain's hold time for a deeper permitted state passes and it enters that state. -/
  | domainHoldExpiry (cls idx : Nat)
  /-- R61. A demand ends idle and starts the domain's exit from its sleep state. -/
  | domainDemand (cls idx : Nat)
  /-- R51. A restarted PLL locks and the domains it feeds continue their exit. -/
  | pllLock (pll : Fin 28)
  /-- R63. A waking domain reaches P0 and EV_POWER_WAKE_DONE is raised when a command woke it. -/
  | domainExitComplete (cls idx : Nat)
  /-- R71. Every 100 ms or at a configuration change Salurn chooses a new VDD_CORE target. -/
  | coreVoltageEvaluation (steps : Fin 21) (lostMargin : Bool)
  /-- R72. Every 10 µs Salurn moves VDD_CORE by at most 5 mV toward its target over PMBus. -/
  | coreVoltageStep (acknowledged : Bool) (pecGood : Bool)
  /-- R73. PMB_ALERT_N is asserted and Salurn stops voltage adaptation with EV_CORE_VOLTAGE_FAULT. -/
  | pmbAlert
  /-- R238. Returns the group, shaping and capacity figures of the format in force. -/
  | fecGetFrameInfo (q : Request)
  /-- R238. Returns the unit's FEC statistics for the last second. -/
  | fecGetCounts (q : Request)
  /-- R239. Sets coded-bit error injection from the next transmit frame boundary. -/
  | fecSetInject (q : Request)
  /-- R245. The hub assembles, encrypts and sends one OTUCn frame with its overhead, backward indications and APS bytes. -/
  | otucnFrameTx (u : Fin 4) (load : OtuLoad)
  /-- R246. The framer receives one OTUCn frame period, checks FAS, MFAS, BIP and overhead, and authenticates and decrypts it. -/
  | otucnFrameRx (u : Fin 4) (f : OtuSeen)
  /-- R246. Five consecutive errored FAS declare OOF. -/
  | oofDeclared (u : Fin 4)
  /-- R246. Two consecutive correct FAS or a verified candidate clear OOF. -/
  | oofCleared (u : Fin 4)
  /-- R246. OOF lasts 3 ms unbroken and LOF is declared. -/
  | lofDeclared (u : Fin 4)
  /-- R246. In frame lasts 3 ms unbroken and LOF clears. -/
  | lofCleared (u : Fin 4)
  /-- R247. Five consecutive MFAS mismatches declare OOM. -/
  | oomDeclared (u : Fin 4)
  /-- R247. Two consecutive consecutive MFAS values clear OOM. -/
  | oomCleared (u : Fin 4)
  /-- R247. OOM lasts 3 ms and LOM is declared. -/
  | lomDeclared (u : Fin 4)
  /-- R247. In multiframe for 3 ms clears LOM. -/
  | lomCleared (u : Fin 4)
  /-- R255. A defect's set or clear persistence count of frames is reached and the defect changes. -/
  | defectPersistence (u : Fin 4) (bit : Fin 19)
  /-- R259. A new APS/PCC value arrives in APS_N consecutive path-level frames and is accepted with EV_FRAMER_APS. -/
  | apsAccept (u : Fin 4)
  /-- R259. The mismatch count C reaches its threshold and APS_INC is set. -/
  | apsInconsistent (u : Fin 4)
  /-- R254. The same SM TTI arrives in 3 multiframes and is accepted with EV_FRAMER_TTI. -/
  | ttiAccept (u : Fin 4)
  /-- R261. Payload type and MSI entries repeat over 3 PSI multiframes and are accepted, setting PLM or MSIM. -/
  | psiAccept (u : Fin 4)
  /-- R251. A passed overhead byte pair repeats in 3 frames and is accepted. -/
  | passedBytesAccept (u : Fin 4)
  /-- R253. A LINK_TAG repeats in 3 frames and is accepted, setting LTM on mismatch. -/
  | linkTagAccept (u : Fin 4)
  /-- R268. The 1 ms gathering period ends and the defect changes in it are raised as one EV_FRAMER_DEFECT. -/
  | defectEventGather (u : Fin 4)
  /-- R254. Sets the sent trail trace and the expected SAPI, DAPI and TIM handling. -/
  | framerSetTti (q : Request)
  /-- R264. Sets the SM_DEG and PRE_DEG thresholds and run lengths from the next second. -/
  | framerSetDegrade (q : Request)
  /-- R260. Sets the transmitted APS/PCC bytes and APS_N. -/
  | framerSetAps (q : Request)
  /-- R267. Sets passed overhead bytes, LINK_ID and tag checking. -/
  | framerSetOverhead (q : Request)
  /-- R258. Selects a maintenance signal to replace the ODUCn. -/
  | framerSetMaint (q : Request)
  /-- R267. Returns framer state, defects and accepted overhead values. -/
  | framerGetStatus (q : Request)
  /-- R267. Returns the accepted TTI, passed bytes and MSI mismatches. -/
  | framerGetOverhead (q : Request)
  /-- R265. Returns the framer counters of the last second. -/
  | framerGetCounts (q : Request)
  /-- R22. The ToD nanoseconds wrap and the strobe latches every counter, evaluates per-second rules and applies boundary-timed settings. -/
  | todSecondBoundary
  /-- R274. A packet client receives a whole frame, checks it, classifies it and admits or drops it at enqueue. -/
  | clientFrameRx (c : Fin 64) (data : List Byte) (fcsOk : Bool) (fec : HostFec) (odd : List OddWord)
  /-- R280. A transparent client's block passes its elastic buffer with idle insertion, deletion or frame discard. -/
  | elasticBufferBlock (c : Fin 64) (egress : Bool) (enters : Option (Fin 4)) (leaves : Bool)
  /-- R273. A physical client gains or loses PCS alignment or receives a fault and EV_CL_LINK is raised. -/
  | clientLinkChange (c : Fin 64) (link : Fin 4)
  /-- R276. The far end acknowledges a FlexE calendar switch and the new calendar takes effect. -/
  | flexeCalAck (g : Fin 8) (inFrame : List Nat)
  /-- R276. No acknowledgement arrives within 1 s and the calendar switch is withdrawn. -/
  | flexeSwitchTimeout (g : Fin 8)
  /-- R284. The GFP-F demapper delineates a frame and delivers it to its egress client FIFO or drops it. -/
  | gfpFrameRx (t : Fin 256) (f : GfpSeen)
  /-- R291. Defines or removes a client identity on its lanes. -/
  | clientSetClient (q : Request)
  /-- R278. Sets a tributary's unit, kind, client and slots. -/
  | clientSetTrib (q : Request)
  /-- R276. Writes a FlexE group's unused calendar and requests the switch, or removes the group. -/
  | clientSetFlexe (q : Request)
  /-- R287. Writes or deletes a classifier entry atomically. -/
  | clientSetClass (q : Request)
  /-- R290. Returns a client's link state, mode, tributary and buffer fill. -/
  | clientGetStatus (q : Request)
  /-- R293. Returns a client's or tributary's counters of the last second. -/
  | clientGetCounts (q : Request)
  /-- R298. A port node finishes handing a frame to its mapper and chooses and starts the next eligible frame. -/
  | frameSelection (p : Fin 256) (odd : List OddWord)
  /-- R301. A rate or burst change applies at a cell boundary and adjusts the credit. -/
  | schedParamApply
  /-- R306. A gate list entry's duration ends and the next entry's mask opens or closes classes. -/
  | gateEntryEnd (p : Fin 256)
  /-- R308. A pending gate list reaches START, becomes operative and EV_SCHED_GATE_SWITCHED is raised. -/
  | gateListStart (p : Fin 256)
  /-- R310. A sampling instant writes a record for each sampled queue to the slice's trace buffer. -/
  | schedSamplingInstant (slice : Fin 8)
  /-- R301. Configures a subscriber node's port, priority, weight, rate and burst. -/
  | schedSetSubscriber (q : Request)
  /-- R301. Configures a service queue's parent, class, shaper, limit and policer. -/
  | schedSetQueue (q : Request)
  /-- R308. Loads the pending gate list of a port node. -/
  | schedSetGates (q : Request)
  /-- R314. Returns a port node's operative gate list and pending START. -/
  | schedGetGates (q : Request)
  /-- R314. Returns a queue's depth, head delay and credits. -/
  | schedGetQueue (q : Request)
  /-- R310. Sets a slice's sampled queue range and interval. -/
  | schedSetSampling (q : Request)
  /-- R311. Returns a queue, subscriber or port node's counters of the last second. -/
  | schedGetCounts (q : Request)
  /-- R333. The planer reads its next word and writes back, poisons, watches or remaps it. -/
  | planerRead (stack : Fin 4) (odd : Option WordSeen)
  /-- R329. A clamp entry held for 256 hub cycles is flushed, merging or poisoning its word. -/
  | clampFlush (stack : Fin 4) (odd : Option WordSeen)
  /-- R334. Every DRAIN_MS the corrected-word bucket drains by one. -/
  | bucketDrain (stack : Fin 4)
  /-- R334. The bucket reaches THRESH, EV_MEM_CE_RATE is raised and the bucket resets. -/
  | ceRateThreshold (stack : Fin 4)
  /-- R340. A third failed transfer or a 10 °C temperature change starts a stack retrain. -/
  | retrainStart (stack : Fin 4) (retries : Nat)
  /-- R340. A stack retrain ends, resuming accesses, or after three failures marks the stack failed. -/
  | retrainComplete (stack : Fin 4) (good : Bool) (odd : List OddWord)
  /-- R336. A quarantine audit finishes its sweep, frees unmarked cells and releases its queues. -/
  | auditComplete (stack : Fin 4) (poisoned : List (Nat × Nat × Nat))
  /-- R344. Sets planer rate and corrected-word bucket parameters. -/
  | memorySetPolicy (q : Request)
  /-- R344. Returns a stack's state, cell counts, planer position and shim use. -/
  | memoryGetStatus (q : Request)
  /-- R344. Returns held memory log entries from FROM_SEQ. -/
  | memoryGetLog (q : Request)
  /-- R340. Requests a retrain of a stack. -/
  | memoryRetrain (q : Request)
  /-- R339. Preloads word addresses into an empty stack's shim table. -/
  | memorySetShim (q : Request)
  /-- R347. Returns a stack's counters of the last second. -/
  | memoryGetCounts (q : Request)
  /-- R356. A copy's OTUCn frame is written to its deskew ring and the copy's state is judged. -/
  | twinFrameArrival (group : Fin 2) (copy : Fin 2)
  /-- R353. The playout schedule reaches a frame and the engine plays it cell by cell from the chosen copies. -/
  | twinPlayout (group : Fin 2) (odd : List (Nat × Nat × WordSeen)) (errs : List (Nat × Nat))
  /-- R363. MIR_ACT_IN changes level and the interlock reacts. -/
  | mirActInChange (level : Bool)
  /-- R363. MIR_ACT_IN has been deasserted for 40 ns and the device asserts MIR_ACT_OUT and enters CLAIMING. -/
  | mirrorClaimStable
  /-- R363. 1 µs after claiming, MIR_ACT_IN is sampled and the device becomes ACTIVE or resolves by tie. -/
  | mirrorClaimSample
  /-- R363. The TIE 1 device samples again after 1 µs and stays or enters HELD_OFF with both devices. -/
  | mirrorTieResample
  /-- R363. 1 ms after a release a STANDBY device may claim again by itself. -/
  | mirrorHoldoffExpiry
  /-- R364. Every unmuted carrier unit is in loss of signal for 10 ms and the active device releases. -/
  | mirrorLosRelease
  /-- R364. 100 ns after the lanes and mutes, MIR_ACT_OUT is deasserted. -/
  | mirrorReleaseDeassert
  /-- R365. Every 10 µs the brace link sends a heartbeat. -/
  | braceHeartbeatTx
  /-- R365. A peer heartbeat is received and compared with the pins. -/
  | braceHeartbeatRx (h : Heartbeat)
  /-- R365. Eight heartbeats are missed and the brace link counts as down. -/
  | braceLinkDown
  /-- R369. Enables, disables or changes a twin group. -/
  | protectSetTwin (q : Request)
  /-- R359. Rebases a twin group's schedule to its pending copy. -/
  | protectRealign (q : Request)
  /-- R369. Enables or disables the mirror pair and sets its masks. -/
  | protectSetMirror (q : Request)
  /-- R369. Releases, claims or clears HELD_OFF. -/
  | protectClaim (q : Request)
  /-- R368. Returns twin group and mirror pair states. -/
  | protectGetStatus (q : Request)
  /-- R371. Returns twin or mirror counters of the last second. -/
  | protectGetCounts (q : Request)
  /-- R383. The transmit channel changes epoch at the first OTUCn frame beginning in the next ACF and raises EV_SEC_ROLLED. -/
  | rolloverFlip (u : Fin 4)
  /-- R385. A channel's MODE change applies at the first frame with MFAS 0 after its application time. -/
  | channelModeApply (u : Fin 4) (dir : Fin 2)
  /-- R389. The bench engine executes the request at the head of its queue. -/
  | benchRequestExecute
  /-- R381. A queued key load reaches the head of the bench queue and is placed in its slot. -/
  | keyLoadExecute
  /-- R391. A supply leaves ±10 % for 20 ns with the hub out of reset and alarm cause 1 acts. -/
  | supplyGlitch (x : Supply)
  /-- R39. VDD_IO falls absent with VDD_SILL present, the sill pins take their absent values and a supply glitch counts. -/
  | vddIoLoss
  /-- R39. VDD_IO stays present for 20 ns and the sill senses its pins again. -/
  | vddIoReturn
  /-- R391. SILL_CLK is absent for 200 ns or a clock pulse is too short and alarm cause 2 acts. -/
  | clockGlitch
  /-- R391. A junction stays outside −25 °C to 125 °C for 1 ms and alarm cause 3 acts. -/
  | temperatureExcursion
  /-- R391. TAMPER_IN is asserted for 1 µs and alarm cause 4 acts. -/
  | tamperInAsserted
  /-- R391. ZEROIZE_N is asserted for 1 µs and alarm cause 5 erases at least every session key. -/
  | zeroizeNAsserted
  /-- R390. The entropy source fails its health tests and signing, unwrap and bench requests return ST_BUSY until it passes. -/
  | entropyHealthFail
  /-- R376. Fuses or revokes an owner root. -/
  | securitySetOwnerRoot (q : Request)
  /-- R378. Writes a new signed owner record and applies its host keys. -/
  | securitySetOwnerRecord (q : Request)
  /-- R379. Unwraps a transported KEK into an empty KEK slot. -/
  | securityLoadKek (q : Request)
  /-- R380. Queues the unwrap of a key blob into a key slot. -/
  | securityLoadKey (q : Request)
  /-- R388. Erases a slot, a KEK, every slot, or every slot and KEK. -/
  | securityEraseKey (q : Request)
  /-- R382. Sets a line channel's mode, epoch slots, fixed field and warning. -/
  | securitySetChannel (q : Request)
  /-- R383. Requests a transmit channel's change to the other epoch. -/
  | securityRollover (q : Request)
  /-- R389. Queues a GCM encryption or decryption request. -/
  | securityBench (q : Request)
  /-- R393. Sets the alarm actions and thresholds, and may lock them. -/
  | securitySetPolicy (q : Request)
  /-- R392. Releases SEC_ALARM_N and restarts the failure counts. -/
  | securityClearAlarm (q : Request)
  /-- R394. Returns a signed attestation report over the firmware and configuration digests. -/
  | securityAttest (q : Request)
  /-- R394. Returns the device public keys with Eloanath's signature. -/
  | securityGetCert (q : Request)
  /-- R396. Returns a unit's channel modes, epochs, slots, squelch and counters. -/
  | securityGetStatus (q : Request)
  /-- R396. Returns state, usage and bindings of every key slot and KEK. -/
  | securityGetSlots (q : Request)
  /-- R399. Returns a unit's security counters of the last second. -/
  | securityGetCounts (q : Request)
  /-- R403. Every 10 ms each present source is measured against SILL_CLK and its qualification judged. -/
  | refMeasurement (f : Vector Int 6) (phase : Int)
  /-- R401. No edge arrives within 4 nominal periods and the source becomes absent. -/
  | refAbsence (ref : Fin 4)
  /-- R403. A drift excursion persists for DWELL_MS and the source is disqualified. -/
  | refDisqualified (source : Fin 6)
  /-- R403. A disqualified source holds steady for REQ_S and requalifies. -/
  | refRequalified (source : Fin 6)
  /-- R404. REF_SEL[2:0] is stable for 640 ns at a new value and the selection and timing state change. -/
  | refSelChange (v : Fin 8)
  /-- R407. The phase error stays within ±10 ns for 1 s and timing enters LOCKED. -/
  | lockTestMet
  /-- R409. Every 1 ms the DCO word W moves toward its target within FREQ_RATE. -/
  | dcoUpdate (loop : Int)
  /-- R412. A PPS_IN rising edge is timestamped and accepted or rejected, stepping the ToD for a pending MODE 2. -/
  | ppsInEdge (highNs sinceNs : Nat) (lateNs : Fin 8)
  /-- R411. A MODE 2 ToD step sees no accepted edge within 2 s and expires. -/
  | todMode2Expiry
  /-- R411. A ToD slew has spent its offset and EV_TIMING_TOD_STEP is raised. -/
  | todSlewEnd
  /-- R414. The PPS_OUT schedule reaches its next pulse. -/
  | ppsOutPulse
  /-- R414. The FRAME_OUT schedule reaches its next pulse. -/
  | frameOutPulse
  /-- R402. Sets the mode and frequency of each reference input and the recovered sources. -/
  | timingSetRefs (q : Request)
  /-- R416. Sets loop bandwidth, qualification limits and slew rates. -/
  | timingSetLoop (q : Request)
  /-- R409. Sets the free-run steering word STEER. -/
  | timingSetDco (q : Request)
  /-- R411. Steps, slews or arms a PPS-aligned step of the ToD. -/
  | timingSetTod (q : Request)
  /-- R412. Sets clock outputs, squelch and pulse output settings. -/
  | timingSetOutputs (q : Request)
  /-- R414. Realigns PPS_OUT or FRAME_OUT at the next second boundary. -/
  | timingRealign (q : Request)
  /-- R416. Returns timing state, sources, DCO word, ToD and phase figures. -/
  | timingGetStatus (q : Request)
  /-- R422. A converter's reference settling time ends and REF_SETTLED is set. -/
  | monRefSettled (conv : Fin 2)
  /-- R423. A pending REF or PAIR change takes effect at an idle period. -/
  | monConverterApply (conv : Fin 2)
  /-- R424. An averager completes its conversions and delivers a marked value to its destinations. -/
  | monValueComplete (q : Fin 2) (vref : Nat) (v : List Int)
  /-- R425. A sequencer's pass ends, applying a new table and starting the next pass when continuous. -/
  | monPassEnd (q : Fin 2)
  /-- R425. A sequencer's timer fires every PERIOD_US and starts or latches a pass. -/
  | monTriggerTimer (q : Fin 2)
  /-- R426. A latched trigger starts its pass once the converter is free. -/
  | monLatchedTriggerStart (q : Fin 2)
  /-- R429. An injected request's value reaches its slot and tracker and the reply is issued. -/
  | monInjectComplete (conv : Fin 2) (vref : Nat) (v : List Int)
  /-- R435. A decimation channel completes R inputs and produces an output to its slot and tracker. -/
  | decimOutput (c : Fin 8)
  /-- R437. A channel's settling count is reached, its first output is released and EV_MON_DECIM_SETTLED raised. -/
  | decimSettled (c : Fin 8)
  /-- R423. Sets a converter's reference and pair mode. -/
  | monitorSetConverter (q : Request)
  /-- R428. Sets a sequencer's start mode, trigger and entry table. -/
  | monitorSetSequence (q : Request)
  /-- R437. Configures a decimation channel. -/
  | monitorSetDecim (q : Request)
  /-- R433. Sets each slot and tracker to running or per-second mode. -/
  | monitorSetAccum (q : Request)
  /-- R426. Triggers the named sequencers. -/
  | monitorTrigger (q : Request)
  /-- R429. Requests an injected conversion outside any sequence. -/
  | monitorInject (q : Request)
  /-- R433. Returns accumulator slots, optionally clearing them. -/
  | monitorReadSlots (q : Request)
  /-- R433. Returns min/max trackers, optionally clearing them. -/
  | monitorReadTrackers (q : Request)
  /-- R441. Returns converter, sequencer and channel status. -/
  | monitorGetStatus (q : Request)
  /-- R457. A waiting reply, event or record message is sent on the stream port once credit and replay space allow. -/
  | streamDataTx (vc : Fin 4)
  /-- R458. A stream-port message is received whole and accepted in order or discarded. -/
  | streamMessageRx (crcOk : Bool) (m : Message ⊕ LinkControl)
  /-- R458. Every 1 µs the stream port sends a link-control message with freed counts, ACK and grants. -/
  | streamLinkControlTx
  /-- R458. 20 µs pass without ACK advancing and outstanding messages are retransmitted. -/
  | streamReplayTimeout
  /-- R459. The stream port retrains or wakes and resynchronises credit. -/
  | streamRetrain
  /-- R448. Sets a counting unit's mode and events from the next boundary. -/
  | countersSetUnit (q : Request)
  /-- R447. Returns a counting unit's last snapshot. -/
  | countersRead (q : Request)
  /-- R448. Clears the named units' counters at the next boundary. -/
  | countersClear (q : Request)
  /-- R449. Sets a unit's trace sampling. -/
  | countersSetTrace (q : Request)
  /-- R451. Sets a carrier unit's codeword tagging. -/
  | countersSetTags (q : Request)
  /-- R459. Enables or disables the stream port and sets its lanes and drain mask. -/
  | countersSetStream (q : Request)
  /-- R461. Returns stream-port state, credit and buffer fills. -/
  | countersGetStream (q : Request)
  /-- R472. A Tenon data message is received whole, accepted in order and executed, forwarded or collated. -/
  | tenonMessageRx (p : Fin 8) (crcOk : Bool) (m : Message)
  /-- R472. A queued Tenon message is sent once credit and replay space allow. -/
  | tenonDataTx (p : Fin 8) (vc : Fin 4)
  /-- R472. Every 1 µs an up port sends a link-control message. -/
  | tenonLinkControlTx (p : Fin 8)
  /-- R469. A link-control message updates credit and ACK and handles SLEEP and RETRAIN. -/
  | tenonLinkControlRx (p : Fin 8) (crcOk : Bool) (k : LinkControl)
  /-- R472. 20 µs without ACK advancing and the port retransmits from ACK + 1. -/
  | tenonReplayTimeout (p : Fin 8)
  /-- R469. A wake burst takes a port out of electrical idle. -/
  | tenonWakeBurst (p : Fin 8)
  /-- R470. Four scribe words are missing and the port starts a retrain. -/
  | tenonAlignmentLoss (p : Fin 8)
  /-- R470. The port is not up 1 ms after the loss, goes DOWN and reroutes its messages. -/
  | tenonRetrainTimeout (p : Fin 8)
  /-- R470. Every 100 ms a DOWN port repeats training. -/
  | tenonDownRetry (p : Fin 8)
  /-- R473. A HELLO is received and revision, roles and floor are checked and taken. -/
  | tenonHelloRx (p : Fin 8) (h : Hello)
  /-- R474. An AUTH is received and the peer's certificate, signature and owner set are checked. -/
  | tenonAuthRx (p : Fin 8) (a : Auth)
  /-- R479. Every HB_MS the active manager sends the map both ways round its ring. -/
  | mapSend (level : Fin 3) (observed : List Seen)
  /-- R479. A map is received, updating routes, floor and member versions. -/
  | mapRx (p : Fin 8) (map : MapMsg)
  /-- R482. A returned fence releases the messages held for a reversed direction. -/
  | fenceReturn (level : Fin 3)
  /-- R482. A fence not returned within 10 ms is sent again. -/
  | fenceTimeout (level : Fin 3)
  /-- R483. A standby receives no map for TIMEOUT_MS and takes over the manager role. -/
  | managerTakeover
  /-- R485. A manager's collation time ends and it sends its collated reply upward. -/
  | collationClose (entry : Nat)
  /-- R491. 600 s pass and the distribution ends with unreported devices listed ST_DOM_NO_REPLY. -/
  | distributionTimeout
  /-- R494. Sets a Tenon port's role and starts training. -/
  | domainSetPort (q : Request)
  /-- R493. Returns each Tenon port's role, state and peer. -/
  | domainGetPorts (q : Request)
  /-- R493. Returns address, managers, floor and map of the device. -/
  | domainGetTopology (q : Request)
  /-- R494. Sets the domain version floor at the root and writes its record. -/
  | domainSetFloor (q : Request)
  /-- R493. Sets map, takeover and collation times and standby enable. -/
  | domainSetManager (q : Request)
  /-- R491. Sends the staged image to every device in scope. -/
  | domainDistribute (q : Request)
  /-- R491. Returns the outcome of the last distribution. -/
  | domainGetDist (q : Request)
  /-- R478. Releases an unreached number at the level this device manages. -/
  | domainFreePosition (q : Request)
  /-- R103. Returns bank, staging state, floor and versions. -/
  | firmwareGetInfo (q : Request)
  /-- R97. Begins staging into the uncommitted bank or hub memory, erasing the header sector. -/
  | firmwareStageBegin (q : Request)
  /-- R102. Writes image bytes at OFFSET of the staging. -/
  | firmwareStageWrite (q : Request)
  /-- R97. Checks the staged image under R91 and writes its header last. -/
  | firmwareStageVerify (q : Request)
  /-- R98. Restarts the management processor into the staged bank now or at an epoch. -/
  | firmwareActivate (q : Request)
  /-- R99. Ends the trial, writes the directory and blows floor and revocation fuses. -/
  | firmwareCommit (q : Request)
  /-- R100. Ends a trial or cancels a pending activation. -/
  | firmwareRollback (q : Request)
  /-- R120. Opens an OBSERVER session or creates one awaiting authentication with a nonce. -/
  | sessionOpen (q : Request)
  /-- R120. Verifies the signature that opens a session awaiting authentication. -/
  | sessionAuth (q : Request)
  /-- R121. Closes this or another session. -/
  | sessionClose (q : Request)
  /-- R122. Grants an OBSERVER session read access to counting units. -/
  | sessionGrantCounters (q : Request)
  /-- R136. Returns the session's role, version, idle time and next sequence. -/
  | sessionGetInfo (q : Request)
  /-- R136. Sets an event route's family mask. -/
  | sessionSetEvents (q : Request)
  /-- R84. A junction rises above 105 °C and the sill sets the sticky SL_ALARM_SUMMARY[THERMAL] bit. -/
  | junctionExceeds105c
  /-- R309. On a time-bus tick a waiting queue's or subscriber's credit rises to 0, the node becomes eligible and an idle port node starts its head frame. -/
  | shaperCreditReachesZero (p : Fin 256)
  /-- R390. The entropy source passes its health tests again, and signing, key unwrap and the bench engine stop answering ST_BUSY. -/
  | entropyHealthRestored
  /-- R392. TAMPER_IN returns to its deasserted level, cause 4 stops persisting and SL_SEC_STATUS[TAMPER] clears. -/
  | tamperInDeasserted
  /-- R392. ZEROIZE_N returns high, cause 5 stops persisting and SL_SEC_STATUS[ZEROIZE] clears. -/
  | zeroizeNDeasserted
  /-- R401. Edges return on an absent reference input, the source becomes present again and timing leaves LOST for HOLDOVER toward requalification. -/
  | refPresenceRestored (ref : Fin 4)
  /-- R365. A 10 µs heartbeat interval passes with no peer heartbeat and PM_BRACE_HB_MISS counts one toward the 8 that take the link down. -/
  | braceHeartbeatMissed
  /-- R473. A Tenon or stream-port receiver finds the scribe-word boundary on its lanes, deskews them and sends HELLO or completes its retrain. -/
  | scribeWordAlignmentGained (port : Port)
  /-- R82. Every 100 ms Salurn, or the ROM before RUN, strobes the watchdog and restarts its 1 s count. -/
  | watchdogStrobe
  deriving DecidableEq, Repr

end Sys2Proof
end

