-- ==== Sys2Proof/Decode.lean ====
section
/-! DEFINITION. The decoder the host asks of every row: the table of spec/ gives its commands no bits, so no word spells one. -/

namespace Sys2Proof

/-- The command a word spells: none, for no row of the table gives bits. -/
def decodeTableWord (_nbits _w : Nat) : Option Instr := none

end Sys2Proof
end

