-- ==== Sys2Proof/Config.lean ====
section
/-! DEFINITION. What an implementation fixes and the spec does not: the free values, as constants with no body, and the
cryptographic functions the spec names but does not define, as uninterpreted functions of their operands. No proof can see a
value of any of them. -/

namespace Sys2Proof.Config

/-- A fresh value the spec leaves open, drawn with the counter `State.fresh` (log entry 3). -/
opaque freeNat : Nat → Nat

/-- A fresh signed value the spec leaves open, drawn with the counter `State.fresh` (log entry 3). -/
opaque freeInt : Nat → Int

/-- A fresh byte from the entropy source (R390): nonces and GCM random parts, drawn with `State.fresh` (log entry 3). -/
opaque freeByte : Nat → Byte

/-- Symbol `i` of the PRBS13Q pattern, 0 to 3 (R67). The spec names the pattern only (log entry 68). -/
opaque prbs13q : Nat → Nat

/-- The device power that Salurn estimates from the typical power of the domain states in mW and the reading of VDD_CORE in mV and mA
(R77). The spec gives no formula (log entry 68). -/
opaque deviceMw : Nat → Nat → Nat → Nat

/-- The resampler of R436: the output of a phase over the last 12 inputs, newest first. The spec gives no tap (log entry 3). -/
opaque resample : Nat → List Nat → Int

/-! Signal processing (chapter 07, log entry 72). The spec names these functions and gives no coefficient: four lanes, XI, XQ, YI and YQ,
at each sample. -/

/-- Four lanes of one sample or symbol. -/
abbrev Lanes := Int × Int × Int × Int

/-- Root-raised-cosine shaping of roll-off β in thousandths at RS_CODE, resampled to Fs (R168): symbols with the square of their scale as a fraction. -/
opaque pulseShape : Nat → Nat → List (Lanes × Nat × Nat) → List Lanes

/-- All-pass dispersion of so many ps/nm at RS_CODE (R168, R170). -/
opaque disperse : Int → Nat → List Lanes → List Lanes

/-- Tap k of the pre-emphasis of a unit with a boost in tenths of a dB, in 2⁻¹⁴ (R168, R171). -/
opaque preemphasis : Nat → Nat → Nat → Int

/-- 2¹⁴ times the sine of an angle in steps of 0.01° (R151, R168, R173). -/
opaque sine : Int → Int

/-- The digital gain control of the receive front end (R173). -/
opaque gainControl : List Lanes → List Lanes

/-- The frequency-domain filter of dispersion in ps/nm, FFT length, β in thousandths and RS_CODE, with the coarse frequency offset in kHz removed
(R173, R174). -/
opaque compensate : Int → Nat → Nat → Nat → Int → List Lanes → List Lanes

/-- Tap k of phase p of the resampler, in 2⁻¹⁴ (R177). -/
opaque resamplerTap : Nat → Nat → Int

/-- The Gardner detector over dispersion-compensated samples, refined by the pilots (R177). -/
opaque gardner : List Lanes → Int

/-- The proportional and the integral gain of the timing loop at a bandwidth in kHz, in 2⁻¹⁶ of the phase accumulator (R177). -/
opaque loopGain : Nat → Int × Int

/-- The LMS step NORMAL in 2⁻²⁰ (R178, R179). -/
opaque lmsNormal : Int

/-- Tap i after the training of an acquisition, whose samples the spec leaves to the line: by a fresh number (R178). -/
opaque trainedTap : Nat → Nat → Int × Int

/-- The phase that a pilot shows against what was sent, in 2⁻¹⁶ of a turn: received pilot, sent pilot (R180). -/
opaque pilotPhase : Lanes → Lanes → Int

/-- Rotation of a symbol by 2⁻¹⁶ of a turn (R180). -/
opaque rotate : Int → Lanes → Lanes

/-- Angle j of the 32 of the blind search, in 2⁻¹⁶ of a turn (R180). -/
opaque blindAngle : Nat → Int

/-- The self-phase terms taken off by tentative decisions, and the cross-phase terms of a neighbour's symbols (R181, R193). -/
opaque selfPhase : List Lanes → List Lanes → List Lanes
opaque crossPhase : List Lanes → List Lanes → List Lanes

/-- The noise variance of a lane over a block of 64 symbols, from the pilot and the decisions (R182). -/
opaque noise : List Lanes → Nat

/-- A difference of squared distances over a noise variance as a log-likelihood ratio in LSB, before it is clipped to 6 bits (R182). -/
opaque llr : Int → Nat → Int

/-- The logarithm of a frequency, count over total, in units of `llr` (R182, R217). -/
opaque logFrequency : Nat → Nat → Int

/-- The soft symbols, in 1/256 of σ, that a decoder's output likelihoods form at so many label bits a lane (R197, R198). -/
opaque softSymbols : Nat → List Int → List Lanes

/-- Phase recovery driven again by soft symbols over the buffered symbols of their block (R197). -/
opaque redrive : List Lanes → List Lanes → List Lanes

/-- The tap feedback of a frame as limited to 5 kHz (R198). -/
opaque limitFeedback : List (Int × Int) → List (Int × Int)

/-- Whether 0.75 of a message magnitude that is no whole number is rounded up (R232). -/
opaque minSumUp : Nat → Bool

/-- SHA-512 of a message (R90, R91, R131, R394). The spec names the function only (log entry 4). -/
opaque sha512Raw : List Byte → List Byte

/-- Byte i of a 64-byte SHA-512 digest, so that a digest is always 64 bytes long. -/
def sha512 (m : List Byte) : List Byte :=
  (List.range 64).map (fun i => (sha512Raw m).getD i 0)

/-- ECDSA P-521 with SHA-512: public key (133 bytes), message, r (66 bytes), s (66 bytes) (R90, R96, R120) (log entry 4). -/
opaque ecdsaVerify : List Byte → List Byte → List Byte → List Byte → Bool

/-- ECDSA P-521 signature by a private key named by its public key, with a drawn nonce (R394, R474) (log entry 4). -/
opaque ecdsaSignRaw : List Byte → List Byte → Nat → List Byte

/-- A signature r ‖ s is 132 bytes long. -/
def ecdsaSign (pub msg : List Byte) (nonce : Nat) : List Byte :=
  (List.range 132).map (fun i => (ecdsaSignRaw pub msg nonce).getD i 0)

/-- The six JC bytes of the constant Cm that an ODUflex of so many tributary slots carries in the overhead of each of its slots (R277)
(log entry 75). -/
opaque constantCm : Nat → List Byte

/-- The device's own public key for a purpose (0 device identity, 1 wrap, 2 Tenon), fused at manufacture (R394) (log entry 4). -/
opaque devicePubRaw : Nat → List Byte

/-- A device public key is an uncompressed P-521 point of 133 bytes. -/
def devicePub (purpose : Nat) : List Byte :=
  (List.range 133).map (fun i => (devicePubRaw purpose).getD i 0)

/-- Eloanath's public key that signs device certificates and debug tokens (R95, R394) (log entry 4). -/
opaque eloanathPub : Nat → List Byte

/-- AES-256-GCM encryption: key, IV (12 bytes), additional data, plaintext; ciphertext ‖ 16-byte tag (R373, R389) (log entry 4). -/
opaque gcmSeal : List Byte → List Byte → List Byte → List Byte → List Byte

/-- AES-256-GCM decryption: key, IV, additional data, ciphertext, tag; nothing when the tag fails (R387, R389) (log entry 4). -/
opaque gcmOpen : List Byte → List Byte → List Byte → List Byte → List Byte → Option (List Byte)

/-- AES-256-GCM's counter-mode stream over a text, the same for encryption and decryption: key, IV, text (R373, R387) (log entry 4). -/
opaque gcmCryptRaw : List Byte → List Byte → List Byte → List Byte

/-- The text keeps its length. -/
def gcmCrypt (key iv text : List Byte) : List Byte :=
  (List.range text.length).map (fun i => (gcmCryptRaw key iv text).getD i 0)

/-- AES-256-GCM's tag over a ciphertext: key, IV, additional data, ciphertext (R373, R387) (log entry 4). -/
opaque gcmTagRaw : List Byte → List Byte → List Byte → List Byte → List Byte

/-- A tag is 16 bytes long. -/
def gcmTag (key iv aad text : List Byte) : List Byte := (List.range 16).map (fun i => (gcmTagRaw key iv aad text).getD i 0)

/-- AES-256 of one block: key, block (R380) (log entry 4). -/
opaque aesBlock : List Byte → List Byte → List Byte

/-- AES key unwrap with padding check: KEK, wrapped key; nothing when the integrity check fails (R380) (log entry 4). -/
opaque keyUnwrap : List Byte → List Byte → Option (List Byte)

/-- The x-coordinate of the ECDH P-521 point shared by the key pair of a public key of the device and a peer's public key (R379)
(log entry 4). -/
opaque ecdhRaw : List Byte → List Byte → List Byte

/-- Its 66 bytes. -/
def ecdhZ (pub peer : List Byte) : List Byte := (List.range 66).map (fun i => (ecdhRaw pub peer).getD i 0)

end Sys2Proof.Config
end

