-- ==== Sys2Proof/Machine/Bytes.lean ====
section
/-! DEFINITION. Big-endian fields of byte strings (R112: all multi-byte fields are big-endian), sign extension, and the CRCs
the spec defines. -/

namespace Sys2Proof.Machine

/-- The number a byte string spells, most significant byte first. -/
def beNat (l : List Byte) : Nat := l.foldl (fun a b => a * 256 + b.toNat) 0

/-- `n` bytes of `v`, most significant first. -/
def be : Nat → Nat → List Byte
  | 0, _ => []
  | n + 1, v => be n (v / 256) ++ [BitVec.ofNat 8 v]

/-- The bytes of a field of `n` bytes at offset `off`. -/
def bytesAt (p : List Byte) (off n : Nat) : List Byte := (p.drop off).take n

/-- The unsigned value of a field of `n` bytes at offset `off`. -/
def field (p : List Byte) (off n : Nat) : Nat := beNat (bytesAt p off n)

def u8 (p : List Byte) (off : Nat) : Nat := field p off 1
def u16 (p : List Byte) (off : Nat) : Nat := field p off 2
def u32 (p : List Byte) (off : Nat) : Nat := field p off 4
def u64 (p : List Byte) (off : Nat) : Nat := field p off 8

/-- The signed (two's complement) value of the `bits` low bits of `v`. -/
def signed (bits v : Nat) : Int :=
  if v < 2 ^ (bits - 1) then (v : Int) else (v : Int) - (2 ^ bits : Nat)

/-- The signed value of a field of `n` bytes at offset `off`. -/
def ifield (p : List Byte) (off n : Nat) : Int := signed (8 * n) (field p off n)

/-- `n` bytes of a signed value, two's complement. -/
def beInt (n : Nat) (v : Int) : List Byte := be n (v.emod ((256 ^ n : Nat) : Int)).toNat

/-- `n` zero bytes: a reserved field of a reply. -/
def zeros (n : Nat) : List Byte := List.replicate n 0

/-- Whether a reserved field of `n` bytes at `off` is zero, as R6 requires of a request. -/
def isZero (p : List Byte) (off n : Nat) : Bool := field p off n == 0

/-- Pad with zero bytes to a whole number of 32-bit words. -/
def padWords (l : List Byte) : List Byte := l ++ zeros ((4 - l.length % 4) % 4)

/-- `l` cut or zero-padded to exactly `n` bytes. -/
def fitBytes (n : Nat) (l : List Byte) : List Byte := (List.range n).map (fun i => l.getD i 0)

/-- Bit `i` of a number. -/
def bitOf (v i : Nat) : Bool := v.testBit i

/-- A Bool as a number. -/
def b2n (b : Bool) : Nat := if b then 1 else 0

/-- A mask of the indices below `n` at which `f` holds. -/
def maskOf : Nat → (Nat → Bool) → Nat
  | 0, _ => 0
  | n + 1, f => maskOf n f + (if f n then 2 ^ n else 0)

/-- The indices below `n` whose bit is set in `m`. -/
def bitsOf (n m : Nat) : List Nat := (List.range n).filter (fun i => m.testBit i)

/-- One bit of a reflected CRC-32C. -/
def crc32cBit (c : BitVec 32) : BitVec 32 :=
  if c.getLsbD 0 then (c >>> 1) ^^^ 0x82F63B78#32 else c >>> 1

/-- `n` bits of a reflected CRC-32C. -/
def crc32cBits : Nat → BitVec 32 → BitVec 32
  | 0, c => c
  | n + 1, c => crc32cBits n (crc32cBit c)

/-- CRC-32C of R115: polynomial 0x1EDC_6F41 reflected, initial value and final XOR all ones. -/
def crc32c (m : List Byte) : BitVec 32 :=
  m.foldl (fun c b => crc32cBits 8 (c ^^^ b.zeroExtend 32)) 0xFFFFFFFF#32 ^^^ 0xFFFFFFFF#32

/-- R351: sequence `a` is later than `b` when (a − b) mod 2³² lies from 1 to 2³¹ − 1. -/
def seqLater (a b : Word32) : Bool := decide (0 < (a - b).toNat ∧ (a - b).toNat < 2 ^ 31)

/-- R351: sequence `a` is older than `b` when `b` is later than `a`. -/
def seqOlder (a b : Word32) : Bool := seqLater b a

/-- R351: sequence `a` follows `b`. -/
def seqFollows (a b : Word32) : Bool := a - b == 1#32

end Sys2Proof.Machine
end

