-- ==== Sys2Proof/Machine/Parts/Control.lean ====
section
/-! DEFINITION. The state that start-up, power and the command protocol give the device (chapters 02, 03, 04, 05 and 19 of
spec/): pins and straps, the sill, supplies, power domains, the regulator, OTP, firmware banks, sessions, the journal, queues
and events. -/

namespace Sys2Proof.Machine

/-- SL_BOOT_STATUS[STAGE]. -/
inductive Stage where
  | held | rom | loadWait | verify | init | run | mpHalted
  deriving DecidableEq, Repr

/-- Why the hub is held in reset, or that it is not (R70, R81, R87, R43). -/
inductive HubHold where
  /-- RESET_N is low, or the supplies are not yet valid: the hub waits for the release of R87. -/
  | waiting
  /-- A supply fell below 80 % and its excursion is not yet judged (R70). -/
  | supplyHold
  /-- A sequence fault holds the hub until a RESET_N edge with good supplies (R70). -/
  | seqFault
  /-- The hub has been released and the straps are being sampled; the number of windows that disagreed (R43). -/
  | sampling (windows : Nat)
  /-- The straps never settled (R43). -/
  | strapFault
  /-- The hub is out of reset. -/
  | released
  deriving DecidableEq, Repr

/-- The pins of R37 and R39 whose level the device holds or senses. -/
structure Pins where
  /-- RESET_N level. -/
  resetN : Bool := false
  /-- VDD_IO present under R39. -/
  vddIo : Bool := false
  /-- The level at TAMPER_IN, ZEROIZE_N and MIR_ACT_IN: 1 from the pull-up where nothing drives the pin (R37). -/
  tamperIn : Bool := true
  zeroizeN : Bool := true
  mirActIn : Bool := true
  /-- The levels at REF_SEL2 to REF_SEL0: 0 from the pull-downs where nothing drives them (R37). -/
  refSel : Nat := 0
  /-- MIR_ACT_OUT as driven. -/
  mirActOut : Bool := false
  /-- The device has taken the flash pins out of their reset state (R37, R41). -/
  flashDriven : Bool := false
  /-- The bytes shifted out on CP_MISO in the last control-port transaction. -/
  cpMiso : List Byte := []
  /-- A JTAG EXTEST instruction is loaded, and whether one has stopped traffic since the last reset (R45). -/
  extest : Bool := false
  trafficStopped : Bool := false
  /-- The JTAG instruction loaded; 0 is BYPASS. -/
  jtagIr : Nat := 0
  /-- PPS_OUT and FRAME_OUT pulses emitted: the ToD of the last one. -/
  ppsOutAt : Tod := {}
  frameOutAt : Tod := {}
  deriving DecidableEq, Repr

/-- The W1C bits of the sill registers (R84, R83). -/
inductive Sticky where
  | thermal | supply | mem | mpRestart | crcErr | overrun | underrun
  deriving DecidableEq, Repr

/-- The sill domain: sill registers (R83), the alarm state and the two counters the sill keeps (R118, R127). -/
structure Sill where
  /-- The sill has left its power-on reset. -/
  on : Bool := true
  /-- The supplies other than VDD_SILL have been valid for 1 ms (R87). -/
  suppliesValid : Bool := false
  /-- Whether and why the hub is held. -/
  hold : HubHold := .waiting
  stage : Stage := .held
  bank : Nat := 0
  straps : Straps := {}
  strapFaultBit : Bool := false
  seqFaultBit : Bool := false
  seqSupply : Nat := 0
  resetCause : Nat := 1
  bankABad : Bool := false
  bankBBad : Bool := false
  fallback : Bool := false
  unreplied : Bool := false
  /-- The reset in progress found no journal entry in use, so UNREPLIED clears at the release (R84). -/
  foundNone : Bool := true
  failCode : Nat := 0
  thermal : Bool := false
  supplyAlarm : Bool := false
  memAlarm : Bool := false
  bootAlarm : Bool := false
  mpRestartAlarm : Bool := false
  wakeTol : Word32 := 0
  /-- SEC_ALARM_N asserted (R392). -/
  secAlarm : Bool := false
  policyCommitted : Bool := false
  sessionErased : Bool := false
  allErased : Bool := false
  lastCause : Nat := 0
  debugLevel : Nat := 0
  authFails : Nat := 0
  crcErr : Bool := false
  overrun : Bool := false
  underrun : Bool := false
  /-- The W1C bits that hardware has set in the SILL_CLK cycle that runs: a write in the same cycle leaves them set (R7). -/
  setNow : List Sticky := []
  /-- The last session number issued (R118). -/
  lastSession : Nat := 0
  /-- The sequence the next event takes (R127). -/
  eventSeq : Word32 := 0
  deriving DecidableEq, Repr

/-- A governed domain of R55. -/
structure PowerDomain where
  /-- 0 to 4 for P0 to P4. -/
  state : Nat := 4
  /-- An exit to P0 is under way. -/
  exiting : Bool := false
  /-- A command woke it and waits for EV_POWER_WAKE_DONE (R63). -/
  wake : Bool := false
  tol : Nat := 0
  deriving DecidableEq, Repr

/-- A PLL of R51. -/
inductive Pll where
  | off | starting | locked
  deriving DecidableEq, Repr

/-- Power domains, PLLs and the adaptive VDD_CORE (R51 to R78). Domains are indexed class × 16 + index. -/
structure Power where
  domains : Tbl PowerDomain := []
  /-- PLLs: 0 hub, 1 to 4 converter, 5 to 20 host, 21 to 24 DRAM PHY, 25 Tenon, 26 stream, 27 monitor. -/
  plls : Tbl Pll := []
  /-- VDD_CORE target and the value last commanded, in mV. -/
  targetMv : Nat := 750
  coreMv : Nat := 750
  regAddr : Nat := 0x40
  /-- Identity bytes read from the regulator by the last POWER.SET_REGULATOR. -/
  regIdentity : List Byte := []
  adapting : Bool := false
  nackRun : Nat := 0
  pecRun : Nat := 0
  /-- 0.75 V has been commanded once more since adaptation stopped (R73). -/
  recovered : Bool := false
  deriving DecidableEq, Repr

/-- OTP: fused at manufacture, and blown by FIRMWARE.COMMIT and SECURITY.SET_OWNER_ROOT only (R92, R376). -/
structure Otp where
  serial : List Byte := []
  speedGrade : Nat := 0
  fwKeyDigests : List (List Byte) := []
  fwRevoked : Nat := 0
  floor : Nat := 0
  ownerRoots : Tbl (List Byte) := []
  ownerRevoked : Nat := 0
  deriving DecidableEq, Repr

/-- The image that runs, as its header names it (R90). -/
structure Image where
  fwVersion : Nat := 0
  secVersion : Nat := 0
  keyIndex : Nat := 0
  revoke : Nat := 0
  digest : List Byte := []
  /-- The identity of the signing key and the digest used by attestation. -/
  pubkey : List Byte := []
  deriving DecidableEq, Repr

/-- A staging in progress (R97, R93). -/
structure Staging where
  /-- Bank 0 or 1, or 0xFF for hub memory. -/
  target : Nat
  length : Nat
  written : Nat := 0
  /-- The last OFFSET and DATA taken, for the repeat of R102. -/
  prevOffset : Option Nat := none
  prevLen : Nat := 0
  session : Nat
  /-- The header, and for hub memory the whole image, held in hub memory. -/
  held : List Byte := []
  deriving DecidableEq, Repr

/-- Firmware: the running image, staging, activation, trial and debug unlock (R93 to R103). -/
structure Fw where
  running : Image := {}
  runningBank : Nat := 0
  /-- The bank the ROM is trying, and whether the other one has already failed (R93). -/
  tryBank : Nat := 0
  triedOther : Bool := false
  staging : Option Staging := none
  /-- A staged and verified bank (STATE 2). -/
  staged : Option Nat := none
  pendingEpoch : Option Nat := none
  trial : Bool := false
  /-- A restart into the staged bank is under way. -/
  activating : Bool := false
  /-- FIRMWARE.ACTIVATE with MODE 0 has been replied and its restart waits for the journal (R98, R502). -/
  activateDue : Bool := false
  /-- FIRMWARE.ROLLBACK has ended a trial and its restart waits for the journal (R502). -/
  rollbackDue : Bool := false
  /-- Causes of EV_FW_ROLLED_BACK still to be raised, and an activation to report. -/
  rolledBack : List Nat := []
  /-- A body verified in hub memory boots in place of a bank. -/
  fromMemory : Bool := false
  debugNonce : Option (List Byte) := none
  debugExpiry : Nat := 0
  deriving DecidableEq, Repr

/-- The management processor. -/
inductive Mp where
  | running
  /-- A restart is under way; the cause of EV_MP_RESTARTED. -/
  | restarting (cause : Nat)
  | halted
  deriving DecidableEq, Repr

/-- A packet in a receive buffer: the bytes kept and the bytes clocked (R108). -/
structure RxItem where
  port : Port
  bytes : List Byte
  count : Nat
  origin : Nat := 0
  originRole : Nat := 0
  deriving DecidableEq, Repr

/-- A packet of an outgoing queue. -/
structure OutItem where
  packet : Packet
  isReply : Bool
  /-- Its journal entry, freed when the packet leaves (R131). -/
  entry : Option Nat := none
  deriving DecidableEq, Repr

/-- A role of R119. -/
inductive Role where
  | supervisor | operator | observer
  deriving DecidableEq, Repr

/-- A session (R118 to R124). -/
structure Session where
  number : Nat
  role : Role
  version : BitVec 8
  idleS : Nat
  /-- The 32-byte nonce while the session awaits authentication. -/
  awaiting : Option (List Byte) := none
  keySlot : Nat := 0
  nextSeq : Word32 := 1
  grants : Nat := 0
  /-- The replies to the last four requests, oldest first. -/
  replies : List Packet := []
  /-- The session is to close, with this cause, once the requests that precede the close have been replied: how many of them still
  wait in receive buffers (R121). -/
  closing : Option (Nat × Nat) := none
  deriving DecidableEq, Repr

/-- The undo record of R131: the values a command replaces, for the commands whose reply is deferred. -/
inductive Undo where
  | none
  /-- CAL.SET_OVERLAY: unit, parameter, first element, the overlays replaced. -/
  | overlay (cu param first : Nat) (old : List Int)
  /-- MONITOR.INJECT on a converter. -/
  | inject (conv : Nat)
  /-- SECURITY.LOAD_KEY into a slot. -/
  | loadKey (slot : Nat)
  /-- A bench request. -/
  | bench (id : Nat)
  /-- SYSTEM.RESET and the other forward-only commands of R132. -/
  | forward
  deriving DecidableEq, Repr

/-- The state of a journal entry (R131). -/
inductive EntryState where
  | recorded | applying | done
  deriving DecidableEq, Repr

/-- A journal entry (R131). -/
structure Entry where
  id : Nat
  port : Port
  session : Nat
  seq : Word32
  opcode : Nat
  unit : Nat
  version : BitVec 8
  digest : List Byte
  origin : Nat := 0
  undo : Undo := .none
  state : EntryState := .done
  /-- The packet of an entry that is RECORDED, which Salurn executes next. -/
  request : Option RxItem := none
  /-- What a block has answered while the management processor restarts: the status and payload of the reply still to be sent (R133). -/
  outcome : Option (Status × List Byte) := none
  deriving DecidableEq, Repr

/-- An event as raised (R127, R513). -/
structure EventRec where
  seq : Word32
  code : Nat
  unit : Nat
  urgent : Bool
  tod : Tod
  payload : List Byte
  /-- Dropped from at least one route (R513). -/
  dropped : Bool := false
  /-- TARGET of an event that a manager passes on for another device (R487). -/
  source : Option (BitVec 16) := none
  /-- VERSION of its packet: that of the session it tells of (R123), else the highest spoken. -/
  version : BitVec 8 := 0x24
  deriving DecidableEq, Repr

/-- A route of R128. -/
structure Route where
  mask : Word32 := 0
  queue : List EventRec := []
  lost : Nat := 0
  firstLost : Word32 := 0
  deriving DecidableEq, Repr

/-- A broadcast this device collates (R485). -/
structure Collation where
  /-- The journal entry of the broadcast here. -/
  id : Nat
  port : Port
  origin : Nat
  request : Packet
  ok : Nat := 0
  total : Nat := 0
  listed : List (Nat × Nat) := []
  overflow : Bool := false
  awaited : List Nat := []
  deriving DecidableEq, Repr

/-- A reset ordered by SYSTEM.RESET, waiting for its reply to leave (R101). -/
structure PendingReset where
  scope : Nat
  unit : Nat
  entry : Nat
  deriving DecidableEq, Repr

/-- The command protocol: receive buffers, outgoing queue, sessions, journal, routes and the event history. -/
structure Control where
  ready : Bool := false
  mp : Mp := .running
  /-- Local times of the restarts of the last 60 s, and of the last watchdog strobe (R82). -/
  restarts : List Nat := []
  strobeAt : Nat := 0
  /-- Salurn takes no new request until the restart of R502. -/
  intakeStopped : Bool := false
  rx : List RxItem := []
  outgoing : List OutItem := []
  /-- Replies for which the outgoing queue has no room yet, in order (R129: no reply is dropped). -/
  held : List OutItem := []
  sessions : List Session := []
  journal : List Entry := []
  nextEntry : Nat := 0
  routeCp : Route := { mask := 0x0003FFFE }
  routeTenon : Route := { mask := 0x0003FFFE }
  routeStream : Route := {}
  history : List EventRec := []
  collations : List Collation := []
  /-- The resets ordered by SYSTEM.RESET and still to be made, in order. -/
  resets : List PendingReset := []
  /-- Salurn has reached RUN since the last reset of hub scope or wider. -/
  everRun : Bool := false
  deriving DecidableEq, Repr

end Sys2Proof.Machine
end

