-- ==== Sys2Proof/Machine/Parts/Line.lean ====
section
/-! DEFINITION. The state of a carrier unit (chapters 06, 07 and 08 of spec/): converters and calibration, format and DSP
settings, acquisition, the joinery, the carrier frame and FEC injection. -/

namespace Sys2Proof.Machine

/-- A calibrated element (R147, R151), in its own LSB. -/
structure Element where
  factory : Int := 0
  overlay : Int := 0
  inservice : Int := 0
  /-- The value in force in the trim (SUM of CAL.GET_PARAM). -/
  trim : Int := 0
  /-- Estimate of window A of the round running, and whether a happening of R157 has superseded the element since. -/
  estimateA : Option Int := none
  superseded : Bool := false
  /-- The target being stepped to has been accepted and not reached: the element still moves (R156). -/
  moving : Bool := false
  rejectRun : Nat := 0
  stuck : Bool := false
  /-- What is left to step of the correction last accepted (R156). -/
  corr : Int := 0
  /-- Attempts of the full calibration running, and that it has agreed (R158). -/
  attempts : Nat := 0
  agreed : Bool := false
  deriving DecidableEq, Repr

/-- A bias output (R143). -/
structure Bias where
  code : Nat := 0
  target : Nat := 0
  ramp : Nat := 0
  compliance : Bool := false
  /-- A code and its ramp that CAL.SET_BIAS named in P4: they act after the exit (R144). -/
  due : Option (Nat × Nat) := none
  deriving DecidableEq, Repr

/-- A transfer of a site's SPI master (R145): divider, mode, and the bytes sent and received with OAn_CS_N low. -/
structure SpiTransfer where
  div : Nat
  mode : Nat
  sent : List Byte
  got : List Byte
  deriving DecidableEq, Repr

/-- A calibration policy (R164). -/
structure CalPolicy where
  enable : Nat := 0x3FF
  intervalS : Nat := 10
  kAdc : Nat := 20
  kConst : Nat := 22
  kObs : Nat := 18
  deriving DecidableEq, Repr

/-- Calibration of one unit: carrier units 0 to 3, the monitor ADC as 4 (R149 to R166). -/
structure Cal where
  policy : CalPolicy := {}
  /-- The policy of the round running. -/
  inForce : CalPolicy := {}
  applied : Word32 := 0
  rejDisagree : Word32 := 0
  rejRange : Word32 := 0
  rejSuperseded : Word32 := 0
  suspended : Word32 := 0
  lastTod : Tod := {}
  /-- A round runs; its window (0 A, 1 B, 2 applying); it was started by CAL.RUN. -/
  round : Bool := false
  window : Nat := 0
  byCommand : Bool := false
  rejectedInRound : Nat := 0
  /-- Sources whose windows of this round were discarded (R153): 0 moments, 1 constellation, 2 observation, 3 monitor. -/
  skipped : List Nat := []
  /-- A full calibration runs on the transmit or receive domain. -/
  fullTx : Bool := false
  fullRx : Bool := false
  /-- The window of the full calibration is B. -/
  fullB : Bool := false
  /-- Every estimate in flight is superseded (R157): of the round, and of the full calibration of each side. -/
  allSuperseded : Bool := false
  fullSupTx : Bool := false
  fullSupRx : Bool := false
  /-- A round that CAL.RUN asked for waits for the monitor ADC's exit (R162). -/
  roundDue : Bool := false
  /-- Elements whose loaded OVERLAY was out of range, for the first EV_CAL_DONE (R150). -/
  badOverlays : Nat := 0
  dacSwing : Nat := 600
  adcFs : Nat := 500
  pendingSwing : Option Nat := none
  pendingFs : Option Nat := none
  bias : Tbl Bias := []
  /-- OAn_PIC_RST_N released, and the interrupt armed (R145, R146). -/
  picReleased : Bool := false
  /-- The last transfer on the site's SPI port. -/
  spi : Option SpiTransfer := none
  intArmed : Bool := true
  deriving DecidableEq, Repr

/-- The line format of R201. -/
structure Format where
  rsCode : Nat
  lineMode : Nat
  modulation : Nat
  entropy : Nat
  otucN : Nat
  fecK : Nat
  decoder : Nat
  rolloff : Nat
  deriving DecidableEq, Repr

/-- The DSP settings of R201; the defaults are the reset values. -/
structure Dsp where
  cdCentre : Int := 0
  cdSpan : Nat := 50000
  txPrecomp : Int := 0
  taps : Nat := 31
  tracking : Nat := 1
  nlcMode : Nat := 1
  joinWindow : Nat := 14
  daeShift : Nat := 4
  losThresh : Nat := 20
  timingBw : Nat := 1
  preemph : Nat := 0
  clip : Nat := 100
  deriving DecidableEq, Repr

/-- FEC error injection (R239). -/
structure Inject where
  mode : Nat := 0
  rateExp : Nat := 0
  period : Nat := 0
  deriving DecidableEq, Repr

/-- A spectral order (R205): the rank of each unit, the adjacent ranks and the pairs that may join. -/
structure Order where
  rank : List Nat := [0xFF, 0xFF, 0xFF, 0xFF]
  adj : Nat := 0
  joinEn : Nat := 0
  deriving DecidableEq, Repr

/-- One carrier unit. -/
structure CarrierUnit where
  /-- The format whose application time has come, those in action on each path, one waiting for its epoch, and those waiting for a
  frame boundary (R190). -/
  fmt : Option Format := none
  fmtTx : Option Format := none
  fmtRx : Option Format := none
  pending : Option (Format × Nat) := none
  dueTx : Option Format := none
  dueRx : Option Format := none
  /-- DSP settings last accepted, and in action on each path (R204). -/
  dsp : Dsp := {}
  dspRx : Dsp := {}
  dspTx : Dsp := {}
  txEn : Bool := false
  rxEn : Bool := false
  /-- A disable waits for its frame boundary (R203). -/
  txOff : Bool := false
  rxOff : Bool := false
  txCalibrated : Bool := false
  rxCalibrated : Bool := false
  /-- The mute applied at the last transmit boundary (R172). -/
  muted : Bool := false
  /-- ACQ_STATE of R184. -/
  acq : Nat := 0
  /-- FRAME was entered by a format or decoder change and has no maximum time (R184). -/
  hunting : Bool := false
  /-- A warm acquisition has values to start from (R185). -/
  held : Bool := false
  acqStart : Nat := 0
  cdEst : Int := 0
  dgdEst : Nat := 0
  snrEst : Nat := 0
  freqOffset : Int := 0
  sopRate : Nat := 0
  los : Bool := false
  lof : Bool := false
  lastLock : Tod := {}
  acqUs : Nat := 0
  /-- Decoder-aided equalisation (R199). -/
  daeSuspended : Bool := false
  daeDiscardRun : Nat := 0
  daeGoodRun : Nat := 0
  skewLo : Option Int := none
  skewHi : Option Int := none
  /-- The spectral order in action on the unit since its last frame boundary (R205). -/
  order : Order := {}
  /-- Transmit frames since the format applied; the staircase block before the one in progress, and the coded bits of that one already
  carried, whose number is SC_PHASE (R212, R217, R222). -/
  txFrames : Nat := 0
  txScBlock : List Bool := []
  txScPart : List Bool := []
  /-- OTUCn bits from the hub, the places in them where frames start with their KEY_EPOCH and TWIN_SEQ, and those of the frame in
  progress (R226, R227). -/
  otu : List Bool := []
  otuMarks : List (Nat × Bool × Option Word32) := []
  otuNow : Bool × Option Word32 := (false, none)
  /-- Receive frame alignment: the predicted counters and the run counts of R230; in FRAME, trained frames of the candidate and that
  one of its headers matched. -/
  rxFrameCnt : Nat := 0
  rxScPhase : Nat := 0
  rxAligned : Bool := false
  rxVerify : Nat := 0
  rxHeaderGood : Bool := false
  rxTrainFails : Nat := 0
  rxHeaderFails : Nat := 0
  rxDiffer : Nat := 0
  /-- Frames and OTUCn bits received since alignment (R228). -/
  rxFrames : Nat := 0
  rxOtuBits : Nat := 0
  /-- What the last ACF overhead said of the OTUCn it carries: valid, KEY_EPOCH, TWIN_SEQ. -/
  rxValid : Bool := false
  rxEpoch : Bool := false
  rxTwin : Option Word32 := none
  /-- The last ACF overhead passed its CRC. -/
  rxOhOk : Bool := true
  /-- The symbols of the last ACF sent: lanes XI, XQ, YI, YQ, and the square of their scale as a fraction, 1/2 or σ² (R210 to R214); the
  codes of its samples at the DACs (R168). -/
  line : List ((Int × Int × Int × Int) × Nat × Nat) := []
  dac : List (Int × Int × Int × Int) := []
  /-- The taps of the MIMO equaliser in 2⁻²⁰, filters XX, XY, YX, YY of TAPS taps each (R178). -/
  mimo : List (Int × Int) := []
  /-- The decoder's tap feedback of the frame in progress (R198, R199). -/
  feedback : List (Int × Int) := []
  /-- The timing loop: the fraction of the 32-bit phase accumulator and the loop's integrator (R177). -/
  phase : Nat := 0
  drift : Int := 0
  /-- The symbols last recovered, before nonlinear compensation; a joined neighbour reads them (R181, R193). -/
  recovered : List (Int × Int × Int × Int) := []
  /-- Codewords as the LDPC decoder decided them since the last ACF, group × 4 + codeword, and how many were decoded and how many of these
  did not converge (R199, R209). -/
  decided : Tbl (List Bool) := []
  cwTotal : Nat := 0
  cwUnconverged : Nat := 0
  /-- The staircase decoder (R231, R232): the blocks of its window as received and as corrected, the coded bits of the block in progress,
  whether that block is not held whole, the information bits not yet read (nothing before the first whole block) and the information
  positions of the frames they complete. -/
  scWindow : List (List Bool × List Bool) := []
  scPart : List Bool := []
  scSkip : Bool := false
  scInfo : List (Option Bool) := []
  scRooms : List Nat := []
  /-- OTUCn bits handed to the hub from the last ACF read, and where its overhead announced a frame start (R209, R226, R249). -/
  rxOtu : List (Option Bool) := []
  rxStart : Option Nat := none
  /-- Injection: stored, in force, and groups sent since it applied (R239). -/
  inject : Inject := {}
  injectForce : Inject := {}
  injectGroup : Nat := 0
  /-- Consecutive seconds state of R241. -/
  uncorrPrev : Bool := false
  deriving DecidableEq, Repr

/-- A die pair of the joinery: 0 CU0–CU1, 1 CU1–CU2, 2 CU2–CU3, 3 CU3–CU0 (R193 to R196). -/
structure Pair where
  joined : Bool := false
  /-- Each unit's compensation, the lower-numbered first, has the neighbour's terms since its own last frame boundary (R195, R196). -/
  termsA : Bool := false
  termsB : Bool := false
  sJoin : Int := 0
  /-- The last values of S within |S| ≤ W − 64 in consecutive frames, newest first, at most 64. -/
  recent : List Int := []
  missed : Nat := 0
  last : Option Int := none
  deriving DecidableEq, Repr

/-- The spectral order last commanded, and the pairs (R205). -/
structure Joinery where
  order : Order := {}
  pairs : Tbl Pair := []
  deriving DecidableEq, Repr

end Sys2Proof.Machine
end

