-- ==== Sys2Proof/Machine/Parts/Links.lean ====
section
/-! DEFINITION. The state of chapters 17 and 18 of spec/: counting units, record buffers, the stream port, Tenon ports and the
domain. -/

namespace Sys2Proof.Machine

/-- A counting unit (R445 to R448). The default is the unit after reset: MODE 2, every counter 0. -/
structure CountUnit where
  mode : Nat := 2
  /-- MODE 1: EVENT_j and FILTER_j for j = 0 to 7. -/
  events : List (Nat × Nat) := []
  counters : Tbl Nat := []
  /-- Local time at which the cycle counter of MODE 1 started, and its value latched. -/
  cycleStart : Nat := 0
  /-- The snapshot latched at the last second boundary. -/
  snapTod : Tod := {}
  snapMode : Nat := 2
  snapEvents : List (Nat × Nat) := []
  snap : Tbl Nat := []
  snapCycles : Nat := 0
  /-- A setting waiting for the next boundary (R448): mode and events. -/
  pending : Option (Nat × List (Nat × Nat)) := none
  /-- The counters that the settings waiting touch one after the other, and that one of them changes the mode. -/
  touched : List Nat := []
  modeTouched : Bool := false
  pendingClear : Bool := false
  /-- Trace sampling (R449, R461). -/
  traceOn : Bool := false
  traceK : Nat := 0
  tracePick : Nat := 0
  traceDir : Nat := 0
  traceFilter : Nat := 0xFFFFFFFF
  traceCount : Nat := 0
  /-- Tag tracking (R451). -/
  tagOn : Bool := false
  tagK : Nat := 0
  /-- The record buffer: kind (1 trace, 2 tag, 3 queue sample) and the 32 bytes, oldest first (R452). -/
  records : List (Nat × List Byte) := []
  /-- Records lost in the second running and in the one that ended (R453). -/
  lostNow : Nat := 0
  lostPrev : Nat := 0
  deriving DecidableEq, Repr

/-- The per-second counts of every family (R22, R505), indexed by family, instance and counter number; see `pmKey`. -/
structure Counters where
  live : Tbl Nat := []
  latched : Tbl Nat := []
  latchedTod : Tod := {}
  units : Tbl CountUnit := []
  deriving DecidableEq, Repr

/-- One lane's transmit coding state (R465, R466): scrambler history, last bit and run length, place in the block. -/
structure Lane where
  scrambler : BitVec 58 := 0x3FFFFFFFFFFFFFF#58
  lastBit : Bool := true
  run : Nat := 1
  blockBits : Nat := 0
  stuffed : Nat := 0
  deriving DecidableEq, Repr

/-- The credit, acknowledgement and replay state of one port (R457, R458), per virtual channel. -/
structure Credit where
  /-- Cells sent by this end, freed by the peer and granted by the peer. -/
  sent : Tbl Word32 := []
  peerFreed : Tbl Word32 := []
  peerGrant : Tbl Nat := []
  /-- Cells received and freed by this end. -/
  received : Tbl Word32 := []
  freed : Tbl Word32 := []
  /-- MSG_SEQ of the last data message sent and of the last accepted in order, and the last ACK received. -/
  txSeq : Word32 := 0
  rxSeq : Word32 := 0
  ackIn : Word32 := 0
  /-- Messages sent and not yet acknowledged, oldest first. -/
  replay : List Message := []
  /-- Messages waiting, per VC, oldest first. -/
  queues : Tbl (List Message) := []
  deriving DecidableEq, Repr

/-- The stream port (R455 to R463). STATE: 0 disabled, 1 training, 2 up, 3 electrical idle, 4 refused. -/
structure StreamPort where
  state : Nat := 0
  enabled : Bool := false
  lanes : Nat := 4
  drainMask : Nat := 0x007FFFFF
  /-- The counting unit served last, for the round robin of R452. -/
  lastUnit : Nat := 22
  credit : Credit := {}
  lane : Tbl Lane := []
  /-- Message bytes dealt to the lanes, for the place of the next (R455). -/
  dealt : Nat := 0
  /-- The link-control message last sent. -/
  sentControl : Option LinkControl := none
  deriving DecidableEq, Repr

/-- A Tenon port (R465 to R476). STATE: 0 off, 1 training, 2 authenticating, 3 up, 4 electrical idle, 5 DOWN. -/
structure TenonPort where
  role : Nat := 0
  state : Nat := 0
  rev : Nat := 0
  peerRole : Nat := 0xFF
  peerAddr : Nat := 0xFFFF
  peerFw : Nat := 0
  peerSerial : List Byte := []
  peerNonce : List Byte := []
  nonce : List Byte := []
  helloSent : Bool := false
  authSent : Bool := false
  authOk : Bool := false
  /-- A retrain is under way, and whether this is the first link-control message after training (R472). -/
  retraining : Bool := false
  firstControl : Bool := true
  sleepSent : Bool := false
  sleepSeen : Bool := false
  /-- The port has been DOWN since its role was set or it last came up, so coming up raises the epoch (R475). -/
  fellDown : Bool := false
  epoch : Word32 := 0
  credit : Credit := {}
  lane : Tbl Lane := []
  dealt : Nat := 0
  sentControl : Option LinkControl := none
  deriving DecidableEq, Repr

/-- The map of one ring level (R479). -/
structure RingMap where
  east : Nat := 0
  west : Nat := 0
  fws : Tbl Nat := []
  /-- The number of the manager that sent it. -/
  sender : Nat := 0
  deriving DecidableEq, Repr

/-- A distribution of R491. -/
structure Distribution where
  running : Bool := false
  scope : Nat := 0
  /-- Device addresses and the statuses they reported, and the devices the distribution is for. -/
  reports : List (Nat × Nat) := []
  targets : List Nat := []
  deriving DecidableEq, Repr

/-- Membership of a domain (R476 to R495). -/
structure Domain where
  ports : Tbl TenonPort := []
  address : Option Nat := none
  /-- 0 member, 1 active manager, 2 standby, 3 standby acting. -/
  mgrState : Nat := 0
  ringMgr : Nat := 0
  distMgr : Nat := 0
  rootAddr : Nat := 0
  /-- The floor held; none while unknown (R489). -/
  floor : Option Nat := some 0
  floorSeq : Nat := 0
  /-- A floor has been received, or read from the root's record, since the last hub reset. -/
  floorKnown : Bool := false
  hbMs : Nat := 10
  timeoutMs : Nat := 30
  collateMs : Nat := 100
  standbyEn : Bool := true
  /-- Maps by level: 0 ring, 1 district, 2 domain. -/
  maps : Tbl RingMap := []
  /-- The cause of the last EV_DOM_ENUM that left this device without a number; 0 none. -/
  enumFault : Nat := 0
  /-- The table of R478: level, serial, number. -/
  numbers : List (Nat × List Byte × Nat) := []
  /-- Messages held behind a fence, with the level, the numbers it covers and their destinations (R482). -/
  fenced : List (Nat × Nat × List (Nat × Message)) := []
  /-- ORIGIN, SESSION, SEQUENCE of the last 64 forwarded requests executed (R484). -/
  executed : List (Nat × Nat × Word32) := []
  /-- The same of replies passed on by this entry device (R481). -/
  passed : List (Nat × Nat × Word32) := []
  /-- SESSION, SEQUENCE and port of the last 64 requests this entry device forwarded. -/
  relayed : List (Nat × Word32 × Port) := []
  /-- The last event sequence forwarded, by source address (R481). -/
  eventSeen : Tbl (Option Word32) := []
  dist : Distribution := {}
  deriving DecidableEq, Repr

end Sys2Proof.Machine
end

