-- ==== Sys2Proof/Machine/Parts/Memory.lean ====
section
/-! DEFINITION. The state of chapter 12 of spec/: the four DRAM stacks. A word is named by its stack and its word address; a cell by
its number k in its stack (R318, R319). -/

namespace Sys2Proof.Machine

/-- A clamp entry (R329): word address, byte mask and the 16 bytes written, byte 0 the least significant. -/
structure ClampEntry where
  word : Nat
  mask : Nat
  bytes : List Byte
  deriving DecidableEq, Repr

/-- A log entry (R342). -/
structure MemLog where
  seq : Word32
  tod : Tod
  kind : Nat
  flags : Nat
  addr : Nat
  deriving DecidableEq, Repr

/-- One DRAM stack. -/
structure Stack where
  /-- RATE_WPS, DRAIN_MS and THRESH in force. -/
  rate : Nat := 6214
  drainMs : Nat := 1000
  thresh : Nat := 64
  /-- Cells the allocation map marks, and cells reserved for deskew (R321, R322). -/
  alloc : Tbl Bool := []
  deskew : Nat := 0
  /-- The data of the words, spares included; one not listed reads as 0 (R318, log entry 76). -/
  words : Tbl (BitVec 128) := []
  /-- Words, spares included, whose check bits are those of poison (R326). -/
  poison : Tbl Bool := []
  /-- The clamp, oldest entry first. -/
  clamp : List ClampEntry := []
  /-- The planer's next word, and passes completed. -/
  planer : Nat := 0
  passes : Word32 := 0
  /-- The watch list, oldest first: word read and pass (R333). -/
  watch : List (Nat × Word32) := []
  bucket : Nat := 0
  /-- The word each spare serves, + 1 (R337); retired spares; EV_SHIM_FULL has been raised (R338). -/
  shim : Tbl Nat := []
  retired : List Nat := []
  shimFull : Bool := false
  log : List MemLog := []
  logSeq : Word32 := 0
  /-- A retrain runs; the stack is marked failed; failed retrains in a row (R340, R341). -/
  retraining : Bool := false
  failed : Bool := false
  fails : Nat := 0
  /-- An audit runs, and the queues it covers (R336). -/
  audit : Option (List Nat) := none
  /-- Cells written, for the trace (R449). -/
  cellCount : Nat := 0
  deriving DecidableEq, Repr

/-- Chapter 12. -/
structure Memory where
  dramStacks : Tbl Stack := []
  /-- The stack the allocator turns to next (R321). -/
  next : Nat := 0
  deriving DecidableEq, Repr

end Sys2Proof.Machine
end

