-- ==== Sys2Proof/Machine/Parts/Monitor.lean ====
section
/-! DEFINITION. The state of chapter 16 of spec/: the monitor converters, their sequencers, injected conversions, decimation
channels, accumulator slots and trackers. -/

namespace Sys2Proof.Machine

/-- The marks of a value (R424). -/
structure Marks where
  precal : Bool := false
  unsettled : Bool := false
  clipped : Bool := false
  deriving DecidableEq, Repr

/-- A converter (R420, R422): the reference selected, a change of it that waits, and whether the reference in force has settled. -/
structure Converter where
  ref : Nat := 0
  want : Option Nat := none
  settled : Bool := true
  /-- The time a calibration step occupies the converter to, in the model's own nanoseconds (R159). -/
  busyUntil : Nat := 0
  deriving DecidableEq, Repr

/-- What a sequence entry or an injected request converts (R424). -/
structure Averager where
  input : Nat := 0
  avgLog2 : Nat := 1
  shift : Nat := 0
  deriving DecidableEq, Repr

/-- A sequence entry (R425). -/
structure SeqEntry where
  what : Averager := {}
  slot : Option Nat := none
  tracker : Option Nat := none
  decim : Option Nat := none
  deriving DecidableEq, Repr

/-- What MONITOR.SET_SEQUENCE sets (R425). -/
structure SeqTable where
  start : Nat := 0
  trigSrc : Nat := 0
  periodUs : Nat := 0
  entries : List SeqEntry := []
  deriving DecidableEq, Repr

/-- A sequencer (R425 to R428). -/
structure Sequencer where
  table : SeqTable := {}
  /-- A table that waits for the end of the pass in progress. -/
  waiting : Option SeqTable := none
  /-- The timer period in force, 0 before the first boundary that applies one (R428). -/
  periodInForce : Nat := 0
  /-- A pass is in progress, and the entry it converts. -/
  running : Bool := false
  entry : Nat := 0
  /-- Marks of conversions already in the value being averaged. -/
  carry : Marks := {}
  latched : Bool := false
  passes : Word32 := 0
  missed : Word32 := 0
  /-- TRIG_MISSED of the running second, and that it rose in the second before (R426). -/
  missedNow : Nat := 0
  missedBefore : Bool := false
  deriving DecidableEq, Repr

/-- An injected request on a converter and the journal entry that waits for it (R429). -/
structure Injection where
  what : Averager
  slot : Option Nat
  tracker : Option Nat
  entry : Nat
  carry : Marks := {}
  deriving DecidableEq, Repr

/-- The contents of an accumulator slot (R431). -/
structure SlotSum where
  sum : Nat := 0
  count : Nat := 0
  marks : Marks := {}
  flagged : Nat := 0
  saturated : Bool := false
  deriving DecidableEq, Repr

/-- An accumulator slot: its mode, its contents and those of the second that ended (R433). -/
structure MonSlot where
  perSecond : Bool := false
  now : SlotSum := {}
  last : SlotSum := {}
  deriving DecidableEq, Repr

/-- The contents of a tracker (R431). -/
structure Extremes where
  min : Nat := 0xFFFFFFFF
  max : Nat := 0
  marks : Marks := {}
  flagged : Nat := 0
  deriving DecidableEq, Repr

/-- A min/max tracker. -/
structure Tracker where
  perSecond : Bool := false
  now : Extremes := {}
  last : Extremes := {}
  deriving DecidableEq, Repr

/-- What MONITOR.SET_DECIM sets (R434 to R436). -/
structure DecimConfig where
  enabled : Bool := false
  snap : Bool := false
  n : Nat := 0
  m : Nat := 0
  rLog2 : Nat := 2
  resamp : Bool := false
  ratio : Nat := 0
  slot : Option Nat := none
  tracker : Option Nat := none
  deriving DecidableEq, Repr

/-- R inputs have entered: the value they formed and the number of inputs entered so far. -/
structure DecimDue where
  value : Nat
  entered : Nat
  deriving DecidableEq, Repr

/-- A decimation channel (R435 to R438). -/
structure Decim where
  config : DecimConfig := {}
  /-- integ[1] to integ[N]. -/
  integ : List Nat := []
  /-- comb[1] to comb[N], each its last M values, newest first. -/
  comb : List (List Nat) := []
  /-- The sum of SNAP. -/
  sum : Nat := 0
  /-- Inputs since the registers were cleared, and the number of the latest that carried each mark. -/
  entered : Nat := 0
  precalAt : Option Nat := none
  unsettledAt : Option Nat := none
  clippedAt : Option Nat := none
  /-- Values formed from R inputs whose output is still to be made. -/
  due : List DecimDue := []
  /-- The resampler: the last 12 inputs, newest first, and how far its next output lies ahead, in 2⁻²⁴ of an input. -/
  taps : List Nat := []
  ahead : Nat := 0
  settled : Bool := false
  deriving DecidableEq, Repr

/-- Chapter 16. -/
structure Monitor where
  converters : Tbl Converter := []
  /-- Pair mode, and a change of it that waits (R420, R423). -/
  pair : Bool := false
  wantPair : Option Bool := none
  sequencers : Tbl Sequencer := []
  /-- Injected requests, by converter. -/
  injections : Tbl (Option Injection) := []
  decims : Tbl Decim := []
  slots : Tbl MonSlot := []
  trackers : Tbl Tracker := []
  deriving DecidableEq, Repr

end Sys2Proof.Machine
end

