-- ==== Sys2Proof/Machine/Parts/Otn.lean ====
section
/-! DEFINITION. The state of chapters 09 and 10 of spec/: OTUCn framers, host clients, tributaries, FlexE groups and the
classifier. -/

namespace Sys2Proof.Machine

/-- The framer settings of R267. A trail trace of no bytes stands for 64 zero bytes. -/
structure FramerSettings where
  tti : List Byte := []
  sapi : List Byte := []
  dapi : List Byte := []
  timMode : Nat := 0
  timAct : Nat := 1
  aps : Nat := 0
  apsN : Nat := 3
  gcc0 : Nat := 0
  gcc1 : Nat := 0
  gcc2 : Nat := 0
  exp : Nat := 0
  linkId : Nat := 0
  tagCheck : Nat := 0
  expTag : Nat := 0
  maint : Nat := 0
  deriving DecidableEq, Repr

/-- The degrade settings of R262 and R263. -/
structure Degrade where
  thr : Nat := 0
  degM : Nat := 7
  preM : Nat := 3
  preSet : Nat := 0
  preClr : Nat := 0
  deriving DecidableEq, Repr

/-- A value with the number of consecutive times it has arrived. -/
structure Run where
  value : Nat := 0
  count : Nat := 0
  deriving DecidableEq, Repr

/-- A deframed OTUCn frame on its way to a deskew ring (R352): its twin sequence, its descrambled slices, the cells of it that are
bad, its key epoch and whether the ACF overhead that said so passed its CRC. -/
structure CopyFrame where
  seq : Option Word32
  slices : List (List Byte)
  bad : List Nat := []
  allBad : Bool := false
  epoch : Bool := false
  crcOk : Bool := true
  deriving DecidableEq, Repr

/-- An OTUCn framer (chapter 09). -/
structure Framer where
  set : FramerSettings := {}
  /-- The settings in force on receive, since its last frame boundary (R266). -/
  rxSet : FramerSettings := {}
  deg : Degrade := {}
  /-- A degrade setting waits for the boundary (R264). -/
  degNext : Option Degrade := none
  /-- Transmit: MFAS and OMFI of the next frame, frames since the format applied, the maintenance signal in force, BIP-8 of each slice
  of the last two frames, newest first, the violations to send back per slice, and the backward defect indications last sent: bit 0 SM,
  bit 1 PM. -/
  txMfas : Nat := 0
  txOmfi : Nat := 0
  txCount : Nat := 0
  /-- Frames received since the format applied (R449). -/
  rxCount : Nat := 0
  maintNow : Nat := 0
  txSm : List (List Byte) := []
  txPm : List (List Byte) := []
  beiSm : List Nat := []
  beiPm : List Nat := []
  txBdi : Nat := 0
  /-- Receive: 1 hunting, 2 verifying, 3 in frame, 4 OOF (R246); the n it aligned with, trained frames of a candidate, the MFAS
  expected, runs of errored and of correct FAS. -/
  state : Nat := 1
  n : Nat := 0
  verify : Nat := 0
  candMfas : Nat := 0
  mfas : Nat := 0
  fasBad : Nat := 0
  fasGood : Nat := 0
  /-- Frames with a wrong MFAS in a row, values in sequence in a row, and the last value (R247). -/
  mfasBad : Nat := 0
  mfasRun : Nat := 0
  lastMfas : Nat := 0
  /-- DEFECTS of R255 and the run counts of its persistence: set run at 2 × bit, clear run at 2 × bit + 1. -/
  defects : Nat := 0
  runs : Tbl Nat := []
  /-- The gathering period of R268 is open; the bits that changed in it. -/
  gather : Option Nat := none
  /-- Trail trace: bytes of the multiframe in progress, the last whole one and its run, the accepted one. -/
  ttiNow : List Byte := []
  ttiLast : List Byte := []
  ttiRun : Nat := 0
  accTti : Option (List Byte) := none
  /-- Passed pairs GCC0, GCC1, GCC2, EXP: received runs and accepted values. -/
  passed : Tbl Run := []
  accPassed : Tbl Nat := []
  tag : Run := {}
  accTag : Option Nat := none
  /-- APS: run, APS_N in force, accepted bytes, C, last received bytes (R259). -/
  aps : Run := {}
  apsN : Nat := 3
  accAps : Nat := 0
  apsC : Nat := 0
  rxAps : Nat := 0
  /-- PSI: runs by slice × 64 + byte, the accepted payload type, the accepted MSI entries by slot, each + 1 (R261). -/
  psi : Tbl Run := []
  accPt : Option Nat := none
  accMsi : Tbl Nat := []
  /-- BIP-8 of the last two received frames, newest first. -/
  rxSm : List (List Byte) := []
  rxPm : List (List Byte) := []
  /-- Degrade runs, whether SSF, LOF or LOM stood in this second, and a unit out of TRACKING in it. -/
  degBad : Nat := 0
  degGood : Nat := 0
  preBad : Nat := 0
  preGood : Nat := 0
  failNow : Bool := false
  lostTrack : Bool := true
  /-- The payload last handed to the demappers, slice by slice, and the slots in signal fail for that frame alone (R357, R387). -/
  payload : List (List Byte) := []
  frameFail : Nat := 0
  /-- A frame for the deskew ring (R352). -/
  copy : Option CopyFrame := none
  deriving DecidableEq, Repr

/-- A host client (R270 to R291). The default is a client not configured. -/
structure Client where
  kind : Nat := 0
  firstLane : Nat := 0
  lanes : Nat := 0
  laneRate : Nat := 0
  mode : Nat := 0
  zrCu : Nat := 0
  maxFrame : Nat := 0
  defQueue : Nat := 0xFFFFFFFF
  failLf : Nat := 0
  /-- LINK of R290. -/
  link : Nat := 0
  /-- Frames received, for the trace (R449). -/
  rxCount : Nat := 0
  /-- A lane of the client has left electrical idle and PCS alignment starts again (R67). -/
  realign : Bool := false
  deriving DecidableEq, Repr

/-- One direction of a transparent client's elastic buffer (R280, R281), oldest block first: 0 idle, 1 start, 2 data, 3 terminate. -/
structure Elastic where
  blocks : List Nat := []
  /-- A frame is being discarded on its way in; a frame is being sent on the way out. -/
  discarding : Bool := false
  sending : Bool := false
  /-- The rest of the frame on its way out is sent as error blocks. -/
  broken : Bool := false
  /-- The last block stored was idle. -/
  lastIdle : Bool := false
  deriving DecidableEq, Repr

/-- What a tributary is allocated (R277). KIND 0 is disabled. -/
structure Alloc where
  cu : Nat := 0
  kind : Nat := 0
  client : Nat := 0
  /-- Bit t is slot t. -/
  slots : Nat := 0
  deriving DecidableEq, Repr

/-- A tributary (R277, R278, R284): as last commanded, as in force since the last MFAS 0, its demapper (0 hunt, 1 pre-sync, 2 sync) and
frame counts, the GFP frame last sent and the scrambler of its payload area (R283). -/
structure Trib where
  set : Alloc := {}
  now : Alloc := {}
  gfp : Nat := 0
  txCount : Nat := 0
  rxCount : Nat := 0
  gfpSent : List Byte := []
  scrambler : BitVec 43 := 0
  deriving DecidableEq, Repr

/-- A FlexE calendar with the group and PHYs it belongs to: PHY type, member clients in PHY order, FlexE client of each slot, 0xFF
unused. -/
structure FlexECalendar where
  number : Nat
  phyType : Nat
  phys : List Nat
  slots : List Nat
  deriving DecidableEq, Repr

/-- A FlexE group (R275, R276): the calendar in use, nothing before the first switch, which of A and B it is, and the one a requested
switch brings. -/
structure FlexE where
  current : Option FlexECalendar := none
  useB : Bool := false
  pending : Option FlexECalendar := none
  deriving DecidableEq, Repr

/-- The egress FIFO of a client (R285): lengths of its frames, oldest first, bits of the oldest already sent and the local time of that
figure. -/
structure Egress where
  frames : List Nat := []
  sent : Nat := 0
  at_ : Nat := 0
  deriving DecidableEq, Repr

/-- Chapter 10. -/
structure Clients where
  clients : Tbl Client := []
  /-- Elastic buffers, client × 2 + direction, 0 ingress, 1 egress. -/
  elastic : Tbl Elastic := []
  egress : Tbl Egress := []
  tribs : Tbl Trib := []
  flexe : Tbl FlexE := []
  /-- The classifier: service queue + 1 by key (R286). -/
  classes : Tbl Nat := []
  /-- Symbols of the training burst that the lanes of a quad sent when they last left electrical idle (R67). -/
  bursts : Tbl Nat := []
  deriving DecidableEq, Repr

end Sys2Proof.Machine
end

