-- ==== Sys2Proof/Machine/Parts/Protect.lean ====
section
/-! DEFINITION. The state of chapter 13 of spec/: twin groups with their deskew rings, and the mirror pair. Times of a twin group are in
units of 10 ps, in which an OTUCn frame period is 122 368. -/

namespace Sys2Proof.Machine

/-- A frame in a deskew ring and its arrival. -/
structure RingFrame where
  seq : Word32
  at_ : Nat
  frame : CopyFrame
  deriving DecidableEq, Repr

/-- A copy of a twin group (R356): 0 ABSENT, 1 HUNTING, 2 PENDING, 3 ALIGNED. -/
structure Copy where
  state : Nat := 0
  /-- The last frame's sequence and arrival, frames in sequence while hunting, disagreeing frames and late frames in a row. -/
  last : Option (Word32 × Nat) := none
  verified : Nat := 0
  disagree : Nat := 0
  late : Nat := 0
  /-- Frames not yet played, oldest first. -/
  ring : List RingFrame := []
  deriving DecidableEq, Repr

/-- A twin group (R349). -/
structure Twin where
  enabled : Bool := false
  home : Nat := 0
  partner : Nat := 0
  guard_ : Nat := 4
  rebase : Nat := 0
  depthUs : Nat := 0
  prefer : Nat := 0
  /-- The sequence of the next frame sent (R351). -/
  txSeq : Word32 := 0
  a : Copy := {}
  b : Copy := {}
  /-- The next frame to play and its time; nothing before the first copy has aligned. -/
  next : Option (Word32 × Nat) := none
  /-- Playout has stopped for want of an aligned copy (R360). -/
  stopped : Bool := true
  /-- The copy of the cell last played: 0 A, 1 B; none at the start and after a cell bad in both. -/
  lastCopy : Option Nat := none
  /-- The copy that cell came from, A for one bad in both (R357). -/
  lastFrom : Option Nat := none
  deriving DecidableEq, Repr

/-- The mirror pair (R362 to R366): 0 DISABLED, 1 STANDBY, 2 CLAIMING, 3 ACTIVE, 4 HELD_OFF. -/
structure Mirror where
  state : Nat := 0
  bracePort : Nat := 0
  releaseMask : Nat := 0
  muteCu : Nat := 0
  clientMask : Nat := 0
  /-- MIR_ACT_IN has been seen asserted at the claim sample: the TIE 1 device samples again. -/
  tieSample : Bool := false
  /-- PROTECT.CLAIM has ordered a claim; EV_MIRROR_STATE's cause for the claim under way. -/
  wantClaim : Bool := false
  claimCause : Nat := 0
  /-- Causes of R365 that hold now, by bit, so that each is reported when it begins. -/
  conflicts : Nat := 0
  /-- The lanes are idle and the mutes applied, and MIR_ACT_OUT is still to fall; the cause of EV_MIRROR_STATE. -/
  releasing : Option Nat := none
  /-- The last release is less than 1 ms old. -/
  holdoff : Bool := false
  /-- The brace link is up; heartbeats missed in a row; what the peer said last. -/
  brace : Bool := false
  missed : Nat := 0
  peerState : Option Nat := none
  peerTie : Bool := false
  peerFw : Nat := 0
  peerDigest : List Byte := []
  switchovers : Word32 := 0
  deriving DecidableEq, Repr

/-- Chapter 13. -/
structure Protect where
  twins : Tbl Twin := []
  mirror : Mirror := {}
  deriving DecidableEq, Repr

end Sys2Proof.Machine
end

