-- ==== Sys2Proof/Machine/Parts/Sched.lean ====
section
/-! DEFINITION. The state of chapter 11 of spec/: port nodes, subscriber nodes, service queues, gate lists and sampling. Credit is in
µB; a tick is 8 ns of the model's clock. -/

namespace Sys2Proof.Machine

/-- A credit of R300 or R303: its rate and burst, its value at a tick and that tick. -/
structure Tokens where
  rate : Nat := 0
  burst : Nat := 0
  credit : Int := 0
  at_ : Nat := 0
  deriving DecidableEq, Repr

/-- A frame in DRAM: its length in bytes, its cell pointers (R319), the ToD and the local time of its enqueue. -/
structure StoredFrame where
  len : Nat
  cells : List Nat
  enq : Tod
  at_ : Nat
  deriving DecidableEq, Repr

/-- Deficit round robin among a node's children (R298): the child that sent last and the deficits in bytes. -/
structure Rotation where
  turn : Option Nat := none
  deficits : Tbl Nat := []
  deriving DecidableEq, Repr

/-- A service queue. -/
structure SvcQueue where
  enabled : Bool := false
  sub : Nat := 0
  cls : Nat := 0
  prio : Nat := 0
  weight : Nat := 0
  tok : Tokens := {}
  limitKib : Nat := 0
  policing : Bool := false
  pol : Tokens := {}
  quarantined : Bool := false
  frames : List StoredFrame := []
  /-- Frames that have left, for the trace (R449). -/
  count : Nat := 0
  deriving DecidableEq, Repr

/-- A subscriber node. -/
structure SubNode where
  enabled : Bool := false
  port : Nat := 0
  prio : Nat := 0
  weight : Nat := 0
  tok : Tokens := {}
  rot : Rotation := {}
  deriving DecidableEq, Repr

/-- A gate list: entries of MASK and DURATION, and its START in nanoseconds of ToD (R306). -/
structure GateList where
  entries : List (Nat × Nat)
  start : Nat
  deriving DecidableEq, Repr

/-- A port node: its lists, whether it is handing a frame to its mapper, its rotation. -/
structure PortNode where
  gates : Option GateList := none
  pending : Option GateList := none
  busy : Bool := false
  rot : Rotation := {}
  deriving DecidableEq, Repr

/-- A slice's sampling (R310); COUNT 0 is off. -/
structure Sampling where
  first : Nat := 0
  count : Nat := 0
  intervalUs : Nat := 0
  next : Option (Nat × Nat × Nat) := none
  deriving DecidableEq, Repr

/-- A SCHED.SET_SUBSCRIBER or SCHED.SET_QUEUE waiting for its cell boundary: its journal entry, and its payload. -/
structure SchedChange where
  entry : Nat
  isQueue : Bool
  payload : List Byte
  deriving DecidableEq, Repr

/-- Chapter 11. -/
structure Sched where
  queues : Tbl SvcQueue := []
  subs : Tbl SubNode := []
  ports : Tbl PortNode := []
  sampling : Tbl Sampling := []
  waiting : List SchedChange := []
  deriving DecidableEq, Repr

end Sys2Proof.Machine
end

