-- ==== Sys2Proof/Machine/Parts/Security.lean ====
section
/-! DEFINITION. The state of chapter 14 of spec/: the owner record, keys, line channels, the bench engine and the security
alarm. -/

namespace Sys2Proof.Machine

/-- A host key slot of R377. Rank 0 is empty, 1 SUPERVISOR, 2 OPERATOR. -/
structure HostKey where
  rank : Nat := 0
  pub : List Byte := []
  deriving DecidableEq, Repr

/-- The owner record in force (R377). -/
structure OwnerRecord where
  copy : Nat
  seq : Nat
  root : Nat
  keys : Tbl HostKey
  debugKey : Option (List Byte)
  deriving DecidableEq, Repr

/-- A key slot (R381). State 0 EMPTY, 1 LOADED, 2 ERASED. -/
structure KeySlot where
  state : Nat := 0
  usage : Nat := 0
  key : List Byte := []
  counter : Nat := 0
  warned : Bool := false
  deriving DecidableEq, Repr

/-- What the engine of one direction holds of the last frame, until its tag travels in the next one (R373, R387). -/
structure TagWait where
  epoch : Nat
  counter : Nat
  tag : List Byte
  deriving DecidableEq, Repr

/-- A line channel (R382 to R387), one for each carrier unit and direction. -/
structure Channel where
  secure : Bool := false
  /-- A MODE change waiting for MFAS 0 at or after a ToD second. -/
  modeDue : Option (Bool × Nat) := none
  slot0 : Option Nat := none
  slot1 : Option Nat := none
  fixed : Nat := 0
  warn : Nat := 2 ^ 47
  /-- Transmit: E. Receive: the epoch of the last frame whose tag passed. -/
  epoch : Nat := 0
  /-- Receive: some tag has passed, so `epoch` is in use (R384). -/
  passed : Bool := false
  rollover : Bool := false
  /-- 0 none, or the cause 1 to 3 of R388. -/
  squelch : Nat := 0
  /-- Receive: last accepted counter of each position (R387). -/
  last0 : Option Nat := none
  last1 : Option Nat := none
  /-- Receive: signal fail since a tag failed, and a keyless frame since a passed tag. -/
  tagFailed : Bool := false
  noKey : Bool := false
  /-- Receive: EV_SEC_SQUELCH has told of a keyless frame since the last passed tag (R387). -/
  told : Bool := false
  wait : Option TagWait := none
  /-- PM_SEC_AUTH_FAIL of the second before was nonzero. -/
  authPrev : Bool := false
  deriving DecidableEq, Repr

/-- A request of the bench queue (R389, R381); each names its journal entry. -/
inductive Bench where
  | load (slot kek : Nat) (blob : List Byte) (entry : Nat)
  | seal (slot : Nat) (fixed aad text : List Byte) (entry : Nat)
  | unseal (slot : Nat) (iv tag aad text : List Byte) (entry : Nat)
  deriving DecidableEq, Repr

/-- Chapter 14. -/
structure Security where
  record : Option OwnerRecord := none
  /-- KEKs 0 to 7; empty is no key. -/
  keks : Tbl (List Byte) := []
  slots : Tbl KeySlot := []
  /-- Channels, unit × 2 + direction. -/
  channels : Tbl Channel := []
  bench : List Bench := []
  entropyOk : Bool := true
  /-- Actions of causes 1 to 9 and the three thresholds (R391, R393). -/
  actions : List Nat := [1, 1, 1, 2, 2, 0, 1, 1, 1]
  thrFw : Nat := 1
  thrSession : Nat := 16
  thrBlob : Nat := 16
  fails : Tbl Nat := []
  /-- Cause 3 persists. -/
  hot : Bool := false
  /-- The last cause fired while Salurn was not running (R392): cause, action. -/
  deferred : Option (Nat × Nat) := none
  /-- Erases performed while Salurn was not running, whose events are still to be raised: class, index, source. -/
  deferredErase : List (Nat × Nat × Nat) := []
  /-- What has been erased in the SILL_CLK cycle that runs (R21): key slots by number, 128 every slot, 129 every KEK, 256 + k KEK k. -/
  erasedNow : List Nat := []
  digest : List Byte := List.replicate 64 0
  configCount : Word32 := 0
  deriving DecidableEq, Repr

end Sys2Proof.Machine
end

