-- ==== Sys2Proof/Machine/Parts/Timing.lean ====
section
/-! DEFINITION. The state of chapter 15 of spec/: sources, the timing state, the DCO, the time of day and the outputs. -/

namespace Sys2Proof.Machine

/-- A source of R401. -/
structure Source where
  mode : Nat := 0
  freq : Nat := 0
  present : Bool := false
  qualified : Bool := false
  f : Int := 0
  /-- One-second averages of f, newest first, at most 64, and the running second's sum and count (R403). -/
  averages : List Int := []
  sum : Int := 0
  count : Nat := 0
  /-- Time for which every window has been beyond DISQ_PPB, and the number of the second in which that began. -/
  driftMs : Nat := 0
  driftSince : Nat := 0
  /-- Values of f since the source was last absent, newest first, at most REQ_S seconds of them. -/
  recent : List Int := []
  deriving DecidableEq, Repr

/-- A slew of R411. -/
structure Slew where
  remain : Int
  total : Int
  ppm : Nat
  ticks : Nat := 0
  deriving DecidableEq, Repr

/-- The outputs of TIMING.SET_OUTPUTS (R416). -/
structure Outputs where
  clk0 : Nat := 0
  clk1 : Nat := 0
  squelch : Nat := 0x18
  flags : Nat := 0
  ppsWidth : Nat := 1000
  ppsOffset : Int := 0
  framePeriod : Nat := 125000
  frameWidth : Nat := 64
  deriving DecidableEq, Repr

/-- A pulse output's schedule (R414). -/
structure Pulse where
  on : Bool := false
  period : Nat := 0
  offset : Int := 0
  /-- Local time of the last pulse sent and of the next. -/
  last : Option Nat := none
  next : Nat := 0
  /-- The schedule less the ToD grid, moved by steps and slews only. -/
  shift : Int := 0
  deriving DecidableEq, Repr

/-- Chapter 15. -/
structure Timing where
  tod : Tod := {}
  /-- The sill's fine accumulator above the last 8 ns, in units of 4 × 10⁻¹³ ns (R410). -/
  fine : Nat := 0
  /-- Number of second boundaries issued. -/
  seconds : Nat := 0
  w : Int := 0
  steer : Int := 0
  holdW : Int := 0
  /-- The hold value has been taken since timing last left ACQUIRING or LOCKED. -/
  holdTaken : Bool := false
  /-- 0 FREE_RUN, 1 ACQUIRING, 2 LOCKED, 3 HOLDOVER, 4 LOST (R405). -/
  state : Nat := 0
  refSel : Nat := 0
  sources : Tbl Source := []
  lineCu : Nat := 0
  hostClient : Nat := 0
  bw : Nat := 1
  disqPpb : Nat := 2000
  dwellMs : Nat := 100
  reqS : Nat := 10
  phaseSlew : Nat := 1000
  freqRate : Nat := 1000
  /-- Output less selected source as last measured, in ns, and by how much the output phase has moved since, in ps (R407). -/
  phaseErr : Option Int := none
  phaseMoved : Int := 0
  /-- Means of W over whole LOCKED seconds, newest first, at most 64, each with its second's number (R406). -/
  means : List (Nat × Int) := []
  wSum : Int := 0
  wCount : Nat := 0
  /-- The running second has been LOCKED throughout. -/
  wholeLocked : Bool := false
  slew : Option Slew := none
  /-- A MODE 2 step: the ToD second to take, and the local time by which it expires. -/
  atPps : Option (Nat × Nat) := none
  /-- Actions a reset cancelled, reported when Salurn reaches RUN: MODE, change applied. -/
  cancelled : List (Nat × Int) := []
  outputs : Outputs := {}
  pps : Pulse := { period := 1000000000 }
  frame : Pulse := { period := 125000 }
  realign : Nat := 0
  ppsTs : Tod := {}
  /-- Local time of the last accepted PPS_IN edge. -/
  ppsAt : Option Nat := none
  ppsRejects : Word32 := 0
  deriving DecidableEq, Repr

end Sys2Proof.Machine
end

