-- ==== Sys2Proof/Machine/State.lean ====
section
/-! DEFINITION. The whole state of the device, plain data, and the state right after a sill power-on. -/

namespace Sys2Proof.Machine

/-- Why a step stops with an error of the program's making. The spec gives every command of the table an effect, so no command
faults and the type has no constructor (log entry 2); safe. -/
inductive Fault where
  deriving DecidableEq, Repr

/-- Why a step is refused. -/
inductive Refusal where
  /-- Raised by an arm of `exec` whose command has no meaning yet; safe. -/
  | notModelled (mnemonic : String)
  deriving DecidableEq, Repr

/-- The device. Field docstrings name the chapter of spec/ each part comes from. -/
structure State where
  /-- Chapter 02: pins. -/
  pins : Pins := {}
  /-- Chapters 03 and 04: the sill. -/
  sill : Sill := {}
  /-- Chapter 03. -/
  power : Power := {}
  /-- R92, R376. -/
  otp : Otp := {}
  /-- The flash of R88, by address; a byte not listed reads 0xFF, erased. -/
  flash : Tbl Byte := []
  /-- Chapter 04. -/
  fw : Fw := {}
  /-- Chapter 05 and R512. -/
  control : Control := {}
  /-- Chapter 17: per-second counts and counting units. -/
  counters : Counters := {}
  /-- Chapter 17: the stream port. -/
  stream : StreamPort := {}
  /-- Chapter 18. -/
  domain : Domain := {}
  /-- Chapter 06: calibration of carrier units 0 to 3 and of the monitor ADC as 4. -/
  cal : Tbl Cal := []
  /-- Chapter 06: calibrated elements, unit × 65536 + parameter × 256 + element. -/
  elements : Tbl Element := []
  /-- Chapters 07 and 08: carrier units. -/
  carrier : Tbl CarrierUnit := []
  joinery : Joinery := {}
  /-- Chapter 09: framers. -/
  framer : Tbl Framer := []
  /-- Chapter 10. -/
  client : Clients := {}
  /-- Chapter 11. -/
  sched : Sched := {}
  /-- Chapter 12. -/
  memory : Memory := {}
  /-- Chapter 13. -/
  protect : Protect := {}
  /-- Chapter 14. -/
  security : Security := {}
  /-- Chapter 15. -/
  timing : Timing := {}
  /-- Chapter 16. -/
  monitor : Monitor := {}
  /-- The model's own clock: nanoseconds of time-bus ticks since the model began, never reset; timers are judged by it. -/
  localNs : Nat := 0
  /-- The model's own counter of free values drawn (log entry 3). -/
  fresh : Nat := 0
  /-- Commands waiting, first in, first out. -/
  pending : List Instr := []
  deriving DecidableEq, Repr

/-- Right after a sill power-on (R80): the sill out of its own reset, the hub held until the supplies are valid and RESET_N
rises (R87), OTP and flash blank (log entry 5), nothing commanded. -/
def State.reset : State := {}

/-- What every command answers. -/
abbrev Result := Host.Outcome State Fault Refusal

end Sys2Proof.Machine
end

