-- ==== Sys2Proof/Machine/Ops.lean ====
section
/-! DEFINITION. The named operations that commands share: access to each part of the state, time, free values, counters,
events and flash. -/

namespace Sys2Proof.Machine

/-- A W1C bit set by hardware; it is remembered until the SILL_CLK cycle ends (R7). -/
def Sill.mark (b : Sticky) (x : Sill) : Sill :=
  let x := { x with setNow := if x.setNow.contains b then x.setNow else x.setNow ++ [b] }
  match b with
  | .thermal => { x with thermal := true }
  | .supply => { x with supplyAlarm := true }
  | .mem => { x with memAlarm := true }
  | .mpRestart => { x with mpRestartAlarm := true }
  | .crcErr => { x with crcErr := true }
  | .overrun => { x with overrun := true }
  | .underrun => { x with underrun := true }

/-- A W1C bit after a write of `w` to it: clear where a 1 is written, but not in the cycle in which hardware set it (R7). -/
def Sill.cleared (x : Sill) (b : Sticky) (was w : Bool) : Bool := was && !(w && !x.setNow.contains b)

/-! Access to parts. -/

def modPins (f : Pins → Pins) (s : State) : State := { s with pins := f s.pins }
def modSill (f : Sill → Sill) (s : State) : State := { s with sill := f s.sill }
def modPower (f : Power → Power) (s : State) : State := { s with power := f s.power }
def modFw (f : Fw → Fw) (s : State) : State := { s with fw := f s.fw }
def modControl (f : Control → Control) (s : State) : State := { s with control := f s.control }
def modStream (f : StreamPort → StreamPort) (s : State) : State := { s with stream := f s.stream }
def modDomain (f : Domain → Domain) (s : State) : State := { s with domain := f s.domain }
def modSecurity (f : Security → Security) (s : State) : State := { s with security := f s.security }
def modTiming (f : Timing → Timing) (s : State) : State := { s with timing := f s.timing }
def modJoinery (f : Joinery → Joinery) (s : State) : State := { s with joinery := f s.joinery }

/-- Carrier unit `u` (chapters 07 and 08). -/
def State.cu (s : State) (u : Nat) : CarrierUnit := tblGet {} s.carrier u
def modCu (u : Nat) (f : CarrierUnit → CarrierUnit) (s : State) : State := { s with carrier := tblMod {} s.carrier u f }

/-- The framer of unit `u` (chapter 09). -/
def State.frm (s : State) (u : Nat) : Framer := tblGet {} s.framer u
def modFramer (u : Nat) (f : Framer → Framer) (s : State) : State := { s with framer := tblMod {} s.framer u f }

/-- Calibration of unit `u`; 4 is the monitor ADC. -/
def State.calOf (s : State) (u : Nat) : Cal := tblGet {} s.cal u
def modCal (u : Nat) (f : Cal → Cal) (s : State) : State := { s with cal := tblMod {} s.cal u f }

/-- The governed domain of a class and index (R55). -/
def domKey (cls idx : Nat) : Nat := cls * 16 + idx
def State.dom (s : State) (cls idx : Nat) : PowerDomain := tblGet {} s.power.domains (domKey cls idx)
def modDom (cls idx : Nat) (f : PowerDomain → PowerDomain) (s : State) : State :=
  modPower (fun p => { p with domains := tblMod {} p.domains (domKey cls idx) f }) s

/-- A line channel: unit and direction, 0 transmit, 1 receive. -/
def State.channel (s : State) (u d : Nat) : Channel := tblGet {} s.security.channels (u * 2 + d)
def modChannel (u d : Nat) (f : Channel → Channel) (s : State) : State :=
  modSecurity (fun c => { c with channels := tblMod {} c.channels (u * 2 + d) f }) s

/-- A key slot. -/
def State.slot (s : State) (i : Nat) : KeySlot := tblGet {} s.security.slots i
def modSlot (i : Nat) (f : KeySlot → KeySlot) (s : State) : State :=
  modSecurity (fun c => { c with slots := tblMod {} c.slots i f }) s

/-- A timing source. -/
def State.source (s : State) (k : Nat) : Source := tblGet {} s.timing.sources k
def modSource (k : Nat) (f : Source → Source) (s : State) : State :=
  modTiming (fun t => { t with sources := tblMod {} t.sources k f }) s

/-- A Tenon port. -/
def State.tenon (s : State) (p : Nat) : TenonPort := tblGet {} s.domain.ports p
def modTenon (p : Nat) (f : TenonPort → TenonPort) (s : State) : State :=
  modDomain (fun d => { d with ports := tblMod {} d.ports p f }) s

/-- A counting unit. -/
def State.countUnit (s : State) (u : Nat) : CountUnit := tblGet {} s.counters.units u
def modCountUnit (u : Nat) (f : CountUnit → CountUnit) (s : State) : State :=
  { s with counters := { s.counters with units := tblMod {} s.counters.units u f } }

/-! Salurn and the hub. -/

/-- The hub is out of reset (HUB_UP). -/
def State.hubUp (s : State) : Bool := decide (s.sill.hold = .released)

/-- Salurn runs: STAGE RUN and no management-processor restart under way. -/
def State.salurnRuns (s : State) : Bool := decide (s.sill.stage = .run ∧ s.control.mp = .running)

/-- Blocks run: the hub is out of reset and Salurn has reached RUN since, so a restart or a halt leaves them running (R24, R93). -/
def State.blocksRun (s : State) : Bool := s.hubUp && s.control.everRun

/-- Traffic runs: blocks run and no EXTEST has stopped traffic (R45). -/
def State.trafficRuns (s : State) : Bool := s.blocksRun && !s.pins.trafficStopped

/-- Do `f` when `c` holds; a command whose condition does not hold leaves everything as it was (log entry 6). -/
def when (c : Bool) (f : State → State) (s : State) : State := if c then f s else s

/-- Run `f` for each element in turn. -/
def forEach {α : Type} : List α → (α → State → State) → State → State
  | [], _, s => s
  | a :: r, f, s => forEach r f (f a s)

/-! Time. -/

def billion : Nat := 1000000000

/-- The ToD in nanoseconds. -/
def Tod.toNs (t : Tod) : Nat := t.sec * billion + t.ns

/-- The ToD of a number of nanoseconds, the seconds modulo 2⁴⁸ (R419). -/
def Tod.ofNs (n : Nat) : Tod := ⟨n / billion % 2 ^ 48, n % billion⟩

/-- The 10 bytes of a ToD (R410). -/
def Tod.bytes (t : Tod) : List Byte := be 6 t.sec ++ be 4 t.ns

/-- The ToD has reached second `e`. -/
def State.reached (s : State) (e : Nat) : Bool := decide (e ≤ s.timing.tod.sec)

/-! Free values (log entry 3). -/

def drawNat (s : State) : Nat × State := (Config.freeNat s.fresh, { s with fresh := s.fresh + 1 })
def drawInt (s : State) : Int × State := (Config.freeInt s.fresh, { s with fresh := s.fresh + 1 })
/-- A free value below `n`, or 0 when n is 0. -/
def drawBelow (n : Nat) (s : State) : Nat × State := (Config.freeNat s.fresh % n, { s with fresh := s.fresh + 1 })
/-- A random choice with probability 2⁻ᵏ, whose outcome is free. -/
def drawPick (k : Nat) (s : State) : Bool × State :=
  if k = 0 then (true, s) else (decide (Config.freeNat s.fresh % 2 ^ k = 0), { s with fresh := s.fresh + 1 })
def drawBytes (n : Nat) (s : State) : List Byte × State :=
  ((List.range n).map (fun i => Config.freeByte (s.fresh + i)), { s with fresh := s.fresh + n })

/-! Counters (R22, R445 to R448, R505). -/

/-- The families of per-second counters, numbered for `pmKey`: R207 and R240, R265 and R399, R293, R311, R347, R371, R462 and R496. -/
def pmCu : Nat := 0
def pmFramer : Nat := 1
def pmClient : Nat := 2
def pmTrib : Nat := 3
def pmQueue : Nat := 4
def pmSub : Nat := 5
def pmPort : Nat := 6
def pmSlice : Nat := 7
def pmStack : Nat := 8
def pmTwin : Nat := 9
def pmMirror : Nat := 10
def pmDevice : Nat := 11
def pmTenon : Nat := 12

/-- The place of counter `ev` of instance `inst` of a family. -/
def pmKey (fam inst ev : Nat) : Nat := (fam * 2 ^ 17 + inst) * 128 + ev

/-- The FlexE calendars that a group holds. -/
def FlexE.calendars (g : FlexE) : List FlexECalendar := g.current.toList ++ g.pending.toList

/-- The corner of a client: that of its first lane, or of its FlexE group's first PHY (R445). -/
def State.clientCorner (s : State) (c : Nat) : Nat :=
  let k := tblGet {} s.client.clients c
  let phy := if k.mode ≠ 4 then c else match s.client.flexe.find? (fun g => g.2.current.any (fun x => x.slots.contains c)) with
    | some (_, g) => ((g.current.map (fun x => x.phys)).getD []).headD c
    | none => c
  (tblGet {} s.client.clients phy).firstLane / 16

/-- The counting unit, event and instance of R445 that count what a family's counter counts. -/
def countPlace (s : State) (fam inst ev : Nat) : Nat × Nat × Nat :=
  if fam = pmCu then (inst, ev, 0xFFFF)
  else if fam = pmFramer then (4 + inst, ev, 0xFFFF)
  else if fam = pmClient then (8 + s.clientCorner inst, ev, inst)
  else if fam = pmTrib then (12, ev, inst)
  else if fam = pmQueue then (13 + inst / 16384, ev, inst % 16384)
  else if fam = pmSub then (13 + inst / 4096, 16 + ev, inst % 4096)
  else if fam = pmPort then (13 + inst / 32, 18 + ev, inst % 32)
  else if fam = pmSlice then (13 + inst, 24, 0xFFFF)
  else if fam = pmStack then (21, ev, inst)
  else if fam = pmTwin then (22, ev, inst)
  else if fam = pmMirror then (22, 10 + ev, 0xFFFF)
  else if fam = pmDevice then (23, ev, 0xFFFF)
  else (23, ev, inst)

/-- The counters of one counting unit after `n` occurrences of event `ev` at instance `inst` (R445, R446). -/
def CountUnit.add (c : CountUnit) (ev inst n : Nat) : CountUnit :=
  if c.mode = 2 then { c with counters := tblMod 0 c.counters ev (fun v => (v + n) % 2 ^ 48) }
  else { c with counters := (List.range 8).foldl (fun t j =>
    match c.events[j]? with
    | some (e, f) => if e = ev ∧ (f = 0xFFFF ∨ f = inst) then tblMod 0 t j (fun v => (v + n) % 2 ^ 48) else t
    | none => t) c.counters }

/-- Count `n` occurrences: in the running second and in the counting unit. -/
def bump (fam inst ev n : Nat) (s : State) : State :=
  if n = 0 then s else
    let (u, e, i) := countPlace s fam inst ev
    let s := { s with counters := { s.counters with live := tblMod 0 s.counters.live (pmKey fam inst ev) (· + n) } }
    modCountUnit u (fun c => c.add e i n) s

/-- The count of the running second, and of the last one. -/
def State.live (s : State) (fam inst ev : Nat) : Nat := tblGet 0 s.counters.live (pmKey fam inst ev)
def State.latched (s : State) (fam inst ev : Nat) : Nat := tblGet 0 s.counters.latched (pmKey fam inst ev)

/-- Set a counter of the running second that reports a level, not a count. -/
def setLive (fam inst ev n : Nat) (s : State) : State :=
  { s with counters := { s.counters with live := tblSet 0 s.counters.live (pmKey fam inst ev) n } }

/-- The body of a GET_COUNTS reply: ToD of the boundary, two reserved bytes, `n` 64-bit counts from number `from`. -/
def countsReply (s : State) (fam inst start n : Nat) : List Byte :=
  s.counters.latchedTod.bytes ++ zeros 2 ++ (List.range n).flatMap (fun i => be 8 (s.latched fam inst (start + i)))

/-- Write a record to a unit's buffer of 16 384, or lose it (R452, R453); unit events 62 and 63 count both. -/
def writeRecord (u kind : Nat) (r : List Byte) (s : State) : State :=
  modCountUnit u (fun c =>
    if c.records.length < 16384 then ({ c with records := c.records ++ [(kind, r)] }).add 62 0xFFFF 1
    else ({ c with lostNow := c.lostNow + 1 }).add 63 0xFFFF 1) s

/-- A unit's record buffer is full. -/
def State.bufferFull (s : State) (u : Nat) : Bool := decide (16384 ≤ (s.countUnit u).records.length)

/-- The trace record of R450. -/
def traceRecord (tod : Tod) (flags item queue addr latency len : Nat) : List Byte :=
  tod.bytes ++ be 1 flags ++ zeros 1 ++ be 4 (item % 2 ^ 32) ++ be 4 queue ++ be 4 addr ++
    be 4 (min latency 0xFFFFFFFF) ++ be 2 len ++ zeros 2

/-- A work item passes the sampling point of unit `u` (R449): decide whether it is sampled, and write its record. -/
def traceItem (u dir inst flags item queue addr latency len : Nat) (s : State) : State :=
  let c := s.countUnit u
  if !c.traceOn || (4 ≤ u && u ≤ 7 && c.traceDir != dir) || (c.traceFilter != 0xFFFFFFFF && c.traceFilter != inst) then s
  else
    let (pick, s) := if c.tracePick = 0 then (decide ((c.traceCount + 1) % 2 ^ c.traceK = 0), s) else drawPick c.traceK s
    let s := modCountUnit u (fun c => { c with traceCount := c.traceCount + 1 }) s
    if pick then writeRecord u 1 (traceRecord s.timing.tod flags item queue addr latency len) s else s

/-! Events (R127, R128, R512). -/

/-- Whether a route carries a family. EV_EVENTS_LOST travels whatever the mask holds (R522). -/
def Route.carries (r : Route) (code : Nat) : Bool := r.mask.toNat.testBit (code / 256)

/-- Offer an event to a route: queue it, or drop it when the queue of 1 024 is full. The Bool says it was dropped. -/
def Route.offer (r : Route) (e : EventRec) : Route × Bool :=
  if !r.carries e.code then (r, false)
  else if 1024 ≤ r.queue.length ∨ 0 < r.lost then
    ({ r with lost := min (r.lost + 1) 0xFFFFFFFF, firstLost := if r.lost = 0 then e.seq else r.firstLost }, true)
  else ({ r with queue := r.queue ++ [e] }, false)

/-- The three routes: 0 control port, 1 Tenon, 2 stream. -/
def State.route (s : State) (k : Nat) : Route :=
  if k = 0 then s.control.routeCp else if k = 1 then s.control.routeTenon else s.control.routeStream
def modRoute (k : Nat) (f : Route → Route) (s : State) : State :=
  modControl (fun c => if k = 0 then { c with routeCp := f c.routeCp } else if k = 1 then { c with routeTenon := f c.routeTenon }
    else { c with routeStream := f c.routeStream }) s

/-- The history keeps the last 4 096 events (R512). -/
def remember (e : EventRec) (s : State) : State :=
  modControl (fun c => { c with history := (c.history ++ [e]).drop (c.history.length + 1 - 4096) }) s

/-- Take the next event sequence of the sill (R127). -/
def nextEventSeq (s : State) : State := modSill (fun x => { x with eventSeq := x.eventSeq + 1 }) s

/-- A route that dropped events and has space again queues EV_EVENTS_LOST (R128). -/
def flushLost (k : Nat) (s : State) : State :=
  let r := s.route k
  if r.lost = 0 ∨ 1024 ≤ r.queue.length then s else
    let e : EventRec := ⟨s.sill.eventSeq, 0x1102, 0, false, s.timing.tod,
      be 1 k ++ zeros 3 ++ be 4 r.firstLost.toNat ++ be 4 r.lost, false, none, 0x24⟩
    bump pmDevice 0 9 1 (remember e (nextEventSeq (modRoute k (fun r => { r with queue := r.queue ++ [e], lost := 0 }) s)))

/-- The root has no route 1 (R487). -/
def State.hasRoute (s : State) (k : Nat) : Bool := !(k == 1 && s.sill.straps.role == 3)

/-- Raise an event: it takes the next sequence, goes to every route whose mask has its family, and to the history. VERSION is that of
the session it tells of, else 0x24 (R123). -/
def raiseAs (version : BitVec 8) (code unit : Nat) (payload : List Byte) (urgent : Bool) (s : State) : State :=
  let s := flushLost 2 (flushLost 1 (flushLost 0 s))
  let e : EventRec := ⟨s.sill.eventSeq, code, unit, urgent, s.timing.tod, payload, false, none, version⟩
  let (r0, d0) := s.control.routeCp.offer e
  let (r1, d1) := if s.hasRoute 1 then s.control.routeTenon.offer e else (s.control.routeTenon, false)
  let (r2, d2) := s.control.routeStream.offer e
  let s := modControl (fun c => { c with routeCp := r0, routeTenon := r1, routeStream := r2 }) s
  bump pmDevice 0 9 1 (remember { e with dropped := d0 || d1 || d2 } (nextEventSeq s))

/-- Raise an event that tells of no session. The sequence it takes is the sill's counter as it stands, so that the first event after a
sill power-on carries 0 (log entry 61). -/
def raise (code unit : Nat) (payload : List Byte) (urgent : Bool) (s : State) : State := raiseAs 0x24 code unit payload urgent s

/-! The device on its domain. -/

/-- The device's own address, 0 until one is assigned (R114). -/
def State.address (s : State) : Nat := s.domain.address.getD 0

/-- TARGET of what the device sends: its own address with scope 0b01 (R126, R127). -/
def State.ownTarget (s : State) : BitVec 16 := BitVec.ofNat 16 (0x4000 + s.address)

/-- The packet of an event (R127). -/
def eventPacket (s : State) (e : EventRec) : Packet :=
  { version := e.version, flags := if e.urgent then 0x14 else 0x04, opcode := BitVec.ofNat 16 e.code, target := e.source.getD s.ownTarget,
    unit := BitVec.ofNat 16 e.unit, session := 0, seq := e.seq, status := 0,
    payload := padWords (e.tod.bytes ++ zeros 2 ++ e.payload) }

/-! The version floor (R16, R489). -/

/-- The floor against which an enable of R16 is judged; nothing when it is unknown. -/
def State.floorHeld (s : State) : Option Nat := s.domain.floor

/-- Whether this device meets the floor, for an enable that R16 governs. -/
def State.meetsFloor (s : State) : Bool :=
  match s.domain.floor with
  | some f => decide (f ≤ s.fw.running.fwVersion)
  | none => false

/-! Flash (R88). -/

def flashByte (s : State) (a : Nat) : Byte := tblGet 0xFF s.flash a
def flashBytes (s : State) (a n : Nat) : List Byte := (List.range n).map (fun i => flashByte s (a + i))

/-- Program bytes at an address. -/
def flashWrite : Nat → List Byte → State → State
  | _, [], s => s
  | a, b :: r, s => flashWrite (a + 1) r { s with flash := tblSet 0xFF s.flash a b }

/-- Erase `n` bytes from `a`. -/
def flashErase (a n : Nat) (s : State) : State :=
  { s with flash := s.flash.filter (fun e => e.1 < a || a + n ≤ e.1) }

/-- Whether an erase, a program or a read-back of the flash succeeds: the flash part decides (log entry 7). -/
def flashTakes (s : State) : Bool × State :=
  (decide (Config.freeNat s.fresh % 2 = 0), { s with fresh := s.fresh + 1 })

/-- The serial number of OTP, 16 bytes. -/
def State.serial (s : State) : List Byte := fitBytes 16 s.otp.serial

end Sys2Proof.Machine
end

