-- ==== Sys2Proof/Machine/Acf.lean ====
section
/-! DEFINITION. The Agryn carrier frame (R209 to R229): group parameters, shaping, the inner and outer codes, scrambling, mapping,
header and overhead, as functions of bits. Data lanes hold (1 − 2 × sign) × a, before the scale σ of R214; QPSK lanes hold ±1. -/

namespace Sys2Proof.Machine

/-- The bits of a byte string, most significant first. -/
def byteBits (l : List Byte) : List Bool := l.flatMap (fun b => [7, 6, 5, 4, 3, 2, 1, 0].map (fun i => b.getLsbD i))

/-- `n` bits of a number, most significant first. -/
def natBits : Nat → Nat → List Bool
  | 0, _ => []
  | n + 1, v => natBits n (v / 2) ++ [v % 2 == 1]

/-- The number that bits spell, most significant first. -/
def bitsNat (l : List Bool) : Nat := l.foldl (fun a b => 2 * a + b2n b) 0

/-- The bytes that bits spell. -/
def bitsBytes (n : Nat) (l : List Bool) : List Byte := (List.range n).map (fun i => BitVec.ofNat 8 (bitsNat ((l.drop (8 * i)).take 8)))

/-! Group parameters (R213, R216, R229). -/

/-- Label bits per lane. -/
def muOf (modulation : Nat) : Nat := if modulation = 1 then 0 else if modulation = 2 ∨ modulation = 4 then 1 else 2

/-- The modulation is shaped. -/
def isPcs (modulation : Nat) : Bool := modulation == 4 || modulation == 5

def Format.mu (f : Format) : Nat := muOf f.modulation
/-- Codewords a group carries. -/
def Format.c (f : Format) : Nat := if f.mu = 2 ∧ (f.fecK = 28 ∨ f.fecK = 20) then 3 else 1
/-- Symbols of a group. -/
def Format.wg (f : Format) : Nat := 64 * f.c * (f.fecK + 3) / (f.mu + 1)
/-- Groups of a frame. -/
def Format.groups (f : Format) : Nat := 515812 / f.wg
def Format.pad (f : Format) : Nat := 515812 - f.groups * f.wg
/-- Shaping blocks of a group. -/
def Format.blocks (f : Format) : Nat := f.wg / 16
/-- Label bits of a group. -/
def Format.t (f : Format) : Nat :=
  if isPcs f.modulation then f.wg * (2 * f.fecK * (f.entropy - 200) + 1200 * f.mu) / (100 * (f.fecK + 3)) else 4 * f.mu * f.wg
/-- Data bits of a group. -/
def Format.dg (f : Format) : Nat := f.t + 4 * f.wg - 768 * f.c
/-- Coded bits of a frame's segment (R223). -/
def Format.segment (f : Format) : Nat := f.groups * f.dg
/-- The bits block `j` of a group takes. -/
def Format.kj (f : Format) (j : Nat) : Nat := (j + 1) * f.t / f.blocks - j * f.t / f.blocks

/-- Capacity for `n` (R229): G × d_g × 15/16 ≥ Q + 176, with Q = 419 430 400 × n / RS_CODE. -/
def Format.fits (f : Format) (n : Nat) : Bool := decide ((419430400 * n + 176 * f.rsCode) * 16 ≤ f.segment * 15 * f.rsCode)

/-- MAX_N. -/
def Format.maxN (f : Format) : Nat := (((List.range 29).map (fun i => 32 - i)).find? f.fits).getD 0

/-- CAP_MBPS: (Rs / 524 288) × (G × d_g × 15/16 − 128) bit/s, in Mb/s, rounded down. -/
def Format.capMbps (f : Format) : Nat := (f.segment * 15 - 2048) * f.rsCode * 1000 / (8 * 16 * 524288)

/-! Shaping (R216, R217). -/

/-- The amplitudes, ascending. -/
def amplitudes (mu : Nat) : List Nat := (List.range (2 ^ mu)).map (fun i => 2 * i + 1)

/-- The counts n_seq of sequences of `n` amplitudes, by energy bound 0 to 3 136, which no format exceeds (R217). -/
def nRow (amps : List Nat) : Nat → Array Nat
  | 0 => Array.replicate 3137 1
  | n + 1 =>
    let r := nRow amps n
    ((List.range 3137).map (fun e => (amps.map (fun a => if a * a ≤ e then r.getD (e - a * a) 0 else 0)).foldl (· + ·) 0)).toArray

/-- n_seq: sequences of `n` amplitudes whose energy is at most `e`. -/
def nSeq (amps : List Nat) (n e : Nat) : Nat := (nRow amps n).getD e 0

/-- e_max of a format; 0 where nothing is shaped. -/
def Format.eMax (f : Format) : Nat :=
  if !isPcs f.modulation then 0 else
    let need := 2 ^ ((f.t + f.blocks - 1) / f.blocks)
    let r := nRow (amplitudes f.mu) 64
    (((List.range 385).map (fun i => 64 + 8 * i)).find? (fun e => decide (need ≤ r.getD e 0))).getD 3136

/-- The amplitude that index `x` selects at one place, with the rest of the index. -/
def essPick (amps : List Nat) (n e : Nat) : List Nat → Nat → Nat × Nat
  | [], x => (1, x)
  | a :: r, x =>
    let c := if a * a ≤ e then nSeq amps n (e - a * a) else 0
    if x < c then (a, x) else essPick amps n e r (x - c)

/-- ess_encode: `n` amplitudes of index `x` under energy `e`. -/
def essEncode (amps : List Nat) : Nat → Nat → Nat → List Nat
  | 0, _, _ => []
  | n + 1, e, x =>
    let (a, x) := essPick amps n e amps x
    a :: essEncode amps n (e - a * a) x

/-- ess_decode: the index of `n` amplitudes under an energy, and the energy left. -/
def essDecode (amps : List Nat) : Nat → Int → List Nat → Nat × Int
  | 0, e, _ => (0, e)
  | n + 1, e, l =>
    let a := l.headD 1
    let below := ((amps.takeWhile (· != a)).map (fun b => if b * b ≤ e.toNat ∧ 0 ≤ e then nSeq amps n (e.toNat - b * b) else 0)).foldl (· + ·) 0
    let (x, rest) := essDecode amps n (e - a * a) l.tail
    (below + x, rest)

/-- How often amplitude `a` occurs in the sequences of `n` amplitudes, by energy bound as `nRow`. -/
def occRow (amps : List Nat) (a : Nat) : Nat → Array Nat
  | 0 => Array.replicate 3137 0
  | n + 1 =>
    let r := occRow amps a n
    let c := nRow amps n
    ((List.range 3137).map (fun e => (amps.map (fun b =>
      if b * b ≤ e then r.getD (e - b * b) 0 + (if b = a then c.getD (e - b * b) 0 else 0) else 0)).foldl (· + ·) 0)).toArray

/-- The sequences before index `x` at one place: occurrences of `a` in the subtrees passed over, the amplitude of the subtree that holds
the index, and the rest of the index. -/
def occPick (amps : List Nat) (a n e : Nat) : List Nat → Nat → Nat × Nat × Nat
  | [], x => (0, 1, x)
  | b :: r, x =>
    let c := if b * b ≤ e then nSeq amps n (e - b * b) else 0
    if x < c then (0, b, x)
    else
      let (k, p) := occPick amps a n e r (x - c)
      (k + (if b * b ≤ e then (occRow amps a n).getD (e - b * b) 0 else 0) + (if b = a then c else 0), p)

/-- How often `a` occurs in the `n` amplitudes of the first `x` sequences. -/
def occFirst (amps : List Nat) (a : Nat) : Nat → Nat → Nat → Nat
  | 0, _, _ => 0
  | n + 1, e, x =>
    let (k, b, y) := occPick amps a n e amps x
    k + (if b = a then y else 0) + occFirst amps a n (e - b * b) y

/-- The largest k_j. -/
def Format.kMax (f : Format) : Nat := (f.t + f.blocks - 1) / f.blocks

/-- How often `a` occurs over all indices of the blocks, each block size counting in proportion to the blocks that use it: out of
64 × `frequencyTotal` (R214, R217). -/
def Format.frequency (f : Format) (a : Nat) : Nat :=
  ((List.range f.blocks).map (fun j => occFirst (amplitudes f.mu) a 64 f.eMax (2 ^ f.kj j) * 2 ^ (f.kMax - f.kj j))).foldl (· + ·) 0
def Format.frequencyTotal (f : Format) : Nat := f.blocks * 2 ^ f.kMax

/-- σ² = 1/(2Ē) as a fraction: 1/2, 1/10 and 1/42 in the uniform formats, Ē from the frequencies in the PCS formats (R214). -/
def Format.sigmaSq (f : Format) : Nat × Nat :=
  if isPcs f.modulation then
    (64 * f.frequencyTotal, 2 * ((amplitudes f.mu).map (fun a => a * a * f.frequency a)).foldl (· + ·) 0)
  else (1, if f.mu = 0 then 2 else if f.mu = 1 then 10 else 42)

/-- The Gray label of an amplitude (R214). -/
def labelOf (mu a : Nat) : List Bool :=
  match mu, a with
  | 1, 3 => [true]
  | 1, _ => [false]
  | 2, 1 => [false, false] | 2, 3 => [false, true] | 2, 5 => [true, true] | 2, _ => [true, false]
  | _, _ => []

/-- The amplitude of a Gray label. -/
def amplitudeOf (l : List Bool) : Nat :=
  match l with
  | [b] => if b then 3 else 1
  | [a, b] => if a then (if b then 5 else 7) else (if b then 3 else 1)
  | _ => 1

/-- The labels of a shaped group from its T bits, block after block. -/
def essLabels (f : Format) (data : List Bool) : List Bool :=
  (List.range f.blocks).flatMap (fun j =>
    let start := j * f.t / f.blocks
    (essEncode (amplitudes f.mu) 64 f.eMax (bitsNat ((data.drop start).take (f.kj j)))).flatMap (labelOf f.mu))

/-- R218: the T bits that the decided labels of a shaped group give, with the number of blocks whose amplitudes exceed e_max or give an
index of 2^k_j or more, which give k_j zero bits; the labels themselves in the uniform formats. -/
def dematch (f : Format) (labels : List Bool) : List Bool × Nat :=
  if !isPcs f.modulation then (labels, 0)
  else
    let blocks := (List.range f.blocks).map (fun j =>
      let amps := (List.range 64).map (fun l => amplitudeOf ((labels.drop (f.mu * (64 * j + l))).take f.mu))
      let (x, e) := essDecode (amplitudes f.mu) 64 f.eMax amps
      if 0 ≤ e ∧ x < 2 ^ f.kj j then (natBits (f.kj j) x, 0) else (List.replicate (f.kj j) false, 1))
    (blocks.flatMap (fun b => b.1), (blocks.map (fun b => b.2)).foldl (· + ·) 0)

/-! The inner code (R219 to R221). -/

/-- The base matrix, rows r0, r1, r2 of each information column. -/
def ldpcBase : List (Nat × Nat × Nat) := [
  (17, 203, 88), (142, 9, 231), (60, 177, 12), (251, 74, 139), (33, 118, 205), (196, 41, 70), (85, 226, 154), (3, 133, 47),
  (210, 58, 191), (127, 245, 24), (74, 16, 166), (239, 101, 95), (151, 189, 6), (28, 67, 218), (180, 252, 113), (99, 30, 61),
  (222, 147, 177), (46, 86, 240), (163, 212, 35), (8, 121, 129), (117, 39, 250), (245, 160, 82), (69, 5, 197), (188, 94, 14)] ++ [
  (20, 233, 108), (131, 55, 220), (207, 140, 73), (54, 198, 159), (172, 23, 2), (93, 109, 187), (236, 171, 41), (12, 80, 124),
  (149, 248, 234), (65, 126, 57), (201, 13, 143), (38, 217, 90), (114, 62, 213), (249, 182, 19), (77, 97, 171), (156, 36, 66),
  (25, 155, 246), (190, 222, 100), (106, 71, 31), (228, 1, 152), (50, 136, 209), (137, 208, 120), (215, 45, 5), (89, 164, 181)]

/-- λ_r[t]: the information contributions to check `t` of a row, whose base entries are `col`. -/
def ldpcSum (k : Nat) (info : List Bool) (col : Nat × Nat × Nat → Nat) (t : Nat) : Bool :=
  (List.range k).foldl (fun a b => a ^^ info.getD (256 * b + (t + col (ldpcBase.getD b (0, 0, 0))) % 256) false) false

/-- The 768 parity bits p₀, p₁, p₂ of 256 K information bits. -/
def ldpcParity (k : Nat) (info : List Bool) : List Bool :=
  let l0 := (List.range 256).map (ldpcSum k info (fun x => x.1))
  let l1 := (List.range 256).map (ldpcSum k info (fun x => x.2.1))
  let l2 := (List.range 256).map (ldpcSum k info (fun x => x.2.2))
  let p0 := (List.range 256).map (fun t => (l0.getD t false ^^ l1.getD t false) ^^ l2.getD t false)
  p0 ++ (List.range 256).map (fun t => l0.getD t false ^^ p0.getD ((t + 1) % 256) false) ++
    (List.range 256).map (fun t => l2.getD t false ^^ p0.getD ((t + 1) % 256) false)

/-! The outer code (R222, R223). -/

/-- g(x) = M₁(x) × M₃(x) less its leading term: M₁ = x¹⁰ + x³ + 1, M₃ = x¹⁰ + x³ + x² + x + 1. -/
def bchGenerator : BitVec 20 := 0x01877#20

/-- The 20 parity bits of a row's 620 leading bits. -/
def bchParity (v : List Bool) : List Bool :=
  let r := v.foldl (fun (s : BitVec 20) b =>
    let fb := s.getLsbD 19 ^^ b
    (s <<< 1) ^^^ (if fb then bchGenerator else 0#20)) 0#20
  (List.range 20).map (fun i => r.getLsbD (19 - i))

/-- Row `j` of [B_{i−1}ᵀ | B_i] up to the parity: column j of the block before, then the row's information. -/
def staircaseRow (prev part : List Bool) (j : Nat) : List Bool :=
  (List.range 320).map (fun k => prev.getD (320 * k + j) false) ++ (List.range 300).map (fun c => part.getD (320 * j + c) false)

/-- The next coded bit of the block in progress: an information bit, or a parity bit of its row. -/
def staircaseBit (prev part : List Bool) (info : List Bool) : Bool × List Bool :=
  let col := part.length % 320
  if col < 300 then (info.headD false, info.drop 1)
  else ((bchParity (staircaseRow prev part (part.length / 320))).getD (col - 300) false, info)

/-- `n` coded bits: the block before, the bits of the block in progress, the information left; what was coded, in order. -/
def staircase : Nat → List Bool → List Bool → List Bool → List Bool × List Bool × List Bool
  | 0, prev, part, _ => ([], prev, part)
  | n + 1, prev, part, info =>
    let (b, rest) := staircaseBit prev part info
    let part := part ++ [b]
    let (out, p, q) := if part.length = 102400 then staircase n part [] rest else staircase n prev part rest
    (b :: out, p, q)

/-- L_f: the information positions of a segment of `n` bits from SC_PHASE `phase`. -/
def infoPositions (n phase : Nat) : Nat :=
  let upTo := fun x => x / 320 * 300 + min (x % 320) 300
  upTo (phase + n) - upTo phase

/-! Scrambling and the PRBS (R211, R225). -/

/-- `n` bits of the scrambler x³¹ + x²⁸ + 1 from a state. -/
def scramblerBits : Nat → BitVec 31 → List Bool
  | 0, _ => []
  | n + 1, s => s.getLsbD 30 :: scramblerBits n ((s <<< 1) ||| (if s.getLsbD 30 ^^ s.getLsbD 27 then 1#31 else 0#31))

/-- The frame's segment scrambled, from 0x7FFF_FFFF. -/
def scramble (l : List Bool) : List Bool := (l.zip (scramblerBits l.length 0x7FFFFFFF#31)).map (fun x => x.1 ^^ x.2)

/-- `n` bits of the PRBS x²³ + x¹⁸ + 1 from a state. -/
def prbsBits : Nat → BitVec 23 → List Bool
  | 0, _ => []
  | n + 1, s => s.getLsbD 22 :: prbsBits n ((s <<< 1) ||| (if s.getLsbD 22 ^^ s.getLsbD 17 then 1#23 else 0#23))

/-- A dual-polarisation symbol, lanes XI, XQ, YI, YQ. -/
abbrev Symbol := Int × Int × Int × Int

def laneOf (b : Bool) : Int := if b then -1 else 1

/-- The QPSK symbols that the PRBS gives, four bits each. -/
def prbsSymbols (n : Nat) : List Symbol :=
  let b := prbsBits (4 * n) 0x2AC35F#23
  (List.range n).map (fun i => (laneOf (b.getD (4 * i) false), laneOf (b.getD (4 * i + 1) false), laneOf (b.getD (4 * i + 2) false), laneOf (b.getD (4 * i + 3) false)))

/-! Header and overhead (R212, R226). -/

/-- CRC-16 of R212 over bits, most significant first: polynomial 0x1021, initial value 0xFFFF. -/
def crc16 (l : List Bool) : BitVec 16 :=
  l.foldl (fun c b => (c <<< 1) ^^^ (if c.getLsbD 15 ^^ b then 0x1021#16 else 0#16)) 0xFFFF#16

/-- K_CODE. -/
def kCode (k : Nat) : Nat := if k = 48 then 0 else if k = 36 then 1 else if k = 28 then 2 else if k = 24 then 3 else 4

/-- The 64 header bits. -/
def headerBits (f : Format) (cnt phase : Nat) : List Bool :=
  let h := natBits 12 cnt ++ natBits 17 phase ++ natBits 3 f.modulation ++ natBits 3 (kCode f.fecK) ++ natBits 10 f.entropy ++ natBits 3 0
  h ++ natBits 16 (crc16 h).toNat

/-- Header symbol s: h₂ₛ on XI and YI, h₂ₛ₊₁ on XQ and YQ. -/
def headerSymbols (h : List Bool) : List Symbol :=
  (List.range 32).map (fun s =>
    let a := laneOf (h.getD (2 * s) false)
    let b := laneOf (h.getD (2 * s + 1) false)
    (a, b, a, b))

/-- The 16 bytes of the ACF overhead. -/
def acfOverhead (valid epoch start twinValid : Bool) (otuBits otuPtr : Nat) (twin : Word32) : List Byte :=
  let b := be 1 (128 * b2n valid + 64 * b2n epoch + 32 * b2n start + 16 * b2n twinValid) ++ be 3 otuBits ++
    be 3 (if start then otuPtr else 0xFFFFFF) ++ zeros 1 ++ be 4 twin.toNat
  b ++ be 4 (crc32c b).toNat

/-- OTU_BITS of frame `i` of a format (R227): 8 × (⌊(i + 1) Q/8⌋ − ⌊i Q/8⌋), with Q/8 = 52 428 800 × n / RS_CODE. -/
def Format.otuBits (f : Format) (i : Nat) : Nat :=
  8 * ((i + 1) * (52428800 * f.otucN) / f.rsCode - i * (52428800 * f.otucN) / f.rsCode)

/-- The frame, counted from frame `i` on, whose OTUCn bits hold position `pos` of the stream that frame `i` starts. -/
def Format.acfOf (f : Format) : Nat → Nat → Nat → Nat
  | 0, i, _ => i
  | n + 1, i, pos => if pos < f.otuBits i then i else f.acfOf n (i + 1) (pos - f.otuBits i)

/-! Groups to symbols (R224), with the injection of R239 after the inner code. -/

/-- The systematic and parity streams of a group's labels and sign-data bits. -/
def groupParity (f : Format) (sys : List Bool) : List Bool :=
  let ps := (List.range f.c).map (fun q => ldpcParity f.fecK ((List.range (256 * f.fecK)).map (fun t => sys.getD (t * f.c + q) false)))
  (List.range 768).flatMap (fun t => ps.map (fun p => p.getD t false))

/-- The symbols of one group from its data bits; `flip i` inverts coded bit i (labels, sign data, parity), `signs` all signs. -/
def groupSymbols (f : Format) (flip : Nat → Bool) (signs : Bool) (data : List Bool) : List Symbol :=
  let labels := if isPcs f.modulation then essLabels f (data.take f.t) else data.take f.t
  let signData := (data.drop f.t).take (4 * f.wg - 768 * f.c)
  let par := groupParity f (labels ++ signData)
  let coded := (labels ++ signData ++ par).zipIdx.map (fun x => x.1 ^^ flip x.2)
  let lab := coded.take labels.length
  let sig := coded.drop labels.length
  let n := 4 * f.wg
  -- sign Σ[i] stands at position 97 i mod n; lane l takes the i that reaches it
  let atPos := (List.range n).foldl (fun (a : Array Bool) i => a.setIfInBounds (97 * i % n) (sig.getD i false)) (Array.replicate n false)
  let lane := fun l => laneOf (atPos.getD l false ^^ signs) * (amplitudeOf ((lab.drop (f.mu * l)).take f.mu) : Int)
  (List.range f.wg).map (fun k => (lane (4 * k), lane (4 * k + 1), lane (4 * k + 2), lane (4 * k + 3)))

/-! Frame assembly (R210). -/

/-- The position of data symbol `k`. -/
def dataPos (k : Nat) : Nat := if k < 31 then 289 + k else 64 * (5 + (k - 31) / 63) + 1 + (k - 31) % 63

/-- The square of the scale of the symbol at a position: 1/2 for training, pilots, header and pad, σ² for data (R211, R214). -/
def Format.scaleSq (f : Format) (i : Nat) : Nat × Nat :=
  if i < 289 ∨ i % 64 = 0 ∨ f.groups * f.wg ≤ i - 289 - (i / 64 - 4) then (1, 2) else f.sigmaSq

/-- The symbol at a position: training, pilots, header, data, pad. -/
def acfSymbol (prbs header data : List Symbol) (i : Nat) : Symbol :=
  let get := fun (l : List Symbol) k => l.getD k (1, 1, 1, 1)
  if i < 256 then get prbs i
  else if i % 64 = 0 then get prbs (256 + (i - 256) / 64)
  else if i ≤ 288 then get header (i - 257)
  else
    let k := i - 289 - (i / 64 - 4)
    if k < data.length then get data k else get prbs (256 + 8188 + (k - data.length))

/-- The 524 288 symbols of a frame. -/
def acfSymbols (f : Format) (cnt phase : Nat) (data : List Symbol) : List Symbol :=
  let prbs := prbsSymbols (256 + 8188 + f.pad)
  let header := headerSymbols (headerBits f cnt phase)
  (List.range 524288).map (acfSymbol prbs header data)

end Sys2Proof.Machine
end

