-- ==== Sys2Proof/Machine/Operands.lean ====
section
/-! DEFINITION. The operand forms: Jenux packets as bytes and as requests (R112 to R117), the field checks of check 12, and the
table of opcodes (R519, R520, R101 and the length tables of the owning chapters). -/

namespace Sys2Proof.Machine

/-! Packets. -/

/-- The 24 header bytes and the payload (R112). -/
def packetBody (p : Packet) : List Byte :=
  [0xA6, p.version] ++ be 2 p.flags.toNat ++ be 2 p.opcode.toNat ++ be 2 p.target.toNat ++ be 2 p.unit.toNat ++
    be 2 p.session.toNat ++ be 4 p.seq.toNat ++ be 2 (p.payload.length / 4) ++ be 2 p.status.toNat ++ zeros 4 ++ p.payload

/-- A whole packet with its trailer (R115). -/
def packetBytes (p : Packet) : List Byte := let b := packetBody p; b ++ be 4 (crc32c b).toNat

/-- The size of a packet: 28 + 4 × LENGTH. -/
def packetSize (p : Packet) : Nat := 28 + p.payload.length

/-- The packet a byte string of the right size spells; the reserved word is judged apart. -/
def parsePacket (b : List Byte) : Packet :=
  { version := b.getD 1 0, flags := BitVec.ofNat 16 (u16 b 2), opcode := BitVec.ofNat 16 (u16 b 4),
    target := BitVec.ofNat 16 (u16 b 6), unit := BitVec.ofNat 16 (u16 b 8), session := BitVec.ofNat 16 (u16 b 10),
    seq := BitVec.ofNat 32 (u32 b 12), status := BitVec.ofNat 16 (u16 b 18),
    payload := bytesAt b 24 (4 * u16 b 16) }

/-- The packet of a request for an opcode. -/
def requestPacket (op : Nat) (q : Request) : Packet :=
  { version := q.version, flags := q.flags, opcode := BitVec.ofNat 16 op, target := q.target, unit := q.unit,
    session := q.session, seq := q.seq, payload := q.payload }

/-- The request a packet carries. -/
def packetRequest (port : Port) (origin originRole : Nat) (p : Packet) : Request :=
  { port, version := p.version, flags := p.flags, target := p.target, unit := p.unit, session := p.session, seq := p.seq,
    payload := p.payload, origin, originRole }

/-- UNIT of a request, as a number. -/
def Request.u (q : Request) : Nat := q.unit.toNat

/-- The payload's byte, 16-bit, 32-bit and 64-bit fields. -/
def Request.b (q : Request) (off : Nat) : Nat := u8 q.payload off
def Request.h (q : Request) (off : Nat) : Nat := u16 q.payload off
def Request.w (q : Request) (off : Nat) : Nat := u32 q.payload off
def Request.d (q : Request) (off : Nat) : Nat := u64 q.payload off

/-! Status codes (R521). -/

/-- The value of a status code. -/
def Status.code : Status → Nat
  | .ok => 0 | .busy => 1 | .length => 2 | .crc => 3 | .opcode => 4 | .param => 5 | .role => 6 | .state => 7
  | .unsupported => 8 | .floor => 9 | .slotBound => 10 | .keyErased => 11 | .nonceExhausted => 12 | .auth => 13
  | .pmbusNack => 0x0201 | .capacity => 0x0301 | .cd => 0x0302 | .lanesBusy => 0x0601 | .laneRate => 0x0602
  | .slotBusy => 0x0603 | .slotCount => 0x0604 | .tableFull => 0x0605 | .notEmpty => 0x0701 | .parent => 0x0702
  | .reserve => 0x0801 | .shimFull => 0x0802 | .tsBusy => 0x0901 | .usage => 0x0902 | .record => 0x0903 | .fuse => 0x0904
  | .calRange => 0x0B01 | .calRecord => 0x0B02 | .monRoute => 0x0C01 | .partly => 0x0E01 | .domRole => 0x0E02
  | .notManager => 0x0E03 | .noReply => 0x0E04 | .mismatch => 0x0F01 | .tie => 0x0F02 | .peer => 0x0F03
  | .imageInvalid => 0x1001 | .rollback => 0x1002 | .flash => 0x1003 | .sequence => 0x1101 | .restarted => 0x1102

/-! What a command's own part answers, after checks 1 to 11. -/

/-- The outcome of a command. -/
inductive Reply where
  /-- Check 12 or 13 fails: nothing is journaled, nothing executes (a wake that R63 starts is in the state). -/
  | reject (st : Status) (payload : List Byte) (s : State)
  /-- It executed; what follows its reply (an event, a close) is `next`. -/
  | done (st : Status) (payload : List Byte) (s : State) (next : State → State)
  /-- It is journaled and executes; its reply comes with a later step. -/
  | later (undo : Undo) (s : State)

/-- Executed in full, with a reply. -/
def Reply.okWith (payload : List Byte) (s : State) : Reply := .done .ok payload s id
/-- Executed in full, with an empty reply. -/
def Reply.okay (s : State) : Reply := .done .ok [] s id
/-- Executed in full; `f` follows the reply. -/
def Reply.okThen (s : State) (f : State → State) : Reply := .done .ok [] s f
/-- Refused with a status that carries nothing. -/
def Reply.refuse (st : Status) (s : State) : Reply := .reject st [] s

/-- The payload of ST_PARAM: the offset of the first field at fault (R117). -/
def paramAt (off : Nat) : List Byte := be 2 off ++ zeros 2

/-- Check 12: the first field that is not in range gives its offset; otherwise go on. Every field is judged before anything changes
(R515); the limits are those of R138, R166, R208, R242, R269, R294, R317, R348, R372, R400, R419, R444, R464 and R497. -/
def checked (cs : List (Bool × Nat)) (s : State) (k : Reply) : Reply :=
  match cs.find? (fun c => !c.1) with
  | some c => .reject .param (paramAt c.2) s
  | none => k

/-- Check 13: the first condition that does not hold gives its status; otherwise go on. -/
def require (cs : List (Bool × Status)) (s : State) (k : Reply) : Reply :=
  match cs.find? (fun c => !c.1) with
  | some c => .refuse c.2 s
  | none => k

/-- UNIT must be 0; any other UNIT fails check 12 at offset 0xFFFF. -/
def unitZero (q : Request) : Bool × Nat := (q.u == 0, 0xFFFF)
/-- UNIT must be below `n`. -/
def unitBelow (q : Request) (n : Nat) : Bool × Nat := (decide (q.u < n), 0xFFFF)
/-- A reserved field of `n` bytes at `off` must be zero (R6). -/
def resv (q : Request) (off n : Nat) : Bool × Nat := (isZero q.payload off n, off)
/-- A byte field must lie in a range. -/
def inByte (q : Request) (off lo hi : Nat) : Bool × Nat := (decide (lo ≤ q.b off ∧ q.b off ≤ hi), off)
/-- A 16-bit field must lie in a range. -/
def inHalf (q : Request) (off lo hi : Nat) : Bool × Nat := (decide (lo ≤ q.h off ∧ q.h off ≤ hi), off)
/-- A 32-bit field must lie in a range. -/
def inWord (q : Request) (off lo hi : Nat) : Bool × Nat := (decide (lo ≤ q.w off ∧ q.w off ≤ hi), off)

/-! Opcodes. -/

/-- What the device knows of an opcode: its least role (1 SUPERVISOR, 2 OPERATOR, 3 any), the version that adds it, the payload
words check 7 accepts, whether its verb is GET (R131: every other command is journaled), and whether its reply is empty. -/
structure Op where
  code : Nat
  role : Nat
  lo : Nat
  hi : Nat
  get : Bool := false
  since : Nat := 0x20
  empty : Bool := false
  deriving DecidableEq, Repr

/-- The SYSTEM family. -/
def systemOps : List Op := [
  { code := 0x0101, role := 3, lo := 0, hi := 0, get := true },
  { code := 0x0102, role := 1, lo := 1, hi := 1, empty := true },
  { code := 0x0103, role := 1, lo := 0, hi := 0, get := true },
  { code := 0x0104, role := 1, lo := 48, hi := 48, empty := true },
  { code := 0x0105, role := 2, lo := 2, hi := 2, get := true, since := 0x23 }]

/-- The POWER family. -/
def powerOps : List Op := [
  { code := 0x0201, role := 2, lo := 2, hi := 2 },
  { code := 0x0202, role := 3, lo := 1, hi := 1, get := true },
  { code := 0x0203, role := 3, lo := 0, hi := 0, get := true },
  { code := 0x0204, role := 1, lo := 1, hi := 1, empty := true }]

/-- The CARRIER family. -/
def carrierOps : List Op := [
  { code := 0x0301, role := 2, lo := 5, hi := 5, empty := true },
  { code := 0x0302, role := 2, lo := 1, hi := 1, empty := true },
  { code := 0x0303, role := 2, lo := 5, hi := 5, empty := true },
  { code := 0x0304, role := 2, lo := 2, hi := 2 },
  { code := 0x0305, role := 3, lo := 0, hi := 0, get := true },
  { code := 0x0306, role := 2, lo := 1, hi := 1, empty := true },
  { code := 0x0307, role := 3, lo := 0, hi := 0, get := true, since := 0x22 }]

/-- The FEC family. -/
def fecOps : List Op := [
  { code := 0x0401, role := 3, lo := 0, hi := 0, get := true },
  { code := 0x0402, role := 2, lo := 0, hi := 0, get := true },
  { code := 0x0403, role := 2, lo := 2, hi := 2, since := 0x21, empty := true }]

/-- The FRAMER family. -/
def framerOps : List Op := [
  { code := 0x0501, role := 2, lo := 25, hi := 25, empty := true },
  { code := 0x0502, role := 2, lo := 4, hi := 4, empty := true },
  { code := 0x0503, role := 2, lo := 2, hi := 2, empty := true },
  { code := 0x0504, role := 2, lo := 4, hi := 4, empty := true },
  { code := 0x0505, role := 2, lo := 1, hi := 1, empty := true },
  { code := 0x0506, role := 3, lo := 0, hi := 0, get := true },
  { code := 0x0507, role := 3, lo := 0, hi := 0, get := true },
  { code := 0x0508, role := 2, lo := 0, hi := 0, get := true }]

/-- The CLIENT family. -/
def clientOps : List Op := [
  { code := 0x0601, role := 2, lo := 4, hi := 4, empty := true },
  { code := 0x0602, role := 2, lo := 22, hi := 22, empty := true },
  { code := 0x0603, role := 2, lo := 6, hi := 326, empty := true },
  { code := 0x0604, role := 2, lo := 3, hi := 3, empty := true },
  { code := 0x0605, role := 3, lo := 0, hi := 0, get := true },
  { code := 0x0606, role := 2, lo := 0, hi := 0, get := true }]

/-- The SCHED family. -/
def schedOps : List Op := [
  { code := 0x0701, role := 2, lo := 4, hi := 4 },
  { code := 0x0702, role := 2, lo := 8, hi := 8 },
  { code := 0x0703, role := 2, lo := 4, hi := 1028, empty := true },
  { code := 0x0704, role := 3, lo := 0, hi := 0, get := true },
  { code := 0x0705, role := 3, lo := 1, hi := 1, get := true },
  { code := 0x0706, role := 2, lo := 4, hi := 4, since := 0x23, empty := true },
  { code := 0x0707, role := 2, lo := 2, hi := 2, get := true }]

/-- The MEMORY family. -/
def memoryOps : List Op := [
  { code := 0x0801, role := 2, lo := 3, hi := 3, empty := true },
  { code := 0x0802, role := 3, lo := 0, hi := 0, get := true },
  { code := 0x0803, role := 2, lo := 2, hi := 2, get := true },
  { code := 0x0804, role := 2, lo := 0, hi := 0, empty := true },
  { code := 0x0805, role := 1, lo := 1, hi := 17, empty := true },
  { code := 0x0806, role := 2, lo := 0, hi := 0, get := true }]

/-- The SECURITY family (R395). -/
def securityOps : List Op := [
  { code := 0x0901, role := 1, lo := 35, hi := 35, empty := true },
  { code := 0x0902, role := 1, lo := 389, hi := 389, empty := true },
  { code := 0x0903, role := 1, lo := 45, hi := 45, empty := true },
  { code := 0x0904, role := 2, lo := 13, hi := 13 },
  { code := 0x0905, role := 2, lo := 1, hi := 1, empty := true },
  { code := 0x0906, role := 2, lo := 7, hi := 7, empty := true },
  { code := 0x0907, role := 2, lo := 0, hi := 0, empty := true },
  { code := 0x0908, role := 2, lo := 9, hi := 4096 },
  { code := 0x0909, role := 1, lo := 4, hi := 4, empty := true },
  { code := 0x090A, role := 1, lo := 0, hi := 0, empty := true },
  { code := 0x090B, role := 3, lo := 8, hi := 8 },
  { code := 0x090C, role := 3, lo := 0, hi := 0, get := true },
  { code := 0x090D, role := 3, lo := 0, hi := 0, get := true },
  { code := 0x090E, role := 3, lo := 0, hi := 0, get := true, since := 0x24 },
  { code := 0x090F, role := 2, lo := 0, hi := 0, get := true }]

/-- The TIMING family. -/
def timingOps : List Op := [
  { code := 0x0A01, role := 2, lo := 6, hi := 6, empty := true },
  { code := 0x0A02, role := 2, lo := 3, hi := 3, empty := true },
  { code := 0x0A03, role := 2, lo := 1, hi := 1, empty := true },
  { code := 0x0A04, role := 1, lo := 6, hi := 6, empty := true },
  { code := 0x0A05, role := 2, lo := 6, hi := 6, empty := true },
  { code := 0x0A06, role := 2, lo := 1, hi := 1, empty := true },
  { code := 0x0A07, role := 3, lo := 0, hi := 0, get := true }]

/-- The CAL family. -/
def calOps : List Op := [
  { code := 0x0B01, role := 3, lo := 1, hi := 1, get := true },
  { code := 0x0B02, role := 2, lo := 2, hi := 129, empty := true },
  { code := 0x0B03, role := 1, lo := 0, hi := 0 },
  { code := 0x0B04, role := 2, lo := 1, hi := 1, empty := true },
  { code := 0x0B05, role := 2, lo := 2, hi := 2, empty := true },
  { code := 0x0B06, role := 3, lo := 0, hi := 0, get := true },
  { code := 0x0B07, role := 2, lo := 1, hi := 1, empty := true },
  { code := 0x0B08, role := 2, lo := 2, hi := 2, empty := true },
  { code := 0x0B09, role := 2, lo := 1, hi := 64 }]

/-- The MONITOR family. -/
def monitorOps : List Op := [
  { code := 0x0C01, role := 2, lo := 1, hi := 1, empty := true },
  { code := 0x0C02, role := 2, lo := 2, hi := 34, empty := true },
  { code := 0x0C03, role := 2, lo := 4, hi := 4, empty := true },
  { code := 0x0C04, role := 2, lo := 4, hi := 4, empty := true },
  { code := 0x0C05, role := 2, lo := 1, hi := 1 },
  { code := 0x0C06, role := 2, lo := 2, hi := 2, empty := true },
  { code := 0x0C07, role := 3, lo := 1, hi := 1 },
  { code := 0x0C08, role := 3, lo := 1, hi := 1 },
  { code := 0x0C09, role := 3, lo := 0, hi := 0, get := true }]

/-- The COUNTERS family. -/
def countersOps : List Op := [
  { code := 0x0D01, role := 2, lo := 9, hi := 9, empty := true },
  { code := 0x0D02, role := 3, lo := 0, hi := 0 },
  { code := 0x0D03, role := 2, lo := 1, hi := 1, empty := true },
  { code := 0x0D04, role := 2, lo := 2, hi := 2, empty := true },
  { code := 0x0D05, role := 2, lo := 1, hi := 1, since := 0x21, empty := true },
  { code := 0x0D06, role := 1, lo := 2, hi := 2, empty := true },
  { code := 0x0D07, role := 3, lo := 0, hi := 0, get := true }]

/-- The DOMAIN family. -/
def domainOps : List Op := [
  { code := 0x0E01, role := 1, lo := 1, hi := 1, empty := true },
  { code := 0x0E02, role := 3, lo := 0, hi := 0, get := true },
  { code := 0x0E03, role := 3, lo := 0, hi := 0, get := true },
  { code := 0x0E04, role := 1, lo := 2, hi := 2 },
  { code := 0x0E05, role := 1, lo := 2, hi := 2, empty := true },
  { code := 0x0E06, role := 1, lo := 1, hi := 1, empty := true },
  { code := 0x0E07, role := 3, lo := 0, hi := 0, get := true },
  { code := 0x0E08, role := 1, lo := 1, hi := 1, since := 0x24, empty := true }]

/-- The PROTECT family. -/
def protectOps : List Op := [
  { code := 0x0F01, role := 2, lo := 3, hi := 3, empty := true },
  { code := 0x0F02, role := 2, lo := 1, hi := 1, empty := true },
  { code := 0x0F03, role := 1, lo := 3, hi := 3, empty := true },
  { code := 0x0F04, role := 1, lo := 1, hi := 1, empty := true },
  { code := 0x0F05, role := 3, lo := 0, hi := 0, get := true },
  { code := 0x0F06, role := 2, lo := 0, hi := 0, get := true }]

/-- The FIRMWARE family. -/
def firmwareOps : List Op := [
  { code := 0x1001, role := 3, lo := 0, hi := 0, get := true },
  { code := 0x1002, role := 1, lo := 1, hi := 1 },
  { code := 0x1003, role := 1, lo := 2, hi := 4096, empty := true },
  { code := 0x1004, role := 1, lo := 0, hi := 0 },
  { code := 0x1005, role := 1, lo := 3, hi := 3, empty := true },
  { code := 0x1006, role := 1, lo := 0, hi := 0, empty := true },
  { code := 0x1007, role := 1, lo := 0, hi := 0, empty := true }]

/-- The SESSION family. -/
def sessionOps : List Op := [
  { code := 0x1101, role := 3, lo := 1, hi := 1 },
  { code := 0x1102, role := 3, lo := 34, hi := 34, empty := true },
  { code := 0x1103, role := 3, lo := 1, hi := 1, empty := true },
  { code := 0x1104, role := 1, lo := 2, hi := 2, empty := true },
  { code := 0x1105, role := 3, lo := 0, hi := 0, get := true },
  { code := 0x1106, role := 1, lo := 2, hi := 2, empty := true }]

/-- Every opcode the device defines (R519, R520), with the payload words that check 7 accepts. -/
def allOps : List Op :=
  systemOps ++ powerOps ++ carrierOps ++ fecOps ++ framerOps ++ clientOps ++ schedOps ++ memoryOps ++ securityOps ++ timingOps ++ calOps ++ monitorOps ++ countersOps ++ domainOps ++ protectOps ++ firmwareOps ++ sessionOps

/-- What the device knows of an opcode. -/
def opInfo (code : Nat) : Option Op := allOps.find? (fun o => o.code == code)

/-- An opcode of the table. -/
def opOf (code : Nat) : Op := (opInfo code).getD { code, role := 1, lo := 0, hi := 0 }

end Sys2Proof.Machine
end

