-- ==== Sys2Proof/Machine/Flags.lean ====
section
/-! DEFINITION. The flag words: the sill registers of R83 as software reads and writes them, and the pins that follow them. -/

namespace Sys2Proof.Machine

/-- A field of a register: bits from `lo`. -/
def at_ (lo v : Nat) : Nat := v * 2 ^ lo

/-- STAGE codes of SL_BOOT_STATUS. -/
def Stage.code : Stage → Nat
  | .held => 0 | .rom => 1 | .loadWait => 2 | .verify => 3 | .init => 4 | .run => 5 | .mpHalted => 0xE

/-- SL_IDCODE. -/
def slIdcode : Nat := 0x4128074B

/-- SL_BOOT_STATUS. -/
def slBootStatus (s : State) : Nat :=
  let x := s.sill
  x.stage.code + at_ 4 x.bank + at_ 5 (b2n x.straps.bootSrc) + at_ 6 x.straps.role.toNat + at_ 8 (b2n x.straps.tie) +
    at_ 9 (b2n x.strapFaultBit) + at_ 10 (b2n x.seqFaultBit) + at_ 11 (x.seqSupply % 8) + at_ 14 (x.resetCause % 16) +
    at_ 18 (b2n x.bankABad) + at_ 19 (b2n x.bankBBad) + at_ 20 (b2n x.fallback) + at_ 21 (b2n x.unreplied) +
    at_ 24 (x.failCode % 256)

/-- Loss of signal on a unit, as SL_ALARM_SUMMARY reports it live. -/
def State.los (s : State) (u : Nat) : Bool := (s.cu u).los

/-- SL_ALARM_SUMMARY. REF is live while the hub is out of reset, and 0, its reset value, while the sill holds it (R5, log entry 62). -/
def slAlarmSummary (s : State) : Nat :=
  let x := s.sill
  maskOf 4 s.los + at_ 4 (maskOf 4 (fun u => (s.cu u).lof)) + at_ 8 (b2n (s.hubUp && s.timing.state != 2)) + at_ 9 (b2n x.secAlarm) +
    at_ 10 (b2n x.thermal) + at_ 11 (b2n x.supplyAlarm) + at_ 12 (b2n x.memAlarm) + at_ 13 (b2n x.bootAlarm) +
    at_ 14 (b2n x.mpRestartAlarm)

/-- The number of domains of each class (R55). -/
def classCount (c : Nat) : Nat :=
  match c with
  | 1 => 4 | 2 => 4 | 3 => 16 | 4 => 4 | 5 => 8 | 6 => 1 | 7 => 1 | 8 => 1 | 9 => 8 | _ => 0

/-- Every domain of classes 3 to 9. -/
def hubDomains : List (Nat × Nat) := [3, 4, 5, 6, 7, 8, 9].flatMap (fun c => (List.range (classCount c)).map (fun i => (c, i)))

/-- Every governed domain. -/
def allDomains : List (Nat × Nat) := [1, 2].flatMap (fun c => (List.range 4).map (fun i => (c, i))) ++ hubDomains

/-- SL_POWER_STATE. -/
def slPowerState (s : State) : Nat :=
  (List.range 4).foldl (fun a u => a + at_ (6 * u) (s.dom 1 u).state + at_ (6 * u + 3) (s.dom 2 u).state) 0 +
    at_ 24 (hubDomains.foldl (fun m d => min m (s.dom d.1 d.2).state) 4) + at_ 27 (b2n s.hubUp)

/-- TAMPER_IN as sensed under R39. -/
def State.tamper (s : State) : Bool := s.pins.vddIo && s.pins.tamperIn
/-- ZEROIZE_N asserted, as sensed under R39. -/
def State.zeroize (s : State) : Bool := s.pins.vddIo && !s.pins.zeroizeN
/-- MIR_ACT_IN as sensed under R39: asserted while VDD_IO is absent. -/
def State.mirIn (s : State) : Bool := !s.pins.vddIo || s.pins.mirActIn

/-- SL_SEC_STATUS. -/
def slSecStatus (s : State) : Nat :=
  let x := s.sill
  b2n x.secAlarm + at_ 1 (b2n x.policyCommitted) + at_ 2 (b2n x.sessionErased) + at_ 3 (b2n x.allErased) +
    at_ 4 (x.lastCause % 16) + at_ 8 (x.debugLevel % 4) + at_ 10 (b2n s.tamper) + at_ 11 (b2n s.zeroize) +
    at_ 16 (x.authFails % 256)

/-- A reply, and an event, waits in the control-port outgoing queue. -/
def State.replyPending (s : State) : Bool := s.control.outgoing.any (fun o => o.isReply)
def State.eventPending (s : State) : Bool := s.control.outgoing.any (fun o => !o.isReply)

/-- Receive buffers the control port holds. -/
def State.rxHeld (s : State) : Nat := (s.control.rx.filter (fun r => r.port == .control)).length

/-- SL_CP_STATUS. -/
def slCpStatus (s : State) : Nat :=
  let x := s.sill
  b2n s.replyPending + at_ 1 (b2n s.eventPending) + at_ 2 (b2n s.control.ready) + at_ 4 (4 - s.rxHeld) +
    at_ 8 (b2n x.crcErr) + at_ 9 (b2n x.overrun) + at_ 10 (b2n x.underrun)

/-- A sill register as a read transaction returns it (R83, R107). -/
def slRead (s : State) (addr : Nat) : Nat :=
  match addr with
  | 0x00 => slIdcode
  | 0x04 => slBootStatus s
  | 0x08 => slAlarmSummary s
  | 0x0C => slPowerState s
  | 0x14 => s.sill.wakeTol.toNat
  | 0x18 => slSecStatus s
  | 0x1C => slCpStatus s
  | _ => 0

/-- A write of a sill register without behaviour of its own: RW fields take the value, W1C bits clear where a 1 is written, unless
hardware sets them in the same cycle (R7). -/
def slWrite (addr : Nat) (v : Word32) (s : State) : State :=
  match addr with
  | 0x08 => modSill (fun x => { x with
      thermal := x.cleared .thermal x.thermal (v.getLsbD 10), supplyAlarm := x.cleared .supply x.supplyAlarm (v.getLsbD 11),
      memAlarm := x.cleared .mem x.memAlarm (v.getLsbD 12),
      mpRestartAlarm := x.cleared .mpRestart x.mpRestartAlarm (v.getLsbD 14) }) s
  | 0x14 => modSill (fun x => { x with wakeTol := v }) s
  | 0x1C => modSill (fun x => { x with
      crcErr := x.cleared .crcErr x.crcErr (v.getLsbD 8), overrun := x.cleared .overrun x.overrun (v.getLsbD 9),
      underrun := x.cleared .underrun x.underrun (v.getLsbD 10) }) s
  | _ => s

/-- CP_IRQ_N is asserted while a reply or an event waits, and released while EXTEST is loaded (R110, R45). -/
def State.cpIrq (s : State) : Bool := (s.replyPending || s.eventPending) && !s.pins.extest

/-- MIR_ACT_OUT as it stands on the pin: held at 0 while EXTEST is loaded (R45). -/
def State.mirOutPin (s : State) : Bool := s.pins.mirActOut && !s.pins.extest

/-- SEC_ALARM_N asserted: it follows the sill alarm state (R45, R392). -/
def State.secAlarmPin (s : State) : Bool := s.sill.secAlarm

end Sys2Proof.Machine
end

