-- ==== Sys2Proof/Machine/Protocol.lean ====
section
/-! DEFINITION. The command protocol of chapter 05 and its forwarding of chapter 18: how a request is taken, checked, journaled,
executed and replied. -/

namespace Sys2Proof.Machine

/-! Outgoing packets. -/

/-- Append a message to the queue of a virtual channel. -/
def Credit.push (c : Credit) (m : Message) : Credit := { c with queues := tblMod [] c.queues m.vc (· ++ [m]) }

/-- Put a message on the queue of Tenon port `p`. -/
def tenonPush (p : Nat) (m : Message) (s : State) : State := modTenon p (fun t => { t with credit := t.credit.push m }) s

/-- Bytes that the control-port outgoing queue holds. -/
def Control.outBytes (c : Control) : Nat := c.outgoing.foldl (fun a o => a + packetSize o.packet) 0

/-- The control-port outgoing queue has room for a packet: it holds 64 packets or 64 KiB (R129, R138). -/
def Control.room (c : Control) (p : Packet) : Bool :=
  decide (c.outgoing.length < 64) && decide (c.outBytes + packetSize p ≤ 65536)

/-- A reply enters the outgoing queue, or waits for room behind those that wait already (R129: no reply is dropped). -/
def Control.putOut (c : Control) (o : OutItem) : Control :=
  if c.held.isEmpty && c.room o.packet then { c with outgoing := c.outgoing ++ [o] } else { c with held := c.held ++ [o] }

/-- The replies that wait enter the queue as far as they fit, in order. -/
def Control.admitHeld : List OutItem → Control → Control
  | [], c => { c with held := [] }
  | o :: r, c => if c.room o.packet then Control.admitHeld r { c with outgoing := c.outgoing ++ [o] } else { c with held := o :: r }

/-- A reply leaves by the port its request came by (R126); on Tenon it travels to ORIGIN on VC 1. -/
def putReply (port : Port) (origin : Nat) (p : Packet) (entry : Option Nat) (s : State) : State :=
  match port with
  | .control => modControl (fun c => c.putOut { packet := p, isReply := true, entry }) s
  | .stream => modStream (fun t => { t with credit := t.credit.push { vc := 1, body := .packet p entry } }) s
  | .tenon n => tenonPush n { vc := 1, origin, body := .packet p entry } s

/-- An entry is freed when its reply leaves (R131). -/
def freeEntry (e : Option Nat) (s : State) : State :=
  match e with
  | none => s
  | some id => modControl (fun c => { c with journal := c.journal.filter (fun x => x.id != id) }) s

/-! Sessions. -/

def State.session (s : State) (n : Nat) : Option Session := s.control.sessions.find? (fun x => x.number == n)
def modSession (n : Nat) (f : Session → Session) (s : State) : State :=
  modControl (fun c => { c with sessions := c.sessions.map (fun x => if x.number = n then f x else x) }) s
def dropSession (n : Nat) (s : State) : State :=
  modControl (fun c => { c with sessions := c.sessions.filter (fun x => x.number != n) }) s

/-- The code of a role: 1 SUPERVISOR, 2 OPERATOR, 3 OBSERVER. -/
def Role.code : Role → Nat
  | .supervisor => 1 | .operator => 2 | .observer => 3

/-- The device keeps the replies to the last four requests of a session (R124). -/
def storeReply (n : Nat) (p : Packet) (s : State) : State :=
  modSession n (fun x => { x with replies := (x.replies ++ [p]).drop (x.replies.length + 1 - 4) }) s

/-- A request that comes by Tenon belongs to a session of its ORIGIN, not to one of this device (R484). -/
def Port.foreign (p : Port) : Bool := match p with | .tenon _ => true | _ => false

/-- Keep a reply for a repeat, where its session is one of this device's. -/
def keepReply (port : Port) (n : Nat) (p : Packet) (s : State) : State := if port.foreign then s else storeReply n p s

/-- VERSION of a session's events (R123); an event of none carries the highest version. -/
def State.sessionVersion (s : State) (n : Nat) : BitVec 8 := ((s.session n).map (fun x => x.version)).getD 0x24

/-- Close a session: its number is dropped and EV_SESSION_CLOSED, in the session's version, says why (R121, R123). -/
def closeSession (n cause : Nat) (s : State) : State :=
  raiseAs (s.sessionVersion n) 0x1101 0 (be 2 n ++ be 1 cause ++ zeros 1) false (dropSession n s)

/-- Two requests belong to one session: that of this device or that of one origin (R125, R484). -/
def sameSession (p : Port) (origin session : Nat) (p' : Port) (origin' session' : Nat) : Bool :=
  session == session' && p.foreign == p'.foreign && (!p.foreign || origin == origin')

/-- A request of the session is journaled and not yet DONE, so its later requests wait (R125). -/
def State.executing (s : State) (p : Port) (origin session : Nat) : Bool :=
  session != 0 && s.control.journal.any (fun e => e.state != .done && sameSession p origin session e.port e.origin e.session)

/-- SESSION of a packet in a receive buffer. -/
def RxItem.session (r : RxItem) : Nat := u16 r.bytes 10

/-- Requests of a session of this device that wait in receive buffers. -/
def State.waitingOf (s : State) (n : Nat) : Nat := (s.control.rx.filter (fun r => !r.port.foreign && r.session == n)).length

/-- Close a session as soon as its requests that precede the close have been replied: at once where none is left (R121). -/
def endSession (n cause : Nat) (s : State) : State :=
  if s.executing .control 0 n || s.waitingOf n != 0 then modSession n (fun x => { x with closing := some (cause, s.waitingOf n) }) s
  else closeSession n cause s

/-- The sessions whose close waited and whose earlier requests have all been replied close (R121). -/
def settleClosings (s : State) : State :=
  forEach s.control.sessions (fun x s => match x.closing with
    | some (cause, 0) => if s.executing .control 0 x.number then s else closeSession x.number cause s
    | _ => s) s

/-! Replies. -/

/-- The reply packet of R126. -/
def replyPacket (s : State) (version : BitVec 8) (op : Nat) (unit session : BitVec 16) (seq : Word32) (st : Status)
    (payload : List Byte) : Packet :=
  { version, flags := 2, opcode := BitVec.ofNat 16 op, target := s.ownTarget, unit, session, seq,
    status := BitVec.ofNat 16 st.code, payload := padWords payload }

/-- VERSION of a reply (R117): that of the session it answers, or the request's where no session version applies. -/
def replyVersion (q : Request) : BitVec 8 := if 0x20 ≤ q.version.toNat ∧ q.version.toNat ≤ 0x24 then q.version else 0x24

/-- Answer a request without journaling it. -/
def answer (op : Nat) (q : Request) (st : Status) (payload : List Byte) (s : State) : State :=
  putReply q.port q.origin (replyPacket s (replyVersion q) op q.unit q.session q.seq st payload) none s

/-- Answer a request of an open session, and keep the reply for a repeat. -/
def answerKept (op : Nat) (q : Request) (st : Status) (payload : List Byte) (entry : Option Nat) (s : State) : State :=
  let p := replyPacket s (replyVersion q) op q.unit q.session q.seq st payload
  keepReply q.port q.session.toNat p (putReply q.port q.origin p entry s)

/-- R394: a state-changing command that completes with ST_OK enters the configuration digest. -/
def chainDigest (op unit : Nat) (digest : List Byte) (s : State) : State :=
  modSecurity (fun c => { c with digest := Config.sha512 (c.digest ++ be 2 op ++ be 2 unit ++ digest),
                                 configCount := c.configCount + 1 }) s

/-- The opcodes R394 leaves out of the digest. -/
def undigested (op : Nat) : Bool := op / 256 == 0x11 || op == 0x0908 || op == 0x090B || op == 0x1003

def digestCommand (op unit : Nat) (st : Status) (digest : List Byte) (s : State) : State :=
  if st = .ok ∧ !undigested op then chainDigest op unit digest s else s

/-- The journal entry of a command (R131). -/
def newEntry (id op : Nat) (q : Request) (undo : Undo) (st : EntryState) : Entry :=
  { id, port := q.port, session := q.session.toNat, seq := q.seq, opcode := op, unit := q.u, version := replyVersion q,
    digest := Config.sha512 q.payload, origin := q.origin, undo, state := st }

/-- Journal a command (R131). -/
def journal (op : Nat) (q : Request) (undo : Undo) (st : EntryState) (s : State) : State :=
  bump pmDevice 0 10 1 (modControl (fun c => { c with
    journal := c.journal ++ [newEntry c.nextEntry op q undo st], nextEntry := c.nextEntry + 1 }) s)

/-- The reply of a journaled command whose reply came later: its entry is DONE, the reply is queued and kept. -/
def finishEntry (id : Nat) (st : Status) (payload : List Byte) (s : State) : State :=
  match s.control.journal.find? (fun e => e.id == id) with
  | none => s
  | some e =>
    if e.state = .done then s else
    let p := replyPacket s e.version e.opcode (BitVec.ofNat 16 e.unit) (BitVec.ofNat 16 e.session) e.seq st payload
    let s := modControl (fun c => { c with journal := c.journal.map (fun x =>
      if x.id = id then { x with state := .done, request := none } else x) }) s
    keepReply e.port e.session p (putReply e.port e.origin p (some id) (digestCommand e.opcode e.unit st e.digest s))

/-- A block has carried a command out, or refused it: Salurn replies, or, while the management processor restarts or is halted, the
entry keeps the outcome until the journal is resolved (R133). -/
def completeEntry (id : Nat) (st : Status) (payload : List Byte) (s : State) : State :=
  if s.control.mp = .running then finishEntry id st payload s
  else modControl (fun c => { c with journal := c.journal.map (fun x =>
    if x.id = id ∧ x.outcome = none then { x with outcome := some (st, payload) } else x) }) s

/-! Packets that fail checks 1 to 6. -/

/-- FLAGS are those of a request (R113). -/
def flagsValid (flags : BitVec 16) : Bool := flags.toNat % 8 == 1 && decide (flags.toNat < 32)

def broadcastBit (flags : BitVec 16) : Bool := flags.getLsbD 3
def urgentBit (flags : BitVec 16) : Bool := flags.getLsbD 4

/-- TARGET is a row of R114. -/
def targetValid (flags target : BitVec 16) : Bool :=
  let scope := target.toNat / 16384
  let a := target.toNat % 16384
  if broadcastBit flags then scope == 1 || scope == 2 || (scope == 3 && a == 0) else (scope == 0 && a == 0) || scope == 1

/-- A broadcast is refused for an opcode whose reply carries a payload and for the SESSION family (R485, check 5). -/
def broadcastBarred (o : Op) (flags : BitVec 16) : Bool := broadcastBit flags && (!o.empty || o.code / 256 == 0x11)

/-- The checks of R116 up to 6 on the bytes of a packet: nothing when it passes them, else what is answered. -/
inductive RawFail where
  | discard
  | refuse (st : Status) (payload : List Byte) (session0 : Bool)

/-- Checks 1 to 6. -/
def rawChecks (bytes : List Byte) (count : Nat) : Option RawFail :=
  if bytes.headD 0 ≠ 0xA6 then some .discard
  else if 4096 < u16 bytes 16 ∨ count ≠ 28 + 4 * u16 bytes 16 then some (.refuse .length [] true)
  else if (crc32c (bytes.take (count - 4))).toNat ≠ u32 bytes (count - 4) then some (.refuse .crc [] true)
  else
    let p := parsePacket bytes
    if p.version.toNat / 16 ≠ 2 ∨ 4 < p.version.toNat % 16 then some (.refuse .unsupported ([0x20, 0x24] ++ zeros 2) false)
    else if !flagsValid p.flags || p.status != 0 || u32 bytes 20 != 0 || !targetValid p.flags p.target then
      some (.refuse .param (paramAt 0xFFFF) false)
    else match opInfo p.opcode.toNat with
      | none => some (.refuse .opcode [] false)
      | some o => if broadcastBarred o p.flags then some (.refuse .param (paramAt 0xFFFF) false)
        else if p.version.toNat < o.since then some (.refuse .opcode [] false)
        else none

/-- A packet of a receive buffer passes checks 1 to 6. -/
def RxItem.sound (r : RxItem) : Bool := (rawChecks r.bytes r.count).isNone

/-! Intake. -/

/-- The ROM takes the staging commands: in LOAD_WAIT, and with BOOT_SRC = 1 (R93). -/
def State.romTakes (s : State) : Bool :=
  s.sill.stage == .loadWait || (s.sill.stage == .rom && s.sill.straps.bootSrc)

/-- The control-port outgoing queue is full: 64 packets or 64 KiB, or a reply that waits for room (R129). -/
def State.outgoingFull (s : State) : Bool :=
  decide (64 ≤ s.control.outgoing.length) || decide (65536 ≤ s.control.outBytes) || !s.control.held.isEmpty

/-- Salurn, or the ROM, takes requests: neither the outgoing queue nor the journal of 64 entries is full (R129, R131, R138). -/
def State.intakeOpen (s : State) : Bool :=
  s.hubUp && ((s.control.ready && decide (s.control.mp = .running) && !s.control.intakeStopped) || s.romTakes) &&
    !s.outgoingFull && decide (s.control.journal.length < 64)

/-- The entry that is RECORDED: Salurn executes its command next (R131). -/
def State.recorded (s : State) : Option Entry := s.control.journal.find? (fun e => e.state == .recorded)

/-- The control port answers: the sill is on and VDD_IO present (R39). -/
def State.portLives (s : State) : Bool := s.sill.on && s.pins.vddIo

/-- Packets arrive by a port: by the control port while it answers, by the others while the hub is out of reset. -/
def State.portTakes (s : State) (p : Port) : Bool := if p = .control then s.portLives else s.hubUp

/-- No control-port buffer is free (R108). -/
def State.rxFull (s : State) (p : Port) : Bool := p == .control && decide (4 ≤ s.rxHeld)

/-- A packet that waits is held up by an earlier request of its session that still executes (R125). -/
def State.heldUp (s : State) (r : RxItem) : Bool := r.sound && s.executing r.port r.origin r.session

/-- The role that sends a request is SUPERVISOR. -/
def State.bySupervisor (s : State) (p : Port) (originRole session : Nat) : Bool :=
  if p.foreign then originRole == 1 else (s.session session).any (fun x => x.role == .supervisor && x.awaiting.isNone)

/-- An URGENT request of a SUPERVISOR waits (R125). -/
def State.itemUrgent (s : State) (r : RxItem) : Bool :=
  r.sound && urgentBit (parsePacket r.bytes).flags && s.bySupervisor r.port r.originRole r.session

/-- Two waiting packets are of one session. -/
def RxItem.sameSession (r r' : RxItem) : Bool :=
  r.session != 0 && Machine.sameSession r.port r.origin r.session r'.port r'.origin r'.session

/-- The first URGENT request that no packet of its own session precedes, counted from `i`. -/
def State.urgentIndex (s : State) (before : List RxItem) : List RxItem → Nat → Option Nat
  | [], _ => none
  | r :: rest, i =>
    if s.itemUrgent r && !s.heldUp r && !before.any (fun x => x.sameSession r) then some i
    else s.urgentIndex (before ++ [r]) rest (i + 1)

/-- The place of the packet Salurn takes next: an URGENT one of a SUPERVISOR, else the first pushed whose session has no earlier
request executing; none while intake is closed or a command is RECORDED (R111, R125, R129). -/
def State.nextIndex (s : State) : Option Nat :=
  if !s.intakeOpen || s.recorded.isSome then none
  else (s.urgentIndex [] s.control.rx 0).orElse (fun _ => s.control.rx.findIdx? (fun r => !s.heldUp r))

/-- A request for this device that repeats, by its SEQUENCE, one of its session that waits in a receive buffer or executes (R124).
It is judged as its push completes, after checks 2 to 9 (log entry 63). -/
def State.repeats (s : State) (o : Op) (q : Request) : Bool :=
  !q.port.foreign && q.session != 0 && o.code != 0x1101 && o.code != 0x1102 &&
    (s.session q.session.toNat).any (fun x => x.awaiting.isNone && x.version == q.version) &&
    (s.control.rx.any (fun r => !r.port.foreign && r.sound && r.session == q.session.toNat && u32 r.bytes 12 == q.seq.toNat) ||
     s.control.journal.any (fun e => e.state != .done && !e.port.foreign && e.session == q.session.toNat && e.seq == q.seq))

/-- A packet enters a receive buffer. -/
def enqueueRx (r : RxItem) (s : State) : State := modControl (fun c => { c with rx := c.rx ++ [r] }) s

/-- A push finds no free buffer and is discarded with OVERRUN (R108). -/
def overrun (s : State) : State := modSill (Sill.mark .overrun) s

/-- The request that a sound packet of a receive buffer carries. -/
def RxItem.request (r : RxItem) : Request := packetRequest r.port r.origin r.originRole (parsePacket r.bytes)

/-- A packet enters a receive buffer; the control port has four, and a push that finds none is discarded with OVERRUN (R108); so is a
repeat of a request that waits or executes, with no mark (R124). -/
def receive (r : RxItem) (s : State) : State :=
  if !s.portTakes r.port then s
  else if s.rxFull r.port then overrun s
  else if r.sound && s.repeats (opOf (parsePacket r.bytes).opcode.toNat) r.request then s
  else enqueueRx r s

/-- Cells of credit a data message of `n` payload bytes occupies (R457). -/
def cellsOf (n : Nat) : Nat := (16 + n + 255) / 256

/-- Cells freed by this end on a virtual channel. -/
def Credit.free (c : Credit) (vc n : Nat) : Credit :=
  { c with freed := tblMod 0 c.freed vc (· + BitVec.ofNat 32 n) }

/-- One request that precedes the close of its session has left its buffer. -/
def Session.tookOne (x : Session) : Session := { x with closing := x.closing.map (fun c => (c.1, c.2 - 1)) }

/-- Salurn takes packet `i` out of its receive buffer; a buffer of a Tenon or the stream port frees its cells (R457). -/
def takeAt (i : Nat) (s : State) : State :=
  match s.control.rx[i]? with
  | none => s
  | some r =>
    let s := modControl (fun c => { c with rx := c.rx.eraseIdx i }) s
    match r.port with
    | .control => modSession r.session Session.tookOne s
    | .stream => modSession r.session Session.tookOne
        (modStream (fun t => { t with credit := t.credit.free 0 (cellsOf r.bytes.length) }) s)
    | .tenon p => modTenon p (fun t => { t with credit := t.credit.free 0 (cellsOf r.bytes.length) }) s

/-- The packet that Salurn takes next, when it is the one that a command names: the command is its taking. -/
def State.namesNext (s : State) (port : Port) (bytes : List Byte) : Option (Nat × RxItem) :=
  match s.nextIndex with
  | none => none
  | some i => match s.control.rx[i]? with
    | some r => if r.port = port ∧ r.bytes = bytes then some (i, r) else none
    | none => none

/-- A packet that has just arrived is the one Salurn takes next: nothing waits before it that Salurn could take, or it is URGENT and
of a SUPERVISOR, and no request of its own session waits or executes (R125). -/
def State.goesFirst (s : State) (q : Request) : Bool :=
  s.intakeOpen && s.recorded.isNone && !s.executing q.port q.origin q.session.toNat &&
    (s.nextIndex.isNone ||
      (urgentBit q.flags && s.bySupervisor q.port q.originRole q.session.toNat && (s.urgentIndex [] s.control.rx 0).isNone &&
        !s.control.rx.any (fun r => sameSession r.port r.origin r.session q.port q.origin q.session.toNat)))

/-! The domain's ways (R480). -/

/-- District, ring and position of an address. -/
def addrPart (level a : Nat) : Nat := if level = 0 then a % 32 else if level = 1 then a / 32 % 32 else a / 1024

/-- The Tenon port that holds a role. -/
def State.portOfRole (s : State) (r : Nat) : Option Nat := (List.range 8).find? (fun p => (s.tenon p).role == r)

/-- Whether the device has a port on the ring of a level. -/
def State.onLevel (s : State) (l : Nat) : Bool := (s.portOfRole (2 * l + 1)).isSome || (s.portOfRole (2 * l + 2)).isSome

def State.map (s : State) (l : Nat) : RingMap := tblGet {} s.domain.maps l

/-- The device's own number on the ring of a level. -/
def State.numberOn (s : State) (l : Nat) : Nat := addrPart l s.address

/-- Whether the map of a level shows a number reached; a device always reaches itself, and the manager that sent the map. -/
def State.reaches (s : State) (l n : Nat) : Bool :=
  let m := s.map l
  m.east.testBit n || m.west.testBit n || n == s.numberOn l || ((m.east != 0 || m.west != 0) && n == m.sender)

/-- The members of a ring in east order, as its map lists them. -/
def State.members (s : State) (l : Nat) : List Nat := (List.range 32).filter (fun n => s.reaches l n)

/-- Whether the direction from this device to number `n` of a level is east. A closed ring goes the shorter way, east when equal;
on a cut ring the way that does not cross the cut (R480). -/
def State.eastward (s : State) (l n : Nat) : Bool :=
  let m := s.map l
  let me := s.numberOn l
  let ms := s.members l
  let k := ms.length
  let idx := fun x => (ms.findIdx? (· == x)).getD 0
  let d := (idx n + k - idx me) % max k 1
  let both := ms.all (fun x => x == m.sender || x == me || (m.east.testBit x && m.west.testBit x))
  if both then decide (2 * d ≤ k)
  else
    let side := fun x => m.east.testBit x
    if me = m.sender then side n == side (ms.getD 1 n)
    else if n = m.sender then !(side me == side (ms.getD 1 me))
    else if side me = side n then decide (idx me < idx n)
    else !(side me == side (ms.getD 1 me))

/-- The port by which a message for number `n` of a level goes, when the number is reached. -/
def State.portToward (s : State) (l n : Nat) : Option Nat :=
  if !s.reaches l n then none
  else if s.eastward l n then (s.portOfRole (2 * l + 1)).orElse (fun _ => s.portOfRole (2 * l + 2))
  else (s.portOfRole (2 * l + 2)).orElse (fun _ => s.portOfRole (2 * l + 1))

/-- The level whose ring a message toward an address next goes round, and the number it goes to there. -/
def State.hopTo (s : State) (a : Nat) : Nat × Nat :=
  if addrPart 2 a ≠ s.numberOn 2 then
    if s.onLevel 2 then (2, addrPart 2 a) else if s.onLevel 1 then (1, 0) else (0, 0)
  else if addrPart 1 a ≠ s.numberOn 1 then (if s.onLevel 1 then (1, addrPart 1 a) else (0, 0))
  else (0, addrPart 0 a)

/-- The port toward an address (R480). -/
def State.nextHop (s : State) (a : Nat) : Option Nat := s.portToward (s.hopTo a).1 (s.hopTo a).2

/-- Queue a message toward an address, behind the fence of R482 where one holds its number; the Bool says there is a way. -/
def sendToward (a : Nat) (m : Message) (s : State) : Bool × State :=
  match s.nextHop a with
  | none => (false, s)
  | some p =>
    let (l, n) := s.hopTo a
    if s.domain.fenced.any (fun f => f.1 == l && f.2.1.testBit n) then
      (true, modDomain (fun d => { d with fenced := d.fenced.map (fun f =>
        if f.1 = l ∧ f.2.1.testBit n then (f.1, f.2.1, f.2.2 ++ [(a, m)]) else f) }) s)
    else (true, tenonPush p m s)

/-! TARGET (R114). -/

/-- TARGET names this device and no other. -/
def targetsSelf (s : State) (q : Request) : Bool :=
  !broadcastBit q.flags && (q.target == 0 || q.target.toNat % 16384 == s.address)

/-- A device's address lies in the scope of a broadcast TARGET. -/
def inScope (target : BitVec 16) (a : Nat) : Bool :=
  let scope := target.toNat / 16384
  let t := target.toNat % 16384
  if scope = 1 then a / 32 == t / 32 else if scope = 2 then a / 1024 == t / 1024 else true

/-! Check 8 and what follows it on the entry device (R484, R485). -/

/-- The role the entry device writes into ORIGIN_ROLE. -/
def originRole (q : Request) (s : State) : Nat :=
  if q.port matches .tenon _ then q.originRole else match s.session q.session.toNat with
  | some x => if x.awaiting.isNone then x.role.code else 0
  | none => 0

/-- The address the message's ORIGIN carries. -/
def originOf (q : Request) (s : State) : Nat := if q.port matches .tenon _ then q.origin else s.address

/-- A request taken on an open session uses up its SEQUENCE; a forwarded one too (log entry 12). -/
def advanceSeq (q : Request) (s : State) : State :=
  modSession q.session.toNat (fun x => if q.seq = x.nextSeq then { x with nextSeq := x.nextSeq + 1 } else x) s

/-- A request for one other device goes toward it, or is answered at once when it is not reached (R480). -/
def forwardOne (op : Nat) (q : Request) (s : State) : State :=
  if originRole q s = 0 then answer op q .state [] s else
  let m : Message := { vc := 0, hops := 0, originRole := originRole q s, origin := originOf q s, body := .packet (requestPacket op q) none }
  let (sent, t) := sendToward (q.target.toNat % 16384) m (advanceSeq q s)
  if sent then modDomain (fun d => { d with relayed := (d.relayed ++ [(q.session.toNat, q.seq, q.port)]).drop (d.relayed.length + 1 - 64) }) t
  else
    let p := { replyPacket s (replyVersion q) op q.unit q.session q.seq .noReply [] with target := q.target }
    keepReply q.port q.session.toNat p (putReply q.port q.origin p none t)

/-- The level of a ring this device manages: 0 for a ring manager, 1 and 2 for the managers above, by its strap and number. -/
def State.manages (s : State) (l : Nat) : Bool :=
  decide (l ≤ s.sill.straps.role.toNat - 1 ∧ 1 ≤ s.sill.straps.role.toNat) &&
    (s.domain.mgrState == 1 || s.domain.mgrState == 3)

/-- The devices this one sends a broadcast's copies to: those of the rings it manages that lie in scope, each standing for its
subtree, and the manager above when the scope is wider; a device that manages nothing sends it to its ring manager. -/
def State.subtree (s : State) (target : BitVec 16) : List Nat :=
  let mine := [0, 1, 2].flatMap (fun l =>
    if s.manages l then ((s.members l).filter (fun n => n != s.numberOn l)).map (fun n =>
      if l = 0 then s.address / 32 * 32 + n else if l = 1 then s.address / 1024 * 1024 + n * 32 else n * 1024) else [])
  let scope := target.toNat / 16384
  let t := target.toNat % 16384
  let wide := if s.sill.straps.role = 1 then !(scope == 1 && t / 32 == s.address / 32)
    else if s.sill.straps.role = 2 then scope == 3 || t / 1024 != s.address / 1024 else false
  let up := if s.sill.straps.role = 1 then s.domain.distMgr else s.domain.rootAddr
  if s.domain.mgrState = 0 then (if s.onLevel 0 then [s.domain.ringMgr] else [])
  else (if wide && s.onLevel s.sill.straps.role.toNat then [up] else []) ++ mine.filter (fun a =>
    if scope = 1 then a / 32 == t / 32 || (a % 1024 == 0 && a / 1024 == t / 1024)
    else if scope = 2 then a / 1024 == t / 1024 else true)

/-- The way to an address leaves by a link of revision 1 or 2, which carries no collation (R490). -/
def narrow (s : State) (a : Nat) : Bool :=
  match s.nextHop a with
  | some p => decide ((s.tenon p).rev < 3)
  | none => false

/-- A broadcast as a separately addressed request (R490). -/
def addressed (op : Nat) (q : Request) (a : Nat) : Packet :=
  { requestPacket op q with flags := q.flags &&& 0xFFF7, target := BitVec.ofNat 16 (0x4000 + a) }

/-- Send the copies of a broadcast and remember what is awaited. -/
def fanOut (op : Nat) (q : Request) (id : Nat) (st : Option Status) (s : State) : State :=
  let dest := (s.subtree q.target).filter (fun a => !(q.port matches .tenon _) || a != q.origin)
  let m : Message := { vc := 0, originRole := originRole q s, origin := s.address, body := .packet (requestPacket op q) none }
  let (sent, lost, t) := dest.foldl (fun (acc : List Nat × List (Nat × Nat) × State) a =>
    let (ok, t) := sendToward a (if narrow s a then { m with body := .packet (addressed op q a) none } else m) acc.2.2
    if ok then (acc.1 ++ [a], acc.2.1, t) else (acc.1, acc.2.1 ++ [(a, Status.noReply.code)], t)) ([], [], s)
  let own := inScope q.target s.address
  let failed := match st with
    | some x => if own ∧ x ≠ .ok then [(s.address, x.code)] else []
    | none => []
  modControl (fun c => { c with collations := c.collations ++ [{
    id, port := q.port, origin := q.origin, request := requestPacket op q, ok := if own ∧ st = some .ok then 1 else 0, total := (if own then 1 else 0) + lost.length,
    listed := failed ++ lost, awaited := sent }] }) t

/-- The payload of a collated reply (R486), its list in ascending address order and at most 4 094 long. -/
def collatedPayload (total ok : Nat) (listed : List (Nat × Nat)) (overflow : Bool) : List Byte :=
  let l := (listed.mergeSort (fun a b => decide (a.1 ≤ b.1))).take 4094
  be 2 total ++ be 2 ok ++ be 2 l.length ++ be 1 (b2n (overflow || decide (4094 < listed.length))) ++ zeros 1 ++
    l.flatMap (fun e => be 2 e.1 ++ be 2 e.2)

/-- A collation ends: ST_OK when every target returned ST_OK, else ST_DOM_PARTIAL with the list (R485). A manager that answers
another device sends the counts in either case. -/
def closeCollation (c : Collation) (s : State) : State :=
  let listed := c.listed ++ c.awaited.map (fun a => (a, Status.noReply.code))
  let total := c.total + c.awaited.length
  let s := modControl (fun k => { k with collations := k.collations.filter (fun x => x.id != c.id) }) s
  let all := listed.isEmpty
  if all ∧ !(c.port matches .tenon _) then completeEntry c.id .ok [] s
  else completeEntry c.id (if all then .ok else .partly) (collatedPayload total c.ok listed c.overflow) s

/-! Checks 1 to 14 for a request of a known opcode. -/

/-- Run a command's own part and what R131 and R126 put around it. -/
def execute (o : Op) (q : Request) (body : Request → State → Reply) (s : State) : State :=
  match body q s with
  | .reject st pl s => answerKept o.code q st pl none s
  | .done st pl s next =>
    let id := s.control.nextEntry
    let s := bump pmDevice 0 8 1 s
    if o.get then next (answerKept o.code q st pl none s)
    else
      let s := digestCommand o.code q.u st (Config.sha512 q.payload) (journal o.code q .none .done s)
      next (answerKept o.code q st pl (some id) s)
  | .later undo s => bump pmDevice 0 8 1 (journal o.code q undo .applying s)

/-- A broadcast's execution on this device, when it is in scope: its status, the state and what follows the reply. -/
def broadcastOwn (q : Request) (body : Request → State → Reply) (s : State) : Option Status × State × (State → State) :=
  if !inScope q.target s.address then (none, s, fun s => s)
  else match body q s with
    | .reject st _ s => (some st, s, fun s => s)
    | .done st _ s next => (some st, bump pmDevice 0 8 1 s, next)
    | .later _ s => (some .ok, bump pmDevice 0 8 1 s, fun s => s)

/-- The copies are sent: with none awaited the collation ends at once. -/
def broadcastSent (id : Nat) (s : State) : State :=
  match s.control.collations.find? (fun c => c.id == id) with
  | some c => if c.awaited.isEmpty then closeCollation c s else s
  | none => s

/-- A broadcast that this device takes: it executes here when it is in scope, its copies go down the tree and the replies are
collated (R485). -/
def executeBroadcast (o : Op) (q : Request) (body : Request → State → Reply) (s : State) : State :=
  let own := broadcastOwn q body (journal o.code q .forward .applying s)
  own.2.2 (broadcastSent s.control.nextEntry (fanOut o.code q s.control.nextEntry own.1 own.2.1))

/-- The opcodes session 0 accepts (R118). -/
def sessionless (s : State) (op : Nat) : Bool :=
  if s.romTakes then op == 0x1002 || op == 0x1003 || op == 0x1004
  else op == 0x1101 || op == 0x1102 || op == 0x0101 || op == 0x1001

/-- The least role of an opcode for these fields: the table's, but for the marks (a) to (d) of R519, and
SUPERVISOR to close another session (R135). -/
def neededRole (o : Op) (q : Request) (grants : Nat) (s : State) : Nat :=
  if o.code = 0x0901 then (if s.otp.ownerRoots.isEmpty ∧ q.b 0 = 1 ∧ q.b 1 = 0 then 3 else 1)
  else if o.code = 0x0902 then (if s.security.record.isNone then 3 else 1)
  else if o.code = 0x0905 then (if q.b 0 = 0 ∨ 3 < q.b 0 then 2 else 1)
  else if o.code = 0x0C07 ∨ o.code = 0x0C08 then (if q.b 2 = 1 then 2 else 3)
  else if o.code = 0x0D02 then (if q.u < 24 ∧ !grants.testBit q.u then 2 else 3)
  else if o.code = 0x1103 then (if q.h 0 = 0 ∨ (q.h 0 = q.session.toNat ∧ !q.port.foreign) then 3 else 1)
  else o.role

/-- Checks 9 to 14 of R116 on a request for this device. -/
def letIn (o : Op) (q : Request) (body : Request → State → Reply) (s : State) : State :=
  let run := if broadcastBit q.flags then executeBroadcast o q body else execute o q body
  if q.port matches .tenon _ then
    -- R484: check 10 discards a second copy, check 11 uses ORIGIN_ROLE
    let key := (q.origin, q.session.toNat, q.seq)
    if s.domain.executed.contains key then
      bump pmTenon (match q.port with | .tenon p => p | _ => 0) 45 1 s
    else
      let s := modDomain (fun d => { d with executed := (d.executed ++ [key]).drop (d.executed.length + 1 - 64) }) s
      if neededRole o q 0 s < q.originRole ∨ (urgentBit q.flags ∧ q.originRole ≠ 1) then answer o.code q .role [] s else run s
  else if q.session = 0 then
    if !sessionless s o.code then answer o.code q .role [] s
    else if urgentBit q.flags then answer o.code q .role [] s
    else run s
  else if o.code = 0x1101 ∨ o.code = 0x1102 then answer o.code q .state [] s
  else match s.session q.session.toNat with
    | none => answer o.code q .state [] s
    | some x =>
      if x.awaiting.isSome ∨ x.version ≠ q.version ∨ x.closing.any (fun c => c.2 == 0) then answer o.code q .state [] s
      else if q.seq ≠ x.nextSeq then
        match x.replies.find? (fun r => r.seq == q.seq) with
        | some r => putReply q.port q.origin r none s
        | none => answer o.code q .sequence [] s
      else
        let s := advanceSeq q s
        if neededRole o q x.grants s < x.role.code ∨ (urgentBit q.flags ∧ x.role ≠ .supervisor) then answerKept o.code q .role [] none s
        else run s

/-- The checks of R116 in order, for a request that Salurn or the ROM takes now. -/
def checks (o : Op) (q : Request) (body : Request → State → Reply) (s : State) : State :=
  let words := q.payload.length / 4
  if 4096 < words ∨ q.payload.length % 4 ≠ 0 then answer o.code { q with session := 0 } .length [] s
  else if q.version.toNat / 16 ≠ 2 ∨ 4 < q.version.toNat % 16 then
    answer o.code q .unsupported ([0x20, 0x24] ++ zeros 2) s
  else if !flagsValid q.flags || !targetValid q.flags q.target ||
      broadcastBarred o q.flags then answer o.code q .param (paramAt 0xFFFF) s
  else if q.version.toNat < o.since then answer o.code q .opcode [] s
  else if words < o.lo ∨ o.hi < words then answer o.code q .length [] s
  else if !broadcastBit q.flags && !targetsSelf s q then forwardOne o.code q s
  else letIn o q body s

/-- A request arrives: Salurn takes it now, or it waits in a receive buffer until Salurn can (R108, R111, R125, R129). Where the packet
that Salurn takes next is this very one, the command is its taking. Nothing arrives by a control port that is idle for want of
VDD_IO (R39); a push that finds no buffer free is discarded with OVERRUN (R108), a repeat without (R124). -/
def takeRequest (code : Nat) (q : Request) (body : Request → State → Reply) (s : State) : State :=
  if !s.portTakes q.port then s
  else match s.namesNext q.port (packetBytes (requestPacket code q)) with
    | some (i, r) => checks (opOf code) { q with origin := r.origin, originRole := r.originRole } body (takeAt i s)
    | none =>
      if s.rxFull q.port then overrun s
      else if s.repeats (opOf code) q then s
      else if s.goesFirst q then checks (opOf code) q body s
      else
        let bytes := packetBytes (requestPacket code q)
        enqueueRx { port := q.port, bytes, count := bytes.length, origin := q.origin, originRole := q.originRole } s

end Sys2Proof.Machine
end

