-- ==== Sys2Proof/Machine/Alarm.lean ====
section
/-! DEFINITION. Erasing keys and firing alarm causes (R388, R391, R392), which commands, the sill and the protocol share. -/

namespace Sys2Proof.Machine

/-- The last value an invocation counter may reach, at which nothing more is sent (R386). -/
def counterEnd : Nat := 2 ^ 48 - 1

/-- EV_SEC_NONCE_WARN, once for a slot (R386, R389). -/
def nonceWarn (unit i warn : Nat) (s : State) : State :=
  let k := s.slot i
  if k.warned ∨ k.counter < warn then s
  else raise 0x0903 unit (be 1 i ++ zeros 1 ++ be 6 k.counter) false (modSlot i (fun k => { k with warned := true }) s)

/-- The channel positions: unit, direction, position. -/
def positions : List (Nat × Nat × Nat) :=
  (List.range 4).flatMap (fun u => (List.range 2).flatMap (fun d => (List.range 2).map (fun p => (u, d, p))))

/-- The slot that a position names. -/
def Channel.slotAt (c : Channel) (p : Nat) : Option Nat := if p = 0 then c.slot0 else c.slot1

/-- BINDS of a slot: the positions that name it (R381, R398). -/
def State.binds (s : State) (i : Nat) : Nat :=
  (positions.filter (fun x => (s.channel x.1 x.2.1).slotAt x.2.2 == some i)).length

/-- The slot stands in a transmit position. -/
def State.boundTx (s : State) (i : Nat) : Bool :=
  positions.any (fun x => x.2.1 == 0 && (s.channel x.1 0).slotAt x.2.2 == some i)

/-- Raise EV_SEC_ERASED, at RUN when Salurn does not run now. -/
def erasedEvent (cls idx src : Nat) (s : State) : State :=
  if s.salurnRuns then raise 0x0906 0 (be 1 cls ++ be 1 idx ++ be 1 src ++ zeros 1) true s
  else modSecurity (fun c => { c with deferredErase := c.deferredErase ++ [(cls, idx, src)] }) s

/-- A transmit channel squelches: once, with its cause (R388). -/
def squelch (u cause : Nat) (s : State) : State :=
  if (s.channel u 0).squelch ≠ 0 then s
  else raise 0x0902 u (be 1 0 ++ be 1 cause ++ zeros 2) true (modChannel u 0 (fun c => { c with squelch := cause }) s)

/-- The bench request names the slot (a queued load is not yet in it). -/
def Bench.uses (i : Nat) : Bench → Bool
  | .load .. => false
  | .seal slot .. => slot == i
  | .unseal slot .. => slot == i

/-- Bench requests that name an erased slot complete with ST_KEY_ERASED and an output of zeros, of full length (R388). -/
def dropBench (i : Nat) (s : State) : State :=
  let gone := s.security.bench.filter (fun b => b.uses i)
  let s := modSecurity (fun c => { c with bench := c.bench.filter (fun b => !b.uses i) }) s
  forEach gone (fun b s => match b with
    | .load .. => s
    | .seal _ _ _ text e => completeEntry e .keyErased (zeros (28 + text.length)) s
    | .unseal _ _ _ _ text e => completeEntry e .keyErased (zeros (28 + text.length)) s) s

/-- Zeroise one slot with its engine copies: ERASED while a position names it, else EMPTY (R381, R388). -/
def eraseSlot (i : Nat) (s : State) : State :=
  let s := modSecurity (fun c => { c with erasedNow := c.erasedNow ++ [i] }) s
  if (s.slot i).state = 0 then dropBench i s else
    let s := modSlot i (fun k => if s.binds i = 0 then {} else { k with state := 2, key := [] }) s
    forEach [0, 1, 2, 3] (fun u s =>
      let c := s.channel u 0
      if c.secure && c.slotAt c.epoch == some i then squelch u 1 s else s) (dropBench i s)

/-- Zeroise every key slot. -/
def eraseSlots (s : State) : State :=
  modSecurity (fun c => { c with erasedNow := c.erasedNow ++ [128] })
    (modSill (fun x => { x with sessionErased := true }) (forEach (s.security.slots.map (fun e => e.1)) eraseSlot s))

/-- Zeroise every KEK. -/
def eraseKeks (s : State) : State :=
  modSill (fun x => { x with allErased := true }) (modSecurity (fun c => { c with keks := [], erasedNow := c.erasedNow ++ [129] }) s)

/-- An erase by class of SECURITY.ERASE_KEY (R396), with its event. -/
def eraseClass (cls idx src : Nat) (s : State) : State :=
  erasedEvent cls idx src (
    if cls = 0 then eraseSlot idx s
    else if cls = 1 then modSecurity (fun c => { c with keks := tblSet [] c.keks idx [], erasedNow := c.erasedNow ++ [256 + idx] }) s
    else if cls = 2 then eraseSlots s
    else eraseKeks (eraseSlots s))

/-- The action the policy names for a cause. -/
def State.alarmAction (s : State) (cause : Nat) : Nat := s.security.actions.getD (cause - 1) 0

/-- A cause of R391 fires: its action and every action below it (R392). -/
def fireAlarm (cause : Nat) (s : State) : State :=
  let a := s.alarmAction cause
  let s := modSill (fun x => { x with lastCause := cause, secAlarm := x.secAlarm || decide (1 ≤ a) }) s
  let s := if a = 2 then eraseClass 2 0 cause s else if a = 3 then eraseClass 3 0 cause s else s
  if s.salurnRuns then raise 0x0901 0 (be 1 cause ++ be 1 a ++ zeros 2) true s
  else modSecurity (fun c => { c with deferred := some (cause, a) }) s

/-- The threshold of a count cause. -/
def State.alarmThreshold (s : State) (cause : Nat) : Nat :=
  if cause = 7 then s.security.thrFw else if cause = 8 then s.security.thrSession else s.security.thrBlob

/-- AUTH_FAILS of SL_SEC_STATUS, saturating at 255. -/
def countAuthFail (s : State) : State := modSill (fun x => { x with authFails := min (x.authFails + 1) 255 }) s

/-- An authentication failure of kind 7 firmware, 8 session, 9 blob: it counts, and its cause fires at the threshold, when that
count restarts (R391). -/
def authFailure (cause : Nat) (s : State) : State :=
  let s := countAuthFail s
  let n := tblGet 0 s.security.fails cause + 1
  if s.alarmThreshold cause ≤ n then fireAlarm cause (modSecurity (fun c => { c with fails := tblSet 0 c.fails cause 0 }) s)
  else modSecurity (fun c => { c with fails := tblSet 0 c.fails cause n }) s

/-- What waits for RUN: the erases and the last alarm that fired meanwhile (R392). -/
def deferredAlarms (s : State) : State :=
  let es := s.security.deferredErase
  let d := s.security.deferred
  let s := modSecurity (fun c => { c with deferredErase := [], deferred := none }) s
  let s := forEach es (fun e s => raise 0x0906 0 (be 1 e.1 ++ be 1 e.2.1 ++ be 1 e.2.2 ++ zeros 1) true s) s
  match d with
  | some (c, a) => raise 0x0901 0 (be 1 c ++ be 1 a ++ zeros 2) true s
  | none => s

end Sys2Proof.Machine
end

