-- ==== Sys2Proof/Machine/Views.lean ====
section
/-! DEFINITION. What one part of the device asks of another: which domains are enabled (R54), how deep they may go (R56) and
whether they are idle (R55). -/

namespace Sys2Proof.Machine

/-- The lanes of a client that lie in a quad. -/
def Client.inQuad (c : Client) (q : Nat) : Bool := decide (c.lanes ≠ 0 ∧ c.firstLane / 4 ≤ q ∧ q * 4 < c.firstLane + c.lanes)

/-- A client is assigned to some lane of the quad (R54). -/
def State.quadAssigned (s : State) (q : Nat) : Bool :=
  s.client.clients.any (fun e => decide (e.2.firstLane / 4 ≤ q ∧ q * 4 < e.2.firstLane + e.2.lanes))

/-- A DRAM stack (R318). -/
def State.stack (s : State) (k : Nat) : Stack := tblGet {} s.memory.dramStacks k

/-- The stack holds an allocated cell, a descriptor or a deskew entry (R56). -/
def State.stackHolds (s : State) (k : Nat) : Bool := !(s.stack k).alloc.isEmpty || decide ((s.stack k).deskew ≠ 0)

/-- The stack has failed (R341). -/
def State.stackFailed (s : State) (k : Nat) : Bool := (s.stack k).failed

/-- A queue of the slice is configured (R56). -/
def State.sliceConfigured (s : State) (k : Nat) : Bool := s.sched.queues.any (fun e => e.1 / 16384 == k && e.2.enabled)

/-- The quad carries a mirrored client on a device in STANDBY or HELD_OFF (R56). -/
def State.quadForced (s : State) (q : Nat) : Bool :=
  let m := s.protect.mirror
  (m.state == 1 || m.state == 4) && s.client.clients.any (fun e => m.clientMask.testBit e.1 && e.2.inQuad q)

/-- A twin group (R349). -/
def State.twin (s : State) (g : Nat) : Twin := tblGet {} s.protect.twins g

/-- The enabled twin group that a unit belongs to. -/
def State.twinOf (s : State) (u : Nat) : Option Nat :=
  [0, 1].find? (fun g => (s.twin g).enabled && ((s.twin g).home == u || (s.twin g).partner == u))

/-- Home of an enabled twin group. -/
def State.twinHome (s : State) (u : Nat) : Bool := match s.twinOf u with | some g => (s.twin g).home == u | none => false

/-- The certificate of SECURITY.GET_CERT and of an AUTH: identity key, agreement key, Eloanath's signature over serial and both (R396, R474). -/
def State.certificate (s : State) : List Byte :=
  let id := Config.devicePub 0
  let agr := Config.devicePub 1
  id ++ agr ++ zeros 2 ++ Config.ecdsaSign (Config.eloanathPub 0) (s.serial ++ id ++ agr) 0

/-- The frame after the one received last does not come, or is not checked: its tag never arrives (R387). -/
def dropTag (u : Nat) (s : State) : State := modChannel u 1 (fun c => { c with wait := none }) s

/-- The unit is the partner of an enabled twin group (R350). -/
def State.twinPartner (s : State) (u : Nat) : Bool := [0, 1].any (fun g => (s.twin g).enabled && (s.twin g).partner == u)

/-- A tributary (R277). -/
def State.trib (s : State) (t : Nat) : Trib := tblGet {} s.client.tribs t

/-- The tributary that carries a transparent client. -/
def State.gmpTrib (s : State) (c : Nat) : Option Nat :=
  (s.client.tribs.find? (fun e => e.2.now.kind == 1 && e.2.now.client == c)).map (fun e => e.1)

/-- The quad carries a transparent client with a live tributary, which always offers it frames (R55). -/
def State.quadFed (s : State) (q : Nat) : Bool :=
  s.client.clients.any (fun e => e.2.mode == 1 && e.2.inQuad q && (s.gmpTrib e.1).isSome)

/-- The tributary that holds a slot of a unit, as last commanded (R278). -/
def State.slotHolder (s : State) (u slot : Nat) : Option Nat :=
  (s.client.tribs.find? (fun e => e.2.set.kind != 0 && e.2.set.cu == u && e.2.set.slots.testBit slot)).map (fun e => e.1)

/-- The tributary to which the unit's security slot 20n − 1 is allocated (R374). -/
def State.securityTrib (s : State) (u : Nat) : Option Nat :=
  match (s.cu u).fmt with
  | some f => s.slotHolder u (20 * f.otucN - 1)
  | none => none

/-- A tributary slot of a unit's OTUCn at or beyond `slot` is allocated (R191). -/
def State.slotsFrom (s : State) (u slot : Nat) : Bool :=
  s.client.tribs.any (fun e => e.2.set.kind != 0 && e.2.set.cu == u && decide (2 ^ slot ≤ e.2.set.slots))

/-- The unit is muted: the device is in a mirror pair, not ACTIVE, or releasing, and MUTE_CU names it (R142, R172, R364). -/
def State.muteDue (s : State) (u : Nat) : Bool :=
  let m := s.protect.mirror
  m.state != 0 && (m.state != 3 || m.releasing.isSome) && m.muteCu.testBit u

/-! The monitor ADC (chapter 16). -/

def State.converter (s : State) (c : Nat) : Converter := tblGet {} s.monitor.converters c
def State.sequencer (s : State) (q : Nat) : Sequencer := tblGet {} s.monitor.sequencers q
def State.injection (s : State) (c : Nat) : Option Injection := tblGet none s.monitor.injections c

/-- No conversion, sequence or trigger pending, and no decimation channel enabled (R55, R427). -/
def State.monIdle (s : State) : Bool :=
  [0, 1].all (fun q => !(s.sequencer q).running && !(s.sequencer q).latched && (s.injection q).isNone) &&
    s.monitor.decims.all (fun e => !e.2.config.enabled)

/-- R55: the part of a domain's idle condition that the device's own state decides; the rest (a peer's electrical idle, traffic on
the way) is the sender's of the command to know. -/
def State.domainIdle (s : State) (cls idx : Nat) : Bool :=
  match cls with
  | 1 => !(s.cu idx).txEn && !(s.calOf idx).fullTx
  | 2 => !(s.cu idx).rxEn
  | 3 => !s.quadFed idx
  | 5 => (s.tenon idx).credit.queues.all (fun e => e.2.isEmpty)
  | 6 => s.stream.credit.queues.all (fun e => e.2.isEmpty) && s.control.routeStream.queue.isEmpty &&
      (List.range 23).all (fun u => !s.stream.drainMask.testBit u || (s.countUnit u).records.isEmpty)
  | 7 => s.security.bench.isEmpty
  | 4 => decide ((s.stack idx).clamp = []) && !(s.stack idx).retraining
  | 8 => s.monIdle
  | 9 => s.sched.queues.all (fun e => e.1 / 16384 != idx || e.2.frames.isEmpty)
  | _ => true

end Sys2Proof.Machine
end

