-- ==== Sys2Proof/Machine/CalOps.lean ====
section
/-! DEFINITION. The calibrated elements of R151, their trims and what touches them, as power, carrier and calibration commands
share them. -/

namespace Sys2Proof.Machine

/-! Elements. -/

/-- A parameter of R151: elements, range, tolerance and largest step. -/
structure Param where
  count : Nat
  lo : Int
  hi : Int
  tol : Nat
  step : Nat
  deriving DecidableEq, Repr

/-- R151. -/
def paramOf (p : Nat) : Param :=
  match p with
  | 0x01 => ⟨256, -512, 511, 2, 8⟩ | 0x02 => ⟨256, -2048, 2047, 8, 64⟩ | 0x03 => ⟨256, -256, 255, 2, 16⟩
  | 0x04 => ⟨4, -1792, 1792, 4, 16⟩ | 0x05 => ⟨2, -2048, 2047, 16, 64⟩ | 0x06 => ⟨2, -1000, 1000, 5, 10⟩
  | 0x07 => ⟨32, -256, 255, 2, 16⟩ | 0x08 => ⟨4, -1792, 1792, 4, 16⟩ | 0x09 => ⟨2, -2048, 2047, 16, 64⟩
  | 0x0A => ⟨2, -1000, 1000, 5, 10⟩
  | 0x20 => ⟨2, -512, 511, 2, 8⟩ | 0x21 => ⟨2, -2048, 2047, 8, 64⟩ | 0x22 => ⟨1, -2048, 2047, 4, 16⟩
  | _ => ⟨0, 0, 0, 0, 0⟩

/-- The parameters of a unit; 4 is the monitor ADC. -/
def unitParams (u : Nat) : List Nat := if u = 4 then [0x20, 0x21, 0x22] else [1, 2, 3, 4, 5, 6, 7, 8, 9, 10]

/-- The side of a unit whose domain a parameter belongs to: transmit (and the monitor) or receive. -/
def txParam (p : Nat) : Bool := decide (7 ≤ p)

/-- Every element of a unit, in ascending ID, then ascending index. -/
def unitElements (u : Nat) : List (Nat × Nat) := (unitParams u).flatMap (fun p => (List.range (paramOf p).count).map (fun i => (p, i)))

/-- The elements of one side of a unit. -/
def sideElements (u : Nat) (tx : Bool) : List (Nat × Nat) := (unitElements u).filter (fun e => txParam e.1 == tx)

def elemKey (u p i : Nat) : Nat := u * 65536 + p * 256 + i
def State.elem (s : State) (u p i : Nat) : Element := tblGet {} s.elements (elemKey u p i)
def modElem (u p i : Nat) (f : Element → Element) (s : State) : State := { s with elements := tblMod {} s.elements (elemKey u p i) f }

/-- R147. -/
def Element.target (e : Element) : Int := e.factory + e.overlay + e.inservice

def Param.holds (p : Param) (v : Int) : Bool := decide (p.lo ≤ v ∧ v ≤ p.hi)

/-- What moves one element a boundary: an ADC lane, a DAC lane, a receive or transmit orthogonaliser, a monitor converter (R156). -/
def converterOf (p i : Nat) : Nat × Nat :=
  match p with
  | 0x01 => (0, i / 64) | 0x02 => (0, i / 64) | 0x03 => (0, i / 64) | 0x04 => (0, i) | 0x05 => (0, 2 * i + 1) | 0x06 => (2, i)
  | 0x07 => (1, i / 8) | 0x08 => (1, i) | 0x09 => (3, i) | 0x0A => (3, i)
  | 0x20 => (4, i) | 0x21 => (4, i) | _ => (4, 1)

/-! Touching what is in flight (R154, R157). -/

/-- The element is rejected, in the round or in a full calibration; EV_CAL_STUCK at the eighth consecutive one, once until it is
accepted again (R155). Only the round's rejections count toward its EV_CAL_DONE (R165). -/
def rejectElem (u p i : Nat) (full : Bool) (s : State) : State :=
  let e := s.elem u p i
  let s := if full then s else modCal u (fun c => { c with rejectedInRound := c.rejectedInRound + 1 }) s
  if e.rejectRun + 1 = 8 ∧ !e.stuck then
    raise 0x0B02 u (be 1 p ++ zeros 1 ++ be 2 i) false (modElem u p i (fun e => { e with rejectRun := 8, stuck := true }) s)
  else modElem u p i (fun e => { e with rejectRun := e.rejectRun + 1 }) s

/-- Estimates of an element are in flight: windows of a round, or of its side's full calibration. -/
def State.estimating (s : State) (u p : Nat) : Bool :=
  let c := s.calOf u
  (c.round && decide (c.window < 2)) || (if txParam p then c.fullTx else c.fullRx)

/-- A correction not yet stepped in is taken back, and counts as superseded and not as applied; an estimate in flight is marked. -/
def supersede (u p i : Nat) (s : State) : State :=
  let e := s.elem u p i
  let rest := e.target - e.trim
  let back := if 0 < e.corr then max 0 (min e.corr rest) else min 0 (max e.corr rest)
  if e.corr ≠ 0 then
    rejectElem u p i false (modCal u (fun c => { c with rejSuperseded := c.rejSuperseded + 1, applied := c.applied - 1 })
      (modElem u p i (fun e => { e with inservice := e.inservice - back, corr := 0 }) s))
  else if s.estimating u p then modElem u p i (fun e => { e with superseded := true }) s
  else s

/-- A happening that supersedes every estimate in flight of a unit (R157). -/
def supersedeAll (u : Nat) (s : State) : State :=
  let s := forEach ((unitElements u).filter (fun e => (s.elem u e.1 e.2).corr ≠ 0)) (fun e s => supersede u e.1 e.2 s) s
  modCal u (fun c => { c with
    allSuperseded := c.allSuperseded || (c.round && decide (c.window < 2))
    fullSupTx := c.fullSupTx || c.fullTx, fullSupRx := c.fullSupRx || c.fullRx }) s

/-- The source of a parameter's estimate (R153): 0 moments, 1 constellation, 2 observation, 3 monitor references. -/
def sourceOf (p : Nat) : Nat := if p ≤ 3 then 0 else if p ≤ 6 then 1 else if p ≤ 10 then 2 else 3

/-- Whether a source of a unit is qualified (R153). -/
def State.calQualified (s : State) (u src : Nat) : Bool :=
  match src with
  | 0 => decide ((s.dom 2 u).state = 0) && (s.cu u).rxEn && !(s.cu u).los
  | 1 => decide ((s.dom 2 u).state = 0) && (s.cu u).rxEn && !(s.cu u).los && decide ((s.cu u).acq = 7)
  | 2 => decide ((s.dom 1 u).state = 0) && (s.cu u).txEn
  | _ => decide ((s.dom 8 0).state = 0)

/-- The sources of a unit. -/
def unitSources (u : Nat) : List Nat := if u = 4 then [3] else [0, 1, 2]

/-- A source has lost its qualification during a window: the window is discarded and the suspension counted once (R153). Estimates
that a happening of R157 has superseded stay superseded. -/
def suspendSources (u : Nat) (s : State) : State :=
  let c := s.calOf u
  if !(c.round && decide (c.window < 2)) || c.allSuperseded then s else
    let lost := (unitSources u).filter (fun x => !s.calQualified u x && !c.skipped.contains x)
    modCal u (fun c => { c with skipped := c.skipped ++ lost, suspended := c.suspended + BitVec.ofNat 32 lost.length }) s

/-! Losing and rebuilding INSERVICE (R148, R158). -/

/-- The unit of a domain's calibration, and its side. -/
def calUnit (cls idx : Nat) : Nat := if cls = 8 then 4 else idx
def calSide (cls : Nat) : Bool := cls != 2

/-- INSERVICE of a side is lost; its trims hold what the other layers say. -/
def dropInservice (u : Nat) (tx : Bool) (s : State) : State :=
  let keep := (sideElements u tx).filter (fun x => decide (s.elem u x.1 x.2 ≠ {}))
  forEach keep (fun x s => modElem u x.1 x.2 (fun e =>
    { factory := e.factory, overlay := e.overlay, trim := e.factory + e.overlay, rejectRun := e.rejectRun, stuck := e.stuck }) s) s

/-- A full calibration of one side starts (R158). -/
def startFullCal (u : Nat) (tx : Bool) (s : State) : State :=
  let s := dropInservice u tx s
  let s := modCal u (fun c => if tx then { c with fullTx := true, fullB := false, fullSupTx := false }
    else { c with fullRx := true, fullB := false, fullSupRx := false }) s
  if u = 4 then s else modCu u (fun c => if tx then { c with txCalibrated := false } else { c with rxCalibrated := false }) s

/-- Every bias output of a unit stands at its target (R144). -/
def State.biasQuiet (s : State) (u : Nat) : Bool := (s.calOf u).bias.all (fun b => b.2.code == b.2.target)

/-- The bias outputs of a unit go to 0 mA: at the last RAMP, or at once where it is 0 (R144). -/
def biasDown (u : Nat) (s : State) : State :=
  modCal u (fun c => { c with picReleased := false, bias := c.bias.map (fun b =>
    (b.1, { b.2 with target := 0, code := if b.2.ramp = 0 then 0 else b.2.code })) }) s

/-- The codes that CAL.SET_BIAS named in P4 act once the transmit domain has left it (R144). -/
def biasUp (u : Nat) (s : State) : State :=
  modCal u (fun c => { c with bias := c.bias.map (fun b => (b.1, match b.2.due with
    | some (code, ramp) => { b.2 with target := code, ramp, code := if ramp = 0 then code else b.2.code, due := none }
    | none => b.2)) }) s

/-- A domain enters P4 (R144, R148). A transmit domain whose bias outputs still ramp down completes its entry, and loses its
calibration, only after them; until then a demand abandons the entry (R61, log entry 66). -/
def enterP4 (cls idx : Nat) (s : State) : State :=
  let off := fun s => modDom cls idx (fun d => { d with state := 4, exiting := false, wake := false }) s
  if cls = 1 then
    let s := modCal idx (fun c => { c with fullTx := false }) (if (s.dom 1 idx).state = 4 then s else biasDown idx s)
    if s.biasQuiet idx then off (dropInservice idx true (modCu idx (fun c => { c with txCalibrated := false }) s))
    else modDom 1 idx (fun d => { d with exiting := false, wake := false }) s
  else if cls = 2 then
    off (dropInservice idx false (modCal idx (fun c => { c with fullRx := false }) (modCu idx (fun c => { c with rxCalibrated := false }) s)))
  else if cls = 8 then off (dropInservice 4 true (modCal 4 (fun c => { c with fullTx := false }) s))
  else off s

/-! Stepping (R156). -/

/-- The elements of one side whose trim is not at its target, in ascending order. -/
def State.pendingTrims (s : State) (u : Nat) (tx : Bool) : List (Nat × Nat) :=
  (sideElements u tx).filter (fun x => (s.elem u x.1 x.2).trim != (s.elem u x.1 x.2).target)

/-- One element moves by at most its largest step. -/
def stepElement (u p i : Nat) (s : State) : State :=
  let e := s.elem u p i
  let d := e.target - e.trim
  let m : Int := (paramOf p).step
  let move := max (-m) (min m d)
  modCal u (fun c => { c with lastTod := s.timing.tod })
    (modElem u p i (fun e => { e with
      trim := e.trim + move, moving := decide (move ≠ d), corr := if move = d then 0 else e.corr
      rejectRun := if move = d ∧ e.corr ≠ 0 then 0 else e.rejectRun, stuck := e.stuck && !(move == d && e.corr != 0) }) s)

/-- The element a converter moves at this boundary: one mid-step, else the first; no new step where `fresh` is false. -/
def nextTrim (s : State) (u : Nat) (fresh : Bool) (l : List (Nat × Nat)) : Option (Nat × Nat) :=
  (l.find? (fun x => (s.elem u x.1 x.2).moving)).orElse (fun _ => if fresh then l.head? else none)

/-- One boundary: each converter and each orthogonaliser of the side that `may` move moves at most one element. -/
def stepTrims (u : Nat) (tx fresh : Bool) (may : Nat × Nat → Bool) (s : State) : State :=
  let pend := s.pendingTrims u tx
  let convs := ((pend.map (fun x => converterOf x.1 x.2)).eraseDups).filter may
  forEach convs (fun k t =>
    match nextTrim s u fresh (pend.filter (fun x => converterOf x.1 x.2 == k)) with
    | some x => stepElement u x.1 x.2 t
    | none => t) s

/-- The deferred overlays of a unit whose elements have all been stepped in are replied to (R164). -/
def replyOverlays (u : Nat) (s : State) : State :=
  let due := s.control.journal.filter (fun e => e.state == .applying && (match e.undo with
    | .overlay cu p first old => cu == u && (List.range old.length).all (fun i =>
        (s.elem u p (first + i)).trim == (s.elem u p (first + i)).target)
    | _ => false))
  forEach due (fun e s => completeEntry e.id .ok [] s) s

/-- A round whose corrections have all been stepped in ends; one that CAL.RUN started says so (R156, R165). -/
def endRound (u : Nat) (s : State) : State :=
  let c := s.calOf u
  if !(c.round && c.window == 2) || (unitElements u).any (fun x => (s.elem u x.1 x.2).corr != 0) then s
  else
    let s := modCal u (fun c => { c with round := false, window := 0, skipped := [], byCommand := false }) s
    if c.byCommand then
      raise 0x0B01 u (be 1 2 ++ zeros 1 ++ be 2 (c.rejectedInRound + c.badOverlays)) false (modCal u (fun c => { c with badOverlays := 0 }) s)
    else s

/-- A boundary of one side with all that follows it; `fresh` allows new steps. -/
def calBoundary (u : Nat) (tx fresh : Bool) (s : State) : State :=
  let s := modCal u (fun c =>
    if tx then { c with dacSwing := c.pendingSwing.getD c.dacSwing, pendingSwing := none }
    else { c with adcFs := c.pendingFs.getD c.adcFs, pendingFs := none }) s
  endRound u (replyOverlays u (stepTrims u tx fresh (fun _ => true) s))

/-- The trims of a side that no boundary reaches, being off or about to be calibrated, take their targets (log entry 22). -/
def settleTrims (u : Nat) (tx : Bool) (s : State) : State :=
  endRound u (replyOverlays u (forEach (s.pendingTrims u tx) (fun x s =>
    modElem u x.1 x.2 (fun e => { e with
      trim := e.target, moving := false, corr := 0
      rejectRun := if e.corr ≠ 0 then 0 else e.rejectRun, stuck := e.stuck && e.corr == 0 }) s) s))

end Sys2Proof.Machine
end

