-- ==== Sys2Proof/Machine/PowerOps.lean ====
section
/-! DEFINITION. Power domains and PLLs (R51 to R66), as every chapter uses them. -/

namespace Sys2Proof.Machine

/-- R54: whether configuration enables a domain. -/
def State.enabled (s : State) (cls idx : Nat) : Bool :=
  match cls with
  | 1 => (s.cu idx).txEn
  | 2 => (s.cu idx).rxEn
  | 3 => s.quadAssigned idx
  | 5 => (s.tenon idx).role != 0
  | 6 => s.stream.enabled
  | _ => s.control.everRun

/-- R59: the deepest state a tolerance permits. -/
def deepestFor (tol : Nat) : Nat :=
  if tol = 0 then 0 else if tol ≤ 24 then 1 else if tol ≤ 2999 then 2 else if tol ≤ 399999 then 3 else 4

/-- R56: the deepest state a domain's own limit allows. -/
def State.limit (s : State) (cls idx : Nat) : Nat :=
  match cls with
  | 4 => if s.stackHolds idx then 3 else 4
  | 5 => if (s.tenon idx).role = 7 then 1 else 2
  | 9 => if s.sliceConfigured idx then 3 else 4
  | _ => 4

/-- The effective deepest state: 4 while held in P4, 2 for a quad forced there, else the shallower of R59 and R56. -/
def State.deepest (s : State) (cls idx : Nat) : Nat :=
  if !s.enabled cls idx then 4
  else if cls = 3 ∧ s.quadForced idx then 2
  else min (deepestFor (s.dom cls idx).tol) (s.limit cls idx)

/-- The PLL that feeds a domain (R51). -/
def pllOf (cls idx : Nat) : Nat :=
  match cls with
  | 1 => 1 + idx | 2 => 1 + idx | 3 => 5 + idx | 4 => 21 + idx | 5 => 25 | 6 => 26 | 8 => 27 | _ => 0

def State.pll (s : State) (k : Nat) : Pll := tblGet .off s.power.plls k

/-- R51: a PLL other than the hub's runs while a domain it feeds is in P0 or P1, or exits. -/
def settlePlls (s : State) : State :=
  forEach (List.range 27) (fun j s =>
    let k := j + 1
    let needed := allDomains.any (fun d => pllOf d.1 d.2 == k &&
      (decide ((s.dom d.1 d.2).state ≤ 1) || (s.dom d.1 d.2).exiting))
    let p := s.pll k
    let p' := if !needed then Pll.off else if p = .off then .starting else p
    modPower (fun w => { w with plls := tblSet .off w.plls k p' }) s) s

/-- The lanes of a quad leave electrical idle: they send a training burst of 4 096 PRBS13Q symbols, and PCS alignment starts again
(R67). -/
def trainQuad (q : Nat) (s : State) : State :=
  { s with client := { s.client with
      bursts := tblSet 0 s.client.bursts q 4096
      clients := s.client.clients.map (fun e => (e.1, if e.2.inQuad q then { e.2 with realign := true } else e.2)) } }

/-- A domain's lanes train once its PLL is locked: at once from P1, else when it locks (R67). -/
def trainLanes (cls idx : Nat) (s : State) : State := if cls = 3 ∧ s.pll (pllOf 3 idx) = .locked then trainQuad idx s else s

/-- A domain starts its exit to P0 (R61, R62); from P4, a converter domain starts a full calibration (R158), and so does a transmit
domain in P0 that is enabled without one. A quad forced to P2 stays there (R56). -/
def startExit (cls idx : Nat) (s : State) : State :=
  if cls = 3 ∧ s.quadForced idx then s
  else if (s.dom cls idx).state = 0 then
    (if cls = 1 ∧ (s.cu idx).txEn ∧ !(s.cu idx).txCalibrated ∧ !(s.calOf idx).fullTx then startFullCal idx true s else s)
  else if (s.dom cls idx).exiting then s
  else
    let s := if (s.dom cls idx).state = 4 ∧ (cls = 1 ∨ cls = 2 ∨ cls = 8) then startFullCal (calUnit cls idx) (calSide cls) s else s
    trainLanes cls idx (settlePlls (modDom cls idx (fun d => { d with exiting := true }) s))

/-- A demand on a domain that is enabled (R61). -/
def demand (cls idx : Nat) (s : State) : State := if s.enabled cls idx then startExit cls idx s else s

/-- A domain that configuration no longer enables is held in P4. -/
def holdOff (cls idx : Nat) (s : State) : State := settlePlls (enterP4 cls idx s)

/-- A domain that configuration has just enabled, or just disabled, follows (R54); a quad that the mirror forces enters P2 at once
(R56). -/
def followEnable (cls idx : Nat) (s : State) : State :=
  if !s.enabled cls idx then holdOff cls idx s
  else if cls = 3 ∧ s.quadForced idx then settlePlls (modDom 3 idx (fun d => { d with state := 2, exiting := false }) s)
  else startExit cls idx s

/-- Every quad follows its clients (R54). -/
def followQuads (s : State) : State := forEach (List.range 16) (followEnable 3) s

/-- A new tolerance: shallower than the present state starts the exit (R62). -/
def setTolerance (cls idx tol : Nat) (s : State) : State :=
  let s := modDom cls idx (fun d => { d with tol := tol }) s
  if s.enabled cls idx && decide (s.deepest cls idx < (s.dom cls idx).state) then startExit cls idx s else s

/-- A domain reaches P0 (R63). -/
def reachP0 (cls idx : Nat) (s : State) : State :=
  let woke := (s.dom cls idx).wake
  let s := settlePlls (modDom cls idx (fun d => { d with state := 0, exiting := false, wake := false }) s)
  if woke then raise 0x0201 0 (be 1 cls ++ be 1 idx ++ zeros 2) false s else s

/-- A command wakes a domain from P1 or P2 and goes on once it is in P0, its PLL locked: the wake counts toward the command's own
bound (R63). -/
def wakeNow (cls idx : Nat) (s : State) : State :=
  let s := reachP0 cls idx s
  modPower (fun p => { p with plls := tblSet .off p.plls (pllOf cls idx) .locked }) s

/-- R63: what a command that needs a domain finds. In P1 or P2 the wake counts toward the command and it goes on, also where an exit
already runs; in P3 or P4 the exit starts and the command must answer ST_BUSY; a domain held in P4 for want of enabling never causes
ST_BUSY. -/
def needDomain (cls idx : Nat) (s : State) : Bool × State :=
  let d := s.dom cls idx
  if !s.enabled cls idx then (true, s)
  else if d.state = 0 then (true, s)
  else if d.state ≤ 2 then (true, wakeNow cls idx s)
  else (false, modDom cls idx (fun d => { d with wake := true }) (startExit cls idx s))

/-- A command that needs a domain goes on, or is answered ST_BUSY (R63). -/
def needing (cls idx : Nat) (s : State) (k : State → Reply) : Reply :=
  let (ok, s) := needDomain cls idx s
  if ok then k s else .refuse .busy s

/-- A command that needs several domains of a class: each that sleeps is woken (R63). -/
def needingAll (cls : Nat) : List Nat → State → (State → Reply) → Reply
  | [], s, k => k s
  | i :: r, s, k => needing cls i s (fun s => needingAll cls r s k)

/-- A CAL command wakes a domain within its own bound (R63, R162): in P1 or P2 at once, else its exit starts. -/
def rouse (cls idx : Nat) (s : State) : State :=
  let d := s.dom cls idx
  if !s.enabled cls idx ∨ d.state = 0 then s
  else if d.state ≤ 2 then wakeNow cls idx s
  else startExit cls idx s

/-- A rise of VDD_CORE is under way: the configuration change that needs it waits (R72, log entry 67). -/
def State.coreRising (s : State) : Bool := s.power.adapting && decide (s.power.coreMv < s.power.targetMv)

end Sys2Proof.Machine
end

