-- ==== Sys2Proof/Machine/TwinOps.lean ====
section
/-! DEFINITION. Twin groups as the framers and the merge engine share them (R349 to R361): copy states, the playout schedule and what
its loss does. Times are in units of 10 ps. -/

namespace Sys2Proof.Machine

def modProtect (f : Protect → Protect) (s : State) : State := { s with protect := f s.protect }
def modTwin (g : Nat) (f : Twin → Twin) (s : State) : State := modProtect (fun p => { p with twins := tblMod {} p.twins g f }) s
def modMirror (f : Mirror → Mirror) (s : State) : State := modProtect (fun p => { p with mirror := f p.mirror }) s

/-- An OTUCn frame period, 1.223 68 µs. -/
def framePeriod : Nat := 122368

/-- The model's clock in the units of this chapter. -/
def State.now (s : State) : Nat := s.localNs * 100

/-- A sequence less another, as a signed number (R351). -/
def seqDiff (a b : Word32) : Int := signed 32 (a - b).toNat

/-- A copy of a group: 0 A, 1 B. -/
def Twin.copy (t : Twin) (k : Nat) : Copy := if k = 0 then t.a else t.b
def Twin.setCopy (t : Twin) (k : Nat) (c : Copy) : Twin := if k = 0 then { t with a := c } else { t with b := c }
def Twin.modCopy (t : Twin) (k : Nat) (f : Copy → Copy) : Twin := t.setCopy k (f (t.copy k))

/-- The copy received on a unit. -/
def Twin.copyOf (t : Twin) (u : Nat) : Nat := if t.home = u then 0 else 1

/-- TW_STATE of R368: 0 disabled, 1 DOWN, 2 SINGLE, 3 DUAL. -/
def Twin.groupState (t : Twin) : Nat :=
  if !t.enabled then 0 else 1 + b2n (t.a.state == 3) + b2n (t.b.state == 3)

/-- Δ of R355: the arrival of copy B less that of copy A, of one sequence. -/
def Twin.delta (t : Twin) : Option Int :=
  match t.a.last, t.b.last with
  | some (sa, ta), some (sb, tb) => some (((tb : Int) - ta) - seqDiff sb sa * framePeriod)
  | _, _ => none

/-- |Δ| + (GUARD_FRAMES + 2) frame periods fits the depth (R355). -/
def Twin.inReach (t : Twin) : Bool :=
  match t.delta with
  | some d => decide (d.natAbs + (t.guard_ + 2) * framePeriod ≤ t.depthUs * 100000)
  | none => true

/-- The time at which the schedule plays a sequence. -/
def Twin.dueAt (t : Twin) (q : Word32) : Option Int := t.next.map (fun n => (n.2 : Int) + seqDiff q n.1 * framePeriod)

/-- The margin of a copy (R354). -/
def Twin.margin (t : Twin) (k : Nat) : Option Int :=
  match (t.copy k).last with
  | some (q, at_) => (t.dueAt q).map (fun d => d - at_)
  | none => none

def Twin.guardTime (t : Twin) : Nat := t.guard_ * framePeriod

/-- The group's state has changed: its event, with the cause for the copy that left ALIGNED. A change to SINGLE that no copy's leaving
made has no cause stated, and carries a free value (log entry 23). -/
def twinEvent (g old : Nat) (cause : Option Nat) (s : State) : State :=
  let t := s.twin g
  let new := t.groupState
  if new = old then s
  else if new = 3 then raise 0x0F02 0 (be 1 g ++ zeros 3) false s
  else if new = 2 then
    let (c, s) := match cause with | some c => (c, s) | none => drawBelow 256 s
    raise 0x0F01 0 (be 1 g ++ be 1 c ++ be 1 (if t.a.state = 3 then 0 else 1) ++ zeros 1) false s
  else if old ≤ 1 then s
  else raise 0x0F03 0 (be 1 g ++ be 1 (cause.getD 4) ++ zeros 2) true s

/-- The schedule moves to a copy's arrival plus the guard; the empty slots count (R359). -/
def rebaseTo (g k : Nat) (s : State) : State :=
  let t := s.twin g
  match (t.copy k).last, t.next with
  | some (q, at_), some (n, due) =>
    let new := ((at_ : Int) + t.guardTime - seqDiff q n * framePeriod).toNat
    bump pmTwin g 5 ((new - due) / framePeriod) (modTwin g (fun t => { t with next := some (n, max new due), stopped := false }) s)
  | _, _ => s

/-- Playout begins, or resumes after a stop, at a copy's next frame; the frames whose slots have passed are lost (R353, R360). -/
def startAt (g k : Nat) (s : State) : State :=
  let t := s.twin g
  match (t.copy k).last with
  | some (q, at_) =>
    let (n, due) := match t.next with
      | none => (q, at_ + t.guardTime)
      | some _ => (q + 1, at_ + t.guardTime + framePeriod)
    let lost := match t.next with | some (o, _) => (seqDiff n o).toNat | none => 0
    bump pmTwin g 5 lost (modTwin g (fun t => { t with next := some (n, due), stopped := false })
      (dropTag t.home s))
  | none => s

/-- A copy leaves for ABSENT (R356, R358); in SINGLE the loss of the aligned copy rebases to a pending one, or stops playout (R360). -/
def copyLost (g k cause : Nat) (s : State) : State :=
  let t := s.twin g
  if (t.copy k).state = 0 then s else
    let old := t.groupState
    let was := (t.copy k).state == 3
    let s := modTwin g (fun t => t.modCopy k (fun c => { c with state := 0, verified := 0, disagree := 0, late := 0, last := none })) s
    if !was ∨ (s.twin g).groupState ≠ 1 then twinEvent g old (some cause) s
    else if ((s.twin g).copy (1 - k)).state = 2 then
      twinEvent g old (some cause) (rebaseTo g (1 - k) (modTwin g (fun t => t.modCopy (1 - k) (fun c => { c with state := 3 })) s))
    else twinEvent g old (some cause) (modTwin g (fun t => { t with stopped := true }) s)

/-- A unit's framer has SSF, LOF or LOM (R356). -/
def framerLost (u : Nat) (s : State) : State :=
  match s.twinOf u with
  | some g => copyLost g ((s.twin g).copyOf u) 1 s
  | none => s

/-- A unit's framer is in frame with no SSF (R356). -/
def framerGained (u : Nat) (s : State) : State :=
  match s.twinOf u with
  | some g =>
    let k := (s.twin g).copyOf u
    if ((s.twin g).copy k).state = 0 then modTwin g (fun t => t.modCopy k (fun c => { c with state := 1, verified := 0, last := none })) s else s
  | none => s

/-- A copy has verified: ALIGNED on or ahead of the schedule, else PENDING or rebased (R356, R359, R360). -/
def copyVerified (g k : Nat) (s : State) : State :=
  let t := s.twin g
  let old := t.groupState
  let join := fun s => modTwin g (fun t => t.modCopy k (fun c => { c with state := 3, late := 0, disagree := 0 })) s
  if !t.inReach then s
  else if t.next.isNone || t.stopped then twinEvent g old none (startAt g k (join s))
  else match t.margin k with
    | none => s
    | some m =>
      if (t.guardTime : Int) ≤ m then twinEvent g old none (join s)
      else if t.rebase = 1 then twinEvent g old none (rebaseTo g k (join s))
      else modTwin g (fun t => t.modCopy k (fun c => { c with state := 2 })) s

end Sys2Proof.Machine
end

