-- ==== Sys2Proof/Machine/MirrorOps.lean ====
section
/-! DEFINITION. The mirror pair's interlock as other chapters act on it (R362 to R364). -/

namespace Sys2Proof.Machine

/-- The quads that carry a mirrored client. -/
def State.mirroredQuads (s : State) : List Nat :=
  (List.range 16).filter (fun q => s.client.clients.any (fun e => s.protect.mirror.clientMask.testBit e.1 && e.2.inQuad q))

/-- The mirrored quads follow the state: held in P2 in STANDBY and HELD_OFF, at once; out of P2 otherwise (R56). -/
def mirrorQuads (s : State) : State :=
  let forced := s.protect.mirror.state = 1 ∨ s.protect.mirror.state = 4
  settlePlls (forEach s.mirroredQuads (fun q s =>
    if forced then modDom 3 q (fun d => { d with state := 2, exiting := false }) s else startExit 3 q s) s)

/-- A change of state, with its event and counts; MIR_ACT_OUT follows (R362, R366, R371). -/
def mirrorGo (new cause : Nat) (s : State) : State :=
  let old := s.protect.mirror.state
  if new = old then s else
    let s := modMirror (fun m => { m with
      state := new, tieSample := false, releasing := none, wantClaim := false
      switchovers := if new = 3 then m.switchovers + 1 else m.switchovers, holdoff := m.holdoff || old == 3 }) s
    let s := modPins (fun p => { p with mirActOut := new == 2 || new == 3 }) s
    let s := bump pmMirror 0 0 (b2n (new == 3)) (bump pmMirror 0 1 (b2n (old == 3)) s)
    mirrorQuads (raise 0x0F04 0 (be 1 new ++ be 1 old ++ be 1 cause ++ zeros 1) true s)

/-- An active device begins to release: its mirrored lanes go idle and its mutes apply; MIR_ACT_OUT falls 100 ns later (R364). -/
def startRelease (cause : Nat) (s : State) : State :=
  let m := s.protect.mirror
  if m.state = 3 ∧ m.releasing.isNone then modMirror (fun m => { m with releasing := some cause }) s else s

/-- A release for which a bit of RELEASE_MASK stands (R364). -/
def mirrorRelease (bit : Nat) (s : State) : State :=
  if s.protect.mirror.releaseMask.testBit bit then startRelease (bit + 1) s else s

/-- EXTEST drives the release's levels at once (R45, R364); the cause its event carries is not stated, and free (log entry 31). -/
def extestRelease (s : State) : State :=
  if s.protect.mirror.state = 2 ∨ s.protect.mirror.state = 3 then
    let (c, s) := drawBelow 256 s
    mirrorGo 1 c s
  else s

/-- The digest of the mirrored configuration (R365): over CLIENT_MASK and the settings of the mirrored clients, in the model's order
(log entry 32). -/
def State.mirrorDigest (s : State) : List Byte :=
  let m := s.protect.mirror.clientMask
  Config.sha512 (be 8 m ++ (s.client.clients.filter (fun e => m.testBit e.1)).flatMap (fun e =>
    be 1 e.1 ++ be 1 e.2.kind ++ be 1 e.2.firstLane ++ be 1 e.2.laneRate ++ be 1 e.2.mode ++ be 1 e.2.zrCu ++ be 2 e.2.maxFrame ++
      be 4 e.2.defQueue ++ be 1 e.2.failLf))

/-- PINS of R368. -/
def State.mirrorPins (s : State) : Nat := b2n s.mirOutPin + 2 * b2n s.mirIn + 4 * b2n s.sill.straps.tie

/-- EV_MIRROR_CONFLICT (R365). -/
def mirrorConflict (cause : Nat) (s : State) : State :=
  raise 0x0F05 0 (be 1 cause ++ be 1 s.mirrorPins ++ be 1 (s.protect.mirror.peerState.getD 0xFF) ++ zeros 1) true s

/-- Whether a cause of R365 holds: 1 STANDBY peer with MIR_ACT_IN asserted, 2 ACTIVE peer with it deasserted, 3 digests differ. -/
def State.conflictHolds (s : State) (cause : Nat) : Bool :=
  let m := s.protect.mirror
  m.state != 0 && m.brace && (match cause with
    | 1 => m.peerState == some 1 && s.mirIn
    | 2 => m.peerState == some 3 && !s.mirIn
    | _ => m.peerDigest != s.mirrorDigest)

/-- The causes 1 to 3 are judged: each is reported as it begins. -/
def judgeConflicts (s : State) : State :=
  forEach [1, 2, 3] (fun c s =>
    let on := s.conflictHolds c
    let was := s.protect.mirror.conflicts.testBit c
    let s := modMirror (fun m => { m with conflicts := if on == was then m.conflicts else m.conflicts ^^^ 2 ^ c }) s
    if on && !was then mirrorConflict c s else s) s

end Sys2Proof.Machine
end

