-- ==== Sys2Proof/Machine/ResetOps.lean ====
section
/-! DEFINITION. What the resets of R80 do to the state, and the restart of the management processor (R82), which commands,
registers, pins and supplies all share. -/

namespace Sys2Proof.Machine

/-! Images (R89 to R91). -/

/-- The flash address of bank 0 or 1. -/
def bankBase (b : Nat) : Nat := if b = 0 then 0x01000000 else 0x02000000

/-- A valid copy of a record of 32 bytes with its MAGIC: SEQ at offset 4 and CRC-32C over bytes 0 to 27 (R89). -/
def recordValid (magic : Nat) (b : List Byte) : Bool := u32 b 0 == magic && u32 b 28 == (crc32c (b.take 28)).toNat

/-- Of two copies, the valid one with the higher SEQ: 0, 1 or none (R89). -/
def copyInForce (s : State) (base magic : Nat) : Option Nat :=
  let c0 := flashBytes s base 32
  let c1 := flashBytes s (base + 0x10000) 32
  if recordValid magic c0 && recordValid magic c1 then some (if u32 c0 4 < u32 c1 4 then 1 else 0)
  else if recordValid magic c0 then some 0 else if recordValid magic c1 then some 1 else none

/-- The directory in force: copy and its bytes. -/
def State.directory (s : State) : Option (Nat × List Byte) :=
  (copyInForce s 0 0xA6D17E01).map (fun c => (c, flashBytes s (c * 0x10000) 32))

/-- The committed bank; A when no directory is valid (R89). -/
def State.committed (s : State) : Nat :=
  match s.directory with
  | some (_, d) => if u8 d 8 = 1 then 1 else 0
  | none => 0

/-- The header's fields as the running image carries them. -/
def headerImage (h : List Byte) : Image :=
  { fwVersion := u32 h 8, secVersion := u16 h 6, keyIndex := u8 h 14, revoke := u8 h 15, digest := bytesAt h 20 64,
    pubkey := bytesAt h 84 133 }

/-- Checks 0x02 to 0x08 of R91 on a header; the first that fails. -/
def checkHeader (s : State) (h : List Byte) : Option Nat :=
  if u32 h 0 = 0xFFFFFFFF then some 0x02
  else if u32 h 0 ≠ 0xA6F14D00 ∨ u16 h 4 ≠ 1 ∨ 3 < u8 h 14 ∨ (u8 h 15).testBit (u8 h 14) ∨ 16 ≤ u8 h 15 then some 0x03
  else if u32 h 16 % 4 ≠ 0 ∨ u32 h 16 < 4 ∨ 16773120 < u32 h 16 then some 0x04
  else if Config.sha512 (bytesAt h 84 133) ≠ s.otp.fwKeyDigests.getD (u8 h 14) [] then some 0x05
  else if s.otp.fwRevoked.testBit (u8 h 14) then some 0x06
  else if !Config.ecdsaVerify (bytesAt h 84 133) (h.take 220) (bytesAt h 220 66) (bytesAt h 286 66) then some 0x07
  else if u16 h 6 < s.otp.floor then some 0x08
  else none

/-- Check 0x09 on a body. -/
def checkBody (h body : List Byte) : Option Nat := if Config.sha512 body ≠ bytesAt h 20 64 then some 0x09 else none

/-- Whether a failure counts as a firmware authentication failure (R91). -/
def authCode (c : Nat) : Bool := c == 5 || c == 6 || c == 7 || c == 9

/-- All checks of R91 on the image of a bank. -/
def checkBank (s : State) (b : Nat) : Option Nat :=
  let h := flashBytes s (bankBase b) 352
  (checkHeader s h).orElse (fun _ => checkBody h (flashBytes s (bankBase b + 0x1000) (u32 h 16)))

/-- Record a failed check of a bank (R91). -/
def bankFailed (b code : Nat) (s : State) : State :=
  let s := modSill (fun x => { x with failCode := code, bankABad := x.bankABad || b == 0, bankBBad := x.bankBBad || b == 1 }) s
  if authCode code then authFailure 7 s else s

/-- Every image reported: the committed bank runs, from its flash header (R100). -/
def runCommitted (s : State) : State :=
  let b := s.committed
  let i := headerImage (flashBytes s (bankBase b) 352)
  modSill (fun x => { x with bank := b }) (modFw (fun f => { f with running := i, runningBank := b, fromMemory := false }) s)

/-! Resets (R80, R81). -/

/-- Journal entries are in use (R84). -/
def State.owed (s : State) : Bool := !s.control.journal.isEmpty

/-- What a reset of hub scope or wider keeps of timing (R408, R410, R411): the ToD, W, the pins' selection; the running slew and
the pending step are cancelled and reported at RUN. -/
def timingAfterReset (t : Timing) : Timing :=
  { tod := t.tod, fine := t.fine, seconds := t.seconds, w := t.w, refSel := t.refSel,
    state := if t.refSel = 0 then 0 else 4,
    cancelled := t.cancelled ++ (match t.slew with | some x => [(3, x.total - x.remain)] | none => []) ++
      (match t.atPps with | some _ => [(2, 0)] | none => []) }

/-- What a reset of hub scope or wider leaves of firmware: a trial or a pending activation ends, and is reported at RUN (R98, R100). -/
def fwAfterReset (f : Fw) : Fw :=
  { rolledBack := f.rolledBack ++ (if f.trial || f.activating then [4] else []) ++ (if f.pendingEpoch.isSome then [5] else []) }

/-- What it leaves of security: the sill's store of KEKs, the policy and what is still to be reported; keys, channels and the
bench queue go, the failure counts restart (R375, R391, R394). -/
def securityAfterReset (c : Security) : Security :=
  { keks := c.keks, entropyOk := c.entropyOk, actions := c.actions, thrFw := c.thrFw, thrSession := c.thrSession,
    thrBlob := c.thrBlob, hot := c.hot, deferred := c.deferred, deferredErase := c.deferredErase }

/-- The elements' factory values outlast every reset; the rest is of the powered domain (R147, R150). -/
def elementsAfterReset (t : Tbl Element) : Tbl Element :=
  (t.map (fun e => (e.1, ({ factory := e.2.factory, trim := e.2.factory } : Element)))).filter (fun e => decide (e.2 ≠ {}))

/-- A reset of hub scope: hub and carrier dies return to their reset values; sill registers, ToD, alarm state, OTP, flash and
the pins stay (R80). -/
def hubReset (cause : Nat) (s : State) : State :=
  { State.reset with
    pins := { s.pins with mirActOut := false, trafficStopped := s.pins.extest, flashDriven := false }
    sill := { s.sill with stage := .held, resetCause := cause, unreplied := s.sill.unreplied || s.owed, foundNone := !s.owed,
                          debugLevel := 0, bootAlarm := false }
    otp := s.otp, flash := s.flash, fw := fwAfterReset s.fw
    elements := elementsAfterReset s.elements
    security := securityAfterReset s.security
    timing := timingAfterReset s.timing
    localNs := s.localNs, fresh := s.fresh, pending := s.pending }

/-- A sill reset or a sill power-on: as a reset of hub scope, and the sill registers, the ToD, KEKs and policy too (R80, R393). -/
def sillResetState (cause : Nat) (supplies : Bool) (s : State) : State :=
  let h := hubReset cause s
  { h with
    sill := { resetCause := cause, suppliesValid := supplies, foundNone := !s.owed,
              unreplied := if cause = 1 then false else s.owed, on := s.sill.on }
    security := { entropyOk := s.security.entropyOk, hot := s.security.hot }
    timing := { refSel := s.timing.refSel, state := if s.timing.refSel = 0 then 0 else 4, cancelled := h.timing.cancelled } }

/-- The sill releases the hub: the straps are sampled; SESSION_ERASED clears, and UNREPLIED when the reset found no entry in use
(R42, R83, R84, R87). -/
def releaseHub (s : State) : State :=
  modSill (fun x => { x with hold := .sampling 0, strapFaultBit := false, sessionErased := false,
                             unreplied := x.unreplied && !x.foundNone }) s

/-- The hub may be released: RESET_N is sensed high and the supplies are valid (R39, R87). -/
def State.mayRelease (s : State) : Bool := s.pins.resetN && s.pins.vddIo && s.sill.suppliesValid

/-- The hub is out of reset, or on its way: a reset that arrives now takes effect; otherwise it is absorbed (R81). -/
def State.takesReset (s : State) : Bool :=
  match s.sill.hold with
  | .released => true
  | .sampling _ => true
  | _ => false

/-- A reset of hub scope that arrives: it takes effect, or is absorbed and only ends a strap fault (R81). -/
def requestHubReset (cause : Nat) (s : State) : State :=
  if s.takesReset then
    let s := hubReset cause s
    if s.mayRelease then releaseHub s else modSill (fun x => { x with hold := .waiting }) s
  else if s.sill.hold = .strapFault then
    if s.mayRelease then modSill (fun x => { x with strapFaultBit := false, hold := .sampling 0 }) s
    else modSill (fun x => { x with strapFaultBit := false, hold := .waiting }) s
  else s

/-! The management processor (R82, R98, R100). -/

/-- Salurn halts; an active mirror device may release (R82, R364). -/
def mpHalt (s : State) : State :=
  mirrorRelease 0 (modSill (fun x => { x with stage := .mpHalted }) (modControl (fun c => { c with ready := false, mp := .halted }) s))

/-- Staging ends, and a pending activation is cancelled, at any management-processor restart (R97, R98). -/
def endStaging (f : Fw) : Fw :=
  { f with staging := none, pendingEpoch := none,
           rolledBack := f.rolledBack ++ (if f.pendingEpoch.isSome then [5] else []) }

/-- Boot starts at STAGE ROM: the committed bank is tried first; FAIL_CODE 0x01 when BOOT_SRC is 0 and no directory copy is valid
(R89, R93; log entry 64). FALLBACK is set where a reset has ended a trial (R100). An image in hub memory is discarded. -/
def enterRom (s : State) : State :=
  let s := if s.directory.isNone && !s.sill.straps.bootSrc then modSill (fun x => { x with failCode := 1 }) s else s
  modSill (fun x => { x with stage := .rom, bootAlarm := false, bankABad := false, bankBBad := false,
                             fallback := s.fw.rolledBack.contains 4, bank := s.committed })
    (modFw (fun f => { f with tryBank := s.committed, triedOther := false, fromMemory := false, staging := none }) s)

/-- A trial ends with its cause; the committed bank runs again with FALLBACK, and the bank of the trial stays staged (R100). -/
def rollBack (cause : Nat) (s : State) : State :=
  let b := s.fw.staged.getD (1 - s.committed)
  runCommitted (modSill (fun x => { x with fallback := true })
    (modFw (fun f => { f with trial := false, activating := false, rollbackDue := false, staged := some b, rolledBack := f.rolledBack ++ [cause] }) s))

/-- A restart counts toward the three in 60 s (R82); the Bool says the limit is reached. -/
def countRestart (s : State) : Bool × State :=
  let r := s.localNs :: s.control.restarts.filter (fun t => decide (s.localNs < t + 60 * billion))
  (decide (3 ≤ r.length), bump pmDevice 0 11 1
    (modSill (Sill.mark .mpRestart) (modControl (fun c => { c with restarts := r }) s)))

/-- The restart itself once it is known to act in RUN: Salurn stops taking packets. -/
def stopSalurn (cause : Nat) (s : State) : State :=
  modControl (fun c => { c with ready := false, mp := .restarting cause }) s

/-- A management-processor restart by cause 1 watchdog, 2 lockstep, 3 command, 4 register, 5 activation, 6 rollback, at each
stage (R82); before the first RUN, boot restarts at STAGE ROM without sampling the straps. -/
def mpRestart (cause : Nat) (s : State) : State :=
  if !s.hubUp ∨ s.sill.stage = .mpHalted then s
  else
    let (halt, s) := countRestart s
    let s := modFw endStaging s
    if s.sill.stage = .run then
      let s := if (s.fw.trial || s.fw.activating) && (cause == 1 || cause == 2) then rollBack 3 s else s
      if halt then mpHalt s else stopSalurn cause s
    else if halt then mpHalt s
    else enterRom s

end Sys2Proof.Machine
end

