-- ==== Sys2Proof/Machine/TimingOps.lean ====
section
/-! DEFINITION. Chapter 15 of spec/ as other chapters use it: the timing state that follows its sources, and the ToD. -/

namespace Sys2Proof.Machine

/-- The source REF_SEL selects (R404). -/
def selectedSource (refSel : Nat) : Option Nat := if 1 ≤ refSel ∧ refSel ≤ 6 then some (refSel - 1) else none

/-- The state of R405 for the pins and sources as they stand; `kept` says LOCKED may go on. -/
def timingState (s : State) (kept : Bool) : Nat :=
  if s.timing.refSel = 0 then 0 else
    match selectedSource s.timing.refSel with
    | none => 4
    | some k =>
      let x := s.source k
      if !x.present then 4 else if !x.qualified then 3 else if kept && s.timing.state == 2 then 2 else 1

/-- The mean of a list of values, rounded down (log entry 17). -/
def meanInt (l : List Int) : Int := if l.isEmpty then 0 else l.foldl (· + ·) 0 / (l.length : Int)

/-- R406: the mean of W over the last 64 whole LOCKED seconds that ended before second `began`, or W. -/
def holdValue (t : Timing) (began : Nat) : Int :=
  let m := (t.means.filter (fun e => decide (e.1 < began))).take 64
  if m.isEmpty then t.w else meanInt (m.map (fun e => e.2))

/-- Enter a timing state (R405, R406, R418). -/
def enterTiming (new cause began : Nat) (s : State) : State :=
  let old := s.timing.state
  if new = old then s else
    let s := modTiming (fun t => { t with
      state := new, wholeLocked := false, holdTaken := decide (new = 3 ∨ (new = 4 ∧ t.holdTaken))
      holdW := if new = 3 ∧ !t.holdTaken then holdValue t began else t.holdW }) s
    raise 0x0A01 0 (be 1 new ++ be 1 old ++ be 1 s.timing.refSel ++ be 1 cause) (decide (3 ≤ new)) s

/-- The timing state follows after a change of pins or sources. -/
def retime (cause began : Nat) (kept : Bool) (s : State) : State := enterTiming (timingState s kept) cause began s

/-- R404: the REF_SEL pins are sensed at a stable value; LOCKED does not carry over to another choice. -/
def senseRefSel (s : State) : State :=
  if s.pins.refSel = s.timing.refSel then s else
    let s := modTiming (fun t => { t with refSel := s.pins.refSel, phaseErr := none }) s
    if s.hubUp then retime 0 s.timing.seconds false s
    else modTiming (fun t => { t with state := if t.refSel = 0 then 0 else 4 }) s

/-- R39: VDD_IO is present, and the sill-bank pins are sensed from now on: an erase request or a tamper that stands there acts (R391). -/
def vddIoPresent (s : State) : State :=
  if s.pins.vddIo then s else
    let s := modPins (fun p => { p with vddIo := true }) s
    if !s.sill.on then s else
      let s := if s.pins.tamperIn then fireAlarm 4 s else s
      senseRefSel (if s.pins.zeroizeN then s else fireAlarm 5 s)

/-- EV_TIMING_REF_QUAL (R418). -/
def qualEvent (k : Nat) (q : Bool) (cause : Nat) (s : State) : State :=
  raise 0x0A02 0 (be 1 k ++ be 1 (b2n q) ++ be 1 cause ++ zeros 1) false s

/-- A source is disqualified for a cause of R403; `began` is the second in which the condition began. -/
def disqualify (k cause began : Nat) (s : State) : State :=
  let was := (s.source k).qualified
  let s := modSource k (fun x => { x with qualified := false, driftMs := 0 }) s
  retime cause began true (if was then qualEvent k false cause s else s)

/-- A source stops being present (R401). -/
def sourceAbsent (k cause : Nat) (s : State) : State :=
  if !(s.source k).present then s else
    disqualify k cause s.timing.seconds (modSource k (fun x => { x with present := false, recent := [], sum := 0, count := 0 }) s)

/-- A source is present again; it has yet to requalify (R403). -/
def sourcePresent (k cause : Nat) (s : State) : State :=
  if (s.source k).present then s else
    retime cause s.timing.seconds true (modSource k (fun x => { x with present := true }) s)

/-- Source 4 follows the receive of LINE_CU: present while it is in TRACKING (R401). -/
def lineClock (u : Nat) (tracking : Bool) (s : State) : State :=
  if s.timing.lineCu ≠ u then s else if tracking then sourcePresent 4 4 s else sourceAbsent 4 4 s

/-- Source 5 follows the LINK of HOST_CLIENT (R401). -/
def hostClock (c : Nat) (up : Bool) (s : State) : State :=
  if s.timing.hostClient ≠ c then s else if up then sourcePresent 5 4 s else sourceAbsent 5 4 s

/-- A pulse schedule keeps its instants while the ToD moves by `d` ns against it (R414). -/
def Pulse.moved (p : Pulse) (d : Int) : Pulse := { p with shift := (p.shift - d).emod (p.period : Int) }

/-- The timing of a boundary: a whole LOCKED second gives its mean of W (R406). -/
def timingBoundary (t : Timing) : Timing :=
  let whole := t.wholeLocked && t.state == 2
  let mean := if t.wCount = 0 then t.w else t.wSum / (t.wCount : Int)
  { t with
    means := if whole then ((t.seconds, mean) :: t.means).take 64 else t.means
    seconds := t.seconds + 1, wSum := 0, wCount := 0, wholeLocked := decide (t.state = 2) }

/-- The first instant of a schedule from local time `b` on, `offset` from there modulo its period, that is at least half a period after the last pulse (R414). -/
def firstPulse (b : Nat) (offset : Int) (period : Nat) (last : Option Nat) : Nat :=
  let first := b + (offset.emod (period : Int)).toNat
  match last with
  | none => first
  | some l =>
    let least := l + (period + 1) / 2
    if least ≤ first then first else first + (least - first + period - 1) / period * period

/-- R414: realignment at a second boundary, on the grid of the ToD then in force. -/
def realignPulses (now : Nat) (t : Timing) : Timing :=
  let o := t.outputs
  let t := if t.realign.testBit 0 then { t with pps := {
      on := o.flags.testBit 0, period := billion, offset := o.ppsOffset, last := t.pps.last,
      next := firstPulse now (o.ppsOffset - t.tod.ns) billion t.pps.last } } else t
  let t := if t.realign.testBit 1 then { t with frame := {
      on := o.flags.testBit 1, period := o.framePeriod, offset := 0, last := t.frame.last,
      next := firstPulse now (-(t.tod.ns : Int)) o.framePeriod t.frame.last } } else t
  { t with realign := 0 }

end Sys2Proof.Machine
end

