-- ==== Sys2Proof/Machine/CarrierOps.lean ====
section
/-! DEFINITION. A carrier unit's receive and transmit as other chapters act on them (R172, R184 to R205): losing TRACKING, starting
acquisition, frame boundaries, the joinery, the unit restart. -/

namespace Sys2Proof.Machine

/-! The joinery. -/

def State.pair (s : State) (p : Nat) : Pair := tblGet {} s.joinery.pairs p
def modPair (p : Nat) (f : Pair → Pair) (s : State) : State := modJoinery (fun j => { j with pairs := tblMod {} j.pairs p f }) s

/-- The units of a die pair, the lower-numbered first (R194). -/
def pairUnits (p : Nat) : Nat × Nat := if p = 3 then (0, 3) else (p, p + 1)

/-- The rank that an order gives a unit. -/
def Order.rankOf (o : Order) (u : Nat) : Nat := o.rank.getD u 0xFF

/-- An order declares two units spectrally adjacent (R205). -/
def Order.adjacent (o : Order) (a b : Nat) : Bool :=
  let x := o.rankOf a
  let y := o.rankOf b
  x != 0xFF && y != 0xFF && (x + 1 == y || y + 1 == x) && o.adj.testBit (min x y)

/-- An order declares a die pair adjacent and sets its bit. -/
def Order.permits (o : Order) (p : Nat) : Bool := o.adjacent (pairUnits p).1 (pairUnits p).2 && o.joinEn.testBit p

/-- A unit holds the rank next below, or next above, that of unit `u`. -/
def Order.hasLower (o : Order) (u : Nat) : Bool := decide (o.rankOf u ≤ 3 ∧ 0 < o.rankOf u) && o.rank.contains (o.rankOf u - 1)
def Order.hasHigher (o : Order) (u : Nat) : Bool := decide (o.rankOf u ≤ 3) && o.rank.contains (o.rankOf u + 1)

/-- The order in action on both units of a die pair permits it. -/
def State.joinable (s : State) (p : Nat) : Bool :=
  (s.cu (pairUnits p).1).order.permits p && (s.cu (pairUnits p).2).order.permits p

/-- The pairs of a unit. -/
def pairsOf (u : Nat) : List Nat := [0, 1, 2, 3].filter (fun p => (pairUnits p).1 == u || (pairUnits p).2 == u)

/-- R193 less the skew. -/
def State.pairEligible (s : State) (p : Nat) : Bool :=
  let a := s.cu (pairUnits p).1
  let b := s.cu (pairUnits p).2
  s.joinable p && s.meetsFloor && a.acq == 7 && b.acq == 7 && a.dspRx.nlcMode == 2 && b.dspRx.nlcMode == 2 &&
    (match a.fmtRx, b.fmtRx with | some f, some g => f.lineMode == 0 && g.lineMode == 0 && f.rsCode == g.rsCode | _, _ => false)

/-- W − 64, by the smaller window of the two units (R194). -/
def State.skewBound (s : State) (p : Nat) : Int :=
  ((2 ^ min (s.cu (pairUnits p).1).dspRx.joinWindow (s.cu (pairUnits p).2).dspRx.joinWindow : Nat) : Int) - 64

/-- S as an event reports it. -/
def skewField (x : Option Int) : List Byte :=
  match x with
  | some v => beInt 4 v
  | none => be 4 0x80000000

/-- A joined pair falls back (R195). -/
def fallbackPair (p cause : Nat) (s : State) : State :=
  let x := s.pair p
  if !x.joined then s else
    let s := modPair p (fun x => { x with joined := false, recent := [] }) s
    let s := bump pmCu (pairUnits p).2 5 1 (bump pmCu (pairUnits p).1 5 1 s)
    raise 0x0303 (pairUnits p).1 (be 1 p ++ be 1 cause ++ zeros 2 ++ skewField (if x.missed = 0 then x.last else none)) false s

/-- Every joined pair of a unit falls back. -/
def fallbackUnit (u cause : Nat) (s : State) : State := forEach (pairsOf u) (fun p s => fallbackPair p cause s) s

/-- At its own frame boundary a unit adds the terms of each neighbour it is joined to, and removes those of any other (R195, R196). -/
def settleTerms (u : Nat) (s : State) : State :=
  forEach (pairsOf u) (fun p s => modPair p (fun x =>
    if (pairUnits p).1 = u then { x with termsA := x.joined } else { x with termsB := x.joined }) s) s

/-- The spectral order last commanded acts on a unit; a joined pair that it does not permit falls back (R205). -/
def applyOrder (u : Nat) (s : State) : State :=
  if (s.cu u).order = s.joinery.order then s else
    let s := modCu u (fun c => { c with order := s.joinery.order }) s
    forEach (pairsOf u) (fun p s => if s.joinable p then s else fallbackPair p 5 s) s

/-! Receive. -/

/-- Taps with a centre spike (R178). -/
def centreSpike (n : Nat) : List (Int × Int) :=
  (List.range (4 * n)).map (fun i => if i % n = n / 2 ∧ (i / n = 0 ∨ i / n = 3) then (2 ^ 20, 0) else (0, 0))

/-- The taps of a unit are reset (R178, R189). -/
def spikeTaps (u : Nat) (s : State) : State := modCu u (fun c => { c with mimo := centreSpike c.dspRx.taps }) s

/-- The staircase decoder empties its window; the block in progress is not held whole unless it is about to start (R231). -/
def emptyDecoder (c : CarrierUnit) : CarrierUnit :=
  { c with scWindow := [], scPart := [], scSkip := c.rxScPhase != 0, scInfo := [], scRooms := [], rxOtu := [], rxStart := none }

/-- The persistence runs of the PM defects, bits 11 to 14, which are those of the merged stream in a twin group (R257). -/
def pathRuns (t : Tbl Nat) : Tbl Nat := t.filter (fun e => decide (22 ≤ e.1 ∧ e.1 ≤ 29))

/-- A framer without a receive path: its receive state is that of reset; settings, transmit and per-second runs stay. So does what it
holds of the merged stream of a twin group, which the other copy feeds (R257). -/
def framerStop (merged : Bool) (f : Framer) : Framer :=
  { ({} : Framer) with
    set := f.set, rxSet := f.set, deg := f.deg, degNext := f.degNext, txMfas := f.txMfas, txOmfi := f.txOmfi, txCount := f.txCount, rxCount := f.rxCount, maintNow := f.maintNow
    txSm := f.txSm, txPm := f.txPm, txBdi := f.txBdi, defects := f.defects &&& (if merged then 0x1FE00 else 0x600)
    beiPm := if merged then f.beiPm else [], rxPm := if merged then f.rxPm else [], psi := if merged then f.psi else []
    accPt := if merged then f.accPt else none, accMsi := if merged then f.accMsi else [], runs := if merged then pathRuns f.runs else []
    payload := if merged then f.payload else [], frameFail := if merged then f.frameFail else 0, gather := f.gather, apsN := f.apsN, degBad := f.degBad, degGood := f.degGood
    preBad := f.preBad, preGood := f.preGood, failNow := f.failNow, lostTrack := true }

/-- The receive leaves TRACKING, with cause (R189); not in TRACKING, nothing is raised or counted. -/
def unlock (u cause : Nat) (s : State) : State :=
  let was := (s.cu u).acq == 7
  let s := modCu u (fun c => { c with rxAligned := false, rxVerify := 0, rxHeaderGood := false, rxTrainFails := 0, rxHeaderFails := 0,
                                      rxDiffer := 0, rxValid := false, skewLo := none, skewHi := none, daeSuspended := false, daeDiscardRun := 0, daeGoodRun := 0 }) s
  if !was then s
  else
    let s := modFramer u (fun f => { f with lostTrack := true }) (modCu u (fun c => { c with acq := 0 }) s)
    lineClock u false (settleTerms u (fallbackUnit u 3 (suspendSources u
      (raise 0x0302 u (be 1 cause ++ zeros 3) (decide (cause ≤ 3)) (bump pmCu u 2 1 s)))))

/-- Acquisition starts at a state of R184, out of LOS_HOLD too (R189): cold at AGC where the values a warm one needs are missing
(R185). A loss of signal that still lasts is declared again. -/
def acquire (u at_ : Nat) (hunt : Bool) (s : State) : State :=
  let c := s.cu u
  let k := if c.held then at_ else 1
  modCu u (fun c => { c with
    acq := k, acqStart := s.localNs, hunting := hunt && k == 6
    mimo := if k = 1 ∨ c.mimo.length ≠ 4 * c.dspRx.taps then centreSpike c.dspRx.taps else c.mimo
    cdEst := if k = 1 ∧ c.dspRx.cdSpan = 0 then c.dspRx.cdCentre else c.cdEst }) s

/-- The receive path stops (R203): an exit from TRACKING counts, as every one does, and raises nothing (R207). -/
def stopRx (u : Nat) (s : State) : State :=
  let was := (s.cu u).acq == 7
  let s := modCu u (fun c => { c with
    rxEn := false, rxOff := false, acq := 0, los := false, lof := false, held := false, hunting := false
    rxAligned := false, rxVerify := 0, rxHeaderGood := false, rxTrainFails := 0, rxHeaderFails := 0, rxDiffer := 0, rxValid := false
    skewLo := none, skewHi := none, daeSuspended := false, daeDiscardRun := 0, daeGoodRun := 0, dgdEst := 0, snrEst := 0, freqOffset := 0, sopRate := 0
    fmtRx := c.dueRx.orElse (fun _ => c.fmtRx), dueRx := none, dspRx := c.dsp }) s
  let s := framerLost u (modFramer u (framerStop (s.twinHome u)) ((if s.twinHome u then id else dropTag u) <| settleTerms u (fallbackUnit u 3 (suspendSources u s))))
  let s := if was then lineClock u false (bump pmCu u 2 1 s) else s
  followEnable 2 u (settleTrims u false s)

/-- EV_FORMAT_APPLIED (R206). -/
def formatApplied (u path : Nat) (s : State) : State := raise 0x0307 u (be 1 path ++ zeros 3) false s

/-- A new format on the receive: hunt for it in FRAME, with every other value held, from any state of an enabled path (R189, R190). A
joined pair of the unit falls back because the unit leaves TRACKING, the lowest of the causes that coincide (R195). -/
def formatRx (u : Nat) (f : Format) (s : State) : State :=
  let on := (s.cu u).acq != 0
  let s := modFramer u (fun k => { k with rxCount := 0 }) (modCu u (fun c => { c with fmtRx := some f, dueRx := none }) s)
  let s := formatApplied u 2 (supersedeAll u s)
  if on then acquire u 6 true (unlock u 5 s) else s

/-- DSP settings take effect on the receive (R204). -/
def dspApplyRx (u : Nat) (s : State) : State :=
  let c := s.cu u
  let cold := c.dspRx.cdCentre ≠ c.dsp.cdCentre ∨ c.dspRx.cdSpan ≠ c.dsp.cdSpan
  let warm := c.dspRx.taps ≠ c.dsp.taps
  let s := modCu u (fun c => { c with dspRx := c.dsp }) s
  if c.acq = 0 then s
  else if cold then acquire u 1 false (unlock u 5 s)
  else if warm then acquire u 3 false (unlock u 5 s)
  else s

/-- A receive frame boundary: what waits for it applies (R190, R195, R196, R203, R204, R205), a format and settings once a rise of
VDD_CORE that runs is complete (R72). -/
def rxBoundary (u : Nat) (s : State) : State :=
  let s := settleTerms u (applyOrder u s)
  let s := match (s.cu u).dueRx, s.coreRising with
    | some f, false => formatRx u f s
    | _, _ => s
  let s := if (s.cu u).dspRx = (s.cu u).dsp ∨ s.coreRising then s else dspApplyRx u s
  if (s.cu u).rxOff then stopRx u s else s

/-- Without frames there is no boundary to wait for: what waits applies at once, also what waited for one when TRACKING was lost (log
entry 22). -/
def settleRx (u : Nat) (s : State) : State := if (s.cu u).acq = 7 then s else rxBoundary u s

/-! Transmit. -/

/-- The transmit chain runs and frames pass. -/
def State.txRuns (s : State) (u : Nat) : Bool :=
  s.trafficRuns && (s.cu u).txEn && decide ((s.dom 1 u).state = 0) && (s.cu u).txCalibrated

/-- R172. -/
def State.txLive (s : State) (u : Nat) : Bool := s.txRuns u && !(s.cu u).muted

/-- A format change or a unit restart stops injection (R239). -/
def stopInject (u : Nat) (s : State) : State :=
  let on := (s.cu u).inject.mode ≠ 0 ∨ (s.cu u).injectForce.mode ≠ 0
  let s := modCu u (fun c => { c with inject := {}, injectForce := {}, injectGroup := 0 }) s
  if on then raise 0x0402 u [] false s else s

/-- The staircase starts afresh, as where the path is enabled, a format applies or the unit restarts (R223). The OTUCn bits of the
hub that are not coded yet stay. -/
def restartStream (c : CarrierUnit) : CarrierUnit := { c with txScBlock := [], txScPart := [] }

/-- A new format on the transmit: its frames are counted from 0 (R190, R212, R227). -/
def formatTx (u : Nat) (f : Format) (s : State) : State :=
  let s := modFramer u (fun k => { k with txCount := 0 }) (modCu u (fun c => restartStream { c with fmtTx := some f, dueTx := none, txFrames := 0 }) s)
  formatApplied u 1 (fallbackUnit u 4 (stopInject u (supersedeAll u s)))

/-- The transmit path stops (R203). -/
def stopTx (u : Nat) (s : State) : State :=
  let s := modCu u (fun c => restartStream { c with txEn := false, txOff := false, dspTx := c.dsp, muted := false, line := [], dac := []
                                                    fmtTx := c.dueTx.orElse (fun _ => c.fmtTx), dueTx := none }) s
  followEnable 1 u (settleTrims u true (suspendSources u s))

/-- A transmit frame boundary: formats and settings, once a rise of VDD_CORE that runs is complete, injection, mutes and a disable
apply (R72, R142, R190, R203, R204, R239). -/
def txBoundary (u : Nat) (s : State) : State :=
  let s := match (s.cu u).dueTx, s.coreRising with
    | some f, false => formatTx u f s
    | _, _ => s
  let s := modCu u (fun c => { c with
    dspTx := if s.coreRising then c.dspTx else c.dsp, muted := s.muteDue u, injectGroup := if c.injectForce = c.inject then c.injectGroup else 0, injectForce := c.inject }) s
  if (s.cu u).txOff then stopTx u s else s

/-- Without frames there is no boundary to wait for (log entry 22). -/
def settleTx (u : Nat) (s : State) : State := if s.txRuns u then s else txBoundary u s

/-- The next OTUCn frame that the hub hands over is the first that begins in its ACF, so that the key epoch may change with it (R226). -/
def State.epochMayChange (s : State) (u : Nat) : Bool :=
  let c := s.cu u
  match c.fmtTx with
  | some f =>
    let at_ := fun (pos : Nat) => f.acfOf (pos + 1) c.txFrames pos
    !(s.txRuns u && f.lineMode == 0) || c.otuMarks.all (fun m => at_ m.1 != at_ c.otu.length)
  | none => true

/-! Formats (R190). -/

/-- The fields other than DECODER agree. -/
def sameButDecoder (f g : Format) : Bool := { f with decoder := g.decoder } == g

/-- The application time of a format has come: each enabled path it alters takes it at its boundary, a disabled one at once, its
transmit frame count back at 0 and injection stopped (R190, R212, R239). -/
def formatDue (u : Nat) (f : Format) (s : State) : State :=
  let c := s.cu u
  let alters := match c.fmtTx with | some g => !sameButDecoder f g | none => true
  let s := modCu u (fun c => { c with
    fmt := some f, pending := none
    dueTx := if c.txEn && alters then some f else none
    fmtTx := if c.txEn && alters then c.fmtTx else some f
    dueRx := if c.rxEn && c.fmtRx != some f then some f else none
    fmtRx := if c.rxEn && c.fmtRx != some f then c.fmtRx else some f }) s
  let s := if !c.txEn && c.fmtTx != some f then
    stopInject u (modFramer u (fun k => { k with txCount := 0 }) (modCu u (fun c => { c with txFrames := 0 }) s)) else s
  let s := if !c.rxEn && c.fmtRx != some f then modFramer u (fun k => { k with rxCount := 0 }) s else s
  let s := if !c.txEn && !c.rxEn && c.fmt != some f then supersedeAll u s else s
  settleRx u (settleTx u s)

/-- What a unit still waits for where no frame gives it a boundary (log entry 22). -/
def State.unitWaits (s : State) (u : Nat) : Bool :=
  let c := s.cu u
  (c.acq != 7 && (c.dueRx.isSome || c.dspRx != c.dsp || c.rxOff || c.order != s.joinery.order)) ||
    (!s.txRuns u && (c.dueTx.isSome || c.dspTx != c.dsp || c.txOff || c.injectForce != c.inject))
def settleUnits (s : State) : State :=
  if !s.blocksRun then s else forEach ((List.range 4).filter s.unitWaits) (fun u s => settleRx u (settleTx u s)) s

/-! Rates (R27, R140, R167, R169, R174). -/

/-- The symbol rate in units of 125 MBd is RS_CODE; the converters run at 9/8 of it, here in kS/s. -/
def sampleRateKsps (rsCode : Nat) : Nat := rsCode * 140625

/-- Fs in kS/s, the rate of the agreement in LINE_MODE 1 (R235); that of LINE_MODE 2 is not in the spec. -/
def Format.fsKsps (f : Format) : Option Nat :=
  if f.lineMode = 0 then some (sampleRateKsps f.rsCode) else if f.lineMode = 1 then some 67500000 else none

/-- Rs in kBd (R167, R235). -/
def Format.rsKbd (f : Format) : Option Nat :=
  if f.lineMode = 0 then some (f.rsCode * 125000) else if f.lineMode = 1 then some 59843750 else none

/-- The modulation that an agreement fixes is DP-16QAM (R235). -/
def Format.lineModulation (f : Format) : Nat := if f.lineMode = 0 then f.modulation else 2

/-- Twice the compensator's filter memory in units of 10⁻⁹ samples: 2 × 1.125 × D × Rs² × 8.841 × 10⁻³, with D in ps/nm and Rs in
eighths of a GBd. -/
def cdMemory (d rsCode : Nat) : Nat := 2 * 1125 * d * rsCode ^ 2 * 8841 / 64000

/-- The compensator's FFT length: the first power of two from 4 096 that is at least twice the filter memory, and never above 131 072. -/
def fftLength (d rsCode : Nat) : Nat :=
  ([4096, 8192, 16384, 32768, 65536].find? (fun l => decide (cdMemory d rsCode ≤ l * 1000000000))).getD 131072

/-! Restart (R192). -/

/-- A carrier unit restart: what it keeps is the format, the settings, OVERLAY, the bias outputs, the counters, the mute, CU_LOF and
the estimates of the last TRACKING (R84, R192, R201). A format that waited for a boundary applies now. -/
def cuRestart (u : Nat) (s : State) : State :=
  let old := s.cu u
  let s := fallbackUnit u 3 (unlock u 6 (supersedeAll u s))
  let s := modCu u (fun c => restartStream { c with
    acq := 0, held := false, hunting := false, cdEst := 0, los := false, line := [], dac := [], mimo := [], feedback := [], phase := 0, drift := 0, recovered := []
    decided := [], cwTotal := 0, cwUnconverged := 0
    txFrames := if c.dueTx.isSome then 0 else c.txFrames
    fmtTx := c.dueTx.orElse (fun _ => c.fmtTx), dueTx := none, fmtRx := c.dueRx.orElse (fun _ => c.fmtRx), dueRx := none
    dspTx := c.dsp, dspRx := c.dsp }) (stopInject u s)
  let s := if old.dueTx.isSome then formatApplied u 1 s else s
  let s := if old.dueRx.isSome then formatApplied u 2 s else s
  let s := applyOrder u s
  let s := if (s.cu u).txOff then stopTx u s else s
  let s := if (s.cu u).rxOff then stopRx u s else s
  let s := if (s.cu u).txEn then startFullCal u true s else dropInservice u true s
  let s := if (s.cu u).rxEn then startFullCal u false s else dropInservice u false s
  modPower (fun p => { p with plls := if s.pll (1 + u) = .off then p.plls else tblSet .off p.plls (1 + u) .starting }) s

end Sys2Proof.Machine
end

