-- ==== Sys2Proof/Machine/MonitorOps.lean ====
section
/-! DEFINITION. Chapter 16 of spec/ as other chapters use it: triggers, marks, delivery of values and the second boundary of the
monitor. -/

namespace Sys2Proof.Machine

/-- Marks of either. -/
def Marks.join (a b : Marks) : Marks := ⟨a.precal || b.precal, a.unsettled || b.unsettled, a.clipped || b.clipped⟩

/-- The value carries a mark. -/
def Marks.any (m : Marks) : Bool := m.precal || m.unsettled || m.clipped

/-- Bits 2:0 of FLAGS (R441). -/
def Marks.bits (m : Marks) : Nat := (if m.precal then 1 else 0) + (if m.unsettled then 2 else 0) + (if m.clipped then 4 else 0)

def modMonitor (f : Monitor → Monitor) (s : State) : State := { s with monitor := f s.monitor }
def modConverter (c : Nat) (f : Converter → Converter) (s : State) : State :=
  modMonitor (fun m => { m with converters := tblMod {} m.converters c f }) s
def modSequencer (q : Nat) (f : Sequencer → Sequencer) (s : State) : State :=
  modMonitor (fun m => { m with sequencers := tblMod {} m.sequencers q f }) s
def setInjection (c : Nat) (i : Option Injection) (s : State) : State :=
  modMonitor (fun m => { m with injections := tblSet none m.injections c i }) s
def State.decim (s : State) (c : Nat) : Decim := tblGet {} s.monitor.decims c
def modDecim (c : Nat) (f : Decim → Decim) (s : State) : State :=
  modMonitor (fun m => { m with decims := tblMod {} m.decims c f }) s
def State.monSlot (s : State) (i : Nat) : MonSlot := tblGet {} s.monitor.slots i
def modMonSlot (i : Nat) (f : MonSlot → MonSlot) (s : State) : State :=
  modMonitor (fun m => { m with slots := tblMod {} m.slots i f }) s
def State.tracker (s : State) (i : Nat) : Tracker := tblGet {} s.monitor.trackers i
def modTracker (i : Nat) (f : Tracker → Tracker) (s : State) : State :=
  modMonitor (fun m => { m with trackers := tblMod {} m.trackers i f }) s

/-! Converters (R420 to R423). -/

/-- Twice FS: the codes of a conversion. -/
def monFull : Nat := 16384

/-- R420: the code of a voltage against a reference, both in nanovolts. -/
def monCode (v : Int) (vref : Nat) : Nat := (max 0 (min (16383 : Int) (v * (monFull : Nat) / (vref : Int)))).toNat

/-- R421: the voltage an input presents, in nanovolts; the internal VSS and reference are fixed, the rest is measured. The trims act
inside the converter, so that this is what a trimmed converter sees (R420, log entry 78). -/
def presented (input : Nat) (v : Int) : Int := if input = 0x10 then 0 else if input = 0x11 then 1200000000 else v

/-- The converters a sequencer drives (R420, R425). -/
def State.drives (s : State) (q : Nat) : List Nat := if s.monitor.pair then [0, 1] else [q]

/-- The reference in force on a converter (R422). -/
def Monitor.refOf (m : Monitor) (c : Nat) : Nat := (tblGet ({} : Converter) m.converters (if m.pair then 0 else c)).ref

/-- A converter that a sequencer drives works under a reference that has not settled. -/
def State.unsettledBy (s : State) (cs : List Nat) : Bool := cs.any (fun c => !(s.converter c).settled)

/-- A pass is part-way through: a value of it is complete (log entry 38). -/
def Sequencer.partWay (q : Sequencer) : Bool := q.running && decide (0 < q.entry)

/-- R423: no conversion in progress and no pass part-way through on these converters. -/
def State.convIdle (s : State) (cs : List Nat) : Bool :=
  cs.all (fun c => (s.injection c).isNone && !(s.sequencer (if s.monitor.pair then 0 else c)).partWay)

/-- R422: a reference settles; the values being averaged keep the mark of the conversions made before. -/
def refSettled (c : Nat) (s : State) : State :=
  if (s.converter c).settled then s else
    let s := modConverter c (fun k => { k with settled := true }) s
    let mark := fun (m : Marks) => { m with unsettled := true }
    let s := match s.injection c with
      | some i => setInjection c (some { i with carry := mark i.carry }) s
      | none => s
    let q := if s.monitor.pair then 0 else c
    if (s.sequencer q).running then modSequencer q (fun x => { x with carry := mark x.carry }) s else s

/-- R160, R430: a calibration step that is due on a converter while an injected conversion is pending there marks the value that
holds that conversion. -/
def markPrecal (c : Nat) (s : State) : State :=
  match s.injection c with
  | some i => setInjection c (some { i with carry := { i.carry with precal := true } }) s
  | none => s

/-! Sequencers and triggers (R425 to R428). -/

/-- A pass begins. -/
def startPass (q : Nat) (s : State) : State := modSequencer q (fun x => { x with running := true, entry := 0, carry := {} }) s

/-- The sequencer can start a pass at once: no injected conversion and no calibration step holds its converters, and the domain is
awake (R426). -/
def State.canStart (s : State) (q : Nat) : Bool :=
  decide ((s.dom 8 0).state = 0) && !(s.dom 8 0).exiting && !(s.sequencer q).running && !(s.calOf 4).fullTx &&
    (s.drives q).all (fun c => (s.injection c).isNone && decide ((s.converter c).busyUntil ≤ s.localNs))

/-- A trigger is missed (R426). -/
def missTrigger (q : Nat) (s : State) : State :=
  modSequencer q (fun x => { x with missed := x.missed + 1, missedNow := x.missedNow + 1 }) s

/-- R426: a trigger starts a pass, is latched, or is missed: 0, 1 or 2. A latched one ends the domain's sleep (R427). -/
def triggerSeq (q : Nat) (s : State) : Nat × State :=
  if s.canStart q && !(s.sequencer q).latched then (0, startPass q s)
  else if (s.sequencer q).latched then (2, missTrigger q s)
  else (1, startExit 8 0 (modSequencer q (fun x => { x with latched := true }) s))

/-- A trigger source fires: each sequencer in mode 2 that listens to it is triggered (R425). -/
def triggerSource (src : Nat) (s : State) : State :=
  forEach [0, 1] (fun q s =>
    if s.blocksRun && (s.sequencer q).table.start == 2 && (s.sequencer q).table.trigSrc == src then (triggerSeq q s).2 else s) s

/-! Slots and trackers (R431). -/

/-- FLAGGED after one more value. -/
def flagged (n : Nat) (m : Marks) : Nat := if m.any then min 65535 (n + 1) else n

/-- A slot whose COUNT is full is SATURATED, which is told once. -/
def saturateSlot (i : Nat) (s : State) : State :=
  let k := (s.monSlot i).now
  if k.count = 0xFFFFFFFF ∧ !k.saturated then
    raise 0x0C03 0 (be 1 i ++ zeros 3) false (modMonSlot i (fun x => { x with now := { x.now with saturated := true } }) s)
  else s

/-- A slot receives a value, unless its COUNT is full. -/
def addSlot (i v : Nat) (m : Marks) (s : State) : State :=
  saturateSlot i (if (s.monSlot i).now.count = 0xFFFFFFFF then s
    else modMonSlot i (fun x => { x with now := { x.now with
      sum := x.now.sum + v, count := x.now.count + 1, marks := x.now.marks.join m, flagged := flagged x.now.flagged m } }) s)

/-- A tracker receives a value. -/
def addTracker (i v : Nat) (m : Marks) (s : State) : State :=
  modTracker i (fun x => { x with now := {
    min := min x.now.min v, max := max x.now.max v, marks := x.now.marks.join m, flagged := flagged x.now.flagged m } }) s

/-- A value reaches the slot and the tracker named. -/
def deliver (slot tracker : Option Nat) (v : Nat) (m : Marks) (s : State) : State :=
  let s := match slot with | some i => addSlot i v m s | none => s
  match tracker with | some i => addTracker i v m s | none => s

/-! The second boundary (R426, R428, R433). -/

def MonSlot.latch (x : MonSlot) : MonSlot := if x.perSecond then { x with last := x.now, now := {} } else x
def Tracker.latch (x : Tracker) : Tracker := if x.perSecond then { x with last := x.now, now := {} } else x

/-- EV_MON_TRIG_MISSED of a sequencer; a new period takes effect. -/
def sequencerBoundary (q : Nat) (s : State) : State :=
  let x := s.sequencer q
  let s := if x.missedNow ≠ 0 ∧ !x.missedBefore then raise 0x0C01 0 (be 1 q ++ zeros 3 ++ be 4 x.missedNow) false s else s
  modSequencer q (fun x => { x with missedBefore := decide (x.missedNow ≠ 0), missedNow := 0, periodInForce := x.table.periodUs }) s

/-- The monitor at a second boundary. -/
def monitorBoundary (s : State) : State :=
  let s := modMonitor (fun m => { m with
    slots := m.slots.map (fun e => (e.1, e.2.latch)), trackers := m.trackers.map (fun e => (e.1, e.2.latch)) }) s
  sequencerBoundary 1 (sequencerBoundary 0 s)

/-- The monitor ADC reaches P0 from P3 or P4: its references have settled (R422). -/
def monitorAwake (s : State) : State := refSettled 1 (refSettled 0 s)

end Sys2Proof.Machine
end

