-- ==== Sys2Proof/Machine/Calibration.lean ====
section
/-! DEFINITION. Chapter 06 of spec/: full calibration, in-service rounds, trims, bias outputs, the user calibration record and the
CAL commands. -/

namespace Sys2Proof.Machine

/-! Agreement (R154, R155). -/

/-- An element agrees: its run of rejections ends. -/
def accepted (e : Element) : Element := { e with rejectRun := 0, stuck := false, agreed := true }

/-- A correction is accepted. A full calibration sets the trim at once; a round steps it in, unless what is left to step of an
overlay cancels it and the trim stands at the target. -/
def applyCorrection (u p i : Nat) (c : Int) (full : Bool) (s : State) : State :=
  let s := modCal u (fun k => { k with applied := k.applied + 1, lastTod := if full then s.timing.tod else k.lastTod }) s
  modElem u p i (fun e =>
    let e := { e with inservice := e.inservice + c }
    if full then { accepted e with trim := e.target } else if e.target = e.trim then accepted e else { e with corr := c }) s

/-- R154: the two estimates of an element are judged. -/
def judge (u p i : Nat) (a b : Int) (full : Bool) (s : State) : State :=
  let e := s.elem u p i
  let k := s.calOf u
  let c := (a + b).tdiv 2
  let s := modElem u p i (fun e => { e with estimateA := none, superseded := false, attempts := e.attempts + b2n full }) s
  if e.superseded || (if !full then k.allSuperseded else if txParam p then k.fullSupTx else k.fullSupRx) then rejectElem u p i full (modCal u (fun k => { k with rejSuperseded := k.rejSuperseded + 1 }) s)
  else if (paramOf p).tol < (a - b).natAbs then rejectElem u p i full (modCal u (fun k => { k with rejDisagree := k.rejDisagree + 1 }) s)
  else if c = 0 then modElem u p i accepted s
  else if !(paramOf p).holds (e.target + c) then rejectElem u p i full (modCal u (fun k => { k with rejRange := k.rejRange + 1 }) s)
  else applyCorrection u p i c full s

/-- What a window estimated for an element; nothing reported is an estimate of 0. -/
def estimateOf (l : List (Nat × Nat × Int)) (x : Nat × Nat) : Int :=
  ((l.find? (fun e => e.1 == x.1 && e.2.1 == x.2)).map (fun e => e.2.2)).getD 0

/-- Lane 0 of the lane skews keeps INSERVICE at 0 (R152). -/
def estimable (x : Nat × Nat) : Bool := !((x.1 == 4 || x.1 == 8) && x.2 == 0)

/-- The elements a full calibration drives: 0x01 to 0x03 of a receive side, every parameter of the others (R158). -/
def fullElements (u : Nat) (tx : Bool) : List (Nat × Nat) :=
  (sideElements u tx).filter (fun x => estimable x && (tx || decide (x.1 ≤ 3)))

/-- Whether a policy enables a parameter (R163). -/
def CalPolicy.enables (c : CalPolicy) (u p : Nat) : Bool := c.enable.testBit (if u = 4 then p - 0x20 else p - 1)

/-- The elements a round estimates. -/
def roundElements (u : Nat) (c : Cal) : List (Nat × Nat) :=
  (unitElements u).filter (fun x => estimable x && c.inForce.enables u x.1 && !c.skipped.contains (sourceOf x.1))

/-- A full calibration of a side works: its domain has power, in P0 or on its way out of P4. A path that CARRIER does not enable is
calibrated with its domain staying in P4 (R158, log entry 51). -/
def State.fullReady (s : State) (u : Nat) (tx : Bool) : Bool :=
  let d := if u = 4 then s.dom 8 0 else if tx then s.dom 1 u else s.dom 2 u
  (if tx then (s.calOf u).fullTx else (s.calOf u).fullRx) && (d.state == 0 || d.state == 4)

/-- The exponents of a full calibration's windows (R158). -/
def fullPolicy : CalPolicy := { kAdc := 22, kConst := 22, kObs := 20 }

/-- The length of a source's window: samples of a sub-ADC, symbols, samples of a lane, or conversions of a converter (R153). -/
def CalPolicy.window (c : CalPolicy) (src : Nat) : Nat :=
  if src = 0 then 2 ^ c.kAdc else if src = 1 then 2 ^ c.kConst else if src = 2 then 2 ^ c.kObs else 256

/-- The length of the windows that run now. -/
def State.windowLength (s : State) (u src : Nat) : Nat :=
  ((if (s.calOf u).fullTx || (s.calOf u).fullRx then fullPolicy else (s.calOf u).inForce)).window src

/-- A window of a full calibration closes: at most four attempts of each element (R158). -/
def fullWindow (u : Nat) (est : List (Nat × Nat × Int)) (s : State) : State :=
  let c := s.calOf u
  let side := fun tx => s.fullReady u tx
  let xs := ([false, true].flatMap (fun tx => if side tx then fullElements u tx else [])).filter (fun x =>
    !(s.elem u x.1 x.2).agreed && decide ((s.elem u x.1 x.2).attempts < 4))
  if !c.fullB then
    modCal u (fun c => { c with fullB := true }) (forEach xs (fun x s => modElem u x.1 x.2 (fun e => { e with estimateA := some (estimateOf est x) }) s) s)
  else
    let s := forEach xs (fun x s => judge u x.1 x.2 ((s.elem u x.1 x.2).estimateA.getD 0) (estimateOf est x) true s) s
    modCal u (fun c => { c with fullB := false, fullSupTx := false, fullSupRx := false }) s

/-- A window of a round closes. -/
def roundWindow (u : Nat) (est : List (Nat × Nat × Int)) (s : State) : State :=
  let s := suspendSources u s
  let c := s.calOf u
  let xs := roundElements u c
  if c.window = 0 then
    modCal u (fun c => { c with window := 1 }) (forEach xs (fun x s => modElem u x.1 x.2 (fun e => { e with estimateA := some (estimateOf est x) }) s) s)
  else if c.window = 1 then
    let s := forEach xs (fun x s => judge u x.1 x.2 ((s.elem u x.1 x.2).estimateA.getD 0) (estimateOf est x) false s) s
    endRound u (modCal u (fun c => { c with window := 2, allSuperseded := false }) s)
  else s

/-- R154: the window of a full calibration, else of the round, closes with what it estimated: parameter, element, estimate. -/
def calWindowDone (u : Nat) (est : List (Nat × Nat × Int)) (s : State) : State :=
  let c := s.calOf u
  if !(s.blocksRun || (u == 4 && s.hubUp && s.sill.stage == .init)) then s
  else if s.fullReady u true ∨ s.fullReady u false then fullWindow u est s
  else if c.round && !c.fullTx && !c.fullRx then roundWindow u est s else s
def execCalWindowDone (u : Fin 5) (estimates : List (Nat × Nat × Int)) (s : State) : Result := .next (calWindowDone u estimates s)

/-- A round opens its windows under the policy now stored; the sources not qualified are left out of it (R153, R164). -/
def startRound (u : Nat) (byCommand : Bool) (s : State) : State :=
  let off := (unitSources u).filter (fun x => !s.calQualified u x)
  let s := forEach ((unitElements u).filter (fun x => (s.elem u x.1 x.2).superseded)) (fun x s =>
    modElem u x.1 x.2 (fun e => { e with superseded := false }) s) s
  modCal u (fun c => { c with
    round := true, window := 0, roundDue := false, inForce := c.policy, byCommand, rejectedInRound := 0, skipped := off, allSuperseded := false }) s

/-- R156: the interval has passed. -/
def calRoundStart (u : Nat) (s : State) : State :=
  let c := s.calOf u
  when (s.blocksRun && !c.round && !c.fullTx && !c.fullRx) (startRound u false) s
def execCalRoundStart (u : Fin 5) (s : State) : Result := .next (calRoundStart u s)

/-- R158: a full calibration of one side ends; what has not agreed keeps INSERVICE at 0. -/
def fullCalibrationDone (u : Nat) (tx : Bool) (s : State) : State :=
  let c := s.calOf u
  when (s.hubUp && s.fullReady u tx) (fun s =>
    let bad := (fullElements u tx).filter (fun x => decide (0 < (s.elem u x.1 x.2).attempts) && !(s.elem u x.1 x.2).agreed)
    let s := forEach (fullElements u tx) (fun x s => modElem u x.1 x.2 (fun e =>
      { e with inservice := if e.agreed then e.inservice else 0, attempts := 0, agreed := false, estimateA := none, superseded := false }) s) s
    let s := modCal u (fun c => if tx then { c with fullTx := false, fullB := false } else { c with fullRx := false, fullB := false }) s
    let s := if u = 4 then s else modCu u (fun k => if tx then { k with txCalibrated := true } else { k with rxCalibrated := true }) s
    let s := settleTrims u tx s
    let s := raise 0x0B01 u (be 1 1 ++ zeros 1 ++ be 2 (bad.length + c.badOverlays)) false (modCal u (fun c => { c with badOverlays := 0 }) s)
    if !tx && (s.cu u).rxEn then acquire u 1 false s else s) s
def execFullCalibrationDone (u : Fin 5) (tx : Bool) (s : State) : Result := .next (fullCalibrationDone u tx s)

/-- The converters on which a calibration step can run: those of a sequencer that has no pass part-way through, both together in pair
mode (R159). -/
def State.stepFree (s : State) : List Nat :=
  if s.monitor.pair then (if (s.sequencer 0).partWay then [] else [0, 1]) else [0, 1].filter (fun q => !(s.sequencer q).partWay)

/-- The time that 8 conversions take: 1.6 µs at 5 MS/s, 0.8 µs at 10 MS/s in pair mode (R159). -/
def State.stepNs (s : State) : Nat := if s.monitor.pair then 800 else 1600

/-- R159, R160, R430: one step of the trims of each monitor converter that is in an idle period, with the domain in P0. An injected
conversion that is pending there is served first and its value is marked; the step then occupies the converter for 8 conversion times,
and a trigger that arrives in them is latched. -/
def monCalStep (s : State) : State :=
  when (s.blocksRun && decide ((s.dom 8 0).state = 0)) (fun s =>
    let free := s.stepFree
    let s := forEach free (fun c s => modConverter c (fun k => { k with busyUntil := s.localNs + s.stepNs }) (markPrecal c s)) s
    endRound 4 (replyOverlays 4 (stepTrims 4 true true (fun k => free.contains k.2) s))) s
def execMonCalStep (s : State) : Result := .next (monCalStep s)

/-! Bias outputs and the photonic circuit's port. -/

def Cal.biasOf (c : Cal) (ch : Nat) : Bias := tblGet {} c.bias ch
def modBias (u ch : Nat) (f : Bias → Bias) (s : State) : State := modCal u (fun c => { c with bias := tblMod {} c.bias ch f }) s

/-- R143: one millisecond of a ramp; the load says whether the output is outside its compliance. A P4 entry that waited for the
ramps completes (R144). -/
def biasRampStep (u ch : Nat) (limited : Bool) (s : State) : State :=
  let s := modBias u ch (fun b => { b with
    compliance := limited
    code := if b.ramp = 0 then b.target else if b.code < b.target then min b.target (b.code + b.ramp) else max b.target (b.code - b.ramp) }) s
  if !s.enabled 1 u && s.biasQuiet u && (s.dom 1 u).state != 4 then holdOff 1 u s else s
def execBiasRampStep (u : Fin 4) (ch : Fin 4) (limited : Bool) (s : State) : Result :=
  .next (when s.hubUp (biasRampStep u ch limited) s)

/-- R146: OAn_INT_N falls, having been high for a time. -/
def picInterrupt (u highNs : Nat) (s : State) : State :=
  when s.blocksRun (fun s =>
    let s := if (s.calOf u).intArmed || decide (1000 ≤ highNs) then raise 0x0B04 u [] false s else s
    modCal u (fun c => { c with intArmed := false }) s) s
def execPicInterrupt (u : Fin 4) (highNs : Nat) (s : State) : Result := .next (picInterrupt u highNs s)

/-! The user calibration record (R149, R150). -/

def calCopyAt (c : Nat) : Nat := if c = 0 then 0x20000 else 0x90000
def calCopy (s : State) (c : Nat) : List Byte := flashBytes s (calCopyAt c) 6704

/-- The first check of R150 that a copy fails: 1 MAGIC or REC_VER, 2 BODY_LEN, 3 SERIAL, 4 signature. -/
def calCopyFault (s : State) (b : List Byte) : Option Nat :=
  if u32 b 0 ≠ 0xA6C41B00 ∨ u16 b 4 ≠ 1 then some 1
  else if u32 b 28 ≠ 6540 then some 2
  else if bytesAt b 12 16 ≠ s.serial then some 3
  else if !Config.ecdsaVerify (Config.devicePub 0) (b.take 6572) (bytesAt b 6572 66) (bytesAt b 6638 66) then some 4
  else none

/-- The copy with the higher SEQ among those that a test admits. -/
def calPick (s : State) (ok : List Byte → Bool) : Option Nat :=
  let a := calCopy s 0
  let b := calCopy s 1
  if ok a && ok b then some (if u32 a 8 < u32 b 8 then 1 else 0) else if ok a then some 0 else if ok b then some 1 else none

/-- The copy in force. -/
def State.calRecord (s : State) : Option Nat := calPick s (fun b => (calCopyFault s b).isNone)

/-- The place of an element in the body: carrier units of 1 632 bytes each, then the monitor ADC. -/
def bodyPlaces : List (Nat × Nat × Nat × Nat) :=
  (List.range 5).flatMap (fun u => (unitElements u).zipIdx.map (fun x => (1632 * u + 2 * x.2, u, x.1.1, x.1.2)))

/-- R149. -/
def calBody (s : State) : List Byte := bodyPlaces.flatMap (fun x => beInt 2 (s.elem x.2.1 x.2.2.1 x.2.2.2).overlay) ++ zeros 2

/-- R150: one OVERLAY is loaded; out of range, it is 0 and counted for the unit's first EV_CAL_DONE. -/
def loadOverlay (u p i : Nat) (v : Int) (s : State) : State :=
  if (paramOf p).holds ((s.elem u p i).factory + v) then modElem u p i (fun e => { e with overlay := v, trim := e.factory + v }) s
  else modCal u (fun c => { c with badOverlays := c.badOverlays + 1 }) s

/-- R150. -/
def loadCalRecord (s : State) : State :=
  let s := forEach (List.range 5) (fun u s => modCal u (fun c => { c with badOverlays := 0 }) s) s
  match s.calRecord with
  | some c =>
    let b := calCopy s c
    forEach bodyPlaces (fun x s => loadOverlay x.2.1 x.2.2.1 x.2.2.2 (ifield b (32 + x.1) 2) s) s
  | none =>
    match calPick s (fun b => u32 b 0 == 0xA6C41B00) with
    | some c => raise 0x0B03 0 (be 1 ((calCopyFault s (calCopy s c)).getD 0) ++ zeros 3) false s
    | none => s

/-! CAL commands. -/

/-- PARAM, FIRST and COUNT of R163. -/
def elementChecks (q : Request) : List (Bool × Nat) :=
  [unitBelow q 5, ((unitParams q.u).contains (q.b 0), 0),
   (decide (1 ≤ q.h 2 ∧ q.h 2 ≤ 256 ∧ q.b 1 + q.h 2 ≤ (paramOf (q.b 0)).count), 1)]

/-- R163. -/
def calGetParam (q : Request) (s : State) : Reply :=
  checked (elementChecks q) s <|
    .okWith ((List.range (q.h 2)).flatMap (fun i =>
      let e := s.elem q.u (q.b 0) (q.b 1 + i)
      beInt 2 e.factory ++ beInt 2 e.overlay ++ beInt 2 e.inservice ++ beInt 2 e.trim)) s

/-- The power domain of a parameter: class and index. -/
def paramDomain (u p : Nat) : Nat × Nat := if u = 4 then (8, 0) else if txParam p then (1, u) else (2, u)

/-- Boundaries of the side occur: transmit frames, receive frames, idle periods of the monitor. -/
def State.boundaries (s : State) (u p : Nat) : Bool :=
  if u = 4 then s.blocksRun && decide ((s.dom 8 0).state = 0) else if txParam p then s.txRuns u else s.trafficRuns && decide ((s.cu u).acq = 7)

/-- R164: every target is checked before any layer changes; a target out of its range is a refusal of check 13, so that the command
counts as not executed and is not journaled (log entry 51). The reply follows the last step: where the domain is held in P4 the trims
stand at their targets at once, else each boundary moves them (R156). -/
def calSetOverlay (q : Request) (s : State) : Reply :=
  let u := q.u
  let p := q.b 0
  let n := q.h 2
  let val := fun i => ifield q.payload (4 + 2 * i) 2
  let idx := (List.range n).map (fun i => (i, q.b 1 + i))
  checked (elementChecks q ++ [(q.payload.length == 4 + (n + 1) / 2 * 4, 2)] ++
      idx.map (fun x => ((paramOf p).holds (val x.1), 4 + 2 * x.1)) ++
      [(isZero q.payload (4 + 2 * n) (q.payload.length - (4 + 2 * n)), 4 + 2 * n)]) s <|
    let t := forEach idx (fun x s => supersede u p x.2 s) s
    match idx.find? (fun x => let e := t.elem u p x.2; !(paramOf p).holds (e.factory + val x.1 + e.inservice)) with
    | some x => .reject .calRange (be 1 p ++ zeros 1 ++ be 2 x.2) s
    | none =>
      let old := idx.map (fun x => (s.elem u p x.2).overlay)
      let t := forEach idx (fun x s => modElem u p x.2 (fun e => { e with overlay := val x.1 }) s) t
      let t := rouse (paramDomain u p).1 (paramDomain u p).2 t
      let t := if t.enabled (paramDomain u p).1 (paramDomain u p).2 then t else settleTrims u (txParam p) t
      if idx.all (fun x => (t.elem u p x.2).trim == (t.elem u p x.2).target) then .okay t else .later (.overlay u p (q.b 1) old) t

/-- R149, R164: the copy not in force is written. It signs, so that it waits for the entropy source (R390). -/
def calSaveRecord (q : Request) (s : State) : Reply :=
  checked [unitBelow q 5] s <|
  require [(s.security.entropyOk, .busy)] s <|
    let (copy, seq) := match s.calRecord with
      | some c => (1 - c, u32 (calCopy s c) 8 + 1)
      | none => (0, 1)
    if 0xFFFFFFFE < seq then .done .calRecord [] s id else
      let head := be 4 0xA6C41B00 ++ be 2 1 ++ zeros 2 ++ be 4 seq ++ s.serial ++ be 4 6540
      let body := head ++ calBody s
      let (n, s) := drawNat s
      let rec_ := body ++ Config.ecdsaSign (Config.devicePub 0) body n
      let (ok, s) := flashTakes s
      if ok then .okWith (be 4 seq) (flashWrite (calCopyAt copy) rec_ (flashErase (calCopyAt copy) 0x10000 s))
      else .done .calRecord [] s id

/-- A CAL command wakes the domains of its unit (R63, R162). -/
def rouseUnit (u : Nat) (s : State) : State := if u = 4 then rouse 8 0 s else rouse 2 u (rouse 1 u s)

/-- R158, R165. A round of the monitor ADC that its sleep holds back starts when its exit completes (R162). -/
def calRun (q : Request) (s : State) : Reply :=
  let u := q.u
  let c := s.calOf u
  let busy := c.round || c.roundDue || c.fullTx || c.fullRx
  checked [unitBelow q 5, inByte q 0 1 2, resv q 1 3] s <|
    if q.b 0 = 1 then
      require [(!(decide (u < 4) && ((s.cu u).txEn || (s.cu u).rxEn)), .state)] s <|
        .okay (if u = 4 then startFullCal 4 true (rouse 8 0 s) else startFullCal u false (startFullCal u true s))
    else
      require [(!busy, .busy)] s <|
        let s := rouseUnit u s
        if u = 4 ∧ (s.dom 8 0).state ≠ 0 then .okay (modCal 4 (fun c => { c with roundDue := true, byCommand := true }) s)
        else .okThen s (startRound u true)

/-- R163, R164: from the next round. -/
def calSetPolicy (q : Request) (s : State) : Reply :=
  let mon := q.u == 4
  let k := fun (off lo hi : Nat) => (if mon then q.b off == 0 else decide (lo ≤ q.b off ∧ q.b off ≤ hi), off)
  checked [unitBelow q 5, (decide (q.h 0 < if mon then 8 else 1024), 0), inHalf q 2 1 3600, k 4 16 24, k 5 16 26, k 6 14 22, resv q 7 1] s <|
    .okay (modCal q.u (fun c => { c with policy := ⟨q.h 0, q.h 2, q.b 4, q.b 5, q.b 6⟩ }) s)

/-- R161, R163. -/
def calGetStats (q : Request) (s : State) : Reply :=
  let c := s.calOf q.u
  checked [unitBelow q 5] s <|
    .okWith (be 4 c.applied.toNat ++ be 4 c.rejDisagree.toNat ++ be 4 c.rejRange.toNat ++ be 4 c.rejSuperseded.toNat ++
      be 4 c.suspended.toNat ++ c.lastTod.bytes ++
      be 1 (b2n c.round + 2 * b2n (c.fullTx || c.fullRx) + 16 * maskOf 4 (fun ch => (c.biasOf ch).compliance)) ++ zeros 1 ++
      (List.range 4).flatMap (fun ch => be 2 (c.biasOf ch).code)) s

/-- The parameters whose gain and offset estimates an analog setting touches (R157). -/
def analogParams (tx : Bool) : List Nat := if tx then [9] else [1, 2, 5]

/-- R141, R157: applied at the next boundary, or at once where none occurs. -/
def calSetAnalog (q : Request) (s : State) : Reply :=
  let u := q.u
  let c := s.calOf u
  checked [unitBelow q 4, (decide (400 ≤ q.h 0 ∧ q.h 0 ≤ 900) && q.h 0 % 10 == 0, 0), (decide (250 ≤ q.h 2 ∧ q.h 2 ≤ 750) && q.h 2 % 10 == 0, 2)] s <|
    let s := rouseUnit u s
    let touch := fun tx s => forEach ((analogParams tx).flatMap (fun p => (List.range (paramOf p).count).map (fun i => (p, i))))
      (fun x s => supersede u x.1 x.2 s) s
    let s := if q.h 0 ≠ c.pendingSwing.getD c.dacSwing then touch true s else s
    let s := if q.h 2 ≠ c.pendingFs.getD c.adcFs then touch false s else s
    let s := modCal u (fun c => { c with pendingSwing := some (q.h 0), pendingFs := some (q.h 2) }) s
    let s := if s.boundaries u 7 then s else modCal u (fun c => { c with dacSwing := q.h 0, pendingSwing := none }) s
    .okay (if s.boundaries u 1 then s else modCal u (fun c => { c with adcFs := q.h 2, pendingFs := none }) s)

/-- R143, R144: in P4 the outputs stay at 0 mA, and what is named acts once the transmit domain has left it. -/
def calSetBias (q : Request) (s : State) : Reply :=
  let chs := if q.b 0 = 0xFF then [0, 1, 2, 3] else [q.b 0]
  checked [unitBelow q 4, (decide (q.b 0 ≤ 3) || q.b 0 == 0xFF, 0), resv q 1 1, inHalf q 2 0 4095, inHalf q 4 0 4095, resv q 6 2] s <|
    let s := rouse 1 q.u s
    let off := (s.dom 1 q.u).state == 4
    .okay (forEach chs (fun ch s => modBias q.u ch (fun b =>
      if off then { b with due := some (q.h 2, q.h 4) }
      else { b with target := q.h 2, ramp := q.h 4, code := if q.h 4 = 0 then q.h 2 else b.code }) s) s)

/-- R145, R166: CTRL, then the transfer; the bytes received are the circuit's (log entry 3). -/
def calPicSpi (q : Request) (s : State) : Reply :=
  let n := q.b 3
  checked [unitBelow q 4, inByte q 0 1 49, (q.b 1 == 0 || q.b 1 == 3, 1), inByte q 2 0 2,
    (decide (n ≤ 252) && q.payload.length == 4 + (n + 3) / 4 * 4, 3), (isZero q.payload (4 + n) (q.payload.length - (4 + n)), 4 + n)] s <|
    let s := modCal q.u (fun c => { c with picReleased := if q.b 2 = 1 then true else if q.b 2 = 2 then false else c.picReleased }) s
    let (r, s) := drawBytes n (rouse 1 q.u s)
    .okWith r (if n = 0 then s else modCal q.u (fun c => { c with spi := some ⟨q.b 0, q.b 1, bytesAt q.payload 4 n, r⟩ }) s)

def execCalGetParam (q : Request) (s : State) : Result := .next (takeRequest 0x0B01 q calGetParam s)
def execCalSetOverlay (q : Request) (s : State) : Result := .next (takeRequest 0x0B02 q calSetOverlay s)
def execCalSaveRecord (q : Request) (s : State) : Result := .next (takeRequest 0x0B03 q calSaveRecord s)
def execCalRun (q : Request) (s : State) : Result := .next (takeRequest 0x0B04 q calRun s)
def execCalSetPolicy (q : Request) (s : State) : Result := .next (takeRequest 0x0B05 q calSetPolicy s)
def execCalGetStats (q : Request) (s : State) : Result := .next (takeRequest 0x0B06 q calGetStats s)
def execCalSetAnalog (q : Request) (s : State) : Result := .next (takeRequest 0x0B07 q calSetAnalog s)
def execCalSetBias (q : Request) (s : State) : Result := .next (takeRequest 0x0B08 q calSetBias s)
def execCalPicSpi (q : Request) (s : State) : Result := .next (takeRequest 0x0B09 q calPicSpi s)

end Sys2Proof.Machine
end

