-- ==== Sys2Proof/Machine/Boot.lean ====
section
/-! DEFINITION. Chapters 02 to 04 of spec/: supplies, RESET_N, straps, the boot of the ROM and Salurn, management-processor
restarts, activation, debug unlock and JTAG. -/

namespace Sys2Proof.Machine

/-! Supplies and RESET_N. -/

/-- R80: VDD_SILL has risen and the sill leaves its power-on reset; it senses the pins of its bank where VDD_IO is present (R39). -/
def sillPowerOn (s : State) : State :=
  let s := modSill (fun x => { x with on := true }) (sillResetState 1 false s)
  if s.pins.vddIo then vddIoPresent (modPins (fun p => { p with vddIo := false }) s) else s
def execSillPowerOn (s : State) : Result := .next (sillPowerOn s)

/-- R80: the sill re-enters its power-on reset, and everything with it. -/
def sillPowerLoss (s : State) : State := modSill (fun x => { x with on := false }) (sillResetState 1 false s)
def execSillPowerLoss (s : State) : Result := .next (sillPowerLoss s)

/-- R70: a supply is below 80 %. With the hub out of reset, the hub is held, and RESET_CAUSE keeps its value until the excursion is
judged. Whatever holds the hub, the supplies are valid again only when R87 says so. -/
def supplyHold (x : Supply) (s : State) : State :=
  when (s.sill.on && decide (x ≠ .sill)) (fun s =>
    let s := if s.takesReset then modSill (fun k => { k with hold := .supplyHold }) (hubReset s.sill.resetCause s) else s
    modSill (fun k => { k with suppliesValid := false }) s) s
def execSupplyHold (x : Supply) (s : State) : Result := .next (supplyHold x s)

/-- SEQ_SUPPLY codes. -/
def Supply.code : Supply → Nat
  | .sill => 1 | .io => 2 | .core => 3 | .hsio => 4 | .dram => 5 | .conv => 6 | .ana => 7

/-- R70: the excursion departs from the order of a power-up or a power-down. -/
def sequenceFault (x : Supply) (s : State) : State :=
  when s.sill.on (fun s =>
    let s := if s.takesReset then hubReset 6 s else s
    modSill (fun k => Sill.mark .supply { k with hold := .seqFault, suppliesValid := false, resetCause := 6, seqFaultBit := true,
                                                 seqSupply := x.code, strapFaultBit := false }) s) s
def execSequenceFault (x : Supply) (s : State) : Result := .next (sequenceFault x s)

/-- R70, R81: the supplies have fallen below 10 % in the order of a power-down. The hub's run, or the hold that began when the fall
did, ends as a hub power loss; a reset that already holds the hub absorbs it and keeps its cause, and a strap fault ends. -/
def hubPowerLoss (s : State) : State :=
  when s.sill.on (fun s =>
    let s := if s.takesReset then hubReset 7 s else s
    modSill (fun k => match k.hold with
      | .seqFault => { k with suppliesValid := false }
      | .waiting => { k with suppliesValid := false }
      | .strapFault => { k with hold := .waiting, suppliesValid := false, strapFaultBit := false }
      | _ => { k with hold := .waiting, suppliesValid := false, resetCause := 7 }) s) s
def execHubPowerLoss (s : State) : Result := .next (hubPowerLoss s)

/-- R87: 1 ms after the last supply has reached 90 %. -/
def suppliesValid (s : State) : State :=
  when s.sill.on (fun s =>
    let s := vddIoPresent (modSill (fun k => { k with suppliesValid := true }) s)
    if s.sill.hold = .waiting ∧ s.mayRelease then releaseHub s else s) s
def execSuppliesValid (s : State) : Result := .next (suppliesValid s)

/-- R80, R81: RESET_N goes low; it is sensed while VDD_IO is present (R39). -/
def resetNFall (s : State) : State :=
  let s := modPins (fun p => { p with resetN := false }) s
  when (s.sill.on && s.pins.vddIo) (requestHubReset 3) s
def execResetNFall (s : State) : Result := .next (resetNFall s)

/-- R87, R70: RESET_N rises; it releases the hub, or ends a sequence-fault hold, when the supplies are valid. -/
def resetNRise (s : State) : State :=
  let s := modPins (fun p => { p with resetN := true }) s
  when (s.sill.on && s.mayRelease && (s.sill.hold == .waiting || s.sill.hold == .seqFault)) releaseHub s
def execResetNRise (s : State) : Result := .next (resetNRise s)

/-! Straps and the ROM. -/

/-- All sixteen readings agree. -/
def settled (r : Vector Straps 16) : Bool := r.toList.all (fun x => x == r.toList.headD {})

/-- The ROM starts after a reset: with BOOT_SRC = 0 it tries banks; with BOOT_SRC = 1 it waits for the load in LOAD_WAIT with BOOT clear,
no bank having been tried (R93, log entry 64). The flash pins leave their reset state (R41). -/
def startRom (s : State) : State :=
  let s := modPins (fun p => { p with flashDriven := true }) (enterRom s)
  if s.sill.straps.bootSrc then modSill (fun x => { x with stage := .loadWait }) s else s

/-- R43: a window ends; the straps are accepted and the ROM starts, or the window repeats. The root takes its address (R477). -/
def strapWindow (r : Vector Straps 16) (s : State) : State :=
  match s.sill.hold with
  | .sampling n =>
    if 1024 ≤ n ∨ !s.pins.vddIo then s
    else if settled r then
      let x := r.toList.headD {}
      let s := modSill (fun k => { k with straps := x, hold := .released }) s
      let s := if x.role = 3 then modDomain (fun d => { d with address := some 0, mgrState := 1 }) s
        else if x.role ≠ 0 then modDomain (fun d => { d with mgrState := 1 }) s else s
      startRom (modPower (fun p => { p with plls := tblSet .off p.plls 0 .starting }) s)
    else modSill (fun k => { k with hold := .sampling (n + 1) }) s
  | _ => s
def execStrapWindow (readings : Vector Straps 16) (s : State) : Result := .next (strapWindow readings s)

/-- R43: 1 024 windows have passed without agreement. -/
def strapFault (s : State) : State :=
  when (s.sill.hold == .sampling 1024) (modSill (fun k => { k with hold := .strapFault, strapFaultBit := true })) s
def execStrapFault (s : State) : Result := .next (strapFault s)

/-- A bank has failed: the other one is tried, with FALLBACK, or the ROM enters LOAD_WAIT (R93). -/
def nextBank (s : State) : State :=
  if s.fw.triedOther then modSill (fun x => { x with stage := .loadWait, bootAlarm := true }) s
  else modSill (fun x => { x with stage := .verify, fallback := true })
    (modFw (fun f => { f with triedOther := true, tryBank := 1 - f.tryBank }) s)

/-- INIT begins: the user calibration record loads, and the monitor ADC's full calibration runs (R150, R159). -/
def beginInit (s : State) : State := startFullCal 4 true (loadCalRecord (modSill (fun x => { x with stage := .init }) s))

/-- R91, R93: the ROM has read a bank and applies its checks. -/
def bankCheck (s : State) : State :=
  if !(s.hubUp && !s.sill.straps.bootSrc && (s.sill.stage == .rom || s.sill.stage == .verify)) then s
  else
    let b := s.fw.tryBank
    match checkBank s b with
    | some c => nextBank (bankFailed b c s)
    | none =>
      beginInit (modSill (fun x => { x with bank := b })
        (modFw (fun f => { f with running := headerImage (flashBytes s (bankBase b) 352), runningBank := b }) s))
def execBankCheck (s : State) : Result := .next (bankCheck s)

/-! Salurn's INIT. -/

/-- The checks of R377 on a copy of the owner record; the record when all pass. -/
def readOwnerRecord (s : State) (copy : Nat) (b : List Byte) : Option OwnerRecord :=
  let pub := bytesAt b 28 133
  if u32 b 0 ≠ 0xA6E52C00 ∨ u16 b 4 ≠ 1 then none
  else if bytesAt b 12 16 ≠ s.serial then none
  else if tblGet [] s.otp.ownerRoots (u8 b 6) ≠ Config.sha512 pub ∨ (tblGet [] s.otp.ownerRoots (u8 b 6)).isEmpty ∨
      s.otp.ownerRevoked.testBit (u8 b 6) ∨ 3 < u8 b 6 then none
  else if !Config.ecdsaVerify pub (b.take 1424) (bytesAt b 1424 66) (bytesAt b 1490 66) then none
  else some { copy, seq := u32 b 8, root := u8 b 6
              keys := (List.range 8).foldl (fun t h => tblSet {} t h
                ⟨u8 b (164 + 140 * h), if u8 b (164 + 140 * h) = 0 then [] else bytesAt b (168 + 140 * h) 133⟩) []
              debugKey := if u8 b 1284 = 1 then some (bytesAt b 1288 133) else none }

/-- The bytes of a record copy, and whether its sector is erased: an erased copy is no record and no failure (log entry 14). -/
def ownerCopy (s : State) (c : Nat) : List Byte := flashBytes s (0x100000 + c * 0x10000) 1556

/-- R377: load the copy with the higher SEQ among those that pass; each other copy that is not erased counts one failure. -/
def loadOwnerRecord (s : State) : State :=
  let a := readOwnerRecord s 0 (ownerCopy s 0)
  let b := readOwnerRecord s 1 (ownerCopy s 1)
  let bad := fun (c : Nat) (r : Option OwnerRecord) => r.isNone && u32 (ownerCopy s c) 0 != 0xFFFFFFFF
  let pick := match a, b with
    | some x, some y => some (if x.seq < y.seq then y else x)
    | some x, none => some x
    | none, y => y
  let s := modSecurity (fun k => { k with record := pick }) s
  let s := if bad 0 a then authFailure 7 s else s
  if bad 1 b then authFailure 7 s else s

/-- The root reads its floor record (R488). -/
def loadFloor (s : State) : State :=
  if s.sill.straps.role ≠ 3 then s else
    match copyInForce s 0x120000 0xA6F70A00 with
    | some c =>
      let b := flashBytes s (0x120000 + c * 0x10000) 32
      modDomain (fun d => { d with floor := some (u32 b 8), floorSeq := u32 b 4, floorKnown := true }) s
    | none => modDomain (fun d => { d with floor := some 0, floorKnown := true }) s

/-- R97: the bank that is not committed counts as staged when its header passes and it does not run. -/
def findStaged (s : State) : State :=
  let b := 1 - s.committed
  let ok := (checkHeader s (flashBytes s (bankBase b) 352)).isNone && !(s.fw.runningBank == b && !s.fw.fromMemory)
  modFw (fun f => { f with staged := if ok then some b else none }) s

/-- EV_FW_ROLLED_BACK for each cause still to be reported (R98, R100). -/
def reportRollbacks (s : State) : State :=
  let cs := s.fw.rolledBack
  forEach cs (fun c s => raise 0x1002 0 (be 1 c ++ zeros 3) false s) (modFw (fun f => { f with rolledBack := [] }) s)

/-- EV_TIMING_TOD_STEP for each action a reset cancelled (R411). -/
def reportCancelled (s : State) : State :=
  let cs := s.timing.cancelled
  forEach cs (fun c s => raise 0x0A03 0 (be 1 c.1 ++ be 1 2 ++ zeros 2 ++ beInt 8 c.2) false s)
    (modTiming (fun t => { t with cancelled := [] }) s)

/-- Salurn reaches RUN after a reset (R86, R94, R54): tolerances from SL_WAKE_TOL, the domains without an enable start their
exits, the monitor ADC's with the calibration of INIT (R159), and the deferred events come before EV_BOOT_DONE, rollbacks after it (log entry 15). -/
def reachRun (s : State) : State :=
  let s := modSill (fun x => { x with stage := .run })
    (modPower (fun p => { p with adapting := true }) (modControl (fun c => { c with ready := true, everRun := true, mp := .running }) s))
  let s := forEach allDomains (fun d s => modDom d.1 d.2 (fun x => { x with tol := s.sill.wakeTol.toNat }) s) s
  let s := forEach (allDomains.filter (fun d => d.1 != 8 && s.enabled d.1 d.2)) (fun d s => startExit d.1 d.2 s) s
  let s := settlePlls (modDom 8 0 (fun d => { d with exiting := true }) s)
  let s := reportCancelled (deferredAlarms s)
  let s := raise 0x0101 0 (be 1 s.sill.resetCause ++ be 1 s.sill.bank ++ be 1 (b2n s.sill.fallback) ++ zeros 1) false s
  reportRollbacks s

/-! Management-processor restarts. -/

def execWatchdogExpiry (s : State) : Result := .next (mpRestart 1 s)
def execLockstepMismatch (s : State) : Result := .next (mpRestart 2 s)

/-- R82: the watchdog is strobed. -/
def watchdogStrobe (s : State) : State := when s.hubUp (modControl (fun c => { c with strobeAt := s.localNs })) s
def execWatchdogStrobe (s : State) : Result := .next (watchdogStrobe s)

/-- R100: an activated Salurn is not in RUN within 30 s. -/
def trialTimeout (s : State) : State :=
  match s.control.mp with
  | .restarting _ => when s.fw.activating (fun s => mpRestart 6 (rollBack 2 s)) s
  | _ => s
def execTrialTimeout (s : State) : Result := .next (trialTimeout s)

/-- The restart into the staged bank (R98). -/
def startActivation (s : State) : State :=
  mpRestart 5 (modFw (fun f => { f with activating := true, activateDue := false, pendingEpoch := none }) s)

/-- R502: the restart of an activation or of a rollback that ends a trial comes once every journal entry is DONE; until then
Salurn takes no new request. -/
def settleIntake (s : State) : State :=
  if !(s.control.intakeStopped && s.salurnRuns && s.control.journal.all (fun x => x.state == .done)) then s
  else if s.fw.rollbackDue then mpRestart 6 (rollBack 1 s)
  else startActivation s

/-- R98: the ToD reaches the EPOCH of a pending activation. -/
def activationEpoch (s : State) : State :=
  match s.fw.pendingEpoch with
  | some e => if s.salurnRuns && s.reached e then settleIntake (modControl (fun c => { c with intakeStopped := true }) s) else s
  | none => settleIntake s
def execActivationEpoch (s : State) : Result := .next (activationEpoch s)

/-- R96: a debug unlock reaches its expiry. -/
def debugUnlockExpiry (s : State) : State :=
  when (s.sill.debugLevel != 0 && s.reached s.fw.debugExpiry) (modSill (fun x => { x with debugLevel := 0 })) s
def execDebugUnlockExpiry (s : State) : Result := .next (debugUnlockExpiry s)

/-- R95: a challenge expires unused. -/
def debugNonceExpiry (s : State) : State := modFw (fun f => { f with debugNonce := none }) s
def execDebugNonceExpiry (s : State) : Result := .next (debugNonceExpiry s)

/-- The debug level a JTAG instruction needs (R44, R95). -/
def Jtag.level : Jtag → Nat
  | .scan => 1 | .mpAccess => 2 | .dieTest => 3 | _ => 0

/-- The code by which State remembers the instruction loaded. -/
def Jtag.code : Jtag → Nat
  | .bypass => 0 | .idcode => 1 | .samplePreload => 2 | .extest => 3 | .extestPulse => 4 | .extestTrain => 5 | .scan => 6
  | .mpAccess => 7 | .dieTest => 8

/-- The three EXTEST instructions (R45). -/
def Jtag.isExtest (j : Jtag) : Bool := decide (3 ≤ j.code ∧ j.code ≤ 5)

/-- R44, R45: an instruction is loaded when the debug level permits it; EXTEST stops all traffic until a reset. -/
def jtagInstructionLoad (j : Jtag) (s : State) : State :=
  when (s.sill.on && decide (j.level ≤ s.sill.debugLevel)) (fun s =>
    let s := modPins (fun p => { p with
      jtagIr := j.code, extest := j.isExtest, trafficStopped := p.trafficStopped || j.isExtest }) s
    if j.isExtest then extestRelease s else s) s
def execJtagInstructionLoad (j : Jtag) (s : State) : Result := .next (jtagInstructionLoad j s)

/-- R84, R526: a junction above 105 °C sets the sticky THERMAL bit. -/
def junctionExceeds105c (s : State) : State := when s.sill.on (modSill (Sill.mark .thermal)) s
def execJunctionExceeds105c (s : State) : Result := .next (junctionExceeds105c s)

end Sys2Proof.Machine
end

