-- ==== Sys2Proof/Machine/Dsp.lean ====
section
/-! DEFINITION. The signal processing of a carrier unit (R168 to R182): the stages in their order, what the spec defines of each, and
uninterpreted functions where it gives no coefficient (log entry 72). Symbols of the receive are in 1/256 of σ. -/

namespace Sys2Proof.Machine

open Config (Lanes)

/-- Apply a function to each lane's sequence. -/
def perLane (f : List Int → List Int) (l : List Lanes) : List Lanes :=
  let a := f (l.map (fun x => x.1))
  let b := f (l.map (fun x => x.2.1))
  let c := f (l.map (fun x => x.2.2.1))
  let d := f (l.map (fun x => x.2.2.2))
  (List.range l.length).map (fun i => (a.getD i 0, b.getD i 0, c.getD i 0, d.getD i 0))

/-- A FIR filter in 2⁻¹⁴ over one lane, newest sample first. -/
def fir (taps : List Int) (x : List Int) : List Int :=
  (List.range x.length).map (fun n => ((taps.zipIdx.map (fun t => if t.2 ≤ n then t.1 * x.getD (n - t.2) 0 else 0)).foldl (· + ·) 0) / 2 ^ 14)

/-- Gain in 2⁻¹⁴ on Q, and the quadrature error in 0.01° taken off by a share of I (R151, R168, R173). -/
def orthogonalise (gain phase : Nat → Int) (x : Lanes) : Lanes :=
  let q := fun p (i q : Int) => q * (2 ^ 14 + gain p) / 2 ^ 14 - i * Config.sine (phase p) / 2 ^ 14
  (x.1, q 0 x.1 x.2.1, x.2.2.1, q 1 x.2.2.1 x.2.2.2)

/-! Transmit (R168 to R172). -/

/-- β in thousandths: ROLLOFF × 0.005 (R169). -/
def betaMilli (rolloff : Nat) : Nat := 5 * rolloff

/-- The boost at Rs/2 in tenths of a dB (R171). -/
def boostTenths (preemph : Nat) : Nat := 5 * preemph

/-- A sample lies at or above `a`/254 of the clip level, CLIP × 0.1 dB over the RMS level of `n` samples whose squares add up to `sum`:
(254 x)² n ≥ a² sum × 10^(CLIP/100), with both sides raised to the 100th power. -/
def atLevel (clip n sum : Nat) (a : Nat) (x : Int) : Bool :=
  decide ((a ^ 2 * sum) ^ 100 * 10 ^ clip ≤ ((254 * x.natAbs) ^ 2 * n) ^ 100)

/-- A sample lies above the clip level. -/
def overLevel (clip n sum : Nat) (x : Int) : Bool := decide (sum ^ 100 * 10 ^ clip < (x.natAbs ^ 2 * n) ^ 100)

/-- The 8-bit code of a sample, rounded to the nearest step of 1/127 of the clip level and clipped there (R168, log entry 72). -/
def dacCode (clip n sum : Nat) (x : Int) : Int :=
  let k := if x = 0 then 0 else (List.range 127).countP (fun k => atLevel clip n sum (2 * k + 1) x)
  if x < 0 then -(k : Int) else k

/-- Clipping and rounding of one lane (R168, R171). -/
def clipLane (clip : Nat) (x : List Int) : List Int :=
  let sum := (x.map (fun v => v.natAbs ^ 2)).foldl (· + ·) 0
  x.map (dacCode clip x.length sum)

/-- The samples of a lane that lie above the clip level (R171). -/
def clippedOf (clip : Nat) (x : List Int) : Nat :=
  let sum := (x.map (fun v => v.natAbs ^ 2)).foldl (· + ·) 0
  x.countP (overLevel clip x.length sum)

/-- The transmit chain up to the orthogonaliser, in the order of R168; pre-compensation is bypassed at 0. -/
def txShaped (u : Nat) (d : Dsp) (f : Format) (gain phase : Nat → Int) (symbols : List (Lanes × Nat × Nat)) : List Lanes :=
  let x := Config.pulseShape (betaMilli f.rolloff) f.rsCode symbols
  let x := if d.txPrecomp = 0 then x else Config.disperse (-10 * d.txPrecomp) f.rsCode x
  let x := perLane (fir ((List.range 31).map (Config.preemphasis u (boostTenths d.preemph)))) x
  x.map (orthogonalise gain phase)

/-- The codes at the DACs. -/
def dacCodes (d : Dsp) (x : List Lanes) : List Lanes := perLane (clipLane d.clip) x

/-- Samples clipped on the four lanes (R171). -/
def clippedSamples (d : Dsp) (x : List Lanes) : Nat :=
  clippedOf d.clip (x.map (fun v => v.1)) + clippedOf d.clip (x.map (fun v => v.2.1)) +
    clippedOf d.clip (x.map (fun v => v.2.2.1)) + clippedOf d.clip (x.map (fun v => v.2.2.2))

/-- The trim in force of a parameter's element on a unit. -/
def State.trimOf (s : State) (u p i : Nat) : Int := (s.elem u p i).trim

/-- The symbols of a frame as samples of unit `u`, before clipping. -/
def txSamples (u : Nat) (f : Format) (symbols : List (Lanes × Nat × Nat)) (s : State) : List Lanes :=
  txShaped u (s.cu u).dspTx f (s.trimOf u 0x09) (s.trimOf u 0x0A) symbols

/-! Receive (R173 to R182). -/

/-- The dispersion search of R175: the best of the window in steps of 200 ps/nm, then of ±200 ps/nm around it in steps of 10, inside the
window; `score` says how well a value correlates. -/
def bestOf (score : Int → Nat) : List Int → Int → Int
  | [], b => b
  | d :: r, b => bestOf score r (if score b < score d then d else b)
def cdSearch (score : Int → Nat) (centre : Int) (span : Nat) : Int :=
  let low := centre - span
  let coarse := (List.range (2 * span / 200 + 1)).map (fun (k : Nat) => low + 200 * (k : Int))
  let b := bestOf score coarse low
  let fine := ((List.range 41).map (fun (k : Nat) => b - 200 + 10 * (k : Int))).filter (fun d => decide (low ≤ d ∧ d ≤ centre + span))
  bestOf score fine b

/-- The score that a table of correlations gives a value; 0 where it names none. -/
def scoreOf (l : List (Int × Nat)) (d : Int) : Nat := ((l.find? (fun e => e.1 == d)).map (fun e => e.2)).getD 0

/-- The bandwidth of the timing loop in kHz (R177). -/
def timingKhz (bw : Nat) : Nat := [500, 1000, 2000, 5000].getD bw 5000

/-- The step of the 32-bit phase accumulator: 9/16 of an input sample for each of two samples per symbol (R177). -/
def nominalStep : Nat := 9 * 2 ^ 28

/-- One output lane of the resampler at input `i` with phase `p` of 128: 16 taps (R177). -/
def resampled (x : List Int) (i p : Nat) : Int :=
  ((List.range 16).map (fun k => Config.resamplerTap p k * x.getD (i + k) 0)).foldl (· + ·) 0 / 2 ^ 14

/-- The instants of the outputs: input sample and phase, from accumulator `pos` in 2⁻³² of a sample by `step`. -/
def resampleAt (step : Nat) : Nat → Nat → List (Nat × Nat)
  | 0, _ => []
  | n + 1, pos => (pos / 2 ^ 32, pos % 2 ^ 32 / 2 ^ 25) :: resampleAt step n (pos + step)

/-- The outputs that `len` inputs give: 16 for each 9. -/
def outputsOf (len : Nat) : Nat := len * 16 / 9

/-- The timing loop after a stretch of samples: the step it used, the accumulator's fraction and the integrator (R177). -/
def timingStep (bw : Nat) (drift err : Int) : Nat × Int :=
  let g := Config.loopGain (timingKhz bw)
  let drift := drift + g.2 * err / 2 ^ 16
  (((nominalStep : Int) + drift + g.1 * err / 2 ^ 16).toNat, drift)

/-- Two samples per symbol out of the Fs grid. -/
def resample (step phase : Nat) (x : List Lanes) : List Lanes :=
  let at_ := resampleAt step (outputsOf x.length) phase
  let lane := fun (f : Lanes → Int) => let l := x.map f; at_.map (fun a => resampled l a.1 a.2)
  let a := lane (fun v => v.1)
  let b := lane (fun v => v.2.1)
  let c := lane (fun v => v.2.2.1)
  let d := lane (fun v => v.2.2.2)
  (List.range at_.length).map (fun i => (a.getD i 0, b.getD i 0, c.getD i 0, d.getD i 0))

/-- Complex product. -/
def cmul (a b : Int × Int) : Int × Int := (a.1 * b.1 - a.2 * b.2, a.1 * b.2 + a.2 * b.1)

/-- One filter of the butterfly over one polarisation at output `n`: taps at T/2 spacing (R178). -/
def mimoFilter (taps : List (Int × Int)) (x : List (Int × Int)) (n : Nat) : Int × Int :=
  (taps.zipIdx.map (fun t => cmul t.1 (x.getD (2 * n + t.2) (0, 0)))).foldl (fun a b => (a.1 + b.1, a.2 + b.2)) (0, 0)

/-- The 2×2 butterfly: one symbol for two samples (R173, R178). -/
def mimo (n : Nat) (taps : List (Int × Int)) (x : List Lanes) : List Lanes :=
  let hx := x.map (fun v => (v.1, v.2.1))
  let hy := x.map (fun v => (v.2.2.1, v.2.2.2))
  let h := fun k => (taps.drop (k * n)).take n
  (List.range (x.length / 2)).map (fun i =>
    let xx := mimoFilter (h 0) hx i
    let xy := mimoFilter (h 1) hy i
    let yx := mimoFilter (h 2) hx i
    let yy := mimoFilter (h 3) hy i
    ((xx.1 + xy.1) / 2 ^ 20, (xx.2 + xy.2) / 2 ^ 20, (yx.1 + yy.1) / 2 ^ 20, (yx.2 + yy.2) / 2 ^ 20))

/-- The lane values of a format's points in 1/256 of σ. -/
def lanePoints (mu : Nat) : List Int := (amplitudes mu).flatMap (fun (a : Nat) => [256 * (a : Int), -256 * (a : Int)])

/-- The nearest point, and the square of the distance to it. -/
def nearest (points : List Int) (y : Int) : Int :=
  points.foldl (fun b p => if (y - p).natAbs < (y - b).natAbs then p else b) (points.headD 0)
def decide4 (points : List Int) (x : Lanes) : Lanes := (nearest points x.1, nearest points x.2.1, nearest points x.2.2.1, nearest points x.2.2.2)
def miss (points : List Int) (x : Lanes) : Nat :=
  let d := decide4 points x
  (x.1 - d.1).natAbs ^ 2 + (x.2.1 - d.2.1).natAbs ^ 2 + (x.2.2.1 - d.2.2.1).natAbs ^ 2 + (x.2.2.2 - d.2.2.2).natAbs ^ 2

/-- The phase between two pilots, `i` symbols after the first of a block of 64 (R180). -/
def interpolated (a b : Int) (i : Nat) : Int := a + (b - a) * i / 64

/-- The blind search: of the 32 angles around a phase the one whose rotation lies nearest to the points, and the symbol so rotated
(R180). -/
def blindSearch (points : List Int) (phase : Int) (x : Lanes) : Int × Lanes :=
  let tries := (List.range 32).map (fun j => let a := phase + Config.blindAngle j; (a, Config.rotate (-a) x))
  tries.foldl (fun b t => if miss points t.2 < miss points b.2 then t else b) (tries.headD (phase, x))

/-- Carrier phase recovery: a pilot at every multiple of 64, the phases between them interpolated and refined (R180); `pilots` are those
sent. Each symbol with the angle taken off it. -/
def recoverPhase (points : List Int) (pilots : List Lanes) (x : List Lanes) : List (Int × Lanes) :=
  let at_ := fun k => Config.pilotPhase (x.getD (64 * k) (0, 0, 0, 0)) (pilots.getD k (1, 1, 1, 1))
  x.zipIdx.map (fun v => blindSearch points (interpolated (at_ (v.2 / 64)) (at_ (v.2 / 64 + 1)) (v.2 % 64)) v.1)

/-- Nonlinear compensation (R181): OFF bypasses it; SINGLE takes off the self-phase terms of the tentative decisions; JOINED also the
cross-phase terms of each joined neighbour. -/
def compensateNonlinear (mode : Nat) (points : List Int) (neighbours : List (List Lanes)) (x : List Lanes) : List Lanes :=
  if mode = 0 then x
  else
    let x := Config.selfPhase (x.map (decide4 points)) x
    if mode = 2 then neighbours.foldl (fun x n => Config.crossPhase n x) x else x

/-- The neighbours whose terms a unit has in action (R193, R195, R196). -/
def State.neighbours (s : State) (u : Nat) : List Nat :=
  (pairsOf u).filterMap (fun p =>
    if (pairUnits p).1 = u then (if (s.pair p).termsA then some (pairUnits p).2 else none)
    else if (s.pair p).termsB then some (pairUnits p).1 else none)

/-- The receive chain from the ADC samples up to the MIMO equaliser, in the order of R173: two samples per symbol, with the timing loop
after them. -/
def timed (u : Nat) (f : Format) (adc : List Lanes) (s : State) : List Lanes × Nat × Int :=
  let c := s.cu u
  let x := Config.gainControl (adc.map (orthogonalise (fun _ => 0) (s.trimOf u 0x06)))
  let x := Config.compensate c.cdEst (fftLength (c.dspRx.cdCentre.natAbs + c.dspRx.cdSpan) f.rsCode) (betaMilli f.rolloff) f.rsCode c.freqOffset x
  let (step, drift) := timingStep c.dspRx.timingBw c.drift (Config.gardner x)
  (resample step c.phase x, (c.phase + step * outputsOf x.length) % 2 ^ 32, drift)

/-- The pilots sent in `n` blocks of 64 symbols from block `b` of a frame: training symbols in the first four (R210). -/
def pilotsFrom (b n : Nat) : List Lanes :=
  let prbs := prbsSymbols (256 + 8188)
  (List.range n).map (fun i => prbs.getD (if b + i < 4 then 64 * (b + i) else 256 + (b + i) - 4) (1, 1, 1, 1))

/-- The first block of 64 symbols that holds a symbol of group `g`, and the places of the group's symbols counted from its start. -/
def Format.firstBlock (f : Format) (g : Nat) : Nat := dataPos (g * f.wg) / 64
def Format.places (f : Format) (g : Nat) : List Nat := (List.range f.wg).map (fun k => dataPos (g * f.wg + k) - 64 * f.firstBlock g)

/-- What the receive chain makes of the samples of a group: two samples per symbol, equalised symbols, symbols after phase recovery with
their angles, the timing loop after them. -/
structure Received where
  halves : List Lanes
  equalised : List Lanes
  recovered : List (Int × Lanes)
  phase : Nat
  drift : Int
  deriving DecidableEq, Repr

def receiveGroup (u : Nat) (f : Format) (g : Nat) (adc : List Lanes) (s : State) : Received :=
  let (halves, phase, drift) := timed u f adc s
  let e := mimo (s.cu u).dspRx.taps (s.cu u).mimo halves
  ⟨halves, e, recoverPhase (lanePoints f.mu) (pilotsFrom (f.firstBlock g) (e.length / 64 + 2)) e, phase, drift⟩

/-- The symbols of the group that reach the demapper, from the symbols after phase recovery. -/
def demapped (u : Nat) (f : Format) (g : Nat) (x : List Lanes) (s : State) : List Lanes :=
  let y := compensateNonlinear (s.cu u).dspRx.nlcMode (lanePoints f.mu) ((s.neighbours u).map (fun v => (s.cu v).recovered)) x
  (f.places g).map (fun i => y.getD i (0, 0, 0, 0))

/-! Tap updates (R178, R179, R198). -/

/-- The LMS step in 2⁻²⁰: NORMAL's is one eighth of FAST's (R179). -/
def lmsStep (tracking : Nat) : Int := if tracking = 1 then 8 * Config.lmsNormal else Config.lmsNormal

/-- The gradient of one filter's tap over the symbols of a block: Σ e × conj(x). -/
def gradient (x : List (Int × Int)) (err : List (Int × Int)) (k : Nat) : Int × Int :=
  (err.zipIdx.map (fun e => let v := x.getD (2 * e.2 + k) (0, 0); cmul e.1 (v.1, -v.2))).foldl (fun a b => (a.1 + b.1, a.2 + b.2)) (0, 0)

/-- One update of the taps by `step` × 2^−`shift`, from the samples, the symbols and what they should have been. -/
def lmsUpdate (n : Nat) (step : Int) (shift : Nat) (x sym want : List Lanes) (taps : List (Int × Int)) : List (Int × Int) :=
  let hx := x.map (fun v => (v.1, v.2.1))
  let hy := x.map (fun v => (v.2.2.1, v.2.2.2))
  let ex := (want.zip sym).map (fun v => (v.1.1 - v.2.1, v.1.2.1 - v.2.2.1))
  let ey := (want.zip sym).map (fun v => (v.1.2.2.1 - v.2.2.2.1, v.1.2.2.2 - v.2.2.2.2))
  taps.zipIdx.map (fun t =>
    let g := gradient (if t.2 / n % 2 = 0 then hx else hy) (if t.2 / n < 2 then ex else ey) (t.2 % n)
    (t.1.1 + step * g.1 / 2 ^ (20 + shift), t.1.2 + step * g.2 / 2 ^ (20 + shift)))

/-- The updates of a stretch of symbols, one every 64 (R178). -/
def lmsBlocks (n : Nat) (step : Int) (shift : Nat) : Nat → List Lanes → List Lanes → List Lanes → List (Int × Int) → List (Int × Int)
  | 0, _, _, _, taps => taps
  | k + 1, x, sym, want, taps =>
    lmsBlocks n step shift k (x.drop 128) (sym.drop 64) (want.drop 64)
      (lmsUpdate n step shift (x.take (128 + n)) (sym.take 64) (want.take 64) taps)

/-! The soft demapper (R182). -/

/-- A likelihood of 6 bits. -/
def clip6 (v : Int) : Int := max (-31) (min 31 v)

/-- The amplitude's logarithm of its frequency under the shaping distribution; 0 in the uniform formats (R182, R217). -/
def Format.prior (f : Format) (a : Nat) : Int :=
  if isPcs f.modulation then Config.logFrequency (f.frequency a) (64 * f.frequencyTotal) else 0

/-- The least cost of a lane value among the points that a test admits: squared distance less the prior. -/
def laneCost (f : Format) (noise : Nat) (y : Int) (ok : Bool → Nat → Bool) : Int :=
  let costs := ([false, true].flatMap (fun sg => (amplitudes f.mu).filterMap (fun a =>
    if ok sg a then some (Config.llr ((y - laneOf sg * 256 * (a : Int)) ^ 2) noise - f.prior a) else none)))
  costs.foldl min (costs.headD 0)

/-- The max-log ratios of a lane: its sign, then its label bits; positive for 0. -/
def laneRatios (f : Format) (noise : Nat) (y : Int) : Int × List Int :=
  (clip6 (laneCost f noise y (fun s _ => s) - laneCost f noise y (fun s _ => !s)),
   (List.range f.mu).map (fun b =>
     clip6 (laneCost f noise y (fun _ a => (labelOf f.mu a).getD b false) - laneCost f noise y (fun _ a => !(labelOf f.mu a).getD b false))))

/-- The ratios of codeword `q` of a group in the order of its bits (R224): its share of the labels and the sign data, then its parity. -/
def codewordRatios (f : Format) (q : Nat) (symbols : List Lanes) : List Int :=
  let blocks := (List.range ((f.wg + 63) / 64)).map (fun k => Config.noise ((symbols.drop (64 * k)).take 64))
  let lanes := (List.range (4 * f.wg)).map (fun l =>
    let x := symbols.getD (l / 4) (0, 0, 0, 0)
    let y := if l % 4 = 0 then x.1 else if l % 4 = 1 then x.2.1 else if l % 4 = 2 then x.2.2.1 else x.2.2.2
    laneRatios f (blocks.getD (l / 256) 1) y)
  let labels := lanes.flatMap (fun r => r.2)
  let signs := (List.range (4 * f.wg)).map (fun i => (lanes.getD (97 * i % (4 * f.wg)) (0, [])).1)
  let data := 4 * f.wg - 768 * f.c
  let sys := labels ++ signs.take data
  let par := signs.drop data
  (List.range (256 * f.fecK)).map (fun t => sys.getD (t * f.c + q) 0) ++ (List.range 768).map (fun t => par.getD (t * f.c + q) 0)

end Sys2Proof.Machine
end

