-- ==== Sys2Proof/Machine/Carrier.lean ====
section
/-! DEFINITION. Chapter 07 of spec/: the CARRIER commands, acquisition, loss of signal, the joinery and decoder-aided
equalisation. -/

namespace Sys2Proof.Machine

/-! Formats. -/

/-- The format a SET_FORMAT payload spells. -/
def formatOf (q : Request) : Format := ⟨q.h 0, q.b 2, q.b 3, q.h 4, q.b 6, q.b 7, q.b 8, q.b 9⟩

/-- A format's first ten bytes, as the payload has them. -/
def formatBytes (f : Format) : List Byte :=
  be 2 f.rsCode ++ be 1 f.lineMode ++ be 1 f.modulation ++ be 2 f.entropy ++ be 1 f.otucN ++ be 1 f.fecK ++ be 1 f.decoder ++ be 1 f.rolloff

/-- ENTROPY is in the range of its MODULATION (R201). -/
def entropyOk (modulation e : Nat) : Bool :=
  if modulation = 4 then decide (200 ≤ e ∧ e ≤ 395) else if modulation = 5 then decide (200 ≤ e ∧ e ≤ 580) else e == 0

/-- Check 12 of CARRIER.SET_FORMAT (R201, R202). -/
def formatChecks (q : Request) (s : State) : List (Bool × Nat) :=
  let f := formatOf q
  let native := f.lineMode != 1 && f.lineMode != 2
  [unitBelow q 4, ((native && decide (480 ≤ f.rsCode ∧ f.rsCode ≤ 2560)) || (f.lineMode != 0 && f.rsCode == 0), 0), (decide (f.lineMode ≤ 2), 2),
   (if native then decide (1 ≤ f.modulation ∧ f.modulation ≤ 5) else f.modulation == 0, 3),
   (if native then entropyOk f.modulation f.entropy else f.entropy == 0, 4),
   (if native then decide (4 ≤ f.otucN ∧ f.otucN ≤ 32) else f.otucN == 4 * f.lineMode, 6),
   (if native then [20, 24, 28, 36, 48].contains f.fecK else f.fecK == 0, 7),
   (if native then decide (f.decoder ≤ 1) else f.decoder == 0, 8),
   (if native then decide (1 ≤ f.rolloff ∧ f.rolloff ≤ 25) else f.rolloff == 0, 9),
   inByte q 10 0 1, resv q 11 1,
   (if q.b 10 = 0 then q.d 12 == 0 else q.h 12 == 0 && decide (s.timing.tod.sec < q.d 12), 12)]

/-- The receive limit of R26 in ps/nm, and the limit of R170, at a symbol rate; 200 and 50 ns/nm at the agreement rates (R204). -/
def cdLimit (f : Option Format) : Nat :=
  match f with
  | some f => if f.lineMode = 0 then min 200000 (393216000000 / f.rsCode ^ 2) else 200000
  | none => min 200000 (393216000000 / 2560 ^ 2)
def precompLimit (f : Option Format) : Nat :=
  match f with
  | some f => if f.lineMode = 0 then min 50000 (98304000000 / f.rsCode ^ 2) else 50000
  | none => min 50000 (98304000000 / 2560 ^ 2)

/-- Dispersion and pre-compensation obey their limits. -/
def Dsp.cdOk (d : Dsp) (f : Option Format) : Bool := decide (d.cdCentre.natAbs + d.cdSpan ≤ cdLimit f)
def Dsp.precompOk (d : Dsp) (f : Option Format) : Bool := decide (d.txPrecomp.natAbs * 10 ≤ precompLimit f)

/-- RS_CODE or LINE_MODE differ from the format in force. -/
def rateChanges (c : CarrierUnit) (f : Format) : Bool :=
  match c.fmt with
  | some g => g.rsCode != f.rsCode || g.lineMode != f.lineMode
  | none => true

/-- R190, R191, R202, R350, R374. -/
def carrierSetFormat (q : Request) (s : State) : Reply :=
  let f := formatOf q
  let u := q.u
  let c := s.cu u
  let n := match c.fmt with | some g => g.otucN | none => 0
  checked (formatChecks q s) s <|
  require [(!((c.txEn || c.rxEn) && rateChanges c f), .state), (!(decide (f.otucN < n) && s.slotsFrom u (20 * f.otucN)), .state),
    (!(f.otucN != n && ((s.channel u 0).secure || (s.channel u 1).secure)), .state),
    (!((s.twinOf u).isSome && (f.otucN != n || f.lineMode != 0)), .state)] s <|
    if !(c.dsp.cdOk (some f) && c.dsp.precompOk (some f)) then .reject .cd (be 4 (cdLimit (some f))) s
    else if f.lineMode = 0 ∧ !f.fits f.otucN then .reject .capacity (be 1 f.maxN ++ zeros 3) s
    else if q.b 10 = 1 then .okay (modCu u (fun c => { c with pending := some (f, q.d 12) }) s)
    else .okThen s (formatDue u f)

/-- R190: the ToD reaches the EPOCH of a pending change. -/
def formatEpoch (u : Nat) (s : State) : State :=
  match (s.cu u).pending with
  | some (f, e) => when (s.blocksRun && s.reached e) (formatDue u f) s
  | none => s
def execFormatEpoch (u : Fin 4) (s : State) : Result := .next (formatEpoch u s)

/-- R203. -/
def carrierSetPath (q : Request) (s : State) : Reply :=
  let u := q.u
  let c := s.cu u
  let tx := q.b 0 == 1
  let rx := q.b 1 == 1
  let enables := (tx && !c.txEn) || (rx && !c.rxEn)
  let waits := match c.pending with | some (f, _) => rateChanges c f | none => false
  checked [unitBelow q 4, inByte q 0 0 1, inByte q 1 0 1, resv q 2 2] s <|
  require [(!(enables && c.fmt.isNone), .state), (!(enables && waits), .state)] s <|
    let s := if tx then
        (if c.txEn then modCu u (fun c => { c with txOff := false }) s
         else followEnable 1 u (modCu u (fun c => restartStream { c with txEn := true, muted := s.muteDue u }) s))
      else if c.txEn then settleTx u (modCu u (fun c => { c with txOff := true }) s) else s
    let s := if rx then
        (if c.rxEn then modCu u (fun c => { c with rxOff := false }) s
         else followEnable 2 u (modCu u (fun c => { c with rxEn := true }) s))
      else if c.rxEn then settleRx u (modCu u (fun c => { c with rxOff := true }) s) else s
    .okay s

/-- The DSP settings a SET_DSP payload spells. -/
def dspOf (q : Request) : Dsp :=
  { cdCentre := ifield q.payload 0 4, cdSpan := q.w 4, txPrecomp := ifield q.payload 8 2, taps := q.b 10, tracking := q.b 11,
    nlcMode := q.b 12, joinWindow := q.b 13, daeShift := q.b 14, losThresh := q.b 15, timingBw := q.b 16, preemph := q.b 17, clip := q.b 18 }

/-- The payload of DSP settings. -/
def dspBytes (d : Dsp) : List Byte :=
  beInt 4 d.cdCentre ++ be 4 d.cdSpan ++ beInt 2 d.txPrecomp ++ be 1 d.taps ++ be 1 d.tracking ++ be 1 d.nlcMode ++ be 1 d.joinWindow ++
    be 1 d.daeShift ++ be 1 d.losThresh ++ be 1 d.timingBw ++ be 1 d.preemph ++ be 1 d.clip ++ zeros 1

/-- R204. The limits are judged at the rate in force and not again where a pending change of RS_CODE applies (log entry 71). -/
def carrierSetDsp (q : Request) (s : State) : Reply :=
  let d := dspOf q
  let u := q.u
  let c := s.cu u
  checked [unitBelow q 4, (d.cdOk c.fmt, 0), inWord q 4 0 200000, (decide (-5000 ≤ d.txPrecomp ∧ d.txPrecomp ≤ 5000) && d.precompOk c.fmt, 8),
    (decide (7 ≤ d.taps ∧ d.taps ≤ 63) && d.taps % 2 == 1, 10), inByte q 11 0 1, inByte q 12 0 2, inByte q 13 10 16, inByte q 14 2 8,
    inByte q 15 6 30, inByte q 16 0 3, inByte q 17 0 24, inByte q 18 60 140, resv q 19 1] s <|
  require [(!(c.txEn && d.txPrecomp != c.dsp.txPrecomp), .state),
    (!(c.rxEn && ((d.nlcMode == 2) != (c.dsp.nlcMode == 2) || d.joinWindow != c.dsp.joinWindow)), .state)] s <|
    .okay (settleRx u (settleTx u (modCu u (fun c => { c with dsp := d }) s)))

/-- Distinct values among those not 0xFF. -/
def ranksDistinct (l : List Nat) : Bool := let k := l.filter (· != 0xFF); k == k.eraseDups

/-- R205: the order acts on each unit at its own next frame boundary, and at once on a unit that has none (log entry 22). -/
def carrierSetSpectralOrder (q : Request) (s : State) : Reply :=
  let ranks := [q.b 0, q.b 1, q.b 2, q.b 3]
  let adj := q.b 4
  let en := q.b 5
  checked [unitZero q, (ranks.all (fun r => decide (r ≤ 3) || r == 0xFF) && ranksDistinct ranks, 0),
    (decide (adj < 8) && [0, 1, 2].all (fun r => !adj.testBit r || (ranks.contains r && ranks.contains (r + 1))), 4),
    (decide (en < 16), 5), resv q 6 2] s <|
  require [(s.meetsFloor || [0, 1, 2, 3].all (fun p => !en.testBit p || s.joinery.order.joinEn.testBit p), .floor)] s <|
    let o : Order := ⟨ranks, adj, en⟩
    let single := b2n (o.adjacent 0 2) + 2 * b2n (o.adjacent 1 3)
    .done .ok (be 1 (maskOf 4 o.permits) ++ be 1 single ++ zeros 2) (modJoinery (fun j => { j with order := o }) s)
      (forEach [0, 1, 2, 3] settleRx)

/-- NLC_STATE and DAE_STATE of R201. -/
def nlcState (s : State) (u : Nat) : Nat :=
  let m := (s.cu u).dspRx.nlcMode
  if m = 0 then 0 else if m = 2 ∧ (pairsOf u).any (fun p => if (pairUnits p).1 = u then (s.pair p).termsA else (s.pair p).termsB) then 2 else 1
def daeState (c : CarrierUnit) : Nat :=
  match c.fmtRx with
  | some f => if f.decoder = 0 then 0 else if c.acq ≠ 7 then 3 else if c.daeSuspended then 2 else 1
  | none => 0

/-- R201. -/
def carrierGetStatus (q : Request) (s : State) : Reply :=
  let u := q.u
  let c := s.cu u
  checked [unitBelow q 4] s <|
    .okWith (be 1 c.acq ++ be 1 (b2n c.txEn + 2 * b2n c.rxEn + 4 * b2n (s.txLive u)) ++ be 1 (nlcState s u) ++
      be 1 (maskOf 4 (fun p => (s.pair p).joined)) ++ be 1 (daeState c) ++ zeros 3 ++ beInt 4 c.cdEst ++ be 2 c.dgdEst ++ be 2 c.snrEst ++
      beInt 4 c.freqOffset ++ be 4 c.sopRate ++ skewField c.skewLo ++ skewField c.skewHi ++ c.lastLock.bytes ++ zeros 2 ++ be 4 c.acqUs) s

/-- R189 cause 4. -/
def carrierReacquire (q : Request) (s : State) : Reply :=
  let u := q.u
  checked [unitBelow q 4, inByte q 0 0 1, resv q 1 3] s <|
  require [((s.cu u).rxEn, .state)] s <|
  needing 2 u s fun s =>
    if (s.cu u).acq = 0 then .okay s
    else .okThen s (fun s => acquire u (if q.b 0 = 1 then 3 else 1) false (unlock u 4 s))

/-- R201: the format in force, or the one pending with its EPOCH; the settings last accepted. -/
def carrierGetConfig (q : Request) (s : State) : Reply :=
  let c := s.cu q.u
  checked [unitBelow q 4] s <|
    let f := match c.pending, c.fmt with
      | some (f, e), _ => formatBytes f ++ be 1 1 ++ zeros 1 ++ be 8 e
      | none, some f => formatBytes f ++ zeros 10
      | none, none => zeros 20
    .okWith (f ++ dspBytes c.dsp) s

/-! Loss of signal. -/

/-- The input power stays below −LOS_THRESH dB of ADC full scale; `level` in hundredths of a dB (R187). -/
def Dsp.lost (d : Dsp) (level : Int) : Bool := decide (level < -100 * (d.losThresh : Int))

/-- The input power stays at or above −LOS_THRESH + 3 dB (R187). -/
def Dsp.returned (d : Dsp) (level : Int) : Bool := decide (300 - 100 * (d.losThresh : Int) ≤ level)

/-- R187, R188: the power has stayed at `level` for 10 µs. A loss that has lasted since it was declared counts no second entry. -/
def lossOfSignal (u : Nat) (level : Int) (s : State) : State :=
  when (s.trafficRuns && decide (1 ≤ (s.cu u).acq ∧ (s.cu u).acq ≤ 7) && (s.cu u).dspRx.lost level) (fun s =>
    let s := bump pmCu u 1 (b2n !(s.cu u).los) (unlock u 1 s)
    suspendSources u (fallbackUnit u 3 (modCu u (fun c => { c with acq := 8, los := true, hunting := false }) s))) s
def execLossOfSignal (x : InputPower) (s : State) : Result := .next (lossOfSignal x.unit x.level s)

/-- R187, R188: the power has stayed at `level` for 100 µs; out of LOS_HOLD a warm acquisition follows with values held, else a cold
one. -/
def losClear (u : Nat) (level : Int) (s : State) : State :=
  when (s.trafficRuns && (s.cu u).los && (s.cu u).dspRx.returned level) (fun s =>
    let held := (s.cu u).acq == 8
    let s := modCu u (fun c => { c with los := false }) s
    if held then acquire u 3 false s else s) s
def execLosClear (x : InputPower) (s : State) : Result := .next (losClear x.unit x.level s)

/-- R188: after 1 s the held values are discarded. -/
def losHoldExpiry (u : Nat) (s : State) : State :=
  when (s.hubUp && (s.cu u).acq == 8) (modCu u (fun c => { c with held := false })) s
def execLosHoldExpiry (u : Fin 4) (s : State) : Result := .next (losHoldExpiry u s)

/-! Acquisition. -/

/-- The receive enters TRACKING (R184); the staircase decoder starts at the first block that it will hold whole (R231). -/
def enterTracking (u dgd snr : Nat) (freq : Int) (sop : Nat) (s : State) : State :=
  let us := min ((s.localNs - (s.cu u).acqStart) / 1000) 0xFFFFFFFF
  let s := modCu u (fun c => emptyDecoder { c with
    acq := 7, held := true, lof := false, hunting := false, lastLock := s.timing.tod, acqUs := us
    dgdEst := dgd, snrEst := snr, freqOffset := freq, sopRate := sop, rxFrames := 0, rxOtuBits := 0, rxTrainFails := 0, rxHeaderFails := 0
    rxDiffer := 0, daeSuspended := false, daeDiscardRun := 0, daeGoodRun := 0 }) s
  lineClock u true (raise 0x0301 u (be 4 us) false s)

/-- R189 cause 3: FREQ, with the taps reset to a centre spike and the dispersion held. -/
def diverge (u : Nat) (s : State) : State :=
  let start := if (s.cu u).acq = 7 ∨ (s.cu u).held then s.localNs else (s.cu u).acqStart
  spikeTaps u (modCu u (fun c => { c with acq := 3, acqStart := start, hunting := false }) (unlock u 3 s))

/-- Training leaves taps that depend on the line (R178, log entry 72). -/
def trainTaps (u : Nat) (s : State) : State :=
  modCu u (fun c => { c with mimo := (List.range (4 * c.dspRx.taps)).map (Config.trainedTap s.fresh) }) { s with fresh := s.fresh + 1 }

/-- R184: a stage completes. The search of R175 picks by how well each dispersion correlates. EQUALISE needs 3.0 dB, FRAME in LINE_MODE 0
its alignment. In TRACKING the estimates follow, and an offset beyond ±4.5 GHz is a divergence (R176). -/
def acqStageDone (u : Nat) (scores : List (Int × Nat)) (dgd snr : Nat) (freq : Int) (sop : Nat) (s : State) : State :=
  let c := s.cu u
  let go := fun k s => modCu u (fun c => { c with acq := k }) s
  let native := match c.fmtRx with | some f => f.lineMode == 0 | none => false
  if !s.trafficRuns then s else
    match c.acq with
    | 1 => go (if c.dspRx.cdSpan = 0 then 3 else 2) s
    | 2 => go 3 (modCu u (fun c => { c with cdEst := cdSearch (scoreOf scores) c.dspRx.cdCentre c.dspRx.cdSpan }) s)
    | 3 => if freq.natAbs ≤ 4000000 then go 4 s else s
    | 4 => go 5 s
    | 5 => if 300 ≤ snr then modCu u (fun c => { c with acq := 6, rxVerify := 0, rxHeaderGood := false, rxAligned := false }) (trainTaps u s) else s
    | 6 => if native && !c.rxAligned then s else enterTracking u dgd snr freq sop s
    | 7 => if 4500000 < freq.natAbs then diverge u s else modCu u (fun c => { c with dgdEst := dgd, snrEst := snr, freqOffset := freq, sopRate := sop }) s
    | _ => s
def execAcqStageDone (u : Fin 4) (scores : List (Int × Nat)) (dgd snr : Nat) (freq : Int) (sop : Nat) (s : State) : Result :=
  .next (acqStageDone u scores dgd snr freq sop s)

/-- R184: a stage is abandoned and acquisition restarts at AGC; a hunt that R190 starts has no maximum. -/
def acqStageTimeout (u : Nat) (s : State) : State :=
  let c := s.cu u
  when (s.trafficRuns && decide (1 ≤ c.acq ∧ c.acq ≤ 6) && !(c.acq == 6 && c.hunting)) (fun s =>
    bump pmCu u 3 1 (modCu u (fun c => { c with
      mimo := centreSpike c.dspRx.taps, acq := 1, hunting := false, cdEst := if c.dspRx.cdSpan = 0 then c.dspRx.cdCentre else c.cdEst }) s)) s
def execAcqStageTimeout (u : Fin 4) (s : State) : Result := .next (acqStageTimeout u s)

/-- R189: SNR_EST has stayed below 3.0 dB for 64 pilot blocks, or the offset lies beyond ±4.5 GHz. It ends a hunt of R184 too (log
entry 50). -/
def equaliserDivergence (u : Nat) (s : State) : State :=
  when (s.trafficRuns && decide (3 ≤ (s.cu u).acq ∧ (s.cu u).acq ≤ 7)) (diverge u) s
def execEqualiserDivergence (u : Fin 4) (s : State) : Result := .next (equaliserDivergence u s)

/-- R189 cause 2, R230: training below 0.5, or valid headers of another format, in four consecutive frames. -/
def acfLossOfFrame (u : Nat) (s : State) : State :=
  let c := s.cu u
  when (s.trafficRuns && c.acq == 7 && (decide (4 ≤ c.rxTrainFails) || decide (4 ≤ c.rxHeaderFails))) (fun s =>
    acquire u 3 false (modCu u (fun c => { c with lof := true }) (unlock u 2 s))) s
def execAcfLossOfFrame (u : Fin 4) (s : State) : Result := .next (acfLossOfFrame u s)

/-! The joinery. -/

/-- The cause of R195 that holds for a joined pair, the lowest. -/
def fallbackCause (s : State) (p : Nat) : Option Nat :=
  let x := s.pair p
  let out := match x.last with
    | some v => x.missed == 0 && (decide (s.skewBound p < v.natAbs) || decide (16 < (v - x.sJoin).natAbs))
    | none => false
  if out then some 1
  else if 2 ≤ x.missed then some 2
  else if (s.cu (pairUnits p).1).acq ≠ 7 ∨ (s.cu (pairUnits p).2).acq ≠ 7 then some 3
  else if !s.joinable p || !s.meetsFloor then some 5 else none

/-- R195: the pair falls back; each unit removes the neighbour's terms at its own next frame boundary. -/
def joineryFallback (p : Nat) (s : State) : State :=
  match fallbackCause s p with
  | some c => when (s.blocksRun && (s.pair p).joined) (fallbackPair p c) s
  | none => s
def execJoineryFallback (pair : Fin 4) (s : State) : Result := .next (joineryFallback pair s)

/-- S has stayed within its bound and a spread of 4 symbols for 64 consecutive frames. -/
def Pair.steady (x : Pair) : Bool :=
  x.recent.length == 64 && x.recent.all (fun a => x.recent.all (fun b => decide ((a - b).natAbs ≤ 4)))

/-- R196: the pair joins; each unit adds the neighbour's terms at its own next frame boundary. -/
def joineryJoin (p : Nat) (s : State) : State :=
  let x := s.pair p
  when (s.blocksRun && !x.joined && s.pairEligible p && x.steady) (fun s =>
    let v := x.last.getD 0
    raise 0x0304 (pairUnits p).1 (be 1 p ++ zeros 3 ++ beInt 4 v) false (modPair p (fun x => { x with joined := true, sJoin := v }) s)) s
def execJoineryJoin (pair : Fin 4) (s : State) : Result := .next (joineryJoin pair s)

/-! Decoder-aided equalisation (R199). -/

/-- The unit decodes Deep. -/
def CarrierUnit.deep (c : CarrierUnit) : Bool := match c.fmtRx with | some f => f.decoder == 1 | none => false

def daeSuspend (u : Nat) (s : State) : State :=
  let c := s.cu u
  when (s.trafficRuns && c.acq == 7 && c.deep && !c.daeSuspended && decide (4 ≤ c.daeDiscardRun)) (fun s =>
    raise 0x0305 u [] false (modCu u (fun c => { c with daeSuspended := true, daeGoodRun := 0 }) s)) s
def execDaeSuspend (u : Fin 4) (s : State) : Result := .next (daeSuspend u s)

def daeResume (u : Nat) (s : State) : State :=
  let c := s.cu u
  when (s.trafficRuns && c.acq == 7 && c.deep && c.daeSuspended && decide (16 ≤ c.daeGoodRun)) (fun s =>
    raise 0x0306 u [] false (modCu u (fun c => { c with daeSuspended := false, daeDiscardRun := 0 }) s)) s
def execDaeResume (u : Fin 4) (s : State) : Result := .next (daeResume u s)

def execCarrierSetFormat (q : Request) (s : State) : Result := .next (takeRequest 0x0301 q carrierSetFormat s)
def execCarrierSetPath (q : Request) (s : State) : Result := .next (takeRequest 0x0302 q carrierSetPath s)
def execCarrierSetDsp (q : Request) (s : State) : Result := .next (takeRequest 0x0303 q carrierSetDsp s)
def execCarrierSetSpectralOrder (q : Request) (s : State) : Result := .next (takeRequest 0x0304 q carrierSetSpectralOrder s)
def execCarrierGetStatus (q : Request) (s : State) : Result := .next (takeRequest 0x0305 q carrierGetStatus s)
def execCarrierReacquire (q : Request) (s : State) : Result := .next (takeRequest 0x0306 q carrierReacquire s)
def execCarrierGetConfig (q : Request) (s : State) : Result := .next (takeRequest 0x0307 q carrierGetConfig s)

end Sys2Proof.Machine
end

