-- ==== Sys2Proof/Machine/FramerOps.lean ====
section
/-! DEFINITION. OTUCn frames as bytes (R243 to R252, R373, R374) and the framer's defects with what they drive (R255, R256). A slice is
15 296 bytes, row by row. -/

namespace Sys2Proof.Machine

/-! Slices. -/

/-- Bytes of a slice's row (1 to 4) from a column (1 to 3 824). -/
def cell (sl : List Byte) (row col n : Nat) : List Byte := bytesAt sl ((row - 1) * 3824 + col - 1) n

/-- A slice's 952 blocks of 16 bytes (R261). -/
def sliceBlocks (sl : List Byte) : List (List Byte) :=
  [1, 2, 3, 4].flatMap (fun r => (List.range 238).map (fun b => cell sl r (17 + 16 * b) 16))

/-- A slice's payload. -/
def slicePayload (sl : List Byte) : List Byte := [1, 2, 3, 4].flatMap (fun r => cell sl r 17 3808)

/-- BIP-8 over columns 15 to 3 824. -/
def bip8 (sl : List Byte) : Byte := ([1, 2, 3, 4].flatMap (fun r => cell sl r 15 3810)).foldl (· ^^^ ·) 0

/-- The violating bits between two BIP-8 bytes. -/
def violations (a b : Byte) : Nat := ((List.range 8).filter (fun i => (a ^^^ b).getLsbD i)).length

/-- FAS. -/
def fas : List Byte := [0xF6, 0xF6, 0xF6, 0x28, 0x28, 0x28]

/-- `n` bits of the OTUCn scrambler x¹⁶ + x¹² + x³ + x + 1 (R244). -/
def otuScrambler : Nat → BitVec 16 → List Bool
  | 0, _ => []
  | n + 1, r => r.getLsbD 15 :: otuScrambler n ((r <<< 1) ||| (if r.getLsbD 15 ^^ r.getLsbD 11 ^^ r.getLsbD 2 ^^ r.getLsbD 0 then 1#16 else 0#16))

/-- The byte that bits spell. -/
def bitsByte (l : List Bool) : Byte := BitVec.ofNat 8 (bitsNat l)

/-- The scrambler's bytes over a slice: none over the FAS. -/
def otuMask : List Byte :=
  let bits := otuScrambler (8 * 15290) 0xFFFF#16
  zeros 6 ++ (List.range 15290).map (fun i => bitsByte ((bits.drop (8 * i)).take 8))

/-- A slice scrambled (R244). -/
def scrambleSlice (sl : List Byte) : List Byte := (sl.zip otuMask).map (fun x => x.1 ^^^ x.2)

/-- The slices interleaved in 16-byte words (R245). -/
def interleave (slices : List (List Byte)) : List Byte :=
  (List.range 956).flatMap (fun w => slices.flatMap (fun sl => bytesAt sl (16 * w) 16))

/-- The slices of an interleaved stream. -/
def deinterleave (n : Nat) (b : List Byte) : List (List Byte) :=
  (List.range n).map (fun i => (List.range 956).flatMap (fun w => bytesAt b (16 * (n * w + i)) 16))

/-! Payload blocks and the security slot. -/

/-- The block numbers of slot `t` of a slice in a frame with an OMFI (R261). -/
def slotBlocks (omfi t : Nat) : List Nat := (List.range 952).filter (fun b => (952 * omfi + b) % 20 == t)

/-- Replace block `b` of a slice. -/
def putBlock (sl : List Byte) (b : Nat) (v : List Byte) : List Byte :=
  let at_ := b / 238 * 3824 + 16 + 16 * (b % 238)
  sl.take at_ ++ fitBytes 16 v ++ sl.drop (at_ + 16)

/-- The encrypted places of a frame in the transmission order of R245: block, slice; the security slot is left out (R373). -/
def cipherPlaces (n omfi : Nat) : List (Nat × Nat) :=
  let sec := slotBlocks omfi 19
  (List.range 952).flatMap (fun b => ((List.range n).map (fun i => (b, i))).filter (fun x => !(x.2 + 1 == n && sec.contains x.1)))

/-- The text at those places. -/
def cipherText (slices : List (List Byte)) (places : List (Nat × Nat)) : List Byte :=
  let bl := slices.map sliceBlocks
  places.flatMap (fun x => (bl.getD x.2 []).getD x.1 [])

/-- A slice's payload rebuilt from its 952 blocks, overhead kept. -/
def setBlocks (sl : List Byte) (bl : List (List Byte)) : List Byte :=
  [0, 1, 2, 3].flatMap (fun r => bytesAt sl (3824 * r) 16 ++ ((bl.drop (238 * r)).take 238).flatten)

/-- The text put back at its places. -/
def placeText (slices : List (List Byte)) (places : List (Nat × Nat)) (text : List Byte) : List (List Byte) :=
  let put := places.zipIdx.map (fun x => (x.1, bytesAt text (16 * x.2) 16))
  slices.zipIdx.map (fun x =>
    let own := put.filter (fun y => y.1.2 == x.2)
    setBlocks x.1 ((sliceBlocks x.1).zipIdx.map (fun b => ((own.find? (fun y => y.1.1 == b.2)).map (fun y => y.2)).getD b.1)))

/-- The additional data: block 0 of the security slot, APS, four zero bytes, columns 15 and 16 of every slice (R373). -/
def frameAad (slices : List (List Byte)) (block0 : List Byte) : List Byte :=
  block0 ++ cell (slices.headD []) 4 5 4 ++ zeros 4 ++ slices.flatMap (fun sl => [1, 2, 3, 4].flatMap (fun r => cell sl r 15 2))

/-! Multiplex structure (R261). The MSI entry of a slot is G.709's two bytes: available, port number, occupied (log entry 24). -/

/-- A slot's holder in force. -/
def State.slotNow (s : State) (u slot : Nat) : Option Nat :=
  (s.client.tribs.find? (fun e => e.2.now.kind != 0 && e.2.now.cu == u && e.2.now.slots.testBit slot)).map (fun e => e.1)

/-- The MSI entry of a slot that the local allocation asks for. -/
def msiEntry (s : State) (u slot : Nat) : Nat :=
  match s.slotNow u slot with
  | some t => 0x8000 + t / 128 * 256 + 0x80 + t % 128
  | none => 0x8000

/-- The JC bytes of a slice in the frame with an OMFI: those of its slot of that number, a constant where a tributary holds it (R277, log
entry 75). -/
def jcBytes (s : State) (u slice omfi : Nat) : List Byte :=
  match s.slotNow u (20 * slice + omfi) with
  | some t => fitBytes 6 (Config.constantCm (bitsOf 640 (s.trib t).now.slots).length)
  | none => zeros 6

/-- PSI byte `i` of a slice. -/
def psiByte (s : State) (u slice i : Nat) : Nat :=
  if i = 0 then 0x22
  else if 2 ≤ i ∧ i ≤ 41 then
    let e := msiEntry s u (20 * slice + (i - 2) / 2)
    if i % 2 = 0 then e / 256 else e % 256
  else 0

/-- The slot's accepted entry differs from the local allocation. -/
def State.msiDiffers (s : State) (u slot : Nat) : Bool :=
  let v := tblGet 0 (s.frm u).accMsi slot
  v != 0 && v != msiEntry s u slot + 1

/-! Defects (R255). -/

def Framer.has (f : Framer) (bit : Nat) : Bool := f.defects.testBit bit

/-- SSF, LOF or LOM. -/
def hardFail (d : Nat) : Bool := d.testBit 0 || d.testBit 2 || d.testBit 4

/-- The bits that SSF, LOF and LOM mask. -/
def maskedBits : Nat := 0x7F9E0

/-- The defects of the path, bits 11 to 16. -/
def pathBits : Nat := 0x1F800

/-- A twin group's merged stream is received on its home unit's framer, by the other copy, whatever fails there (R257). -/
def State.mergedHolds (s : State) (u : Nat) : Bool :=
  match s.twinOf u with
  | some g => (s.twin g).home == u && (s.twin g).b.state == 3
  | none => false

/-- SSF, LOF or LOM as the path sees it. -/
def State.pathLost (s : State) (u : Nat) : Bool := hardFail (s.frm u).defects && !s.mergedHolds u

/-- What remains of a set of defects under the masks of R255; `merged` leaves the path's unmasked. -/
def maskDefects (merged : Bool) (d : Nat) : Nat :=
  let d := if d.testBit 0 || d.testBit 2 then d &&& (0x7FFFF - 0x18) else d
  if hardFail d then d &&& (0x7FFFF - (if merged then maskedBits - pathBits else maskedBits)) else d

/-- A frame period that is not evaluated breaks every run of consecutive frames (R247, R251, R253 to R255, R259, R261); `merged` leaves
what the merged stream counts. -/
def Framer.gap (merged : Bool) (f : Framer) : Framer :=
  { f with
    rxSm := [], rxPm := if merged then f.rxPm else [], runs := if merged then pathRuns f.runs else []
    passed := [], tag := {}, aps := {}, psi := if merged then f.psi else [], ttiNow := [], ttiRun := 0, mfasBad := 0, mfasRun := 0 }

/-- A frame is lost to the receive side of unit `u`: its runs break, and the tag of the frame before never arrives (R387). -/
def missFrame (u : Nat) (s : State) : State :=
  modFramer u (Framer.gap (s.twinHome u)) (if s.twinHome u then s else dropTag u s)

/-- The bits that make EV_FRAMER_DEFECT urgent (R268). -/
def urgentBits : Nat := 0xE35

/-- A change of DEFECTS: at once with its event after a quiet period, else gathered (R268). -/
def defectEvent (u changed : Nat) (s : State) : State :=
  match (s.frm u).gather with
  | some m => modFramer u (fun f => { f with gather := some (m ||| changed) }) s
  | none => raise 0x0501 u (be 4 (s.frm u).defects ++ be 4 changed) (changed &&& urgentBits != 0) (modFramer u (fun f => { f with gather := some 0 }) s)

/-- DEFECTS take a new value, under the masks; what a mask hides is evaluated afresh when it ends (R255, R259). -/
def writeDefects (u d : Nat) (s : State) : State :=
  let f := s.frm u
  let merged := s.mergedHolds u
  let d := maskDefects merged d
  if d = f.defects then s else
    defectEvent u (f.defects ^^^ d) (modFramer u (fun f => { f with
      defects := d, failNow := f.failNow || hardFail d
      runs := if hardFail d then (if merged then pathRuns f.runs else []) else f.runs
      psi := if hardFail d && !merged then [] else f.psi
      aps := if hardFail d then {} else f.aps
      apsC := if hardFail f.defects && !hardFail d then 0 else f.apsC
      mfasBad := if [0, 2].any (fun i => d.testBit i || f.defects.testBit i) then 0 else f.mfasBad
      mfasRun := if [0, 2].any (fun i => d.testBit i || f.defects.testBit i) then 0 else f.mfasRun }) s)

/-- A new value of DEFECTS, with what it does to a twin group: the copy leaves, and the home unit's path is masked when no copy is
left. -/
def setDefects (u d : Nat) (s : State) : State :=
  let was := hardFail (s.frm u).defects
  let s := writeDefects u d s
  if was || !hardFail (s.frm u).defects then s else
    let s := framerLost u s
    match s.twinOf u with
    | some g => writeDefects (s.twin g).home (s.frm (s.twin g).home).defects s
    | none => s

/-- One defect is set or cleared. -/
def putDefect (u bit : Nat) (on : Bool) (s : State) : State :=
  let d := (s.frm u).defects
  setDefects u (if on then d ||| 2 ^ bit else if d.testBit bit then d - 2 ^ bit else d) s

/-! Signal fail (R256, R387). -/

/-- SSF, LOF, LOM, or SM_TIM with TIM_ACT 1. -/
def State.sectionFail (s : State) (u : Nat) : Bool :=
  let f := s.frm u
  hardFail f.defects || (f.has 5 && f.rxSet.timAct == 1)

/-- AIS, LCK, OCI, PLM, or a receive channel that fails. -/
def State.pathFail (s : State) (u : Nat) : Bool :=
  let f := s.frm u
  let c := s.channel u 1
  f.has 11 || f.has 12 || f.has 13 || f.has 15 || (c.secure && (c.tagFailed || c.noKey))

/-- Every tributary of a unit is in signal fail; of a twin group, only when both copies fail. -/
def State.unitFail (s : State) (u : Nat) : Bool :=
  match s.twinOf u with
  | some g => decide ((s.twin g).groupState ≤ 1) || (s.sectionFail (s.twin g).home && s.sectionFail (s.twin g).partner) || s.pathFail (s.twin g).home
  | none => s.sectionFail u || s.pathFail u

/-- A tributary is in signal fail: its unit, a mismatched slot, or a failed part of the last frame. -/
def State.tribFail (s : State) (t : Nat) : Bool :=
  let a := (s.trib t).now
  s.unitFail a.cu || (bitsOf 640 a.slots).any (fun i => s.msiDiffers a.cu i) || (s.frm a.cu).frameFail &&& a.slots != 0

/-- SM BDI and PM BDI sent by a unit (R256, R257). -/
def State.sendsSmBdi (s : State) (u : Nat) : Bool := s.sectionFail u
def State.sendsPmBdi (s : State) (u : Nat) : Bool :=
  match s.twinOf u with
  | some g => let h := (s.twin g).home
      decide ((s.twin g).groupState ≤ 1) || (s.sectionFail h && s.sectionFail (s.twin g).partner) || (s.frm h).has 11 || (s.frm h).has 12 || (s.frm h).has 13
  | none => s.sectionFail u || (s.frm u).has 11 || (s.frm u).has 12 || (s.frm u).has 13

end Sys2Proof.Machine
end

