-- ==== Sys2Proof/Machine/Framer.lean ====
section
/-! DEFINITION. Chapter 09 of spec/ with the line cipher of chapter 14: sending and receiving OTUCn frames, defects, and the FRAMER
commands. -/

namespace Sys2Proof.Machine

/-! Sending (R243 to R261, R373 to R388). -/

/-- The unit has a native format on its transmit. -/
def CarrierUnit.nativeTx (c : CarrierUnit) : Option Format := c.fmtTx.bind (fun f => if f.lineMode = 0 then some f else none)
def CarrierUnit.nativeRx (c : CarrierUnit) : Option Format := c.fmtRx.bind (fun f => if f.lineMode = 0 then some f else none)

/-- The allocations of a unit take effect at MFAS 0 (R278). -/
def applyAllocs (u : Nat) (s : State) : State :=
  { s with client := { s.client with tribs := s.client.tribs.map (fun e =>
    (e.1, if e.2.set.cu = u ∨ e.2.now.cu = u then { e.2 with now := e.2.set } else e.2)) } }

/-- MSIM follows the mismatches of a unit's slots (R261). -/
def judgeMsim (u : Nat) (s : State) : State := putDefect u 16 ((List.range (20 * (s.frm u).n)).any (fun i => s.msiDiffers u i)) s

/-- Byte `i` of a trail trace. -/
def ttiByte (t : List Byte) (i : Nat) : Byte := t.getD i 0

/-- LINK_TAG (R253). -/
def linkTag (s : State) (u : Nat) : Nat := s.address * 2 ^ 18 + u * 2 ^ 16 + (s.frm u).set.linkId

/-- The section overhead a unit adds: row 1 columns 1 to 10 (R251, R256). -/
def sectionBytes (s : State) (u slice mfas : Nat) : List Byte :=
  let f := s.frm u
  let bei := if f.has 7 then 11 else if hardFail f.defects then 0 else f.beiSm.getD slice 0
  fas ++ be 1 mfas ++ [ttiByte f.set.tti (mfas % 64)] ++ [(f.txSm.getD 1 []).getD slice 0] ++ be 1 (16 * bei + 8 * b2n (s.sendsSmBdi u))

/-- The bytes of a maintenance signal (R258): 1 LCK, 2 OCI, 3 AIS. -/
def maintByte (m : Nat) : Byte := if m = 1 then 0x55 else if m = 2 then 0x66 else 0xFF

/-- The ODUCn overhead of a slice: row 1 columns 11 to 14, and rows 2 to 4. -/
def oduOverhead (s : State) (h slice mfas maint : Nat) : List (List Byte) :=
  let f := s.frm h
  let k := f.set
  let stat := if maint = 1 then 5 else if maint = 2 then 6 else 1
  let bei := if s.pathLost h then 0 else f.beiPm.getD slice 0
  let row1 := be 2 k.gcc0 ++ zeros 2
  let row3 := zeros 9 ++ [ttiByte k.tti (mfas % 64), (f.txPm.getD 1 []).getD slice 0] ++ be 1 (16 * bei + 8 * b2n (s.sendsPmBdi h) + stat) ++ be 2 k.exp
  let row4 := be 2 k.gcc1 ++ be 2 k.gcc2 ++ (if mfas % 8 = 0 then be 4 k.aps else zeros 4) ++ be 4 (linkTag s h) ++ zeros 2
  if maint = 3 then [row1, List.replicate 14 0xFF, List.replicate 14 0xFF, List.replicate 14 0xFF] else [row1, zeros 14, row3, row4]

/-- One slice before encryption; the section bytes are still zero but for FAS and MFAS. -/
def plainSlice (s : State) (h slice mfas omfi maint : Nat) (load : OtuLoad) : List Byte :=
  let oh := oduOverhead s h slice mfas maint
  let jc := jcBytes s h slice omfi
  let pay := fitBytes 15232 (load.payload.getD slice [])
  let opu := fun (r : Nat) => if maint ≠ 0 then List.replicate 3810 (maintByte maint) else
    (if r = 3 then be 1 (psiByte s h slice mfas) ++ be 1 omfi else bytesAt jc (2 * r) 2) ++ bytesAt pay (3808 * r) 3808
  fas ++ be 1 mfas ++ zeros 3 ++ oh.getD 0 [] ++ opu 0 ++ oh.getD 1 [] ++ opu 1 ++ oh.getD 2 [] ++ opu 2 ++ oh.getD 3 [] ++ opu 3

/-- Put the blocks of the security slot in the last slice: block 0, block 1, zeros (R374). -/
def putSecurity (slices : List (List Byte)) (omfi : Nat) (block0 block1 : List Byte) : List (List Byte) :=
  let bs := slotBlocks omfi 19
  slices.zipIdx.map (fun x => if x.2 + 1 ≠ slices.length then x.1 else
    bs.zipIdx.foldl (fun sl b => putBlock sl b.1 (if b.2 = 0 then block0 else if b.2 = 1 then block1 else [])) x.1)

/-- Why the transmit channel of a unit cannot encrypt, as the cause of its squelch (R386, R388). -/
def txKeyFault (s : State) (h : Nat) : Option Nat :=
  let c := s.channel h 0
  match c.slotAt c.epoch with
  | none => some 3
  | some i => if (s.slot i).state ≠ 1 then some 1 else if counterEnd ≤ (s.slot i).counter then some 2 else none

/-- Encrypt a frame under slot E (R373, R386): the cipher slices, with the counter moved on, the tag kept for the next frame, the
warning, and the squelch when the counter is used up. -/
def encryptFrame (h omfi : Nat) (slices : List (List Byte)) (s : State) : List (List Byte) × State :=
  let c := s.channel h 0
  let i := (c.slotAt c.epoch).getD 0
  let k := s.slot i
  let iv := be 6 c.fixed ++ be 6 k.counter
  let block0 := iv ++ be 1 (b2n c.wait.isSome) ++ zeros 3
  let withSec := putSecurity slices omfi block0 ((c.wait.map (fun w => w.tag)).getD [])
  let places := cipherPlaces slices.length omfi
  let text := Config.gcmCrypt k.key iv (cipherText withSec places)
  let tag := Config.gcmTag k.key iv (frameAad withSec block0) text
  let s := modSlot i (fun k => { k with counter := k.counter + 1 }) s
  let s := modChannel h 0 (fun c => { c with wait := some ⟨c.epoch, k.counter, tag⟩ }) s
  let s := nonceWarn h i c.warn (bump pmFramer h 24 1 s)
  (placeText withSec places text, if k.counter + 1 = counterEnd then squelch h 2 s else s)

/-- A unit adds its section bytes, scrambles and interleaves, and hands the frame to its carrier unit, marked with epoch and twin
sequence; while the transmit path does not run, the frame is built and lost (R256, R296). -/
def handOff (v mfas : Nat) (slices : List (List Byte)) (epoch : Bool) (twin : Option Word32) (s : State) : State :=
  let own := slices.zipIdx.map (fun x => sectionBytes s v x.2 mfas ++ x.1.drop 10)
  let bits := byteBits (interleave (own.map scrambleSlice))
  let s := modFramer v (fun f => { f with
    txSm := [own.map bip8, f.txSm.getD 0 []], beiSm := [], txBdi := b2n (s.sendsSmBdi v) + 2 * b2n (s.sendsPmBdi v) }) s
  if !s.txRuns v then s else
  let s := modCu v (fun c => { c with otu := c.otu ++ bits, otuMarks := c.otuMarks ++ [(c.otu.length, epoch, twin)] }) s
  let s := modFramer v (fun f => { f with txCount := f.txCount + 1 }) s
  let (lat, s) := drawNat s
  traceItem (4 + v) 0 0xFFFF 0 ((s.frm v).txCount - 1) (b2n (s.channel v 0).secure) 0xFFFFFFFF lat 0 (bump pmFramer v 16 1 s)

/-- The maintenance signal a frame carries: a squelch sends LCK (R388), else what FRAMER.SET_MAINT selects. -/
def maintOf (s : State) (h : Nat) : Nat :=
  if (s.channel h 0).secure ∧ (s.channel h 0).squelch ≠ 0 then 1 else (s.frm h).maintNow

/-- One OTUCn frame of home unit `h` goes to the units of `dest`, with `n` slices. -/
def sendOtu (h n : Nat) (dest : List Nat) (load : OtuLoad) (s : State) : State :=
  let mfas := (s.frm h).txMfas
  let omfi := (s.frm h).txOmfi
  let s := modFramer h (fun f => { f with maintNow := f.set.maint }) (if mfas = 0 then judgeMsim h (applyAllocs h s) else s)
  let secure := (s.channel h 0).secure
  let s := if secure ∧ (s.channel h 0).squelch = 0 then (match txKeyFault s h with | some c => squelch h c s | none => s) else s
  let squelched := secure && (s.channel h 0).squelch != 0
  let m := maintOf s h
  let plain := (List.range n).map (fun i => plainSlice s h i mfas omfi m load)
  let epoch := (s.channel h 0).epoch == 1
  let (out, s) := if secure ∧ m = 0 then encryptFrame h omfi plain s
    else (plain, modChannel h 0 (fun c => { c with wait := none }) (bump pmFramer h 25 (b2n squelched) s))
  let sec := slotBlocks omfi 19
  let clear := if secure ∧ m = 0 then putSecurity plain omfi ((sliceBlocks (out.getLastD [])).getD (sec.getD 0 0) [])
    ((sliceBlocks (out.getLastD [])).getD (sec.getD 1 0) []) else plain
  let (twin, s) := match s.twinOf h with
    | some g => (some (s.twin g).txSeq, modTwin g (fun t => { t with txSeq := t.txSeq + 1 }) s)
    | none => (none, s)
  let s := modFramer h (fun f => { f with
    txPm := [clear.map bip8, f.txPm.getD 0 []], beiPm := [], txMfas := (mfas + 1) % 256, txOmfi := (omfi + 1) % 20 }) s
  forEach dest (fun v s => handOff v mfas out epoch twin s) s

/-- R245: the frame of a unit, or of the twin group whose home it is. A partner's frames are its home's. The hub builds it whatever the
state of the transmit path (R296). -/
def otucnFrameTx (u : Nat) (load : OtuLoad) (s : State) : State :=
  if s.twinPartner u || !s.trafficRuns then s else
    let units := match s.twinOf u with | some g => [u, (s.twin g).partner] | none => [u]
    let dest := units.filter (fun v => (s.cu v).nativeTx.isSome)
    match dest.head?.bind (fun v => (s.cu v).nativeTx) with
    | some f => sendOtu u f.otucN dest load s
    | none => s
def execOtucnFrameTx (u : Fin 4) (load : OtuLoad) (s : State) : Result := .next (otucnFrameTx u load s)

/-! Receiving. -/

/-- One run of a persistence count, stopping at 16. -/
def stepRun (t : Tbl Nat) (k : Nat) (on : Bool) : Tbl Nat := tblSet 0 t k (if on then min 16 (tblGet 0 t k + 1) else 0)

/-- A defect is masked (R255, R257). -/
def State.masks (s : State) (u bit : Nat) : Bool := if pathBits.testBit bit then s.pathLost u else hardFail (s.frm u).defects

/-- A defect's condition in one frame (R255); masked, it is not evaluated. -/
def runDefect (u bit : Nat) (on : Bool) (s : State) : State :=
  if s.masks u bit then s else modFramer u (fun f => { f with runs := stepRun (stepRun f.runs (2 * bit) on) (2 * bit + 1) (!on) }) s

/-- A value arrives: its run goes on or starts. -/
def Run.step (r : Run) (v : Nat) : Run := if r.count ≠ 0 ∧ r.value = v then { r with count := min 16 (r.count + 1) } else ⟨v, 1⟩

/-- The decryption of a received frame of a SECURE channel (R384, R387): the plaintext slices. The tag of a frame arrives in the next
one; where that frame is lost or not checked, no tag of it is checked. -/
def decryptFrame (h omfi : Nat) (epoch : Bool) (slices : List (List Byte)) (s : State) : List (List Byte) × State :=
  let c := s.channel h 1
  let pos := b2n epoch
  let sec := slotBlocks omfi 19
  let bl := sliceBlocks (slices.getLastD [])
  let b0 := bl.getD (sec.getD 0 0) []
  let b1 := bl.getD (sec.getD 1 0) []
  -- the tag of the frame before
  let s := match c.wait with
    | some w =>
      if !bitOf (u8 b0 12) 0 then s
      else if w.tag = b1 then bump pmFramer h 26 1 (modChannel h 1 (fun c => { c with
        tagFailed := false, noKey := false, passed := true, told := false, epoch := w.epoch
        last0 := if w.epoch = 0 then some w.counter else c.last0, last1 := if w.epoch = 0 then c.last1 else some w.counter }) s)
      else bump pmFramer h 27 1 (modChannel h 1 (fun c => { c with tagFailed := true }) s)
    | none => s
  let c := s.channel h 1
  let counter := field b0 6 6
  let seen := if pos = 0 then c.last0 else c.last1
  let key := match c.slotAt pos with
    | some i => if (s.slot i).state = 1 then some (s.slot i).key else none
    | none => none
  match key with
  | none =>
    let s := bump pmFramer h 29 1 (modChannel h 1 (fun c => { c with noKey := true, told := true, wait := none }) s)
    (slices, if c.passed && !c.told then raise 0x0902 h (be 1 1 ++ be 1 4 ++ zeros 2) true s else s)
  | some k =>
    if (match seen with | some l => decide (counter ≤ l) | none => false) then
      (slices, bump pmFramer h 28 1 (modFramer h (fun f => { f with frameFail := 2 ^ 640 - 1 }) (modChannel h 1 (fun c => { c with wait := none, noKey := false }) s)))
    else
      let iv := b0.take 12
      let places := cipherPlaces slices.length omfi
      let text := cipherText slices places
      let tag := Config.gcmTag k iv (frameAad slices b0) text
      (placeText slices places (Config.gcmCrypt k iv text), modChannel h 1 (fun c => { c with wait := some ⟨pos, counter, tag⟩, noKey := false }) s)

/-- The ODUCn path of a received frame, reported on unit `h` (R252, R255, R257, R261, R277): decryption, PM checks, PSI, and the payload
to the demappers. -/
def pathFrame (h mfas : Nat) (epoch : Bool) (slices : List (List Byte)) (errs : List (Nat × Nat)) (s : State) : State :=
  let head := slices.headD []
  let f := s.frm h
  let pm := u8 (cell head 3 12 1) 0
  let stat := pm % 8
  let omfi := u8 (cell head 4 16 1) 0 % 20
  let lost := hardFail f.defects && (s.twinOf h).isNone
  let blocked := lost || f.has 11 || f.has 12 || f.has 13
  let (plain, s) := if (s.channel h 1).secure && !blocked then decryptFrame h omfi epoch slices s
    else (slices, dropTag h s)
  let counts := (s.twinOf h).isSome || !(f.has 0 || f.has 1 || f.has 2)
  let viol := plain.zipIdx.map (fun x =>
    match (f.rxPm)[1]? with
    | some l => violations ((l.getD x.2 0)) ((cell x.1 3 11 1).headD 0)
    | none => 0)
  let s := if !counts then s else
    let s := bump pmFramer h 12 (viol.foldl (· + ·) 0) (bump pmFramer h 11 (viol.filter (· != 0)).length s)
    let s := bump pmFramer h 13 ((plain.map (fun x => u8 (cell x 3 12 1) 0 / 16)).foldl (· + ·) 0) s
    bump pmFramer h 14 (b2n (pm.testBit 3)) s
  let s := modFramer h (fun f => { f with
    beiPm := viol, rxPm := (plain.map bip8) :: f.rxPm.take 1, payload := plain.map slicePayload
    psi := if lost then f.psi else plain.zipIdx.foldl (fun t x =>
      tblMod {} t (x.2 * 256 + mfas) (fun r => r.step (u8 (cell x.1 4 15 1) 0))) f.psi }) s
  let s := runDefect h 14 (pm.testBit 3) (runDefect h 11 (stat == 7) (runDefect h 12 (stat == 5) (runDefect h 13 (stat == 6) s)))
  let s := forEach errs (fun e s => bump pmTrib e.1 6 e.2 s) s
  if lost then s else forEach plain.zipIdx (fun x s => match s.slotNow h (20 * x.2 + omfi) with
    | some t => bump pmTrib t 0 (b2n ([1, 2, 3].flatMap (fun r => cell x.1 r 15 2) != jcBytes s h x.2 omfi)) s
    | none => s) s

/-- SM_TIM of the accepted trail trace under the settings in force (R254). -/
def timDue (f : Framer) : Bool :=
  match f.accTti with
  | none => false
  | some t =>
    let m := f.rxSet.timMode
    ((m == 1 || m == 3) && bytesAt t 0 16 != fitBytes 16 f.rxSet.sapi) || ((m == 2 || m == 3) && bytesAt t 16 16 != fitBytes 16 f.rxSet.dapi)

/-- LTM of the accepted link tag (R253). -/
def ltmDue (f : Framer) : Bool := match f.accTag with | some t => f.rxSet.tagCheck == 1 && t != f.rxSet.expTag | none => false

/-- The trail trace byte of a frame (R254); a multiframe with a frame missing ends the run. -/
def ttiStep (mfas : Nat) (b : Byte) (f : Framer) : Framer :=
  let whole := f.ttiNow.length == mfas % 64
  let now := (if mfas % 64 = 0 then [] else f.ttiNow) ++ [b]
  let run := if whole ∨ (mfas % 64 = 0 ∧ f.ttiNow = []) then f.ttiRun else 0
  if mfas % 64 = 63 ∧ now.length = 64 then
    { f with ttiNow := [], ttiRun := if run ≠ 0 ∧ f.ttiLast = now then min 16 (run + 1) else 1, ttiLast := now }
  else { f with ttiNow := now, ttiRun := run }

/-- C rises to max(12, APS_N + 1) (R259). -/
def apsLimit (f : Framer) : Nat := max 12 (f.apsN + 1)

/-- The APS bytes of a path-level frame (R259). -/
def apsStep (v : Nat) (f : Framer) : Framer :=
  let f := { f with rxAps := v }
  if hardFail f.defects then f else
    let restart := f.apsN ≠ f.rxSet.apsN
    { f with
      apsN := f.rxSet.apsN, aps := if restart then ⟨v, 1⟩ else f.aps.step v
      apsC := if v = f.accAps then 0 else min (max 12 (f.rxSet.apsN + 1)) (f.apsC + 1) }

/-- The section and passed overhead of a frame in frame. -/
def sectionFrame (u mfas : Nat) (slices : List (List Byte)) (s : State) : State :=
  let f := s.frm u
  let head := slices.headD []
  let sm := u8 (cell head 1 10 1) 0
  let viol := slices.zipIdx.map (fun x =>
    match (f.rxSm)[1]? with
    | some l => violations (l.getD x.2 0) ((cell x.1 1 9 1).headD 0)
    | none => 0)
  let bei := slices.map (fun x => u8 (cell x 1 10 1) 0 / 16)
  let s := if f.has 0 || f.has 1 || f.has 2 then s else
    let s := bump pmFramer u 8 (viol.foldl (· + ·) 0) (bump pmFramer u 7 (viol.filter (· != 0)).length s)
    bump pmFramer u 10 (b2n (sm.testBit 3)) (bump pmFramer u 9 ((bei.filter (· != 11)).foldl (· + ·) 0) s)
  let pairs := [u16 (cell head 1 11 2) 0, u16 (cell head 4 1 2) 0, u16 (cell head 4 3 2) 0, u16 (cell head 3 13 2) 0]
  let s := modFramer u (fun f =>
    let f := ttiStep mfas ((cell head 1 8 1).headD 0) { f with
      rxSm := (slices.map bip8) :: f.rxSm.take 1, beiSm := viol
      passed := pairs.zipIdx.foldl (fun t x => tblMod {} t x.2 (fun r => r.step x.1)) f.passed, tag := f.tag.step (u32 (cell head 4 9 4) 0) }
    if mfas % 8 = 0 then apsStep (u32 (cell head 4 5 4) 0) f else f) s
  let s := runDefect u 6 (sm.testBit 3) (runDefect u 7 (sm.testBit 2) (runDefect u 8 (sm / 16 == 11) s))
  let f := s.frm u
  let s := putDefect u 5 (timDue f) (putDefect u 18 (ltmDue f) s)
  if (s.frm u).apsC = 0 then putDefect u 17 false s else s

/-- A frame in frame (R247 to R249): alignment, its start against the one that the ACF overhead announced, section overhead, then the path, or the deskew ring of a twin group (R352). -/
def inFrameOtu (u : Nat) (seen : OtuSeen) (s : State) : State :=
  let c := s.cu u
  let moved := seen.start.isSome && c.rxOhOk && seen.start != c.rxStart
  let head := seen.slices.headD []
  let m := u8 (cell head 1 7 1) 0
  let errored := bytesAt head 1 4 != bytesAt fas 1 4
  let mfas := (s.frm u).mfas
  let s := bump pmFramer u 6 (b2n moved) (bump pmFramer u 2 (b2n errored) (bump pmFramer u 0 1 (bump pmFramer u 3 (b2n (m != mfas)) s)))
  let s := modFramer u (fun f => { f with
    fasBad := if errored then f.fasBad + 1 else 0, mfas := (mfas + 1) % 256, frameFail := 0, rxCount := f.rxCount + 1
    mfasBad := if m = mfas then 0 else f.mfasBad + 1
    mfasRun := if m = (f.lastMfas + 1) % 256 then f.mfasRun + 1 else 0, lastMfas := m }) s
  let s := if hardFail (s.frm u).defects then s else framerGained u s
  let s := sectionFrame u mfas seen.slices s
  let s := modCu u (fun c => { c with rxTwin := c.rxTwin.map (· + 1) }) s
  let s := if (s.twinOf u).isSome then
      modFramer u (fun f => { f with copy := some { seq := c.rxTwin, slices := seen.slices, bad := seen.badCells, epoch := c.rxEpoch, crcOk := c.rxOhOk } }) s
    else pathFrame u mfas c.rxEpoch seen.slices seen.tribErrors s
  let (lat, s) := drawNat s
  traceItem (4 + u) 1 0xFFFF 0 ((s.frm u).rxCount - 1) (b2n (s.channel u 1).secure) 0xFFFFFFFF lat 0 s

/-- Hunting and verifying (R246): three exact FAS a frame apart with MFAS in sequence. A position where a candidate fails is itself one
if its FAS is exact, since the hunt resumes after the candidate (log entry 74). -/
def huntOtu (u : Nat) (seen : OtuSeen) (s : State) : State :=
  let head := seen.slices.headD []
  let m := u8 (cell head 1 7 1) 0
  let exact := head.take 6 == fas
  let f := s.frm u
  let up := fun (k : Nat) => if f.state = 4 then 4 else k
  if f.verify = 0 then
    if exact then modFramer u (fun f => { f with verify := 1, candMfas := m, state := up 2 }) s else s
  else if exact && m == (f.candMfas + 1) % 256 then
    if f.verify + 1 < 3 then modFramer u (fun f => { f with verify := f.verify + 1, candMfas := m }) s
    else if f.state = 4 then modFramer u (fun f => { f with verify := 3, candMfas := m }) s
    else modFramer u (fun f => { f with state := 3, verify := 0, mfas := (m + 1) % 256, lastMfas := m, fasBad := 0 }) (missFrame u s)
  else bump pmFramer u 4 1 (modFramer u (fun f => { f with verify := b2n exact, candMfas := m, state := up (1 + b2n exact) }) s)

/-- A frame period at the held position while in OOF. -/
def heldOtu (u : Nat) (seen : OtuSeen) (s : State) : State :=
  let head := seen.slices.headD []
  let m := u8 (cell head 1 7 1) 0
  let good := bytesAt head 1 4 == bytesAt fas 1 4
  modFramer u (fun f => { f with mfas := (f.mfas + 1) % 256, fasGood := if good && m == f.mfas then f.fasGood + 1 else 0 })
    (missFrame u (bump pmFramer u 2 (b2n !good) s))

/-- R248: a frame period marked invalid. A candidate whose next FAS position it holds fails. -/
def invalidOtu (u : Nat) (s : State) : State :=
  let held := 3 ≤ (s.frm u).state
  let fails := (s.frm u).verify == 1 || (s.frm u).verify == 2
  let s := bump pmFramer u 4 (b2n fails) (bump pmFramer u 1 1 (if held then bump pmFramer u 2 1 s else s))
  let s := modFramer u (fun f => { f with
    state := if f.state = 2 then 1 else f.state, verify := 0
    fasBad := if held then f.fasBad + 1 else f.fasBad, fasGood := 0, mfas := if held then (f.mfas + 1) % 256 else f.mfas }) (missFrame u s)
  putDefect u 0 true s

/-- A valid frame period. With a new n the framer starts a new hunt (R250). -/
def validOtu (u n : Nat) (seen : OtuSeen) (s : State) : State :=
  let s := putDefect u 0 false s
  let s := if (s.frm u).n = n then s else
    modFramer u (fun f => { f with n := n, verify := 0, fasGood := 0, state := if f.state = 3 ∨ f.state = 2 then 1 else f.state }) (missFrame u s)
  match (s.frm u).state with
  | 3 => inFrameOtu u seen s
  | 4 => if seen.elsewhere then huntOtu u seen s else heldOtu u seen s
  | _ => huntOtu u seen s

/-- The receive settings apply at a frame boundary (R266). -/
def rxSettings (u : Nat) (s : State) : State := modFramer u (fun f => { f with rxSet := f.set }) s

/-- R246: one OTUCn frame period reaches the framer; in LINE_MODE 1 and 2 only SSF is judged (R267). -/
def otucnFrameRx (u : Nat) (seen : OtuSeen) (s : State) : State :=
  let c := s.cu u
  match c.fmtRx with
  | none => s
  | some f =>
    if !(s.trafficRuns && c.rxEn) then s
    else if f.lineMode ≠ 0 then putDefect u 0 (!seen.valid || c.acq != 7) s
    else if !seen.valid || c.acq != 7 || !c.rxValid then invalidOtu u (rxSettings u s)
    else validOtu u f.otucN seen (rxSettings u s)
def execOtucnFrameRx (u : Fin 4) (f : OtuSeen) (s : State) : Result := .next (otucnFrameRx u f s)

/-! Alignment defects (R246, R247). -/

def oofDeclared (u : Nat) (s : State) : State :=
  let f := s.frm u
  when (s.hubUp && f.state == 3 && decide (5 ≤ f.fasBad)) (fun s =>
    putDefect u 1 true (bump pmFramer u 5 1 (modFramer u (fun f => { f with state := 4, fasGood := 0, verify := 0 }) (missFrame u s)))) s
def execOofDeclared (u : Fin 4) (s : State) : Result := .next (oofDeclared u s)

def oofCleared (u : Nat) (s : State) : State :=
  let f := s.frm u
  when (s.hubUp && f.state == 4 && (decide (2 ≤ f.fasGood) || decide (3 ≤ f.verify))) (fun s =>
    putDefect u 1 false (modFramer u (fun f => { f with
      state := 3, fasBad := 0, mfas := if 3 ≤ f.verify then (f.candMfas + 1) % 256 else f.mfas, verify := 0 }) s)) s
def execOofCleared (u : Fin 4) (s : State) : Result := .next (oofCleared u s)

def lofDeclared (u : Nat) (s : State) : State := when (s.hubUp && (s.frm u).has 1) (putDefect u 2 true) s
def execLofDeclared (u : Fin 4) (s : State) : Result := .next (lofDeclared u s)

def lofCleared (u : Nat) (s : State) : State := when (s.hubUp && (s.frm u).has 2 && (s.frm u).state == 3) (putDefect u 2 false) s
def execLofCleared (u : Fin 4) (s : State) : Result := .next (lofCleared u s)

def oomDeclared (u : Nat) (s : State) : State :=
  let f := s.frm u
  when (s.hubUp && f.state == 3 && decide (5 ≤ f.mfasBad)) (putDefect u 3 true) s
def execOomDeclared (u : Fin 4) (s : State) : Result := .next (oomDeclared u s)

/-- The framer takes the received count: the multiframe in progress is not whole. -/
def oomCleared (u : Nat) (s : State) : State :=
  let f := s.frm u
  when (s.hubUp && f.has 3 && decide (1 ≤ f.mfasRun)) (fun s =>
    putDefect u 3 false (modFramer u (fun f => { f with
      mfas := (f.lastMfas + 1) % 256, mfasBad := 0, ttiNow := [], ttiRun := 0, psi := if s.twinHome u then f.psi else [] }) s)) s
def execOomCleared (u : Fin 4) (s : State) : Result := .next (oomCleared u s)

def lomDeclared (u : Nat) (s : State) : State := when (s.hubUp && (s.frm u).has 3) (putDefect u 4 true) s
def execLomDeclared (u : Fin 4) (s : State) : Result := .next (lomDeclared u s)

def lomCleared (u : Nat) (s : State) : State := when (s.hubUp && (s.frm u).has 4 && !(s.frm u).has 3) (putDefect u 4 false) s
def execLomCleared (u : Fin 4) (s : State) : Result := .next (lomCleared u s)

/-! Persistence and acceptance. -/

/-- The frames a defect's condition must last (R255). -/
def persistence (bit : Nat) : Nat := if bit = 6 ∨ bit = 7 ∨ bit = 14 then 5 else 3

/-- The defects judged by persistence. -/
def persistent (bit : Nat) : Bool := [6, 7, 8, 11, 12, 13, 14].contains bit

/-- R255: a set or a clear run is complete. -/
def defectPersistence (u bit : Nat) (s : State) : State :=
  let f := s.frm u
  let on := f.has bit
  when (s.hubUp && persistent bit && decide (persistence bit ≤ tblGet 0 f.runs (2 * bit + b2n on))) (putDefect u bit !on) s
def execDefectPersistence (u : Fin 4) (bit : Fin 19) (s : State) : Result := .next (defectPersistence u bit s)

/-- R259. -/
def apsAccept (u : Nat) (s : State) : State :=
  let f := s.frm u
  when (s.hubUp && !hardFail f.defects && decide (f.apsN ≤ f.aps.count) && f.aps.value != f.accAps) (fun s =>
    let s := modFramer u (fun f => { f with accAps := f.aps.value, apsC := 0 }) s
    putDefect u 17 false (raise 0x0502 u (be 4 f.aps.value) true (bump pmFramer u 15 1 s))) s
def execApsAccept (u : Fin 4) (s : State) : Result := .next (apsAccept u s)

def apsInconsistent (u : Nat) (s : State) : State :=
  when (s.hubUp && decide (apsLimit (s.frm u) ≤ (s.frm u).apsC)) (putDefect u 17 true) s
def execApsInconsistent (u : Fin 4) (s : State) : Result := .next (apsInconsistent u s)

/-- R254. -/
def ttiAccept (u : Nat) (s : State) : State :=
  let f := s.frm u
  when (s.hubUp && decide (3 ≤ f.ttiRun) && f.accTti != some f.ttiLast) (fun s =>
    let s := raise 0x0503 u [] false (modFramer u (fun f => { f with accTti := some f.ttiLast }) s)
    putDefect u 5 (timDue (s.frm u)) s) s
def execTtiAccept (u : Fin 4) (s : State) : Result := .next (ttiAccept u s)

/-- The MSI entries of a slice's 20 slots whose two bytes have each arrived in three multiframes. -/
def acceptMsi (f : Framer) (t : Tbl Nat) (slot : Nat) : Tbl Nat :=
  let k := slot / 20 * 256 + 2 + 2 * (slot % 20)
  let a := tblGet {} f.psi k
  let b := tblGet {} f.psi (k + 1)
  if 3 ≤ a.count ∧ 3 ≤ b.count then tblSet 0 t slot (a.value * 256 + b.value + 1) else t

/-- R261: payload type and MSI entries. -/
def psiAccept (u : Nat) (s : State) : State :=
  when (s.hubUp && !s.pathLost u) (fun s =>
    let s := modFramer u (fun f =>
      let pt := tblGet {} f.psi 0
      { f with accPt := if 3 ≤ pt.count then some pt.value else f.accPt
               accMsi := (List.range (20 * f.n)).foldl (acceptMsi f) f.accMsi }) s
    judgeMsim u (putDefect u 15 (match (s.frm u).accPt with | some p => p != 0x22 | none => false) s)) s
def execPsiAccept (u : Fin 4) (s : State) : Result := .next (psiAccept u s)

/-- R251. -/
def passedBytesAccept (u : Nat) (s : State) : State :=
  when s.hubUp (modFramer u (fun f => { f with accPassed := [0, 1, 2, 3].foldl (fun t i =>
    let r := tblGet {} f.passed i
    if 3 ≤ r.count then tblSet 0 t i r.value else t) f.accPassed })) s
def execPassedBytesAccept (u : Fin 4) (s : State) : Result := .next (passedBytesAccept u s)

/-- R253. -/
def linkTagAccept (u : Nat) (s : State) : State :=
  when (s.hubUp && decide (3 ≤ (s.frm u).tag.count)) (fun s =>
    let s := modFramer u (fun f => { f with accTag := some f.tag.value }) s
    putDefect u 18 (ltmDue (s.frm u)) s) s
def execLinkTagAccept (u : Fin 4) (s : State) : Result := .next (linkTagAccept u s)

/-- R268: the gathering period ends; changes gathered are raised and the next period is judged in the same way. -/
def defectEventGather (u : Nat) (s : State) : State :=
  match (s.frm u).gather with
  | none => s
  | some 0 => modFramer u (fun f => { f with gather := none }) s
  | some m => raise 0x0501 u (be 4 (s.frm u).defects ++ be 4 m) (m &&& urgentBits != 0) (modFramer u (fun f => { f with gather := some 0 }) s)
def execDefectEventGather (u : Fin 4) (s : State) : Result := .next (when s.hubUp (defectEventGather u) s)

/-! The second boundary. -/

/-- Runs of bad and good seconds after one more; `none` is a second that breaks both. -/
def degradeRuns (bad good : Nat) : Option Bool → Nat × Nat
  | some true => (min 10 (bad + 1), 0)
  | some false => (0, min 10 (good + 1))
  | none => (0, 0)

/-- SM_DEG of the second that ended (R262). -/
def judgeDegrade (u : Nat) (s : State) : State :=
  let f := s.frm u
  if f.deg.thr = 0 ∨ f.failNow then s
  else
    let r := degradeRuns f.degBad f.degGood (some (decide (f.deg.thr ≤ s.latched pmFramer u 7)))
    let s := modFramer u (fun f => { f with degBad := r.1, degGood := r.2 }) s
    if f.deg.degM ≤ r.1 then putDefect u 9 true s else if f.deg.degM ≤ r.2 then putDefect u 9 false s else s

/-- A second's corrected ratio, as corrected and coded bits, against the thresholds of PRE_DEG: bad, good or neither (R263). -/
def preDegradeSecond (d : Degrade) (corr coded : Nat) : Option Bool :=
  if d.preSet * coded < corr * 10 ^ 9 then some true else if corr * 10 ^ 9 ≤ d.preClr * coded then some false else none

/-- PRE_DEG (R263). -/
def judgePreDegrade (u : Nat) (s : State) : State :=
  let f := s.frm u
  if f.deg.preSet = 0 ∨ f.lostTrack then s
  else
    let r := degradeRuns f.preBad f.preGood (preDegradeSecond f.deg (s.latched pmCu u 9) (s.latched pmCu u 8))
    let s := modFramer u (fun f => { f with preBad := r.1, preGood := r.2 }) s
    if f.deg.preM ≤ r.1 then putDefect u 10 true s else if f.deg.preM ≤ r.2 then putDefect u 10 false s else s

/-- A threshold of 0 disables its defect and clears it (R262, R263). -/
def degradeOff (u : Nat) (s : State) : State :=
  let s := if (s.frm u).deg.thr = 0 then putDefect u 9 false (modFramer u (fun f => { f with degBad := 0, degGood := 0 }) s) else s
  if (s.frm u).deg.preSet = 0 then putDefect u 10 false (modFramer u (fun f => { f with preBad := 0, preGood := 0 }) s) else s

/-- A framer at a second boundary: the second that ended is judged, then a waiting degrade setting takes effect (R264, log entry 74). In
LINE_MODE 1 and 2 only PRE_DEG is. -/
def framerBoundary (u : Nat) (s : State) : State :=
  let native := match (s.cu u).fmt with | some f => f.lineMode == 0 | none => true
  let s := judgePreDegrade u (if native then judgeDegrade u s else s)
  degradeOff u <| modFramer u (fun f =>
    let f := { f with failNow := hardFail f.defects, lostTrack := (s.cu u).acq != 7 }
    match f.degNext with
    | none => f
    | some d => { f with
        deg := d, degNext := none
        degBad := if f.deg.thr = d.thr ∧ f.deg.degM = d.degM then f.degBad else 0, degGood := if f.deg.thr = d.thr ∧ f.deg.degM = d.degM then f.degGood else 0
        preBad := if f.deg.preSet = d.preSet ∧ f.deg.preClr = d.preClr ∧ f.deg.preM = d.preM then f.preBad else 0
        preGood := if f.deg.preSet = d.preSet ∧ f.deg.preClr = d.preClr ∧ f.deg.preM = d.preM then f.preGood else 0 }) s

/-- EV_SEC_AUTH_FAIL at a boundary (R387). -/
def authBoundary (u : Nat) (s : State) : State :=
  let n := s.latched pmFramer u 27
  let s := if n ≠ 0 ∧ !(s.channel u 1).authPrev then raise 0x0905 u (be 4 (min n 0xFFFFFFFF)) false s else s
  modChannel u 1 (fun c => { c with authPrev := n != 0 }) s

/-! FRAMER commands. -/

/-- ST_STATE for a unit with no format or in LINE_MODE 1 or 2 (R266). -/
def State.native (s : State) (u : Nat) : Bool := match (s.cu u).fmt with | some f => f.lineMode == 0 | none => false

/-- R254, R267. -/
def framerSetTti (q : Request) (s : State) : Reply :=
  checked [unitBelow q 4, inByte q 96 0 3, inByte q 97 0 1, resv q 98 2] s <|
  require [(s.native q.u, .state)] s <|
    .okay (modFramer q.u (fun f => { f with set := { f.set with
      tti := bytesAt q.payload 0 64, sapi := bytesAt q.payload 64 16, dapi := bytesAt q.payload 80 16, timMode := q.b 96, timAct := q.b 97 } }) s)

/-- R264, R267. -/
def framerSetDegrade (q : Request) (s : State) : Reply :=
  checked [unitBelow q 4, inByte q 4 2 10, inByte q 5 2 10, resv q 6 2, inWord q 8 0 500000000, (decide (q.w 12 ≤ q.w 8), 12)] s <|
    .okay (modFramer q.u (fun f => { f with degNext := some ⟨q.w 0, q.b 4, q.b 5, q.w 8, q.w 12⟩ }) s)

/-- R260, R267. -/
def framerSetAps (q : Request) (s : State) : Reply :=
  checked [unitBelow q 4, (q.b 4 == 0 || decide (2 ≤ q.b 4 ∧ q.b 4 ≤ 15), 4), resv q 5 3] s <|
  require [(s.native q.u, .state)] s <|
    .okay (modFramer q.u (fun f => { f with set := { f.set with aps := q.w 0, apsN := if q.b 4 = 0 then f.set.apsN else q.b 4 } }) s)

/-- R267. -/
def framerSetOverhead (q : Request) (s : State) : Reply :=
  checked [unitBelow q 4, inByte q 10 0 1, resv q 11 1] s <|
  require [(s.native q.u, .state)] s <|
    .okay (modFramer q.u (fun f => { f with set := { f.set with
      gcc0 := q.h 0, gcc1 := q.h 2, gcc2 := q.h 4, exp := q.h 6, linkId := q.h 8, tagCheck := q.b 10, expTag := q.w 12 } }) s)

/-- R258. -/
def framerSetMaint (q : Request) (s : State) : Reply :=
  checked [unitBelow q 4, inByte q 0 0 3, resv q 1 3] s <|
  require [(s.native q.u, .state)] s <|
    .okay (modFramer q.u (fun f => { f with set := { f.set with maint := q.b 0 } }) s)

/-- STATE of R267. -/
def State.framerState (s : State) (u : Nat) : Nat :=
  if (s.cu u).rxEn && (s.cu u).nativeRx.isSome && s.trafficRuns then (s.frm u).state else 0

/-- R267. -/
def framerGetStatus (q : Request) (s : State) : Reply :=
  let u := q.u
  let f := s.frm u
  let native := s.native u
  checked [unitBelow q 4] s <|
    .okWith (be 1 (if native then s.framerState u else 0) ++ be 1 (if native then (match (s.cu u).nativeRx.orElse (fun _ => (s.cu u).nativeTx) with | some k => k.otucN | none => 0) else 0) ++
      zeros 2 ++ be 4 (if native then f.defects else f.defects &&& 0x401) ++ be 1 (if s.txRuns u then f.txBdi else 0) ++
      be 1 f.maintNow ++ be 1 f.apsC ++ zeros 1 ++ be 4 f.accAps ++ be 4 f.rxAps ++ be 4 (f.accTag.getD 0) ++ be 1 (f.accPt.getD 0) ++ zeros 3 ++
      be 1 f.degBad ++ be 1 f.degGood ++ be 1 f.preBad ++ be 1 f.preGood) s

/-- R267. -/
def framerGetOverhead (q : Request) (s : State) : Reply :=
  let f := s.frm q.u
  let n := match (s.cu q.u).fmt with | some k => k.otucN | none => 0
  checked [unitBelow q 4] s <|
  require [(s.native q.u, .state)] s <|
    .okWith (fitBytes 64 (f.accTti.getD []) ++ [0, 1, 2, 3].flatMap (fun i => be 2 (tblGet 0 f.accPassed i)) ++
      (List.range 80).flatMap (fun i => be 1 (maskOf 8 (fun b => decide (8 * i + b < 20 * n) && s.msiDiffers q.u (8 * i + b))))) s

/-- R265. -/
def framerGetCounts (q : Request) (s : State) : Reply :=
  checked [unitBelow q 4] s <|
  require [(s.native q.u, .state)] s <| .okWith (countsReply s pmFramer q.u 0 17) s

def execFramerSetTti (q : Request) (s : State) : Result := .next (takeRequest 0x0501 q framerSetTti s)
def execFramerSetDegrade (q : Request) (s : State) : Result := .next (takeRequest 0x0502 q framerSetDegrade s)
def execFramerSetAps (q : Request) (s : State) : Result := .next (takeRequest 0x0503 q framerSetAps s)
def execFramerSetOverhead (q : Request) (s : State) : Result := .next (takeRequest 0x0504 q framerSetOverhead s)
def execFramerSetMaint (q : Request) (s : State) : Result := .next (takeRequest 0x0505 q framerSetMaint s)
def execFramerGetStatus (q : Request) (s : State) : Result := .next (takeRequest 0x0506 q framerGetStatus s)
def execFramerGetOverhead (q : Request) (s : State) : Result := .next (takeRequest 0x0507 q framerGetOverhead s)
def execFramerGetCounts (q : Request) (s : State) : Result := .next (takeRequest 0x0508 q framerGetCounts s)

end Sys2Proof.Machine
end

