-- ==== Sys2Proof/Machine/MemoryOps.lean ====
section
/-! DEFINITION. The DRAM stacks as the scheduler, the twin engine and the memory's own commands use them (R318 to R342): allocation,
reads and writes with the symbol code's outcomes, the clamp, the bucket and the log. -/

namespace Sys2Proof.Machine

def modMemory (f : Memory → Memory) (s : State) : State := { s with memory := f s.memory }
def modStack (k : Nat) (f : Stack → Stack) (s : State) : State := modMemory (fun m => { m with dramStacks := tblMod {} m.dramStacks k f }) s

/-- The canonical form of a stack's words and of its poison, and of the four stacks: rising word addresses, no entry equal to what a
word that is not listed reads as. -/
def Stack.wf (x : Stack) : Bool := tblWf 0 x.words && tblWf false x.poison
def Memory.wf (m : Memory) : Bool := tblWf {} m.dramStacks && m.dramStacks.all (fun e => e.2.wf)

/-! The layout (R318, R319). -/

/-- Cells of a stack, the first link word, the first spare, words of a stack. -/
def stackCells : Nat := 31457280
def linkBase : Nat := 0x1E000000
def reservedBase : Nat := 0x1FE00000
def spareBase : Nat := 0x1FFFFFF0
def stackWords : Nat := 0x20000000

/-- A cell pointer: the stack in bits [1:0], the cell above. -/
def pointer (k cell : Nat) : Nat := cell * 4 + k
/-- The null pointer. -/
def nullPointer : Nat := 0x7FFFFFF

/-- The link word of a cell pointer, and word `j` of its cell. -/
def linkWord (p : Nat) : Nat := linkBase + p / 4
def cellWord (p j : Nat) : Nat := 16 * (p / 4) + j

/-- The spare that serves a word. -/
def Stack.spareOf (x : Stack) (w : Nat) : Option Nat := (x.shim.find? (fun e => e.2 == w + 1)).map (fun e => e.1)

/-- The word that an access reaches, through the shim table (R337). -/
def Stack.place (x : Stack) (w : Nat) : Nat :=
  match x.spareOf w with
  | some i => spareBase + i
  | none => w

/-- A word's data and its 16 bytes, byte 0 the least significant (log entry 76). -/
def wordOf (b : List Byte) : BitVec 128 := BitVec.ofNat 128 (beNat (fitBytes 16 b).reverse)
def wordBytes (v : BitVec 128) : List Byte := (be 16 v.toNat).reverse

/-- The data an access to a word finds. -/
def Stack.wordAt (x : Stack) (w : Nat) : BitVec 128 := tblGet 0 x.words (x.place w)

/-- The data of a poison word (R326). -/
def poisonData : BitVec 128 := wordOf (List.replicate 16 0xA5)

/-- Spares free to take a word: neither in use nor retired (R337). -/
def Stack.freeSpares (x : Stack) : List Nat := (List.range 16).filter (fun i => tblGet 0 x.shim i == 0 && !x.retired.contains i)

/-- The word's cell is allocated: its own cell or, of a link word, the cell it links (R344). -/
def Stack.wordLive (x : Stack) (w : Nat) : Bool :=
  let w := if spareBase ≤ w then tblGet 0 x.shim (w - spareBase) - 1 else w
  if w < linkBase then tblGet false x.alloc (w / 16) else decide (w < reservedBase) && tblGet false x.alloc (w - linkBase)

/-! The log and the bucket (R334, R342). -/

/-- FLAGS of a log entry. Which cells a deskew reservation takes is not stated, so whether a word that no frame's cell holds lies in one
is free (log entry 25). -/
def logFlags (k w : Nat) (s : State) : Nat × State :=
  let x := s.stack k
  let region := 2 * b2n (decide (linkBase ≤ w ∧ w < reservedBase)) + 4 * b2n (decide (spareBase ≤ w))
  if x.wordLive w then (1 + region, s)
  else if x.deskew ≠ 0 ∧ w < linkBase then let (n, s) := drawBelow 2 s; (n + region, s)
  else (region, s)

/-- Write a log entry; the ring keeps the last 256. -/
def memLog (k kind w : Nat) (s : State) : State :=
  let (fl, s) := logFlags k w s
  modStack k (fun x => { x with
    log := (x.log ++ [MemLog.mk x.logSeq s.timing.tod kind fl w]).drop (x.log.length + 1 - 256), logSeq := x.logSeq + 1 }) s

/-- The bucket has reached THRESH: EV_MEM_CE_RATE and the bucket at 0 (R334). -/
def ceRate (k : Nat) (s : State) : State :=
  let x := s.stack k
  if x.thresh ≤ x.bucket then raise 0x0801 k (be 2 x.thresh ++ zeros 2) false (modStack k (fun x => { x with bucket := 0 }) s) else s

/-- A word was corrected: it counts, and in the bucket. -/
def corrected (k : Nat) (s : State) : State := ceRate k (modStack k (fun x => { x with bucket := x.bucket + 1 }) (bump pmStack k 2 1 s))

/-! Writes. A failed stack discards them (R341). -/

/-- Words of good data are written from a word on. -/
def writeWords (k w : Nat) (ws : List (BitVec 128)) (s : State) : State :=
  let x := s.stack k
  if x.failed then s
  else bump pmStack k 1 ws.length (modStack k (fun x => { x with
    words := ws.zipIdx.foldl (fun t v => tblSet 0 t (x.place (w + v.2)) v.1) x.words
    poison := (List.range ws.length).foldl (fun t j => tblErase t (x.place (w + j))) x.poison }) s)

/-- A word is written with poison; PM_MEM_POISON_WRITTEN counts it. -/
def writePoison (k w : Nat) (s : State) : State :=
  let x := s.stack k
  if x.failed then s
  else bump pmStack k 4 1 (bump pmStack k 1 1 (modStack k (fun x => { x with
    words := tblSet 0 x.words (x.place w) poisonData, poison := tblSet false x.poison (x.place w) true }) s))

/-! Reads (R325). -/

/-- What a read of a word finds: uncorrectable in a failed stack (R341), else what the array shows, else what was stored. -/
def Stack.finds (x : Stack) (w : Nat) (odd : Option WordSeen) : WordSeen :=
  if x.failed then .uncorrectable
  else odd.getD (if tblGet false x.poison (x.place w) then .poison else .clean)

/-- The word yields data. -/
def WordSeen.good : WordSeen → Bool
  | .clean => true | .corrected => true | _ => false

/-- Read a word: the read and a correction count. -/
def readWord (k w : Nat) (odd : Option WordSeen) (s : State) : WordSeen × State :=
  let f := (s.stack k).finds w odd
  (f, (if f = .corrected then corrected k else id) (bump pmStack k 0 1 s))

/-- Poison or an uncorrectable word is consumed (R335). -/
def consumed (k : Nat) (s : State) : State := bump pmStack k 5 1 (modSill (Sill.mark .mem) s)

/-- What the outside says of a word. -/
def oddAt (odd : List OddWord) (k w : Nat) : Option WordSeen := (odd.find? (fun o => o.stack == k && o.word == w)).map (fun o => o.seen)

/-! The clamp (R329, R330). -/

/-- The bytes of an entry under a mask, a later byte replacing an earlier one. -/
def mergeBytes (old new : List Byte) (mask : Nat) : List Byte :=
  (List.range 16).map (fun i => if mask.testBit i then new.getD i 0 else old.getD i 0)

/-- Flush one entry, already taken out of the clamp. -/
def flushEntry (k : Nat) (e : ClampEntry) (odd : Option WordSeen) (s : State) : State :=
  if e.mask = 0xFFFF then bump pmStack k 7 1 (writeWords k e.word [wordOf e.bytes] s)
  else
    let (f, s) := readWord k e.word odd s
    let old := wordBytes ((s.stack k).wordAt e.word)
    if f.good then bump pmStack k 8 1 (writeWords k e.word [wordOf (mergeBytes old e.bytes e.mask)] s)
    else memLog k 4 e.word (consumed k (bump pmStack k 9 1 (writePoison k e.word s)))

/-- Flush the entry for a word, if there is one. -/
def flushWord (k w : Nat) (odd : Option WordSeen) (s : State) : State :=
  match (s.stack k).clamp.find? (fun e => e.word == w) with
  | none => s
  | some e => flushEntry k e odd (modStack k (fun x => { x with clamp := x.clamp.filter (fun e => e.word != w) }) s)

/-- Flush the oldest entry. -/
def flushOldest (k : Nat) (odd : Option WordSeen) (s : State) : State :=
  match (s.stack k).clamp with
  | [] => s
  | e :: r => flushEntry k e odd (modStack k (fun x => { x with clamp := r }) s)

/-- Flush every entry, oldest first. -/
def flushClamp (k : Nat) (odd : List OddWord) (s : State) : State :=
  forEach ((s.stack k).clamp.map (fun e => e.word)) (fun w s => flushWord k w (oddAt odd k w) s) s

/-- An entry takes the bytes of one more write. -/
def ClampEntry.add (mask : Nat) (bytes : List Byte) (e : ClampEntry) : ClampEntry :=
  { e with mask := e.mask ||| mask, bytes := mergeBytes e.bytes bytes mask }

/-- A write narrower than a word. A full mask is flushed at once. -/
def clampWrite (k w mask : Nat) (bytes : List Byte) (odd : List OddWord) (s : State) : State :=
  let s := match (s.stack k).clamp.find? (fun e => e.word == w) with
    | some _ => modStack k (fun x => { x with clamp := x.clamp.map (fun (e : ClampEntry) => if e.word = w then e.add mask bytes else e) }) s
    | none =>
      let s := if 32 ≤ (s.stack k).clamp.length then flushOldest k (((s.stack k).clamp.head?).bind (fun e => oddAt odd k e.word)) s else s
      modStack k (fun x => { x with clamp := x.clamp ++ [ClampEntry.mk w mask bytes] }) s
  match (s.stack k).clamp.find? (fun e => e.word == w) with
  | some e => if e.mask = 0xFFFF then flushWord k w none s else s
  | none => s

/-- NEXT and the OWNER bits of its lowest byte: bytes 12 to 15 of a link word (R320). -/
def nextBytes (next owner : Nat) : List Byte := zeros 12 ++ (be 4 (next * 32 + owner / 8192)).reverse

/-- A demand read: an entry of the clamp for its word is flushed first, and poison or an uncorrectable word is consumed. -/
def demandRead (k w : Nat) (odd : List OddWord) (s : State) : Bool × State :=
  let held := (s.stack k).clamp.any (fun e => e.word == w)
  let s := flushWord k w (oddAt odd k w) s
  let (f, s) := readWord k w (if held then none else oddAt odd k w) s
  if f.good then (true, s)
  else
    let s := consumed k s
    (false, match f with
      | .uncorrectable => memLog k 5 w (bump pmStack k 3 1 s)
      | .mimic => memLog k 6 w (bump pmStack k 6 1 s)
      | _ => memLog k 6 w s)

/-! Cells (R321, R322). -/

/-- Free allocatable cells of a stack. -/
def Stack.freeCells (x : Stack) : Nat := stackCells - x.alloc.length - x.deskew

/-- The allocator may use the stack. -/
def Stack.allocates (x : Stack) : Bool := !x.retraining && !x.failed

/-- The `n`-th cell that the map does not mark. -/
def nthFree : Tbl Bool → Nat → Nat
  | [], n => n
  | (c, _) :: r, n => if c ≤ n then nthFree r (n + 1) else n

/-- The next stack in rotation from `from_` that may give a cell. -/
def State.turnStack (s : State) (from_ : Nat) : Option Nat :=
  [0, 1, 2, 3].map (fun i => (from_ + i) % 4) |>.find? (fun k => (s.stack k).allocates && decide (0 < (s.stack k).freeCells))

/-- Free cells that the allocator can reach. -/
def State.poolCells (s : State) : Nat := ([0, 1, 2, 3].map (fun k => if (s.stack k).allocates then (s.stack k).freeCells else 0)).foldl (· + ·) 0

/-- Take one cell: which of a stack's free cells is not stated, and is free (log entry 25). -/
def takeCell (s : State) : Option (Nat × State) :=
  match s.turnStack s.memory.next with
  | none => none
  | some k =>
    let (n, s) := drawBelow (s.stack k).freeCells s
    let c := nthFree (s.stack k).alloc n
    some (pointer k c, bump pmStack k 15 1 (modMemory (fun m => { m with next := (k + 1) % 4 })
      (modStack k (fun x => { x with alloc := tblSet false x.alloc c true }) s)))

/-- Take `n` cells. -/
def takeCells : Nat → State → List Nat × State
  | 0, s => ([], s)
  | n + 1, s => match takeCell s with
    | none => ([], s)
    | some (p, s) => let (r, s) := takeCells n s; (p :: r, s)

/-- Free a cell. -/
def freeCell (p : Nat) (s : State) : State :=
  let k := p % 4
  if tblGet false (s.stack k).alloc (p / 4) then
    bump pmStack k 16 1 (modStack k (fun x => { x with alloc := tblErase x.alloc (p / 4) }) s)
  else s

/-- Cells of a frame of `n` bytes, and the bytes that its cell `j` holds. -/
def cellsFor (n : Nat) : Nat := (n + 255) / 256
def cellFill (n j : Nat) : Nat := min 256 (n - 256 * j)

/-- A cell is written, with its trace (R449). -/
def traceCell (k owner p : Nat) (s : State) : State :=
  let n := (s.stack k).cellCount
  let (lat, s) := drawNat s
  traceItem 21 0 k 0 n owner p lat 0 (modStack k (fun x => { x with cellCount := x.cellCount + 1 }) s)

/-- A link word: NEXT, OWNER, FIRST, LAST, FILL and, in the first cell of a frame of `len` bytes, FLEN and ENQ in ticks (R320). -/
def linkValue (owner len enq : Nat) (cells : List Nat) (j : Nat) : BitVec 128 :=
  BitVec.ofNat 128 (cells.getD (j + 1) nullPointer * 2 ^ 101 + owner * 2 ^ 83 + b2n (j == 0) * 2 ^ 82 + b2n (j + 1 == cells.length) * 2 ^ 81 +
    (cellFill len j - 1) * 2 ^ 73 + (if j = 0 then len * 2 ^ 59 + enq % 2 ^ 48 * 2 ^ 11 else 0))

/-- Write the cells of a frame and their link words, each word whole (R321). -/
def writeFrame (owner enq : Nat) (data : List Byte) (cells : List Nat) (s : State) : State :=
  forEach cells.zipIdx (fun x s =>
    let k := x.1 % 4
    let n := cellFill data.length x.2
    let s := writeWords k (cellWord x.1 0) ((List.range ((n + 15) / 16)).map (fun j => wordOf (bytesAt data (256 * x.2 + 16 * j) (min 16 (n - 16 * j))))) s
    traceCell k owner x.1 (writeWords k (linkWord x.1) [linkValue owner data.length enq cells x.2] s)) s

/-- The bytes of a frame as its cells hold them. -/
def State.frameData (s : State) (len : Nat) (cells : List Nat) : List Byte :=
  cells.zipIdx.flatMap (fun x =>
    let n := cellFill len x.2
    ((List.range ((n + 15) / 16)).flatMap (fun j => wordBytes ((s.stack (x.1 % 4)).wordAt (cellWord x.1 j)))).take n)

/-- Read one cell of a frame: the link word, then its words. What was found bad first: 0 nothing, 1 the link word, 2 a cell word. -/
def readCell (p fill : Nat) (odd : List OddWord) (s : State) : Nat × State :=
  let (ok, s) := demandRead (p % 4) (linkWord p) odd s
  if !ok then (1, s)
  else (List.range ((fill + 15) / 16)).foldl (fun (acc : Nat × State) j =>
    if acc.1 ≠ 0 then acc else
      let (ok, s) := demandRead (p % 4) (cellWord p j) odd acc.2
      (if ok then 0 else 2, s)) (0, s)

/-- Read a frame to send it, cell by cell until something is bad: what, and in which cell. -/
def readFrame (len : Nat) (cells : List Nat) (odd : List OddWord) (s : State) : Nat × Nat × State :=
  cells.zipIdx.foldl (fun (acc : Nat × Nat × State) x =>
    if acc.1 ≠ 0 then acc else
      let (bad, s) := readCell x.1 (cellFill len x.2) odd acc.2.2
      (bad, x.1, s)) (0, nullPointer, s)

/-- The deskew reservation of a unit (R322). -/
def deskewCells (depthUs n : Nat) : Nat := (depthUs * n * 100000 + 2047) / 2048

/-- A stack's part of a reservation: equal parts, the first stacks taking what does not divide (log entry 26). -/
def deskewPart (cells k : Nat) : Nat := (cells + 3 - k) / 4

/-- Cells that a reservation of so many finds missing; nothing when it fits. -/
def State.cellsShort (s : State) (cells : Nat) : Nat :=
  ([0, 1, 2, 3].map (fun k => deskewPart cells k - (s.stack k).freeCells)).foldl (· + ·) 0

/-- Reserve, and give back. -/
def reserveDeskew (cells : Nat) (s : State) : State :=
  forEach [0, 1, 2, 3] (fun k s => modStack k (fun x => { x with deskew := x.deskew + deskewPart cells k }) s) s
def releaseDeskew (cells : Nat) (s : State) : State :=
  forEach [0, 1, 2, 3] (fun k s => modStack k (fun x => { x with deskew := x.deskew - deskewPart cells k }) s) s

/-- A stack leaves P4: its reserved words are written zero (R318). -/
def zeroReserved (k : Nat) (s : State) : State :=
  if (s.stack k).failed then s
  else bump pmStack k 1 (spareBase - reservedBase) (modStack k (fun x => { x with
    words := x.words.filter (fun e => e.1 < reservedBase || spareBase ≤ e.1)
    poison := x.poison.filter (fun e => e.1 < reservedBase || spareBase ≤ e.1) }) s)

end Sys2Proof.Machine
end

