-- ==== Sys2Proof/Machine/SchedOps.lean ====
section
/-! DEFINITION. Chapter 11 of spec/ as operations: credits, gates, the choice of the next frame, admission and drops, and the quarantine
of chapter 12. -/

namespace Sys2Proof.Machine

def modSched (f : Sched → Sched) (s : State) : State := { s with sched := f s.sched }
/-- A service queue, a subscriber node and a port node. -/
def State.queue (s : State) (q : Nat) : SvcQueue := tblGet {} s.sched.queues q
def modQueue (q : Nat) (f : SvcQueue → SvcQueue) (s : State) : State := modSched (fun x => { x with queues := tblMod {} x.queues q f }) s
def State.sub (s : State) (i : Nat) : SubNode := tblGet {} s.sched.subs i
def modSub (i : Nat) (f : SubNode → SubNode) (s : State) : State := modSched (fun x => { x with subs := tblMod {} x.subs i f }) s
def State.portNode (s : State) (p : Nat) : PortNode := tblGet {} s.sched.ports p
def modPort (p : Nat) (f : PortNode → PortNode) (s : State) : State := modSched (fun x => { x with ports := tblMod {} x.ports p f }) s

/-! Credit (R300 to R303). -/

def million : Nat := 1000000

/-- The tick of the model's clock. -/
def State.tick (s : State) : Nat := s.localNs / 8

/-- The credit at a tick: refilled since its last value, up to the burst; a node without a rate keeps none. -/
def Tokens.level (t : Tokens) (now : Nat) : Int :=
  if t.rate = 0 then 0 else min ((t.burst * million : Nat) : Int) (t.credit + (t.rate * (now - t.at_) : Nat))

/-- The credit lets a frame start. -/
def Tokens.ready (t : Tokens) (now : Nat) : Bool := t.rate == 0 || decide (0 ≤ t.level now)

/-- Subtract the counted bytes of a frame. -/
def Tokens.spend (t : Tokens) (now bytes : Nat) : Tokens := { t with credit := t.level now - if t.rate = 0 then 0 else (bytes * million : Nat), at_ := now }

/-- A change of rate and burst (R301): the new tokens and the credit removed. A node that turns from no rate to one starts with 0. -/
def Tokens.change (t : Tokens) (now rate burst : Nat) : Tokens × Int :=
  let c := t.level now
  let cap : Int := (burst * million : Nat)
  if rate = 0 then (⟨0, burst, 0, now⟩, c)
  else if t.rate = 0 then (⟨rate, burst, 0, now⟩, 0)
  else if cap < c then (⟨rate, burst, cap, now⟩, c - cap)
  else (⟨rate, burst, c, now⟩, 0)

/-- Tokens of a node that is enabled now: credit 0. -/
def Tokens.fresh (now rate burst : Nat) : Tokens := ⟨rate, burst, 0, now⟩

/-! Lengths and time (R297, R306). -/

def countedLength (n : Nat) : Nat := n + 8

/-- Tributary slots that pace a port; 0 while the port is stalled (R296). -/
def State.portSlots (s : State) (p : Nat) : Nat :=
  let a := (s.trib p).now
  if a.kind = 2 then (bitsOf 640 a.slots).length else 0

/-- T_f in ticks: counted length × 8 over R_p = slots × 4.958 247 Gb/s, in 8 ns. -/
def frameTicks (slots n : Nat) : Nat := max 1 ((countedLength n * million + slots * 4958247 - 1) / (slots * 4958247))

/-! Gates (R306 to R308). -/

/-- The cycle in ticks. -/
def GateList.cycle (g : GateList) : Nat := g.entries.foldl (fun a e => a + e.2) 0

/-- The entries from the one in force at an instant of ToD on, once round, the first with what is left of it. -/
def GateList.from (g : GateList) (todNs : Nat) : List (Nat × Nat) :=
  let off := ((((todNs : Int) - g.start).fdiv 8).emod g.cycle).toNat
  let rec go : List (Nat × Nat) → List (Nat × Nat) → Nat → List (Nat × Nat)
    | [], done, _ => done
    | (m, d) :: r, done, k => if k < d then (m, d - k) :: r ++ done ++ [(m, k)] else go r (done ++ [(m, d)]) (k - d)
  go g.entries [] off

/-- Ticks for which class `c` stays open from the head of a list of entries. -/
def openRun (c : Nat) : List (Nat × Nat) → Nat
  | [] => 0
  | (m, d) :: r => if m.testBit c then d + openRun c r else 0

/-- The class is open in every entry. -/
def GateList.always (g : GateList) (c : Nat) : Bool := g.entries.all (fun e => e.1.testBit c)

/-- W_max (R307): the longest run of entries that opens a class, taken cyclically; nothing when it is unbounded. -/
def GateList.longest (g : GateList) (c : Nat) : Option Nat :=
  if g.always c then none
  else some ((List.range g.entries.length).foldl (fun m i => max m (openRun c (g.entries.drop i ++ g.entries.take i))) 0)

/-- Whole ticks left of the open window of a class at a port, 0 while it is closed, nothing while it has no end (R306). -/
def State.window (s : State) (p c : Nat) : Option Nat :=
  let x := s.portNode p
  let now := s.timing.tod.toNs
  let run : Option Nat := match x.gates with
    | none => none
    | some g => if g.always c then none else some (openRun c (g.from now) - b2n (((now : Int) - g.start) % 8 != 0))
  match x.pending with
  | none => run
  | some n => let left := (n.start - now) / 8
    some (match run with | some r => min r left | none => left)

/-- The gate of a class is open. -/
def State.gateOpen (s : State) (p c : Nat) : Bool :=
  match (s.portNode p).gates with
  | none => true
  | some g => ((g.from s.timing.tod.toNs).headD (0, 0)).1.testBit c

/-- A frame fits some window of its class in the operative list. -/
def State.everFits (s : State) (p c n : Nat) : Bool :=
  match (s.portNode p).gates.bind (fun g => g.longest c) with
  | none => true
  | some w => decide (frameTicks (s.portSlots p) n ≤ w)

/-- STATE of SCHED.GET_GATES. -/
def PortNode.gateState (x : PortNode) : Nat :=
  match x.gates, x.pending with
  | none, none => 0 | some _, none => 1 | some _, some _ => 2 | none, some _ => 3

/-! Eligibility (R298, R340). -/

/-- Stored bytes of a queue. -/
def SvcQueue.depth (q : SvcQueue) : Nat := q.frames.foldl (fun a f => a + f.len) 0

/-- Everything but gate and window lets the queue's head frame start: its credit, and the stacks that hold it. -/
def State.queueReady (s : State) (q : SvcQueue) : Bool :=
  match q.frames with
  | [] => false
  | f :: _ => q.tok.ready s.tick && !(s.stack ((f.cells.headD nullPointer) % 4)).retraining &&
      f.cells.all (fun p => (s.dom 4 (p % 4)).state == 0)

/-- The head frame fits in the rest of the open window. -/
def State.queueFits (s : State) (p : Nat) (q : SvcQueue) : Bool :=
  match q.frames with
  | [] => false
  | f :: _ => match s.window p q.cls with
    | none => true
    | some w => decide (frameTicks (s.portSlots p) f.len ≤ w)

def State.queueEligible (s : State) (p : Nat) (q : SvcQueue) : Bool := s.queueReady q && s.queueFits p q

/-- A subscriber's queues, and a port's subscribers. -/
def State.queuesOf (s : State) (i : Nat) : List (Nat × SvcQueue) := s.sched.queues.filter (fun e => e.2.enabled && e.2.sub == i)
def State.subsOf (s : State) (p : Nat) : List (Nat × SubNode) := s.sched.subs.filter (fun e => e.2.enabled && e.2.port == p)

/-! The choice of the next frame (R298). Where a round starts, and what a child that is not offered keeps of its deficit, is the model's
(log entry 27). -/

/-- A child offered: number, priority, quantum, cost of its next frame. -/
structure Offer where
  node : Nat
  prio : Nat
  quantum : Nat
  cost : Nat
  deriving DecidableEq, Repr

/-- Go round, adding a quantum at each visit, until a child's deficit covers its next frame. -/
def drrRound : Nat → List (Offer × Nat) → Option (Offer × Nat × List (Offer × Nat))
  | 0, _ => none
  | _ + 1, [] => none
  | n + 1, (o, d) :: r =>
    if o.cost ≤ d + o.quantum then some (o, d + o.quantum - o.cost, r) else drrRound n (r ++ [(o, d + o.quantum)])

/-- The choice among children, with the rotation it leaves. -/
def Rotation.pick (x : Rotation) (offers : List Offer) : Option (Nat × Rotation) :=
  let best := (offers.map (fun o => o.prio)).foldl min 7
  let l := (offers.filter (fun o => o.prio == best)).map (fun o => (o, tblGet 0 x.deficits o.node))
  let keep := fun (o : Offer) (d : Nat) (r : List (Offer × Nat)) =>
    some (o.node, (⟨some o.node, (r.foldl (fun t e => tblSet 0 t e.1.node e.2) (tblSet 0 [] o.node d))⟩ : Rotation))
  let from_ := fun (k : Nat) => l.filter (fun e => decide (k ≤ e.1.node)) ++ l.filter (fun e => decide (e.1.node < k))
  match x.turn.bind (fun t => l.find? (fun e => e.1.node == t && decide (e.1.cost ≤ e.2))) with
  | some (o, d) => keep o (d - o.cost) (l.filter (fun e => e.1.node != o.node))
  | none => match drrRound (64 * l.length + 1) (from_ (match x.turn with | some t => t + 1 | none => 0)) with
    | some (o, d, r) => keep o d r
    | none => none

/-- The offers of a subscriber's eligible queues. -/
def State.queueOffers (s : State) (p i : Nat) : List Offer :=
  ((s.queuesOf i).filter (fun e => s.queueEligible p e.2)).map (fun e =>
    ⟨e.1, e.2.prio, e.2.weight * 256, countedLength ((e.2.frames.head?.map (fun f => f.len)).getD 0)⟩)

/-- The queue a subscriber would send from. -/
def State.subPick (s : State) (p i : Nat) (n : SubNode) : Option (Nat × Rotation) := n.rot.pick (s.queueOffers p i)

/-- The queue whose head frame a port sends next, with its subscriber and the rotations that the choice leaves. -/
def State.portPick (s : State) (p : Nat) : Option (Nat × Nat × Rotation × Rotation) :=
  let subs := (s.subsOf p).filter (fun e => e.2.tok.ready s.tick)
  let tries := subs.filterMap (fun e => (s.subPick p e.1 e.2).map (fun x => (e.1, e.2, x.1, x.2)))
  let offers := tries.map (fun t => (⟨t.1, t.2.1.prio, t.2.1.weight * 256,
    countedLength (((s.queue t.2.2.1).frames.head?.map (fun f => f.len)).getD 0)⟩ : Offer))
  match (s.portNode p).rot.pick offers with
  | none => none
  | some (i, rot) => (tries.find? (fun t => t.1 == i)).map (fun t => (i, t.2.2.1, rot, t.2.2.2))

/-! Drops and departures (R304, R305, R311). -/

/-- The trace of a frame that leaves a queue. -/
def traceFrame (q flags : Nat) (f : StoredFrame) (s : State) : State :=
  let n := (s.queue q).count
  traceItem (13 + q / 16384) 0 (q % 16384) flags n q (f.cells.headD nullPointer) ((s.localNs - f.at_) * 8 / 5) f.len
    (modQueue q (fun x => { x with count := x.count + 1 }) s)

/-- The head frame is dropped under a counter: its cells are freed (R305). -/
def dropHead (q ev flags : Nat) (s : State) : State :=
  match (s.queue q).frames with
  | [] => s
  | f :: r => traceFrame q (1 + flags) f (bump pmQueue q ev 1 (forEach f.cells freeCell (modQueue q (fun x => { x with frames := r }) s)))

/-- Every frame a queue holds is dropped. -/
def flushQueue (q ev : Nat) (s : State) : State := forEach (s.queue q).frames (fun _ s => dropHead q ev 0 s) s

/-- A queue is quarantined for a poisoned link word of a stack (R335, R336): its frames are dropped with their cells still marked, and the
audit of that stack covers it. -/
def quarantine (q k word : Nat) (s : State) : State :=
  let n := (s.queue q).frames.length
  let s := forEach (s.queue q).frames (fun f s => traceFrame q 1 f s) s
  let s := bump pmQueue q 4 n (modQueue q (fun x => { x with frames := [], quarantined := true }) s)
  let s := modStack k (fun x => { x with audit := some (x.audit.getD [] ++ [q]) }) s
  raise 0x0802 k (be 4 q ++ be 4 word) false s

/-- The head frame is lost to a poisoned link word: it counts as poison, those behind it as quarantined. -/
def loseChain (q k word : Nat) (s : State) : State :=
  match (s.queue q).frames with
  | [] => s
  | f :: r => quarantine q k word (traceFrame q 3 f (bump pmQueue q 9 1 (modQueue q (fun x => { x with frames := r }) s)))

/-! GFP-F (R283), with the polynomials and the core scrambling of ITU-T G.7041 (log entry 75). -/

/-- The header error control over two bytes: x¹⁶ + x¹² + x⁵ + 1 from zero. -/
def gfpHec (b : List Byte) : List Byte :=
  be 2 ((byteBits b).foldl (fun (c : BitVec 16) x => (c <<< 1) ^^^ (if c.getLsbD 15 ^^ x then 0x1021#16 else 0#16)) 0#16).toNat

/-- The core header of a payload area of `n` bytes: PLI and cHEC, with the Barker-like pattern added. -/
def gfpCore (n : Nat) : List Byte := ((be 2 n ++ gfpHec (be 2 n)).zip [0xB6, 0xAB, 0x31, 0xE0]).map (fun x => x.1 ^^^ x.2)

/-- An idle frame. -/
def gfpIdle : List Byte := gfpCore 0

/-- The type header: PTI 0b000, PFI 0, EXI 0b0000, UPI 0x01, tHEC. -/
def gfpType : List Byte := [0x00, 0x01] ++ gfpHec [0x00, 0x01]

/-- The payload area through the self-synchronous scrambler x⁴³ + 1, and the scrambler after it. -/
def gfpScramble : List Bool → BitVec 43 → List Bool × BitVec 43
  | [], r => ([], r)
  | b :: l, r =>
    let o := b ^^ r.getLsbD 42
    let x := gfpScramble l ((r <<< 1) ||| (if o then 1#43 else 0#43))
    (o :: x.1, x.2)

/-- A tributary's mapper sends a core header and a payload area. -/
def sendGfp (t : Nat) (core area : List Byte) (s : State) : State :=
  { s with client := { s.client with tribs := tblMod {} s.client.tribs t (fun x =>
    let y := gfpScramble (byteBits area) x.scrambler
    { x with gfpSent := core ++ bitsBytes area.length y.1, scrambler := y.2 }) } }

/-- A frame starts: it counts as departed, takes its credit, leaves DRAM and is handed to the mapper (R300, R311). -/
def startFrame (p i q : Nat) (rotP rotI : Rotation) (f : StoredFrame) (s : State) : State :=
  let n := countedLength f.len
  let now := s.tick
  let s := modQueue q (fun x => { x with frames := x.frames.drop 1, tok := x.tok.spend now n }) s
  let s := modSub i (fun x => { x with tok := x.tok.spend now n, rot := rotI }) s
  let s := modPort p (fun x => { x with busy := true, rot := rotP }) (forEach f.cells freeCell s)
  let s := bump pmQueue q 2 n (bump pmQueue q 1 1 s)
  let s := bump pmPort p 1 n (bump pmPort p 0 1 (bump pmSub i 1 n (bump pmSub i 0 1 s)))
  let item := (s.trib p).txCount
  let s := sendGfp p (gfpCore (f.len + 4)) (gfpType ++ s.frameData f.len f.cells)
    { s with client := { s.client with tribs := tblMod {} s.client.tribs p (fun t => { t with txCount := t.txCount + 1 }) } }
  let (lat, s) := drawNat (bump pmTrib p 1 1 (traceFrame q 0 f s))
  traceItem 12 0 p 0 item p 0xFFFFFFFF lat f.len s

/-- Heads that fit no window of their class in the operative list are dropped (R305). -/
def purgeQueue (p q : Nat) (s : State) : State :=
  forEach (s.queue q).frames (fun f s => if ((s.queue q).frames.head? == some f) && !s.everFits p (s.queue q).cls f.len then dropHead q 5 0 s else s) s
def purgeHeads (p : Nat) (s : State) : State :=
  if s.portSlots p = 0 then s else forEach ((s.subsOf p).flatMap (fun e => (s.queuesOf e.1).map (fun x => x.1))) (fun q s => purgeQueue p q s) s

/-- Choose until a frame starts or nothing is eligible: a head that reads bad is dropped and the choice is made again. -/
def choose (p : Nat) (odd : List OddWord) : Nat → State → State
  | 0, s => s
  | n + 1, s =>
    let s := purgeHeads p s
    match s.portPick p with
    | none => s
    | some (i, q, rotP, rotI) =>
      match (s.queue q).frames with
      | [] => s
      | f :: _ =>
        let (bad, cell, s) := readFrame f.len f.cells odd s
        if bad = 0 then startFrame p i q rotP rotI f s
        else if bad = 1 then choose p odd n (loseChain q (cell % 4) (linkWord cell) s)
        else choose p odd n (dropHead q 9 2 s)

/-- Frames held under a port. -/
def State.portFrames (s : State) (p : Nat) : Nat :=
  ((s.subsOf p).flatMap (fun e => (s.queuesOf e.1).map (fun x => x.2.frames.length))).foldl (· + ·) 0

/-- The frames that wait under a port are a demand on its slice and on the stacks that hold the head frames (R61). -/
def demandFor (p : Nat) (s : State) : State :=
  let heads := (s.subsOf p).flatMap (fun e => (s.queuesOf e.1).flatMap (fun x => (x.2.frames.head?.map (fun f => f.cells)).getD []))
  let s := forEach ((heads.map (· % 4)).eraseDups) (demand 4) s
  if s.portFrames p = 0 then s else demand 9 (p / 32) s

/-- A port node chooses its next frame, if its tributary drains, its slice is awake and it is not handing one over (R296, R298). -/
def selectNext (p : Nat) (odd : List OddWord) (s : State) : State :=
  if !s.trafficRuns || (s.portNode p).busy || s.portSlots p == 0 then s else
    let s := demandFor p s
    if (s.dom 9 (p / 32)).state = 0 then choose p odd (s.portFrames p + 1) s else s

/-- Every idle port chooses. -/
def selectAll (s : State) : State := forEach ((s.sched.subs.map (fun e => e.2.port)).eraseDups) (fun p s => selectNext p [] s) s

/-- A command goes on with a scheduler slice awake, or is answered ST_BUSY (R63, log entry 70). -/
def onSlice (k : Nat) (s : State) (f : State → Reply) : Reply := needing 9 k s (fun s => f (selectAll s))

/-- The same of DRAM stacks. -/
def onStacks (ks : List Nat) (s : State) (f : State → Reply) : Reply := needingAll 4 ks s (fun s => f (selectAll s))

/-! Admission (R304). -/

/-- The port of a queue. -/
def State.portOfQueue (s : State) (q : Nat) : Nat := (s.sub (s.queue q).sub).port

/-- The counter of the first check that a frame fails, in the order of R304. -/
def refusal (s : State) (q n : Nat) : Option Nat :=
  let x := s.queue q
  let p := s.portOfQueue q
  if !x.enabled then some 3
  else if x.quarantined then some 4
  else if s.portSlots p ≠ 0 ∧ !s.everFits p x.cls n then some 5
  else if x.limitKib * 1024 < x.depth + n then some 6
  else if s.poolCells < cellsFor n then some 7
  else if x.policing ∧ x.pol.level s.tick < (countedLength n * million : Nat) then some 8
  else none

/-- A frame is stored: the policer's tokens, its cells and link words, and NEXT of the frame before through the clamp (R303, R321, R329). -/
def storeFrame (q : Nat) (data : List Byte) (odd : List OddWord) (s : State) : State :=
  let x := s.queue q
  let n := data.length
  let s := if x.policing then modQueue q (fun x => { x with pol := x.pol.spend s.tick (countedLength n) }) s else s
  let (cells, s) := takeCells (cellsFor n) s
  let s := writeFrame q (s.timing.tod.toNs / 8) data cells s
  let s := match x.frames.getLast?.bind (fun f => f.cells.getLast?) with
    | some tail => clampWrite (tail % 4) (linkWord tail) 0xF000 (nextBytes (cells.headD nullPointer) q) odd s
    | none => s
  modQueue q (fun x => { x with frames := x.frames ++ [⟨n, cells, s.timing.tod, s.localNs⟩] }) s

/-- A classified frame is offered to its queue (R304), a demand on the queue's slice; an idle port may then send it. A frame offered
while the slice or a stack still wakes is stored at once and sent after the wake (log entry 69). -/
def enqueue (q : Nat) (data : List Byte) (odd : List OddWord) (s : State) : State :=
  let s := bump pmQueue q 0 1 (demand 9 (q / 16384) s)
  match refusal s q data.length with
  | some ev =>
    traceFrame q 1 ⟨data.length, [], s.timing.tod, s.localNs⟩ (bump pmQueue q ev 1 s)
  | none => selectNext (s.portOfQueue q) odd (storeFrame q data odd s)

end Sys2Proof.Machine
end

