-- ==== Sys2Proof/Machine/Sched.lean ====
section
/-! DEFINITION. Chapter 11 of spec/: the port nodes' moments, gates, sampling and the SCHED commands. -/

namespace Sys2Proof.Machine

/-! Selection. -/

/-- R298: a port node has handed the last byte of a frame to its mapper and chooses the next; with nothing eligible the tributary carries
a GFP idle frame (R283, R296). -/
def frameSelection (p : Nat) (odd : List OddWord) (s : State) : State :=
  if !s.trafficRuns then s else
    let s := selectNext p odd (modPort p (fun x => { x with busy := false }) s)
    if !(s.portNode p).busy && s.portSlots p != 0 then sendGfp p gfpIdle [] (bump pmTrib p 3 1 s) else s
def execFrameSelection (p : Fin 256) (odd : List OddWord) (s : State) : Result := .next (frameSelection p odd s)

/-- R309: a waiting node's credit has risen to 0, and an idle port node may start its head frame. -/
def shaperCreditReachesZero (p : Nat) (s : State) : State := selectNext p [] s
def execShaperCreditReachesZero (p : Fin 256) (s : State) : Result := .next (shaperCreditReachesZero p s)

/-- R306, R309: an entry's duration has ended; the classes of the next are open, and an idle port node chooses. -/
def gateEntryEnd (p : Nat) (s : State) : State := when (s.portNode p).gates.isSome (selectNext p []) s
def execGateEntryEnd (p : Fin 256) (s : State) : Result := .next (gateEntryEnd p s)

/-- R308: the pending list reaches START and becomes operative; an empty one leaves every class open. -/
def gateListStart (p : Nat) (s : State) : State :=
  match (s.portNode p).pending with
  | none => s
  | some g => when (s.blocksRun && decide (g.start ≤ s.timing.tod.toNs)) (fun s =>
      let s := modPort p (fun x => { x with gates := if g.entries.isEmpty then none else some g, pending := none }) s
      let s := raise 0x0701 0 (be 1 p ++ be 1 (s.portNode p).gateState ++ be 2 g.entries.length) false s
      selectNext p [] (purgeHeads p s)) s
def execGateListStart (p : Fin 256) (s : State) : Result := .next (gateListStart p s)

/-- Ticks in which a head frame of an idle port waits only for its gate or window (R311). -/
def gateWait (p n : Nat) (s : State) : State :=
  let waits := (s.subsOf p).any (fun e => e.2.tok.ready s.tick && (s.queuesOf e.1).any (fun x => s.queueReady x.2 && !s.queueFits p x.2))
  if s.portSlots p != 0 && !(s.portNode p).busy && (s.portPick p).isNone && waits then bump pmPort p 2 n s else s

/-- `n` ticks pass for every port that has subscribers. -/
def gateWaits (n : Nat) (s : State) : State :=
  if !s.trafficRuns then s else forEach ((s.sched.subs.map (fun e => e.2.port)).eraseDups) (fun p s => gateWait p n s) s

/-! Sampling (R310). -/

def State.samplingOf (s : State) (k : Nat) : Sampling := tblGet {} s.sched.sampling k
def modSampling (k : Nat) (f : Sampling → Sampling) (s : State) : State := modSched (fun x => { x with sampling := tblMod {} x.sampling k f }) s

/-- HEAD_DELAY: the present ToD less the head frame's enqueue time of 48 bits, in 8 ns. -/
def State.headDelay (s : State) (x : SvcQueue) : Nat :=
  match x.frames with
  | [] => 0
  | f :: _ => min 0xFFFFFFFF (((s.timing.tod.toNs / 8 : Nat) - (f.enq.toNs / 8 : Nat) : Int).emod (2 ^ 48)).toNat

/-- The record of one queue. -/
def sampleRecord (s : State) (q : Nat) : List Byte :=
  let x := s.queue q
  s.timing.tod.bytes ++ be 1 (b2n (s.gateOpen (s.portOfQueue q) x.cls) + 2 * b2n (decide (0 ≤ x.tok.level s.tick)) + 4 * b2n x.quarantined) ++
    zeros 1 ++ be 4 q ++ be 6 x.depth ++ zeros 2 ++ be 4 x.frames.length ++ be 4 (s.headDelay x)

def schedSamplingInstant (k : Nat) (s : State) : State :=
  let x := s.samplingOf k
  if !s.blocksRun then s
  else forEach ((List.range x.count).map (fun i => x.first + i)) (fun q s =>
    writeRecord (13 + k) 3 (sampleRecord s q) (if s.bufferFull (13 + k) then bump pmSlice k 0 1 s else s)) s
def execSchedSamplingInstant (slice : Fin 8) (s : State) : Result := .next (schedSamplingInstant slice s)

/-! Changes of rate and burst (R301). -/

def schedChangeSub (p : List Byte) (s : State) : List Byte × State :=
  let i := u16 p 0
  let x := s.sub i
  let on := (u8 p 3).testBit 0
  let (tok, cut) := x.tok.change s.tick (u32 p 8) (u32 p 12)
  let starts := on && !x.enabled
  let tok := if starts then Tokens.fresh s.tick (u32 p 8) (u32 p 12) else tok
  (beInt 8 (if starts then 0 else cut), modSub i (fun x => { x with enabled := on, port := u8 p 2, prio := u8 p 4, weight := u16 p 6, tok }) s)

def schedChangeQueue (p : List Byte) (s : State) : List Byte × State :=
  let q := u32 p 0
  let x := s.queue q
  let on := (u8 p 7).testBit 0
  let police := (u8 p 7).testBit 1
  let (tok, cut) := x.tok.change s.tick (u32 p 12) (u32 p 16)
  let (pol, polCut) := x.pol.change s.tick (u32 p 24) (u32 p 28)
  let starts := on && !x.enabled
  let polStarts := police && (!x.policing || starts)
  let s := if on then s else flushQueue q 3 s
  (beInt 8 (if starts then 0 else cut) ++ beInt 8 (if polStarts then 0 else polCut),
    modQueue q (fun x => { x with
      enabled := on, sub := u16 p 4, cls := u8 p 6, prio := u8 p 8, weight := u16 p 10, limitKib := u32 p 20, policing := police
      tok := if starts then Tokens.fresh s.tick (u32 p 12) (u32 p 16) else tok
      pol := if polStarts then Tokens.fresh s.tick (u32 p 24) (u32 p 28) else pol }) s)

/-- R301: the oldest change that waits applies at a cell boundary and its reply says what it cut; the selection at that boundary comes
after it (R309). -/
def schedParamApply (s : State) : State :=
  match s.sched.waiting with
  | [] => s
  | c :: r =>
    if !(s.blocksRun && decide (s.control.mp = .running)) then s else
      let s := modSched (fun x => { x with waiting := r }) s
      let (reply, s) := if c.isQueue then schedChangeQueue c.payload s else schedChangeSub c.payload s
      let port := if c.isQueue then s.portOfQueue (u32 c.payload 0) else u8 c.payload 2
      selectNext port [] (completeEntry c.entry .ok reply s)
def execSchedParamApply (s : State) : Result := .next (schedParamApply s)

/-! Commands (R313 to R317). -/

/-- A rate of 0, or from 1 000 kb/s. -/
def rateOk (q : Request) (off : Nat) : Bool × Nat := (q.w off == 0 || decide (1000 ≤ q.w off ∧ q.w off ≤ 3200000000), off)

/-- The change waits for a cell boundary (R23, R301). -/
def schedWait (isQueue : Bool) (q : Request) (s : State) : Reply :=
  .later .none (modSched (fun x => { x with waiting := x.waiting ++ [⟨s.control.nextEntry, isQueue, q.payload⟩] }) s)

/-- A queue of the subscriber is enabled. -/
def State.subBusy (s : State) (i : Nat) : Bool := !(s.queuesOf i).isEmpty

def schedSetSubscriber (q : Request) (s : State) : Reply :=
  let x := s.sub (q.h 0)
  let on := (q.b 3).testBit 0
  checked [unitZero q, inHalf q 0 0 32767, inByte q 3 0 1, inByte q 4 0 7, resv q 5 1, inHalf q 6 1 4096, rateOk q 8, inWord q 12 16008 16777216] s <|
  require [(q.b 2 / 32 == q.h 0 / 4096 && (s.trib (q.b 2)).set.kind == 2, .parent),
    (!s.subBusy (q.h 0) || (on && x.port == q.b 2), .notEmpty)] s <|
    onSlice (q.h 0 / 4096) s (schedWait false q)

def schedSetQueue (q : Request) (s : State) : Reply :=
  let n := q.w 0
  let x := s.queue n
  let on := (q.b 7).testBit 0
  let police := (q.b 7).testBit 1
  checked [unitZero q, inWord q 0 0 131071, inHalf q 4 0 32767, inByte q 6 0 7, inByte q 7 0 3, inByte q 8 0 7, resv q 9 1, inHalf q 10 1 4096,
    rateOk q 12, inWord q 16 16008 16777216, inWord q 20 16 33554432,
    (if police then decide (1000 ≤ q.w 24 ∧ q.w 24 ≤ 3200000000) else q.w 24 == 0, 24),
    (if police then decide (16008 ≤ q.w 28 ∧ q.w 28 ≤ 16777216) else q.w 28 == 0, 28)] s <|
  require [(!on || (q.h 4 / 4096 == n / 16384 && (s.sub (q.h 4)).enabled), .parent),
    (!on || x.frames.isEmpty || (x.sub == q.h 4 && x.cls == q.b 6), .notEmpty)] s <|
    onSlice (n / 16384) s (schedWait true q)

/-- The entries of a SET_GATES payload. -/
def gateEntries (q : Request) (n : Nat) : List (Nat × Nat) := (List.range n).map (fun i => (q.b (16 + 4 * i), field q.payload (17 + 4 * i) 3))

def schedSetGates (q : Request) (s : State) : Reply :=
  let n := q.h 2
  let es := gateEntries q n
  let start := field q.payload 4 6 * billion + q.w 10
  let sized := decide (n ≤ 1024) && q.payload.length == 16 + 4 * n
  checked ([unitZero q, resv q 1 1, (sized && decide (es.foldl (fun a e => a + e.2) 0 ≤ 125000000), 2),
    (decide (q.w 10 < billion ∧ q.w 10 % 8 = 0 ∧ s.timing.tod.toNs + 1000000 ≤ start), 4), resv q 14 2] ++
    es.zipIdx.map (fun e => (e.1.2 != 0, 16 + 4 * e.2))) s <|
    onSlice (q.b 0 / 32) s (fun s => .okay (modPort (q.b 0) (fun x => { x with pending := some ⟨es, start⟩ }) s))

def schedGetGates (q : Request) (s : State) : Reply :=
  let at_ := fun (g : Option GateList) => match g with | some g => (Tod.ofNs g.start).bytes | none => zeros 10
  checked [unitBelow q 256] s <| onSlice (q.u / 32) s fun s =>
    let x := s.portNode q.u
    let es := (x.gates.map (fun g => g.entries)).getD []
    .okWith (be 1 x.gateState ++ zeros 1 ++ be 2 es.length ++ at_ x.gates ++ zeros 2 ++ be 4 ((x.gates.map (fun g => g.cycle)).getD 0) ++
      at_ x.pending ++ zeros 2 ++ es.flatMap (fun e => be 1 e.1 ++ be 3 e.2)) s

def schedGetQueue (q : Request) (s : State) : Reply :=
  checked [unitZero q, inWord q 0 0 131071] s <| onSlice (q.w 0 / 16384) s fun s =>
    let x := s.queue (q.w 0)
    .okWith (be 8 x.depth ++ be 4 x.frames.length ++ be 4 (s.headDelay x) ++ beInt 8 (x.tok.level s.tick) ++ beInt 8 (x.pol.level s.tick)) s

/-- The range and the record limit of R310. -/
def samplingFits (q : Request) : Bool :=
  decide (q.w 8 ≤ 16384 ∧ q.w 4 % 16384 + q.w 8 ≤ 16384 ∧ (q.w 12 = 0 ∨ q.w 8 * 1000000 ≤ 1048576 * q.w 12))

/-- R310: applies at the next second boundary. -/
def schedSetSampling (q : Request) (s : State) : Reply :=
  checked [unitZero q, inByte q 0 0 7, resv q 1 3, (q.w 4 / 16384 == q.b 0, 4), (samplingFits q, 8),
    (decide (10 ≤ q.w 12 ∧ q.w 12 ≤ 1000000 ∧ 1000000 % q.w 12 = 0), 12)] s <|
    onSlice (q.b 0) s (fun s => .okay (modSampling (q.b 0) (fun x => { x with next := some (q.w 4, q.w 8, q.w 12) }) s))

def schedGetCounts (q : Request) (s : State) : Reply :=
  let l := q.b 0
  checked [unitZero q, inByte q 0 0 2, resv q 1 3, (decide (q.w 4 < if l = 0 then 131072 else if l = 1 then 32768 else 256), 4)] s <|
    .okWith (if l = 0 then countsReply s pmQueue (q.w 4) 0 11 else if l = 1 then countsReply s pmSub (q.w 4) 0 2 ++ zeros 72
      else countsReply s pmPort (q.w 4) 0 3 ++ zeros 64) s

def execSchedSetSubscriber (q : Request) (s : State) : Result := .next (takeRequest 0x0701 q schedSetSubscriber s)
def execSchedSetQueue (q : Request) (s : State) : Result := .next (takeRequest 0x0702 q schedSetQueue s)
def execSchedSetGates (q : Request) (s : State) : Result := .next (takeRequest 0x0703 q schedSetGates s)
def execSchedGetGates (q : Request) (s : State) : Result := .next (takeRequest 0x0704 q schedGetGates s)
def execSchedGetQueue (q : Request) (s : State) : Result := .next (takeRequest 0x0705 q schedGetQueue s)
def execSchedSetSampling (q : Request) (s : State) : Result := .next (takeRequest 0x0706 q schedSetSampling s)
def execSchedGetCounts (q : Request) (s : State) : Result := .next (takeRequest 0x0707 q schedGetCounts s)

/-! The second boundary. -/

/-- PM_SQ_DEPTH_FRAMES of the second that ends (R311). -/
def schedGauges (s : State) : State := forEach s.sched.queues (fun e s => setLive pmQueue e.1 10 e.2.frames.length s) s

/-- EV_SCHED_SAMPLE_LOST for the second that ended, and a sampling that waits takes effect (R310). -/
def schedBoundary (k : Nat) (s : State) : State :=
  let n := s.latched pmSlice k 0
  let s := if n ≠ 0 then raise 0x0702 0 (be 1 k ++ zeros 3 ++ be 4 n) false s else s
  match (s.samplingOf k).next with
  | some (f, c, i) => modSampling k (fun _ => ⟨f, c, i, none⟩) s
  | none => s

end Sys2Proof.Machine
end

