-- ==== Sys2Proof/Machine/Client.lean ====
section
/-! DEFINITION. Chapter 10 of spec/: host clients, the classifier, elastic buffers, FlexE, the GFP-F demapper and egress FIFOs, and the
CLIENT commands. -/

namespace Sys2Proof.Machine

def modClients (f : Clients → Clients) (s : State) : State := { s with client := f s.client }
def State.clientOf (s : State) (c : Nat) : Client := tblGet {} s.client.clients c
def modClient (c : Nat) (f : Client → Client) (s : State) : State := modClients (fun x => { x with clients := tblMod {} x.clients c f }) s
def State.flexeOf (s : State) (g : Nat) : FlexE := tblGet {} s.client.flexe g
def modFlexe (g : Nat) (f : FlexE → FlexE) (s : State) : State := modClients (fun x => { x with flexe := tblMod {} x.flexe g f }) s
def modTrib (t : Nat) (f : Trib → Trib) (s : State) : State := modClients (fun x => { x with tribs := tblMod {} x.tribs t f }) s

/-! Rates and lanes (R271, R275, R279). -/

/-- Lanes of a TYPE at a LANE_RATE; 0 where the table has none. -/
def laneCount (kind rate : Nat) : Nat :=
  if rate = 0 then (match kind with | 1 => 1 | 2 => 2 | 3 => 4 | 4 => 8 | _ => 0)
  else (match kind with | 2 => 1 | 3 => 2 | 4 => 4 | 5 => 8 | _ => 0)

/-- The rate of a TYPE, in units of 100 Gb/s. -/
def rateOf (kind : Nat) : Nat := match kind with | 1 => 1 | 2 => 2 | 3 => 4 | 4 => 8 | 5 => 16 | _ => 0

/-- The slots a GMP tributary must hold (R279). -/
def gmpSlots (kind : Nat) : Nat := match kind with | 1 => 21 | 2 => 41 | 3 => 81 | 4 => 162 | 5 => 324 | _ => 0

/-- The FlexE group whose calendar in use names a client. -/
def State.flexeGroup (s : State) (c : Nat) : Option (Nat × FlexECalendar) :=
  s.client.flexe.findSome? (fun e => match e.2.current with | some x => if x.slots.contains c then some (e.1, x) else none | none => none)

/-- A client's rate in Gb/s: a FlexE client's is 5 Gb/s for each of its calendar slots. -/
def State.clientGbps (s : State) (c : Nat) : Nat :=
  let k := s.clientOf c
  if k.mode = 4 then (match s.flexeGroup c with | some (_, x) => 5 * (x.slots.filter (· == c)).length | none => 0) else 100 * rateOf k.kind

/-- LINK of a client; down while PCS alignment starts again (R67). A FlexE client's is up while every PHY of its group is (log entry 34). -/
def State.linkOf (s : State) (c : Nat) : Nat :=
  let k := s.clientOf c
  if k.realign then 0 else if k.mode = 4 then (match s.flexeGroup c with | some (_, x) => b2n (x.phys.all (fun p => (s.clientOf p).link == 1)) | none => 0) else k.link

/-- The client takes part in frames: packet, transparent, or FlexE client. -/
def Client.framed (k : Client) : Bool := k.kind != 0 && (k.mode == 0 || k.mode == 1 || k.mode == 4)

/-! Classification (R286). -/

/-- A key as a number: PORT, KIND, TAG and the reserved half-word. -/
def classKey (port kind tag : Nat) : Nat := beNat (be 1 port ++ be 1 kind ++ be 4 tag ++ zeros 2)

/-- The bucket of a key. -/
def keyBucket (k : Nat) : Nat := (crc32c (be 8 k)).toNat % 65536

/-- The keys a frame is looked up by, in order. -/
def frameKeys (port : Nat) (d : List Byte) : List Nat :=
  let tpid := u16 d 12
  let outer := u16 d 14 % 4096
  let tagged := tpid = 0x88A8 ∨ tpid = 0x8100
  (if tagged ∧ u16 d 16 = 0x8100 then [classKey port 2 (outer * 65536 + u16 d 18 % 4096)] else []) ++
    (if tagged then [classKey port 1 (outer * 65536)] else if tpid = 0x8847 then [classKey port 3 (field d 14 3 / 16)] else []) ++ [classKey port 0 0]

/-- The service queue of a frame; nothing where it misses and the client drops misses. -/
def State.classify (s : State) (c : Nat) (d : List Byte) : Option Nat :=
  match (frameKeys c d).find? (fun k => tblGet 0 s.client.classes k != 0) with
  | some k => some (tblGet 0 s.client.classes k - 1)
  | none => let q := (s.clientOf c).defQueue; if q = 0xFFFFFFFF then none else some q

/-! Reception (R273, R274). -/

/-- The quads of a client. -/
def Client.quads (k : Client) : List Nat := (List.range 16).filter k.inQuad

/-- The quads whose lanes carry a client: its own, or for a FlexE client those of the PHYs of its group (R272, R275). -/
def State.quadsOf (s : State) (c : Nat) : List Nat :=
  if (s.clientOf c).mode = 4 then (match s.flexeGroup c with | some (_, x) => (x.phys.flatMap (fun p => (s.clientOf p).quads)).eraseDups | none => [])
  else (s.clientOf c).quads

/-- Frames on the way to or from a client are a demand on its quads (R61). -/
def demandLanes (c : Nat) (s : State) : State := forEach (s.quadsOf c) (demand 3) s

/-- No lane of the client is in electrical idle: its quads are in P0, or exit with their lanes trained (R66, R67). -/
def State.lanesAwake (s : State) (c : Nat) : Bool :=
  (s.quadsOf c).all (fun q => (s.dom 3 q).state == 0)

/-- The host FEC counters (R293). -/
def countFec (c : Nat) (f : HostFec) (s : State) : State :=
  bump pmClient c 10 f.codewords (bump pmClient c 11 f.corrected (bump pmClient c 12 f.uncorrectable (bump pmClient c 13 f.symbols s)))

/-- R274: a frame is received whole. Lanes in electrical idle receive nothing: what arrives there starts their exit. -/
def clientFrameRx (c : Nat) (data : List Byte) (fcsOk : Bool) (fec : HostFec) (odd : List OddWord) (s : State) : State :=
  let k := s.clientOf c
  if !(s.trafficRuns && k.kind != 0) then s
  else if !s.lanesAwake c then demandLanes c s
  else
    let s := if k.mode = 4 then s else countFec c fec s
    if !k.framed then s else
      let n := data.length
      let tooLong := decide (k.maxFrame < n)
      let s := bump pmClient c 0 1 (bump pmClient c 2 (b2n tooLong) (bump pmClient c 1 (b2n (!fcsOk && !tooLong)) s))
      let s := modClient c (fun k => { k with rxCount := k.rxCount + 1 }) s
      let queue := if k.mode = 1 ∨ tooLong ∨ !fcsOk then none else s.classify c data
      let missed := k.mode != 1 && !tooLong && fcsOk && queue.isNone
      let (lat, s) := drawNat s
      let s := traceItem (8 + s.clientCorner c) 0 c (b2n (k.mode != 1 && queue.isNone)) k.rxCount c 0xFFFFFFFF lat n (bump pmClient c 3 (b2n missed) s)
      match queue with
      | some q => enqueue q data odd s
      | none => s
def execClientFrameRx (c : Fin 64) (data : List Byte) (fcsOk : Bool) (fec : HostFec) (odd : List OddWord) (s : State) : Result :=
  .next (clientFrameRx c data fcsOk fec odd s)

/-- R273, R292: a physical client's LINK changes. -/
def clientLinkChange (c link : Nat) (s : State) : State :=
  let k := s.clientOf c
  if !(s.trafficRuns && k.kind != 0 && k.mode != 4) then s
  else if k.link == link then modClient c (fun k => { k with realign := false }) s
  else
    let s := modClient c (fun k => { k with link, realign := false }) s
    let s := raise 0x0601 0 (be 1 c ++ be 1 link ++ zeros 2) (k.link == 1) s
    if (k.link == 1) != (link == 1) then hostClock c (link == 1) s else s
def execClientLinkChange (c : Fin 64) (link : Fin 4) (s : State) : Result := .next (clientLinkChange c link s)

/-- The clients whose lanes have left electrical idle: PCS alignment has started again, so their LINK is down (R67). -/
def settleLinks (s : State) : State :=
  forEach ((s.client.clients.filter (fun e => e.2.realign)).map (fun e => e.1)) (fun c s => clientLinkChange c 0 s) s

/-! Elastic buffers (R280, R281). Blocks are 0 idle, 1 start, 2 data, 3 terminate. -/

/-- The buffer of a client and direction. -/
def State.elasticOf (s : State) (c dir : Nat) : Elastic := tblGet {} s.client.elastic (c * 2 + dir)
def modElastic (c dir : Nat) (f : Elastic → Elastic) (s : State) : State :=
  modClients (fun x => { x with elastic := tblMod {} x.elastic (c * 2 + dir) f }) s

/-- The client's depth, its centre, and the fill at which frames are discarded. -/
def elasticDepth (kind : Nat) : Nat := 2048 * rateOf kind

/-- A block comes to the buffer. -/
def elasticEnter (c dir kind block : Nat) (s : State) : State :=
  let e := s.elasticOf c dir
  let fill := e.blocks.length
  let depth := elasticDepth kind
  if e.discarding then (if block = 3 then modElastic c dir (fun e => { e with discarding := false }) s else s)
  else if block = 1 ∧ depth ≤ fill + 64 then bump pmClient c 6 1 (modElastic c dir (fun e => { e with discarding := true }) s)
  else if block = 0 ∧ e.lastIdle ∧ depth / 2 + 16 < fill then bump pmClient c 9 1 s
  else
    let put := fun s => modElastic c dir (fun e => { e with blocks := e.blocks ++ [block], lastIdle := block == 0 }) s
    if block = 3 ∧ fill + 16 < depth / 2 then
      bump pmClient c 8 1 (modElastic c dir (fun e => { e with blocks := e.blocks ++ [3, 0], lastIdle := true }) s)
    else put s

/-- A block leaves the buffer, or the buffer is found empty. Frames sent to the host count as their start block leaves. -/
def elasticLeave (c dir : Nat) (s : State) : State :=
  let e := s.elasticOf c dir
  match e.blocks with
  | [] => if e.sending && !e.broken then bump pmClient c 7 1 (modElastic c dir (fun e => { e with broken := true }) s) else s
  | b :: r =>
    let s := modElastic c dir (fun e => { e with
      blocks := r, sending := if b = 1 then true else if b = 3 then false else e.sending, broken := if b = 1 ∨ b = 3 then false else e.broken }) s
    if b = 1 ∧ dir = 1 then bump pmClient c 4 1 s else s

/-- The stream of a direction passes: to the line, lanes with PCS alignment; to the host, a tributary not in signal fail. Otherwise local
fault ordered sets are sent in its place (R282). -/
def State.streamPasses (s : State) (c dir : Nat) : Bool :=
  if dir = 0 then (s.clientOf c).link != 0 else match s.gmpTrib c with | some t => !s.tribFail t | none => false

/-- R280: a block enters, a block leaves, or both. -/
def elasticBufferBlock (c dir : Nat) (enters : Option (Fin 4)) (leaves : Bool) (s : State) : State :=
  let k := s.clientOf c
  if !(s.trafficRuns && k.kind != 0 && k.mode == 1) then s
  else if !s.streamPasses c dir then modElastic c dir (fun e => { e with blocks := [], discarding := false, sending := false, broken := false, lastIdle := false }) s
  else
    let s := match enters with | some b => elasticEnter c dir k.kind b s | none => s
    if leaves then elasticLeave c dir s else s
def execElasticBufferBlock (c : Fin 64) (egress : Bool) (enters : Option (Fin 4)) (leaves : Bool) (s : State) : Result :=
  .next (elasticBufferBlock c (b2n egress) enters leaves s)

/-! Flex Ethernet (R275, R276). -/

/-- EV_CL_FLEXE_CAL. -/
def flexeEvent (g result : Nat) (s : State) : State := raise 0x0603 0 (be 1 g ++ be 1 (b2n (s.flexeOf g).useB) ++ be 1 result ++ zeros 1) false s

/-- The far end acknowledges: the written calendar is in use from its first cycle. Clients that leave the calendar lose the frame in
progress, where they have one. -/
def flexeCalAck (g : Nat) (inFrame : List Nat) (s : State) : State :=
  let x := s.flexeOf g
  match x.pending with
  | none => s
  | some cal => when s.trafficRuns (fun s =>
      let gone := (((x.current.map (fun y => y.slots)).getD []).filter (fun c => c != 0xFF && !cal.slots.contains c)).eraseDups
      let s := forEach (gone.filter (fun c => inFrame.contains c)) (fun c s => bump pmClient c 1 1 (bump pmClient c 0 1 s)) s
      flexeEvent g 0 (modFlexe g (fun _ => ⟨some cal, !x.useB, none⟩) s)) s
def execFlexeCalAck (g : Fin 8) (inFrame : List Nat) (s : State) : Result := .next (flexeCalAck g inFrame s)

def flexeSwitchTimeout (g : Nat) (s : State) : State :=
  when (s.trafficRuns && (s.flexeOf g).pending.isSome) (fun s => flexeEvent g 1 (modFlexe g (fun x => { x with pending := none }) s)) s
def execFlexeSwitchTimeout (g : Fin 8) (s : State) : Result := .next (flexeSwitchTimeout g s)

/-! The demapper and the egress FIFO (R284, R285). -/

/-- EV_CL_GFP_LFD. -/
def gfpEvent (t state : Nat) (s : State) : State := raise 0x0602 0 (be 2 t ++ be 1 state ++ zeros 1) false s

/-- The demapper's state changes: 0 hunt, 1 pre-sync, 2 sync. Every entry to hunt and every one to sync is an event. -/
def gfpGo (t new : Nat) (s : State) : State :=
  let old := (s.trib t).gfp
  if old = new then s else
    let s := modTrib t (fun x => { x with gfp := new }) s
    if new = 1 then s else gfpEvent t new s

/-- Bits of a frame on the wire: preamble and gap add 20 bytes. -/
def wireBits (n : Nat) : Nat := 8 * (n + 20)

/-- The FIFO after some bits have left. -/
def drainFifo : List Nat → Nat → Nat → List Nat × Nat
  | [], _, _ => ([], 0)
  | n :: r, sent, bits => if wireBits n ≤ sent + bits then drainFifo r 0 (sent + bits - wireBits n) else (n :: r, sent + bits)

/-- The FIFO at the present time: it drains at the client's rate, in bits per ns (log entry 35). -/
def Egress.at (e : Egress) (now gbps : Nat) : Egress :=
  let (f, sent) := drainFifo e.frames e.sent ((now - e.at_) * gbps)
  ⟨f, sent, now⟩

/-- A frame arrives at its egress client's FIFO (R285, R507), a demand on the client's quads. Both outcomes count in PM_TR_GFP_RX, which the identity of R507 asks for
(log entry 36). -/
def egressFrame (t c n : Nat) (s : State) : State :=
  let gbps := s.clientGbps c
  let e := (tblGet {} s.client.egress c).at s.localNs gbps
  let fits := decide (e.frames.foldl (· + ·) 0 + n ≤ 65536 * gbps / 100)
  let s := bump pmTrib t 2 1 (bump pmClient c (if fits then 4 else 5) 1 s)
  demandLanes c (modClients (fun x => { x with
    egress := tblSet {} x.egress c (if fits then { e with frames := e.frames ++ [n] } else e) }) s)

/-- A GFP frame in sync. -/
def gfpFrame (t : Nat) (f : GfpSeen) (s : State) : State :=
  let c := (s.trib t).now.client
  if f.idle then s
  else
    let bad := !f.thec || f.upi != 1 || decide ((s.clientOf c).maxFrame < f.length)
    let item := (s.trib t).rxCount
    let s := modTrib t (fun x => { x with rxCount := x.rxCount + 1 }) s
    let s := if bad then bump pmTrib t 5 1 s else egressFrame t c f.length s
    let (lat, s) := drawNat s
    traceItem 12 0 t (b2n bad) item (t + 0x80000000) 0xFFFFFFFF lat f.length s

/-- R284: one GFP frame at the demapper. Hunt corrects no bit; DELTA is 1, so the second good header in a row is in sync. -/
def gfpFrameRx (t : Nat) (f : GfpSeen) (s : State) : State :=
  let x := s.trib t
  if !s.trafficRuns || x.now.kind != 2 then s
  else if s.tribFail t then gfpGo t 0 s
  else match x.gfp with
    | 2 => if f.chec = 2 then gfpGo t 0 s else gfpFrame t f (bump pmTrib t 4 (b2n (f.chec == 1)) s)
    | 1 => if f.chec = 0 then gfpFrame t f (gfpGo t 2 s) else gfpGo t 0 s
    | _ => if f.chec = 0 then gfpGo t 1 s else s
def execGfpFrameRx (t : Fin 256) (f : GfpSeen) (s : State) : Result := .next (gfpFrameRx t f s)

/-- Every GFP-F tributary that delivers to a client is in signal fail (R285). -/
def State.egressFails (s : State) (c : Nat) : Bool :=
  let ts := s.client.tribs.filter (fun e => e.2.now.kind == 2 && e.2.now.client == c)
  !ts.isEmpty && ts.all (fun e => s.tribFail e.1)

/-- What a client's host lanes send: 0 nothing, in electrical idle, 1 the stream, 2 idle, 3 local fault, 4 remote fault (R66, R273, R282,
R285, R364). -/
def State.hostSends (s : State) (c : Nat) : Nat :=
  let k := s.clientOf c
  let m := s.protect.mirror
  if k.kind = 0 ∨ !s.trafficRuns ∨ !s.lanesAwake c ∨ (m.clientMask.testBit c ∧ m.state ≠ 0 ∧ (m.state ≠ 3 ∨ m.releasing.isSome)) then 0
  else if k.mode = 1 ∧ (s.gmpTrib c).isSome ∧ !s.streamPasses c 1 then 3
  else if s.egressFails c then (if k.failLf = 1 then 3 else 2)
  else if s.linkOf c = 2 then 4
  else if s.linkOf c = 3 then 2
  else 1

/-- What one lane sends, as `hostSends`; a lane without a client is idle. -/
def State.laneSends (s : State) (lane : Nat) : Nat :=
  match s.client.clients.find? (fun e => decide (e.2.firstLane ≤ lane ∧ lane < e.2.firstLane + e.2.lanes)) with
  | some e => s.hostSends e.1
  | none => 0

/-- A unit in LINE_MODE 1 or 2 sends the agreement's local fault indication: its client has no PCS alignment, or there is none (R288). -/
def State.zrFault (s : State) (u : Nat) : Bool :=
  (match (s.cu u).fmtTx with | some f => f.lineMode != 0 | none => false) &&
    s.client.clients.all (fun e => !(e.2.kind != 0 && e.2.mode == 3 && e.2.zrCu == u && s.linkOf e.1 != 0))

/-- The training burst that the lanes of a quad sent when they last left electrical idle (R67). -/
def State.trainingBurst (s : State) (quad : Nat) : List Nat := (List.range (tblGet 0 s.client.bursts quad)).map Config.prbs13q

/-! CLIENT.SET_CLIENT (R270, R271, R288, R291). -/

/-- An enabled tributary, a FlexE group or a ZR unit uses the client. -/
def State.clientUsed (s : State) (c : Nat) : Bool :=
  s.client.tribs.any (fun e => (e.2.set.kind != 0 && e.2.set.client == c) || (e.2.now.kind != 0 && e.2.now.client == c)) ||
    s.client.flexe.any (fun e => e.2.calendars.any (fun x => x.phys.contains c || x.slots.contains c)) ||
    (let k := s.clientOf c
     k.kind != 0 && k.mode == 3 && (match (s.cu k.zrCu).fmt with | some f => f.lineMode != 0 | none => false))

/-- The client that a request describes. -/
def clientAsked (q : Request) : Client :=
  { kind := q.b 1, firstLane := q.b 2, lanes := if q.b 4 = 4 then 0 else laneCount (q.b 1) (q.b 3), laneRate := q.b 3, mode := q.b 4, zrCu := q.b 5
    maxFrame := q.h 6, defQueue := q.w 8, failLf := q.b 12 }

/-- Two clients share a lane. -/
def lanesOverlap (a b : Client) : Bool := decide (a.firstLane < b.firstLane + b.lanes ∧ b.firstLane < a.firstLane + a.lanes)

/-- Two clients share a quad at different rates. -/
def quadClash (a b : Client) : Bool := a.laneRate != b.laneRate && (List.range 16).any (fun q => a.inQuad q && b.inQuad q)

/-- FIRST_LANE is 0 for a FlexE client; else a multiple of the lane count, all lanes in one corner. -/
def laneOk (k : Client) : Bool :=
  if k.mode = 4 then k.firstLane == 0
  else decide (k.firstLane ≤ 63 ∧ k.firstLane % k.lanes = 0 ∧ k.firstLane / 16 = (k.firstLane + k.lanes - 1) / 16)

/-- A ZR client suits its unit (R288). -/
def State.zrOk (s : State) (c : Nat) (k : Client) : Bool :=
  k.mode != 3 || (match (s.cu k.zrCu).fmt with
    | some f => f.lineMode != 0 && k.kind == 2 + f.lineMode && !s.client.clients.any (fun e => e.1 != c && e.2.mode == 3 && e.2.zrCu == k.zrCu)
    | none => false)

/-- The client takes its new definition; a change of lanes starts its buffers and its LINK afresh. -/
def setClient (c : Nat) (k : Client) (s : State) : State :=
  let old := s.clientOf c
  let same := old.kind == k.kind && old.firstLane == k.firstLane && old.laneRate == k.laneRate && old.mode == k.mode
  let s := if old.link = 1 ∧ !same then hostClock c false s else s
  let s := if same then modClient c (fun o => { k with link := o.link, rxCount := o.rxCount, realign := o.realign }) s
    else modClients (fun x => { x with
      clients := tblSet {} x.clients c k, elastic := tblErase (tblErase x.elastic (2 * c)) (2 * c + 1), egress := tblErase x.egress c }) s
  followQuads s

/-- The fields of a removal other than CLIENT and TYPE carry nothing and are not judged, but for the reserved bytes, which are zero in
every payload (R6, log entry 37). -/
def clientSetClient (q : Request) (s : State) : Reply :=
  let c := q.b 0
  let k := clientAsked q
  let others := (s.client.clients.filter (fun e => e.1 != c)).map (fun e => e.2)
  checked ([unitZero q, inByte q 0 0 63, inByte q 1 0 5] ++ (if q.b 1 = 0 then [resv q 13 3] else
    [(decide (q.b 2 ≤ 63) && (if q.b 4 = 4 then q.b 2 == 0 else !decide (q.b 3 ≤ 1) || k.lanes == 0 || laneOk k), 2),
     (decide (q.b 3 ≤ 1) && (q.b 4 == 4 || k.lanes != 0), 3),
     (decide (q.b 4 ≤ 4) && !(q.b 4 == 2 && decide (3 < q.b 1)), 4), (decide (q.b 5 ≤ 3) && (q.b 4 == 3 || q.b 5 == 0), 5), inHalf q 6 64 16000,
     (decide (q.w 8 ≤ 131071) || q.w 8 == 0xFFFFFFFF, 8), inByte q 12 0 1, resv q 13 3])) s <|
  require [(q.b 1 == 0 || !others.any (lanesOverlap k), .lanesBusy), (q.b 1 == 0 || !others.any (quadClash k), .laneRate),
    (!s.clientUsed c, .state), (q.b 1 == 0 || s.zrOk c k, .state)] s <|
    .okay (setClient c (if q.b 1 = 0 then {} else k) s)

/-! CLIENT.SET_TRIB (R277 to R279, R350, R374). -/

/-- SLOTS as a mask: bit t of byte t / 8 is slot t. -/
def slotMask (b : List Byte) : Nat := b.foldr (fun x a => a * 256 + x.toNat) 0

/-- A slot of the request that another tributary of the unit holds, with its holder. -/
def State.slotTaken (s : State) (t u slots : Nat) : Option (Nat × Nat) :=
  (bitsOf 640 slots).findSome? (fun i => match s.client.tribs.find? (fun e => e.1 != t &&
      ((e.2.set.kind != 0 && e.2.set.cu == u && e.2.set.slots.testBit i) || (e.2.now.kind != 0 && e.2.now.cu == u && e.2.now.slots.testBit i))) with
    | some e => some (i, e.1)
    | none => none)

/-- The unit's security slot is reserved: a channel of it is SECURE, or is to be (R374). -/
def State.secureUnit (s : State) (u : Nat) : Bool :=
  [0, 1].any (fun d => (s.channel u d).secure || (match (s.channel u d).modeDue with | some (on, _) => on | none => false))

/-- The allocation waits for the first frame with MFAS 0, which the hub builds whatever the transmit path does (R278, R296). -/
def clientSetTrib (q : Request) (s : State) : Reply :=
  let t := q.b 0
  let u := q.b 1
  let kind := q.b 2
  let slots := slotMask (bytesAt q.payload 8 80)
  let n := match (s.cu u).fmt with | some f => f.otucN | none => 32
  let k := s.clientOf (q.b 3)
  let old := (s.trib t).set
  let asked : Alloc := if kind = 0 then {} else ⟨u, kind, q.b 3, slots⟩
  let suits := kind == 0 || (k.kind != 0 && (if kind = 1 then k.mode == 1 else k.mode == 0 || k.mode == 4))
  checked [unitZero q, inByte q 1 0 3, inByte q 2 0 2, (decide (q.b 3 ≤ 63) && suits, 3), resv q 4 4,
    (decide (slots < 2 ^ (20 * n)) && (kind == 0 || slots != 0), 8)] s <|
  require [(s.native u, .state), (!s.twinPartner u, .state), (old.kind == 0 || kind == 0 || asked == old, .state)] s <|
    if kind = 0 then .okay (modTrib t (fun x => { x with set := {} }) s)
    else match s.slotTaken t u slots with
      | some (i, h) => .reject .slotBusy (be 2 i ++ be 2 h) s
      | none =>
        if slots.testBit (20 * n - 1) ∧ s.secureUnit u then .reject .slotBusy (be 2 (20 * n - 1) ++ be 2 0xFFFF) s
        else if kind = 1 ∧ (bitsOf 640 slots).length ≠ gmpSlots k.kind then .reject .slotCount (be 2 (gmpSlots k.kind) ++ zeros 2) s
        else .okay (modTrib t (fun x => { x with set := asked }) s)

/-! The other commands. -/

/-- Calendar slots of a PHY type. -/
def phySlots (ty : Nat) : Nat := match ty with | 1 => 20 | 2 => 40 | 3 => 80 | _ => 0

/-- The first `n` PHYS name different FlexE PHYs of the type, the rest nothing. -/
def physOk (q : Request) (n : Nat) (s : State) : Bool :=
  let ps := (List.range n).map (fun i => q.b (8 + i))
  ps.all (fun p => decide (p < 64) && (s.clientOf p).kind == q.b 2 && (s.clientOf p).mode == 2) && decide (ps.eraseDups.length = n) &&
    (List.range (16 - n)).all (fun i => q.b (8 + n + i) == 0xFF)

/-- R276, R290, R291. A removal's other fields carry nothing (log entry 37). -/
def clientSetFlexe (q : Request) (s : State) : Reply :=
  let g := q.b 0
  let n := q.b 1
  let size := n * phySlots (q.b 2)
  let x := s.flexeOf g
  let slots := (List.range size).map (fun i => q.b (24 + i))
  if n = 0 then
    checked [unitZero q, inByte q 0 0 7, (q.payload.length == 24, 1), resv q 3 1] s <|
      .okThen (modFlexe g (fun x => { ({} : FlexE) with useB := x.useB }) s) (fun s =>
        modFlexe g (fun _ => {}) (if x.pending.isSome then flexeEvent g 2 s else s))
  else
    checked [unitZero q, inByte q 0 0 7, (decide (n ≤ 16) && (!decide (1 ≤ q.b 2 ∧ q.b 2 ≤ 3) || q.payload.length == 24 + size), 1), inByte q 2 1 3,
      resv q 3 1, inWord q 4 1 0xFFFFE, (physOk q n s, 8),
      (slots.all (fun c => c == 0xFF || (decide (c < 64) && (s.clientOf c).kind != 0 && (s.clientOf c).mode == 4)), 24)] s <|
    require [(x.pending.isNone, .busy)] s <|
      .okay (modFlexe g (fun x => { x with pending := some ⟨q.w 4, q.b 2, (List.range n).map (fun i => q.b (8 + i)), slots⟩ }) s)

/-- The key of a SET_CLASS is one of R286. -/
def keyOk (q : Request) : Bool :=
  let tag := q.w 2
  (match q.b 1 with
    | 0 => tag == 0
    | 1 => tag % 65536 == 0 && decide (tag < 2 ^ 28)
    | 2 => decide (tag / 4096 % 16 = 0 ∧ tag < 2 ^ 28)
    | _ => decide (tag < 2 ^ 20))

/-- R287. -/
def clientSetClass (q : Request) (s : State) : Reply :=
  let key := q.d 0
  let w := q.w 8
  let bucket := (s.client.classes.filter (fun e => keyBucket e.1 == keyBucket key)).length
  checked [unitZero q, inByte q 0 0 63, inByte q 1 0 3, (keyOk q, 2), resv q 6 2, (w / 2 ^ 17 % 2 ^ 14 == 0, 8)] s <|
    if w.testBit 31 then .okay (modClients (fun x => { x with classes := tblErase x.classes key }) s)
    else if tblGet 0 s.client.classes key = 0 ∧ 4 ≤ bucket then .refuse .tableFull s
    else .okay (modClients (fun x => { x with classes := tblSet 0 x.classes key (w % 2 ^ 17 + 1) }) s)

/-- TRIB of R290: the lowest-numbered tributary that names the client. -/
def State.tribOfClient (s : State) (c : Nat) : Nat :=
  ((s.client.tribs.find? (fun e => e.2.set.kind != 0 && e.2.set.client == c)).map (fun e => e.1)).getD 0xFFFF

def clientGetStatus (q : Request) (s : State) : Reply :=
  let k := s.clientOf q.u
  checked [unitBelow q 64] s <|
    .okWith (be 1 (s.linkOf q.u) ++ be 1 k.mode ++ be 2 (s.tribOfClient q.u) ++
      be 2 (if k.mode = 1 then (s.elasticOf q.u 1).blocks.length else 0) ++ zeros 2) s

def clientGetCounts (q : Request) (s : State) : Reply :=
  checked [(decide (q.u < 64 ∨ (0x100 ≤ q.u ∧ q.u ≤ 0x1FF)), 0xFFFF)] s <|
    .okWith (if q.u < 64 then countsReply s pmClient q.u 0 14 else countsReply s pmTrib (q.u - 0x100) 0 7 ++ zeros 56) s

def execClientSetClient (q : Request) (s : State) : Result := .next (takeRequest 0x0601 q clientSetClient s)
def execClientSetTrib (q : Request) (s : State) : Result := .next (takeRequest 0x0602 q clientSetTrib s)
def execClientSetFlexe (q : Request) (s : State) : Result := .next (takeRequest 0x0603 q clientSetFlexe s)
def execClientSetClass (q : Request) (s : State) : Result := .next (takeRequest 0x0604 q clientSetClass s)
def execClientGetStatus (q : Request) (s : State) : Result := .next (takeRequest 0x0605 q clientGetStatus s)
def execClientGetCounts (q : Request) (s : State) : Result := .next (takeRequest 0x0606 q clientGetCounts s)

end Sys2Proof.Machine
end

