-- ==== Sys2Proof/Machine/ControlPort.lean ====
section
/-! DEFINITION. The control port's transactions (R105 to R111), packets that are no command (R116), forwarding (R480), the event
routes (R128) and the SESSION commands (R118 to R136). -/

namespace Sys2Proof.Machine

/-! Transactions. -/

/-- The room that a pull leaves lets replies that wait into the queue (R129). -/
def admitReplies (s : State) : State := modControl (fun c => c.admitHeld c.held) s

/-- The byte shifted out while the first byte is clocked in (R106). -/
def statusByte (s : State) : Byte := BitVec.ofNat 8 (slCpStatus s)

/-- What CP_MISO carries in a read transaction of a sill register that clocks `n` bytes after its first: the status byte, 0x00 during
ADDR and the dummy byte, the register big-endian, and 0x00 from then on (R106, R107). A read changes nothing. -/
def cpRead (addr n : Nat) (s : State) : List Byte :=
  if s.portLives then statusByte s :: fitBytes n (zeros 2 ++ be 4 (slRead s addr)) else []

/-- R108: a push ends. The buffer keeps 16 412 bytes and counts every byte clocked. -/
def cpPushPacket (bytes : List Byte) (s : State) : State :=
  when s.portLives (fun s =>
    let out := statusByte s :: zeros bytes.length
    receive { port := .control, bytes := bytes.take 16412, count := bytes.length } (modPins (fun p => { p with cpMiso := out }) s)) s
def execCpPushPacket (bytes : List Byte) (s : State) : Result := .next (cpPushPacket bytes s)

/-- R109: a pull that clocks `n` bytes after its first; the head leaves only when it was clocked out whole. -/
def cpPull (n : Nat) (s : State) : State :=
  if !s.portLives then s else
    let st := statusByte s
    match s.control.outgoing with
    | [] => modSill (Sill.mark .underrun) (modPins (fun p => { p with cpMiso := st :: zeros n }) s)
    | o :: rest =>
      let b := packetBytes o.packet
      let s := modPins (fun p => { p with cpMiso := st :: fitBytes n b }) s
      if b.length ≤ n then freeEntry o.entry (admitReplies (modControl (fun c => { c with outgoing := rest }) s)) else s
def execCpPull (clocked : Nat) (s : State) : Result := .next (cpPull clocked s)

/-- R105: a first byte that is no transaction type; CP_MISO stays low after the status byte. The two register types and the two
packet types have commands of their own. -/
def cpInvalidTransaction (first : Byte) (s : State) : State :=
  when (s.portLives && !(first == 0x0B || first == 0x02 || first == 0x5A || first == 0xA5))
    (modPins (fun p => { p with cpMiso := [statusByte s] })) s
def execCpInvalidTransaction (first : Byte) (s : State) : Result := .next (cpInvalidTransaction first s)

/-! Packets that are no command. -/

/-- What the first failing check does to a packet Salurn takes (R116, R117). -/
def rejectRaw (port : Port) (origin : Nat) (bytes : List Byte) (f : RawFail) (s : State) : State :=
  let crc := fun s => modSill (Sill.mark .crcErr) s
  match f with
  | .discard => crc s
  | .refuse st pl session0 =>
    let p := parsePacket bytes
    let q := packetRequest port origin 0 p
    let s := if st = .crc then crc s else s
    answer p.opcode.toNat (if session0 then { q with session := 0 } else q) st pl s

/-- R116: a packet that fails a check before any command is known arrives, and Salurn takes it in its turn (R125). A packet that passes
checks 1 to 6 is another command's. -/
def malformedPacket (port : Port) (bytes : List Byte) (count : Nat) (s : State) : State :=
  match rawChecks bytes count with
  | none => s
  | some f =>
    if !s.portTakes port then s
    else match s.namesNext port bytes with
      | some (i, r) => rejectRaw port r.origin bytes f (takeAt i s)
      | none =>
        if s.rxFull port then overrun s
        else if s.intakeOpen && s.recorded.isNone && s.nextIndex.isNone then rejectRaw port 0 bytes f s
        else enqueueRx { port, bytes := bytes.take 16412, count } s
def execMalformedPacket (port : Port) (bytes : List Byte) (count : Nat) (s : State) : Result :=
  .next (malformedPacket port bytes count s)

/-- The packet is a request for one other device that passes checks 1 to 8 here. -/
def forwards (port : Port) (p : Packet) (s : State) : Bool :=
  let o := opOf p.opcode.toNat
  (rawChecks (packetBytes p) (packetSize p)).isNone && !broadcastBit p.flags && !targetsSelf s (packetRequest port 0 0 p) &&
    decide (o.lo ≤ p.payload.length / 4 ∧ p.payload.length / 4 ≤ o.hi)

/-- R480: a request for one other device goes toward it after checks 1 to 8, in its turn (R125). A packet for this device, and a
broadcast, which this device also executes, are their own commands' concern. -/
def packetForward (port : Port) (p : Packet) (s : State) : State :=
  if !(s.portTakes port && forwards port p s) then s
  else match s.namesNext port (packetBytes p) with
    | some (i, r) => forwardOne p.opcode.toNat r.request (takeAt i s)
    | none =>
      if s.rxFull port then overrun s
      else if s.goesFirst (packetRequest port 0 0 p) then forwardOne p.opcode.toNat (packetRequest port 0 0 p) s
      else enqueueRx { port, bytes := packetBytes p, count := packetSize p } s
def execPacketForward (port : Port) (p : Packet) (s : State) : Result := .next (packetForward port p s)

/-! Event routes. -/

/-- R128: the event at the head of the control-port route enters the outgoing queue when it has room. -/
def eventToOutgoingQueue (s : State) : State :=
  match s.control.routeCp.queue with
  | [] => s
  | e :: rest =>
    if !(s.hubUp && s.control.held.isEmpty && s.control.room (eventPacket s e)) then s
    else flushLost 0 (modControl (fun c => { c with
        outgoing := c.outgoing ++ [{ packet := eventPacket s e, isReply := false }]
        routeCp := { c.routeCp with queue := rest } }) s)
def execEventToOutgoingQueue (s : State) : Result := .next (eventToOutgoingQueue s)

/-- R128: a route that dropped events and has space again queues EV_EVENTS_LOST. -/
def execEventsLostQueued (route : Fin 3) (s : State) : Result := .next (flushLost route s)

/-! Sessions. -/

/-- R121: no request has arrived on an open session for its idle time; one that still executes is replied first. -/
def sessionIdleExpiry (n : Nat) (s : State) : State :=
  match s.session n with
  | some x => when x.awaiting.isNone (endSession n 2) s
  | none => s
def execSessionIdleExpiry (number : Nat) (s : State) : Result := .next (sessionIdleExpiry number s)

/-- R120: a session still awaits authentication after 30 s. -/
def sessionAuthExpiry (n : Nat) (s : State) : State :=
  match s.session n with
  | some x => when x.awaiting.isSome (closeSession n 4) s
  | none => s
def execSessionAuthExpiry (number : Nat) (s : State) : Result := .next (sessionAuthExpiry number s)

def roleOf (c : Nat) : Role := if c = 1 then .supervisor else if c = 2 then .operator else .observer

/-- Numbers run from 1 to 0xFFFF in turn; one still held is passed over (R118). -/
def nextNumber (s : State) : Nat :=
  let step := fun n => if n ≥ 0xFFFF then 1 else n + 1
  (List.range 16).foldl (fun n _ => if (s.session n).isSome then step n else n) (step s.sill.lastSession)

/-- R120, R136. -/
def sessionOpen (q : Request) (s : State) : Reply :=
  checked [inByte q 0 1 3, (decide (q.b 1 ≤ 7) && (q.b 0 != 3 || q.b 1 == 0), 1), (q.h 2 == 0 || decide (10 ≤ q.h 2), 2)] s <|
  require [(decide (s.control.sessions.length < 16), .busy)] s <|
    let role := roleOf (q.b 0)
    let n := nextNumber s
    let (nonce, s) := if role = .observer then ([], s) else drawBytes 32 s
    let x : Session := { number := n, role, version := q.version, idleS := if q.h 2 = 0 then 600 else q.h 2,
                         awaiting := if role = .observer then none else some nonce, keySlot := q.b 1 }
    let s := modSill (fun k => { k with lastSession := n }) (modControl (fun c => { c with sessions := c.sessions ++ [x] }) s)
    .okWith (be 2 n ++ [0x20, 0x24] ++ (if role = .observer then zeros 32 else nonce)) s

/-- The 52 bytes that SESSION.AUTH signs (R120). -/
def authMessage (s : State) (x : Session) (nonce : List Byte) : List Byte :=
  nonce ++ s.serial ++ be 2 x.number ++ be 1 x.role.code ++ be 1 x.keySlot

/-- The host key of a slot (R377). -/
def State.hostKey (s : State) (k : Nat) : HostKey :=
  match s.security.record with
  | some r => tblGet {} r.keys k
  | none => {}

/-- R120: the signature opens the session, or the attempt counts as a failure; a session so tried is discarded with cause 5. -/
def sessionAuth (q : Request) (s : State) : Reply :=
  checked [inHalf q 0 1 0xFFFF, resv q 2 2] s <|
    match s.session (q.h 0) with
    | none => .done .auth [] (authFailure 8 s) id
    | some x =>
      match x.awaiting with
      | none => .done .auth [] (authFailure 8 s) id
      | some nonce =>
        let k := s.hostKey x.keySlot
        if k.rank ≠ 0 ∧ k.rank ≤ x.role.code ∧
            Config.ecdsaVerify k.pub (authMessage s x nonce) (bytesAt q.payload 4 66) (bytesAt q.payload 70 66) then
          .okay (modSession x.number (fun y => { y with awaiting := none, nextSeq := 1 }) s)
        else .done .auth [] (authFailure 8 s) (closeSession x.number 5)

/-- R121, R136: this session, or another one by a SUPERVISOR; the close comes once the requests that precede it have been replied. -/
def sessionClose (q : Request) (s : State) : Reply :=
  let n := if q.h 0 = 0 then q.session.toNat else q.h 0
  checked [((s.session n).isSome, 0), resv q 2 2] s <|
    .okThen s (endSession n (if n = q.session.toNat ∧ !q.port.foreign then 1 else 3))

/-- R122: the grant replaces the one before. -/
def sessionGrantCounters (q : Request) (s : State) : Reply :=
  let ok := match s.session (q.h 0) with
    | some x => x.role == .observer && x.awaiting.isNone
    | none => false
  checked [(ok, 0), resv q 2 2, inWord q 4 0 0xFFFFFF] s <|
    .okay (modSession (q.h 0) (fun x => { x with grants := q.w 4 }) s)

/-- R136. -/
def sessionGetInfo (q : Request) (s : State) : Reply :=
    match s.session q.session.toNat with
    | some x => .okWith (be 1 x.role.code ++ [x.version] ++ be 2 x.idleS ++ be 4 x.nextSeq.toNat ++ be 4 x.grants ++
        be 1 s.control.sessions.length ++ zeros 3) s
    | none => .refuse .state s

/-- R128, R136: the family mask of a route, from the first event raised after the reply. -/
def sessionSetEvents (q : Request) (s : State) : Reply :=
  checked [inByte q 0 0 2, resv q 1 3, (q.w 4 % 2 == 0 && decide (q.w 4 < 2 ^ 18), 4)] s <|
    .okThen s (modRoute (q.b 0) (fun r => { r with mask := BitVec.ofNat 32 (q.w 4) }))

def execSessionOpen (q : Request) (s : State) : Result := .next (takeRequest 0x1101 q sessionOpen s)
def execSessionAuth (q : Request) (s : State) : Result := .next (takeRequest 0x1102 q sessionAuth s)
def execSessionClose (q : Request) (s : State) : Result := .next (takeRequest 0x1103 q sessionClose s)
def execSessionGrantCounters (q : Request) (s : State) : Result := .next (takeRequest 0x1104 q sessionGrantCounters s)
def execSessionGetInfo (q : Request) (s : State) : Result := .next (takeRequest 0x1105 q sessionGetInfo s)
def execSessionSetEvents (q : Request) (s : State) : Result := .next (takeRequest 0x1106 q sessionSetEvents s)

end Sys2Proof.Machine
end

