-- ==== Sys2Proof/Machine/Firmware.lean ====
section
/-! DEFINITION. The SYSTEM commands, but for the reset they order, and the FIRMWARE commands (R95 to R104, R514). -/

namespace Sys2Proof.Machine

/-! SYSTEM. -/

/-- R101. -/
def systemGetIdentity (_q : Request) (s : State) : Reply :=
    .okWith (s.serial ++ be 4 slIdcode ++ be 1 s.otp.speedGrade ++ be 1 s.otp.floor ++ be 1 s.otp.fwRevoked ++ zeros 1) s

/-- R101: orders a reset, which waits for its reply to leave, after those ordered before it. -/
def systemReset (q : Request) (s : State) : Reply :=
  checked [inByte q 0 1 3, (if q.b 0 = 3 then decide (q.b 1 ≤ 3) else q.b 1 == 0, 1), resv q 2 2] s <|
    let id := s.control.nextEntry
    .okThen s (modControl (fun c => { c with resets := c.resets ++ [⟨q.b 0, q.b 1, id⟩] }))

/-- R95: a fresh nonce supersedes the last. -/
def systemGetDebugChallenge (_q : Request) (s : State) : Reply :=
    let (n, s) := drawBytes 32 s
    .okWith n (modFw (fun f => { f with debugNonce := some n }) s)

/-- The key that signs a debug token: Eloanath's, or the owner's where one is registered (R95). -/
def debugKey (s : State) (src : Nat) : Option (List Byte) :=
  if src = 0 then some (Config.eloanathPub 1) else s.security.record.bind (fun r => r.debugKey)

/-- R96: every attempt is an alarm cause and uses up the nonce; levels 2 and 3 first erase line and bench keys. -/
def systemDebugUnlock (q : Request) (s : State) : Reply :=
  checked [inByte q 0 1 3, inByte q 1 0 1, resv q 2 2,
    (decide (s.timing.tod.sec < q.d 4), 4)] s <|
    let ok := bytesAt q.payload 12 16 == s.serial && s.fw.debugNonce == some (bytesAt q.payload 28 32) &&
      (match debugKey s (q.b 1) with
        | some k => Config.ecdsaVerify k (q.payload.take 60) (bytesAt q.payload 60 66) (bytesAt q.payload 126 66)
        | none => false)
    let s := modFw (fun f => { f with debugNonce := none }) s
    if ok then
      let s := fireAlarm 6 s
      let s := if 2 ≤ q.b 0 then eraseClass 2 0 0 s else s
      let s := modFw (fun f => { f with debugExpiry := q.d 4 }) (modSill (fun x => { x with debugLevel := q.b 0 }) s)
      .okThen s (raise 0x0103 0 (be 1 (q.b 0) ++ be 1 (q.b 1) ++ zeros 2) false)
    else .done .auth [] (fireAlarm 6 (countAuthFail s)) id

/-- A history entry (R513). -/
def historyEntry (e : EventRec) : List Byte :=
  be 4 e.seq.toNat ++ be 2 e.code ++ be 2 e.unit ++ be 1 (b2n e.urgent + 2 * b2n e.dropped) ++ be 1 e.payload.length ++
    zeros 2 ++ e.tod.bytes ++ zeros 2 ++ fitBytes 16 e.payload

/-- R514. -/
def systemGetEvents (q : Request) (s : State) : Reply :=
  checked [unitZero q, inHalf q 4 1 256, resv q 6 2] s <|
    let h := s.control.history
    let oldest := match h with | e :: _ => e.seq | [] => s.sill.eventSeq
    let es := (h.filter (fun e => !seqOlder e.seq (BitVec.ofNat 32 (q.w 0)))).take (q.h 4)
    .okWith (be 4 oldest.toNat ++ be 4 s.sill.eventSeq.toNat ++ es.flatMap historyEntry) s

def execSystemGetIdentity (q : Request) (s : State) : Result := .next (takeRequest 0x0101 q systemGetIdentity s)
def execSystemReset (q : Request) (s : State) : Result := .next (takeRequest 0x0102 q systemReset s)
def execSystemGetDebugChallenge (q : Request) (s : State) : Result := .next (takeRequest 0x0103 q systemGetDebugChallenge s)
def execSystemDebugUnlock (q : Request) (s : State) : Result := .next (takeRequest 0x0104 q systemDebugUnlock s)
def execSystemGetEvents (q : Request) (s : State) : Result := .next (takeRequest 0x0105 q systemGetEvents s)

/-! FIRMWARE. -/

/-- STATE of FIRMWARE.GET_INFO (R103). -/
def State.fwState (s : State) : Nat :=
  if s.fw.trial then 4 else if s.fw.pendingEpoch.isSome then 3 else if s.fw.staging.isSome then 1
  else if s.fw.staged.isSome then 2 else 0

/-- FW_VERSION and SEC_VERSION of a bank, 0 when its header is not valid. -/
def bankVersions (s : State) (b : Nat) : Nat × Nat :=
  let h := flashBytes s (bankBase b) 352
  if (checkHeader s h).isNone then (u32 h 8, u16 h 6) else (0, 0)

/-- R103. -/
def firmwareGetInfo (_q : Request) (s : State) : Reply :=
    let a := bankVersions s 0
    let b := bankVersions s 1
    .okWith (be 1 s.committed ++ be 1 s.fw.runningBank ++ be 1 s.fwState ++ be 1 s.otp.floor ++ be 4 a.1 ++ be 4 b.1 ++
      be 2 a.2 ++ be 2 b.2 ++ zeros 4 ++ be 8 (s.fw.pendingEpoch.getD 0)) s

/-- FAIL_CODE 0x0B: a control-port load out of order or malformed, which only the ROM records (R91). -/
def loadFault (s : State) : State := if s.romTakes then modSill (fun x => { x with failCode := 0x0B }) s else s

/-- A staging of another session is in progress (R97). -/
def stagedByOther (q : Request) (s : State) : Bool :=
  match s.fw.staging with
  | some g => g.session != q.session.toNat
  | none => false

/-- R97: erases the header sector of the bank that is not committed, or, in the ROM, names hub memory. -/
def firmwareStageBegin (q : Request) (s : State) : Reply :=
  checked [(decide (4100 ≤ q.w 0 ∧ q.w 0 ≤ 16777216) && q.w 0 % 4 == 0, 0)] (loadFault s) <|
  require [(!(s.fw.trial || s.fw.pendingEpoch.isSome), .state), (!stagedByOther q s, .state)] s <|
    if s.romTakes then
      .okWith (be 1 0xFF ++ zeros 3) (modFw (fun f => { f with staging := some { target := 0xFF, length := q.w 0, session := q.session.toNat } }) s)
    else
      let b := 1 - s.committed
      let (ok, s) := flashTakes s
      let s := modFw (fun f => { f with staged := none, staging := none }) (flashErase (bankBase b) 0x10000 s)
      if ok then
        .okWith (be 1 b ++ zeros 3) (modFw (fun f => { f with staging := some { target := b, length := q.w 0, session := q.session.toNat } }) s)
      else .done .flash [] s id

/-- `n` staged image bytes from an offset: the header and a memory image are held, a body lies in flash. -/
def stagedBytes (s : State) (g : Staging) (off n : Nat) : List Byte :=
  (List.range n).map (fun i => let a := off + i
    if g.target = 0xFF ∨ a < 0x1000 then g.held.getD a 0 else flashByte s (bankBase g.target + a))

/-- R97, R102. -/
def firmwareStageWrite (q : Request) (s : State) : Reply :=
    match s.fw.staging with
    | none => .refuse .state (loadFault s)
    | some g =>
      if g.session ≠ q.session.toNat then .refuse .state s else
      let data := q.payload.drop 4
      let off := q.w 0
      if g.prevOffset = some off then
        if data.length = g.prevLen ∧ stagedBytes s g off data.length = data then .okay s
        else .reject .param (paramAt 4) (loadFault s)
      else if off ≠ g.written then .reject .param (paramAt 0) (loadFault s)
      else if g.length < off + data.length then .reject .param (paramAt 4) (loadFault s)
      else
        let (ok, s) := if g.target = 0xFF then (true, s) else flashTakes s
        if !ok then .done .flash [] s id else
        let inHeld := if g.target = 0xFF then data else data.take (0x1000 - off)
        let body := data.drop inHeld.length
        let s := if body.isEmpty then s else flashWrite (bankBase g.target + off + inHeld.length) body s
        .okay (modFw (fun f => { f with staging := some { g with
          written := off + data.length, prevOffset := some off, prevLen := data.length, held := g.held ++ inHeld } }) s)

/-- R97, R104: the checks of R91 on the staged image; the header is written last. A verify that fails a check ends the staging
(log entry 65). -/
def firmwareStageVerify (q : Request) (s : State) : Reply :=
    match s.fw.staging with
    | none => .refuse .state (loadFault s)
    | some g =>
      if g.session ≠ q.session.toNat ∨ g.written < g.length then .refuse .state (loadFault s) else
      let h := stagedBytes s g 0 352
      let code := (checkHeader s h).orElse (fun _ =>
        if u32 h 16 + 0x1000 ≠ g.length then some 0x04 else checkBody h (stagedBytes s g 0x1000 (u32 h 16)))
      match code with
      | some c =>
        let s := modFw (fun f => { f with staging := none }) s
        let s := if s.romTakes then modSill (fun x => { x with failCode := c }) s else s
        let s := if authCode c then authFailure 7 s else s
        if c = 0x08 then .done .rollback [] s id else .done .imageInvalid (be 1 c ++ zeros 3) s id
      | none =>
        let reply := be 4 (u32 h 8) ++ be 2 (u16 h 6) ++ zeros 2
        if g.target = 0xFF then
          .done .ok reply s (fun s => beginInit (modSill (fun x => { x with bank := s.committed, bootAlarm := false })
            (modFw (fun f => { f with staging := none, fromMemory := true, running := headerImage h, runningBank := s.committed }) s)))
        else
          let (ok, s) := flashTakes s
          let s := modFw (fun f => { f with staging := none }) s
          if ok then .okWith reply (modFw (fun f => { f with staged := some g.target }) (flashWrite (bankBase g.target) (fitBytes 0x1000 g.held) s))
          else .done .flash [] s id

/-- R98: at once, or pending for a ToD second. The restart follows the reply and the journal (R502). An activation that is pending is
replaced (log entry 65). -/
def firmwareActivate (q : Request) (s : State) : Reply :=
  checked [inByte q 0 0 1, resv q 1 3,
    (if q.b 0 = 0 then q.d 4 == 0 else q.h 4 == 0 && decide (s.timing.tod.sec < q.d 4), 4)] s <|
    match s.fw.staged with
    | none => .refuse .state s
    | some b =>
      require [(decide (s.domain.floor.getD 0 ≤ u32 (flashBytes s (bankBase b) 352) 8), .floor)] s <|
        if q.b 0 = 1 then .okay (modFw (fun f => { f with pendingEpoch := some (q.d 4) }) s)
        else .okThen (modFw (fun f => { f with activateDue := true }) s)
          (fun s => settleIntake (modControl (fun c => { c with intakeStopped := true }) s))

/-- The 32 bytes of a directory copy (R89). -/
def directoryBytes (seq bank : Nat) : List Byte :=
  let b := be 4 0xA6D17E01 ++ be 4 seq ++ be 1 bank ++ zeros 19
  b ++ be 4 (crc32c b).toNat

/-- The fuses after a burn of the floor up to `target` and of the revocation bits `revoke` (R92): the thermometer of 64 fuses and the
bits, or, where the burn is not complete, a floor between the old value and the new and some of the bits (free, log entry 7). -/
def burnFuses (target revoke : Nat) (s : State) : State :=
  let old := s.otp.floor
  let goal := max old (min target 64)
  let (whole, s) := drawBelow 2 s
  let (part, s) := drawBelow (goal - old + 1) s
  let (some', s) := drawBelow 16 s
  { s with otp := { s.otp with
      floor := if whole = 0 then goal else old + part
      fwRevoked := s.otp.fwRevoked ||| (if whole = 0 then revoke else revoke &&& some') } }

/-- R99: directory, floor fuses, revocation fuses, in that order. The new SEQ is one more than that in force (beyond its range where that
is 0xFFFF_FFFE, log entry 65), and the bank that was committed counts as staged only after the next reset (log entry 65). -/
def firmwareCommit (_q : Request) (s : State) : Reply :=
  require [(s.fw.trial, .state)] s <|
    let (copy, seq) := match s.directory with
      | some (c, d) => (1 - c, u32 d 4 + 1)
      | none => (0, 1)
    let (ok, s) := flashTakes s
    if !ok then .done .flash [] s id else
    let s := flashWrite (copy * 0x10000) (directoryBytes seq s.fw.runningBank) (flashErase (copy * 0x10000) 0x10000 s)
    let i := s.fw.running
    .okay (modFw (fun f => { f with trial := false, staged := none }) (burnFuses i.secVersion i.revoke s))

/-- R98, R100: ends a trial by a restart, or cancels a pending activation. -/
def firmwareRollback (_q : Request) (s : State) : Reply :=
  require [(s.fw.trial || s.fw.pendingEpoch.isSome, .state)] s <|
    if s.fw.trial then
      .okThen (modFw (fun f => { f with rollbackDue := true }) s) (fun s => settleIntake (modControl (fun c => { c with intakeStopped := true }) s))
    else .okThen (modFw (fun f => { f with pendingEpoch := none }) s) (raise 0x1002 0 (be 1 5 ++ zeros 3) false)

def execFirmwareGetInfo (q : Request) (s : State) : Result := .next (takeRequest 0x1001 q firmwareGetInfo s)
def execFirmwareStageBegin (q : Request) (s : State) : Result := .next (takeRequest 0x1002 q firmwareStageBegin s)
def execFirmwareStageWrite (q : Request) (s : State) : Result := .next (takeRequest 0x1003 q firmwareStageWrite s)
def execFirmwareStageVerify (q : Request) (s : State) : Result := .next (takeRequest 0x1004 q firmwareStageVerify s)
def execFirmwareActivate (q : Request) (s : State) : Result := .next (takeRequest 0x1005 q firmwareActivate s)
def execFirmwareCommit (q : Request) (s : State) : Result := .next (takeRequest 0x1006 q firmwareCommit s)
def execFirmwareRollback (q : Request) (s : State) : Result := .next (takeRequest 0x1007 q firmwareRollback s)

end Sys2Proof.Machine
end

