-- ==== Sys2Proof/Machine/Decoder.lean ====
section
/-! DEFINITION. The decoders of chapter 08 of spec/: the layered min-sum decoder of the inner code, the sliding-window decoder of the
staircase, and the way back from decided codewords to the bits of a frame. -/

namespace Sys2Proof.Machine

/-! The inner code (R219, R220, R232). -/

/-- The base entry of a row in a base column, parity columns 48 to 50 among them; none for −1. -/
def ldpcEntry (r b : Nat) : Option Nat :=
  let pick := fun (e : Nat × Nat × Nat) => if r = 0 then e.1 else if r = 1 then e.2.1 else e.2.2
  if b < 48 then some (pick (ldpcBase.getD b (0, 0, 0)))
  else if b = 48 then some (pick (1, 0, 1))
  else if b = 49 then (if r = 2 then none else some 0)
  else (if r = 0 then none else some 0)

/-- The base columns of a code with `k` information columns. -/
def ldpcColumns (k : Nat) : List Nat := List.range k ++ [48, 49, 50]

/-- The bits that enter check `t` of a row, each with the number of its edge. -/
def ldpcEdges (k r t : Nat) : List (Nat × Nat) :=
  (ldpcColumns k).zipIdx.filterMap (fun c => (ldpcEntry r c.1).map (fun s => ((r * 51 + c.2) * 256 + t, 256 * c.2 + (t + s) % 256)))

/-- Every check of the code holds for the bits that likelihoods decide; a negative one decides 1. -/
def ldpcHolds (k : Nat) (l : Array Int) : Bool :=
  [0, 1, 2].all (fun r => (List.range 256).all (fun t => !((ldpcEdges k r t).foldl (fun a e => a ^^ decide (l.getD e.2 0 < 0)) false)))

/-- Messages of 8 bits, normalised by 0.75 (R232). -/
def normalised (m : Nat) : Nat := min 127 (3 * m / 4 + (if 3 * m % 4 ≠ 0 ∧ Config.minSumUp m then 1 else 0))

/-- One check: every bit of it takes the least magnitude and the sign of the others. -/
def ldpcCheck (k r : Nat) (x : Array Int × Array Int) (t : Nat) : Array Int × Array Int :=
  let es := (ldpcEdges k r t).map (fun e => (e.1, e.2, x.1.getD e.2 0 - x.2.getD e.1 0))
  es.foldl (fun y e =>
    let others := es.filter (fun o => o.1 != e.1)
    let least := others.foldl (fun m o => min m o.2.2.natAbs) 127
    let neg := others.foldl (fun b o => b ^^ decide (o.2.2 < 0)) false
    let msg : Int := if neg then -(normalised least : Int) else normalised least
    (y.1.setIfInBounds e.2.1 (e.2.2 + msg), y.2.setIfInBounds e.1 msg)) x

/-- One iteration: a layer for each base row. -/
def ldpcIterate (k : Nat) (x : Array Int × Array Int) : Array Int × Array Int :=
  [0, 1, 2].foldl (fun x r => (List.range 256).foldl (ldpcCheck k r) x) x

/-- At most `n` iterations; a codeword whose syndrome is zero stops. The likelihoods and messages, and the iterations run. -/
def ldpcRun (k : Nat) : Nat → Array Int × Array Int → (Array Int × Array Int) × Nat
  | 0, x => (x, 0)
  | n + 1, x =>
    let y := ldpcIterate k x
    if ldpcHolds k y.1 then (y, 1) else let (z, m) := ldpcRun k n y; (z, m + 1)

/-- What decoding a codeword gives: its likelihoods, its bits, the iterations run and whether its syndrome is zero. -/
structure Decision where
  likelihoods : List Int
  bits : List Bool
  iterations : Nat
  converged : Bool
  deriving DecidableEq, Repr

/-- The decoder's passes (R197, R232): Swift is one of 8 iterations, Deep three of 8; before each further one `again` recomputes the
input from the likelihoods. -/
def ldpcPasses (k : Nat) (again : List Int → List Int) : Nat → List Int → Array Int × Array Int → Nat → Decision
  | 0, _, x, done => ⟨x.1.toList, x.1.toList.map (fun v => decide (v < 0)), done, ldpcHolds k x.1⟩
  | p + 1, input, x, done =>
    let (y, n) := ldpcRun k 8 x
    if p = 0 ∨ ldpcHolds k y.1 then ⟨y.1.toList, y.1.toList.map (fun v => decide (v < 0)), done + n, ldpcHolds k y.1⟩
    else
      let next := again y.1.toList
      let moved := (y.1.toList.zip (next.zip input)).map (fun v => v.1 + v.2.1 - v.2.2)
      ldpcPasses k again p next (moved.toArray, y.2) (done + n)

/-- A codeword is decoded from its likelihood ratios; `deep` runs three passes. -/
def ldpcDecode (k : Nat) (deep : Bool) (again : List Int → List Int) (ratios : List Int) : Decision :=
  ldpcPasses k again (if deep then 3 else 1) ratios (ratios.toArray, Array.replicate (3 * 51 * 256) 0) 0

/-- The bits that the decision changes against the input. -/
def changedBits (ratios : List Int) (bits : List Bool) : Nat := (ratios.zip bits).countP (fun v => decide (v.1 < 0) != v.2)

/-! The outer code (R222, R232). -/

/-- The syndrome of a component codeword. -/
def bchSyndrome (v : List Bool) : List Bool := ((bchParity (v.take 620)).zip (v.drop 620)).map (fun x => x.1 ^^ x.2)

/-- The syndrome of one wrong bit at each place. -/
def bchUnits : List (List Bool) := (List.range 640).map (fun k => bchSyndrome ((List.range 640).map (· == k)))

/-- The places to correct: none, one or two; nothing where more are wrong (bounded-distance decoding, t = 2). -/
def bchErrors (units : List (List Bool)) (syn : List Bool) : Option (List Nat) :=
  if !syn.contains true then some []
  else match units.findIdx? (· == syn) with
    | some i => some [i]
    | none =>
      ((List.range 640).findSome? (fun i =>
        let rest := ((units.getD i []).zip syn).map (fun x => x.1 ^^ x.2)
        (units.findIdx? (· == rest)).map (fun j => [i, j])))

/-- Row `j` of [Pᵀ | B]. -/
def componentRow (p b : List Bool) (j : Nat) : List Bool :=
  (List.range 320).map (fun k => p.getD (320 * k + j) false) ++ (List.range 320).map (fun c => b.getD (320 * j + c) false)

def flipAt (l : List Bool) (i : Nat) : List Bool := l.modify i (!·)

/-- One row of two neighbouring blocks is decoded and corrected. -/
def fixRow (units : List (List Bool)) (x : List Bool × List Bool) (j : Nat) : List Bool × List Bool :=
  match bchErrors units (bchSyndrome (componentRow x.1 x.2 j)) with
  | some es => es.foldl (fun y e => if e < 320 then (flipAt y.1 (320 * e + j), y.2) else (y.1, flipAt y.2 (320 * j + e - 320))) x
  | none => x

/-- One pass over a window of blocks, each pair of neighbours in turn, the oldest first. -/
def fixPass (units : List (List Bool)) : List Bool → List (List Bool) → List (List Bool)
  | a, [] => [a]
  | a, b :: r =>
    let x := (List.range 320).foldl (fixRow units) (a, b)
    x.1 :: fixPass units x.2 r

/-- Four passes. -/
def fixWindow (w : List (List Bool)) : List (List Bool) :=
  let pass := fun (l : List (List Bool)) => fixPass bchUnits (l.headD []) l.tail
  pass (pass (pass (pass w)))

/-- Component codewords of two neighbouring blocks whose syndrome is not zero. -/
def failedRows (p b : List Bool) : Nat := (List.range 320).countP (fun j => (bchSyndrome (componentRow p b j)).contains true)

/-- The information bits of a block, row by row. -/
def blockInfo (b : List Bool) : List Bool := (List.range 320).flatMap (fun j => (b.drop (320 * j)).take 300)

/-- What the staircase decoder holds and has counted. -/
structure Staircase where
  window : List (List Bool × List Bool)
  part : List Bool
  skip : Bool
  info : List (Option Bool)
  corrected : Nat
  failed : Nat
  deriving DecidableEq, Repr

/-- A block is complete: the window of three is decoded, and its oldest block leaves with its information, the bits changed in it and the
rows left uncorrected (R232). -/
def Staircase.block (d : Staircase) (b : List Bool) : Staircase :=
  let w := d.window ++ [(b, b)]
  if w.length < 3 then { d with window := w }
  else
    let fixed := fixWindow (w.map (fun x => x.2))
    match (w.zip fixed).map (fun x => (x.1.1, x.2)) with
    | a :: c :: r => { d with
        window := c :: r, info := d.info ++ (blockInfo a.2).map some
        corrected := d.corrected + (a.1.zip a.2).countP (fun x => x.1 != x.2), failed := d.failed + failedRows a.2 c.2 }
    | l => { d with window := l }

/-- Coded bits enter: blocks complete one after another (R231). -/
def Staircase.fill : Nat → Staircase → List Bool → Staircase
  | 0, d, seg => { d with part := d.part ++ seg }
  | n + 1, d, seg =>
    let room := 102400 - d.part.length
    if seg.length < room then { d with part := d.part ++ seg }
    else Staircase.fill n ({ d with part := [] }.block (d.part ++ seg.take room)) (seg.drop room)

/-- A frame's segment enters at SC_PHASE `phase`: bits of a block that is not held whole are no information (R231). -/
def Staircase.segment (d : Staircase) (phase : Nat) (seg : List Bool) : Staircase :=
  if !d.skip then d.fill (seg.length / 102400 + 1) seg
  else
    let lost := min seg.length ((102400 - phase % 102400) % 102400)
    let e := { d with info := d.info ++ List.replicate (infoPositions lost phase) none, skip := phase + lost < 102400 && phase != 0 }
    if e.skip then e else e.fill (seg.length / 102400 + 1) (seg.drop lost)

/-! From codewords to the frame (R218, R224, R225). -/

/-- The systematic stream of group `g` from the codewords decided, then its data bits and the shaped blocks that were invalid. -/
def groupData (f : Format) (decided : Tbl (List Bool)) (g : Nat) : List Bool × Nat :=
  let sys := (List.range (256 * f.fecK * f.c)).map (fun i => (tblGet [] decided (4 * g + i % f.c)).getD (i / f.c) false)
  let labels := 4 * f.mu * f.wg
  let (t, bad) := dematch f (sys.take labels)
  (t ++ (sys.drop labels).take (4 * f.wg - 768 * f.c), bad)

/-- The coded bits of a frame's segment, and its invalid shaped blocks. -/
def frameSegment (f : Format) (decided : Tbl (List Bool)) : List Bool × Nat :=
  let gs := (List.range f.groups).map (groupData f decided)
  (scramble (gs.flatMap (fun g => g.1)), (gs.map (fun g => g.2)).foldl (· + ·) 0)

end Sys2Proof.Machine
end

