-- ==== Sys2Proof/Machine/Fec.lean ====
section
/-! DEFINITION. Chapter 08 of spec/: sending and receiving one Agryn carrier frame, decoding, injection and the FEC commands. -/

namespace Sys2Proof.Machine

open Config (Lanes)

/-! Sending. -/

/-- Cut a list into `n` pieces of `k`. -/
def pieces {α : Type} (k : Nat) : Nat → List α → List (List α)
  | 0, _ => []
  | n + 1, l => l.take k :: pieces k n (l.drop k)

/-- Coded bits of a group. -/
def Format.codedBits (f : Format) : Nat := 4 * f.wg * (f.mu + 1)

/-- Whether injection inverts coded bit `i` of a frame: MODE 1 by a random choice, whose outcome is free (R239). -/
def injectsBit (c : Inject) (fresh i : Nat) : Bool := c.mode == 1 && Config.freeNat (fresh + i) % 10 ^ c.rateExp == 0

/-- Whether injection inverts every sign of the group with this number since it applied. -/
def injectsGroup (c : Inject) (g : Nat) : Bool := c.mode == 2 && g % max c.period 1 == 0

/-- What a frame takes of the hub's OTUCn bits: how many, the mark it shows, its start pointer, and what is in progress after it. -/
structure FrameLoad where
  bits : Nat
  ptr : Option Nat
  mark : Bool × Option Word32
  last : Bool × Option Word32
  deriving DecidableEq, Repr

/-- R226, R227. -/
def frameLoad (c : CarrierUnit) (f : Format) : FrameLoad :=
  let need := f.otuBits c.txFrames
  if c.otu.length < need then ⟨0, none, c.otuNow, c.otuNow⟩
  else
    let here := c.otuMarks.filter (fun m => decide (m.1 < need))
    match here.head?, here.getLast? with
    | some a, some b => ⟨need, some a.1, a.2, b.2⟩
    | _, _ => ⟨need, none, c.otuNow, c.otuNow⟩

/-- One frame of a format is built and sent (R168, R209 to R227): overhead, OTUCn bits and filler through the staircase, the scrambler, the
groups and the frame assembly, then the transmit chain, which runs under a mute too (R172); clipped samples count (R171). -/
def sendFrame (u : Nat) (f : Format) (s : State) : State :=
  let c := s.cu u
  let phase := c.txScPart.length
  let room := infoPositions f.segment phase
  let l := frameLoad c f
  let oh := acfOverhead (l.bits != 0) l.mark.1 l.ptr.isSome l.mark.2.isSome l.bits (l.ptr.getD 0xFFFFFF) (l.mark.2.getD 0)
  let info := byteBits oh ++ c.otu.take l.bits ++ List.replicate (room - 128 - l.bits) false
  let (coded, prev, part) := staircase f.segment c.txScBlock c.txScPart info
  let groups := (pieces f.dg f.groups (scramble coded)).zipIdx
  let k := f.codedBits
  let symbols := groups.flatMap (fun g =>
    groupSymbols f (fun i => injectsBit c.injectForce (s.fresh + g.2 * k) i) (injectsGroup c.injectForce (c.injectGroup + g.2)) g.1)
  let random := ((List.range (f.groups * k)).filter (fun i => injectsBit c.injectForce s.fresh i)).length
  let periodic := ((List.range f.groups).filter (fun g => injectsGroup c.injectForce (c.injectGroup + g))).length * (4 * f.wg)
  let live := s.txLive u
  let line := (acfSymbols f (c.txFrames % 4096) phase symbols).zipIdx.map (fun x => (x.1, f.scaleSq x.2))
  let samples := txSamples u f line s
  let s := bump pmCu u 0 (clippedSamples c.dspTx samples) s
  let s := modCu u (fun c => { c with
    txFrames := c.txFrames + 1, txScBlock := prev, txScPart := part, injectGroup := c.injectGroup + f.groups
    otu := c.otu.drop l.bits, otuNow := l.last
    otuMarks := (c.otuMarks.filter (fun m => decide (l.bits ≤ m.1))).map (fun m => (m.1 - l.bits, m.2))
    line := if live then line else [], dac := if live then dacCodes c.dspTx samples else [] }) s
  let s := if c.injectForce.mode = 1 then { s with fresh := s.fresh + f.groups * k } else s
  bump pmCu u 22 (random + periodic) s

/-- R209: the boundary before a frame, then the frame. In LINE_MODE 1 and 2 the frame is the agreement's, and `clipped` samples of it were
clipped. -/
def acfFrameTx (u clipped : Nat) (s : State) : State :=
  if !s.txRuns u then s else
    let s := calBoundary u true true (txBoundary u s)
    if !s.txRuns u then s else
      match (s.cu u).fmtTx with
      | some f => if f.lineMode = 0 then sendFrame u f s else bump pmCu u 0 clipped s
      | none => s
def execAcfFrameTx (u : Fin 4) (clipped : Nat) (s : State) : Result := .next (acfFrameTx u clipped s)

/-! Receiving. -/

/-- A header read: FRAME_CNT, SC_PHASE, and whether its format fields are those configured; nothing when its CRC fails (R212). -/
def readHeader (f : Format) (h : BitVec 64) : Option (Nat × Nat × Bool) :=
  let v := h.toNat
  let bits := natBits 48 (v / 2 ^ 16)
  if (crc16 bits).toNat ≠ v % 2 ^ 16 then none
  else some (v / 2 ^ 52, v / 2 ^ 35 % 2 ^ 17,
    v / 2 ^ 32 % 8 == f.modulation && v / 2 ^ 29 % 8 == kCode f.fecK && v / 2 ^ 19 % 2 ^ 10 == f.entropy)

/-- The counters move on by one frame. -/
def nextCounters (f : Format) (cnt phase : Nat) (c : CarrierUnit) : CarrierUnit :=
  { c with rxFrameCnt := (cnt + 1) % 4096, rxScPhase := (phase + f.segment) % 102400 }

/-- A candidate fails (R230). -/
def failCandidate (u : Nat) (s : State) : State :=
  bump pmCu u 17 1 (modCu u (fun c => { c with rxVerify := 0, rxHeaderGood := false }) s)

/-- What the header of one candidate frame tells: the first good one sets the counters (R230). -/
def candidateHeader (f : Format) (seen : AcfSeen) (c : CarrierUnit) : CarrierUnit :=
  match readHeader f seen.header with
  | some (cnt, phase, own) =>
    if own && !c.rxHeaderGood then nextCounters f cnt phase { c with rxHeaderGood := true } else nextCounters f c.rxFrameCnt c.rxScPhase c
  | none => nextCounters f c.rxFrameCnt c.rxScPhase c

/-- Three trained frames and one good header align; without one the candidate fails. -/
def judgeCandidate (u : Nat) (s : State) : State :=
  if (s.cu u).rxVerify < 3 then s
  else if (s.cu u).rxHeaderGood then modCu u (fun c => { c with rxAligned := true }) s
  else failCandidate u s

/-- FRAME: a candidate is verified (R230). -/
def verifyFrame (u : Nat) (f : Format) (seen : AcfSeen) (s : State) : State :=
  if (s.cu u).rxAligned then modCu u (fun c => nextCounters f c.rxFrameCnt c.rxScPhase c) s
  else if seen.training then
    judgeCandidate u (modCu u (fun c => { c with rxVerify := c.rxVerify + 1 }) (modCu u (candidateHeader f seen) s))
  else if (s.cu u).rxVerify = 0 then s
  else failCandidate u s

/-- A valid header in frame differs from what is predicted. -/
def CarrierUnit.differs (c : CarrierUnit) (cnt phase : Nat) : Bool := cnt != c.rxFrameCnt || phase != c.rxScPhase

/-- The counters of this frame: those predicted, or those of the second consecutive header that differs from them, to which the decoder
moves (R230). -/
def frameCounters (f : Format) (seen : AcfSeen) (c : CarrierUnit) : Nat × Nat × Bool :=
  match readHeader f seen.header with
  | some (cnt, phase, _) => if c.differs cnt phase && c.rxDiffer == 1 then (cnt, phase, true) else (c.rxFrameCnt, c.rxScPhase, false)
  | none => (c.rxFrameCnt, c.rxScPhase, false)

/-- The header of a frame in frame: CRC errors, foreign formats, and resynchronisation, for which the decoder empties its window (R230,
R231). -/
def inFrameHeader (u : Nat) (f : Format) (seen : AcfSeen) (s : State) : State :=
  let k := frameCounters f seen (s.cu u)
  let s := match readHeader f seen.header with
    | none => bump pmCu u 18 1 s
    | some (cnt, phase, own) => modCu u (fun c => { c with
        rxHeaderFails := if own then 0 else c.rxHeaderFails + 1
        rxDiffer := if c.differs cnt phase && !k.2.2 then c.rxDiffer + 1 else 0 }) s
  let s := if k.2.2 then bump pmCu u 20 1 (modCu u (fun c => emptyDecoder { c with rxScPhase := k.2.1 }) s) else s
  modCu u (nextCounters f k.1 k.2.1) s

/-- The overhead of a frame whose information positions number `room`, where the decoder holds all of it (R226, R228). One that fails its
CRC counts; without a good one OTU_BITS is the number that brings the running count nearest to Q for each frame. The answer is OTU_BITS. -/
def inFrameOverhead (u room : Nat) (f : Format) (oh : Option (List Byte)) (s : State) : Nat × State :=
  let c := s.cu u
  let good := oh.filter (fun b => (crc32c (b.take 12)).toNat == u32 b 12)
  let guess := (2 * (c.rxFrames + 1) * (52428800 * f.otucN) + f.rsCode) / (2 * f.rsCode) - c.rxOtuBits / 8
  let bits := match good with | some b => field b 1 3 | none => 8 * min guess ((room - 128) / 8)
  let s := if oh.isSome && good.isNone then bump pmCu u 19 1 s else s
  let s := if oh.isSome then bump pmCu u 21 (room - 128 - bits) s else s
  let s := modCu u (fun c => { c with rxFrames := c.rxFrames + 1, rxOtuBits := c.rxOtuBits + bits, rxOhOk := good.isSome }) s
  (bits, match good with
    | some b => modCu u (fun c => { c with
        rxValid := bitOf (u8 b 0) 7, rxEpoch := bitOf (u8 b 0) 6
        rxStart := if bitOf (u8 b 0) 5 then some (field b 4 3) else none
        rxTwin := if bitOf (u8 b 0) 4 then some (BitVec.ofNat 32 (u32 b 8) + (if bitOf (u8 b 0) 5 then 0 else 1)) else none }) s
    | none => modCu u (fun c => { c with rxStart := none }) s)

/-- One frame's information, all of it decoded, is read: its overhead, then the OTUCn bits that go to the hub; those before the first
whole block are marked (R209, R231). -/
def readAcf (u : Nat) (f : Format) (info : List (Option Bool)) (s : State) : State :=
  let head := info.take 128
  let (bits, s) := inFrameOverhead u info.length f (if head.all (·.isSome) then some (bitsBytes 16 (head.filterMap id)) else none) s
  modCu u (fun c => { c with rxOtu := (info.drop 128).take bits }) s

/-- The frames whose information is complete are read in order. -/
def readAcfs (u : Nat) (f : Format) : Nat → State → State
  | 0, s => s
  | n + 1, s =>
    match (s.cu u).scRooms with
    | [] => s
    | room :: rest =>
      if (s.cu u).scInfo.length < room then s else
        readAcfs u f n (readAcf u f ((s.cu u).scInfo.take room)
          (modCu u (fun c => { c with scRooms := rest, scInfo := c.scInfo.drop room }) s))

/-- The codewords decided since the last frame give its segment at SC_PHASE `phase`: dematched, descrambled and through the staircase
decoder, with their counts; what is then complete is read (R209, R218, R231, R232). -/
def decodeFrame (u : Nat) (f : Format) (phase : Nat) (s : State) : State :=
  let c := s.cu u
  let (seg, bad) := frameSegment f c.decided
  let d := Staircase.segment ⟨c.scWindow, c.scPart, c.scSkip, c.scInfo, 0, 0⟩ phase seg
  let s := bump pmCu u 15 bad (bump pmCu u 14 d.failed (bump pmCu u 13 d.corrected s))
  let s := modCu u (fun c => { c with
    scWindow := d.window, scPart := d.part, scSkip := d.skip, scInfo := d.info, scRooms := c.scRooms ++ [infoPositions f.segment phase] }) s
  readAcfs u f (c.scRooms.length + 1) s

/-- SKEW_LO and SKEW_HI saturate (R208). -/
def saturate (x : Option Int) : Option Int := x.map (fun v => max (-65536) (min 65536 v))

/-- The pairs whose lower-numbered unit this is take the S it measured (R194, R196). -/
def pairSkew (u : Nat) (seen : AcfSeen) (s : State) : State :=
  let o := (s.cu u).order
  forEach [0, 1, 2, 3] (fun p s =>
    if (pairUnits p).1 ≠ u ∨ !o.adjacent (pairUnits p).1 (pairUnits p).2 then s else
      let v := if o.rankOf (pairUnits p).2 < o.rankOf u then seen.skewLo else seen.skewHi
      let fits := match v with | some x => decide ((x.natAbs : Int) ≤ s.skewBound p) | none => false
      modPair p (fun x => { x with
        last := v.orElse (fun _ => x.last), missed := if v.isSome then 0 else x.missed + 1
        recent := if fits && s.pairEligible p then (v.toList ++ x.recent).take 64 else [] }) s) s

/-- The taps after a frame's feedback (R198). -/
def fedBack (c : CarrierUnit) : List (Int × Int) :=
  let d := Config.limitFeedback c.feedback
  c.mimo.zipIdx.map (fun t => let g := d.getD t.2 (0, 0); (t.1.1 + g.1, t.1.2 + g.2))

/-- R198, R199: the frame's tap feedback acts, or is discarded where more than one eighth of its codewords did not converge; the runs that
suspend and resume it. -/
def daeFrame (u : Nat) (s : State) : State :=
  let c := s.cu u
  let deep := match c.fmtRx with | some f => f.decoder == 1 | none => false
  if !deep then s
  else if c.daeSuspended then
    modCu u (fun c => { c with daeGoodRun := if c.cwUnconverged * 32 ≤ c.cwTotal then c.daeGoodRun + 1 else 0 }) s
  else if c.cwTotal < c.cwUnconverged * 8 then bump pmCu u 6 1 (modCu u (fun c => { c with daeDiscardRun := c.daeDiscardRun + 1 }) s)
  else modCu u (fun c => { c with daeDiscardRun := 0, mimo := fedBack c }) s

/-- What a frame's codewords left is taken, and the next frame's begin. -/
def nextCodewords (c : CarrierUnit) : CarrierUnit := { c with decided := [], cwTotal := 0, cwUnconverged := 0, feedback := [] }

/-- A frame received in TRACKING. -/
def inFrame (u : Nat) (f : Format) (seen : AcfSeen) (s : State) : State :=
  let phase := (frameCounters f seen (s.cu u)).2.1
  let s := bump pmCu u 16 1 s
  let s := modCu u (fun c => { c with
    rxTrainFails := if seen.training then 0 else c.rxTrainFails + 1
    skewLo := if c.order.hasLower u then saturate seen.skewLo else none
    skewHi := if c.order.hasHigher u then saturate seen.skewHi else none }) s
  let s := inFrameHeader u f seen s
  modCu u nextCodewords (daeFrame u (pairSkew u seen (decodeFrame u f phase s)))

/-- R230: one ACF is received, in FRAME or in TRACKING; each slip that was corrected counts (R180). -/
def acfFrameRx (u : Nat) (seen : AcfSeen) (s : State) : State :=
  let c := s.cu u
  if !s.trafficRuns then s
  else if c.acq = 6 then
    let s := modCu u nextCodewords (calBoundary u false false (bump pmCu u 4 seen.slips s))
    match c.fmtRx with
    | some f => if f.lineMode = 0 then verifyFrame u f seen s else s
    | none => s
  else if c.acq = 7 then
    let s := calBoundary u false true (rxBoundary u (bump pmCu u 4 seen.slips s))
    match (s.cu u).fmtRx with
    | some f => if (s.cu u).acq = 7 ∧ f.lineMode = 0 then inFrame u f seen s else s
    | none => s
  else s
def execAcfFrameRx (u : Fin 4) (f : AcfSeen) (s : State) : Result := .next (acfFrameRx u f s)

/-! Decoding. -/

/-- The tag record of R451. -/
def tagRecord (tod : Tod) (deep : Bool) (cnt : Nat) (w : Decoded) (iterations : Nat) (converged : Bool) : List Byte :=
  tod.bytes ++ be 1 (b2n converged + 2 * b2n deep + 4 * b2n w.incomplete) ++ be 1 iterations ++
    be 4 (cnt * 2 ^ 20 + w.group % 1024 * 2 ^ 10 + w.codeword % 4 * 2 ^ 8) ++
    (List.range 6).flatMap (fun i => be 2 (min (w.deltas.getD i 0xFFFF) 0xFFFF)) ++ zeros 4

/-- One codeword of a native format goes through the receive chain, the demapper and the decoder (R173, R182, R197, R232): its input
ratios, what the chain made of its samples, and the decision. -/
def decodeCodeword (u : Nat) (f : Format) (w : Decoded) (s : State) : List Int × Received × Decision :=
  let r := receiveGroup u f w.group w.adc s
  let x := r.recovered.map (fun v => v.2)
  let ratios := fun (y : List Lanes) => codewordRatios f w.codeword (demapped u f w.group y s)
  let again := fun (l : List Int) => ratios (Config.redrive (Config.softSymbols f.mu l) x)
  (ratios x, r, ldpcDecode f.fecK (f.decoder == 1) again (ratios x))

/-- What the decision-directed equaliser takes its symbols to have been: the decisions, turned back by the angle taken off (R178). -/
def decidedBack (f : Format) (r : Received) : List Lanes := r.recovered.map (fun v => Config.rotate v.1 (decide4 (lanePoints f.mu) v.2))

/-- The same by the soft symbols of a codeword, at the group's places; elsewhere the symbol itself (R198). -/
def softBack (f : Format) (g : Nat) (r : Received) (d : Decision) : List Lanes :=
  let soft := Config.softSymbols f.mu d.likelihoods
  r.equalised.zipIdx.map (fun v => match (f.places g).idxOf? v.2 with
    | some k => Config.rotate ((r.recovered.getD v.2 (0, 0, 0, 0, 0)).1) (soft.getD k v.1)
    | none => v.1)

/-- The unit after a codeword: the timing loop, the taps and the symbols recovered with the first codeword of a group, the decided bits,
and the decoder's tap feedback (R177, R178, R198, R199). -/
def afterCodeword (f : Format) (w : Decoded) (r : Received) (d : Decision) (c : CarrierUnit) : CarrierUnit :=
  let n := c.dspRx.taps
  let step := lmsStep c.dspRx.tracking
  let blocks := r.equalised.length / 64
  let c := { c with
    decided := tblSet [] c.decided (4 * w.group + w.codeword) d.bits
    cwTotal := c.cwTotal + 1, cwUnconverged := c.cwUnconverged + b2n !d.converged
    feedback := if f.decoder = 1 ∧ d.converged ∧ !c.daeSuspended then
        lmsBlocks n step c.dspRx.daeShift blocks r.halves r.equalised (softBack f w.group r d)
          (if c.feedback = [] then List.replicate (4 * n) (0, 0) else c.feedback)
      else c.feedback }
  if w.codeword ≠ 0 then c
  else { c with
    phase := r.phase, drift := r.drift, recovered := r.recovered.map (fun v => v.2)
    mimo := lmsBlocks n step 0 blocks r.halves r.equalised (decidedBack f r) c.mimo }

/-- Counts of one codeword (R236, R240). -/
def countCodeword (u bits changed : Nat) (converged : Bool) (s : State) : State :=
  bump pmCu u 11 (b2n !converged) (bump pmCu u 10 1 (bump pmCu u 9 changed (bump pmCu u 8 bits s)))

/-- Whether a codeword that passes is tagged, and its tag record (R451). -/
def tagCodeword (u : Nat) (f : Format) (w : Decoded) (iterations : Nat) (converged : Bool) (s : State) : State :=
  let k := s.countUnit u
  if !k.tagOn then s else
    let (pick, s) := drawPick k.tagK s
    if pick then writeRecord u 2 (tagRecord w.stage1 (f.decoder == 1) (s.cu u).rxFrameCnt w iterations converged) s else s

/-- R232, R235, R236: a codeword is decoded, with its counts, and its tag record where it was tagged. Its coded bits are those of its
share of a group; in LINE_MODE 1 and 2 the agreement's code counts no more than codewords and bits. -/
def codewordDecoded (u : Nat) (w : Decoded) (s : State) : State :=
  match (s.cu u).fmtRx with
  | none => s
  | some f =>
    if !s.trafficRuns then s
    else if f.lineMode ≠ 0 then
      (if (s.cu u).acq = 7 ∧ !w.incomplete then countCodeword u w.bits w.changed w.converged s else s)
    else if w.incomplete then tagCodeword u f w 0 false s
    else if (s.cu u).acq ≠ 7 then s
    else
      let (input, r, d) := decodeCodeword u f w s
      let s := modCu u (afterCodeword f w r d) s
      let s := bump pmCu u 12 d.iterations (countCodeword u (f.codedBits / f.c) (changedBits input d.bits) d.converged s)
      tagCodeword u f w d.iterations d.converged s
def execCodewordDecoded (u : Fin 4) (w : Decoded) (s : State) : Result := .next (codewordDecoded u w s)

/-- EV_FEC_UNCORRECTED at a boundary, from the counts just latched (R241). -/
def fecBoundary (u : Nat) (s : State) : State :=
  let rows := s.latched pmCu u 14
  let s := if rows ≠ 0 ∧ !(s.cu u).uncorrPrev then
    raise 0x0401 u (be 4 (min rows 0xFFFFFFFF) ++ be 4 (min (s.latched pmCu u 11) 0xFFFFFFFF)) false s else s
  modCu u (fun c => { c with uncorrPrev := rows != 0 }) s

/-! FEC commands. -/

/-- R238. -/
def fecGetFrameInfo (q : Request) (s : State) : Reply :=
  checked [unitBelow q 4] s <|
    match (s.cu q.u).fmt with
    | none => .refuse .state s
    | some f =>
      if f.lineMode ≠ 0 then .refuse .state s else
        .okWith (be 1 f.c ++ be 1 f.mu ++ be 2 f.wg ++ be 2 f.groups ++ be 2 f.pad ++ be 4 f.t ++ be 4 f.eMax ++ be 4 f.dg ++
          be 4 f.capMbps ++ be 1 f.maxN ++ zeros 3) s

/-- R238. -/
def fecGetCounts (q : Request) (s : State) : Reply := checked [unitBelow q 4] s <| .okWith (countsReply s pmCu q.u 8 15) s

/-- R238, R239. -/
def fecSetInject (q : Request) (s : State) : Reply :=
  let c := s.cu q.u
  let native := match c.fmt with | some f => f.lineMode == 0 | none => true
  checked [unitBelow q 4, inByte q 0 0 2, (if q.b 0 = 1 then decide (2 ≤ q.b 1 ∧ q.b 1 ≤ 12) else q.b 1 == 0, 1), resv q 2 2,
    (if q.b 0 = 2 then q.w 4 != 0 else q.w 4 == 0, 4)] s <|
  require [(c.txEn && native, .state)] s <|
    .okay (settleTx q.u (modCu q.u (fun c => { c with inject := ⟨q.b 0, q.b 1, q.w 4⟩ }) s))

def execFecGetFrameInfo (q : Request) (s : State) : Result := .next (takeRequest 0x0401 q fecGetFrameInfo s)
def execFecGetCounts (q : Request) (s : State) : Result := .next (takeRequest 0x0402 q fecGetCounts s)
def execFecSetInject (q : Request) (s : State) : Result := .next (takeRequest 0x0403 q fecSetInject s)

end Sys2Proof.Machine
end

