-- ==== Sys2Proof/Machine/Boundary.lean ====
section
/-! DEFINITION. The ToD second boundary (R22): one strobe at which every counter latches, per-second rules are judged and settings
that wait for a boundary apply. -/

namespace Sys2Proof.Machine

/-- Every per-second counter latches under the ToD of the boundary and starts again (R22). -/
def latchCounters (s : State) : State :=
  { s with counters := { s.counters with latched := s.counters.live, live := [], latchedTod := s.timing.tod } }

/-- The cycles a counting unit in MODE 1 has counted: 1.6 GHz hub cycles (R446). -/
def cyclesOf (s : State) (c : CountUnit) : Nat := (s.localNs - c.cycleStart) * 8 / 5

/-- One counting unit at a boundary: the old configuration is latched, then what waits applies, in the order of its replies (R448). -/
def latchUnit (s : State) (c : CountUnit) : CountUnit :=
  let c := { c with snapTod := s.timing.tod, snapMode := c.mode, snapEvents := c.events, snap := c.counters,
                    snapCycles := if c.mode = 1 then cyclesOf s c else 0 }
  let c := match c.pending with
    | none => c
    | some (m, es) =>
      { c with
        mode := m, events := es, pending := none, touched := [], modeTouched := false
        counters := if c.modeTouched then [] else c.counters.filter (fun e => !c.touched.contains e.1)
        cycleStart := if c.modeTouched then s.localNs else c.cycleStart }
  if c.pendingClear then { c with counters := [], cycleStart := s.localNs, pendingClear := false } else c

/-- EV_CNT_TRACE_LOST for a unit whose event 63 rose in the second that ended and not in the one before (R453). -/
def traceLost (u : Nat) (s : State) : State :=
  let c := s.countUnit u
  let s := if c.lostNow ≠ 0 ∧ c.lostPrev = 0 then raise 0x0D01 u (be 4 (min c.lostNow 0xFFFFFFFF)) false s else s
  modCountUnit u (fun c => { c with lostPrev := c.lostNow, lostNow := 0 }) s

/-- The second boundary, with the ToD already at the new second. -/
def secondBoundary (s : State) : State :=
  let s := modTiming (fun t => realignPulses s.localNs (timingBoundary t)) s
  if !s.hubUp then s else
    let s := latchCounters (schedGauges s)
    let s := forEach (List.range 24) (fun u s => modCountUnit u (fun c => latchUnit s c) s) s
    let s := forEach (List.range 4) (fun u s => authBoundary u (framerBoundary u (fecBoundary u s))) s
    let s := forEach (List.range 8) schedBoundary s
    monitorBoundary (forEach (List.range 23) traceLost s)

end Sys2Proof.Machine
end

