-- ==== Sys2Proof/Machine/LinkOps.lean ====
section
/-! DEFINITION. What the stream port and the Tenon ports share: message bytes, lane coding (R465 to R468), credit,
acknowledgement and replay (R456 to R459). -/

namespace Sys2Proof.Machine

/-! Messages as bytes. -/

/-- The payload of a data message. The map and the fence have no layout in the spec; theirs is the model's (log entry 20). -/
def bodyBytes : Body → List Byte
  | .packet p _ => packetBytes p
  | .records _ _ rs => rs.flatten
  | .image _ off len d => be 4 off ++ be 4 len ++ d
  | .heartbeat d => d
  | .map m =>
    be 1 m.level ++ zeros 1 ++ be 2 m.manager ++ be 4 m.east ++ be 4 m.west ++ be 4 m.floor ++ be 4 m.floorSeq ++
      be 2 m.fws.length ++ be 2 m.numbers.length ++ m.fws.flatMap (fun e => be 4 e.1 ++ be 4 e.2) ++
      m.numbers.flatMap (fun e => fitBytes 16 e.1 ++ be 2 (e.2.getD 0xFFFF) ++ zeros 2)
  | .fence level mask back => be 1 level ++ be 1 (b2n back) ++ zeros 2 ++ be 4 mask

/-- Bytes 8 to 11 of a message header (R456, R471). -/
def bodyMarks (tenon : Bool) (m : Message) : List Byte :=
  match m.body with
  | .records u k rs => be 1 u ++ be 1 k ++ be 2 rs.length
  | .image .. => be 1 0 ++ be 1 4 ++ be 2 0
  | _ => if tenon then be 1 m.hops ++ be 1 m.originRole ++ be 2 m.origin else zeros 4

/-- A whole data message: header, payload, zeros up to a word (R456). -/
def messageBytes (tenon : Bool) (m : Message) : List Byte :=
  let b := bodyBytes m.body
  let h := be 1 (if tenon then 0xA8 else 0xA7) ++ be 1 m.vc ++ be 2 b.length ++ be 4 m.seq.toNat ++ bodyMarks tenon m
  padWords (h ++ be 4 (crc32c (h ++ b)).toNat ++ b)

/-- A link-control message (TYPE 1), a HELLO (TYPE 2) or an AUTH (TYPE 3), of VC 0 and MSG_SEQ 0 (R456, R471). -/
def linkBytes (tenon : Bool) (type : Nat) (b : List Byte) : List Byte :=
  let h := be 1 (if tenon then 0xA8 else 0xA7) ++ be 1 (16 * type) ++ be 2 b.length ++ zeros 8
  padWords (h ++ be 4 (crc32c (h ++ b)).toNat ++ b)

/-- The payload of a link-control message (R458, R471). -/
def controlPayload (k : LinkControl) : List Byte :=
  (List.range 4).flatMap (fun v => be 4 (k.freed.getD v 0).toNat) ++ be 4 k.ack.toNat ++ be 1 (b2n k.sleep + 2 * b2n k.retrain) ++ zeros 3 ++
    (List.range 4).flatMap (fun v => be 2 (k.grants.getD v 0))

/-- The cells a message occupies (R457). -/
def messageCells (m : Message) : Nat := cellsOf (bodyBytes m.body).length

/-! Lane coding. -/

/-- One data bit: scrambled, counted for stuffing, with the scribe word and forced 1 bit at the start of each block (R465 to R467). -/
def Lane.bit (l : Lane) (d : Bool) : Lane :=
  let l := if l.blockBits = 8192 ∨ l.blockBits = 0 then { l with lastBit := true, run := 1, blockBits := 0 } else l
  let o := (d ^^ l.scrambler.getLsbD 38) ^^ l.scrambler.getLsbD 57
  let l := { l with scrambler := (l.scrambler <<< 1) ||| (if o then 1 else 0), blockBits := l.blockBits + 1 }
  let run := if o = l.lastBit then l.run + 1 else 1
  if run = 12 then { l with lastBit := !o, run := 1, stuffed := l.stuffed + 1 } else { l with lastBit := o, run := run }

/-- One byte, most significant bit first. -/
def Lane.byte (l : Lane) (b : Byte) : Lane :=
  [7, 6, 5, 4, 3, 2, 1, 0].foldl (fun l i => l.bit (b.getLsbD i)) l

/-- Deal bytes over `n` bonded lanes in blocks of 8, lane 0 first (R455, R468); the lanes after them and the stuffed bits sent. -/
def dealBytes (n : Nat) : List Byte → Nat → Tbl Lane → Tbl Lane
  | [], _, t => t
  | b :: r, k, t => dealBytes n r (k + 1) (tblMod {} t (k / 8 % max n 1) (fun l => l.byte b))

/-- Stuffed bits all lanes have sent. -/
def stuffedBits (t : Tbl Lane) : Nat := t.foldl (fun a e => a + e.2.stuffed) 0

/-! Credit. -/

/-- A count is at or before another in the serial arithmetic of R351. -/
def serialLe (a b : Word32) : Bool := decide ((b - a).toNat < 2 ^ 31)

/-- Cells this end may still send on a virtual channel: freed count plus grant, less sent. -/
def Credit.allows (c : Credit) (vc cells : Nat) : Bool :=
  serialLe (tblGet 0 c.sent vc + BitVec.ofNat 32 cells) (tblGet 0 c.peerFreed vc + BitVec.ofNat 32 (tblGet 0 c.peerGrant vc))

/-- Cells the replay buffer holds. -/
def Credit.replayCells (c : Credit) : Nat := c.replay.foldl (fun a m => a + messageCells m) 0

/-- Send a message: the next MSG_SEQ, its cells counted once, a copy kept until ACK covers it (R457, R458). -/
def Credit.send (c : Credit) (m : Message) : Credit × Message :=
  let m := { m with seq := c.txSeq + 1 }
  ({ c with txSeq := c.txSeq + 1, replay := c.replay ++ [m],
            sent := tblMod 0 c.sent m.vc (· + BitVec.ofNat 32 (messageCells m)) }, m)

/-- Take a link-control message: freed counts, grants and ACK. -/
def Credit.control (c : Credit) (k : LinkControl) : Credit :=
  { c with
    peerFreed := (List.range 4).foldl (fun t v => tblSet 0 t v (k.freed.getD v 0)) c.peerFreed
    peerGrant := (List.range 4).foldl (fun t v => tblSet 0 t v (k.grants.getD v 0)) c.peerGrant
    ackIn := k.ack, replay := c.replay.filter (fun m => seqLater m.seq k.ack) }

/-- The link-control message this end sends, its own grant 128 cells (R457, R472). -/
def Credit.ownControl (c : Credit) (grants : List Nat) : LinkControl :=
  { freed := (List.range 4).map (fun v => tblGet 0 c.freed v), ack := c.rxSeq, grants := grants }

/-- Accept the next data message in order. -/
def Credit.accept (c : Credit) (m : Message) : Credit :=
  { c with rxSeq := m.seq, received := tblMod 0 c.received m.vc (· + BitVec.ofNat 32 (messageCells m)) }

end Sys2Proof.Machine
end

