-- ==== Sys2Proof/Machine/Stream.lean ====
section
/-! DEFINITION. Chapter 17 of spec/: the COUNTERS commands and the stream port. -/

namespace Sys2Proof.Machine

/-! Counting units. -/

/-- FILTER values an event of a unit accepts, 0xFFFF apart (R445). -/
def filterLimit (unit ev : Nat) : Nat :=
  if unit < 8 then 0 else if unit < 12 then 64 else if unit = 12 then 256
  else if unit < 21 then (if ev ≤ 9 then 16384 else if ev = 16 ∨ ev = 17 then 4096 else if 18 ≤ ev ∧ ev ≤ 20 then 32 else 0)
  else if unit = 21 then 4 else if unit = 22 then (if ev ≤ 9 then 2 else 0)
  else if 32 ≤ ev ∧ ev ≤ 47 then 8 else 0

/-- A new setting waits for the boundary, and with it the counters that it and the ones waiting before it touch (R448). -/
def CountUnit.retarget (c : CountUnit) (m : Nat) (es : List (Nat × Nat)) : CountUnit :=
  let (m0, es0) := c.pending.getD (c.mode, c.events)
  { c with
    pending := some (m, es), modeTouched := c.modeTouched || m != m0
    touched := c.touched ++ (List.range 8).filter (fun j => m == 1 && es[j]? != es0[j]?) }

/-- R448, R461, R464. -/
def countersSetUnit (q : Request) (s : State) : Reply :=
  let m := q.b 0
  checked ([unitBelow q 24, inByte q 0 1 2, resv q 1 3] ++ (List.range 8).flatMap (fun j =>
    let e := q.b (4 + 4 * j)
    let f := q.h (6 + 4 * j)
    [(if m = 2 then e == 0 && f == 0 else decide (e ≤ 63) || e == 0xFF, 4 + 4 * j), resv q (5 + 4 * j) 1,
     (m == 2 || e == 0xFF || f == 0xFFFF || decide (f < filterLimit q.u e), 6 + 4 * j)])) s <|
    .okay (modCountUnit q.u (fun c => c.retarget m (if m = 2 then [] else (List.range 8).map (fun j => (q.b (4 + 4 * j), q.h (6 + 4 * j))))) s)

/-- R447, R461. -/
def countersRead (q : Request) (s : State) : Reply :=
  checked [unitBelow q 24] s <|
    let c := s.countUnit q.u
    .okWith (c.snapTod.bytes ++ be 1 c.snapMode ++ zeros 1 ++ be 8 c.snapCycles ++
      (if c.snapMode = 1 then (List.range 8).flatMap (fun j =>
          be 1 (c.snapEvents.getD j (0xFF, 0)).1 ++ zeros 1 ++ be 6 (tblGet 0 c.snap j))
        else (List.range 64).flatMap (fun e => be 6 (tblGet 0 c.snap e)))) s

/-- R448. -/
def countersClear (q : Request) (s : State) : Reply :=
  checked [unitZero q, (decide (q.w 0 < 2 ^ 24), 0)] s <|
    .okay (forEach (bitsOf 24 (q.w 0)) (fun u s => modCountUnit u (fun c => { c with pendingClear := true }) s) s)

/-- The instances a trace FILTER may name (R445, R449). -/
def traceLimit (unit : Nat) : Nat :=
  if unit < 8 then 0 else if unit < 12 then 64 else if unit = 12 then 256 else if unit < 21 then 16384
  else if unit = 21 then 4 else 2

/-- R449. -/
def countersSetTrace (q : Request) (s : State) : Reply :=
  checked [(decide (4 ≤ q.u ∧ q.u ≤ 22), 0xFFFF), inByte q 0 0 1, inByte q 1 0 24, inByte q 2 0 1,
    (if q.u ≤ 7 then decide (q.b 3 ≤ 1) else q.b 3 == 0, 3), (q.w 4 == 0xFFFFFFFF || decide (q.w 4 < traceLimit q.u), 4)] s <|
    .okay (modCountUnit q.u (fun c => { c with
      traceOn := q.b 0 == 1, traceK := q.b 1, tracePick := q.b 2, traceDir := q.b 3, traceFilter := q.w 4, traceCount := 0 }) s)

/-- R451. -/
def countersSetTags (q : Request) (s : State) : Reply :=
  let mode := match (s.cu q.u).fmtRx with | some f => f.lineMode | none => 0
  checked [unitBelow q 4, inByte q 0 0 1, inByte q 1 8 24, resv q 2 2] s <|
  require [(!(mode == 1 || mode == 2), .state)] s <|
    .okay (modCountUnit q.u (fun c => { c with tagOn := q.b 0 == 1, tagK := q.b 1 }) s)

/-! The stream port. -/

/-- EV_STREAM_LINK (R463). -/
def streamEvent (cause : Nat) (s : State) : State :=
  raise 0x0D02 0 (be 1 s.stream.state ++ be 1 s.stream.lanes ++ be 1 cause ++ zeros 1) false s

/-- Disabling sets every counter to 0 and discards what is outstanding; replies not yet sent wait (R459). -/
def streamOff (t : StreamPort) : StreamPort :=
  { t with state := 0, enabled := false, lane := [], dealt := 0, sentControl := none,
           credit := { queues := t.credit.queues } }

/-- R459, R461. -/
def countersSetStream (q : Request) (s : State) : Reply :=
  checked [unitZero q, inByte q 0 0 1, (q.b 1 == 1 || q.b 1 == 2 || q.b 1 == 4, 1), resv q 2 2, (decide (q.w 4 < 2 ^ 23), 4)] s <|
  require [(!(q.b 0 == 1 && s.stream.enabled && decide (2 ≤ s.stream.state) && q.b 1 != s.stream.lanes), .state)] s <|
    needing 6 0 s fun s =>
    let was := s.stream.enabled
    let s := modStream (fun t => { t with lanes := q.b 1, drainMask := q.w 4 }) s
    if q.b 0 = 1 ∧ !was then
      .okay (streamEvent 0 (startExit 6 0 (modStream (fun t => { t with enabled := true, state := 1 }) s)))
    else if q.b 0 = 0 ∧ was then .okay (streamEvent 0 (holdOff 6 0 (modStream streamOff s)))
    else .okay s

/-- R461. -/
def countersGetStream (q : Request) (s : State) : Reply :=
  checked [unitZero q] s <|
    let t := s.stream
    let c := t.credit
    .okWith (be 1 t.state ++ be 1 t.lanes ++ zeros 2 ++ be 4 c.ackIn.toNat ++
      be 4 (tblGet 0 c.received 0).toNat ++ be 4 (tblGet 0 c.freed 0 + 128).toNat ++
      [1, 2, 3].flatMap (fun v => be 4 (tblGet 0 c.sent v).toNat ++
        be 4 (tblGet 0 c.peerFreed v + BitVec.ofNat 32 (tblGet 0 c.peerGrant v)).toNat) ++
      (List.range 24).flatMap (fun u => be 2 (if u = 23 then 0 else (s.countUnit u).records.length))) s

/-- The stream port's traffic runs: the hub is out of reset and no EXTEST has stopped traffic (R45). -/
def State.streamRuns (s : State) : Bool := s.hubUp && !s.pins.trafficStopped

/-- Bytes leave on the lanes. -/
def streamBytes (b : List Byte) (s : State) : State :=
  bump pmDevice 0 7 b.length (modStream (fun t => { t with lane := dealBytes t.lanes b t.dealt t.lane, dealt := t.dealt + b.length }) s)

/-- A data message leaves (R457, R458). -/
def streamSend (m : Message) (s : State) : State :=
  let (c, m) := s.stream.credit.send m
  bump pmDevice 0 0 1 (streamBytes (messageBytes false m) (modStream (fun t => { t with credit := c }) s))

/-- Credit and the replay buffer of 256 cells allow the message. -/
def State.streamRoom (s : State) (m : Message) : Bool :=
  s.stream.credit.allows m.vc (messageCells m) && decide (s.stream.credit.replayCells + messageCells m ≤ 256)

/-- The unit served next: round robin over DRAIN_MASK (R452). -/
def State.nextDrain (s : State) : Option Nat :=
  ((List.range 23).map (fun i => (s.stream.lastUnit + 1 + i) % 23)).find? (fun u =>
    s.stream.drainMask.testBit u && !(s.countUnit u).records.isEmpty)

/-- The records of one kind at the head of a buffer, at most 64. -/
def headRecords (c : CountUnit) : Nat × List (List Byte) :=
  match c.records with
  | [] => (0, [])
  | (k, r) :: rest => (k, r :: ((rest.take 63).takeWhile (fun e => e.1 == k)).map (fun e => e.2))

/-- R457: a waiting reply, event or record message is sent. -/
def streamDataTx (vc : Nat) (s : State) : State :=
  if !(s.streamRuns && decide (s.stream.state = 2)) then s else
    match vc with
    | 1 =>
      match tblGet [] s.stream.credit.queues 1 with
      | m :: rest => when (s.streamRoom m) (fun s =>
          let s := modStream (fun t => { t with credit := { t.credit with queues := tblSet [] t.credit.queues 1 rest } }) s
          let s := streamSend m s
          match m.body with | .packet _ e => freeEntry e s | _ => s) s
      | [] => s
    | 2 =>
      match s.control.routeStream.queue with
      | e :: rest =>
        let m : Message := { vc := 2, body := .packet (eventPacket s e) none }
        when (s.streamRoom m) (fun s =>
          flushLost 2 (streamSend m (modRoute 2 (fun r => { r with queue := rest }) s))) s
      | [] => s
    | 3 =>
      match s.nextDrain with
      | some u =>
        let (k, rs) := headRecords (s.countUnit u)
        let m : Message := { vc := 3, body := .records u k rs }
        when (s.streamRoom m) (fun s =>
          streamSend m (modStream (fun t => { t with lastUnit := u })
            (modCountUnit u (fun c => { c with records := c.records.drop rs.length }) s))) s
      | none => s
    | _ => s
def execStreamDataTx (vc : Fin 4) (s : State) : Result := .next (streamDataTx vc s)

/-- Outstanding messages go again, in order (R458). -/
def streamResend (s : State) : State :=
  let ms := s.stream.credit.replay
  forEach ms (fun m s => bump pmDevice 0 0 1 (bump pmDevice 0 3 1 (streamBytes (messageBytes false m) s))) s

/-- A link-control message leaves. The device grants 128 cells on VC 0 (R457, R458). -/
def streamControlOut (s : State) : State :=
  let k := s.stream.credit.ownControl [128, 0, 0, 0]
  streamBytes (linkBytes false 1 (controlPayload k)) (modStream (fun t => { t with sentControl := some k }) s)

/-- After a retrain a link-control message goes at once, and then what is outstanding (R458). -/
def streamResume (s : State) : State := streamResend (streamControlOut s)

/-- The messages that the port could send next but for credit: a reply, an event, records. -/
def State.streamWaiting (s : State) : List Message :=
  (tblGet [] s.stream.credit.queues 1).take 1 ++
    (s.control.routeStream.queue.take 1).map (fun e => { vc := 2, body := .packet (eventPacket s e) none }) ++
    (s.nextDrain.map (fun u => let (k, rs) := headRecords (s.countUnit u); ({ vc := 3, body := .records u k rs } : Message))).toList

/-- The peer's grants meet the minimums of R457. -/
def grantsMeet (g : List Nat) : Bool := decide (65 ≤ g.getD 1 0) && decide (65 ≤ g.getD 2 0) && decide (9 ≤ g.getD 3 0)

/-- A link-control message on the stream port (R457, R458): credit and ACK follow, and short grants hold the port in STATE 4. -/
def streamControl (k : LinkControl) (s : State) : State :=
  let s := modStream (fun t => { t with credit := t.credit.control k }) s
  if !grantsMeet k.grants then
    if s.stream.state = 4 then s else streamEvent 4 (modStream (fun t => { t with state := 4 }) s)
  else if s.stream.state = 4 then streamResume (modStream (fun t => { t with state := 2 }) s)
  else s

/-- A data message on the stream port: accepted in order, or discarded (R458, R464). A request joins Salurn's intake (R460); the cells of
one that repeats another, and joins nothing, are free again (R124, R457). -/
def streamData (crcOk : Bool) (m : Message) (s : State) : State :=
  if s.stream.state ≠ 2 then s
  else if !crcOk ∨ 16412 < (bodyBytes m.body).length then bump pmDevice 0 2 1 s
  else if m.seq ≠ s.stream.credit.rxSeq + 1 then bump pmDevice 0 4 1 s
  else
    let s := bump pmDevice 0 1 1 (modStream (fun t => { t with credit := t.credit.accept m }) s)
    match m.vc, m.body with
    | 0, .packet p _ =>
      let t := receive { port := .stream, bytes := packetBytes p, count := packetSize p } s
      if t.control.rx.length = s.control.rx.length then modStream (fun t => { t with credit := t.credit.free 0 (messageCells m) }) t else t
    | v, _ => modStream (fun t => { t with credit := t.credit.free v (messageCells m) }) s

/-- R458: a message is received whole, a data message or, with no body, link control. -/
def streamMessageRx (crcOk : Bool) (m : Message ⊕ LinkControl) (s : State) : State :=
  if !(s.streamRuns && s.stream.enabled) then s else
    match m with
    | .inl d => streamData crcOk d s
    | .inr k => if !crcOk then bump pmDevice 0 2 1 s
      else if s.stream.state = 2 ∨ s.stream.state = 4 then streamControl k s else s
def execStreamMessageRx (crcOk : Bool) (m : Message ⊕ LinkControl) (s : State) : Result := .next (streamMessageRx crcOk m s)

/-- R458: a link-control message leaves every 1 µs. -/
def streamLinkControlTx (s : State) : State :=
  when (s.streamRuns && (s.stream.state == 2 || s.stream.state == 4)) streamControlOut s
def execStreamLinkControlTx (s : State) : Result := .next (streamLinkControlTx s)

/-- R458: 20 µs without ACK advancing over an outstanding message. -/
def streamReplayTimeout (s : State) : State :=
  when (s.streamRuns && decide (s.stream.state = 2) && !s.stream.credit.replay.isEmpty) streamResend s
def execStreamReplayTimeout (s : State) : Result := .next (streamReplayTimeout s)

/-- R459: the port retrains, or wakes from electrical idle, and its lanes start their blocks anew (R465); credit resynchronises, nothing
is reset. -/
def streamRetrain (s : State) : State :=
  if !(s.streamRuns && s.stream.enabled) then s
  else if s.stream.state = 3 then startExit 6 0 (modStream (fun t => { t with state := 2, lane := [], dealt := 0 }) s)
  else if s.stream.state = 2 ∨ s.stream.state = 4 then
    streamResume (streamEvent 2 (bump pmDevice 0 5 1 (modStream (fun t => { t with state := 2, lane := [], dealt := 0 }) s)))
  else s
def execStreamRetrain (s : State) : Result := .next (streamRetrain s)

/-- The stream port finds its scribe words and trains (R455, R463 cause 1). -/
def streamTrained (s : State) : State :=
  when (s.hubUp && s.stream.enabled && s.stream.state == 1) (fun s =>
    streamEvent 1 (modStream (fun t => { t with state := 2 }) s)) s

def execCountersSetUnit (q : Request) (s : State) : Result := .next (takeRequest 0x0D01 q countersSetUnit s)
def execCountersRead (q : Request) (s : State) : Result := .next (takeRequest 0x0D02 q countersRead s)
def execCountersClear (q : Request) (s : State) : Result := .next (takeRequest 0x0D03 q countersClear s)
def execCountersSetTrace (q : Request) (s : State) : Result := .next (takeRequest 0x0D04 q countersSetTrace s)
def execCountersSetTags (q : Request) (s : State) : Result := .next (takeRequest 0x0D05 q countersSetTags s)
def execCountersSetStream (q : Request) (s : State) : Result := .next (takeRequest 0x0D06 q countersSetStream s)
def execCountersGetStream (q : Request) (s : State) : Result := .next (takeRequest 0x0D07 q countersGetStream s)

end Sys2Proof.Machine
end

