-- ==== Sys2Proof/Machine/TenonOps.lean ====
section
/-! DEFINITION. Tenon ports (R465 to R476) and the ways of a domain (R480 to R482): training, loss, rerouting, the floor and the
passing on of messages. -/

namespace Sys2Proof.Machine

/-! Ports. -/

/-- The ring level of a role. -/
def roleLevel (r : Nat) : Nat := (r - 1) / 2

/-- The role that faces a role (R476). -/
def facingRole (r : Nat) : Nat := if r = 7 then 7 else if r % 2 = 1 then r + 1 else r - 1

/-- The other port of the same level. -/
def State.otherPort (s : State) (p : Nat) : Option Nat :=
  let r := (s.tenon p).role
  if r = 0 ∨ 7 ≤ r then none else s.portOfRole (facingRole r)

/-- STATE as DOMAIN.GET_PORTS gives it: a port that retrains is training. -/
def TenonPort.shown (t : TenonPort) : Nat := if t.retraining then 1 else t.state

/-- EV_DOM_PORT (R495). -/
def tenonEvent (p cause : Nat) (s : State) : State :=
  let t := s.tenon p
  raise 0x0E01 0 (be 1 p ++ be 1 t.shown ++ be 1 cause ++ be 1 t.rev ++ be 2 t.peerAddr ++ zeros 2)
    (cause == 4 || cause == 5 || cause == 6 || cause == 8) s

/-- Everything a port holds, its replay buffer and then its queues, each in order. -/
def Credit.held (c : Credit) : List Message := c.replay ++ c.queues.flatMap (fun e => e.2)

/-- R481: what a port holds moves onto the other port of its level; without one, and on a BRACE port, it is discarded. -/
def rerouteFrom (p : Nat) (s : State) : State :=
  let ms := (s.tenon p).credit.held
  let s' := modTenon p (fun t => { t with credit := { t.credit with replay := [], queues := [] } }) s
  match s.otherPort p with
  | none => s'
  | some o => bump pmTenon p 44 ms.length (forEach ms (tenonPush o) s')

/-- A port goes DOWN (R470, R472 to R474, R481). -/
def portDown (p cause : Nat) (s : State) : State :=
  tenonEvent p cause (rerouteFrom p (modTenon p (fun t => { t with
    state := 5, rev := 0, retraining := false, helloSent := false, authSent := false, authOk := false, sleepSent := false,
    sleepSeen := false, fellDown := true }) s))

/-- Bytes leave on the two lanes. -/
def tenonBytes (p : Nat) (b : List Byte) (s : State) : State :=
  let old := stuffedBits (s.tenon p).lane
  let s := modTenon p (fun t => { t with lane := dealBytes 2 b t.dealt t.lane, dealt := t.dealt + b.length }) s
  bump pmTenon p 40 (stuffedBits (s.tenon p).lane - old) (bump pmTenon p 39 b.length s)

/-- Outstanding messages go again, in order (R458). -/
def tenonResend (p : Nat) (s : State) : State :=
  let ms := (s.tenon p).credit.replay
  forEach ms (fun m s => bump pmTenon p 35 1 (bump pmTenon p 32 1 (tenonBytes p (messageBytes true m) s))) s

/-- A link-control message leaves. Each end grants 128 cells on each virtual channel (R472). -/
def tenonControlOut (p : Nat) (sleep retrain : Bool) (s : State) : State :=
  let k := { (s.tenon p).credit.ownControl [128, 128, 128, 128] with sleep, retrain }
  tenonBytes p (linkBytes true 1 (controlPayload k)) (modTenon p (fun t => { t with sentControl := some k }) s)

/-- A wake burst or a training burst: the lanes start their blocks anew (R465, R469). -/
def tenonBurst (p : Nat) (s : State) : State := modTenon p (fun t => { t with lane := [], dealt := 0 }) s

/-- R469: a port whose queues have been empty for the hold time sends SLEEP, and is in electrical idle once the peer has sent it too. -/
def tenonSleep (p : Nat) (s : State) : State :=
  let s := tenonControlOut p true false (modTenon p (fun t => { t with sleepSent := true }) s)
  if (s.tenon p).sleepSeen then settlePlls (modDom 5 p (fun d => { d with state := 1 }) (modTenon p (fun t => { t with state := 4 }) s)) else s

/-- A data message leaves; the entry of a reply is freed with it (R131, R457, R458). -/
def tenonSend (p : Nat) (m : Message) (s : State) : State :=
  let (c, m) := (s.tenon p).credit.send m
  let s := bump pmTenon p 32 1 (tenonBytes p (messageBytes true m) (modTenon p (fun t => { t with credit := c }) s))
  match m.body with
  | .packet _ e => freeEntry e s
  | _ => s

/-- Credit and the replay buffer of 512 cells allow the message. -/
def State.tenonRoom (s : State) (p : Nat) (m : Message) : Bool :=
  (s.tenon p).credit.allows m.vc (messageCells m) && decide ((s.tenon p).credit.replayCells + messageCells m ≤ 512)

/-- The port carries data: it is up, and no EXTEST has stopped traffic (R45). -/
def State.tenonUp (s : State) (p : Nat) : Bool :=
  s.hubUp && !s.pins.trafficStopped && decide ((s.tenon p).state = 3) && !(s.tenon p).retraining

/-! The floor (R489). -/

/-- The floor as fields report it. -/
def State.floorField (s : State) : Nat := s.domain.floor.getD 0xFFFFFFFF

/-- Run `f` and raise EV_DOM_FLOOR when it changed the floor. -/
def floorChange (f : State → State) (s : State) : State :=
  let t := f s
  if t.domain.floor = s.domain.floor then t
  else raise 0x0E05 0 (be 4 t.floorField ++ be 4 t.domain.floorSeq) false t

/-- Take the floor a HELLO or a map carries when its sequence is the highest. -/
def takeFloor (floor seq : Nat) : State → State :=
  floorChange (fun s =>
    if floor = 0xFFFFFFFF ∨ (s.domain.floorKnown ∧ seq ≤ s.domain.floorSeq) then s
    else modDomain (fun d => { d with floor := some floor, floorSeq := seq, floorKnown := true }) s)

/-- A device with some port role other than BRACE. -/
def State.onRing (s : State) : Bool := (List.range 8).any (fun p => decide (1 ≤ (s.tenon p).role ∧ (s.tenon p).role ≤ 6))

/-- The floor after a change of roles: unknown until received, 0 off every ring; the root's is its own record's. -/
def settleFloor : State → State :=
  floorChange (fun s =>
    if s.sill.straps.role = 3 then s
    else if !s.onRing then modDomain (fun d => { d with floor := some 0, floorSeq := 0, floorKnown := false }) s
    else if s.domain.floorKnown then s else modDomain (fun d => { d with floor := none }) s)

/-! Passing on (R471, R480). -/

/-- A message goes one device further; beyond 200 it is dropped. -/
def onward (p : Nat) (m : Message) (go : Message → State → State) (s : State) : State :=
  if 200 < m.hops + 1 then bump pmTenon p 46 1 s
  else bump pmTenon p 43 1 (go { m with hops := m.hops + 1 } s)

/-- Round the ring: out by the other port of the level, if there is one. -/
def passRound (p : Nat) (m : Message) (s : State) : State :=
  match s.otherPort p with
  | some o => onward p m (tenonPush o) s
  | none => s

/-- Toward an address; nothing goes where there is no way. -/
def passToward (p a : Nat) (m : Message) (s : State) : State := onward p m (fun m s => (sendToward a m s).2) s

/-- The address of the manager of the ring of a level. -/
def State.managerOf (s : State) (l : Nat) : Nat :=
  if l = 0 then s.domain.ringMgr else if l = 1 then s.domain.distMgr else s.domain.rootAddr

/-- This device acts for the ring of a level. -/
def State.actsFor (s : State) (l : Nat) : Bool := s.manages l

/-! Fences (R482). -/

/-- Whether the fence of these numbers went east: they now lie the other way. -/
def State.fenceEast (s : State) (l mask : Nat) : Bool :=
  match (bitsOf 32 mask).head? with
  | some n => !s.eastward l n
  | none => false

/-- Send a fence along the old direction. -/
def sendFence (l mask : Nat) (s : State) : State :=
  match s.portOfRole (if s.fenceEast l mask then 2 * l + 1 else 2 * l + 2) with
  | some p => tenonPush p { vc := 2, origin := s.address, body := .fence l mask false } s
  | none => s

/-- The numbers of a level whose direction an old state and a new one give differently. -/
def reversed (old new : State) (l : Nat) : List Nat :=
  (new.members l).filter (fun n => old.reaches l n && n != new.numberOn l && old.eastward l n != new.eastward l n &&
    !new.domain.fenced.any (fun f => f.1 == l && f.2.1.testBit n))

/-- Hold the numbers reversed and fence them, those that lay east and those that lay west. -/
def fenceReversed (old : State) (l : Nat) (s : State) : State :=
  let r := reversed old s l
  forEach [true, false] (fun east s =>
    let mask := (r.filter (fun n => old.eastward l n == east)).foldl (fun a n => a + 2 ^ n) 0
    if mask = 0 then s
    else sendFence l mask (modDomain (fun d => { d with fenced := d.fenced ++ [(l, mask, [])] }) s)) s

/-- The first fence of a level is back: what it held goes, in order. -/
def fenceReturn (l : Nat) (s : State) : State :=
  match s.domain.fenced.find? (fun f => f.1 == l) with
  | none => s
  | some f =>
    let s := modDomain (fun d => { d with fenced := d.fenced.erase f }) s
    forEach f.2.2 (fun m s => (sendToward m.1 m.2 s).2) s

/-- The first fence of a level goes again. -/
def fenceAgain (l : Nat) (s : State) : State :=
  match s.domain.fenced.find? (fun f => f.1 == l) with
  | none => s
  | some f => sendFence l f.2.1 s

/-- A fence arrives: back at its sender it has returned; else it loses this device's number, and the last number it names returns it
by going on round the ring. -/
def fenceRx (p : Nat) (m : Message) (l mask : Nat) (returned : Bool) (s : State) : State :=
  if m.origin = s.address then (if returned then fenceReturn l s else s)
  else
    let rest := if mask.testBit (s.numberOn l) then mask - 2 ^ s.numberOn l else mask
    passRound p { m with body := .fence l rest (returned || rest == 0) } s

end Sys2Proof.Machine
end

