-- ==== Sys2Proof/Machine/Tenon.lean ====
section
/-! DEFINITION. Chapter 18 of spec/: what happens on a Tenon port, from alignment to messages received and sent. -/

namespace Sys2Proof.Machine

/-! Training and loss. -/

/-- Training starts from the beginning (R473). -/
def retrainFresh (t : TenonPort) : TenonPort :=
  { t with state := 1, rev := 0, retraining := false, helloSent := false, authSent := false, authOk := false,
           firstControl := true, sleepSent := false, sleepSeen := false, lane := [], dealt := 0 }

/-- The payload of the HELLO a port sends (R473). -/
def helloPayload (p : Nat) (s : State) : List Byte :=
  let t := s.tenon p
  be 1 1 ++ be 1 3 ++ be 1 t.role ++ be 1 s.sill.straps.role.toNat ++ be 2 s.address ++
    be 1 (b2n s.domain.address.isSome + 2 * b2n (t.role != 7 && s.actsFor (roleLevel t.role))) ++ zeros 1 ++ be 4 s.fw.running.fwVersion ++
    be 4 s.floorField ++ be 4 s.domain.floorSeq ++ be 4 t.epoch.toNat ++ fitBytes 8 t.nonce ++ fitBytes 16 s.serial

/-- R470, R473: the lanes of a Tenon port are aligned. A port that trains sends its HELLO with a fresh nonce; one that retrains is
up again, and what is outstanding goes again. -/
def tenonAligned (p : Nat) (s : State) : State :=
  let t := s.tenon p
  if !s.hubUp ∨ t.role = 0 then s
  else if t.retraining then
    tenonResend p (tenonEvent p 2 (bump pmTenon p 37 1 (modTenon p (fun t => { t with retraining := false, firstControl := true }) s)))
  else if t.state = 1 then
    let (n, s) := drawBytes 8 s
    let s := modTenon p (fun t => { t with state := 2, nonce := n, helloSent := true }) s
    tenonBytes p (linkBytes true 2 (helloPayload p s)) s
  else s

/-- R455, R470, R473. -/
def scribeWordAlignmentGained (port : Port) (s : State) : State :=
  match port with
  | .stream => streamTrained s
  | .tenon p => tenonAligned p s
  | .control => s
def execScribeWordAlignmentGained (port : Port) (s : State) : Result := .next (scribeWordAlignmentGained port s)

/-- R470: four scribe words are missing; the port retrains: a training burst, and a link-control message with RETRAIN. -/
def tenonAlignmentLoss (p : Nat) (s : State) : State :=
  when (s.hubUp && ((s.tenon p).state == 2 || (s.tenon p).state == 3) && !(s.tenon p).retraining) (fun s =>
    tenonControlOut p false true (tenonBurst p (tenonEvent p 3 (bump pmTenon p 41 1 (modTenon p (fun t => { t with retraining := true }) s))))) s
def execTenonAlignmentLoss (p : Fin 8) (s : State) : Result := .next (tenonAlignmentLoss p s)

/-- R470, R497: not up 1 ms after the loss, or never trained. -/
def tenonRetrainTimeout (p : Nat) (s : State) : State :=
  when (s.hubUp && ((s.tenon p).retraining || (s.tenon p).state == 1)) (portDown p 4) s
def execTenonRetrainTimeout (p : Fin 8) (s : State) : Result := .next (tenonRetrainTimeout p s)

/-- R470: a DOWN port trains again. -/
def tenonDownRetry (p : Nat) (s : State) : State :=
  when (s.hubUp && (s.tenon p).state == 5 && (s.tenon p).role != 0) (modTenon p retrainFresh) s
def execTenonDownRetry (p : Fin 8) (s : State) : Result := .next (tenonDownRetry p s)

/-- R469: a wake burst; the first link-control message resynchronises credit, nothing is reset. -/
def tenonWakeBurst (p : Nat) (s : State) : State :=
  when (s.hubUp && (s.tenon p).state == 4) (fun s =>
    startExit 5 p (bump pmTenon p 42 1 (tenonBurst p <| modTenon p (fun t => { t with state := 3, sleepSent := false, sleepSeen := false }) s))) s
def execTenonWakeBurst (p : Fin 8) (s : State) : Result := .next (tenonWakeBurst p s)

/-- A manager learns a neighbour's number from its address (R478). -/
def learnNumber (p : Nat) (h : Hello) (s : State) : State :=
  let l := roleLevel (s.tenon p).role
  let n := addrPart l h.address
  if !s.actsFor l || !h.assigned || n == 0 || s.domain.numbers.any (fun e => e.1 == l && (e.2.1 == h.serial || e.2.2 == n)) then s
  else modDomain (fun d => { d with numbers := d.numbers ++ [(l, h.serial, n)] }) s

/-- A device strapped as a manager that finds an active one on its ring, and has sent no map of its own, stands by (R477). -/
def standBy (p : Nat) (h : Hello) (s : State) : State :=
  let l := roleLevel (s.tenon p).role
  if h.manager && s.domain.mgrState == 1 && s.sill.straps.role.toNat == l + 1 && tblGet {} s.domain.maps l == {} then
    let s := modDomain (fun d => { d with mgrState := 2, address := if l = 2 then none else d.address }) s
    raise 0x0E03 0 (be 1 l ++ be 1 2 ++ be 1 1 ++ zeros 1) true s
  else s

/-- OWNER_SET of R474. -/
def ownerSet (s : State) : List Byte :=
  Config.sha512 ((List.range 4).flatMap (fun i => fitBytes 64 (tblGet [] s.otp.ownerRoots i)) ++ be 1 s.otp.ownerRevoked)

/-- What an AUTH signs: both nonces and both serials, the lower SERIAL's first, and OWNER_SET. -/
def tenonAuthMessage (t : TenonPort) (s : State) : List Byte :=
  let low := decide (beNat s.serial ≤ beNat t.peerSerial)
  (if low then t.nonce ++ t.peerNonce else t.peerNonce ++ t.nonce) ++
    (if low then s.serial ++ t.peerSerial else t.peerSerial ++ s.serial) ++ ownerSet s

/-- The payload of the AUTH a port sends: the certificate as SECURITY.GET_CERT returns it, OWNER_SET and the signature (R474, log entry 20). -/
def authPayload (p nonce : Nat) (s : State) : List Byte :=
  s.certificate ++ ownerSet s ++ Config.ecdsaSign (Config.devicePub 0) (tenonAuthMessage (s.tenon p) s) nonce

/-- R473: revision, roles, floor; then AUTH is sent. -/
def tenonHelloRx (p : Nat) (h : Hello) (s : State) : State :=
  let t := s.tenon p
  if !(s.hubUp && t.state == 2 && !t.retraining) then s else
    let rev := min 3 h.revMax
    let s := modTenon p (fun t => { t with peerRole := h.portRole, peerAddr := if h.assigned then h.address else 0xFFFF, peerFw := h.fw,
                                           peerSerial := h.serial, peerNonce := h.nonce }) s
    if rev < max 1 h.revMin then portDown p 6 s
    else if facingRole t.role ≠ h.portRole then portDown p 7 s
    else
      let (n, s) := drawNat (modTenon p (fun t => { t with rev, authSent := true }) s)
      let s := tenonBytes p (linkBytes true 3 (authPayload p n s)) s
      if t.role = 7 then s else standBy p h (learnNumber p h (takeFloor h.floor h.floorSeq s))
def execTenonHelloRx (p : Fin 8) (h : Hello) (s : State) : Result := .next (tenonHelloRx p h s)

/-- R474: the peer's certificate, OWNER_SET and signature. -/
def authGood (t : TenonPort) (a : Auth) (s : State) : Bool :=
  Config.ecdsaVerify (Config.eloanathPub 0) (t.peerSerial ++ a.idPub ++ a.agrPub) a.certR a.certS &&
    a.ownerSet == ownerSet s && Config.ecdsaVerify a.idPub (tenonAuthMessage t s) a.sigR a.sigS

/-- R474, R475: a good AUTH brings the port up; after DOWN its epoch rises and every counter of the link is 0. -/
def tenonAuthRx (p : Nat) (a : Auth) (s : State) : State :=
  let t := s.tenon p
  if !(s.hubUp && t.state == 2 && t.authSent && !t.retraining) then s
  else if authGood t a s then
    tenonEvent p 1 (modTenon p (fun t => { t with
      state := 3, authOk := true, firstControl := true, fellDown := false
      epoch := if t.fellDown then t.epoch + 1 else t.epoch
      credit := if t.fellDown then { queues := t.credit.queues } else t.credit }) s)
  else authFailure 8 (portDown p 5 (bump pmTenon p 47 1 s))
def execTenonAuthRx (p : Fin 8) (a : Auth) (s : State) : Result := .next (tenonAuthRx p a s)

/-! Link control. -/

/-- R469, R472: a link-control message. Short grants in the first after training put the port DOWN; SLEEP from both ends is
electrical idle; RETRAIN asks for a retrain, which this end answers. -/
def tenonLinkControlRx (p : Nat) (crcOk : Bool) (k : LinkControl) (s : State) : State :=
  let t := s.tenon p
  if !s.tenonUp p then s
  else if !crcOk then bump pmTenon p 34 1 s
  else if t.firstControl && !(List.range 4).all (fun v => decide (65 ≤ k.grants.getD v 0)) then portDown p 8 s
  else
    let s := modTenon p (fun t => { t with credit := t.credit.control k, firstControl := false, sleepSeen := k.sleep }) s
    let s := if k.retrain then tenonResend p (tenonControlOut p false true (tenonBurst p (tenonEvent p 2 (bump pmTenon p 37 1 s)))) else s
    if k.sleep && t.sleepSent then
      settlePlls (modDom 5 p (fun d => { d with state := 1 }) (modTenon p (fun t => { t with state := 4 }) s))
    else s
def execTenonLinkControlRx (p : Fin 8) (crcOk : Bool) (k : LinkControl) (s : State) : Result :=
  .next (tenonLinkControlRx p crcOk k s)

/-- R472: every 1 µs. -/
def tenonLinkControlTx (p : Nat) (s : State) : State := when (s.tenonUp p) (tenonControlOut p (s.tenon p).sleepSent false) s
def execTenonLinkControlTx (p : Fin 8) (s : State) : Result := .next (tenonLinkControlTx p s)

/-- R458: 20 µs without ACK advancing over an outstanding message. -/
def tenonReplayTimeout (p : Nat) (s : State) : State :=
  when (s.tenonUp p && !(s.tenon p).credit.replay.isEmpty) (tenonResend p) s
def execTenonReplayTimeout (p : Fin 8) (s : State) : Result := .next (tenonReplayTimeout p s)

/-! Data. -/

/-- The manager to which this device's route 1 delivers (R487). -/
def State.upward (s : State) : Nat :=
  if s.domain.mgrState = 1 ∨ s.domain.mgrState = 3 then s.managerOf s.sill.straps.role.toNat else s.domain.ringMgr

/-- The event at the head of route 1 that this port would carry. -/
def State.routeHead (s : State) (p : Nat) : Option EventRec :=
  if s.hasRoute 1 && s.nextHop s.upward == some p then s.control.routeTenon.queue.head? else none

/-- The messages that a port could send next but for credit. -/
def State.tenonWaiting (s : State) (p : Nat) : List Message :=
  (List.range 4).flatMap (fun v => (tblGet [] (s.tenon p).credit.queues v).take 1) ++
    (if (tblGet [] (s.tenon p).credit.queues 2).isEmpty then
      ((s.routeHead p).map (fun e => ({ vc := 2, origin := s.address, body := .packet (eventPacket s e) none } : Message))).toList else [])

/-- R472: the oldest message of a virtual channel is sent; on VC 2 an event of route 1 follows what is passed on. -/
def tenonDataTx (p vc : Nat) (s : State) : State :=
  if !s.tenonUp p then s else
    match tblGet [] (s.tenon p).credit.queues vc with
    | m :: rest => when (s.tenonRoom p m) (fun s =>
        tenonSend p m (modTenon p (fun t => { t with sleepSent := false, credit := { t.credit with queues := tblSet [] t.credit.queues vc rest } }) s)) s
    | [] =>
      match (if vc = 2 then s.routeHead p else none) with
      | none => s
      | some e =>
        let m : Message := { vc := 2, origin := s.address, body := .packet (eventPacket s e) none }
        when (s.tenonRoom p m) (fun s =>
          flushLost 1 (tenonSend p m (modRoute 1 (fun r => { r with queue := r.queue.drop 1 }) s))) s
def execTenonDataTx (p : Fin 8) (vc : Fin 4) (s : State) : Result := .next (tenonDataTx p vc s)

/-! A request arrives. -/

/-- A broadcast this device has executed or holds already. -/
def State.hasTaken (s : State) (m : Message) (q : Packet) : Bool :=
  s.domain.executed.contains (m.origin, q.session.toNat, q.seq) ||
    s.control.rx.any (fun r => r.origin == m.origin && r.bytes == packetBytes q)

/-- Salurn's buffer takes a request that came by a port; its cells are freed when Salurn takes it. -/
def takeIn (p : Nat) (m : Message) (q : Packet) (s : State) : State :=
  receive { port := .tenon p, bytes := packetBytes q, count := packetSize q, origin := m.origin, originRole := m.originRole } s

/-- The answer of a device that finds no way for a request (R480): toward ORIGIN, with the request's TARGET. -/
def noWay (m : Message) (q : Packet) (s : State) : State :=
  let r : Packet := { q with flags := 2, status := BitVec.ofNat 16 Status.noReply.code, payload := [] }
  (sendToward m.origin { vc := 1, origin := m.origin, body := .packet r none } s).2

/-- R480, R484, R485: a request is for this device, or goes on. A broadcast's copy from the manager of the ring is taken once and a
further copy passed round; one on its way up goes toward the manager. -/
def requestRx (p : Nat) (m : Message) (q : Packet) (s : State) : State :=
  let free := fun s => modTenon p (fun t => { t with credit := t.credit.free 0 (messageCells m) }) s
  let l := roleLevel (s.tenon p).role
  if broadcastBit q.flags then
    if m.origin = s.managerOf l ∨ s.actsFor l then
      if s.hasTaken m q then
        if m.origin = s.address ∨ s.actsFor l then bump pmTenon p 45 1 (free s) else passRound p m (free s)
      else takeIn p m q s
    else passToward p (s.managerOf l) m (free s)
  else if q.target.toNat % 16384 = s.address then takeIn p m q s
  else if 200 < m.hops + 1 then bump pmTenon p 46 1 (free s)
  else
    let (sent, t) := sendToward (q.target.toNat % 16384) { m with hops := m.hops + 1 } (free s)
    if sent then bump pmTenon p 43 1 t else noWay m q t

/-! A reply arrives. -/

/-- The counts and list a reply adds to a collation (R485, R486): a manager's reply its subtree's, a device's its own, and an opcode
the target does not define as ST_UNSUPPORTED. -/
def Collation.add (c : Collation) (a : Nat) (r : Packet) : Collation :=
  let c := { c with awaited := c.awaited.erase a }
  let st := r.status.toNat
  if (st = 0 ∨ st = Status.partly.code) ∧ 8 ≤ r.payload.length then
    { c with
      ok := c.ok + u16 r.payload 2, total := c.total + u16 r.payload 0, overflow := c.overflow || (u8 r.payload 6).testBit 0
      listed := c.listed ++ (List.range (u16 r.payload 4)).map (fun i => (u16 r.payload (8 + 4 * i), u16 r.payload (10 + 4 * i))) }
  else if st = 0 then { c with ok := c.ok + 1, total := c.total + 1 }
  else { c with total := c.total + 1, listed := c.listed ++ [(a, if st = Status.opcode.code then Status.unsupported.code else st)] }

/-- The collation a reply belongs to. -/
def State.collationFor (s : State) (a : Nat) (r : Packet) : Option Collation :=
  s.control.collations.find? (fun c => c.request.session == r.session && c.request.seq == r.seq &&
    c.request.opcode == r.opcode && c.awaited.contains a)

/-- A distribution's report (R491); with the last of them it is done. -/
def finishDistribution (s : State) : State :=
  let d := s.domain.dist
  let failed := d.reports.filter (fun r => r.2 != 0)
  let s := modDomain (fun x => { x with dist := { x.dist with running := false } }) s
  raise 0x0E06 0 (be 2 (d.reports.length) ++ be 2 (d.reports.length - failed.length) ++ be 2 (min 4094 failed.length) ++ zeros 2) false s

/-- Record a report; the distribution is done when every target has one. -/
def report (a st : Nat) (s : State) : State :=
  if !s.domain.dist.running || s.domain.dist.reports.any (fun r => r.1 == a) then s else
    let s := modDomain (fun x => { x with dist := { x.dist with reports := x.dist.reports ++ [(a, st)] } }) s
    if s.domain.dist.targets.all (fun t => s.domain.dist.reports.any (fun r => r.1 == t)) then finishDistribution s else s

/-- R481, R484, R485: a reply for this device joins its collation, its distribution, or leaves by the port of its request, once; any
other goes toward ORIGIN. -/
def replyRx (p : Nat) (m : Message) (r : Packet) (s : State) : State :=
  let a := r.target.toNat % 16384
  if m.origin ≠ s.address then passToward p m.origin m s
  else if r.opcode = 0x0E06 ∧ r.session = 0 then report a r.status.toNat s
  else match s.collationFor a r with
    | some c =>
      let c := c.add a r
      let s := modControl (fun k => { k with collations := k.collations.map (fun x => if x.id = c.id then c else x) }) s
      if c.awaited.isEmpty then closeCollation c s else s
    | none =>
      let key := (m.origin, r.session.toNat, r.seq)
      if s.domain.passed.contains key then bump pmTenon p 45 1 s
      else match s.domain.relayed.find? (fun x => x.1 == r.session.toNat && x.2.1 == r.seq) with
        | none => bump pmTenon p 45 1 s
        | some x =>
          let s := modDomain (fun d => { d with passed := (d.passed ++ [key]).drop (d.passed.length + 1 - 64) }) s
          storeReply r.session.toNat r (putReply x.2.2 0 r none s)

/-! An event arrives. -/

/-- The event a packet carries, as a route holds it (R127). -/
def eventOf (e : Packet) : EventRec :=
  ⟨e.seq, e.opcode.toNat, e.unit.toNat, urgentBit e.flags, ⟨field e.payload 0 6, field e.payload 6 4⟩, e.payload.drop 12, false, some e.target, e.version⟩

/-- R481, R487: the manager of the ring passes an event on by its own routes and masks, each source's in sequence and once; another
device passes it toward the manager. -/
def eventRx (p : Nat) (m : Message) (e : Packet) (s : State) : State :=
  let l := roleLevel (s.tenon p).role
  if !s.actsFor l then passToward p (s.managerOf l) m s
  else
    let a := e.target.toNat % 16384
    let dup := match tblGet none s.domain.eventSeen a with
      | some x => !seqLater e.seq x
      | none => false
    if dup then bump pmTenon p 45 1 s
    else
      let s := modDomain (fun d => { d with eventSeen := tblSet none d.eventSeen a (some e.seq) }) s
      forEach [0, 1, 2] (fun k s => if s.hasRoute k then modRoute k (fun r => (r.offer (eventOf e)).1) (flushLost k s) else s) s

/-! An image block arrives (R491). -/

/-- What a command's own part answers, as a recipient of a distribution sees it. -/
def outcome (r : Reply) : Status × State :=
  match r with
  | .reject st _ s => (st, s)
  | .done st _ s next => (st, next s)
  | .later _ s => (.ok, s)

/-- This device's report goes to the entry device. -/
def sendReport (origin : Nat) (st : Status) (s : State) : State :=
  (sendToward origin { vc := 1, origin, body := .packet (replyPacket s 0x24 0x0E06 0 0 0 st []) none } s).2

/-- A block is staged under R97 and the image verified under R91 with its last; the report is the status the FIRMWARE command would
have returned. -/
def stageBlock (origin off len : Nat) (data : List Byte) (s : State) : State :=
  let q : Request := {}
  let (st, s) := if off = 0 then outcome (firmwareStageBegin { q with payload := be 4 len } s) else (.ok, s)
  if st ≠ .ok then sendReport origin st s
  else if s.fw.staging.all (fun g => g.written != off) then s
  else
    let (st, s) := outcome (firmwareStageWrite { q with payload := be 4 off ++ data } s)
    if st ≠ .ok then sendReport origin st (modFw (fun f => { f with staging := none }) s)
    else if off + data.length < len then s
    else
      let (st, s) := outcome (firmwareStageVerify q s)
      sendReport origin st s

/-- The peer by the next port is the manager of the ring, where a block's way round ends. -/
def State.ringEnds (s : State) (p : Nat) : Bool :=
  match s.otherPort p with
  | some o => (s.tenon o).peerAddr == s.managerOf (roleLevel (s.tenon p).role)
  | none => true

/-- The address of number `n` of a level, under the address of its manager. -/
def addressOf (l manager n : Nat) : Nat :=
  if l = 0 then manager / 32 * 32 + n else if l = 1 then manager / 1024 * 1024 + n * 32 else n * 1024

/-- A block leaves by the port of a role. A link of revision 1 carries no image: with the first block, the devices of the ring that lie
beyond it and in scope are reported with ST_UNSUPPORTED (R490). -/
def sendImage (l role : Nat) (m : Message) (s : State) : State :=
  match s.portOfRole role with
  | none => s
  | some o =>
    if (s.tenon o).rev ≠ 1 then tenonPush o m s
    else match m.body with
      | .image scope 0 _ _ =>
        let beyond := (s.members l).filter (fun n => n != s.numberOn l && s.portToward l n == some o)
        forEach ((beyond.map (fun n => addressOf l (if s.actsFor l then s.address else s.managerOf l) n)).filter (inScope scope)) (fun a s =>
          let r := { replyPacket s 0x24 0x0E06 0 0 0 .unsupported [] with target := BitVec.ofNat 16 a }
          if m.origin = s.address then report a Status.unsupported.code s
          else (sendToward m.origin { vc := 1, origin := m.origin, body := .packet r none } s).2) s
      | _ => s

/-- Put a block on both ways of a ring, or on one where it is closed. -/
def injectRing (l : Nat) (m : Message) (s : State) : State :=
  let k := s.map l
  let closed := (s.members l).all (fun n => n == s.numberOn l || (k.east.testBit n && k.west.testBit n))
  if closed then sendImage l (2 * l + 1) m s else sendImage l (2 * l + 2) m (sendImage l (2 * l + 1) m s)

/-- A block goes on: round the ring it came by, and from a manager down every other ring it acts for. -/
def passImage (p : Nat) (m : Message) (s : State) : State :=
  let l := roleLevel (s.tenon p).role
  let s := if s.ringEnds p || s.actsFor l then s else onward p m (sendImage l (facingRole (s.tenon p).role)) s
  forEach [0, 1, 2] (fun k s => if s.actsFor k && k != l then injectRing k m s else s) s

/-- R491. -/
def imageRx (p : Nat) (m : Message) (scope : BitVec 16) (off len : Nat) (data : List Byte) (s : State) : State :=
  if m.origin = s.address then s else
    let s := passImage p m s
    if inScope scope s.address then stageBlock m.origin off len data s else s

/-! A message is received whole (R458, R472). -/

/-- What a data message accepted in order does. -/
def tenonTake (p : Nat) (m : Message) (s : State) : State :=
  let free := fun s => modTenon p (fun t => { t with credit := t.credit.free m.vc (messageCells m) }) s
  match m.vc, m.body with
  | 0, .packet q _ => requestRx p m q s
  | 1, .packet q _ => replyRx p m q (free s)
  | _, .packet q _ => eventRx p m q (free s)
  | _, .image scope off len d => imageRx p m scope off len d (free s)
  | _, .fence l mask back => fenceRx p m l mask back (free s)
  | _, _ => free s

/-- R472, R496. A BRACE port forwards nothing. -/
def tenonMessageRx (p : Nat) (crcOk : Bool) (m : Message) (s : State) : State :=
  let t := s.tenon p
  if !s.tenonUp p then s
  else if !crcOk then bump pmTenon p 34 1 s
  else if m.seq ≠ t.credit.rxSeq + 1 then bump pmTenon p 36 1 s
  else
    let s := bump pmTenon p 33 1 (modTenon p (fun t => { t with credit := t.credit.accept m }) s)
    if t.role = 7 then modTenon p (fun t => { t with credit := t.credit.free m.vc (messageCells m) }) s else tenonTake p m s
def execTenonMessageRx (p : Fin 8) (crcOk : Bool) (m : Message) (s : State) : Result := .next (tenonMessageRx p crcOk m s)

end Sys2Proof.Machine
end

