-- ==== Sys2Proof/Machine/Domain.lean ====
section
/-! DEFINITION. Chapter 18 of spec/: maps, fences, takeover, collation, distribution and the DOMAIN commands. -/

namespace Sys2Proof.Machine

/-! Maps (R478, R479). -/

/-- The highest number of a level: districts have four bits of an address (R114). -/
def topNumber (l : Nat) : Nat := if l = 2 then 15 else 31

/-- The number a manager gives a serial: the one its table holds, the standby's, or the lowest free (R477, R478). -/
def numberFor (l : Nat) (x : Seen) (table : List (Nat × List Byte × Nat)) : Option Nat :=
  match table.find? (fun e => e.1 == l && e.2.1 == x.serial) with
  | some e => some e.2.2
  | none =>
    let free := fun n => !table.any (fun e => e.1 == l && e.2.2 == n)
    if x.standby then (if free (topNumber l) then some (topNumber l) else none)
    else ((List.range (topNumber l)).map (· + 1)).find? free

/-- Every device seen has its number, in east order. -/
def numberAll (l : Nat) : List Seen → List (Nat × List Byte × Nat) → List (Nat × List Byte × Nat)
  | [], t => t
  | x :: r, t =>
    match numberFor l x t with
    | some n => numberAll l r (if t.any (fun e => e.1 == l && e.2.1 == x.serial) then t else t ++ [(l, x.serial, n)])
    | none => numberAll l r t

/-- The map of what a manager sees. -/
def ringMapOf (s : State) (l : Nat) (seen : List Seen) (table : List (Nat × List Byte × Nat)) : RingMap :=
  let at_ := fun (f : Seen → Bool) => maskOf 32 (fun n => seen.any (fun x => f x && numberFor l x table == some n))
  { east := at_ (fun x => x.east), west := at_ (fun x => x.west), sender := s.numberOn l
    fws := seen.foldl (fun t x => match numberFor l x table with | some n => tblSet 0 t n x.fw | none => t)
      (tblSet 0 [] (s.numberOn l) s.fw.running.fwVersion) }

/-- CUTS of a map: closed, one cut, or split (R479). -/
def cutsOf (m : RingMap) (known : List Nat) : Nat :=
  if known.all (fun n => m.east.testBit n && m.west.testBit n) then 0
  else if known.all (fun n => m.east.testBit n || m.west.testBit n) then 1 else 2

/-- The map message a manager sends. -/
def mapMessage (s : State) (l : Nat) (unnumbered : List (List Byte)) : MapMsg :=
  let m := s.map l
  { level := l, manager := s.address, east := m.east, west := m.west, fws := m.fws, floor := s.floorField, floorSeq := s.domain.floorSeq
    numbers := (s.domain.numbers.filter (fun e => e.1 == l)).map (fun e => (e.2.1, some (addressOf l s.address e.2.2))) ++
      unnumbered.map (fun x => (x, none)) }

/-- A map comes into force here: what it reverses is fenced (R482). -/
def adoptMap (l : Nat) (m : RingMap) (s : State) : State :=
  fenceReversed s l (modDomain (fun d => { d with maps := tblSet {} d.maps l m }) s)

/-- Salurn builds the map of what is seen now; each change raises EV_DOM_MAP, urgent when the ring is split (R479, R495). -/
def buildMap (l : Nat) (seen : List Seen) (s : State) : State :=
  let table := numberAll l seen s.domain.numbers
  let m := ringMapOf s l seen table
  let old := s.map l
  let s := adoptMap l m (modDomain (fun d => { d with numbers := table }) s)
  let cuts := cutsOf m ((table.filter (fun e => e.1 == l)).map (fun e => e.2.2))
  if m.east = old.east ∧ m.west = old.west then s
  else raise 0x0E02 0 (be 1 l ++ be 1 cuts ++ zeros 2 ++ be 4 m.east ++ be 4 m.west) (cuts == 2) s

/-- R479: the active manager sends its map both ways round, the last one built while Salurn does not run. -/
def mapSend (l : Nat) (seen : List Seen) (s : State) : State :=
  if !(s.blocksRun && s.manages l && s.onLevel l) then s else
    let s := if s.salurnRuns then buildMap l seen s else s
    let un := (seen.filter (fun x => (numberFor l x s.domain.numbers).isNone)).map (fun x => x.serial)
    let m : Message := { vc := 2, origin := s.address, body := .map (mapMessage s l un) }
    forEach [2 * l + 1, 2 * l + 2] (fun r s => match s.portOfRole r with | some p => tenonPush p m s | none => s) s
def execMapSend (level : Fin 3) (observed : List Seen) (s : State) : Result := .next (mapSend level observed s)

/-- The level whose manager gives this device its address (R477): a standby's own ring, else the one above what it manages. -/
def State.addressLevel (s : State) : Option Nat :=
  if s.domain.mgrState = 3 then none
  else if s.domain.mgrState = 2 then some (s.sill.straps.role.toNat - 1)
  else if s.sill.straps.role = 3 ∧ s.domain.mgrState = 1 then none
  else some (if s.domain.mgrState = 1 then s.sill.straps.role.toNat else 0)

/-- The manager has a number for this device, or none (R478). -/
def takeNumber (n : Option Nat) (s : State) : State :=
  match n with
  | some a =>
    if s.domain.address = some a then s
    else raise 0x0E04 0 (be 2 a ++ be 1 0 ++ zeros 1) false (modDomain (fun d => { d with address := some a, enumFault := 0 }) s)
  | none =>
    let cause := if s.domain.mgrState = 2 then 2 else 1
    if s.domain.enumFault ≠ 0 then s
    else raise 0x0E04 0 (be 2 0xFFFF ++ be 1 cause ++ zeros 1) false
      (modDomain (fun d => { d with enumFault := cause, mgrState := if cause = 2 then 0 else d.mgrState }) s)

/-- EV_DOM_MANAGER (R495). -/
def managerState (l new : Nat) (s : State) : State :=
  let old := s.domain.mgrState
  raise 0x0E03 0 (be 1 l ++ be 1 new ++ be 1 old ++ zeros 1) true (modDomain (fun d => { d with mgrState := new }) s)

/-- The address of the acting manager of a level, as this device knows it. -/
def setManagerOf (l a : Nat) (d : Domain) : Domain :=
  if l = 0 then { d with ringMgr := a } else if l = 1 then { d with distMgr := a } else { d with rootAddr := a }

/-- R479, R483: a map arrives. A device that acts for the ring gives way to a lower number only. -/
def mapRx (p : Nat) (m : MapMsg) (s : State) : State :=
  let l := m.level
  if !(s.tenonUp p && decide (1 ≤ (s.tenon p).role ∧ (s.tenon p).role ≤ 6) && roleLevel (s.tenon p).role == l) then s
  else if m.manager = s.address ∧ s.manages l then s
  else if s.manages l && s.sill.straps.role.toNat == l + 1 && decide (s.numberOn l < addrPart l m.manager) then s
  else
    let s := if s.domain.mgrState = 3 ∧ s.sill.straps.role.toNat = l + 1 then managerState l 2 s else s
    let s := if s.ringEnds p then s else passRound p { vc := 2, origin := m.manager, body := .map m } s
    let s := modDomain (setManagerOf l m.manager) (takeFloor m.floor m.floorSeq s)
    let s := adoptMap l { east := m.east, west := m.west, sender := addrPart l m.manager
                          fws := m.fws.foldl (fun t e => tblSet 0 t e.1 e.2) [] } s
    if s.addressLevel = some l then
      match m.numbers.find? (fun e => e.1 == s.serial) with
      | some e => takeNumber e.2 s
      | none => s
    else s
def execMapRx (p : Fin 8) (map : MapMsg) (s : State) : Result := .next (mapRx p map s)

def execFenceReturn (level : Fin 3) (s : State) : Result := .next (fenceReturn level s)
def execFenceTimeout (level : Fin 3) (s : State) : Result := .next (fenceAgain level s)

/-- R483: a standby takes over the ring it watches. -/
def managerTakeover (s : State) : State :=
  when (s.salurnRuns && s.domain.mgrState == 2 && s.domain.standbyEn && s.sill.straps.role != 0) (fun s =>
    let l := s.sill.straps.role.toNat - 1
    managerState l 3 (modDomain (setManagerOf l s.address) s)) s
def execManagerTakeover (s : State) : Result := .next (managerTakeover s)

/-- R485: a collation's time ends; who has not answered is listed with ST_DOM_NO_REPLY. -/
def collationClose (id : Nat) (s : State) : State :=
  match s.control.collations.find? (fun c => c.id == id) with
  | some c => closeCollation c s
  | none => s
def execCollationClose (entry : Nat) (s : State) : Result := .next (collationClose entry s)

/-- R491: 600 s have passed. -/
def distributionTimeout (s : State) : State :=
  let d := s.domain.dist
  let silent := d.targets.filter (fun t => !d.reports.any (fun r => r.1 == t))
  when d.running (fun s => finishDistribution (modDomain (fun x => { x with dist := { x.dist with
    reports := x.dist.reports ++ silent.map (fun t => (t, Status.noReply.code)) } }) s)) s
def execDistributionTimeout (s : State) : Result := .next (distributionTimeout s)

/-! Commands. -/

/-- The straps permit a role (R476). -/
def rolePermitted (strap role : Nat) : Bool :=
  if role = 3 ∨ role = 4 then decide (1 ≤ strap) else if role = 5 ∨ role = 6 then decide (2 ≤ strap) else true

/-- R473, R475, R492, R494: a new role starts training with epoch 0; what the port held is rerouted or discarded. -/
def setPortRole (p r : Nat) (s : State) : State :=
  let s := rerouteFrom p s
  let s := modTenon p (fun _ => { role := r, state := if r = 0 then 0 else 1 }) s
  settleFloor (tenonEvent p 0 (followEnable 5 p s))

def domainSetPort (q : Request) (s : State) : Reply :=
  let p := q.b 0
  let r := q.b 1
  checked [unitZero q, inByte q 0 0 7, inByte q 1 0 7, resv q 2 2] s <|
  require [(rolePermitted s.sill.straps.role.toNat r, .domRole),
    (r == 0 || (List.range 8).all (fun k => k == p || (s.tenon k).role != r), .domRole)] s <|
    .okay (if (s.tenon p).role = r then s else setPortRole p r s)

def domainGetPorts (q : Request) (s : State) : Reply :=
  checked [unitZero q] s <|
    .okWith ((List.range 8).flatMap (fun p =>
      let t := s.tenon p
      be 1 t.role ++ be 1 t.shown ++ be 1 (if t.shown = 3 ∨ t.shown = 4 then t.rev else 0) ++ be 1 t.peerRole ++ be 2 t.peerAddr ++
        zeros 2 ++ be 4 t.peerFw ++ be 4 t.epoch.toNat)) s

/-- The level of the ring a device manages, or of its own ring. -/
def State.ownLevel (s : State) : Nat :=
  if s.domain.mgrState = 1 ∨ s.domain.mgrState = 3 then s.sill.straps.role.toNat - 1 else 0

def domainGetTopology (q : Request) (s : State) : Reply :=
  checked [unitZero q] s <|
    let m := s.map s.ownLevel
    let d := s.domain
    .okWith (be 2 (d.address.getD 0xFFFF) ++ be 1 s.sill.straps.role.toNat ++ be 1 d.mgrState ++ be 2 d.ringMgr ++ be 2 d.distMgr ++
      be 2 d.rootAddr ++ zeros 2 ++ be 4 s.floorField ++ be 4 d.floorSeq ++ be 4 m.east ++ be 4 m.west ++
      (List.range 32).flatMap (fun n => be 4 (tblGet 0 m.fws n))) s

/-- This device acts as the root. -/
def State.actsAsRoot (s : State) : Bool :=
  s.sill.straps.role == 3 && (s.domain.mgrState == 1 || s.domain.mgrState == 3)

/-- The 32 bytes of a floor record (R488). -/
def floorRecord (seq floor : Nat) : List Byte :=
  let b := be 4 0xA6F70A00 ++ be 4 seq ++ be 4 floor ++ zeros 16
  b ++ be 4 (crc32c b).toNat

/-- Devices in the root's maps that run below a floor. -/
def State.below (s : State) (floor : Nat) : Nat :=
  ([0, 1, 2].flatMap (fun l => (s.map l).fws.filter (fun e => decide (e.2 < floor)))).length

/-- R488, R494, R497. -/
def domainSetFloor (q : Request) (s : State) : Reply :=
  let f := q.w 0
  checked [unitZero q, (q.b 4 == 1 || (match s.domain.floor with | some old => decide (old ≤ f) | none => true), 0),
    inByte q 4 0 1, resv q 5 3] s <|
  require [(s.actsAsRoot, .notManager), (decide (f ≤ s.fw.running.fwVersion), .floor), (decide (s.domain.floorSeq < 0xFFFFFFFE), .state)] s <|
    let (ok, s) := flashTakes s
    if !ok then .done .flash [] s id else
    let copy := match copyInForce s 0x120000 0xA6F70A00 with | some c => 1 - c | none => 0
    let a := 0x120000 + copy * 0x10000
    let s := flashWrite a (floorRecord (s.domain.floorSeq + 1) f) (flashErase a 0x10000 s)
    .done .ok (be 4 (s.below f)) s (floorChange (modDomain (fun d => { d with floor := some f, floorSeq := d.floorSeq + 1, floorKnown := true })))

def domainSetManager (q : Request) (s : State) : Reply :=
  checked [unitZero q, inHalf q 0 1 1000, inHalf q 2 (3 * q.h 0) 10000, inHalf q 4 10 10000, inByte q 6 0 1, resv q 7 1] s <|
  require [(s.domain.mgrState == 1 || s.domain.mgrState == 3, .notManager)] s <|
    .okay (modDomain (fun d => { d with hbMs := q.h 0, timeoutMs := q.h 2, collateMs := q.h 4, standbyEn := q.b 6 == 1 }) s)

/-- The devices in scope that this device's maps show, itself among them (log entry 21). -/
def State.knownIn (s : State) (scope : BitVec 16) : List Nat :=
  let seen := [0, 1, 2].flatMap (fun l => (s.members l).map (fun n => addressOf l (if l = s.ownLevel then s.address else s.managerOf l) n))
  ((s.address :: seen).filter (inScope scope)).eraseDups

/-- The blocks of an image, 16 384 bytes each but the last. -/
def imageBlocks (scope : BitVec 16) (origin len : Nat) (image : List Byte) : List Message :=
  (List.range ((len + 16383) / 16384)).map (fun i =>
    { vc := 3, origin, body := .image scope (16384 * i) len (bytesAt image (16384 * i) 16384) })

/-- R490, R491: the image goes down the rings this device acts for, or round its own; devices beyond a link of revision 1 are listed
at once, and this device, which holds the image verified, reports itself. -/
def distribute (scope : BitVec 16) (bank : Nat) (s : State) : State :=
  let len := 0x1000 + u32 (flashBytes s (bankBase bank) 352) 16
  let targets := s.knownIn scope
  let s := modDomain (fun d => { d with dist := { running := true, scope := scope.toNat, targets } }) s
  let rings := [0, 1, 2].filter s.actsFor
  let s := forEach (imageBlocks scope s.address len (flashBytes s (bankBase bank) len)) (fun m s =>
    forEach (if rings.isEmpty then [0] else rings) (fun l s => injectRing l m s) s) s
  let s := if inScope scope s.address then report s.address 0 s else s
  forEach targets (fun a s => match s.nextHop a with
    | some p => if a ≠ s.address ∧ (s.tenon p).rev = 1 then report a Status.unsupported.code s else s
    | none => s) s

/-- SCOPE is a row of R114 with BROADCAST set. -/
def domainDistribute (q : Request) (s : State) : Reply :=
  let scope := BitVec.ofNat 16 (q.h 0)
  checked [unitZero q, (targetValid 8 scope, 0), resv q 2 2] s <|
  require [(s.fwState == 2, .state), (!s.domain.dist.running, .busy)] s <|
    match s.fw.staged with
    | some b => .okThen s (distribute scope b)
    | none => .refuse .state s

def domainGetDist (q : Request) (s : State) : Reply :=
  checked [unitZero q] s <|
    let d := s.domain.dist
    let failed := d.reports.filter (fun r => r.2 != 0)
    .okWith (collatedPayload d.reports.length (d.reports.length - failed.length) failed false) s

def domainFreePosition (q : Request) (s : State) : Reply :=
  checked [unitZero q, inByte q 0 1 31, resv q 1 3] s <|
  require [(s.domain.mgrState == 1 || s.domain.mgrState == 3, .notManager)] s <|
    let l := s.ownLevel
    require [(!((s.map l).east.testBit (q.b 0) || (s.map l).west.testBit (q.b 0)), .state)] s <|
      .okay (modDomain (fun d => { d with numbers := d.numbers.filter (fun e => !(e.1 == l && e.2.2 == q.b 0)) }) s)

def execDomainSetPort (q : Request) (s : State) : Result := .next (takeRequest 0x0E01 q domainSetPort s)
def execDomainGetPorts (q : Request) (s : State) : Result := .next (takeRequest 0x0E02 q domainGetPorts s)
def execDomainGetTopology (q : Request) (s : State) : Result := .next (takeRequest 0x0E03 q domainGetTopology s)
def execDomainSetFloor (q : Request) (s : State) : Result := .next (takeRequest 0x0E04 q domainSetFloor s)
def execDomainSetManager (q : Request) (s : State) : Result := .next (takeRequest 0x0E05 q domainSetManager s)
def execDomainDistribute (q : Request) (s : State) : Result := .next (takeRequest 0x0E06 q domainDistribute s)
def execDomainGetDist (q : Request) (s : State) : Result := .next (takeRequest 0x0E07 q domainGetDist s)
def execDomainFreePosition (q : Request) (s : State) : Result := .next (takeRequest 0x0E08 q domainFreePosition s)

end Sys2Proof.Machine
end

