-- ==== Sys2Proof/Machine/Memory.lean ====
section
/-! DEFINITION. Chapter 12 of spec/: the planer, the clamp, the bucket, retrains, audits and the MEMORY commands. -/

namespace Sys2Proof.Machine

/-! The planer (R332, R333). -/

/-- EV_SHIM_FULL, once for a stack, and the log (R338). -/
def hardFaultKept (k w : Nat) (s : State) : State :=
  let s := memLog k 8 w s
  if (s.stack k).shimFull then s else raise 0x0805 k (be 4 w) false (modStack k (fun x => { x with shimFull := true }) s)

/-- A word leaves the watch list. -/
def unwatch (k w : Nat) (s : State) : State := modStack k (fun x => { x with watch := x.watch.filter (fun e => e.1 != w) }) s

/-- A word joins the watch list, displacing the oldest of 256. -/
def watchWord (k w : Nat) (s : State) : State :=
  let full := decide (256 ≤ (s.stack k).watch.length)
  bump pmStack k 11 (b2n full) (modStack k (fun x => { x with watch := (if full then x.watch.drop 1 else x.watch) ++ [(w, x.passes)] }) s)

/-- A word's content moves to a spare, which serves it from then on (R337). -/
def moveToSpare (k i w : Nat) (s : State) : State :=
  let v := (s.stack k).wordAt w
  let s := modStack k (fun x => { x with shim := tblSet 0 x.shim i (w + 1) }) s
  bump pmStack k 12 1 (writeWords k (spareBase + i) [v] s)

/-- A hard fault: remapped, or moved and its spare retired, or kept on the watch list (R337, R338). `w` is the word the access reached. -/
def hardFault (k w : Nat) (s : State) : State :=
  let x := s.stack k
  let free := x.freeSpares.head?
  let keep := modStack k (fun x => { x with watch := x.watch.map (fun (e : Nat × Word32) => if e.1 = w then (w, x.passes) else e) })
  if spareBase ≤ w then
    let i := w - spareBase
    let served := tblGet 0 x.shim i
    if x.retired.contains i then keep s
    else if served = 0 then
      memLog k 9 w (bump pmStack k 12 1 (unwatch k w (modStack k (fun x => { x with retired := x.retired ++ [i] }) s)))
    else match x.freeSpares.head? with
      | none => hardFaultKept k w (keep s)
      | some j =>
        let s := modStack k (fun x => { x with retired := x.retired ++ [i] }) (unwatch k w s)
        let s := moveToSpare k j (served - 1) s
        let s := modStack k (fun x => { x with shim := tblSet 0 x.shim i 0 }) s
        raise 0x0804 k (be 1 j ++ zeros 3 ++ be 4 (served - 1)) false (memLog k 9 w s)
  else match free with
    | none => hardFaultKept k w (keep s)
    | some j => raise 0x0804 k (be 1 j ++ zeros 3 ++ be 4 w) false (memLog k 7 w (moveToSpare k j w (unwatch k w s)))

/-- The planer's word was corrected (R333). -/
def planerCorrected (k w : Nat) (s : State) : State :=
  let x := s.stack k
  let s := writeWords k w [x.wordAt w] s
  match x.watch.find? (fun e => e.1 == x.place w) with
  | none => watchWord k (x.place w) (memLog k 1 w s)
  | some e => if e.2 = x.passes then s else hardFault k (x.place w) s

/-- The planer reads its next word (R332, R333), after the clamp's entry for it is flushed (R329). It pauses while the stack is out of P0 (R57) and while a retrain holds the stack's
accesses. -/
def planerRead (k : Nat) (odd : Option WordSeen) (s : State) : State :=
  when (s.blocksRun && decide ((s.dom 4 k).state = 0) && !(s.stack k).retraining) (fun s =>
    let w := (s.stack k).planer
    let held := (s.stack k).clamp.any (fun e => e.word == w)
    let (f, s) := readWord k w (if held then none else odd) (bump pmStack k 10 1 (flushWord k w odd s))
    let s := match f with
      | .clean => unwatch k ((s.stack k).place w) s
      | .corrected => planerCorrected k w s
      | .uncorrectable => memLog k 2 w (writePoison k w (consumed k s))
      | .mimic => memLog k 3 w (writePoison k w (consumed k s))
      | .poison => writePoison k w (consumed k s)
    modStack k (fun x => { x with planer := (w + 1) % stackWords, passes := if w + 1 = stackWords then x.passes + 1 else x.passes }) s) s
def execPlanerRead (stack : Fin 4) (odd : Option WordSeen) (s : State) : Result := .next (planerRead stack odd s)

/-! The clamp and the bucket. -/

/-- R329: the oldest entry has been held for 256 hub cycles; during a retrain it waits. -/
def clampFlush (k : Nat) (odd : Option WordSeen) (s : State) : State := when (s.blocksRun && !(s.stack k).retraining) (flushOldest k odd) s
def execClampFlush (stack : Fin 4) (odd : Option WordSeen) (s : State) : Result := .next (clampFlush stack odd s)

def bucketDrain (k : Nat) (s : State) : State := when s.blocksRun (modStack k (fun x => { x with bucket := x.bucket - 1 })) s
def execBucketDrain (stack : Fin 4) (s : State) : Result := .next (bucketDrain stack s)

def execCeRateThreshold (stack : Fin 4) (s : State) : Result := .next (when s.blocksRun (ceRate stack) s)

/-! Retrain (R340, R341). -/

/-- A third failed transfer, or a temperature change, starts a retrain; `retries` interface retries came before it. -/
def retrainStart (k retries : Nat) (s : State) : State :=
  when s.blocksRun (fun s =>
    let s := bump pmStack k 13 retries s
    if (s.stack k).retraining || (s.stack k).failed then s else modStack k (fun x => { x with retraining := true }) s) s
def execRetrainStart (stack : Fin 4) (retries : Nat) (s : State) : Result := .next (retrainStart stack retries s)

/-- The retrain ends well: accesses resume, the clamp's entries are flushed, and queues that waited are considered again. -/
def retrainGood (k : Nat) (odd : List OddWord) (s : State) : State :=
  selectAll (flushClamp k odd (modStack k (fun x => { x with retraining := false, failed := false, fails := 0 }) s))

/-- The retrain fails: it is tried again until three have failed in a row, when the stack is marked failed (log entry 28). -/
def retrainBad (k : Nat) (s : State) : State :=
  let n := (s.stack k).fails + 1
  if n < 3 then modStack k (fun x => { x with fails := n }) s
  else
    let was := (s.stack k).failed
    let s := modStack k (fun x => { x with fails := n, retraining := false, failed := true, clamp := [] }) s
    if was then s else mirrorRelease 1 (raise 0x0806 k [] true s)

def retrainComplete (k : Nat) (good : Bool) (odd : List OddWord) (s : State) : State :=
  when (s.blocksRun && (s.stack k).retraining) (fun s =>
    let s := bump pmStack k 14 1 s
    if good then retrainGood k odd s else retrainBad k s) s
def execRetrainComplete (stack : Fin 4) (good : Bool) (odd : List OddWord) (s : State) : Result := .next (retrainComplete stack good odd s)

/-! The audit (R336). -/

/-- The cells that some queue's chain reaches. -/
def State.reachedCells (s : State) (k : Nat) : List Nat :=
  s.sched.queues.flatMap (fun e => e.2.frames.flatMap (fun f => (f.cells.filter (fun p => p % 4 == k)).map (fun p => p / 4)))

/-- The sweep of one stack: allocated cells that the mark did not reach are freed. -/
def sweepStack (k : Nat) (s : State) : Nat × State :=
  let kept := s.reachedCells k
  let gone := (s.stack k).alloc.filter (fun e => !kept.contains e.1)
  (gone.length, bump pmStack k 17 gone.length (bump pmStack k 16 gone.length
    (modStack k (fun x => { x with alloc := x.alloc.filter (fun e => kept.contains e.1) }) s)))

/-- R339: the four stacks swept, and the cells freed. -/
def sweepAll (s : State) : Nat × State :=
  let (a, s) := sweepStack 0 s
  let (b, s) := sweepStack 1 s
  let (c, s) := sweepStack 2 s
  let (d, s) := sweepStack 3 s
  (a + b + c + d, s)

/-- An audit ends: chains found poisoned in the mark were quarantined too, the sweep has freed what was unmarked, and every queue it covers
leaves quarantine, empty. -/
def auditComplete (k : Nat) (poisoned : List (Nat × Nat × Nat)) (s : State) : State :=
  if (s.stack k).audit.isNone || !s.blocksRun then s else
    let s := forEach poisoned (fun x s => if (s.queue x.1).frames.isEmpty then s
      else
        let s := quarantine x.1 x.2.1 x.2.2 (memLog x.2.1 6 x.2.2 (consumed x.2.1 s))
        if x.2.1 = k then s else
          modStack k (fun y => { y with audit := some (y.audit.getD [] ++ [x.1]) }) (modStack x.2.1 (fun y => { y with
            audit := match y.audit with | some [q] => if q = x.1 then none else some [q] | some l => some (l.filter (· != x.1)) | none => none }) s)) s
    let qs := ((s.stack k).audit.getD []).eraseDups
    let (n, s) := sweepAll s
    let s := forEach qs (fun q s => modQueue q (fun x => { x with quarantined := false }) s) (modStack k (fun x => { x with audit := none }) s)
    raise 0x0803 k (be 4 n ++ be 4 qs.length) false s
def execAuditComplete (stack : Fin 4) (poisoned : List (Nat × Nat × Nat)) (s : State) : Result := .next (auditComplete stack poisoned s)

/-! Commands (R343 to R346). -/

def memorySetPolicy (q : Request) (s : State) : Reply :=
  let ks := if q.b 0 = 0xFF then [0, 1, 2, 3] else [q.b 0]
  checked [unitZero q, (decide (q.b 0 ≤ 3) || q.b 0 == 0xFF, 0), resv q 1 3, inWord q 4 1024 16777216, inHalf q 8 1 65000, inHalf q 10 1 65535] s <|
    onStacks ks s fun s => .okay (forEach ks (fun k s => modStack k (fun x => { x with rate := q.w 4, drainMs := q.h 8, thresh := q.h 10 }) s) s)

/-- STATE of MEMORY.GET_STATUS. -/
def Stack.stateCode (x : Stack) : Nat := if x.retraining then 1 else if x.failed then 2 else 0

/-- The mark and the sweep are one step here; which of them AUDIT shows while an audit runs is free (log entry 29). -/
def memoryGetStatus (q : Request) (s : State) : Reply :=
  checked [unitBelow q 4] s <| onStacks [q.u] s fun s =>
    let x := s.stack q.u
    let (phase, s) := if x.audit.isSome then drawBelow 2 s else (0, s)
    .okWith (be 1 x.stateCode ++ be 1 x.shim.length ++ be 1 x.retired.length ++ be 1 (b2n x.audit.isSome + phase) ++ be 4 x.freeCells ++
      be 4 x.alloc.length ++ be 4 x.deskew ++ be 4 x.planer ++ be 4 x.passes.toNat ++ be 4 x.rate ++ be 2 x.bucket ++ be 2 x.watch.length ++
      be 4 x.logSeq.toNat ++ zeros 4) s

def memLogBytes (e : MemLog) : List Byte := be 4 e.seq.toNat ++ e.tod.bytes ++ be 1 e.kind ++ be 1 e.flags ++ be 4 e.addr

/-- The entries from FROM_SEQ on: those that are not older than it. -/
def memoryGetLog (q : Request) (s : State) : Reply :=
  let from_ : Word32 := BitVec.ofNat 32 (q.w 0)
  checked [unitBelow q 4, inByte q 4 1 64, resv q 5 3] s <| onStacks [q.u] s fun s =>
    .okWith ((((s.stack q.u).log.filter (fun e => !seqOlder e.seq from_)).take (q.b 4)).flatMap memLogBytes) s

/-- R340, R345. -/
def memoryRetrain (q : Request) (s : State) : Reply :=
  checked [unitBelow q 4] s <|
  require [(!(s.stack q.u).retraining, .busy)] s <|
  onStacks [q.u] s fun s => .okay (modStack q.u (fun x => { x with retraining := true }) s)

/-- The addresses of a SET_SHIM payload. -/
def shimWords (q : Request) : List Nat := (List.range (q.b 0)).map (fun i => q.w (4 + 4 * i))

/-- A preloaded word takes the lowest free spare; one that a spare serves already keeps it (log entry 30). -/
def preload (k w : Nat) (s : State) : State :=
  let x := s.stack k
  if (x.spareOf w).isSome then s
  else match x.freeSpares.head? with
    | some i => modStack k (fun x => { x with shim := tblSet 0 x.shim i (w + 1) }) s
    | none => s

def memorySetShim (q : Request) (s : State) : Reply :=
  let x := s.stack q.u
  let ws := shimWords q
  checked ([unitBelow q 4, (decide (1 ≤ q.b 0 ∧ q.b 0 ≤ 16) && q.payload.length == 4 + 4 * q.b 0, 0), resv q 1 3] ++
    ws.zipIdx.map (fun w => (decide (w.1 < spareBase) && !(ws.take w.2).contains w.1, 4 + 4 * w.2))) s <|
  require [(!s.stackHolds q.u, .state)] s <|
    if x.freeSpares.length < q.b 0 then .reject .shimFull (be 1 x.freeSpares.length ++ zeros 3) s
    else onStacks [q.u] s fun s => .okay (forEach ws (preload q.u) s)

def memoryGetCounts (q : Request) (s : State) : Reply := checked [unitBelow q 4] s <| .okWith (countsReply s pmStack q.u 0 18) s

def execMemorySetPolicy (q : Request) (s : State) : Result := .next (takeRequest 0x0801 q memorySetPolicy s)
def execMemoryGetStatus (q : Request) (s : State) : Result := .next (takeRequest 0x0802 q memoryGetStatus s)
def execMemoryGetLog (q : Request) (s : State) : Result := .next (takeRequest 0x0803 q memoryGetLog s)
def execMemoryRetrain (q : Request) (s : State) : Result := .next (takeRequest 0x0804 q memoryRetrain s)
def execMemorySetShim (q : Request) (s : State) : Result := .next (takeRequest 0x0805 q memorySetShim s)
def execMemoryGetCounts (q : Request) (s : State) : Result := .next (takeRequest 0x0806 q memoryGetCounts s)

end Sys2Proof.Machine
end

