-- ==== Sys2Proof/Machine/Monitor.lean ====
section
/-! DEFINITION. Chapter 16 of spec/: the monitor ADC, its sequencers, the decimation chain and the MONITOR commands. -/

namespace Sys2Proof.Machine

/-! Converters. -/

/-- R422: the settling time of a converter's reference ends. -/
def monRefSettled (c : Nat) (s : State) : State := when s.hubUp (refSettled c) s
def execMonRefSettled (conv : Fin 2) (s : State) : Result := .next (monRefSettled conv s)

/-- R423: a change of REF or PAIR that waits takes effect; each converter whose reference in force changes settles anew (R422). -/
def monConverterApply (c : Nat) (s : State) : State :=
  let k := s.converter c
  let pairs := c == 0 && s.monitor.wantPair.any (fun _ => [0, 1].all (fun q => (s.sequencer q).table.start == 0))
  let mine := if s.monitor.pair || pairs then [0, 1] else [c]
  when (s.hubUp && (k.want.isSome || pairs) && s.convIdle mine) (fun s =>
    let old := s.monitor
    let s := modConverter c (fun k => { k with ref := k.want.getD k.ref, want := none }) s
    let s := if pairs then modMonitor (fun m => { m with pair := m.wantPair.getD m.pair, wantPair := none }) s else s
    forEach [0, 1] (fun x s =>
      if s.monitor.refOf x = old.refOf x then s else modConverter x (fun k => { k with settled := false }) s) s) s
def execMonConverterApply (conv : Fin 2) (s : State) : Result := .next (monConverterApply conv s)

/-! Averaging (R420, R424). -/

/-- The reference voltage of a converter, in nanovolts: 1.200 V, or the voltage of MON_VREF or VDD_ANA. -/
def State.monVref (s : State) (c vref : Nat) : Nat := if s.monitor.refOf c = 0 then 1200000000 else vref

/-- The codes of the conversions of an averager, of these voltages. -/
def Averager.codes (a : Averager) (vref : Nat) (v : List Int) : List Nat := v.map (fun n => monCode (presented a.input n) vref)

/-- The value of 2^AVG_LOG2 conversions. -/
def averageOf (a : Averager) (codes : List Nat) : Nat := codes.foldl (· + ·) 0 / 2 ^ a.shift

/-- The marks of a value: what its conversions carried. -/
def valueMarks (carry : Marks) (unsettled : Bool) (codes : List Nat) : Marks :=
  carry.join ⟨false, unsettled, codes.any (fun c => c == 0 || c == 16383)⟩

/-! Decimation (R434 to R438). -/

/-- Inputs that enter before the first output (R437), which is also the window of an output's marks (R438). -/
def DecimConfig.window (k : DecimConfig) : Nat :=
  let r := 2 ^ k.rLog2
  if k.snap then r else k.n * r * k.m + if k.resamp then 12 * r else 0

/-- A channel with its registers cleared (R437). -/
def clearedDecim (k : DecimConfig) : Decim :=
  { config := k, integ := List.replicate k.n 0, comb := List.replicate k.n (List.replicate k.m 0), ahead := k.ratio }

/-- The integrators after an input: each adds the one before it. -/
def integrate : List Nat → Nat → List Nat
  | [], _ => []
  | a :: r, x => let b := (a + x) % 2 ^ 72; b :: integrate r b

/-- The combs after a value: the new registers and the value that leaves. -/
def combs : List (List Nat) → Nat → List (List Nat) × Nat
  | [], v => ([], v)
  | r :: rest, v =>
    let d := (v + 2 ^ 72 - r.getLastD 0) % 2 ^ 72
    let (rs, y) := combs rest d
    ((v :: r.dropLast) :: rs, y)

/-- An input enters a channel (R435). -/
def enterDecim (d : Decim) (x : Nat) (m : Marks) : Decim :=
  let n := d.entered + 1
  let d := { d with
    entered := n
    precalAt := if m.precal then some n else d.precalAt
    unsettledAt := if m.unsettled then some n else d.unsettledAt
    clippedAt := if m.clipped then some n else d.clippedAt }
  let full := n % 2 ^ d.config.rLog2 == 0
  if d.config.snap then
    let t := d.sum + x
    if full then { d with sum := 0, due := d.due ++ [⟨t, n⟩] } else { d with sum := t }
  else
    let i := integrate d.integ x
    { d with integ := i, due := if full then d.due ++ [⟨i.getLastD 0, n⟩] else d.due }

/-- R436: the resampler takes an input: the output it makes, if it makes one, and its mark of clipping. -/
def resampleInput (d : Decim) (y : Nat) : Decim × Option (Nat × Bool) :=
  let taps := (y :: d.taps).take 12
  let one := 2 ^ 24
  if one < d.ahead then ({ d with taps, ahead := d.ahead - one }, none)
  else
    let full := taps ++ List.replicate (12 - taps.length) 0
    let v : Int := if full.all (· == y) then (y : Int) else Config.resample (d.ahead % one / 2 ^ 19) full
    let out := max 0 (min (8388607 : Int) v)
    ({ d with taps, ahead := d.ahead + d.config.ratio - one }, some (out.toNat, out != v))

/-- The output a channel makes of the value formed first, if any leaves (R435, R436). -/
def makeOutput (d : Decim) (x : DecimDue) : Decim × Option (Nat × Bool) :=
  let k := d.config
  let d := { d with due := d.due.tail }
  if k.snap then (d, some (x.value * 64 / 2 ^ k.rLog2, false))
  else
    let (cs, v) := combs d.comb x.value
    let y := v / 2 ^ (k.n * (k.rLog2 + k.m - 1) - 6)
    let d := { d with comb := cs }
    if k.resamp then resampleInput d y else (d, some (y, false))

/-- Marks of the window that ends with an input (R438). -/
def Decim.marksAt (d : Decim) (entered : Nat) : Marks :=
  let has := fun (o : Option Nat) => o.any (fun i => decide (entered < i + d.config.window))
  ⟨has d.precalAt, has d.unsettledAt, has d.clippedAt⟩

/-- One output of a channel: withheld until it has settled, then delivered; the first says so (R437). -/
def decimOutput (c : Nat) (s : State) : State :=
  let d := s.decim c
  match d.due with
  | [] => s
  | x :: _ =>
    let (e, out) := makeOutput d x
    let s := modDecim c (fun _ => e) s
    match out with
    | none => s
    | some (y, clip) =>
      if x.entered < d.config.window then s else
        let s := if d.settled then s else
          raise 0x0C02 0 (be 1 c ++ be 1 (b2n d.config.snap) ++ zeros 2) false (modDecim c (fun e => { e with settled := true }) s)
        deliver d.config.slot d.config.tracker y ((d.marksAt x.entered).join ⟨false, false, clip⟩) s
def execDecimOutput (c : Fin 8) (s : State) : Result := .next (when s.blocksRun (decimOutput c) s)

/-- R437: the settling count of a channel is reached, and the output that is due then is the first released. -/
def decimSettled (c : Nat) (s : State) : State :=
  let d := s.decim c
  when (s.blocksRun && !d.settled && d.due.head?.any (fun x => decide (d.config.window ≤ x.entered))) (decimOutput c) s
def execDecimSettled (c : Fin 8) (s : State) : Result := .next (decimSettled c s)

/-! Sequences. -/

/-- R424, R425: an entry of a pass completes its conversions, of these voltages, and its value goes to its destinations. -/
def monValueComplete (q vref : Nat) (v : List Int) (s : State) : State :=
  let x := s.sequencer q
  match x.table.entries[x.entry]? with
  | none => s
  | some e =>
    when (s.blocksRun && x.running && decide ((s.dom 8 0).state = 0) && v.length == 2 ^ e.what.avgLog2) (fun s =>
      let codes := e.what.codes (s.monVref q vref) v
      let value := averageOf e.what codes
      let marks := valueMarks x.carry (s.unsettledBy (s.drives q)) codes
      let s := modSequencer q (fun x => { x with entry := x.entry + 1, carry := {} }) s
      let s := deliver e.slot e.tracker value marks s
      match e.decim with
      | some c => if (s.decim c).config.enabled then modDecim c (fun d => enterDecim d value marks) s else s
      | none => s) s
def execMonValueComplete (q : Fin 2) (vref : Nat) (v : List Int) (s : State) : Result := .next (monValueComplete q vref v s)

/-- The channels that a table feeds. -/
def SeqTable.fed (t : SeqTable) : List Nat := t.entries.filterMap (fun e => e.decim)

/-- A table takes effect (R428): a latched trigger is discarded when the sequencer goes off or its source changes; channels fed by
a sequencer that starts settle anew (R437); a continuous sequencer begins at once. -/
def applyTable (q : Nat) (t : SeqTable) (s : State) : State :=
  let old := s.sequencer q
  let drop := old.latched && (t.start == 0 || t.trigSrc != old.table.trigSrc)
  let s := modSequencer q (fun x => { x with
    table := t, waiting := none, running := false, entry := 0, carry := {}, latched := x.latched && !drop
    periodInForce := if t.periodUs = 0 then 0 else x.periodInForce }) s
  let s := if drop then missTrigger q s else s
  let s := if old.table.start = 0 ∧ t.start ≠ 0 then
    forEach (t.fed.filter (fun c => (s.decim c).config.enabled)) (fun c s => modDecim c (fun d => clearedDecim d.config) s) s else s
  if t.start = 1 then startPass q (startExit 8 0 s) else s

/-- R425, R428: a pass ends; a table that waits takes effect, and a continuous sequencer begins again. -/
def monPassEnd (q : Nat) (s : State) : State :=
  let x := s.sequencer q
  when (s.blocksRun && x.running && x.entry == x.table.entries.length) (fun s =>
    let s := modSequencer q (fun x => { x with passes := x.passes + 1, running := false, entry := 0 }) s
    match x.waiting with
    | some t => applyTable q t s
    | none => if x.table.start = 1 then startPass q s else s) s
def execMonPassEnd (q : Fin 2) (s : State) : Result := .next (monPassEnd q s)

/-- R425: the timer fires. -/
def monTriggerTimer (q : Nat) (s : State) : State :=
  let x := s.sequencer q
  when (s.blocksRun && x.table.start == 2 && x.table.trigSrc == 1 && x.periodInForce != 0) (fun s => (triggerSeq q s).2) s
def execMonTriggerTimer (q : Fin 2) (s : State) : Result := .next (monTriggerTimer q s)

/-- R426: a latched trigger starts its pass. -/
def monLatchedTriggerStart (q : Nat) (s : State) : State :=
  when (s.blocksRun && (s.sequencer q).latched && s.canStart q)
    (fun s => startPass q (modSequencer q (fun x => { x with latched := false }) s)) s
def execMonLatchedTriggerStart (q : Fin 2) (s : State) : Result := .next (monLatchedTriggerStart q s)

/-- R429: the last conversion of an injected request is made; its value reaches its slot and tracker, then the reply is issued. -/
def monInjectComplete (c vref : Nat) (v : List Int) (s : State) : State :=
  match s.injection c with
  | none => s
  | some i =>
    when (s.blocksRun && decide ((s.dom 8 0).state = 0) && v.length == 2 ^ i.what.avgLog2) (fun s =>
      let codes := i.what.codes (s.monVref c vref) v
      let marks := valueMarks i.carry (!(s.converter c).settled) codes
      completeEntry i.entry .ok [] (deliver i.slot i.tracker (averageOf i.what codes) marks (setInjection c none s))) s
def execMonInjectComplete (conv : Fin 2) (vref : Nat) (v : List Int) (s : State) : Result :=
  .next (monInjectComplete conv vref v s)

/-! Producers (R432). -/

/-- A destination: 0 slot, 1 tracker, 2 channel, and its number. -/
abbrev Destination := Nat × Nat

def destinations (slot tracker decim : Option Nat) : List Destination :=
  (slot.map (fun i => (0, i))).toList ++ (tracker.map (fun i => (1, i))).toList ++ (decim.map (fun i => (2, i))).toList

/-- The destinations of a table; a sequencer that is off produces nothing (log entry 39). -/
def SeqTable.feeds (t : SeqTable) : List Destination :=
  if t.start = 0 then [] else t.entries.flatMap (fun e => destinations e.slot e.tracker e.decim)

/-- What a sequencer feeds, under its table and the one that waits. -/
def State.seqFeeds (s : State) (q : Nat) : List Destination :=
  (s.sequencer q).table.feeds ++ (match (s.sequencer q).waiting with | some t => t.feeds | none => [])

/-- What an enabled channel feeds. -/
def DecimConfig.feeds (k : DecimConfig) : List Destination := if k.enabled then destinations k.slot k.tracker none else []
def State.decimFeeds (s : State) (but : Option Nat) : List Destination :=
  (List.range 8).flatMap (fun c => if but = some c then [] else (s.decim c).config.feeds)

/-- What pending injected requests feed. -/
def State.injectFeeds (s : State) : List Destination :=
  [0, 1].flatMap (fun c => match s.injection c with | some i => destinations i.slot i.tracker none | none => [])

/-- The first destination wanted that another producer feeds, or that is wanted twice. -/
def secondProducer (wanted taken : List Destination) : Option Destination :=
  match wanted with
  | [] => none
  | d :: r => if taken.contains d then some d else secondProducer r (d :: taken)

/-- ST_MON_ROUTE, or go on (R432, R443). -/
def routed (wanted taken : List Destination) (s : State) (k : Reply) : Reply :=
  match secondProducer wanted taken with
  | some (kind, i) => .reject .monRoute (be 1 kind ++ be 1 i ++ zeros 2) s
  | none => k

/-! Commands. -/

/-- A destination field: a number below `n`, or 0xFF for none. -/
def orNone (v : Nat) : Option Nat := if v = 0xFF then none else some v
def inDest (q : Request) (off n : Nat) : Bool × Nat := (decide (q.b off < n) || q.b off == 0xFF, off)

/-- R421. -/
def monInput (i : Nat) : Bool := decide (i ≤ 0x21)

/-- R440, R423. -/
def monitorSetConverter (q : Request) (s : State) : Reply :=
  let c := q.b 0
  let pair := q.b 2 == 1
  checked [unitZero q, inByte q 0 0 1, inByte q 1 0 2, (decide (q.b 2 ≤ if c = 1 then 0 else 1), 2), resv q 3 1] s <|
  require [(c == 1 || pair == s.monitor.wantPair.getD s.monitor.pair || [0, 1].all (fun k =>
      (s.sequencer k).table.start == 0 && (s.sequencer k).waiting.all (fun t => t.start == 0)), .state)] s <|
    needing 8 0 s fun s =>
    let s := modConverter c (fun k => { k with want := if q.b 1 = k.ref then none else some (q.b 1) }) s
    .okay (if c = 1 then s else modMonitor (fun m => { m with wantPair := if pair = m.pair then none else some pair }) s)

/-- Entry `e` of the payload. -/
def entryOf (q : Request) (e : Nat) : SeqEntry :=
  let o := 8 + 8 * e
  { what := ⟨q.b o, q.b (o + 1), q.b (o + 2)⟩, slot := orNone (q.b (o + 3)), tracker := orNone (q.b (o + 4)), decim := orNone (q.b (o + 5)) }

/-- The checks of an entry: R421, R424, R434. -/
def entryChecks (q : Request) (e : Nat) : List (Bool × Nat) :=
  let o := 8 + 8 * e
  [(monInput (q.b o), o), inByte q (o + 1) 1 8,
   (decide (q.b (o + 2) ≤ q.b (o + 1)) && (q.b (o + 5) == 0xFF || decide (q.b (o + 1) - q.b (o + 2) ≤ 3)), o + 2),
   inDest q (o + 3) 64, inDest q (o + 4) 32, inDest q (o + 5) 8, resv q (o + 6) 2]

/-- R428, R441, R442. -/
def monitorSetSequence (q : Request) (s : State) : Reply :=
  let k := q.b 0
  let n := q.b 3
  let p := q.w 4
  let pair := s.monitor.pair
  checked ([unitZero q, (decide (k ≤ if pair then 0 else 1), 0), inByte q 1 0 2, (decide (q.b 2 ≤ if q.b 1 = 2 then 3 else 0), 2),
      (decide (1 ≤ n ∧ n ≤ if pair then 1 else 16) && q.payload.length == 8 + 8 * n, 3),
      (if q.b 2 = 1 then decide (10 ≤ p ∧ p ≤ 1000000) && 1000000 % p == 0 else p == 0, 4)] ++
      (List.range n).flatMap (entryChecks q)) s <|
    let t : SeqTable := ⟨q.b 1, q.b 2, p, (List.range n).map (entryOf q)⟩
    routed t.feeds (s.seqFeeds (1 - k) ++ s.decimFeeds none ++ s.injectFeeds) s <|
      needing 8 0 s fun s => if (s.sequencer k).running then .okay (modSequencer k (fun x => { x with waiting := some t }) s)
      else .okay (applyTable k t s)

/-- R434 to R437, R441, R442. -/
def monitorSetDecim (q : Request) (s : State) : Reply :=
  let c := q.b 0
  let snap := q.b 2 == 1
  let z := fun (off lo hi : Nat) => (if snap then q.b off == 0 else decide (lo ≤ q.b off ∧ q.b off ≤ hi), off)
  checked [unitZero q, inByte q 0 0 7, inByte q 1 0 1, inByte q 2 0 1, z 3 3 5, z 4 1 2, inByte q 5 2 10, z 6 0 1, resv q 7 1,
      (if q.b 6 = 1 then decide (16777216 ≤ q.w 8 ∧ q.w 8 ≤ 33554432) else q.w 8 == 0, 8), inDest q 12 64, inDest q 13 32, resv q 14 2] s <|
    let k : DecimConfig := ⟨q.b 1 == 1, snap, q.b 3, q.b 4, q.b 5, q.b 6 == 1, q.w 8, orNone (q.b 12), orNone (q.b 13)⟩
    routed k.feeds ([0, 1].flatMap s.seqFeeds ++ s.decimFeeds (some c) ++ s.injectFeeds) s <|
      needing 8 0 s fun s =>
      let s := if (s.decim c).config = k then s else modDecim c (fun _ => clearedDecim k) s
      .okay (if k.enabled then startExit 8 0 s else s)

/-- R433: a change of mode clears. -/
def monitorSetAccum (q : Request) (s : State) : Reply :=
  checked [unitZero q, resv q 12 4] s <|
    let s := forEach (List.range 64) (fun i s => modMonSlot i (fun x =>
      if (q.d 0).testBit i = x.perSecond then x else { perSecond := (q.d 0).testBit i }) s) s
    .okay (forEach (List.range 32) (fun i s => modTracker i (fun x =>
      if (q.w 8).testBit i = x.perSecond then x else { perSecond := (q.w 8).testBit i }) s) s)

/-- R426, R442: the sequencers named, in ascending order. -/
def monitorTrigger (q : Request) (s : State) : Reply :=
  let m := q.b 0
  checked [unitZero q, inByte q 0 1 3, resv q 1 3] s <|
  require [((bitsOf 2 m).all (fun k => (s.sequencer k).table.start == 2 && (s.sequencer k).table.trigSrc == 0), .state)] s <|
    let (r0, s) := if m.testBit 0 then triggerSeq 0 s else (3, s)
    let (r1, s) := if m.testBit 1 then triggerSeq 1 s else (3, s)
    .okWith (be 1 r0 ++ be 1 r1 ++ zeros 2) s

/-- R429: the reply is issued when the value has reached its destinations. -/
def monitorInject (q : Request) (s : State) : Reply :=
  let c := q.b 0
  checked [unitZero q, inByte q 0 0 1, (monInput (q.b 1), 1), inByte q 2 1 8, (decide (q.b 3 ≤ q.b 2), 3), inDest q 4 64, inDest q 5 32, resv q 6 2] s <|
  require [(!s.monitor.pair, .state), ((s.injection c).isNone, .busy)] s <|
    let slot := orNone (q.b 4)
    let tracker := orNone (q.b 5)
    routed (destinations slot tracker none) ([0, 1].flatMap s.seqFeeds ++ s.decimFeeds none) s <|
      needing 8 0 s fun s =>
        .later (.inject c) (setInjection c (some { what := ⟨q.b 1, q.b 2, q.b 3⟩, slot, tracker, entry := s.control.nextEntry }) s)

/-- TOD of a read: of the read, or of the last boundary where every one read is in per-second mode (log entry 40). -/
def readTod (s : State) (ps : List Bool) : Tod := if ps.all id then s.counters.latchedTod else s.timing.tod

/-- What a slot or tracker shows. -/
def MonSlot.shown (x : MonSlot) : SlotSum := if x.perSecond then x.last else x.now
def Tracker.shown (x : Tracker) : Extremes := if x.perSecond then x.last else x.now

def slotBytes (x : MonSlot) : List Byte :=
  let k := x.shown
  be 8 k.sum ++ be 4 k.count ++ be 1 (k.marks.bits + 8 * b2n k.saturated + 16 * b2n x.perSecond) ++ zeros 1 ++ be 2 k.flagged
def trackerBytes (x : Tracker) : List Byte :=
  let k := x.shown
  be 4 k.min ++ be 4 k.max ++ be 1 (k.marks.bits + 16 * b2n x.perSecond) ++ zeros 1 ++ be 2 k.flagged

/-- The checks of FIRST, COUNT and CLEAR. -/
def readChecks (q : Request) (n : Nat) : List (Bool × Nat) :=
  [unitZero q, (decide (q.b 0 < n), 0), (decide (q.b 0 + q.b 1 ≤ n), 1), inByte q 2 0 1, resv q 3 1]

/-- R433, R441. -/
def monitorReadSlots (q : Request) (s : State) : Reply :=
  checked (readChecks q 64) s <|
    let xs := (List.range (q.b 1)).map (fun i => q.b 0 + i)
    let out := (readTod s (xs.map (fun i => (s.monSlot i).perSecond))).bytes ++ zeros 2 ++ xs.flatMap (fun i => slotBytes (s.monSlot i))
    .okWith out (if q.b 2 = 1 then forEach xs (fun i s => modMonSlot i (fun x => if x.perSecond then x else { x with now := {} }) s) s else s)

def monitorReadTrackers (q : Request) (s : State) : Reply :=
  checked (readChecks q 32) s <|
    let xs := (List.range (q.b 1)).map (fun i => q.b 0 + i)
    let out := (readTod s (xs.map (fun i => (s.tracker i).perSecond))).bytes ++ zeros 2 ++ xs.flatMap (fun i => trackerBytes (s.tracker i))
    .okWith out (if q.b 2 = 1 then forEach xs (fun i s => modTracker i (fun x => if x.perSecond then x else { x with now := {} }) s) s else s)

/-- CONV_STATE: 0 idle, 1 sequence, 2 injected, 3 calibration. -/
def State.convState (s : State) (c : Nat) : Nat :=
  if (s.calOf 4).fullTx then 3 else if (s.injection c).isSome then 2
  else if (s.sequencer (if s.monitor.pair then 0 else c)).running then 1 else 0

/-- R441. -/
def monitorGetStatus (q : Request) (s : State) : Reply :=
  checked [unitZero q] s <|
    .okWith ([0, 1].flatMap (fun c => be 1 (s.convState c) ++ be 1 (s.monitor.refOf c) ++ be 1 (b2n (s.converter c).settled) ++
        be 1 (b2n (s.monitor.pair && c == 0))) ++
      [0, 1].flatMap (fun k => let x := s.sequencer k
        be 1 x.table.start ++ be 1 (b2n x.latched) ++ zeros 2 ++ be 4 x.passes.toNat ++ be 4 x.missed.toNat) ++
      be 1 (maskOf 8 (fun c => (s.decim c).config.enabled)) ++ be 1 (maskOf 8 (fun c => (s.decim c).settled)) ++
      be 1 (maskOf 2 (fun c => (s.injection c).isSome)) ++ zeros 5) s

def execMonitorSetConverter (q : Request) (s : State) : Result := .next (takeRequest 0x0C01 q monitorSetConverter s)
def execMonitorSetSequence (q : Request) (s : State) : Result := .next (takeRequest 0x0C02 q monitorSetSequence s)
def execMonitorSetDecim (q : Request) (s : State) : Result := .next (takeRequest 0x0C03 q monitorSetDecim s)
def execMonitorSetAccum (q : Request) (s : State) : Result := .next (takeRequest 0x0C04 q monitorSetAccum s)
def execMonitorTrigger (q : Request) (s : State) : Result := .next (takeRequest 0x0C05 q monitorTrigger s)
def execMonitorInject (q : Request) (s : State) : Result := .next (takeRequest 0x0C06 q monitorInject s)
def execMonitorReadSlots (q : Request) (s : State) : Result := .next (takeRequest 0x0C07 q monitorReadSlots s)
def execMonitorReadTrackers (q : Request) (s : State) : Result := .next (takeRequest 0x0C08 q monitorReadTrackers s)
def execMonitorGetStatus (q : Request) (s : State) : Result := .next (takeRequest 0x0C09 q monitorGetStatus s)

end Sys2Proof.Machine
end

