-- ==== Sys2Proof/Machine/Power.lean ====
section
/-! DEFINITION. Chapter 03 of spec/: latency-governed sleep, PLLs, the adaptive VDD_CORE and the POWER commands. -/

namespace Sys2Proof.Machine

/-- An entry of the POWER.SET_TOLERANCE reply (R75). -/
def domainEntry (s : State) (cls idx : Nat) : List Byte :=
  be 1 cls ++ be 1 idx ++ be 1 (s.dom cls idx).state ++ be 1 (s.deepest cls idx)

/-- The domains a CLASS and INDEX name (R75). -/
def namedDomains (cls idx : Nat) : List Nat := if idx = 0xFF then List.range (classCount cls) else [idx]

/-- The checks of CLASS, INDEX and the reserved half-word. -/
def domainChecks (q : Request) : List (Bool × Nat) :=
  [inByte q 0 1 9, (q.b 1 == 0xFF || decide (q.b 1 < classCount (q.b 0)), 1), resv q 2 2]

/-- R75. -/
def powerSetTolerance (q : Request) (s : State) : Reply :=
  checked (domainChecks q) s <|
    let ds := namedDomains (q.b 0) (q.b 1)
    let s := forEach ds (fun i s => setTolerance (q.b 0) i (q.w 4) s) s
    .okWith (ds.flatMap (domainEntry s (q.b 0))) s

def execPowerSetTolerance (q : Request) (s : State) : Result :=
  .next (takeRequest 0x0201 q powerSetTolerance s)

/-- R76. -/
def powerGetState (q : Request) (s : State) : Reply :=
  checked (domainChecks q) s <|
    .okWith ((namedDomains (q.b 0) (q.b 1)).flatMap (fun i => domainEntry s (q.b 0) i ++ be 4 (s.dom (q.b 0) i).tol)) s

def execPowerGetState (q : Request) (s : State) : Result :=
  .next (takeRequest 0x0202 q powerGetState s)

/-- The typical power of a domain of a class in P0 to P4, in mW (R55); Deep mode raises the receive P0 figure. -/
def domainMw (cls state : Nat) (deep : Bool) : Nat :=
  (match cls with
    | 1 => [13000, 5200, 2600, 400, 20]
    | 2 => [if deep then 29000 else 23000, 8000, 3500, 600, 20]
    | 3 => [1375, 550, 200, 50, 10]
    | 4 => [6500, 3000, 1400, 900, 50]
    | 5 => [250, 100, 40, 5, 5]
    | 6 => [600, 250, 100, 30, 10]
    | 7 => [800, 300, 120, 20, 5]
    | 8 => [200, 80, 30, 10, 2]
    | _ => [1500, 600, 250, 80, 10]).getD state 0

/-- The unit's receive works in Deep mode. -/
def State.deepMode (s : State) (u : Nat) : Bool := match (s.cu u).fmtRx with | some f => f.decoder == 1 | none => false

/-- The typical power that the domain states give: the domains of R55, the hub common logic with 4.75 W for each carrier unit in use
(R74), the sill (R50), and low-speed I/O and clock outputs (R74), in mW. -/
def State.typicalMw (s : State) : Nat :=
  let domains := (allDomains.map (fun d => domainMw d.1 (s.dom d.1 d.2).state (d.1 == 2 && s.deepMode d.2))).foldl (· + ·) 0
  let units := (List.range 4).countP (fun u => (s.dom 1 u).state == 0 || (s.dom 2 u).state == 0)
  domains + 6000 + 4750 * units + 900 + 500

/-- R77. The regulator's readings are free values in their ranges; how the estimate weighs the typical power of the domain states
against the reading is not stated (log entry 68). -/
def powerGetPower (_q : Request) (s : State) : Reply :=
    let (mv, s) := drawBelow 1002 s
    let (ma, s) := drawBelow 400002 s
    .okWith (be 2 s.power.targetMv ++ be 2 (if mv = 1001 then 0xFFFF else mv) ++
      be 4 (if ma = 400001 then 0xFFFFFFFF else ma) ++ be 4 (min 300000 (Config.deviceMw s.typicalMw mv ma))) s

def execPowerGetPower (q : Request) (s : State) : Result :=
  .next (takeRequest 0x0203 q powerGetPower s)

/-- R78. Whether the regulator answers, and its identity, are free values. One that does not acknowledge leaves the command complete,
with ST_PMBUS_NACK and nothing changed. -/
def powerSetRegulator (q : Request) (s : State) : Reply :=
  checked [inByte q 0 0x08 0x77, resv q 1 3] s <|
    let (a, s) := drawBelow 2 s
    if a = 1 then .done .pmbusNack [] s id else
      let (id, s) := drawBytes 4 s
      .okay (modPower (fun p => { p with regAddr := q.b 0, regIdentity := id, adapting := true, nackRun := 0, pecRun := 0,
                                         recovered := false }) s)

def execPowerSetRegulator (q : Request) (s : State) : Result :=
  .next (takeRequest 0x0204 q powerSetRegulator s)

/-- R60, R469: an idle domain enters the next permitted state. A Tenon port that is up first exchanges SLEEP with its peer. -/
def domainHoldExpiry (cls idx : Nat) (s : State) : State :=
  let d := s.dom cls idx
  if !(s.blocksRun && decide (idx < classCount cls) && s.enabled cls idx && !d.exiting && s.domainIdle cls idx &&
      decide (d.state < s.deepest cls idx)) then s
  else if cls = 5 ∧ d.state = 0 then
    if s.tenonUp idx then tenonSleep idx s else s
  else if cls = 6 ∧ d.state = 0 then
    let s := if s.stream.state = 2 then modStream (fun t => { t with state := 3 }) s else s
    settlePlls (modDom cls idx (fun d => { d with state := 1 }) s)
  else if d.state = 3 then settlePlls (enterP4 cls idx s)
  else
    -- the clamp is flushed as a stack begins to enter P2 (R329)
    let s := if cls = 4 ∧ d.state = 1 then flushClamp idx [] s else s
    let s := modDom cls idx (fun d => { d with state := d.state + 1 }) s
    settlePlls (if cls = 1 ∨ cls = 2 ∨ cls = 8 then suspendSources (calUnit cls idx) s else s)

def execDomainHoldExpiry (cls idx : Nat) (s : State) : Result := .next (domainHoldExpiry cls idx s)

/-- R61: a demand ends idle; a quad forced to P2 by the mirror stays there (R56). -/
def domainDemand (cls idx : Nat) (s : State) : State :=
  when (s.blocksRun && decide (idx < classCount cls)) (demand cls idx) s

def execDomainDemand (cls idx : Nat) (s : State) : Result := .next (domainDemand cls idx s)

/-- R61: what waits in the device is a demand on the domain that serves it. -/
def settleDemands (s : State) : State :=
  if !s.blocksRun then s else
    forEach (allDomains.filter (fun d => (s.dom d.1 d.2).state != 0 && !(s.dom d.1 d.2).exiting && !s.domainIdle d.1 d.2)) (fun d s => demand d.1 d.2 s) s

/-- R51: a PLL that has restarted locks; the quad it feeds, if it exits, trains its lanes (R67). -/
def pllLock (k : Nat) (s : State) : State :=
  when (s.hubUp && decide (s.pll k = .starting)) (fun s =>
    let s := modPower (fun p => { p with plls := tblSet .off p.plls k .locked }) s
    if 5 ≤ k ∧ k ≤ 20 ∧ (s.dom 3 (k - 5)).exiting then trainQuad (k - 5) s else s) s

def execPllLock (pll : Fin 28) (s : State) : Result := .next (pllLock pll s)

/-- A carrier domain carries its first bit only once calibrated (R53, R158); an exit from P4 that an enable started completes after a
rise of VDD_CORE that runs (R72). -/
def State.exitReady (s : State) (cls idx : Nat) : Bool :=
  decide (s.pll (pllOf cls idx) = .locked) && !((s.dom cls idx).state == 4 && s.coreRising) &&
    (if cls = 1 then (s.cu idx).txCalibrated else if cls = 2 then (s.cu idx).rxCalibrated
      else if cls = 8 then !(s.calOf 4).fullTx else true)

/-- R63: a waking domain reaches P0, once its PLL has locked. The bias codes named in P4 act, the round that waited for the monitor ADC
starts, and the ports that wait for a slice or a stack choose their next frame. -/
def domainExitComplete (cls idx : Nat) (s : State) : State :=
  when (s.hubUp && decide (idx < classCount cls) && (s.dom cls idx).exiting && s.exitReady cls idx) (fun s =>
    let s := reachP0 cls idx (if cls = 4 ∧ (s.dom cls idx).state = 4 then zeroReserved idx s
      else if cls = 8 ∧ 3 ≤ (s.dom cls idx).state then monitorAwake s else if cls = 1 then biasUp idx s else s)
    let s := if cls = 8 ∧ (s.calOf 4).roundDue then startRound 4 true s else s
    if cls = 4 ∨ cls = 9 then selectAll s else s) s

def execDomainExitComplete (cls idx : Nat) (s : State) : Result := .next (domainExitComplete cls idx s)

/-- R71, R73: Salurn chooses a target; with adaptation stopped and the margin lost it commands 0.75 V once more. VDD_CORE then moves
there by the steps of R72. -/
def coreVoltageEvaluation (steps : Fin 21) (lostMargin : Bool) (s : State) : State :=
  when s.salurnRuns (modPower (fun p =>
    if p.adapting then { p with targetMv := 650 + 5 * steps.val }
    else if lostMargin && !p.recovered then { p with targetMv := 750, recovered := true }
    else p)) s

def execCoreVoltageEvaluation (steps : Fin 21) (lostMargin : Bool) (s : State) : Result :=
  .next (coreVoltageEvaluation steps lostMargin s)

/-- Adaptation stops with EV_CORE_VOLTAGE_FAULT (R73, R79), and SL_ALARM_SUMMARY[SUPPLY] records the PMBus fault (R84). -/
def stopAdapting (cause : Nat) (s : State) : State :=
  raise 0x0202 0 (be 1 cause ++ zeros 3) false
    (modSill (Sill.mark .supply) (modPower (fun p => { p with adapting := false, recovered := false }) s))

/-- One step of VDD_CORE toward its target (R72). -/
def stepMv (now target : Nat) : Nat := if now < target then min target (now + 5) else max target (now - 5)

/-- R72, R73: one PMBus step, which the regulator acknowledges or not and whose PEC holds or not. The steps of the last 0.75 V run with
adaptation stopped; one that fails is tried again (log entry 67). -/
def coreVoltageStep (ack pec : Bool) (s : State) : State :=
  if !(s.salurnRuns && (s.power.adapting || s.power.recovered) && decide (s.power.coreMv ≠ s.power.targetMv)) then s
  else if !s.power.adapting then
    modPower (fun p => if ack && pec then { p with coreMv := stepMv p.coreMv p.targetMv } else p) s
  else if !ack then
    let s := modPower (fun p => { p with nackRun := p.nackRun + 1 }) s
    if 3 ≤ s.power.nackRun then stopAdapting 1 s else s
  else if !pec then
    let s := modPower (fun p => { p with nackRun := 0, pecRun := p.pecRun + 1 }) s
    if 3 ≤ s.power.pecRun then stopAdapting 2 s else s
  else modPower (fun p => { p with nackRun := 0, pecRun := 0, coreMv := stepMv p.coreMv p.targetMv }) s

def execCoreVoltageStep (acknowledged pecGood : Bool) (s : State) : Result := .next (coreVoltageStep acknowledged pecGood s)

/-- R73: PMB_ALERT_N is asserted. -/
def pmbAlert (s : State) : State := when (s.salurnRuns && s.power.adapting) (stopAdapting 3) s

def execPmbAlert (s : State) : Result := .next (pmbAlert s)

end Sys2Proof.Machine
end

