-- ==== Sys2Proof/Machine/Security.lean ====
section
/-! DEFINITION. Chapter 14 of spec/: owner roots and records, keys, line channels, the bench engine, the alarm and attestation.
The line engines' work on each frame is with the frames of chapter 09. -/

namespace Sys2Proof.Machine


/-! Owner roots and the owner record. -/

/-- The lowest root slot not yet fused. -/
def State.freeRoot (s : State) : Option Nat := (List.range 4).find? (fun i => (tblGet [] s.otp.ownerRoots i).isEmpty)

/-- Root `i` is fused and not revoked. -/
def State.rootLive (s : State) (i : Nat) : Bool := !(tblGet [] s.otp.ownerRoots i).isEmpty && !s.otp.ownerRevoked.testBit i

/-- R376. Whether a burn succeeds is a free value. -/
def securitySetOwnerRoot (q : Request) (s : State) : Reply :=
  checked [unitZero q, inByte q 0 1 2, inByte q 1 0 3, resv q 2 2,
    (q.b 0 == 1 || isZero q.payload 4 133, 4), resv q 137 3] s <|
    if q.b 0 = 1 then
      match s.freeRoot with
      | none => .refuse .fuse s
      | some i =>
        let (bad, s) := drawBelow 2 s
        if bad = 1 then .done .fuse [] s id
        else .okay { s with otp := { s.otp with ownerRoots := tblSet [] s.otp.ownerRoots i (Config.sha512 (bytesAt q.payload 4 133)) } }
    else
      let i := q.b 1
      require [(!(s.security.record.any (fun r => r.root == i)), .state), (s.rootLive i, .state),
        ((List.range 4).any (fun j => j != i && s.rootLive j), .state)] s <|
        .okay { s with otp := { s.otp with ownerRevoked := s.otp.ownerRevoked ||| 2 ^ i } }

/-- Sessions opened under a host key slot whose key or rank the record changed. -/
def changedSessions (old : Option OwnerRecord) (new : OwnerRecord) (s : State) : List Nat :=
  let key := fun (r : Option OwnerRecord) k => match r with | some r => tblGet ({} : HostKey) r.keys k | none => ({} : HostKey)
  (s.control.sessions.filter (fun x => x.role != .observer && key old x.keySlot != key (some new) x.keySlot)).map (fun x => x.number)

/-- The checks of R377 on a record of the right marks, in order. -/
def recordFields (q : Request) (s : State) : List (Bool × Nat) :=
  [unitZero q, (q.w 0 == 0xA6E52C00, 0), (q.h 4 == 1, 4), inByte q 6 0 3, resv q 7 1,
   (decide (1 ≤ q.w 8 ∧ q.w 8 ≤ 0xFFFFFFFE) && (match s.security.record with | some r => decide (r.seq < q.w 8) | none => true), 8),
   resv q 161 3] ++
  (List.range 8).flatMap (fun h => [inByte q (164 + 140 * h) 0 2, resv q (165 + 140 * h) 3,
    (q.b (164 + 140 * h) != 0 || isZero q.payload (168 + 140 * h) 133, 168 + 140 * h), resv q (301 + 140 * h) 3]) ++
  [inByte q 1284 0 1, resv q 1285 3, resv q 1421 3]

/-- R378: the record is checked, written to the copy not in force and put into force; the sessions of changed keys then close, the
issuing one last. -/
def securitySetOwnerRecord (q : Request) (s : State) : Reply :=
  checked (recordFields q s) s <|
    let copy := match s.security.record with | some r => 1 - r.copy | none => 0
    match readRecord s copy with
    | none => .refuse .auth (authFailure 7 s)
    | some r =>
      let (ok, s) := flashTakes s
      if !ok then .done .record [] s id else
      let a := 0x100000 + copy * 0x10000
      let old := s.security.record
      let s := modSecurity (fun c => { c with record := some r }) (flashWrite a q.payload (flashErase a 0x10000 s))
      let ns := changedSessions old r s
      .okThen s (forEach (ns.filter (· != q.session.toNat) ++ ns.filter (· == q.session.toNat)) (fun n s => endSession n 3 s))
where
  readRecord (s : State) (copy : Nat) : Option OwnerRecord :=
    let b := q.payload
    let pub := bytesAt b 28 133
    if bytesAt b 12 16 = s.serial ∧ s.rootLive (u8 b 6) ∧ tblGet [] s.otp.ownerRoots (u8 b 6) = Config.sha512 pub ∧
        Config.ecdsaVerify pub (b.take 1424) (bytesAt b 1424 66) (bytesAt b 1490 66) then
      some { copy, seq := u32 b 8, root := u8 b 6
             keys := (List.range 8).foldl (fun t h => tblSet {} t h ⟨u8 b (164 + 140 * h),
               if u8 b (164 + 140 * h) = 0 then [] else bytesAt b (168 + 140 * h) 133⟩) []
             debugKey := if u8 b 1284 = 1 then some (bytesAt b 1288 133) else none }
    else none

/-! Customer KEKs and key slots. -/

def State.kek (s : State) (k : Nat) : List Byte := tblGet [] s.security.keks k

/-- KEK `k`, and slot `i`, has been erased in the SILL_CLK cycle that runs (R21). -/
def State.erasedKek (s : State) (k : Nat) : Bool := s.security.erasedNow.contains 129 || s.security.erasedNow.contains (256 + k)
def State.erasedSlot (s : State) (i : Nat) : Bool := s.security.erasedNow.contains 128 || s.security.erasedNow.contains i

/-- The transport key of R379: the first 32 bytes of SHA-512 over the counter 1, Z, "AGRYN KEK", the serial and the KEK's number. -/
def transportKey (pub serial : List Byte) (k : Nat) : List Byte :=
  (Config.sha512 (be 4 1 ++ Config.ecdhZ (Config.devicePub 1) pub ++ [0x41, 0x47, 0x52, 0x59, 0x4E, 0x20, 0x4B, 0x45, 0x4B] ++ serial ++ be 1 k)).take 32

/-- R379. While debug level 2 or 3 is in force the key-unwrap unit refuses every blob (R96); a load that coincides with an erase of
the KEK leaves it zeroised (R21). -/
def securityLoadKek (q : Request) (s : State) : Reply :=
  checked [unitZero q, inByte q 0 0 7, resv q 1 3, resv q 137 3] s <|
  require [(decide (s.sill.debugLevel < 2), .state), (s.security.entropyOk, .busy), ((s.kek (q.b 0)).isEmpty, .state)] s <|
    let tk := transportKey (bytesAt q.payload 4 133) s.serial (q.b 0)
    match Config.keyUnwrap tk (bytesAt q.payload 140 40) with
    | none => .done .auth [] (authFailure 9 s) id
    | some k => if s.erasedKek (q.b 0) then .done .keyErased [] s id else .okay (modSill (fun x => { x with allErased := false })
        (modSecurity (fun c => { c with keks := tblSet [] c.keks (q.b 0) (fitBytes 32 k) }) s))

/-- R380, R381: a load enters the bench queue; its reply follows its execution. -/
def securityLoadKey (q : Request) (s : State) : Reply :=
  checked [unitZero q, inByte q 0 0 127, inByte q 1 0 7, resv q 2 2] s <|
  require [(decide (s.sill.debugLevel < 2), .state), (!(s.kek (q.b 1)).isEmpty, .keyErased), (s.binds (q.b 0) == 0, .slotBound),
    (decide (s.security.bench.length < 64), .busy), (s.security.entropyOk, .busy)] s <|
  needing 7 0 s fun s =>
    .later (.loadKey (q.b 0)) (modSecurity (fun c => { c with
      bench := c.bench ++ [.load (q.b 0) (q.b 1) (bytesAt q.payload 4 48) s.control.nextEntry] }) s)

/-- A KEY load reaches the head of the bench queue (R380, R381). An erase of the slot in the same cycle leaves it zeroised, and the load
completes with ST_KEY_ERASED (R21, R388). -/
def loadKey (slot kek : Nat) (blob : List Byte) (entry : Nat) (s : State) : State :=
  if 2 ≤ s.sill.debugLevel then completeEntry entry .state [] s
  else if (s.kek kek).isEmpty then completeEntry entry .keyErased [] s
  else if s.erasedSlot slot then completeEntry entry .keyErased [] s
  else if s.binds slot ≠ 0 then completeEntry entry .slotBound [] s
  else match Config.keyUnwrap (s.kek kek) blob with
    | none => completeEntry entry .auth [] (authFailure 9 s)
    | some p =>
      if u8 p 33 ≠ 0 ∨ (u8 p 32 ≠ 1 ∧ u8 p 32 ≠ 2) then completeEntry entry .auth [] (authFailure 9 s)
      else
        let key := fitBytes 32 p
        let s := modSlot slot (fun _ => { state := 1, usage := u8 p 32, key, counter := field p 34 6 }) s
        completeEntry entry .ok (fitBytes 3 (Config.aesBlock key (zeros 16)) ++ zeros 1) s

/-- The bench engine is out of P3 and P4 and its entropy source healthy, so it may execute. -/
def State.benchRuns (s : State) : Bool := s.blocksRun && s.security.entropyOk && decide ((s.dom 7 0).state ≤ 2)

/-- R381: a queued key load reaches the head of the bench queue. -/
def keyLoadExecute (s : State) : State :=
  match s.security.bench with
  | .load slot kek blob e :: rest => when s.benchRuns (fun s => loadKey slot kek blob e (modSecurity (fun c => { c with bench := rest }) s)) s
  | _ => s
def execKeyLoadExecute (s : State) : Result := .next (keyLoadExecute s)

/-- R388. -/
def securityEraseKey (q : Request) (s : State) : Reply :=
  checked [unitZero q, inByte q 0 0 3, (if q.b 0 = 0 then decide (q.b 1 ≤ 127) else if q.b 0 = 1 then decide (q.b 1 ≤ 7) else q.b 1 == 0, 1),
    resv q 2 2] s <|
    .okay (eraseClass (q.b 0) (q.b 1) 0 s)

/-! Line channels. -/

/-- The slot a SET_CHANNEL byte gives a position. -/
def newPosition (old : Option Nat) (b : Nat) : Option Nat := if b = 0xFE then old else if b = 0xFF then none else some b

/-- An ERASED slot whose BINDS has fallen to 0 becomes EMPTY (R381). -/
def releaseSlot (o : Option Nat) (s : State) : State :=
  match o with
  | some i => if (s.slot i).state = 2 ∧ s.binds i = 0 then modSlot i (fun _ => {}) s else s
  | none => s

/-- The slot may be named by this position: a line key that is not EMPTY, in no other transmit position (R382). -/
def nameable (u d p : Nat) (o : Option Nat) (s : State) : List (Bool × Status) :=
  match o with
  | none => []
  | some i => [((s.slot i).usage != 2, .usage), ((s.slot i).state != 0, .state),
      (!(d == 0 && positions.any (fun x => x.2.1 == 0 && !(x.1 == u && x.2.2 == p) && (s.channel x.1 0).slotAt x.2.2 == some i)), .slotBound)]

/-- A position is in use (R384); the target of a rollover not yet flipped too (log entry 16). -/
def Channel.inUse (c : Channel) (d p : Nat) : Bool :=
  if !c.secure || (d == 0 && c.squelch != 0) then false
  else if d = 0 then c.epoch == p || c.rollover else c.passed && c.epoch == p

/-- R382 to R385. -/
def securitySetChannel (q : Request) (s : State) : Reply :=
  let okSlot := fun b => decide (b ≤ 127) || b == 0xFE || b == 0xFF
  let d := q.b 0
  checked [unitBelow q 4, inByte q 0 0 1, inByte q 1 0 1, (okSlot (q.b 2), 2), (okSlot (q.b 3), 3),
    (d == 0 || isZero q.payload 4 6, 4), resv q 10 2,
    (if d = 0 then decide (1 ≤ field q.payload 12 6 ∧ field q.payload 12 6 ≤ 2 ^ 48 - 2) else isZero q.payload 12 6, 12), resv q 18 2,
    (q.d 20 == 0 || (q.h 20 == 0 && decide (s.timing.tod.sec < q.d 20)), 20)] s <|
    let c := s.channel q.u d
    let n0 := newPosition c.slot0 (q.b 2)
    let n1 := newPosition c.slot1 (q.b 3)
    let atE := if c.epoch = 0 then n0 else n1
    let goesSecure := d == 0 && q.b 1 == 1 && !c.secure
    let lineMode := match (s.cu q.u).fmtTx with | some f => f.lineMode | none => 0
    let t1 := if n0 = c.slot0 then [] else nameable q.u d 0 n0 s
    let t2 := if n1 = c.slot1 then [] else nameable q.u d 1 n1 s
    let twice : List (Bool × Status) := [(!(d == 0 && n0.isSome && n0 == n1), .slotBound)]
    let binds := (n0.isSome && n0 != c.slot0) || (n1.isSome && n1 != c.slot1)
    require (t1 ++ t2 ++ twice ++ [(!(binds && (s.twinPartner q.u || lineMode == 1 || lineMode == 2)), .state),
      (n0 == c.slot0 || !c.inUse d 0, .state), (n1 == c.slot1 || !c.inUse d 1, .state)]) s <|
    match (if goesSecure then s.securityTrib q.u else none) with
    | some t => .reject .tsBusy (be 2 t ++ zeros 2) s
    | none =>
      require [(!goesSecure || (match atE with | some i => (s.slot i).state == 1 | none => false), .state)] s <|
        let due := if (q.b 1 == 1) = c.secure then none else some (q.b 1 == 1, q.d 20)
        let s := modChannel q.u d (fun c => { c with
          slot0 := n0, slot1 := n1, fixed := if d = 0 then field q.payload 4 6 else c.fixed,
          warn := if d = 0 then field q.payload 12 6 else c.warn, modeDue := due,
          last0 := if n0 = c.slot0 then c.last0 else none, last1 := if n1 = c.slot1 then c.last1 else none }) s
        let s := releaseSlot c.slot1 (releaseSlot c.slot0 s)
        .okay (if d = 0 ∧ c.secure ∧ atE = none then squelch q.u 3 s else s)

/-- R383. -/
def securityRollover (q : Request) (s : State) : Reply :=
  checked [unitBelow q 4] s <|
    let c := s.channel q.u 0
    match c.slotAt (1 - c.epoch) with
    | none => .refuse .state s
    | some i =>
      require [(c.secure, .state), ((s.slot i).state != 2, .keyErased), (decide ((s.slot i).counter < counterEnd), .nonceExhausted),
        (!c.rollover, .busy)] s <|
        .okay (modChannel q.u 0 (fun c => { c with rollover := true }) s)

/-- R383, R226: the transmit channel changes epoch, at the first OTUCn frame begun in an ACF; a squelch ends when the
slot there is usable (R388). -/
def rolloverFlip (u : Nat) (s : State) : State :=
  let c := s.channel u 0
  when (s.trafficRuns && c.rollover && s.epochMayChange u) (fun s =>
    let e := 1 - c.epoch
    let usable := match c.slotAt e with
      | some i => (s.slot i).state == 1 && decide ((s.slot i).counter < counterEnd)
      | none => false
    let s := modChannel u 0 (fun c => { c with epoch := e, rollover := false, squelch := if usable then 0 else c.squelch }) s
    let s := raise 0x0904 u (be 1 e ++ be 1 ((c.slotAt e).getD 0xFF) ++ zeros 2) false s
    if usable then s else match c.slotAt e with
      | some i => if (s.slot i).state = 1 then squelch u 2 s else squelch u 1 s
      | none => squelch u 3 s) s
def execRolloverFlip (u : Fin 4) (s : State) : Result := .next (rolloverFlip u s)

/-- A frame with MFAS 0 of unit `u` starts: sent, or received by a framer that is in frame. A twin's frames are its home's. -/
def State.multiframeStarts (s : State) (u d : Nat) : Bool :=
  let home := match s.twinOf u with | some g => (s.twin g).home | none => u
  if d = 0 then (s.frm home).txMfas == 0
  else (match s.twinOf u with | some g => [(s.twin g).home, (s.twin g).partner] | none => [u]).any
    (fun v => (s.frm v).state == 3 && (s.frm v).mfas == 0)

/-- R385: a MODE change applies at a frame with MFAS 0 at or after its application time. -/
def channelModeApply (u d : Nat) (s : State) : State :=
  let c := s.channel u d
  match c.modeDue with
  | some (m, e) =>
    when (s.blocksRun && s.reached e && s.multiframeStarts u d) (fun s =>
      let s := modChannel u d (fun c => { c with
        secure := m, modeDue := none, squelch := if m then c.squelch else 0, rollover := c.rollover && m,
        tagFailed := false, noKey := false, wait := none, passed := c.passed && m, told := false }) s
      if m && d == 0 then
        match c.slotAt c.epoch with
        | some i => if (s.slot i).state = 1 then s else squelch u 1 s
        | none => squelch u 3 s
      else s) s
  | none => s
def execChannelModeApply (u : Fin 4) (dir : Fin 2) (s : State) : Result := .next (channelModeApply u dir s)

/-! The bench engine. -/

/-- R389, R400. -/
def securityBench (q : Request) (s : State) : Reply :=
  let aad := q.h 2
  let text := q.h 4
  checked [unitZero q, inByte q 0 1 2, inByte q 1 0 127,
    (decide (aad + text ≤ 16348) && q.payload.length == 36 + (aad + text + 3) / 4 * 4, 2), resv q 6 2,
    (q.b 0 == 2 || isZero q.payload 14 6, 8), (q.b 0 == 2 || isZero q.payload 20 16, 20),
    (isZero q.payload (36 + aad + text) (q.payload.length - (36 + aad + text)), 36)] s <|
  require [(decide (s.security.bench.length < 64), .busy), (s.security.entropyOk, .busy)] s <|
  needing 7 0 s fun s =>
    let id := s.control.nextEntry
    let a := bytesAt q.payload 36 aad
    let t := bytesAt q.payload (36 + aad) text
    let r := if q.b 0 = 1 then Bench.seal (q.b 1) (bytesAt q.payload 8 6) a t id
      else Bench.unseal (q.b 1) (bytesAt q.payload 8 12) (bytesAt q.payload 20 16) a t id
    .later (.bench id) (modSecurity (fun c => { c with bench := c.bench ++ [r] }) s)

/-- The slot holds a bench key, or why it does not serve. -/
def benchFault (s : State) (i : Nat) : Option Status :=
  if (s.slot i).state ≠ 1 then some .keyErased else if (s.slot i).usage ≠ 2 then some .usage else none

/-- R389: the engine executes the request at the head of its queue. -/
def benchExecute (b : Bench) (s : State) : State :=
  match b with
  | .load .. => s
  | .seal i fixed aad text e =>
    match benchFault s i with
    | some st => completeEntry e st [] s
    | none =>
      let k := s.slot i
      if counterEnd ≤ k.counter then completeEntry e .nonceExhausted [] s else
      let iv := fixed ++ be 6 k.counter
      let out := fitBytes (text.length + 16) (Config.gcmSeal k.key iv aad text)
      let s := nonceWarn 0 i (2 ^ 47) (modSlot i (fun k => { k with counter := k.counter + 1 }) s)
      completeEntry e .ok (iv ++ bytesAt out text.length 16 ++ out.take text.length) s
  | .unseal i iv tag aad text e =>
    match benchFault s i with
    | some st => completeEntry e st [] s
    | none =>
      match Config.gcmOpen (s.slot i).key iv aad text tag with
      | none => completeEntry e .auth [] s
      | some out => completeEntry e .ok (iv ++ zeros 16 ++ fitBytes text.length out) s

def benchRequestExecute (s : State) : State :=
  match s.security.bench with
  | .load .. :: _ => s
  | b :: rest => when s.benchRuns (fun s => benchExecute b (modSecurity (fun c => { c with bench := rest }) s)) s
  | [] => s
def execBenchRequestExecute (s : State) : Result := .next (benchRequestExecute s)

/-- R390. -/
def entropyHealthFail (s : State) : State := modSecurity (fun c => { c with entropyOk := false }) s
def execEntropyHealthFail (s : State) : Result := .next (entropyHealthFail s)
def entropyHealthRestored (s : State) : State := modSecurity (fun c => { c with entropyOk := true }) s
def execEntropyHealthRestored (s : State) : Result := .next (entropyHealthRestored s)

/-! The alarm. -/

/-- R391: a supply outside ±10 % with the hub out of reset. -/
def supplyGlitch (_x : Supply) (s : State) : State := when (s.sill.on && s.hubUp) (fireAlarm 1) s
def execSupplyGlitch (x : Supply) (s : State) : Result := .next (supplyGlitch x s)

/-- R39: VDD_IO falls absent with VDD_SILL present; each such change is a supply glitch, whatever the state of the hub. -/
def vddIoLoss (s : State) : State :=
  when (s.sill.on && s.pins.vddIo) (fun s => fireAlarm 1 (modPins (fun p => { p with vddIo := false }) s)) s

/-- R39: VDD_IO is present again, and the pins are sensed. -/
def vddIoReturn (s : State) : State := vddIoPresent s

/-- R391, cause 2. -/
def clockGlitch (s : State) : State := when s.sill.on (fireAlarm 2) s
def execClockGlitch (s : State) : Result := .next (clockGlitch s)

/-- R391, cause 3; it persists until the junction is back in range, which the device judges when asked (R392). -/
def temperatureExcursion (s : State) : State :=
  when s.sill.on (fun s => fireAlarm 3 (modSecurity (fun c => { c with hot := true }) s)) s
def execTemperatureExcursion (s : State) : Result := .next (temperatureExcursion s)

/-- R391, cause 4. -/
def tamperInAsserted (s : State) : State :=
  let s := modPins (fun p => { p with tamperIn := true }) s
  when (s.sill.on && s.pins.vddIo) (fireAlarm 4) s
def execTamperInAsserted (s : State) : Result := .next (tamperInAsserted s)
def tamperInDeasserted (s : State) : State := modPins (fun p => { p with tamperIn := false }) s
def execTamperInDeasserted (s : State) : Result := .next (tamperInDeasserted s)

/-- R391, cause 5. -/
def zeroizeNAsserted (s : State) : State :=
  let s := modPins (fun p => { p with zeroizeN := false }) s
  when (s.sill.on && s.pins.vddIo) (fireAlarm 5) s
def execZeroizeNAsserted (s : State) : Result := .next (zeroizeNAsserted s)
def zeroizeNDeasserted (s : State) : State := modPins (fun p => { p with zeroizeN := true }) s
def execZeroizeNDeasserted (s : State) : Result := .next (zeroizeNDeasserted s)

/-- R393. -/
def securitySetPolicy (q : Request) (s : State) : Reply :=
  checked ([unitZero q] ++ (List.range 9).map (fun c => inByte q c (if c = 4 then 2 else 0) 3) ++
    [inByte q 9 1 255, inByte q 10 1 255, inByte q 11 1 255, inByte q 12 0 1, resv q 13 3]) s <|
  require [(!s.sill.policyCommitted, .state)] s <|
    .okay (modSill (fun x => { x with policyCommitted := q.b 12 == 1 })
      (modSecurity (fun c => { c with
        actions := (List.range 9).map (fun c => q.b c), thrFw := q.b 9, thrSession := q.b 10, thrBlob := q.b 11 }) s))

/-- R392. Whether cause 3 persists when asked is a free value once it has fired (log entry 3). -/
def securityClearAlarm (q : Request) (s : State) : Reply :=
  checked [unitZero q] s <|
    let (cool, s) := if s.security.hot then drawBelow 2 s else (1, s)
    let s := if cool = 1 then modSecurity (fun c => { c with hot := false }) s else s
    require [(!(s.security.hot || s.tamper || s.zeroize), .state)] s <|
      .okay (modSill (fun x => { x with secAlarm := false }) (modSecurity (fun c => { c with fails := [] }) s))

/-! Attestation and reads. -/

/-- R394, R396. -/
def securityAttest (q : Request) (s : State) : Reply :=
  checked [unitZero q] s <|
  require [(s.security.entropyOk, .busy)] s <|
    let i := s.fw.running
    let body := be 2 1 ++ zeros 2 ++ s.serial ++ be 4 slIdcode ++ be 4 i.fwVersion ++ be 2 i.secVersion ++ be 1 s.fw.runningBank ++
      be 1 s.sill.debugLevel ++ fitBytes 64 i.digest ++ s.security.digest ++ be 4 s.security.configCount.toNat ++
      be 4 (slSecStatus s) ++ s.timing.tod.bytes ++ zeros 2 ++ fitBytes 32 q.payload
    let (n, s) := drawNat s
    .okWith (body ++ Config.ecdsaSign (Config.devicePub 0) body n) s

/-- R394, R396. -/
def securityGetCert (q : Request) (s : State) : Reply :=
  checked [unitZero q] s <| .okWith s.certificate s

/-- R396: one direction of GET_STATUS. -/
def channelStatus (s : State) (u d : Nat) : List Byte :=
  let c := s.channel u d
  let ctr := if d = 0 then (match c.slotAt c.epoch with | some i => (s.slot i).counter | none => 0)
    else ((if c.epoch = 0 then c.last0 else c.last1).getD 0)
  be 1 (b2n c.secure) ++ be 1 c.epoch ++ be 1 (c.slot0.getD 0xFF) ++ be 1 (c.slot1.getD 0xFF) ++ be 1 c.squelch ++ zeros 3 ++ be 8 ctr

def securityGetStatus (q : Request) (s : State) : Reply :=
  checked [unitBelow q 4] s <| .okWith (channelStatus s q.u 0 ++ channelStatus s q.u 1 ++ zeros 16) s

/-- R396, R398. -/
def securityGetSlots (q : Request) (s : State) : Reply :=
  checked [unitZero q] s <|
    .okWith ((List.range 128).flatMap (fun i => be 1 (s.slot i).state ++ be 1 (s.slot i).usage ++ be 1 (s.binds i) ++
        be 1 (b2n (s.boundTx i))) ++ (List.range 8).flatMap (fun k => be 1 (b2n (!(s.kek k).isEmpty)))) s

/-- R399: counter i of a unit is kept as counter 24 + i of its framer. -/
def securityGetCounts (q : Request) (s : State) : Reply :=
  checked [unitBelow q 4] s <| .okWith (countsReply s pmFramer q.u 24 6) s

def execSecuritySetOwnerRoot (q : Request) (s : State) : Result := .next (takeRequest 0x0901 q securitySetOwnerRoot s)
def execSecuritySetOwnerRecord (q : Request) (s : State) : Result := .next (takeRequest 0x0902 q securitySetOwnerRecord s)
def execSecurityLoadKek (q : Request) (s : State) : Result := .next (takeRequest 0x0903 q securityLoadKek s)
def execSecurityLoadKey (q : Request) (s : State) : Result := .next (takeRequest 0x0904 q securityLoadKey s)
def execSecurityEraseKey (q : Request) (s : State) : Result := .next (takeRequest 0x0905 q securityEraseKey s)
def execSecuritySetChannel (q : Request) (s : State) : Result := .next (takeRequest 0x0906 q securitySetChannel s)
def execSecurityRollover (q : Request) (s : State) : Result := .next (takeRequest 0x0907 q securityRollover s)
def execSecurityBench (q : Request) (s : State) : Result := .next (takeRequest 0x0908 q securityBench s)
def execSecuritySetPolicy (q : Request) (s : State) : Result := .next (takeRequest 0x0909 q securitySetPolicy s)
def execSecurityClearAlarm (q : Request) (s : State) : Result := .next (takeRequest 0x090A q securityClearAlarm s)
def execSecurityAttest (q : Request) (s : State) : Result := .next (takeRequest 0x090B q securityAttest s)
def execSecurityGetCert (q : Request) (s : State) : Result := .next (takeRequest 0x090C q securityGetCert s)
def execSecurityGetStatus (q : Request) (s : State) : Result := .next (takeRequest 0x090D q securityGetStatus s)
def execSecurityGetSlots (q : Request) (s : State) : Result := .next (takeRequest 0x090E q securityGetSlots s)
def execSecurityGetCounts (q : Request) (s : State) : Result := .next (takeRequest 0x090F q securityGetCounts s)

end Sys2Proof.Machine
end

