-- ==== Sys2Proof/Machine/Protect.lean ====
section
/-! DEFINITION. Chapter 13 of spec/: the twin-merge engine, the mirror pair's interlock and brace link, and the PROTECT commands. -/

namespace Sys2Proof.Machine

/-! The deskew rings (R352). Byte and word places count from the byte of twin sequence 0. -/

/-- Bytes and words of an OTUCn frame of `n` slices. -/
def otuBytes (n : Nat) : Nat := 15296 * n
def otuWords (n : Nat) : Nat := 956 * n

/-- The stack of deskew cell `c` of copy `k`: RL(c mod 4) for A, RL((c + 2) mod 4) for B. -/
def deskewStack (k c : Nat) : Nat := (c + 2 * k) % 4

/-- Words before place `x` of copy `k`'s stream that lie in a stack. -/
def wordsBefore (k stack x : Nat) : Nat := x / 64 * 16 + min 16 (x % 64 - 16 * ((stack + 4 - 2 * k) % 4))

/-- The words of a frame that lie in a stack. -/
def frameWords (k stack : Nat) (q : Word32) (n : Nat) : Nat :=
  wordsBefore k stack (q.toNat * otuWords n + otuWords n) - wordsBefore k stack (q.toNat * otuWords n)

/-- The leading bytes of a frame that belong to a cell begun in the frame before. -/
def leadBytes (q : Word32) (n : Nat) : Nat := (256 - q.toNat * otuBytes n % 256) % 256

/-- Cells that begin in a frame, and the first of them. -/
def cellsBegun (q : Word32) (n : Nat) : Nat := (otuBytes n - leadBytes q n + 255) / 256
def firstCell (q : Word32) (n : Nat) : Nat := (q.toNat * otuBytes n + leadBytes q n) / 256

/-- Slices of the frames of a group. -/
def State.twinN (s : State) (g : Nat) : Nat := match (s.cu (s.twin g).home).fmt with | some f => f.otucN | none => 0

/-- The frame is written to a copy's ring: its words and the cells begun in it. -/
def ringWrite (k : Nat) (q : Word32) (n : Nat) (s : State) : State :=
  let s := forEach [0, 1, 2, 3] (fun j s => if (s.stack j).failed then s else bump pmStack j 1 (frameWords k j q n) s) s
  forEach (List.range (cellsBegun q n)) (fun i s =>
    -- which cells the ring takes is not stated (log entry 25)
    let (p, s) := drawBelow (2 ^ 27) s
    traceCell (deskewStack k (firstCell q n + i)) 0xFFFFFFFF p s) s

/-! Arrival (R352 to R356, R358). -/

/-- The schedule has passed the frame. -/
def Twin.passed (t : Twin) (q : Word32) : Bool := match t.next with | some (n, _) => seqOlder q n | none => false

/-- The frame takes its place in the ring, which holds DEPTH_US of frames. -/
def ringPut (g k : Nat) (q : Word32) (f : CopyFrame) (s : State) : State :=
  modTwin g (fun t => t.modCopy k (fun c => { c with
    ring := (c.ring.filter (fun r => r.seq != q && decide (s.now < r.at_ + t.depthUs * 100000))) ++ [RingFrame.mk q s.now f] })) s

/-- A frame that came too late is discarded (R353); four in a row fail an aligned copy. -/
def lateFrame (g k : Nat) (s : State) : State :=
  let s := bump pmTwin g (6 + k) 1 s
  let c := (s.twin g).copy k
  if c.state ≠ 3 then s
  else if 4 ≤ c.late + 1 then copyLost g k 3 s
  else modTwin g (fun t => t.modCopy k (fun c => { c with late := c.late + 1 })) s

/-- A frame of a copy that hunts: three in sequence verify it. -/
def huntFrame (g k : Nat) (q : Option Word32) (s : State) : State :=
  match q with
  | none => modTwin g (fun t => t.modCopy k (fun c => { c with verified := 0, last := none })) s
  | some q =>
    let c := (s.twin g).copy k
    let run := match c.last with | some (l, _) => if seqFollows q l then c.verified + 1 else 1 | none => 1
    let s := modTwin g (fun t => t.modCopy k (fun c => { c with verified := min run 3, last := some (q, s.now) })) s
    if 3 ≤ run then copyVerified g k s else s

/-- A frame of a copy that is pending or aligned: its sequence follows, or disagrees. -/
def heldFrame (g k : Nat) (q : Option Word32) (s : State) : State :=
  let c := (s.twin g).copy k
  let ok := match q, c.last with | some q, some (l, _) => seqFollows q l | some _, none => true | none, _ => false
  let s := modTwin g (fun t => t.modCopy k (fun c => { c with
    disagree := if ok then 0 else c.disagree + 1, last := match q with | some q => some (q, s.now) | none => c.last.map (fun l => (l.1 + 1, s.now)) })) s
  if 2 ≤ ((s.twin g).copy k).disagree then copyLost g k 2 s
  else if !(s.twin g).inReach then copyLost g k 3 s
  else s

/-- R356: a copy's frame has left its framer. -/
def twinFrameArrival (g k : Nat) (s : State) : State :=
  let t := s.twin g
  let u := if k = 0 then t.home else t.partner
  match (s.frm u).copy with
  | none => s
  | some f =>
    if !(t.enabled && s.trafficRuns) then s else
      let s := modFramer u (fun x => { x with copy := none }) s
      let st := (t.copy k).state
      if st = 0 then s else
        let late := match f.seq with | some q => t.passed q | none => false
        let s := match f.seq with
          | some q => if late then lateFrame g k s else
              let s := ringPut g k q f (ringWrite k q (s.twinN g) s)
              modTwin g (fun t => t.modCopy k (fun c => { c with late := 0 })) s
          | none => s
        match ((s.twin g).copy k).state with
        | 0 => s
        | 1 => huntFrame g k f.seq s
        | _ => heldFrame g k f.seq s
def execTwinFrameArrival (group : Fin 2) (copy : Fin 2) (s : State) : Result := .next (twinFrameArrival group copy s)

/-! Playout (R353, R354, R357). -/

/-- A deskew cell reads as something other than good: copy, cell numbered from the first that begins in the frame, finding. -/
abbrev OddCell := Nat × Nat × WordSeen

/-- The engine reads a frame of an aligned copy: words read, and what was found bad counts as consumed (R335). -/
def ringRead (g k : Nat) (q : Word32) (n : Nat) (odd : List OddCell) (s : State) : State :=
  let s := forEach [0, 1, 2, 3] (fun j s => bump pmStack j 0 (frameWords k j q n) s) s
  forEach (odd.filter (fun o => o.1 == k && decide (o.2.1 < cellsBegun q n) && !o.2.2.good)) (fun o s =>
    let j := deskewStack k (firstCell q n + o.2.1)
    let (w, s) := drawBelow linkBase s
    let s := bump pmTwin g 8 1 (consumed j s)
    match o.2.2 with
    | .uncorrectable => memLog j 5 w (bump pmStack j 3 1 s)
    | .mimic => memLog j 6 w (bump pmStack j 6 1 s)
    | _ => memLog j 6 w s) s

/-- A copy's frame for a sequence. -/
def Copy.frameOf (c : Copy) (q : Word32) : Option CopyFrame := (c.ring.find? (fun r => r.seq == q)).map (fun r => r.frame)

/-- Cell `i` of a copy's frame is bad (R357). -/
def cellBad (s : State) (c : Copy) (k : Nat) (q : Word32) (n i : Nat) (odd : List OddCell) : Bool :=
  match c.frameOf q with
  | none => true
  | some f => c.state != 3 || f.allBad || f.bad.contains i || (s.stack (deskewStack k (firstCell q n + i))).failed ||
      odd.any (fun o => o.1 == k && o.2.1 == i && !o.2.2.good)

/-- What the cells played so far have made: cells from A, from B, bad in both, changes of copy, and the choices, latest first. -/
structure Merge where
  a : Nat := 0
  b : Nat := 0
  both : Nat := 0
  switches : Nat := 0
  last : Option Nat := none
  /-- The copy last taken, kept over a cell bad in both. -/
  from_ : Option Nat := none
  picks : List Nat := []
  deriving DecidableEq, Repr

/-- One cell in playout order (R357); pick 2 is a cell bad in both. -/
def Merge.cell (m : Merge) (prefer : Nat) (badA badB : Bool) : Merge :=
  if badA && badB then { m with both := m.both + 1, last := none, from_ := some 0, switches := m.switches + b2n (m.from_ == some 1), picks := 2 :: m.picks }
  else
    let k := if badA then 1 else if badB then 0 else m.last.getD prefer
    { m with a := m.a + b2n (k == 0), b := m.b + b2n (k == 1), last := some k, from_ := some k
             switches := m.switches + b2n (m.from_ != none && m.from_ != some k), picks := k :: m.picks }

/-- The tributary slots of a unit that the words from `a` to `b` of a frame carry, as a mask. -/
def slotsOfWords (n omfi a b : Nat) : Nat :=
  (List.range (b - a)).foldl (fun m j =>
    let w := a + j
    let i := w % n
    let r := w / n
    if r % 239 = 0 ∨ 956 ≤ r then m else m ||| 2 ^ (20 * i + (952 * omfi + r / 239 * 238 + (r % 239 - 1)) % 20)) 0

/-- The merged byte stream of a frame: the bytes before its first cell come from the copy of the cell they belong to, or from the other
where that copy is gone. -/
def mergedBytes (lead n : Nat) (leadFrom : Nat) (picks : List Nat) (a b : List Byte) : List Byte :=
  (if leadFrom = 1 then b else a).take lead ++
    picks.zipIdx.flatMap (fun x => bytesAt (if x.1 = 1 then b else a) (lead + 256 * x.2) (min 256 (otuBytes n - lead - 256 * x.2)))

/-- The schedule's next instant: a frame period on, slewed by one unit of 10 ps, 8 ppm, toward the guard (R354). -/
def Twin.advance (t : Twin) (due : Nat) : Nat :=
  let ms := ([0, 1].filter (fun k => (t.copy k).state == 3)).filterMap (fun k => t.margin k)
  let m := ms.foldl min (ms.headD (t.guardTime : Int))
  if m < t.guardTime then due + framePeriod + 1
  else if t.groupState = 3 ∧ (t.guardTime : Int) < m then due + framePeriod - 1
  else due + framePeriod

/-- R353: the schedule reaches a frame; it is played cell by cell and goes to decryption. `errs` are as in `OtuSeen`. -/
def twinPlayout (g : Nat) (odd : List OddCell) (errs : List (Nat × Nat)) (s : State) : State :=
  let t := s.twin g
  match t.next with
  | none => s
  | some (q, due) =>
    if !(t.enabled && s.trafficRuns) || t.stopped then s else
      let n := s.twinN g
      let count := cellsBegun q n
      let s := forEach [0, 1] (fun k s =>
        if (t.copy k).state = 3 ∧ ((t.copy k).frameOf q).isSome then ringRead g k q n odd s else s) s
      let m := (List.range count).foldl (fun m i =>
        m.cell t.prefer (cellBad s t.a 0 q n i odd) (cellBad s t.b 1 q n i odd)) ({ last := t.lastCopy, from_ := t.lastFrom } : Merge)
      let picks := m.picks.reverse
      let a := ((t.a.frameOf q).map (fun f => interleave f.slices)).getD (zeros (otuBytes n))
      let b := ((t.b.frameOf q).map (fun f => interleave f.slices)).getD (zeros (otuBytes n))
      let lead := leadBytes q n
      let leadA := t.lastFrom.getD 0 == 0 && (t.a.frameOf q).isSome || (t.b.frameOf q).isNone
      let slices := deinterleave n (mergedBytes lead n (b2n !leadA) picks a b)
      let omfi := u8 (cell (slices.headD []) 4 16 1) 0 % 20
      let fail := picks.zipIdx.foldl (fun x p => if p.1 = 2 then
        x ||| slotsOfWords n omfi ((lead + 256 * p.2) / 16) (min (otuWords n) ((lead + 256 * p.2 + 256) / 16)) else x) 0
      let epoch := match t.a.frameOf q, t.b.frameOf q with
        | some x, some y => if !x.crcOk && y.crcOk then y.epoch else x.epoch
        | some x, none => x.epoch
        | none, some y => y.epoch
        | none, none => false
      let arrived := (([t.a, t.b].filterMap (fun c => (c.ring.find? (fun r => r.seq == q)).map (fun r => r.at_)))).foldl max 0
      let s := bump pmTwin g 0 1 (bump pmTwin g 1 m.a (bump pmTwin g 2 m.b (bump pmTwin g 3 m.switches (bump pmTwin g 4 m.both s))))
      let keep := fun (c : Copy) => { c with ring := c.ring.filter (fun r => seqLater r.seq q) }
      let s := modTwin g (fun t => { t with next := some (q + 1, t.advance due), lastCopy := m.last, lastFrom := m.from_, a := keep t.a, b := keep t.b }) s
      let s := modFramer t.home (fun f => { f with frameFail := fail }) s
      let s := pathFrame t.home (u8 (cell (slices.headD []) 1 7 1) 0) epoch slices errs s
      let (p, s) := drawBelow (2 ^ 27) s
      traceItem 22 0 g (4 * b2n (m.both != 0)) q.toNat g p ((s.now - arrived) * 16 / 1000) 0 s
def execTwinPlayout (group : Fin 2) (odd : List (Nat × Nat × WordSeen)) (errs : List (Nat × Nat)) (s : State) : Result :=
  .next (twinPlayout group odd errs s)

/-! The interlock (R363, R364). -/

/-- MIR_ACT_IN changes level; what the interlock then does follows at its own instants. -/
def mirActInChange (level : Bool) (s : State) : State := modPins (fun p => { p with mirActIn := level }) s
def execMirActInChange (level : Bool) (s : State) : Result := .next (mirActInChange level s)

/-- R39, R391: VDD_IO falls absent, and MIR_ACT_IN is sensed as asserted. -/
def execVddIoLoss (s : State) : Result := .next (vddIoLoss s)
def execVddIoReturn (s : State) : Result := .next (vddIoReturn s)

/-- MIR_ACT_IN has been deasserted for 40 ns: a STANDBY device that has not just released, or one that PROTECT.CLAIM ordered, claims. -/
def mirrorClaimStable (s : State) : State :=
  let m := s.protect.mirror
  when (s.trafficRuns && !s.mirIn && ((m.state == 1 && (!m.holdoff || m.wantClaim)) || (m.state == 4 && m.wantClaim))) (fun s =>
    let c := if m.wantClaim then 4 else 0
    modMirror (fun m => { m with claimCause := c }) (mirrorGo 2 c s)) s
def execMirrorClaimStable (s : State) : Result := .next (mirrorClaimStable s)

/-- 1 µs after the claim: ACTIVE, or both have claimed and the ties decide. -/
def mirrorClaimSample (s : State) : State :=
  let m := s.protect.mirror
  when (s.trafficRuns && m.state == 2 && !m.tieSample) (fun s =>
    if !s.mirIn then mirrorGo 3 m.claimCause s
    else if s.sill.straps.tie then modMirror (fun m => { m with tieSample := true }) s
    else mirrorGo 1 5 s) s
def execMirrorClaimSample (s : State) : Result := .next (mirrorClaimSample s)

/-- The TIE 1 device samples once more: ACTIVE, or the ties are equal. -/
def mirrorTieResample (s : State) : State :=
  let m := s.protect.mirror
  when (s.trafficRuns && m.state == 2 && m.tieSample) (fun s =>
    if !s.mirIn then mirrorGo 3 m.claimCause s else mirrorConflict 4 (mirrorGo 4 5 s)) s
def execMirrorTieResample (s : State) : Result := .next (mirrorTieResample s)

def mirrorHoldoffExpiry (s : State) : State := modMirror (fun m => { m with holdoff := false }) s
def execMirrorHoldoffExpiry (s : State) : Result := .next (mirrorHoldoffExpiry s)

/-- Every unit that receives and is not muted is in loss of signal (log entry 33). -/
def State.allLost (s : State) : Bool :=
  let us := [0, 1, 2, 3].filter (fun u => (s.cu u).rxEn && !(s.cu u).muted)
  !us.isEmpty && us.all s.los

def mirrorLosRelease (s : State) : State := when (s.trafficRuns && s.allLost) (mirrorRelease 2) s
def execMirrorLosRelease (s : State) : Result := .next (mirrorLosRelease s)

/-- 100 ns after the lanes and mutes, MIR_ACT_OUT falls. -/
def mirrorReleaseDeassert (s : State) : State :=
  match s.protect.mirror.releasing with
  | some c => mirrorGo 1 c s
  | none => s
def execMirrorReleaseDeassert (s : State) : Result := .next (mirrorReleaseDeassert s)

/-! The brace link (R365). -/

/-- The brace port: the one the pair names, or before it is enabled the port with the role. -/
def State.bracePort (s : State) : Option Nat :=
  if s.protect.mirror.state ≠ 0 then some s.protect.mirror.bracePort else s.portOfRole 7

/-- The brace port is trained. -/
def State.braceTrained (s : State) : Bool :=
  match s.bracePort with
  | some p => (s.tenon p).role == 7 && ((s.tenon p).state == 3 || (s.tenon p).state == 4)
  | none => false

/-- The heartbeat's bytes, in the model's order (log entry 32). -/
def heartbeatBytes (s : State) : List Byte :=
  be 1 s.protect.mirror.state ++ be 1 (b2n s.sill.straps.tie) ++ zeros 2 ++ be 4 s.fw.running.fwVersion ++ s.mirrorDigest

def braceHeartbeatTx (s : State) : State :=
  match s.bracePort with
  | some p => when (s.blocksRun && !s.pins.trafficStopped && s.braceTrained) (tenonPush p { vc := 2, body := .heartbeat (heartbeatBytes s) }) s
  | none => s
def execBraceHeartbeatTx (s : State) : Result := .next (braceHeartbeatTx s)

/-- EV_BRACE_LINK on a change. -/
def braceLink (up : Bool) (s : State) : State :=
  if s.protect.mirror.brace = up then s else raise 0x0F06 0 (be 1 (b2n up) ++ zeros 3) false (modMirror (fun m => { m with brace := up }) s)

/-- A peer heartbeat: what it says is kept and compared with the pins. Its message's credit is TENON_MESSAGE_RX's. -/
def braceHeartbeatRx (h : Heartbeat) (s : State) : State :=
  when (s.blocksRun && s.braceTrained) (fun s =>
    let s := modMirror (fun m => { m with missed := 0, peerState := some h.state, peerTie := h.tie, peerFw := h.fw, peerDigest := h.digest }) s
    judgeConflicts (braceLink true s)) s
def execBraceHeartbeatRx (h : Heartbeat) (s : State) : Result := .next (braceHeartbeatRx h s)

def braceHeartbeatMissed (s : State) : State :=
  when (s.blocksRun && s.bracePort.isSome) (fun s => bump pmMirror 0 2 1 (modMirror (fun m => { m with missed := min 8 (m.missed + 1) }) s)) s
def execBraceHeartbeatMissed (s : State) : Result := .next (braceHeartbeatMissed s)

/-- Eight heartbeats are missed, or the Tenon port has left its trained state. -/
def braceLinkDown (s : State) : State :=
  when (s.blocksRun && (decide (8 ≤ s.protect.mirror.missed) || !s.braceTrained)) (fun s =>
    braceLink false (modMirror (fun m => { m with peerState := none, peerFw := 0, peerDigest := [], conflicts := 0 }) s)) s
def execBraceLinkDown (s : State) : Result := .next (braceLinkDown s)

/-! Commands (R367 to R370). -/

/-- A tributary of the unit is allocated, as commanded or in force. -/
def State.hasTribs (s : State) (u : Nat) : Bool :=
  s.client.tribs.any (fun e => (e.2.set.kind != 0 && e.2.set.cu == u) || (e.2.now.kind != 0 && e.2.now.cu == u))

/-- A unit's copy starts where its framer stands. -/
def copyStarts (u : Nat) (s : State) : State :=
  if (s.frm u).state = 3 ∧ !hardFail (s.frm u).defects then framerGained u s else s

/-- The path of a unit's framer starts afresh: a twin group's merged stream begins or ends (R257, R361). -/
def pathFresh (u : Nat) (s : State) : State :=
  modFramer u (fun f => { f with rxPm := [], psi := [], runs := f.runs.filter (fun e => !decide (22 ≤ e.1 ∧ e.1 ≤ 29)) }) s

/-- A group is disabled: the merge stops, what its rings hold is flushed and the reservation freed (R361). -/
def twinDisable (g : Nat) (s : State) : State :=
  let t := s.twin g
  if !t.enabled then s else
    let cells := deskewCells t.depthUs (s.twinN g)
    let held := (t.a.ring.map (fun r => r.seq) ++ t.b.ring.map (fun r => r.seq)).eraseDups.length
    let s := bump pmTwin g 9 held (modTwin g (fun _ => {}) s)
    let s := releaseDeskew cells (releaseDeskew cells s)
    forEach [t.home, t.partner] (fun u s => pathFresh u (modFramer u (fun f => { f with copy := none }) s)) (twinEvent g t.groupState (some 4) s)

/-- A group is enabled (R349, R351, R356). The path of the partner is the home unit's: its defects read 0 there (R257). -/
def twinEnable (g a b : Nat) (q : Request) (s : State) : State :=
  let s := pathFresh (min a b) (pathFresh (max a b) s)
  let d := (s.frm (max a b)).defects
  let s := setDefects (max a b) (d - (d &&& pathBits)) (modFramer (max a b) (fun f => { f with accPt := none, accMsi := [] }) s)
  let s := modTwin g (fun _ => {
    enabled := true, home := min a b, partner := max a b, guard_ := q.b 4, rebase := q.b 5, depthUs := q.h 6, prefer := q.b 8 }) s
  let cells := deskewCells (q.h 6) (s.twinN g)
  copyStarts (max a b) (copyStarts (min a b) (reserveDeskew cells (reserveDeskew cells s)))

/-- R352, R369. Units in LINE_MODE 1 or 2 answer ST_PROT_MISMATCH as R369 has it, where R236 names ST_STATE (log entry 73). -/
def protectSetTwin (q : Request) (s : State) : Reply :=
  let g := q.b 0
  let a := q.b 1
  let b := q.b 2
  let t := s.twin g
  let alike := match (s.cu a).fmt, (s.cu b).fmt with | some x, some y => x.lineMode == 0 && y.lineMode == 0 && x.otucN == y.otucN | _, _ => false
  let n := match (s.cu a).fmt with | some f => f.otucN | none => 0
  let cells := deskewCells (q.h 6) n
  let same := t.home == min a b && t.partner == max a b && t.guard_ == q.b 4 && t.depthUs == q.h 6
  checked [unitZero q, inByte q 0 0 1, inByte q 1 0 3, (decide (b ≤ 3 ∧ b ≠ a), 2), inByte q 3 0 1, inByte q 4 4 64, inByte q 5 0 1,
    inHalf q 6 100 8000, inByte q 8 0 1, resv q 9 3] s <|
    if q.b 3 = 0 then .okay (twinDisable g s)
    else require [(alike, .mismatch),
        (!((s.twin (1 - g)).enabled && [(s.twin (1 - g)).home, (s.twin (1 - g)).partner].any (fun u => u == a || u == b)), .state),
        (!s.hasTribs (max a b), .state), (!t.enabled || same, .state)] s <|
      if t.enabled then .okay (modTwin g (fun t => { t with rebase := q.b 5, prefer := q.b 8 }) s)
      else if s.cellsShort (2 * cells) ≠ 0 then .reject .reserve (be 4 (s.cellsShort (2 * cells))) s
      else require [(s.meetsFloor, .floor)] s <| .okay (twinEnable g a b q s)

/-- A pending copy of a group. -/
def Twin.pendingCopy (t : Twin) : Option Nat := [0, 1].find? (fun k => (t.copy k).state == 2)

/-- The schedule moves to the pending copy, which joins (R359). -/
def twinRealign (g k : Nat) (s : State) : State :=
  let old := (s.twin g).groupState
  twinEvent g old none (rebaseTo g k (modTwin g (fun t => t.modCopy k (fun c => { c with state := 3, late := 0, disagree := 0 })) s))

def protectRealign (q : Request) (s : State) : Reply :=
  checked [unitZero q, inByte q 0 0 1, resv q 1 3] s <|
    match (s.twin (q.b 0)).pendingCopy with
    | none => .refuse .state s
    | some k => .okay (twinRealign (q.b 0) k s)

/-- The settings of a SET_MIRROR. -/
def mirrorSet (q : Request) (m : Mirror) : Mirror :=
  { m with bracePort := q.b 1, releaseMask := q.b 2, muteCu := q.b 3, clientMask := q.d 4 }

/-- The mirror's settings change while the pair is enabled: lanes no longer mirrored follow their own tolerance, those now mirrored the
mirror's state. -/
def mirrorResettle (old : List Nat) (s : State) : State :=
  mirrorQuads (forEach (old.filter (fun q => !s.mirroredQuads.contains q)) (startExit 3) s)

def protectSetMirror (q : Request) (s : State) : Reply :=
  let m := s.protect.mirror
  checked [unitZero q, inByte q 0 0 1, inByte q 1 0 7, inByte q 2 0 7, inByte q 3 0 15] s <|
  require [((s.tenon (q.b 1)).role == 7, .state)] s <|
    if q.b 0 = 0 then .okay (mirrorGo 0 4 (modMirror (mirrorSet q) s))
    else require [(m.brace, .peer), (m.peerTie != s.sill.straps.tie, .tie),
        (s.meetsFloor && (match s.floorHeld with | some f => decide (f ≤ m.peerFw) | none => false), .floor)] s <|
      let old := s.mirroredQuads
      let s := modMirror (mirrorSet q) s
      .okay (if m.state = 0 then mirrorGo 1 4 s else mirrorResettle old s)

def protectClaim (q : Request) (s : State) : Reply :=
  let m := s.protect.mirror
  checked [unitZero q, inByte q 0 0 2, resv q 1 3] s <|
    match q.b 0 with
    | 0 => require [(m.state == 3, .state)] s <| .okay (startRelease 4 s)
    | 1 => require [(!s.mirIn && m.state != 0, .state)] s <|
        .okay (if m.state = 1 ∨ m.state = 4 then modMirror (fun m => { m with wantClaim := true }) s else s)
    | _ => require [(m.state == 4, .state)] s <| .okay (mirrorGo 1 4 s)

/-- The GET_STATUS entry of a group: Δ and the later aligned copy's margin in ns, the latter within its field's range. -/
def twinStatus (s : State) (g : Nat) : List Byte :=
  let t := s.twin g
  let ms := ([0, 1].filter (fun k => (t.copy k).state == 3)).filterMap (fun k => t.margin k)
  be 1 t.groupState ++ be 1 t.a.state ++ be 1 t.b.state ++ zeros 1 ++
    (match t.delta with | some d => beInt 4 (max (-8000000) (min 8000000 (d / 100))) | none => be 4 0x80000000) ++
    be 4 (if ms.isEmpty then 0 else min 8000000 (ms.foldl min (ms.headD 0) / 100).toNat)

def protectGetStatus (q : Request) (s : State) : Reply :=
  let m := s.protect.mirror
  checked [unitZero q] s <|
    .okWith (twinStatus s 0 ++ twinStatus s 1 ++ be 1 m.state ++ be 1 s.mirrorPins ++ be 1 (b2n m.brace) ++ be 1 (m.peerState.getD 0xFF) ++
      be 4 m.peerFw ++ be 4 m.switchovers.toNat) s

def protectGetCounts (q : Request) (s : State) : Reply :=
  checked [unitBelow q 3] s <|
    .okWith (if q.u = 2 then countsReply s pmMirror 0 0 3 ++ zeros 56 else countsReply s pmTwin q.u 0 10) s

def execProtectSetTwin (q : Request) (s : State) : Result := .next (takeRequest 0x0F01 q protectSetTwin s)
def execProtectRealign (q : Request) (s : State) : Result := .next (takeRequest 0x0F02 q protectRealign s)
def execProtectSetMirror (q : Request) (s : State) : Result := .next (takeRequest 0x0F03 q protectSetMirror s)
def execProtectClaim (q : Request) (s : State) : Result := .next (takeRequest 0x0F04 q protectClaim s)
def execProtectGetStatus (q : Request) (s : State) : Result := .next (takeRequest 0x0F05 q protectGetStatus s)
def execProtectGetCounts (q : Request) (s : State) : Result := .next (takeRequest 0x0F06 q protectGetCounts s)

end Sys2Proof.Machine
end

