-- ==== Sys2Proof/Machine/Restart.lean ====
section
/-! DEFINITION. Resets and restarts as commands: the end of Salurn's INIT, sill register writes, SYSTEM.RESET's reset, and the
journal after a management-processor restart (R80 to R86, R94, R133). -/

namespace Sys2Proof.Machine

/-! INIT (R91, R93, R94, R159). -/

/-- The self-test fails: FAIL_CODE 0x0A against the bank that runs, and the other bank is tried; a memory image is given up and the ROM
waits for another, with BOOT where both banks have failed (R84, R91, R93). -/
def initFailed (s : State) : State :=
  if s.fw.fromMemory then
    modSill (fun x => { x with failCode := 0x0A, stage := .loadWait, bootAlarm := x.bankABad && x.bankBBad })
      (modFw (fun f => { f with fromMemory := false }) s)
  else nextBank (bankFailed s.fw.tryBank 0x0A s)

/-- R98: the self-test of an activated image fails as it boots: the committed bank boots instead, and the trial has rolled back with
cause 2. -/
def activatedFailed (s : State) : State := rollBack 2 (bankFailed (s.fw.staged.getD (1 - s.committed)) 0x0A s)

/-- INIT ends: the owner record and the root's floor are loaded, the staged bank is found; then Salurn is in RUN. -/
def initPassed (s : State) : State := reachRun (loadFloor (findStaged (loadOwnerRecord s)))

def salurnInitDone (ok : Bool) (s : State) : State :=
  if s.hubUp && s.sill.stage == .init then (if ok then initPassed s else initFailed s)
  else if s.fw.activating && (s.control.mp matches .restarting _) && !ok then activatedFailed s
  else s
def execSalurnInitDone (selfTest : Bool) (s : State) : Result := .next (salurnInitDone selfTest s)

/-! Sill register writes (R83, R85, R107). -/

/-- R80: a sill reset; the supplies stand, so the hub is released at once where RESET_N is high. -/
def sillReset (s : State) : State :=
  let t := sillResetState 2 s.sill.suppliesValid s
  if t.mayRelease then releaseHub t else t

/-- SL_RESET_CTRL[KEY] is 0xA5C3. -/
def keyed (w : Word32) : Bool := w.toNat / 65536 == 0xA5C3

/-- What SL_RESET_CTRL performs: only the widest reset a keyed write names (R85). -/
def resetSill (w : Word32) : Bool := keyed w && w.getLsbD 0
def resetHub (w : Word32) : Bool := keyed w && !w.getLsbD 0 && w.getLsbD 1
def resetMp (w : Word32) : Bool := keyed w && !w.getLsbD 0 && !w.getLsbD 1 && w.getLsbD 2
def resetCus (w : Word32) : List Nat :=
  if keyed w && !w.getLsbD 0 && !w.getLsbD 1 && !w.getLsbD 2 then (List.range 4).filter (fun u => w.getLsbD (4 + u)) else []

/-- R192: carrier units restart together, while Salurn is in RUN. -/
def restartUnits (us : List Nat) (s : State) : State := when s.salurnRuns (forEach us cuRestart) s

/-- A write of SL_RESET_CTRL. -/
def writeResetCtrl (w : Word32) (s : State) : State :=
  if resetSill w then sillReset s else if resetHub w then requestHubReset 4 s else if resetMp w then mpRestart 4 s
  else restartUnits (resetCus w) s

/-- CP_MISO during a register write (R106). -/
def writeMiso (n : Nat) (s : State) : State := modPins (fun p => { p with cpMiso := statusByte s :: zeros n }) s

/-- A register write that acts only where the word names what the command is. -/
def resetCommand (names : Bool) (w : Word32) (s : State) : State := when (s.portLives && names) (fun s => writeResetCtrl w (writeMiso 5 s)) s

def execSillReset (w : Word32) (s : State) : Result := .next (resetCommand (resetSill w) w s)
def execHubResetByRegister (w : Word32) (s : State) : Result := .next (resetCommand (resetHub w) w s)
def execMpRestartByRegister (w : Word32) (s : State) : Result := .next (resetCommand (resetMp w) w s)
def execCuRestartByRegister (w : Word32) (s : State) : Result := .next (resetCommand (!(resetCus w).isEmpty) w s)

/-- R107: exactly four data bytes at an address that is a multiple of 4; else the write is ignored. -/
def sillRegisterWrite (addr : Nat) (data : List Byte) (s : State) : State :=
  when s.portLives (fun s =>
    let s := writeMiso (1 + data.length) s
    if data.length ≠ 4 ∨ addr % 4 ≠ 0 then s
    else if addr = 0x10 then writeResetCtrl (BitVec.ofNat 32 (beNat data)) s
    else slWrite addr (BitVec.ofNat 32 (beNat data)) s) s
def execSillRegisterWrite (addr : Byte) (data : List Byte) (s : State) : Result := .next (sillRegisterWrite addr.toNat data s)

/-! SYSTEM.RESET (R101). -/

/-- The first reset that SYSTEM.RESET ordered and that is still to be made. Its own entry is no unreplied command, since its outcome is
the reset (R84); a reset of hub scope absorbs those ordered after it (R81). -/
def systemResetExecute (s : State) : State :=
  match s.control.resets with
  | [] => s
  | p :: rest =>
    let s := modControl (fun c => { c with resets := rest }) s
    if p.scope = 1 then requestHubReset 5 (freeEntry (some p.entry) s)
    else if p.scope = 2 then mpRestart 3 s else restartUnits [p.unit] s
def execSystemResetExecute (s : State) : Result := .next (systemResetExecute s)

/-! The journal after a restart (R133). -/

/-- The bench request that a journal entry waits for. -/
def Bench.entry : Bench → Nat
  | .load _ _ _ e => e
  | .seal _ _ _ _ e => e
  | .unseal _ _ _ _ _ e => e

/-- What a command that is still applying had asked for is taken back. -/
def undoEntry (e : Entry) (s : State) : State :=
  match e.undo with
  | .overlay u p first old => forEach old.zipIdx (fun x s =>
      modElem u p (first + x.2) (fun k => { k with overlay := x.1 }) (supersede u p (first + x.2) s)) s
  | .inject c => setInjection c none s
  | .loadKey _ => modSecurity (fun k => { k with bench := k.bench.filter (fun b => b.entry != e.id) }) s
  | .bench _ => modSecurity (fun k => { k with bench := k.bench.filter (fun b => b.entry != e.id) }) s
  | _ => { s with sched := { s.sched with waiting := s.sched.waiting.filter (fun c => c.entry != e.id) } }

/-- A command that was RECORDED is rolled back: nothing of it has executed, and its SEQUENCE is used up (R133). -/
def rollBackRecorded (e : Entry) (s : State) : State :=
  finishEntry e.id .restarted [] (bump pmDevice 0 10 1 (if e.port.foreign then s else
    modSession e.session (fun x => if e.seq = x.nextSeq then { x with nextSeq := x.nextSeq + 1 } else x) s))

/-- One entry is resolved (R133): a command whose blocks have answered keeps its own status, a broadcast still being collated is
completed, a command RECORDED or still applying is rolled back. -/
def resolveEntry (e : Entry) (s : State) : State :=
  match e.state, e.outcome with
  | .done, _ => s
  | .recorded, _ => rollBackRecorded e s
  | .applying, some (st, pl) => finishEntry e.id st pl s
  | .applying, none =>
    match s.control.collations.find? (fun c => c.id == e.id) with
    | some c => closeCollation c s
    | none => finishEntry e.id .restarted [] (undoEntry e s)

/-- R98: the image of an activation is checked as it boots; it runs in trial, or the committed bank runs and the trial has rolled
back with cause 2. The Bool says it runs. -/
def bootActivated (s : State) : Bool × State :=
  let b := s.fw.staged.getD (1 - s.committed)
  match checkBank s b with
  | some c => (false, rollBack 2 (bankFailed b c s))
  | none => (true, modSill (fun x => { x with bank := b, fallback := false }) (modFw (fun f => { f with
      running := headerImage (flashBytes s (bankBase b) 352), runningBank := b, fromMemory := false, trial := true,
      activating := false, staged := none }) s))

/-- Salurn is in RUN after a restart: the journal is resolved in order, then the events follow; an ACTIVATE or a ROLLBACK whose restart
was still due has it now (R132, R133, R502). -/
def mpRestartComplete (s : State) : State :=
  match s.control.mp with
  | .restarting c =>
    when (s.hubUp && s.sill.stage == .run) (fun s =>
      let (activated, s) := if s.fw.activating then bootActivated s else (false, s)
      let s := modControl (fun k => { k with mp := .running }) s
      let s := forEach s.control.journal resolveEntry s
      let s := raise 0x0102 0 (be 1 c ++ zeros 3) false s
      let s := if activated then raise 0x1001 0 (be 4 s.fw.running.fwVersion ++ be 2 s.fw.running.secVersion ++ zeros 2) false s else s
      settleIntake (modControl (fun k => { k with ready := true, intakeStopped := s.fw.activateDue || s.fw.rollbackDue })
        (reportRollbacks s))) s
  | _ => s
def execMpRestartComplete (s : State) : Result := .next (mpRestartComplete s)

end Sys2Proof.Machine
end

