-- ==== Sys2Proof/Machine/Timing.lean ====
section
/-! DEFINITION. Chapter 15 of spec/: references, the DCO, the time of day, the outputs and the TIMING commands. -/

namespace Sys2Proof.Machine

/-! References. -/

/-- R403: one window of one present source: f, its one-second average, drift and range. -/
def measureSource (k : Nat) (f : Int) (s : State) : State :=
  let x := s.source k
  if !x.present then s else
    let a := meanInt x.averages
    let drifting := x.qualified && !x.averages.isEmpty && decide ((f - a).natAbs > s.timing.disqPpb)
    let full := decide (x.count + 1 = 100)
    let s := modSource k (fun x => { x with
      f := f, recent := (f :: x.recent).take (s.timing.reqS * 100)
      sum := if full then 0 else x.sum + f, count := if full then 0 else x.count + 1
      averages := if full && x.qualified then ((x.sum + f) / 100 :: x.averages).take 64 else x.averages
      driftMs := if drifting then x.driftMs + 10 else 0
      driftSince := if drifting && x.driftMs != 0 then x.driftSince else s.timing.seconds }) s
    if x.qualified && decide (f.natAbs > 20000) then disqualify k 3 s.timing.seconds s else s

/-- R403: every 10 ms each present source is measured; the phase of the output against the selected source is measured with it. Where
the pins and a measurement change in one window, the pins' row comes first (R405, log entry 77). -/
def refMeasurement (f : Vector Int 6) (phase : Int) (s : State) : State :=
  when s.hubUp (fun s =>
    let s := forEach (List.range 6) (fun k s => measureSource k (f.toList.getD k 0) s) s
    modTiming (fun t => { t with
      phaseMoved := 0
      phaseErr := match selectedSource t.refSel with
      | some k => if (s.source k).present then some phase else none
      | none => none }) s) s
def execRefMeasurement (f : Vector Int 6) (phase : Int) (s : State) : Result := .next (refMeasurement f phase s)

/-- R401: no edge within four nominal periods. -/
def execRefAbsence (ref : Fin 4) (s : State) : Result := .next (when s.hubUp (sourceAbsent ref 4) s)

/-- R401: edges return on an input that is set to a mode. -/
def refPresenceRestored (k : Nat) (s : State) : State := when (s.hubUp && (s.source k).mode != 0) (sourcePresent k 4) s
def execRefPresenceRestored (ref : Fin 4) (s : State) : Result := .next (refPresenceRestored ref s)

/-- R403: a drift has persisted for DWELL_MS. -/
def refDisqualified (k : Nat) (s : State) : State :=
  let x := s.source k
  when (s.hubUp && x.qualified && decide (s.timing.dwellMs ≤ x.driftMs)) (disqualify k 2 x.driftSince) s
def execRefDisqualified (source : Fin 6) (s : State) : Result := .next (refDisqualified source s)

/-- R403: the source has been present and steady for REQ_S. -/
def steady (t : Timing) (x : Source) : Bool :=
  let m := meanInt x.recent
  x.present && decide (t.reqS * 100 ≤ x.recent.length) &&
    x.recent.all (fun f => decide (4 * (f - m).natAbs ≤ t.disqPpb ∧ f.natAbs ≤ 20000))

def refRequalified (k : Nat) (s : State) : State :=
  let x := s.source k
  when (s.hubUp && !x.qualified && steady s.timing x) (fun s =>
    let s := modSource k (fun x => { x with qualified := true, averages := [meanInt x.recent], sum := 0, count := 0, driftMs := 0 }) s
    retime 1 s.timing.seconds true (qualEvent k true 1 s)) s
def execRefRequalified (source : Fin 6) (s : State) : Result := .next (refRequalified source s)

/-- R404: the pins are stable at a new value, which the sill senses while VDD_IO is present (R39). -/
def refSelChange (v : Nat) (s : State) : State :=
  let s := modPins (fun p => { p with refSel := v }) s
  when (s.sill.on && s.pins.vddIo) senseRefSel s
def execRefSelChange (v : Fin 8) (s : State) : Result := .next (refSelChange v s)

/-- R407: the phase error has stayed within ±10 ns for 1 s, as the row tells. -/
def lockTestMet (s : State) : State := when (s.hubUp && s.timing.state == 1) (enterTiming 2 5 0) s
def execLockTestMet (s : State) : Result := .next (lockTestMet s)

/-! The DCO. -/

/-- Clip to the range of W (R409, R419). -/
def clipW (w : Int) : Int := max (-2147483647) (min 2147483647 w)

/-- Move from `w` toward a target by at most `m`. -/
def toward (w target : Int) (m : Nat) : Int := max (w - m) (min (w + m) target)

/-- The move of the output phase in one update of 1 ms, in ps: PHASE_SLEW ns per second is PHASE_SLEW ps in 1 ms. In ACQUIRING it takes
the phase error toward 0 from where it stands (R407). -/
def phaseMove (t : Timing) : Int :=
  match t.phaseErr with
  | some e => if t.state = 1 then toward (e * 1000 + t.phaseMoved) 0 t.phaseSlew - (e * 1000 + t.phaseMoved) else 0
  | none => 0

/-- R409: one update of W; in LOCKED the loop of bandwidth BW gives the value it wants, by a filter that the spec does not state (log
entry 77). -/
def dcoUpdate (loop : Int) (s : State) : State :=
  when s.hubUp (modTiming (fun t =>
    let target := match t.state with
      | 0 => t.steer
      | 1 => (match selectedSource t.refSel with | some k => (tblGet ({} : Source) t.sources k).f * 100000 | none => t.w)
      | 2 => loop
      | 3 => t.holdW
      | _ => 0
    let w := toward t.w (clipW target) (t.freqRate * 100)
    { t with w, phaseMoved := t.phaseMoved + phaseMove t, wSum := if t.state = 2 then t.wSum + w else t.wSum, wCount := if t.state = 2 then t.wCount + 1 else t.wCount })) s
def execDcoUpdate (loop : Int) (s : State) : Result := .next (dcoUpdate loop s)

/-! The time of day. -/

/-- EV_TIMING_TOD_STEP (R418). -/
def todEvent (mode result : Nat) (change : Int) (s : State) : State :=
  raise 0x0A03 0 (be 1 mode ++ be 1 result ++ zeros 2 ++ beInt 8 change) false s

/-- R411: the ToD steps; a change of the seconds issues exactly one strobe, under the new ToD. The seconds it cuts short are not whole
ones for R406. -/
def stepTod (t : Tod) (s : State) : State :=
  let old := s.timing.tod
  let d : Int := (t.toNs : Int) - (old.toNs : Int)
  let s := modTiming (fun k => { k with
    tod := t, pps := k.pps.moved d, frame := k.frame.moved d, wholeLocked := k.wholeLocked && t.sec == old.sec }) s
  if t.sec ≠ old.sec then modTiming (fun k => { k with wholeLocked := k.wholeLocked && t.ns == 0 }) (secondBoundary s) else s

/-- The part of a running slew that `n` ticks apply (R411). -/
def Slew.run (x : Slew) (n : Nat) : Slew × Int :=
  let k := 1000000 / x.ppm
  let j := (x.ticks + n) / k - x.ticks / k
  let d : Int := if 0 ≤ x.remain then min x.remain (8 * j) else max x.remain (-(8 * j : Int))
  ({ x with ticks := x.ticks + n, remain := x.remain - d }, d)

/-- One time-bus tick: the ToD advances by 8 ns, or by 16 or 0 while slewing; the seconds wrap with a strobe (R410, R411). -/
def busTick (s : State) : State :=
  let (sl, d) : Option Slew × Int := match s.timing.slew with
    | some x => let (y, d) := x.run 1; (some y, d)
    | none => (none, 0)
  let old := s.timing.tod
  let new := Tod.ofNs (old.toNs + (8 + d).toNat)
  let s := { s with localNs := s.localNs + 8 }
  let s := modTiming (fun t => { t with tod := new, slew := sl, pps := t.pps.moved d, frame := t.frame.moved d }) s
  if new.sec ≠ old.sec then secondBoundary s else s

/-- `n` ticks. -/
def busTicks : Nat → State → State
  | 0, s => s
  | n + 1, s => busTicks n (busTick s)

/-- R410: one SILL_CLK cycle adds 40 ns × (1 + W × 10⁻¹⁴) to the fine accumulator, and issues a tick for each 8 ns crossed. The
accumulator counts in units of 4 × 10⁻¹³ ns, of which 8 ns are 2 × 10¹³. -/
def sillClock (s : State) : State :=
  let acc := ((s.timing.fine : Int) + 100000000000000 + s.timing.w).toNat
  let s := modTiming (fun t => { t with fine := acc % 20000000000000 }) s
  busTicks (acc / 20000000000000) s

/-- R22: the nanoseconds wrap to 0. The time up to the wrap has passed. -/
def todSecondBoundary (s : State) : State :=
  when s.sill.on (fun s =>
    let left := billion - s.timing.tod.ns
    let s := { s with localNs := s.localNs + left }
    let d : Int := match s.timing.slew with | some x => (x.run (left / 8)).2 | none => 0
    let s := modTiming (fun t => { t with
      tod := ⟨(t.tod.sec + 1) % 2 ^ 48, 0⟩, slew := t.slew.map (fun x => (x.run (left / 8)).1)
      pps := t.pps.moved d, frame := t.frame.moved d }) s
    secondBoundary s) s
def execTodSecondBoundary (s : State) : Result := .next (todSecondBoundary s)

/-- Cancel the running slew and the pending MODE 2 step, each with RESULT 2 (R411). -/
def cancelTod (s : State) : State :=
  let s := match s.timing.slew with
    | some x => todEvent 3 2 (x.total - x.remain) (modTiming (fun t => { t with slew := none }) s)
    | none => s
  match s.timing.atPps with
  | some _ => todEvent 2 2 0 (modTiming (fun t => { t with atPps := none }) s)
  | none => s

/-- The ToD of a payload's 10 bytes. -/
def Request.tod (q : Request) (off : Nat) : Tod := ⟨field q.payload off 6, q.w (off + 6)⟩

/-- R411, R417. -/
def timingSetTod (q : Request) (s : State) : Reply :=
  let m := q.b 0
  let t := q.tod 4
  let off := ifield q.payload 16 8
  let now : Int := s.timing.tod.toNs
  let after : Int := now + off
  checked [unitZero q, inByte q 0 0 3, (if m = 3 then decide (1 ≤ q.b 1 ∧ q.b 1 ≤ 100) else q.b 1 == 0, 1), resv q 2 2,
    (if m = 0 ∨ m = 2 then decide (t.ns < billion) && t.ns % 8 == 0 && (m == 0 || t.ns == 0) else isZero q.payload 4 10, 4), resv q 14 2,
    (if m = 1 then off % 8 == 0 && decide (0 ≤ after ∧ after < ((2 ^ 48 * billion : Nat) : Int))
     else if m = 3 then off % 8 == 0 && decide (off.natAbs ≤ billion) else off == 0, 16)] s <|
  require [(m != 2 || s.timing.outputs.flags.testBit 2, .state)] s <|
    let s := cancelTod s
    if m = 0 then .okay (todEvent 0 0 ((t.toNs : Int) - now) (stepTod t s))
    else if m = 1 then .okay (todEvent 1 0 off (stepTod (Tod.ofNs after.toNat) s))
    else if m = 2 then .okay (modTiming (fun k => { k with atPps := some (t.sec, s.localNs + 2 * billion) }) s)
    else .okay (modTiming (fun k => { k with slew := some { remain := off, total := off, ppm := q.b 1 } }) s)

/-- R411: a MODE 2 step expires. -/
def todMode2Expiry (s : State) : State :=
  match s.timing.atPps with
  | some _ => todEvent 2 1 0 (modTiming (fun t => { t with atPps := none }) s)
  | none => s
def execTodMode2Expiry (s : State) : Result := .next (todMode2Expiry s)

/-- R411: a slew has spent its offset; what ticks have not yet applied of it has been applied by then. -/
def todSlewEnd (s : State) : State :=
  match s.timing.slew with
  | some x =>
    let old := s.timing.tod
    let new := Tod.ofNs (((old.toNs : Int) + x.remain).toNat)
    let s := modTiming (fun t => { t with slew := none, tod := new, pps := t.pps.moved x.remain, frame := t.frame.moved x.remain }) s
    let s := if old.sec < new.sec then secondBoundary s else s
    todEvent 3 0 x.total s
  | none => s
def execTodSlewEnd (s : State) : Result := .next (todSlewEnd s)

/-- R412: a PPS_IN edge that stays high for `highNs`, `sinceNs` after the last accepted one, `lateNs` after the last tick. -/
def ppsInEdge (highNs sinceNs lateNs : Nat) (s : State) : State :=
  if !(s.hubUp && s.timing.outputs.flags.testBit 2) then s
  else if highNs < 100 ∨ (s.timing.ppsAt.isSome ∧ !(999900000 ≤ sinceNs ∧ sinceNs ≤ 1000100000)) then
    modTiming (fun t => { t with ppsRejects := t.ppsRejects + 1 }) s
  else
    let ts := Tod.ofNs (s.timing.tod.toNs + lateNs)
    let s := modTiming (fun t => { t with ppsTs := ts, ppsAt := some s.localNs }) s
    let s := if s.timing.outputs.flags.testBit 3 then raise 0x0A04 0 (ts.bytes ++ zeros 2) false s else s
    match s.timing.atPps with
    | some (sec, _) =>
      let change : Int := ((sec * billion : Nat) : Int) - (ts.toNs : Int)
      todEvent 2 0 change (stepTod ⟨sec, 8⟩ (modTiming (fun t => { t with atPps := none }) s))
    | none => s
def execPpsInEdge (highNs sinceNs : Nat) (lateNs : Fin 8) (s : State) : Result := .next (ppsInEdge highNs sinceNs lateNs s)

/-! Outputs. -/

/-- A pulse leaves, and the schedule moves on by its period. -/
def Pulse.fire (p : Pulse) (now : Nat) : Pulse :=
  let t := max now p.next
  { p with last := some t, next := t + p.period }

/-- The instant of a schedule whose pin is not enabled passes. -/
def Pulse.skip (p : Pulse) (now : Nat) : Pulse := { p with next := max now p.next + p.period }

/-- R414: a rising edge of the PPS_OUT schedule; it triggers whether or not the pin is enabled (R425). -/
def ppsOutPulse (s : State) : State :=
  when s.hubUp (fun s =>
    triggerSource 2 (if s.timing.pps.on then
      modPins (fun p => { p with ppsOutAt := s.timing.tod }) (modTiming (fun t => { t with pps := t.pps.fire s.localNs }) s)
    else modTiming (fun t => { t with pps := t.pps.skip s.localNs }) s)) s
def execPpsOutPulse (s : State) : Result := .next (ppsOutPulse s)

/-- R414: a rising edge of the FRAME_OUT schedule; it triggers whether or not the pin is enabled (R425). -/
def frameOutPulse (s : State) : State :=
  when s.hubUp (fun s =>
    triggerSource 3 (if s.timing.frame.on then
      modPins (fun p => { p with frameOutAt := s.timing.tod }) (modTiming (fun t => { t with frame := t.frame.fire s.localNs }) s)
    else modTiming (fun t => { t with frame := t.frame.skip s.localNs }) s)) s
def execFrameOutPulse (s : State) : Result := .next (frameOutPulse s)

/-- CLKOUTn runs: a frequency is set and the state code is not squelched (R413). -/
def State.clkOut (s : State) (n : Nat) : Bool :=
  (if n = 0 then s.timing.outputs.clk0 else s.timing.outputs.clk1) != 0 && !s.timing.outputs.squelch.testBit s.timing.state

/-! Commands. -/

/-- The frequency range of a reference input's mode (R402). -/
def refRange (mode freq : Nat) : Bool :=
  match mode with
  | 1 => decide (10000000 ≤ freq ∧ freq ≤ 750000000)
  | 2 => decide (8000 ≤ freq ∧ freq ≤ 250000000)
  | _ => freq == 0

/-- A source is reconfigured: it starts anew, cause 6 (R403). -/
def reconfigure (k mode freq : Nat) (present : Bool) (s : State) : State :=
  let was := (s.source k).qualified
  let s := modSource k (fun _ => { mode, freq, present }) s
  retime 6 s.timing.seconds true (if was then qualEvent k false 6 s else s)

/-- R402, R416. -/
def timingSetRefs (q : Request) (s : State) : Reply :=
  checked ([unitZero q] ++ (List.range 4).map (fun n => inByte q n 0 2) ++
    (List.range 4).map (fun n => (refRange (q.b n) (q.w (4 + 4 * n)), 4 + 4 * n)) ++
    [inByte q 20 0 3, inByte q 21 0 63, resv q 22 2]) s <|
    let s := forEach (List.range 4) (fun n s =>
      let x := s.source n
      let f := q.w (4 + 4 * n)
      if x.mode = q.b n ∧ x.freq = f then s else reconfigure n (q.b n) f (x.present && q.b n == x.mode && q.b n != 0) s) s
    let s := if s.timing.lineCu = q.b 20 then s else
      reconfigure 4 0 0 (decide ((s.cu (q.b 20)).acq = 7)) (modTiming (fun t => { t with lineCu := q.b 20 }) s)
    let s := if s.timing.hostClient = q.b 21 then s else
      reconfigure 5 0 0 (decide ((tblGet {} s.client.clients (q.b 21)).link = 1)) (modTiming (fun t => { t with hostClient := q.b 21 }) s)
    .okay s

/-- R416. -/
def timingSetLoop (q : Request) (s : State) : Reply :=
  checked [unitZero q, inByte q 0 0 3, resv q 1 1, inHalf q 2 100 20000, inHalf q 4 10 10000, inHalf q 6 1 3600, inHalf q 8 1 10000,
    inHalf q 10 10 10000] s <|
    .okay (modTiming (fun t => { t with
      bw := q.b 0, disqPpb := q.h 2, dwellMs := q.h 4, reqS := q.h 6, phaseSlew := q.h 8, freqRate := q.h 10 }) s)

/-- R409, R419. -/
def timingSetDco (q : Request) (s : State) : Reply :=
  checked [unitZero q, (q.w 0 != 0x80000000, 0)] s <|
    .okay (modTiming (fun t => { t with steer := ifield q.payload 0 4 }) s)

/-- R412 to R416. -/
def timingSetOutputs (q : Request) (s : State) : Reply :=
  let clk := fun off => q.w off == 0 || decide (8000 ≤ q.w off ∧ q.w off ≤ 750000000)
  let po := ifield q.payload 12 4
  checked [unitZero q, (clk 0, 0), (clk 4, 4), inByte q 8 0 31, inByte q 9 0 15, inHalf q 10 1 50000,
    (po % 8 == 0 && decide (po.natAbs ≤ 500000000), 12),
    (decide (125000 ≤ q.w 16 ∧ q.w 16 ≤ billion) && q.w 16 % 8 == 0 && billion % q.w 16 == 0, 16),
    (q.w 20 % 8 == 0 && decide (8 ≤ q.w 20 ∧ 2 * q.w 20 ≤ q.w 16), 20)] s <|
    .okay (modTiming (fun t => { t with
      outputs := { clk0 := q.w 0, clk1 := q.w 4, squelch := q.b 8, flags := q.b 9, ppsWidth := q.h 10, ppsOffset := po,
                   framePeriod := q.w 16, frameWidth := q.w 20 }
      ppsAt := if t.outputs.flags.testBit 2 && (q.b 9).testBit 2 then t.ppsAt else none }) s)

/-- R414. -/
def timingRealign (q : Request) (s : State) : Reply :=
  checked [unitZero q, inByte q 0 1 3, resv q 1 3] s <|
    .okay (modTiming (fun t => { t with realign := t.realign ||| q.b 0 }) s)

/-- PHASE_ERR_NS: output less selected source, none while that is absent or not measured. -/
def phaseError (s : State) : List Byte :=
  match selectedSource s.timing.refSel, s.timing.phaseErr with
  | some k, some e => if (s.source k).present then beInt 4 ((e * 1000 + s.timing.phaseMoved).tdiv 1000) else be 4 0x80000000
  | _, _ => be 4 0x80000000

/-- PPS_PHASE_NS: the PPS_OUT schedule less the ToD grid, between ±500 000 000 (R414). -/
def ppsPhase (t : Timing) : Int := if t.pps.shift ≤ 500000000 then t.pps.shift else t.pps.shift - 1000000000

/-- F_PPB of a source, saturated (R416, R419). -/
def fPpb (x : Source) : List Byte :=
  if x.present then beInt 4 (max (-1000000) (min 1000000 x.f)) else be 4 0x80000000

/-- R416. -/
def timingGetStatus (q : Request) (s : State) : Reply :=
  checked [unitZero q] s <|
    let t := s.timing
    .okWith (be 1 t.state ++ be 1 t.refSel ++ be 1 (maskOf 6 (fun k => (s.source k).qualified)) ++
      be 1 (maskOf 6 (fun k => (s.source k).present)) ++ beInt 4 t.w ++ beInt 4 t.holdW ++
      phaseError s ++ t.tod.bytes ++ zeros 2 ++ t.ppsTs.bytes ++ zeros 2 ++
      beInt 4 (ppsPhase t) ++ beInt 8 (match t.slew with | some x => x.remain | none => 0) ++
      (List.range 6).flatMap (fun k => fPpb (s.source k)) ++ be 4 t.ppsRejects.toNat) s

def execTimingSetRefs (q : Request) (s : State) : Result := .next (takeRequest 0x0A01 q timingSetRefs s)
def execTimingSetLoop (q : Request) (s : State) : Result := .next (takeRequest 0x0A02 q timingSetLoop s)
def execTimingSetDco (q : Request) (s : State) : Result := .next (takeRequest 0x0A03 q timingSetDco s)
def execTimingSetTod (q : Request) (s : State) : Result := .next (takeRequest 0x0A04 q timingSetTod s)
def execTimingSetOutputs (q : Request) (s : State) : Result := .next (takeRequest 0x0A05 q timingSetOutputs s)
def execTimingRealign (q : Request) (s : State) : Result := .next (takeRequest 0x0A06 q timingRealign s)
def execTimingGetStatus (q : Request) (s : State) : Result := .next (takeRequest 0x0A07 q timingGetStatus s)

end Sys2Proof.Machine
end

