-- ==== Sys2Proof/Machine/Dispatch.lean ====
section
/-! DEFINITION. One arm for each command of the table: its meaning, or its name where it has none yet. -/

namespace Sys2Proof.Machine

def exec (i : Instr) (s : State) : Host.Outcome State Fault Refusal :=
  match i with
  | .sillPowerOn => Sys2Proof.Machine.execSillPowerOn s
  | .sillPowerLoss => Sys2Proof.Machine.execSillPowerLoss s
  | .supplyHold x => Sys2Proof.Machine.execSupplyHold x s
  | .sequenceFault x => Sys2Proof.Machine.execSequenceFault x s
  | .hubPowerLoss => Sys2Proof.Machine.execHubPowerLoss s
  | .suppliesValid => Sys2Proof.Machine.execSuppliesValid s
  | .resetNFall => Sys2Proof.Machine.execResetNFall s
  | .resetNRise => Sys2Proof.Machine.execResetNRise s
  | .strapWindow readings => Sys2Proof.Machine.execStrapWindow readings s
  | .strapFault => Sys2Proof.Machine.execStrapFault s
  | .bankCheck => Sys2Proof.Machine.execBankCheck s
  | .salurnInitDone selfTest => Sys2Proof.Machine.execSalurnInitDone selfTest s
  | .sillReset w => Sys2Proof.Machine.execSillReset w s
  | .hubResetByRegister w => Sys2Proof.Machine.execHubResetByRegister w s
  | .mpRestartByRegister w => Sys2Proof.Machine.execMpRestartByRegister w s
  | .cuRestartByRegister w => Sys2Proof.Machine.execCuRestartByRegister w s
  | .sillRegisterWrite addr data => Sys2Proof.Machine.execSillRegisterWrite addr data s
  | .watchdogExpiry => Sys2Proof.Machine.execWatchdogExpiry s
  | .lockstepMismatch => Sys2Proof.Machine.execLockstepMismatch s
  | .mpRestartComplete => Sys2Proof.Machine.execMpRestartComplete s
  | .trialTimeout => Sys2Proof.Machine.execTrialTimeout s
  | .activationEpoch => Sys2Proof.Machine.execActivationEpoch s
  | .debugUnlockExpiry => Sys2Proof.Machine.execDebugUnlockExpiry s
  | .debugNonceExpiry => Sys2Proof.Machine.execDebugNonceExpiry s
  | .jtagInstructionLoad j => Sys2Proof.Machine.execJtagInstructionLoad j s
  | .cpPushPacket bytes => Sys2Proof.Machine.execCpPushPacket bytes s
  | .cpPull clocked => Sys2Proof.Machine.execCpPull clocked s
  | .cpInvalidTransaction first => Sys2Proof.Machine.execCpInvalidTransaction first s
  | .malformedPacket port bytes count => Sys2Proof.Machine.execMalformedPacket port bytes count s
  | .packetForward port p => Sys2Proof.Machine.execPacketForward port p s
  | .eventToOutgoingQueue => Sys2Proof.Machine.execEventToOutgoingQueue s
  | .eventsLostQueued route => Sys2Proof.Machine.execEventsLostQueued route s
  | .sessionIdleExpiry number => Sys2Proof.Machine.execSessionIdleExpiry number s
  | .sessionAuthExpiry number => Sys2Proof.Machine.execSessionAuthExpiry number s
  | .systemResetExecute => Sys2Proof.Machine.execSystemResetExecute s
  | .systemGetIdentity q => Sys2Proof.Machine.execSystemGetIdentity q s
  | .systemReset q => Sys2Proof.Machine.execSystemReset q s
  | .systemGetDebugChallenge q => Sys2Proof.Machine.execSystemGetDebugChallenge q s
  | .systemDebugUnlock q => Sys2Proof.Machine.execSystemDebugUnlock q s
  | .systemGetEvents q => Sys2Proof.Machine.execSystemGetEvents q s
  | .powerSetTolerance q => Sys2Proof.Machine.execPowerSetTolerance q s
  | .powerGetState q => Sys2Proof.Machine.execPowerGetState q s
  | .powerGetPower q => Sys2Proof.Machine.execPowerGetPower q s
  | .powerSetRegulator q => Sys2Proof.Machine.execPowerSetRegulator q s
  | .carrierSetFormat q => Sys2Proof.Machine.execCarrierSetFormat q s
  | .carrierSetPath q => Sys2Proof.Machine.execCarrierSetPath q s
  | .carrierSetDsp q => Sys2Proof.Machine.execCarrierSetDsp q s
  | .carrierSetSpectralOrder q => Sys2Proof.Machine.execCarrierSetSpectralOrder q s
  | .carrierGetStatus q => Sys2Proof.Machine.execCarrierGetStatus q s
  | .carrierReacquire q => Sys2Proof.Machine.execCarrierReacquire q s
  | .carrierGetConfig q => Sys2Proof.Machine.execCarrierGetConfig q s
  | .formatEpoch u => Sys2Proof.Machine.execFormatEpoch u s
  | .acfFrameTx u clipped => Sys2Proof.Machine.execAcfFrameTx u clipped s
  | .acfFrameRx u f => Sys2Proof.Machine.execAcfFrameRx u f s
  | .acfLossOfFrame u => Sys2Proof.Machine.execAcfLossOfFrame u s
  | .lossOfSignal x => Sys2Proof.Machine.execLossOfSignal x s
  | .losClear x => Sys2Proof.Machine.execLosClear x s
  | .losHoldExpiry u => Sys2Proof.Machine.execLosHoldExpiry u s
  | .acqStageDone u scores dgd snr freq sop => Sys2Proof.Machine.execAcqStageDone u scores dgd snr freq sop s
  | .acqStageTimeout u => Sys2Proof.Machine.execAcqStageTimeout u s
  | .equaliserDivergence u => Sys2Proof.Machine.execEqualiserDivergence u s
  | .codewordDecoded u w => Sys2Proof.Machine.execCodewordDecoded u w s
  | .joineryFallback pair => Sys2Proof.Machine.execJoineryFallback pair s
  | .joineryJoin pair => Sys2Proof.Machine.execJoineryJoin pair s
  | .daeSuspend u => Sys2Proof.Machine.execDaeSuspend u s
  | .daeResume u => Sys2Proof.Machine.execDaeResume u s
  | .fullCalibrationDone u tx => Sys2Proof.Machine.execFullCalibrationDone u tx s
  | .calRoundStart u => Sys2Proof.Machine.execCalRoundStart u s
  | .calWindowDone u estimates => Sys2Proof.Machine.execCalWindowDone u estimates s
  | .monCalStep => Sys2Proof.Machine.execMonCalStep s
  | .biasRampStep u ch limited => Sys2Proof.Machine.execBiasRampStep u ch limited s
  | .picInterrupt u highNs => Sys2Proof.Machine.execPicInterrupt u highNs s
  | .calGetParam q => Sys2Proof.Machine.execCalGetParam q s
  | .calSetOverlay q => Sys2Proof.Machine.execCalSetOverlay q s
  | .calSaveRecord q => Sys2Proof.Machine.execCalSaveRecord q s
  | .calRun q => Sys2Proof.Machine.execCalRun q s
  | .calSetPolicy q => Sys2Proof.Machine.execCalSetPolicy q s
  | .calGetStats q => Sys2Proof.Machine.execCalGetStats q s
  | .calSetAnalog q => Sys2Proof.Machine.execCalSetAnalog q s
  | .calSetBias q => Sys2Proof.Machine.execCalSetBias q s
  | .calPicSpi q => Sys2Proof.Machine.execCalPicSpi q s
  | .domainHoldExpiry cls idx => Sys2Proof.Machine.execDomainHoldExpiry cls idx s
  | .domainDemand cls idx => Sys2Proof.Machine.execDomainDemand cls idx s
  | .pllLock pll => Sys2Proof.Machine.execPllLock pll s
  | .domainExitComplete cls idx => Sys2Proof.Machine.execDomainExitComplete cls idx s
  | .coreVoltageEvaluation steps lostMargin => Sys2Proof.Machine.execCoreVoltageEvaluation steps lostMargin s
  | .coreVoltageStep acknowledged pecGood => Sys2Proof.Machine.execCoreVoltageStep acknowledged pecGood s
  | .pmbAlert => Sys2Proof.Machine.execPmbAlert s
  | .fecGetFrameInfo q => Sys2Proof.Machine.execFecGetFrameInfo q s
  | .fecGetCounts q => Sys2Proof.Machine.execFecGetCounts q s
  | .fecSetInject q => Sys2Proof.Machine.execFecSetInject q s
  | .otucnFrameTx u load => Sys2Proof.Machine.execOtucnFrameTx u load s
  | .otucnFrameRx u f => Sys2Proof.Machine.execOtucnFrameRx u f s
  | .oofDeclared u => Sys2Proof.Machine.execOofDeclared u s
  | .oofCleared u => Sys2Proof.Machine.execOofCleared u s
  | .lofDeclared u => Sys2Proof.Machine.execLofDeclared u s
  | .lofCleared u => Sys2Proof.Machine.execLofCleared u s
  | .oomDeclared u => Sys2Proof.Machine.execOomDeclared u s
  | .oomCleared u => Sys2Proof.Machine.execOomCleared u s
  | .lomDeclared u => Sys2Proof.Machine.execLomDeclared u s
  | .lomCleared u => Sys2Proof.Machine.execLomCleared u s
  | .defectPersistence u bit => Sys2Proof.Machine.execDefectPersistence u bit s
  | .apsAccept u => Sys2Proof.Machine.execApsAccept u s
  | .apsInconsistent u => Sys2Proof.Machine.execApsInconsistent u s
  | .ttiAccept u => Sys2Proof.Machine.execTtiAccept u s
  | .psiAccept u => Sys2Proof.Machine.execPsiAccept u s
  | .passedBytesAccept u => Sys2Proof.Machine.execPassedBytesAccept u s
  | .linkTagAccept u => Sys2Proof.Machine.execLinkTagAccept u s
  | .defectEventGather u => Sys2Proof.Machine.execDefectEventGather u s
  | .framerSetTti q => Sys2Proof.Machine.execFramerSetTti q s
  | .framerSetDegrade q => Sys2Proof.Machine.execFramerSetDegrade q s
  | .framerSetAps q => Sys2Proof.Machine.execFramerSetAps q s
  | .framerSetOverhead q => Sys2Proof.Machine.execFramerSetOverhead q s
  | .framerSetMaint q => Sys2Proof.Machine.execFramerSetMaint q s
  | .framerGetStatus q => Sys2Proof.Machine.execFramerGetStatus q s
  | .framerGetOverhead q => Sys2Proof.Machine.execFramerGetOverhead q s
  | .framerGetCounts q => Sys2Proof.Machine.execFramerGetCounts q s
  | .todSecondBoundary => Sys2Proof.Machine.execTodSecondBoundary s
  | .clientFrameRx c data fcsOk fec odd => Sys2Proof.Machine.execClientFrameRx c data fcsOk fec odd s
  | .elasticBufferBlock c egress enters leaves => Sys2Proof.Machine.execElasticBufferBlock c egress enters leaves s
  | .clientLinkChange c link => Sys2Proof.Machine.execClientLinkChange c link s
  | .flexeCalAck g inFrame => Sys2Proof.Machine.execFlexeCalAck g inFrame s
  | .flexeSwitchTimeout g => Sys2Proof.Machine.execFlexeSwitchTimeout g s
  | .gfpFrameRx t f => Sys2Proof.Machine.execGfpFrameRx t f s
  | .clientSetClient q => Sys2Proof.Machine.execClientSetClient q s
  | .clientSetTrib q => Sys2Proof.Machine.execClientSetTrib q s
  | .clientSetFlexe q => Sys2Proof.Machine.execClientSetFlexe q s
  | .clientSetClass q => Sys2Proof.Machine.execClientSetClass q s
  | .clientGetStatus q => Sys2Proof.Machine.execClientGetStatus q s
  | .clientGetCounts q => Sys2Proof.Machine.execClientGetCounts q s
  | .frameSelection p odd => Sys2Proof.Machine.execFrameSelection p odd s
  | .schedParamApply => Sys2Proof.Machine.execSchedParamApply s
  | .gateEntryEnd p => Sys2Proof.Machine.execGateEntryEnd p s
  | .gateListStart p => Sys2Proof.Machine.execGateListStart p s
  | .schedSamplingInstant slice => Sys2Proof.Machine.execSchedSamplingInstant slice s
  | .schedSetSubscriber q => Sys2Proof.Machine.execSchedSetSubscriber q s
  | .schedSetQueue q => Sys2Proof.Machine.execSchedSetQueue q s
  | .schedSetGates q => Sys2Proof.Machine.execSchedSetGates q s
  | .schedGetGates q => Sys2Proof.Machine.execSchedGetGates q s
  | .schedGetQueue q => Sys2Proof.Machine.execSchedGetQueue q s
  | .schedSetSampling q => Sys2Proof.Machine.execSchedSetSampling q s
  | .schedGetCounts q => Sys2Proof.Machine.execSchedGetCounts q s
  | .planerRead stack odd => Sys2Proof.Machine.execPlanerRead stack odd s
  | .clampFlush stack odd => Sys2Proof.Machine.execClampFlush stack odd s
  | .bucketDrain stack => Sys2Proof.Machine.execBucketDrain stack s
  | .ceRateThreshold stack => Sys2Proof.Machine.execCeRateThreshold stack s
  | .retrainStart stack retries => Sys2Proof.Machine.execRetrainStart stack retries s
  | .retrainComplete stack good odd => Sys2Proof.Machine.execRetrainComplete stack good odd s
  | .auditComplete stack poisoned => Sys2Proof.Machine.execAuditComplete stack poisoned s
  | .memorySetPolicy q => Sys2Proof.Machine.execMemorySetPolicy q s
  | .memoryGetStatus q => Sys2Proof.Machine.execMemoryGetStatus q s
  | .memoryGetLog q => Sys2Proof.Machine.execMemoryGetLog q s
  | .memoryRetrain q => Sys2Proof.Machine.execMemoryRetrain q s
  | .memorySetShim q => Sys2Proof.Machine.execMemorySetShim q s
  | .memoryGetCounts q => Sys2Proof.Machine.execMemoryGetCounts q s
  | .twinFrameArrival group copy => Sys2Proof.Machine.execTwinFrameArrival group copy s
  | .twinPlayout group odd errs => Sys2Proof.Machine.execTwinPlayout group odd errs s
  | .mirActInChange level => Sys2Proof.Machine.execMirActInChange level s
  | .mirrorClaimStable => Sys2Proof.Machine.execMirrorClaimStable s
  | .mirrorClaimSample => Sys2Proof.Machine.execMirrorClaimSample s
  | .mirrorTieResample => Sys2Proof.Machine.execMirrorTieResample s
  | .mirrorHoldoffExpiry => Sys2Proof.Machine.execMirrorHoldoffExpiry s
  | .mirrorLosRelease => Sys2Proof.Machine.execMirrorLosRelease s
  | .mirrorReleaseDeassert => Sys2Proof.Machine.execMirrorReleaseDeassert s
  | .braceHeartbeatTx => Sys2Proof.Machine.execBraceHeartbeatTx s
  | .braceHeartbeatRx h => Sys2Proof.Machine.execBraceHeartbeatRx h s
  | .braceLinkDown => Sys2Proof.Machine.execBraceLinkDown s
  | .protectSetTwin q => Sys2Proof.Machine.execProtectSetTwin q s
  | .protectRealign q => Sys2Proof.Machine.execProtectRealign q s
  | .protectSetMirror q => Sys2Proof.Machine.execProtectSetMirror q s
  | .protectClaim q => Sys2Proof.Machine.execProtectClaim q s
  | .protectGetStatus q => Sys2Proof.Machine.execProtectGetStatus q s
  | .protectGetCounts q => Sys2Proof.Machine.execProtectGetCounts q s
  | .rolloverFlip u => Sys2Proof.Machine.execRolloverFlip u s
  | .channelModeApply u dir => Sys2Proof.Machine.execChannelModeApply u dir s
  | .benchRequestExecute => Sys2Proof.Machine.execBenchRequestExecute s
  | .keyLoadExecute => Sys2Proof.Machine.execKeyLoadExecute s
  | .supplyGlitch x => Sys2Proof.Machine.execSupplyGlitch x s
  | .vddIoLoss => Sys2Proof.Machine.execVddIoLoss s
  | .vddIoReturn => Sys2Proof.Machine.execVddIoReturn s
  | .clockGlitch => Sys2Proof.Machine.execClockGlitch s
  | .temperatureExcursion => Sys2Proof.Machine.execTemperatureExcursion s
  | .tamperInAsserted => Sys2Proof.Machine.execTamperInAsserted s
  | .zeroizeNAsserted => Sys2Proof.Machine.execZeroizeNAsserted s
  | .entropyHealthFail => Sys2Proof.Machine.execEntropyHealthFail s
  | .securitySetOwnerRoot q => Sys2Proof.Machine.execSecuritySetOwnerRoot q s
  | .securitySetOwnerRecord q => Sys2Proof.Machine.execSecuritySetOwnerRecord q s
  | .securityLoadKek q => Sys2Proof.Machine.execSecurityLoadKek q s
  | .securityLoadKey q => Sys2Proof.Machine.execSecurityLoadKey q s
  | .securityEraseKey q => Sys2Proof.Machine.execSecurityEraseKey q s
  | .securitySetChannel q => Sys2Proof.Machine.execSecuritySetChannel q s
  | .securityRollover q => Sys2Proof.Machine.execSecurityRollover q s
  | .securityBench q => Sys2Proof.Machine.execSecurityBench q s
  | .securitySetPolicy q => Sys2Proof.Machine.execSecuritySetPolicy q s
  | .securityClearAlarm q => Sys2Proof.Machine.execSecurityClearAlarm q s
  | .securityAttest q => Sys2Proof.Machine.execSecurityAttest q s
  | .securityGetCert q => Sys2Proof.Machine.execSecurityGetCert q s
  | .securityGetStatus q => Sys2Proof.Machine.execSecurityGetStatus q s
  | .securityGetSlots q => Sys2Proof.Machine.execSecurityGetSlots q s
  | .securityGetCounts q => Sys2Proof.Machine.execSecurityGetCounts q s
  | .refMeasurement f phase => Sys2Proof.Machine.execRefMeasurement f phase s
  | .refAbsence ref => Sys2Proof.Machine.execRefAbsence ref s
  | .refDisqualified source => Sys2Proof.Machine.execRefDisqualified source s
  | .refRequalified source => Sys2Proof.Machine.execRefRequalified source s
  | .refSelChange v => Sys2Proof.Machine.execRefSelChange v s
  | .lockTestMet => Sys2Proof.Machine.execLockTestMet s
  | .dcoUpdate loop => Sys2Proof.Machine.execDcoUpdate loop s
  | .ppsInEdge highNs sinceNs lateNs => Sys2Proof.Machine.execPpsInEdge highNs sinceNs lateNs s
  | .todMode2Expiry => Sys2Proof.Machine.execTodMode2Expiry s
  | .todSlewEnd => Sys2Proof.Machine.execTodSlewEnd s
  | .ppsOutPulse => Sys2Proof.Machine.execPpsOutPulse s
  | .frameOutPulse => Sys2Proof.Machine.execFrameOutPulse s
  | .timingSetRefs q => Sys2Proof.Machine.execTimingSetRefs q s
  | .timingSetLoop q => Sys2Proof.Machine.execTimingSetLoop q s
  | .timingSetDco q => Sys2Proof.Machine.execTimingSetDco q s
  | .timingSetTod q => Sys2Proof.Machine.execTimingSetTod q s
  | .timingSetOutputs q => Sys2Proof.Machine.execTimingSetOutputs q s
  | .timingRealign q => Sys2Proof.Machine.execTimingRealign q s
  | .timingGetStatus q => Sys2Proof.Machine.execTimingGetStatus q s
  | .monRefSettled conv => Sys2Proof.Machine.execMonRefSettled conv s
  | .monConverterApply conv => Sys2Proof.Machine.execMonConverterApply conv s
  | .monValueComplete q vref v => Sys2Proof.Machine.execMonValueComplete q vref v s
  | .monPassEnd q => Sys2Proof.Machine.execMonPassEnd q s
  | .monTriggerTimer q => Sys2Proof.Machine.execMonTriggerTimer q s
  | .monLatchedTriggerStart q => Sys2Proof.Machine.execMonLatchedTriggerStart q s
  | .monInjectComplete conv vref v => Sys2Proof.Machine.execMonInjectComplete conv vref v s
  | .decimOutput c => Sys2Proof.Machine.execDecimOutput c s
  | .decimSettled c => Sys2Proof.Machine.execDecimSettled c s
  | .monitorSetConverter q => Sys2Proof.Machine.execMonitorSetConverter q s
  | .monitorSetSequence q => Sys2Proof.Machine.execMonitorSetSequence q s
  | .monitorSetDecim q => Sys2Proof.Machine.execMonitorSetDecim q s
  | .monitorSetAccum q => Sys2Proof.Machine.execMonitorSetAccum q s
  | .monitorTrigger q => Sys2Proof.Machine.execMonitorTrigger q s
  | .monitorInject q => Sys2Proof.Machine.execMonitorInject q s
  | .monitorReadSlots q => Sys2Proof.Machine.execMonitorReadSlots q s
  | .monitorReadTrackers q => Sys2Proof.Machine.execMonitorReadTrackers q s
  | .monitorGetStatus q => Sys2Proof.Machine.execMonitorGetStatus q s
  | .streamDataTx vc => Sys2Proof.Machine.execStreamDataTx vc s
  | .streamMessageRx crcOk m => Sys2Proof.Machine.execStreamMessageRx crcOk m s
  | .streamLinkControlTx => Sys2Proof.Machine.execStreamLinkControlTx s
  | .streamReplayTimeout => Sys2Proof.Machine.execStreamReplayTimeout s
  | .streamRetrain => Sys2Proof.Machine.execStreamRetrain s
  | .countersSetUnit q => Sys2Proof.Machine.execCountersSetUnit q s
  | .countersRead q => Sys2Proof.Machine.execCountersRead q s
  | .countersClear q => Sys2Proof.Machine.execCountersClear q s
  | .countersSetTrace q => Sys2Proof.Machine.execCountersSetTrace q s
  | .countersSetTags q => Sys2Proof.Machine.execCountersSetTags q s
  | .countersSetStream q => Sys2Proof.Machine.execCountersSetStream q s
  | .countersGetStream q => Sys2Proof.Machine.execCountersGetStream q s
  | .tenonMessageRx p crcOk m => Sys2Proof.Machine.execTenonMessageRx p crcOk m s
  | .tenonDataTx p vc => Sys2Proof.Machine.execTenonDataTx p vc s
  | .tenonLinkControlTx p => Sys2Proof.Machine.execTenonLinkControlTx p s
  | .tenonLinkControlRx p crcOk k => Sys2Proof.Machine.execTenonLinkControlRx p crcOk k s
  | .tenonReplayTimeout p => Sys2Proof.Machine.execTenonReplayTimeout p s
  | .tenonWakeBurst p => Sys2Proof.Machine.execTenonWakeBurst p s
  | .tenonAlignmentLoss p => Sys2Proof.Machine.execTenonAlignmentLoss p s
  | .tenonRetrainTimeout p => Sys2Proof.Machine.execTenonRetrainTimeout p s
  | .tenonDownRetry p => Sys2Proof.Machine.execTenonDownRetry p s
  | .tenonHelloRx p h => Sys2Proof.Machine.execTenonHelloRx p h s
  | .tenonAuthRx p a => Sys2Proof.Machine.execTenonAuthRx p a s
  | .mapSend level observed => Sys2Proof.Machine.execMapSend level observed s
  | .mapRx p map => Sys2Proof.Machine.execMapRx p map s
  | .fenceReturn level => Sys2Proof.Machine.execFenceReturn level s
  | .fenceTimeout level => Sys2Proof.Machine.execFenceTimeout level s
  | .managerTakeover => Sys2Proof.Machine.execManagerTakeover s
  | .collationClose entry => Sys2Proof.Machine.execCollationClose entry s
  | .distributionTimeout => Sys2Proof.Machine.execDistributionTimeout s
  | .domainSetPort q => Sys2Proof.Machine.execDomainSetPort q s
  | .domainGetPorts q => Sys2Proof.Machine.execDomainGetPorts q s
  | .domainGetTopology q => Sys2Proof.Machine.execDomainGetTopology q s
  | .domainSetFloor q => Sys2Proof.Machine.execDomainSetFloor q s
  | .domainSetManager q => Sys2Proof.Machine.execDomainSetManager q s
  | .domainDistribute q => Sys2Proof.Machine.execDomainDistribute q s
  | .domainGetDist q => Sys2Proof.Machine.execDomainGetDist q s
  | .domainFreePosition q => Sys2Proof.Machine.execDomainFreePosition q s
  | .firmwareGetInfo q => Sys2Proof.Machine.execFirmwareGetInfo q s
  | .firmwareStageBegin q => Sys2Proof.Machine.execFirmwareStageBegin q s
  | .firmwareStageWrite q => Sys2Proof.Machine.execFirmwareStageWrite q s
  | .firmwareStageVerify q => Sys2Proof.Machine.execFirmwareStageVerify q s
  | .firmwareActivate q => Sys2Proof.Machine.execFirmwareActivate q s
  | .firmwareCommit q => Sys2Proof.Machine.execFirmwareCommit q s
  | .firmwareRollback q => Sys2Proof.Machine.execFirmwareRollback q s
  | .sessionOpen q => Sys2Proof.Machine.execSessionOpen q s
  | .sessionAuth q => Sys2Proof.Machine.execSessionAuth q s
  | .sessionClose q => Sys2Proof.Machine.execSessionClose q s
  | .sessionGrantCounters q => Sys2Proof.Machine.execSessionGrantCounters q s
  | .sessionGetInfo q => Sys2Proof.Machine.execSessionGetInfo q s
  | .sessionSetEvents q => Sys2Proof.Machine.execSessionSetEvents q s
  | .junctionExceeds105c => Sys2Proof.Machine.execJunctionExceeds105c s
  | .shaperCreditReachesZero p => Sys2Proof.Machine.execShaperCreditReachesZero p s
  | .entropyHealthRestored => Sys2Proof.Machine.execEntropyHealthRestored s
  | .tamperInDeasserted => Sys2Proof.Machine.execTamperInDeasserted s
  | .zeroizeNDeasserted => Sys2Proof.Machine.execZeroizeNDeasserted s
  | .refPresenceRestored ref => Sys2Proof.Machine.execRefPresenceRestored ref s
  | .braceHeartbeatMissed => Sys2Proof.Machine.execBraceHeartbeatMissed s
  | .scribeWordAlignmentGained port => Sys2Proof.Machine.execScribeWordAlignmentGained port s
  | .watchdogStrobe => Sys2Proof.Machine.execWatchdogStrobe s

end Sys2Proof.Machine
end

