-- ==== Sys2Proof/Machine/Requests.lean ====
section
/-! DEFINITION. Which command of the table a Jenux opcode is (R519), for packets that waited in a receive buffer (R111, R125). -/

namespace Sys2Proof.Machine

/-- The SYSTEM family. -/
def systemCommands : List (Nat × (Request → State → Reply)) := [
  (0x0101, systemGetIdentity),
  (0x0102, systemReset),
  (0x0103, systemGetDebugChallenge),
  (0x0104, systemDebugUnlock),
  (0x0105, systemGetEvents)]

/-- The POWER family. -/
def powerCommands : List (Nat × (Request → State → Reply)) := [
  (0x0201, powerSetTolerance),
  (0x0202, powerGetState),
  (0x0203, powerGetPower),
  (0x0204, powerSetRegulator)]

/-- The CARRIER family. -/
def carrierCommands : List (Nat × (Request → State → Reply)) := [
  (0x0301, carrierSetFormat),
  (0x0302, carrierSetPath),
  (0x0303, carrierSetDsp),
  (0x0304, carrierSetSpectralOrder),
  (0x0305, carrierGetStatus),
  (0x0306, carrierReacquire),
  (0x0307, carrierGetConfig)]

/-- The FEC family. -/
def fecCommands : List (Nat × (Request → State → Reply)) := [
  (0x0401, fecGetFrameInfo),
  (0x0402, fecGetCounts),
  (0x0403, fecSetInject)]

/-- The FRAMER family. -/
def framerCommands : List (Nat × (Request → State → Reply)) := [
  (0x0501, framerSetTti),
  (0x0502, framerSetDegrade),
  (0x0503, framerSetAps),
  (0x0504, framerSetOverhead),
  (0x0505, framerSetMaint),
  (0x0506, framerGetStatus),
  (0x0507, framerGetOverhead),
  (0x0508, framerGetCounts)]

/-- The CLIENT family. -/
def clientCommands : List (Nat × (Request → State → Reply)) := [
  (0x0601, clientSetClient),
  (0x0602, clientSetTrib),
  (0x0603, clientSetFlexe),
  (0x0604, clientSetClass),
  (0x0605, clientGetStatus),
  (0x0606, clientGetCounts)]

/-- The SCHED family. -/
def schedCommands : List (Nat × (Request → State → Reply)) := [
  (0x0701, schedSetSubscriber),
  (0x0702, schedSetQueue),
  (0x0703, schedSetGates),
  (0x0704, schedGetGates),
  (0x0705, schedGetQueue),
  (0x0706, schedSetSampling),
  (0x0707, schedGetCounts)]

/-- The MEMORY family. -/
def memoryCommands : List (Nat × (Request → State → Reply)) := [
  (0x0801, memorySetPolicy),
  (0x0802, memoryGetStatus),
  (0x0803, memoryGetLog),
  (0x0804, memoryRetrain),
  (0x0805, memorySetShim),
  (0x0806, memoryGetCounts)]

/-- The SECURITY family. -/
def securityCommands : List (Nat × (Request → State → Reply)) := [
  (0x0901, securitySetOwnerRoot),
  (0x0902, securitySetOwnerRecord),
  (0x0903, securityLoadKek),
  (0x0904, securityLoadKey),
  (0x0905, securityEraseKey),
  (0x0906, securitySetChannel),
  (0x0907, securityRollover),
  (0x0908, securityBench),
  (0x0909, securitySetPolicy),
  (0x090A, securityClearAlarm),
  (0x090B, securityAttest),
  (0x090C, securityGetCert),
  (0x090D, securityGetStatus),
  (0x090E, securityGetSlots),
  (0x090F, securityGetCounts)]

/-- The TIMING family. -/
def timingCommands : List (Nat × (Request → State → Reply)) := [
  (0x0A01, timingSetRefs),
  (0x0A02, timingSetLoop),
  (0x0A03, timingSetDco),
  (0x0A04, timingSetTod),
  (0x0A05, timingSetOutputs),
  (0x0A06, timingRealign),
  (0x0A07, timingGetStatus)]

/-- The CAL family. -/
def calCommands : List (Nat × (Request → State → Reply)) := [
  (0x0B01, calGetParam),
  (0x0B02, calSetOverlay),
  (0x0B03, calSaveRecord),
  (0x0B04, calRun),
  (0x0B05, calSetPolicy),
  (0x0B06, calGetStats),
  (0x0B07, calSetAnalog),
  (0x0B08, calSetBias),
  (0x0B09, calPicSpi)]

/-- The MONITOR family. -/
def monitorCommands : List (Nat × (Request → State → Reply)) := [
  (0x0C01, monitorSetConverter),
  (0x0C02, monitorSetSequence),
  (0x0C03, monitorSetDecim),
  (0x0C04, monitorSetAccum),
  (0x0C05, monitorTrigger),
  (0x0C06, monitorInject),
  (0x0C07, monitorReadSlots),
  (0x0C08, monitorReadTrackers),
  (0x0C09, monitorGetStatus)]

/-- The COUNTERS family. -/
def countersCommands : List (Nat × (Request → State → Reply)) := [
  (0x0D01, countersSetUnit),
  (0x0D02, countersRead),
  (0x0D03, countersClear),
  (0x0D04, countersSetTrace),
  (0x0D05, countersSetTags),
  (0x0D06, countersSetStream),
  (0x0D07, countersGetStream)]

/-- The DOMAIN family. -/
def domainCommands : List (Nat × (Request → State → Reply)) := [
  (0x0E01, domainSetPort),
  (0x0E02, domainGetPorts),
  (0x0E03, domainGetTopology),
  (0x0E04, domainSetFloor),
  (0x0E05, domainSetManager),
  (0x0E06, domainDistribute),
  (0x0E07, domainGetDist),
  (0x0E08, domainFreePosition)]

/-- The PROTECT family. -/
def protectCommands : List (Nat × (Request → State → Reply)) := [
  (0x0F01, protectSetTwin),
  (0x0F02, protectRealign),
  (0x0F03, protectSetMirror),
  (0x0F04, protectClaim),
  (0x0F05, protectGetStatus),
  (0x0F06, protectGetCounts)]

/-- The FIRMWARE family. -/
def firmwareCommands : List (Nat × (Request → State → Reply)) := [
  (0x1001, firmwareGetInfo),
  (0x1002, firmwareStageBegin),
  (0x1003, firmwareStageWrite),
  (0x1004, firmwareStageVerify),
  (0x1005, firmwareActivate),
  (0x1006, firmwareCommit),
  (0x1007, firmwareRollback)]

/-- The SESSION family. -/
def sessionCommands : List (Nat × (Request → State → Reply)) := [
  (0x1101, sessionOpen),
  (0x1102, sessionAuth),
  (0x1103, sessionClose),
  (0x1104, sessionGrantCounters),
  (0x1105, sessionGetInfo),
  (0x1106, sessionSetEvents)]

/-- Every opcode with its meaning. -/
def requestCommands : List (Nat × (Request → State → Reply)) :=
  systemCommands ++ powerCommands ++ carrierCommands ++ fecCommands ++ framerCommands ++ clientCommands ++ schedCommands ++ memoryCommands ++ securityCommands ++ timingCommands ++ calCommands ++ monitorCommands ++ countersCommands ++ domainCommands ++ protectCommands ++ firmwareCommands ++ sessionCommands

/-- What a request that Salurn takes out of its buffer does: checks 1 to 14, then its command (R116); an opcode of no command does
nothing. -/
def runRequest (code : Nat) (q : Request) (s : State) : State :=
  match requestCommands.find? (fun e => e.1 == code) with
  | some e => checks (opOf code) q e.2 s
  | none => s

end Sys2Proof.Machine
end

