-- ==== Sys2Proof/Machine/Idle.lean ====
section
/-! DEFINITION. What the device does when no command waits: a SILL_CLK cycle passes, and Salurn takes the next packet out of a
receive buffer (log entry 1). -/

namespace Sys2Proof.Machine

/-- Hub cycles in a SILL_CLK cycle of 40 ns. -/
def cyclesPerSillClk : Nat := 64

/-- A message waits only for credit: the replay buffer has room for it, the credit does not allow it. -/
def Credit.starves (c : Credit) (room : Nat) (m : Message) : Bool :=
  !c.allows m.vc (messageCells m) && decide (c.replayCells + messageCells m ≤ room)

/-- PM_SP_CREDIT_STALL and PM_TN_CREDIT_STALL over one SILL_CLK cycle (R462, R496). -/
def creditStalls (s : State) : State :=
  let s := if s.streamRuns && s.stream.state == 2 && s.streamWaiting.any (s.stream.credit.starves 256) then
    bump pmDevice 0 6 cyclesPerSillClk s else s
  forEach (List.range 8) (fun p s =>
    if s.tenonUp p && (s.tenonWaiting p).any ((s.tenon p).credit.starves 512) then bump pmTenon p 38 cyclesPerSillClk s else s) s

/-- One SILL_CLK cycle: the time bus (R410), and what counts ticks and hub cycles. The W1C bits and the key slots that the cycle's
hardware sets and erases are no longer of the cycle that runs (R7, R21). -/
def idleCycle (s : State) : State :=
  if !s.sill.on then s else
    let t := modSecurity (fun c => { c with erasedNow := [] }) (modSill (fun x => { x with setNow := [] }) (sillClock s))
    creditStalls (gateWaits ((t.localNs - s.localNs) / 8) t)

/-- A packet that Salurn takes out of its buffer has its effect: as one that fails a check, or as its opcode's request. -/
def runPacket (r : RxItem) (s : State) : State :=
  match rawChecks r.bytes r.count with
  | some f => rejectRaw r.port r.origin r.bytes f s
  | none => runRequest (parsePacket r.bytes).opcode.toNat r.request s

/-- Journal a command as RECORDED: nothing of it has executed (R131, R133). -/
def recordPacket (r : RxItem) (s : State) : State :=
  modControl (fun c => { c with
    journal := c.journal ++ [{ newEntry c.nextEntry (parsePacket r.bytes).opcode.toNat r.request .none .recorded with request := some r }]
    nextEntry := c.nextEntry + 1 }) s

/-- Salurn executes the command that is RECORDED: its entry is made again as the command is carried out, and a command that can no
longer be carried out leaves none. -/
def executeRecorded (e : Entry) (r : RxItem) (s : State) : State :=
  runPacket r (modControl (fun c => { c with journal := c.journal.filter (fun x => x.id != e.id), nextEntry := e.id }) s)

/-- What Salurn does with packet `i` of its buffers: a command that is journaled is RECORDED first and executes with the next step;
anything else has its effect at once (R125, R131). -/
def servePacket (i : Nat) (r : RxItem) (s : State) : State :=
  let t := takeAt i s
  let u := runPacket r t
  if u.control.nextEntry = t.control.nextEntry then u else recordPacket r t

/-- What Salurn does: the command that is RECORDED, else the packet it takes next. -/
def salurnTurn (s : State) : State :=
  match s.recorded with
  | some e => match e.request with
    | some r => if s.salurnRuns && s.control.ready then executeRecorded e r s else s
    | none => s
  | none => match s.nextIndex with
    | some i => match s.control.rx[i]? with
      | some r => servePacket i r s
      | none => s
    | none => s

/-- What the device does on its own: a SILL_CLK cycle, the demands, the carrier units without a frame boundary and the links that follow from what it holds, the session closes and
the restarts that waited, and Salurn's turn. -/
def idle (s : State) : Result := .next (salurnTurn (settleIntake (settleClosings (settleLinks (settleUnits (settleDemands (idleCycle s)))))))

end Sys2Proof.Machine
end

