-- ==== Sys2Proof/Machine/Step.lean ====
section
/-! DEFINITION. One step of the block: the command at the front of the queue, or, where none waits, a SILL_CLK cycle of the device
(log entry 1). -/

namespace Sys2Proof.Machine

/-- The step: on an empty queue time passes, and Salurn takes a packet that waits for it. -/
def step (s : State) : Host.Outcome State Fault Refusal :=
  match s.pending with
  | i :: rest => exec i { s with pending := rest }
  | [] => idle s

/-- The command that a word spells goes to the front of the queue; the table gives no command bits, so no word spells one and the
queue stays as it is. -/
def State.withFetchWord (s : State) (nbits w : Nat) : State :=
  match decodeTableWord nbits w with
  | some i => { s with pending := i :: s.pending }
  | none => s

end Sys2Proof.Machine
end

