-- ==== Sys2Proof/Safety.lean ====
section
/-! DEFINITION. The terms in which claims speak: the parts of the state and what a command leaves as it was, the canonical form of
flash, fuses that only blow, and what it is for a request to be taken and carried out. -/

namespace Sys2Proof.Machine

/-! Frames. -/

/-- The parts of the state, each a field of `State`. -/
inductive Part where
  | pins | sill | power | otp | flash | fw | control | counters | stream | domain | cal | elements | carrier | joinery | framer
  | client | sched | memory | protect | security | timing | monitor | localNs | fresh | pending
  deriving DecidableEq, Repr

/-- A part is the same in two states. -/
def Part.same (p : Part) (s t : State) : Prop :=
  match p with
  | .pins => t.pins = s.pins | .sill => t.sill = s.sill | .power => t.power = s.power | .otp => t.otp = s.otp
  | .flash => t.flash = s.flash | .fw => t.fw = s.fw | .control => t.control = s.control | .counters => t.counters = s.counters
  | .stream => t.stream = s.stream | .domain => t.domain = s.domain | .cal => t.cal = s.cal | .elements => t.elements = s.elements
  | .carrier => t.carrier = s.carrier | .joinery => t.joinery = s.joinery | .framer => t.framer = s.framer
  | .client => t.client = s.client | .sched => t.sched = s.sched | .memory => t.memory = s.memory | .protect => t.protect = s.protect
  | .security => t.security = s.security | .timing => t.timing = s.timing | .monitor => t.monitor = s.monitor
  | .localNs => t.localNs = s.localNs | .fresh => t.fresh = s.fresh | .pending => t.pending = s.pending

/-- From `s` to `t` only the parts listed may change. -/
def OnlyChanges (ps : List Part) (s t : State) : Prop := ∀ p, ps.contains p = false → p.same s t

/-- A command's own part, whatever it answers, changes only the parts listed. -/
def ReplyChanges (ps : List Part) (s : State) (r : Reply) : Prop :=
  match r with
  | .reject _ _ t => OnlyChanges ps s t
  | .done _ _ t next => OnlyChanges ps s t ∧ ∀ u, OnlyChanges ps u (next u)
  | .later _ t => OnlyChanges ps s t

/-- A command answers a next state, in which only the parts listed may differ. -/
def ResultChanges (ps : List Part) (s : State) (r : Result) : Prop := ∃ t, r = .next t ∧ OnlyChanges ps s t

/-- Answering a request changes only these parts of the state: buffers, queues, sessions, the journal, the digest, the counts and
the sill's error bits. -/
def replyParts : List Part := [.sill, .control, .counters, .stream, .domain, .security]

/-! Requests. -/

/-- The packet of a request is taken out of the receive buffer where it waits; a packet that has just arrived waits nowhere. -/
def arrived (code : Nat) (q : Request) (s : State) : State :=
  match s.namesNext q.port (packetBytes (requestPacket code q)) with
  | some (i, _) => takeAt i s
  | none => s

/-- Salurn or the ROM takes a request of the control port now: it is the packet that is taken next, or it finds a buffer free, repeats
nothing, and nothing that could be taken waits before it (R108, R111, R124, R125). -/
def takenNow (code : Nat) (q : Request) (s : State) : Bool :=
  q.port == .control && s.portLives &&
    match s.namesNext q.port (packetBytes (requestPacket code q)) with
    | some (_, r) => r.origin == q.origin && r.originRole == q.originRole
    | none => !s.rxFull q.port && !s.repeats (opOf code) q && s.goesFirst q

/-- FLAGS, TARGET, LENGTH and VERSION are those of a plain request of an opcode to this device (checks 2 to 6). -/
def plainRequest (code : Nat) (q : Request) : Bool :=
  q.flags == 1 && q.target == 0 && q.payload.length % 4 == 0 && decide ((opOf code).lo ≤ q.payload.length / 4) &&
    decide (q.payload.length / 4 ≤ (opOf code).hi) && decide ((opOf code).since ≤ q.version.toNat) && decide (q.version.toNat ≤ 0x24)

/-- A request passes checks 1 to 11 of R116 in a state: it comes by the control port and is taken now; its FLAGS are those of a plain
request to this device; LENGTH and VERSION are its opcode's; and its open session, whose role the opcode accepts and which no close
awaits, sends it next. -/
def taken (code : Nat) (q : Request) (s : State) : Bool :=
  takenNow code q s && plainRequest code q && q.session != 0 &&
    match (arrived code q s).session q.session.toNat with
    | some x => x.awaiting.isNone && x.version == q.version && !x.closing.any (fun c => c.2 == 0) && x.nextSeq == q.seq &&
        decide (x.role.code ≤ neededRole (opOf code) q x.grants s)
    | none => false

/-- A request of session 0 passes checks 1 to 11: as `taken`, but its opcode is one that session 0 may send (R118). -/
def takenWithoutSession (code : Nat) (q : Request) (s : State) : Bool :=
  takenNow code q s && plainRequest code q && q.session == 0 && sessionless s code

/-- The state once a request of session 0 is taken: its packet has left the receive buffer if it waited there. -/
def received (code : Nat) (q : Request) (s : State) : State := arrived code q s

/-- The state once a request is taken: its packet has left the receive buffer if it waited there, and its session expects the next
SEQUENCE. -/
def admitted (code : Nat) (q : Request) (s : State) : State := advanceSeq q (arrived code q s)

/-- The state once a GET has been answered from a state: the reply queued and kept, nothing journaled (R126, R131). -/
def got (code : Nat) (q : Request) (payload : List Byte) (s : State) : State :=
  answerKept code q .ok payload none (bump pmDevice 0 8 1 s)

/-- The state once any other command has executed: journaled DONE, in the digest of R394, its reply queued and kept (R126, R131). -/
def carriedOut (code : Nat) (q : Request) (st : Status) (payload : List Byte) (s : State) : State :=
  answerKept code q st payload (some s.control.nextEntry)
    (digestCommand code q.u st (Config.sha512 q.payload) (journal code q .none .done (bump pmDevice 0 8 1 s)))

/-- The state once a command whose reply comes later has been journaled APPLYING with its undo record (R131). -/
def begun (code : Nat) (q : Request) (undo : Undo) (s : State) : State := bump pmDevice 0 8 1 (journal code q undo .applying s)

/-- The state once a command is refused with a status by check 12 or 13: answered, nothing journaled (R116). -/
def refused (code : Nat) (q : Request) (st : Status) (payload : List Byte) (s : State) : State := answerKept code q st payload none s

/-- A domain serves a command in time: in P0, within the command's own bound from P1 and P2, or not enabled at all (R63). -/
def State.serves (s : State) (cls idx : Nat) : Bool := !s.enabled cls idx || decide ((s.dom cls idx).state ≤ 2)

/-- The state in which a request that needs a scheduler slice is carried out: taken, the slice awake, the idle ports having chosen. -/
def withSlice (code k : Nat) (q : Request) (s : State) : State := selectAll (needDomain 9 k (admitted code q s)).2

/-- The same of DRAM stacks. -/
def withStacks (code : Nat) (ks : List Nat) (q : Request) (s : State) : State :=
  selectAll (ks.foldl (fun t k => (needDomain 4 k t).2) (admitted code q s))

/-! Events. -/

/-- Code, UNIT and payload of the event raised last, as the history holds it (R512). -/
def lastEvent (s : State) : Option (Nat × Nat × List Byte) := s.control.history.getLast?.map (fun e => (e.code, e.unit, e.payload))

/-! Staged images and keys. -/

/-- What FIRMWARE.STAGE_VERIFY finds of a staging whose last byte is written: the FAIL_CODE of R91, or nothing. -/
def stagedCheck (s : State) (g : Staging) : Option Nat :=
  let h := stagedBytes s g 0 352
  (checkHeader s h).orElse (fun _ =>
    if u32 h 16 + 0x1000 ≠ g.length then some 0x04 else checkBody h (stagedBytes s g 0x1000 (u32 h 16)))

/-- The debug token of a SYSTEM.DEBUG_UNLOCK holds: serial, nonce and signature (R95). -/
def debugTokenHolds (q : Request) (s : State) : Bool :=
  bytesAt q.payload 12 16 == s.serial && s.fw.debugNonce == some (bytesAt q.payload 28 32) &&
    match debugKey s (q.b 1) with
    | some k => Config.ecdsaVerify k (q.payload.take 60) (bytesAt q.payload 60 66) (bytesAt q.payload 126 66)
    | none => false

/-- The signature of a SESSION.AUTH holds for a session that awaits it (R120). -/
def authHolds (q : Request) (x : Session) (nonce : List Byte) (s : State) : Bool :=
  decide ((s.hostKey x.keySlot).rank ≠ 0) && decide ((s.hostKey x.keySlot).rank ≤ x.role.code) &&
    Config.ecdsaVerify (s.hostKey x.keySlot).pub (authMessage s x nonce) (bytesAt q.payload 4 66) (bytesAt q.payload 70 66)

/-- An alarm cause has fired from `s` to `t`: it is LAST_CAUSE; from action 1 the alarm state stands; from action 2 no slot holds a key, and
at action 3 no KEK is held; EV_SEC_ALARM says the cause and the action, at once or when Salurn next runs (R391, R392). -/
structure Fired (cause : Nat) (s t : State) : Prop where
  last : t.sill.lastCause = cause
  stands : t.sill.secAlarm = (s.sill.secAlarm || decide (1 ≤ s.alarmAction cause))
  slots : s.alarmAction cause = 2 ∨ s.alarmAction cause = 3 → ∀ i, (t.slot i).state ≠ 1
  keks : s.alarmAction cause = 3 → t.security.keks = []
  event : s.salurnRuns = true → lastEvent t = some (0x0901, 0, be 1 cause ++ be 1 (s.alarmAction cause) ++ zeros 2)
  waits : s.salurnRuns = false → t.security.deferred = some (cause, s.alarmAction cause)

/-! Flash and fuses. -/

/-- Flash is in its canonical form: rising addresses, and no byte listed that reads 0xFF. -/
abbrev flashWf (s : State) : Prop := tblWf 0xFF s.flash = true

/-- What a command may do to fuses and flash: no fuse is ever unblown, and flash keeps its canonical form (R92, R376). -/
structure Lasting (s t : State) : Prop where
  serial : t.otp.serial = s.otp.serial
  floor : s.otp.floor ≤ t.otp.floor
  firmwareKeys : ∀ k, s.otp.fwRevoked.testBit k = true → t.otp.fwRevoked.testBit k = true
  ownerKeys : ∀ k, s.otp.ownerRevoked.testBit k = true → t.otp.ownerRevoked.testBit k = true
  ownerRoots : ∀ k, tblGet [] s.otp.ownerRoots k ≠ [] → tblGet [] t.otp.ownerRoots k = tblGet [] s.otp.ownerRoots k
  flash : flashWf s → flashWf t

/-! What each command may change. -/

/-- The parts of the state a command may change; whatever it does, the others stay as they were. -/
def commandParts (i : Instr) : List Part :=
  match i with
  | .sillPowerOn => [.pins, .sill, .power, .fw, .control, .counters, .stream, .domain, .cal, .elements, .carrier, .joinery, .framer, .client, .sched, .memory, .protect, .security, .timing, .monitor]
  | .sillPowerLoss => [.pins, .sill, .power, .fw, .control, .counters, .stream, .domain, .cal, .elements, .carrier, .joinery, .framer, .client, .sched, .memory, .protect, .security, .timing, .monitor]
  | .supplyHold _ => [.pins, .sill, .power, .fw, .control, .counters, .stream, .domain, .cal, .elements, .carrier, .joinery, .framer, .client, .sched, .memory, .protect, .security, .timing, .monitor]
  | .sequenceFault _ => [.pins, .sill, .power, .fw, .control, .counters, .stream, .domain, .cal, .elements, .carrier, .joinery, .framer, .client, .sched, .memory, .protect, .security, .timing, .monitor]
  | .hubPowerLoss => [.pins, .sill, .power, .fw, .control, .counters, .stream, .domain, .cal, .elements, .carrier, .joinery, .framer, .client, .sched, .memory, .protect, .security, .timing, .monitor]
  | .suppliesValid => [.pins, .sill, .control, .counters, .stream, .domain, .security, .timing]
  | .resetNFall => [.pins, .sill, .power, .fw, .control, .counters, .stream, .domain, .cal, .elements, .carrier, .joinery, .framer, .client, .sched, .memory, .protect, .security, .timing, .monitor]
  | .resetNRise => [.pins, .sill]
  | .strapWindow _ => [.pins, .sill, .power, .fw, .domain]
  | .strapFault => [.sill]
  | .bankCheck => [.sill, .fw, .control, .counters, .stream, .domain, .cal, .elements, .carrier, .security]
  | .salurnInitDone _ => [.sill, .power, .fw, .control, .counters, .stream, .domain, .cal, .elements, .carrier, .client, .security, .timing]
  | .sillReset _ => [.pins, .sill, .power, .fw, .control, .counters, .stream, .domain, .cal, .elements, .carrier, .joinery, .framer, .client, .sched, .memory, .protect, .security, .timing, .monitor, .fresh]
  | .hubResetByRegister _ => [.pins, .sill, .power, .fw, .control, .counters, .stream, .domain, .cal, .elements, .carrier, .joinery, .framer, .client, .sched, .memory, .protect, .security, .timing, .monitor, .fresh]
  | .mpRestartByRegister _ => [.pins, .sill, .power, .fw, .control, .counters, .stream, .domain, .cal, .elements, .carrier, .joinery, .framer, .client, .sched, .memory, .protect, .security, .timing, .monitor, .fresh]
  | .cuRestartByRegister _ => [.pins, .sill, .power, .fw, .control, .counters, .stream, .domain, .cal, .elements, .carrier, .joinery, .framer, .client, .sched, .memory, .protect, .security, .timing, .monitor, .fresh]
  | .sillRegisterWrite _ _ => [.pins, .sill, .power, .fw, .control, .counters, .stream, .domain, .cal, .elements, .carrier, .joinery, .framer, .client, .sched, .memory, .protect, .security, .timing, .monitor, .fresh]
  | .watchdogExpiry => [.sill, .fw, .control, .counters, .protect]
  | .lockstepMismatch => [.sill, .fw, .control, .counters, .protect]
  | .mpRestartComplete => [.sill, .fw, .control, .counters, .stream, .domain, .cal, .elements, .sched, .protect, .security, .monitor]
  | .trialTimeout => [.sill, .fw, .control, .counters, .protect]
  | .activationEpoch => [.sill, .fw, .control, .counters, .protect]
  | .debugUnlockExpiry => [.sill]
  | .debugNonceExpiry => [.fw]
  | .jtagInstructionLoad _ => [.pins, .sill, .power, .control, .counters, .cal, .elements, .carrier, .client, .protect, .fresh]
  | .cpPushPacket _ => [.pins, .sill, .control]
  | .cpPull _ => [.pins, .sill, .control]
  | .cpInvalidTransaction _ => [.pins]
  | .malformedPacket _ _ _ => [.sill, .control, .stream, .domain]
  | .packetForward _ _ => [.sill, .control, .stream, .domain]
  | .eventToOutgoingQueue => [.sill, .control, .counters]
  | .eventsLostQueued _ => [.sill, .control, .counters]
  | .sessionIdleExpiry _ => [.sill, .control, .counters]
  | .sessionAuthExpiry _ => [.sill, .control, .counters]
  | .systemResetExecute => [.pins, .sill, .power, .fw, .control, .counters, .stream, .domain, .cal, .elements, .carrier, .joinery, .framer, .client, .sched, .memory, .protect, .security, .timing, .monitor, .fresh]
  | .systemGetIdentity _ => [.sill, .control, .counters, .stream, .domain, .security]
  | .systemReset _ => [.sill, .control, .counters, .stream, .domain, .security]
  | .systemGetDebugChallenge _ => [.sill, .fw, .control, .counters, .stream, .domain, .security, .fresh]
  | .systemDebugUnlock _ => [.sill, .fw, .control, .counters, .stream, .domain, .security]
  | .systemGetEvents _ => [.sill, .control, .counters, .stream, .domain, .security]
  | .powerSetTolerance _ => [.sill, .power, .control, .counters, .stream, .domain, .cal, .elements, .carrier, .client, .security]
  | .powerGetState _ => [.sill, .control, .counters, .stream, .domain, .security]
  | .powerGetPower _ => [.sill, .control, .counters, .stream, .domain, .security, .fresh]
  | .powerSetRegulator _ => [.sill, .power, .control, .counters, .stream, .domain, .security, .fresh]
  | .carrierSetFormat _ => [.sill, .power, .control, .counters, .stream, .domain, .cal, .elements, .carrier, .joinery, .framer, .client, .protect, .security, .timing, .fresh]
  | .carrierSetPath _ => [.sill, .power, .control, .counters, .stream, .domain, .cal, .elements, .carrier, .joinery, .framer, .client, .protect, .security, .timing, .fresh]
  | .carrierSetDsp _ => [.sill, .power, .control, .counters, .stream, .domain, .cal, .elements, .carrier, .joinery, .framer, .client, .protect, .security, .timing, .fresh]
  | .carrierSetSpectralOrder _ => [.sill, .power, .control, .counters, .stream, .domain, .cal, .elements, .carrier, .joinery, .framer, .client, .protect, .security, .timing, .fresh]
  | .carrierGetStatus _ => [.sill, .control, .counters, .stream, .domain, .security]
  | .carrierReacquire _ => [.sill, .power, .control, .counters, .stream, .domain, .cal, .elements, .carrier, .joinery, .framer, .client, .security, .timing]
  | .carrierGetConfig _ => [.sill, .control, .counters, .stream, .domain, .security]
  | .formatEpoch _ => [.sill, .power, .control, .counters, .stream, .domain, .cal, .elements, .carrier, .joinery, .framer, .client, .protect, .security, .timing, .fresh]
  | .acfFrameTx _ _ => [.sill, .power, .control, .counters, .stream, .domain, .cal, .elements, .carrier, .joinery, .framer, .client, .security, .fresh]
  | .acfFrameRx _ _ => [.sill, .power, .control, .counters, .stream, .domain, .cal, .elements, .carrier, .joinery, .framer, .client, .protect, .security, .timing, .fresh]
  | .acfLossOfFrame _ => [.sill, .control, .counters, .cal, .carrier, .joinery, .framer, .timing]
  | .lossOfSignal _ => [.sill, .control, .counters, .cal, .carrier, .joinery, .framer, .timing]
  | .losClear _ => [.carrier]
  | .losHoldExpiry _ => [.carrier]
  | .acqStageDone _ _ _ _ _ _ => [.sill, .control, .counters, .cal, .carrier, .joinery, .framer, .timing, .fresh]
  | .acqStageTimeout _ => [.counters, .carrier]
  | .equaliserDivergence _ => [.sill, .control, .counters, .cal, .carrier, .joinery, .framer, .timing]
  | .codewordDecoded _ _ => [.counters, .carrier, .fresh]
  | .joineryFallback _ => [.sill, .control, .counters, .joinery]
  | .joineryJoin _ => [.sill, .control, .counters, .joinery]
  | .daeSuspend _ => [.sill, .control, .counters, .carrier]
  | .daeResume _ => [.sill, .control, .counters, .carrier]
  | .fullCalibrationDone _ _ => [.sill, .control, .counters, .stream, .domain, .cal, .elements, .carrier, .security]
  | .calRoundStart _ => [.cal, .elements]
  | .calWindowDone _ _ => [.sill, .control, .counters, .cal, .elements]
  | .monCalStep => [.sill, .control, .counters, .stream, .domain, .cal, .elements, .security, .monitor]
  | .biasRampStep _ _ _ => [.power, .cal, .elements, .carrier]
  | .picInterrupt _ _ => [.sill, .control, .counters, .cal]
  | .calGetParam _ => [.sill, .control, .counters, .stream, .domain, .security]
  | .calSetOverlay _ => [.sill, .power, .control, .counters, .stream, .domain, .cal, .elements, .carrier, .client, .security]
  | .calSaveRecord _ => [.sill, .flash, .control, .counters, .stream, .domain, .security, .fresh]
  | .calRun _ => [.sill, .power, .control, .counters, .stream, .domain, .cal, .elements, .carrier, .client, .security]
  | .calSetPolicy _ => [.sill, .control, .counters, .stream, .domain, .cal, .security]
  | .calGetStats _ => [.sill, .control, .counters, .stream, .domain, .security]
  | .calSetAnalog _ => [.sill, .power, .control, .counters, .stream, .domain, .cal, .elements, .carrier, .client, .security]
  | .calSetBias _ => [.sill, .power, .control, .counters, .stream, .domain, .cal, .elements, .carrier, .client, .security]
  | .calPicSpi _ => [.sill, .power, .control, .counters, .stream, .domain, .cal, .elements, .carrier, .client, .security, .fresh]
  | .domainHoldExpiry _ _ => [.sill, .power, .control, .counters, .stream, .domain, .cal, .elements, .carrier, .memory, .fresh]
  | .domainDemand _ _ => [.power, .cal, .elements, .carrier, .client]
  | .pllLock _ => [.power, .client]
  | .domainExitComplete _ _ => [.sill, .power, .control, .counters, .cal, .elements, .carrier, .client, .sched, .memory, .monitor, .fresh]
  | .coreVoltageEvaluation _ _ => [.power]
  | .coreVoltageStep _ _ => [.sill, .power, .control, .counters]
  | .pmbAlert => [.sill, .power, .control, .counters]
  | .fecGetFrameInfo _ => [.sill, .control, .counters, .stream, .domain, .security]
  | .fecGetCounts _ => [.sill, .control, .counters, .stream, .domain, .security]
  | .fecSetInject _ => [.sill, .power, .control, .counters, .stream, .domain, .cal, .elements, .carrier, .joinery, .framer, .client, .security]
  | .otucnFrameTx _ _ => [.sill, .control, .counters, .carrier, .framer, .client, .protect, .security, .fresh]
  | .otucnFrameRx _ _ => [.sill, .control, .counters, .carrier, .framer, .protect, .security, .fresh]
  | .oofDeclared _ => [.sill, .control, .counters, .framer, .protect, .security, .fresh]
  | .oofCleared _ => [.sill, .control, .counters, .framer, .protect, .fresh]
  | .lofDeclared _ => [.sill, .control, .counters, .framer, .protect, .fresh]
  | .lofCleared _ => [.sill, .control, .counters, .framer, .protect, .fresh]
  | .oomDeclared _ => [.sill, .control, .counters, .framer, .protect, .fresh]
  | .oomCleared _ => [.sill, .control, .counters, .framer, .protect, .fresh]
  | .lomDeclared _ => [.sill, .control, .counters, .framer, .protect, .fresh]
  | .lomCleared _ => [.sill, .control, .counters, .framer, .protect, .fresh]
  | .defectPersistence _ _ => [.sill, .control, .counters, .framer, .protect, .fresh]
  | .apsAccept _ => [.sill, .control, .counters, .framer, .protect, .fresh]
  | .apsInconsistent _ => [.sill, .control, .counters, .framer, .protect, .fresh]
  | .ttiAccept _ => [.sill, .control, .counters, .framer, .protect, .fresh]
  | .psiAccept _ => [.sill, .control, .counters, .framer, .protect, .fresh]
  | .passedBytesAccept _ => [.framer]
  | .linkTagAccept _ => [.sill, .control, .counters, .framer, .protect, .fresh]
  | .defectEventGather _ => [.sill, .control, .counters, .framer]
  | .framerSetTti _ => [.sill, .control, .counters, .stream, .domain, .framer, .security]
  | .framerSetDegrade _ => [.sill, .control, .counters, .stream, .domain, .framer, .security]
  | .framerSetAps _ => [.sill, .control, .counters, .stream, .domain, .framer, .security]
  | .framerSetOverhead _ => [.sill, .control, .counters, .stream, .domain, .framer, .security]
  | .framerSetMaint _ => [.sill, .control, .counters, .stream, .domain, .framer, .security]
  | .framerGetStatus _ => [.sill, .control, .counters, .stream, .domain, .security]
  | .framerGetOverhead _ => [.sill, .control, .counters, .stream, .domain, .security]
  | .framerGetCounts _ => [.sill, .control, .counters, .stream, .domain, .security]
  | .todSecondBoundary => [.sill, .control, .counters, .carrier, .framer, .sched, .protect, .security, .timing, .monitor, .localNs, .fresh]
  | .clientFrameRx _ _ _ _ _ => [.sill, .power, .control, .counters, .cal, .elements, .carrier, .client, .sched, .memory, .fresh]
  | .elasticBufferBlock _ _ _ _ => [.counters, .client]
  | .clientLinkChange _ _ => [.sill, .control, .counters, .client, .timing]
  | .flexeCalAck _ _ => [.sill, .control, .counters, .client]
  | .flexeSwitchTimeout _ => [.sill, .control, .counters, .client]
  | .gfpFrameRx _ _ => [.sill, .power, .control, .counters, .cal, .elements, .carrier, .client, .fresh]
  | .clientSetClient _ => [.sill, .power, .control, .counters, .stream, .domain, .cal, .elements, .carrier, .client, .security, .timing]
  | .clientSetTrib _ => [.sill, .control, .counters, .stream, .domain, .client, .security]
  | .clientSetFlexe _ => [.sill, .control, .counters, .stream, .domain, .client, .security]
  | .clientSetClass _ => [.sill, .control, .counters, .stream, .domain, .client, .security]
  | .clientGetStatus _ => [.sill, .control, .counters, .stream, .domain, .security]
  | .clientGetCounts _ => [.sill, .control, .counters, .stream, .domain, .security]
  | .frameSelection _ _ => [.sill, .power, .control, .counters, .cal, .elements, .carrier, .client, .sched, .memory, .fresh]
  | .schedParamApply => [.sill, .power, .control, .counters, .stream, .domain, .cal, .elements, .carrier, .client, .sched, .memory, .security, .fresh]
  | .gateEntryEnd _ => [.sill, .power, .control, .counters, .cal, .elements, .carrier, .client, .sched, .memory, .fresh]
  | .gateListStart _ => [.sill, .power, .control, .counters, .cal, .elements, .carrier, .client, .sched, .memory, .fresh]
  | .schedSamplingInstant _ => [.counters]
  | .schedSetSubscriber _ => [.sill, .power, .control, .counters, .stream, .domain, .cal, .elements, .carrier, .client, .sched, .memory, .security, .fresh]
  | .schedSetQueue _ => [.sill, .power, .control, .counters, .stream, .domain, .cal, .elements, .carrier, .client, .sched, .memory, .security, .fresh]
  | .schedSetGates _ => [.sill, .power, .control, .counters, .stream, .domain, .cal, .elements, .carrier, .client, .sched, .memory, .security, .fresh]
  | .schedGetGates _ => [.sill, .power, .control, .counters, .stream, .domain, .cal, .elements, .carrier, .client, .sched, .memory, .security, .fresh]
  | .schedGetQueue _ => [.sill, .power, .control, .counters, .stream, .domain, .cal, .elements, .carrier, .client, .sched, .memory, .security, .fresh]
  | .schedSetSampling _ => [.sill, .power, .control, .counters, .stream, .domain, .cal, .elements, .carrier, .client, .sched, .memory, .security, .fresh]
  | .schedGetCounts _ => [.sill, .control, .counters, .stream, .domain, .security]
  | .planerRead _ _ => [.sill, .control, .counters, .memory, .fresh]
  | .clampFlush _ _ => [.sill, .control, .counters, .memory, .fresh]
  | .bucketDrain _ => [.memory]
  | .ceRateThreshold _ => [.sill, .control, .counters, .memory]
  | .retrainStart _ _ => [.counters, .memory]
  | .retrainComplete _ _ _ => [.sill, .power, .control, .counters, .cal, .elements, .carrier, .client, .sched, .memory, .protect, .fresh]
  | .auditComplete _ _ => [.sill, .control, .counters, .sched, .memory, .fresh]
  | .memorySetPolicy _ => [.sill, .power, .control, .counters, .stream, .domain, .cal, .elements, .carrier, .client, .sched, .memory, .security, .fresh]
  | .memoryGetStatus _ => [.sill, .power, .control, .counters, .stream, .domain, .cal, .elements, .carrier, .client, .sched, .memory, .security, .fresh]
  | .memoryGetLog _ => [.sill, .power, .control, .counters, .stream, .domain, .cal, .elements, .carrier, .client, .sched, .memory, .security, .fresh]
  | .memoryRetrain _ => [.sill, .power, .control, .counters, .stream, .domain, .cal, .elements, .carrier, .client, .sched, .memory, .security, .fresh]
  | .memorySetShim _ => [.sill, .power, .control, .counters, .stream, .domain, .cal, .elements, .carrier, .client, .sched, .memory, .security, .fresh]
  | .memoryGetCounts _ => [.sill, .control, .counters, .stream, .domain, .security]
  | .twinFrameArrival _ _ => [.sill, .control, .counters, .framer, .memory, .protect, .security, .fresh]
  | .twinPlayout _ _ _ => [.sill, .control, .counters, .framer, .memory, .protect, .security, .fresh]
  | .mirActInChange _ => [.pins]
  | .mirrorClaimStable => [.pins, .sill, .power, .control, .counters, .cal, .elements, .carrier, .client, .protect]
  | .mirrorClaimSample => [.pins, .sill, .power, .control, .counters, .cal, .elements, .carrier, .client, .protect]
  | .mirrorTieResample => [.pins, .sill, .power, .control, .counters, .cal, .elements, .carrier, .client, .protect]
  | .mirrorHoldoffExpiry => [.protect]
  | .mirrorLosRelease => [.protect]
  | .mirrorReleaseDeassert => [.pins, .sill, .power, .control, .counters, .cal, .elements, .carrier, .client, .protect]
  | .braceHeartbeatTx => [.domain]
  | .braceHeartbeatRx _ => [.sill, .control, .counters, .protect]
  | .braceLinkDown => [.sill, .control, .counters, .protect]
  | .protectSetTwin _ => [.sill, .control, .counters, .stream, .domain, .framer, .memory, .protect, .security, .fresh]
  | .protectRealign _ => [.sill, .control, .counters, .stream, .domain, .protect, .security, .fresh]
  | .protectSetMirror _ => [.pins, .sill, .power, .control, .counters, .stream, .domain, .cal, .elements, .carrier, .client, .protect, .security]
  | .protectClaim _ => [.pins, .sill, .power, .control, .counters, .stream, .domain, .cal, .elements, .carrier, .client, .protect, .security]
  | .protectGetStatus _ => [.sill, .control, .counters, .stream, .domain, .security]
  | .protectGetCounts _ => [.sill, .control, .counters, .stream, .domain, .security]
  | .rolloverFlip _ => [.sill, .control, .counters, .security]
  | .channelModeApply _ _ => [.sill, .control, .counters, .security]
  | .benchRequestExecute => [.sill, .control, .counters, .stream, .domain, .security]
  | .keyLoadExecute => [.sill, .control, .counters, .stream, .domain, .security]
  | .supplyGlitch _ => [.sill, .control, .counters, .stream, .domain, .security]
  | .vddIoLoss => [.pins, .sill, .control, .counters, .stream, .domain, .security]
  | .vddIoReturn => [.pins, .sill, .control, .counters, .stream, .domain, .security, .timing]
  | .clockGlitch => [.sill, .control, .counters, .stream, .domain, .security]
  | .temperatureExcursion => [.sill, .control, .counters, .stream, .domain, .security]
  | .tamperInAsserted => [.pins, .sill, .control, .counters, .stream, .domain, .security]
  | .zeroizeNAsserted => [.pins, .sill, .control, .counters, .stream, .domain, .security]
  | .entropyHealthFail => [.security]
  | .securitySetOwnerRoot _ => [.sill, .otp, .control, .counters, .stream, .domain, .security, .fresh]
  | .securitySetOwnerRecord _ => [.sill, .flash, .control, .counters, .stream, .domain, .security, .fresh]
  | .securityLoadKek _ => [.sill, .control, .counters, .stream, .domain, .security]
  | .securityLoadKey _ => [.sill, .power, .control, .counters, .stream, .domain, .cal, .elements, .carrier, .client, .security]
  | .securityEraseKey _ => [.sill, .control, .counters, .stream, .domain, .security]
  | .securitySetChannel _ => [.sill, .control, .counters, .stream, .domain, .security]
  | .securityRollover _ => [.sill, .control, .counters, .stream, .domain, .security]
  | .securityBench _ => [.sill, .power, .control, .counters, .stream, .domain, .cal, .elements, .carrier, .client, .security]
  | .securitySetPolicy _ => [.sill, .control, .counters, .stream, .domain, .security]
  | .securityClearAlarm _ => [.sill, .control, .counters, .stream, .domain, .security, .fresh]
  | .securityAttest _ => [.sill, .control, .counters, .stream, .domain, .security, .fresh]
  | .securityGetCert _ => [.sill, .control, .counters, .stream, .domain, .security]
  | .securityGetStatus _ => [.sill, .control, .counters, .stream, .domain, .security]
  | .securityGetSlots _ => [.sill, .control, .counters, .stream, .domain, .security]
  | .securityGetCounts _ => [.sill, .control, .counters, .stream, .domain, .security]
  | .refMeasurement _ _ => [.sill, .control, .counters, .timing]
  | .refAbsence _ => [.sill, .control, .counters, .timing]
  | .refDisqualified _ => [.sill, .control, .counters, .timing]
  | .refRequalified _ => [.sill, .control, .counters, .timing]
  | .refSelChange _ => [.pins, .sill, .control, .counters, .timing]
  | .lockTestMet => [.sill, .control, .counters, .timing]
  | .dcoUpdate _ => [.timing]
  | .ppsInEdge _ _ _ => [.sill, .control, .counters, .carrier, .framer, .sched, .protect, .security, .timing, .monitor, .fresh]
  | .todMode2Expiry => [.sill, .control, .counters, .timing]
  | .todSlewEnd => [.sill, .control, .counters, .carrier, .framer, .sched, .protect, .security, .timing, .monitor, .fresh]
  | .ppsOutPulse => [.pins, .power, .cal, .elements, .carrier, .client, .timing, .monitor]
  | .frameOutPulse => [.pins, .power, .cal, .elements, .carrier, .client, .timing, .monitor]
  | .timingSetRefs _ => [.sill, .control, .counters, .stream, .domain, .security, .timing]
  | .timingSetLoop _ => [.sill, .control, .counters, .stream, .domain, .security, .timing]
  | .timingSetDco _ => [.sill, .control, .counters, .stream, .domain, .security, .timing]
  | .timingSetTod _ => [.sill, .control, .counters, .stream, .domain, .carrier, .framer, .sched, .protect, .security, .timing, .monitor, .fresh]
  | .timingSetOutputs _ => [.sill, .control, .counters, .stream, .domain, .security, .timing]
  | .timingRealign _ => [.sill, .control, .counters, .stream, .domain, .security, .timing]
  | .timingGetStatus _ => [.sill, .control, .counters, .stream, .domain, .security]
  | .monRefSettled _ => [.monitor]
  | .monConverterApply _ => [.monitor]
  | .monValueComplete _ _ _ => [.sill, .control, .counters, .monitor]
  | .monPassEnd _ => [.power, .cal, .elements, .carrier, .client, .monitor]
  | .monTriggerTimer _ => [.power, .cal, .elements, .carrier, .client, .monitor]
  | .monLatchedTriggerStart _ => [.monitor]
  | .monInjectComplete _ _ _ => [.sill, .control, .counters, .stream, .domain, .security, .monitor]
  | .decimOutput _ => [.sill, .control, .counters, .monitor]
  | .decimSettled _ => [.sill, .control, .counters, .monitor]
  | .monitorSetConverter _ => [.sill, .power, .control, .counters, .stream, .domain, .cal, .elements, .carrier, .client, .security, .monitor]
  | .monitorSetSequence _ => [.sill, .power, .control, .counters, .stream, .domain, .cal, .elements, .carrier, .client, .security, .monitor]
  | .monitorSetDecim _ => [.sill, .power, .control, .counters, .stream, .domain, .cal, .elements, .carrier, .client, .security, .monitor]
  | .monitorSetAccum _ => [.sill, .control, .counters, .stream, .domain, .security, .monitor]
  | .monitorTrigger _ => [.sill, .power, .control, .counters, .stream, .domain, .cal, .elements, .carrier, .client, .security, .monitor]
  | .monitorInject _ => [.sill, .power, .control, .counters, .stream, .domain, .cal, .elements, .carrier, .client, .security, .monitor]
  | .monitorReadSlots _ => [.sill, .control, .counters, .stream, .domain, .security, .monitor]
  | .monitorReadTrackers _ => [.sill, .control, .counters, .stream, .domain, .security, .monitor]
  | .monitorGetStatus _ => [.sill, .control, .counters, .stream, .domain, .security]
  | .streamDataTx _ => [.sill, .control, .counters, .stream]
  | .streamMessageRx _ _ => [.sill, .control, .counters, .stream]
  | .streamLinkControlTx => [.counters, .stream]
  | .streamReplayTimeout => [.counters, .stream]
  | .streamRetrain => [.sill, .power, .control, .counters, .stream, .cal, .elements, .carrier, .client]
  | .countersSetUnit _ => [.sill, .control, .counters, .stream, .domain, .security]
  | .countersRead _ => [.sill, .control, .counters, .stream, .domain, .security]
  | .countersClear _ => [.sill, .control, .counters, .stream, .domain, .security]
  | .countersSetTrace _ => [.sill, .control, .counters, .stream, .domain, .security]
  | .countersSetTags _ => [.sill, .control, .counters, .stream, .domain, .security]
  | .countersSetStream _ => [.sill, .power, .control, .counters, .stream, .domain, .cal, .elements, .carrier, .client, .security]
  | .countersGetStream _ => [.sill, .control, .counters, .stream, .domain, .security]
  | .tenonMessageRx _ _ _ => [.sill, .flash, .fw, .control, .counters, .stream, .domain, .cal, .elements, .carrier, .security, .fresh]
  | .tenonDataTx _ _ => [.sill, .control, .counters, .domain]
  | .tenonLinkControlTx _ => [.counters, .domain]
  | .tenonLinkControlRx _ _ _ => [.sill, .power, .control, .counters, .domain]
  | .tenonReplayTimeout _ => [.counters, .domain]
  | .tenonWakeBurst _ => [.power, .counters, .domain, .cal, .elements, .carrier, .client]
  | .tenonAlignmentLoss _ => [.sill, .control, .counters, .domain]
  | .tenonRetrainTimeout _ => [.sill, .control, .counters, .domain]
  | .tenonDownRetry _ => [.domain]
  | .tenonHelloRx _ _ => [.sill, .control, .counters, .domain, .fresh]
  | .tenonAuthRx _ _ => [.sill, .control, .counters, .stream, .domain, .security]
  | .mapSend _ _ => [.sill, .control, .counters, .domain]
  | .mapRx _ _ => [.sill, .control, .counters, .domain]
  | .fenceReturn _ => [.domain]
  | .fenceTimeout _ => [.domain]
  | .managerTakeover => [.sill, .control, .counters, .domain]
  | .collationClose _ => [.control, .stream, .domain, .security]
  | .distributionTimeout => [.sill, .control, .counters, .domain]
  | .domainSetPort _ => [.sill, .power, .control, .counters, .stream, .domain, .cal, .elements, .carrier, .client, .security]
  | .domainGetPorts _ => [.sill, .control, .counters, .stream, .domain, .security]
  | .domainGetTopology _ => [.sill, .control, .counters, .stream, .domain, .security]
  | .domainSetFloor _ => [.sill, .flash, .control, .counters, .stream, .domain, .security, .fresh]
  | .domainSetManager _ => [.sill, .control, .counters, .stream, .domain, .security]
  | .domainDistribute _ => [.sill, .control, .counters, .stream, .domain, .security]
  | .domainGetDist _ => [.sill, .control, .counters, .stream, .domain, .security]
  | .domainFreePosition _ => [.sill, .control, .counters, .stream, .domain, .security]
  | .firmwareGetInfo _ => [.sill, .control, .counters, .stream, .domain, .security]
  | .firmwareStageBegin _ => [.sill, .flash, .fw, .control, .counters, .stream, .domain, .security, .fresh]
  | .firmwareStageWrite _ => [.sill, .flash, .fw, .control, .counters, .stream, .domain, .security, .fresh]
  | .firmwareStageVerify _ => [.sill, .flash, .fw, .control, .counters, .stream, .domain, .cal, .elements, .carrier, .security, .fresh]
  | .firmwareActivate _ => [.sill, .fw, .control, .counters, .stream, .domain, .protect, .security]
  | .firmwareCommit _ => [.sill, .otp, .flash, .fw, .control, .counters, .stream, .domain, .security, .fresh]
  | .firmwareRollback _ => [.sill, .fw, .control, .counters, .stream, .domain, .protect, .security]
  | .sessionOpen _ => [.sill, .control, .counters, .stream, .domain, .security, .fresh]
  | .sessionAuth _ => [.sill, .control, .counters, .stream, .domain, .security]
  | .sessionClose _ => [.sill, .control, .counters, .stream, .domain, .security]
  | .sessionGrantCounters _ => [.sill, .control, .counters, .stream, .domain, .security]
  | .sessionGetInfo _ => [.sill, .control, .counters, .stream, .domain, .security]
  | .sessionSetEvents _ => [.sill, .control, .counters, .stream, .domain, .security]
  | .junctionExceeds105c => [.sill]
  | .shaperCreditReachesZero _ => [.sill, .power, .control, .counters, .cal, .elements, .carrier, .client, .sched, .memory, .fresh]
  | .entropyHealthRestored => [.security]
  | .tamperInDeasserted => [.pins]
  | .zeroizeNDeasserted => [.pins]
  | .refPresenceRestored _ => [.sill, .control, .counters, .timing]
  | .braceHeartbeatMissed => [.counters, .protect]
  | .scribeWordAlignmentGained _ => [.sill, .control, .counters, .stream, .domain, .fresh]
  | .watchdogStrobe => [.control]

end Sys2Proof.Machine
end

