-- ==== Sys2Proof/Certificates/Slice0/Obligations.lean ====
section
/-! DEFINITION. The statements about the block that the provers prove. -/

open Sys2Proof Sys2Proof.Machine

/-- For every command and state, a step of the state with the command at the front of its queue is the command's meaning on that state with the queue's rest. The queue itself is the model's own (log entry 1). -/
def Obligations.StepRunsTheFrontCommand : Prop :=
  ∀ (c : Instr) (rest : List Instr) (s : State), step { s with pending := c :: rest } = exec c { s with pending := rest }

/-- On an empty queue the block lets one SILL_CLK cycle pass and Salurn takes a packet that waits for it; that the model's step does so is its own choice (log entry 1). Every such step answers a next state, and whatever it does it puts nothing into the queue. -/
def Obligations.IdleStepLeavesTheQueue : Prop :=
  ∀ s : State, s.pending = [] → ∃ t, step s = .next t ∧ t.pending = []

/-- Every command answers a next state in every state, neither faulting nor refused, and changes only the parts of the state that `commandParts` lists for it; the queue of waiting commands is no part of any. The lists are the model's, one for each command of the table. -/
def Obligations.EveryCommandCompletesInItsParts : Prop :=
  (∀ (i : Instr) (s : State), ∃ t, exec i s = .next t ∧ OnlyChanges (commandParts i) s t) ∧
  (∀ i : Instr, (commandParts i).contains .pending = false)

/-- Whatever a step does, from every state: the serial number of OTP stays, the version floor never falls, a key revoked stays revoked, an owner root once fused keeps its digest, and flash, where it is in its canonical form, stays in it. -/
def Obligations.FusesAndFlashLast : Prop :=
  ∀ s t : State, step s = .next t → Lasting s t

/-- Right after a sill power-on the hub is held, STAGE is HELD with RESET_CAUSE 1, SL_ALARM_SUMMARY and SL_WAKE_TOL are 0, no session is open, no journal entry is in use, the masks of the event routes are at their reset values, the ToD is 0, flash is in its canonical form and no command waits. That flash and OTP are blank is the model's choice (log entry 5). -/
def Obligations.ResetStateHolds : Prop :=
  State.reset.sill.stage = .held ∧ State.reset.sill.hold = .waiting ∧ State.reset.sill.resetCause = 1 ∧
  slAlarmSummary State.reset = 0 ∧ State.reset.sill.wakeTol = 0 ∧ State.reset.sill.secAlarm = false ∧
  State.reset.sill.eventSeq = 0 ∧ State.reset.sill.lastSession = 0 ∧ State.reset.control.sessions = [] ∧
  State.reset.control.journal = [] ∧ State.reset.control.routeCp.mask = 0x0003FFFE ∧
  State.reset.control.routeTenon.mask = 0x0003FFFE ∧ State.reset.control.routeStream.mask = 0 ∧
  State.reset.timing.tod = ⟨0, 0⟩ ∧ flashWf State.reset ∧ State.reset.pending = []

/-- A request that Salurn takes by the control port is answered by the first check it fails and nothing of the command happens: a bad LENGTH by ST_LENGTH with SESSION 0; a version not spoken by ST_UNSUPPORTED with the two versions; FLAGS or TARGET of no row, or a broadcast of an opcode that allows none, by ST_PARAM at 0xFFFF; an opcode newer than the version by ST_OPCODE; a payload of another length by ST_LENGTH; in session 0 an opcode that session 0 may not send by ST_ROLE; a session that is not open, is of another version or is closing by ST_STATE; a SEQUENCE that is neither next nor kept by ST_SEQUENCE; a kept one by the reply sent before; and a role too low by ST_ROLE, which uses up the SEQUENCE. It is said of the one operation by which every request's meaning takes its request, whatever the command. -/
def Obligations.RequestChecksAnswerInOrder : Prop :=
  ∀ (code : Nat) (q : Request) (body : Request → State → Reply) (s : State),
    takenNow code q s = true → (opOf code).code = code →
    let u := arrived code q s
    let words := q.payload.length / 4
    let spoken := q.version.toNat / 16 = 2 ∧ q.version.toNat % 16 ≤ 4
    let plain := q.flags = 1 ∧ q.target = 0
    let fits := (opOf code).lo ≤ words ∧ words ≤ (opOf code).hi
    (4096 < words ∨ q.payload.length % 4 ≠ 0 →
      takeRequest code q body s = answer code { q with session := 0 } .length [] u) ∧
    (words ≤ 4096 ∧ q.payload.length % 4 = 0 →
      (¬spoken → takeRequest code q body s = answer code q .unsupported [0x20, 0x24, 0, 0] u) ∧
      (spoken →
        (flagsValid q.flags = false ∨ targetValid q.flags q.target = false ∨ broadcastBarred (opOf code) q.flags = true →
          takeRequest code q body s = answer code q .param (paramAt 0xFFFF) u) ∧
        (plain →
          (q.version.toNat < (opOf code).since → takeRequest code q body s = answer code q .opcode [] u) ∧
          ((opOf code).since ≤ q.version.toNat →
            (¬fits → takeRequest code q body s = answer code q .length [] u) ∧
            (fits → q.session = 0 → sessionless u code = false → takeRequest code q body s = answer code q .role [] u) ∧
            (fits → q.session ≠ 0 → code ≠ 0x1101 → code ≠ 0x1102 →
              (u.session q.session.toNat = none → takeRequest code q body s = answer code q .state [] u) ∧
              (∀ x, u.session q.session.toNat = some x →
                let shut := x.awaiting.isSome = true ∨ x.version ≠ q.version ∨ x.closing.any (fun c => c.2 == 0) = true
                (shut → takeRequest code q body s = answer code q .state [] u) ∧
                (¬shut →
                  (q.seq ≠ x.nextSeq → x.replies.find? (fun r => r.seq == q.seq) = none →
                    takeRequest code q body s = answer code q .sequence [] u) ∧
                  (∀ r, q.seq ≠ x.nextSeq → x.replies.find? (fun r => r.seq == q.seq) = some r →
                    takeRequest code q body s = putReply .control q.origin r none u) ∧
                  (q.seq = x.nextSeq → neededRole (opOf code) q x.grants s < x.role.code →
                    takeRequest code q body s = answerKept code q .role [] none (admitted code q s)))))))))

/-- A taken request of an open session uses up its SEQUENCE. Answering a GET queues one reply on the control port, with the request's OPCODE, UNIT, SESSION and SEQUENCE, behind the replies that wait for room in the outgoing queue and in that queue itself where it has room, keeps it as the last of the session's replies, journals nothing and changes nothing but the command protocol's part and the counters. Executing another command leaves, besides, one journal entry DONE under the next entry number, with the digest of the payload, and its reply names that entry. -/
def Obligations.AnsweredRequestsLeaveTheirMark : Prop :=
  ∀ (code : Nat) (q : Request) (x : Session) (st : Status) (pl : List Byte) (s : State),
    q.port = .control →
    ((arrived code q s).session q.session.toNat = some x → (admitted code q s).session q.session.toNat =
      some (if q.seq = x.nextSeq then { x with nextSeq := x.nextSeq + 1 } else x)) ∧
    (s.session q.session.toNat = some x →
      (let t := got code q pl s
        let p := replyPacket s (replyVersion q) code q.unit q.session q.seq .ok pl
        let o : OutItem := { packet := p, isReply := true, entry := none }
        t.control.outgoing ++ t.control.held = s.control.outgoing ++ s.control.held ++ [o] ∧
        (s.control.held = [] → s.control.room p = true → t.control.outgoing = s.control.outgoing ++ [o]) ∧
        t.session q.session.toNat = some { x with replies := (x.replies ++ [p]).drop (x.replies.length + 1 - 4) } ∧
        t.control.journal = s.control.journal ∧ OnlyChanges [.control, .counters] s t) ∧
      (let t := carriedOut code q st pl s
        let p := replyPacket s (replyVersion q) code q.unit q.session q.seq st pl
        let o : OutItem := { packet := p, isReply := true, entry := some s.control.nextEntry }
        t.control.outgoing ++ t.control.held = s.control.outgoing ++ s.control.held ++ [o] ∧
        (s.control.held = [] → s.control.room p = true → t.control.outgoing = s.control.outgoing ++ [o]) ∧
        t.session q.session.toNat = some { x with replies := (x.replies ++ [p]).drop (x.replies.length + 1 - 4) } ∧
        t.control.nextEntry = s.control.nextEntry + 1 ∧
        (∃ e : Entry, t.control.journal = s.control.journal ++ [e] ∧ e.id = s.control.nextEntry ∧ e.state = .done ∧ e.opcode = code ∧
          e.unit = q.u ∧ e.session = q.session.toNat ∧ e.seq = q.seq ∧ e.digest = Config.sha512 q.payload) ∧
        OnlyChanges [.control, .counters, .security] s t))

/-- While the port answers: a push puts its bytes into a free receive buffer, one that repeats a request which waits or executes is discarded, and one that finds the four full is discarded with OVERRUN; a pull of an empty queue sets UNDERRUN, a pull that clocks the whole head takes it off, lets waiting replies move up and frees its journal entry, and a shorter one leaves it; an unknown first byte shifts out the status byte alone. A packet taken at once whose START is wrong sets CRC_ERR and is discarded, one of a wrong LENGTH is answered ST_LENGTH and one of a wrong CRC sets CRC_ERR and is answered ST_CRC, both with SESSION 0. The event at the head of the control-port route enters the outgoing queue, which then asserts CP_IRQ_N, and a route that dropped events and has room again queues EV_EVENTS_LOST. A packet for another device that is taken goes out toward it. -/
def Obligations.PortTransactionsComplete : Prop :=
  (∀ (bytes : List Byte) (s : State), s.portLives = true →
    let r : RxItem := { port := .control, bytes := bytes.take 16412, count := bytes.length }
    let again := r.sound && s.repeats (opOf (parsePacket r.bytes).opcode.toNat) r.request
    (s.rxHeld < 4 → again = false → ∃ t, exec (.cpPushPacket bytes) s = .next t ∧ t.control.rx = s.control.rx ++ [r] ∧
      t.pins.cpMiso = statusByte s :: zeros bytes.length ∧ OnlyChanges [.pins, .control] s t) ∧
    (s.rxHeld < 4 → again = true →
      exec (.cpPushPacket bytes) s = .next (modPins (fun p => { p with cpMiso := statusByte s :: zeros bytes.length }) s)) ∧
    (4 ≤ s.rxHeld → ∃ t, exec (.cpPushPacket bytes) s = .next t ∧ t.sill.overrun = true ∧ t.control = s.control ∧
      OnlyChanges [.pins, .sill] s t)) ∧
  (∀ (n : Nat) (s : State), s.portLives = true →
    (s.control.outgoing = [] → ∃ t, exec (.cpPull n) s = .next t ∧ t.sill.underrun = true ∧
      t.pins.cpMiso = statusByte s :: zeros n ∧ OnlyChanges [.pins, .sill] s t) ∧
    (∀ o rest, s.control.outgoing = o :: rest →
      ((packetBytes o.packet).length ≤ n →
        ∃ t, exec (.cpPull n) s = .next t ∧ t.control.outgoing ++ t.control.held = rest ++ s.control.held ∧
          (s.control.held = [] → t.control.outgoing = rest) ∧
          t.pins.cpMiso = statusByte s :: fitBytes n (packetBytes o.packet) ∧
          t.control.journal = s.control.journal.filter (fun e => some e.id != o.entry) ∧
          OnlyChanges [.pins, .control] s t) ∧
      (n < (packetBytes o.packet).length → ∃ t, exec (.cpPull n) s = .next t ∧ t.control = s.control ∧ OnlyChanges [.pins] s t))) ∧
  (∀ (b : Byte) (s : State), s.portLives = true → b ≠ 0x0B → b ≠ 0x02 → b ≠ 0x5A → b ≠ 0xA5 →
    exec (.cpInvalidTransaction b) s = .next (modPins (fun p => { p with cpMiso := [statusByte s] }) s)) ∧
  (∀ (bytes : List Byte) (count : Nat) (s : State), s.portLives = true → s.intakeOpen = true → s.recorded = none →
    s.nextIndex = none → s.rxHeld < 4 →
    let q := { packetRequest .control 0 0 (parsePacket bytes) with session := 0 }
    let op := (parsePacket bytes).opcode.toNat
    (bytes.headD 0 ≠ 0xA6 →
      exec (.malformedPacket .control bytes count) s = .next (modSill (Sill.mark .crcErr) s)) ∧
    (bytes.headD 0 = 0xA6 → 4096 < u16 bytes 16 ∨ count ≠ 28 + 4 * u16 bytes 16 →
      exec (.malformedPacket .control bytes count) s = .next (answer op q .length [] s)) ∧
    (bytes.headD 0 = 0xA6 → u16 bytes 16 ≤ 4096 → count = 28 + 4 * u16 bytes 16 →
      (crc32c (bytes.take (count - 4))).toNat ≠ u32 bytes (count - 4) →
      exec (.malformedPacket .control bytes count) s = .next (answer op q .crc [] (modSill (Sill.mark .crcErr) s)))) ∧
  (∀ (p : Packet) (s : State), s.portLives = true → forwards .control p s = true →
    let q := packetRequest .control 0 0 p
    (s.namesNext .control (packetBytes p) = none → s.rxHeld < 4 → s.goesFirst q = true →
      exec (.packetForward .control p) s = .next (forwardOne p.opcode.toNat q s)) ∧
    (∀ i r, s.namesNext .control (packetBytes p) = some (i, r) →
      exec (.packetForward .control p) s = .next (forwardOne p.opcode.toNat r.request (takeAt i s)))) ∧
  (∀ (e : EventRec) (rest : List EventRec) (s : State), s.hubUp = true → s.control.held = [] → s.control.room (eventPacket s e) = true →
    s.control.routeCp.queue = e :: rest → s.control.routeCp.lost = 0 → s.pins.extest = false →
    ∃ t, exec .eventToOutgoingQueue s = .next t ∧ t.control.routeCp.queue = rest ∧
      t.control.outgoing = s.control.outgoing ++ [{ packet := eventPacket s e, isReply := false }] ∧ t.cpIrq = true ∧
      OnlyChanges [.control] s t) ∧
  (∀ (k : Fin 3) (s : State), (s.route k).lost ≠ 0 → (s.route k).queue.length < 1024 →
    ∃ t, exec (.eventsLostQueued k) s = .next t ∧ (t.route k).lost = 0 ∧ t.sill.eventSeq = s.sill.eventSeq + 1 ∧
      ∃ e, (t.route k).queue = (s.route k).queue ++ [e] ∧ e.code = 0x1102 ∧ e.seq = s.sill.eventSeq)

/-- Each reset that takes effect leaves its RESET_CAUSE and its hold, loses the command protocol's state, and keeps OTP, flash and, unless the sill itself is reset, the ToD, SL_WAKE_TOL and the alarm state. While the hub is out of reset: RESET_N low, sensed while VDD_IO is present, holds it with cause 3; a supply below 80 % holds it and leaves the cause; a sequence fault holds it with cause 6 and names the supply; a keyed hub write gives cause 4 and SYSTEM.RESET cause 5, released at once where RESET_N is high and the supplies valid. A power-down in order gives cause 7, whether it is judged while the hub runs or in the hold that its first supply began; a reset that already holds the hub absorbs it, and it ends a strap fault; in every case the supplies are valid no more. A keyed sill write gives cause 2 and a sill power-on cause 1, with the ToD and SL_WAKE_TOL at 0. The hub is released into strap sampling when RESET_N is high, VDD_IO present and the supplies valid. -/
def Obligations.ResetsOfTheHub : Prop :=
  (∀ s : State, ∃ t, exec .sillPowerOn s = .next t ∧ t.sill.on = true ∧ t.sill.resetCause = 1 ∧ t.sill.hold = .waiting ∧
    t.sill.wakeTol = 0 ∧ t.timing.tod = ⟨0, 0⟩ ∧ t.control.sessions = [] ∧ t.control.journal = [] ∧ t.control.ready = false ∧
    t.otp = s.otp ∧ t.flash = s.flash) ∧
  (∀ s : State, ∃ t, exec .sillPowerLoss s = .next t ∧ t.sill.on = false ∧ t.sill.suppliesValid = false ∧ t.control = {} ∧
    t.otp = s.otp ∧ t.flash = s.flash) ∧
  (∀ (x : Supply) (s : State), s.sill.on = true → s.takesReset = true → x ≠ .sill →
    ∃ t, exec (.supplyHold x) s = .next t ∧ t.sill.hold = .supplyHold ∧ t.sill.resetCause = s.sill.resetCause ∧
      t.sill.suppliesValid = false ∧ t.control = {} ∧ t.timing.tod = s.timing.tod ∧ t.otp = s.otp ∧ t.flash = s.flash) ∧
  (∀ (x : Supply) (s : State), s.sill.on = true → s.takesReset = false → x ≠ .sill →
    exec (.supplyHold x) s = .next (modSill (fun k => { k with suppliesValid := false }) s)) ∧
  (∀ (x : Supply) (s : State), s.sill.on = true →
    ∃ t, exec (.sequenceFault x) s = .next t ∧ t.sill.hold = .seqFault ∧ t.sill.resetCause = 6 ∧ t.sill.seqFaultBit = true ∧
      t.sill.seqSupply = x.code ∧ t.sill.supplyAlarm = true ∧ t.sill.suppliesValid = false ∧ t.otp = s.otp ∧ t.flash = s.flash ∧
      (s.takesReset = true → t.control = {})) ∧
  (∀ s : State, s.sill.on = true →
    ∃ t, exec .hubPowerLoss s = .next t ∧ t.sill.suppliesValid = false ∧ t.otp = s.otp ∧ t.flash = s.flash ∧
      (s.takesReset = true → t.sill.hold = .waiting ∧ t.sill.resetCause = 7 ∧ t.control = {} ∧ t.timing.tod = s.timing.tod) ∧
      (s.sill.hold = .supplyHold → t = modSill (fun k => { k with hold := .waiting, suppliesValid := false, resetCause := 7 }) s) ∧
      (s.sill.hold = .waiting ∨ s.sill.hold = .seqFault → t = modSill (fun k => { k with suppliesValid := false }) s) ∧
      (s.sill.hold = .strapFault → t = modSill (fun k => { k with
        hold := .waiting, suppliesValid := false, strapFaultBit := false }) s)) ∧
  (∀ s : State, s.sill.on = true → ∃ t, exec .suppliesValid s = .next t ∧ t.sill.suppliesValid = true ∧ t.pins.vddIo = true ∧
    (s.sill.hold = .waiting → s.pins.resetN = true → t.sill.hold = .sampling 0) ∧ (s.sill.hold ≠ .waiting → t.sill.hold = s.sill.hold)) ∧
  (∀ s : State, s.sill.on = true → s.pins.vddIo = true → s.takesReset = true → ∃ t, exec .resetNFall s = .next t ∧
    t.pins.resetN = false ∧ t.sill.hold = .waiting ∧ t.sill.stage = .held ∧ t.sill.resetCause = 3 ∧ t.sill.wakeTol = s.sill.wakeTol ∧
    t.sill.secAlarm = s.sill.secAlarm ∧ t.control = {} ∧ t.timing.tod = s.timing.tod ∧ t.security.keks = s.security.keks ∧
    t.security.slots = [] ∧ t.pins.flashDriven = false ∧ t.otp = s.otp ∧ t.flash = s.flash) ∧
  (∀ s : State, s.sill.on = true → s.pins.vddIo = true → s.sill.suppliesValid = true →
    (s.sill.hold = .waiting ∨ s.sill.hold = .seqFault) →
    ∃ t, exec .resetNRise s = .next t ∧ t.pins.resetN = true ∧ t.sill.hold = .sampling 0 ∧ t.sill.sessionErased = false ∧
      OnlyChanges [.pins, .sill] s t) ∧
  (∀ (w : Word32) (s : State), s.portLives = true → resetSill w = true →
    ∃ t, exec (.sillReset w) s = .next t ∧ t.sill.resetCause = 2 ∧ t.sill.wakeTol = 0 ∧ t.timing.tod = ⟨0, 0⟩ ∧ t.control = {} ∧
      t.otp = s.otp ∧ t.flash = s.flash) ∧
  (∀ (w : Word32) (s : State), s.portLives = true → resetHub w = true → s.takesReset = true → s.mayRelease = true →
    ∃ t, exec (.hubResetByRegister w) s = .next t ∧ t.sill.resetCause = 4 ∧ t.sill.hold = .sampling 0 ∧ t.control = {} ∧
      t.timing.tod = s.timing.tod ∧ t.sill.wakeTol = s.sill.wakeTol ∧ t.otp = s.otp ∧ t.flash = s.flash) ∧
  (∀ (u e : Nat) (rest : List PendingReset) (s : State), s.control.resets = ⟨1, u, e⟩ :: rest → s.takesReset = true →
    s.mayRelease = true →
    ∃ t, exec .systemResetExecute s = .next t ∧ t.sill.resetCause = 5 ∧ t.sill.hold = .sampling 0 ∧ t.control = {} ∧
      t.timing.tod = s.timing.tod ∧ t.otp = s.otp ∧ t.flash = s.flash)

/-- Sixteen equal readings end the sampling: the straps are held, the hub is out of reset and the ROM starts with the committed bank, recording 0x01 where no directory copy is valid, or waits for a load in LOAD_WAIT with BOOT_SRC = 1 (log entry 64); readings that differ repeat the window, and after 1 024 windows the strap fault holds the hub. The ROM starts the image of a bank that passes the checks of R91; a first bank that fails is followed by the other with FALLBACK, and a second failure ends in LOAD_WAIT with the boot alarm. When Salurn's INIT passes, STAGE is RUN and Salurn takes requests; EV_BOOT_DONE is raised, last where no trial or activation was rolled back. An image whose self-test fails records 0x0A, and the other bank is tried, or the ROM waits in LOAD_WAIT. -/
def Obligations.BootReachesRun : Prop :=
  (∀ (x : Straps) (n : Nat) (s : State), s.pins.vddIo = true → s.sill.hold = .sampling n → n < 1024 →
    ∃ t, exec (.strapWindow (Vector.replicate 16 x)) s = .next t ∧ t.sill.hold = .released ∧ t.sill.straps = x ∧
      t.pins.flashDriven = true ∧ (x.role = 3 → t.domain.address = some 0) ∧
      t.sill.stage = (if x.bootSrc then .loadWait else .rom) ∧ t.fw.tryBank = s.committed ∧
      (x.bootSrc = false → s.directory = none → t.sill.failCode = 1)) ∧
  (∀ (r : Vector Straps 16) (n : Nat) (s : State), s.pins.vddIo = true → s.sill.hold = .sampling n → n < 1024 → (∃ i j : Fin 16, r[i] ≠ r[j]) →
    exec (.strapWindow r) s = .next (modSill (fun k => { k with hold := .sampling (n + 1) }) s)) ∧
  (∀ s : State, s.sill.hold = .sampling 1024 →
    exec .strapFault s = .next (modSill (fun k => { k with hold := .strapFault, strapFaultBit := true }) s)) ∧
  (∀ s : State, s.hubUp = true → s.sill.straps.bootSrc = false → (s.sill.stage = .rom ∨ s.sill.stage = .verify) →
    (checkBank s s.fw.tryBank = none →
      ∃ t, exec .bankCheck s = .next t ∧ t.sill.stage = .init ∧ t.sill.bank = s.fw.tryBank ∧ t.fw.runningBank = s.fw.tryBank ∧
        t.fw.running = headerImage (flashBytes s (bankBase s.fw.tryBank) 352)) ∧
    (∀ c, checkBank s s.fw.tryBank = some c → authCode c = false →
      ∃ t, exec .bankCheck s = .next t ∧ t.sill.failCode = c ∧
        (s.fw.triedOther = false → t.sill.stage = .verify ∧ t.sill.fallback = true ∧ t.fw.tryBank = 1 - s.fw.tryBank) ∧
        (s.fw.triedOther = true → t.sill.stage = .loadWait ∧ t.sill.bootAlarm = true) ∧ OnlyChanges [.sill, .fw] s t)) ∧
  (∀ s : State, s.hubUp = true → s.sill.stage = .init →
    ∃ t, exec (.salurnInitDone true) s = .next t ∧ t.sill.stage = .run ∧ t.control.ready = true ∧ t.control.mp = .running ∧
      t.control.everRun = true ∧
      (s.fw.rolledBack = [] → ∃ pl, lastEvent t = some (0x0101, 0, pl) ∧ pl.length = 4)) ∧
  (∀ s : State, s.hubUp = true → s.sill.stage = .init → s.fw.fromMemory = true →
    ∃ t, exec (.salurnInitDone false) s = .next t ∧ t.sill.stage = .loadWait ∧ t.sill.failCode = 0x0A ∧
      t.fw.fromMemory = false ∧ t.sill.bootAlarm = (s.sill.bankABad && s.sill.bankBBad)) ∧
  (∀ s : State, s.hubUp = true → s.sill.stage = .init → s.fw.fromMemory = false →
    ∃ t, exec (.salurnInitDone false) s = .next t ∧ t.sill.failCode = 0x0A ∧
      (s.fw.triedOther = false → t.sill.stage = .verify ∧ t.sill.fallback = true ∧ t.fw.tryBank = 1 - s.fw.tryBank) ∧
      (s.fw.triedOther = true → t.sill.stage = .loadWait ∧ t.sill.bootAlarm = true))

/-- While Salurn is in RUN with fewer than two restarts in the last 60 s, a watchdog expiry, a lockstep mismatch and a keyed restart write each stop Salurn with their cause, end staging and set the MP_RESTART alarm bit; carriers, framers, clients, the scheduler, packet memory, protection and sessions' keys stay as they are. The third restart within 60 s halts Salurn. When Salurn is in RUN again it takes requests, with EV_MP_RESTARTED raised. An activation that is not in RUN in time rolls back; the watchdog's strobe is noted. -/
def Obligations.RestartsOfTheManagementProcessor : Prop :=
  (∀ (c : Nat) (i : Instr) (s : State),
    (c, i) ∈ [(1, Instr.watchdogExpiry), (2, Instr.lockstepMismatch)] →
    s.hubUp = true → s.sill.stage = .run → s.fw.trial = false → s.fw.activating = false →
    ((s.control.restarts.filter (fun t => decide (s.localNs < t + 60 * billion))).length < 2 →
      ∃ t, exec i s = .next t ∧ t.control.mp = .restarting c ∧ t.control.ready = false ∧ t.sill.mpRestartAlarm = true ∧
        t.fw.staging = none ∧ t.control.journal = s.control.journal ∧ t.control.sessions = s.control.sessions ∧
        OnlyChanges [.sill, .fw, .control, .counters] s t) ∧
    (2 ≤ (s.control.restarts.filter (fun t => decide (s.localNs < t + 60 * billion))).length →
      s.protect.mirror.releaseMask.testBit 0 = false →
      ∃ t, exec i s = .next t ∧ t.control.mp = .halted ∧ t.sill.stage = .mpHalted ∧ t.control.ready = false ∧
        OnlyChanges [.sill, .fw, .control, .counters] s t)) ∧
  (∀ (w : Word32) (s : State), s.portLives = true → resetMp w = true → s.hubUp = true → s.sill.stage = .run →
    (s.control.restarts.filter (fun t => decide (s.localNs < t + 60 * billion))).length < 2 →
    ∃ t, exec (.mpRestartByRegister w) s = .next t ∧ t.control.mp = .restarting 4 ∧ t.control.ready = false ∧
      t.sill.mpRestartAlarm = true ∧ t.fw.staging = none ∧ OnlyChanges [.pins, .sill, .fw, .control, .counters] s t) ∧
  (∀ (c : Nat) (s : State), s.control.mp = .restarting c → s.hubUp = true → s.sill.stage = .run → s.control.journal = [] →
    s.fw.activating = false → s.fw.activateDue = false → s.fw.rollbackDue = false → s.fw.rolledBack = [] →
    ∃ t, exec .mpRestartComplete s = .next t ∧ t.control.mp = .running ∧ t.control.ready = true ∧ t.control.intakeStopped = false ∧
      lastEvent t = some (0x0102, 0, be 1 c ++ zeros 3) ∧ OnlyChanges [.sill, .fw, .control, .counters] s t) ∧
  (∀ (c : Nat) (s : State), s.control.mp = .restarting c → s.fw.activating = true → s.hubUp = true → s.sill.stage = .run →
    (s.control.restarts.filter (fun t => decide (s.localNs < t + 60 * billion))).length < 2 →
    ∃ t, exec .trialTimeout s = .next t ∧ t.control.mp = .restarting 6 ∧ t.fw.activating = false ∧ t.fw.trial = false ∧
      t.sill.fallback = true ∧ t.fw.rolledBack = s.fw.rolledBack ++ [2] ++ (if s.fw.pendingEpoch.isSome then [5] else [])) ∧
  (∀ s : State, s.hubUp = true → exec .watchdogStrobe s = .next (modControl (fun c => { c with strobeAt := s.localNs }) s))

/-- A write of other than four bytes, or at an address that is no multiple of 4, is ignored but for CP_MISO; a write of SL_WAKE_TOL sets it; SL_ALARM_SUMMARY and SL_CP_STATUS clear just the bits written 1 that hardware did not set in the same cycle; SL_RESET_CTRL restarts the units it names while Salurn runs. A debug unlock ends at its expiry second and a challenge when it expires; a JTAG instruction loads only when the debug level permits it, and EXTEST releases the interrupt pin and stops traffic. A junction above 105 °C sets THERMAL. At its EPOCH, with the journal DONE, a pending activation restarts Salurn with cause 5. -/
def Obligations.RegistersDebugAndPins : Prop :=
  (∀ (a : Byte) (data : List Byte) (s : State), s.portLives = true → data.length ≠ 4 ∨ a.toNat % 4 ≠ 0 →
    exec (.sillRegisterWrite a data) s = .next (modPins (fun p => { p with cpMiso := statusByte s :: zeros (1 + data.length) }) s)) ∧
  (∀ (data : List Byte) (s : State), s.portLives = true → data.length = 4 →
    let written := fun b => (BitVec.ofNat 32 (beNat data)).getLsbD b
    let gone := fun b => !s.sill.setNow.contains b
    (∃ t, exec (.sillRegisterWrite 0x14 data) s = .next t ∧ t.sill.wakeTol = BitVec.ofNat 32 (beNat data) ∧
      OnlyChanges [.pins, .sill] s t) ∧
    (∃ t, exec (.sillRegisterWrite 0x08 data) s = .next t ∧ t.sill = { s.sill with
        thermal := s.sill.thermal && !(written 10 && gone .thermal)
        supplyAlarm := s.sill.supplyAlarm && !(written 11 && gone .supply)
        memAlarm := s.sill.memAlarm && !(written 12 && gone .mem)
        mpRestartAlarm := s.sill.mpRestartAlarm && !(written 14 && gone .mpRestart) } ∧ OnlyChanges [.pins, .sill] s t) ∧
    (∃ t, exec (.sillRegisterWrite 0x1C data) s = .next t ∧ t.sill = { s.sill with
        crcErr := s.sill.crcErr && !(written 8 && gone .crcErr)
        overrun := s.sill.overrun && !(written 9 && gone .overrun)
        underrun := s.sill.underrun && !(written 10 && gone .underrun) } ∧ OnlyChanges [.pins, .sill] s t)) ∧
  (∀ (w : Word32) (u : Nat) (s : State), s.portLives = true → s.salurnRuns = true → resetCus w = [u] →
    exec (.cuRestartByRegister w) s = .next (cuRestart u (modPins (fun p => { p with cpMiso := statusByte s :: zeros 5 }) s))) ∧
  (∀ s : State, s.sill.debugLevel ≠ 0 → s.fw.debugExpiry ≤ s.timing.tod.sec →
    exec .debugUnlockExpiry s = .next (modSill (fun x => { x with debugLevel := 0 }) s)) ∧
  (∀ s : State, exec .debugNonceExpiry s = .next (modFw (fun f => { f with debugNonce := none }) s)) ∧
  (∀ (j : Jtag) (s : State), s.sill.on = true →
    (s.sill.debugLevel < j.level → exec (.jtagInstructionLoad j) s = .next s) ∧
    (j.level ≤ s.sill.debugLevel → j.isExtest = false → exec (.jtagInstructionLoad j) s =
      .next (modPins (fun p => { p with jtagIr := j.code, extest := false, trafficStopped := p.trafficStopped }) s)) ∧
    (j.isExtest = true → s.protect.mirror.state ≠ 2 → s.protect.mirror.state ≠ 3 →
      ∃ t, exec (.jtagInstructionLoad j) s = .next t ∧ t.cpIrq = false ∧ t.trafficRuns = false ∧ t.pins.jtagIr = j.code ∧
        OnlyChanges [.pins] s t)) ∧
  (∀ s : State, s.sill.on = true → ∃ t, exec .junctionExceeds105c s = .next t ∧
    t.sill = { s.sill with thermal := true, setNow := t.sill.setNow } ∧ OnlyChanges [.sill] s t) ∧
  (∀ (e : Nat) (s : State), s.fw.pendingEpoch = some e → e ≤ s.timing.tod.sec → s.salurnRuns = true → s.hubUp = true →
    (∀ x ∈ s.control.journal, x.state = .done) → s.fw.rollbackDue = false →
    (s.control.restarts.filter (fun t => decide (s.localNs < t + 60 * billion))).length < 2 →
    ∃ t, exec .activationEpoch s = .next t ∧ t.control.mp = .restarting 5 ∧ t.fw.activating = true ∧ t.fw.pendingEpoch = none ∧
      t.control.ready = false)

/-- SESSION.OPEN with fewer than sixteen sessions gives the next number, notes it in the sill and holds the new session, an OBSERVER's open at once and another awaiting authentication. SESSION.AUTH opens the session when its signature holds, and otherwise closes it with cause 5. SESSION.CLOSE closes its own session, or for a SUPERVISOR another one, once the requests that precede it have been replied, at once where none waits or executes; so does the idle expiry, with cause 2, and a session that stays without authentication closes with cause 4. SESSION.GRANT_COUNTERS replaces an OBSERVER's grant, SESSION.GET_INFO answers the session's fields and SESSION.SET_EVENTS replaces a route's mask after the reply. A close drops just that session, and its event, in the session's version, says the cause. -/
def Obligations.SessionCommandsComplete : Prop :=
  (∀ (q : Request) (s : State), takenWithoutSession 0x1101 q s = true → 1 ≤ q.b 0 → q.b 0 ≤ 3 → q.b 1 ≤ 7 →
    (q.b 0 = 3 → q.b 1 = 0) → (q.h 2 = 0 ∨ 10 ≤ q.h 2) → s.control.sessions.length < 16 →
    let n := nextNumber (received 0x1101 q s)
    ∃ t, exec (.sessionOpen q) s = .next t ∧ t.sill.lastSession = n ∧ t.control.sessions.length = s.control.sessions.length + 1 ∧
      ∃ x ∈ t.control.sessions, x.number = n ∧ x.role.code = q.b 0 ∧ x.version = q.version ∧
        x.idleS = (if q.h 2 = 0 then 600 else q.h 2) ∧ x.keySlot = q.b 1 ∧ (x.awaiting = none ↔ q.b 0 = 3)) ∧
  (∀ (q : Request) (x : Session) (nonce : List Byte) (s : State), takenWithoutSession 0x1102 q s = true → 1 ≤ q.h 0 → q.h 2 = 0 →
    (received 0x1102 q s).session (q.h 0) = some x → x.awaiting = some nonce →
    ∃ t, exec (.sessionAuth q) s = .next t ∧
      (authHolds q x nonce s = true → t.session (q.h 0) = some { x with awaiting := none, nextSeq := 1 }) ∧
      (authHolds q x nonce s = false → t.session (q.h 0) = none ∧
        lastEvent t = some (0x1101, 0, be 2 x.number ++ be 1 5 ++ zeros 1))) ∧
  (∀ (q : Request) (s : State), taken 0x1103 q s = true → q.h 2 = 0 →
    let n := if q.h 0 = 0 then q.session.toNat else q.h 0
    let cause := if n = q.session.toNat then 1 else 3
    let u := admitted 0x1103 q s
    (u.session n).isSome = true →
    (u.executing .control 0 n = false → u.waitingOf n = 0 →
      ∃ t, exec (.sessionClose q) s = .next t ∧ t.session n = none ∧
        lastEvent t = some (0x1101, 0, be 2 n ++ be 1 cause ++ zeros 1)) ∧
    (u.executing .control 0 n = true ∨ u.waitingOf n ≠ 0 →
      ∃ t x, exec (.sessionClose q) s = .next t ∧ t.session n = some x ∧ x.closing = some (cause, u.waitingOf n))) ∧
  (∀ (q : Request) (x : Session) (s : State), taken 0x1104 q s = true → q.h 2 = 0 → q.w 4 ≤ 0xFFFFFF →
    (admitted 0x1104 q s).session (q.h 0) = some x → x.role = .observer → x.awaiting = none →
    exec (.sessionGrantCounters q) s = .next (carriedOut 0x1104 q .ok []
      (modSession (q.h 0) (fun x => { x with grants := q.w 4 }) (admitted 0x1104 q s)))) ∧
  (∀ (q : Request) (x : Session) (s : State), taken 0x1105 q s = true →
    (admitted 0x1105 q s).session q.session.toNat = some x →
    exec (.sessionGetInfo q) s = .next (got 0x1105 q (be 1 x.role.code ++ [x.version] ++ be 2 x.idleS ++ be 4 x.nextSeq.toNat ++
      be 4 x.grants ++ be 1 (admitted 0x1105 q s).control.sessions.length ++ zeros 3) (admitted 0x1105 q s))) ∧
  (∀ (q : Request) (s : State), taken 0x1106 q s = true → q.b 0 ≤ 2 → isZero q.payload 1 3 = true → q.w 4 % 2 = 0 → q.w 4 < 2 ^ 18 →
    exec (.sessionSetEvents q) s = .next (modRoute (q.b 0) (fun r => { r with mask := BitVec.ofNat 32 (q.w 4) })
      (carriedOut 0x1106 q .ok [] (admitted 0x1106 q s)))) ∧
  (∀ (n : Nat) (x : Session) (s : State), s.session n = some x →
    (x.awaiting = none → s.executing .control 0 n = false → s.waitingOf n = 0 →
      exec (.sessionIdleExpiry n) s = .next (closeSession n 2 s)) ∧
    (x.awaiting = none → s.executing .control 0 n = true ∨ s.waitingOf n ≠ 0 →
      exec (.sessionIdleExpiry n) s = .next (modSession n (fun x => { x with closing := some (2, s.waitingOf n) }) s)) ∧
    (x.awaiting ≠ none → exec (.sessionAuthExpiry n) s = .next (closeSession n 4 s))) ∧
  (∀ (n c : Nat) (s : State), (closeSession n c s).session n = none ∧ (∀ m, m ≠ n → (closeSession n c s).session m = s.session m) ∧
    lastEvent (closeSession n c s) = some (0x1101, 0, be 2 n ++ be 1 c ++ zeros 1) ∧
    (closeSession n c s).control.history.getLast?.map (fun e => e.version) = some (s.sessionVersion n))

/-- SYSTEM.GET_IDENTITY answers the serial number, the IDCODE, the speed grade and the fuses of the floor and of revocation. SYSTEM.RESET notes the reset it orders, after those ordered before it, until its reply leaves. SYSTEM.GET_DEBUG_CHALLENGE answers 32 bytes and holds them as the one nonce. SYSTEM.DEBUG_UNLOCK uses the nonce up whatever it finds, grants the level until its expiry when the token holds, and fires cause 6 either way. SYSTEM.GET_EVENTS answers the oldest and the next sequence, and at most COUNT of the events from FROM_SEQ on. -/
def Obligations.SystemCommandsComplete : Prop :=
  (∀ (q : Request) (s : State), taken 0x0101 q s = true →
    exec (.systemGetIdentity q) s = .next (got 0x0101 q (s.serial ++ be 4 slIdcode ++ be 1 s.otp.speedGrade ++ be 1 s.otp.floor ++
      be 1 s.otp.fwRevoked ++ zeros 1) (admitted 0x0101 q s))) ∧
  (∀ (q : Request) (s : State), taken 0x0102 q s = true → 1 ≤ q.b 0 → q.b 0 ≤ 3 → (q.b 0 = 3 → q.b 1 ≤ 3) →
    (q.b 0 ≠ 3 → q.b 1 = 0) → isZero q.payload 2 2 = true →
    exec (.systemReset q) s = .next (modControl (fun c => { c with resets := c.resets ++ [⟨q.b 0, q.b 1, s.control.nextEntry⟩] })
      (carriedOut 0x0102 q .ok [] (admitted 0x0102 q s)))) ∧
  (∀ (q : Request) (s : State), taken 0x0103 q s = true →
    ∃ t n, exec (.systemGetDebugChallenge q) s = .next t ∧ t.fw.debugNonce = some n ∧ n.length = 32 ∧
      t = got 0x0103 q n { (admitted 0x0103 q s) with fw := { s.fw with debugNonce := some n }, fresh := s.fresh + 32 }) ∧
  (∀ (q : Request) (s : State), taken 0x0104 q s = true → 1 ≤ q.b 0 → q.b 0 ≤ 3 → q.b 1 ≤ 1 → isZero q.payload 2 2 = true →
    s.timing.tod.sec < q.d 4 →
    ∃ t, exec (.systemDebugUnlock q) s = .next t ∧ t.fw.debugNonce = none ∧ t.sill.lastCause = 6 ∧
      (debugTokenHolds q s = true → t.sill.debugLevel = q.b 0 ∧ t.fw.debugExpiry = q.d 4 ∧
        lastEvent t = some (0x0103, 0, be 1 (q.b 0) ++ be 1 (q.b 1) ++ zeros 2)) ∧
      (debugTokenHolds q s = false → t.sill.debugLevel = s.sill.debugLevel ∧ t.sill.authFails = min (s.sill.authFails + 1) 255)) ∧
  (∀ (q : Request) (s : State), taken 0x0105 q s = true → q.u = 0 → 1 ≤ q.h 4 → q.h 4 ≤ 256 → isZero q.payload 6 2 = true →
    ∃ es : List EventRec, es.length ≤ q.h 4 ∧ (∀ e ∈ es, e ∈ s.control.history ∧ seqOlder e.seq (BitVec.ofNat 32 (q.w 0)) = false) ∧
      exec (.systemGetEvents q) s = .next (got 0x0105 q (be 4 (s.control.history.head?.map (fun e => e.seq) |>.getD s.sill.eventSeq).toNat ++
        be 4 s.sill.eventSeq.toNat ++ es.flatMap historyEntry) (admitted 0x0105 q s)))

/-- While Salurn runs, FIRMWARE.STAGE_BEGIN erases the header sector of the bank that is not committed, and nothing else of flash; FIRMWARE.STAGE_WRITE of the next bytes moves the staging on; FIRMWARE.STAGE_VERIFY ends it and, when the checks of R91 pass, the bank is staged. In the ROM, without a session, STAGE_BEGIN names hub memory and STAGE_VERIFY of a good image begins its INIT. FIRMWARE.ACTIVATE pends for its second, replacing one that pends (log entry 65), or stops the intake at once; FIRMWARE.COMMIT of a trial writes the other directory copy with the next SEQ and then blows the floor and revocation fuses, in full or, where the burn does not complete, in part (log entry 7); FIRMWARE.ROLLBACK cancels a pending activation, or ends a trial. Whether the flash takes an erase or a write is a free value (log entry 7), and each clause says both. -/
def Obligations.FirmwareCommandsComplete : Prop :=
  (∀ (q : Request) (s : State), taken 0x1001 q s = true →
    exec (.firmwareGetInfo q) s = .next (got 0x1001 q (be 1 s.committed ++ be 1 s.fw.runningBank ++ be 1 s.fwState ++ be 1 s.otp.floor ++
      be 4 (bankVersions s 0).1 ++ be 4 (bankVersions s 1).1 ++ be 2 (bankVersions s 0).2 ++ be 2 (bankVersions s 1).2 ++ zeros 4 ++
      be 8 (s.fw.pendingEpoch.getD 0)) (admitted 0x1001 q s))) ∧
  (∀ (q : Request) (s : State), taken 0x1002 q s = true → 4100 ≤ q.w 0 → q.w 0 ≤ 16777216 → q.w 0 % 4 = 0 →
    s.fw.trial = false → s.fw.pendingEpoch = none → stagedByOther q s = false → s.romTakes = false →
    ∃ t, exec (.firmwareStageBegin q) s = .next t ∧ t.fw.staged = none ∧
      (∀ a, bankBase (1 - s.committed) ≤ a → a < bankBase (1 - s.committed) + 0x10000 → flashByte t a = 0xFF) ∧
      (∀ a, a < bankBase (1 - s.committed) ∨ bankBase (1 - s.committed) + 0x10000 ≤ a → flashByte t a = flashByte s a) ∧
      t.fw.staging = (if Config.freeNat s.fresh % 2 = 0 then
        some { target := 1 - s.committed, length := q.w 0, session := q.session.toNat } else none)) ∧
  (∀ (q : Request) (g : Staging) (s : State), taken 0x1003 q s = true → s.fw.staging = some g → g.session = q.session.toNat →
    g.prevOffset ≠ some (q.w 0) → q.w 0 = g.written → q.w 0 + (q.payload.length - 4) ≤ g.length →
    ∃ t, exec (.firmwareStageWrite q) s = .next t ∧
      (Config.freeNat s.fresh % 2 = 0 ∨ g.target = 0xFF → ∃ g', t.fw.staging = some g' ∧ g'.written = q.w 0 + (q.payload.length - 4) ∧
        g'.prevOffset = some (q.w 0) ∧ g'.target = g.target ∧ g'.length = g.length) ∧
      (Config.freeNat s.fresh % 2 ≠ 0 ∧ g.target ≠ 0xFF → t.fw.staging = some g ∧ t.flash = s.flash)) ∧
  (∀ (q : Request) (g : Staging) (s : State), taken 0x1004 q s = true → s.fw.staging = some g → g.session = q.session.toNat →
    g.length ≤ g.written → g.target ≠ 0xFF → s.romTakes = false →
    ∃ t, exec (.firmwareStageVerify q) s = .next t ∧ t.fw.staging = none ∧
      (stagedCheck s g = none ∧ Config.freeNat s.fresh % 2 = 0 → t.fw.staged = some g.target ∧
        flashBytes t (bankBase g.target) 0x1000 = fitBytes 0x1000 g.held) ∧
      (stagedCheck s g ≠ none → t.fw.staged = s.fw.staged ∧ t.flash = s.flash)) ∧
  (∀ (q : Request) (s : State), takenWithoutSession 0x1002 q s = true → s.romTakes = true → 4100 ≤ q.w 0 → q.w 0 ≤ 16777216 →
    q.w 0 % 4 = 0 → s.fw.trial = false → s.fw.pendingEpoch = none → stagedByOther q s = false →
    exec (.firmwareStageBegin q) s = .next (carriedOut 0x1002 q .ok [0xFF, 0, 0, 0]
      (modFw (fun f => { f with staging := some { target := 0xFF, length := q.w 0, session := 0 } }) (received 0x1002 q s)))) ∧
  (∀ (q : Request) (g : Staging) (s : State), takenWithoutSession 0x1004 q s = true → s.fw.staging = some g → g.session = 0 →
    g.length ≤ g.written → g.target = 0xFF → stagedCheck s g = none →
    ∃ t, exec (.firmwareStageVerify q) s = .next t ∧ t.sill.stage = .init ∧ t.fw.fromMemory = true ∧ t.fw.staging = none ∧
      t.fw.running = headerImage (stagedBytes s g 0 352) ∧ t.sill.bootAlarm = false) ∧
  (∀ (q : Request) (b : Nat) (s : State), taken 0x1005 q s = true → q.b 0 ≤ 1 → isZero q.payload 1 3 = true → s.fw.staged = some b →
    s.domain.floor.getD 0 ≤ u32 (flashBytes s (bankBase b) 352) 8 →
    (q.b 0 = 1 → q.h 4 = 0 → s.timing.tod.sec < q.d 4 →
      exec (.firmwareActivate q) s =
        .next (carriedOut 0x1005 q .ok [] (modFw (fun f => { f with pendingEpoch := some (q.d 4) }) (admitted 0x1005 q s)))) ∧
    (q.b 0 = 0 → q.d 4 = 0 → exec (.firmwareActivate q) s =
      .next (settleIntake (modControl (fun c => { c with intakeStopped := true })
        (carriedOut 0x1005 q .ok [] (modFw (fun f => { f with activateDue := true }) (admitted 0x1005 q s))))))) ∧
  (∀ (q : Request) (s : State), taken 0x1006 q s = true → s.fw.trial = true →
    let goal := max s.otp.floor (min s.fw.running.secVersion 64)
    ∃ t, exec (.firmwareCommit q) s = .next t ∧
      (Config.freeNat s.fresh % 2 = 0 → t.fw.trial = false ∧ t.otp.ownerRoots = s.otp.ownerRoots ∧
        (∃ copy seq, flashBytes t (copy * 0x10000) 32 = directoryBytes seq s.fw.runningBank ∧
          (s.directory = none → copy = 0 ∧ seq = 1) ∧
          (∀ c d, s.directory = some (c, d) → copy = 1 - c ∧ seq = u32 d 4 + 1)) ∧
        s.otp.floor ≤ t.otp.floor ∧ t.otp.floor ≤ goal ∧
        (Config.freeNat (s.fresh + 1) % 2 = 0 → t.otp.floor = goal ∧
          t.otp.fwRevoked = s.otp.fwRevoked ||| s.fw.running.revoke)) ∧
      (Config.freeNat s.fresh % 2 ≠ 0 → t.fw = s.fw ∧ t.otp = s.otp ∧ t.flash = s.flash)) ∧
  (∀ (q : Request) (s : State), taken 0x1007 q s = true →
    (s.fw.trial = false → s.fw.pendingEpoch ≠ none → ∃ t, exec (.firmwareRollback q) s = .next t ∧ t.fw.pendingEpoch = none ∧
      lastEvent t = some (0x1002, 0, be 1 5 ++ zeros 3)) ∧
    (s.fw.trial = true → exec (.firmwareRollback q) s =
      .next (settleIntake (modControl (fun c => { c with intakeStopped := true })
        (carriedOut 0x1007 q .ok [] (modFw (fun f => { f with rollbackDue := true }) (admitted 0x1007 q s)))))))

/-- POWER.SET_TOLERANCE sets the tolerance of each domain it names and answers four bytes of each; POWER.GET_STATE answers eight. POWER.GET_POWER answers the target in force, readings in their ranges, which are free values (log entry 3), and an estimate from the typical power of the domain states and the readings, whose weighing is free (log entry 68). POWER.SET_REGULATOR resumes adaptation at its address when the regulator acknowledges, and otherwise completes, journaled, with ST_PMBUS_NACK and changes neither; which of the two happens is free. A command that needs an enabled domain goes on when the domain is in P0, brings it there from P1 or P2 also where its exit already runs, and answers ST_BUSY with the domain's exit started from P3 or P4. -/
def Obligations.PowerCommandsComplete : Prop :=
  (∀ (q : Request) (s : State), taken 0x0201 q s = true → 1 ≤ q.b 0 → q.b 0 ≤ 9 → (q.b 1 = 0xFF ∨ q.b 1 < classCount (q.b 0)) →
    q.h 2 = 0 →
    ∃ t, exec (.powerSetTolerance q) s = .next (carriedOut 0x0201 q .ok ((namedDomains (q.b 0) (q.b 1)).flatMap (domainEntry t (q.b 0))) t) ∧
      (∀ i ∈ namedDomains (q.b 0) (q.b 1), (t.dom (q.b 0) i).tol = q.w 4) ∧
      OnlyChanges [.sill, .power, .control, .counters, .stream, .domain, .cal, .elements, .carrier, .client] s t) ∧
  (∀ (q : Request) (s : State), taken 0x0202 q s = true → 1 ≤ q.b 0 → q.b 0 ≤ 9 → (q.b 1 = 0xFF ∨ q.b 1 < classCount (q.b 0)) →
    q.h 2 = 0 →
    exec (.powerGetState q) s = .next (got 0x0202 q ((namedDomains (q.b 0) (q.b 1)).flatMap (fun i =>
      be 1 (q.b 0) ++ be 1 i ++ be 1 (s.dom (q.b 0) i).state ++ be 1 (s.deepest (q.b 0) i) ++ be 4 (s.dom (q.b 0) i).tol))
      (admitted 0x0202 q s))) ∧
  (∀ (q : Request) (s : State), taken 0x0203 q s = true →
    ∃ mv ma, mv ≤ 1001 ∧ ma ≤ 400001 ∧
      exec (.powerGetPower q) s = .next (got 0x0203 q (be 2 s.power.targetMv ++ be 2 (if mv = 1001 then 0xFFFF else mv) ++
          be 4 (if ma = 400001 then 0xFFFFFFFF else ma) ++ be 4 (min 300000 (Config.deviceMw s.typicalMw mv ma)))
        { (admitted 0x0203 q s) with fresh := s.fresh + 2 })) ∧
  (∀ (q : Request) (s : State), taken 0x0204 q s = true → 0x08 ≤ q.b 0 → q.b 0 ≤ 0x77 → isZero q.payload 1 3 = true →
    (Config.freeNat s.fresh % 2 = 0 → ∃ v id, exec (.powerSetRegulator q) s = .next (carriedOut 0x0204 q .ok [] v) ∧
      v.power = { s.power with regAddr := q.b 0, regIdentity := id, adapting := true, nackRun := 0, pecRun := 0, recovered := false }) ∧
    (Config.freeNat s.fresh % 2 = 1 → ∃ v, exec (.powerSetRegulator q) s = .next (carriedOut 0x0204 q .pmbusNack [] v) ∧ v.power = s.power)) ∧
  (∀ (cls idx : Nat) (k : State → Reply) (s : State), s.enabled cls idx = true →
    ((s.dom cls idx).state = 0 → needing cls idx s k = k s) ∧
    (1 ≤ (s.dom cls idx).state → (s.dom cls idx).state ≤ 2 →
      ∃ t, needing cls idx s k = k t ∧ (t.dom cls idx).state = 0 ∧ t.pll (pllOf cls idx) = .locked ∧
        OnlyChanges [.sill, .power, .control, .counters] s t) ∧
    (3 ≤ (s.dom cls idx).state → (cls = 3 → s.quadForced idx = false) →
      ∃ t, needing cls idx s k = .reject .busy [] t ∧ (t.dom cls idx).exiting = true ∧ (t.dom cls idx).wake = true))

/-- An idle enabled domain whose hold time has passed enters the next deeper state that it is permitted: any domain but a transmit domain whose bias outputs still ramp, and but the two links in P0. A Tenon port that is up first asks its peer with SLEEP and enters P1 once the peer has agreed; the stream domain enters P1. A demand starts the exit of a sleeping domain and leaves one in P0 as it is, but for the full calibration of a transmit domain that has none. A starting PLL locks, and trains the lanes of the quad that waits for it. A domain that exits reaches P0 once its PLL has locked, its calibration is done and, from P4, no rise of VDD_CORE runs, and one that a command waits for raises EV_DOMAIN_AWAKE with its class and index; then the round that waited for the monitor ADC starts, and the ports that waited for a slice or a stack choose. -/
def Obligations.SleepFollowsIdleness : Prop :=
  (∀ (cls idx : Nat) (s : State), s.blocksRun = true → idx < classCount cls → s.enabled cls idx = true → (s.dom cls idx).exiting = false →
    s.domainIdle cls idx = true → (s.dom cls idx).state < s.deepest cls idx →
    (((cls ≠ 5 ∧ cls ≠ 6) ∨ (s.dom cls idx).state ≠ 0) → (cls = 1 → (s.dom cls idx).state = 3 → (s.calOf idx).bias = []) →
      ∃ t, exec (.domainHoldExpiry cls idx) s = .next t ∧ (t.dom cls idx).state = (s.dom cls idx).state + 1 ∧ (t.dom cls idx).exiting = false) ∧
    (cls = 5 → (s.dom cls idx).state = 0 → (s.tenon idx).state = 3 →
      (s.pins.trafficStopped = false → (s.tenon idx).retraining = false → (s.tenon idx).sleepSeen = false →
        ∃ t, exec (.domainHoldExpiry cls idx) s = .next t ∧ (t.tenon idx).sleepSent = true ∧ (t.tenon idx).state = 3 ∧
          OnlyChanges [.counters, .domain] s t) ∧
      (s.pins.trafficStopped = false → (s.tenon idx).retraining = false → (s.tenon idx).sleepSeen = true →
        ∃ t, exec (.domainHoldExpiry cls idx) s = .next t ∧ (t.dom cls idx).state = 1 ∧ (t.tenon idx).state = 4 ∧
          OnlyChanges [.power, .counters, .domain] s t)) ∧
    (cls = 6 → (s.dom cls idx).state = 0 → ∃ t, exec (.domainHoldExpiry cls idx) s = .next t ∧ (t.dom cls idx).state = 1 ∧
      (s.stream.state = 2 → t.stream.state = 3) ∧ OnlyChanges [.power, .stream] s t)) ∧
  (∀ (cls idx : Nat) (s : State), s.blocksRun = true → idx < classCount cls → s.enabled cls idx = true →
    (cls = 3 → s.quadForced idx = false) →
    ((s.dom cls idx).state = 0 → (cls = 1 → (s.cu idx).txCalibrated = true) → exec (.domainDemand cls idx) s = .next s) ∧
    ((s.dom cls idx).state = 0 → cls = 1 → (s.cu idx).txCalibrated = false → (s.calOf idx).fullTx = false →
      exec (.domainDemand cls idx) s = .next (startFullCal idx true s)) ∧
    ((s.dom cls idx).state ≠ 0 → (s.dom cls idx).exiting = true → exec (.domainDemand cls idx) s = .next s) ∧
    ((s.dom cls idx).state ≠ 0 → (s.dom cls idx).exiting = false → ∃ t, exec (.domainDemand cls idx) s = .next t ∧
      (t.dom cls idx).exiting = true ∧ (t.dom cls idx).state = (s.dom cls idx).state ∧
      OnlyChanges [.power, .cal, .elements, .carrier, .client] s t)) ∧
  (∀ (k : Fin 28) (s : State), s.hubUp = true → s.pll k = .starting →
    ∃ t, exec (.pllLock k) s = .next t ∧ t.pll k = .locked ∧ (∀ j, j ≠ k.val → t.pll j = s.pll j) ∧ t.power.domains = s.power.domains ∧
      (∀ q, q < 16 → k.val = 5 + q → (s.dom 3 q).exiting = true → tblGet 0 t.client.bursts q = 4096) ∧
      OnlyChanges [.power, .client] s t) ∧
  (∀ (cls idx : Nat) (s : State), s.hubUp = true → idx < classCount cls → (s.dom cls idx).exiting = true → s.pll (pllOf cls idx) = .locked →
    ((s.dom cls idx).state ≠ 4 ∨ s.coreRising = false) → (cls = 1 → (s.cu idx).txCalibrated = true) → (cls = 2 → (s.cu idx).rxCalibrated = true) → (cls = 8 → (s.calOf 4).fullTx = false) →
    ∃ u, (u.dom cls idx).state = 0 ∧ (u.dom cls idx).exiting = false ∧ (u.dom cls idx).wake = false ∧
      ((s.dom cls idx).wake = true → lastEvent u = some (0x0201, 0, be 1 cls ++ be 1 idx ++ zeros 2)) ∧
      exec (.domainExitComplete cls idx) s = .next (
        let v := if cls = 8 ∧ (u.calOf 4).roundDue = true then startRound 4 true u else u
        if cls = 4 ∨ cls = 9 then selectAll v else v))

/-- While Salurn adapts, an evaluation sets the target to a step of 5 mV from 0.65 V to 0.75 V, and one acknowledged PMBus step moves VDD_CORE toward it by at most 5 mV. The third step in a row that is not acknowledged, the third in a row whose PEC fails, and PMB_ALERT_N stop adaptation with EV_CORE_VOLTAGE_FAULT of causes 1, 2 and 3 and record the PMBus fault in the SUPPLY alarm bit. With adaptation stopped, the first lost margin commands 0.75 V once, and VDD_CORE moves there by the same steps. -/
def Obligations.CoreVoltageAdapts : Prop :=
  (∀ (k : Fin 21) (lost : Bool) (s : State), s.salurnRuns = true → s.power.adapting = true →
    exec (.coreVoltageEvaluation k lost) s = .next (modPower (fun p => { p with targetMv := 650 + 5 * k.val }) s)) ∧
  (∀ (k : Fin 21) (s : State), s.salurnRuns = true → s.power.adapting = false → s.power.recovered = false →
    exec (.coreVoltageEvaluation k true) s =
      .next (modPower (fun p => { p with targetMv := 750, recovered := true }) s)) ∧
  (∀ s : State, s.salurnRuns = true → s.power.adapting = false → s.power.recovered = true → s.power.coreMv ≠ s.power.targetMv →
    exec (.coreVoltageStep true true) s =
      .next (modPower (fun p => { p with coreMv := stepMv s.power.coreMv s.power.targetMv }) s)) ∧
  (∀ (k : Fin 21) (lost : Bool) (s : State), s.salurnRuns = true → s.power.adapting = false → (lost = false ∨ s.power.recovered = true) →
    exec (.coreVoltageEvaluation k lost) s = .next s) ∧
  (∀ s : State, s.salurnRuns = true → s.power.adapting = true → s.power.coreMv ≠ s.power.targetMv →
    (∃ t, exec (.coreVoltageStep true true) s = .next t ∧
      t.power = { s.power with nackRun := 0, pecRun := 0, coreMv := t.power.coreMv } ∧
      (s.power.coreMv < s.power.targetMv → s.power.coreMv < t.power.coreMv ∧ t.power.coreMv ≤ s.power.coreMv + 5 ∧
        t.power.coreMv ≤ s.power.targetMv) ∧
      (s.power.targetMv < s.power.coreMv → t.power.coreMv < s.power.coreMv ∧ s.power.coreMv ≤ t.power.coreMv + 5 ∧
        s.power.targetMv ≤ t.power.coreMv) ∧ OnlyChanges [.power] s t) ∧
    (∀ pec, s.power.nackRun = 2 → ∃ t, exec (.coreVoltageStep false pec) s = .next t ∧ t.power.adapting = false ∧
      t.sill.supplyAlarm = true ∧ lastEvent t = some (0x0202, 0, be 1 1 ++ zeros 3)) ∧
    (s.power.pecRun = 2 → ∃ t, exec (.coreVoltageStep true false) s = .next t ∧ t.power.adapting = false ∧
      t.sill.supplyAlarm = true ∧ lastEvent t = some (0x0202, 0, be 1 2 ++ zeros 3))) ∧
  (∀ s : State, s.salurnRuns = true → s.power.adapting = true →
    ∃ t, exec .pmbAlert s = .next t ∧ t.power.adapting = false ∧ t.power.coreMv = s.power.coreMv ∧ t.sill.supplyAlarm = true ∧
      lastEvent t = some (0x0202, 0, be 1 3 ++ zeros 3) ∧ OnlyChanges [.sill, .power, .control, .counters] s t)

/-- A CARRIER.SET_FORMAT whose fields are in range and whose OTUC_N is smaller than the present value is refused with ST_STATE while any tributary slot of the unit's OTUCn beyond the new n is allocated: 20 slots to each n. -/
def Obligations.OtucNStaysAboveItsSlots : Prop :=
  ∀ (q : Request) (g : Format) (s : State), taken 0x0301 q s = true → (formatChecks q s).all (fun c => c.1) = true →
    (s.cu q.u).fmt = some g → q.b 6 < g.otucN → s.slotsFrom q.u (20 * q.b 6) = true →
    exec (.carrierSetFormat q) s = .next (refused 0x0301 q .state [] (admitted 0x0301 q s))

/-- CARRIER.SET_FORMAT that passes its checks pends for its EPOCH, or comes due after its reply; a unit with both paths disabled then has the format in force on both. CARRIER.SET_PATH enables a path at once and disables it at its frame boundary, or at once where no frames pass (log entry 22). CARRIER.SET_DSP holds its settings, in action at once on a path without frames. CARRIER.SET_SPECTRAL_ORDER holds the order and answers the pairs it permits; it acts on each unit at its own next frame boundary, at once where no frames pass, and a joined pair that it no longer permits falls back. CARRIER.GET_STATUS answers 48 bytes and CARRIER.GET_CONFIG the format, pending or in force, and the settings. CARRIER.REACQUIRE of an awake receive in acquisition unlocks it with cause 4 and starts a warm or cold acquisition. -/
def Obligations.CarrierCommandsComplete : Prop :=
  (∀ (q : Request) (s : State), taken 0x0301 q s = true → (formatChecks q s).all (fun c => c.1) = true →
    let f := formatOf q
    let c := s.cu q.u
    ((c.txEn = true ∨ c.rxEn = true) → rateChanges c f = false) → (∀ g, c.fmt = some g → f.otucN < g.otucN → s.slotsFrom q.u (20 * f.otucN) = false) →
    (s.channel q.u 0).secure = false → (s.channel q.u 1).secure = false → s.twinOf q.u = none →
    c.dsp.cdOk (some f) = true → c.dsp.precompOk (some f) = true → (f.lineMode = 0 → f.fits f.otucN = true) →
    (q.b 10 = 1 → exec (.carrierSetFormat q) s =
      .next (carriedOut 0x0301 q .ok [] (modCu q.u (fun c => { c with pending := some (f, q.d 12) }) (admitted 0x0301 q s)))) ∧
    (q.b 10 = 0 → exec (.carrierSetFormat q) s = .next (formatDue q.u f (carriedOut 0x0301 q .ok [] (admitted 0x0301 q s))))) ∧
  (∀ (u : Nat) (f : Format) (s : State), (s.cu u).txEn = false → (s.cu u).rxEn = false →
    ((formatDue u f s).cu u).fmt = some f ∧ ((formatDue u f s).cu u).fmtTx = some f ∧ ((formatDue u f s).cu u).fmtRx = some f ∧
    ((formatDue u f s).cu u).pending = none) ∧
  (∀ (u : Fin 4) (f : Format) (e : Nat) (s : State), (s.cu u).pending = some (f, e) → s.blocksRun = true → e ≤ s.timing.tod.sec →
    exec (.formatEpoch u) s = .next (formatDue u f s)) ∧
  (∀ (q : Request) (s : State), taken 0x0302 q s = true → q.u < 4 → q.b 0 ≤ 1 → q.b 1 ≤ 1 → q.h 2 = 0 →
    let c := s.cu q.u
    (q.b 0 = 1 ∧ c.txEn = false ∨ q.b 1 = 1 ∧ c.rxEn = false → c.fmt ≠ none ∧ ∀ f e, c.pending = some (f, e) → rateChanges c f = false) →
    ∃ v, exec (.carrierSetPath q) s = .next (carriedOut 0x0302 q .ok [] v) ∧
      (q.b 0 = 1 → (v.cu q.u).txEn = true ∧ (c.txEn = true → (v.cu q.u).txOff = false)) ∧
      (q.b 0 = 0 → (s.txRuns q.u = true → (v.cu q.u).txEn = true ∧ (v.cu q.u).txOff = true) ∧
        (s.txRuns q.u = false → (v.cu q.u).txEn = false)) ∧
      (q.b 1 = 1 → (v.cu q.u).rxEn = true ∧ (c.rxEn = true → (v.cu q.u).rxOff = false)) ∧
      (q.b 1 = 0 → (c.rxEn = true → c.acq = 7 → (v.cu q.u).rxEn = true ∧ (v.cu q.u).rxOff = true) ∧
        (c.acq ≠ 7 → (v.cu q.u).rxEn = false)) ∧ (v.cu q.u).fmt = c.fmt) ∧
  (∀ (q : Request) (s : State), taken 0x0303 q s = true → q.u < 4 →
    let d := dspOf q
    let c := s.cu q.u
    d.cdOk c.fmt = true → d.cdSpan ≤ 200000 → -5000 ≤ d.txPrecomp → d.txPrecomp ≤ 5000 → d.precompOk c.fmt = true → 7 ≤ d.taps → d.taps ≤ 63 →
    d.taps % 2 = 1 → d.tracking ≤ 1 → d.nlcMode ≤ 2 → 10 ≤ d.joinWindow → d.joinWindow ≤ 16 → 2 ≤ d.daeShift → d.daeShift ≤ 8 →
    6 ≤ d.losThresh → d.losThresh ≤ 30 → d.timingBw ≤ 3 → d.preemph ≤ 24 → 60 ≤ d.clip → d.clip ≤ 140 → q.b 19 = 0 →
    (c.txEn = true → d.txPrecomp = c.dsp.txPrecomp) →
    (c.rxEn = true → (d.nlcMode = 2 ↔ c.dsp.nlcMode = 2) ∧ d.joinWindow = c.dsp.joinWindow) →
    ∃ v, exec (.carrierSetDsp q) s = .next (carriedOut 0x0303 q .ok [] v) ∧ (v.cu q.u).dsp = d ∧
      (s.txRuns q.u = false → s.coreRising = false → (v.cu q.u).dspTx = d) ∧
      (c.acq ≠ 7 → s.coreRising = false → (v.cu q.u).dspRx = d) ∧
      (s.txRuns q.u = true → c.acq = 7 → v = modCu q.u (fun c => { c with dsp := d }) (admitted 0x0303 q s))) ∧
  (∀ (q : Request) (s : State), taken 0x0304 q s = true → q.u = 0 →
    let ranks := [q.b 0, q.b 1, q.b 2, q.b 3]
    (∀ r ∈ ranks, r ≤ 3 ∨ r = 0xFF) → ranksDistinct ranks = true → q.b 4 < 8 →
    (∀ r < 3, (q.b 4).testBit r = true → r ∈ ranks ∧ r + 1 ∈ ranks) → q.b 5 < 16 → q.h 6 = 0 →
    (s.meetsFloor = true ∨ ∀ p < 4, (q.b 5).testBit p = true → s.joinery.order.joinEn.testBit p = true) →
    let o : Order := ⟨ranks, q.b 4, q.b 5⟩
    exec (.carrierSetSpectralOrder q) s = .next (forEach [0, 1, 2, 3] settleRx
      (carriedOut 0x0304 q .ok (be 1 (maskOf 4 o.permits) ++ be 1 (b2n (o.adjacent 0 2) + 2 * b2n (o.adjacent 1 3)) ++ zeros 2)
        (modJoinery (fun j => { j with order := o }) (admitted 0x0304 q s))))) ∧
  (∀ (u : Nat) (s : State), ((applyOrder u s).cu u).order = s.joinery.order ∧
    ((s.cu u).order ≠ s.joinery.order → ∀ p ∈ pairsOf u, (applyOrder u s).joinable p = false → ((applyOrder u s).pair p).joined = false)) ∧
  (∀ (q : Request) (s : State), taken 0x0305 q s = true → q.u < 4 →
    ∃ pl, exec (.carrierGetStatus q) s = .next (got 0x0305 q pl (admitted 0x0305 q s)) ∧ pl.length = 48 ∧
      pl.take 4 = be 1 (s.cu q.u).acq ++ be 1 (b2n (s.cu q.u).txEn + 2 * b2n (s.cu q.u).rxEn + 4 * b2n (s.txLive q.u)) ++
        be 1 (nlcState s q.u) ++ be 1 (maskOf 4 (fun p => (s.pair p).joined))) ∧
  (∀ (q : Request) (s : State), taken 0x0306 q s = true → q.u < 4 → q.b 0 ≤ 1 → isZero q.payload 1 3 = true → (s.cu q.u).rxEn = true →
    (s.dom 2 q.u).state = 0 →
    ((s.cu q.u).acq = 0 → exec (.carrierReacquire q) s = .next (carriedOut 0x0306 q .ok [] (admitted 0x0306 q s))) ∧
    ((s.cu q.u).acq ≠ 0 → exec (.carrierReacquire q) s =
      .next (acquire q.u (if q.b 0 = 1 then 3 else 1) false (unlock q.u 4 (carriedOut 0x0306 q .ok [] (admitted 0x0306 q s)))))) ∧
  (∀ (q : Request) (s : State), taken 0x0307 q s = true → q.u < 4 →
    ∃ pl, exec (.carrierGetConfig q) s = .next (got 0x0307 q pl (admitted 0x0307 q s)) ∧ pl.drop 20 = dspBytes (s.cu q.u).dsp ∧
      (∀ f e, (s.cu q.u).pending = some (f, e) → pl.take 20 = formatBytes f ++ be 1 1 ++ zeros 1 ++ be 8 e) ∧
      (∀ f, (s.cu q.u).pending = none → (s.cu q.u).fmt = some f → pl.take 20 = formatBytes f ++ zeros 10) ∧
      ((s.cu q.u).pending = none → (s.cu q.u).fmt = none → pl.take 20 = zeros 20))

/-- While traffic runs, a completed stage takes the receive to the next state of R184: EQUALISE only at 3.0 dB and FRAME in LINE_MODE 0 only once aligned. On reaching TRACKING it raises EV_CARRIER_LOCKED; in TRACKING the estimates follow, and an offset beyond 4.5 GHz is a divergence. COARSE_CD keeps the result of its search. A stage that times out restarts at AGC. Power below −LOS_THRESH leads to LOS_HOLD, counted where the loss did not stand yet; power 3 dB above it clears the loss and leads to a warm acquisition with values held and to a cold one without; after 1 s of it the values are discarded. Divergence of the equaliser returns to FREQ. Four bad frames in TRACKING are a loss of frame, with EV_CARRIER_UNLOCKED raised and counted by the same operation for every cause. -/
def Obligations.ReceiveAcquiresAndLoses : Prop :=
  (∀ (u : Fin 4) (scores : List (Int × Nat)) (dgd snr : Nat) (freq : Int) (sop : Nat) (s : State), s.trafficRuns = true →
    (∀ a b, (a, b) ∈ [(1, if (s.cu u).dspRx.cdSpan = 0 then 3 else 2), (2, 3), (4, 5)] → (s.cu u).acq = a →
      ∃ t, exec (.acqStageDone u scores dgd snr freq sop) s = .next t ∧ (t.cu u).acq = b ∧
        (a = 2 → (t.cu u).cdEst = cdSearch (scoreOf scores) (s.cu u).dspRx.cdCentre (s.cu u).dspRx.cdSpan) ∧ OnlyChanges [.carrier] s t) ∧
    ((s.cu u).acq = 3 → freq.natAbs ≤ 4000000 → ∃ t, exec (.acqStageDone u scores dgd snr freq sop) s = .next t ∧ (t.cu u).acq = 4) ∧
    ((s.cu u).acq = 5 → (snr < 300 → exec (.acqStageDone u scores dgd snr freq sop) s = .next s) ∧
      (300 ≤ snr → ∃ t, exec (.acqStageDone u scores dgd snr freq sop) s = .next t ∧ (t.cu u).acq = 6 ∧ (t.cu u).rxAligned = false)) ∧
    (∀ f, (s.cu u).acq = 6 → (s.cu u).fmtRx = some f →
      (f.lineMode = 0 → (s.cu u).rxAligned = false → exec (.acqStageDone u scores dgd snr freq sop) s = .next s) ∧
      (f.lineMode ≠ 0 ∨ (s.cu u).rxAligned = true → ∃ t, exec (.acqStageDone u scores dgd snr freq sop) s = .next t ∧ (t.cu u).acq = 7 ∧
        (t.cu u).held = true ∧ (t.cu u).lof = false ∧ (t.cu u).snrEst = snr ∧ (t.cu u).lastLock = s.timing.tod)) ∧
    ((s.cu u).acq = 7 → freq.natAbs ≤ 4500000 → exec (.acqStageDone u scores dgd snr freq sop) s =
      .next (modCu u (fun c => { c with dgdEst := dgd, snrEst := snr, freqOffset := freq, sopRate := sop }) s)) ∧
    ((s.cu u).acq = 7 → 4500000 < freq.natAbs → ∃ t, exec (.acqStageDone u scores dgd snr freq sop) s = .next t ∧ (t.cu u).acq = 3 ∧
      t.live pmCu u 2 = s.live pmCu u 2 + 1)) ∧
  (∀ (u : Fin 4) (s : State), s.trafficRuns = true → 1 ≤ (s.cu u).acq → (s.cu u).acq ≤ 6 → ((s.cu u).acq = 6 → (s.cu u).hunting = false) →
    ∃ t, exec (.acqStageTimeout u) s = .next t ∧ (t.cu u).acq = 1 ∧ t.live pmCu u 3 = s.live pmCu u 3 + 1 ∧ OnlyChanges [.carrier, .counters] s t) ∧
  (∀ (u : Fin 4) (level : Int) (s : State), s.trafficRuns = true → 1 ≤ (s.cu u).acq → (s.cu u).acq ≤ 7 →
    level < -100 * ((s.cu u).dspRx.losThresh : Int) →
    ∃ t, exec (.lossOfSignal ⟨u, level⟩) s = .next t ∧ (t.cu u).acq = 8 ∧ (t.cu u).los = true ∧
      t.live pmCu u 1 = s.live pmCu u 1 + (if (s.cu u).los then 0 else 1)) ∧
  (∀ (u : Fin 4) (level : Int) (s : State), s.trafficRuns = true → (s.cu u).los = true →
    300 - 100 * ((s.cu u).dspRx.losThresh : Int) ≤ level →
    ∃ t, exec (.losClear ⟨u, level⟩) s = .next t ∧ (t.cu u).los = false ∧
      (t.cu u).acq = (if (s.cu u).acq = 8 then (if (s.cu u).held then 3 else 1) else (s.cu u).acq) ∧ OnlyChanges [.carrier] s t) ∧
  (∀ (u : Fin 4) (s : State), s.hubUp = true → (s.cu u).acq = 8 →
    exec (.losHoldExpiry u) s = .next (modCu u (fun c => { c with held := false }) s)) ∧
  (∀ (u : Fin 4) (s : State), s.trafficRuns = true → 3 ≤ (s.cu u).acq → (s.cu u).acq ≤ 7 →
    ∃ t, exec (.equaliserDivergence u) s = .next t ∧ (t.cu u).acq = 3) ∧
  (∀ (u : Fin 4) (s : State), s.trafficRuns = true → (s.cu u).acq = 7 → (4 ≤ (s.cu u).rxTrainFails ∨ 4 ≤ (s.cu u).rxHeaderFails) →
    ∃ t, exec (.acfLossOfFrame u) s = .next t ∧ (t.cu u).lof = true ∧ (t.cu u).acq = (if (s.cu u).held then 3 else 1)) ∧
  (∀ (u cause : Nat) (s : State),
    ((s.cu u).acq = 7 → ((unlock u cause s).cu u).acq = 0 ∧ (unlock u cause s).live pmCu u 2 = s.live pmCu u 2 + 1 ∧
      ∃ e ∈ (unlock u cause s).control.history, e.code = 0x0302 ∧ e.unit = u ∧ e.payload = be 1 cause ++ zeros 3) ∧
    ((s.cu u).acq ≠ 7 → OnlyChanges [.carrier] s (unlock u cause s)))

/-- An eligible pair whose skew has stayed steady for 64 frames joins, with EV_JOINERY_JOINED of its lower unit. A joined pair for which a cause of R195 holds falls back with the lowest such cause in EV_JOINERY_FALLBACK, counted on both units. In both cases a unit adds or removes its neighbour's terms only at its own next frame boundary. Decoder-aided equalisation is suspended after four frames in a row whose feedback is discarded, and resumes after 16 good ones, each with its event. -/
def Obligations.JoineryAndFeedback : Prop :=
  (∀ (p : Fin 4) (s : State), s.blocksRun = true → (s.pair p).joined = false → s.pairEligible p = true → (s.pair p).steady = true →
    ∃ t, exec (.joineryJoin p) s = .next t ∧ (t.pair p).joined = true ∧ (t.pair p).sJoin = (s.pair p).last.getD 0 ∧
      (t.pair p).termsA = (s.pair p).termsA ∧ (t.pair p).termsB = (s.pair p).termsB ∧
      lastEvent t = some (0x0304, (pairUnits p).1, be 1 p ++ zeros 3 ++ beInt 4 ((s.pair p).last.getD 0)) ∧
      OnlyChanges [.sill, .control, .counters, .joinery] s t) ∧
  (∀ (p : Fin 4) (c : Nat) (s : State), s.blocksRun = true → (s.pair p).joined = true → fallbackCause s p = some c →
    ∃ t, exec (.joineryFallback p) s = .next t ∧ (t.pair p).joined = false ∧
      (t.pair p).termsA = (s.pair p).termsA ∧ (t.pair p).termsB = (s.pair p).termsB ∧
      t.live pmCu (pairUnits p).1 5 = s.live pmCu (pairUnits p).1 5 + 1 ∧ t.live pmCu (pairUnits p).2 5 = s.live pmCu (pairUnits p).2 5 + 1 ∧
      (∃ pl, lastEvent t = some (0x0303, (pairUnits p).1, pl) ∧ pl.take 2 = be 1 p ++ be 1 c) ∧
      OnlyChanges [.sill, .control, .counters, .joinery] s t) ∧
  (∀ (u : Fin 4) (s : State), OnlyChanges [.joinery] s (settleTerms u s) ∧
    ∀ p ∈ pairsOf u, ((settleTerms u s).pair p).joined = (s.pair p).joined ∧
      (if (pairUnits p).1 = u.val then ((settleTerms u s).pair p).termsA else ((settleTerms u s).pair p).termsB) = (s.pair p).joined) ∧
  (∀ (u : Fin 4) (s : State), s.trafficRuns = true → (s.cu u).acq = 7 → (s.cu u).deep = true →
    ((s.cu u).daeSuspended = false → 4 ≤ (s.cu u).daeDiscardRun → ∃ t, exec (.daeSuspend u) s = .next t ∧
      (t.cu u).daeSuspended = true ∧ lastEvent t = some (0x0305, u.val, []) ∧ OnlyChanges [.sill, .control, .counters, .carrier] s t) ∧
    ((s.cu u).daeSuspended = true → 16 ≤ (s.cu u).daeGoodRun → ∃ t, exec (.daeResume u) s = .next t ∧
      (t.cu u).daeSuspended = false ∧ lastEvent t = some (0x0306, u.val, []) ∧ OnlyChanges [.sill, .control, .counters, .carrier] s t))

/-- A running transmit with nothing waiting for its boundary sends one frame: the frame count moves on in LINE_MODE 0, and a muted unit shows no symbol. A receive in FRAME that sees the third trained frame, one header of which matched, is aligned; one in TRACKING counts each frame and follows its training. A codeword decoded in TRACKING is counted, with the bits changed and whether it converged, in LINE_MODE 0 as the decoder finds them, its bits kept for the frame. FEC.GET_FRAME_INFO answers the geometry in LINE_MODE 0, FEC.GET_COUNTS the latched counts, and FEC.SET_INJECT holds the injection for the next frame boundary. -/
def Obligations.CarrierFramesAndFec : Prop :=
  (∀ (u : Fin 4) (clipped : Nat) (f : Format) (s : State), s.txRuns u = true → (s.cu u).fmtTx = some f → (s.cu u).dueTx = none → (s.cu u).txOff = false →
    s.coreRising = false →
    ∃ t, exec (.acfFrameTx u clipped) s = .next t ∧
      (f.lineMode = 0 → (t.cu u).txFrames = (s.cu u).txFrames + 1 ∧ (s.muteDue u = true → (t.cu u).line = [] ∧ (t.cu u).dac = [])) ∧
      (f.lineMode ≠ 0 → (t.cu u).txFrames = (s.cu u).txFrames ∧ t.live pmCu u 0 = s.live pmCu u 0 + clipped) ∧ (t.cu u).dspTx = (s.cu u).dsp ∧ (t.cu u).muted = s.muteDue u) ∧
  (∀ (u : Fin 4) (seen : AcfSeen) (f : Format) (s : State), s.trafficRuns = true → (s.cu u).fmtRx = some f → f.lineMode = 0 →
    ((s.cu u).acq = 6 → (s.cu u).rxAligned = false → (s.cu u).rxVerify = 2 → (s.cu u).rxHeaderGood = true → seen.training = true →
      ∃ t, exec (.acfFrameRx u seen) s = .next t ∧ (t.cu u).rxAligned = true ∧ (t.cu u).acq = 6) ∧
    ((s.cu u).acq = 7 → (s.cu u).dueRx = none → (s.cu u).dspRx = (s.cu u).dsp → (s.cu u).rxOff = false →
      ∃ t, exec (.acfFrameRx u seen) s = .next t ∧ t.live pmCu u 16 = s.live pmCu u 16 + 1 ∧ (t.cu u).acq = 7 ∧
        (t.cu u).rxTrainFails = (if seen.training then 0 else (s.cu u).rxTrainFails + 1))) ∧
  (∀ (u : Fin 4) (w : Decoded) (f : Format) (s : State), s.trafficRuns = true → (s.cu u).acq = 7 → (s.cu u).fmtRx = some f → w.incomplete = false →
    (f.lineMode ≠ 0 → ∃ t, exec (.codewordDecoded u w) s = .next t ∧ t.live pmCu u 10 = s.live pmCu u 10 + 1 ∧
      t.live pmCu u 9 = s.live pmCu u 9 + w.changed ∧ t.live pmCu u 11 = s.live pmCu u 11 + (if w.converged then 0 else 1) ∧
      OnlyChanges [.counters] s t) ∧
    (f.lineMode = 0 →
      let d := (decodeCodeword u f w s).2.2
      ∃ t, exec (.codewordDecoded u w) s = .next t ∧ t.live pmCu u 10 = s.live pmCu u 10 + 1 ∧
        t.live pmCu u 9 = s.live pmCu u 9 + changedBits (decodeCodeword u f w s).1 d.bits ∧
        t.live pmCu u 11 = s.live pmCu u 11 + (if d.converged then 0 else 1) ∧ t.live pmCu u 12 = s.live pmCu u 12 + d.iterations ∧
        (t.cu u).cwTotal = (s.cu u).cwTotal + 1 ∧ tblGet [] (t.cu u).decided (4 * w.group + w.codeword) = d.bits ∧
        OnlyChanges [.carrier, .counters, .fresh] s t)) ∧
  (∀ (q : Request) (f : Format) (s : State), taken 0x0401 q s = true → q.u < 4 → (s.cu q.u).fmt = some f →
    (f.lineMode = 0 → exec (.fecGetFrameInfo q) s = .next (got 0x0401 q (be 1 f.c ++ be 1 f.mu ++ be 2 f.wg ++ be 2 f.groups ++
      be 2 f.pad ++ be 4 f.t ++ be 4 f.eMax ++ be 4 f.dg ++ be 4 f.capMbps ++ be 1 f.maxN ++ zeros 3) (admitted 0x0401 q s))) ∧
    (f.lineMode ≠ 0 → exec (.fecGetFrameInfo q) s = .next (refused 0x0401 q .state [] (admitted 0x0401 q s)))) ∧
  (∀ (q : Request) (s : State), taken 0x0402 q s = true → q.u < 4 →
    exec (.fecGetCounts q) s = .next (got 0x0402 q (countsReply s pmCu q.u 8 15) (admitted 0x0402 q s))) ∧
  (∀ (q : Request) (s : State), taken 0x0403 q s = true → q.u < 4 → q.b 0 ≤ 2 → (q.b 0 = 1 → 2 ≤ q.b 1 ∧ q.b 1 ≤ 12) → (q.b 0 ≠ 1 → q.b 1 = 0) →
    q.h 2 = 0 → (q.b 0 = 2 ↔ q.w 4 ≠ 0) → (s.cu q.u).txEn = true → (∀ f, (s.cu q.u).fmt = some f → f.lineMode = 0) → s.txRuns q.u = true →
    exec (.fecSetInject q) s = .next (carriedOut 0x0403 q .ok []
      (modCu q.u (fun c => { c with inject := ⟨q.b 0, q.b 1, q.w 4⟩ }) (admitted 0x0403 q s))))

/-- While blocks run, a falling edge of OAn_INT_N raises EV_PIC_INT with UNIT set to the site when none was raised for that site before, or when the pin has been high for at least 1 µs since; any other falling edge raises none, and every edge leaves the site waiting for that microsecond. -/
def Obligations.PicInterruptIsRaisedOnce : Prop :=
  ∀ (u : Fin 4) (highNs : Nat) (s : State), s.blocksRun = true →
    ((s.calOf u).intArmed = true ∨ 1000 ≤ highNs → ∃ t, exec (.picInterrupt u highNs) s = .next t ∧
      lastEvent t = some (0x0B04, u.val, []) ∧ (t.calOf u).intArmed = false ∧ OnlyChanges [.sill, .control, .counters, .cal] s t) ∧
    ((s.calOf u).intArmed = false → highNs < 1000 → ∃ t, exec (.picInterrupt u highNs) s = .next t ∧
      (t.calOf u).intArmed = false ∧ OnlyChanges [.cal] s t)

/-- A round opens on its interval while none runs; its window A notes an estimate of each element it estimates, its window B judges them. Two estimates that differ by more than the tolerance are counted in REJ_DISAGREE and change nothing; ones that agree on 0 change nothing; ones that agree on a correction whose target is in range add it to INSERVICE and count in APPLIED; out of range they count in REJ_RANGE. A full calibration that ends marks its side calibrated, raises EV_CAL_DONE, and starts the cold acquisition of an enabled receive. One step moves a trim toward its target by no more than its largest step. The monitor's step, with the domain in P0, is taken on the converters of each sequencer with no pass part-way, marks the injected conversion pending there, and occupies each of those converters for 8 conversion times. -/
def Obligations.CalibrationAgrees : Prop :=
  (∀ (u : Fin 5) (s : State), s.blocksRun = true → (s.calOf u).round = false → (s.calOf u).fullTx = false → (s.calOf u).fullRx = false →
    ∃ t, exec (.calRoundStart u) s = .next t ∧ (t.calOf u).round = true ∧ (t.calOf u).window = 0 ∧ (t.calOf u).inForce = (s.calOf u).policy ∧
      (t.calOf u).skipped = (unitSources u).filter (fun x => !s.calQualified u x) ∧ OnlyChanges [.cal, .elements] s t) ∧
  (∀ (u : Fin 5) (est : List (Nat × Nat × Int)) (s : State), s.blocksRun = true →
    (s.fullReady u true = true ∨ s.fullReady u false = true → ∃ t, exec (.calWindowDone u est) s = .next t ∧
      (t.calOf u).fullB = !(s.calOf u).fullB ∧ (t.calOf u).fullTx = (s.calOf u).fullTx ∧ (t.calOf u).fullRx = (s.calOf u).fullRx) ∧
    ((s.calOf u).fullTx = false → (s.calOf u).fullRx = false → (s.calOf u).round = true →
      ((s.calOf u).window = 0 → ∃ t, exec (.calWindowDone u est) s = .next t ∧ (t.calOf u).window = 1 ∧
        (∀ x ∈ roundElements u (t.calOf u), (t.elem u x.1 x.2).estimateA = some (estimateOf est x)) ∧ OnlyChanges [.cal, .elements] s t) ∧
      ((s.calOf u).window = 1 → ∃ t, exec (.calWindowDone u est) s = .next t ∧ (t.calOf u).window ≠ 1))) ∧
  (∀ (u p i : Nat) (a b : Int) (full : Bool) (s : State), (s.elem u p i).superseded = false →
    (if full = true then (if txParam p = true then (s.calOf u).fullSupTx else (s.calOf u).fullSupRx) else (s.calOf u).allSuperseded) = false →
    let e := s.elem u p i
    let t := judge u p i a b full s
    let c := (a + b).tdiv 2
    ((paramOf p).tol < (a - b).natAbs →
      (t.elem u p i).inservice = e.inservice ∧ (t.calOf u).rejDisagree = (s.calOf u).rejDisagree + 1 ∧ (t.calOf u).applied = (s.calOf u).applied) ∧
    ((a - b).natAbs ≤ (paramOf p).tol →
      (c = 0 → (t.elem u p i).inservice = e.inservice ∧ (t.calOf u).applied = (s.calOf u).applied) ∧
      (c ≠ 0 → (paramOf p).holds (e.target + c) = true →
        (t.elem u p i).inservice = e.inservice + c ∧ (t.calOf u).applied = (s.calOf u).applied + 1 ∧
        (full = true → (t.elem u p i).trim = (t.elem u p i).target)) ∧
      (c ≠ 0 → (paramOf p).holds (e.target + c) = false →
        (t.elem u p i).inservice = e.inservice ∧ (t.calOf u).rejRange = (s.calOf u).rejRange + 1))) ∧
  (∀ (u : Fin 5) (tx : Bool) (s : State), s.hubUp = true → s.fullReady u tx = true →
    ∃ t, exec (.fullCalibrationDone u tx) s = .next t ∧ (if tx then (t.calOf u).fullTx else (t.calOf u).fullRx) = false ∧
      (u.val < 4 → (if tx then (t.cu u).txCalibrated else (t.cu u).rxCalibrated) = true) ∧
      (∃ n, lastEvent t = some (0x0B01, u.val, be 1 1 ++ zeros 1 ++ be 2 n)) ∧
      (tx = false → (s.cu u).rxEn = true → (t.cu u).acq = 1)) ∧
  (∀ (u p i : Nat) (s : State),
    let e := s.elem u p i
    let x := (stepElement u p i s).elem u p i
    x.target = e.target ∧ (x.trim - e.trim).natAbs ≤ (paramOf p).step ∧ (x.target - x.trim).natAbs + (x.trim - e.trim).natAbs = (e.target - e.trim).natAbs) ∧
  (∀ s : State, s.blocksRun = true → (s.dom 8 0).state = 0 →
    let u := forEach s.stepFree (fun c s => modConverter c (fun k => { k with busyUntil := s.localNs + s.stepNs }) (markPrecal c s)) s
    exec .monCalStep s = .next (endRound 4 (replyOverlays 4 (stepTrims 4 true true (fun k => s.stepFree.contains k.2) u))) ∧
    (s.monitor.pair = false → ∀ c < 2, c ∈ s.stepFree ↔ (s.sequencer c).partWay = false) ∧
    (s.monitor.pair = true → ∀ c < 2, c ∈ s.stepFree ↔ (s.sequencer 0).partWay = false) ∧
    (∀ c ∈ s.stepFree, (u.converter c).busyUntil = s.localNs + s.stepNs ∧
      ∀ i, s.injection c = some i → u.injection c = some { i with carry := { i.carry with precal := true } }) ∧
    (∀ c, c ∉ s.stepFree → u.converter c = s.converter c ∧ u.injection c = s.injection c))

/-- CAL.GET_PARAM answers the four layers' values of each element; CAL.SET_OVERLAY changes every overlay or, when a target would leave its range, none, naming the first; its reply waits for the last step. CAL.SAVE_RECORD, which waits for the entropy source with ST_BUSY, writes nothing but the copy not in force, under the next SEQ (the signatures are opaque and flash may refuse: log entries 4 and 7). CAL.RUN starts a full calibration of a disabled unit, or a round when none runs or is due: at once, or when the monitor ADC has woken. CAL.SET_POLICY, CAL.SET_ANALOG, CAL.SET_BIAS and CAL.PIC_SPI hold their settings, the last with the bytes of its transfer; bias codes named in P4 wait for its exit, and analog settings for the next boundary where there is one. CAL.GET_STATS answers 40 bytes. A bias output moves by RAMP codes a millisecond, and a disabled transmit whose last output has reached 0 enters P4. -/
def Obligations.CalCommandsComplete : Prop :=
  (∀ (q : Request) (s : State), taken 0x0B01 q s = true → (elementChecks q).all (fun c => c.1) = true →
    exec (.calGetParam q) s = .next (got 0x0B01 q ((List.range (q.h 2)).flatMap (fun i =>
      let e := s.elem q.u (q.b 0) (q.b 1 + i)
      beInt 2 e.factory ++ beInt 2 e.overlay ++ beInt 2 e.inservice ++ beInt 2 e.trim)) (admitted 0x0B01 q s))) ∧
  (∀ (q : Request) (s : State), taken 0x0B02 q s = true → (elementChecks q).all (fun c => c.1) = true →
    q.payload.length = 4 + (q.h 2 + 1) / 2 * 4 → (∀ i < q.h 2, (paramOf (q.b 0)).holds (ifield q.payload (4 + 2 * i) 2) = true) →
    isZero q.payload (4 + 2 * q.h 2) (q.payload.length - (4 + 2 * q.h 2)) = true →
    let val := fun i => ifield q.payload (4 + 2 * i) 2
    let t := forEach ((List.range (q.h 2)).map (fun i => (i, q.b 1 + i))) (fun x s => supersede q.u (q.b 0) x.2 s) (admitted 0x0B02 q s)
    let fits := fun i => (paramOf (q.b 0)).holds ((t.elem q.u (q.b 0) (q.b 1 + i)).factory + val i + (t.elem q.u (q.b 0) (q.b 1 + i)).inservice)
    (∀ i < q.h 2, fits i = false → (∀ j < i, fits j = true) →
      exec (.calSetOverlay q) s = .next (refused 0x0B02 q .calRange (be 1 (q.b 0) ++ zeros 1 ++ be 2 (q.b 1 + i)) (admitted 0x0B02 q s))) ∧
    ((∀ i < q.h 2, fits i = true) → ∃ v, (∀ i < q.h 2, (v.elem q.u (q.b 0) (q.b 1 + i)).overlay = val i) ∧
      ((∀ i < q.h 2, (v.elem q.u (q.b 0) (q.b 1 + i)).trim = (v.elem q.u (q.b 0) (q.b 1 + i)).target) →
        exec (.calSetOverlay q) s = .next (carriedOut 0x0B02 q .ok [] v)) ∧
      ((∃ i < q.h 2, (v.elem q.u (q.b 0) (q.b 1 + i)).trim ≠ (v.elem q.u (q.b 0) (q.b 1 + i)).target) →
        exec (.calSetOverlay q) s = .next (begun 0x0B02 q (.overlay q.u (q.b 0) (q.b 1)
          ((List.range (q.h 2)).map (fun i => (s.elem q.u (q.b 0) (q.b 1 + i)).overlay))) v)))) ∧
  (∀ (q : Request) (s : State), taken 0x0B03 q s = true → q.u < 5 → s.security.entropyOk = false →
    exec (.calSaveRecord q) s = .next (refused 0x0B03 q .busy [] (admitted 0x0B03 q s))) ∧
  (∀ (q : Request) (s : State), taken 0x0B03 q s = true → q.u < 5 → s.security.entropyOk = true →
    let copy := match s.calRecord with | some c => 1 - c | none => 0
    let seq := match s.calRecord with | some c => u32 (calCopy s c) 8 + 1 | none => 1
    ∃ t st pl, exec (.calSaveRecord q) s = .next (carriedOut 0x0B03 q st pl t) ∧ (st = .ok ∨ st = .calRecord) ∧
      (seq ≤ 0xFFFFFFFE → Config.freeNat (s.fresh + 1) % 2 = 0 → st = .ok) ∧ (st = .calRecord → t.flash = s.flash) ∧
      (st = .ok → pl = be 4 seq ∧ flashBytes t (calCopyAt copy) 12 = be 4 0xA6C41B00 ++ be 2 1 ++ zeros 2 ++ be 4 seq) ∧
      (∀ a, a < calCopyAt copy ∨ calCopyAt copy + 0x10000 ≤ a → flashByte t a = flashByte s a)) ∧
  (∀ (q : Request) (s : State), taken 0x0B04 q s = true → q.u < 5 → isZero q.payload 1 3 = true →
    (q.b 0 = 1 → (q.u < 4 → (s.cu q.u).txEn = false ∧ (s.cu q.u).rxEn = false) →
      ∃ v, exec (.calRun q) s = .next (carriedOut 0x0B04 q .ok [] v) ∧ (v.calOf q.u).fullTx = true ∧ (q.u < 4 → (v.calOf q.u).fullRx = true)) ∧
    (q.b 0 = 2 → (s.calOf q.u).round = false → (s.calOf q.u).roundDue = false → (s.calOf q.u).fullTx = false → (s.calOf q.u).fullRx = false →
      let r := rouseUnit q.u (admitted 0x0B04 q s)
      ((q.u = 4 → (r.dom 8 0).state = 0) → exec (.calRun q) s = .next (startRound q.u true (carriedOut 0x0B04 q .ok [] r))) ∧
      (q.u = 4 → (r.dom 8 0).state ≠ 0 → exec (.calRun q) s = .next (carriedOut 0x0B04 q .ok []
        (modCal 4 (fun c => { c with roundDue := true, byCommand := true }) r)))) ∧
    (q.b 0 = 2 → ((s.calOf q.u).round = true ∨ (s.calOf q.u).roundDue = true ∨ (s.calOf q.u).fullTx = true ∨ (s.calOf q.u).fullRx = true) →
      exec (.calRun q) s = .next (refused 0x0B04 q .busy [] (admitted 0x0B04 q s)))) ∧
  (∀ (q : Request) (s : State), taken 0x0B05 q s = true → q.u < 5 → q.h 0 < (if q.u = 4 then 8 else 1024) → 1 ≤ q.h 2 → q.h 2 ≤ 3600 →
    (q.u < 4 → 16 ≤ q.b 4 ∧ q.b 4 ≤ 24 ∧ 16 ≤ q.b 5 ∧ q.b 5 ≤ 26 ∧ 14 ≤ q.b 6 ∧ q.b 6 ≤ 22) →
    (q.u = 4 → q.b 4 = 0 ∧ q.b 5 = 0 ∧ q.b 6 = 0) → q.b 7 = 0 →
    exec (.calSetPolicy q) s = .next (carriedOut 0x0B05 q .ok []
      (modCal q.u (fun c => { c with policy := ⟨q.h 0, q.h 2, q.b 4, q.b 5, q.b 6⟩ }) (admitted 0x0B05 q s)))) ∧
  (∀ (q : Request) (s : State), taken 0x0B06 q s = true → q.u < 5 →
    ∃ pl, exec (.calGetStats q) s = .next (got 0x0B06 q pl (admitted 0x0B06 q s)) ∧ pl.length = 40 ∧
      pl.take 20 = be 4 (s.calOf q.u).applied.toNat ++ be 4 (s.calOf q.u).rejDisagree.toNat ++ be 4 (s.calOf q.u).rejRange.toNat ++
        be 4 (s.calOf q.u).rejSuperseded.toNat ++ be 4 (s.calOf q.u).suspended.toNat) ∧
  (∀ (q : Request) (s : State), taken 0x0B07 q s = true → q.u < 4 → 400 ≤ q.h 0 → q.h 0 ≤ 900 → q.h 0 % 10 = 0 → 250 ≤ q.h 2 → q.h 2 ≤ 750 →
    q.h 2 % 10 = 0 →
    ∃ v, exec (.calSetAnalog q) s = .next (carriedOut 0x0B07 q .ok [] v) ∧
      ((rouseUnit q.u (admitted 0x0B07 q s)).txRuns q.u = true →
        (v.calOf q.u).pendingSwing = some (q.h 0) ∧ (v.calOf q.u).dacSwing = (s.calOf q.u).dacSwing) ∧
      ((rouseUnit q.u (admitted 0x0B07 q s)).txRuns q.u = false → (v.calOf q.u).dacSwing = q.h 0) ∧
      (s.trafficRuns = true → (s.cu q.u).acq = 7 → (v.calOf q.u).pendingFs = some (q.h 2) ∧ (v.calOf q.u).adcFs = (s.calOf q.u).adcFs) ∧
      ((s.cu q.u).acq ≠ 7 → (v.calOf q.u).adcFs = q.h 2)) ∧
  (∀ (q : Request) (s : State), taken 0x0B08 q s = true → q.u < 4 → (q.b 0 ≤ 3 ∨ q.b 0 = 0xFF) → q.b 1 = 0 → q.h 2 ≤ 4095 → q.h 4 ≤ 4095 → q.h 6 = 0 →
    ∃ v, exec (.calSetBias q) s = .next (carriedOut 0x0B08 q .ok [] v) ∧
      (∀ ch ≤ 3, q.b 0 = ch ∨ q.b 0 = 0xFF →
        let b := (s.calOf q.u).biasOf ch
        let c := (v.calOf q.u).biasOf ch
        ((s.dom 1 q.u).state ≠ 4 → c.target = q.h 2 ∧ c.ramp = q.h 4 ∧ c.code = (if q.h 4 = 0 then q.h 2 else b.code)) ∧
        ((s.dom 1 q.u).state = 4 → c = { b with due := some (q.h 2, q.h 4) })) ∧
      (∀ ch, q.b 0 ≤ 3 → ch ≠ q.b 0 → (v.calOf q.u).biasOf ch = (s.calOf q.u).biasOf ch)) ∧
  (∀ (q : Request) (s : State), taken 0x0B09 q s = true → q.u < 4 → 1 ≤ q.b 0 → q.b 0 ≤ 49 → (q.b 1 = 0 ∨ q.b 1 = 3) → q.b 2 ≤ 2 → q.b 3 ≤ 252 →
    q.payload.length = 4 + (q.b 3 + 3) / 4 * 4 → isZero q.payload (4 + q.b 3) (q.payload.length - (4 + q.b 3)) = true →
    ∃ v r, exec (.calPicSpi q) s = .next (carriedOut 0x0B09 q .ok r v) ∧ r.length = q.b 3 ∧
      (v.calOf q.u).picReleased = (if q.b 2 = 1 then true else if q.b 2 = 2 then false else (s.calOf q.u).picReleased) ∧
      (0 < q.b 3 → (v.calOf q.u).spi = some ⟨q.b 0, q.b 1, bytesAt q.payload 4 (q.b 3), r⟩)) ∧
  (∀ (u ch : Fin 4) (limited : Bool) (s : State), s.hubUp = true → s.enabled 1 u = true →
    ∃ t, exec (.biasRampStep u ch limited) s = .next t ∧ ((t.calOf u).biasOf ch).compliance = limited ∧
      (let b := (s.calOf u).biasOf ch
       let c := ((t.calOf u).biasOf ch).code
       (b.ramp = 0 → c = b.target) ∧ (b.code ≤ b.target → c ≤ b.target ∧ (b.ramp ≠ 0 → c ≤ b.code + b.ramp)) ∧
       (b.target ≤ b.code → b.target ≤ c ∧ (b.ramp ≠ 0 → b.code ≤ c + b.ramp))) ∧ OnlyChanges [.cal] s t) ∧
  (∀ (u ch : Fin 4) (limited : Bool) (b : Bias) (s : State), s.hubUp = true → s.enabled 1 u = false → (s.dom 1 u).state ≠ 4 →
    (s.calOf u).bias = [(ch.val, b)] → b.target = 0 → b.code ≤ b.ramp →
    ∃ t, exec (.biasRampStep u ch limited) s = .next t ∧ (t.dom 1 u).state = 4 ∧ (t.cu u).txCalibrated = false)

/-- A framer in frame with five errored FAS leaves the frame with OOF, and comes back with two good ones; LOF follows OOF, OOM five wrong MFAS and LOM follows OOM, each cleared when its condition is over. A defect judged by persistence is set or cleared when its run is complete. Setting or clearing a defect leaves the DEFECTS that the masks allow, those of the path unmasked while the other copy of a twin group feeds it, and a change outside a gathering period is raised at once with the new value and the bits changed; at the end of the period gathered changes are raised, or the period closes. -/
def Obligations.FramerDefects : Prop :=
  (∀ (u bit : Nat) (on : Bool) (s : State), let d := (s.frm u).defects
    ((putDefect u bit on s).frm u).defects = maskDefects (s.mergedHolds u) (if on then d ||| 2 ^ bit else if d.testBit bit then d - 2 ^ bit else d)) ∧
  (∀ (u d : Nat) (s : State), maskDefects (s.mergedHolds u) d ≠ (s.frm u).defects → (s.frm u).gather = none →
    ∃ e ∈ (setDefects u d s).control.history, e.code = 0x0501 ∧ e.unit = u ∧
      e.payload = be 4 (maskDefects (s.mergedHolds u) d) ++ be 4 ((s.frm u).defects ^^^ maskDefects (s.mergedHolds u) d)) ∧
  (∀ (u : Fin 4) (s : State), s.hubUp = true → (s.frm u).state = 3 → 5 ≤ (s.frm u).fasBad →
    ∃ t, exec (.oofDeclared u) s = .next t ∧ (t.frm u).state = 4 ∧ (t.frm u).has 1 = true ∧ t.live pmFramer u 5 = s.live pmFramer u 5 + 1) ∧
  (∀ (u : Fin 4) (s : State), s.hubUp = true → (s.frm u).state = 4 → (2 ≤ (s.frm u).fasGood ∨ 3 ≤ (s.frm u).verify) →
    ∃ t, exec (.oofCleared u) s = .next t ∧ (t.frm u).state = 3 ∧ (t.frm u).has 1 = false) ∧
  (∀ (u : Fin 4) (s : State), s.hubUp = true → (s.frm u).has 1 = true → ∃ t, exec (.lofDeclared u) s = .next t ∧ (t.frm u).has 2 = true) ∧
  (∀ (u : Fin 4) (s : State), s.hubUp = true → (s.frm u).has 2 = true → (s.frm u).state = 3 →
    ∃ t, exec (.lofCleared u) s = .next t ∧ (t.frm u).has 2 = false) ∧
  (∀ (u : Fin 4) (s : State), s.hubUp = true → (s.frm u).state = 3 → 5 ≤ (s.frm u).mfasBad → (s.frm u).has 0 = false → (s.frm u).has 2 = false →
    ∃ t, exec (.oomDeclared u) s = .next t ∧ (t.frm u).has 3 = true) ∧
  (∀ (u : Fin 4) (s : State), s.hubUp = true → (s.frm u).has 3 = true → 1 ≤ (s.frm u).mfasRun →
    ∃ t, exec (.oomCleared u) s = .next t ∧ (t.frm u).has 3 = false ∧ (t.frm u).mfas = ((s.frm u).lastMfas + 1) % 256) ∧
  (∀ (u : Fin 4) (s : State), s.hubUp = true → (s.frm u).has 3 = true → (s.frm u).has 0 = false → (s.frm u).has 2 = false →
    ∃ t, exec (.lomDeclared u) s = .next t ∧ (t.frm u).has 4 = true) ∧
  (∀ (u : Fin 4) (s : State), s.hubUp = true → (s.frm u).has 4 = true → (s.frm u).has 3 = false →
    ∃ t, exec (.lomCleared u) s = .next t ∧ (t.frm u).has 4 = false) ∧
  (∀ (u : Fin 4) (bit : Fin 19) (s : State), s.hubUp = true → persistent bit = true →
    persistence bit ≤ tblGet 0 (s.frm u).runs (2 * bit.val + b2n ((s.frm u).has bit)) →
    exec (.defectPersistence u bit) s = .next (putDefect u bit (!(s.frm u).has bit) s)) ∧
  (∀ (u : Fin 4) (m : Nat) (s : State), s.hubUp = true → (s.frm u).gather = some m →
    (m = 0 → exec (.defectEventGather u) s = .next (modFramer u (fun f => { f with gather := none }) s)) ∧
    (m ≠ 0 → ∃ t, exec (.defectEventGather u) s = .next t ∧ (t.frm u).gather = some 0 ∧
      lastEvent t = some (0x0501, u.val, be 4 (s.frm u).defects ++ be 4 m)))

/-- APS bytes that have arrived APS_N times are accepted, with EV_APS_CHANGE and C back at 0; C at its limit declares the inconsistency. A trail trace received whole three times is accepted with EV_TTI_CHANGED and judged, a payload type three times in a row is accepted and, but for 0x22, declares PLM, and so the passed byte pairs and the link tag take their values. -/
def Obligations.FramerOverheadIsAccepted : Prop :=
  (∀ (u : Fin 4) (s : State), s.hubUp = true → hardFail (s.frm u).defects = false → (s.frm u).apsN ≤ (s.frm u).aps.count →
    (s.frm u).aps.value ≠ (s.frm u).accAps →
    ∃ t, exec (.apsAccept u) s = .next t ∧ (t.frm u).accAps = (s.frm u).aps.value ∧ (t.frm u).apsC = 0 ∧
      t.live pmFramer u 15 = s.live pmFramer u 15 + 1 ∧
      ∃ e ∈ t.control.history, e.code = 0x0502 ∧ e.unit = u.val ∧ e.urgent = true ∧ e.payload = be 4 (s.frm u).aps.value) ∧
  (∀ (u : Fin 4) (s : State), s.hubUp = true → apsLimit (s.frm u) ≤ (s.frm u).apsC →
    exec (.apsInconsistent u) s = .next (putDefect u 17 true s)) ∧
  (∀ (u : Fin 4) (s : State), s.hubUp = true → 3 ≤ (s.frm u).ttiRun → (s.frm u).accTti ≠ some (s.frm u).ttiLast →
    ∃ t, exec (.ttiAccept u) s = .next t ∧ (t.frm u).accTti = some (s.frm u).ttiLast ∧
      (hardFail (s.frm u).defects = false → (t.frm u).has 5 = timDue (t.frm u)) ∧
      ∃ e ∈ t.control.history, e.code = 0x0503 ∧ e.unit = u.val) ∧
  (∀ (u : Fin 4) (s : State), s.hubUp = true → s.pathLost u = false → 3 ≤ (tblGet {} (s.frm u).psi 0).count →
    ∃ t, exec (.psiAccept u) s = .next t ∧ (t.frm u).accPt = some (tblGet {} (s.frm u).psi 0).value ∧
      (t.frm u).has 15 = ((tblGet {} (s.frm u).psi 0).value != 0x22)) ∧
  (∀ (u : Fin 4) (s : State), s.hubUp = true → ∃ t, exec (.passedBytesAccept u) s = .next t ∧ OnlyChanges [.framer] s t ∧
    ∀ i < 4, tblGet 0 (t.frm u).accPassed i =
      (if 3 ≤ (tblGet {} (s.frm u).passed i).count then (tblGet {} (s.frm u).passed i).value else tblGet 0 (s.frm u).accPassed i)) ∧
  (∀ (u : Fin 4) (s : State), s.hubUp = true → 3 ≤ (s.frm u).tag.count →
    ∃ t, exec (.linkTagAccept u) s = .next t ∧ (t.frm u).accTag = some (s.frm u).tag.value ∧
      (hardFail (s.frm u).defects = false → (t.frm u).has 18 = ltmDue (t.frm u)))

/-- A running unit outside a twin group hands one frame to its carrier unit, with MFAS moved on. A frame period marked invalid is counted and declares SSF; a valid one in frame is counted and moves the expected MFAS on; three exact FAS in sequence take a hunting framer in frame. The FRAMER settings of a unit in LINE_MODE 0 are held, the maintenance signal for the next frame sent and the degrade setting for the next second boundary; GET_STATUS answers 32 bytes, GET_OVERHEAD 152 and GET_COUNTS the latched counts, the last two ST_STATE without LINE_MODE 0. -/
def Obligations.FramesAndFramerCommands : Prop :=
  (∀ (u : Fin 4) (load : OtuLoad) (f : Format) (s : State), s.twinPartner u = false → s.twinOf u = none → s.txRuns u = true →
    (s.cu u).nativeTx = some f →
    ∃ t, exec (.otucnFrameTx u load) s = .next t ∧ (t.frm u).txMfas = ((s.frm u).txMfas + 1) % 256 ∧
      (t.cu u).otuMarks.length = (s.cu u).otuMarks.length + 1 ∧ t.live pmFramer u 16 = s.live pmFramer u 16 + 1) ∧
  (∀ (u : Fin 4) (seen : OtuSeen) (f : Format) (s : State), s.trafficRuns = true → (s.cu u).rxEn = true → (s.cu u).fmtRx = some f → f.lineMode = 0 →
    (seen.valid = false ∨ (s.cu u).acq ≠ 7 ∨ (s.cu u).rxValid = false → ∃ t, exec (.otucnFrameRx u seen) s = .next t ∧
      (t.frm u).has 0 = true ∧ t.live pmFramer u 1 = s.live pmFramer u 1 + 1) ∧
    (seen.valid = true → (s.cu u).acq = 7 → (s.cu u).rxValid = true → (s.frm u).n = f.otucN →
      ((s.frm u).state = 3 → ∃ t, exec (.otucnFrameRx u seen) s = .next t ∧ (t.frm u).mfas = ((s.frm u).mfas + 1) % 256 ∧
        (t.frm u).state = 3 ∧ t.live pmFramer u 0 = s.live pmFramer u 0 + 1) ∧
      ((s.frm u).state = 1 ∨ (s.frm u).state = 2 → (seen.slices.headD []).take 6 = fas →
        ((s.frm u).verify = 0 → ∃ t, exec (.otucnFrameRx u seen) s = .next t ∧ (t.frm u).state = 2 ∧ (t.frm u).verify = 1) ∧
        ((s.frm u).verify = 2 → u8 (cell (seen.slices.headD []) 1 7 1) 0 = ((s.frm u).candMfas + 1) % 256 →
          ∃ t, exec (.otucnFrameRx u seen) s = .next t ∧ (t.frm u).state = 3)))) ∧
  (∀ (q : Request) (s : State), taken 0x0501 q s = true → q.u < 4 → q.b 96 ≤ 3 → q.b 97 ≤ 1 → q.h 98 = 0 → s.native q.u = true →
    exec (.framerSetTti q) s = .next (carriedOut 0x0501 q .ok [] (modFramer q.u (fun f => { f with set := { f.set with
      tti := bytesAt q.payload 0 64, sapi := bytesAt q.payload 64 16, dapi := bytesAt q.payload 80 16, timMode := q.b 96, timAct := q.b 97 } })
      (admitted 0x0501 q s)))) ∧
  (∀ (q : Request) (s : State), taken 0x0502 q s = true → q.u < 4 → 2 ≤ q.b 4 → q.b 4 ≤ 10 → 2 ≤ q.b 5 → q.b 5 ≤ 10 → q.h 6 = 0 →
    q.w 8 ≤ 500000000 → q.w 12 ≤ q.w 8 →
    exec (.framerSetDegrade q) s = .next (carriedOut 0x0502 q .ok [] (modFramer q.u (fun f => { f with
      degNext := some ⟨q.w 0, q.b 4, q.b 5, q.w 8, q.w 12⟩ }) (admitted 0x0502 q s)))) ∧
  (∀ (q : Request) (s : State), taken 0x0503 q s = true → q.u < 4 → (q.b 4 = 0 ∨ (2 ≤ q.b 4 ∧ q.b 4 ≤ 15)) → isZero q.payload 5 3 = true →
    s.native q.u = true →
    exec (.framerSetAps q) s = .next (carriedOut 0x0503 q .ok [] (modFramer q.u (fun f => { f with set := { f.set with
      aps := q.w 0, apsN := if q.b 4 = 0 then f.set.apsN else q.b 4 } }) (admitted 0x0503 q s)))) ∧
  (∀ (q : Request) (s : State), taken 0x0504 q s = true → q.u < 4 → q.b 10 ≤ 1 → q.b 11 = 0 → s.native q.u = true →
    exec (.framerSetOverhead q) s = .next (carriedOut 0x0504 q .ok [] (modFramer q.u (fun f => { f with set := { f.set with
      gcc0 := q.h 0, gcc1 := q.h 2, gcc2 := q.h 4, exp := q.h 6, linkId := q.h 8, tagCheck := q.b 10, expTag := q.w 12 } })
      (admitted 0x0504 q s)))) ∧
  (∀ (q : Request) (s : State), taken 0x0505 q s = true → q.u < 4 → q.b 0 ≤ 3 → isZero q.payload 1 3 = true → s.native q.u = true →
    exec (.framerSetMaint q) s = .next (carriedOut 0x0505 q .ok [] (modFramer q.u (fun f => { f with set := { f.set with maint := q.b 0 } })
      (admitted 0x0505 q s)))) ∧
  (∀ (q : Request) (s : State), taken 0x0506 q s = true → q.u < 4 →
    ∃ pl, exec (.framerGetStatus q) s = .next (got 0x0506 q pl (admitted 0x0506 q s)) ∧ pl.length = 32 ∧
      bytesAt pl 4 4 = be 4 (if s.native q.u then (s.frm q.u).defects else (s.frm q.u).defects &&& 0x401)) ∧
  (∀ (q : Request) (s : State), taken 0x0507 q s = true → q.u < 4 →
    (s.native q.u = false → exec (.framerGetOverhead q) s = .next (refused 0x0507 q .state [] (admitted 0x0507 q s))) ∧
    (s.native q.u = true → ∃ pl, exec (.framerGetOverhead q) s = .next (got 0x0507 q pl (admitted 0x0507 q s)) ∧ pl.length = 152 ∧
      pl.take 64 = fitBytes 64 ((s.frm q.u).accTti.getD []))) ∧
  (∀ (q : Request) (s : State), taken 0x0508 q s = true → q.u < 4 →
    (s.native q.u = false → exec (.framerGetCounts q) s = .next (refused 0x0508 q .state [] (admitted 0x0508 q s))) ∧
    (s.native q.u = true → exec (.framerGetCounts q) s = .next (got 0x0508 q (countsReply s pmFramer q.u 0 17) (admitted 0x0508 q s))))

/-- A frame received on a framed client whose lanes are awake is counted and numbered, an over-long one also in its own count; one on lanes in electrical idle is a demand on their quads. A physical client's LINK change is held and raises EV_CL_LINK, urgent when the link was up. A data block enters an elastic buffer and leaves it in order; a start block that finds it nearly full starts a discard; and a stream that does not pass empties it. An acknowledged FlexE calendar comes into use and a switch that times out is given up, each with EV_CL_FLEXE_CAL. The demapper goes from hunt by one good header to pre-sync and by the next to sync, and loses sync on an uncorrectable one, raising EV_CL_GFP_LFD; a good frame in sync is counted delivered, a bad one discarded. -/
def Obligations.ClientTrafficFlows : Prop :=
  (∀ (c : Fin 64) (data : List Byte) (ok : Bool) (fec : HostFec) (odd : List OddWord) (s : State), s.trafficRuns = true →
    ((s.clientOf c).kind ≠ 0 → s.lanesAwake c = false → exec (.clientFrameRx c data ok fec odd) s = .next (demandLanes c s)) ∧
    ((s.clientOf c).framed = true → s.lanesAwake c = true →
    ∃ t, exec (.clientFrameRx c data ok fec odd) s = .next t ∧ t.live pmClient c 0 = s.live pmClient c 0 + 1 ∧
      (t.clientOf c).rxCount = (s.clientOf c).rxCount + 1 ∧
      t.live pmClient c 2 = s.live pmClient c 2 + (if (s.clientOf c).maxFrame < data.length then 1 else 0))) ∧
  (∀ (c : Fin 64) (link : Fin 4) (s : State), s.trafficRuns = true → (s.clientOf c).kind ≠ 0 → (s.clientOf c).mode ≠ 4 →
    ((s.clientOf c).link = link.val → exec (.clientLinkChange c link) s = .next (modClient c (fun k => { k with realign := false }) s)) ∧
    ((s.clientOf c).link ≠ link.val →
    ∃ t, exec (.clientLinkChange c link) s = .next t ∧ (t.clientOf c).link = link.val ∧
      ∃ e ∈ t.control.history, e.code = 0x0601 ∧ e.payload = be 1 c ++ be 1 link ++ zeros 2 ∧ e.urgent = ((s.clientOf c).link == 1))) ∧
  (∀ (c : Fin 64) (out : Bool) (s : State), s.trafficRuns = true → (s.clientOf c).kind ≠ 0 → (s.clientOf c).mode = 1 →
    (s.streamPasses c (b2n out) = false → ∀ b l, ∃ t, exec (.elasticBufferBlock c out b l) s = .next t ∧ (t.elasticOf c (b2n out)).blocks = []) ∧
    (s.streamPasses c (b2n out) = true →
      ((s.elasticOf c (b2n out)).discarding = false →
        (∃ t, exec (.elasticBufferBlock c out (some 2) false) s = .next t ∧
          (t.elasticOf c (b2n out)).blocks = (s.elasticOf c (b2n out)).blocks ++ [2] ∧ OnlyChanges [.client] s t) ∧
        (elasticDepth (s.clientOf c).kind ≤ (s.elasticOf c (b2n out)).blocks.length + 64 →
          ∃ t, exec (.elasticBufferBlock c out (some 1) false) s = .next t ∧ (t.elasticOf c (b2n out)).discarding = true ∧
            (t.elasticOf c (b2n out)).blocks = (s.elasticOf c (b2n out)).blocks ∧ t.live pmClient c 6 = s.live pmClient c 6 + 1)) ∧
      (∀ b r, (s.elasticOf c (b2n out)).blocks = b :: r →
        ∃ t, exec (.elasticBufferBlock c out none true) s = .next t ∧ (t.elasticOf c (b2n out)).blocks = r))) ∧
  (∀ (g : Fin 8) (inFrame : List Nat) (cal : FlexECalendar) (s : State), s.trafficRuns = true → (s.flexeOf g).pending = some cal →
    (∃ t, exec (.flexeCalAck g inFrame) s = .next t ∧ t.flexeOf g = ⟨some cal, !(s.flexeOf g).useB, none⟩ ∧
      lastEvent t = some (0x0603, 0, be 1 g ++ be 1 (b2n (!(s.flexeOf g).useB)) ++ be 1 0 ++ zeros 1)) ∧
    (∃ t, exec (.flexeSwitchTimeout g) s = .next t ∧ t.flexeOf g = { s.flexeOf g with pending := none } ∧
      lastEvent t = some (0x0603, 0, be 1 g ++ be 1 (b2n (s.flexeOf g).useB) ++ be 1 1 ++ zeros 1))) ∧
  (∀ (t : Fin 256) (f : GfpSeen) (s : State), s.trafficRuns = true → (s.trib t).now.kind = 2 →
    (s.tribFail t = true → ∃ v, exec (.gfpFrameRx t f) s = .next v ∧ (v.trib t).gfp = 0) ∧
    (s.tribFail t = false →
      ((s.trib t).gfp = 0 → f.chec = 0 → ∃ v, exec (.gfpFrameRx t f) s = .next v ∧ (v.trib t).gfp = 1) ∧
      ((s.trib t).gfp = 1 → f.chec = 0 → ∃ v, exec (.gfpFrameRx t f) s = .next v ∧ (v.trib t).gfp = 2) ∧
      ((s.trib t).gfp = 2 →
        (f.chec = 2 → ∃ v, exec (.gfpFrameRx t f) s = .next v ∧ (v.trib t).gfp = 0 ∧
          lastEvent v = some (0x0602, 0, be 2 t ++ be 1 0 ++ zeros 1)) ∧
        (f.chec ≠ 2 → f.idle = false → ∃ v, exec (.gfpFrameRx t f) s = .next v ∧ (v.trib t).gfp = 2 ∧
          (f.thec = true ∧ f.upi = 1 ∧ f.length ≤ (s.clientOf (s.trib t).now.client).maxFrame → v.live pmTrib t 2 = s.live pmTrib t 2 + 1) ∧
          (f.thec = false ∨ f.upi ≠ 1 ∨ (s.clientOf (s.trib t).now.client).maxFrame < f.length → v.live pmTrib t 5 = s.live pmTrib t 5 + 1)))))

/-- CLIENT.SET_CLIENT defines a client whose lanes are free and whose rate suits them, or removes one that nothing uses. CLIENT.SET_TRIB allocates free slots of a unit to a tributary, or removes it; what is allocated is in force from the unit's next frame with MFAS 0. CLIENT.SET_FLEXE writes a calendar that waits for its acknowledgement, or removes the group, ending a switch under way with its event. CLIENT.SET_CLASS removes a key, sets one, or answers ST_TABLE_FULL when its bucket holds four others. CLIENT.GET_STATUS and CLIENT.GET_COUNTS answer a client's or a tributary's state and counts. -/
def Obligations.ClientCommandsComplete : Prop :=
  (∀ (q : Request) (s : State), taken 0x0601 q s = true → q.u = 0 → q.b 0 ≤ 63 → s.clientUsed (q.b 0) = false →
    (q.b 1 = 0 → isZero q.payload 13 3 = true → ∃ v, exec (.clientSetClient q) s = .next (carriedOut 0x0601 q .ok [] v) ∧ (v.clientOf (q.b 0)).kind = 0) ∧
    (1 ≤ q.b 1 → q.b 1 ≤ 5 → q.b 3 ≤ 1 → (q.b 4 = 4 ∨ (clientAsked q).lanes ≠ 0) → laneOk (clientAsked q) = true → q.b 4 ≤ 4 →
      (q.b 4 = 2 → q.b 1 ≤ 3) → q.b 5 ≤ 3 → (q.b 4 = 3 ∨ q.b 5 = 0) → 64 ≤ q.h 6 → q.h 6 ≤ 16000 → (q.w 8 ≤ 131071 ∨ q.w 8 = 0xFFFFFFFF) →
      q.b 12 ≤ 1 → isZero q.payload 13 3 = true →
      (∀ e ∈ s.client.clients, e.1 ≠ q.b 0 → lanesOverlap (clientAsked q) e.2 = false ∧ quadClash (clientAsked q) e.2 = false) →
      s.zrOk (q.b 0) (clientAsked q) = true →
      ∃ v, exec (.clientSetClient q) s = .next (carriedOut 0x0601 q .ok [] v) ∧
        { v.clientOf (q.b 0) with link := (clientAsked q).link, rxCount := (clientAsked q).rxCount, realign := false } = clientAsked q)) ∧
  (∀ (q : Request) (f : Format) (s : State), taken 0x0602 q s = true → q.u = 0 → q.b 1 ≤ 3 → q.w 4 = 0 → (s.cu (q.b 1)).fmt = some f → f.lineMode = 0 →
    s.twinPartner (q.b 1) = false → q.b 3 ≤ 63 →
    let slots := slotMask (bytesAt q.payload 8 80)
    let asked : Alloc := ⟨q.b 1, q.b 2, q.b 3, slots⟩
    (q.b 2 = 0 → slots < 2 ^ (20 * f.otucN) →
      ∃ v, exec (.clientSetTrib q) s = .next (carriedOut 0x0602 q .ok [] v) ∧ (v.trib (q.b 0)).set = {}) ∧
    ((q.b 2 = 1 ∧ (s.clientOf (q.b 3)).mode = 1 ∧ (bitsOf 640 slots).length = gmpSlots (s.clientOf (q.b 3)).kind) ∨
      (q.b 2 = 2 ∧ ((s.clientOf (q.b 3)).mode = 0 ∨ (s.clientOf (q.b 3)).mode = 4)) →
      (s.clientOf (q.b 3)).kind ≠ 0 → slots < 2 ^ (20 * f.otucN) → slots ≠ 0 →
      ((s.trib (q.b 0)).set.kind = 0 ∨ (s.trib (q.b 0)).set = asked) → s.slotTaken (q.b 0) (q.b 1) slots = none →
      (slots.testBit (20 * f.otucN - 1) = true → s.secureUnit (q.b 1) = false) →
      exec (.clientSetTrib q) s = .next (carriedOut 0x0602 q .ok [] (modTrib (q.b 0) (fun x => { x with set := asked }) (admitted 0x0602 q s))))) ∧
  (∀ (u : Fin 4) (load : OtuLoad) (f : Format) (k : Nat) (s : State), s.trafficRuns = true → s.twinPartner u = false → s.twinOf u = none →
    (s.cu u).nativeTx = some f → (s.frm u).txMfas = 0 → (s.trib k).set.cu = u →
    ∃ t, exec (.otucnFrameTx u load) s = .next t ∧ (t.trib k).now = (s.trib k).set) ∧
  (∀ (q : Request) (s : State), taken 0x0603 q s = true → q.u = 0 → q.b 0 ≤ 7 →
    (q.b 1 = 0 → q.payload.length = 24 → q.b 3 = 0 → ∃ t, exec (.clientSetFlexe q) s = .next t ∧ t.flexeOf (q.b 0) = {} ∧
      ((s.flexeOf (q.b 0)).pending ≠ none → lastEvent t = some (0x0603, 0, be 1 (q.b 0) ++ be 1 (b2n (s.flexeOf (q.b 0)).useB) ++ be 1 2 ++ zeros 1))) ∧
    (1 ≤ q.b 1 → q.b 1 ≤ 16 → 1 ≤ q.b 2 → q.b 2 ≤ 3 → q.payload.length = 24 + q.b 1 * phySlots (q.b 2) → q.b 3 = 0 → 1 ≤ q.w 4 → q.w 4 ≤ 0xFFFFE →
      physOk q (q.b 1) s = true →
      (∀ i < q.b 1 * phySlots (q.b 2), q.b (24 + i) = 0xFF ∨
        (q.b (24 + i) < 64 ∧ (s.clientOf (q.b (24 + i))).kind ≠ 0 ∧ (s.clientOf (q.b (24 + i))).mode = 4)) →
      ((s.flexeOf (q.b 0)).pending ≠ none → exec (.clientSetFlexe q) s = .next (refused 0x0603 q .busy [] (admitted 0x0603 q s))) ∧
      ((s.flexeOf (q.b 0)).pending = none → exec (.clientSetFlexe q) s = .next (carriedOut 0x0603 q .ok [] (modFlexe (q.b 0) (fun x => { x with
        pending := some ⟨q.w 4, q.b 2, (List.range (q.b 1)).map (fun i => q.b (8 + i)),
          (List.range (q.b 1 * phySlots (q.b 2))).map (fun i => q.b (24 + i))⟩ }) (admitted 0x0603 q s)))))) ∧
  (∀ (q : Request) (s : State), taken 0x0604 q s = true → q.u = 0 → q.b 0 ≤ 63 → q.b 1 ≤ 3 → keyOk q = true → q.h 6 = 0 → q.w 8 / 2 ^ 17 % 2 ^ 14 = 0 →
    ((q.w 8).testBit 31 = true → exec (.clientSetClass q) s =
      .next (carriedOut 0x0604 q .ok [] (modClients (fun x => { x with classes := tblErase x.classes (q.d 0) }) (admitted 0x0604 q s)))) ∧
    ((q.w 8).testBit 31 = false →
      let held := (s.client.classes.filter (fun e => keyBucket e.1 == keyBucket (q.d 0))).length
      (tblGet 0 s.client.classes (q.d 0) = 0 ∧ 4 ≤ held → exec (.clientSetClass q) s = .next (refused 0x0604 q .tableFull [] (admitted 0x0604 q s))) ∧
      (tblGet 0 s.client.classes (q.d 0) ≠ 0 ∨ held < 4 → ∃ v, exec (.clientSetClass q) s = .next (carriedOut 0x0604 q .ok [] v) ∧
        tblGet 0 v.client.classes (q.d 0) = q.w 8 % 2 ^ 17 + 1 ∧ OnlyChanges [.control, .stream, .domain, .client] s v))) ∧
  (∀ (q : Request) (s : State), taken 0x0605 q s = true → q.u < 64 →
    exec (.clientGetStatus q) s = .next (got 0x0605 q (be 1 (s.linkOf q.u) ++ be 1 (s.clientOf q.u).mode ++ be 2 (s.tribOfClient q.u) ++
      be 2 (if (s.clientOf q.u).mode = 1 then (s.elasticOf q.u 1).blocks.length else 0) ++ zeros 2) (admitted 0x0605 q s))) ∧
  (∀ (q : Request) (s : State), taken 0x0606 q s = true →
    (q.u < 64 → exec (.clientGetCounts q) s = .next (got 0x0606 q (countsReply s pmClient q.u 0 14) (admitted 0x0606 q s))) ∧
    (0x100 ≤ q.u → q.u ≤ 0x1FF → exec (.clientGetCounts q) s =
      .next (got 0x0606 q (countsReply s pmTrib (q.u - 0x100) 0 7 ++ zeros 56) (admitted 0x0606 q s))))

/-- A port that has handed over a frame with nothing stored sends a GFP idle frame; a stalled one sends nothing. A port whose choice, with its slice and stacks awake, finds a head frame that reads well starts it, counted on its queue and its port, whether the choice follows a hand-over, a shaper's credit or the end of a gate entry; a busy port goes on. A gate list comes into force at START with EV_SCHED_GATES, an empty one opening every class. The oldest change that waits applies to its node and completes its command. A sampling instant writes one record of each queue that fits the buffer. -/
def Obligations.SchedulerMoments : Prop :=
  (∀ (p : Fin 256) (odd : List OddWord) (s : State), s.trafficRuns = true →
    (s.portSlots p = 0 → exec (.frameSelection p odd) s = .next (modPort p (fun x => { x with busy := false }) s)) ∧
    (s.portSlots p ≠ 0 → (∀ e ∈ s.sched.queues, e.2.frames = []) →
      ∃ t, exec (.frameSelection p odd) s = .next t ∧ (t.portNode p).busy = false ∧ t.live pmTrib p 3 = s.live pmTrib p 3 + 1 ∧ (t.trib p).gfpSent = gfpIdle)) ∧
  (∀ (p : Fin 256) (odd : List OddWord) (i q : Nat) (rotP rotI : Rotation) (f : StoredFrame) (s : State), s.trafficRuns = true →
    let u := modPort p (fun x => { x with busy := false }) s
    u.portSlots p ≠ 0 → demandFor p u = u → (u.dom 9 (p / 32)).state = 0 → purgeHeads p u = u → u.portPick p = some (i, q, rotP, rotI) → (u.queue q).frames.head? = some f →
    (readFrame f.len f.cells odd u).1 = 0 →
    exec (.frameSelection p odd) s = .next (startFrame p i q rotP rotI f (readFrame f.len f.cells odd u).2.2)) ∧
  (∀ (p : Fin 256) (i q : Nat) (rotP rotI : Rotation) (f : StoredFrame) (s : State), s.trafficRuns = true →
    (s.portNode p).busy = false → s.portSlots p ≠ 0 → demandFor p s = s → (s.dom 9 (p / 32)).state = 0 → purgeHeads p s = s → s.portPick p = some (i, q, rotP, rotI) →
    (s.queue q).frames.head? = some f → (readFrame f.len f.cells [] s).1 = 0 →
    exec (.shaperCreditReachesZero p) s = .next (startFrame p i q rotP rotI f (readFrame f.len f.cells [] s).2.2) ∧
    ((s.portNode p).gates ≠ none →
      exec (.gateEntryEnd p) s = .next (startFrame p i q rotP rotI f (readFrame f.len f.cells [] s).2.2))) ∧
  (∀ (p : Fin 256) (s : State), (s.portNode p).busy = true →
    exec (.shaperCreditReachesZero p) s = .next s ∧ exec (.gateEntryEnd p) s = .next s) ∧
  (∀ (p i q : Nat) (rotP rotI : Rotation) (f : StoredFrame) (s : State), q < 131072 → i < 32768 → p < 256 →
    let t := startFrame p i q rotP rotI f s
    (t.portNode p).busy = true ∧ (t.queue q).frames = (s.queue q).frames.drop 1 ∧ t.live pmQueue q 1 = s.live pmQueue q 1 + 1 ∧
    t.live pmQueue q 2 = s.live pmQueue q 2 + (f.len + 8) ∧ t.live pmPort p 0 = s.live pmPort p 0 + 1) ∧
  (∀ (p : Fin 256) (g : GateList) (s : State), s.blocksRun = true → (s.portNode p).pending = some g → g.start ≤ s.timing.tod.toNs →
    ∃ u, exec (.gateListStart p) s = .next (selectNext p [] (purgeHeads p u)) ∧ (u.portNode p).pending = none ∧
      (u.portNode p).gates = (if g.entries.isEmpty then none else some g) ∧
      lastEvent u = some (0x0701, 0, be 1 p ++ be 1 (if g.entries.isEmpty then 0 else 1) ++ be 2 g.entries.length)) ∧
  (∀ (c : SchedChange) (r : List SchedChange) (s : State), s.blocksRun = true → s.control.mp = .running → s.sched.waiting = c :: r →
    ∃ t, exec .schedParamApply s = .next t ∧ t.sched.waiting = r ∧
      (c.isQueue = false → (t.sub (u16 c.payload 0)).enabled = (u8 c.payload 3).testBit 0 ∧ (t.sub (u16 c.payload 0)).port = u8 c.payload 2 ∧
        (t.sub (u16 c.payload 0)).prio = u8 c.payload 4 ∧ (t.sub (u16 c.payload 0)).weight = u16 c.payload 6) ∧
      (c.isQueue = true → (t.queue (u32 c.payload 0)).enabled = (u8 c.payload 7).testBit 0 ∧ (t.queue (u32 c.payload 0)).sub = u16 c.payload 4 ∧
        (t.queue (u32 c.payload 0)).cls = u8 c.payload 6 ∧ (t.queue (u32 c.payload 0)).prio = u8 c.payload 8 ∧
        (t.queue (u32 c.payload 0)).weight = u16 c.payload 10 ∧ (t.queue (u32 c.payload 0)).limitKib = u32 c.payload 20 ∧
        (t.queue (u32 c.payload 0)).policing = (u8 c.payload 7).testBit 1) ∧
      (∀ e, s.control.journal.find? (fun e => e.id == c.entry) = some e → e.state = .applying →
        ∀ x ∈ t.control.journal, x.id = c.entry → x.state = .done)) ∧
  (∀ (k : Fin 8) (s : State), s.blocksRun = true → (s.countUnit (13 + k.val)).records.length + (s.samplingOf k).count ≤ 16384 →
    ∃ t, exec (.schedSamplingInstant k) s = .next t ∧
      (t.countUnit (13 + k.val)).records.length = (s.countUnit (13 + k.val)).records.length + (s.samplingOf k).count)

/-- The commands that act on a slice are answered ST_BUSY while it must wake from P3 or P4, and else go on with it awake (log entry 70). SCHED.SET_SUBSCRIBER and SCHED.SET_QUEUE whose fields are in range, whose parent fits and that move no queue with frames are then journaled APPLYING and wait for a cell boundary. SCHED.SET_GATES holds the pending list, SCHED.SET_SAMPLING its sampling for the next second. SCHED.GET_GATES, SCHED.GET_QUEUE and SCHED.GET_COUNTS answer the lists, the queue and the latched counts. -/
def Obligations.SchedCommandsComplete : Prop :=
  (∀ (q : Request) (s : State), taken 0x0701 q s = true → q.u = 0 → q.h 0 ≤ 32767 → q.b 3 ≤ 1 → q.b 4 ≤ 7 → q.b 5 = 0 → 1 ≤ q.h 6 → q.h 6 ≤ 4096 →
    (q.w 8 = 0 ∨ (1000 ≤ q.w 8 ∧ q.w 8 ≤ 3200000000)) → 16008 ≤ q.w 12 → q.w 12 ≤ 16777216 →
    q.b 2 / 32 = q.h 0 / 4096 → (s.trib (q.b 2)).set.kind = 2 →
    ((∃ e ∈ s.sched.queues, e.2.enabled = true ∧ e.2.sub = q.h 0) → q.b 3 = 1 ∧ (s.sub (q.h 0)).port = q.b 2) →
    let r := withSlice 0x0701 (q.h 0 / 4096) q s
    (s.serves 9 (q.h 0 / 4096) = true → exec (.schedSetSubscriber q) s = .next (begun 0x0701 q .none (modSched (fun x => { x with
      waiting := x.waiting ++ [⟨r.control.nextEntry, false, q.payload⟩] }) r))) ∧
    (s.serves 9 (q.h 0 / 4096) = false →
      exec (.schedSetSubscriber q) s = .next (refused 0x0701 q .busy [] (needDomain 9 (q.h 0 / 4096) (admitted 0x0701 q s)).2))) ∧
  (∀ (q : Request) (s : State), taken 0x0702 q s = true → q.u = 0 → q.w 0 ≤ 131071 → q.h 4 ≤ 32767 → q.b 6 ≤ 7 → q.b 7 ≤ 3 → q.b 8 ≤ 7 → q.b 9 = 0 →
    1 ≤ q.h 10 → q.h 10 ≤ 4096 → (q.w 12 = 0 ∨ (1000 ≤ q.w 12 ∧ q.w 12 ≤ 3200000000)) → 16008 ≤ q.w 16 → q.w 16 ≤ 16777216 →
    16 ≤ q.w 20 → q.w 20 ≤ 33554432 →
    ((q.b 7).testBit 1 = true → 1000 ≤ q.w 24 ∧ q.w 24 ≤ 3200000000 ∧ 16008 ≤ q.w 28 ∧ q.w 28 ≤ 16777216) →
    ((q.b 7).testBit 1 = false → q.w 24 = 0 ∧ q.w 28 = 0) →
    ((q.b 7).testBit 0 = true → q.h 4 / 4096 = q.w 0 / 16384 ∧ (s.sub (q.h 4)).enabled = true ∧
      ((s.queue (q.w 0)).frames = [] ∨ ((s.queue (q.w 0)).sub = q.h 4 ∧ (s.queue (q.w 0)).cls = q.b 6))) →
    let r := withSlice 0x0702 (q.w 0 / 16384) q s
    (s.serves 9 (q.w 0 / 16384) = true → exec (.schedSetQueue q) s = .next (begun 0x0702 q .none (modSched (fun x => { x with
      waiting := x.waiting ++ [⟨r.control.nextEntry, true, q.payload⟩] }) r))) ∧
    (s.serves 9 (q.w 0 / 16384) = false →
      exec (.schedSetQueue q) s = .next (refused 0x0702 q .busy [] (needDomain 9 (q.w 0 / 16384) (admitted 0x0702 q s)).2))) ∧
  (∀ (q : Request) (s : State), taken 0x0703 q s = true → q.u = 0 → q.b 1 = 0 → q.h 2 ≤ 1024 → q.payload.length = 16 + 4 * q.h 2 →
    let es := gateEntries q (q.h 2)
    let start := field q.payload 4 6 * billion + q.w 10
    es.foldl (fun a e => a + e.2) 0 ≤ 125000000 → (∀ e ∈ es, e.2 ≠ 0) → q.w 10 < billion → q.w 10 % 8 = 0 →
    s.timing.tod.toNs + 1000000 ≤ start → q.h 14 = 0 → s.serves 9 (q.b 0 / 32) = true →
    exec (.schedSetGates q) s = .next (carriedOut 0x0703 q .ok []
      (modPort (q.b 0) (fun x => { x with pending := some ⟨es, start⟩ }) (withSlice 0x0703 (q.b 0 / 32) q s)))) ∧
  (∀ (q : Request) (s : State), taken 0x0704 q s = true → q.u < 256 → s.serves 9 (q.u / 32) = true →
    ∃ pl, exec (.schedGetGates q) s = .next (got 0x0704 q pl (withSlice 0x0704 (q.u / 32) q s)) ∧ pl.take 1 = be 1 (s.portNode q.u).gateState ∧
      pl.length = 32 + 4 * ((s.portNode q.u).gates.map (fun g => g.entries.length)).getD 0) ∧
  (∀ (q : Request) (s : State), taken 0x0705 q s = true → q.u = 0 → q.w 0 ≤ 131071 → s.serves 9 (q.w 0 / 16384) = true →
    let r := withSlice 0x0705 (q.w 0 / 16384) q s
    exec (.schedGetQueue q) s = .next (got 0x0705 q (be 8 (r.queue (q.w 0)).depth ++ be 4 (r.queue (q.w 0)).frames.length ++
      be 4 (r.headDelay (r.queue (q.w 0))) ++ beInt 8 ((r.queue (q.w 0)).tok.level r.tick) ++ beInt 8 ((r.queue (q.w 0)).pol.level r.tick)) r)) ∧
  (∀ (q : Request) (s : State), taken 0x0706 q s = true → q.u = 0 → q.b 0 ≤ 7 → isZero q.payload 1 3 = true → q.w 4 / 16384 = q.b 0 →
    q.w 8 ≤ 16384 → q.w 4 % 16384 + q.w 8 ≤ 16384 → q.w 8 * 1000000 ≤ 1048576 * q.w 12 → 10 ≤ q.w 12 → q.w 12 ≤ 1000000 → 1000000 % q.w 12 = 0 → s.serves 9 (q.b 0) = true →
    exec (.schedSetSampling q) s = .next (carriedOut 0x0706 q .ok []
      (modSampling (q.b 0) (fun x => { x with next := some (q.w 4, q.w 8, q.w 12) }) (withSlice 0x0706 (q.b 0) q s)))) ∧
  (∀ (q : Request) (s : State), taken 0x0707 q s = true → q.u = 0 → isZero q.payload 1 3 = true →
    (q.b 0 = 0 → q.w 4 < 131072 → exec (.schedGetCounts q) s = .next (got 0x0707 q (countsReply s pmQueue (q.w 4) 0 11) (admitted 0x0707 q s))) ∧
    (q.b 0 = 1 → q.w 4 < 32768 → exec (.schedGetCounts q) s =
      .next (got 0x0707 q (countsReply s pmSub (q.w 4) 0 2 ++ zeros 72) (admitted 0x0707 q s))) ∧
    (q.b 0 = 2 → q.w 4 < 256 → exec (.schedGetCounts q) s =
      .next (got 0x0707 q (countsReply s pmPort (q.w 4) 0 3 ++ zeros 64) (admitted 0x0707 q s))))

/-- A planer read of a stack in P0 counts and moves on to the next word; a word it cannot correct, and of which the clamp holds no part, is consumed and written with poison, which sets the memory alarm. The clamp flushes its oldest entry, a full one as one write. The bucket drains by one, and at its threshold empties with EV_MEM_CE_RATE. A retrain holds the stack until it ends well, or until three in a row have failed, when the stack is marked failed with EV_MEM_STACK_FAILED. An audit frees every cell that no queue reaches, releases the queues it covers and raises EV_MEM_AUDIT_DONE. -/
def Obligations.MemoryMoments : Prop :=
  (∀ (k : Fin 4) (odd : Option WordSeen) (s : State), s.blocksRun = true → (s.dom 4 k).state = 0 → (s.stack k).retraining = false →
    ∃ t, exec (.planerRead k odd) s = .next t ∧ (t.stack k).planer = ((s.stack k).planer + 1) % stackWords ∧
      t.live pmStack k 10 = s.live pmStack k 10 + 1 ∧
      (odd = some .uncorrectable → (s.stack k).failed = false → (∀ e ∈ (s.stack k).clamp, e.word ≠ (s.stack k).planer) → t.sill.memAlarm = true ∧
        tblGet false (t.stack k).poison ((s.stack k).place (s.stack k).planer) = true)) ∧
  (∀ (k : Fin 4) (odd : Option WordSeen) (e : ClampEntry) (r : List ClampEntry) (s : State), s.blocksRun = true →
    (s.stack k).retraining = false → (s.stack k).clamp = e :: r →
    ∃ t, exec (.clampFlush k odd) s = .next t ∧ (t.stack k).clamp = r ∧ (e.mask = 0xFFFF → t.live pmStack k 7 = s.live pmStack k 7 + 1)) ∧
  (∀ (k : Fin 4) (s : State), s.blocksRun = true →
    exec (.bucketDrain k) s = .next (modStack k (fun x => { x with bucket := x.bucket - 1 }) s) ∧
    ((s.stack k).bucket < (s.stack k).thresh → exec (.ceRateThreshold k) s = .next s) ∧
    ((s.stack k).thresh ≤ (s.stack k).bucket → ∃ t, exec (.ceRateThreshold k) s = .next t ∧ (t.stack k).bucket = 0 ∧
      lastEvent t = some (0x0801, k.val, be 2 (s.stack k).thresh ++ zeros 2) ∧ OnlyChanges [.sill, .control, .counters, .memory] s t)) ∧
  (∀ (k : Fin 4) (retries : Nat) (s : State), s.blocksRun = true → (s.stack k).failed = false →
    ∃ t, exec (.retrainStart k retries) s = .next t ∧ (t.stack k).retraining = true ∧
      t.live pmStack k 13 = s.live pmStack k 13 + retries ∧ OnlyChanges [.counters, .memory] s t) ∧
  (∀ (k : Fin 4) (odd : List OddWord) (s : State), s.blocksRun = true → (s.stack k).retraining = true →
    (∃ u, exec (.retrainComplete k true odd) s = .next (selectAll (flushClamp k odd u)) ∧ (u.stack k).retraining = false ∧
      (u.stack k).failed = false ∧ (u.stack k).fails = 0 ∧ u.live pmStack k 14 = s.live pmStack k 14 + 1) ∧
    ((s.stack k).fails < 2 → ∃ t, exec (.retrainComplete k false odd) s = .next t ∧ (t.stack k).fails = (s.stack k).fails + 1 ∧
      (t.stack k).retraining = true ∧ OnlyChanges [.counters, .memory] s t) ∧
    (2 ≤ (s.stack k).fails → ∃ t, exec (.retrainComplete k false odd) s = .next t ∧ (t.stack k).failed = true ∧ (t.stack k).retraining = false ∧
      (t.stack k).clamp = [] ∧
      ((s.stack k).failed = false → ∃ e ∈ t.control.history, e.code = 0x0806 ∧ e.unit = k.val ∧ e.urgent = true ∧ e.payload = []))) ∧
  (∀ (k : Fin 4) (poisoned : List (Nat × Nat × Nat)) (qs : List Nat) (s : State), s.blocksRun = true → (s.stack k).audit = some qs →
    ∃ t, exec (.auditComplete k poisoned) s = .next t ∧ (t.stack k).audit = none ∧ (∀ q ∈ qs, (t.queue q).quarantined = false) ∧
      (∀ j < 4, ∀ e ∈ (t.stack j).alloc, e.1 ∈ s.reachedCells j) ∧
      ∃ n m, lastEvent t = some (0x0803, k.val, be 4 n ++ be 4 m))

/-- The commands that act on a stack are answered ST_BUSY while it must wake from P3 or P4, and else go on with it awake (log entry 70). MEMORY.SET_POLICY holds the three settings of each stack it names; MEMORY.GET_STATUS answers 40 bytes, in which the phase of a running audit is free (log entry 29); MEMORY.GET_LOG the entries not older than FROM_SEQ, at most COUNT of them, and MEMORY.GET_COUNTS the latched counts. MEMORY.RETRAIN starts a retrain, and answers ST_BUSY while one runs. MEMORY.SET_SHIM of a stack that holds nothing gives every word a spare, or answers ST_SHIM_FULL with how many are free. -/
def Obligations.MemoryCommandsComplete : Prop :=
  (∀ (q : Request) (s : State), taken 0x0801 q s = true → q.u = 0 → (q.b 0 ≤ 3 ∨ q.b 0 = 0xFF) → isZero q.payload 1 3 = true → 1024 ≤ q.w 4 →
    q.w 4 ≤ 16777216 → 1 ≤ q.h 8 → q.h 8 ≤ 65000 → 1 ≤ q.h 10 → q.h 10 ≤ 65535 →
    let ks := if q.b 0 = 0xFF then [0, 1, 2, 3] else [q.b 0]
    let r := withStacks 0x0801 ks q s
    (∀ k ∈ ks, s.serves 4 k = true) →
    ∃ v, exec (.memorySetPolicy q) s = .next (carriedOut 0x0801 q .ok [] v) ∧ OnlyChanges [.memory] r v ∧
      (∀ k ≤ 3, v.stack k = if q.b 0 = k ∨ q.b 0 = 0xFF then { r.stack k with rate := q.w 4, drainMs := q.h 8, thresh := q.h 10 } else r.stack k)) ∧
  (∀ (q : Request) (s : State), taken 0x0802 q s = true → q.u < 4 → s.serves 4 q.u = true →
    let r := withStacks 0x0802 [q.u] q s
    ∃ pl phase, exec (.memoryGetStatus q) s = .next (got 0x0802 q pl { r with fresh := r.fresh + b2n (r.stack q.u).audit.isSome }) ∧ pl.length = 40 ∧
      ((r.stack q.u).audit = none → phase = 0) ∧ ((r.stack q.u).audit ≠ none → phase = 1 ∨ phase = 2) ∧
      pl.take 8 = be 1 (r.stack q.u).stateCode ++ be 1 (r.stack q.u).shim.length ++ be 1 (r.stack q.u).retired.length ++
        be 1 phase ++ be 4 (r.stack q.u).freeCells) ∧
  (∀ (q : Request) (s : State), taken 0x0803 q s = true → q.u < 4 → 1 ≤ q.b 4 → q.b 4 ≤ 64 → isZero q.payload 5 3 = true → s.serves 4 q.u = true →
    let r := withStacks 0x0803 [q.u] q s
    ∃ es : List MemLog, es = ((r.stack q.u).log.filter (fun e => !seqOlder e.seq (BitVec.ofNat 32 (q.w 0)))).take (q.b 4) ∧
      exec (.memoryGetLog q) s = .next (got 0x0803 q (es.flatMap memLogBytes) r)) ∧
  (∀ (q : Request) (s : State), taken 0x0804 q s = true → q.u < 4 →
    ((s.stack q.u).retraining = true → exec (.memoryRetrain q) s = .next (refused 0x0804 q .busy [] (admitted 0x0804 q s))) ∧
    ((s.stack q.u).retraining = false → s.serves 4 q.u = true → exec (.memoryRetrain q) s =
      .next (carriedOut 0x0804 q .ok [] (modStack q.u (fun x => { x with retraining := true }) (withStacks 0x0804 [q.u] q s)))) ∧
    ((s.stack q.u).retraining = false → s.serves 4 q.u = false → exec (.memoryRetrain q) s =
      .next (refused 0x0804 q .busy [] (needDomain 4 q.u (admitted 0x0804 q s)).2))) ∧
  (∀ (q : Request) (s : State), taken 0x0805 q s = true → q.u < 4 → 1 ≤ q.b 0 → q.b 0 ≤ 16 → q.payload.length = 4 + 4 * q.b 0 →
    isZero q.payload 1 3 = true → (∀ w ∈ shimWords q, w < spareBase) → (shimWords q).Nodup → s.stackHolds q.u = false →
    ((s.stack q.u).freeSpares.length < q.b 0 → exec (.memorySetShim q) s =
      .next (refused 0x0805 q .shimFull (be 1 (s.stack q.u).freeSpares.length ++ zeros 3) (admitted 0x0805 q s))) ∧
    (q.b 0 ≤ (s.stack q.u).freeSpares.length → s.serves 4 q.u = true → ∃ v, exec (.memorySetShim q) s = .next (carriedOut 0x0805 q .ok [] v) ∧
      ∀ w ∈ shimWords q, (v.stack q.u).spareOf w ≠ none)) ∧
  (∀ (q : Request) (s : State), taken 0x0806 q s = true → q.u < 4 →
    exec (.memoryGetCounts q) s = .next (got 0x0806 q (countsReply s pmStack q.u 0 18) (admitted 0x0806 q s)))

/-- A frame of a present copy that the schedule has not passed takes its place in the copy's deskew ring; one it has passed counts as late. A third frame in sequence, with no schedule running and nothing of the other copy, aligns the copy and starts the schedule; a frame for an absent copy is dropped. Each playout moves the schedule to the next sequence, counts one frame, and takes every cell that begins in it from copy A, from copy B, or counts it bad in both. -/
def Obligations.TwinCopiesMerge : Prop :=
  (∀ (g k : Fin 2) (f : CopyFrame) (s : State), s.trafficRuns = true → (s.twin g).enabled = true →
    let u := if k.val = 0 then (s.twin g).home else (s.twin g).partner
    (s.frm u).copy = some f →
    (((s.twin g).copy k).state = 0 →
      exec (.twinFrameArrival g k) s = .next (modFramer u (fun x => { x with copy := none }) s)) ∧
    (∀ q, ((s.twin g).copy k).state ≠ 0 → f.seq = some q →
      ((s.twin g).passed q = true → ∃ t, exec (.twinFrameArrival g k) s = .next t ∧
        t.live pmTwin g (6 + k.val) = s.live pmTwin g (6 + k.val) + 1) ∧
      ((s.twin g).passed q = false → ∃ t, exec (.twinFrameArrival g k) s = .next t ∧ (t.frm u).copy = none ∧
        ∃ r ∈ ((t.twin g).copy k).ring, r.seq = q ∧ r.frame = f) ∧
      (∀ l at_, ((s.twin g).copy k).state = 1 → ((s.twin g).copy k).last = some (l, at_) → q = l + 1 → ((s.twin g).copy k).verified = 2 →
        ((s.twin g).copy (1 - k.val)).last = none → (s.twin g).next = none →
        ∃ t, exec (.twinFrameArrival g k) s = .next t ∧ ((t.twin g).copy k).state = 3 ∧ ∃ due, (t.twin g).next = some (q, due)))) ∧
  (∀ (g : Fin 2) (odd : List (Nat × Nat × WordSeen)) (errs : List (Nat × Nat)) (q : Word32) (due : Nat) (s : State), s.trafficRuns = true →
    (s.twin g).enabled = true → (s.twin g).next = some (q, due) → (s.twin g).stopped = false → (∀ e ∈ errs, e.1 < 256) → (∀ e ∈ s.client.tribs, e.1 < 256) →
    ∃ t, exec (.twinPlayout g odd errs) s = .next t ∧ (∃ d, (t.twin g).next = some (q + 1, d)) ∧ t.live pmTwin g 0 = s.live pmTwin g 0 + 1 ∧
      t.live pmTwin g 1 + t.live pmTwin g 2 + t.live pmTwin g 4 =
        s.live pmTwin g 1 + s.live pmTwin g 2 + s.live pmTwin g 4 + cellsBegun q (s.twinN g))

/-- A STANDBY device that sees MIR_ACT_IN deasserted claims and drives MIR_ACT_OUT; at the sample it is ACTIVE unless the peer claims too, when the device with TIE 0 stands by and the one with TIE 1 samples again, to become ACTIVE or HELD_OFF with a conflict of cause 4. Loss of signal on every live unit starts the release that the mask allows, which ends in STANDBY with MIR_ACT_OUT at 0. Each change raises EV_MIRROR_STATE with the new and the old state and its cause. A heartbeat of the peer is kept and brings the brace link up; eight missed ones take it down with EV_BRACE_LINK; heartbeats are sent on the brace port. -/
def Obligations.MirrorInterlock : Prop :=
  (∀ (level : Bool) (s : State), exec (.mirActInChange level) s = .next (modPins (fun p => { p with mirActIn := level }) s)) ∧
  (∀ s : State, s.trafficRuns = true → s.mirIn = false → s.protect.mirror.state = 1 → s.protect.mirror.holdoff = false →
    ∃ t c, exec .mirrorClaimStable s = .next t ∧ t.protect.mirror.state = 2 ∧ t.pins.mirActOut = true ∧ t.protect.mirror.claimCause = c ∧
      c = (if s.protect.mirror.wantClaim then 4 else 0) ∧ lastEvent t = some (0x0F04, 0, be 1 2 ++ be 1 1 ++ be 1 c ++ zeros 1)) ∧
  (∀ s : State, s.trafficRuns = true → s.protect.mirror.state = 2 → s.protect.mirror.tieSample = false →
    (s.mirIn = false → ∃ t, exec .mirrorClaimSample s = .next t ∧ t.protect.mirror.state = 3 ∧ t.pins.mirActOut = true ∧
      t.protect.mirror.switchovers = s.protect.mirror.switchovers + 1 ∧
      lastEvent t = some (0x0F04, 0, be 1 3 ++ be 1 2 ++ be 1 s.protect.mirror.claimCause ++ zeros 1)) ∧
    (s.mirIn = true → s.sill.straps.tie = true → exec .mirrorClaimSample s = .next (modMirror (fun m => { m with tieSample := true }) s)) ∧
    (s.mirIn = true → s.sill.straps.tie = false → ∃ t, exec .mirrorClaimSample s = .next t ∧ t.protect.mirror.state = 1 ∧
      t.pins.mirActOut = false ∧ lastEvent t = some (0x0F04, 0, be 1 1 ++ be 1 2 ++ be 1 5 ++ zeros 1))) ∧
  (∀ s : State, s.trafficRuns = true → s.protect.mirror.state = 2 → s.protect.mirror.tieSample = true →
    (s.mirIn = false → ∃ t, exec .mirrorTieResample s = .next t ∧ t.protect.mirror.state = 3) ∧
    (s.mirIn = true → ∃ t, exec .mirrorTieResample s = .next t ∧ t.protect.mirror.state = 4 ∧ t.pins.mirActOut = false ∧
      ∃ pl, lastEvent t = some (0x0F05, 0, be 1 4 ++ pl))) ∧
  (∀ s : State, exec .mirrorHoldoffExpiry s = .next (modMirror (fun m => { m with holdoff := false }) s)) ∧
  (∀ s : State, s.trafficRuns = true → s.allLost = true → s.protect.mirror.state = 3 → s.protect.mirror.releasing = none →
    s.protect.mirror.releaseMask.testBit 2 = true → exec .mirrorLosRelease s = .next (modMirror (fun m => { m with releasing := some 3 }) s)) ∧
  (∀ (c : Nat) (s : State), s.protect.mirror.releasing = some c → s.protect.mirror.state = 3 →
    ∃ t, exec .mirrorReleaseDeassert s = .next t ∧ t.protect.mirror.state = 1 ∧ t.pins.mirActOut = false ∧ t.protect.mirror.releasing = none ∧
      t.protect.mirror.holdoff = true ∧ lastEvent t = some (0x0F04, 0, be 1 1 ++ be 1 3 ++ be 1 c ++ zeros 1)) ∧
  (∀ (p : Nat) (s : State), s.trafficRuns = true → s.bracePort = some p → s.braceTrained = true →
    exec .braceHeartbeatTx s = .next (tenonPush p { vc := 2, body := .heartbeat (heartbeatBytes s) } s)) ∧
  (∀ (h : Heartbeat) (s : State), s.blocksRun = true → s.braceTrained = true →
    ∃ t, exec (.braceHeartbeatRx h) s = .next t ∧ t.protect.mirror.brace = true ∧ t.protect.mirror.missed = 0 ∧
      t.protect.mirror.peerState = some h.state ∧ t.protect.mirror.peerTie = h.tie ∧ t.protect.mirror.peerFw = h.fw ∧
      t.protect.mirror.state = s.protect.mirror.state ∧ OnlyChanges [.sill, .control, .counters, .protect] s t) ∧
  (∀ (p : Nat) (s : State), s.blocksRun = true → s.bracePort = some p → ∃ t, exec .braceHeartbeatMissed s = .next t ∧
    t.protect.mirror.missed = min 8 (s.protect.mirror.missed + 1) ∧ t.live pmMirror 0 2 = s.live pmMirror 0 2 + 1) ∧
  (∀ s : State, s.blocksRun = true → 8 ≤ s.protect.mirror.missed → s.protect.mirror.brace = true →
    ∃ t, exec .braceLinkDown s = .next t ∧ t.protect.mirror.brace = false ∧ t.protect.mirror.peerState = none ∧
      lastEvent t = some (0x0F06, 0, be 1 0 ++ zeros 3))

/-- PROTECT.SET_TWIN enables a group of two alike units with its settings and reserves both rings in the four stacks, changes the settings that may change of an enabled one, or disables it. PROTECT.REALIGN aligns the pending copy, and answers ST_STATE without one. PROTECT.SET_MIRROR holds its settings and enters STANDBY with a suitable peer, or DISABLED. PROTECT.CLAIM releases, claims or ends HELD_OFF. PROTECT.GET_STATUS answers 36 bytes and PROTECT.GET_COUNTS the latched counts of a group or of the mirror. -/
def Obligations.ProtectCommandsComplete : Prop :=
  (∀ (q : Request) (s : State), taken 0x0F01 q s = true → q.u = 0 → q.b 0 ≤ 1 → q.b 1 ≤ 3 → q.b 2 ≤ 3 → q.b 2 ≠ q.b 1 → 4 ≤ q.b 4 → q.b 4 ≤ 64 →
    q.b 5 ≤ 1 → 100 ≤ q.h 6 → q.h 6 ≤ 8000 → q.b 8 ≤ 1 → isZero q.payload 9 3 = true →
    (q.b 3 = 0 → ∃ v, exec (.protectSetTwin q) s = .next (carriedOut 0x0F01 q .ok [] v) ∧ (v.twin (q.b 0)).enabled = false) ∧
    (∀ x y, q.b 3 = 1 → (s.cu (q.b 1)).fmt = some x → (s.cu (q.b 2)).fmt = some y → x.lineMode = 0 → y.lineMode = 0 → x.otucN = y.otucN →
      ((s.twin (1 - q.b 0)).enabled = true → ∀ u ∈ [(s.twin (1 - q.b 0)).home, (s.twin (1 - q.b 0)).partner], u ≠ q.b 1 ∧ u ≠ q.b 2) →
      s.hasTribs (max (q.b 1) (q.b 2)) = false →
      ((s.twin (q.b 0)).enabled = true → (s.twin (q.b 0)).home = min (q.b 1) (q.b 2) → (s.twin (q.b 0)).partner = max (q.b 1) (q.b 2) →
        (s.twin (q.b 0)).guard_ = q.b 4 → (s.twin (q.b 0)).depthUs = q.h 6 →
        exec (.protectSetTwin q) s = .next (carriedOut 0x0F01 q .ok []
          (modTwin (q.b 0) (fun t => { t with rebase := q.b 5, prefer := q.b 8 }) (admitted 0x0F01 q s)))) ∧
      ((s.twin (q.b 0)).enabled = false → s.cellsShort (2 * deskewCells (q.h 6) x.otucN) = 0 → s.meetsFloor = true →
        ∃ v, exec (.protectSetTwin q) s = .next (carriedOut 0x0F01 q .ok [] v) ∧ (v.twin (q.b 0)).enabled = true ∧
          (v.twin (q.b 0)).home = min (q.b 1) (q.b 2) ∧ (v.twin (q.b 0)).partner = max (q.b 1) (q.b 2) ∧ (v.twin (q.b 0)).guard_ = q.b 4 ∧
          (v.twin (q.b 0)).rebase = q.b 5 ∧ (v.twin (q.b 0)).depthUs = q.h 6 ∧ (v.twin (q.b 0)).prefer = q.b 8 ∧
          ∀ k < 4, (v.stack k).deskew = (s.stack k).deskew + 2 * deskewPart (deskewCells (q.h 6) x.otucN) k))) ∧
  (∀ (q : Request) (s : State), taken 0x0F02 q s = true → q.u = 0 → q.b 0 ≤ 1 → isZero q.payload 1 3 = true →
    ((s.twin (q.b 0)).pendingCopy = none → exec (.protectRealign q) s = .next (refused 0x0F02 q .state [] (admitted 0x0F02 q s))) ∧
    (∀ k, (s.twin (q.b 0)).pendingCopy = some k → ∃ v, exec (.protectRealign q) s = .next (carriedOut 0x0F02 q .ok [] v) ∧
      ((v.twin (q.b 0)).copy k).state = 3)) ∧
  (∀ (q : Request) (s : State), taken 0x0F03 q s = true → q.u = 0 → q.b 0 ≤ 1 → q.b 1 ≤ 7 → q.b 2 ≤ 7 → q.b 3 ≤ 15 → (s.tenon (q.b 1)).role = 7 →
    (q.b 0 = 0 ∨ (s.protect.mirror.brace = true ∧ s.protect.mirror.peerTie ≠ s.sill.straps.tie ∧ s.meetsFloor = true ∧
      ∃ f, s.floorHeld = some f ∧ f ≤ s.protect.mirror.peerFw)) →
    ∃ v, exec (.protectSetMirror q) s = .next (carriedOut 0x0F03 q .ok [] v) ∧ v.protect.mirror.bracePort = q.b 1 ∧
      v.protect.mirror.releaseMask = q.b 2 ∧ v.protect.mirror.muteCu = q.b 3 ∧ v.protect.mirror.clientMask = q.d 4 ∧
      v.protect.mirror.state = (if q.b 0 = 0 then 0 else if s.protect.mirror.state = 0 then 1 else s.protect.mirror.state)) ∧
  (∀ (q : Request) (s : State), taken 0x0F04 q s = true → q.u = 0 → isZero q.payload 1 3 = true →
    (q.b 0 = 0 → s.protect.mirror.state = 3 → ∃ v, exec (.protectClaim q) s = .next (carriedOut 0x0F04 q .ok [] v) ∧
      v.protect.mirror.releasing = (if s.protect.mirror.releasing = none then some 4 else s.protect.mirror.releasing)) ∧
    (q.b 0 = 1 → s.mirIn = false → (s.protect.mirror.state = 1 ∨ s.protect.mirror.state = 4) → exec (.protectClaim q) s =
      .next (carriedOut 0x0F04 q .ok [] (modMirror (fun m => { m with wantClaim := true }) (admitted 0x0F04 q s)))) ∧
    (q.b 0 = 2 → s.protect.mirror.state = 4 → ∃ v, exec (.protectClaim q) s = .next (carriedOut 0x0F04 q .ok [] v) ∧
      v.protect.mirror.state = 1)) ∧
  (∀ (q : Request) (s : State), taken 0x0F05 q s = true → q.u = 0 →
    ∃ pl, exec (.protectGetStatus q) s = .next (got 0x0F05 q pl (admitted 0x0F05 q s)) ∧ pl.length = 36 ∧
      pl.drop 24 = be 1 s.protect.mirror.state ++ be 1 s.mirrorPins ++ be 1 (b2n s.protect.mirror.brace) ++
        be 1 (s.protect.mirror.peerState.getD 0xFF) ++ be 4 s.protect.mirror.peerFw ++ be 4 s.protect.mirror.switchovers.toNat) ∧
  (∀ (q : Request) (s : State), taken 0x0F06 q s = true →
    (q.u < 2 → exec (.protectGetCounts q) s = .next (got 0x0F06 q (countsReply s pmTwin q.u 0 10) (admitted 0x0F06 q s))) ∧
    (q.u = 2 → exec (.protectGetCounts q) s = .next (got 0x0F06 q (countsReply s pmMirror 0 0 3 ++ zeros 56) (admitted 0x0F06 q s))))

/-- A supply or clock glitch, a temperature excursion, TAMPER_IN and ZEROIZE_N, and the loss of VDD_IO each fire their cause: LAST_CAUSE is set, the alarm state stands from action 1, no key is held in a slot from action 2, no KEK at action 3, and EV_SEC_ALARM names the cause and the action at once, or waits until Salurn runs. A pin released and a failed or restored entropy source are noted. When VDD_IO returns the pins are sensed: TAMPER_IN or ZEROIZE_N that stands asserted fires its cause then. -/
def Obligations.AlarmsFire : Prop :=
  (∀ (x : Supply) (s : State), s.sill.on = true → s.hubUp = true → ∃ t, exec (.supplyGlitch x) s = .next t ∧ Fired 1 s t) ∧
  (∀ s : State, s.sill.on = true → ∃ t, exec .clockGlitch s = .next t ∧ Fired 2 s t) ∧
  (∀ s : State, s.sill.on = true → ∃ t, exec .temperatureExcursion s = .next t ∧ Fired 3 s t ∧ t.security.hot = true) ∧
  (∀ s : State, s.sill.on = true → s.pins.vddIo = true →
    (∃ t, exec .tamperInAsserted s = .next t ∧ Fired 4 s t ∧ t.tamper = true) ∧
    (∃ t, exec .zeroizeNAsserted s = .next t ∧ Fired 5 s t ∧ t.zeroize = true) ∧
    (∃ t, exec .vddIoLoss s = .next t ∧ Fired 1 s t ∧ t.mirIn = true)) ∧
  (∀ s : State,
    exec .tamperInDeasserted s = .next (modPins (fun p => { p with tamperIn := false }) s) ∧
    exec .zeroizeNDeasserted s = .next (modPins (fun p => { p with zeroizeN := true }) s) ∧
    exec .entropyHealthFail s = .next (modSecurity (fun c => { c with entropyOk := false }) s) ∧
    exec .entropyHealthRestored s = .next (modSecurity (fun c => { c with entropyOk := true }) s)) ∧
  (∀ s : State, s.pins.refSel = s.timing.refSel →
    (s.pins.vddIo = true → exec .vddIoReturn s = .next s) ∧
    (s.pins.vddIo = false → (s.sill.on = false ∨ (s.pins.tamperIn = false ∧ s.pins.zeroizeN = true)) →
      exec .vddIoReturn s = .next (modPins (fun p => { p with vddIo := true }) s)) ∧
    (s.pins.vddIo = false → s.sill.on = true → s.pins.tamperIn = true → s.pins.zeroizeN = true →
      ∃ t, exec .vddIoReturn s = .next t ∧ Fired 4 s t ∧ t.tamper = true) ∧
    (s.pins.vddIo = false → s.sill.on = true → s.pins.tamperIn = false → s.pins.zeroizeN = false →
      ∃ t, exec .vddIoReturn s = .next t ∧ Fired 5 s t ∧ t.zeroize = true))

/-- A rollover under way flips the epoch, at an OTUCn frame that begins first in its ACF, with EV_SEC_EPOCH, ends a squelch when the slot there is usable and squelches the channel when it is not. A MODE change whose time has come makes the channel SECURE or CLEAR at a frame with MFAS 0. The bench engine takes the request at the head of its queue: a seal under a loaded bench key moves its counter on by one, and a key load whose blob unwraps puts the key into its slot, unless the slot is erased in the same SILL_CLK cycle, while one that does not counts as an authentication failure (the unwrapping is opaque: log entry 4). -/
def Obligations.ChannelsAndBenchMove : Prop :=
  (∀ (u : Fin 4) (i : Nat) (s : State), s.trafficRuns = true → (s.channel u 0).rollover = true → s.epochMayChange u = true →
    (s.channel u 0).slotAt (1 - (s.channel u 0).epoch) = some i →
    ((s.slot i).state = 1 → (s.slot i).counter < counterEnd → ∃ t, exec (.rolloverFlip u) s = .next t ∧
      (t.channel u 0).epoch = 1 - (s.channel u 0).epoch ∧ (t.channel u 0).rollover = false ∧ (t.channel u 0).squelch = 0 ∧
      lastEvent t = some (0x0904, u.val, be 1 (1 - (s.channel u 0).epoch) ++ be 1 i ++ zeros 2)) ∧
    ((s.slot i).state ≠ 1 ∨ counterEnd ≤ (s.slot i).counter → ∃ t, exec (.rolloverFlip u) s = .next t ∧
      (t.channel u 0).epoch = 1 - (s.channel u 0).epoch ∧ (t.channel u 0).rollover = false ∧ (t.channel u 0).squelch ≠ 0)) ∧
  (∀ (u : Fin 4) (d : Fin 2) (m : Bool) (e : Nat) (s : State), s.blocksRun = true → (s.channel u d).modeDue = some (m, e) → e ≤ s.timing.tod.sec →
    s.multiframeStarts u d = true →
    ∃ t, exec (.channelModeApply u d) s = .next t ∧ (t.channel u d).secure = m ∧ (t.channel u d).modeDue = none ∧
      OnlyChanges [.sill, .control, .counters, .security] s t) ∧
  (∀ (i : Nat) (fixed aad text : List Byte) (e : Nat) (rest : List Bench) (s : State), s.benchRuns = true →
    s.security.bench = .seal i fixed aad text e :: rest →
    ∃ t, exec .benchRequestExecute s = .next t ∧ t.security.bench = rest ∧
      ((s.slot i).state = 1 → (s.slot i).usage = 2 → (s.slot i).counter < counterEnd → (t.slot i).counter = (s.slot i).counter + 1) ∧
      ((s.slot i).state ≠ 1 ∨ (s.slot i).usage ≠ 2 → (t.slot i).counter = (s.slot i).counter)) ∧
  (∀ (i : Nat) (iv tag aad text : List Byte) (e : Nat) (rest : List Bench) (s : State), s.benchRuns = true →
    s.security.bench = .unseal i iv tag aad text e :: rest →
    ∃ t, exec .benchRequestExecute s = .next t ∧ t.security.bench = rest ∧ t.security.slots = s.security.slots) ∧
  (∀ (slot kek : Nat) (blob : List Byte) (e : Nat) (rest : List Bench) (s : State), s.benchRuns = true →
    s.security.bench = .load slot kek blob e :: rest → s.sill.debugLevel < 2 → s.kek kek ≠ [] → s.binds slot = 0 →
    (s.erasedSlot slot = true → ∃ t, exec .keyLoadExecute s = .next t ∧ t.security.bench = rest ∧ t.slot slot = s.slot slot) ∧
    (s.erasedSlot slot = false → ∃ t, exec .keyLoadExecute s = .next t ∧
      (∀ p, Config.keyUnwrap (s.kek kek) blob = some p → u8 p 33 = 0 → (u8 p 32 = 1 ∨ u8 p 32 = 2) → t.security.bench = rest ∧
        t.slot slot = { state := 1, usage := u8 p 32, key := fitBytes 32 p, counter := field p 34 6 }) ∧
      (Config.keyUnwrap (s.kek kek) blob = none → t.sill.authFails = min (s.sill.authFails + 1) 255)))

/-- SECURITY.SET_OWNER_ROOT fuses the lowest free root with the digest of the key, unless the burn fails, which is a free value (log entry 7), or revokes one. SECURITY.SET_OWNER_RECORD whose record is accepted puts it into force in the other copy, and one that is not is an authentication failure and is refused. SECURITY.LOAD_KEK holds a KEK that unwraps, and is refused at debug level 2 and 3; SECURITY.LOAD_KEY queues the load behind the bench requests, with the bench domain awake. SECURITY.ERASE_KEY leaves no key in what it names. The cryptographic checks are opaque (log entry 4), so each outcome is stated. -/
def Obligations.OwnerAndKeyCommandsComplete : Prop :=
  (∀ (q : Request) (s : State), taken 0x0901 q s = true → q.u = 0 → q.b 1 ≤ 3 → q.h 2 = 0 → isZero q.payload 137 3 = true →
    (q.b 0 = 1 → s.freeRoot = none → exec (.securitySetOwnerRoot q) s = .next (refused 0x0901 q .fuse [] (admitted 0x0901 q s))) ∧
    (∀ i, q.b 0 = 1 → s.freeRoot = some i → ∃ v st, exec (.securitySetOwnerRoot q) s = .next (carriedOut 0x0901 q st [] v) ∧
      (Config.freeNat s.fresh % 2 = 0 → st = .ok ∧ tblGet [] v.otp.ownerRoots i = Config.sha512 (bytesAt q.payload 4 133)) ∧
      (Config.freeNat s.fresh % 2 = 1 → st = .fuse ∧ v.otp = s.otp)) ∧
    (q.b 0 = 2 → isZero q.payload 4 133 = true → (∀ r, s.security.record = some r → r.root ≠ q.b 1) → s.rootLive (q.b 1) = true →
      (∃ j < 4, j ≠ q.b 1 ∧ s.rootLive j = true) → exec (.securitySetOwnerRoot q) s = .next (carriedOut 0x0901 q .ok []
        { (admitted 0x0901 q s) with otp := { s.otp with ownerRevoked := s.otp.ownerRevoked ||| 2 ^ q.b 1 } }))) ∧
  (∀ (q : Request) (s : State), taken 0x0902 q s = true → (recordFields q s).all (fun c => c.1) = true →
    let copy := match s.security.record with | some r => 1 - r.copy | none => 0
    let a := 0x100000 + copy * 0x10000
    ∃ t, exec (.securitySetOwnerRecord q) s = .next t ∧
      (securitySetOwnerRecord.readRecord q s copy = none → t = refused 0x0902 q .auth [] (authFailure 7 (admitted 0x0902 q s))) ∧
      (∀ r, securitySetOwnerRecord.readRecord q s copy = some r →
        (Config.freeNat s.fresh % 2 = 0 → t.security.record = some r ∧ flashBytes t a q.payload.length = q.payload) ∧
        (Config.freeNat s.fresh % 2 ≠ 0 → t.security.record = s.security.record ∧ t.flash = s.flash) ∧
        (∀ b, b < a ∨ a + 0x10000 ≤ b → flashByte t b = flashByte s b))) ∧
  (∀ (q : Request) (s : State), taken 0x0903 q s = true → q.u = 0 → q.b 0 ≤ 7 → isZero q.payload 1 3 = true → isZero q.payload 137 3 = true →
    (2 ≤ s.sill.debugLevel → exec (.securityLoadKek q) s = .next (refused 0x0903 q .state [] (admitted 0x0903 q s))) ∧
    (s.sill.debugLevel < 2 → s.security.entropyOk = false → exec (.securityLoadKek q) s = .next (refused 0x0903 q .busy [] (admitted 0x0903 q s))) ∧
    (s.sill.debugLevel < 2 → s.security.entropyOk = true → s.kek (q.b 0) = [] → s.erasedKek (q.b 0) = false →
    let got := Config.keyUnwrap (transportKey (bytesAt q.payload 4 133) s.serial (q.b 0)) (bytesAt q.payload 140 40)
    ∃ v st, exec (.securityLoadKek q) s = .next (carriedOut 0x0903 q st [] v) ∧
      (got = none → st = .auth ∧ v.sill.authFails = min (s.sill.authFails + 1) 255) ∧
      (∀ k, got = some k → st = .ok ∧ v.kek (q.b 0) = fitBytes 32 k ∧ v.sill.allErased = false))) ∧
  (∀ (q : Request) (s : State), taken 0x0904 q s = true → q.u = 0 → q.b 0 ≤ 127 → q.b 1 ≤ 7 → q.h 2 = 0 → s.sill.debugLevel < 2 → s.kek (q.b 1) ≠ [] →
    s.binds (q.b 0) = 0 → s.security.bench.length < 64 → s.security.entropyOk = true → s.serves 7 0 = true →
    let r := (needDomain 7 0 (admitted 0x0904 q s)).2
    exec (.securityLoadKey q) s = .next (begun 0x0904 q (.loadKey (q.b 0)) (modSecurity (fun c => { c with
      bench := c.bench ++ [.load (q.b 0) (q.b 1) (bytesAt q.payload 4 48) r.control.nextEntry] }) r))) ∧
  (∀ (q : Request) (s : State), taken 0x0905 q s = true → q.u = 0 → q.b 0 ≤ 3 → (q.b 0 = 0 → q.b 1 ≤ 127) → (q.b 0 = 1 → q.b 1 ≤ 7) →
    (2 ≤ q.b 0 → q.b 1 = 0) → q.h 2 = 0 →
    ∃ v, exec (.securityEraseKey q) s = .next (carriedOut 0x0905 q .ok [] v) ∧
      (q.b 0 = 0 → (v.slot (q.b 1)).state ≠ 1) ∧ (q.b 0 = 1 → v.kek (q.b 1) = []) ∧ (2 ≤ q.b 0 → ∀ i, (v.slot i).state ≠ 1) ∧
      (q.b 0 = 3 → v.security.keks = []) ∧
      (s.salurnRuns = true → lastEvent v = some (0x0906, 0, be 1 (q.b 0) ++ be 1 (q.b 1) ++ be 1 0 ++ zeros 1)))

/-- SECURITY.SET_CHANNEL names slots for positions not in use and lets its MODE wait; a channel to be SECURE whose security slot is allocated is refused with ST_TS_BUSY. SECURITY.ROLLOVER starts a rollover to a usable slot. SECURITY.BENCH queues a seal or an unseal. SECURITY.SET_POLICY holds actions and thresholds until committed; SECURITY.CLEAR_ALARM clears the alarm state while no cause persists. SECURITY.ATTEST signs its report, SECURITY.GET_CERT answers 400 bytes, GET_SLOTS 520, GET_STATUS the unit's two channels, GET_COUNTS the latched counts. -/
def Obligations.ChannelAndReadCommandsComplete : Prop :=
  (∀ (q : Request) (s : State), taken 0x0906 q s = true → q.u < 4 → q.b 0 ≤ 1 → q.b 1 ≤ 1 →
    (∀ o ∈ [q.b 2, q.b 3], o ≤ 127 ∨ o = 0xFE ∨ o = 0xFF) → (q.b 0 = 1 → isZero q.payload 4 6 = true) → q.h 10 = 0 →
    (q.b 0 = 0 → 1 ≤ field q.payload 12 6 ∧ field q.payload 12 6 ≤ 2 ^ 48 - 2) → (q.b 0 = 1 → isZero q.payload 12 6 = true) → q.h 18 = 0 →
    (q.d 20 = 0 ∨ (q.h 20 = 0 ∧ s.timing.tod.sec < q.d 20)) →
    let c := s.channel q.u (q.b 0)
    let n0 := newPosition c.slot0 (q.b 2)
    let n1 := newPosition c.slot1 (q.b 3)
    let goesSecure := q.b 0 = 0 ∧ q.b 1 = 1 ∧ c.secure = false
    (n0 ≠ c.slot0 → (nameable q.u (q.b 0) 0 n0 s).all (fun x => x.1) = true ∧ c.inUse (q.b 0) 0 = false) →
    (n1 ≠ c.slot1 → (nameable q.u (q.b 0) 1 n1 s).all (fun x => x.1) = true ∧ c.inUse (q.b 0) 1 = false) →
    (q.b 0 = 0 → n0 ≠ none → n0 ≠ n1) → s.twinPartner q.u = false → (∀ f, (s.cu q.u).fmtTx = some f → f.lineMode = 0) →
    (∀ t, goesSecure → s.securityTrib q.u = some t →
      exec (.securitySetChannel q) s = .next (refused 0x0906 q .tsBusy (be 2 t ++ zeros 2) (admitted 0x0906 q s))) ∧
    ((goesSecure → s.securityTrib q.u = none ∧ ∃ i, (if c.epoch = 0 then n0 else n1) = some i ∧ (s.slot i).state = 1) →
      ∃ v, exec (.securitySetChannel q) s = .next (carriedOut 0x0906 q .ok [] v) ∧ (v.channel q.u (q.b 0)).slot0 = n0 ∧
        (v.channel q.u (q.b 0)).slot1 = n1 ∧ (v.channel q.u (q.b 0)).secure = c.secure ∧
        (v.channel q.u (q.b 0)).modeDue = (if (q.b 1 = 1) = (c.secure = true) then none else some (q.b 1 == 1, q.d 20)))) ∧
  (∀ (q : Request) (i : Nat) (s : State), taken 0x0907 q s = true → q.u < 4 → (s.channel q.u 0).slotAt (1 - (s.channel q.u 0).epoch) = some i →
    (s.channel q.u 0).secure = true → (s.slot i).state ≠ 2 → (s.slot i).counter < counterEnd →
    ((s.channel q.u 0).rollover = true → exec (.securityRollover q) s = .next (refused 0x0907 q .busy [] (admitted 0x0907 q s))) ∧
    ((s.channel q.u 0).rollover = false → exec (.securityRollover q) s =
      .next (carriedOut 0x0907 q .ok [] (modChannel q.u 0 (fun c => { c with rollover := true }) (admitted 0x0907 q s))))) ∧
  (∀ (q : Request) (s : State), taken 0x0908 q s = true → q.u = 0 → 1 ≤ q.b 0 → q.b 0 ≤ 2 → q.b 1 ≤ 127 → q.h 2 + q.h 4 ≤ 16348 →
    q.payload.length = 36 + (q.h 2 + q.h 4 + 3) / 4 * 4 → q.h 6 = 0 → (q.b 0 = 1 → isZero q.payload 14 6 = true ∧ isZero q.payload 20 16 = true) →
    isZero q.payload (36 + q.h 2 + q.h 4) (q.payload.length - (36 + q.h 2 + q.h 4)) = true → s.security.bench.length < 64 →
    s.security.entropyOk = true → s.serves 7 0 = true →
    let r := (needDomain 7 0 (admitted 0x0908 q s)).2
    let id := r.control.nextEntry
    let a := bytesAt q.payload 36 (q.h 2)
    let t := bytesAt q.payload (36 + q.h 2) (q.h 4)
    exec (.securityBench q) s = .next (begun 0x0908 q (.bench id) (modSecurity (fun c => { c with bench := c.bench ++ [if q.b 0 = 1
      then .seal (q.b 1) (bytesAt q.payload 8 6) a t id else .unseal (q.b 1) (bytesAt q.payload 8 12) (bytesAt q.payload 20 16) a t id] }) r))) ∧
  (∀ (q : Request) (s : State), taken 0x0909 q s = true → q.u = 0 → (∀ c < 9, q.b c ≤ 3) → 2 ≤ q.b 4 → 1 ≤ q.b 9 → 1 ≤ q.b 10 → 1 ≤ q.b 11 →
    q.b 12 ≤ 1 → isZero q.payload 13 3 = true →
    (s.sill.policyCommitted = true → exec (.securitySetPolicy q) s = .next (refused 0x0909 q .state [] (admitted 0x0909 q s))) ∧
    (s.sill.policyCommitted = false → exec (.securitySetPolicy q) s = .next (carriedOut 0x0909 q .ok []
      (modSill (fun x => { x with policyCommitted := q.b 12 == 1 }) (modSecurity (fun c => { c with
        actions := (List.range 9).map (fun c => q.b c), thrFw := q.b 9, thrSession := q.b 10, thrBlob := q.b 11 }) (admitted 0x0909 q s)))))) ∧
  (∀ (q : Request) (s : State), taken 0x090A q s = true → q.u = 0 → s.security.hot = false →
    (s.tamper = true ∨ s.zeroize = true → exec (.securityClearAlarm q) s = .next (refused 0x090A q .state []
      (modSecurity (fun c => { c with hot := false }) (admitted 0x090A q s)))) ∧
    (s.tamper = false → s.zeroize = false → ∃ v, exec (.securityClearAlarm q) s = .next (carriedOut 0x090A q .ok [] v) ∧
      v.sill = { s.sill with secAlarm := false } ∧ v.security.fails = [])) ∧
  (∀ (q : Request) (s : State), taken 0x090B q s = true → q.u = 0 → s.security.entropyOk = true →
    ∃ body, body.take 20 = be 2 1 ++ zeros 2 ++ s.serial ∧ exec (.securityAttest q) s = .next (carriedOut 0x090B q .ok
      (body ++ Config.ecdsaSign (Config.devicePub 0) body (Config.freeNat s.fresh)) { (admitted 0x090B q s) with fresh := s.fresh + 1 })) ∧
  (∀ (q : Request) (s : State), taken 0x090C q s = true → q.u = 0 →
    ∃ pl, exec (.securityGetCert q) s = .next (got 0x090C q pl (admitted 0x090C q s)) ∧ pl.length = 400 ∧
      pl.take 266 = Config.devicePub 0 ++ Config.devicePub 1) ∧
  (∀ (q : Request) (s : State), taken 0x090D q s = true → q.u < 4 →
    exec (.securityGetStatus q) s = .next (got 0x090D q (channelStatus s q.u 0 ++ channelStatus s q.u 1 ++ zeros 16) (admitted 0x090D q s))) ∧
  (∀ (q : Request) (s : State), taken 0x090E q s = true → q.u = 0 →
    ∃ pl, exec (.securityGetSlots q) s = .next (got 0x090E q pl (admitted 0x090E q s)) ∧ pl.length = 520) ∧
  (∀ (q : Request) (s : State), taken 0x090F q s = true → q.u < 4 →
    exec (.securityGetCounts q) s = .next (got 0x090F q (countsReply s pmFramer q.u 24 6) (admitted 0x090F q s)))

/-- A measurement gives each present source its frequency, disqualifies one beyond 20 ppm, leaves an absent one as it was, and gives the phase of a present selected source. A source that stops is neither present nor qualified; the state of the selected one becomes ABSENT with EV_TIMING_STATE, cause 4. A drift of DWELL_MS disqualifies; selected, the state is HOLDOVER with the mean of the seconds before the drift began, and otherwise EV_TIMING_REF_QUAL says it. A steady source qualifies, and an output that follows it is ACQUIRING. A new REF_SEL that the sill senses, VDD_IO being present, takes the state its source gives; without VDD_IO only the pins change (R39). The lock test turns ACQUIRING into LOCKED. -/
def Obligations.ReferencesQualifyAndFail : Prop :=
  (∀ (f : Vector Int 6) (phase : Int) (s : State), s.hubUp = true → ∃ t, exec (.refMeasurement f phase) s = .next t ∧
    (∀ k < 6, ((s.source k).present = true → (t.source k).f = f.toList.getD k 0 ∧ (t.source k).present = true ∧
        (t.source k).qualified = ((s.source k).qualified && decide ((f.toList.getD k 0).natAbs ≤ 20000))) ∧
      ((s.source k).present = false → t.source k = s.source k)) ∧
    t.timing.phaseErr = (match selectedSource s.timing.refSel with
      | some k => if (s.source k).present then some phase else none
      | none => none)) ∧
  (∀ (n : Fin 4) (s : State), s.hubUp = true → (s.source n).present = true →
    ∃ t, exec (.refAbsence n) s = .next t ∧ (t.source n).present = false ∧ (t.source n).qualified = false ∧
      (s.timing.refSel = n.val + 1 → t.timing.state = 4 ∧
        (s.timing.state ≠ 4 → lastEvent t = some (0x0A01, 0, be 1 4 ++ be 1 s.timing.state ++ be 1 s.timing.refSel ++ be 1 4)))) ∧
  (∀ (n : Fin 4) (s : State), s.hubUp = true → (s.source n).mode ≠ 0 → (s.source n).present = false → (s.source n).qualified = false →
    ∃ t, exec (.refPresenceRestored n) s = .next t ∧ (t.source n).present = true ∧ (t.source n).qualified = false ∧
      (s.timing.refSel = n.val + 1 → t.timing.state = 3)) ∧
  (∀ (k : Fin 6) (s : State), s.hubUp = true → (s.source k).qualified = true → s.timing.dwellMs ≤ (s.source k).driftMs →
    ∃ t, exec (.refDisqualified k) s = .next t ∧ (t.source k).qualified = false ∧ (t.source k).driftMs = 0 ∧
      (s.timing.refSel = k.val + 1 → (s.source k).present = true → t.timing.state = 3 ∧
        (s.timing.state ≠ 3 → t.timing.holdW = (if s.timing.holdTaken then s.timing.holdW else holdValue s.timing (s.source k).driftSince) ∧
          lastEvent t = some (0x0A01, 0, be 1 3 ++ be 1 s.timing.state ++ be 1 s.timing.refSel ++ be 1 2))) ∧
      (s.timing.refSel ≠ k.val + 1 → timingState s true = s.timing.state →
        t.timing.state = s.timing.state ∧ lastEvent t = some (0x0A02, 0, be 1 k ++ be 1 0 ++ be 1 2 ++ zeros 1))) ∧
  (∀ (k : Fin 6) (s : State), s.hubUp = true → (s.source k).qualified = false → steady s.timing (s.source k) = true →
    ∃ t, exec (.refRequalified k) s = .next t ∧ (t.source k).qualified = true ∧ (t.source k).averages = [meanInt (s.source k).recent] ∧
      (s.timing.refSel = k.val + 1 → s.timing.state ≠ 2 → t.timing.state = 1)) ∧
  (∀ (v : Fin 8) (s : State), s.pins.vddIo = false → exec (.refSelChange v) s = .next (modPins (fun p => { p with refSel := v }) s)) ∧
  (∀ (v : Fin 8) (s : State), s.sill.on = true → s.pins.vddIo = true → v.val ≠ s.timing.refSel →
    ∃ t, exec (.refSelChange v) s = .next t ∧ t.timing.refSel = v ∧ t.timing.phaseErr = none ∧
      (s.hubUp = true → t.timing.state = (if v.val = 0 then 0 else if v.val = 7 then 4 else if (s.source (v.val - 1)).present = false then 4
        else if (s.source (v.val - 1)).qualified = false then 3 else 1)) ∧
      (s.hubUp = false → t.timing.state = (if v.val = 0 then 0 else 4))) ∧
  (∀ s : State, s.hubUp = true → s.timing.state = 1 → ∃ t, exec .lockTestMet s = .next t ∧ t.timing.state = 2 ∧
    lastEvent t = some (0x0A01, 0, be 1 2 ++ be 1 1 ++ be 1 s.timing.refSel ++ be 1 5))

/-- With the hub up an update changes only W and what it sums. W moves by at most 100 times FREQ_RATE; a value the state asks for that lies within that reach is attained: the steering value in FREE RUN, the source's frequency in ACQUIRING, the loop's in LOCKED, the held value in HOLDOVER, 0 in ABSENT, each clipped to the range of W. A W within the range stays within it. -/
def Obligations.DcoFollowsItsState : Prop :=
  ∀ (loop : Int) (s : State), s.hubUp = true →
    ∃ t, exec (.dcoUpdate loop) s = .next t ∧ OnlyChanges [.timing] s t ∧ t.timing.state = s.timing.state ∧ t.timing.tod = s.timing.tod ∧
      (t.timing.w - s.timing.w).natAbs ≤ s.timing.freqRate * 100 ∧
      (-2147483647 ≤ s.timing.w → s.timing.w ≤ 2147483647 → -2147483647 ≤ t.timing.w ∧ t.timing.w ≤ 2147483647) ∧
      (∀ x : Int,
        ((s.timing.state = 0 ∧ x = s.timing.steer) ∨
         (∃ k, s.timing.state = 1 ∧ selectedSource s.timing.refSel = some k ∧ x = (s.source k).f * 100000) ∨
         (s.timing.state = 2 ∧ x = loop) ∨ (s.timing.state = 3 ∧ x = s.timing.holdW) ∨ (4 ≤ s.timing.state ∧ x = 0)) →
        (clipW x - s.timing.w).natAbs ≤ s.timing.freqRate * 100 → t.timing.w = clipW x)

/-- At the wrap the ToD is the next second and every counting unit keeps what it counted under that ToD, then takes the events that waited. A slew that ends has applied all of its offset, and EV_TIMING_TOD_STEP gives it. A MODE 2 step that expires leaves the ToD; one that meets an accepted PPS_IN edge sets the ToD to its second and 8 ns. An edge that is too short, or not a second after the last one, only counts as a rejection; an accepted one is stamped, with EV_TIMING_PPS_TS where it is asked for and no step waits. A pulse of an enabled output is an edge at this ToD and the next comes a period after. -/
def Obligations.TimeOfDayMoves : Prop :=
  (∀ s : State, s.sill.on = true → ∃ t, exec .todSecondBoundary s = .next t ∧
    t.timing.tod = ⟨(s.timing.tod.sec + 1) % 2 ^ 48, 0⟩ ∧ t.timing.seconds = s.timing.seconds + 1 ∧
    t.localNs = s.localNs + (billion - s.timing.tod.ns) ∧
    (s.hubUp = true → t.counters.latchedTod = ⟨(s.timing.tod.sec + 1) % 2 ^ 48, 0⟩ ∧ ∀ u < 24,
      (t.countUnit u).snap = (s.countUnit u).counters ∧ (t.countUnit u).snapTod = ⟨(s.timing.tod.sec + 1) % 2 ^ 48, 0⟩ ∧
      (t.countUnit u).snapMode = (s.countUnit u).mode ∧ (t.countUnit u).snapEvents = (s.countUnit u).events ∧
      (t.countUnit u).pending = none ∧ (t.countUnit u).pendingClear = false ∧
      (∀ m es, (s.countUnit u).pending = some (m, es) → (t.countUnit u).mode = m ∧ (t.countUnit u).events = es))) ∧
  (∀ (x : Slew) (s : State), s.timing.slew = some x → ∃ t, exec .todSlewEnd s = .next t ∧ t.timing.slew = none ∧
    t.timing.tod = Tod.ofNs (((s.timing.tod.toNs : Int) + x.remain).toNat) ∧
    lastEvent t = some (0x0A03, 0, be 1 3 ++ be 1 0 ++ zeros 2 ++ beInt 8 x.total)) ∧
  (∀ (a : Nat × Nat) (s : State), s.timing.atPps = some a → ∃ t, exec .todMode2Expiry s = .next t ∧ t.timing.atPps = none ∧
    t.timing.tod = s.timing.tod ∧ lastEvent t = some (0x0A03, 0, be 1 2 ++ be 1 1 ++ zeros 2 ++ beInt 8 0)) ∧
  (∀ (high since : Nat) (late : Fin 8) (s : State), s.hubUp = true → s.timing.outputs.flags.testBit 2 = true →
    (high < 100 ∨ (s.timing.ppsAt.isSome = true ∧ (since < 999900000 ∨ 1000100000 < since)) →
      exec (.ppsInEdge high since late) s = .next (modTiming (fun t => { t with ppsRejects := t.ppsRejects + 1 }) s)) ∧
    (100 ≤ high → (s.timing.ppsAt = none ∨ (999900000 ≤ since ∧ since ≤ 1000100000)) →
      let stamp := Tod.ofNs (s.timing.tod.toNs + late)
      ∃ t, exec (.ppsInEdge high since late) s = .next t ∧ t.timing.ppsTs = stamp ∧ t.timing.ppsRejects = s.timing.ppsRejects ∧
        (s.timing.atPps = none → t.timing.tod = s.timing.tod ∧ (s.timing.outputs.flags.testBit 3 = true →
          lastEvent t = some (0x0A04, 0, stamp.bytes ++ zeros 2))) ∧
        (∀ sec due, s.timing.atPps = some (sec, due) → t.timing.atPps = none ∧ t.timing.tod = ⟨sec, 8⟩ ∧
          lastEvent t = some (0x0A03, 0, be 1 2 ++ be 1 0 ++ zeros 2 ++
            beInt 8 (((sec * billion : Nat) : Int) - (stamp.toNs : Int)))))) ∧
  (∀ s : State, s.hubUp = true →
    (∃ t, exec .ppsOutPulse s = .next t ∧ t.timing.pps.next = max s.localNs s.timing.pps.next + s.timing.pps.period ∧
      t.timing.tod = s.timing.tod ∧
      (s.timing.pps.on = true → t.pins.ppsOutAt = s.timing.tod ∧ t.timing.pps.last = some (max s.localNs s.timing.pps.next)) ∧
      (s.timing.pps.on = false → t.pins = s.pins ∧ t.timing.pps.last = s.timing.pps.last)) ∧
    (∃ t, exec .frameOutPulse s = .next t ∧ t.timing.frame.next = max s.localNs s.timing.frame.next + s.timing.frame.period ∧
      t.timing.tod = s.timing.tod ∧
      (s.timing.frame.on = true → t.pins.frameOutAt = s.timing.tod ∧ t.timing.frame.last = some (max s.localNs s.timing.frame.next)) ∧
      (s.timing.frame.on = false → t.pins = s.pins ∧ t.timing.frame.last = s.timing.frame.last)))

/-- TIMING.SET_REFS gives each input its mode and frequency, one that changes starting unqualified, and selects the unit and client of sources 4 and 5. SET_LOOP, SET_DCO, SET_OUTPUTS and REALIGN set just their fields. SET_TOD replaces a step or slew under way: MODE 0 and 1 set the ToD at once with EV_TIMING_TOD_STEP, MODE 2 waits for PPS_IN and is refused while it is not enabled, MODE 3 starts a slew. GET_STATUS answers 80 bytes that begin with the state and REF_SEL. -/
def Obligations.TimingCommandsComplete : Prop :=
  (∀ (q : Request) (s : State), taken 0x0A01 q s = true → q.u = 0 →
    (∀ n < 4, q.b n ≤ 2 ∧ refRange (q.b n) (q.w (4 + 4 * n)) = true) → q.b 20 ≤ 3 → q.b 21 ≤ 63 → q.h 22 = 0 →
    ∃ v, exec (.timingSetRefs q) s = .next (carriedOut 0x0A01 q .ok [] v) ∧ v.timing.lineCu = q.b 20 ∧ v.timing.hostClient = q.b 21 ∧
      ∀ n < 4, (v.source n).mode = q.b n ∧ (v.source n).freq = q.w (4 + 4 * n) ∧
        ((s.source n).mode = q.b n → (s.source n).freq = q.w (4 + 4 * n) → v.source n = s.source n) ∧
        ((s.source n).mode ≠ q.b n ∨ (s.source n).freq ≠ q.w (4 + 4 * n) → (v.source n).qualified = false ∧ (v.source n).recent = [])) ∧
  (∀ (q : Request) (s : State), taken 0x0A02 q s = true → q.u = 0 → q.b 0 ≤ 3 → q.b 1 = 0 → (100 ≤ q.h 2 ∧ q.h 2 ≤ 20000) →
    (10 ≤ q.h 4 ∧ q.h 4 ≤ 10000) → (1 ≤ q.h 6 ∧ q.h 6 ≤ 3600) → (1 ≤ q.h 8 ∧ q.h 8 ≤ 10000) → (10 ≤ q.h 10 ∧ q.h 10 ≤ 10000) →
    exec (.timingSetLoop q) s = .next (carriedOut 0x0A02 q .ok [] (modTiming (fun t => { t with
      bw := q.b 0, disqPpb := q.h 2, dwellMs := q.h 4, reqS := q.h 6, phaseSlew := q.h 8, freqRate := q.h 10 }) (admitted 0x0A02 q s)))) ∧
  (∀ (q : Request) (s : State), taken 0x0A03 q s = true → q.u = 0 → q.w 0 ≠ 0x80000000 →
    exec (.timingSetDco q) s = .next (carriedOut 0x0A03 q .ok []
      (modTiming (fun t => { t with steer := ifield q.payload 0 4 }) (admitted 0x0A03 q s)))) ∧
  (∀ (q : Request) (s : State), taken 0x0A04 q s = true → q.u = 0 → q.h 2 = 0 → q.h 14 = 0 →
    let off := ifield q.payload 16 8
    let after : Int := (s.timing.tod.toNs : Int) + off
    (q.b 0 = 0 → q.b 1 = 0 → off = 0 → (q.tod 4).ns < billion → (q.tod 4).ns % 8 = 0 →
      ∃ v, exec (.timingSetTod q) s = .next (carriedOut 0x0A04 q .ok [] v) ∧ v.timing.tod = q.tod 4 ∧ v.timing.slew = none ∧
        v.timing.atPps = none ∧ lastEvent v = some (0x0A03, 0, be 1 0 ++ be 1 0 ++ zeros 2 ++
          beInt 8 (((q.tod 4).toNs : Int) - (s.timing.tod.toNs : Int)))) ∧
    (q.b 0 = 1 → q.b 1 = 0 → isZero q.payload 4 10 = true → off % 8 = 0 → 0 ≤ after → after < ((2 ^ 48 * billion : Nat) : Int) →
      ∃ v, exec (.timingSetTod q) s = .next (carriedOut 0x0A04 q .ok [] v) ∧ v.timing.tod = Tod.ofNs after.toNat ∧ v.timing.slew = none ∧
        v.timing.atPps = none ∧ lastEvent v = some (0x0A03, 0, be 1 1 ++ be 1 0 ++ zeros 2 ++ beInt 8 off)) ∧
    (q.b 0 = 2 → q.b 1 = 0 → off = 0 → (q.tod 4).ns = 0 →
      (s.timing.outputs.flags.testBit 2 = false → exec (.timingSetTod q) s = .next (refused 0x0A04 q .state [] (admitted 0x0A04 q s))) ∧
      (s.timing.outputs.flags.testBit 2 = true → ∃ v, exec (.timingSetTod q) s = .next (carriedOut 0x0A04 q .ok [] v) ∧
        v.timing.atPps = some ((q.tod 4).sec, s.localNs + 2 * billion) ∧ v.timing.slew = none ∧ v.timing.tod = s.timing.tod)) ∧
    (q.b 0 = 3 → 1 ≤ q.b 1 → q.b 1 ≤ 100 → isZero q.payload 4 10 = true → off % 8 = 0 → off.natAbs ≤ billion →
      ∃ v, exec (.timingSetTod q) s = .next (carriedOut 0x0A04 q .ok [] v) ∧ v.timing.atPps = none ∧ v.timing.tod = s.timing.tod ∧
        v.timing.slew = some { remain := off, total := off, ppm := q.b 1 })) ∧
  (∀ (q : Request) (s : State), taken 0x0A05 q s = true → q.u = 0 → (q.w 0 = 0 ∨ (8000 ≤ q.w 0 ∧ q.w 0 ≤ 750000000)) →
    (q.w 4 = 0 ∨ (8000 ≤ q.w 4 ∧ q.w 4 ≤ 750000000)) → q.b 8 ≤ 31 → q.b 9 ≤ 15 → (1 ≤ q.h 10 ∧ q.h 10 ≤ 50000) →
    ifield q.payload 12 4 % 8 = 0 → (ifield q.payload 12 4).natAbs ≤ 500000000 → (125000 ≤ q.w 16 ∧ q.w 16 ≤ billion) → q.w 16 % 8 = 0 →
    billion % q.w 16 = 0 → q.w 20 % 8 = 0 → 8 ≤ q.w 20 → 2 * q.w 20 ≤ q.w 16 →
    ∃ v, exec (.timingSetOutputs q) s = .next (carriedOut 0x0A05 q .ok [] v) ∧ v.timing.outputs = {
      clk0 := q.w 0, clk1 := q.w 4, squelch := q.b 8, flags := q.b 9, ppsWidth := q.h 10, ppsOffset := ifield q.payload 12 4, framePeriod := q.w 16, frameWidth := q.w 20 } ∧ v.timing.tod = s.timing.tod ∧ v.timing.pps = s.timing.pps ∧ v.timing.frame = s.timing.frame) ∧
  (∀ (q : Request) (s : State), taken 0x0A06 q s = true → q.u = 0 → 1 ≤ q.b 0 → q.b 0 ≤ 3 → isZero q.payload 1 3 = true →
    exec (.timingRealign q) s = .next (carriedOut 0x0A06 q .ok []
      (modTiming (fun t => { t with realign := t.realign ||| q.b 0 }) (admitted 0x0A06 q s)))) ∧
  (∀ (q : Request) (s : State), taken 0x0A07 q s = true → q.u = 0 →
    ∃ pl, exec (.timingGetStatus q) s = .next (got 0x0A07 q pl (admitted 0x0A07 q s)) ∧ pl.length = 80 ∧
      pl.take 2 = be 1 s.timing.state ++ be 1 s.timing.refSel)

/-- A reference that settles marks the values still being averaged. A REF that waits takes effect when its converter has no conversion and no pass part-way through, and the reference then settles anew; until then nothing happens. PAIR changes with both sequencers off. A trigger on an idle sequencer of an awake monitor starts a pass, one on a latched sequencer is missed, and any other is latched; a latched one starts when the converter is free. A pass that ends counts, and its waiting table takes effect or a continuous sequencer begins again. -/
def Obligations.ConvertersSettleAndApply : Prop :=
  (∀ (c : Fin 2) (s : State), s.hubUp = true →
    ((s.converter c).settled = true → exec (.monRefSettled c) s = .next s) ∧
    ((s.converter c).settled = false → ∃ t, exec (.monRefSettled c) s = .next t ∧ (t.converter c).settled = true ∧
      OnlyChanges [.monitor] s t ∧ t.monitor.slots = s.monitor.slots ∧
      (∀ i, s.injection c = some i → t.injection c = some { i with carry := { i.carry with unsettled := true } }) ∧
      ((s.sequencer (if s.monitor.pair then 0 else c)).running = true →
        (t.sequencer (if s.monitor.pair then 0 else c)).carry.unsettled = true))) ∧
  (∀ (c : Fin 2) (s : State), s.hubUp = true → s.monitor.wantPair = none →
    (s.convIdle (if s.monitor.pair then [0, 1] else [c.val]) = false → exec (.monConverterApply c) s = .next s) ∧
    (∀ r, (s.converter c).want = some r → s.convIdle (if s.monitor.pair then [0, 1] else [c.val]) = true →
      ∃ t, exec (.monConverterApply c) s = .next t ∧ (t.converter c).ref = r ∧ (t.converter c).want = none ∧ OnlyChanges [.monitor] s t ∧
        (s.monitor.pair = false → r ≠ (s.converter c).ref → (t.converter c).settled = false) ∧
        (s.monitor.pair = true → c = 0 → r ≠ (s.converter 0).ref → (t.converter 0).settled = false ∧ (t.converter 1).settled = false))) ∧
  (∀ (p : Bool) (s : State), s.hubUp = true → s.monitor.wantPair = some p → (s.sequencer 0).table.start = 0 → (s.sequencer 1).table.start = 0 →
    s.convIdle [0, 1] = true → ∃ t, exec (.monConverterApply 0) s = .next t ∧ t.monitor.pair = p ∧ t.monitor.wantPair = none) ∧
  (∀ (q : Fin 2) (s : State), s.blocksRun = true → (s.sequencer q).table.start = 2 → (s.sequencer q).table.trigSrc = 1 →
    (s.sequencer q).periodInForce ≠ 0 → ∃ t, exec (.monTriggerTimer q) s = .next t ∧
      (s.canStart q = true → (s.sequencer q).latched = false → (t.sequencer q).running = true ∧ (t.sequencer q).entry = 0) ∧
      ((s.sequencer q).latched = true → (t.sequencer q).missed = (s.sequencer q).missed + 1 ∧ (t.sequencer q).latched = true) ∧
      (s.canStart q = false → (s.sequencer q).latched = false → (t.sequencer q).latched = true ∧
        (t.sequencer q).missed = (s.sequencer q).missed)) ∧
  (∀ (q : Fin 2) (s : State), s.blocksRun = true → (s.sequencer q).latched = true → s.canStart q = true →
    ∃ t, exec (.monLatchedTriggerStart q) s = .next t ∧ (t.sequencer q).latched = false ∧ (t.sequencer q).running = true ∧
      (t.sequencer q).entry = 0 ∧ OnlyChanges [.monitor] s t) ∧
  (∀ (q : Fin 2) (s : State), s.blocksRun = true → (s.sequencer q).running = true →
    (s.sequencer q).entry = (s.sequencer q).table.entries.length → ∃ t, exec (.monPassEnd q) s = .next t ∧
      (t.sequencer q).passes = (s.sequencer q).passes + 1 ∧ (t.sequencer q).entry = 0 ∧
      ((s.sequencer q).waiting = none → ((t.sequencer q).running = true ↔ (s.sequencer q).table.start = 1)) ∧
      (∀ x, (s.sequencer q).waiting = some x → (t.sequencer q).table = x ∧ (t.sequencer q).waiting = none ∧
        ((t.sequencer q).running = true ↔ x.start = 1)))

/-- The conversions an entry asks for end in one value, no larger than the full code allows; the slot named adds it and counts it, unless its COUNT is at its end and it saturates, the tracker named spans it and an enabled channel takes it in. An injected request's value does the same with the management processor running: its slot of pending requests is free and its journal entry is done. An output of a channel is withheld until the channel has settled; the first released says so with EV_MON_DECIM_SETTLED, the last event unless its slot saturates with it, and a boxcar's is its sum of 2^R inputs times 64 over 2^R. -/
def Obligations.ValuesReachTheirDestinations : Prop :=
  (∀ (q : Fin 2) (vref : Nat) (v : List Int) (e : SeqEntry) (s : State), s.blocksRun = true → (s.sequencer q).running = true →
    (s.dom 8 0).state = 0 → (s.sequencer q).table.entries[(s.sequencer q).entry]? = some e → v.length = 2 ^ e.what.avgLog2 →
    let value := averageOf e.what (e.what.codes (s.monVref q vref) v)
    ∃ t, exec (.monValueComplete q vref v) s = .next t ∧ (t.sequencer q).entry = (s.sequencer q).entry + 1 ∧
      value ≤ 16383 * 2 ^ e.what.avgLog2 / 2 ^ e.what.shift ∧
      (∀ i, e.slot = some i → (s.monSlot i).now.count ≠ 0xFFFFFFFF →
        (t.monSlot i).now.sum = (s.monSlot i).now.sum + value ∧ (t.monSlot i).now.count = (s.monSlot i).now.count + 1) ∧
      (∀ i, e.slot = some i → (s.monSlot i).now.count = 0xFFFFFFFF → (t.monSlot i).now.saturated = true ∧
        (t.monSlot i).now.sum = (s.monSlot i).now.sum ∧ (t.monSlot i).now.count = 0xFFFFFFFF) ∧
      (∀ i, e.tracker = some i → (t.tracker i).now.min = min (s.tracker i).now.min value ∧
        (t.tracker i).now.max = max (s.tracker i).now.max value) ∧
      (∀ c, e.decim = some c → (s.decim c).config.enabled = true → (t.decim c).entered = (s.decim c).entered + 1) ∧
      (∀ i, e.slot ≠ some i → t.monSlot i = s.monSlot i) ∧ (∀ i, e.tracker ≠ some i → t.tracker i = s.tracker i)) ∧
  (∀ (c : Fin 2) (vref : Nat) (v : List Int) (i : Injection) (s : State), s.blocksRun = true → (s.dom 8 0).state = 0 →
    s.injection c = some i → v.length = 2 ^ i.what.avgLog2 → s.control.mp = .running →
    ∃ t, exec (.monInjectComplete c vref v) s = .next t ∧ t.injection c = none ∧
      (∀ n, i.slot = some n → (s.monSlot n).now.count ≠ 0xFFFFFFFF → (t.monSlot n).now.sum = (s.monSlot n).now.sum +
        averageOf i.what (i.what.codes (s.monVref c vref) v) ∧ (t.monSlot n).now.count = (s.monSlot n).now.count + 1) ∧
      (∀ x, s.control.journal.find? (fun x => x.id == i.entry) = some x → x.state = .applying →
        ∀ y ∈ t.control.journal, y.id = i.entry → y.state = .done)) ∧
  (∀ (c : Fin 8) (x : DecimDue) (rest : List DecimDue) (s : State), s.blocksRun = true → (s.decim c).due = x :: rest →
    ∃ t, exec (.decimOutput c) s = .next t ∧ (t.decim c).due = rest ∧ (t.decim c).config = (s.decim c).config ∧
      (x.entered < (s.decim c).config.window → t.monitor.slots = s.monitor.slots ∧ t.monitor.trackers = s.monitor.trackers ∧
        (t.decim c).settled = (s.decim c).settled) ∧
      ((s.decim c).config.snap = true → (s.decim c).config.window ≤ x.entered → (t.decim c).settled = true ∧
        (∀ i, (s.decim c).config.slot = some i → (s.monSlot i).now.count ≠ 0xFFFFFFFF →
          (t.monSlot i).now.sum = (s.monSlot i).now.sum + x.value * 64 / 2 ^ (s.decim c).config.rLog2 ∧
          ((s.decim c).settled = false → (s.monSlot i).now.count + 1 ≠ 0xFFFFFFFF → lastEvent t = some (0x0C02, 0, be 1 c ++ be 1 1 ++ zeros 2))))) ∧
  (∀ (c : Fin 8) (x : DecimDue) (rest : List DecimDue) (s : State), s.blocksRun = true → (s.decim c).due = x :: rest →
    ((s.decim c).settled = false → (s.decim c).config.window ≤ x.entered → exec (.decimSettled c) s = exec (.decimOutput c) s) ∧
    ((s.decim c).settled = true ∨ x.entered < (s.decim c).config.window → exec (.decimSettled c) s = .next s))

/-- The commands that set the ADC are answered ST_BUSY while its domain must wake from P3 or P4, and else go on with it awake (R63). MONITOR.SET_CONVERTER lets REF and PAIR wait. SET_SEQUENCE and SET_DECIM are refused with ST_MON_ROUTE where another producer feeds a destination; else a running sequencer lets its table wait and an idle one takes it, and a changed channel starts from cleared registers. SET_ACCUM sets each mode, clearing what changes. TRIGGER on a sequencer in another mode is refused; on one it says whether the pass started, the trigger waits or was missed. INJECT waits for its conversions. The reads answer 16 bytes a slot and 12 a tracker after a ToD, and CLEAR empties those not in per-second mode; GET_STATUS answers 40. -/
def Obligations.MonitorCommandsComplete : Prop :=
  (∀ (q : Request) (s : State), taken 0x0C01 q s = true → q.u = 0 → q.b 0 ≤ 1 → q.b 1 ≤ 2 → q.b 2 ≤ (if q.b 0 = 1 then 0 else 1) → q.b 3 = 0 →
    let pair := q.b 2 == 1
    (q.b 0 = 1 ∨ pair = s.monitor.wantPair.getD s.monitor.pair ∨ ∀ k < 2, (s.sequencer k).table.start = 0 ∧ (s.sequencer k).waiting = none) →
    (s.serves 8 0 = false → exec (.monitorSetConverter q) s = .next (refused 0x0C01 q .busy [] (needDomain 8 0 (admitted 0x0C01 q s)).2)) ∧
    (s.serves 8 0 = true → ∃ v, exec (.monitorSetConverter q) s = .next (carriedOut 0x0C01 q .ok [] v) ∧
      (v.converter (q.b 0)).want = (if q.b 1 = (s.converter (q.b 0)).ref then none else some (q.b 1)) ∧
      (v.converter (q.b 0)).ref = (s.converter (q.b 0)).ref ∧
      v.monitor.wantPair = (if q.b 0 = 1 then s.monitor.wantPair else if pair = s.monitor.pair then none else some pair))) ∧
  (∀ (q : Request) (s : State), taken 0x0C02 q s = true → q.u = 0 → q.b 0 ≤ (if s.monitor.pair then 0 else 1) → q.b 1 ≤ 2 →
    q.b 2 ≤ (if q.b 1 = 2 then 3 else 0) → (1 ≤ q.b 3 ∧ q.b 3 ≤ if s.monitor.pair then 1 else 16) → q.payload.length = 8 + 8 * q.b 3 →
    (q.b 2 = 1 → 10 ≤ q.w 4 ∧ q.w 4 ≤ 1000000 ∧ 1000000 % q.w 4 = 0) → (q.b 2 ≠ 1 → q.w 4 = 0) →
    (∀ e < q.b 3, (entryChecks q e).all (fun x => x.1) = true) →
    let x : SeqTable := ⟨q.b 1, q.b 2, q.w 4, (List.range (q.b 3)).map (entryOf q)⟩
    let conflict := secondProducer x.feeds (s.seqFeeds (1 - q.b 0) ++ s.decimFeeds none ++ s.injectFeeds)
    (∀ d, conflict = some d →
      exec (.monitorSetSequence q) s = .next (refused 0x0C02 q .monRoute (be 1 d.1 ++ be 1 d.2 ++ zeros 2) (admitted 0x0C02 q s))) ∧
    (conflict = none → s.serves 8 0 = false →
      exec (.monitorSetSequence q) s = .next (refused 0x0C02 q .busy [] (needDomain 8 0 (admitted 0x0C02 q s)).2)) ∧
    (conflict = none → s.serves 8 0 = true → (s.sequencer (q.b 0)).running = true → exec (.monitorSetSequence q) s = .next (carriedOut 0x0C02 q .ok []
      (modSequencer (q.b 0) (fun y => { y with waiting := some x }) (needDomain 8 0 (admitted 0x0C02 q s)).2))) ∧
    (conflict = none → s.serves 8 0 = true → (s.sequencer (q.b 0)).running = false → ∃ v, exec (.monitorSetSequence q) s = .next (carriedOut 0x0C02 q .ok [] v) ∧
      (v.sequencer (q.b 0)).table = x ∧ (v.sequencer (q.b 0)).waiting = none ∧
      ((v.sequencer (q.b 0)).running = true ↔ q.b 1 = 1))) ∧
  (∀ (q : Request) (s : State), taken 0x0C03 q s = true → q.u = 0 → q.b 0 ≤ 7 → q.b 1 ≤ 1 → (2 ≤ q.b 5 ∧ q.b 5 ≤ 10) → q.b 7 = 0 → q.h 14 = 0 →
    ((q.b 2 = 1 ∧ q.b 3 = 0 ∧ q.b 4 = 0 ∧ q.b 6 = 0) ∨
     (q.b 2 = 0 ∧ 3 ≤ q.b 3 ∧ q.b 3 ≤ 5 ∧ 1 ≤ q.b 4 ∧ q.b 4 ≤ 2 ∧ q.b 6 ≤ 1)) →
    (q.b 6 = 1 → 16777216 ≤ q.w 8 ∧ q.w 8 ≤ 33554432) → (q.b 6 = 0 → q.w 8 = 0) →
    (q.b 12 < 64 ∨ q.b 12 = 0xFF) → (q.b 13 < 32 ∨ q.b 13 = 0xFF) →
    let k : DecimConfig := ⟨q.b 1 == 1, q.b 2 == 1, q.b 3, q.b 4, q.b 5, q.b 6 == 1, q.w 8, orNone (q.b 12), orNone (q.b 13)⟩
    let conflict := secondProducer k.feeds ([0, 1].flatMap s.seqFeeds ++ s.decimFeeds (some (q.b 0)) ++ s.injectFeeds)
    (∀ d, conflict = some d →
      exec (.monitorSetDecim q) s = .next (refused 0x0C03 q .monRoute (be 1 d.1 ++ be 1 d.2 ++ zeros 2) (admitted 0x0C03 q s))) ∧
    (conflict = none → s.serves 8 0 = false →
      exec (.monitorSetDecim q) s = .next (refused 0x0C03 q .busy [] (needDomain 8 0 (admitted 0x0C03 q s)).2)) ∧
    (conflict = none → s.serves 8 0 = true → ∃ v, exec (.monitorSetDecim q) s = .next (carriedOut 0x0C03 q .ok [] v) ∧
      v.decim (q.b 0) = (if (s.decim (q.b 0)).config = k then s.decim (q.b 0) else clearedDecim k))) ∧
  (∀ (q : Request) (s : State), taken 0x0C04 q s = true → q.u = 0 → isZero q.payload 12 4 = true →
    ∃ v, exec (.monitorSetAccum q) s = .next (carriedOut 0x0C04 q .ok [] v) ∧
      (∀ i < 64, (v.monSlot i).perSecond = (q.d 0).testBit i ∧ ((s.monSlot i).perSecond = (q.d 0).testBit i → v.monSlot i = s.monSlot i) ∧
        ((s.monSlot i).perSecond ≠ (q.d 0).testBit i → (v.monSlot i).now = {} ∧ (v.monSlot i).last = {})) ∧
      (∀ i < 32, (v.tracker i).perSecond = (q.w 8).testBit i ∧ ((s.tracker i).perSecond = (q.w 8).testBit i → v.tracker i = s.tracker i))) ∧
  (∀ (q : Request) (s : State), taken 0x0C05 q s = true → q.u = 0 → isZero q.payload 1 3 = true →
    (∀ k < 2, 1 ≤ q.b 0 → q.b 0 ≤ 3 → (q.b 0).testBit k = true → ((s.sequencer k).table.start ≠ 2 ∨ (s.sequencer k).table.trigSrc ≠ 0) →
      exec (.monitorTrigger q) s = .next (refused 0x0C05 q .state [] (admitted 0x0C05 q s))) ∧
    (∀ k < 2, q.b 0 = 2 ^ k → (s.sequencer k).table.start = 2 → (s.sequencer k).table.trigSrc = 0 →
      let r := if (s.sequencer k).latched = true then 2 else if s.canStart k = true then 0 else 1
      ∃ v, exec (.monitorTrigger q) s = .next (carriedOut 0x0C05 q .ok ((if k = 0 then be 1 r ++ be 1 3 else be 1 3 ++ be 1 r) ++ zeros 2) v) ∧
        (r = 0 → (v.sequencer k).running = true) ∧ (r = 1 → (v.sequencer k).latched = true) ∧
        (r = 2 → (v.sequencer k).missed = (s.sequencer k).missed + 1))) ∧
  (∀ (q : Request) (s : State), taken 0x0C06 q s = true → q.u = 0 → q.b 0 ≤ 1 → monInput (q.b 1) = true → (1 ≤ q.b 2 ∧ q.b 2 ≤ 8) → q.b 3 ≤ q.b 2 →
    (q.b 4 < 64 ∨ q.b 4 = 0xFF) → (q.b 5 < 32 ∨ q.b 5 = 0xFF) → q.h 6 = 0 →
    (s.monitor.pair = true → exec (.monitorInject q) s = .next (refused 0x0C06 q .state [] (admitted 0x0C06 q s))) ∧
    (s.monitor.pair = false → (s.injection (q.b 0)).isSome = true →
      exec (.monitorInject q) s = .next (refused 0x0C06 q .busy [] (admitted 0x0C06 q s))) ∧
    (s.monitor.pair = false → s.injection (q.b 0) = none →
      secondProducer (destinations (orNone (q.b 4)) (orNone (q.b 5)) none) ([0, 1].flatMap s.seqFeeds ++ s.decimFeeds none) = none →
      (s.serves 8 0 = false → exec (.monitorInject q) s = .next (refused 0x0C06 q .busy [] (needDomain 8 0 (admitted 0x0C06 q s)).2)) ∧
      (s.serves 8 0 = true →
        let r := (needDomain 8 0 (admitted 0x0C06 q s)).2
        exec (.monitorInject q) s = .next (begun 0x0C06 q (.inject (q.b 0)) (setInjection (q.b 0) (some {
          what := ⟨q.b 1, q.b 2, q.b 3⟩, slot := orNone (q.b 4), tracker := orNone (q.b 5), entry := r.control.nextEntry }) r))))) ∧
  (∀ (q : Request) (s : State), taken 0x0C07 q s = true → q.u = 0 → q.b 0 < 64 → q.b 0 + q.b 1 ≤ 64 → q.b 2 ≤ 1 → q.b 3 = 0 →
    ∃ pl v, exec (.monitorReadSlots q) s = .next (carriedOut 0x0C07 q .ok pl v) ∧ pl.length = 12 + 16 * q.b 1 ∧
      (∀ i < q.b 1, (pl.drop (12 + 16 * i)).take 16 = slotBytes (s.monSlot (q.b 0 + i))) ∧
      (∀ i, v.monSlot i = (if q.b 2 = 1 ∧ q.b 0 ≤ i ∧ i < q.b 0 + q.b 1 ∧ (s.monSlot i).perSecond = false
        then { s.monSlot i with now := {} } else s.monSlot i))) ∧
  (∀ (q : Request) (s : State), taken 0x0C08 q s = true → q.u = 0 → q.b 0 < 32 → q.b 0 + q.b 1 ≤ 32 → q.b 2 ≤ 1 → q.b 3 = 0 →
    ∃ pl v, exec (.monitorReadTrackers q) s = .next (carriedOut 0x0C08 q .ok pl v) ∧ pl.length = 12 + 12 * q.b 1 ∧
      (∀ i < q.b 1, (pl.drop (12 + 12 * i)).take 12 = trackerBytes (s.tracker (q.b 0 + i))) ∧
      (∀ i, v.tracker i = (if q.b 2 = 1 ∧ q.b 0 ≤ i ∧ i < q.b 0 + q.b 1 ∧ (s.tracker i).perSecond = false
        then { s.tracker i with now := {} } else s.tracker i))) ∧
  (∀ (q : Request) (s : State), taken 0x0C09 q s = true → q.u = 0 →
    ∃ pl, exec (.monitorGetStatus q) s = .next (got 0x0C09 q pl (admitted 0x0C09 q s)) ∧ pl.length = 40)

/-- With the hub out of reset and no EXTEST holding its traffic (R45), a waiting reply, event or record message leaves a trained port when credit and the replay buffer allow it: it takes the next MSG_SEQ, a copy is kept until ACK, a reply frees its journal entry, records leave their unit's buffer and the unit is served. Without room nothing leaves. A data message with a bad CRC, or out of order, only counts; one in order is accepted, and a request joins Salurn's intake, unless it repeats one that waits or executes (R124). Link control updates the credit, and short grants hold the port in STATE 4. The replay timeout and a retrain send again what is outstanding and keep the credit; a port in electrical idle wakes; a port that trains comes up with EV_STREAM_LINK cause 1. -/
def Obligations.StreamPortCarriesMessages : Prop :=
  (∀ (m : Message) (rest : List Message) (s : State), s.streamRuns = true → s.stream.state = 2 → tblGet [] s.stream.credit.queues 1 = m :: rest →
    (s.streamRoom m = false → exec (.streamDataTx 1) s = .next s) ∧
    (s.streamRoom m = true → ∃ t, exec (.streamDataTx 1) s = .next t ∧ tblGet [] t.stream.credit.queues 1 = rest ∧
      t.stream.credit.txSeq = s.stream.credit.txSeq + 1 ∧
      t.stream.credit.replay = s.stream.credit.replay ++ [{ m with seq := s.stream.credit.txSeq + 1 }] ∧
      (∀ p e, m.body = .packet p (some e) → ∀ x ∈ t.control.journal, x.id ≠ e))) ∧
  (∀ (e : EventRec) (rest : List EventRec) (s : State), s.streamRuns = true → s.stream.state = 2 → s.control.routeStream.queue = e :: rest →
    s.control.routeStream.lost = 0 → s.streamRoom { vc := 2, body := .packet (eventPacket s e) none } = true →
    ∃ t, exec (.streamDataTx 2) s = .next t ∧ t.control.routeStream.queue = rest ∧ t.stream.credit.txSeq = s.stream.credit.txSeq + 1) ∧
  (∀ (u : Nat) (s : State), s.streamRuns = true → s.stream.state = 2 → s.nextDrain = some u →
    s.streamRoom { vc := 3, body := .records u (headRecords (s.countUnit u)).1 (headRecords (s.countUnit u)).2 } = true →
    ∃ t, exec (.streamDataTx 3) s = .next t ∧ t.stream.lastUnit = u ∧ t.stream.credit.txSeq = s.stream.credit.txSeq + 1 ∧
      (t.countUnit u).records = (s.countUnit u).records.drop (headRecords (s.countUnit u)).2.length) ∧
  (∀ (m : Message) (s : State), s.streamRuns = true → s.stream.enabled = true → s.stream.state = 2 →
    exec (.streamMessageRx false (.inl m)) s = .next (bump pmDevice 0 2 1 s) ∧
    ((bodyBytes m.body).length ≤ 16412 → m.seq ≠ s.stream.credit.rxSeq + 1 →
      exec (.streamMessageRx true (.inl m)) s = .next (bump pmDevice 0 4 1 s)) ∧
    ((bodyBytes m.body).length ≤ 16412 → m.seq = s.stream.credit.rxSeq + 1 → ∃ t, exec (.streamMessageRx true (.inl m)) s = .next t ∧
      t.stream.credit.rxSeq = m.seq ∧
      (∀ p e, m.vc = 0 → m.body = .packet p e →
        let r : RxItem := { port := .stream, bytes := packetBytes p, count := packetSize p }
        let twice := r.sound && s.repeats (opOf (parsePacket r.bytes).opcode.toNat) r.request
        (twice = false → t.control.rx = s.control.rx ++ [r]) ∧
        (twice = true → t.control.rx = s.control.rx ∧
          tblGet 0 t.stream.credit.freed 0 = tblGet 0 s.stream.credit.freed 0 + BitVec.ofNat 32 (messageCells m))) ∧
      (m.vc ≠ 0 → t.control.rx = s.control.rx ∧
        tblGet 0 t.stream.credit.freed m.vc = tblGet 0 s.stream.credit.freed m.vc + BitVec.ofNat 32 (messageCells m)))) ∧
  (∀ (k : LinkControl) (s : State), s.streamRuns = true → s.stream.enabled = true → s.stream.state = 2 →
    (grantsMeet k.grants = true → ∃ t, exec (.streamMessageRx true (.inr k)) s = .next t ∧ OnlyChanges [.stream] s t ∧ t.stream.state = 2 ∧
      t.stream.credit.ackIn = k.ack ∧ t.stream.credit.replay = s.stream.credit.replay.filter (fun m => seqLater m.seq k.ack) ∧
      ∀ v < 4, tblGet 0 t.stream.credit.peerFreed v = k.freed.getD v 0 ∧ tblGet 0 t.stream.credit.peerGrant v = k.grants.getD v 0) ∧
    (grantsMeet k.grants = false → ∃ t, exec (.streamMessageRx true (.inr k)) s = .next t ∧ t.stream.state = 4 ∧
      lastEvent t = some (0x0D02, 0, be 1 4 ++ be 1 s.stream.lanes ++ be 1 4 ++ zeros 1))) ∧
  (∀ s : State, s.streamRuns = true → s.stream.state = 2 ∨ s.stream.state = 4 → ∃ t, exec .streamLinkControlTx s = .next t ∧
    OnlyChanges [.counters, .stream] s t ∧ t.stream.credit = s.stream.credit ∧ t.stream.sentControl = some {
      freed := (List.range 4).map (fun v => tblGet 0 s.stream.credit.freed v), ack := s.stream.credit.rxSeq, grants := [128, 0, 0, 0] }) ∧
  (∀ s : State, s.streamRuns = true → s.stream.state = 2 → ∃ t, exec .streamReplayTimeout s = .next t ∧ OnlyChanges [.counters, .stream] s t ∧
    t.stream.credit = s.stream.credit ∧
    t.stream.dealt = s.stream.dealt + (s.stream.credit.replay.map (fun m => (messageBytes false m).length)).sum) ∧
  (∀ s : State, s.streamRuns = true → s.stream.enabled = true → ∃ t, exec .streamRetrain s = .next t ∧ t.stream.credit = s.stream.credit ∧
    (s.stream.state = 3 → t.stream.state = 2 ∧ ((t.dom 6 0).state = 0 ∨ (t.dom 6 0).exiting = true)) ∧
    (s.stream.state = 2 ∨ s.stream.state = 4 → t.stream.state = 2 ∧
      lastEvent t = some (0x0D02, 0, be 1 2 ++ be 1 s.stream.lanes ++ be 1 2 ++ zeros 1)) ∧
    (s.stream.state < 2 → t = s)) ∧
  (∀ s : State, s.hubUp = true → s.stream.enabled = true → s.stream.state = 1 → ∃ t,
    exec (.scribeWordAlignmentGained .stream) s = .next t ∧ t.stream.state = 2 ∧
      lastEvent t = some (0x0D02, 0, be 1 2 ++ be 1 s.stream.lanes ++ be 1 1 ++ zeros 1))

/-- COUNTERS.SET_UNIT lets MODE and the events wait for the boundary; READ answers 84 bytes in MODE 1 and 404 in MODE 2, under the ToD of the last boundary; CLEAR waits for the boundary. SET_TRACE and SET_TAGS take effect at once, tags only in a coherent line mode. SET_STREAM enables the port, which then trains, or disables it, which drops all but the replies not yet sent; the lanes of a trained port do not change; it is answered ST_BUSY while an enabled port's domain must wake from P3 or P4 (R63). GET_STREAM answers 88 bytes. -/
def Obligations.CounterCommandsComplete : Prop :=
  (∀ (q : Request) (s : State), taken 0x0D01 q s = true → q.u < 24 → 1 ≤ q.b 0 → q.b 0 ≤ 2 → isZero q.payload 1 3 = true →
    (∀ j < 8, q.b (5 + 4 * j) = 0 ∧ (q.b 0 = 2 → q.b (4 + 4 * j) = 0 ∧ q.h (6 + 4 * j) = 0) ∧
      (q.b 0 = 1 → (q.b (4 + 4 * j) ≤ 63 ∨ q.b (4 + 4 * j) = 0xFF) ∧
        (q.b (4 + 4 * j) = 0xFF ∨ q.h (6 + 4 * j) = 0xFFFF ∨ q.h (6 + 4 * j) < filterLimit q.u (q.b (4 + 4 * j))))) →
    let es := if q.b 0 = 2 then [] else (List.range 8).map (fun j => (q.b (4 + 4 * j), q.h (6 + 4 * j)))
    ∃ v, exec (.countersSetUnit q) s = .next (carriedOut 0x0D01 q .ok [] v) ∧
      (v.countUnit q.u).pending = some (q.b 0, es) ∧ (v.countUnit q.u).mode = (s.countUnit q.u).mode ∧
      (v.countUnit q.u).events = (s.countUnit q.u).events ∧ (v.countUnit q.u).counters = (s.countUnit q.u).counters ∧
      (∀ u, u ≠ q.u → v.countUnit u = s.countUnit u)) ∧
  (∀ (q : Request) (s : State), taken 0x0D02 q s = true → q.u < 24 →
    ∃ pl, exec (.countersRead q) s = .next (carriedOut 0x0D02 q .ok pl (admitted 0x0D02 q s)) ∧
      pl.take 12 = (s.countUnit q.u).snapTod.bytes ++ be 1 (s.countUnit q.u).snapMode ++ zeros 1 ∧
      pl.length = (if (s.countUnit q.u).snapMode = 1 then 84 else 404)) ∧
  (∀ (q : Request) (s : State), taken 0x0D03 q s = true → q.u = 0 → q.w 0 < 2 ^ 24 →
    ∃ v, exec (.countersClear q) s = .next (carriedOut 0x0D03 q .ok [] v) ∧ ∀ u < 24,
      v.countUnit u = { s.countUnit u with pendingClear := (s.countUnit u).pendingClear || (q.w 0).testBit u }) ∧
  (∀ (q : Request) (s : State), taken 0x0D04 q s = true → 4 ≤ q.u → q.u ≤ 22 → q.b 0 ≤ 1 → q.b 1 ≤ 24 → q.b 2 ≤ 1 →
    (q.u ≤ 7 → q.b 3 ≤ 1) → (7 < q.u → q.b 3 = 0) → (q.w 4 = 0xFFFFFFFF ∨ q.w 4 < traceLimit q.u) →
    exec (.countersSetTrace q) s = .next (carriedOut 0x0D04 q .ok [] (modCountUnit q.u (fun c => { c with
      traceOn := q.b 0 == 1, traceK := q.b 1, tracePick := q.b 2, traceDir := q.b 3, traceFilter := q.w 4, traceCount := 0 })
      (admitted 0x0D04 q s)))) ∧
  (∀ (q : Request) (s : State), taken 0x0D05 q s = true → q.u < 4 → q.b 0 ≤ 1 → 8 ≤ q.b 1 → q.b 1 ≤ 24 → q.h 2 = 0 →
    (∀ f, (s.cu q.u).fmtRx = some f → f.lineMode = 1 ∨ f.lineMode = 2 →
      exec (.countersSetTags q) s = .next (refused 0x0D05 q .state [] (admitted 0x0D05 q s))) ∧
    ((∀ f, (s.cu q.u).fmtRx = some f → f.lineMode ≠ 1 ∧ f.lineMode ≠ 2) → exec (.countersSetTags q) s = .next (carriedOut 0x0D05 q .ok []
      (modCountUnit q.u (fun c => { c with tagOn := q.b 0 == 1, tagK := q.b 1 }) (admitted 0x0D05 q s))))) ∧
  (∀ (q : Request) (s : State), taken 0x0D06 q s = true → q.u = 0 → q.b 0 ≤ 1 → (q.b 1 = 1 ∨ q.b 1 = 2 ∨ q.b 1 = 4) → q.h 2 = 0 → q.w 4 < 2 ^ 23 →
    (q.b 0 = 1 → s.stream.enabled = true → 2 ≤ s.stream.state → q.b 1 ≠ s.stream.lanes →
      exec (.countersSetStream q) s = .next (refused 0x0D06 q .state [] (admitted 0x0D06 q s))) ∧
    (q.b 0 = 1 → s.stream.enabled = false → ∃ v, exec (.countersSetStream q) s = .next (carriedOut 0x0D06 q .ok [] v) ∧
      v.stream = { s.stream with enabled := true, state := 1, lanes := q.b 1, drainMask := q.w 4 } ∧
      ((v.dom 6 0).state = 0 ∨ (v.dom 6 0).exiting = true) ∧
      lastEvent v = some (0x0D02, 0, be 1 1 ++ be 1 (q.b 1) ++ be 1 0 ++ zeros 1)) ∧
    (s.serves 6 0 = false → (q.b 0 = 1 → 2 ≤ s.stream.state → q.b 1 = s.stream.lanes) →
      exec (.countersSetStream q) s = .next (refused 0x0D06 q .busy [] (needDomain 6 0 (admitted 0x0D06 q s)).2)) ∧
    (q.b 0 = 0 → s.stream.enabled = true → s.serves 6 0 = true → ∃ v, exec (.countersSetStream q) s = .next (carriedOut 0x0D06 q .ok [] v) ∧
      v.stream.enabled = false ∧ v.stream.state = 0 ∧ v.stream.credit = { queues := s.stream.credit.queues } ∧ (v.dom 6 0).state = 4 ∧
      lastEvent v = some (0x0D02, 0, be 1 0 ++ be 1 (q.b 1) ++ be 1 0 ++ zeros 1)) ∧
    ((q.b 0 = 0 ↔ s.stream.enabled = false) → (q.b 0 = 1 → 2 ≤ s.stream.state → q.b 1 = s.stream.lanes) → s.serves 6 0 = true →
      exec (.countersSetStream q) s = .next (carriedOut 0x0D06 q .ok []
        (modStream (fun t => { t with lanes := q.b 1, drainMask := q.w 4 }) (needDomain 6 0 (admitted 0x0D06 q s)).2)))) ∧
  (∀ (q : Request) (s : State), taken 0x0D07 q s = true → q.u = 0 →
    ∃ pl, exec (.countersGetStream q) s = .next (got 0x0D07 q pl (admitted 0x0D07 q s)) ∧ pl.length = 88 ∧
      pl.take 2 = be 1 s.stream.state ++ be 1 s.stream.lanes)

/-- Alignment gained makes a training port send its HELLO and ends a retrain; alignment lost starts one and says so to the peer, and what times out goes DOWN, its messages rerouted onto the other port of its level or discarded. A DOWN port trains again; one in electrical idle wakes with its credit, its lanes beginning their blocks anew. A HELLO of no common revision, or of a role that does not face this one, puts the port DOWN; otherwise AUTH follows. A good AUTH brings the port up, with a new epoch and no count where it had been DOWN; a bad one counts as an authentication failure. Whether an AUTH is good is opaque (log entry 4). -/
def Obligations.TenonPortsTrainAndFail : Prop :=
  (∀ (p : Nat) (s : State), s.hubUp = true → (s.tenon p).role ≠ 0 →
    ((s.tenon p).retraining = true → ∃ t, exec (.scribeWordAlignmentGained (.tenon p)) s = .next t ∧ (t.tenon p).retraining = false ∧
      (t.tenon p).firstControl = true ∧ (t.tenon p).credit = (s.tenon p).credit ∧ (t.tenon p).state = (s.tenon p).state) ∧
    ((s.tenon p).retraining = false → (s.tenon p).state = 1 → ∃ t, exec (.scribeWordAlignmentGained (.tenon p)) s = .next t ∧
      (t.tenon p).state = 2 ∧ (t.tenon p).helloSent = true ∧ (t.tenon p).nonce.length = 8)) ∧
  (∀ (p : Fin 8) (s : State), s.hubUp = true → (s.tenon p).state = 2 ∨ (s.tenon p).state = 3 → (s.tenon p).retraining = false →
    ∃ t, exec (.tenonAlignmentLoss p) s = .next t ∧ (t.tenon p).retraining = true ∧ (t.tenon p).state = (s.tenon p).state ∧
      (t.tenon p).credit = (s.tenon p).credit ∧ (t.tenon p).sentControl = some {
        freed := (List.range 4).map (fun v => tblGet 0 (s.tenon p).credit.freed v), ack := (s.tenon p).credit.rxSeq,
        grants := [128, 128, 128, 128], sleep := false, retrain := true } ∧
      lastEvent t = some (0x0E01, 0, be 1 p ++ be 1 1 ++ be 1 3 ++ be 1 (s.tenon p).rev ++ be 2 (s.tenon p).peerAddr ++ zeros 2)) ∧
  (∀ (p : Fin 8) (s : State), s.hubUp = true → (s.tenon p).retraining = true ∨ (s.tenon p).state = 1 →
    ∃ t, exec (.tenonRetrainTimeout p) s = .next t ∧ (t.tenon p).state = 5 ∧ (t.tenon p).rev = 0 ∧ (t.tenon p).fellDown = true ∧
      (t.tenon p).credit.held = [] ∧
      (∀ o v, s.otherPort p = some o → tblGet [] (t.tenon o).credit.queues v =
        tblGet [] (s.tenon o).credit.queues v ++ (s.tenon p).credit.held.filter (fun m => m.vc = v)) ∧
      lastEvent t = some (0x0E01, 0, be 1 p ++ be 1 5 ++ be 1 4 ++ be 1 0 ++ be 2 (s.tenon p).peerAddr ++ zeros 2)) ∧
  (∀ (p : Fin 8) (s : State), s.hubUp = true → (s.tenon p).state = 5 → (s.tenon p).role ≠ 0 →
    ∃ t, exec (.tenonDownRetry p) s = .next t ∧ OnlyChanges [.domain] s t ∧ (t.tenon p).state = 1 ∧ (t.tenon p).role = (s.tenon p).role ∧
      (t.tenon p).credit = (s.tenon p).credit ∧ (t.tenon p).fellDown = (s.tenon p).fellDown) ∧
  (∀ (p : Fin 8) (s : State), s.hubUp = true → (s.tenon p).state = 4 → ∃ t, exec (.tenonWakeBurst p) s = .next t ∧
    t.tenon p = { s.tenon p with state := 3, sleepSent := false, sleepSeen := false, lane := [], dealt := 0 } ∧
    ((t.dom 5 p).state = 0 ∨ (t.dom 5 p).exiting = true)) ∧
  (∀ (p : Fin 8) (h : Hello) (s : State), s.hubUp = true → (s.tenon p).state = 2 → (s.tenon p).retraining = false →
    ∃ t, exec (.tenonHelloRx p h) s = .next t ∧
      (min 3 h.revMax < max 1 h.revMin → (t.tenon p).state = 5 ∧ lastEvent t = some (0x0E01, 0, be 1 p ++ be 1 5 ++ be 1 6 ++ be 1 0 ++
        be 2 (if h.assigned then h.address else 0xFFFF) ++ zeros 2)) ∧
      (max 1 h.revMin ≤ min 3 h.revMax → facingRole (s.tenon p).role ≠ h.portRole → (t.tenon p).state = 5 ∧
        lastEvent t = some (0x0E01, 0, be 1 p ++ be 1 5 ++ be 1 7 ++ be 1 0 ++
          be 2 (if h.assigned then h.address else 0xFFFF) ++ zeros 2)) ∧
      (max 1 h.revMin ≤ min 3 h.revMax → facingRole (s.tenon p).role = h.portRole → (t.tenon p).state = 2 ∧
        (t.tenon p).rev = min 3 h.revMax ∧ (t.tenon p).authSent = true ∧ (t.tenon p).peerSerial = h.serial)) ∧
  (∀ (p : Fin 8) (a : Auth) (s : State), s.hubUp = true → (s.tenon p).state = 2 → (s.tenon p).authSent = true → (s.tenon p).retraining = false →
    ∃ t, exec (.tenonAuthRx p a) s = .next t ∧
      (authGood (s.tenon p) a s = true → (t.tenon p).state = 3 ∧ (t.tenon p).authOk = true ∧ (t.tenon p).fellDown = false ∧
        ((s.tenon p).fellDown = true → (t.tenon p).epoch = (s.tenon p).epoch + 1 ∧
          (t.tenon p).credit = { queues := (s.tenon p).credit.queues }) ∧
        ((s.tenon p).fellDown = false → (t.tenon p).epoch = (s.tenon p).epoch ∧ (t.tenon p).credit = (s.tenon p).credit) ∧
        lastEvent t = some (0x0E01, 0, be 1 p ++ be 1 3 ++ be 1 1 ++ be 1 (s.tenon p).rev ++ be 2 (s.tenon p).peerAddr ++ zeros 2)) ∧
      (authGood (s.tenon p) a s = false → (t.tenon p).state = 5 ∧ t.sill.authFails = min (s.sill.authFails + 1) 255))

/-- A port that is up, no EXTEST holding traffic (R45), sends its link control with its own counts, and what is outstanding again at the replay timeout. Link control with a bad CRC only counts; short grants in the first after training put the port DOWN; any other updates the credit, and SLEEP from both ends is electrical idle. The oldest message of a virtual channel leaves when credit and the replay buffer allow it, and on VC 2 an event of route 1 follows. A data message with a bad CRC or out of order only counts; one in order is accepted. A BRACE port frees it; a request for this device joins Salurn's intake, one for another goes on with one hop more, and beyond 200 hops it is dropped. -/
def Obligations.TenonMessagesMove : Prop :=
  (∀ (p : Fin 8) (s : State), s.tenonUp p = true →
    (∃ t, exec (.tenonLinkControlTx p) s = .next t ∧ OnlyChanges [.counters, .domain] s t ∧ (t.tenon p).credit = (s.tenon p).credit ∧
      (t.tenon p).sentControl = some {
        freed := (List.range 4).map (fun v => tblGet 0 (s.tenon p).credit.freed v), ack := (s.tenon p).credit.rxSeq,
        grants := [128, 128, 128, 128], sleep := (s.tenon p).sleepSent }) ∧
    (∃ t, exec (.tenonReplayTimeout p) s = .next t ∧ OnlyChanges [.counters, .domain] s t ∧ (t.tenon p).credit = (s.tenon p).credit ∧
      t.live pmTenon p 35 = s.live pmTenon p 35 + (s.tenon p).credit.replay.length)) ∧
  (∀ (p : Fin 8) (k : LinkControl) (s : State), s.tenonUp p = true →
    exec (.tenonLinkControlRx p false k) s = .next (bump pmTenon p 34 1 s) ∧
    ((s.tenon p).firstControl = true → (∃ v < 4, k.grants.getD v 0 < 65) → ∃ t, exec (.tenonLinkControlRx p true k) s = .next t ∧
      (t.tenon p).state = 5 ∧
      lastEvent t = some (0x0E01, 0, be 1 p ++ be 1 5 ++ be 1 8 ++ be 1 0 ++ be 2 (s.tenon p).peerAddr ++ zeros 2)) ∧
    ((s.tenon p).firstControl = false ∨ (∀ v < 4, 65 ≤ k.grants.getD v 0) → ∃ t, exec (.tenonLinkControlRx p true k) s = .next t ∧
      (t.tenon p).credit = (s.tenon p).credit.control k ∧ (t.tenon p).firstControl = false ∧ (t.tenon p).sleepSeen = k.sleep ∧
      (t.tenon p).state = (if k.sleep = true ∧ (s.tenon p).sleepSent = true then 4 else 3))) ∧
  (∀ (p : Fin 8) (vc : Fin 4) (m : Message) (rest : List Message) (s : State), s.tenonUp p = true →
    tblGet [] (s.tenon p).credit.queues vc = m :: rest →
    (s.tenonRoom p m = false → exec (.tenonDataTx p vc) s = .next s) ∧
    (s.tenonRoom p m = true → ∃ t, exec (.tenonDataTx p vc) s = .next t ∧ tblGet [] (t.tenon p).credit.queues vc = rest ∧
      (t.tenon p).credit.txSeq = (s.tenon p).credit.txSeq + 1 ∧
      (t.tenon p).credit.replay = (s.tenon p).credit.replay ++ [{ m with seq := (s.tenon p).credit.txSeq + 1 }] ∧
      (∀ x e, m.body = .packet x (some e) → ∀ y ∈ t.control.journal, y.id ≠ e))) ∧
  (∀ (p : Fin 8) (e : EventRec) (s : State), s.tenonUp p = true → tblGet [] (s.tenon p).credit.queues 2 = [] → s.routeHead p = some e →
    s.control.routeTenon.lost = 0 → s.tenonRoom p { vc := 2, origin := s.address, body := .packet (eventPacket s e) none } = true →
    ∃ t, exec (.tenonDataTx p 2) s = .next t ∧ t.control.routeTenon.queue = s.control.routeTenon.queue.drop 1 ∧
      (t.tenon p).credit.txSeq = (s.tenon p).credit.txSeq + 1) ∧
  (∀ (p : Fin 8) (m : Message) (s : State), s.tenonUp p = true →
    exec (.tenonMessageRx p false m) s = .next (bump pmTenon p 34 1 s) ∧
    (m.seq ≠ (s.tenon p).credit.rxSeq + 1 → exec (.tenonMessageRx p true m) s = .next (bump pmTenon p 36 1 s)) ∧
    (m.seq = (s.tenon p).credit.rxSeq + 1 → ∃ t, exec (.tenonMessageRx p true m) s = .next t ∧ (t.tenon p).credit.rxSeq = m.seq ∧
      ((s.tenon p).role = 7 → t.control = s.control ∧
        tblGet 0 (t.tenon p).credit.freed m.vc = tblGet 0 (s.tenon p).credit.freed m.vc + BitVec.ofNat 32 (messageCells m)) ∧
      (∀ q e, (s.tenon p).role ≠ 7 → m.vc = 0 → m.body = .packet q e → broadcastBit q.flags = false →
        (q.target.toNat % 16384 = s.address → t.control.rx = s.control.rx ++ [{
          port := .tenon p, bytes := packetBytes q, count := packetSize q, origin := m.origin, originRole := m.originRole }]) ∧
        (q.target.toNat % 16384 ≠ s.address → 200 ≤ m.hops → t.control.rx = s.control.rx ∧
          ∀ o, (t.tenon o).credit.queues = (s.tenon o).credit.queues) ∧
        (∀ o, q.target.toNat % 16384 ≠ s.address → m.hops < 200 → s.domain.fenced = [] → s.nextHop (q.target.toNat % 16384) = some o →
          tblGet [] (t.tenon o).credit.queues 0 = tblGet [] (s.tenon o).credit.queues 0 ++ [{ m with hops := m.hops + 1 }]))))

/-- An active manager whose Salurn runs builds the map of what it sees, numbers it and queues it on both ways; while Salurn does not run the last one goes. A map received from the ring's manager is the one in force, and a device takes the number it gives. A fence that returns releases what it held toward its way, and one that does not is sent again. A standby that is enabled takes over. A collation whose time ends while the management processor runs is answered, in the outgoing queue or behind the replies that wait for room there, ST_OK only when every target returned it; a distribution that times out lists the silent targets. The layouts of maps and fences are the model's (log entry 20). -/
def Obligations.DomainHoldsTogether : Prop :=
  (∀ (l : Fin 3) (seen : List Seen) (s : State), s.blocksRun = true → s.manages l = true → s.onLevel l = true →
    ∃ t, exec (.mapSend l seen) s = .next t ∧
      (s.salurnRuns = true → t.domain.numbers = numberAll l seen s.domain.numbers ∧
        t.map l = ringMapOf s l seen (numberAll l seen s.domain.numbers)) ∧
      (s.salurnRuns = false → t.domain.maps = s.domain.maps ∧ t.domain.numbers = s.domain.numbers) ∧
      ∀ r p, r = 2 * l.val + 1 ∨ r = 2 * l.val + 2 → s.portOfRole r = some p →
        ∃ x ∈ tblGet [] (t.tenon p).credit.queues 2, ∃ y, x.body = .map y ∧ y.level = l ∧ y.manager = s.address ∧
          y.east = (t.map l).east ∧ y.west = (t.map l).west) ∧
  (∀ (p : Fin 8) (m : MapMsg) (s : State), s.tenonUp p = true → 1 ≤ (s.tenon p).role → (s.tenon p).role ≤ 6 →
    (roleLevel (s.tenon p).role ≠ m.level → exec (.mapRx p m) s = .next s) ∧
    (roleLevel (s.tenon p).role = m.level → s.manages m.level = false → ∃ t, exec (.mapRx p m) s = .next t ∧
      t.managerOf m.level = m.manager ∧ (t.map m.level).east = m.east ∧ (t.map m.level).west = m.west ∧
      (t.map m.level).sender = addrPart m.level m.manager ∧
      (∀ e a, s.addressLevel = some m.level → m.numbers.find? (fun e => e.1 == s.serial) = some e → e.2 = some a →
        t.domain.address = some a))) ∧
  (∀ (l : Fin 3) (s : State),
    (s.domain.fenced.find? (fun f => f.1 == l.val) = none → exec (.fenceReturn l) s = .next s ∧ exec (.fenceTimeout l) s = .next s) ∧
    (∀ f, s.domain.fenced = [f] → f.1 = l.val → ∃ t, exec (.fenceReturn l) s = .next t ∧ OnlyChanges [.domain] s t ∧ t.domain.fenced = [] ∧
      ∀ o v, (∀ x ∈ f.2.2, s.nextHop x.1 = some o) → tblGet [] (t.tenon o).credit.queues v =
        tblGet [] (s.tenon o).credit.queues v ++ (f.2.2.map (fun x => x.2)).filter (fun m => m.vc = v)) ∧
    (∀ f p, s.domain.fenced.find? (fun f => f.1 == l.val) = some f →
      s.portOfRole (if s.fenceEast l f.2.1 then 2 * l.val + 1 else 2 * l.val + 2) = some p →
      ∃ t, exec (.fenceTimeout l) s = .next t ∧ OnlyChanges [.domain] s t ∧ t.domain.fenced = s.domain.fenced ∧
        tblGet [] (t.tenon p).credit.queues 2 = tblGet [] (s.tenon p).credit.queues 2 ++
          [{ vc := 2, origin := s.address, body := .fence l f.2.1 false }])) ∧
  (∀ s : State, s.salurnRuns = true → s.domain.mgrState = 2 → s.sill.straps.role ≠ 0 →
    (s.domain.standbyEn = false → exec .managerTakeover s = .next s) ∧
    (s.domain.standbyEn = true → ∃ t, exec .managerTakeover s = .next t ∧ t.domain.mgrState = 3 ∧
      t.managerOf (s.sill.straps.role.toNat - 1) = s.address ∧
      lastEvent t = some (0x0E03, 0, be 1 (s.sill.straps.role.toNat - 1) ++ be 1 3 ++ be 1 2 ++ zeros 1))) ∧
  (∀ (id : Nat) (s : State),
    (s.control.collations.find? (fun c => c.id == id) = none → exec (.collationClose id) s = .next s) ∧
    (∀ c x, s.control.collations.find? (fun c => c.id == id) = some c → s.control.journal.find? (fun x => x.id == id) = some x →
      x.state = .applying → s.control.mp = .running → ∃ t, exec (.collationClose id) s = .next t ∧ (∀ y ∈ t.control.collations, y.id ≠ id) ∧
        (∀ y ∈ t.control.journal, y.id = id → y.state = .done) ∧
        (x.port = .control → ∃ o, t.control.outgoing ++ t.control.held = s.control.outgoing ++ s.control.held ++ [o] ∧ o.isReply = true ∧ o.entry = some id ∧
          o.packet.status = BitVec.ofNat 16 (if c.listed = [] ∧ c.awaited = [] then Status.ok.code else Status.partly.code)))) ∧
  (∀ s : State,
    (s.domain.dist.running = false → exec .distributionTimeout s = .next s) ∧
    (s.domain.dist.running = true → ∃ t, exec .distributionTimeout s = .next t ∧ t.domain.dist.running = false ∧
      (∀ a ∈ s.domain.dist.targets, ∃ r ∈ t.domain.dist.reports, r.1 = a) ∧
      (∀ a ∈ s.domain.dist.targets, (∀ r ∈ s.domain.dist.reports, r.1 ≠ a) → (a, Status.noReply.code) ∈ t.domain.dist.reports) ∧
      (let f := (t.domain.dist.reports.filter (fun r => r.2 != 0)).length
       lastEvent t = some (0x0E06, 0, be 2 t.domain.dist.reports.length ++ be 2 (t.domain.dist.reports.length - f) ++
         be 2 (min 4094 f) ++ zeros 2))))

/-- DOMAIN.SET_PORT gives a port a role its strap permits and no other port holds, and it trains from the beginning; any other role is ST_DOM_ROLE and the same role changes nothing. SET_FLOOR at the root writes the floor record to the copy not in force and raises the floor, unless the flash fails, which is a free value (log entry 7); elsewhere, as SET_MANAGER and FREE_POSITION on a member, it is ST_DOM_NOT_MANAGER. FREE_POSITION frees a number no map shows. DISTRIBUTE with a verified image staged starts a distribution to the devices known in its scope. The GET commands answer 128 and 156 bytes and the reports. -/
def Obligations.DomainCommandsComplete : Prop :=
  (∀ (q : Request) (s : State), taken 0x0E01 q s = true → q.u = 0 → q.b 0 ≤ 7 → q.b 1 ≤ 7 → q.h 2 = 0 →
    (rolePermitted s.sill.straps.role.toNat (q.b 1) = false ∨ (q.b 1 ≠ 0 ∧ ∃ k < 8, k ≠ q.b 0 ∧ (s.tenon k).role = q.b 1) →
      exec (.domainSetPort q) s = .next (refused 0x0E01 q .domRole [] (admitted 0x0E01 q s))) ∧
    (rolePermitted s.sill.straps.role.toNat (q.b 1) = true → (q.b 1 = 0 ∨ ∀ k < 8, k ≠ q.b 0 → (s.tenon k).role ≠ q.b 1) →
      ((s.tenon (q.b 0)).role = q.b 1 → exec (.domainSetPort q) s = .next (carriedOut 0x0E01 q .ok [] (admitted 0x0E01 q s))) ∧
      ((s.tenon (q.b 0)).role ≠ q.b 1 → ∃ v, exec (.domainSetPort q) s = .next (carriedOut 0x0E01 q .ok [] v) ∧
        v.tenon (q.b 0) = { role := q.b 1, state := if q.b 1 = 0 then 0 else 1 }))) ∧
  (∀ (q : Request) (s : State), taken 0x0E02 q s = true → q.u = 0 →
    ∃ pl, exec (.domainGetPorts q) s = .next (got 0x0E02 q pl (admitted 0x0E02 q s)) ∧ pl.length = 128) ∧
  (∀ (q : Request) (s : State), taken 0x0E03 q s = true → q.u = 0 →
    ∃ pl, exec (.domainGetTopology q) s = .next (got 0x0E03 q pl (admitted 0x0E03 q s)) ∧ pl.length = 156 ∧
      pl.take 2 = be 2 (s.domain.address.getD 0xFFFF)) ∧
  (∀ (q : Request) (s : State), taken 0x0E04 q s = true → q.u = 0 → q.b 4 ≤ 1 → isZero q.payload 5 3 = true →
    (q.b 4 = 1 ∨ ∀ old, s.domain.floor = some old → old ≤ q.w 0) →
    let a := 0x120000 + (match copyInForce s 0x120000 0xA6F70A00 with | some c => 1 - c | none => 0) * 0x10000
    (s.actsAsRoot = false → exec (.domainSetFloor q) s = .next (refused 0x0E04 q .notManager [] (admitted 0x0E04 q s))) ∧
    (s.actsAsRoot = true → s.fw.running.fwVersion < q.w 0 →
      exec (.domainSetFloor q) s = .next (refused 0x0E04 q .floor [] (admitted 0x0E04 q s))) ∧
    (s.actsAsRoot = true → q.w 0 ≤ s.fw.running.fwVersion → s.domain.floorSeq < 0xFFFFFFFE →
      (Config.freeNat s.fresh % 2 ≠ 0 → exec (.domainSetFloor q) s = .next (carriedOut 0x0E04 q .flash []
        { (admitted 0x0E04 q s) with fresh := s.fresh + 1 })) ∧
      (Config.freeNat s.fresh % 2 = 0 → ∃ t, exec (.domainSetFloor q) s = .next t ∧ t.domain.floor = some (q.w 0) ∧
        t.domain.floorSeq = s.domain.floorSeq + 1 ∧ flashBytes t a 32 = floorRecord (s.domain.floorSeq + 1) (q.w 0)))) ∧
  (∀ (q : Request) (s : State), taken 0x0E05 q s = true → q.u = 0 → (1 ≤ q.h 0 ∧ q.h 0 ≤ 1000) → (3 * q.h 0 ≤ q.h 2 ∧ q.h 2 ≤ 10000) →
    (10 ≤ q.h 4 ∧ q.h 4 ≤ 10000) → q.b 6 ≤ 1 → q.b 7 = 0 →
    (s.domain.mgrState ≠ 1 → s.domain.mgrState ≠ 3 →
      exec (.domainSetManager q) s = .next (refused 0x0E05 q .notManager [] (admitted 0x0E05 q s))) ∧
    (s.domain.mgrState = 1 ∨ s.domain.mgrState = 3 → exec (.domainSetManager q) s = .next (carriedOut 0x0E05 q .ok []
      (modDomain (fun d => { d with hbMs := q.h 0, timeoutMs := q.h 2, collateMs := q.h 4, standbyEn := q.b 6 == 1 })
        (admitted 0x0E05 q s))))) ∧
  (∀ (q : Request) (s : State), taken 0x0E06 q s = true → q.u = 0 → targetValid 8 (BitVec.ofNat 16 (q.h 0)) = true → q.h 2 = 0 → s.fwState = 2 →
    (s.domain.dist.running = true → exec (.domainDistribute q) s = .next (refused 0x0E06 q .busy [] (admitted 0x0E06 q s))) ∧
    (∀ b, s.domain.dist.running = false → s.fw.staged = some b → ∃ t, exec (.domainDistribute q) s = .next t ∧
      t.domain.dist.targets = s.knownIn (BitVec.ofNat 16 (q.h 0)) ∧
      (inScope (BitVec.ofNat 16 (q.h 0)) s.address = true → (s.address, 0) ∈ t.domain.dist.reports))) ∧
  (∀ (q : Request) (s : State), taken 0x0E07 q s = true → q.u = 0 →
    ∃ pl, exec (.domainGetDist q) s = .next (got 0x0E07 q pl (admitted 0x0E07 q s)) ∧ pl.take 4 = be 2 s.domain.dist.reports.length ++
      be 2 (s.domain.dist.reports.length - (s.domain.dist.reports.filter (fun r => r.2 != 0)).length)) ∧
  (∀ (q : Request) (s : State), taken 0x0E08 q s = true → q.u = 0 → 1 ≤ q.b 0 → q.b 0 ≤ 31 → isZero q.payload 1 3 = true →
    (s.domain.mgrState ≠ 1 → s.domain.mgrState ≠ 3 →
      exec (.domainFreePosition q) s = .next (refused 0x0E08 q .notManager [] (admitted 0x0E08 q s))) ∧
    (s.domain.mgrState = 1 ∨ s.domain.mgrState = 3 →
      ((s.map s.ownLevel).east.testBit (q.b 0) = true ∨ (s.map s.ownLevel).west.testBit (q.b 0) = true →
        exec (.domainFreePosition q) s = .next (refused 0x0E08 q .state [] (admitted 0x0E08 q s))) ∧
      ((s.map s.ownLevel).east.testBit (q.b 0) = false → (s.map s.ownLevel).west.testBit (q.b 0) = false →
        exec (.domainFreePosition q) s = .next (carriedOut 0x0E08 q .ok [] (modDomain (fun d => { d with
          numbers := d.numbers.filter (fun e => !(e.1 == s.ownLevel && e.2.2 == q.b 0)) }) (admitted 0x0E08 q s))))))

/-- Where the packet that Salurn takes next is the one a command spells, the command is its taking: exec runs, on the state with the packet out of its buffer, the very request that the idle step runs for that opcode (runRequest), and with ORIGIN and ORIGIN_ROLE as the packet came with. For every opcode of the command index. -/
def Obligations.WaitingPacketsRunTheirCommand : Prop :=
  let takenByName : Nat → (Request → Instr) → Request → State → Prop := fun code cmd q s =>
    ∀ i r, s.portTakes q.port = true → s.namesNext q.port (packetBytes (requestPacket code q)) = some (i, r) →
      exec (cmd q) s = .next (runRequest code { q with origin := r.origin, originRole := r.originRole } (takeAt i s))
  (∀ e ∈ ([(0x0201, .powerSetTolerance), (0x0202, .powerGetState), (0x0203, .powerGetPower), (0x0204, .powerSetRegulator),
      (0x0101, .systemGetIdentity), (0x0102, .systemReset), (0x0103, .systemGetDebugChallenge),
      (0x0104, .systemDebugUnlock), (0x0105, .systemGetEvents), (0x0301, .carrierSetFormat),
      (0x0302, .carrierSetPath), (0x0303, .carrierSetDsp), (0x0304, .carrierSetSpectralOrder),
      (0x0305, .carrierGetStatus), (0x0306, .carrierReacquire), (0x0307, .carrierGetConfig),
      (0x0401, .fecGetFrameInfo), (0x0402, .fecGetCounts), (0x0403, .fecSetInject), (0x0501, .framerSetTti),
      (0x0502, .framerSetDegrade), (0x0503, .framerSetAps), (0x0504, .framerSetOverhead), (0x0505, .framerSetMaint),
      (0x0506, .framerGetStatus), (0x0507, .framerGetOverhead), (0x0508, .framerGetCounts),
      (0x0601, .clientSetClient)] : List (Nat × (Request → Instr))), ∀ q s, takenByName e.1 e.2 q s) ∧
  (∀ e ∈ ([(0x0602, .clientSetTrib), (0x0603, .clientSetFlexe), (0x0604, .clientSetClass), (0x0605, .clientGetStatus),
      (0x0606, .clientGetCounts), (0x0701, .schedSetSubscriber), (0x0702, .schedSetQueue), (0x0703, .schedSetGates),
      (0x0704, .schedGetGates), (0x0705, .schedGetQueue), (0x0706, .schedSetSampling), (0x0707, .schedGetCounts),
      (0x0801, .memorySetPolicy), (0x0802, .memoryGetStatus), (0x0803, .memoryGetLog), (0x0804, .memoryRetrain),
      (0x0805, .memorySetShim), (0x0806, .memoryGetCounts), (0x0901, .securitySetOwnerRoot),
      (0x0902, .securitySetOwnerRecord), (0x0903, .securityLoadKek), (0x0904, .securityLoadKey),
      (0x0905, .securityEraseKey), (0x0906, .securitySetChannel)] : List (Nat × (Request → Instr))), ∀ q s, takenByName e.1 e.2 q s) ∧
  (∀ e ∈ ([(0x0907, .securityRollover), (0x0908, .securityBench), (0x0909, .securitySetPolicy),
      (0x090A, .securityClearAlarm), (0x090B, .securityAttest), (0x090C, .securityGetCert),
      (0x090D, .securityGetStatus), (0x090E, .securityGetSlots), (0x090F, .securityGetCounts),
      (0x0A01, .timingSetRefs), (0x0A02, .timingSetLoop), (0x0A03, .timingSetDco), (0x0A04, .timingSetTod),
      (0x0A05, .timingSetOutputs), (0x0A06, .timingRealign), (0x0A07, .timingGetStatus), (0x0B01, .calGetParam),
      (0x0B02, .calSetOverlay), (0x0B03, .calSaveRecord), (0x0B04, .calRun), (0x0B05, .calSetPolicy),
      (0x0B06, .calGetStats), (0x0B07, .calSetAnalog), (0x0B08, .calSetBias)] : List (Nat × (Request → Instr))), ∀ q s, takenByName e.1 e.2 q s) ∧
  (∀ e ∈ ([(0x0B09, .calPicSpi), (0x0C01, .monitorSetConverter), (0x0C02, .monitorSetSequence),
      (0x0C03, .monitorSetDecim), (0x0C04, .monitorSetAccum), (0x0C05, .monitorTrigger), (0x0C06, .monitorInject),
      (0x0C07, .monitorReadSlots), (0x0C08, .monitorReadTrackers), (0x0C09, .monitorGetStatus),
      (0x0D01, .countersSetUnit), (0x0D02, .countersRead), (0x0D03, .countersClear), (0x0D04, .countersSetTrace),
      (0x0D05, .countersSetTags), (0x0D06, .countersSetStream), (0x0D07, .countersGetStream),
      (0x0E01, .domainSetPort), (0x0E02, .domainGetPorts), (0x0E03, .domainGetTopology), (0x0E04, .domainSetFloor),
      (0x0E05, .domainSetManager), (0x0E06, .domainDistribute), (0x0E07, .domainGetDist)] : List (Nat × (Request → Instr))), ∀ q s, takenByName e.1 e.2 q s) ∧
  (∀ e ∈ ([(0x0E08, .domainFreePosition), (0x0F01, .protectSetTwin), (0x0F02, .protectRealign),
      (0x0F03, .protectSetMirror), (0x0F04, .protectClaim), (0x0F05, .protectGetStatus), (0x0F06, .protectGetCounts),
      (0x1001, .firmwareGetInfo), (0x1002, .firmwareStageBegin), (0x1003, .firmwareStageWrite),
      (0x1004, .firmwareStageVerify), (0x1005, .firmwareActivate), (0x1006, .firmwareCommit),
      (0x1007, .firmwareRollback), (0x1101, .sessionOpen), (0x1102, .sessionAuth), (0x1103, .sessionClose),
      (0x1104, .sessionGrantCounters), (0x1105, .sessionGetInfo), (0x1106, .sessionSetEvents)] : List (Nat × (Request → Instr))), ∀ q s, takenByName e.1 e.2 q s)

/-- Each opcode named accepts the units below its bound. A request of it that passes checks 1 to 11 and names another unit is answered ST_PARAM with offset 0xFFFF, whatever its payload holds; nothing is journaled and nothing executes. -/
def Obligations.UnitIsJudgedFirst : Prop :=
  (∀ e ∈ ([(0x0105, 1, .systemGetEvents), (0x0302, 4, .carrierSetPath),
      (0x0303, 4, .carrierSetDsp), (0x0304, 1, .carrierSetSpectralOrder), (0x0305, 4, .carrierGetStatus),
      (0x0306, 4, .carrierReacquire), (0x0307, 4, .carrierGetConfig), (0x0401, 4, .fecGetFrameInfo),
      (0x0402, 4, .fecGetCounts), (0x0403, 4, .fecSetInject), (0x0501, 4, .framerSetTti),
      (0x0502, 4, .framerSetDegrade), (0x0503, 4, .framerSetAps), (0x0504, 4, .framerSetOverhead),
      (0x0505, 4, .framerSetMaint), (0x0506, 4, .framerGetStatus), (0x0507, 4, .framerGetOverhead),
      (0x0508, 4, .framerGetCounts), (0x0601, 1, .clientSetClient), (0x0602, 1, .clientSetTrib)] : List (Nat × Nat × (Request → Instr))), ∀ q s, taken e.1 q s = true → e.2.1 ≤ q.u →
      exec (e.2.2 q) s = .next (refused e.1 q .param (paramAt 0xFFFF) (admitted e.1 q s))) ∧
  (∀ e ∈ ([(0x0603, 1, .clientSetFlexe), (0x0604, 1, .clientSetClass), (0x0605, 64, .clientGetStatus),
      (0x0701, 1, .schedSetSubscriber), (0x0702, 1, .schedSetQueue), (0x0703, 1, .schedSetGates),
      (0x0704, 256, .schedGetGates), (0x0705, 1, .schedGetQueue), (0x0706, 1, .schedSetSampling),
      (0x0707, 1, .schedGetCounts), (0x0801, 1, .memorySetPolicy), (0x0802, 4, .memoryGetStatus),
      (0x0803, 4, .memoryGetLog), (0x0804, 4, .memoryRetrain), (0x0805, 4, .memorySetShim),
      (0x0806, 4, .memoryGetCounts), (0x0901, 1, .securitySetOwnerRoot), (0x0903, 1, .securityLoadKek),
      (0x0904, 1, .securityLoadKey), (0x0905, 1, .securityEraseKey), (0x0906, 4, .securitySetChannel),
      (0x0907, 4, .securityRollover), (0x0908, 1, .securityBench), (0x0909, 1, .securitySetPolicy)] : List (Nat × Nat × (Request → Instr))), ∀ q s, taken e.1 q s = true → e.2.1 ≤ q.u →
      exec (e.2.2 q) s = .next (refused e.1 q .param (paramAt 0xFFFF) (admitted e.1 q s))) ∧
  (∀ e ∈ ([(0x090A, 1, .securityClearAlarm), (0x090B, 1, .securityAttest), (0x090C, 1, .securityGetCert),
      (0x090D, 4, .securityGetStatus), (0x090E, 1, .securityGetSlots), (0x090F, 4, .securityGetCounts),
      (0x0A01, 1, .timingSetRefs), (0x0A02, 1, .timingSetLoop), (0x0A03, 1, .timingSetDco),
      (0x0A04, 1, .timingSetTod), (0x0A05, 1, .timingSetOutputs), (0x0A06, 1, .timingRealign),
      (0x0A07, 1, .timingGetStatus), (0x0B03, 5, .calSaveRecord), (0x0B04, 5, .calRun), (0x0B05, 5, .calSetPolicy),
      (0x0B06, 5, .calGetStats), (0x0B07, 4, .calSetAnalog), (0x0B08, 4, .calSetBias), (0x0B09, 4, .calPicSpi),
      (0x0C01, 1, .monitorSetConverter), (0x0C02, 1, .monitorSetSequence), (0x0C03, 1, .monitorSetDecim),
      (0x0C04, 1, .monitorSetAccum)] : List (Nat × Nat × (Request → Instr))), ∀ q s, taken e.1 q s = true → e.2.1 ≤ q.u →
      exec (e.2.2 q) s = .next (refused e.1 q .param (paramAt 0xFFFF) (admitted e.1 q s))) ∧
  (∀ e ∈ ([(0x0C05, 1, .monitorTrigger), (0x0C06, 1, .monitorInject), (0x0C09, 1, .monitorGetStatus),
      (0x0D01, 24, .countersSetUnit), (0x0D02, 24, .countersRead), (0x0D03, 1, .countersClear),
      (0x0D05, 4, .countersSetTags), (0x0D06, 1, .countersSetStream), (0x0D07, 1, .countersGetStream),
      (0x0E01, 1, .domainSetPort), (0x0E02, 1, .domainGetPorts), (0x0E03, 1, .domainGetTopology),
      (0x0E04, 1, .domainSetFloor), (0x0E05, 1, .domainSetManager), (0x0E06, 1, .domainDistribute),
      (0x0E07, 1, .domainGetDist), (0x0E08, 1, .domainFreePosition), (0x0F01, 1, .protectSetTwin),
      (0x0F02, 1, .protectRealign), (0x0F03, 1, .protectSetMirror), (0x0F04, 1, .protectClaim),
      (0x0F05, 1, .protectGetStatus), (0x0F06, 3, .protectGetCounts)] : List (Nat × Nat × (Request → Instr))), ∀ q s, taken e.1 q s = true → e.2.1 ≤ q.u →
      exec (e.2.2 q) s = .next (refused e.1 q .param (paramAt 0xFFFF) (admitted e.1 q s))) ∧
  (∀ e ∈ ([(0x0C07, 1, .monitorReadSlots), (0x0C08, 1, .monitorReadTrackers), (0x0902, 1, .securitySetOwnerRecord)] : List (Nat × Nat × (Request → Instr))), ∀ q s, taken e.1 q s = true → e.2.1 ≤ q.u →
      exec (e.2.2 q) s = .next (refused e.1 q .param (paramAt 0xFFFF) (admitted e.1 q s)))
end

