-- ==== Sys2Proof/Laws/Bytes.lean ====
section
/-! SUPPORT. How long the byte strings of fields are. -/

-- One theorem after another: with a thread for each, the package as one text outgrows the checker's memory limit.
set_option Elab.async false

namespace Sys2Proof.Machine

@[simp] theorem be_length (n v : Nat) : (be n v).length = n := by
  induction n generalizing v with
  | zero => rfl
  | succ n ih => simp [be, ih]

@[simp] theorem zeros_length (n : Nat) : (zeros n).length = n := by simp [zeros]
@[simp] theorem fitBytes_length (n : Nat) (l : List Byte) : (fitBytes n l).length = n := by simp [fitBytes]
@[simp] theorem beInt_length (n : Nat) (v : Int) : (beInt n v).length = n := by simp [beInt]
@[simp] theorem tod_bytes_length (t : Tod) : t.bytes.length = 10 := by simp [Tod.bytes]
@[simp] theorem serial_length (s : State) : s.serial.length = 16 := by simp [State.serial]
@[simp] theorem flashBytes_length (s : State) (a n : Nat) : (flashBytes s a n).length = n := by simp [flashBytes]

/-- Elements of one size. -/
theorem flatMap_length {α : Type} (l : List α) (f : α → List Byte) (n : Nat) (h : ∀ a ∈ l, (f a).length = n) :
    (l.flatMap f).length = l.length * n := by
  induction l with
  | nil => simp
  | cons a r ih =>
    rw [List.flatMap_cons, List.length_append, h a List.mem_cons_self, ih (fun b hb => h b (List.mem_cons_of_mem _ hb)),
      List.length_cons, Nat.succ_mul, Nat.add_comm]

end Sys2Proof.Machine
end

