-- ==== Sys2Proof/Laws/Frame.lean ====
section
/-! SUPPORT. How frames compose, and the frame of each primitive update. -/

-- One theorem after another: with a thread for each, the package as one text outgrows the checker's memory limit.
set_option Elab.async false

namespace Sys2Proof.Machine

theorem OnlyChanges.refl (ps : List Part) (s : State) : OnlyChanges ps s s := by
  intro p _; cases p <;> rfl

theorem Part.same_trans {p : Part} {s t u : State} (a : p.same s t) (b : p.same t u) : p.same s u := by
  cases p <;> exact Eq.trans b a

theorem OnlyChanges.trans {ps : List Part} {s t u : State} (a : OnlyChanges ps s t) (b : OnlyChanges ps t u) : OnlyChanges ps s u :=
  fun p hp => Part.same_trans (a p hp) (b p hp)

/-- A goal that one list of parts lies in another: close it by rfl. -/
theorem Part.nested {ps qs : List Part} (h : ps.all (fun p => qs.contains p) = true) : ps.all (fun p => qs.contains p) = true := h
theorem Part.held {p : Part} {qs : List Part} (h : qs.contains p = true) : qs.contains p = true := h

/-- Lists of parts nest. -/
theorem Part.all_trans {ps qs rs : List Part} (g : ps.all (fun p => qs.contains p) = true) (h : qs.all (fun p => rs.contains p) = true) :
    ps.all (fun p => rs.contains p) = true := by
  rw [List.all_eq_true] at g h ⊢
  intro p hp
  exact h p (by simpa using g p hp)

/-- A larger list of parts says less. -/
theorem OnlyChanges.mono {ps qs : List Part} {s t : State} (a : OnlyChanges ps s t) (h : ps.all (fun p => qs.contains p) = true) :
    OnlyChanges qs s t := by
  intro p hp
  refine a p ?_
  cases hc : ps.contains p with
  | false => rfl
  | true =>
    have hm : p ∈ ps := by simpa using hc
    have := List.all_eq_true.mp h p hm
    rw [hp] at this; exact this.symm

/-- The step before, then a function whose frame is known. -/
theorem OnlyChanges.after {ps qs : List Part} {s t u : State} (b : OnlyChanges ps t u) (a : OnlyChanges qs s t)
    (h : ps.all (fun p => qs.contains p) = true) : OnlyChanges qs s u := a.trans (b.mono h)

/-- A function that answers a value beside the state. -/
def PairChanges {α : Type} (ps : List Part) (s : State) (p : α × State) : Prop := OnlyChanges ps s p.2

theorem PairChanges.mk {α : Type} {ps : List Part} {s t : State} (x : α) (a : OnlyChanges ps s t) : PairChanges ps s (x, t) := a

theorem PairChanges.ite {α : Type} {ps : List Part} {c : Prop} [Decidable c] {s : State} {p q : α × State} (a : PairChanges ps s p)
    (b : PairChanges ps s q) : PairChanges ps s (if c then p else q) := by
  split
  · exact a
  · exact b

/-- The state half of a pair whose frame is known. -/
theorem PairChanges.snd {α : Type} {ps qs : List Part} {s t u : State} {p : α × State} {x : α} (b : PairChanges ps t p)
    (e : p = (x, u)) (a : OnlyChanges qs s t) (h : ps.all (fun p => qs.contains p) = true) : OnlyChanges qs s u := by
  subst e; exact OnlyChanges.after b a h

theorem ReplyChanges.mono {ps qs : List Part} {s : State} {r : Reply} (a : ReplyChanges ps s r)
    (h : ps.all (fun p => qs.contains p) = true) : ReplyChanges qs s r := by
  cases r with
  | reject => exact OnlyChanges.mono a h
  | done => exact ⟨OnlyChanges.mono a.1 h, fun u => OnlyChanges.mono (a.2 u) h⟩
  | later => exact OnlyChanges.mono a h

theorem ReplyChanges.after {ps qs : List Part} {s t : State} {r : Reply} (b : ReplyChanges ps t r)
    (a : OnlyChanges qs s t) (h : ps.all (fun p => qs.contains p) = true) : ReplyChanges qs s r := by
  cases r with
  | reject => exact a.trans (OnlyChanges.mono b h)
  | done => exact ⟨a.trans (OnlyChanges.mono b.1 h), fun u => OnlyChanges.mono (b.2 u) h⟩
  | later => exact a.trans (OnlyChanges.mono b h)

theorem ReplyChanges.from {qs : List Part} {s t : State} {r : Reply} (a : OnlyChanges qs s t) (b : ReplyChanges qs t r) :
    ReplyChanges qs s r := by
  cases r with
  | reject => exact a.trans b
  | done => exact ⟨a.trans b.1, b.2⟩
  | later => exact a.trans b

theorem ReplyChanges.refuse {ps : List Part} {s t : State} (st : Status) (a : OnlyChanges ps s t) : ReplyChanges ps s (.refuse st t) := a
theorem ReplyChanges.reject {ps : List Part} {s t : State} (st : Status) (pl : List Byte) (a : OnlyChanges ps s t) :
    ReplyChanges ps s (.reject st pl t) := a
theorem ReplyChanges.later {ps : List Part} {s t : State} (u : Undo) (a : OnlyChanges ps s t) : ReplyChanges ps s (.later u t) := a
theorem ReplyChanges.okay {ps : List Part} {s t : State} (a : OnlyChanges ps s t) : ReplyChanges ps s (.okay t) :=
  ⟨a, fun u => OnlyChanges.refl ps u⟩
theorem ReplyChanges.okWith {ps : List Part} {s t : State} (pl : List Byte) (a : OnlyChanges ps s t) : ReplyChanges ps s (.okWith pl t) :=
  ⟨a, fun u => OnlyChanges.refl ps u⟩
theorem ReplyChanges.okThen {ps : List Part} {s t : State} {f : State → State} (a : OnlyChanges ps s t)
    (h : ∀ u, OnlyChanges ps u (f u)) : ReplyChanges ps s (.okThen t f) := ⟨a, h⟩
theorem ReplyChanges.done {ps : List Part} {s t : State} {f : State → State} (st : Status) (pl : List Byte) (a : OnlyChanges ps s t)
    (h : ∀ u, OnlyChanges ps u (f u)) : ReplyChanges ps s (.done st pl t f) := ⟨a, h⟩

/-- Check 12 or its rest. -/
theorem ReplyChanges.checked {ps : List Part} {s t : State} {k : Reply} (cs : List (Bool × Nat)) (a : OnlyChanges ps s t)
    (h : ReplyChanges ps s k) : ReplyChanges ps s (Sys2Proof.Machine.checked cs t k) := by
  unfold Sys2Proof.Machine.checked; split
  · exact a
  · exact h

/-- Check 13 or its rest. -/
theorem ReplyChanges.require {ps : List Part} {s t : State} {k : Reply} (cs : List (Bool × Status)) (a : OnlyChanges ps s t)
    (h : ReplyChanges ps s k) : ReplyChanges ps s (Sys2Proof.Machine.require cs t k) := by
  unfold Sys2Proof.Machine.require; split
  · exact a
  · exact h

theorem OnlyChanges.ite {ps : List Part} {c : Prop} [Decidable c] {s t u : State} (a : OnlyChanges ps s t) (b : OnlyChanges ps s u) :
    OnlyChanges ps s (if c then t else u) := by
  split
  · exact a
  · exact b

theorem ReplyChanges.ite {ps : List Part} {c : Prop} [Decidable c] {s : State} {q r : Reply} (a : ReplyChanges ps s q)
    (b : ReplyChanges ps s r) : ReplyChanges ps s (if c then q else r) := by
  split
  · exact a
  · exact b

theorem OnlyChanges.cond {ps : List Part} {c : Bool} {f : State → State} {s t : State} (h : ∀ u, OnlyChanges ps u (f u))
    (a : OnlyChanges ps s t) : OnlyChanges ps s (when c f t) := by
  unfold when; split
  · exact a.trans (h t)
  · exact a

theorem OnlyChanges.each {α : Type} {ps : List Part} {f : α → State → State} (h : ∀ a u, OnlyChanges ps u (f a u)) :
    ∀ (l : List α) {s t : State}, OnlyChanges ps s t → OnlyChanges ps s (forEach l f t)
  | [], _, _, a => a
  | x :: r, _, t, a => OnlyChanges.each h r (a.trans (h x t))

/-- A fold whose accumulator carries the state. -/
theorem OnlyChanges.foldl {α β : Type} {ps : List Part} {s : State} (g : β → State) {f : β → α → β}
    (h : ∀ b x, OnlyChanges ps (g b) (g (f b x))) : ∀ (l : List α) (b : β), OnlyChanges ps s (g b) → OnlyChanges ps s (g (l.foldl f b))
  | [], _, a => a
  | x :: r, b, a => OnlyChanges.foldl g h r (f b x) (a.trans (h b x))

/-! One field. -/

theorem only_pins (s : State) (x : Pins) : OnlyChanges [.pins] s { s with pins := x } := by
  intro p hp; cases p <;> first | rfl | cases hp
theorem only_sill (s : State) (x : Sill) : OnlyChanges [.sill] s { s with sill := x } := by
  intro p hp; cases p <;> first | rfl | cases hp
theorem only_power (s : State) (x : Power) : OnlyChanges [.power] s { s with power := x } := by
  intro p hp; cases p <;> first | rfl | cases hp
theorem only_otp (s : State) (x : Otp) : OnlyChanges [.otp] s { s with otp := x } := by
  intro p hp; cases p <;> first | rfl | cases hp
theorem only_flash (s : State) (x : Tbl Byte) : OnlyChanges [.flash] s { s with flash := x } := by
  intro p hp; cases p <;> first | rfl | cases hp
theorem only_fw (s : State) (x : Fw) : OnlyChanges [.fw] s { s with fw := x } := by
  intro p hp; cases p <;> first | rfl | cases hp
theorem only_control (s : State) (x : Control) : OnlyChanges [.control] s { s with control := x } := by
  intro p hp; cases p <;> first | rfl | cases hp
theorem only_counters (s : State) (x : Counters) : OnlyChanges [.counters] s { s with counters := x } := by
  intro p hp; cases p <;> first | rfl | cases hp
theorem only_stream (s : State) (x : StreamPort) : OnlyChanges [.stream] s { s with stream := x } := by
  intro p hp; cases p <;> first | rfl | cases hp
theorem only_domain (s : State) (x : Domain) : OnlyChanges [.domain] s { s with domain := x } := by
  intro p hp; cases p <;> first | rfl | cases hp
theorem only_cal (s : State) (x : Tbl Cal) : OnlyChanges [.cal] s { s with cal := x } := by
  intro p hp; cases p <;> first | rfl | cases hp
theorem only_elements (s : State) (x : Tbl Element) : OnlyChanges [.elements] s { s with elements := x } := by
  intro p hp; cases p <;> first | rfl | cases hp
theorem only_carrier (s : State) (x : Tbl CarrierUnit) : OnlyChanges [.carrier] s { s with carrier := x } := by
  intro p hp; cases p <;> first | rfl | cases hp
theorem only_joinery (s : State) (x : Joinery) : OnlyChanges [.joinery] s { s with joinery := x } := by
  intro p hp; cases p <;> first | rfl | cases hp
theorem only_framer (s : State) (x : Tbl Framer) : OnlyChanges [.framer] s { s with framer := x } := by
  intro p hp; cases p <;> first | rfl | cases hp
theorem only_client (s : State) (x : Clients) : OnlyChanges [.client] s { s with client := x } := by
  intro p hp; cases p <;> first | rfl | cases hp
theorem only_sched (s : State) (x : Sched) : OnlyChanges [.sched] s { s with sched := x } := by
  intro p hp; cases p <;> first | rfl | cases hp
theorem only_memory (s : State) (x : Memory) : OnlyChanges [.memory] s { s with memory := x } := by
  intro p hp; cases p <;> first | rfl | cases hp
theorem only_protect (s : State) (x : Protect) : OnlyChanges [.protect] s { s with protect := x } := by
  intro p hp; cases p <;> first | rfl | cases hp
theorem only_security (s : State) (x : Security) : OnlyChanges [.security] s { s with security := x } := by
  intro p hp; cases p <;> first | rfl | cases hp
theorem only_timing (s : State) (x : Timing) : OnlyChanges [.timing] s { s with timing := x } := by
  intro p hp; cases p <;> first | rfl | cases hp
theorem only_monitor (s : State) (x : Monitor) : OnlyChanges [.monitor] s { s with monitor := x } := by
  intro p hp; cases p <;> first | rfl | cases hp
theorem only_localNs (s : State) (x : Nat) : OnlyChanges [.localNs] s { s with localNs := x } := by
  intro p hp; cases p <;> first | rfl | cases hp
theorem only_fresh (s : State) (x : Nat) : OnlyChanges [.fresh] s { s with fresh := x } := by
  intro p hp; cases p <;> first | rfl | cases hp

theorem set_pins {qs : List Part} {s t : State} (x : Pins) (a : OnlyChanges qs s t) (h : qs.contains .pins = true) :
    OnlyChanges qs s { t with pins := x } := (only_pins t x).after a (by rw [List.all_cons, List.all_nil, Bool.and_true]; exact h)
theorem set_sill {qs : List Part} {s t : State} (x : Sill) (a : OnlyChanges qs s t) (h : qs.contains .sill = true) :
    OnlyChanges qs s { t with sill := x } := (only_sill t x).after a (by rw [List.all_cons, List.all_nil, Bool.and_true]; exact h)
theorem set_power {qs : List Part} {s t : State} (x : Power) (a : OnlyChanges qs s t) (h : qs.contains .power = true) :
    OnlyChanges qs s { t with power := x } := (only_power t x).after a (by rw [List.all_cons, List.all_nil, Bool.and_true]; exact h)
theorem set_otp {qs : List Part} {s t : State} (x : Otp) (a : OnlyChanges qs s t) (h : qs.contains .otp = true) :
    OnlyChanges qs s { t with otp := x } := (only_otp t x).after a (by rw [List.all_cons, List.all_nil, Bool.and_true]; exact h)
theorem set_flash {qs : List Part} {s t : State} (x : Tbl Byte) (a : OnlyChanges qs s t) (h : qs.contains .flash = true) :
    OnlyChanges qs s { t with flash := x } := (only_flash t x).after a (by rw [List.all_cons, List.all_nil, Bool.and_true]; exact h)
theorem set_fw {qs : List Part} {s t : State} (x : Fw) (a : OnlyChanges qs s t) (h : qs.contains .fw = true) :
    OnlyChanges qs s { t with fw := x } := (only_fw t x).after a (by rw [List.all_cons, List.all_nil, Bool.and_true]; exact h)
theorem set_control {qs : List Part} {s t : State} (x : Control) (a : OnlyChanges qs s t) (h : qs.contains .control = true) :
    OnlyChanges qs s { t with control := x } := (only_control t x).after a (by rw [List.all_cons, List.all_nil, Bool.and_true]; exact h)
theorem set_counters {qs : List Part} {s t : State} (x : Counters) (a : OnlyChanges qs s t) (h : qs.contains .counters = true) :
    OnlyChanges qs s { t with counters := x } := (only_counters t x).after a (by rw [List.all_cons, List.all_nil, Bool.and_true]; exact h)
theorem set_stream {qs : List Part} {s t : State} (x : StreamPort) (a : OnlyChanges qs s t) (h : qs.contains .stream = true) :
    OnlyChanges qs s { t with stream := x } := (only_stream t x).after a (by rw [List.all_cons, List.all_nil, Bool.and_true]; exact h)
theorem set_domain {qs : List Part} {s t : State} (x : Domain) (a : OnlyChanges qs s t) (h : qs.contains .domain = true) :
    OnlyChanges qs s { t with domain := x } := (only_domain t x).after a (by rw [List.all_cons, List.all_nil, Bool.and_true]; exact h)
theorem set_cal {qs : List Part} {s t : State} (x : Tbl Cal) (a : OnlyChanges qs s t) (h : qs.contains .cal = true) :
    OnlyChanges qs s { t with cal := x } := (only_cal t x).after a (by rw [List.all_cons, List.all_nil, Bool.and_true]; exact h)
theorem set_elements {qs : List Part} {s t : State} (x : Tbl Element) (a : OnlyChanges qs s t) (h : qs.contains .elements = true) :
    OnlyChanges qs s { t with elements := x } := (only_elements t x).after a (by rw [List.all_cons, List.all_nil, Bool.and_true]; exact h)
theorem set_carrier {qs : List Part} {s t : State} (x : Tbl CarrierUnit) (a : OnlyChanges qs s t) (h : qs.contains .carrier = true) :
    OnlyChanges qs s { t with carrier := x } := (only_carrier t x).after a (by rw [List.all_cons, List.all_nil, Bool.and_true]; exact h)
theorem set_joinery {qs : List Part} {s t : State} (x : Joinery) (a : OnlyChanges qs s t) (h : qs.contains .joinery = true) :
    OnlyChanges qs s { t with joinery := x } := (only_joinery t x).after a (by rw [List.all_cons, List.all_nil, Bool.and_true]; exact h)
theorem set_framer {qs : List Part} {s t : State} (x : Tbl Framer) (a : OnlyChanges qs s t) (h : qs.contains .framer = true) :
    OnlyChanges qs s { t with framer := x } := (only_framer t x).after a (by rw [List.all_cons, List.all_nil, Bool.and_true]; exact h)
theorem set_client {qs : List Part} {s t : State} (x : Clients) (a : OnlyChanges qs s t) (h : qs.contains .client = true) :
    OnlyChanges qs s { t with client := x } := (only_client t x).after a (by rw [List.all_cons, List.all_nil, Bool.and_true]; exact h)
theorem set_sched {qs : List Part} {s t : State} (x : Sched) (a : OnlyChanges qs s t) (h : qs.contains .sched = true) :
    OnlyChanges qs s { t with sched := x } := (only_sched t x).after a (by rw [List.all_cons, List.all_nil, Bool.and_true]; exact h)
theorem set_memory {qs : List Part} {s t : State} (x : Memory) (a : OnlyChanges qs s t) (h : qs.contains .memory = true) :
    OnlyChanges qs s { t with memory := x } := (only_memory t x).after a (by rw [List.all_cons, List.all_nil, Bool.and_true]; exact h)
theorem set_protect {qs : List Part} {s t : State} (x : Protect) (a : OnlyChanges qs s t) (h : qs.contains .protect = true) :
    OnlyChanges qs s { t with protect := x } := (only_protect t x).after a (by rw [List.all_cons, List.all_nil, Bool.and_true]; exact h)
theorem set_security {qs : List Part} {s t : State} (x : Security) (a : OnlyChanges qs s t) (h : qs.contains .security = true) :
    OnlyChanges qs s { t with security := x } := (only_security t x).after a (by rw [List.all_cons, List.all_nil, Bool.and_true]; exact h)
theorem set_timing {qs : List Part} {s t : State} (x : Timing) (a : OnlyChanges qs s t) (h : qs.contains .timing = true) :
    OnlyChanges qs s { t with timing := x } := (only_timing t x).after a (by rw [List.all_cons, List.all_nil, Bool.and_true]; exact h)
theorem set_monitor {qs : List Part} {s t : State} (x : Monitor) (a : OnlyChanges qs s t) (h : qs.contains .monitor = true) :
    OnlyChanges qs s { t with monitor := x } := (only_monitor t x).after a (by rw [List.all_cons, List.all_nil, Bool.and_true]; exact h)
theorem set_localNs {qs : List Part} {s t : State} (x : Nat) (a : OnlyChanges qs s t) (h : qs.contains .localNs = true) :
    OnlyChanges qs s { t with localNs := x } := (only_localNs t x).after a (by rw [List.all_cons, List.all_nil, Bool.and_true]; exact h)
theorem set_fresh {qs : List Part} {s t : State} (x : Nat) (a : OnlyChanges qs s t) (h : qs.contains .fresh = true) :
    OnlyChanges qs s { t with fresh := x } := (only_fresh t x).after a (by rw [List.all_cons, List.all_nil, Bool.and_true]; exact h)

end Sys2Proof.Machine
end

