-- ==== Sys2Proof/Laws/FrameOps.lean ====
section
/-! SUPPORT. What each operation of Ops.lean may change. -/

-- One theorem after another: with a thread for each, the package as one text outgrows the checker's memory limit.
set_option Elab.async false

namespace Sys2Proof.Machine

theorem modPins_only (f : Pins → Pins) (s : State) :
    OnlyChanges [.pins] s (modPins f s) := by
  unfold modPins
  repeat' first
    | with_reducible exact OnlyChanges.refl _ _
    | with_reducible assumption
    | with_reducible apply OnlyChanges.ite
    | ((with_reducible refine Part.nested ?_); rfl)
    | ((with_reducible refine Part.held ?_); rfl)
    | split
    | dsimp only
    | dsimp only [id]
    | with_reducible apply set_pins
theorem modPins_frame {qs : List Part} {s t : State} (f : Pins → Pins) (a : OnlyChanges qs s t) (h : ([.pins] : List Part).all (fun p => qs.contains p) = true) :
    OnlyChanges qs s (modPins f t) := OnlyChanges.after (modPins_only f t) a h

theorem modSill_only (f : Sill → Sill) (s : State) :
    OnlyChanges [.sill] s (modSill f s) := by
  unfold modSill
  repeat' first
    | with_reducible exact OnlyChanges.refl _ _
    | with_reducible assumption
    | with_reducible apply OnlyChanges.ite
    | ((with_reducible refine Part.nested ?_); rfl)
    | ((with_reducible refine Part.held ?_); rfl)
    | split
    | dsimp only
    | dsimp only [id]
    | with_reducible apply set_sill
theorem modSill_frame {qs : List Part} {s t : State} (f : Sill → Sill) (a : OnlyChanges qs s t) (h : ([.sill] : List Part).all (fun p => qs.contains p) = true) :
    OnlyChanges qs s (modSill f t) := OnlyChanges.after (modSill_only f t) a h

theorem modPower_only (f : Power → Power) (s : State) :
    OnlyChanges [.power] s (modPower f s) := by
  unfold modPower
  repeat' first
    | with_reducible exact OnlyChanges.refl _ _
    | with_reducible assumption
    | with_reducible apply OnlyChanges.ite
    | ((with_reducible refine Part.nested ?_); rfl)
    | ((with_reducible refine Part.held ?_); rfl)
    | split
    | dsimp only
    | dsimp only [id]
    | with_reducible apply set_power
theorem modPower_frame {qs : List Part} {s t : State} (f : Power → Power) (a : OnlyChanges qs s t) (h : ([.power] : List Part).all (fun p => qs.contains p) = true) :
    OnlyChanges qs s (modPower f t) := OnlyChanges.after (modPower_only f t) a h

theorem modFw_only (f : Fw → Fw) (s : State) :
    OnlyChanges [.fw] s (modFw f s) := by
  unfold modFw
  repeat' first
    | with_reducible exact OnlyChanges.refl _ _
    | with_reducible assumption
    | with_reducible apply OnlyChanges.ite
    | ((with_reducible refine Part.nested ?_); rfl)
    | ((with_reducible refine Part.held ?_); rfl)
    | split
    | dsimp only
    | dsimp only [id]
    | with_reducible apply set_fw
theorem modFw_frame {qs : List Part} {s t : State} (f : Fw → Fw) (a : OnlyChanges qs s t) (h : ([.fw] : List Part).all (fun p => qs.contains p) = true) :
    OnlyChanges qs s (modFw f t) := OnlyChanges.after (modFw_only f t) a h

theorem modControl_only (f : Control → Control) (s : State) :
    OnlyChanges [.control] s (modControl f s) := by
  unfold modControl
  repeat' first
    | with_reducible exact OnlyChanges.refl _ _
    | with_reducible assumption
    | with_reducible apply OnlyChanges.ite
    | ((with_reducible refine Part.nested ?_); rfl)
    | ((with_reducible refine Part.held ?_); rfl)
    | split
    | dsimp only
    | dsimp only [id]
    | with_reducible apply set_control
theorem modControl_frame {qs : List Part} {s t : State} (f : Control → Control) (a : OnlyChanges qs s t) (h : ([.control] : List Part).all (fun p => qs.contains p) = true) :
    OnlyChanges qs s (modControl f t) := OnlyChanges.after (modControl_only f t) a h

theorem modStream_only (f : StreamPort → StreamPort) (s : State) :
    OnlyChanges [.stream] s (modStream f s) := by
  unfold modStream
  repeat' first
    | with_reducible exact OnlyChanges.refl _ _
    | with_reducible assumption
    | with_reducible apply OnlyChanges.ite
    | ((with_reducible refine Part.nested ?_); rfl)
    | ((with_reducible refine Part.held ?_); rfl)
    | split
    | dsimp only
    | dsimp only [id]
    | with_reducible apply set_stream
theorem modStream_frame {qs : List Part} {s t : State} (f : StreamPort → StreamPort) (a : OnlyChanges qs s t) (h : ([.stream] : List Part).all (fun p => qs.contains p) = true) :
    OnlyChanges qs s (modStream f t) := OnlyChanges.after (modStream_only f t) a h

theorem modDomain_only (f : Domain → Domain) (s : State) :
    OnlyChanges [.domain] s (modDomain f s) := by
  unfold modDomain
  repeat' first
    | with_reducible exact OnlyChanges.refl _ _
    | with_reducible assumption
    | with_reducible apply OnlyChanges.ite
    | ((with_reducible refine Part.nested ?_); rfl)
    | ((with_reducible refine Part.held ?_); rfl)
    | split
    | dsimp only
    | dsimp only [id]
    | with_reducible apply set_domain
theorem modDomain_frame {qs : List Part} {s t : State} (f : Domain → Domain) (a : OnlyChanges qs s t) (h : ([.domain] : List Part).all (fun p => qs.contains p) = true) :
    OnlyChanges qs s (modDomain f t) := OnlyChanges.after (modDomain_only f t) a h

theorem modSecurity_only (f : Security → Security) (s : State) :
    OnlyChanges [.security] s (modSecurity f s) := by
  unfold modSecurity
  repeat' first
    | with_reducible exact OnlyChanges.refl _ _
    | with_reducible assumption
    | with_reducible apply OnlyChanges.ite
    | ((with_reducible refine Part.nested ?_); rfl)
    | ((with_reducible refine Part.held ?_); rfl)
    | split
    | dsimp only
    | dsimp only [id]
    | with_reducible apply set_security
theorem modSecurity_frame {qs : List Part} {s t : State} (f : Security → Security) (a : OnlyChanges qs s t) (h : ([.security] : List Part).all (fun p => qs.contains p) = true) :
    OnlyChanges qs s (modSecurity f t) := OnlyChanges.after (modSecurity_only f t) a h

theorem modTiming_only (f : Timing → Timing) (s : State) :
    OnlyChanges [.timing] s (modTiming f s) := by
  unfold modTiming
  repeat' first
    | with_reducible exact OnlyChanges.refl _ _
    | with_reducible assumption
    | with_reducible apply OnlyChanges.ite
    | ((with_reducible refine Part.nested ?_); rfl)
    | ((with_reducible refine Part.held ?_); rfl)
    | split
    | dsimp only
    | dsimp only [id]
    | with_reducible apply set_timing
theorem modTiming_frame {qs : List Part} {s t : State} (f : Timing → Timing) (a : OnlyChanges qs s t) (h : ([.timing] : List Part).all (fun p => qs.contains p) = true) :
    OnlyChanges qs s (modTiming f t) := OnlyChanges.after (modTiming_only f t) a h

theorem modJoinery_only (f : Joinery → Joinery) (s : State) :
    OnlyChanges [.joinery] s (modJoinery f s) := by
  unfold modJoinery
  repeat' first
    | with_reducible exact OnlyChanges.refl _ _
    | with_reducible assumption
    | with_reducible apply OnlyChanges.ite
    | ((with_reducible refine Part.nested ?_); rfl)
    | ((with_reducible refine Part.held ?_); rfl)
    | split
    | dsimp only
    | dsimp only [id]
    | with_reducible apply set_joinery
theorem modJoinery_frame {qs : List Part} {s t : State} (f : Joinery → Joinery) (a : OnlyChanges qs s t) (h : ([.joinery] : List Part).all (fun p => qs.contains p) = true) :
    OnlyChanges qs s (modJoinery f t) := OnlyChanges.after (modJoinery_only f t) a h

theorem modCu_only (x0 : Nat) (f : CarrierUnit → CarrierUnit) (s : State) :
    OnlyChanges [.carrier] s (modCu x0 f s) := by
  unfold modCu
  repeat' first
    | with_reducible exact OnlyChanges.refl _ _
    | with_reducible assumption
    | with_reducible apply OnlyChanges.ite
    | ((with_reducible refine Part.nested ?_); rfl)
    | ((with_reducible refine Part.held ?_); rfl)
    | split
    | dsimp only
    | dsimp only [id]
    | with_reducible apply set_carrier
theorem modCu_frame {qs : List Part} {s t : State} (x0 : Nat) (f : CarrierUnit → CarrierUnit) (a : OnlyChanges qs s t) (h : ([.carrier] : List Part).all (fun p => qs.contains p) = true) :
    OnlyChanges qs s (modCu x0 f t) := OnlyChanges.after (modCu_only x0 f t) a h

theorem modFramer_only (x0 : Nat) (f : Framer → Framer) (s : State) :
    OnlyChanges [.framer] s (modFramer x0 f s) := by
  unfold modFramer
  repeat' first
    | with_reducible exact OnlyChanges.refl _ _
    | with_reducible assumption
    | with_reducible apply OnlyChanges.ite
    | ((with_reducible refine Part.nested ?_); rfl)
    | ((with_reducible refine Part.held ?_); rfl)
    | split
    | dsimp only
    | dsimp only [id]
    | with_reducible apply set_framer
theorem modFramer_frame {qs : List Part} {s t : State} (x0 : Nat) (f : Framer → Framer) (a : OnlyChanges qs s t) (h : ([.framer] : List Part).all (fun p => qs.contains p) = true) :
    OnlyChanges qs s (modFramer x0 f t) := OnlyChanges.after (modFramer_only x0 f t) a h

theorem modCal_only (x0 : Nat) (f : Cal → Cal) (s : State) :
    OnlyChanges [.cal] s (modCal x0 f s) := by
  unfold modCal
  repeat' first
    | with_reducible exact OnlyChanges.refl _ _
    | with_reducible assumption
    | with_reducible apply OnlyChanges.ite
    | ((with_reducible refine Part.nested ?_); rfl)
    | ((with_reducible refine Part.held ?_); rfl)
    | split
    | dsimp only
    | dsimp only [id]
    | with_reducible apply set_cal
theorem modCal_frame {qs : List Part} {s t : State} (x0 : Nat) (f : Cal → Cal) (a : OnlyChanges qs s t) (h : ([.cal] : List Part).all (fun p => qs.contains p) = true) :
    OnlyChanges qs s (modCal x0 f t) := OnlyChanges.after (modCal_only x0 f t) a h

theorem modDom_only (cls : Nat) (idx : Nat) (f : PowerDomain → PowerDomain) (s : State) :
    OnlyChanges [.power] s (modDom cls idx f s) := by
  unfold modDom
  repeat' first
    | with_reducible exact OnlyChanges.refl _ _
    | with_reducible assumption
    | with_reducible apply OnlyChanges.ite
    | with_reducible apply modPower_frame
    | ((with_reducible refine Part.nested ?_); rfl)
    | ((with_reducible refine Part.held ?_); rfl)
    | split
    | dsimp only
    | dsimp only [id]
theorem modDom_frame {qs : List Part} {s t : State} (cls : Nat) (idx : Nat) (f : PowerDomain → PowerDomain) (a : OnlyChanges qs s t) (h : ([.power] : List Part).all (fun p => qs.contains p) = true) :
    OnlyChanges qs s (modDom cls idx f t) := OnlyChanges.after (modDom_only cls idx f t) a h

theorem modChannel_only (x0 : Nat) (d : Nat) (f : Channel → Channel) (s : State) :
    OnlyChanges [.security] s (modChannel x0 d f s) := by
  unfold modChannel
  repeat' first
    | with_reducible exact OnlyChanges.refl _ _
    | with_reducible assumption
    | with_reducible apply OnlyChanges.ite
    | with_reducible apply modSecurity_frame
    | ((with_reducible refine Part.nested ?_); rfl)
    | ((with_reducible refine Part.held ?_); rfl)
    | split
    | dsimp only
    | dsimp only [id]
theorem modChannel_frame {qs : List Part} {s t : State} (x0 : Nat) (d : Nat) (f : Channel → Channel) (a : OnlyChanges qs s t) (h : ([.security] : List Part).all (fun p => qs.contains p) = true) :
    OnlyChanges qs s (modChannel x0 d f t) := OnlyChanges.after (modChannel_only x0 d f t) a h

theorem modSlot_only (i : Nat) (f : KeySlot → KeySlot) (s : State) :
    OnlyChanges [.security] s (modSlot i f s) := by
  unfold modSlot
  repeat' first
    | with_reducible exact OnlyChanges.refl _ _
    | with_reducible assumption
    | with_reducible apply OnlyChanges.ite
    | with_reducible apply modSecurity_frame
    | ((with_reducible refine Part.nested ?_); rfl)
    | ((with_reducible refine Part.held ?_); rfl)
    | split
    | dsimp only
    | dsimp only [id]
theorem modSlot_frame {qs : List Part} {s t : State} (i : Nat) (f : KeySlot → KeySlot) (a : OnlyChanges qs s t) (h : ([.security] : List Part).all (fun p => qs.contains p) = true) :
    OnlyChanges qs s (modSlot i f t) := OnlyChanges.after (modSlot_only i f t) a h

theorem modSource_only (k : Nat) (f : Source → Source) (s : State) :
    OnlyChanges [.timing] s (modSource k f s) := by
  unfold modSource
  repeat' first
    | with_reducible exact OnlyChanges.refl _ _
    | with_reducible assumption
    | with_reducible apply OnlyChanges.ite
    | with_reducible apply modTiming_frame
    | ((with_reducible refine Part.nested ?_); rfl)
    | ((with_reducible refine Part.held ?_); rfl)
    | split
    | dsimp only
    | dsimp only [id]
theorem modSource_frame {qs : List Part} {s t : State} (k : Nat) (f : Source → Source) (a : OnlyChanges qs s t) (h : ([.timing] : List Part).all (fun p => qs.contains p) = true) :
    OnlyChanges qs s (modSource k f t) := OnlyChanges.after (modSource_only k f t) a h

theorem modTenon_only (p : Nat) (f : TenonPort → TenonPort) (s : State) :
    OnlyChanges [.domain] s (modTenon p f s) := by
  unfold modTenon
  repeat' first
    | with_reducible exact OnlyChanges.refl _ _
    | with_reducible assumption
    | with_reducible apply OnlyChanges.ite
    | with_reducible apply modDomain_frame
    | ((with_reducible refine Part.nested ?_); rfl)
    | ((with_reducible refine Part.held ?_); rfl)
    | split
    | dsimp only
    | dsimp only [id]
theorem modTenon_frame {qs : List Part} {s t : State} (p : Nat) (f : TenonPort → TenonPort) (a : OnlyChanges qs s t) (h : ([.domain] : List Part).all (fun p => qs.contains p) = true) :
    OnlyChanges qs s (modTenon p f t) := OnlyChanges.after (modTenon_only p f t) a h

theorem modCountUnit_only (x0 : Nat) (f : CountUnit → CountUnit) (s : State) :
    OnlyChanges [.counters] s (modCountUnit x0 f s) := by
  unfold modCountUnit
  repeat' first
    | with_reducible exact OnlyChanges.refl _ _
    | with_reducible assumption
    | with_reducible apply OnlyChanges.ite
    | ((with_reducible refine Part.nested ?_); rfl)
    | ((with_reducible refine Part.held ?_); rfl)
    | split
    | dsimp only
    | dsimp only [id]
    | with_reducible apply set_counters
theorem modCountUnit_frame {qs : List Part} {s t : State} (x0 : Nat) (f : CountUnit → CountUnit) (a : OnlyChanges qs s t) (h : ([.counters] : List Part).all (fun p => qs.contains p) = true) :
    OnlyChanges qs s (modCountUnit x0 f t) := OnlyChanges.after (modCountUnit_only x0 f t) a h

theorem drawNat_only (s : State) :
    PairChanges [.fresh] s (drawNat s) := by
  unfold drawNat
  repeat' first
    | with_reducible exact OnlyChanges.refl _ _
    | with_reducible assumption
    | with_reducible apply PairChanges.ite
    | with_reducible apply OnlyChanges.ite
    | ((with_reducible refine Part.nested ?_); rfl)
    | ((with_reducible refine Part.held ?_); rfl)
    | split
    | dsimp only
    | dsimp only [id]
    | with_reducible apply PairChanges.mk
    | with_reducible apply set_fresh
theorem drawNat_frame {qs : List Part} {s t : State}  (a : OnlyChanges qs s t) (h : ([.fresh] : List Part).all (fun p => qs.contains p) = true) :
    OnlyChanges qs s (drawNat t).2 := OnlyChanges.after (drawNat_only t) a h
theorem drawNat_pair {qs : List Part} {s t : State}  (a : OnlyChanges qs s t) (h : ([.fresh] : List Part).all (fun p => qs.contains p) = true) :
    PairChanges qs s (drawNat t) := OnlyChanges.after (drawNat_only t) a h
theorem drawNat_snd {qs : List Part} {s t u : State}  {y : _} (e : (drawNat t) = (y, u)) (a : OnlyChanges qs s t) (h : ([.fresh] : List Part).all (fun p => qs.contains p) = true) :
    OnlyChanges qs s u := PairChanges.snd (drawNat_only t) e a h

theorem drawInt_only (s : State) :
    PairChanges [.fresh] s (drawInt s) := by
  unfold drawInt
  repeat' first
    | with_reducible exact OnlyChanges.refl _ _
    | with_reducible assumption
    | with_reducible apply PairChanges.ite
    | with_reducible apply OnlyChanges.ite
    | ((with_reducible refine Part.nested ?_); rfl)
    | ((with_reducible refine Part.held ?_); rfl)
    | split
    | dsimp only
    | dsimp only [id]
    | with_reducible apply PairChanges.mk
    | with_reducible apply set_fresh
theorem drawInt_frame {qs : List Part} {s t : State}  (a : OnlyChanges qs s t) (h : ([.fresh] : List Part).all (fun p => qs.contains p) = true) :
    OnlyChanges qs s (drawInt t).2 := OnlyChanges.after (drawInt_only t) a h
theorem drawInt_pair {qs : List Part} {s t : State}  (a : OnlyChanges qs s t) (h : ([.fresh] : List Part).all (fun p => qs.contains p) = true) :
    PairChanges qs s (drawInt t) := OnlyChanges.after (drawInt_only t) a h
theorem drawInt_snd {qs : List Part} {s t u : State}  {y : _} (e : (drawInt t) = (y, u)) (a : OnlyChanges qs s t) (h : ([.fresh] : List Part).all (fun p => qs.contains p) = true) :
    OnlyChanges qs s u := PairChanges.snd (drawInt_only t) e a h

theorem drawBelow_only (n : Nat) (s : State) :
    PairChanges [.fresh] s (drawBelow n s) := by
  unfold drawBelow
  repeat' first
    | with_reducible exact OnlyChanges.refl _ _
    | with_reducible assumption
    | with_reducible apply PairChanges.ite
    | with_reducible apply OnlyChanges.ite
    | ((with_reducible refine Part.nested ?_); rfl)
    | ((with_reducible refine Part.held ?_); rfl)
    | split
    | dsimp only
    | dsimp only [id]
    | with_reducible apply PairChanges.mk
    | with_reducible apply set_fresh
theorem drawBelow_frame {qs : List Part} {s t : State} (n : Nat) (a : OnlyChanges qs s t) (h : ([.fresh] : List Part).all (fun p => qs.contains p) = true) :
    OnlyChanges qs s (drawBelow n t).2 := OnlyChanges.after (drawBelow_only n t) a h
theorem drawBelow_pair {qs : List Part} {s t : State} (n : Nat) (a : OnlyChanges qs s t) (h : ([.fresh] : List Part).all (fun p => qs.contains p) = true) :
    PairChanges qs s (drawBelow n t) := OnlyChanges.after (drawBelow_only n t) a h
theorem drawBelow_snd {qs : List Part} {s t u : State} {n : Nat} {y : _} (e : (drawBelow n t) = (y, u)) (a : OnlyChanges qs s t) (h : ([.fresh] : List Part).all (fun p => qs.contains p) = true) :
    OnlyChanges qs s u := PairChanges.snd (drawBelow_only n t) e a h

theorem drawPick_only (k : Nat) (s : State) :
    PairChanges [.fresh] s (drawPick k s) := by
  unfold drawPick
  repeat' first
    | with_reducible exact OnlyChanges.refl _ _
    | with_reducible assumption
    | with_reducible apply PairChanges.ite
    | with_reducible apply OnlyChanges.ite
    | ((with_reducible refine Part.nested ?_); rfl)
    | ((with_reducible refine Part.held ?_); rfl)
    | split
    | dsimp only
    | dsimp only [id]
    | with_reducible apply PairChanges.mk
    | with_reducible apply set_fresh
theorem drawPick_frame {qs : List Part} {s t : State} (k : Nat) (a : OnlyChanges qs s t) (h : ([.fresh] : List Part).all (fun p => qs.contains p) = true) :
    OnlyChanges qs s (drawPick k t).2 := OnlyChanges.after (drawPick_only k t) a h
theorem drawPick_pair {qs : List Part} {s t : State} (k : Nat) (a : OnlyChanges qs s t) (h : ([.fresh] : List Part).all (fun p => qs.contains p) = true) :
    PairChanges qs s (drawPick k t) := OnlyChanges.after (drawPick_only k t) a h
theorem drawPick_snd {qs : List Part} {s t u : State} {k : Nat} {y : _} (e : (drawPick k t) = (y, u)) (a : OnlyChanges qs s t) (h : ([.fresh] : List Part).all (fun p => qs.contains p) = true) :
    OnlyChanges qs s u := PairChanges.snd (drawPick_only k t) e a h

theorem drawBytes_only (n : Nat) (s : State) :
    PairChanges [.fresh] s (drawBytes n s) := by
  unfold drawBytes
  repeat' first
    | with_reducible exact OnlyChanges.refl _ _
    | with_reducible assumption
    | with_reducible apply PairChanges.ite
    | with_reducible apply OnlyChanges.ite
    | ((with_reducible refine Part.nested ?_); rfl)
    | ((with_reducible refine Part.held ?_); rfl)
    | split
    | dsimp only
    | dsimp only [id]
    | with_reducible apply PairChanges.mk
    | with_reducible apply set_fresh
theorem drawBytes_frame {qs : List Part} {s t : State} (n : Nat) (a : OnlyChanges qs s t) (h : ([.fresh] : List Part).all (fun p => qs.contains p) = true) :
    OnlyChanges qs s (drawBytes n t).2 := OnlyChanges.after (drawBytes_only n t) a h
theorem drawBytes_pair {qs : List Part} {s t : State} (n : Nat) (a : OnlyChanges qs s t) (h : ([.fresh] : List Part).all (fun p => qs.contains p) = true) :
    PairChanges qs s (drawBytes n t) := OnlyChanges.after (drawBytes_only n t) a h
theorem drawBytes_snd {qs : List Part} {s t u : State} {n : Nat} {y : _} (e : (drawBytes n t) = (y, u)) (a : OnlyChanges qs s t) (h : ([.fresh] : List Part).all (fun p => qs.contains p) = true) :
    OnlyChanges qs s u := PairChanges.snd (drawBytes_only n t) e a h

theorem bump_only (fam : Nat) (inst : Nat) (ev : Nat) (n : Nat) (s : State) :
    OnlyChanges [.counters] s (bump fam inst ev n s) := by
  unfold bump
  repeat' first
    | with_reducible exact OnlyChanges.refl _ _
    | with_reducible assumption
    | with_reducible apply OnlyChanges.ite
    | with_reducible apply modCountUnit_frame
    | ((with_reducible refine Part.nested ?_); rfl)
    | ((with_reducible refine Part.held ?_); rfl)
    | split
    | dsimp only
    | dsimp only [id]
    | with_reducible apply set_counters
theorem bump_frame {qs : List Part} {s t : State} (fam : Nat) (inst : Nat) (ev : Nat) (n : Nat) (a : OnlyChanges qs s t) (h : ([.counters] : List Part).all (fun p => qs.contains p) = true) :
    OnlyChanges qs s (bump fam inst ev n t) := OnlyChanges.after (bump_only fam inst ev n t) a h

theorem setLive_only (fam : Nat) (inst : Nat) (ev : Nat) (n : Nat) (s : State) :
    OnlyChanges [.counters] s (setLive fam inst ev n s) := by
  unfold setLive
  repeat' first
    | with_reducible exact OnlyChanges.refl _ _
    | with_reducible assumption
    | with_reducible apply OnlyChanges.ite
    | ((with_reducible refine Part.nested ?_); rfl)
    | ((with_reducible refine Part.held ?_); rfl)
    | split
    | dsimp only
    | dsimp only [id]
    | with_reducible apply set_counters
theorem setLive_frame {qs : List Part} {s t : State} (fam : Nat) (inst : Nat) (ev : Nat) (n : Nat) (a : OnlyChanges qs s t) (h : ([.counters] : List Part).all (fun p => qs.contains p) = true) :
    OnlyChanges qs s (setLive fam inst ev n t) := OnlyChanges.after (setLive_only fam inst ev n t) a h

theorem writeRecord_only (x0 : Nat) (kind : Nat) (r : List Byte) (s : State) :
    OnlyChanges [.counters] s (writeRecord x0 kind r s) := by
  unfold writeRecord
  repeat' first
    | with_reducible exact OnlyChanges.refl _ _
    | with_reducible assumption
    | with_reducible apply OnlyChanges.ite
    | with_reducible apply modCountUnit_frame
    | ((with_reducible refine Part.nested ?_); rfl)
    | ((with_reducible refine Part.held ?_); rfl)
    | split
    | dsimp only
    | dsimp only [id]
theorem writeRecord_frame {qs : List Part} {s t : State} (x0 : Nat) (kind : Nat) (r : List Byte) (a : OnlyChanges qs s t) (h : ([.counters] : List Part).all (fun p => qs.contains p) = true) :
    OnlyChanges qs s (writeRecord x0 kind r t) := OnlyChanges.after (writeRecord_only x0 kind r t) a h

theorem traceItem_only (x0 : Nat) (dir : Nat) (inst : Nat) (flags : Nat) (item : Nat) (queue : Nat) (addr : Nat) (latency : Nat) (len : Nat) (s : State) :
    OnlyChanges [.counters, .fresh] s (traceItem x0 dir inst flags item queue addr latency len s) := by
  unfold traceItem
  repeat' first
    | with_reducible exact OnlyChanges.refl _ _
    | with_reducible assumption
    | with_reducible apply OnlyChanges.ite
    | with_reducible apply drawPick_frame
    | with_reducible refine drawPick_snd (by assumption) ?_ ?_
    | with_reducible apply modCountUnit_frame
    | with_reducible apply writeRecord_frame
    | ((with_reducible refine Part.nested ?_); rfl)
    | ((with_reducible refine Part.held ?_); rfl)
    | split
    | dsimp only
    | dsimp only [id]
theorem traceItem_frame {qs : List Part} {s t : State} (x0 : Nat) (dir : Nat) (inst : Nat) (flags : Nat) (item : Nat) (queue : Nat) (addr : Nat) (latency : Nat) (len : Nat) (a : OnlyChanges qs s t) (h : ([.counters, .fresh] : List Part).all (fun p => qs.contains p) = true) :
    OnlyChanges qs s (traceItem x0 dir inst flags item queue addr latency len t) := OnlyChanges.after (traceItem_only x0 dir inst flags item queue addr latency len t) a h

theorem modRoute_only (k : Nat) (f : Route → Route) (s : State) :
    OnlyChanges [.control] s (modRoute k f s) := by
  unfold modRoute
  repeat' first
    | with_reducible exact OnlyChanges.refl _ _
    | with_reducible assumption
    | with_reducible apply OnlyChanges.ite
    | with_reducible apply modControl_frame
    | ((with_reducible refine Part.nested ?_); rfl)
    | ((with_reducible refine Part.held ?_); rfl)
    | split
    | dsimp only
    | dsimp only [id]
theorem modRoute_frame {qs : List Part} {s t : State} (k : Nat) (f : Route → Route) (a : OnlyChanges qs s t) (h : ([.control] : List Part).all (fun p => qs.contains p) = true) :
    OnlyChanges qs s (modRoute k f t) := OnlyChanges.after (modRoute_only k f t) a h

theorem remember_only (e : EventRec) (s : State) :
    OnlyChanges [.control] s (remember e s) := by
  unfold remember
  repeat' first
    | with_reducible exact OnlyChanges.refl _ _
    | with_reducible assumption
    | with_reducible apply OnlyChanges.ite
    | with_reducible apply modControl_frame
    | ((with_reducible refine Part.nested ?_); rfl)
    | ((with_reducible refine Part.held ?_); rfl)
    | split
    | dsimp only
    | dsimp only [id]
theorem remember_frame {qs : List Part} {s t : State} (e : EventRec) (a : OnlyChanges qs s t) (h : ([.control] : List Part).all (fun p => qs.contains p) = true) :
    OnlyChanges qs s (remember e t) := OnlyChanges.after (remember_only e t) a h

theorem nextEventSeq_only (s : State) :
    OnlyChanges [.sill] s (nextEventSeq s) := by
  unfold nextEventSeq
  repeat' first
    | with_reducible exact OnlyChanges.refl _ _
    | with_reducible assumption
    | with_reducible apply OnlyChanges.ite
    | with_reducible apply modSill_frame
    | ((with_reducible refine Part.nested ?_); rfl)
    | ((with_reducible refine Part.held ?_); rfl)
    | split
    | dsimp only
    | dsimp only [id]
theorem nextEventSeq_frame {qs : List Part} {s t : State}  (a : OnlyChanges qs s t) (h : ([.sill] : List Part).all (fun p => qs.contains p) = true) :
    OnlyChanges qs s (nextEventSeq t) := OnlyChanges.after (nextEventSeq_only t) a h

theorem flushLost_only (k : Nat) (s : State) :
    OnlyChanges [.sill, .control, .counters] s (flushLost k s) := by
  unfold flushLost
  repeat' first
    | with_reducible exact OnlyChanges.refl _ _
    | with_reducible assumption
    | with_reducible apply OnlyChanges.ite
    | with_reducible apply bump_frame
    | with_reducible apply modRoute_frame
    | with_reducible apply nextEventSeq_frame
    | with_reducible apply remember_frame
    | ((with_reducible refine Part.nested ?_); rfl)
    | ((with_reducible refine Part.held ?_); rfl)
    | split
    | dsimp only
    | dsimp only [id]
theorem flushLost_frame {qs : List Part} {s t : State} (k : Nat) (a : OnlyChanges qs s t) (h : ([.sill, .control, .counters] : List Part).all (fun p => qs.contains p) = true) :
    OnlyChanges qs s (flushLost k t) := OnlyChanges.after (flushLost_only k t) a h

theorem raiseAs_only (version : BitVec 8) (code : Nat) (unit : Nat) (payload : List Byte) (urgent : Bool) (s : State) :
    OnlyChanges [.sill, .control, .counters] s (raiseAs version code unit payload urgent s) := by
  unfold raiseAs
  repeat' first
    | with_reducible exact OnlyChanges.refl _ _
    | with_reducible assumption
    | with_reducible apply OnlyChanges.ite
    | with_reducible apply bump_frame
    | with_reducible apply flushLost_frame
    | with_reducible apply modControl_frame
    | with_reducible apply nextEventSeq_frame
    | with_reducible apply remember_frame
    | ((with_reducible refine Part.nested ?_); rfl)
    | ((with_reducible refine Part.held ?_); rfl)
    | split
    | dsimp only
    | dsimp only [id]
theorem raiseAs_frame {qs : List Part} {s t : State} (version : BitVec 8) (code : Nat) (unit : Nat) (payload : List Byte) (urgent : Bool) (a : OnlyChanges qs s t) (h : ([.sill, .control, .counters] : List Part).all (fun p => qs.contains p) = true) :
    OnlyChanges qs s (raiseAs version code unit payload urgent t) := OnlyChanges.after (raiseAs_only version code unit payload urgent t) a h

theorem raise_only (code : Nat) (unit : Nat) (payload : List Byte) (urgent : Bool) (s : State) :
    OnlyChanges [.sill, .control, .counters] s (raise code unit payload urgent s) := by
  unfold raise
  repeat' first
    | with_reducible exact OnlyChanges.refl _ _
    | with_reducible assumption
    | with_reducible apply OnlyChanges.ite
    | with_reducible apply raiseAs_frame
    | ((with_reducible refine Part.nested ?_); rfl)
    | ((with_reducible refine Part.held ?_); rfl)
    | split
    | dsimp only
    | dsimp only [id]
theorem raise_frame {qs : List Part} {s t : State} (code : Nat) (unit : Nat) (payload : List Byte) (urgent : Bool) (a : OnlyChanges qs s t) (h : ([.sill, .control, .counters] : List Part).all (fun p => qs.contains p) = true) :
    OnlyChanges qs s (raise code unit payload urgent t) := OnlyChanges.after (raise_only code unit payload urgent t) a h

theorem flashWrite_only : ∀ (a : Nat) (l : List Byte) (s : State), OnlyChanges [.flash] s (flashWrite a l s)
  | _, [], s => OnlyChanges.refl _ s
  | a, _ :: r, _ => OnlyChanges.trans (only_flash _ _) (flashWrite_only (a + 1) r _)

theorem flashWrite_frame {qs : List Part} {x2 t : State} (x0 : Nat) (x1 : List Byte) (a : OnlyChanges qs x2 t) (h : ([.flash] : List Part).all (fun p => qs.contains p) = true) :
    OnlyChanges qs x2 (flashWrite x0 x1 t) := OnlyChanges.after (flashWrite_only x0 x1 t) a h

theorem flashErase_only (x0 : Nat) (n : Nat) (s : State) :
    OnlyChanges [.flash] s (flashErase x0 n s) := by
  unfold flashErase
  repeat' first
    | with_reducible exact OnlyChanges.refl _ _
    | with_reducible assumption
    | with_reducible apply OnlyChanges.ite
    | ((with_reducible refine Part.nested ?_); rfl)
    | ((with_reducible refine Part.held ?_); rfl)
    | split
    | dsimp only
    | dsimp only [id]
    | with_reducible apply set_flash
theorem flashErase_frame {qs : List Part} {s t : State} (x0 : Nat) (n : Nat) (a : OnlyChanges qs s t) (h : ([.flash] : List Part).all (fun p => qs.contains p) = true) :
    OnlyChanges qs s (flashErase x0 n t) := OnlyChanges.after (flashErase_only x0 n t) a h

theorem flashTakes_only (s : State) :
    PairChanges [.fresh] s (flashTakes s) := by
  unfold flashTakes
  repeat' first
    | with_reducible exact OnlyChanges.refl _ _
    | with_reducible assumption
    | with_reducible apply PairChanges.ite
    | with_reducible apply OnlyChanges.ite
    | ((with_reducible refine Part.nested ?_); rfl)
    | ((with_reducible refine Part.held ?_); rfl)
    | split
    | dsimp only
    | dsimp only [id]
    | with_reducible apply PairChanges.mk
    | with_reducible apply set_fresh
theorem flashTakes_frame {qs : List Part} {s t : State}  (a : OnlyChanges qs s t) (h : ([.fresh] : List Part).all (fun p => qs.contains p) = true) :
    OnlyChanges qs s (flashTakes t).2 := OnlyChanges.after (flashTakes_only t) a h
theorem flashTakes_pair {qs : List Part} {s t : State}  (a : OnlyChanges qs s t) (h : ([.fresh] : List Part).all (fun p => qs.contains p) = true) :
    PairChanges qs s (flashTakes t) := OnlyChanges.after (flashTakes_only t) a h
theorem flashTakes_snd {qs : List Part} {s t u : State}  {y : _} (e : (flashTakes t) = (y, u)) (a : OnlyChanges qs s t) (h : ([.fresh] : List Part).all (fun p => qs.contains p) = true) :
    OnlyChanges qs s u := PairChanges.snd (flashTakes_only t) e a h

end Sys2Proof.Machine
end

