-- ==== Sys2Proof/Laws/FrameOperands.lean ====
section
/-! SUPPORT. What each operation of Operands.lean may change. -/

-- One theorem after another: with a thread for each, the package as one text outgrows the checker's memory limit.
set_option Elab.async false

namespace Sys2Proof.Machine

end Sys2Proof.Machine
end

