-- ==== Sys2Proof/Laws/FrameFlags.lean ====
section
/-! SUPPORT. What each operation of Flags.lean may change. -/

-- One theorem after another: with a thread for each, the package as one text outgrows the checker's memory limit.
set_option Elab.async false

namespace Sys2Proof.Machine

theorem slWrite_only (addr : Nat) (v : Word32) (s : State) :
    OnlyChanges [.sill] s (slWrite addr v s) := by
  unfold slWrite
  repeat' first
    | with_reducible exact OnlyChanges.refl _ _
    | with_reducible assumption
    | with_reducible apply OnlyChanges.ite
    | with_reducible apply modSill_frame
    | ((with_reducible refine Part.nested ?_); rfl)
    | ((with_reducible refine Part.held ?_); rfl)
    | split
    | dsimp only
    | dsimp only [id]
theorem slWrite_frame {qs : List Part} {s t : State} (addr : Nat) (v : Word32) (a : OnlyChanges qs s t) (h : ([.sill] : List Part).all (fun p => qs.contains p) = true) :
    OnlyChanges qs s (slWrite addr v t) := OnlyChanges.after (slWrite_only addr v t) a h

end Sys2Proof.Machine
end

