-- ==== Sys2Proof/Laws/FrameProtocol.lean ====
section
/-! SUPPORT. What each operation of Protocol.lean may change. -/

-- One theorem after another: with a thread for each, the package as one text outgrows the checker's memory limit.
set_option Elab.async false

namespace Sys2Proof.Machine

theorem tenonPush_only (p : Nat) (m : Message) (s : State) :
    OnlyChanges [.domain] s (tenonPush p m s) := by
  unfold tenonPush
  repeat' first
    | with_reducible exact OnlyChanges.refl _ _
    | with_reducible assumption
    | with_reducible apply OnlyChanges.ite
    | with_reducible apply modTenon_frame
    | ((with_reducible refine Part.nested ?_); rfl)
    | ((with_reducible refine Part.held ?_); rfl)
    | split
    | dsimp only
    | dsimp only [id]
theorem tenonPush_frame {qs : List Part} {s t : State} (p : Nat) (m : Message) (a : OnlyChanges qs s t) (h : ([.domain] : List Part).all (fun p => qs.contains p) = true) :
    OnlyChanges qs s (tenonPush p m t) := OnlyChanges.after (tenonPush_only p m t) a h

theorem putReply_only (port : Port) (origin : Nat) (p : Packet) (entry : Option Nat) (s : State) :
    OnlyChanges [.control, .stream, .domain] s (putReply port origin p entry s) := by
  unfold putReply
  repeat' first
    | with_reducible exact OnlyChanges.refl _ _
    | with_reducible assumption
    | with_reducible apply OnlyChanges.ite
    | with_reducible apply modControl_frame
    | with_reducible apply modStream_frame
    | with_reducible apply tenonPush_frame
    | ((with_reducible refine Part.nested ?_); rfl)
    | ((with_reducible refine Part.held ?_); rfl)
    | split
    | dsimp only
    | dsimp only [id]
theorem putReply_frame {qs : List Part} {s t : State} (port : Port) (origin : Nat) (p : Packet) (entry : Option Nat) (a : OnlyChanges qs s t) (h : ([.control, .stream, .domain] : List Part).all (fun p => qs.contains p) = true) :
    OnlyChanges qs s (putReply port origin p entry t) := OnlyChanges.after (putReply_only port origin p entry t) a h

theorem freeEntry_only (e : Option Nat) (s : State) :
    OnlyChanges [.control] s (freeEntry e s) := by
  unfold freeEntry
  repeat' first
    | with_reducible exact OnlyChanges.refl _ _
    | with_reducible assumption
    | with_reducible apply OnlyChanges.ite
    | with_reducible apply modControl_frame
    | ((with_reducible refine Part.nested ?_); rfl)
    | ((with_reducible refine Part.held ?_); rfl)
    | split
    | dsimp only
    | dsimp only [id]
theorem freeEntry_frame {qs : List Part} {s t : State} (e : Option Nat) (a : OnlyChanges qs s t) (h : ([.control] : List Part).all (fun p => qs.contains p) = true) :
    OnlyChanges qs s (freeEntry e t) := OnlyChanges.after (freeEntry_only e t) a h

theorem modSession_only (n : Nat) (f : Session → Session) (s : State) :
    OnlyChanges [.control] s (modSession n f s) := by
  unfold modSession
  repeat' first
    | with_reducible exact OnlyChanges.refl _ _
    | with_reducible assumption
    | with_reducible apply OnlyChanges.ite
    | with_reducible apply modControl_frame
    | ((with_reducible refine Part.nested ?_); rfl)
    | ((with_reducible refine Part.held ?_); rfl)
    | split
    | dsimp only
    | dsimp only [id]
theorem modSession_frame {qs : List Part} {s t : State} (n : Nat) (f : Session → Session) (a : OnlyChanges qs s t) (h : ([.control] : List Part).all (fun p => qs.contains p) = true) :
    OnlyChanges qs s (modSession n f t) := OnlyChanges.after (modSession_only n f t) a h

theorem dropSession_only (n : Nat) (s : State) :
    OnlyChanges [.control] s (dropSession n s) := by
  unfold dropSession
  repeat' first
    | with_reducible exact OnlyChanges.refl _ _
    | with_reducible assumption
    | with_reducible apply OnlyChanges.ite
    | with_reducible apply modControl_frame
    | ((with_reducible refine Part.nested ?_); rfl)
    | ((with_reducible refine Part.held ?_); rfl)
    | split
    | dsimp only
    | dsimp only [id]
theorem dropSession_frame {qs : List Part} {s t : State} (n : Nat) (a : OnlyChanges qs s t) (h : ([.control] : List Part).all (fun p => qs.contains p) = true) :
    OnlyChanges qs s (dropSession n t) := OnlyChanges.after (dropSession_only n t) a h

theorem storeReply_only (n : Nat) (p : Packet) (s : State) :
    OnlyChanges [.control] s (storeReply n p s) := by
  unfold storeReply
  repeat' first
    | with_reducible exact OnlyChanges.refl _ _
    | with_reducible assumption
    | with_reducible apply OnlyChanges.ite
    | with_reducible apply modSession_frame
    | ((with_reducible refine Part.nested ?_); rfl)
    | ((with_reducible refine Part.held ?_); rfl)
    | split
    | dsimp only
    | dsimp only [id]
theorem storeReply_frame {qs : List Part} {s t : State} (n : Nat) (p : Packet) (a : OnlyChanges qs s t) (h : ([.control] : List Part).all (fun p => qs.contains p) = true) :
    OnlyChanges qs s (storeReply n p t) := OnlyChanges.after (storeReply_only n p t) a h

theorem keepReply_only (port : Port) (n : Nat) (p : Packet) (s : State) :
    OnlyChanges [.control] s (keepReply port n p s) := by
  unfold keepReply
  repeat' first
    | with_reducible exact OnlyChanges.refl _ _
    | with_reducible assumption
    | with_reducible apply OnlyChanges.ite
    | with_reducible apply storeReply_frame
    | ((with_reducible refine Part.nested ?_); rfl)
    | ((with_reducible refine Part.held ?_); rfl)
    | split
    | dsimp only
    | dsimp only [id]
theorem keepReply_frame {qs : List Part} {s t : State} (port : Port) (n : Nat) (p : Packet) (a : OnlyChanges qs s t) (h : ([.control] : List Part).all (fun p => qs.contains p) = true) :
    OnlyChanges qs s (keepReply port n p t) := OnlyChanges.after (keepReply_only port n p t) a h

theorem closeSession_only (n : Nat) (cause : Nat) (s : State) :
    OnlyChanges [.sill, .control, .counters] s (closeSession n cause s) := by
  unfold closeSession
  repeat' first
    | with_reducible exact OnlyChanges.refl _ _
    | with_reducible assumption
    | with_reducible apply OnlyChanges.ite
    | with_reducible apply dropSession_frame
    | with_reducible apply raiseAs_frame
    | ((with_reducible refine Part.nested ?_); rfl)
    | ((with_reducible refine Part.held ?_); rfl)
    | split
    | dsimp only
    | dsimp only [id]
theorem closeSession_frame {qs : List Part} {s t : State} (n : Nat) (cause : Nat) (a : OnlyChanges qs s t) (h : ([.sill, .control, .counters] : List Part).all (fun p => qs.contains p) = true) :
    OnlyChanges qs s (closeSession n cause t) := OnlyChanges.after (closeSession_only n cause t) a h

theorem endSession_only (n : Nat) (cause : Nat) (s : State) :
    OnlyChanges [.sill, .control, .counters] s (endSession n cause s) := by
  unfold endSession
  repeat' first
    | with_reducible exact OnlyChanges.refl _ _
    | with_reducible assumption
    | with_reducible apply OnlyChanges.ite
    | with_reducible apply closeSession_frame
    | with_reducible apply modSession_frame
    | ((with_reducible refine Part.nested ?_); rfl)
    | ((with_reducible refine Part.held ?_); rfl)
    | split
    | dsimp only
    | dsimp only [id]
theorem endSession_frame {qs : List Part} {s t : State} (n : Nat) (cause : Nat) (a : OnlyChanges qs s t) (h : ([.sill, .control, .counters] : List Part).all (fun p => qs.contains p) = true) :
    OnlyChanges qs s (endSession n cause t) := OnlyChanges.after (endSession_only n cause t) a h

theorem settleClosings_only (s : State) :
    OnlyChanges [.sill, .control, .counters] s (settleClosings s) := by
  unfold settleClosings
  repeat' first
    | with_reducible exact OnlyChanges.refl _ _
    | with_reducible assumption
    | with_reducible apply OnlyChanges.ite
    | with_reducible refine OnlyChanges.each (fun _ _ => ?_) _ ?_
    | with_reducible apply closeSession_frame
    | ((with_reducible refine Part.nested ?_); rfl)
    | ((with_reducible refine Part.held ?_); rfl)
    | split
    | dsimp only
    | dsimp only [id]
theorem settleClosings_frame {qs : List Part} {s t : State}  (a : OnlyChanges qs s t) (h : ([.sill, .control, .counters] : List Part).all (fun p => qs.contains p) = true) :
    OnlyChanges qs s (settleClosings t) := OnlyChanges.after (settleClosings_only t) a h

theorem answer_only (op : Nat) (q : Request) (st : Status) (payload : List Byte) (s : State) :
    OnlyChanges [.control, .stream, .domain] s (answer op q st payload s) := by
  unfold answer
  repeat' first
    | with_reducible exact OnlyChanges.refl _ _
    | with_reducible assumption
    | with_reducible apply OnlyChanges.ite
    | with_reducible apply putReply_frame
    | ((with_reducible refine Part.nested ?_); rfl)
    | ((with_reducible refine Part.held ?_); rfl)
    | split
    | dsimp only
    | dsimp only [id]
theorem answer_frame {qs : List Part} {s t : State} (op : Nat) (q : Request) (st : Status) (payload : List Byte) (a : OnlyChanges qs s t) (h : ([.control, .stream, .domain] : List Part).all (fun p => qs.contains p) = true) :
    OnlyChanges qs s (answer op q st payload t) := OnlyChanges.after (answer_only op q st payload t) a h

theorem answerKept_only (op : Nat) (q : Request) (st : Status) (payload : List Byte) (entry : Option Nat) (s : State) :
    OnlyChanges [.control, .stream, .domain] s (answerKept op q st payload entry s) := by
  unfold answerKept
  repeat' first
    | with_reducible exact OnlyChanges.refl _ _
    | with_reducible assumption
    | with_reducible apply OnlyChanges.ite
    | with_reducible apply keepReply_frame
    | with_reducible apply putReply_frame
    | ((with_reducible refine Part.nested ?_); rfl)
    | ((with_reducible refine Part.held ?_); rfl)
    | split
    | dsimp only
    | dsimp only [id]
theorem answerKept_frame {qs : List Part} {s t : State} (op : Nat) (q : Request) (st : Status) (payload : List Byte) (entry : Option Nat) (a : OnlyChanges qs s t) (h : ([.control, .stream, .domain] : List Part).all (fun p => qs.contains p) = true) :
    OnlyChanges qs s (answerKept op q st payload entry t) := OnlyChanges.after (answerKept_only op q st payload entry t) a h

theorem chainDigest_only (op : Nat) (unit : Nat) (digest : List Byte) (s : State) :
    OnlyChanges [.security] s (chainDigest op unit digest s) := by
  unfold chainDigest
  repeat' first
    | with_reducible exact OnlyChanges.refl _ _
    | with_reducible assumption
    | with_reducible apply OnlyChanges.ite
    | with_reducible apply modSecurity_frame
    | ((with_reducible refine Part.nested ?_); rfl)
    | ((with_reducible refine Part.held ?_); rfl)
    | split
    | dsimp only
    | dsimp only [id]
theorem chainDigest_frame {qs : List Part} {s t : State} (op : Nat) (unit : Nat) (digest : List Byte) (a : OnlyChanges qs s t) (h : ([.security] : List Part).all (fun p => qs.contains p) = true) :
    OnlyChanges qs s (chainDigest op unit digest t) := OnlyChanges.after (chainDigest_only op unit digest t) a h

theorem digestCommand_only (op : Nat) (unit : Nat) (st : Status) (digest : List Byte) (s : State) :
    OnlyChanges [.security] s (digestCommand op unit st digest s) := by
  unfold digestCommand
  repeat' first
    | with_reducible exact OnlyChanges.refl _ _
    | with_reducible assumption
    | with_reducible apply OnlyChanges.ite
    | with_reducible apply chainDigest_frame
    | ((with_reducible refine Part.nested ?_); rfl)
    | ((with_reducible refine Part.held ?_); rfl)
    | split
    | dsimp only
    | dsimp only [id]
theorem digestCommand_frame {qs : List Part} {s t : State} (op : Nat) (unit : Nat) (st : Status) (digest : List Byte) (a : OnlyChanges qs s t) (h : ([.security] : List Part).all (fun p => qs.contains p) = true) :
    OnlyChanges qs s (digestCommand op unit st digest t) := OnlyChanges.after (digestCommand_only op unit st digest t) a h

theorem journal_only (op : Nat) (q : Request) (undo : Undo) (st : EntryState) (s : State) :
    OnlyChanges [.control, .counters] s (journal op q undo st s) := by
  unfold journal
  repeat' first
    | with_reducible exact OnlyChanges.refl _ _
    | with_reducible assumption
    | with_reducible apply OnlyChanges.ite
    | with_reducible apply bump_frame
    | with_reducible apply modControl_frame
    | ((with_reducible refine Part.nested ?_); rfl)
    | ((with_reducible refine Part.held ?_); rfl)
    | split
    | dsimp only
    | dsimp only [id]
theorem journal_frame {qs : List Part} {s t : State} (op : Nat) (q : Request) (undo : Undo) (st : EntryState) (a : OnlyChanges qs s t) (h : ([.control, .counters] : List Part).all (fun p => qs.contains p) = true) :
    OnlyChanges qs s (journal op q undo st t) := OnlyChanges.after (journal_only op q undo st t) a h

theorem finishEntry_only (id : Nat) (st : Status) (payload : List Byte) (s : State) :
    OnlyChanges [.control, .stream, .domain, .security] s (finishEntry id st payload s) := by
  unfold finishEntry
  repeat' first
    | with_reducible exact OnlyChanges.refl _ _
    | with_reducible assumption
    | with_reducible apply OnlyChanges.ite
    | with_reducible apply digestCommand_frame
    | with_reducible apply keepReply_frame
    | with_reducible apply modControl_frame
    | with_reducible apply putReply_frame
    | ((with_reducible refine Part.nested ?_); rfl)
    | ((with_reducible refine Part.held ?_); rfl)
    | split
    | dsimp only
    | dsimp only [id]
theorem finishEntry_frame {qs : List Part} {s t : State} (id : Nat) (st : Status) (payload : List Byte) (a : OnlyChanges qs s t) (h : ([.control, .stream, .domain, .security] : List Part).all (fun p => qs.contains p) = true) :
    OnlyChanges qs s (finishEntry id st payload t) := OnlyChanges.after (finishEntry_only id st payload t) a h

theorem completeEntry_only (id : Nat) (st : Status) (payload : List Byte) (s : State) :
    OnlyChanges [.control, .stream, .domain, .security] s (completeEntry id st payload s) := by
  unfold completeEntry
  repeat' first
    | with_reducible exact OnlyChanges.refl _ _
    | with_reducible assumption
    | with_reducible apply OnlyChanges.ite
    | with_reducible apply finishEntry_frame
    | with_reducible apply modControl_frame
    | ((with_reducible refine Part.nested ?_); rfl)
    | ((with_reducible refine Part.held ?_); rfl)
    | split
    | dsimp only
    | dsimp only [id]
theorem completeEntry_frame {qs : List Part} {s t : State} (id : Nat) (st : Status) (payload : List Byte) (a : OnlyChanges qs s t) (h : ([.control, .stream, .domain, .security] : List Part).all (fun p => qs.contains p) = true) :
    OnlyChanges qs s (completeEntry id st payload t) := OnlyChanges.after (completeEntry_only id st payload t) a h

theorem enqueueRx_only (r : RxItem) (s : State) :
    OnlyChanges [.control] s (enqueueRx r s) := by
  unfold enqueueRx
  repeat' first
    | with_reducible exact OnlyChanges.refl _ _
    | with_reducible assumption
    | with_reducible apply OnlyChanges.ite
    | with_reducible apply modControl_frame
    | ((with_reducible refine Part.nested ?_); rfl)
    | ((with_reducible refine Part.held ?_); rfl)
    | split
    | dsimp only
    | dsimp only [id]
theorem enqueueRx_frame {qs : List Part} {s t : State} (r : RxItem) (a : OnlyChanges qs s t) (h : ([.control] : List Part).all (fun p => qs.contains p) = true) :
    OnlyChanges qs s (enqueueRx r t) := OnlyChanges.after (enqueueRx_only r t) a h

theorem overrun_only (s : State) :
    OnlyChanges [.sill] s (overrun s) := by
  unfold overrun
  repeat' first
    | with_reducible exact OnlyChanges.refl _ _
    | with_reducible assumption
    | with_reducible apply OnlyChanges.ite
    | with_reducible apply modSill_frame
    | ((with_reducible refine Part.nested ?_); rfl)
    | ((with_reducible refine Part.held ?_); rfl)
    | split
    | dsimp only
    | dsimp only [id]
theorem overrun_frame {qs : List Part} {s t : State}  (a : OnlyChanges qs s t) (h : ([.sill] : List Part).all (fun p => qs.contains p) = true) :
    OnlyChanges qs s (overrun t) := OnlyChanges.after (overrun_only t) a h

theorem receive_only (r : RxItem) (s : State) :
    OnlyChanges [.sill, .control] s (receive r s) := by
  unfold receive
  repeat' first
    | with_reducible exact OnlyChanges.refl _ _
    | with_reducible assumption
    | with_reducible apply OnlyChanges.ite
    | with_reducible apply enqueueRx_frame
    | with_reducible apply overrun_frame
    | ((with_reducible refine Part.nested ?_); rfl)
    | ((with_reducible refine Part.held ?_); rfl)
    | split
    | dsimp only
    | dsimp only [id]
theorem receive_frame {qs : List Part} {s t : State} (r : RxItem) (a : OnlyChanges qs s t) (h : ([.sill, .control] : List Part).all (fun p => qs.contains p) = true) :
    OnlyChanges qs s (receive r t) := OnlyChanges.after (receive_only r t) a h

theorem takeAt_only (i : Nat) (s : State) :
    OnlyChanges [.control, .stream, .domain] s (takeAt i s) := by
  unfold takeAt
  repeat' first
    | with_reducible exact OnlyChanges.refl _ _
    | with_reducible assumption
    | with_reducible apply OnlyChanges.ite
    | with_reducible apply modControl_frame
    | with_reducible apply modSession_frame
    | with_reducible apply modStream_frame
    | with_reducible apply modTenon_frame
    | ((with_reducible refine Part.nested ?_); rfl)
    | ((with_reducible refine Part.held ?_); rfl)
    | split
    | dsimp only
    | dsimp only [id]
theorem takeAt_frame {qs : List Part} {s t : State} (i : Nat) (a : OnlyChanges qs s t) (h : ([.control, .stream, .domain] : List Part).all (fun p => qs.contains p) = true) :
    OnlyChanges qs s (takeAt i t) := OnlyChanges.after (takeAt_only i t) a h

theorem sendToward_only (x0 : Nat) (m : Message) (s : State) :
    PairChanges [.domain] s (sendToward x0 m s) := by
  unfold sendToward
  repeat' first
    | with_reducible exact OnlyChanges.refl _ _
    | with_reducible assumption
    | with_reducible apply PairChanges.ite
    | with_reducible apply OnlyChanges.ite
    | with_reducible apply modDomain_frame
    | with_reducible apply tenonPush_frame
    | ((with_reducible refine Part.nested ?_); rfl)
    | ((with_reducible refine Part.held ?_); rfl)
    | split
    | dsimp only
    | dsimp only [id]
    | with_reducible apply PairChanges.mk
theorem sendToward_frame {qs : List Part} {s t : State} (x0 : Nat) (m : Message) (a : OnlyChanges qs s t) (h : ([.domain] : List Part).all (fun p => qs.contains p) = true) :
    OnlyChanges qs s (sendToward x0 m t).2 := OnlyChanges.after (sendToward_only x0 m t) a h
theorem sendToward_pair {qs : List Part} {s t : State} (x0 : Nat) (m : Message) (a : OnlyChanges qs s t) (h : ([.domain] : List Part).all (fun p => qs.contains p) = true) :
    PairChanges qs s (sendToward x0 m t) := OnlyChanges.after (sendToward_only x0 m t) a h
theorem sendToward_snd {qs : List Part} {s t u : State} {x0 : Nat} {m : Message} {y : _} (e : (sendToward x0 m t) = (y, u)) (a : OnlyChanges qs s t) (h : ([.domain] : List Part).all (fun p => qs.contains p) = true) :
    OnlyChanges qs s u := PairChanges.snd (sendToward_only x0 m t) e a h

theorem advanceSeq_only (q : Request) (s : State) :
    OnlyChanges [.control] s (advanceSeq q s) := by
  unfold advanceSeq
  repeat' first
    | with_reducible exact OnlyChanges.refl _ _
    | with_reducible assumption
    | with_reducible apply OnlyChanges.ite
    | with_reducible apply modSession_frame
    | ((with_reducible refine Part.nested ?_); rfl)
    | ((with_reducible refine Part.held ?_); rfl)
    | split
    | dsimp only
    | dsimp only [id]
theorem advanceSeq_frame {qs : List Part} {s t : State} (q : Request) (a : OnlyChanges qs s t) (h : ([.control] : List Part).all (fun p => qs.contains p) = true) :
    OnlyChanges qs s (advanceSeq q t) := OnlyChanges.after (advanceSeq_only q t) a h

theorem forwardOne_only (op : Nat) (q : Request) (s : State) :
    OnlyChanges [.control, .stream, .domain] s (forwardOne op q s) := by
  unfold forwardOne
  repeat' first
    | with_reducible exact OnlyChanges.refl _ _
    | with_reducible assumption
    | with_reducible apply OnlyChanges.ite
    | with_reducible apply advanceSeq_frame
    | with_reducible apply answer_frame
    | with_reducible apply keepReply_frame
    | with_reducible apply modDomain_frame
    | with_reducible apply putReply_frame
    | with_reducible apply sendToward_frame
    | with_reducible refine sendToward_snd (by assumption) ?_ ?_
    | ((with_reducible refine Part.nested ?_); rfl)
    | ((with_reducible refine Part.held ?_); rfl)
    | split
    | dsimp only
    | dsimp only [id]
theorem forwardOne_frame {qs : List Part} {s t : State} (op : Nat) (q : Request) (a : OnlyChanges qs s t) (h : ([.control, .stream, .domain] : List Part).all (fun p => qs.contains p) = true) :
    OnlyChanges qs s (forwardOne op q t) := OnlyChanges.after (forwardOne_only op q t) a h

theorem fanOut_only (op : Nat) (q : Request) (id : Nat) (st : Option Status) (s : State) :
    OnlyChanges [.control, .domain] s (fanOut op q id st s) := by
  unfold fanOut
  refine modControl_frame _ ?_ rfl
  refine OnlyChanges.foldl (fun b : List Nat × List (Nat × Nat) × State => b.2.2) (fun b x => ?_) _ _ (OnlyChanges.refl _ _)
  dsimp only
  split <;> split <;> exact sendToward_frame (qs := [.control, .domain]) _ _ (OnlyChanges.refl _ _) rfl

theorem fanOut_frame {qs : List Part} {s t : State} (op : Nat) (q : Request) (id : Nat) (st : Option Status) (a : OnlyChanges qs s t) (h : ([.control, .domain] : List Part).all (fun p => qs.contains p) = true) :
    OnlyChanges qs s (fanOut op q id st t) := OnlyChanges.after (fanOut_only op q id st t) a h

theorem closeCollation_only (c : Collation) (s : State) :
    OnlyChanges [.control, .stream, .domain, .security] s (closeCollation c s) := by
  unfold closeCollation
  repeat' first
    | with_reducible exact OnlyChanges.refl _ _
    | with_reducible assumption
    | with_reducible apply OnlyChanges.ite
    | with_reducible apply completeEntry_frame
    | with_reducible apply modControl_frame
    | ((with_reducible refine Part.nested ?_); rfl)
    | ((with_reducible refine Part.held ?_); rfl)
    | split
    | dsimp only
    | dsimp only [id]
theorem closeCollation_frame {qs : List Part} {s t : State} (c : Collation) (a : OnlyChanges qs s t) (h : ([.control, .stream, .domain, .security] : List Part).all (fun p => qs.contains p) = true) :
    OnlyChanges qs s (closeCollation c t) := OnlyChanges.after (closeCollation_only c t) a h

/-- Running a command changes what its own part may change and what its journaling, digest, reply and count change. -/
theorem execute_frame {qs : List Part} {s t : State} (o : Op) (q : Request) (body : Request → State → Reply) (hb : ∀ u, ReplyChanges qs u (body q u)) (a : OnlyChanges qs s t)
    (h : ([.control, .counters, .stream, .domain, .security] : List Part).all (fun p => qs.contains p) = true) : OnlyChanges qs s (execute o q body t) := by
  have need := fun (ps : List Part) (g : ps.all (fun p => ([.control, .counters, .stream, .domain, .security] : List Part).contains p) = true) => Part.all_trans g h
  unfold execute
  have hq := hb t
  split <;> rename_i e <;> rw [e] at hq
  · exact answerKept_frame _ _ _ _ _ (a.trans hq) (need _ rfl)
  · dsimp only
    split
    · exact (answerKept_frame _ _ _ _ _ (bump_frame _ _ _ _ (a.trans hq.1) (need _ rfl)) (need _ rfl)).trans (hq.2 _)
    · exact (answerKept_frame _ _ _ _ _ (digestCommand_frame _ _ _ _ (journal_frame _ _ _ _ (bump_frame _ _ _ _ (a.trans hq.1)
        (need _ rfl)) (need _ rfl)) (need _ rfl)) (need _ rfl)).trans (hq.2 _)
  · exact bump_frame _ _ _ _ (journal_frame _ _ _ _ (a.trans hq) (need _ rfl)) (need _ rfl)


theorem broadcastSent_only (id : Nat) (s : State) :
    OnlyChanges [.control, .stream, .domain, .security] s (broadcastSent id s) := by
  unfold broadcastSent
  repeat' first
    | with_reducible exact OnlyChanges.refl _ _
    | with_reducible assumption
    | with_reducible apply OnlyChanges.ite
    | with_reducible apply closeCollation_frame
    | ((with_reducible refine Part.nested ?_); rfl)
    | ((with_reducible refine Part.held ?_); rfl)
    | split
    | dsimp only
    | dsimp only [id]
theorem broadcastSent_frame {qs : List Part} {s t : State} (id : Nat) (a : OnlyChanges qs s t) (h : ([.control, .stream, .domain, .security] : List Part).all (fun p => qs.contains p) = true) :
    OnlyChanges qs s (broadcastSent id t) := OnlyChanges.after (broadcastSent_only id t) a h

theorem broadcastOwn_frame {qs : List Part} {s t : State} (q : Request) (body : Request → State → Reply) (hb : ∀ u, ReplyChanges qs u (body q u)) (a : OnlyChanges qs s t)
    (h : ([.counters] : List Part).all (fun p => qs.contains p) = true) : OnlyChanges qs s (broadcastOwn q body t).2.1 := by
  unfold broadcastOwn
  have hq := hb t
  split
  · exact a
  · split <;> rename_i e <;> rw [e] at hq
    · exact a.trans hq
    · exact bump_frame _ _ _ _ (a.trans hq.1) h
    · exact bump_frame _ _ _ _ (a.trans hq) h

theorem broadcastOwn_next {qs : List Part} (q : Request) (body : Request → State → Reply) (hb : ∀ u, ReplyChanges qs u (body q u))
    (t u : State) : OnlyChanges qs u ((broadcastOwn q body t).2.2 u) := by
  unfold broadcastOwn
  have hq := hb t
  split
  · exact OnlyChanges.refl _ _
  · split <;> rename_i e <;> rw [e] at hq
    · exact OnlyChanges.refl _ _
    · exact hq.2 u
    · exact OnlyChanges.refl _ _

theorem executeBroadcast_frame {qs : List Part} {s t : State} (o : Op) (q : Request) (body : Request → State → Reply) (hb : ∀ u, ReplyChanges qs u (body q u)) (a : OnlyChanges qs s t)
    (h : ([.control, .counters, .stream, .domain, .security] : List Part).all (fun p => qs.contains p) = true) : OnlyChanges qs s (executeBroadcast o q body t) := by
  have need := fun (ps : List Part) (g : ps.all (fun p => ([.control, .counters, .stream, .domain, .security] : List Part).contains p) = true) => Part.all_trans g h
  have hj : OnlyChanges qs s (journal o.code q .forward .applying t) := journal_frame _ _ _ _ a (need _ rfl)
  unfold executeBroadcast
  exact (broadcastSent_frame _ (fanOut_frame _ _ _ _ (broadcastOwn_frame q body hb hj (need _ rfl)) (need _ rfl)) (need _ rfl)).trans
    (broadcastOwn_next q body hb _ _)


theorem letIn_frame {qs : List Part} {s t : State} (o : Op) (q : Request) (body : Request → State → Reply) (hb : ∀ u, ReplyChanges qs u (body q u)) (a : OnlyChanges qs s t)
    (h : ([.control, .counters, .stream, .domain, .security] : List Part).all (fun p => qs.contains p) = true) : OnlyChanges qs s (letIn o q body t) := by
  have need := fun (ps : List Part) (g : ps.all (fun p => ([.control, .counters, .stream, .domain, .security] : List Part).contains p) = true) => Part.all_trans g h
  have run : ∀ t, OnlyChanges qs s t → OnlyChanges qs s ((if broadcastBit q.flags then executeBroadcast o q body else execute o q body) t) := by
    intro t a
    split
    · exact executeBroadcast_frame o q body hb a h
    · exact execute_frame o q body hb a h
  unfold letIn
  dsimp only
  repeat' first
    | with_reducible assumption
    | with_reducible apply OnlyChanges.ite
    | with_reducible apply answer_frame
    | with_reducible apply answerKept_frame
    | with_reducible apply bump_frame
    | with_reducible apply modDomain_frame
    | with_reducible apply putReply_frame
    | with_reducible apply advanceSeq_frame
    | exact need _ rfl
    | refine run _ ?_
    | split


theorem checks_frame {qs : List Part} {s t : State} (o : Op) (q : Request) (body : Request → State → Reply) (hb : ∀ u, ReplyChanges qs u (body q u)) (a : OnlyChanges qs s t)
    (h : ([.control, .counters, .stream, .domain, .security] : List Part).all (fun p => qs.contains p) = true) : OnlyChanges qs s (checks o q body t) := by
  have need := fun (ps : List Part) (g : ps.all (fun p => ([.control, .counters, .stream, .domain, .security] : List Part).contains p) = true) => Part.all_trans g h
  unfold checks
  dsimp only
  repeat' first
    | with_reducible assumption
    | with_reducible apply OnlyChanges.ite
    | with_reducible apply answer_frame
    | with_reducible apply forwardOne_frame
    | exact need _ rfl
    | exact letIn_frame o q body hb (by assumption) h


/-- Whatever becomes of a request, it changes what its own part may change and what answering changes. -/
theorem takeRequest_frame {qs : List Part} {s t : State} (code : Nat) (q : Request) (body : Request → State → Reply) (hb : ∀ q u, ReplyChanges qs u (body q u)) (a : OnlyChanges qs s t)
    (h : ([.sill, .control, .counters, .stream, .domain, .security] : List Part).all (fun p => qs.contains p) = true) : OnlyChanges qs s (takeRequest code q body t) := by
  have need := fun (ps : List Part) (g : ps.all (fun p => ([.sill, .control, .counters, .stream, .domain, .security] : List Part).contains p) = true) => Part.all_trans g h
  unfold takeRequest
  split
  · exact a
  · split
    · exact checks_frame _ _ body (hb _) (takeAt_frame _ a (need _ rfl)) (need _ rfl)
    · split
      · exact overrun_frame a (need _ rfl)
      · split
        · exact a
        · split
          · exact checks_frame _ _ body (hb _) a (need _ rfl)
          · exact enqueueRx_frame _ a (need _ rfl)


end Sys2Proof.Machine
end

