-- ==== Sys2Proof/Laws/FrameAlarm.lean ====
section
/-! SUPPORT. What each operation of Alarm.lean may change. -/

-- One theorem after another: with a thread for each, the package as one text outgrows the checker's memory limit.
set_option Elab.async false

namespace Sys2Proof.Machine

theorem nonceWarn_only (unit : Nat) (i : Nat) (warn : Nat) (s : State) :
    OnlyChanges [.sill, .control, .counters, .security] s (nonceWarn unit i warn s) := by
  unfold nonceWarn
  repeat' first
    | with_reducible exact OnlyChanges.refl _ _
    | with_reducible assumption
    | with_reducible apply OnlyChanges.ite
    | with_reducible apply modSlot_frame
    | with_reducible apply raise_frame
    | ((with_reducible refine Part.nested ?_); rfl)
    | ((with_reducible refine Part.held ?_); rfl)
    | split
    | dsimp only
    | dsimp only [id]
theorem nonceWarn_frame {qs : List Part} {s t : State} (unit : Nat) (i : Nat) (warn : Nat) (a : OnlyChanges qs s t) (h : ([.sill, .control, .counters, .security] : List Part).all (fun p => qs.contains p) = true) :
    OnlyChanges qs s (nonceWarn unit i warn t) := OnlyChanges.after (nonceWarn_only unit i warn t) a h

theorem erasedEvent_only (cls : Nat) (idx : Nat) (src : Nat) (s : State) :
    OnlyChanges [.sill, .control, .counters, .security] s (erasedEvent cls idx src s) := by
  unfold erasedEvent
  repeat' first
    | with_reducible exact OnlyChanges.refl _ _
    | with_reducible assumption
    | with_reducible apply OnlyChanges.ite
    | with_reducible apply modSecurity_frame
    | with_reducible apply raise_frame
    | ((with_reducible refine Part.nested ?_); rfl)
    | ((with_reducible refine Part.held ?_); rfl)
    | split
    | dsimp only
    | dsimp only [id]
theorem erasedEvent_frame {qs : List Part} {s t : State} (cls : Nat) (idx : Nat) (src : Nat) (a : OnlyChanges qs s t) (h : ([.sill, .control, .counters, .security] : List Part).all (fun p => qs.contains p) = true) :
    OnlyChanges qs s (erasedEvent cls idx src t) := OnlyChanges.after (erasedEvent_only cls idx src t) a h

theorem squelch_only (x0 : Nat) (cause : Nat) (s : State) :
    OnlyChanges [.sill, .control, .counters, .security] s (squelch x0 cause s) := by
  unfold squelch
  repeat' first
    | with_reducible exact OnlyChanges.refl _ _
    | with_reducible assumption
    | with_reducible apply OnlyChanges.ite
    | with_reducible apply modChannel_frame
    | with_reducible apply raise_frame
    | ((with_reducible refine Part.nested ?_); rfl)
    | ((with_reducible refine Part.held ?_); rfl)
    | split
    | dsimp only
    | dsimp only [id]
theorem squelch_frame {qs : List Part} {s t : State} (x0 : Nat) (cause : Nat) (a : OnlyChanges qs s t) (h : ([.sill, .control, .counters, .security] : List Part).all (fun p => qs.contains p) = true) :
    OnlyChanges qs s (squelch x0 cause t) := OnlyChanges.after (squelch_only x0 cause t) a h

theorem dropBench_only (i : Nat) (s : State) :
    OnlyChanges [.control, .stream, .domain, .security] s (dropBench i s) := by
  unfold dropBench
  repeat' first
    | with_reducible exact OnlyChanges.refl _ _
    | with_reducible assumption
    | with_reducible apply OnlyChanges.ite
    | with_reducible refine OnlyChanges.each (fun _ _ => ?_) _ ?_
    | with_reducible apply completeEntry_frame
    | with_reducible apply modSecurity_frame
    | ((with_reducible refine Part.nested ?_); rfl)
    | ((with_reducible refine Part.held ?_); rfl)
    | split
    | dsimp only
    | dsimp only [id]
theorem dropBench_frame {qs : List Part} {s t : State} (i : Nat) (a : OnlyChanges qs s t) (h : ([.control, .stream, .domain, .security] : List Part).all (fun p => qs.contains p) = true) :
    OnlyChanges qs s (dropBench i t) := OnlyChanges.after (dropBench_only i t) a h

theorem eraseSlot_only (i : Nat) (s : State) :
    OnlyChanges [.sill, .control, .counters, .stream, .domain, .security] s (eraseSlot i s) := by
  unfold eraseSlot
  repeat' first
    | with_reducible exact OnlyChanges.refl _ _
    | with_reducible assumption
    | with_reducible apply OnlyChanges.ite
    | with_reducible refine OnlyChanges.each (fun _ _ => ?_) _ ?_
    | with_reducible apply dropBench_frame
    | with_reducible apply modSecurity_frame
    | with_reducible apply modSlot_frame
    | with_reducible apply squelch_frame
    | ((with_reducible refine Part.nested ?_); rfl)
    | ((with_reducible refine Part.held ?_); rfl)
    | split
    | dsimp only
    | dsimp only [id]
theorem eraseSlot_frame {qs : List Part} {s t : State} (i : Nat) (a : OnlyChanges qs s t) (h : ([.sill, .control, .counters, .stream, .domain, .security] : List Part).all (fun p => qs.contains p) = true) :
    OnlyChanges qs s (eraseSlot i t) := OnlyChanges.after (eraseSlot_only i t) a h

theorem eraseSlots_only (s : State) :
    OnlyChanges [.sill, .control, .counters, .stream, .domain, .security] s (eraseSlots s) := by
  unfold eraseSlots
  repeat' first
    | with_reducible exact OnlyChanges.refl _ _
    | with_reducible assumption
    | with_reducible apply OnlyChanges.ite
    | with_reducible refine OnlyChanges.each (fun _ _ => ?_) _ ?_
    | with_reducible apply eraseSlot_frame
    | with_reducible apply modSecurity_frame
    | with_reducible apply modSill_frame
    | ((with_reducible refine Part.nested ?_); rfl)
    | ((with_reducible refine Part.held ?_); rfl)
    | split
    | dsimp only
    | dsimp only [id]
theorem eraseSlots_frame {qs : List Part} {s t : State}  (a : OnlyChanges qs s t) (h : ([.sill, .control, .counters, .stream, .domain, .security] : List Part).all (fun p => qs.contains p) = true) :
    OnlyChanges qs s (eraseSlots t) := OnlyChanges.after (eraseSlots_only t) a h

theorem eraseKeks_only (s : State) :
    OnlyChanges [.sill, .security] s (eraseKeks s) := by
  unfold eraseKeks
  repeat' first
    | with_reducible exact OnlyChanges.refl _ _
    | with_reducible assumption
    | with_reducible apply OnlyChanges.ite
    | with_reducible apply modSecurity_frame
    | with_reducible apply modSill_frame
    | ((with_reducible refine Part.nested ?_); rfl)
    | ((with_reducible refine Part.held ?_); rfl)
    | split
    | dsimp only
    | dsimp only [id]
theorem eraseKeks_frame {qs : List Part} {s t : State}  (a : OnlyChanges qs s t) (h : ([.sill, .security] : List Part).all (fun p => qs.contains p) = true) :
    OnlyChanges qs s (eraseKeks t) := OnlyChanges.after (eraseKeks_only t) a h

theorem eraseClass_only (cls : Nat) (idx : Nat) (src : Nat) (s : State) :
    OnlyChanges [.sill, .control, .counters, .stream, .domain, .security] s (eraseClass cls idx src s) := by
  unfold eraseClass
  repeat' first
    | with_reducible exact OnlyChanges.refl _ _
    | with_reducible assumption
    | with_reducible apply OnlyChanges.ite
    | with_reducible apply eraseKeks_frame
    | with_reducible apply eraseSlot_frame
    | with_reducible apply eraseSlots_frame
    | with_reducible apply erasedEvent_frame
    | with_reducible apply modSecurity_frame
    | ((with_reducible refine Part.nested ?_); rfl)
    | ((with_reducible refine Part.held ?_); rfl)
    | split
    | dsimp only
    | dsimp only [id]
theorem eraseClass_frame {qs : List Part} {s t : State} (cls : Nat) (idx : Nat) (src : Nat) (a : OnlyChanges qs s t) (h : ([.sill, .control, .counters, .stream, .domain, .security] : List Part).all (fun p => qs.contains p) = true) :
    OnlyChanges qs s (eraseClass cls idx src t) := OnlyChanges.after (eraseClass_only cls idx src t) a h

theorem fireAlarm_only (cause : Nat) (s : State) :
    OnlyChanges [.sill, .control, .counters, .stream, .domain, .security] s (fireAlarm cause s) := by
  unfold fireAlarm
  repeat' first
    | with_reducible exact OnlyChanges.refl _ _
    | with_reducible assumption
    | with_reducible apply OnlyChanges.ite
    | with_reducible apply eraseClass_frame
    | with_reducible apply modSecurity_frame
    | with_reducible apply modSill_frame
    | with_reducible apply raise_frame
    | ((with_reducible refine Part.nested ?_); rfl)
    | ((with_reducible refine Part.held ?_); rfl)
    | split
    | dsimp only
    | dsimp only [id]
theorem fireAlarm_frame {qs : List Part} {s t : State} (cause : Nat) (a : OnlyChanges qs s t) (h : ([.sill, .control, .counters, .stream, .domain, .security] : List Part).all (fun p => qs.contains p) = true) :
    OnlyChanges qs s (fireAlarm cause t) := OnlyChanges.after (fireAlarm_only cause t) a h

theorem countAuthFail_only (s : State) :
    OnlyChanges [.sill] s (countAuthFail s) := by
  unfold countAuthFail
  repeat' first
    | with_reducible exact OnlyChanges.refl _ _
    | with_reducible assumption
    | with_reducible apply OnlyChanges.ite
    | with_reducible apply modSill_frame
    | ((with_reducible refine Part.nested ?_); rfl)
    | ((with_reducible refine Part.held ?_); rfl)
    | split
    | dsimp only
    | dsimp only [id]
theorem countAuthFail_frame {qs : List Part} {s t : State}  (a : OnlyChanges qs s t) (h : ([.sill] : List Part).all (fun p => qs.contains p) = true) :
    OnlyChanges qs s (countAuthFail t) := OnlyChanges.after (countAuthFail_only t) a h

theorem authFailure_only (cause : Nat) (s : State) :
    OnlyChanges [.sill, .control, .counters, .stream, .domain, .security] s (authFailure cause s) := by
  unfold authFailure
  repeat' first
    | with_reducible exact OnlyChanges.refl _ _
    | with_reducible assumption
    | with_reducible apply OnlyChanges.ite
    | with_reducible apply countAuthFail_frame
    | with_reducible apply fireAlarm_frame
    | with_reducible apply modSecurity_frame
    | ((with_reducible refine Part.nested ?_); rfl)
    | ((with_reducible refine Part.held ?_); rfl)
    | split
    | dsimp only
    | dsimp only [id]
theorem authFailure_frame {qs : List Part} {s t : State} (cause : Nat) (a : OnlyChanges qs s t) (h : ([.sill, .control, .counters, .stream, .domain, .security] : List Part).all (fun p => qs.contains p) = true) :
    OnlyChanges qs s (authFailure cause t) := OnlyChanges.after (authFailure_only cause t) a h

theorem deferredAlarms_only (s : State) :
    OnlyChanges [.sill, .control, .counters, .security] s (deferredAlarms s) := by
  unfold deferredAlarms
  repeat' first
    | with_reducible exact OnlyChanges.refl _ _
    | with_reducible assumption
    | with_reducible apply OnlyChanges.ite
    | with_reducible refine OnlyChanges.each (fun _ _ => ?_) _ ?_
    | with_reducible apply modSecurity_frame
    | with_reducible apply raise_frame
    | ((with_reducible refine Part.nested ?_); rfl)
    | ((with_reducible refine Part.held ?_); rfl)
    | split
    | dsimp only
    | dsimp only [id]
theorem deferredAlarms_frame {qs : List Part} {s t : State}  (a : OnlyChanges qs s t) (h : ([.sill, .control, .counters, .security] : List Part).all (fun p => qs.contains p) = true) :
    OnlyChanges qs s (deferredAlarms t) := OnlyChanges.after (deferredAlarms_only t) a h

end Sys2Proof.Machine
end

