-- ==== Sys2Proof/Laws/FrameViews.lean ====
section
/-! SUPPORT. What each operation of Views.lean may change. -/

-- One theorem after another: with a thread for each, the package as one text outgrows the checker's memory limit.
set_option Elab.async false

namespace Sys2Proof.Machine

theorem dropTag_only (x0 : Nat) (s : State) :
    OnlyChanges [.security] s (dropTag x0 s) := by
  unfold dropTag
  repeat' first
    | with_reducible exact OnlyChanges.refl _ _
    | with_reducible assumption
    | with_reducible apply OnlyChanges.ite
    | with_reducible apply modChannel_frame
    | ((with_reducible refine Part.nested ?_); rfl)
    | ((with_reducible refine Part.held ?_); rfl)
    | split
    | dsimp only
    | dsimp only [id]
theorem dropTag_frame {qs : List Part} {s t : State} (x0 : Nat) (a : OnlyChanges qs s t) (h : ([.security] : List Part).all (fun p => qs.contains p) = true) :
    OnlyChanges qs s (dropTag x0 t) := OnlyChanges.after (dropTag_only x0 t) a h

end Sys2Proof.Machine
end

