-- ==== Sys2Proof/Laws/FrameCalOps.lean ====
section
/-! SUPPORT. What each operation of CalOps.lean may change. -/

-- One theorem after another: with a thread for each, the package as one text outgrows the checker's memory limit.
set_option Elab.async false

namespace Sys2Proof.Machine

theorem modElem_only (x0 : Nat) (p : Nat) (i : Nat) (f : Element → Element) (s : State) :
    OnlyChanges [.elements] s (modElem x0 p i f s) := by
  unfold modElem
  repeat' first
    | with_reducible exact OnlyChanges.refl _ _
    | with_reducible assumption
    | with_reducible apply OnlyChanges.ite
    | ((with_reducible refine Part.nested ?_); rfl)
    | ((with_reducible refine Part.held ?_); rfl)
    | split
    | dsimp only
    | dsimp only [id]
    | with_reducible apply set_elements
theorem modElem_frame {qs : List Part} {s t : State} (x0 : Nat) (p : Nat) (i : Nat) (f : Element → Element) (a : OnlyChanges qs s t) (h : ([.elements] : List Part).all (fun p => qs.contains p) = true) :
    OnlyChanges qs s (modElem x0 p i f t) := OnlyChanges.after (modElem_only x0 p i f t) a h

theorem rejectElem_only (x0 : Nat) (p : Nat) (i : Nat) (full : Bool) (s : State) :
    OnlyChanges [.sill, .control, .counters, .cal, .elements] s (rejectElem x0 p i full s) := by
  unfold rejectElem
  repeat' first
    | with_reducible exact OnlyChanges.refl _ _
    | with_reducible assumption
    | with_reducible apply OnlyChanges.ite
    | with_reducible apply modCal_frame
    | with_reducible apply modElem_frame
    | with_reducible apply raise_frame
    | ((with_reducible refine Part.nested ?_); rfl)
    | ((with_reducible refine Part.held ?_); rfl)
    | split
    | dsimp only
    | dsimp only [id]
theorem rejectElem_frame {qs : List Part} {s t : State} (x0 : Nat) (p : Nat) (i : Nat) (full : Bool) (a : OnlyChanges qs s t) (h : ([.sill, .control, .counters, .cal, .elements] : List Part).all (fun p => qs.contains p) = true) :
    OnlyChanges qs s (rejectElem x0 p i full t) := OnlyChanges.after (rejectElem_only x0 p i full t) a h

theorem supersede_only (x0 : Nat) (p : Nat) (i : Nat) (s : State) :
    OnlyChanges [.sill, .control, .counters, .cal, .elements] s (supersede x0 p i s) := by
  unfold supersede
  repeat' first
    | with_reducible exact OnlyChanges.refl _ _
    | with_reducible assumption
    | with_reducible apply OnlyChanges.ite
    | with_reducible apply modCal_frame
    | with_reducible apply modElem_frame
    | with_reducible apply rejectElem_frame
    | ((with_reducible refine Part.nested ?_); rfl)
    | ((with_reducible refine Part.held ?_); rfl)
    | split
    | dsimp only
    | dsimp only [id]
theorem supersede_frame {qs : List Part} {s t : State} (x0 : Nat) (p : Nat) (i : Nat) (a : OnlyChanges qs s t) (h : ([.sill, .control, .counters, .cal, .elements] : List Part).all (fun p => qs.contains p) = true) :
    OnlyChanges qs s (supersede x0 p i t) := OnlyChanges.after (supersede_only x0 p i t) a h

theorem supersedeAll_only (x0 : Nat) (s : State) :
    OnlyChanges [.sill, .control, .counters, .cal, .elements] s (supersedeAll x0 s) := by
  unfold supersedeAll
  repeat' first
    | with_reducible exact OnlyChanges.refl _ _
    | with_reducible assumption
    | with_reducible apply OnlyChanges.ite
    | with_reducible refine OnlyChanges.each (fun _ _ => ?_) _ ?_
    | with_reducible apply modCal_frame
    | with_reducible apply supersede_frame
    | ((with_reducible refine Part.nested ?_); rfl)
    | ((with_reducible refine Part.held ?_); rfl)
    | split
    | dsimp only
    | dsimp only [id]
theorem supersedeAll_frame {qs : List Part} {s t : State} (x0 : Nat) (a : OnlyChanges qs s t) (h : ([.sill, .control, .counters, .cal, .elements] : List Part).all (fun p => qs.contains p) = true) :
    OnlyChanges qs s (supersedeAll x0 t) := OnlyChanges.after (supersedeAll_only x0 t) a h

theorem suspendSources_only (x0 : Nat) (s : State) :
    OnlyChanges [.cal] s (suspendSources x0 s) := by
  unfold suspendSources
  repeat' first
    | with_reducible exact OnlyChanges.refl _ _
    | with_reducible assumption
    | with_reducible apply OnlyChanges.ite
    | with_reducible apply modCal_frame
    | ((with_reducible refine Part.nested ?_); rfl)
    | ((with_reducible refine Part.held ?_); rfl)
    | split
    | dsimp only
    | dsimp only [id]
theorem suspendSources_frame {qs : List Part} {s t : State} (x0 : Nat) (a : OnlyChanges qs s t) (h : ([.cal] : List Part).all (fun p => qs.contains p) = true) :
    OnlyChanges qs s (suspendSources x0 t) := OnlyChanges.after (suspendSources_only x0 t) a h

theorem dropInservice_only (x0 : Nat) (tx : Bool) (s : State) :
    OnlyChanges [.elements] s (dropInservice x0 tx s) := by
  unfold dropInservice
  repeat' first
    | with_reducible exact OnlyChanges.refl _ _
    | with_reducible assumption
    | with_reducible apply OnlyChanges.ite
    | with_reducible refine OnlyChanges.each (fun _ _ => ?_) _ ?_
    | with_reducible apply modElem_frame
    | ((with_reducible refine Part.nested ?_); rfl)
    | ((with_reducible refine Part.held ?_); rfl)
    | split
    | dsimp only
    | dsimp only [id]
theorem dropInservice_frame {qs : List Part} {s t : State} (x0 : Nat) (tx : Bool) (a : OnlyChanges qs s t) (h : ([.elements] : List Part).all (fun p => qs.contains p) = true) :
    OnlyChanges qs s (dropInservice x0 tx t) := OnlyChanges.after (dropInservice_only x0 tx t) a h

theorem startFullCal_only (x0 : Nat) (tx : Bool) (s : State) :
    OnlyChanges [.cal, .elements, .carrier] s (startFullCal x0 tx s) := by
  unfold startFullCal
  repeat' first
    | with_reducible exact OnlyChanges.refl _ _
    | with_reducible assumption
    | with_reducible apply OnlyChanges.ite
    | with_reducible apply dropInservice_frame
    | with_reducible apply modCal_frame
    | with_reducible apply modCu_frame
    | ((with_reducible refine Part.nested ?_); rfl)
    | ((with_reducible refine Part.held ?_); rfl)
    | split
    | dsimp only
    | dsimp only [id]
theorem startFullCal_frame {qs : List Part} {s t : State} (x0 : Nat) (tx : Bool) (a : OnlyChanges qs s t) (h : ([.cal, .elements, .carrier] : List Part).all (fun p => qs.contains p) = true) :
    OnlyChanges qs s (startFullCal x0 tx t) := OnlyChanges.after (startFullCal_only x0 tx t) a h

theorem biasDown_only (x0 : Nat) (s : State) :
    OnlyChanges [.cal] s (biasDown x0 s) := by
  unfold biasDown
  repeat' first
    | with_reducible exact OnlyChanges.refl _ _
    | with_reducible assumption
    | with_reducible apply OnlyChanges.ite
    | with_reducible apply modCal_frame
    | ((with_reducible refine Part.nested ?_); rfl)
    | ((with_reducible refine Part.held ?_); rfl)
    | split
    | dsimp only
    | dsimp only [id]
theorem biasDown_frame {qs : List Part} {s t : State} (x0 : Nat) (a : OnlyChanges qs s t) (h : ([.cal] : List Part).all (fun p => qs.contains p) = true) :
    OnlyChanges qs s (biasDown x0 t) := OnlyChanges.after (biasDown_only x0 t) a h

theorem biasUp_only (x0 : Nat) (s : State) :
    OnlyChanges [.cal] s (biasUp x0 s) := by
  unfold biasUp
  repeat' first
    | with_reducible exact OnlyChanges.refl _ _
    | with_reducible assumption
    | with_reducible apply OnlyChanges.ite
    | with_reducible apply modCal_frame
    | ((with_reducible refine Part.nested ?_); rfl)
    | ((with_reducible refine Part.held ?_); rfl)
    | split
    | dsimp only
    | dsimp only [id]
theorem biasUp_frame {qs : List Part} {s t : State} (x0 : Nat) (a : OnlyChanges qs s t) (h : ([.cal] : List Part).all (fun p => qs.contains p) = true) :
    OnlyChanges qs s (biasUp x0 t) := OnlyChanges.after (biasUp_only x0 t) a h

theorem enterP4_only (cls : Nat) (idx : Nat) (s : State) :
    OnlyChanges [.power, .cal, .elements, .carrier] s (enterP4 cls idx s) := by
  unfold enterP4
  repeat' first
    | with_reducible exact OnlyChanges.refl _ _
    | with_reducible assumption
    | with_reducible apply OnlyChanges.ite
    | with_reducible apply biasDown_frame
    | with_reducible apply dropInservice_frame
    | with_reducible apply modCal_frame
    | with_reducible apply modCu_frame
    | with_reducible apply modDom_frame
    | ((with_reducible refine Part.nested ?_); rfl)
    | ((with_reducible refine Part.held ?_); rfl)
    | split
    | dsimp only
    | dsimp only [id]
theorem enterP4_frame {qs : List Part} {s t : State} (cls : Nat) (idx : Nat) (a : OnlyChanges qs s t) (h : ([.power, .cal, .elements, .carrier] : List Part).all (fun p => qs.contains p) = true) :
    OnlyChanges qs s (enterP4 cls idx t) := OnlyChanges.after (enterP4_only cls idx t) a h

theorem stepElement_only (x0 : Nat) (p : Nat) (i : Nat) (s : State) :
    OnlyChanges [.cal, .elements] s (stepElement x0 p i s) := by
  unfold stepElement
  repeat' first
    | with_reducible exact OnlyChanges.refl _ _
    | with_reducible assumption
    | with_reducible apply OnlyChanges.ite
    | with_reducible apply modCal_frame
    | with_reducible apply modElem_frame
    | ((with_reducible refine Part.nested ?_); rfl)
    | ((with_reducible refine Part.held ?_); rfl)
    | split
    | dsimp only
    | dsimp only [id]
theorem stepElement_frame {qs : List Part} {s t : State} (x0 : Nat) (p : Nat) (i : Nat) (a : OnlyChanges qs s t) (h : ([.cal, .elements] : List Part).all (fun p => qs.contains p) = true) :
    OnlyChanges qs s (stepElement x0 p i t) := OnlyChanges.after (stepElement_only x0 p i t) a h

theorem stepTrims_only (x0 : Nat) (tx : Bool) (fresh : Bool) (may : Nat × Nat → Bool) (s : State) :
    OnlyChanges [.cal, .elements] s (stepTrims x0 tx fresh may s) := by
  unfold stepTrims
  repeat' first
    | with_reducible exact OnlyChanges.refl _ _
    | with_reducible assumption
    | with_reducible apply OnlyChanges.ite
    | with_reducible refine OnlyChanges.each (fun _ _ => ?_) _ ?_
    | with_reducible apply stepElement_frame
    | ((with_reducible refine Part.nested ?_); rfl)
    | ((with_reducible refine Part.held ?_); rfl)
    | split
    | dsimp only
    | dsimp only [id]
theorem stepTrims_frame {qs : List Part} {s t : State} (x0 : Nat) (tx : Bool) (fresh : Bool) (may : Nat × Nat → Bool) (a : OnlyChanges qs s t) (h : ([.cal, .elements] : List Part).all (fun p => qs.contains p) = true) :
    OnlyChanges qs s (stepTrims x0 tx fresh may t) := OnlyChanges.after (stepTrims_only x0 tx fresh may t) a h

theorem replyOverlays_only (x0 : Nat) (s : State) :
    OnlyChanges [.control, .stream, .domain, .security] s (replyOverlays x0 s) := by
  unfold replyOverlays
  repeat' first
    | with_reducible exact OnlyChanges.refl _ _
    | with_reducible assumption
    | with_reducible apply OnlyChanges.ite
    | with_reducible refine OnlyChanges.each (fun _ _ => ?_) _ ?_
    | with_reducible apply completeEntry_frame
    | ((with_reducible refine Part.nested ?_); rfl)
    | ((with_reducible refine Part.held ?_); rfl)
    | split
    | dsimp only
    | dsimp only [id]
theorem replyOverlays_frame {qs : List Part} {s t : State} (x0 : Nat) (a : OnlyChanges qs s t) (h : ([.control, .stream, .domain, .security] : List Part).all (fun p => qs.contains p) = true) :
    OnlyChanges qs s (replyOverlays x0 t) := OnlyChanges.after (replyOverlays_only x0 t) a h

theorem endRound_only (x0 : Nat) (s : State) :
    OnlyChanges [.sill, .control, .counters, .cal] s (endRound x0 s) := by
  unfold endRound
  repeat' first
    | with_reducible exact OnlyChanges.refl _ _
    | with_reducible assumption
    | with_reducible apply OnlyChanges.ite
    | with_reducible apply modCal_frame
    | with_reducible apply raise_frame
    | ((with_reducible refine Part.nested ?_); rfl)
    | ((with_reducible refine Part.held ?_); rfl)
    | split
    | dsimp only
    | dsimp only [id]
theorem endRound_frame {qs : List Part} {s t : State} (x0 : Nat) (a : OnlyChanges qs s t) (h : ([.sill, .control, .counters, .cal] : List Part).all (fun p => qs.contains p) = true) :
    OnlyChanges qs s (endRound x0 t) := OnlyChanges.after (endRound_only x0 t) a h

theorem calBoundary_only (x0 : Nat) (tx : Bool) (fresh : Bool) (s : State) :
    OnlyChanges [.sill, .control, .counters, .stream, .domain, .cal, .elements, .security] s (calBoundary x0 tx fresh s) := by
  unfold calBoundary
  repeat' first
    | with_reducible exact OnlyChanges.refl _ _
    | with_reducible assumption
    | with_reducible apply OnlyChanges.ite
    | with_reducible apply endRound_frame
    | with_reducible apply modCal_frame
    | with_reducible apply replyOverlays_frame
    | with_reducible apply stepTrims_frame
    | ((with_reducible refine Part.nested ?_); rfl)
    | ((with_reducible refine Part.held ?_); rfl)
    | split
    | dsimp only
    | dsimp only [id]
theorem calBoundary_frame {qs : List Part} {s t : State} (x0 : Nat) (tx : Bool) (fresh : Bool) (a : OnlyChanges qs s t) (h : ([.sill, .control, .counters, .stream, .domain, .cal, .elements, .security] : List Part).all (fun p => qs.contains p) = true) :
    OnlyChanges qs s (calBoundary x0 tx fresh t) := OnlyChanges.after (calBoundary_only x0 tx fresh t) a h

theorem settleTrims_only (x0 : Nat) (tx : Bool) (s : State) :
    OnlyChanges [.sill, .control, .counters, .stream, .domain, .cal, .elements, .security] s (settleTrims x0 tx s) := by
  unfold settleTrims
  repeat' first
    | with_reducible exact OnlyChanges.refl _ _
    | with_reducible assumption
    | with_reducible apply OnlyChanges.ite
    | with_reducible refine OnlyChanges.each (fun _ _ => ?_) _ ?_
    | with_reducible apply endRound_frame
    | with_reducible apply modElem_frame
    | with_reducible apply replyOverlays_frame
    | ((with_reducible refine Part.nested ?_); rfl)
    | ((with_reducible refine Part.held ?_); rfl)
    | split
    | dsimp only
    | dsimp only [id]
theorem settleTrims_frame {qs : List Part} {s t : State} (x0 : Nat) (tx : Bool) (a : OnlyChanges qs s t) (h : ([.sill, .control, .counters, .stream, .domain, .cal, .elements, .security] : List Part).all (fun p => qs.contains p) = true) :
    OnlyChanges qs s (settleTrims x0 tx t) := OnlyChanges.after (settleTrims_only x0 tx t) a h

end Sys2Proof.Machine
end

