-- ==== Sys2Proof/Laws/FramePowerOps.lean ====
section
/-! SUPPORT. What each operation of PowerOps.lean may change. -/

-- One theorem after another: with a thread for each, the package as one text outgrows the checker's memory limit.
set_option Elab.async false

namespace Sys2Proof.Machine

theorem settlePlls_only (s : State) :
    OnlyChanges [.power] s (settlePlls s) := by
  unfold settlePlls
  repeat' first
    | with_reducible exact OnlyChanges.refl _ _
    | with_reducible assumption
    | with_reducible apply OnlyChanges.ite
    | with_reducible refine OnlyChanges.each (fun _ _ => ?_) _ ?_
    | with_reducible apply modPower_frame
    | ((with_reducible refine Part.nested ?_); rfl)
    | ((with_reducible refine Part.held ?_); rfl)
    | split
    | dsimp only
    | dsimp only [id]
theorem settlePlls_frame {qs : List Part} {s t : State}  (a : OnlyChanges qs s t) (h : ([.power] : List Part).all (fun p => qs.contains p) = true) :
    OnlyChanges qs s (settlePlls t) := OnlyChanges.after (settlePlls_only t) a h

theorem trainQuad_only (q : Nat) (s : State) :
    OnlyChanges [.client] s (trainQuad q s) := by
  unfold trainQuad
  repeat' first
    | with_reducible exact OnlyChanges.refl _ _
    | with_reducible assumption
    | with_reducible apply OnlyChanges.ite
    | ((with_reducible refine Part.nested ?_); rfl)
    | ((with_reducible refine Part.held ?_); rfl)
    | split
    | dsimp only
    | dsimp only [id]
    | with_reducible apply set_client
theorem trainQuad_frame {qs : List Part} {s t : State} (q : Nat) (a : OnlyChanges qs s t) (h : ([.client] : List Part).all (fun p => qs.contains p) = true) :
    OnlyChanges qs s (trainQuad q t) := OnlyChanges.after (trainQuad_only q t) a h

theorem trainLanes_only (cls : Nat) (idx : Nat) (s : State) :
    OnlyChanges [.client] s (trainLanes cls idx s) := by
  unfold trainLanes
  repeat' first
    | with_reducible exact OnlyChanges.refl _ _
    | with_reducible assumption
    | with_reducible apply OnlyChanges.ite
    | with_reducible apply trainQuad_frame
    | ((with_reducible refine Part.nested ?_); rfl)
    | ((with_reducible refine Part.held ?_); rfl)
    | split
    | dsimp only
    | dsimp only [id]
theorem trainLanes_frame {qs : List Part} {s t : State} (cls : Nat) (idx : Nat) (a : OnlyChanges qs s t) (h : ([.client] : List Part).all (fun p => qs.contains p) = true) :
    OnlyChanges qs s (trainLanes cls idx t) := OnlyChanges.after (trainLanes_only cls idx t) a h

theorem startExit_only (cls : Nat) (idx : Nat) (s : State) :
    OnlyChanges [.power, .cal, .elements, .carrier, .client] s (startExit cls idx s) := by
  unfold startExit
  repeat' first
    | with_reducible exact OnlyChanges.refl _ _
    | with_reducible assumption
    | with_reducible apply OnlyChanges.ite
    | with_reducible apply modDom_frame
    | with_reducible apply settlePlls_frame
    | with_reducible apply startFullCal_frame
    | with_reducible apply trainLanes_frame
    | ((with_reducible refine Part.nested ?_); rfl)
    | ((with_reducible refine Part.held ?_); rfl)
    | split
    | dsimp only
    | dsimp only [id]
theorem startExit_frame {qs : List Part} {s t : State} (cls : Nat) (idx : Nat) (a : OnlyChanges qs s t) (h : ([.power, .cal, .elements, .carrier, .client] : List Part).all (fun p => qs.contains p) = true) :
    OnlyChanges qs s (startExit cls idx t) := OnlyChanges.after (startExit_only cls idx t) a h

theorem demand_only (cls : Nat) (idx : Nat) (s : State) :
    OnlyChanges [.power, .cal, .elements, .carrier, .client] s (demand cls idx s) := by
  unfold demand
  repeat' first
    | with_reducible exact OnlyChanges.refl _ _
    | with_reducible assumption
    | with_reducible apply OnlyChanges.ite
    | with_reducible apply startExit_frame
    | ((with_reducible refine Part.nested ?_); rfl)
    | ((with_reducible refine Part.held ?_); rfl)
    | split
    | dsimp only
    | dsimp only [id]
theorem demand_frame {qs : List Part} {s t : State} (cls : Nat) (idx : Nat) (a : OnlyChanges qs s t) (h : ([.power, .cal, .elements, .carrier, .client] : List Part).all (fun p => qs.contains p) = true) :
    OnlyChanges qs s (demand cls idx t) := OnlyChanges.after (demand_only cls idx t) a h

theorem holdOff_only (cls : Nat) (idx : Nat) (s : State) :
    OnlyChanges [.power, .cal, .elements, .carrier] s (holdOff cls idx s) := by
  unfold holdOff
  repeat' first
    | with_reducible exact OnlyChanges.refl _ _
    | with_reducible assumption
    | with_reducible apply OnlyChanges.ite
    | with_reducible apply enterP4_frame
    | with_reducible apply settlePlls_frame
    | ((with_reducible refine Part.nested ?_); rfl)
    | ((with_reducible refine Part.held ?_); rfl)
    | split
    | dsimp only
    | dsimp only [id]
theorem holdOff_frame {qs : List Part} {s t : State} (cls : Nat) (idx : Nat) (a : OnlyChanges qs s t) (h : ([.power, .cal, .elements, .carrier] : List Part).all (fun p => qs.contains p) = true) :
    OnlyChanges qs s (holdOff cls idx t) := OnlyChanges.after (holdOff_only cls idx t) a h

theorem followEnable_only (cls : Nat) (idx : Nat) (s : State) :
    OnlyChanges [.power, .cal, .elements, .carrier, .client] s (followEnable cls idx s) := by
  unfold followEnable
  repeat' first
    | with_reducible exact OnlyChanges.refl _ _
    | with_reducible assumption
    | with_reducible apply OnlyChanges.ite
    | with_reducible apply holdOff_frame
    | with_reducible apply modDom_frame
    | with_reducible apply settlePlls_frame
    | with_reducible apply startExit_frame
    | ((with_reducible refine Part.nested ?_); rfl)
    | ((with_reducible refine Part.held ?_); rfl)
    | split
    | dsimp only
    | dsimp only [id]
theorem followEnable_frame {qs : List Part} {s t : State} (cls : Nat) (idx : Nat) (a : OnlyChanges qs s t) (h : ([.power, .cal, .elements, .carrier, .client] : List Part).all (fun p => qs.contains p) = true) :
    OnlyChanges qs s (followEnable cls idx t) := OnlyChanges.after (followEnable_only cls idx t) a h

theorem followQuads_only (s : State) :
    OnlyChanges [.power, .cal, .elements, .carrier, .client] s (followQuads s) := by
  unfold followQuads
  repeat' first
    | with_reducible exact OnlyChanges.refl _ _
    | with_reducible assumption
    | with_reducible apply OnlyChanges.ite
    | with_reducible refine OnlyChanges.each (fun _ _ => ?_) _ ?_
    | with_reducible apply followEnable_frame
    | ((with_reducible refine Part.nested ?_); rfl)
    | ((with_reducible refine Part.held ?_); rfl)
    | split
    | dsimp only
    | dsimp only [id]
theorem followQuads_frame {qs : List Part} {s t : State}  (a : OnlyChanges qs s t) (h : ([.power, .cal, .elements, .carrier, .client] : List Part).all (fun p => qs.contains p) = true) :
    OnlyChanges qs s (followQuads t) := OnlyChanges.after (followQuads_only t) a h

theorem setTolerance_only (cls : Nat) (idx : Nat) (tol : Nat) (s : State) :
    OnlyChanges [.power, .cal, .elements, .carrier, .client] s (setTolerance cls idx tol s) := by
  unfold setTolerance
  repeat' first
    | with_reducible exact OnlyChanges.refl _ _
    | with_reducible assumption
    | with_reducible apply OnlyChanges.ite
    | with_reducible apply modDom_frame
    | with_reducible apply startExit_frame
    | ((with_reducible refine Part.nested ?_); rfl)
    | ((with_reducible refine Part.held ?_); rfl)
    | split
    | dsimp only
    | dsimp only [id]
theorem setTolerance_frame {qs : List Part} {s t : State} (cls : Nat) (idx : Nat) (tol : Nat) (a : OnlyChanges qs s t) (h : ([.power, .cal, .elements, .carrier, .client] : List Part).all (fun p => qs.contains p) = true) :
    OnlyChanges qs s (setTolerance cls idx tol t) := OnlyChanges.after (setTolerance_only cls idx tol t) a h

theorem reachP0_only (cls : Nat) (idx : Nat) (s : State) :
    OnlyChanges [.sill, .power, .control, .counters] s (reachP0 cls idx s) := by
  unfold reachP0
  repeat' first
    | with_reducible exact OnlyChanges.refl _ _
    | with_reducible assumption
    | with_reducible apply OnlyChanges.ite
    | with_reducible apply modDom_frame
    | with_reducible apply raise_frame
    | with_reducible apply settlePlls_frame
    | ((with_reducible refine Part.nested ?_); rfl)
    | ((with_reducible refine Part.held ?_); rfl)
    | split
    | dsimp only
    | dsimp only [id]
theorem reachP0_frame {qs : List Part} {s t : State} (cls : Nat) (idx : Nat) (a : OnlyChanges qs s t) (h : ([.sill, .power, .control, .counters] : List Part).all (fun p => qs.contains p) = true) :
    OnlyChanges qs s (reachP0 cls idx t) := OnlyChanges.after (reachP0_only cls idx t) a h

theorem wakeNow_only (cls : Nat) (idx : Nat) (s : State) :
    OnlyChanges [.sill, .power, .control, .counters] s (wakeNow cls idx s) := by
  unfold wakeNow
  repeat' first
    | with_reducible exact OnlyChanges.refl _ _
    | with_reducible assumption
    | with_reducible apply OnlyChanges.ite
    | with_reducible apply modPower_frame
    | with_reducible apply reachP0_frame
    | ((with_reducible refine Part.nested ?_); rfl)
    | ((with_reducible refine Part.held ?_); rfl)
    | split
    | dsimp only
    | dsimp only [id]
theorem wakeNow_frame {qs : List Part} {s t : State} (cls : Nat) (idx : Nat) (a : OnlyChanges qs s t) (h : ([.sill, .power, .control, .counters] : List Part).all (fun p => qs.contains p) = true) :
    OnlyChanges qs s (wakeNow cls idx t) := OnlyChanges.after (wakeNow_only cls idx t) a h

theorem needDomain_only (cls : Nat) (idx : Nat) (s : State) :
    PairChanges [.sill, .power, .control, .counters, .cal, .elements, .carrier, .client] s (needDomain cls idx s) := by
  unfold needDomain
  repeat' first
    | with_reducible exact OnlyChanges.refl _ _
    | with_reducible assumption
    | with_reducible apply PairChanges.ite
    | with_reducible apply OnlyChanges.ite
    | with_reducible apply modDom_frame
    | with_reducible apply startExit_frame
    | with_reducible apply wakeNow_frame
    | ((with_reducible refine Part.nested ?_); rfl)
    | ((with_reducible refine Part.held ?_); rfl)
    | split
    | dsimp only
    | dsimp only [id]
    | with_reducible apply PairChanges.mk
theorem needDomain_frame {qs : List Part} {s t : State} (cls : Nat) (idx : Nat) (a : OnlyChanges qs s t) (h : ([.sill, .power, .control, .counters, .cal, .elements, .carrier, .client] : List Part).all (fun p => qs.contains p) = true) :
    OnlyChanges qs s (needDomain cls idx t).2 := OnlyChanges.after (needDomain_only cls idx t) a h
theorem needDomain_pair {qs : List Part} {s t : State} (cls : Nat) (idx : Nat) (a : OnlyChanges qs s t) (h : ([.sill, .power, .control, .counters, .cal, .elements, .carrier, .client] : List Part).all (fun p => qs.contains p) = true) :
    PairChanges qs s (needDomain cls idx t) := OnlyChanges.after (needDomain_only cls idx t) a h
theorem needDomain_snd {qs : List Part} {s t u : State} {cls : Nat} {idx : Nat} {y : _} (e : (needDomain cls idx t) = (y, u)) (a : OnlyChanges qs s t) (h : ([.sill, .power, .control, .counters, .cal, .elements, .carrier, .client] : List Part).all (fun p => qs.contains p) = true) :
    OnlyChanges qs s u := PairChanges.snd (needDomain_only cls idx t) e a h

/-- ST_BUSY while the domain is not awake, or the rest. -/
theorem needing_frame {qs : List Part} {s t : State} (cls idx : Nat) (k : State → Reply) (a : OnlyChanges qs s t)
    (g : ([.sill, .power, .control, .counters, .cal, .elements, .carrier, .client] : List Part).all (fun p => qs.contains p) = true)
    (h : ∀ u, ReplyChanges qs u (k u)) : ReplyChanges qs s (needing cls idx t k) := by
  have b : OnlyChanges qs s (needDomain cls idx t).2 := needDomain_frame cls idx a g
  unfold needing
  dsimp only
  split
  · exact ReplyChanges.from b (h _)
  · exact b


/-- ST_BUSY while one of the domains is not awake, or the rest. -/
theorem needingAll_frame {qs : List Part} (cls : Nat) (k : State → Reply)
    (g : ([.sill, .power, .control, .counters, .cal, .elements, .carrier, .client] : List Part).all (fun p => qs.contains p) = true) (h : ∀ u, ReplyChanges qs u (k u)) :
    ∀ (is : List Nat) {s t : State}, OnlyChanges qs s t → ReplyChanges qs s (needingAll cls is t k)
  | [], _, _, a => ReplyChanges.from a (h _)
  | i :: r, _, _, a => needing_frame cls i _ a g (fun _ => needingAll_frame cls k g h r (OnlyChanges.refl _ _))


theorem rouse_only (cls : Nat) (idx : Nat) (s : State) :
    OnlyChanges [.sill, .power, .control, .counters, .cal, .elements, .carrier, .client] s (rouse cls idx s) := by
  unfold rouse
  repeat' first
    | with_reducible exact OnlyChanges.refl _ _
    | with_reducible assumption
    | with_reducible apply OnlyChanges.ite
    | with_reducible apply startExit_frame
    | with_reducible apply wakeNow_frame
    | ((with_reducible refine Part.nested ?_); rfl)
    | ((with_reducible refine Part.held ?_); rfl)
    | split
    | dsimp only
    | dsimp only [id]
theorem rouse_frame {qs : List Part} {s t : State} (cls : Nat) (idx : Nat) (a : OnlyChanges qs s t) (h : ([.sill, .power, .control, .counters, .cal, .elements, .carrier, .client] : List Part).all (fun p => qs.contains p) = true) :
    OnlyChanges qs s (rouse cls idx t) := OnlyChanges.after (rouse_only cls idx t) a h

end Sys2Proof.Machine
end

