-- ==== Sys2Proof/Laws/FrameTwinOps.lean ====
section
/-! SUPPORT. What each operation of TwinOps.lean may change. -/

-- One theorem after another: with a thread for each, the package as one text outgrows the checker's memory limit.
set_option Elab.async false

namespace Sys2Proof.Machine

theorem modProtect_only (f : Protect → Protect) (s : State) :
    OnlyChanges [.protect] s (modProtect f s) := by
  unfold modProtect
  repeat' first
    | with_reducible exact OnlyChanges.refl _ _
    | with_reducible assumption
    | with_reducible apply OnlyChanges.ite
    | ((with_reducible refine Part.nested ?_); rfl)
    | ((with_reducible refine Part.held ?_); rfl)
    | split
    | dsimp only
    | dsimp only [id]
    | with_reducible apply set_protect
theorem modProtect_frame {qs : List Part} {s t : State} (f : Protect → Protect) (a : OnlyChanges qs s t) (h : ([.protect] : List Part).all (fun p => qs.contains p) = true) :
    OnlyChanges qs s (modProtect f t) := OnlyChanges.after (modProtect_only f t) a h

theorem modTwin_only (g : Nat) (f : Twin → Twin) (s : State) :
    OnlyChanges [.protect] s (modTwin g f s) := by
  unfold modTwin
  repeat' first
    | with_reducible exact OnlyChanges.refl _ _
    | with_reducible assumption
    | with_reducible apply OnlyChanges.ite
    | with_reducible apply modProtect_frame
    | ((with_reducible refine Part.nested ?_); rfl)
    | ((with_reducible refine Part.held ?_); rfl)
    | split
    | dsimp only
    | dsimp only [id]
theorem modTwin_frame {qs : List Part} {s t : State} (g : Nat) (f : Twin → Twin) (a : OnlyChanges qs s t) (h : ([.protect] : List Part).all (fun p => qs.contains p) = true) :
    OnlyChanges qs s (modTwin g f t) := OnlyChanges.after (modTwin_only g f t) a h

theorem modMirror_only (f : Mirror → Mirror) (s : State) :
    OnlyChanges [.protect] s (modMirror f s) := by
  unfold modMirror
  repeat' first
    | with_reducible exact OnlyChanges.refl _ _
    | with_reducible assumption
    | with_reducible apply OnlyChanges.ite
    | with_reducible apply modProtect_frame
    | ((with_reducible refine Part.nested ?_); rfl)
    | ((with_reducible refine Part.held ?_); rfl)
    | split
    | dsimp only
    | dsimp only [id]
theorem modMirror_frame {qs : List Part} {s t : State} (f : Mirror → Mirror) (a : OnlyChanges qs s t) (h : ([.protect] : List Part).all (fun p => qs.contains p) = true) :
    OnlyChanges qs s (modMirror f t) := OnlyChanges.after (modMirror_only f t) a h

theorem twinEvent_only (g : Nat) (old : Nat) (cause : Option Nat) (s : State) :
    OnlyChanges [.sill, .control, .counters, .fresh] s (twinEvent g old cause s) := by
  unfold twinEvent
  repeat' first
    | with_reducible exact OnlyChanges.refl _ _
    | with_reducible assumption
    | with_reducible apply OnlyChanges.ite
    | with_reducible apply drawBelow_frame
    | with_reducible refine drawBelow_snd (by assumption) ?_ ?_
    | with_reducible apply raise_frame
    | ((with_reducible refine Part.nested ?_); rfl)
    | ((with_reducible refine Part.held ?_); rfl)
    | split
    | dsimp only
    | dsimp only [id]
theorem twinEvent_frame {qs : List Part} {s t : State} (g : Nat) (old : Nat) (cause : Option Nat) (a : OnlyChanges qs s t) (h : ([.sill, .control, .counters, .fresh] : List Part).all (fun p => qs.contains p) = true) :
    OnlyChanges qs s (twinEvent g old cause t) := OnlyChanges.after (twinEvent_only g old cause t) a h

theorem rebaseTo_only (g : Nat) (k : Nat) (s : State) :
    OnlyChanges [.counters, .protect] s (rebaseTo g k s) := by
  unfold rebaseTo
  repeat' first
    | with_reducible exact OnlyChanges.refl _ _
    | with_reducible assumption
    | with_reducible apply OnlyChanges.ite
    | with_reducible apply bump_frame
    | with_reducible apply modTwin_frame
    | ((with_reducible refine Part.nested ?_); rfl)
    | ((with_reducible refine Part.held ?_); rfl)
    | split
    | dsimp only
    | dsimp only [id]
theorem rebaseTo_frame {qs : List Part} {s t : State} (g : Nat) (k : Nat) (a : OnlyChanges qs s t) (h : ([.counters, .protect] : List Part).all (fun p => qs.contains p) = true) :
    OnlyChanges qs s (rebaseTo g k t) := OnlyChanges.after (rebaseTo_only g k t) a h

theorem startAt_only (g : Nat) (k : Nat) (s : State) :
    OnlyChanges [.counters, .protect, .security] s (startAt g k s) := by
  unfold startAt
  repeat' first
    | with_reducible exact OnlyChanges.refl _ _
    | with_reducible assumption
    | with_reducible apply OnlyChanges.ite
    | with_reducible apply bump_frame
    | with_reducible apply dropTag_frame
    | with_reducible apply modTwin_frame
    | ((with_reducible refine Part.nested ?_); rfl)
    | ((with_reducible refine Part.held ?_); rfl)
    | split
    | dsimp only
    | dsimp only [id]
theorem startAt_frame {qs : List Part} {s t : State} (g : Nat) (k : Nat) (a : OnlyChanges qs s t) (h : ([.counters, .protect, .security] : List Part).all (fun p => qs.contains p) = true) :
    OnlyChanges qs s (startAt g k t) := OnlyChanges.after (startAt_only g k t) a h

theorem copyLost_only (g : Nat) (k : Nat) (cause : Nat) (s : State) :
    OnlyChanges [.sill, .control, .counters, .protect, .fresh] s (copyLost g k cause s) := by
  unfold copyLost
  repeat' first
    | with_reducible exact OnlyChanges.refl _ _
    | with_reducible assumption
    | with_reducible apply OnlyChanges.ite
    | with_reducible apply modTwin_frame
    | with_reducible apply rebaseTo_frame
    | with_reducible apply twinEvent_frame
    | ((with_reducible refine Part.nested ?_); rfl)
    | ((with_reducible refine Part.held ?_); rfl)
    | split
    | dsimp only
    | dsimp only [id]
theorem copyLost_frame {qs : List Part} {s t : State} (g : Nat) (k : Nat) (cause : Nat) (a : OnlyChanges qs s t) (h : ([.sill, .control, .counters, .protect, .fresh] : List Part).all (fun p => qs.contains p) = true) :
    OnlyChanges qs s (copyLost g k cause t) := OnlyChanges.after (copyLost_only g k cause t) a h

theorem framerLost_only (x0 : Nat) (s : State) :
    OnlyChanges [.sill, .control, .counters, .protect, .fresh] s (framerLost x0 s) := by
  unfold framerLost
  repeat' first
    | with_reducible exact OnlyChanges.refl _ _
    | with_reducible assumption
    | with_reducible apply OnlyChanges.ite
    | with_reducible apply copyLost_frame
    | ((with_reducible refine Part.nested ?_); rfl)
    | ((with_reducible refine Part.held ?_); rfl)
    | split
    | dsimp only
    | dsimp only [id]
theorem framerLost_frame {qs : List Part} {s t : State} (x0 : Nat) (a : OnlyChanges qs s t) (h : ([.sill, .control, .counters, .protect, .fresh] : List Part).all (fun p => qs.contains p) = true) :
    OnlyChanges qs s (framerLost x0 t) := OnlyChanges.after (framerLost_only x0 t) a h

theorem framerGained_only (x0 : Nat) (s : State) :
    OnlyChanges [.protect] s (framerGained x0 s) := by
  unfold framerGained
  repeat' first
    | with_reducible exact OnlyChanges.refl _ _
    | with_reducible assumption
    | with_reducible apply OnlyChanges.ite
    | with_reducible apply modTwin_frame
    | ((with_reducible refine Part.nested ?_); rfl)
    | ((with_reducible refine Part.held ?_); rfl)
    | split
    | dsimp only
    | dsimp only [id]
theorem framerGained_frame {qs : List Part} {s t : State} (x0 : Nat) (a : OnlyChanges qs s t) (h : ([.protect] : List Part).all (fun p => qs.contains p) = true) :
    OnlyChanges qs s (framerGained x0 t) := OnlyChanges.after (framerGained_only x0 t) a h

theorem copyVerified_only (g : Nat) (k : Nat) (s : State) :
    OnlyChanges [.sill, .control, .counters, .protect, .security, .fresh] s (copyVerified g k s) := by
  unfold copyVerified
  repeat' first
    | with_reducible exact OnlyChanges.refl _ _
    | with_reducible assumption
    | with_reducible apply OnlyChanges.ite
    | with_reducible apply modTwin_frame
    | with_reducible apply rebaseTo_frame
    | with_reducible apply startAt_frame
    | with_reducible apply twinEvent_frame
    | ((with_reducible refine Part.nested ?_); rfl)
    | ((with_reducible refine Part.held ?_); rfl)
    | split
    | dsimp only
    | dsimp only [id]
theorem copyVerified_frame {qs : List Part} {s t : State} (g : Nat) (k : Nat) (a : OnlyChanges qs s t) (h : ([.sill, .control, .counters, .protect, .security, .fresh] : List Part).all (fun p => qs.contains p) = true) :
    OnlyChanges qs s (copyVerified g k t) := OnlyChanges.after (copyVerified_only g k t) a h

end Sys2Proof.Machine
end

