-- ==== Sys2Proof/Laws/FrameMirrorOps.lean ====
section
/-! SUPPORT. What each operation of MirrorOps.lean may change. -/

-- One theorem after another: with a thread for each, the package as one text outgrows the checker's memory limit.
set_option Elab.async false

namespace Sys2Proof.Machine

theorem mirrorQuads_only (s : State) :
    OnlyChanges [.power, .cal, .elements, .carrier, .client] s (mirrorQuads s) := by
  unfold mirrorQuads
  repeat' first
    | with_reducible exact OnlyChanges.refl _ _
    | with_reducible assumption
    | with_reducible apply OnlyChanges.ite
    | with_reducible refine OnlyChanges.each (fun _ _ => ?_) _ ?_
    | with_reducible apply modDom_frame
    | with_reducible apply settlePlls_frame
    | with_reducible apply startExit_frame
    | ((with_reducible refine Part.nested ?_); rfl)
    | ((with_reducible refine Part.held ?_); rfl)
    | split
    | dsimp only
    | dsimp only [id]
theorem mirrorQuads_frame {qs : List Part} {s t : State}  (a : OnlyChanges qs s t) (h : ([.power, .cal, .elements, .carrier, .client] : List Part).all (fun p => qs.contains p) = true) :
    OnlyChanges qs s (mirrorQuads t) := OnlyChanges.after (mirrorQuads_only t) a h

theorem mirrorGo_only (new : Nat) (cause : Nat) (s : State) :
    OnlyChanges [.pins, .sill, .power, .control, .counters, .cal, .elements, .carrier, .client, .protect] s (mirrorGo new cause s) := by
  unfold mirrorGo
  repeat' first
    | with_reducible exact OnlyChanges.refl _ _
    | with_reducible assumption
    | with_reducible apply OnlyChanges.ite
    | with_reducible apply bump_frame
    | with_reducible apply mirrorQuads_frame
    | with_reducible apply modMirror_frame
    | with_reducible apply modPins_frame
    | with_reducible apply raise_frame
    | ((with_reducible refine Part.nested ?_); rfl)
    | ((with_reducible refine Part.held ?_); rfl)
    | split
    | dsimp only
    | dsimp only [id]
theorem mirrorGo_frame {qs : List Part} {s t : State} (new : Nat) (cause : Nat) (a : OnlyChanges qs s t) (h : ([.pins, .sill, .power, .control, .counters, .cal, .elements, .carrier, .client, .protect] : List Part).all (fun p => qs.contains p) = true) :
    OnlyChanges qs s (mirrorGo new cause t) := OnlyChanges.after (mirrorGo_only new cause t) a h

theorem startRelease_only (cause : Nat) (s : State) :
    OnlyChanges [.protect] s (startRelease cause s) := by
  unfold startRelease
  repeat' first
    | with_reducible exact OnlyChanges.refl _ _
    | with_reducible assumption
    | with_reducible apply OnlyChanges.ite
    | with_reducible apply modMirror_frame
    | ((with_reducible refine Part.nested ?_); rfl)
    | ((with_reducible refine Part.held ?_); rfl)
    | split
    | dsimp only
    | dsimp only [id]
theorem startRelease_frame {qs : List Part} {s t : State} (cause : Nat) (a : OnlyChanges qs s t) (h : ([.protect] : List Part).all (fun p => qs.contains p) = true) :
    OnlyChanges qs s (startRelease cause t) := OnlyChanges.after (startRelease_only cause t) a h

theorem mirrorRelease_only (bit : Nat) (s : State) :
    OnlyChanges [.protect] s (mirrorRelease bit s) := by
  unfold mirrorRelease
  repeat' first
    | with_reducible exact OnlyChanges.refl _ _
    | with_reducible assumption
    | with_reducible apply OnlyChanges.ite
    | with_reducible apply startRelease_frame
    | ((with_reducible refine Part.nested ?_); rfl)
    | ((with_reducible refine Part.held ?_); rfl)
    | split
    | dsimp only
    | dsimp only [id]
theorem mirrorRelease_frame {qs : List Part} {s t : State} (bit : Nat) (a : OnlyChanges qs s t) (h : ([.protect] : List Part).all (fun p => qs.contains p) = true) :
    OnlyChanges qs s (mirrorRelease bit t) := OnlyChanges.after (mirrorRelease_only bit t) a h

theorem extestRelease_only (s : State) :
    OnlyChanges [.pins, .sill, .power, .control, .counters, .cal, .elements, .carrier, .client, .protect, .fresh] s (extestRelease s) := by
  unfold extestRelease
  repeat' first
    | with_reducible exact OnlyChanges.refl _ _
    | with_reducible assumption
    | with_reducible apply OnlyChanges.ite
    | with_reducible apply drawBelow_frame
    | with_reducible refine drawBelow_snd (by assumption) ?_ ?_
    | with_reducible apply mirrorGo_frame
    | ((with_reducible refine Part.nested ?_); rfl)
    | ((with_reducible refine Part.held ?_); rfl)
    | split
    | dsimp only
    | dsimp only [id]
theorem extestRelease_frame {qs : List Part} {s t : State}  (a : OnlyChanges qs s t) (h : ([.pins, .sill, .power, .control, .counters, .cal, .elements, .carrier, .client, .protect, .fresh] : List Part).all (fun p => qs.contains p) = true) :
    OnlyChanges qs s (extestRelease t) := OnlyChanges.after (extestRelease_only t) a h

theorem mirrorConflict_only (cause : Nat) (s : State) :
    OnlyChanges [.sill, .control, .counters] s (mirrorConflict cause s) := by
  unfold mirrorConflict
  repeat' first
    | with_reducible exact OnlyChanges.refl _ _
    | with_reducible assumption
    | with_reducible apply OnlyChanges.ite
    | with_reducible apply raise_frame
    | ((with_reducible refine Part.nested ?_); rfl)
    | ((with_reducible refine Part.held ?_); rfl)
    | split
    | dsimp only
    | dsimp only [id]
theorem mirrorConflict_frame {qs : List Part} {s t : State} (cause : Nat) (a : OnlyChanges qs s t) (h : ([.sill, .control, .counters] : List Part).all (fun p => qs.contains p) = true) :
    OnlyChanges qs s (mirrorConflict cause t) := OnlyChanges.after (mirrorConflict_only cause t) a h

theorem judgeConflicts_only (s : State) :
    OnlyChanges [.sill, .control, .counters, .protect] s (judgeConflicts s) := by
  unfold judgeConflicts
  repeat' first
    | with_reducible exact OnlyChanges.refl _ _
    | with_reducible assumption
    | with_reducible apply OnlyChanges.ite
    | with_reducible refine OnlyChanges.each (fun _ _ => ?_) _ ?_
    | with_reducible apply mirrorConflict_frame
    | with_reducible apply modMirror_frame
    | ((with_reducible refine Part.nested ?_); rfl)
    | ((with_reducible refine Part.held ?_); rfl)
    | split
    | dsimp only
    | dsimp only [id]
theorem judgeConflicts_frame {qs : List Part} {s t : State}  (a : OnlyChanges qs s t) (h : ([.sill, .control, .counters, .protect] : List Part).all (fun p => qs.contains p) = true) :
    OnlyChanges qs s (judgeConflicts t) := OnlyChanges.after (judgeConflicts_only t) a h

end Sys2Proof.Machine
end

