-- ==== Sys2Proof/Laws/FrameResetOps.lean ====
section
/-! SUPPORT. What each operation of ResetOps.lean may change. -/

-- One theorem after another: with a thread for each, the package as one text outgrows the checker's memory limit.
set_option Elab.async false

namespace Sys2Proof.Machine

theorem bankFailed_only (b : Nat) (code : Nat) (s : State) :
    OnlyChanges [.sill, .control, .counters, .stream, .domain, .security] s (bankFailed b code s) := by
  unfold bankFailed
  repeat' first
    | with_reducible exact OnlyChanges.refl _ _
    | with_reducible assumption
    | with_reducible apply OnlyChanges.ite
    | with_reducible apply authFailure_frame
    | with_reducible apply modSill_frame
    | ((with_reducible refine Part.nested ?_); rfl)
    | ((with_reducible refine Part.held ?_); rfl)
    | split
    | dsimp only
    | dsimp only [id]
theorem bankFailed_frame {qs : List Part} {s t : State} (b : Nat) (code : Nat) (a : OnlyChanges qs s t) (h : ([.sill, .control, .counters, .stream, .domain, .security] : List Part).all (fun p => qs.contains p) = true) :
    OnlyChanges qs s (bankFailed b code t) := OnlyChanges.after (bankFailed_only b code t) a h

theorem runCommitted_only (s : State) :
    OnlyChanges [.sill, .fw] s (runCommitted s) := by
  unfold runCommitted
  repeat' first
    | with_reducible exact OnlyChanges.refl _ _
    | with_reducible assumption
    | with_reducible apply OnlyChanges.ite
    | with_reducible apply modFw_frame
    | with_reducible apply modSill_frame
    | ((with_reducible refine Part.nested ?_); rfl)
    | ((with_reducible refine Part.held ?_); rfl)
    | split
    | dsimp only
    | dsimp only [id]
theorem runCommitted_frame {qs : List Part} {s t : State}  (a : OnlyChanges qs s t) (h : ([.sill, .fw] : List Part).all (fun p => qs.contains p) = true) :
    OnlyChanges qs s (runCommitted t) := OnlyChanges.after (runCommitted_only t) a h

theorem hubReset_only (cause : Nat) (s : State) :
    OnlyChanges [.pins, .sill, .power, .fw, .control, .counters, .stream, .domain, .cal, .elements, .carrier, .joinery, .framer, .client, .sched, .memory, .protect, .security, .timing, .monitor] s (hubReset cause s) := by
  intro p hp; cases p <;> first | rfl | cases hp

theorem hubReset_frame {qs : List Part} {s t : State} (cause : Nat) (a : OnlyChanges qs s t) (h : ([.pins, .sill, .power, .fw, .control, .counters, .stream, .domain, .cal, .elements, .carrier, .joinery, .framer, .client, .sched, .memory, .protect, .security, .timing, .monitor] : List Part).all (fun p => qs.contains p) = true) :
    OnlyChanges qs s (hubReset cause t) := OnlyChanges.after (hubReset_only cause t) a h

theorem sillResetState_only (cause : Nat) (supplies : Bool) (s : State) :
    OnlyChanges [.pins, .sill, .power, .fw, .control, .counters, .stream, .domain, .cal, .elements, .carrier, .joinery, .framer, .client, .sched, .memory, .protect, .security, .timing, .monitor] s (sillResetState cause supplies s) := by
  intro p hp; cases p <;> first | rfl | cases hp

theorem sillResetState_frame {qs : List Part} {s t : State} (cause : Nat) (supplies : Bool) (a : OnlyChanges qs s t) (h : ([.pins, .sill, .power, .fw, .control, .counters, .stream, .domain, .cal, .elements, .carrier, .joinery, .framer, .client, .sched, .memory, .protect, .security, .timing, .monitor] : List Part).all (fun p => qs.contains p) = true) :
    OnlyChanges qs s (sillResetState cause supplies t) := OnlyChanges.after (sillResetState_only cause supplies t) a h

theorem releaseHub_only (s : State) :
    OnlyChanges [.sill] s (releaseHub s) := by
  unfold releaseHub
  repeat' first
    | with_reducible exact OnlyChanges.refl _ _
    | with_reducible assumption
    | with_reducible apply OnlyChanges.ite
    | with_reducible apply modSill_frame
    | ((with_reducible refine Part.nested ?_); rfl)
    | ((with_reducible refine Part.held ?_); rfl)
    | split
    | dsimp only
    | dsimp only [id]
theorem releaseHub_frame {qs : List Part} {s t : State}  (a : OnlyChanges qs s t) (h : ([.sill] : List Part).all (fun p => qs.contains p) = true) :
    OnlyChanges qs s (releaseHub t) := OnlyChanges.after (releaseHub_only t) a h

theorem requestHubReset_only (cause : Nat) (s : State) :
    OnlyChanges [.pins, .sill, .power, .fw, .control, .counters, .stream, .domain, .cal, .elements, .carrier, .joinery, .framer, .client, .sched, .memory, .protect, .security, .timing, .monitor] s (requestHubReset cause s) := by
  unfold requestHubReset
  repeat' first
    | with_reducible exact OnlyChanges.refl _ _
    | with_reducible assumption
    | with_reducible apply OnlyChanges.ite
    | with_reducible apply hubReset_frame
    | with_reducible apply modSill_frame
    | with_reducible apply releaseHub_frame
    | ((with_reducible refine Part.nested ?_); rfl)
    | ((with_reducible refine Part.held ?_); rfl)
    | split
    | dsimp only
    | dsimp only [id]
theorem requestHubReset_frame {qs : List Part} {s t : State} (cause : Nat) (a : OnlyChanges qs s t) (h : ([.pins, .sill, .power, .fw, .control, .counters, .stream, .domain, .cal, .elements, .carrier, .joinery, .framer, .client, .sched, .memory, .protect, .security, .timing, .monitor] : List Part).all (fun p => qs.contains p) = true) :
    OnlyChanges qs s (requestHubReset cause t) := OnlyChanges.after (requestHubReset_only cause t) a h

theorem mpHalt_only (s : State) :
    OnlyChanges [.sill, .control, .protect] s (mpHalt s) := by
  unfold mpHalt
  repeat' first
    | with_reducible exact OnlyChanges.refl _ _
    | with_reducible assumption
    | with_reducible apply OnlyChanges.ite
    | with_reducible apply mirrorRelease_frame
    | with_reducible apply modControl_frame
    | with_reducible apply modSill_frame
    | ((with_reducible refine Part.nested ?_); rfl)
    | ((with_reducible refine Part.held ?_); rfl)
    | split
    | dsimp only
    | dsimp only [id]
theorem mpHalt_frame {qs : List Part} {s t : State}  (a : OnlyChanges qs s t) (h : ([.sill, .control, .protect] : List Part).all (fun p => qs.contains p) = true) :
    OnlyChanges qs s (mpHalt t) := OnlyChanges.after (mpHalt_only t) a h

theorem enterRom_only (s : State) :
    OnlyChanges [.sill, .fw] s (enterRom s) := by
  unfold enterRom
  repeat' first
    | with_reducible exact OnlyChanges.refl _ _
    | with_reducible assumption
    | with_reducible apply OnlyChanges.ite
    | with_reducible apply modFw_frame
    | with_reducible apply modSill_frame
    | ((with_reducible refine Part.nested ?_); rfl)
    | ((with_reducible refine Part.held ?_); rfl)
    | split
    | dsimp only
    | dsimp only [id]
theorem enterRom_frame {qs : List Part} {s t : State}  (a : OnlyChanges qs s t) (h : ([.sill, .fw] : List Part).all (fun p => qs.contains p) = true) :
    OnlyChanges qs s (enterRom t) := OnlyChanges.after (enterRom_only t) a h

theorem rollBack_only (cause : Nat) (s : State) :
    OnlyChanges [.sill, .fw] s (rollBack cause s) := by
  unfold rollBack
  repeat' first
    | with_reducible exact OnlyChanges.refl _ _
    | with_reducible assumption
    | with_reducible apply OnlyChanges.ite
    | with_reducible apply modFw_frame
    | with_reducible apply modSill_frame
    | with_reducible apply runCommitted_frame
    | ((with_reducible refine Part.nested ?_); rfl)
    | ((with_reducible refine Part.held ?_); rfl)
    | split
    | dsimp only
    | dsimp only [id]
theorem rollBack_frame {qs : List Part} {s t : State} (cause : Nat) (a : OnlyChanges qs s t) (h : ([.sill, .fw] : List Part).all (fun p => qs.contains p) = true) :
    OnlyChanges qs s (rollBack cause t) := OnlyChanges.after (rollBack_only cause t) a h

theorem countRestart_only (s : State) :
    PairChanges [.sill, .control, .counters] s (countRestart s) := by
  unfold countRestart
  repeat' first
    | with_reducible exact OnlyChanges.refl _ _
    | with_reducible assumption
    | with_reducible apply PairChanges.ite
    | with_reducible apply OnlyChanges.ite
    | with_reducible apply bump_frame
    | with_reducible apply modControl_frame
    | with_reducible apply modSill_frame
    | ((with_reducible refine Part.nested ?_); rfl)
    | ((with_reducible refine Part.held ?_); rfl)
    | split
    | dsimp only
    | dsimp only [id]
    | with_reducible apply PairChanges.mk
theorem countRestart_frame {qs : List Part} {s t : State}  (a : OnlyChanges qs s t) (h : ([.sill, .control, .counters] : List Part).all (fun p => qs.contains p) = true) :
    OnlyChanges qs s (countRestart t).2 := OnlyChanges.after (countRestart_only t) a h
theorem countRestart_pair {qs : List Part} {s t : State}  (a : OnlyChanges qs s t) (h : ([.sill, .control, .counters] : List Part).all (fun p => qs.contains p) = true) :
    PairChanges qs s (countRestart t) := OnlyChanges.after (countRestart_only t) a h
theorem countRestart_snd {qs : List Part} {s t u : State}  {y : _} (e : (countRestart t) = (y, u)) (a : OnlyChanges qs s t) (h : ([.sill, .control, .counters] : List Part).all (fun p => qs.contains p) = true) :
    OnlyChanges qs s u := PairChanges.snd (countRestart_only t) e a h

theorem stopSalurn_only (cause : Nat) (s : State) :
    OnlyChanges [.control] s (stopSalurn cause s) := by
  unfold stopSalurn
  repeat' first
    | with_reducible exact OnlyChanges.refl _ _
    | with_reducible assumption
    | with_reducible apply OnlyChanges.ite
    | with_reducible apply modControl_frame
    | ((with_reducible refine Part.nested ?_); rfl)
    | ((with_reducible refine Part.held ?_); rfl)
    | split
    | dsimp only
    | dsimp only [id]
theorem stopSalurn_frame {qs : List Part} {s t : State} (cause : Nat) (a : OnlyChanges qs s t) (h : ([.control] : List Part).all (fun p => qs.contains p) = true) :
    OnlyChanges qs s (stopSalurn cause t) := OnlyChanges.after (stopSalurn_only cause t) a h

theorem mpRestart_only (cause : Nat) (s : State) :
    OnlyChanges [.sill, .fw, .control, .counters, .protect] s (mpRestart cause s) := by
  unfold mpRestart
  repeat' first
    | with_reducible exact OnlyChanges.refl _ _
    | with_reducible assumption
    | with_reducible apply OnlyChanges.ite
    | with_reducible apply countRestart_frame
    | with_reducible refine countRestart_snd (by assumption) ?_ ?_
    | with_reducible apply enterRom_frame
    | with_reducible apply modFw_frame
    | with_reducible apply mpHalt_frame
    | with_reducible apply rollBack_frame
    | with_reducible apply stopSalurn_frame
    | ((with_reducible refine Part.nested ?_); rfl)
    | ((with_reducible refine Part.held ?_); rfl)
    | split
    | dsimp only
    | dsimp only [id]
theorem mpRestart_frame {qs : List Part} {s t : State} (cause : Nat) (a : OnlyChanges qs s t) (h : ([.sill, .fw, .control, .counters, .protect] : List Part).all (fun p => qs.contains p) = true) :
    OnlyChanges qs s (mpRestart cause t) := OnlyChanges.after (mpRestart_only cause t) a h

end Sys2Proof.Machine
end

