-- ==== Sys2Proof/Laws/FrameTimingOps.lean ====
section
/-! SUPPORT. What each operation of TimingOps.lean may change. -/

-- One theorem after another: with a thread for each, the package as one text outgrows the checker's memory limit.
set_option Elab.async false

namespace Sys2Proof.Machine

theorem enterTiming_only (new : Nat) (cause : Nat) (began : Nat) (s : State) :
    OnlyChanges [.sill, .control, .counters, .timing] s (enterTiming new cause began s) := by
  unfold enterTiming
  repeat' first
    | with_reducible exact OnlyChanges.refl _ _
    | with_reducible assumption
    | with_reducible apply OnlyChanges.ite
    | with_reducible apply modTiming_frame
    | with_reducible apply raise_frame
    | ((with_reducible refine Part.nested ?_); rfl)
    | ((with_reducible refine Part.held ?_); rfl)
    | split
    | dsimp only
    | dsimp only [id]
theorem enterTiming_frame {qs : List Part} {s t : State} (new : Nat) (cause : Nat) (began : Nat) (a : OnlyChanges qs s t) (h : ([.sill, .control, .counters, .timing] : List Part).all (fun p => qs.contains p) = true) :
    OnlyChanges qs s (enterTiming new cause began t) := OnlyChanges.after (enterTiming_only new cause began t) a h

theorem retime_only (cause : Nat) (began : Nat) (kept : Bool) (s : State) :
    OnlyChanges [.sill, .control, .counters, .timing] s (retime cause began kept s) := by
  unfold retime
  repeat' first
    | with_reducible exact OnlyChanges.refl _ _
    | with_reducible assumption
    | with_reducible apply OnlyChanges.ite
    | with_reducible apply enterTiming_frame
    | ((with_reducible refine Part.nested ?_); rfl)
    | ((with_reducible refine Part.held ?_); rfl)
    | split
    | dsimp only
    | dsimp only [id]
theorem retime_frame {qs : List Part} {s t : State} (cause : Nat) (began : Nat) (kept : Bool) (a : OnlyChanges qs s t) (h : ([.sill, .control, .counters, .timing] : List Part).all (fun p => qs.contains p) = true) :
    OnlyChanges qs s (retime cause began kept t) := OnlyChanges.after (retime_only cause began kept t) a h

theorem senseRefSel_only (s : State) :
    OnlyChanges [.sill, .control, .counters, .timing] s (senseRefSel s) := by
  unfold senseRefSel
  repeat' first
    | with_reducible exact OnlyChanges.refl _ _
    | with_reducible assumption
    | with_reducible apply OnlyChanges.ite
    | with_reducible apply modTiming_frame
    | with_reducible apply retime_frame
    | ((with_reducible refine Part.nested ?_); rfl)
    | ((with_reducible refine Part.held ?_); rfl)
    | split
    | dsimp only
    | dsimp only [id]
theorem senseRefSel_frame {qs : List Part} {s t : State}  (a : OnlyChanges qs s t) (h : ([.sill, .control, .counters, .timing] : List Part).all (fun p => qs.contains p) = true) :
    OnlyChanges qs s (senseRefSel t) := OnlyChanges.after (senseRefSel_only t) a h

theorem vddIoPresent_only (s : State) :
    OnlyChanges [.pins, .sill, .control, .counters, .stream, .domain, .security, .timing] s (vddIoPresent s) := by
  unfold vddIoPresent
  repeat' first
    | with_reducible exact OnlyChanges.refl _ _
    | with_reducible assumption
    | with_reducible apply OnlyChanges.ite
    | with_reducible apply fireAlarm_frame
    | with_reducible apply modPins_frame
    | with_reducible apply senseRefSel_frame
    | ((with_reducible refine Part.nested ?_); rfl)
    | ((with_reducible refine Part.held ?_); rfl)
    | split
    | dsimp only
    | dsimp only [id]
theorem vddIoPresent_frame {qs : List Part} {s t : State}  (a : OnlyChanges qs s t) (h : ([.pins, .sill, .control, .counters, .stream, .domain, .security, .timing] : List Part).all (fun p => qs.contains p) = true) :
    OnlyChanges qs s (vddIoPresent t) := OnlyChanges.after (vddIoPresent_only t) a h

theorem qualEvent_only (k : Nat) (q : Bool) (cause : Nat) (s : State) :
    OnlyChanges [.sill, .control, .counters] s (qualEvent k q cause s) := by
  unfold qualEvent
  repeat' first
    | with_reducible exact OnlyChanges.refl _ _
    | with_reducible assumption
    | with_reducible apply OnlyChanges.ite
    | with_reducible apply raise_frame
    | ((with_reducible refine Part.nested ?_); rfl)
    | ((with_reducible refine Part.held ?_); rfl)
    | split
    | dsimp only
    | dsimp only [id]
theorem qualEvent_frame {qs : List Part} {s t : State} (k : Nat) (q : Bool) (cause : Nat) (a : OnlyChanges qs s t) (h : ([.sill, .control, .counters] : List Part).all (fun p => qs.contains p) = true) :
    OnlyChanges qs s (qualEvent k q cause t) := OnlyChanges.after (qualEvent_only k q cause t) a h

theorem disqualify_only (k : Nat) (cause : Nat) (began : Nat) (s : State) :
    OnlyChanges [.sill, .control, .counters, .timing] s (disqualify k cause began s) := by
  unfold disqualify
  repeat' first
    | with_reducible exact OnlyChanges.refl _ _
    | with_reducible assumption
    | with_reducible apply OnlyChanges.ite
    | with_reducible apply modSource_frame
    | with_reducible apply qualEvent_frame
    | with_reducible apply retime_frame
    | ((with_reducible refine Part.nested ?_); rfl)
    | ((with_reducible refine Part.held ?_); rfl)
    | split
    | dsimp only
    | dsimp only [id]
theorem disqualify_frame {qs : List Part} {s t : State} (k : Nat) (cause : Nat) (began : Nat) (a : OnlyChanges qs s t) (h : ([.sill, .control, .counters, .timing] : List Part).all (fun p => qs.contains p) = true) :
    OnlyChanges qs s (disqualify k cause began t) := OnlyChanges.after (disqualify_only k cause began t) a h

theorem sourceAbsent_only (k : Nat) (cause : Nat) (s : State) :
    OnlyChanges [.sill, .control, .counters, .timing] s (sourceAbsent k cause s) := by
  unfold sourceAbsent
  repeat' first
    | with_reducible exact OnlyChanges.refl _ _
    | with_reducible assumption
    | with_reducible apply OnlyChanges.ite
    | with_reducible apply disqualify_frame
    | with_reducible apply modSource_frame
    | ((with_reducible refine Part.nested ?_); rfl)
    | ((with_reducible refine Part.held ?_); rfl)
    | split
    | dsimp only
    | dsimp only [id]
theorem sourceAbsent_frame {qs : List Part} {s t : State} (k : Nat) (cause : Nat) (a : OnlyChanges qs s t) (h : ([.sill, .control, .counters, .timing] : List Part).all (fun p => qs.contains p) = true) :
    OnlyChanges qs s (sourceAbsent k cause t) := OnlyChanges.after (sourceAbsent_only k cause t) a h

theorem sourcePresent_only (k : Nat) (cause : Nat) (s : State) :
    OnlyChanges [.sill, .control, .counters, .timing] s (sourcePresent k cause s) := by
  unfold sourcePresent
  repeat' first
    | with_reducible exact OnlyChanges.refl _ _
    | with_reducible assumption
    | with_reducible apply OnlyChanges.ite
    | with_reducible apply modSource_frame
    | with_reducible apply retime_frame
    | ((with_reducible refine Part.nested ?_); rfl)
    | ((with_reducible refine Part.held ?_); rfl)
    | split
    | dsimp only
    | dsimp only [id]
theorem sourcePresent_frame {qs : List Part} {s t : State} (k : Nat) (cause : Nat) (a : OnlyChanges qs s t) (h : ([.sill, .control, .counters, .timing] : List Part).all (fun p => qs.contains p) = true) :
    OnlyChanges qs s (sourcePresent k cause t) := OnlyChanges.after (sourcePresent_only k cause t) a h

theorem lineClock_only (x0 : Nat) (tracking : Bool) (s : State) :
    OnlyChanges [.sill, .control, .counters, .timing] s (lineClock x0 tracking s) := by
  unfold lineClock
  repeat' first
    | with_reducible exact OnlyChanges.refl _ _
    | with_reducible assumption
    | with_reducible apply OnlyChanges.ite
    | with_reducible apply sourceAbsent_frame
    | with_reducible apply sourcePresent_frame
    | ((with_reducible refine Part.nested ?_); rfl)
    | ((with_reducible refine Part.held ?_); rfl)
    | split
    | dsimp only
    | dsimp only [id]
theorem lineClock_frame {qs : List Part} {s t : State} (x0 : Nat) (tracking : Bool) (a : OnlyChanges qs s t) (h : ([.sill, .control, .counters, .timing] : List Part).all (fun p => qs.contains p) = true) :
    OnlyChanges qs s (lineClock x0 tracking t) := OnlyChanges.after (lineClock_only x0 tracking t) a h

theorem hostClock_only (c : Nat) (up : Bool) (s : State) :
    OnlyChanges [.sill, .control, .counters, .timing] s (hostClock c up s) := by
  unfold hostClock
  repeat' first
    | with_reducible exact OnlyChanges.refl _ _
    | with_reducible assumption
    | with_reducible apply OnlyChanges.ite
    | with_reducible apply sourceAbsent_frame
    | with_reducible apply sourcePresent_frame
    | ((with_reducible refine Part.nested ?_); rfl)
    | ((with_reducible refine Part.held ?_); rfl)
    | split
    | dsimp only
    | dsimp only [id]
theorem hostClock_frame {qs : List Part} {s t : State} (c : Nat) (up : Bool) (a : OnlyChanges qs s t) (h : ([.sill, .control, .counters, .timing] : List Part).all (fun p => qs.contains p) = true) :
    OnlyChanges qs s (hostClock c up t) := OnlyChanges.after (hostClock_only c up t) a h

end Sys2Proof.Machine
end

