-- ==== Sys2Proof/Laws/FrameCarrierOps.lean ====
section
/-! SUPPORT. What each operation of CarrierOps.lean may change. -/

-- One theorem after another: with a thread for each, the package as one text outgrows the checker's memory limit.
set_option Elab.async false

namespace Sys2Proof.Machine

theorem modPair_only (p : Nat) (f : Pair → Pair) (s : State) :
    OnlyChanges [.joinery] s (modPair p f s) := by
  unfold modPair
  repeat' first
    | with_reducible exact OnlyChanges.refl _ _
    | with_reducible assumption
    | with_reducible apply OnlyChanges.ite
    | with_reducible apply modJoinery_frame
    | ((with_reducible refine Part.nested ?_); rfl)
    | ((with_reducible refine Part.held ?_); rfl)
    | split
    | dsimp only
    | dsimp only [id]
theorem modPair_frame {qs : List Part} {s t : State} (p : Nat) (f : Pair → Pair) (a : OnlyChanges qs s t) (h : ([.joinery] : List Part).all (fun p => qs.contains p) = true) :
    OnlyChanges qs s (modPair p f t) := OnlyChanges.after (modPair_only p f t) a h

theorem fallbackPair_only (p : Nat) (cause : Nat) (s : State) :
    OnlyChanges [.sill, .control, .counters, .joinery] s (fallbackPair p cause s) := by
  unfold fallbackPair
  repeat' first
    | with_reducible exact OnlyChanges.refl _ _
    | with_reducible assumption
    | with_reducible apply OnlyChanges.ite
    | with_reducible apply bump_frame
    | with_reducible apply modPair_frame
    | with_reducible apply raise_frame
    | ((with_reducible refine Part.nested ?_); rfl)
    | ((with_reducible refine Part.held ?_); rfl)
    | split
    | dsimp only
    | dsimp only [id]
theorem fallbackPair_frame {qs : List Part} {s t : State} (p : Nat) (cause : Nat) (a : OnlyChanges qs s t) (h : ([.sill, .control, .counters, .joinery] : List Part).all (fun p => qs.contains p) = true) :
    OnlyChanges qs s (fallbackPair p cause t) := OnlyChanges.after (fallbackPair_only p cause t) a h

theorem fallbackUnit_only (x0 : Nat) (cause : Nat) (s : State) :
    OnlyChanges [.sill, .control, .counters, .joinery] s (fallbackUnit x0 cause s) := by
  unfold fallbackUnit
  repeat' first
    | with_reducible exact OnlyChanges.refl _ _
    | with_reducible assumption
    | with_reducible apply OnlyChanges.ite
    | with_reducible refine OnlyChanges.each (fun _ _ => ?_) _ ?_
    | with_reducible apply fallbackPair_frame
    | ((with_reducible refine Part.nested ?_); rfl)
    | ((with_reducible refine Part.held ?_); rfl)
    | split
    | dsimp only
    | dsimp only [id]
theorem fallbackUnit_frame {qs : List Part} {s t : State} (x0 : Nat) (cause : Nat) (a : OnlyChanges qs s t) (h : ([.sill, .control, .counters, .joinery] : List Part).all (fun p => qs.contains p) = true) :
    OnlyChanges qs s (fallbackUnit x0 cause t) := OnlyChanges.after (fallbackUnit_only x0 cause t) a h

theorem settleTerms_only (x0 : Nat) (s : State) :
    OnlyChanges [.joinery] s (settleTerms x0 s) := by
  unfold settleTerms
  repeat' first
    | with_reducible exact OnlyChanges.refl _ _
    | with_reducible assumption
    | with_reducible apply OnlyChanges.ite
    | with_reducible refine OnlyChanges.each (fun _ _ => ?_) _ ?_
    | with_reducible apply modPair_frame
    | ((with_reducible refine Part.nested ?_); rfl)
    | ((with_reducible refine Part.held ?_); rfl)
    | split
    | dsimp only
    | dsimp only [id]
theorem settleTerms_frame {qs : List Part} {s t : State} (x0 : Nat) (a : OnlyChanges qs s t) (h : ([.joinery] : List Part).all (fun p => qs.contains p) = true) :
    OnlyChanges qs s (settleTerms x0 t) := OnlyChanges.after (settleTerms_only x0 t) a h

theorem applyOrder_only (x0 : Nat) (s : State) :
    OnlyChanges [.sill, .control, .counters, .carrier, .joinery] s (applyOrder x0 s) := by
  unfold applyOrder
  repeat' first
    | with_reducible exact OnlyChanges.refl _ _
    | with_reducible assumption
    | with_reducible apply OnlyChanges.ite
    | with_reducible refine OnlyChanges.each (fun _ _ => ?_) _ ?_
    | with_reducible apply fallbackPair_frame
    | with_reducible apply modCu_frame
    | ((with_reducible refine Part.nested ?_); rfl)
    | ((with_reducible refine Part.held ?_); rfl)
    | split
    | dsimp only
    | dsimp only [id]
theorem applyOrder_frame {qs : List Part} {s t : State} (x0 : Nat) (a : OnlyChanges qs s t) (h : ([.sill, .control, .counters, .carrier, .joinery] : List Part).all (fun p => qs.contains p) = true) :
    OnlyChanges qs s (applyOrder x0 t) := OnlyChanges.after (applyOrder_only x0 t) a h

theorem spikeTaps_only (x0 : Nat) (s : State) :
    OnlyChanges [.carrier] s (spikeTaps x0 s) := by
  unfold spikeTaps
  repeat' first
    | with_reducible exact OnlyChanges.refl _ _
    | with_reducible assumption
    | with_reducible apply OnlyChanges.ite
    | with_reducible apply modCu_frame
    | ((with_reducible refine Part.nested ?_); rfl)
    | ((with_reducible refine Part.held ?_); rfl)
    | split
    | dsimp only
    | dsimp only [id]
theorem spikeTaps_frame {qs : List Part} {s t : State} (x0 : Nat) (a : OnlyChanges qs s t) (h : ([.carrier] : List Part).all (fun p => qs.contains p) = true) :
    OnlyChanges qs s (spikeTaps x0 t) := OnlyChanges.after (spikeTaps_only x0 t) a h

theorem unlock_only (x0 : Nat) (cause : Nat) (s : State) :
    OnlyChanges [.sill, .control, .counters, .cal, .carrier, .joinery, .framer, .timing] s (unlock x0 cause s) := by
  unfold unlock
  repeat' first
    | with_reducible exact OnlyChanges.refl _ _
    | with_reducible assumption
    | with_reducible apply OnlyChanges.ite
    | with_reducible apply bump_frame
    | with_reducible apply fallbackUnit_frame
    | with_reducible apply lineClock_frame
    | with_reducible apply modCu_frame
    | with_reducible apply modFramer_frame
    | with_reducible apply raise_frame
    | with_reducible apply settleTerms_frame
    | with_reducible apply suspendSources_frame
    | ((with_reducible refine Part.nested ?_); rfl)
    | ((with_reducible refine Part.held ?_); rfl)
    | split
    | dsimp only
    | dsimp only [id]
theorem unlock_frame {qs : List Part} {s t : State} (x0 : Nat) (cause : Nat) (a : OnlyChanges qs s t) (h : ([.sill, .control, .counters, .cal, .carrier, .joinery, .framer, .timing] : List Part).all (fun p => qs.contains p) = true) :
    OnlyChanges qs s (unlock x0 cause t) := OnlyChanges.after (unlock_only x0 cause t) a h

theorem acquire_only (x0 : Nat) (at_ : Nat) (hunt : Bool) (s : State) :
    OnlyChanges [.carrier] s (acquire x0 at_ hunt s) := by
  unfold acquire
  repeat' first
    | with_reducible exact OnlyChanges.refl _ _
    | with_reducible assumption
    | with_reducible apply OnlyChanges.ite
    | with_reducible apply modCu_frame
    | ((with_reducible refine Part.nested ?_); rfl)
    | ((with_reducible refine Part.held ?_); rfl)
    | split
    | dsimp only
    | dsimp only [id]
theorem acquire_frame {qs : List Part} {s t : State} (x0 : Nat) (at_ : Nat) (hunt : Bool) (a : OnlyChanges qs s t) (h : ([.carrier] : List Part).all (fun p => qs.contains p) = true) :
    OnlyChanges qs s (acquire x0 at_ hunt t) := OnlyChanges.after (acquire_only x0 at_ hunt t) a h

theorem stopRx_only (x0 : Nat) (s : State) :
    OnlyChanges [.sill, .power, .control, .counters, .stream, .domain, .cal, .elements, .carrier, .joinery, .framer, .client, .protect, .security, .timing, .fresh] s (stopRx x0 s) := by
  unfold stopRx
  repeat' first
    | with_reducible exact OnlyChanges.refl _ _
    | with_reducible assumption
    | with_reducible apply OnlyChanges.ite
    | with_reducible apply bump_frame
    | with_reducible apply dropTag_frame
    | with_reducible apply fallbackUnit_frame
    | with_reducible apply followEnable_frame
    | with_reducible apply framerLost_frame
    | with_reducible apply lineClock_frame
    | with_reducible apply modCu_frame
    | with_reducible apply modFramer_frame
    | with_reducible apply settleTerms_frame
    | with_reducible apply settleTrims_frame
    | with_reducible apply suspendSources_frame
    | ((with_reducible refine Part.nested ?_); rfl)
    | ((with_reducible refine Part.held ?_); rfl)
    | split
    | dsimp only
    | dsimp only [id]
theorem stopRx_frame {qs : List Part} {s t : State} (x0 : Nat) (a : OnlyChanges qs s t) (h : ([.sill, .power, .control, .counters, .stream, .domain, .cal, .elements, .carrier, .joinery, .framer, .client, .protect, .security, .timing, .fresh] : List Part).all (fun p => qs.contains p) = true) :
    OnlyChanges qs s (stopRx x0 t) := OnlyChanges.after (stopRx_only x0 t) a h

theorem formatApplied_only (x0 : Nat) (path : Nat) (s : State) :
    OnlyChanges [.sill, .control, .counters] s (formatApplied x0 path s) := by
  unfold formatApplied
  repeat' first
    | with_reducible exact OnlyChanges.refl _ _
    | with_reducible assumption
    | with_reducible apply OnlyChanges.ite
    | with_reducible apply raise_frame
    | ((with_reducible refine Part.nested ?_); rfl)
    | ((with_reducible refine Part.held ?_); rfl)
    | split
    | dsimp only
    | dsimp only [id]
theorem formatApplied_frame {qs : List Part} {s t : State} (x0 : Nat) (path : Nat) (a : OnlyChanges qs s t) (h : ([.sill, .control, .counters] : List Part).all (fun p => qs.contains p) = true) :
    OnlyChanges qs s (formatApplied x0 path t) := OnlyChanges.after (formatApplied_only x0 path t) a h

theorem formatRx_only (x0 : Nat) (f : Format) (s : State) :
    OnlyChanges [.sill, .control, .counters, .cal, .elements, .carrier, .joinery, .framer, .timing] s (formatRx x0 f s) := by
  unfold formatRx
  repeat' first
    | with_reducible exact OnlyChanges.refl _ _
    | with_reducible assumption
    | with_reducible apply OnlyChanges.ite
    | with_reducible apply acquire_frame
    | with_reducible apply formatApplied_frame
    | with_reducible apply modCu_frame
    | with_reducible apply modFramer_frame
    | with_reducible apply supersedeAll_frame
    | with_reducible apply unlock_frame
    | ((with_reducible refine Part.nested ?_); rfl)
    | ((with_reducible refine Part.held ?_); rfl)
    | split
    | dsimp only
    | dsimp only [id]
theorem formatRx_frame {qs : List Part} {s t : State} (x0 : Nat) (f : Format) (a : OnlyChanges qs s t) (h : ([.sill, .control, .counters, .cal, .elements, .carrier, .joinery, .framer, .timing] : List Part).all (fun p => qs.contains p) = true) :
    OnlyChanges qs s (formatRx x0 f t) := OnlyChanges.after (formatRx_only x0 f t) a h

theorem dspApplyRx_only (x0 : Nat) (s : State) :
    OnlyChanges [.sill, .control, .counters, .cal, .carrier, .joinery, .framer, .timing] s (dspApplyRx x0 s) := by
  unfold dspApplyRx
  repeat' first
    | with_reducible exact OnlyChanges.refl _ _
    | with_reducible assumption
    | with_reducible apply OnlyChanges.ite
    | with_reducible apply acquire_frame
    | with_reducible apply modCu_frame
    | with_reducible apply unlock_frame
    | ((with_reducible refine Part.nested ?_); rfl)
    | ((with_reducible refine Part.held ?_); rfl)
    | split
    | dsimp only
    | dsimp only [id]
theorem dspApplyRx_frame {qs : List Part} {s t : State} (x0 : Nat) (a : OnlyChanges qs s t) (h : ([.sill, .control, .counters, .cal, .carrier, .joinery, .framer, .timing] : List Part).all (fun p => qs.contains p) = true) :
    OnlyChanges qs s (dspApplyRx x0 t) := OnlyChanges.after (dspApplyRx_only x0 t) a h

theorem rxBoundary_only (x0 : Nat) (s : State) :
    OnlyChanges [.sill, .power, .control, .counters, .stream, .domain, .cal, .elements, .carrier, .joinery, .framer, .client, .protect, .security, .timing, .fresh] s (rxBoundary x0 s) := by
  unfold rxBoundary
  repeat' first
    | with_reducible exact OnlyChanges.refl _ _
    | with_reducible assumption
    | with_reducible apply OnlyChanges.ite
    | with_reducible apply applyOrder_frame
    | with_reducible apply dspApplyRx_frame
    | with_reducible apply formatRx_frame
    | with_reducible apply settleTerms_frame
    | with_reducible apply stopRx_frame
    | ((with_reducible refine Part.nested ?_); rfl)
    | ((with_reducible refine Part.held ?_); rfl)
    | split
    | dsimp only
    | dsimp only [id]
theorem rxBoundary_frame {qs : List Part} {s t : State} (x0 : Nat) (a : OnlyChanges qs s t) (h : ([.sill, .power, .control, .counters, .stream, .domain, .cal, .elements, .carrier, .joinery, .framer, .client, .protect, .security, .timing, .fresh] : List Part).all (fun p => qs.contains p) = true) :
    OnlyChanges qs s (rxBoundary x0 t) := OnlyChanges.after (rxBoundary_only x0 t) a h

theorem settleRx_only (x0 : Nat) (s : State) :
    OnlyChanges [.sill, .power, .control, .counters, .stream, .domain, .cal, .elements, .carrier, .joinery, .framer, .client, .protect, .security, .timing, .fresh] s (settleRx x0 s) := by
  unfold settleRx
  repeat' first
    | with_reducible exact OnlyChanges.refl _ _
    | with_reducible assumption
    | with_reducible apply OnlyChanges.ite
    | with_reducible apply rxBoundary_frame
    | ((with_reducible refine Part.nested ?_); rfl)
    | ((with_reducible refine Part.held ?_); rfl)
    | split
    | dsimp only
    | dsimp only [id]
theorem settleRx_frame {qs : List Part} {s t : State} (x0 : Nat) (a : OnlyChanges qs s t) (h : ([.sill, .power, .control, .counters, .stream, .domain, .cal, .elements, .carrier, .joinery, .framer, .client, .protect, .security, .timing, .fresh] : List Part).all (fun p => qs.contains p) = true) :
    OnlyChanges qs s (settleRx x0 t) := OnlyChanges.after (settleRx_only x0 t) a h

theorem stopInject_only (x0 : Nat) (s : State) :
    OnlyChanges [.sill, .control, .counters, .carrier] s (stopInject x0 s) := by
  unfold stopInject
  repeat' first
    | with_reducible exact OnlyChanges.refl _ _
    | with_reducible assumption
    | with_reducible apply OnlyChanges.ite
    | with_reducible apply modCu_frame
    | with_reducible apply raise_frame
    | ((with_reducible refine Part.nested ?_); rfl)
    | ((with_reducible refine Part.held ?_); rfl)
    | split
    | dsimp only
    | dsimp only [id]
theorem stopInject_frame {qs : List Part} {s t : State} (x0 : Nat) (a : OnlyChanges qs s t) (h : ([.sill, .control, .counters, .carrier] : List Part).all (fun p => qs.contains p) = true) :
    OnlyChanges qs s (stopInject x0 t) := OnlyChanges.after (stopInject_only x0 t) a h

theorem formatTx_only (x0 : Nat) (f : Format) (s : State) :
    OnlyChanges [.sill, .control, .counters, .cal, .elements, .carrier, .joinery, .framer] s (formatTx x0 f s) := by
  unfold formatTx
  repeat' first
    | with_reducible exact OnlyChanges.refl _ _
    | with_reducible assumption
    | with_reducible apply OnlyChanges.ite
    | with_reducible apply fallbackUnit_frame
    | with_reducible apply formatApplied_frame
    | with_reducible apply modCu_frame
    | with_reducible apply modFramer_frame
    | with_reducible apply stopInject_frame
    | with_reducible apply supersedeAll_frame
    | ((with_reducible refine Part.nested ?_); rfl)
    | ((with_reducible refine Part.held ?_); rfl)
    | split
    | dsimp only
    | dsimp only [id]
theorem formatTx_frame {qs : List Part} {s t : State} (x0 : Nat) (f : Format) (a : OnlyChanges qs s t) (h : ([.sill, .control, .counters, .cal, .elements, .carrier, .joinery, .framer] : List Part).all (fun p => qs.contains p) = true) :
    OnlyChanges qs s (formatTx x0 f t) := OnlyChanges.after (formatTx_only x0 f t) a h

theorem stopTx_only (x0 : Nat) (s : State) :
    OnlyChanges [.sill, .power, .control, .counters, .stream, .domain, .cal, .elements, .carrier, .client, .security] s (stopTx x0 s) := by
  unfold stopTx
  repeat' first
    | with_reducible exact OnlyChanges.refl _ _
    | with_reducible assumption
    | with_reducible apply OnlyChanges.ite
    | with_reducible apply followEnable_frame
    | with_reducible apply modCu_frame
    | with_reducible apply settleTrims_frame
    | with_reducible apply suspendSources_frame
    | ((with_reducible refine Part.nested ?_); rfl)
    | ((with_reducible refine Part.held ?_); rfl)
    | split
    | dsimp only
    | dsimp only [id]
theorem stopTx_frame {qs : List Part} {s t : State} (x0 : Nat) (a : OnlyChanges qs s t) (h : ([.sill, .power, .control, .counters, .stream, .domain, .cal, .elements, .carrier, .client, .security] : List Part).all (fun p => qs.contains p) = true) :
    OnlyChanges qs s (stopTx x0 t) := OnlyChanges.after (stopTx_only x0 t) a h

theorem txBoundary_only (x0 : Nat) (s : State) :
    OnlyChanges [.sill, .power, .control, .counters, .stream, .domain, .cal, .elements, .carrier, .joinery, .framer, .client, .security] s (txBoundary x0 s) := by
  unfold txBoundary
  repeat' first
    | with_reducible exact OnlyChanges.refl _ _
    | with_reducible assumption
    | with_reducible apply OnlyChanges.ite
    | with_reducible apply formatTx_frame
    | with_reducible apply modCu_frame
    | with_reducible apply stopTx_frame
    | ((with_reducible refine Part.nested ?_); rfl)
    | ((with_reducible refine Part.held ?_); rfl)
    | split
    | dsimp only
    | dsimp only [id]
theorem txBoundary_frame {qs : List Part} {s t : State} (x0 : Nat) (a : OnlyChanges qs s t) (h : ([.sill, .power, .control, .counters, .stream, .domain, .cal, .elements, .carrier, .joinery, .framer, .client, .security] : List Part).all (fun p => qs.contains p) = true) :
    OnlyChanges qs s (txBoundary x0 t) := OnlyChanges.after (txBoundary_only x0 t) a h

theorem settleTx_only (x0 : Nat) (s : State) :
    OnlyChanges [.sill, .power, .control, .counters, .stream, .domain, .cal, .elements, .carrier, .joinery, .framer, .client, .security] s (settleTx x0 s) := by
  unfold settleTx
  repeat' first
    | with_reducible exact OnlyChanges.refl _ _
    | with_reducible assumption
    | with_reducible apply OnlyChanges.ite
    | with_reducible apply txBoundary_frame
    | ((with_reducible refine Part.nested ?_); rfl)
    | ((with_reducible refine Part.held ?_); rfl)
    | split
    | dsimp only
    | dsimp only [id]
theorem settleTx_frame {qs : List Part} {s t : State} (x0 : Nat) (a : OnlyChanges qs s t) (h : ([.sill, .power, .control, .counters, .stream, .domain, .cal, .elements, .carrier, .joinery, .framer, .client, .security] : List Part).all (fun p => qs.contains p) = true) :
    OnlyChanges qs s (settleTx x0 t) := OnlyChanges.after (settleTx_only x0 t) a h

theorem formatDue_only (x0 : Nat) (f : Format) (s : State) :
    OnlyChanges [.sill, .power, .control, .counters, .stream, .domain, .cal, .elements, .carrier, .joinery, .framer, .client, .protect, .security, .timing, .fresh] s (formatDue x0 f s) := by
  unfold formatDue
  repeat' first
    | with_reducible exact OnlyChanges.refl _ _
    | with_reducible assumption
    | with_reducible apply OnlyChanges.ite
    | with_reducible apply modCu_frame
    | with_reducible apply modFramer_frame
    | with_reducible apply settleRx_frame
    | with_reducible apply settleTx_frame
    | with_reducible apply stopInject_frame
    | with_reducible apply supersedeAll_frame
    | ((with_reducible refine Part.nested ?_); rfl)
    | ((with_reducible refine Part.held ?_); rfl)
    | split
    | dsimp only
    | dsimp only [id]
theorem formatDue_frame {qs : List Part} {s t : State} (x0 : Nat) (f : Format) (a : OnlyChanges qs s t) (h : ([.sill, .power, .control, .counters, .stream, .domain, .cal, .elements, .carrier, .joinery, .framer, .client, .protect, .security, .timing, .fresh] : List Part).all (fun p => qs.contains p) = true) :
    OnlyChanges qs s (formatDue x0 f t) := OnlyChanges.after (formatDue_only x0 f t) a h

theorem settleUnits_only (s : State) :
    OnlyChanges [.sill, .power, .control, .counters, .stream, .domain, .cal, .elements, .carrier, .joinery, .framer, .client, .protect, .security, .timing, .fresh] s (settleUnits s) := by
  unfold settleUnits
  repeat' first
    | with_reducible exact OnlyChanges.refl _ _
    | with_reducible assumption
    | with_reducible apply OnlyChanges.ite
    | with_reducible refine OnlyChanges.each (fun _ _ => ?_) _ ?_
    | with_reducible apply settleRx_frame
    | with_reducible apply settleTx_frame
    | ((with_reducible refine Part.nested ?_); rfl)
    | ((with_reducible refine Part.held ?_); rfl)
    | split
    | dsimp only
    | dsimp only [id]
theorem settleUnits_frame {qs : List Part} {s t : State}  (a : OnlyChanges qs s t) (h : ([.sill, .power, .control, .counters, .stream, .domain, .cal, .elements, .carrier, .joinery, .framer, .client, .protect, .security, .timing, .fresh] : List Part).all (fun p => qs.contains p) = true) :
    OnlyChanges qs s (settleUnits t) := OnlyChanges.after (settleUnits_only t) a h

theorem cuRestart_only (x0 : Nat) (s : State) :
    OnlyChanges [.sill, .power, .control, .counters, .stream, .domain, .cal, .elements, .carrier, .joinery, .framer, .client, .protect, .security, .timing, .fresh] s (cuRestart x0 s) := by
  unfold cuRestart
  repeat' first
    | with_reducible exact OnlyChanges.refl _ _
    | with_reducible assumption
    | with_reducible apply OnlyChanges.ite
    | with_reducible apply applyOrder_frame
    | with_reducible apply dropInservice_frame
    | with_reducible apply fallbackUnit_frame
    | with_reducible apply formatApplied_frame
    | with_reducible apply modCu_frame
    | with_reducible apply modPower_frame
    | with_reducible apply startFullCal_frame
    | with_reducible apply stopInject_frame
    | with_reducible apply stopRx_frame
    | with_reducible apply stopTx_frame
    | with_reducible apply supersedeAll_frame
    | with_reducible apply unlock_frame
    | ((with_reducible refine Part.nested ?_); rfl)
    | ((with_reducible refine Part.held ?_); rfl)
    | split
    | dsimp only
    | dsimp only [id]
theorem cuRestart_frame {qs : List Part} {s t : State} (x0 : Nat) (a : OnlyChanges qs s t) (h : ([.sill, .power, .control, .counters, .stream, .domain, .cal, .elements, .carrier, .joinery, .framer, .client, .protect, .security, .timing, .fresh] : List Part).all (fun p => qs.contains p) = true) :
    OnlyChanges qs s (cuRestart x0 t) := OnlyChanges.after (cuRestart_only x0 t) a h

end Sys2Proof.Machine
end

