-- ==== Sys2Proof/Laws/FrameMonitorOps.lean ====
section
/-! SUPPORT. What each operation of MonitorOps.lean may change. -/

-- One theorem after another: with a thread for each, the package as one text outgrows the checker's memory limit.
set_option Elab.async false

namespace Sys2Proof.Machine

theorem modMonitor_only (f : Monitor → Monitor) (s : State) :
    OnlyChanges [.monitor] s (modMonitor f s) := by
  unfold modMonitor
  repeat' first
    | with_reducible exact OnlyChanges.refl _ _
    | with_reducible assumption
    | with_reducible apply OnlyChanges.ite
    | ((with_reducible refine Part.nested ?_); rfl)
    | ((with_reducible refine Part.held ?_); rfl)
    | split
    | dsimp only
    | dsimp only [id]
    | with_reducible apply set_monitor
theorem modMonitor_frame {qs : List Part} {s t : State} (f : Monitor → Monitor) (a : OnlyChanges qs s t) (h : ([.monitor] : List Part).all (fun p => qs.contains p) = true) :
    OnlyChanges qs s (modMonitor f t) := OnlyChanges.after (modMonitor_only f t) a h

theorem modConverter_only (c : Nat) (f : Converter → Converter) (s : State) :
    OnlyChanges [.monitor] s (modConverter c f s) := by
  unfold modConverter
  repeat' first
    | with_reducible exact OnlyChanges.refl _ _
    | with_reducible assumption
    | with_reducible apply OnlyChanges.ite
    | with_reducible apply modMonitor_frame
    | ((with_reducible refine Part.nested ?_); rfl)
    | ((with_reducible refine Part.held ?_); rfl)
    | split
    | dsimp only
    | dsimp only [id]
theorem modConverter_frame {qs : List Part} {s t : State} (c : Nat) (f : Converter → Converter) (a : OnlyChanges qs s t) (h : ([.monitor] : List Part).all (fun p => qs.contains p) = true) :
    OnlyChanges qs s (modConverter c f t) := OnlyChanges.after (modConverter_only c f t) a h

theorem modSequencer_only (q : Nat) (f : Sequencer → Sequencer) (s : State) :
    OnlyChanges [.monitor] s (modSequencer q f s) := by
  unfold modSequencer
  repeat' first
    | with_reducible exact OnlyChanges.refl _ _
    | with_reducible assumption
    | with_reducible apply OnlyChanges.ite
    | with_reducible apply modMonitor_frame
    | ((with_reducible refine Part.nested ?_); rfl)
    | ((with_reducible refine Part.held ?_); rfl)
    | split
    | dsimp only
    | dsimp only [id]
theorem modSequencer_frame {qs : List Part} {s t : State} (q : Nat) (f : Sequencer → Sequencer) (a : OnlyChanges qs s t) (h : ([.monitor] : List Part).all (fun p => qs.contains p) = true) :
    OnlyChanges qs s (modSequencer q f t) := OnlyChanges.after (modSequencer_only q f t) a h

theorem setInjection_only (c : Nat) (i : Option Injection) (s : State) :
    OnlyChanges [.monitor] s (setInjection c i s) := by
  unfold setInjection
  repeat' first
    | with_reducible exact OnlyChanges.refl _ _
    | with_reducible assumption
    | with_reducible apply OnlyChanges.ite
    | with_reducible apply modMonitor_frame
    | ((with_reducible refine Part.nested ?_); rfl)
    | ((with_reducible refine Part.held ?_); rfl)
    | split
    | dsimp only
    | dsimp only [id]
theorem setInjection_frame {qs : List Part} {s t : State} (c : Nat) (i : Option Injection) (a : OnlyChanges qs s t) (h : ([.monitor] : List Part).all (fun p => qs.contains p) = true) :
    OnlyChanges qs s (setInjection c i t) := OnlyChanges.after (setInjection_only c i t) a h

theorem modDecim_only (c : Nat) (f : Decim → Decim) (s : State) :
    OnlyChanges [.monitor] s (modDecim c f s) := by
  unfold modDecim
  repeat' first
    | with_reducible exact OnlyChanges.refl _ _
    | with_reducible assumption
    | with_reducible apply OnlyChanges.ite
    | with_reducible apply modMonitor_frame
    | ((with_reducible refine Part.nested ?_); rfl)
    | ((with_reducible refine Part.held ?_); rfl)
    | split
    | dsimp only
    | dsimp only [id]
theorem modDecim_frame {qs : List Part} {s t : State} (c : Nat) (f : Decim → Decim) (a : OnlyChanges qs s t) (h : ([.monitor] : List Part).all (fun p => qs.contains p) = true) :
    OnlyChanges qs s (modDecim c f t) := OnlyChanges.after (modDecim_only c f t) a h

theorem modMonSlot_only (i : Nat) (f : MonSlot → MonSlot) (s : State) :
    OnlyChanges [.monitor] s (modMonSlot i f s) := by
  unfold modMonSlot
  repeat' first
    | with_reducible exact OnlyChanges.refl _ _
    | with_reducible assumption
    | with_reducible apply OnlyChanges.ite
    | with_reducible apply modMonitor_frame
    | ((with_reducible refine Part.nested ?_); rfl)
    | ((with_reducible refine Part.held ?_); rfl)
    | split
    | dsimp only
    | dsimp only [id]
theorem modMonSlot_frame {qs : List Part} {s t : State} (i : Nat) (f : MonSlot → MonSlot) (a : OnlyChanges qs s t) (h : ([.monitor] : List Part).all (fun p => qs.contains p) = true) :
    OnlyChanges qs s (modMonSlot i f t) := OnlyChanges.after (modMonSlot_only i f t) a h

theorem modTracker_only (i : Nat) (f : Tracker → Tracker) (s : State) :
    OnlyChanges [.monitor] s (modTracker i f s) := by
  unfold modTracker
  repeat' first
    | with_reducible exact OnlyChanges.refl _ _
    | with_reducible assumption
    | with_reducible apply OnlyChanges.ite
    | with_reducible apply modMonitor_frame
    | ((with_reducible refine Part.nested ?_); rfl)
    | ((with_reducible refine Part.held ?_); rfl)
    | split
    | dsimp only
    | dsimp only [id]
theorem modTracker_frame {qs : List Part} {s t : State} (i : Nat) (f : Tracker → Tracker) (a : OnlyChanges qs s t) (h : ([.monitor] : List Part).all (fun p => qs.contains p) = true) :
    OnlyChanges qs s (modTracker i f t) := OnlyChanges.after (modTracker_only i f t) a h

theorem refSettled_only (c : Nat) (s : State) :
    OnlyChanges [.monitor] s (refSettled c s) := by
  unfold refSettled
  repeat' first
    | with_reducible exact OnlyChanges.refl _ _
    | with_reducible assumption
    | with_reducible apply OnlyChanges.ite
    | with_reducible apply modConverter_frame
    | with_reducible apply modSequencer_frame
    | with_reducible apply setInjection_frame
    | ((with_reducible refine Part.nested ?_); rfl)
    | ((with_reducible refine Part.held ?_); rfl)
    | split
    | dsimp only
    | dsimp only [id]
theorem refSettled_frame {qs : List Part} {s t : State} (c : Nat) (a : OnlyChanges qs s t) (h : ([.monitor] : List Part).all (fun p => qs.contains p) = true) :
    OnlyChanges qs s (refSettled c t) := OnlyChanges.after (refSettled_only c t) a h

theorem markPrecal_only (c : Nat) (s : State) :
    OnlyChanges [.monitor] s (markPrecal c s) := by
  unfold markPrecal
  repeat' first
    | with_reducible exact OnlyChanges.refl _ _
    | with_reducible assumption
    | with_reducible apply OnlyChanges.ite
    | with_reducible apply setInjection_frame
    | ((with_reducible refine Part.nested ?_); rfl)
    | ((with_reducible refine Part.held ?_); rfl)
    | split
    | dsimp only
    | dsimp only [id]
theorem markPrecal_frame {qs : List Part} {s t : State} (c : Nat) (a : OnlyChanges qs s t) (h : ([.monitor] : List Part).all (fun p => qs.contains p) = true) :
    OnlyChanges qs s (markPrecal c t) := OnlyChanges.after (markPrecal_only c t) a h

theorem startPass_only (q : Nat) (s : State) :
    OnlyChanges [.monitor] s (startPass q s) := by
  unfold startPass
  repeat' first
    | with_reducible exact OnlyChanges.refl _ _
    | with_reducible assumption
    | with_reducible apply OnlyChanges.ite
    | with_reducible apply modSequencer_frame
    | ((with_reducible refine Part.nested ?_); rfl)
    | ((with_reducible refine Part.held ?_); rfl)
    | split
    | dsimp only
    | dsimp only [id]
theorem startPass_frame {qs : List Part} {s t : State} (q : Nat) (a : OnlyChanges qs s t) (h : ([.monitor] : List Part).all (fun p => qs.contains p) = true) :
    OnlyChanges qs s (startPass q t) := OnlyChanges.after (startPass_only q t) a h

theorem missTrigger_only (q : Nat) (s : State) :
    OnlyChanges [.monitor] s (missTrigger q s) := by
  unfold missTrigger
  repeat' first
    | with_reducible exact OnlyChanges.refl _ _
    | with_reducible assumption
    | with_reducible apply OnlyChanges.ite
    | with_reducible apply modSequencer_frame
    | ((with_reducible refine Part.nested ?_); rfl)
    | ((with_reducible refine Part.held ?_); rfl)
    | split
    | dsimp only
    | dsimp only [id]
theorem missTrigger_frame {qs : List Part} {s t : State} (q : Nat) (a : OnlyChanges qs s t) (h : ([.monitor] : List Part).all (fun p => qs.contains p) = true) :
    OnlyChanges qs s (missTrigger q t) := OnlyChanges.after (missTrigger_only q t) a h

theorem triggerSeq_only (q : Nat) (s : State) :
    PairChanges [.power, .cal, .elements, .carrier, .client, .monitor] s (triggerSeq q s) := by
  unfold triggerSeq
  repeat' first
    | with_reducible exact OnlyChanges.refl _ _
    | with_reducible assumption
    | with_reducible apply PairChanges.ite
    | with_reducible apply OnlyChanges.ite
    | with_reducible apply missTrigger_frame
    | with_reducible apply modSequencer_frame
    | with_reducible apply startExit_frame
    | with_reducible apply startPass_frame
    | ((with_reducible refine Part.nested ?_); rfl)
    | ((with_reducible refine Part.held ?_); rfl)
    | split
    | dsimp only
    | dsimp only [id]
    | with_reducible apply PairChanges.mk
theorem triggerSeq_frame {qs : List Part} {s t : State} (q : Nat) (a : OnlyChanges qs s t) (h : ([.power, .cal, .elements, .carrier, .client, .monitor] : List Part).all (fun p => qs.contains p) = true) :
    OnlyChanges qs s (triggerSeq q t).2 := OnlyChanges.after (triggerSeq_only q t) a h
theorem triggerSeq_pair {qs : List Part} {s t : State} (q : Nat) (a : OnlyChanges qs s t) (h : ([.power, .cal, .elements, .carrier, .client, .monitor] : List Part).all (fun p => qs.contains p) = true) :
    PairChanges qs s (triggerSeq q t) := OnlyChanges.after (triggerSeq_only q t) a h
theorem triggerSeq_snd {qs : List Part} {s t u : State} {q : Nat} {y : _} (e : (triggerSeq q t) = (y, u)) (a : OnlyChanges qs s t) (h : ([.power, .cal, .elements, .carrier, .client, .monitor] : List Part).all (fun p => qs.contains p) = true) :
    OnlyChanges qs s u := PairChanges.snd (triggerSeq_only q t) e a h

theorem triggerSource_only (src : Nat) (s : State) :
    OnlyChanges [.power, .cal, .elements, .carrier, .client, .monitor] s (triggerSource src s) := by
  unfold triggerSource
  repeat' first
    | with_reducible exact OnlyChanges.refl _ _
    | with_reducible assumption
    | with_reducible apply OnlyChanges.ite
    | with_reducible refine OnlyChanges.each (fun _ _ => ?_) _ ?_
    | with_reducible apply triggerSeq_frame
    | with_reducible refine triggerSeq_snd (by assumption) ?_ ?_
    | ((with_reducible refine Part.nested ?_); rfl)
    | ((with_reducible refine Part.held ?_); rfl)
    | split
    | dsimp only
    | dsimp only [id]
theorem triggerSource_frame {qs : List Part} {s t : State} (src : Nat) (a : OnlyChanges qs s t) (h : ([.power, .cal, .elements, .carrier, .client, .monitor] : List Part).all (fun p => qs.contains p) = true) :
    OnlyChanges qs s (triggerSource src t) := OnlyChanges.after (triggerSource_only src t) a h

theorem saturateSlot_only (i : Nat) (s : State) :
    OnlyChanges [.sill, .control, .counters, .monitor] s (saturateSlot i s) := by
  unfold saturateSlot
  repeat' first
    | with_reducible exact OnlyChanges.refl _ _
    | with_reducible assumption
    | with_reducible apply OnlyChanges.ite
    | with_reducible apply modMonSlot_frame
    | with_reducible apply raise_frame
    | ((with_reducible refine Part.nested ?_); rfl)
    | ((with_reducible refine Part.held ?_); rfl)
    | split
    | dsimp only
    | dsimp only [id]
theorem saturateSlot_frame {qs : List Part} {s t : State} (i : Nat) (a : OnlyChanges qs s t) (h : ([.sill, .control, .counters, .monitor] : List Part).all (fun p => qs.contains p) = true) :
    OnlyChanges qs s (saturateSlot i t) := OnlyChanges.after (saturateSlot_only i t) a h

theorem addSlot_only (i : Nat) (v : Nat) (m : Marks) (s : State) :
    OnlyChanges [.sill, .control, .counters, .monitor] s (addSlot i v m s) := by
  unfold addSlot
  repeat' first
    | with_reducible exact OnlyChanges.refl _ _
    | with_reducible assumption
    | with_reducible apply OnlyChanges.ite
    | with_reducible apply modMonSlot_frame
    | with_reducible apply saturateSlot_frame
    | ((with_reducible refine Part.nested ?_); rfl)
    | ((with_reducible refine Part.held ?_); rfl)
    | split
    | dsimp only
    | dsimp only [id]
theorem addSlot_frame {qs : List Part} {s t : State} (i : Nat) (v : Nat) (m : Marks) (a : OnlyChanges qs s t) (h : ([.sill, .control, .counters, .monitor] : List Part).all (fun p => qs.contains p) = true) :
    OnlyChanges qs s (addSlot i v m t) := OnlyChanges.after (addSlot_only i v m t) a h

theorem addTracker_only (i : Nat) (v : Nat) (m : Marks) (s : State) :
    OnlyChanges [.monitor] s (addTracker i v m s) := by
  unfold addTracker
  repeat' first
    | with_reducible exact OnlyChanges.refl _ _
    | with_reducible assumption
    | with_reducible apply OnlyChanges.ite
    | with_reducible apply modTracker_frame
    | ((with_reducible refine Part.nested ?_); rfl)
    | ((with_reducible refine Part.held ?_); rfl)
    | split
    | dsimp only
    | dsimp only [id]
theorem addTracker_frame {qs : List Part} {s t : State} (i : Nat) (v : Nat) (m : Marks) (a : OnlyChanges qs s t) (h : ([.monitor] : List Part).all (fun p => qs.contains p) = true) :
    OnlyChanges qs s (addTracker i v m t) := OnlyChanges.after (addTracker_only i v m t) a h

theorem deliver_only (slot : Option Nat) (tracker : Option Nat) (v : Nat) (m : Marks) (s : State) :
    OnlyChanges [.sill, .control, .counters, .monitor] s (deliver slot tracker v m s) := by
  unfold deliver
  repeat' first
    | with_reducible exact OnlyChanges.refl _ _
    | with_reducible assumption
    | with_reducible apply OnlyChanges.ite
    | with_reducible apply addSlot_frame
    | with_reducible apply addTracker_frame
    | ((with_reducible refine Part.nested ?_); rfl)
    | ((with_reducible refine Part.held ?_); rfl)
    | split
    | dsimp only
    | dsimp only [id]
theorem deliver_frame {qs : List Part} {s t : State} (slot : Option Nat) (tracker : Option Nat) (v : Nat) (m : Marks) (a : OnlyChanges qs s t) (h : ([.sill, .control, .counters, .monitor] : List Part).all (fun p => qs.contains p) = true) :
    OnlyChanges qs s (deliver slot tracker v m t) := OnlyChanges.after (deliver_only slot tracker v m t) a h

theorem sequencerBoundary_only (q : Nat) (s : State) :
    OnlyChanges [.sill, .control, .counters, .monitor] s (sequencerBoundary q s) := by
  unfold sequencerBoundary
  repeat' first
    | with_reducible exact OnlyChanges.refl _ _
    | with_reducible assumption
    | with_reducible apply OnlyChanges.ite
    | with_reducible apply modSequencer_frame
    | with_reducible apply raise_frame
    | ((with_reducible refine Part.nested ?_); rfl)
    | ((with_reducible refine Part.held ?_); rfl)
    | split
    | dsimp only
    | dsimp only [id]
theorem sequencerBoundary_frame {qs : List Part} {s t : State} (q : Nat) (a : OnlyChanges qs s t) (h : ([.sill, .control, .counters, .monitor] : List Part).all (fun p => qs.contains p) = true) :
    OnlyChanges qs s (sequencerBoundary q t) := OnlyChanges.after (sequencerBoundary_only q t) a h

theorem monitorBoundary_only (s : State) :
    OnlyChanges [.sill, .control, .counters, .monitor] s (monitorBoundary s) := by
  unfold monitorBoundary
  repeat' first
    | with_reducible exact OnlyChanges.refl _ _
    | with_reducible assumption
    | with_reducible apply OnlyChanges.ite
    | with_reducible apply modMonitor_frame
    | with_reducible apply sequencerBoundary_frame
    | ((with_reducible refine Part.nested ?_); rfl)
    | ((with_reducible refine Part.held ?_); rfl)
    | split
    | dsimp only
    | dsimp only [id]
theorem monitorBoundary_frame {qs : List Part} {s t : State}  (a : OnlyChanges qs s t) (h : ([.sill, .control, .counters, .monitor] : List Part).all (fun p => qs.contains p) = true) :
    OnlyChanges qs s (monitorBoundary t) := OnlyChanges.after (monitorBoundary_only t) a h

theorem monitorAwake_only (s : State) :
    OnlyChanges [.monitor] s (monitorAwake s) := by
  unfold monitorAwake
  repeat' first
    | with_reducible exact OnlyChanges.refl _ _
    | with_reducible assumption
    | with_reducible apply OnlyChanges.ite
    | with_reducible apply refSettled_frame
    | ((with_reducible refine Part.nested ?_); rfl)
    | ((with_reducible refine Part.held ?_); rfl)
    | split
    | dsimp only
    | dsimp only [id]
theorem monitorAwake_frame {qs : List Part} {s t : State}  (a : OnlyChanges qs s t) (h : ([.monitor] : List Part).all (fun p => qs.contains p) = true) :
    OnlyChanges qs s (monitorAwake t) := OnlyChanges.after (monitorAwake_only t) a h

end Sys2Proof.Machine
end

