-- ==== Sys2Proof/Laws/FrameCalibration.lean ====
section
/-! SUPPORT. What each operation of Calibration.lean may change. -/

-- One theorem after another: with a thread for each, the package as one text outgrows the checker's memory limit.
set_option Elab.async false

namespace Sys2Proof.Machine

theorem applyCorrection_only (x0 : Nat) (p : Nat) (i : Nat) (c : Int) (full : Bool) (s : State) :
    OnlyChanges [.cal, .elements] s (applyCorrection x0 p i c full s) := by
  unfold applyCorrection
  repeat' first
    | with_reducible exact OnlyChanges.refl _ _
    | with_reducible assumption
    | with_reducible apply OnlyChanges.ite
    | with_reducible apply modCal_frame
    | with_reducible apply modElem_frame
    | ((with_reducible refine Part.nested ?_); rfl)
    | ((with_reducible refine Part.held ?_); rfl)
    | split
    | dsimp only
    | dsimp only [id]
theorem applyCorrection_frame {qs : List Part} {s t : State} (x0 : Nat) (p : Nat) (i : Nat) (c : Int) (full : Bool) (a : OnlyChanges qs s t) (h : ([.cal, .elements] : List Part).all (fun p => qs.contains p) = true) :
    OnlyChanges qs s (applyCorrection x0 p i c full t) := OnlyChanges.after (applyCorrection_only x0 p i c full t) a h

theorem judge_only (x0 : Nat) (p : Nat) (i : Nat) (x3 : Int) (b : Int) (full : Bool) (s : State) :
    OnlyChanges [.sill, .control, .counters, .cal, .elements] s (judge x0 p i x3 b full s) := by
  unfold judge
  repeat' first
    | with_reducible exact OnlyChanges.refl _ _
    | with_reducible assumption
    | with_reducible apply OnlyChanges.ite
    | with_reducible apply applyCorrection_frame
    | with_reducible apply modCal_frame
    | with_reducible apply modElem_frame
    | with_reducible apply rejectElem_frame
    | ((with_reducible refine Part.nested ?_); rfl)
    | ((with_reducible refine Part.held ?_); rfl)
    | split
    | dsimp only
    | dsimp only [id]
theorem judge_frame {qs : List Part} {s t : State} (x0 : Nat) (p : Nat) (i : Nat) (x3 : Int) (b : Int) (full : Bool) (a : OnlyChanges qs s t) (h : ([.sill, .control, .counters, .cal, .elements] : List Part).all (fun p => qs.contains p) = true) :
    OnlyChanges qs s (judge x0 p i x3 b full t) := OnlyChanges.after (judge_only x0 p i x3 b full t) a h

theorem fullWindow_only (x0 : Nat) (est : List (Nat × Nat × Int)) (s : State) :
    OnlyChanges [.sill, .control, .counters, .cal, .elements] s (fullWindow x0 est s) := by
  unfold fullWindow
  repeat' first
    | with_reducible exact OnlyChanges.refl _ _
    | with_reducible assumption
    | with_reducible apply OnlyChanges.ite
    | with_reducible refine OnlyChanges.each (fun _ _ => ?_) _ ?_
    | with_reducible apply judge_frame
    | with_reducible apply modCal_frame
    | with_reducible apply modElem_frame
    | ((with_reducible refine Part.nested ?_); rfl)
    | ((with_reducible refine Part.held ?_); rfl)
    | split
    | dsimp only
    | dsimp only [id]
theorem fullWindow_frame {qs : List Part} {s t : State} (x0 : Nat) (est : List (Nat × Nat × Int)) (a : OnlyChanges qs s t) (h : ([.sill, .control, .counters, .cal, .elements] : List Part).all (fun p => qs.contains p) = true) :
    OnlyChanges qs s (fullWindow x0 est t) := OnlyChanges.after (fullWindow_only x0 est t) a h

theorem roundWindow_only (x0 : Nat) (est : List (Nat × Nat × Int)) (s : State) :
    OnlyChanges [.sill, .control, .counters, .cal, .elements] s (roundWindow x0 est s) := by
  unfold roundWindow
  repeat' first
    | with_reducible exact OnlyChanges.refl _ _
    | with_reducible assumption
    | with_reducible apply OnlyChanges.ite
    | with_reducible refine OnlyChanges.each (fun _ _ => ?_) _ ?_
    | with_reducible apply endRound_frame
    | with_reducible apply judge_frame
    | with_reducible apply modCal_frame
    | with_reducible apply modElem_frame
    | with_reducible apply suspendSources_frame
    | ((with_reducible refine Part.nested ?_); rfl)
    | ((with_reducible refine Part.held ?_); rfl)
    | split
    | dsimp only
    | dsimp only [id]
theorem roundWindow_frame {qs : List Part} {s t : State} (x0 : Nat) (est : List (Nat × Nat × Int)) (a : OnlyChanges qs s t) (h : ([.sill, .control, .counters, .cal, .elements] : List Part).all (fun p => qs.contains p) = true) :
    OnlyChanges qs s (roundWindow x0 est t) := OnlyChanges.after (roundWindow_only x0 est t) a h

theorem calWindowDone_only (x0 : Nat) (est : List (Nat × Nat × Int)) (s : State) :
    OnlyChanges [.sill, .control, .counters, .cal, .elements] s (calWindowDone x0 est s) := by
  unfold calWindowDone
  repeat' first
    | with_reducible exact OnlyChanges.refl _ _
    | with_reducible assumption
    | with_reducible apply OnlyChanges.ite
    | with_reducible apply fullWindow_frame
    | with_reducible apply roundWindow_frame
    | ((with_reducible refine Part.nested ?_); rfl)
    | ((with_reducible refine Part.held ?_); rfl)
    | split
    | dsimp only
    | dsimp only [id]
theorem calWindowDone_frame {qs : List Part} {s t : State} (x0 : Nat) (est : List (Nat × Nat × Int)) (a : OnlyChanges qs s t) (h : ([.sill, .control, .counters, .cal, .elements] : List Part).all (fun p => qs.contains p) = true) :
    OnlyChanges qs s (calWindowDone x0 est t) := OnlyChanges.after (calWindowDone_only x0 est t) a h

theorem startRound_only (x0 : Nat) (byCommand : Bool) (s : State) :
    OnlyChanges [.cal, .elements] s (startRound x0 byCommand s) := by
  unfold startRound
  repeat' first
    | with_reducible exact OnlyChanges.refl _ _
    | with_reducible assumption
    | with_reducible apply OnlyChanges.ite
    | with_reducible refine OnlyChanges.each (fun _ _ => ?_) _ ?_
    | with_reducible apply modCal_frame
    | with_reducible apply modElem_frame
    | ((with_reducible refine Part.nested ?_); rfl)
    | ((with_reducible refine Part.held ?_); rfl)
    | split
    | dsimp only
    | dsimp only [id]
theorem startRound_frame {qs : List Part} {s t : State} (x0 : Nat) (byCommand : Bool) (a : OnlyChanges qs s t) (h : ([.cal, .elements] : List Part).all (fun p => qs.contains p) = true) :
    OnlyChanges qs s (startRound x0 byCommand t) := OnlyChanges.after (startRound_only x0 byCommand t) a h

theorem calRoundStart_only (x0 : Nat) (s : State) :
    OnlyChanges [.cal, .elements] s (calRoundStart x0 s) := by
  unfold calRoundStart
  repeat' first
    | with_reducible exact OnlyChanges.refl _ _
    | with_reducible assumption
    | with_reducible apply OnlyChanges.ite
    | with_reducible refine OnlyChanges.cond (fun _ => ?_) ?_
    | with_reducible apply startRound_frame
    | ((with_reducible refine Part.nested ?_); rfl)
    | ((with_reducible refine Part.held ?_); rfl)
    | split
    | dsimp only
    | dsimp only [id]
theorem calRoundStart_frame {qs : List Part} {s t : State} (x0 : Nat) (a : OnlyChanges qs s t) (h : ([.cal, .elements] : List Part).all (fun p => qs.contains p) = true) :
    OnlyChanges qs s (calRoundStart x0 t) := OnlyChanges.after (calRoundStart_only x0 t) a h

theorem fullCalibrationDone_only (x0 : Nat) (tx : Bool) (s : State) :
    OnlyChanges [.sill, .control, .counters, .stream, .domain, .cal, .elements, .carrier, .security] s (fullCalibrationDone x0 tx s) := by
  unfold fullCalibrationDone
  repeat' first
    | with_reducible exact OnlyChanges.refl _ _
    | with_reducible assumption
    | with_reducible apply OnlyChanges.ite
    | with_reducible refine OnlyChanges.cond (fun _ => ?_) ?_
    | with_reducible refine OnlyChanges.each (fun _ _ => ?_) _ ?_
    | with_reducible apply acquire_frame
    | with_reducible apply modCal_frame
    | with_reducible apply modCu_frame
    | with_reducible apply modElem_frame
    | with_reducible apply raise_frame
    | with_reducible apply settleTrims_frame
    | ((with_reducible refine Part.nested ?_); rfl)
    | ((with_reducible refine Part.held ?_); rfl)
    | split
    | dsimp only
    | dsimp only [id]
theorem fullCalibrationDone_frame {qs : List Part} {s t : State} (x0 : Nat) (tx : Bool) (a : OnlyChanges qs s t) (h : ([.sill, .control, .counters, .stream, .domain, .cal, .elements, .carrier, .security] : List Part).all (fun p => qs.contains p) = true) :
    OnlyChanges qs s (fullCalibrationDone x0 tx t) := OnlyChanges.after (fullCalibrationDone_only x0 tx t) a h

theorem monCalStep_only (s : State) :
    OnlyChanges [.sill, .control, .counters, .stream, .domain, .cal, .elements, .security, .monitor] s (monCalStep s) := by
  unfold monCalStep
  repeat' first
    | with_reducible exact OnlyChanges.refl _ _
    | with_reducible assumption
    | with_reducible apply OnlyChanges.ite
    | with_reducible refine OnlyChanges.cond (fun _ => ?_) ?_
    | with_reducible refine OnlyChanges.each (fun _ _ => ?_) _ ?_
    | with_reducible apply endRound_frame
    | with_reducible apply markPrecal_frame
    | with_reducible apply modConverter_frame
    | with_reducible apply replyOverlays_frame
    | with_reducible apply stepTrims_frame
    | ((with_reducible refine Part.nested ?_); rfl)
    | ((with_reducible refine Part.held ?_); rfl)
    | split
    | dsimp only
    | dsimp only [id]
theorem monCalStep_frame {qs : List Part} {s t : State}  (a : OnlyChanges qs s t) (h : ([.sill, .control, .counters, .stream, .domain, .cal, .elements, .security, .monitor] : List Part).all (fun p => qs.contains p) = true) :
    OnlyChanges qs s (monCalStep t) := OnlyChanges.after (monCalStep_only t) a h

theorem modBias_only (x0 : Nat) (ch : Nat) (f : Bias → Bias) (s : State) :
    OnlyChanges [.cal] s (modBias x0 ch f s) := by
  unfold modBias
  repeat' first
    | with_reducible exact OnlyChanges.refl _ _
    | with_reducible assumption
    | with_reducible apply OnlyChanges.ite
    | with_reducible apply modCal_frame
    | ((with_reducible refine Part.nested ?_); rfl)
    | ((with_reducible refine Part.held ?_); rfl)
    | split
    | dsimp only
    | dsimp only [id]
theorem modBias_frame {qs : List Part} {s t : State} (x0 : Nat) (ch : Nat) (f : Bias → Bias) (a : OnlyChanges qs s t) (h : ([.cal] : List Part).all (fun p => qs.contains p) = true) :
    OnlyChanges qs s (modBias x0 ch f t) := OnlyChanges.after (modBias_only x0 ch f t) a h

theorem biasRampStep_only (x0 : Nat) (ch : Nat) (limited : Bool) (s : State) :
    OnlyChanges [.power, .cal, .elements, .carrier] s (biasRampStep x0 ch limited s) := by
  unfold biasRampStep
  repeat' first
    | with_reducible exact OnlyChanges.refl _ _
    | with_reducible assumption
    | with_reducible apply OnlyChanges.ite
    | with_reducible apply holdOff_frame
    | with_reducible apply modBias_frame
    | ((with_reducible refine Part.nested ?_); rfl)
    | ((with_reducible refine Part.held ?_); rfl)
    | split
    | dsimp only
    | dsimp only [id]
theorem biasRampStep_frame {qs : List Part} {s t : State} (x0 : Nat) (ch : Nat) (limited : Bool) (a : OnlyChanges qs s t) (h : ([.power, .cal, .elements, .carrier] : List Part).all (fun p => qs.contains p) = true) :
    OnlyChanges qs s (biasRampStep x0 ch limited t) := OnlyChanges.after (biasRampStep_only x0 ch limited t) a h

theorem picInterrupt_only (x0 : Nat) (highNs : Nat) (s : State) :
    OnlyChanges [.sill, .control, .counters, .cal] s (picInterrupt x0 highNs s) := by
  unfold picInterrupt
  repeat' first
    | with_reducible exact OnlyChanges.refl _ _
    | with_reducible assumption
    | with_reducible apply OnlyChanges.ite
    | with_reducible refine OnlyChanges.cond (fun _ => ?_) ?_
    | with_reducible apply modCal_frame
    | with_reducible apply raise_frame
    | ((with_reducible refine Part.nested ?_); rfl)
    | ((with_reducible refine Part.held ?_); rfl)
    | split
    | dsimp only
    | dsimp only [id]
theorem picInterrupt_frame {qs : List Part} {s t : State} (x0 : Nat) (highNs : Nat) (a : OnlyChanges qs s t) (h : ([.sill, .control, .counters, .cal] : List Part).all (fun p => qs.contains p) = true) :
    OnlyChanges qs s (picInterrupt x0 highNs t) := OnlyChanges.after (picInterrupt_only x0 highNs t) a h

theorem loadOverlay_only (x0 : Nat) (p : Nat) (i : Nat) (v : Int) (s : State) :
    OnlyChanges [.cal, .elements] s (loadOverlay x0 p i v s) := by
  unfold loadOverlay
  repeat' first
    | with_reducible exact OnlyChanges.refl _ _
    | with_reducible assumption
    | with_reducible apply OnlyChanges.ite
    | with_reducible apply modCal_frame
    | with_reducible apply modElem_frame
    | ((with_reducible refine Part.nested ?_); rfl)
    | ((with_reducible refine Part.held ?_); rfl)
    | split
    | dsimp only
    | dsimp only [id]
theorem loadOverlay_frame {qs : List Part} {s t : State} (x0 : Nat) (p : Nat) (i : Nat) (v : Int) (a : OnlyChanges qs s t) (h : ([.cal, .elements] : List Part).all (fun p => qs.contains p) = true) :
    OnlyChanges qs s (loadOverlay x0 p i v t) := OnlyChanges.after (loadOverlay_only x0 p i v t) a h

theorem loadCalRecord_only (s : State) :
    OnlyChanges [.sill, .control, .counters, .cal, .elements] s (loadCalRecord s) := by
  unfold loadCalRecord
  repeat' first
    | with_reducible exact OnlyChanges.refl _ _
    | with_reducible assumption
    | with_reducible apply OnlyChanges.ite
    | with_reducible refine OnlyChanges.each (fun _ _ => ?_) _ ?_
    | with_reducible apply loadOverlay_frame
    | with_reducible apply modCal_frame
    | with_reducible apply raise_frame
    | ((with_reducible refine Part.nested ?_); rfl)
    | ((with_reducible refine Part.held ?_); rfl)
    | split
    | dsimp only
    | dsimp only [id]
theorem loadCalRecord_frame {qs : List Part} {s t : State}  (a : OnlyChanges qs s t) (h : ([.sill, .control, .counters, .cal, .elements] : List Part).all (fun p => qs.contains p) = true) :
    OnlyChanges qs s (loadCalRecord t) := OnlyChanges.after (loadCalRecord_only t) a h

theorem calGetParam_only (q : Request) (s : State) :
    ReplyChanges [] s (calGetParam q s) := by
  unfold calGetParam
  repeat' first
    | with_reducible exact OnlyChanges.refl _ _
    | with_reducible assumption
    | with_reducible apply ReplyChanges.checked
    | with_reducible apply ReplyChanges.require
    | with_reducible apply ReplyChanges.ite
    | with_reducible apply ReplyChanges.okay
    | with_reducible apply ReplyChanges.okWith
    | with_reducible refine ReplyChanges.okThen ?_ (fun _ => ?_)
    | with_reducible apply ReplyChanges.refuse
    | with_reducible apply ReplyChanges.reject
    | with_reducible refine ReplyChanges.done _ _ ?_ (fun _ => ?_)
    | with_reducible apply ReplyChanges.later
    | with_reducible apply OnlyChanges.ite
    | ((with_reducible refine Part.nested ?_); rfl)
    | ((with_reducible refine Part.held ?_); rfl)
    | split
    | dsimp only
    | dsimp only [id]
theorem calGetParam_frame {qs : List Part} {s t : State} (q : Request) (a : OnlyChanges qs s t) (h : ([] : List Part).all (fun p => qs.contains p) = true) :
    ReplyChanges qs s (calGetParam q t) := ReplyChanges.after (calGetParam_only q t) a h

theorem calSetOverlay_only (q : Request) (s : State) :
    ReplyChanges [.sill, .power, .control, .counters, .stream, .domain, .cal, .elements, .carrier, .client, .security] s (calSetOverlay q s) := by
  unfold calSetOverlay
  repeat' first
    | with_reducible exact OnlyChanges.refl _ _
    | with_reducible assumption
    | with_reducible apply ReplyChanges.checked
    | with_reducible apply ReplyChanges.require
    | with_reducible apply ReplyChanges.ite
    | with_reducible apply ReplyChanges.okay
    | with_reducible apply ReplyChanges.okWith
    | with_reducible refine ReplyChanges.okThen ?_ (fun _ => ?_)
    | with_reducible apply ReplyChanges.refuse
    | with_reducible apply ReplyChanges.reject
    | with_reducible refine ReplyChanges.done _ _ ?_ (fun _ => ?_)
    | with_reducible apply ReplyChanges.later
    | with_reducible apply OnlyChanges.ite
    | with_reducible refine OnlyChanges.each (fun _ _ => ?_) _ ?_
    | with_reducible apply modElem_frame
    | with_reducible apply rouse_frame
    | with_reducible apply settleTrims_frame
    | with_reducible apply supersede_frame
    | ((with_reducible refine Part.nested ?_); rfl)
    | ((with_reducible refine Part.held ?_); rfl)
    | split
    | dsimp only
    | dsimp only [id]
theorem calSetOverlay_frame {qs : List Part} {s t : State} (q : Request) (a : OnlyChanges qs s t) (h : ([.sill, .power, .control, .counters, .stream, .domain, .cal, .elements, .carrier, .client, .security] : List Part).all (fun p => qs.contains p) = true) :
    ReplyChanges qs s (calSetOverlay q t) := ReplyChanges.after (calSetOverlay_only q t) a h

theorem calSaveRecord_only (q : Request) (s : State) :
    ReplyChanges [.flash, .fresh] s (calSaveRecord q s) := by
  unfold calSaveRecord
  have fails : ∀ t, OnlyChanges [.flash, .fresh] s t → ReplyChanges [.flash, .fresh] s (.done .calRecord [] t id) :=
    fun t a => ReplyChanges.done _ _ a (fun _ => OnlyChanges.refl _ _)
  refine ReplyChanges.checked _ (OnlyChanges.refl _ _) (ReplyChanges.require _ (OnlyChanges.refl _ _) ?_)
  split <;> (dsimp only; split) <;> first
    | exact fails _ (OnlyChanges.refl _ _)
    | split
  all_goals first
    | exact ReplyChanges.okWith _ (flashWrite_frame _ _ (flashErase_frame _ _ (flashTakes_frame (drawNat_frame
        (OnlyChanges.refl _ _) rfl) rfl) rfl) rfl)
    | exact fails _ (flashTakes_frame (drawNat_frame (OnlyChanges.refl _ _) rfl) rfl)

theorem calSaveRecord_frame {qs : List Part} {s t : State} (q : Request) (a : OnlyChanges qs s t) (h : ([.flash, .fresh] : List Part).all (fun p => qs.contains p) = true) :
    ReplyChanges qs s (calSaveRecord q t) := ReplyChanges.after (calSaveRecord_only q t) a h

theorem rouseUnit_only (x0 : Nat) (s : State) :
    OnlyChanges [.sill, .power, .control, .counters, .cal, .elements, .carrier, .client] s (rouseUnit x0 s) := by
  unfold rouseUnit
  repeat' first
    | with_reducible exact OnlyChanges.refl _ _
    | with_reducible assumption
    | with_reducible apply OnlyChanges.ite
    | with_reducible apply rouse_frame
    | ((with_reducible refine Part.nested ?_); rfl)
    | ((with_reducible refine Part.held ?_); rfl)
    | split
    | dsimp only
    | dsimp only [id]
theorem rouseUnit_frame {qs : List Part} {s t : State} (x0 : Nat) (a : OnlyChanges qs s t) (h : ([.sill, .power, .control, .counters, .cal, .elements, .carrier, .client] : List Part).all (fun p => qs.contains p) = true) :
    OnlyChanges qs s (rouseUnit x0 t) := OnlyChanges.after (rouseUnit_only x0 t) a h

theorem calRun_only (q : Request) (s : State) :
    ReplyChanges [.sill, .power, .control, .counters, .cal, .elements, .carrier, .client] s (calRun q s) := by
  unfold calRun
  repeat' first
    | with_reducible exact OnlyChanges.refl _ _
    | with_reducible assumption
    | with_reducible apply ReplyChanges.checked
    | with_reducible apply ReplyChanges.require
    | with_reducible apply ReplyChanges.ite
    | with_reducible apply ReplyChanges.okay
    | with_reducible apply ReplyChanges.okWith
    | with_reducible refine ReplyChanges.okThen ?_ (fun _ => ?_)
    | with_reducible apply ReplyChanges.refuse
    | with_reducible apply ReplyChanges.reject
    | with_reducible refine ReplyChanges.done _ _ ?_ (fun _ => ?_)
    | with_reducible apply ReplyChanges.later
    | with_reducible apply OnlyChanges.ite
    | with_reducible apply modCal_frame
    | with_reducible apply rouse_frame
    | with_reducible apply rouseUnit_frame
    | with_reducible apply startFullCal_frame
    | with_reducible apply startRound_frame
    | ((with_reducible refine Part.nested ?_); rfl)
    | ((with_reducible refine Part.held ?_); rfl)
    | split
    | dsimp only
    | dsimp only [id]
theorem calRun_frame {qs : List Part} {s t : State} (q : Request) (a : OnlyChanges qs s t) (h : ([.sill, .power, .control, .counters, .cal, .elements, .carrier, .client] : List Part).all (fun p => qs.contains p) = true) :
    ReplyChanges qs s (calRun q t) := ReplyChanges.after (calRun_only q t) a h

theorem calSetPolicy_only (q : Request) (s : State) :
    ReplyChanges [.cal] s (calSetPolicy q s) := by
  unfold calSetPolicy
  repeat' first
    | with_reducible exact OnlyChanges.refl _ _
    | with_reducible assumption
    | with_reducible apply ReplyChanges.checked
    | with_reducible apply ReplyChanges.require
    | with_reducible apply ReplyChanges.ite
    | with_reducible apply ReplyChanges.okay
    | with_reducible apply ReplyChanges.okWith
    | with_reducible refine ReplyChanges.okThen ?_ (fun _ => ?_)
    | with_reducible apply ReplyChanges.refuse
    | with_reducible apply ReplyChanges.reject
    | with_reducible refine ReplyChanges.done _ _ ?_ (fun _ => ?_)
    | with_reducible apply ReplyChanges.later
    | with_reducible apply OnlyChanges.ite
    | with_reducible apply modCal_frame
    | ((with_reducible refine Part.nested ?_); rfl)
    | ((with_reducible refine Part.held ?_); rfl)
    | split
    | dsimp only
    | dsimp only [id]
theorem calSetPolicy_frame {qs : List Part} {s t : State} (q : Request) (a : OnlyChanges qs s t) (h : ([.cal] : List Part).all (fun p => qs.contains p) = true) :
    ReplyChanges qs s (calSetPolicy q t) := ReplyChanges.after (calSetPolicy_only q t) a h

theorem calGetStats_only (q : Request) (s : State) :
    ReplyChanges [] s (calGetStats q s) := by
  unfold calGetStats
  repeat' first
    | with_reducible exact OnlyChanges.refl _ _
    | with_reducible assumption
    | with_reducible apply ReplyChanges.checked
    | with_reducible apply ReplyChanges.require
    | with_reducible apply ReplyChanges.ite
    | with_reducible apply ReplyChanges.okay
    | with_reducible apply ReplyChanges.okWith
    | with_reducible refine ReplyChanges.okThen ?_ (fun _ => ?_)
    | with_reducible apply ReplyChanges.refuse
    | with_reducible apply ReplyChanges.reject
    | with_reducible refine ReplyChanges.done _ _ ?_ (fun _ => ?_)
    | with_reducible apply ReplyChanges.later
    | with_reducible apply OnlyChanges.ite
    | ((with_reducible refine Part.nested ?_); rfl)
    | ((with_reducible refine Part.held ?_); rfl)
    | split
    | dsimp only
    | dsimp only [id]
theorem calGetStats_frame {qs : List Part} {s t : State} (q : Request) (a : OnlyChanges qs s t) (h : ([] : List Part).all (fun p => qs.contains p) = true) :
    ReplyChanges qs s (calGetStats q t) := ReplyChanges.after (calGetStats_only q t) a h

theorem calSetAnalog_only (q : Request) (s : State) :
    ReplyChanges [.sill, .power, .control, .counters, .cal, .elements, .carrier, .client] s (calSetAnalog q s) := by
  unfold calSetAnalog
  repeat' first
    | with_reducible exact OnlyChanges.refl _ _
    | with_reducible assumption
    | with_reducible apply ReplyChanges.checked
    | with_reducible apply ReplyChanges.require
    | with_reducible apply ReplyChanges.ite
    | with_reducible apply ReplyChanges.okay
    | with_reducible apply ReplyChanges.okWith
    | with_reducible refine ReplyChanges.okThen ?_ (fun _ => ?_)
    | with_reducible apply ReplyChanges.refuse
    | with_reducible apply ReplyChanges.reject
    | with_reducible refine ReplyChanges.done _ _ ?_ (fun _ => ?_)
    | with_reducible apply ReplyChanges.later
    | with_reducible apply OnlyChanges.ite
    | with_reducible refine OnlyChanges.each (fun _ _ => ?_) _ ?_
    | with_reducible apply modCal_frame
    | with_reducible apply rouseUnit_frame
    | with_reducible apply supersede_frame
    | ((with_reducible refine Part.nested ?_); rfl)
    | ((with_reducible refine Part.held ?_); rfl)
    | split
    | dsimp only
    | dsimp only [id]
theorem calSetAnalog_frame {qs : List Part} {s t : State} (q : Request) (a : OnlyChanges qs s t) (h : ([.sill, .power, .control, .counters, .cal, .elements, .carrier, .client] : List Part).all (fun p => qs.contains p) = true) :
    ReplyChanges qs s (calSetAnalog q t) := ReplyChanges.after (calSetAnalog_only q t) a h

theorem calSetBias_only (q : Request) (s : State) :
    ReplyChanges [.sill, .power, .control, .counters, .cal, .elements, .carrier, .client] s (calSetBias q s) := by
  unfold calSetBias
  repeat' first
    | with_reducible exact OnlyChanges.refl _ _
    | with_reducible assumption
    | with_reducible apply ReplyChanges.checked
    | with_reducible apply ReplyChanges.require
    | with_reducible apply ReplyChanges.ite
    | with_reducible apply ReplyChanges.okay
    | with_reducible apply ReplyChanges.okWith
    | with_reducible refine ReplyChanges.okThen ?_ (fun _ => ?_)
    | with_reducible apply ReplyChanges.refuse
    | with_reducible apply ReplyChanges.reject
    | with_reducible refine ReplyChanges.done _ _ ?_ (fun _ => ?_)
    | with_reducible apply ReplyChanges.later
    | with_reducible apply OnlyChanges.ite
    | with_reducible refine OnlyChanges.each (fun _ _ => ?_) _ ?_
    | with_reducible apply modBias_frame
    | with_reducible apply rouse_frame
    | ((with_reducible refine Part.nested ?_); rfl)
    | ((with_reducible refine Part.held ?_); rfl)
    | split
    | dsimp only
    | dsimp only [id]
theorem calSetBias_frame {qs : List Part} {s t : State} (q : Request) (a : OnlyChanges qs s t) (h : ([.sill, .power, .control, .counters, .cal, .elements, .carrier, .client] : List Part).all (fun p => qs.contains p) = true) :
    ReplyChanges qs s (calSetBias q t) := ReplyChanges.after (calSetBias_only q t) a h

theorem calPicSpi_only (q : Request) (s : State) :
    ReplyChanges [.sill, .power, .control, .counters, .cal, .elements, .carrier, .client, .fresh] s (calPicSpi q s) := by
  unfold calPicSpi
  repeat' first
    | with_reducible exact OnlyChanges.refl _ _
    | with_reducible assumption
    | with_reducible apply ReplyChanges.checked
    | with_reducible apply ReplyChanges.require
    | with_reducible apply ReplyChanges.ite
    | with_reducible apply ReplyChanges.okay
    | with_reducible apply ReplyChanges.okWith
    | with_reducible refine ReplyChanges.okThen ?_ (fun _ => ?_)
    | with_reducible apply ReplyChanges.refuse
    | with_reducible apply ReplyChanges.reject
    | with_reducible refine ReplyChanges.done _ _ ?_ (fun _ => ?_)
    | with_reducible apply ReplyChanges.later
    | with_reducible apply OnlyChanges.ite
    | with_reducible apply drawBytes_frame
    | with_reducible refine drawBytes_snd (by assumption) ?_ ?_
    | with_reducible apply modCal_frame
    | with_reducible apply rouse_frame
    | ((with_reducible refine Part.nested ?_); rfl)
    | ((with_reducible refine Part.held ?_); rfl)
    | split
    | dsimp only
    | dsimp only [id]
theorem calPicSpi_frame {qs : List Part} {s t : State} (q : Request) (a : OnlyChanges qs s t) (h : ([.sill, .power, .control, .counters, .cal, .elements, .carrier, .client, .fresh] : List Part).all (fun p => qs.contains p) = true) :
    ReplyChanges qs s (calPicSpi q t) := ReplyChanges.after (calPicSpi_only q t) a h

end Sys2Proof.Machine
end

