-- ==== Sys2Proof/Laws/FrameBoot.lean ====
section
/-! SUPPORT. What each operation of Boot.lean may change. -/

-- One theorem after another: with a thread for each, the package as one text outgrows the checker's memory limit.
set_option Elab.async false

namespace Sys2Proof.Machine

theorem sillPowerOn_only (s : State) :
    OnlyChanges [.pins, .sill, .power, .fw, .control, .counters, .stream, .domain, .cal, .elements, .carrier, .joinery, .framer, .client, .sched, .memory, .protect, .security, .timing, .monitor] s (sillPowerOn s) := by
  unfold sillPowerOn
  repeat' first
    | with_reducible exact OnlyChanges.refl _ _
    | with_reducible assumption
    | with_reducible apply OnlyChanges.ite
    | with_reducible apply modPins_frame
    | with_reducible apply modSill_frame
    | with_reducible apply sillResetState_frame
    | with_reducible apply vddIoPresent_frame
    | ((with_reducible refine Part.nested ?_); rfl)
    | ((with_reducible refine Part.held ?_); rfl)
    | split
    | dsimp only
    | dsimp only [id]
theorem sillPowerOn_frame {qs : List Part} {s t : State}  (a : OnlyChanges qs s t) (h : ([.pins, .sill, .power, .fw, .control, .counters, .stream, .domain, .cal, .elements, .carrier, .joinery, .framer, .client, .sched, .memory, .protect, .security, .timing, .monitor] : List Part).all (fun p => qs.contains p) = true) :
    OnlyChanges qs s (sillPowerOn t) := OnlyChanges.after (sillPowerOn_only t) a h

theorem sillPowerLoss_only (s : State) :
    OnlyChanges [.pins, .sill, .power, .fw, .control, .counters, .stream, .domain, .cal, .elements, .carrier, .joinery, .framer, .client, .sched, .memory, .protect, .security, .timing, .monitor] s (sillPowerLoss s) := by
  unfold sillPowerLoss
  repeat' first
    | with_reducible exact OnlyChanges.refl _ _
    | with_reducible assumption
    | with_reducible apply OnlyChanges.ite
    | with_reducible apply modSill_frame
    | with_reducible apply sillResetState_frame
    | ((with_reducible refine Part.nested ?_); rfl)
    | ((with_reducible refine Part.held ?_); rfl)
    | split
    | dsimp only
    | dsimp only [id]
theorem sillPowerLoss_frame {qs : List Part} {s t : State}  (a : OnlyChanges qs s t) (h : ([.pins, .sill, .power, .fw, .control, .counters, .stream, .domain, .cal, .elements, .carrier, .joinery, .framer, .client, .sched, .memory, .protect, .security, .timing, .monitor] : List Part).all (fun p => qs.contains p) = true) :
    OnlyChanges qs s (sillPowerLoss t) := OnlyChanges.after (sillPowerLoss_only t) a h

theorem supplyHold_only (x : Supply) (s : State) :
    OnlyChanges [.pins, .sill, .power, .fw, .control, .counters, .stream, .domain, .cal, .elements, .carrier, .joinery, .framer, .client, .sched, .memory, .protect, .security, .timing, .monitor] s (supplyHold x s) := by
  unfold supplyHold
  repeat' first
    | with_reducible exact OnlyChanges.refl _ _
    | with_reducible assumption
    | with_reducible apply OnlyChanges.ite
    | with_reducible refine OnlyChanges.cond (fun _ => ?_) ?_
    | with_reducible apply hubReset_frame
    | with_reducible apply modSill_frame
    | ((with_reducible refine Part.nested ?_); rfl)
    | ((with_reducible refine Part.held ?_); rfl)
    | split
    | dsimp only
    | dsimp only [id]
theorem supplyHold_frame {qs : List Part} {s t : State} (x : Supply) (a : OnlyChanges qs s t) (h : ([.pins, .sill, .power, .fw, .control, .counters, .stream, .domain, .cal, .elements, .carrier, .joinery, .framer, .client, .sched, .memory, .protect, .security, .timing, .monitor] : List Part).all (fun p => qs.contains p) = true) :
    OnlyChanges qs s (supplyHold x t) := OnlyChanges.after (supplyHold_only x t) a h

theorem sequenceFault_only (x : Supply) (s : State) :
    OnlyChanges [.pins, .sill, .power, .fw, .control, .counters, .stream, .domain, .cal, .elements, .carrier, .joinery, .framer, .client, .sched, .memory, .protect, .security, .timing, .monitor] s (sequenceFault x s) := by
  unfold sequenceFault
  repeat' first
    | with_reducible exact OnlyChanges.refl _ _
    | with_reducible assumption
    | with_reducible apply OnlyChanges.ite
    | with_reducible refine OnlyChanges.cond (fun _ => ?_) ?_
    | with_reducible apply hubReset_frame
    | with_reducible apply modSill_frame
    | ((with_reducible refine Part.nested ?_); rfl)
    | ((with_reducible refine Part.held ?_); rfl)
    | split
    | dsimp only
    | dsimp only [id]
theorem sequenceFault_frame {qs : List Part} {s t : State} (x : Supply) (a : OnlyChanges qs s t) (h : ([.pins, .sill, .power, .fw, .control, .counters, .stream, .domain, .cal, .elements, .carrier, .joinery, .framer, .client, .sched, .memory, .protect, .security, .timing, .monitor] : List Part).all (fun p => qs.contains p) = true) :
    OnlyChanges qs s (sequenceFault x t) := OnlyChanges.after (sequenceFault_only x t) a h

theorem hubPowerLoss_only (s : State) :
    OnlyChanges [.pins, .sill, .power, .fw, .control, .counters, .stream, .domain, .cal, .elements, .carrier, .joinery, .framer, .client, .sched, .memory, .protect, .security, .timing, .monitor] s (hubPowerLoss s) := by
  unfold hubPowerLoss
  repeat' first
    | with_reducible exact OnlyChanges.refl _ _
    | with_reducible assumption
    | with_reducible apply OnlyChanges.ite
    | with_reducible refine OnlyChanges.cond (fun _ => ?_) ?_
    | with_reducible apply hubReset_frame
    | with_reducible apply modSill_frame
    | ((with_reducible refine Part.nested ?_); rfl)
    | ((with_reducible refine Part.held ?_); rfl)
    | split
    | dsimp only
    | dsimp only [id]
theorem hubPowerLoss_frame {qs : List Part} {s t : State}  (a : OnlyChanges qs s t) (h : ([.pins, .sill, .power, .fw, .control, .counters, .stream, .domain, .cal, .elements, .carrier, .joinery, .framer, .client, .sched, .memory, .protect, .security, .timing, .monitor] : List Part).all (fun p => qs.contains p) = true) :
    OnlyChanges qs s (hubPowerLoss t) := OnlyChanges.after (hubPowerLoss_only t) a h

theorem suppliesValid_only (s : State) :
    OnlyChanges [.pins, .sill, .control, .counters, .stream, .domain, .security, .timing] s (suppliesValid s) := by
  unfold suppliesValid
  repeat' first
    | with_reducible exact OnlyChanges.refl _ _
    | with_reducible assumption
    | with_reducible apply OnlyChanges.ite
    | with_reducible refine OnlyChanges.cond (fun _ => ?_) ?_
    | with_reducible apply modSill_frame
    | with_reducible apply releaseHub_frame
    | with_reducible apply vddIoPresent_frame
    | ((with_reducible refine Part.nested ?_); rfl)
    | ((with_reducible refine Part.held ?_); rfl)
    | split
    | dsimp only
    | dsimp only [id]
theorem suppliesValid_frame {qs : List Part} {s t : State}  (a : OnlyChanges qs s t) (h : ([.pins, .sill, .control, .counters, .stream, .domain, .security, .timing] : List Part).all (fun p => qs.contains p) = true) :
    OnlyChanges qs s (suppliesValid t) := OnlyChanges.after (suppliesValid_only t) a h

theorem resetNFall_only (s : State) :
    OnlyChanges [.pins, .sill, .power, .fw, .control, .counters, .stream, .domain, .cal, .elements, .carrier, .joinery, .framer, .client, .sched, .memory, .protect, .security, .timing, .monitor] s (resetNFall s) := by
  unfold resetNFall
  repeat' first
    | with_reducible exact OnlyChanges.refl _ _
    | with_reducible assumption
    | with_reducible apply OnlyChanges.ite
    | with_reducible refine OnlyChanges.cond (fun _ => ?_) ?_
    | with_reducible apply modPins_frame
    | with_reducible apply requestHubReset_frame
    | ((with_reducible refine Part.nested ?_); rfl)
    | ((with_reducible refine Part.held ?_); rfl)
    | split
    | dsimp only
    | dsimp only [id]
theorem resetNFall_frame {qs : List Part} {s t : State}  (a : OnlyChanges qs s t) (h : ([.pins, .sill, .power, .fw, .control, .counters, .stream, .domain, .cal, .elements, .carrier, .joinery, .framer, .client, .sched, .memory, .protect, .security, .timing, .monitor] : List Part).all (fun p => qs.contains p) = true) :
    OnlyChanges qs s (resetNFall t) := OnlyChanges.after (resetNFall_only t) a h

theorem resetNRise_only (s : State) :
    OnlyChanges [.pins, .sill] s (resetNRise s) := by
  unfold resetNRise
  repeat' first
    | with_reducible exact OnlyChanges.refl _ _
    | with_reducible assumption
    | with_reducible apply OnlyChanges.ite
    | with_reducible refine OnlyChanges.cond (fun _ => ?_) ?_
    | with_reducible apply modPins_frame
    | with_reducible apply releaseHub_frame
    | ((with_reducible refine Part.nested ?_); rfl)
    | ((with_reducible refine Part.held ?_); rfl)
    | split
    | dsimp only
    | dsimp only [id]
theorem resetNRise_frame {qs : List Part} {s t : State}  (a : OnlyChanges qs s t) (h : ([.pins, .sill] : List Part).all (fun p => qs.contains p) = true) :
    OnlyChanges qs s (resetNRise t) := OnlyChanges.after (resetNRise_only t) a h

theorem startRom_only (s : State) :
    OnlyChanges [.pins, .sill, .fw] s (startRom s) := by
  unfold startRom
  repeat' first
    | with_reducible exact OnlyChanges.refl _ _
    | with_reducible assumption
    | with_reducible apply OnlyChanges.ite
    | with_reducible apply enterRom_frame
    | with_reducible apply modPins_frame
    | with_reducible apply modSill_frame
    | ((with_reducible refine Part.nested ?_); rfl)
    | ((with_reducible refine Part.held ?_); rfl)
    | split
    | dsimp only
    | dsimp only [id]
theorem startRom_frame {qs : List Part} {s t : State}  (a : OnlyChanges qs s t) (h : ([.pins, .sill, .fw] : List Part).all (fun p => qs.contains p) = true) :
    OnlyChanges qs s (startRom t) := OnlyChanges.after (startRom_only t) a h

theorem strapWindow_only (r : Vector Straps 16) (s : State) :
    OnlyChanges [.pins, .sill, .power, .fw, .domain] s (strapWindow r s) := by
  unfold strapWindow
  repeat' first
    | with_reducible exact OnlyChanges.refl _ _
    | with_reducible assumption
    | with_reducible apply OnlyChanges.ite
    | with_reducible apply modDomain_frame
    | with_reducible apply modPower_frame
    | with_reducible apply modSill_frame
    | with_reducible apply startRom_frame
    | ((with_reducible refine Part.nested ?_); rfl)
    | ((with_reducible refine Part.held ?_); rfl)
    | split
    | dsimp only
    | dsimp only [id]
theorem strapWindow_frame {qs : List Part} {s t : State} (r : Vector Straps 16) (a : OnlyChanges qs s t) (h : ([.pins, .sill, .power, .fw, .domain] : List Part).all (fun p => qs.contains p) = true) :
    OnlyChanges qs s (strapWindow r t) := OnlyChanges.after (strapWindow_only r t) a h

theorem strapFault_only (s : State) :
    OnlyChanges [.sill] s (strapFault s) := by
  unfold strapFault
  repeat' first
    | with_reducible exact OnlyChanges.refl _ _
    | with_reducible assumption
    | with_reducible apply OnlyChanges.ite
    | with_reducible refine OnlyChanges.cond (fun _ => ?_) ?_
    | with_reducible apply modSill_frame
    | ((with_reducible refine Part.nested ?_); rfl)
    | ((with_reducible refine Part.held ?_); rfl)
    | split
    | dsimp only
    | dsimp only [id]
theorem strapFault_frame {qs : List Part} {s t : State}  (a : OnlyChanges qs s t) (h : ([.sill] : List Part).all (fun p => qs.contains p) = true) :
    OnlyChanges qs s (strapFault t) := OnlyChanges.after (strapFault_only t) a h

theorem nextBank_only (s : State) :
    OnlyChanges [.sill, .fw] s (nextBank s) := by
  unfold nextBank
  repeat' first
    | with_reducible exact OnlyChanges.refl _ _
    | with_reducible assumption
    | with_reducible apply OnlyChanges.ite
    | with_reducible apply modFw_frame
    | with_reducible apply modSill_frame
    | ((with_reducible refine Part.nested ?_); rfl)
    | ((with_reducible refine Part.held ?_); rfl)
    | split
    | dsimp only
    | dsimp only [id]
theorem nextBank_frame {qs : List Part} {s t : State}  (a : OnlyChanges qs s t) (h : ([.sill, .fw] : List Part).all (fun p => qs.contains p) = true) :
    OnlyChanges qs s (nextBank t) := OnlyChanges.after (nextBank_only t) a h

theorem beginInit_only (s : State) :
    OnlyChanges [.sill, .control, .counters, .cal, .elements, .carrier] s (beginInit s) := by
  unfold beginInit
  repeat' first
    | with_reducible exact OnlyChanges.refl _ _
    | with_reducible assumption
    | with_reducible apply OnlyChanges.ite
    | with_reducible apply loadCalRecord_frame
    | with_reducible apply modSill_frame
    | with_reducible apply startFullCal_frame
    | ((with_reducible refine Part.nested ?_); rfl)
    | ((with_reducible refine Part.held ?_); rfl)
    | split
    | dsimp only
    | dsimp only [id]
theorem beginInit_frame {qs : List Part} {s t : State}  (a : OnlyChanges qs s t) (h : ([.sill, .control, .counters, .cal, .elements, .carrier] : List Part).all (fun p => qs.contains p) = true) :
    OnlyChanges qs s (beginInit t) := OnlyChanges.after (beginInit_only t) a h

theorem bankCheck_only (s : State) :
    OnlyChanges [.sill, .fw, .control, .counters, .stream, .domain, .cal, .elements, .carrier, .security] s (bankCheck s) := by
  unfold bankCheck
  repeat' first
    | with_reducible exact OnlyChanges.refl _ _
    | with_reducible assumption
    | with_reducible apply OnlyChanges.ite
    | with_reducible apply bankFailed_frame
    | with_reducible apply beginInit_frame
    | with_reducible apply modFw_frame
    | with_reducible apply modSill_frame
    | with_reducible apply nextBank_frame
    | ((with_reducible refine Part.nested ?_); rfl)
    | ((with_reducible refine Part.held ?_); rfl)
    | split
    | dsimp only
    | dsimp only [id]
theorem bankCheck_frame {qs : List Part} {s t : State}  (a : OnlyChanges qs s t) (h : ([.sill, .fw, .control, .counters, .stream, .domain, .cal, .elements, .carrier, .security] : List Part).all (fun p => qs.contains p) = true) :
    OnlyChanges qs s (bankCheck t) := OnlyChanges.after (bankCheck_only t) a h

theorem loadOwnerRecord_only (s : State) :
    OnlyChanges [.sill, .control, .counters, .stream, .domain, .security] s (loadOwnerRecord s) := by
  unfold loadOwnerRecord
  repeat' first
    | with_reducible exact OnlyChanges.refl _ _
    | with_reducible assumption
    | with_reducible apply OnlyChanges.ite
    | with_reducible apply authFailure_frame
    | with_reducible apply modSecurity_frame
    | ((with_reducible refine Part.nested ?_); rfl)
    | ((with_reducible refine Part.held ?_); rfl)
    | split
    | dsimp only
    | dsimp only [id]
theorem loadOwnerRecord_frame {qs : List Part} {s t : State}  (a : OnlyChanges qs s t) (h : ([.sill, .control, .counters, .stream, .domain, .security] : List Part).all (fun p => qs.contains p) = true) :
    OnlyChanges qs s (loadOwnerRecord t) := OnlyChanges.after (loadOwnerRecord_only t) a h

theorem loadFloor_only (s : State) :
    OnlyChanges [.domain] s (loadFloor s) := by
  unfold loadFloor
  repeat' first
    | with_reducible exact OnlyChanges.refl _ _
    | with_reducible assumption
    | with_reducible apply OnlyChanges.ite
    | with_reducible apply modDomain_frame
    | ((with_reducible refine Part.nested ?_); rfl)
    | ((with_reducible refine Part.held ?_); rfl)
    | split
    | dsimp only
    | dsimp only [id]
theorem loadFloor_frame {qs : List Part} {s t : State}  (a : OnlyChanges qs s t) (h : ([.domain] : List Part).all (fun p => qs.contains p) = true) :
    OnlyChanges qs s (loadFloor t) := OnlyChanges.after (loadFloor_only t) a h

theorem findStaged_only (s : State) :
    OnlyChanges [.fw] s (findStaged s) := by
  unfold findStaged
  repeat' first
    | with_reducible exact OnlyChanges.refl _ _
    | with_reducible assumption
    | with_reducible apply OnlyChanges.ite
    | with_reducible apply modFw_frame
    | ((with_reducible refine Part.nested ?_); rfl)
    | ((with_reducible refine Part.held ?_); rfl)
    | split
    | dsimp only
    | dsimp only [id]
theorem findStaged_frame {qs : List Part} {s t : State}  (a : OnlyChanges qs s t) (h : ([.fw] : List Part).all (fun p => qs.contains p) = true) :
    OnlyChanges qs s (findStaged t) := OnlyChanges.after (findStaged_only t) a h

theorem reportRollbacks_only (s : State) :
    OnlyChanges [.sill, .fw, .control, .counters] s (reportRollbacks s) := by
  unfold reportRollbacks
  repeat' first
    | with_reducible exact OnlyChanges.refl _ _
    | with_reducible assumption
    | with_reducible apply OnlyChanges.ite
    | with_reducible refine OnlyChanges.each (fun _ _ => ?_) _ ?_
    | with_reducible apply modFw_frame
    | with_reducible apply raise_frame
    | ((with_reducible refine Part.nested ?_); rfl)
    | ((with_reducible refine Part.held ?_); rfl)
    | split
    | dsimp only
    | dsimp only [id]
theorem reportRollbacks_frame {qs : List Part} {s t : State}  (a : OnlyChanges qs s t) (h : ([.sill, .fw, .control, .counters] : List Part).all (fun p => qs.contains p) = true) :
    OnlyChanges qs s (reportRollbacks t) := OnlyChanges.after (reportRollbacks_only t) a h

theorem reportCancelled_only (s : State) :
    OnlyChanges [.sill, .control, .counters, .timing] s (reportCancelled s) := by
  unfold reportCancelled
  repeat' first
    | with_reducible exact OnlyChanges.refl _ _
    | with_reducible assumption
    | with_reducible apply OnlyChanges.ite
    | with_reducible refine OnlyChanges.each (fun _ _ => ?_) _ ?_
    | with_reducible apply modTiming_frame
    | with_reducible apply raise_frame
    | ((with_reducible refine Part.nested ?_); rfl)
    | ((with_reducible refine Part.held ?_); rfl)
    | split
    | dsimp only
    | dsimp only [id]
theorem reportCancelled_frame {qs : List Part} {s t : State}  (a : OnlyChanges qs s t) (h : ([.sill, .control, .counters, .timing] : List Part).all (fun p => qs.contains p) = true) :
    OnlyChanges qs s (reportCancelled t) := OnlyChanges.after (reportCancelled_only t) a h

theorem reachRun_only (s : State) :
    OnlyChanges [.sill, .power, .fw, .control, .counters, .cal, .elements, .carrier, .client, .security, .timing] s (reachRun s) := by
  unfold reachRun
  repeat' first
    | with_reducible exact OnlyChanges.refl _ _
    | with_reducible assumption
    | with_reducible apply OnlyChanges.ite
    | with_reducible refine OnlyChanges.each (fun _ _ => ?_) _ ?_
    | with_reducible apply deferredAlarms_frame
    | with_reducible apply modControl_frame
    | with_reducible apply modDom_frame
    | with_reducible apply modPower_frame
    | with_reducible apply modSill_frame
    | with_reducible apply raise_frame
    | with_reducible apply reportCancelled_frame
    | with_reducible apply reportRollbacks_frame
    | with_reducible apply settlePlls_frame
    | with_reducible apply startExit_frame
    | ((with_reducible refine Part.nested ?_); rfl)
    | ((with_reducible refine Part.held ?_); rfl)
    | split
    | dsimp only
    | dsimp only [id]
theorem reachRun_frame {qs : List Part} {s t : State}  (a : OnlyChanges qs s t) (h : ([.sill, .power, .fw, .control, .counters, .cal, .elements, .carrier, .client, .security, .timing] : List Part).all (fun p => qs.contains p) = true) :
    OnlyChanges qs s (reachRun t) := OnlyChanges.after (reachRun_only t) a h

theorem watchdogStrobe_only (s : State) :
    OnlyChanges [.control] s (watchdogStrobe s) := by
  unfold watchdogStrobe
  repeat' first
    | with_reducible exact OnlyChanges.refl _ _
    | with_reducible assumption
    | with_reducible apply OnlyChanges.ite
    | with_reducible refine OnlyChanges.cond (fun _ => ?_) ?_
    | with_reducible apply modControl_frame
    | ((with_reducible refine Part.nested ?_); rfl)
    | ((with_reducible refine Part.held ?_); rfl)
    | split
    | dsimp only
    | dsimp only [id]
theorem watchdogStrobe_frame {qs : List Part} {s t : State}  (a : OnlyChanges qs s t) (h : ([.control] : List Part).all (fun p => qs.contains p) = true) :
    OnlyChanges qs s (watchdogStrobe t) := OnlyChanges.after (watchdogStrobe_only t) a h

theorem trialTimeout_only (s : State) :
    OnlyChanges [.sill, .fw, .control, .counters, .protect] s (trialTimeout s) := by
  unfold trialTimeout
  repeat' first
    | with_reducible exact OnlyChanges.refl _ _
    | with_reducible assumption
    | with_reducible apply OnlyChanges.ite
    | with_reducible refine OnlyChanges.cond (fun _ => ?_) ?_
    | with_reducible apply mpRestart_frame
    | with_reducible apply rollBack_frame
    | ((with_reducible refine Part.nested ?_); rfl)
    | ((with_reducible refine Part.held ?_); rfl)
    | split
    | dsimp only
    | dsimp only [id]
theorem trialTimeout_frame {qs : List Part} {s t : State}  (a : OnlyChanges qs s t) (h : ([.sill, .fw, .control, .counters, .protect] : List Part).all (fun p => qs.contains p) = true) :
    OnlyChanges qs s (trialTimeout t) := OnlyChanges.after (trialTimeout_only t) a h

theorem startActivation_only (s : State) :
    OnlyChanges [.sill, .fw, .control, .counters, .protect] s (startActivation s) := by
  unfold startActivation
  repeat' first
    | with_reducible exact OnlyChanges.refl _ _
    | with_reducible assumption
    | with_reducible apply OnlyChanges.ite
    | with_reducible apply modFw_frame
    | with_reducible apply mpRestart_frame
    | ((with_reducible refine Part.nested ?_); rfl)
    | ((with_reducible refine Part.held ?_); rfl)
    | split
    | dsimp only
    | dsimp only [id]
theorem startActivation_frame {qs : List Part} {s t : State}  (a : OnlyChanges qs s t) (h : ([.sill, .fw, .control, .counters, .protect] : List Part).all (fun p => qs.contains p) = true) :
    OnlyChanges qs s (startActivation t) := OnlyChanges.after (startActivation_only t) a h

theorem settleIntake_only (s : State) :
    OnlyChanges [.sill, .fw, .control, .counters, .protect] s (settleIntake s) := by
  unfold settleIntake
  repeat' first
    | with_reducible exact OnlyChanges.refl _ _
    | with_reducible assumption
    | with_reducible apply OnlyChanges.ite
    | with_reducible apply mpRestart_frame
    | with_reducible apply rollBack_frame
    | with_reducible apply startActivation_frame
    | ((with_reducible refine Part.nested ?_); rfl)
    | ((with_reducible refine Part.held ?_); rfl)
    | split
    | dsimp only
    | dsimp only [id]
theorem settleIntake_frame {qs : List Part} {s t : State}  (a : OnlyChanges qs s t) (h : ([.sill, .fw, .control, .counters, .protect] : List Part).all (fun p => qs.contains p) = true) :
    OnlyChanges qs s (settleIntake t) := OnlyChanges.after (settleIntake_only t) a h

theorem activationEpoch_only (s : State) :
    OnlyChanges [.sill, .fw, .control, .counters, .protect] s (activationEpoch s) := by
  unfold activationEpoch
  repeat' first
    | with_reducible exact OnlyChanges.refl _ _
    | with_reducible assumption
    | with_reducible apply OnlyChanges.ite
    | with_reducible apply modControl_frame
    | with_reducible apply settleIntake_frame
    | ((with_reducible refine Part.nested ?_); rfl)
    | ((with_reducible refine Part.held ?_); rfl)
    | split
    | dsimp only
    | dsimp only [id]
theorem activationEpoch_frame {qs : List Part} {s t : State}  (a : OnlyChanges qs s t) (h : ([.sill, .fw, .control, .counters, .protect] : List Part).all (fun p => qs.contains p) = true) :
    OnlyChanges qs s (activationEpoch t) := OnlyChanges.after (activationEpoch_only t) a h

theorem debugUnlockExpiry_only (s : State) :
    OnlyChanges [.sill] s (debugUnlockExpiry s) := by
  unfold debugUnlockExpiry
  repeat' first
    | with_reducible exact OnlyChanges.refl _ _
    | with_reducible assumption
    | with_reducible apply OnlyChanges.ite
    | with_reducible refine OnlyChanges.cond (fun _ => ?_) ?_
    | with_reducible apply modSill_frame
    | ((with_reducible refine Part.nested ?_); rfl)
    | ((with_reducible refine Part.held ?_); rfl)
    | split
    | dsimp only
    | dsimp only [id]
theorem debugUnlockExpiry_frame {qs : List Part} {s t : State}  (a : OnlyChanges qs s t) (h : ([.sill] : List Part).all (fun p => qs.contains p) = true) :
    OnlyChanges qs s (debugUnlockExpiry t) := OnlyChanges.after (debugUnlockExpiry_only t) a h

theorem debugNonceExpiry_only (s : State) :
    OnlyChanges [.fw] s (debugNonceExpiry s) := by
  unfold debugNonceExpiry
  repeat' first
    | with_reducible exact OnlyChanges.refl _ _
    | with_reducible assumption
    | with_reducible apply OnlyChanges.ite
    | with_reducible apply modFw_frame
    | ((with_reducible refine Part.nested ?_); rfl)
    | ((with_reducible refine Part.held ?_); rfl)
    | split
    | dsimp only
    | dsimp only [id]
theorem debugNonceExpiry_frame {qs : List Part} {s t : State}  (a : OnlyChanges qs s t) (h : ([.fw] : List Part).all (fun p => qs.contains p) = true) :
    OnlyChanges qs s (debugNonceExpiry t) := OnlyChanges.after (debugNonceExpiry_only t) a h

theorem jtagInstructionLoad_only (j : Jtag) (s : State) :
    OnlyChanges [.pins, .sill, .power, .control, .counters, .cal, .elements, .carrier, .client, .protect, .fresh] s (jtagInstructionLoad j s) := by
  unfold jtagInstructionLoad
  repeat' first
    | with_reducible exact OnlyChanges.refl _ _
    | with_reducible assumption
    | with_reducible apply OnlyChanges.ite
    | with_reducible refine OnlyChanges.cond (fun _ => ?_) ?_
    | with_reducible apply extestRelease_frame
    | with_reducible apply modPins_frame
    | ((with_reducible refine Part.nested ?_); rfl)
    | ((with_reducible refine Part.held ?_); rfl)
    | split
    | dsimp only
    | dsimp only [id]
theorem jtagInstructionLoad_frame {qs : List Part} {s t : State} (j : Jtag) (a : OnlyChanges qs s t) (h : ([.pins, .sill, .power, .control, .counters, .cal, .elements, .carrier, .client, .protect, .fresh] : List Part).all (fun p => qs.contains p) = true) :
    OnlyChanges qs s (jtagInstructionLoad j t) := OnlyChanges.after (jtagInstructionLoad_only j t) a h

theorem junctionExceeds105c_only (s : State) :
    OnlyChanges [.sill] s (junctionExceeds105c s) := by
  unfold junctionExceeds105c
  repeat' first
    | with_reducible exact OnlyChanges.refl _ _
    | with_reducible assumption
    | with_reducible apply OnlyChanges.ite
    | with_reducible refine OnlyChanges.cond (fun _ => ?_) ?_
    | with_reducible apply modSill_frame
    | ((with_reducible refine Part.nested ?_); rfl)
    | ((with_reducible refine Part.held ?_); rfl)
    | split
    | dsimp only
    | dsimp only [id]
theorem junctionExceeds105c_frame {qs : List Part} {s t : State}  (a : OnlyChanges qs s t) (h : ([.sill] : List Part).all (fun p => qs.contains p) = true) :
    OnlyChanges qs s (junctionExceeds105c t) := OnlyChanges.after (junctionExceeds105c_only t) a h

end Sys2Proof.Machine
end

