-- ==== Sys2Proof/Laws/FrameFec.lean ====
section
/-! SUPPORT. What each operation of Fec.lean may change. -/

-- One theorem after another: with a thread for each, the package as one text outgrows the checker's memory limit.
set_option Elab.async false

namespace Sys2Proof.Machine

theorem sendFrame_only (x0 : Nat) (f : Format) (s : State) :
    OnlyChanges [.counters, .carrier, .fresh] s (sendFrame x0 f s) := by
  unfold sendFrame
  repeat' first
    | with_reducible exact OnlyChanges.refl _ _
    | with_reducible assumption
    | with_reducible apply OnlyChanges.ite
    | with_reducible apply bump_frame
    | with_reducible apply modCu_frame
    | ((with_reducible refine Part.nested ?_); rfl)
    | ((with_reducible refine Part.held ?_); rfl)
    | split
    | dsimp only
    | dsimp only [id]
    | with_reducible apply set_fresh
theorem sendFrame_frame {qs : List Part} {s t : State} (x0 : Nat) (f : Format) (a : OnlyChanges qs s t) (h : ([.counters, .carrier, .fresh] : List Part).all (fun p => qs.contains p) = true) :
    OnlyChanges qs s (sendFrame x0 f t) := OnlyChanges.after (sendFrame_only x0 f t) a h

theorem acfFrameTx_only (x0 : Nat) (clipped : Nat) (s : State) :
    OnlyChanges [.sill, .power, .control, .counters, .stream, .domain, .cal, .elements, .carrier, .joinery, .framer, .client, .security, .fresh] s (acfFrameTx x0 clipped s) := by
  unfold acfFrameTx
  repeat' first
    | with_reducible exact OnlyChanges.refl _ _
    | with_reducible assumption
    | with_reducible apply OnlyChanges.ite
    | with_reducible apply bump_frame
    | with_reducible apply calBoundary_frame
    | with_reducible apply sendFrame_frame
    | with_reducible apply txBoundary_frame
    | ((with_reducible refine Part.nested ?_); rfl)
    | ((with_reducible refine Part.held ?_); rfl)
    | split
    | dsimp only
    | dsimp only [id]
theorem acfFrameTx_frame {qs : List Part} {s t : State} (x0 : Nat) (clipped : Nat) (a : OnlyChanges qs s t) (h : ([.sill, .power, .control, .counters, .stream, .domain, .cal, .elements, .carrier, .joinery, .framer, .client, .security, .fresh] : List Part).all (fun p => qs.contains p) = true) :
    OnlyChanges qs s (acfFrameTx x0 clipped t) := OnlyChanges.after (acfFrameTx_only x0 clipped t) a h

theorem failCandidate_only (x0 : Nat) (s : State) :
    OnlyChanges [.counters, .carrier] s (failCandidate x0 s) := by
  unfold failCandidate
  repeat' first
    | with_reducible exact OnlyChanges.refl _ _
    | with_reducible assumption
    | with_reducible apply OnlyChanges.ite
    | with_reducible apply bump_frame
    | with_reducible apply modCu_frame
    | ((with_reducible refine Part.nested ?_); rfl)
    | ((with_reducible refine Part.held ?_); rfl)
    | split
    | dsimp only
    | dsimp only [id]
theorem failCandidate_frame {qs : List Part} {s t : State} (x0 : Nat) (a : OnlyChanges qs s t) (h : ([.counters, .carrier] : List Part).all (fun p => qs.contains p) = true) :
    OnlyChanges qs s (failCandidate x0 t) := OnlyChanges.after (failCandidate_only x0 t) a h

theorem judgeCandidate_only (x0 : Nat) (s : State) :
    OnlyChanges [.counters, .carrier] s (judgeCandidate x0 s) := by
  unfold judgeCandidate
  repeat' first
    | with_reducible exact OnlyChanges.refl _ _
    | with_reducible assumption
    | with_reducible apply OnlyChanges.ite
    | with_reducible apply failCandidate_frame
    | with_reducible apply modCu_frame
    | ((with_reducible refine Part.nested ?_); rfl)
    | ((with_reducible refine Part.held ?_); rfl)
    | split
    | dsimp only
    | dsimp only [id]
theorem judgeCandidate_frame {qs : List Part} {s t : State} (x0 : Nat) (a : OnlyChanges qs s t) (h : ([.counters, .carrier] : List Part).all (fun p => qs.contains p) = true) :
    OnlyChanges qs s (judgeCandidate x0 t) := OnlyChanges.after (judgeCandidate_only x0 t) a h

theorem verifyFrame_only (x0 : Nat) (f : Format) (seen : AcfSeen) (s : State) :
    OnlyChanges [.counters, .carrier] s (verifyFrame x0 f seen s) := by
  unfold verifyFrame
  repeat' first
    | with_reducible exact OnlyChanges.refl _ _
    | with_reducible assumption
    | with_reducible apply OnlyChanges.ite
    | with_reducible apply failCandidate_frame
    | with_reducible apply judgeCandidate_frame
    | with_reducible apply modCu_frame
    | ((with_reducible refine Part.nested ?_); rfl)
    | ((with_reducible refine Part.held ?_); rfl)
    | split
    | dsimp only
    | dsimp only [id]
theorem verifyFrame_frame {qs : List Part} {s t : State} (x0 : Nat) (f : Format) (seen : AcfSeen) (a : OnlyChanges qs s t) (h : ([.counters, .carrier] : List Part).all (fun p => qs.contains p) = true) :
    OnlyChanges qs s (verifyFrame x0 f seen t) := OnlyChanges.after (verifyFrame_only x0 f seen t) a h

theorem inFrameHeader_only (x0 : Nat) (f : Format) (seen : AcfSeen) (s : State) :
    OnlyChanges [.counters, .carrier] s (inFrameHeader x0 f seen s) := by
  unfold inFrameHeader
  repeat' first
    | with_reducible exact OnlyChanges.refl _ _
    | with_reducible assumption
    | with_reducible apply OnlyChanges.ite
    | with_reducible apply bump_frame
    | with_reducible apply modCu_frame
    | ((with_reducible refine Part.nested ?_); rfl)
    | ((with_reducible refine Part.held ?_); rfl)
    | split
    | dsimp only
    | dsimp only [id]
theorem inFrameHeader_frame {qs : List Part} {s t : State} (x0 : Nat) (f : Format) (seen : AcfSeen) (a : OnlyChanges qs s t) (h : ([.counters, .carrier] : List Part).all (fun p => qs.contains p) = true) :
    OnlyChanges qs s (inFrameHeader x0 f seen t) := OnlyChanges.after (inFrameHeader_only x0 f seen t) a h

theorem inFrameOverhead_only (x0 : Nat) (room : Nat) (f : Format) (oh : Option (List Byte)) (s : State) :
    PairChanges [.counters, .carrier] s (inFrameOverhead x0 room f oh s) := by
  unfold inFrameOverhead
  repeat' first
    | with_reducible exact OnlyChanges.refl _ _
    | with_reducible assumption
    | with_reducible apply PairChanges.ite
    | with_reducible apply OnlyChanges.ite
    | with_reducible apply bump_frame
    | with_reducible apply modCu_frame
    | ((with_reducible refine Part.nested ?_); rfl)
    | ((with_reducible refine Part.held ?_); rfl)
    | split
    | dsimp only
    | dsimp only [id]
    | with_reducible apply PairChanges.mk
theorem inFrameOverhead_frame {qs : List Part} {s t : State} (x0 : Nat) (room : Nat) (f : Format) (oh : Option (List Byte)) (a : OnlyChanges qs s t) (h : ([.counters, .carrier] : List Part).all (fun p => qs.contains p) = true) :
    OnlyChanges qs s (inFrameOverhead x0 room f oh t).2 := OnlyChanges.after (inFrameOverhead_only x0 room f oh t) a h
theorem inFrameOverhead_pair {qs : List Part} {s t : State} (x0 : Nat) (room : Nat) (f : Format) (oh : Option (List Byte)) (a : OnlyChanges qs s t) (h : ([.counters, .carrier] : List Part).all (fun p => qs.contains p) = true) :
    PairChanges qs s (inFrameOverhead x0 room f oh t) := OnlyChanges.after (inFrameOverhead_only x0 room f oh t) a h
theorem inFrameOverhead_snd {qs : List Part} {s t u : State} (x0 : Nat) (room : Nat) (f : Format) (oh : Option (List Byte)) {y : _} (e : (inFrameOverhead x0 room f oh t) = (y, u)) (a : OnlyChanges qs s t) (h : ([.counters, .carrier] : List Part).all (fun p => qs.contains p) = true) :
    OnlyChanges qs s u := PairChanges.snd (inFrameOverhead_only x0 room f oh t) e a h

theorem readAcf_only (x0 : Nat) (f : Format) (info : List (Option Bool)) (s : State) :
    OnlyChanges [.counters, .carrier] s (readAcf x0 f info s) := by
  unfold readAcf
  repeat' first
    | with_reducible exact OnlyChanges.refl _ _
    | with_reducible assumption
    | with_reducible apply OnlyChanges.ite
    | with_reducible apply inFrameOverhead_frame
    | with_reducible refine inFrameOverhead_snd (by assumption) ?_ ?_
    | with_reducible apply modCu_frame
    | ((with_reducible refine Part.nested ?_); rfl)
    | ((with_reducible refine Part.held ?_); rfl)
    | split
    | dsimp only
    | dsimp only [id]
theorem readAcf_frame {qs : List Part} {s t : State} (x0 : Nat) (f : Format) (info : List (Option Bool)) (a : OnlyChanges qs s t) (h : ([.counters, .carrier] : List Part).all (fun p => qs.contains p) = true) :
    OnlyChanges qs s (readAcf x0 f info t) := OnlyChanges.after (readAcf_only x0 f info t) a h

theorem readAcfs_only (x0 : Nat) (f : Format) : ∀ (x2 : Nat) (s : State), OnlyChanges [.counters, .carrier] s (readAcfs x0 f x2 s)
  | 0, s => OnlyChanges.refl _ s
  | n + 1, s => by
    unfold readAcfs
    split
    · exact OnlyChanges.refl _ _
    · exact OnlyChanges.ite (OnlyChanges.refl _ _)
        (OnlyChanges.trans (readAcf_frame _ _ _ (modCu_frame _ _ (OnlyChanges.refl _ _) rfl) rfl) (readAcfs_only x0 f n _))

theorem readAcfs_frame {qs : List Part} {x3 t : State} (x0 : Nat) (f : Format) (x2 : Nat) (a : OnlyChanges qs x3 t) (h : ([.counters, .carrier] : List Part).all (fun p => qs.contains p) = true) :
    OnlyChanges qs x3 (readAcfs x0 f x2 t) := OnlyChanges.after (readAcfs_only x0 f x2 t) a h

theorem decodeFrame_only (x0 : Nat) (f : Format) (phase : Nat) (s : State) :
    OnlyChanges [.counters, .carrier] s (decodeFrame x0 f phase s) := by
  unfold decodeFrame
  repeat' first
    | with_reducible exact OnlyChanges.refl _ _
    | with_reducible assumption
    | with_reducible apply OnlyChanges.ite
    | with_reducible apply bump_frame
    | with_reducible apply modCu_frame
    | with_reducible apply readAcfs_frame
    | ((with_reducible refine Part.nested ?_); rfl)
    | ((with_reducible refine Part.held ?_); rfl)
    | split
    | dsimp only
    | dsimp only [id]
theorem decodeFrame_frame {qs : List Part} {s t : State} (x0 : Nat) (f : Format) (phase : Nat) (a : OnlyChanges qs s t) (h : ([.counters, .carrier] : List Part).all (fun p => qs.contains p) = true) :
    OnlyChanges qs s (decodeFrame x0 f phase t) := OnlyChanges.after (decodeFrame_only x0 f phase t) a h

theorem pairSkew_only (x0 : Nat) (seen : AcfSeen) (s : State) :
    OnlyChanges [.joinery] s (pairSkew x0 seen s) := by
  unfold pairSkew
  repeat' first
    | with_reducible exact OnlyChanges.refl _ _
    | with_reducible assumption
    | with_reducible apply OnlyChanges.ite
    | with_reducible refine OnlyChanges.each (fun _ _ => ?_) _ ?_
    | with_reducible apply modPair_frame
    | ((with_reducible refine Part.nested ?_); rfl)
    | ((with_reducible refine Part.held ?_); rfl)
    | split
    | dsimp only
    | dsimp only [id]
theorem pairSkew_frame {qs : List Part} {s t : State} (x0 : Nat) (seen : AcfSeen) (a : OnlyChanges qs s t) (h : ([.joinery] : List Part).all (fun p => qs.contains p) = true) :
    OnlyChanges qs s (pairSkew x0 seen t) := OnlyChanges.after (pairSkew_only x0 seen t) a h

theorem daeFrame_only (x0 : Nat) (s : State) :
    OnlyChanges [.counters, .carrier] s (daeFrame x0 s) := by
  unfold daeFrame
  repeat' first
    | with_reducible exact OnlyChanges.refl _ _
    | with_reducible assumption
    | with_reducible apply OnlyChanges.ite
    | with_reducible apply bump_frame
    | with_reducible apply modCu_frame
    | ((with_reducible refine Part.nested ?_); rfl)
    | ((with_reducible refine Part.held ?_); rfl)
    | split
    | dsimp only
    | dsimp only [id]
theorem daeFrame_frame {qs : List Part} {s t : State} (x0 : Nat) (a : OnlyChanges qs s t) (h : ([.counters, .carrier] : List Part).all (fun p => qs.contains p) = true) :
    OnlyChanges qs s (daeFrame x0 t) := OnlyChanges.after (daeFrame_only x0 t) a h

theorem inFrame_only (x0 : Nat) (f : Format) (seen : AcfSeen) (s : State) :
    OnlyChanges [.counters, .carrier, .joinery] s (inFrame x0 f seen s) := by
  unfold inFrame
  repeat' first
    | with_reducible exact OnlyChanges.refl _ _
    | with_reducible assumption
    | with_reducible apply OnlyChanges.ite
    | with_reducible apply bump_frame
    | with_reducible apply daeFrame_frame
    | with_reducible apply decodeFrame_frame
    | with_reducible apply inFrameHeader_frame
    | with_reducible apply modCu_frame
    | with_reducible apply pairSkew_frame
    | ((with_reducible refine Part.nested ?_); rfl)
    | ((with_reducible refine Part.held ?_); rfl)
    | split
    | dsimp only
    | dsimp only [id]
theorem inFrame_frame {qs : List Part} {s t : State} (x0 : Nat) (f : Format) (seen : AcfSeen) (a : OnlyChanges qs s t) (h : ([.counters, .carrier, .joinery] : List Part).all (fun p => qs.contains p) = true) :
    OnlyChanges qs s (inFrame x0 f seen t) := OnlyChanges.after (inFrame_only x0 f seen t) a h

theorem acfFrameRx_only (x0 : Nat) (seen : AcfSeen) (s : State) :
    OnlyChanges [.sill, .power, .control, .counters, .stream, .domain, .cal, .elements, .carrier, .joinery, .framer, .client, .protect, .security, .timing, .fresh] s (acfFrameRx x0 seen s) := by
  unfold acfFrameRx
  repeat' first
    | with_reducible exact OnlyChanges.refl _ _
    | with_reducible assumption
    | with_reducible apply OnlyChanges.ite
    | with_reducible apply bump_frame
    | with_reducible apply calBoundary_frame
    | with_reducible apply inFrame_frame
    | with_reducible apply modCu_frame
    | with_reducible apply rxBoundary_frame
    | with_reducible apply verifyFrame_frame
    | ((with_reducible refine Part.nested ?_); rfl)
    | ((with_reducible refine Part.held ?_); rfl)
    | split
    | dsimp only
    | dsimp only [id]
theorem acfFrameRx_frame {qs : List Part} {s t : State} (x0 : Nat) (seen : AcfSeen) (a : OnlyChanges qs s t) (h : ([.sill, .power, .control, .counters, .stream, .domain, .cal, .elements, .carrier, .joinery, .framer, .client, .protect, .security, .timing, .fresh] : List Part).all (fun p => qs.contains p) = true) :
    OnlyChanges qs s (acfFrameRx x0 seen t) := OnlyChanges.after (acfFrameRx_only x0 seen t) a h

theorem countCodeword_only (x0 : Nat) (bits : Nat) (changed : Nat) (converged : Bool) (s : State) :
    OnlyChanges [.counters] s (countCodeword x0 bits changed converged s) := by
  unfold countCodeword
  repeat' first
    | with_reducible exact OnlyChanges.refl _ _
    | with_reducible assumption
    | with_reducible apply OnlyChanges.ite
    | with_reducible apply bump_frame
    | ((with_reducible refine Part.nested ?_); rfl)
    | ((with_reducible refine Part.held ?_); rfl)
    | split
    | dsimp only
    | dsimp only [id]
theorem countCodeword_frame {qs : List Part} {s t : State} (x0 : Nat) (bits : Nat) (changed : Nat) (converged : Bool) (a : OnlyChanges qs s t) (h : ([.counters] : List Part).all (fun p => qs.contains p) = true) :
    OnlyChanges qs s (countCodeword x0 bits changed converged t) := OnlyChanges.after (countCodeword_only x0 bits changed converged t) a h

theorem tagCodeword_only (x0 : Nat) (f : Format) (w : Decoded) (iterations : Nat) (converged : Bool) (s : State) :
    OnlyChanges [.counters, .fresh] s (tagCodeword x0 f w iterations converged s) := by
  unfold tagCodeword
  repeat' first
    | with_reducible exact OnlyChanges.refl _ _
    | with_reducible assumption
    | with_reducible apply OnlyChanges.ite
    | with_reducible apply drawPick_frame
    | with_reducible refine drawPick_snd (by assumption) ?_ ?_
    | with_reducible apply writeRecord_frame
    | ((with_reducible refine Part.nested ?_); rfl)
    | ((with_reducible refine Part.held ?_); rfl)
    | split
    | dsimp only
    | dsimp only [id]
theorem tagCodeword_frame {qs : List Part} {s t : State} (x0 : Nat) (f : Format) (w : Decoded) (iterations : Nat) (converged : Bool) (a : OnlyChanges qs s t) (h : ([.counters, .fresh] : List Part).all (fun p => qs.contains p) = true) :
    OnlyChanges qs s (tagCodeword x0 f w iterations converged t) := OnlyChanges.after (tagCodeword_only x0 f w iterations converged t) a h

theorem codewordDecoded_only (x0 : Nat) (w : Decoded) (s : State) :
    OnlyChanges [.counters, .carrier, .fresh] s (codewordDecoded x0 w s) := by
  unfold codewordDecoded
  repeat' first
    | with_reducible exact OnlyChanges.refl _ _
    | with_reducible assumption
    | with_reducible apply OnlyChanges.ite
    | with_reducible apply bump_frame
    | with_reducible apply countCodeword_frame
    | with_reducible apply modCu_frame
    | with_reducible apply tagCodeword_frame
    | ((with_reducible refine Part.nested ?_); rfl)
    | ((with_reducible refine Part.held ?_); rfl)
    | split
    | dsimp only
    | dsimp only [id]
theorem codewordDecoded_frame {qs : List Part} {s t : State} (x0 : Nat) (w : Decoded) (a : OnlyChanges qs s t) (h : ([.counters, .carrier, .fresh] : List Part).all (fun p => qs.contains p) = true) :
    OnlyChanges qs s (codewordDecoded x0 w t) := OnlyChanges.after (codewordDecoded_only x0 w t) a h

theorem fecBoundary_only (x0 : Nat) (s : State) :
    OnlyChanges [.sill, .control, .counters, .carrier] s (fecBoundary x0 s) := by
  unfold fecBoundary
  repeat' first
    | with_reducible exact OnlyChanges.refl _ _
    | with_reducible assumption
    | with_reducible apply OnlyChanges.ite
    | with_reducible apply modCu_frame
    | with_reducible apply raise_frame
    | ((with_reducible refine Part.nested ?_); rfl)
    | ((with_reducible refine Part.held ?_); rfl)
    | split
    | dsimp only
    | dsimp only [id]
theorem fecBoundary_frame {qs : List Part} {s t : State} (x0 : Nat) (a : OnlyChanges qs s t) (h : ([.sill, .control, .counters, .carrier] : List Part).all (fun p => qs.contains p) = true) :
    OnlyChanges qs s (fecBoundary x0 t) := OnlyChanges.after (fecBoundary_only x0 t) a h

theorem fecGetFrameInfo_only (q : Request) (s : State) :
    ReplyChanges [] s (fecGetFrameInfo q s) := by
  unfold fecGetFrameInfo
  repeat' first
    | with_reducible exact OnlyChanges.refl _ _
    | with_reducible assumption
    | with_reducible apply ReplyChanges.checked
    | with_reducible apply ReplyChanges.require
    | with_reducible apply ReplyChanges.ite
    | with_reducible apply ReplyChanges.okay
    | with_reducible apply ReplyChanges.okWith
    | with_reducible refine ReplyChanges.okThen ?_ (fun _ => ?_)
    | with_reducible apply ReplyChanges.refuse
    | with_reducible apply ReplyChanges.reject
    | with_reducible refine ReplyChanges.done _ _ ?_ (fun _ => ?_)
    | with_reducible apply ReplyChanges.later
    | with_reducible apply OnlyChanges.ite
    | ((with_reducible refine Part.nested ?_); rfl)
    | ((with_reducible refine Part.held ?_); rfl)
    | split
    | dsimp only
    | dsimp only [id]
theorem fecGetFrameInfo_frame {qs : List Part} {s t : State} (q : Request) (a : OnlyChanges qs s t) (h : ([] : List Part).all (fun p => qs.contains p) = true) :
    ReplyChanges qs s (fecGetFrameInfo q t) := ReplyChanges.after (fecGetFrameInfo_only q t) a h

theorem fecGetCounts_only (q : Request) (s : State) :
    ReplyChanges [] s (fecGetCounts q s) := by
  unfold fecGetCounts
  repeat' first
    | with_reducible exact OnlyChanges.refl _ _
    | with_reducible assumption
    | with_reducible apply ReplyChanges.checked
    | with_reducible apply ReplyChanges.require
    | with_reducible apply ReplyChanges.ite
    | with_reducible apply ReplyChanges.okay
    | with_reducible apply ReplyChanges.okWith
    | with_reducible refine ReplyChanges.okThen ?_ (fun _ => ?_)
    | with_reducible apply ReplyChanges.refuse
    | with_reducible apply ReplyChanges.reject
    | with_reducible refine ReplyChanges.done _ _ ?_ (fun _ => ?_)
    | with_reducible apply ReplyChanges.later
    | with_reducible apply OnlyChanges.ite
    | ((with_reducible refine Part.nested ?_); rfl)
    | ((with_reducible refine Part.held ?_); rfl)
    | split
    | dsimp only
    | dsimp only [id]
theorem fecGetCounts_frame {qs : List Part} {s t : State} (q : Request) (a : OnlyChanges qs s t) (h : ([] : List Part).all (fun p => qs.contains p) = true) :
    ReplyChanges qs s (fecGetCounts q t) := ReplyChanges.after (fecGetCounts_only q t) a h

theorem fecSetInject_only (q : Request) (s : State) :
    ReplyChanges [.sill, .power, .control, .counters, .stream, .domain, .cal, .elements, .carrier, .joinery, .framer, .client, .security] s (fecSetInject q s) := by
  unfold fecSetInject
  repeat' first
    | with_reducible exact OnlyChanges.refl _ _
    | with_reducible assumption
    | with_reducible apply ReplyChanges.checked
    | with_reducible apply ReplyChanges.require
    | with_reducible apply ReplyChanges.ite
    | with_reducible apply ReplyChanges.okay
    | with_reducible apply ReplyChanges.okWith
    | with_reducible refine ReplyChanges.okThen ?_ (fun _ => ?_)
    | with_reducible apply ReplyChanges.refuse
    | with_reducible apply ReplyChanges.reject
    | with_reducible refine ReplyChanges.done _ _ ?_ (fun _ => ?_)
    | with_reducible apply ReplyChanges.later
    | with_reducible apply OnlyChanges.ite
    | with_reducible apply modCu_frame
    | with_reducible apply settleTx_frame
    | ((with_reducible refine Part.nested ?_); rfl)
    | ((with_reducible refine Part.held ?_); rfl)
    | split
    | dsimp only
    | dsimp only [id]
theorem fecSetInject_frame {qs : List Part} {s t : State} (q : Request) (a : OnlyChanges qs s t) (h : ([.sill, .power, .control, .counters, .stream, .domain, .cal, .elements, .carrier, .joinery, .framer, .client, .security] : List Part).all (fun p => qs.contains p) = true) :
    ReplyChanges qs s (fecSetInject q t) := ReplyChanges.after (fecSetInject_only q t) a h

end Sys2Proof.Machine
end

