-- ==== Sys2Proof/Laws/FrameFramerOps.lean ====
section
/-! SUPPORT. What each operation of FramerOps.lean may change. -/

-- One theorem after another: with a thread for each, the package as one text outgrows the checker's memory limit.
set_option Elab.async false

namespace Sys2Proof.Machine

theorem missFrame_only (x0 : Nat) (s : State) :
    OnlyChanges [.framer, .security] s (missFrame x0 s) := by
  unfold missFrame
  repeat' first
    | with_reducible exact OnlyChanges.refl _ _
    | with_reducible assumption
    | with_reducible apply OnlyChanges.ite
    | with_reducible apply dropTag_frame
    | with_reducible apply modFramer_frame
    | ((with_reducible refine Part.nested ?_); rfl)
    | ((with_reducible refine Part.held ?_); rfl)
    | split
    | dsimp only
    | dsimp only [id]
theorem missFrame_frame {qs : List Part} {s t : State} (x0 : Nat) (a : OnlyChanges qs s t) (h : ([.framer, .security] : List Part).all (fun p => qs.contains p) = true) :
    OnlyChanges qs s (missFrame x0 t) := OnlyChanges.after (missFrame_only x0 t) a h

theorem defectEvent_only (x0 : Nat) (changed : Nat) (s : State) :
    OnlyChanges [.sill, .control, .counters, .framer] s (defectEvent x0 changed s) := by
  unfold defectEvent
  repeat' first
    | with_reducible exact OnlyChanges.refl _ _
    | with_reducible assumption
    | with_reducible apply OnlyChanges.ite
    | with_reducible apply modFramer_frame
    | with_reducible apply raise_frame
    | ((with_reducible refine Part.nested ?_); rfl)
    | ((with_reducible refine Part.held ?_); rfl)
    | split
    | dsimp only
    | dsimp only [id]
theorem defectEvent_frame {qs : List Part} {s t : State} (x0 : Nat) (changed : Nat) (a : OnlyChanges qs s t) (h : ([.sill, .control, .counters, .framer] : List Part).all (fun p => qs.contains p) = true) :
    OnlyChanges qs s (defectEvent x0 changed t) := OnlyChanges.after (defectEvent_only x0 changed t) a h

theorem writeDefects_only (x0 : Nat) (d : Nat) (s : State) :
    OnlyChanges [.sill, .control, .counters, .framer] s (writeDefects x0 d s) := by
  unfold writeDefects
  repeat' first
    | with_reducible exact OnlyChanges.refl _ _
    | with_reducible assumption
    | with_reducible apply OnlyChanges.ite
    | with_reducible apply defectEvent_frame
    | with_reducible apply modFramer_frame
    | ((with_reducible refine Part.nested ?_); rfl)
    | ((with_reducible refine Part.held ?_); rfl)
    | split
    | dsimp only
    | dsimp only [id]
theorem writeDefects_frame {qs : List Part} {s t : State} (x0 : Nat) (d : Nat) (a : OnlyChanges qs s t) (h : ([.sill, .control, .counters, .framer] : List Part).all (fun p => qs.contains p) = true) :
    OnlyChanges qs s (writeDefects x0 d t) := OnlyChanges.after (writeDefects_only x0 d t) a h

theorem setDefects_only (x0 : Nat) (d : Nat) (s : State) :
    OnlyChanges [.sill, .control, .counters, .framer, .protect, .fresh] s (setDefects x0 d s) := by
  unfold setDefects
  repeat' first
    | with_reducible exact OnlyChanges.refl _ _
    | with_reducible assumption
    | with_reducible apply OnlyChanges.ite
    | with_reducible apply framerLost_frame
    | with_reducible apply writeDefects_frame
    | ((with_reducible refine Part.nested ?_); rfl)
    | ((with_reducible refine Part.held ?_); rfl)
    | split
    | dsimp only
    | dsimp only [id]
theorem setDefects_frame {qs : List Part} {s t : State} (x0 : Nat) (d : Nat) (a : OnlyChanges qs s t) (h : ([.sill, .control, .counters, .framer, .protect, .fresh] : List Part).all (fun p => qs.contains p) = true) :
    OnlyChanges qs s (setDefects x0 d t) := OnlyChanges.after (setDefects_only x0 d t) a h

theorem putDefect_only (x0 : Nat) (bit : Nat) (on : Bool) (s : State) :
    OnlyChanges [.sill, .control, .counters, .framer, .protect, .fresh] s (putDefect x0 bit on s) := by
  unfold putDefect
  repeat' first
    | with_reducible exact OnlyChanges.refl _ _
    | with_reducible assumption
    | with_reducible apply OnlyChanges.ite
    | with_reducible apply setDefects_frame
    | ((with_reducible refine Part.nested ?_); rfl)
    | ((with_reducible refine Part.held ?_); rfl)
    | split
    | dsimp only
    | dsimp only [id]
theorem putDefect_frame {qs : List Part} {s t : State} (x0 : Nat) (bit : Nat) (on : Bool) (a : OnlyChanges qs s t) (h : ([.sill, .control, .counters, .framer, .protect, .fresh] : List Part).all (fun p => qs.contains p) = true) :
    OnlyChanges qs s (putDefect x0 bit on t) := OnlyChanges.after (putDefect_only x0 bit on t) a h

end Sys2Proof.Machine
end

