-- ==== Sys2Proof/Laws/FrameFramer.lean ====
section
/-! SUPPORT. What each operation of Framer.lean may change. -/

-- One theorem after another: with a thread for each, the package as one text outgrows the checker's memory limit.
set_option Elab.async false

namespace Sys2Proof.Machine

theorem applyAllocs_only (x0 : Nat) (s : State) :
    OnlyChanges [.client] s (applyAllocs x0 s) := by
  unfold applyAllocs
  repeat' first
    | with_reducible exact OnlyChanges.refl _ _
    | with_reducible assumption
    | with_reducible apply OnlyChanges.ite
    | ((with_reducible refine Part.nested ?_); rfl)
    | ((with_reducible refine Part.held ?_); rfl)
    | split
    | dsimp only
    | dsimp only [id]
    | with_reducible apply set_client
theorem applyAllocs_frame {qs : List Part} {s t : State} (x0 : Nat) (a : OnlyChanges qs s t) (h : ([.client] : List Part).all (fun p => qs.contains p) = true) :
    OnlyChanges qs s (applyAllocs x0 t) := OnlyChanges.after (applyAllocs_only x0 t) a h

theorem judgeMsim_only (x0 : Nat) (s : State) :
    OnlyChanges [.sill, .control, .counters, .framer, .protect, .fresh] s (judgeMsim x0 s) := by
  unfold judgeMsim
  repeat' first
    | with_reducible exact OnlyChanges.refl _ _
    | with_reducible assumption
    | with_reducible apply OnlyChanges.ite
    | with_reducible apply putDefect_frame
    | ((with_reducible refine Part.nested ?_); rfl)
    | ((with_reducible refine Part.held ?_); rfl)
    | split
    | dsimp only
    | dsimp only [id]
theorem judgeMsim_frame {qs : List Part} {s t : State} (x0 : Nat) (a : OnlyChanges qs s t) (h : ([.sill, .control, .counters, .framer, .protect, .fresh] : List Part).all (fun p => qs.contains p) = true) :
    OnlyChanges qs s (judgeMsim x0 t) := OnlyChanges.after (judgeMsim_only x0 t) a h

theorem encryptFrame_only (x0 : Nat) (omfi : Nat) (slices : List (List Byte)) (s : State) :
    PairChanges [.sill, .control, .counters, .security] s (encryptFrame x0 omfi slices s) := by
  unfold encryptFrame
  repeat' first
    | with_reducible exact OnlyChanges.refl _ _
    | with_reducible assumption
    | with_reducible apply PairChanges.ite
    | with_reducible apply OnlyChanges.ite
    | with_reducible apply bump_frame
    | with_reducible apply modChannel_frame
    | with_reducible apply modSlot_frame
    | with_reducible apply nonceWarn_frame
    | with_reducible apply squelch_frame
    | ((with_reducible refine Part.nested ?_); rfl)
    | ((with_reducible refine Part.held ?_); rfl)
    | split
    | dsimp only
    | dsimp only [id]
    | with_reducible apply PairChanges.mk
theorem encryptFrame_frame {qs : List Part} {s t : State} (x0 : Nat) (omfi : Nat) (slices : List (List Byte)) (a : OnlyChanges qs s t) (h : ([.sill, .control, .counters, .security] : List Part).all (fun p => qs.contains p) = true) :
    OnlyChanges qs s (encryptFrame x0 omfi slices t).2 := OnlyChanges.after (encryptFrame_only x0 omfi slices t) a h
theorem encryptFrame_pair {qs : List Part} {s t : State} (x0 : Nat) (omfi : Nat) (slices : List (List Byte)) (a : OnlyChanges qs s t) (h : ([.sill, .control, .counters, .security] : List Part).all (fun p => qs.contains p) = true) :
    PairChanges qs s (encryptFrame x0 omfi slices t) := OnlyChanges.after (encryptFrame_only x0 omfi slices t) a h
theorem encryptFrame_snd {qs : List Part} {s t u : State} (x0 : Nat) (omfi : Nat) (slices : List (List Byte)) {y : _} (e : (encryptFrame x0 omfi slices t) = (y, u)) (a : OnlyChanges qs s t) (h : ([.sill, .control, .counters, .security] : List Part).all (fun p => qs.contains p) = true) :
    OnlyChanges qs s u := PairChanges.snd (encryptFrame_only x0 omfi slices t) e a h

theorem handOff_only (v : Nat) (mfas : Nat) (slices : List (List Byte)) (epoch : Bool) (twin : Option Word32) (s : State) :
    OnlyChanges [.counters, .carrier, .framer, .fresh] s (handOff v mfas slices epoch twin s) := by
  unfold handOff
  repeat' first
    | with_reducible exact OnlyChanges.refl _ _
    | with_reducible assumption
    | with_reducible apply OnlyChanges.ite
    | with_reducible apply bump_frame
    | with_reducible apply drawNat_frame
    | with_reducible refine drawNat_snd (by assumption) ?_ ?_
    | with_reducible apply modCu_frame
    | with_reducible apply modFramer_frame
    | with_reducible apply traceItem_frame
    | ((with_reducible refine Part.nested ?_); rfl)
    | ((with_reducible refine Part.held ?_); rfl)
    | split
    | dsimp only
    | dsimp only [id]
theorem handOff_frame {qs : List Part} {s t : State} (v : Nat) (mfas : Nat) (slices : List (List Byte)) (epoch : Bool) (twin : Option Word32) (a : OnlyChanges qs s t) (h : ([.counters, .carrier, .framer, .fresh] : List Part).all (fun p => qs.contains p) = true) :
    OnlyChanges qs s (handOff v mfas slices epoch twin t) := OnlyChanges.after (handOff_only v mfas slices epoch twin t) a h

theorem sendOtu_only (x0 : Nat) (n : Nat) (dest : List Nat) (load : OtuLoad) (s : State) :
    OnlyChanges [.sill, .control, .counters, .carrier, .framer, .client, .protect, .security, .fresh] s (sendOtu x0 n dest load s) := by
  unfold sendOtu
  repeat' first
    | with_reducible exact OnlyChanges.refl _ _
    | with_reducible assumption
    | with_reducible apply OnlyChanges.ite
    | with_reducible refine OnlyChanges.each (fun _ _ => ?_) _ ?_
    | with_reducible apply applyAllocs_frame
    | with_reducible apply bump_frame
    | with_reducible apply encryptFrame_frame
    | with_reducible refine encryptFrame_snd (by assumption) ?_ ?_
    | with_reducible apply handOff_frame
    | with_reducible apply judgeMsim_frame
    | with_reducible apply modChannel_frame
    | with_reducible apply modFramer_frame
    | with_reducible apply modTwin_frame
    | with_reducible apply squelch_frame
    | ((with_reducible refine Part.nested ?_); rfl)
    | ((with_reducible refine Part.held ?_); rfl)
    | split
    | dsimp only
    | dsimp only [id]
theorem sendOtu_frame {qs : List Part} {s t : State} (x0 : Nat) (n : Nat) (dest : List Nat) (load : OtuLoad) (a : OnlyChanges qs s t) (h : ([.sill, .control, .counters, .carrier, .framer, .client, .protect, .security, .fresh] : List Part).all (fun p => qs.contains p) = true) :
    OnlyChanges qs s (sendOtu x0 n dest load t) := OnlyChanges.after (sendOtu_only x0 n dest load t) a h

theorem otucnFrameTx_only (x0 : Nat) (load : OtuLoad) (s : State) :
    OnlyChanges [.sill, .control, .counters, .carrier, .framer, .client, .protect, .security, .fresh] s (otucnFrameTx x0 load s) := by
  unfold otucnFrameTx
  repeat' first
    | with_reducible exact OnlyChanges.refl _ _
    | with_reducible assumption
    | with_reducible apply OnlyChanges.ite
    | with_reducible apply sendOtu_frame
    | ((with_reducible refine Part.nested ?_); rfl)
    | ((with_reducible refine Part.held ?_); rfl)
    | split
    | dsimp only
    | dsimp only [id]
theorem otucnFrameTx_frame {qs : List Part} {s t : State} (x0 : Nat) (load : OtuLoad) (a : OnlyChanges qs s t) (h : ([.sill, .control, .counters, .carrier, .framer, .client, .protect, .security, .fresh] : List Part).all (fun p => qs.contains p) = true) :
    OnlyChanges qs s (otucnFrameTx x0 load t) := OnlyChanges.after (otucnFrameTx_only x0 load t) a h

theorem runDefect_only (x0 : Nat) (bit : Nat) (on : Bool) (s : State) :
    OnlyChanges [.framer] s (runDefect x0 bit on s) := by
  unfold runDefect
  repeat' first
    | with_reducible exact OnlyChanges.refl _ _
    | with_reducible assumption
    | with_reducible apply OnlyChanges.ite
    | with_reducible apply modFramer_frame
    | ((with_reducible refine Part.nested ?_); rfl)
    | ((with_reducible refine Part.held ?_); rfl)
    | split
    | dsimp only
    | dsimp only [id]
theorem runDefect_frame {qs : List Part} {s t : State} (x0 : Nat) (bit : Nat) (on : Bool) (a : OnlyChanges qs s t) (h : ([.framer] : List Part).all (fun p => qs.contains p) = true) :
    OnlyChanges qs s (runDefect x0 bit on t) := OnlyChanges.after (runDefect_only x0 bit on t) a h

theorem decryptFrame_only (x0 : Nat) (omfi : Nat) (epoch : Bool) (slices : List (List Byte)) (s : State) :
    PairChanges [.sill, .control, .counters, .framer, .security] s (decryptFrame x0 omfi epoch slices s) := by
  unfold decryptFrame
  repeat' first
    | with_reducible exact OnlyChanges.refl _ _
    | with_reducible assumption
    | with_reducible apply PairChanges.ite
    | with_reducible apply OnlyChanges.ite
    | with_reducible apply bump_frame
    | with_reducible apply modChannel_frame
    | with_reducible apply modFramer_frame
    | with_reducible apply raise_frame
    | ((with_reducible refine Part.nested ?_); rfl)
    | ((with_reducible refine Part.held ?_); rfl)
    | split
    | dsimp only
    | dsimp only [id]
    | with_reducible apply PairChanges.mk
theorem decryptFrame_frame {qs : List Part} {s t : State} (x0 : Nat) (omfi : Nat) (epoch : Bool) (slices : List (List Byte)) (a : OnlyChanges qs s t) (h : ([.sill, .control, .counters, .framer, .security] : List Part).all (fun p => qs.contains p) = true) :
    OnlyChanges qs s (decryptFrame x0 omfi epoch slices t).2 := OnlyChanges.after (decryptFrame_only x0 omfi epoch slices t) a h
theorem decryptFrame_pair {qs : List Part} {s t : State} (x0 : Nat) (omfi : Nat) (epoch : Bool) (slices : List (List Byte)) (a : OnlyChanges qs s t) (h : ([.sill, .control, .counters, .framer, .security] : List Part).all (fun p => qs.contains p) = true) :
    PairChanges qs s (decryptFrame x0 omfi epoch slices t) := OnlyChanges.after (decryptFrame_only x0 omfi epoch slices t) a h
theorem decryptFrame_snd {qs : List Part} {s t u : State} (x0 : Nat) (omfi : Nat) (epoch : Bool) (slices : List (List Byte)) {y : _} (e : (decryptFrame x0 omfi epoch slices t) = (y, u)) (a : OnlyChanges qs s t) (h : ([.sill, .control, .counters, .framer, .security] : List Part).all (fun p => qs.contains p) = true) :
    OnlyChanges qs s u := PairChanges.snd (decryptFrame_only x0 omfi epoch slices t) e a h

theorem pathFrame_only (x0 : Nat) (mfas : Nat) (epoch : Bool) (slices : List (List Byte)) (errs : List (Nat × Nat)) (s : State) :
    OnlyChanges [.sill, .control, .counters, .framer, .security] s (pathFrame x0 mfas epoch slices errs s) := by
  unfold pathFrame
  repeat' first
    | with_reducible exact OnlyChanges.refl _ _
    | with_reducible assumption
    | with_reducible apply OnlyChanges.ite
    | with_reducible refine OnlyChanges.each (fun _ _ => ?_) _ ?_
    | with_reducible apply bump_frame
    | with_reducible apply decryptFrame_frame
    | with_reducible refine decryptFrame_snd (by assumption) ?_ ?_
    | with_reducible apply dropTag_frame
    | with_reducible apply modFramer_frame
    | with_reducible apply runDefect_frame
    | ((with_reducible refine Part.nested ?_); rfl)
    | ((with_reducible refine Part.held ?_); rfl)
    | split
    | dsimp only
    | dsimp only [id]
theorem pathFrame_frame {qs : List Part} {s t : State} (x0 : Nat) (mfas : Nat) (epoch : Bool) (slices : List (List Byte)) (errs : List (Nat × Nat)) (a : OnlyChanges qs s t) (h : ([.sill, .control, .counters, .framer, .security] : List Part).all (fun p => qs.contains p) = true) :
    OnlyChanges qs s (pathFrame x0 mfas epoch slices errs t) := OnlyChanges.after (pathFrame_only x0 mfas epoch slices errs t) a h

theorem sectionFrame_only (x0 : Nat) (mfas : Nat) (slices : List (List Byte)) (s : State) :
    OnlyChanges [.sill, .control, .counters, .framer, .protect, .fresh] s (sectionFrame x0 mfas slices s) := by
  unfold sectionFrame
  repeat' first
    | with_reducible exact OnlyChanges.refl _ _
    | with_reducible assumption
    | with_reducible apply OnlyChanges.ite
    | with_reducible apply bump_frame
    | with_reducible apply modFramer_frame
    | with_reducible apply putDefect_frame
    | with_reducible apply runDefect_frame
    | ((with_reducible refine Part.nested ?_); rfl)
    | ((with_reducible refine Part.held ?_); rfl)
    | split
    | dsimp only
    | dsimp only [id]
theorem sectionFrame_frame {qs : List Part} {s t : State} (x0 : Nat) (mfas : Nat) (slices : List (List Byte)) (a : OnlyChanges qs s t) (h : ([.sill, .control, .counters, .framer, .protect, .fresh] : List Part).all (fun p => qs.contains p) = true) :
    OnlyChanges qs s (sectionFrame x0 mfas slices t) := OnlyChanges.after (sectionFrame_only x0 mfas slices t) a h

theorem inFrameOtu_only (x0 : Nat) (seen : OtuSeen) (s : State) :
    OnlyChanges [.sill, .control, .counters, .carrier, .framer, .protect, .security, .fresh] s (inFrameOtu x0 seen s) := by
  unfold inFrameOtu
  repeat' first
    | with_reducible exact OnlyChanges.refl _ _
    | with_reducible assumption
    | with_reducible apply OnlyChanges.ite
    | with_reducible apply bump_frame
    | with_reducible apply drawNat_frame
    | with_reducible refine drawNat_snd (by assumption) ?_ ?_
    | with_reducible apply framerGained_frame
    | with_reducible apply modCu_frame
    | with_reducible apply modFramer_frame
    | with_reducible apply pathFrame_frame
    | with_reducible apply sectionFrame_frame
    | with_reducible apply traceItem_frame
    | ((with_reducible refine Part.nested ?_); rfl)
    | ((with_reducible refine Part.held ?_); rfl)
    | split
    | dsimp only
    | dsimp only [id]
theorem inFrameOtu_frame {qs : List Part} {s t : State} (x0 : Nat) (seen : OtuSeen) (a : OnlyChanges qs s t) (h : ([.sill, .control, .counters, .carrier, .framer, .protect, .security, .fresh] : List Part).all (fun p => qs.contains p) = true) :
    OnlyChanges qs s (inFrameOtu x0 seen t) := OnlyChanges.after (inFrameOtu_only x0 seen t) a h

theorem huntOtu_only (x0 : Nat) (seen : OtuSeen) (s : State) :
    OnlyChanges [.counters, .framer, .security] s (huntOtu x0 seen s) := by
  unfold huntOtu
  repeat' first
    | with_reducible exact OnlyChanges.refl _ _
    | with_reducible assumption
    | with_reducible apply OnlyChanges.ite
    | with_reducible apply bump_frame
    | with_reducible apply missFrame_frame
    | with_reducible apply modFramer_frame
    | ((with_reducible refine Part.nested ?_); rfl)
    | ((with_reducible refine Part.held ?_); rfl)
    | split
    | dsimp only
    | dsimp only [id]
theorem huntOtu_frame {qs : List Part} {s t : State} (x0 : Nat) (seen : OtuSeen) (a : OnlyChanges qs s t) (h : ([.counters, .framer, .security] : List Part).all (fun p => qs.contains p) = true) :
    OnlyChanges qs s (huntOtu x0 seen t) := OnlyChanges.after (huntOtu_only x0 seen t) a h

theorem heldOtu_only (x0 : Nat) (seen : OtuSeen) (s : State) :
    OnlyChanges [.counters, .framer, .security] s (heldOtu x0 seen s) := by
  unfold heldOtu
  repeat' first
    | with_reducible exact OnlyChanges.refl _ _
    | with_reducible assumption
    | with_reducible apply OnlyChanges.ite
    | with_reducible apply bump_frame
    | with_reducible apply missFrame_frame
    | with_reducible apply modFramer_frame
    | ((with_reducible refine Part.nested ?_); rfl)
    | ((with_reducible refine Part.held ?_); rfl)
    | split
    | dsimp only
    | dsimp only [id]
theorem heldOtu_frame {qs : List Part} {s t : State} (x0 : Nat) (seen : OtuSeen) (a : OnlyChanges qs s t) (h : ([.counters, .framer, .security] : List Part).all (fun p => qs.contains p) = true) :
    OnlyChanges qs s (heldOtu x0 seen t) := OnlyChanges.after (heldOtu_only x0 seen t) a h

theorem invalidOtu_only (x0 : Nat) (s : State) :
    OnlyChanges [.sill, .control, .counters, .framer, .protect, .security, .fresh] s (invalidOtu x0 s) := by
  unfold invalidOtu
  repeat' first
    | with_reducible exact OnlyChanges.refl _ _
    | with_reducible assumption
    | with_reducible apply OnlyChanges.ite
    | with_reducible apply bump_frame
    | with_reducible apply missFrame_frame
    | with_reducible apply modFramer_frame
    | with_reducible apply putDefect_frame
    | ((with_reducible refine Part.nested ?_); rfl)
    | ((with_reducible refine Part.held ?_); rfl)
    | split
    | dsimp only
    | dsimp only [id]
theorem invalidOtu_frame {qs : List Part} {s t : State} (x0 : Nat) (a : OnlyChanges qs s t) (h : ([.sill, .control, .counters, .framer, .protect, .security, .fresh] : List Part).all (fun p => qs.contains p) = true) :
    OnlyChanges qs s (invalidOtu x0 t) := OnlyChanges.after (invalidOtu_only x0 t) a h

theorem validOtu_only (x0 : Nat) (n : Nat) (seen : OtuSeen) (s : State) :
    OnlyChanges [.sill, .control, .counters, .carrier, .framer, .protect, .security, .fresh] s (validOtu x0 n seen s) := by
  unfold validOtu
  repeat' first
    | with_reducible exact OnlyChanges.refl _ _
    | with_reducible assumption
    | with_reducible apply OnlyChanges.ite
    | with_reducible apply heldOtu_frame
    | with_reducible apply huntOtu_frame
    | with_reducible apply inFrameOtu_frame
    | with_reducible apply missFrame_frame
    | with_reducible apply modFramer_frame
    | with_reducible apply putDefect_frame
    | ((with_reducible refine Part.nested ?_); rfl)
    | ((with_reducible refine Part.held ?_); rfl)
    | split
    | dsimp only
    | dsimp only [id]
theorem validOtu_frame {qs : List Part} {s t : State} (x0 : Nat) (n : Nat) (seen : OtuSeen) (a : OnlyChanges qs s t) (h : ([.sill, .control, .counters, .carrier, .framer, .protect, .security, .fresh] : List Part).all (fun p => qs.contains p) = true) :
    OnlyChanges qs s (validOtu x0 n seen t) := OnlyChanges.after (validOtu_only x0 n seen t) a h

theorem rxSettings_only (x0 : Nat) (s : State) :
    OnlyChanges [.framer] s (rxSettings x0 s) := by
  unfold rxSettings
  repeat' first
    | with_reducible exact OnlyChanges.refl _ _
    | with_reducible assumption
    | with_reducible apply OnlyChanges.ite
    | with_reducible apply modFramer_frame
    | ((with_reducible refine Part.nested ?_); rfl)
    | ((with_reducible refine Part.held ?_); rfl)
    | split
    | dsimp only
    | dsimp only [id]
theorem rxSettings_frame {qs : List Part} {s t : State} (x0 : Nat) (a : OnlyChanges qs s t) (h : ([.framer] : List Part).all (fun p => qs.contains p) = true) :
    OnlyChanges qs s (rxSettings x0 t) := OnlyChanges.after (rxSettings_only x0 t) a h

theorem otucnFrameRx_only (x0 : Nat) (seen : OtuSeen) (s : State) :
    OnlyChanges [.sill, .control, .counters, .carrier, .framer, .protect, .security, .fresh] s (otucnFrameRx x0 seen s) := by
  unfold otucnFrameRx
  repeat' first
    | with_reducible exact OnlyChanges.refl _ _
    | with_reducible assumption
    | with_reducible apply OnlyChanges.ite
    | with_reducible apply invalidOtu_frame
    | with_reducible apply putDefect_frame
    | with_reducible apply rxSettings_frame
    | with_reducible apply validOtu_frame
    | ((with_reducible refine Part.nested ?_); rfl)
    | ((with_reducible refine Part.held ?_); rfl)
    | split
    | dsimp only
    | dsimp only [id]
theorem otucnFrameRx_frame {qs : List Part} {s t : State} (x0 : Nat) (seen : OtuSeen) (a : OnlyChanges qs s t) (h : ([.sill, .control, .counters, .carrier, .framer, .protect, .security, .fresh] : List Part).all (fun p => qs.contains p) = true) :
    OnlyChanges qs s (otucnFrameRx x0 seen t) := OnlyChanges.after (otucnFrameRx_only x0 seen t) a h

theorem oofDeclared_only (x0 : Nat) (s : State) :
    OnlyChanges [.sill, .control, .counters, .framer, .protect, .security, .fresh] s (oofDeclared x0 s) := by
  unfold oofDeclared
  repeat' first
    | with_reducible exact OnlyChanges.refl _ _
    | with_reducible assumption
    | with_reducible apply OnlyChanges.ite
    | with_reducible refine OnlyChanges.cond (fun _ => ?_) ?_
    | with_reducible apply bump_frame
    | with_reducible apply missFrame_frame
    | with_reducible apply modFramer_frame
    | with_reducible apply putDefect_frame
    | ((with_reducible refine Part.nested ?_); rfl)
    | ((with_reducible refine Part.held ?_); rfl)
    | split
    | dsimp only
    | dsimp only [id]
theorem oofDeclared_frame {qs : List Part} {s t : State} (x0 : Nat) (a : OnlyChanges qs s t) (h : ([.sill, .control, .counters, .framer, .protect, .security, .fresh] : List Part).all (fun p => qs.contains p) = true) :
    OnlyChanges qs s (oofDeclared x0 t) := OnlyChanges.after (oofDeclared_only x0 t) a h

theorem oofCleared_only (x0 : Nat) (s : State) :
    OnlyChanges [.sill, .control, .counters, .framer, .protect, .fresh] s (oofCleared x0 s) := by
  unfold oofCleared
  repeat' first
    | with_reducible exact OnlyChanges.refl _ _
    | with_reducible assumption
    | with_reducible apply OnlyChanges.ite
    | with_reducible refine OnlyChanges.cond (fun _ => ?_) ?_
    | with_reducible apply modFramer_frame
    | with_reducible apply putDefect_frame
    | ((with_reducible refine Part.nested ?_); rfl)
    | ((with_reducible refine Part.held ?_); rfl)
    | split
    | dsimp only
    | dsimp only [id]
theorem oofCleared_frame {qs : List Part} {s t : State} (x0 : Nat) (a : OnlyChanges qs s t) (h : ([.sill, .control, .counters, .framer, .protect, .fresh] : List Part).all (fun p => qs.contains p) = true) :
    OnlyChanges qs s (oofCleared x0 t) := OnlyChanges.after (oofCleared_only x0 t) a h

theorem lofDeclared_only (x0 : Nat) (s : State) :
    OnlyChanges [.sill, .control, .counters, .framer, .protect, .fresh] s (lofDeclared x0 s) := by
  unfold lofDeclared
  repeat' first
    | with_reducible exact OnlyChanges.refl _ _
    | with_reducible assumption
    | with_reducible apply OnlyChanges.ite
    | with_reducible refine OnlyChanges.cond (fun _ => ?_) ?_
    | with_reducible apply putDefect_frame
    | ((with_reducible refine Part.nested ?_); rfl)
    | ((with_reducible refine Part.held ?_); rfl)
    | split
    | dsimp only
    | dsimp only [id]
theorem lofDeclared_frame {qs : List Part} {s t : State} (x0 : Nat) (a : OnlyChanges qs s t) (h : ([.sill, .control, .counters, .framer, .protect, .fresh] : List Part).all (fun p => qs.contains p) = true) :
    OnlyChanges qs s (lofDeclared x0 t) := OnlyChanges.after (lofDeclared_only x0 t) a h

theorem lofCleared_only (x0 : Nat) (s : State) :
    OnlyChanges [.sill, .control, .counters, .framer, .protect, .fresh] s (lofCleared x0 s) := by
  unfold lofCleared
  repeat' first
    | with_reducible exact OnlyChanges.refl _ _
    | with_reducible assumption
    | with_reducible apply OnlyChanges.ite
    | with_reducible refine OnlyChanges.cond (fun _ => ?_) ?_
    | with_reducible apply putDefect_frame
    | ((with_reducible refine Part.nested ?_); rfl)
    | ((with_reducible refine Part.held ?_); rfl)
    | split
    | dsimp only
    | dsimp only [id]
theorem lofCleared_frame {qs : List Part} {s t : State} (x0 : Nat) (a : OnlyChanges qs s t) (h : ([.sill, .control, .counters, .framer, .protect, .fresh] : List Part).all (fun p => qs.contains p) = true) :
    OnlyChanges qs s (lofCleared x0 t) := OnlyChanges.after (lofCleared_only x0 t) a h

theorem oomDeclared_only (x0 : Nat) (s : State) :
    OnlyChanges [.sill, .control, .counters, .framer, .protect, .fresh] s (oomDeclared x0 s) := by
  unfold oomDeclared
  repeat' first
    | with_reducible exact OnlyChanges.refl _ _
    | with_reducible assumption
    | with_reducible apply OnlyChanges.ite
    | with_reducible refine OnlyChanges.cond (fun _ => ?_) ?_
    | with_reducible apply putDefect_frame
    | ((with_reducible refine Part.nested ?_); rfl)
    | ((with_reducible refine Part.held ?_); rfl)
    | split
    | dsimp only
    | dsimp only [id]
theorem oomDeclared_frame {qs : List Part} {s t : State} (x0 : Nat) (a : OnlyChanges qs s t) (h : ([.sill, .control, .counters, .framer, .protect, .fresh] : List Part).all (fun p => qs.contains p) = true) :
    OnlyChanges qs s (oomDeclared x0 t) := OnlyChanges.after (oomDeclared_only x0 t) a h

theorem oomCleared_only (x0 : Nat) (s : State) :
    OnlyChanges [.sill, .control, .counters, .framer, .protect, .fresh] s (oomCleared x0 s) := by
  unfold oomCleared
  repeat' first
    | with_reducible exact OnlyChanges.refl _ _
    | with_reducible assumption
    | with_reducible apply OnlyChanges.ite
    | with_reducible refine OnlyChanges.cond (fun _ => ?_) ?_
    | with_reducible apply modFramer_frame
    | with_reducible apply putDefect_frame
    | ((with_reducible refine Part.nested ?_); rfl)
    | ((with_reducible refine Part.held ?_); rfl)
    | split
    | dsimp only
    | dsimp only [id]
theorem oomCleared_frame {qs : List Part} {s t : State} (x0 : Nat) (a : OnlyChanges qs s t) (h : ([.sill, .control, .counters, .framer, .protect, .fresh] : List Part).all (fun p => qs.contains p) = true) :
    OnlyChanges qs s (oomCleared x0 t) := OnlyChanges.after (oomCleared_only x0 t) a h

theorem lomDeclared_only (x0 : Nat) (s : State) :
    OnlyChanges [.sill, .control, .counters, .framer, .protect, .fresh] s (lomDeclared x0 s) := by
  unfold lomDeclared
  repeat' first
    | with_reducible exact OnlyChanges.refl _ _
    | with_reducible assumption
    | with_reducible apply OnlyChanges.ite
    | with_reducible refine OnlyChanges.cond (fun _ => ?_) ?_
    | with_reducible apply putDefect_frame
    | ((with_reducible refine Part.nested ?_); rfl)
    | ((with_reducible refine Part.held ?_); rfl)
    | split
    | dsimp only
    | dsimp only [id]
theorem lomDeclared_frame {qs : List Part} {s t : State} (x0 : Nat) (a : OnlyChanges qs s t) (h : ([.sill, .control, .counters, .framer, .protect, .fresh] : List Part).all (fun p => qs.contains p) = true) :
    OnlyChanges qs s (lomDeclared x0 t) := OnlyChanges.after (lomDeclared_only x0 t) a h

theorem lomCleared_only (x0 : Nat) (s : State) :
    OnlyChanges [.sill, .control, .counters, .framer, .protect, .fresh] s (lomCleared x0 s) := by
  unfold lomCleared
  repeat' first
    | with_reducible exact OnlyChanges.refl _ _
    | with_reducible assumption
    | with_reducible apply OnlyChanges.ite
    | with_reducible refine OnlyChanges.cond (fun _ => ?_) ?_
    | with_reducible apply putDefect_frame
    | ((with_reducible refine Part.nested ?_); rfl)
    | ((with_reducible refine Part.held ?_); rfl)
    | split
    | dsimp only
    | dsimp only [id]
theorem lomCleared_frame {qs : List Part} {s t : State} (x0 : Nat) (a : OnlyChanges qs s t) (h : ([.sill, .control, .counters, .framer, .protect, .fresh] : List Part).all (fun p => qs.contains p) = true) :
    OnlyChanges qs s (lomCleared x0 t) := OnlyChanges.after (lomCleared_only x0 t) a h

theorem defectPersistence_only (x0 : Nat) (bit : Nat) (s : State) :
    OnlyChanges [.sill, .control, .counters, .framer, .protect, .fresh] s (defectPersistence x0 bit s) := by
  unfold defectPersistence
  repeat' first
    | with_reducible exact OnlyChanges.refl _ _
    | with_reducible assumption
    | with_reducible apply OnlyChanges.ite
    | with_reducible refine OnlyChanges.cond (fun _ => ?_) ?_
    | with_reducible apply putDefect_frame
    | ((with_reducible refine Part.nested ?_); rfl)
    | ((with_reducible refine Part.held ?_); rfl)
    | split
    | dsimp only
    | dsimp only [id]
theorem defectPersistence_frame {qs : List Part} {s t : State} (x0 : Nat) (bit : Nat) (a : OnlyChanges qs s t) (h : ([.sill, .control, .counters, .framer, .protect, .fresh] : List Part).all (fun p => qs.contains p) = true) :
    OnlyChanges qs s (defectPersistence x0 bit t) := OnlyChanges.after (defectPersistence_only x0 bit t) a h

theorem apsAccept_only (x0 : Nat) (s : State) :
    OnlyChanges [.sill, .control, .counters, .framer, .protect, .fresh] s (apsAccept x0 s) := by
  unfold apsAccept
  repeat' first
    | with_reducible exact OnlyChanges.refl _ _
    | with_reducible assumption
    | with_reducible apply OnlyChanges.ite
    | with_reducible refine OnlyChanges.cond (fun _ => ?_) ?_
    | with_reducible apply bump_frame
    | with_reducible apply modFramer_frame
    | with_reducible apply putDefect_frame
    | with_reducible apply raise_frame
    | ((with_reducible refine Part.nested ?_); rfl)
    | ((with_reducible refine Part.held ?_); rfl)
    | split
    | dsimp only
    | dsimp only [id]
theorem apsAccept_frame {qs : List Part} {s t : State} (x0 : Nat) (a : OnlyChanges qs s t) (h : ([.sill, .control, .counters, .framer, .protect, .fresh] : List Part).all (fun p => qs.contains p) = true) :
    OnlyChanges qs s (apsAccept x0 t) := OnlyChanges.after (apsAccept_only x0 t) a h

theorem apsInconsistent_only (x0 : Nat) (s : State) :
    OnlyChanges [.sill, .control, .counters, .framer, .protect, .fresh] s (apsInconsistent x0 s) := by
  unfold apsInconsistent
  repeat' first
    | with_reducible exact OnlyChanges.refl _ _
    | with_reducible assumption
    | with_reducible apply OnlyChanges.ite
    | with_reducible refine OnlyChanges.cond (fun _ => ?_) ?_
    | with_reducible apply putDefect_frame
    | ((with_reducible refine Part.nested ?_); rfl)
    | ((with_reducible refine Part.held ?_); rfl)
    | split
    | dsimp only
    | dsimp only [id]
theorem apsInconsistent_frame {qs : List Part} {s t : State} (x0 : Nat) (a : OnlyChanges qs s t) (h : ([.sill, .control, .counters, .framer, .protect, .fresh] : List Part).all (fun p => qs.contains p) = true) :
    OnlyChanges qs s (apsInconsistent x0 t) := OnlyChanges.after (apsInconsistent_only x0 t) a h

theorem ttiAccept_only (x0 : Nat) (s : State) :
    OnlyChanges [.sill, .control, .counters, .framer, .protect, .fresh] s (ttiAccept x0 s) := by
  unfold ttiAccept
  repeat' first
    | with_reducible exact OnlyChanges.refl _ _
    | with_reducible assumption
    | with_reducible apply OnlyChanges.ite
    | with_reducible refine OnlyChanges.cond (fun _ => ?_) ?_
    | with_reducible apply modFramer_frame
    | with_reducible apply putDefect_frame
    | with_reducible apply raise_frame
    | ((with_reducible refine Part.nested ?_); rfl)
    | ((with_reducible refine Part.held ?_); rfl)
    | split
    | dsimp only
    | dsimp only [id]
theorem ttiAccept_frame {qs : List Part} {s t : State} (x0 : Nat) (a : OnlyChanges qs s t) (h : ([.sill, .control, .counters, .framer, .protect, .fresh] : List Part).all (fun p => qs.contains p) = true) :
    OnlyChanges qs s (ttiAccept x0 t) := OnlyChanges.after (ttiAccept_only x0 t) a h

theorem psiAccept_only (x0 : Nat) (s : State) :
    OnlyChanges [.sill, .control, .counters, .framer, .protect, .fresh] s (psiAccept x0 s) := by
  unfold psiAccept
  repeat' first
    | with_reducible exact OnlyChanges.refl _ _
    | with_reducible assumption
    | with_reducible apply OnlyChanges.ite
    | with_reducible refine OnlyChanges.cond (fun _ => ?_) ?_
    | with_reducible apply judgeMsim_frame
    | with_reducible apply modFramer_frame
    | with_reducible apply putDefect_frame
    | ((with_reducible refine Part.nested ?_); rfl)
    | ((with_reducible refine Part.held ?_); rfl)
    | split
    | dsimp only
    | dsimp only [id]
theorem psiAccept_frame {qs : List Part} {s t : State} (x0 : Nat) (a : OnlyChanges qs s t) (h : ([.sill, .control, .counters, .framer, .protect, .fresh] : List Part).all (fun p => qs.contains p) = true) :
    OnlyChanges qs s (psiAccept x0 t) := OnlyChanges.after (psiAccept_only x0 t) a h

theorem passedBytesAccept_only (x0 : Nat) (s : State) :
    OnlyChanges [.framer] s (passedBytesAccept x0 s) := by
  unfold passedBytesAccept
  repeat' first
    | with_reducible exact OnlyChanges.refl _ _
    | with_reducible assumption
    | with_reducible apply OnlyChanges.ite
    | with_reducible refine OnlyChanges.cond (fun _ => ?_) ?_
    | with_reducible apply modFramer_frame
    | ((with_reducible refine Part.nested ?_); rfl)
    | ((with_reducible refine Part.held ?_); rfl)
    | split
    | dsimp only
    | dsimp only [id]
theorem passedBytesAccept_frame {qs : List Part} {s t : State} (x0 : Nat) (a : OnlyChanges qs s t) (h : ([.framer] : List Part).all (fun p => qs.contains p) = true) :
    OnlyChanges qs s (passedBytesAccept x0 t) := OnlyChanges.after (passedBytesAccept_only x0 t) a h

theorem linkTagAccept_only (x0 : Nat) (s : State) :
    OnlyChanges [.sill, .control, .counters, .framer, .protect, .fresh] s (linkTagAccept x0 s) := by
  unfold linkTagAccept
  repeat' first
    | with_reducible exact OnlyChanges.refl _ _
    | with_reducible assumption
    | with_reducible apply OnlyChanges.ite
    | with_reducible refine OnlyChanges.cond (fun _ => ?_) ?_
    | with_reducible apply modFramer_frame
    | with_reducible apply putDefect_frame
    | ((with_reducible refine Part.nested ?_); rfl)
    | ((with_reducible refine Part.held ?_); rfl)
    | split
    | dsimp only
    | dsimp only [id]
theorem linkTagAccept_frame {qs : List Part} {s t : State} (x0 : Nat) (a : OnlyChanges qs s t) (h : ([.sill, .control, .counters, .framer, .protect, .fresh] : List Part).all (fun p => qs.contains p) = true) :
    OnlyChanges qs s (linkTagAccept x0 t) := OnlyChanges.after (linkTagAccept_only x0 t) a h

theorem defectEventGather_only (x0 : Nat) (s : State) :
    OnlyChanges [.sill, .control, .counters, .framer] s (defectEventGather x0 s) := by
  unfold defectEventGather
  repeat' first
    | with_reducible exact OnlyChanges.refl _ _
    | with_reducible assumption
    | with_reducible apply OnlyChanges.ite
    | with_reducible apply modFramer_frame
    | with_reducible apply raise_frame
    | ((with_reducible refine Part.nested ?_); rfl)
    | ((with_reducible refine Part.held ?_); rfl)
    | split
    | dsimp only
    | dsimp only [id]
theorem defectEventGather_frame {qs : List Part} {s t : State} (x0 : Nat) (a : OnlyChanges qs s t) (h : ([.sill, .control, .counters, .framer] : List Part).all (fun p => qs.contains p) = true) :
    OnlyChanges qs s (defectEventGather x0 t) := OnlyChanges.after (defectEventGather_only x0 t) a h

theorem judgeDegrade_only (x0 : Nat) (s : State) :
    OnlyChanges [.sill, .control, .counters, .framer, .protect, .fresh] s (judgeDegrade x0 s) := by
  unfold judgeDegrade
  repeat' first
    | with_reducible exact OnlyChanges.refl _ _
    | with_reducible assumption
    | with_reducible apply OnlyChanges.ite
    | with_reducible apply modFramer_frame
    | with_reducible apply putDefect_frame
    | ((with_reducible refine Part.nested ?_); rfl)
    | ((with_reducible refine Part.held ?_); rfl)
    | split
    | dsimp only
    | dsimp only [id]
theorem judgeDegrade_frame {qs : List Part} {s t : State} (x0 : Nat) (a : OnlyChanges qs s t) (h : ([.sill, .control, .counters, .framer, .protect, .fresh] : List Part).all (fun p => qs.contains p) = true) :
    OnlyChanges qs s (judgeDegrade x0 t) := OnlyChanges.after (judgeDegrade_only x0 t) a h

theorem judgePreDegrade_only (x0 : Nat) (s : State) :
    OnlyChanges [.sill, .control, .counters, .framer, .protect, .fresh] s (judgePreDegrade x0 s) := by
  unfold judgePreDegrade
  repeat' first
    | with_reducible exact OnlyChanges.refl _ _
    | with_reducible assumption
    | with_reducible apply OnlyChanges.ite
    | with_reducible apply modFramer_frame
    | with_reducible apply putDefect_frame
    | ((with_reducible refine Part.nested ?_); rfl)
    | ((with_reducible refine Part.held ?_); rfl)
    | split
    | dsimp only
    | dsimp only [id]
theorem judgePreDegrade_frame {qs : List Part} {s t : State} (x0 : Nat) (a : OnlyChanges qs s t) (h : ([.sill, .control, .counters, .framer, .protect, .fresh] : List Part).all (fun p => qs.contains p) = true) :
    OnlyChanges qs s (judgePreDegrade x0 t) := OnlyChanges.after (judgePreDegrade_only x0 t) a h

theorem degradeOff_only (x0 : Nat) (s : State) :
    OnlyChanges [.sill, .control, .counters, .framer, .protect, .fresh] s (degradeOff x0 s) := by
  unfold degradeOff
  repeat' first
    | with_reducible exact OnlyChanges.refl _ _
    | with_reducible assumption
    | with_reducible apply OnlyChanges.ite
    | with_reducible apply modFramer_frame
    | with_reducible apply putDefect_frame
    | ((with_reducible refine Part.nested ?_); rfl)
    | ((with_reducible refine Part.held ?_); rfl)
    | split
    | dsimp only
    | dsimp only [id]
theorem degradeOff_frame {qs : List Part} {s t : State} (x0 : Nat) (a : OnlyChanges qs s t) (h : ([.sill, .control, .counters, .framer, .protect, .fresh] : List Part).all (fun p => qs.contains p) = true) :
    OnlyChanges qs s (degradeOff x0 t) := OnlyChanges.after (degradeOff_only x0 t) a h

theorem framerBoundary_only (x0 : Nat) (s : State) :
    OnlyChanges [.sill, .control, .counters, .framer, .protect, .fresh] s (framerBoundary x0 s) := by
  unfold framerBoundary
  repeat' first
    | with_reducible exact OnlyChanges.refl _ _
    | with_reducible assumption
    | with_reducible apply OnlyChanges.ite
    | with_reducible apply degradeOff_frame
    | with_reducible apply judgeDegrade_frame
    | with_reducible apply judgePreDegrade_frame
    | with_reducible apply modFramer_frame
    | ((with_reducible refine Part.nested ?_); rfl)
    | ((with_reducible refine Part.held ?_); rfl)
    | split
    | dsimp only
    | dsimp only [id]
theorem framerBoundary_frame {qs : List Part} {s t : State} (x0 : Nat) (a : OnlyChanges qs s t) (h : ([.sill, .control, .counters, .framer, .protect, .fresh] : List Part).all (fun p => qs.contains p) = true) :
    OnlyChanges qs s (framerBoundary x0 t) := OnlyChanges.after (framerBoundary_only x0 t) a h

theorem authBoundary_only (x0 : Nat) (s : State) :
    OnlyChanges [.sill, .control, .counters, .security] s (authBoundary x0 s) := by
  unfold authBoundary
  repeat' first
    | with_reducible exact OnlyChanges.refl _ _
    | with_reducible assumption
    | with_reducible apply OnlyChanges.ite
    | with_reducible apply modChannel_frame
    | with_reducible apply raise_frame
    | ((with_reducible refine Part.nested ?_); rfl)
    | ((with_reducible refine Part.held ?_); rfl)
    | split
    | dsimp only
    | dsimp only [id]
theorem authBoundary_frame {qs : List Part} {s t : State} (x0 : Nat) (a : OnlyChanges qs s t) (h : ([.sill, .control, .counters, .security] : List Part).all (fun p => qs.contains p) = true) :
    OnlyChanges qs s (authBoundary x0 t) := OnlyChanges.after (authBoundary_only x0 t) a h

theorem framerSetTti_only (q : Request) (s : State) :
    ReplyChanges [.framer] s (framerSetTti q s) := by
  unfold framerSetTti
  repeat' first
    | with_reducible exact OnlyChanges.refl _ _
    | with_reducible assumption
    | with_reducible apply ReplyChanges.checked
    | with_reducible apply ReplyChanges.require
    | with_reducible apply ReplyChanges.ite
    | with_reducible apply ReplyChanges.okay
    | with_reducible apply ReplyChanges.okWith
    | with_reducible refine ReplyChanges.okThen ?_ (fun _ => ?_)
    | with_reducible apply ReplyChanges.refuse
    | with_reducible apply ReplyChanges.reject
    | with_reducible refine ReplyChanges.done _ _ ?_ (fun _ => ?_)
    | with_reducible apply ReplyChanges.later
    | with_reducible apply OnlyChanges.ite
    | with_reducible apply modFramer_frame
    | ((with_reducible refine Part.nested ?_); rfl)
    | ((with_reducible refine Part.held ?_); rfl)
    | split
    | dsimp only
    | dsimp only [id]
theorem framerSetTti_frame {qs : List Part} {s t : State} (q : Request) (a : OnlyChanges qs s t) (h : ([.framer] : List Part).all (fun p => qs.contains p) = true) :
    ReplyChanges qs s (framerSetTti q t) := ReplyChanges.after (framerSetTti_only q t) a h

theorem framerSetDegrade_only (q : Request) (s : State) :
    ReplyChanges [.framer] s (framerSetDegrade q s) := by
  unfold framerSetDegrade
  repeat' first
    | with_reducible exact OnlyChanges.refl _ _
    | with_reducible assumption
    | with_reducible apply ReplyChanges.checked
    | with_reducible apply ReplyChanges.require
    | with_reducible apply ReplyChanges.ite
    | with_reducible apply ReplyChanges.okay
    | with_reducible apply ReplyChanges.okWith
    | with_reducible refine ReplyChanges.okThen ?_ (fun _ => ?_)
    | with_reducible apply ReplyChanges.refuse
    | with_reducible apply ReplyChanges.reject
    | with_reducible refine ReplyChanges.done _ _ ?_ (fun _ => ?_)
    | with_reducible apply ReplyChanges.later
    | with_reducible apply OnlyChanges.ite
    | with_reducible apply modFramer_frame
    | ((with_reducible refine Part.nested ?_); rfl)
    | ((with_reducible refine Part.held ?_); rfl)
    | split
    | dsimp only
    | dsimp only [id]
theorem framerSetDegrade_frame {qs : List Part} {s t : State} (q : Request) (a : OnlyChanges qs s t) (h : ([.framer] : List Part).all (fun p => qs.contains p) = true) :
    ReplyChanges qs s (framerSetDegrade q t) := ReplyChanges.after (framerSetDegrade_only q t) a h

theorem framerSetAps_only (q : Request) (s : State) :
    ReplyChanges [.framer] s (framerSetAps q s) := by
  unfold framerSetAps
  repeat' first
    | with_reducible exact OnlyChanges.refl _ _
    | with_reducible assumption
    | with_reducible apply ReplyChanges.checked
    | with_reducible apply ReplyChanges.require
    | with_reducible apply ReplyChanges.ite
    | with_reducible apply ReplyChanges.okay
    | with_reducible apply ReplyChanges.okWith
    | with_reducible refine ReplyChanges.okThen ?_ (fun _ => ?_)
    | with_reducible apply ReplyChanges.refuse
    | with_reducible apply ReplyChanges.reject
    | with_reducible refine ReplyChanges.done _ _ ?_ (fun _ => ?_)
    | with_reducible apply ReplyChanges.later
    | with_reducible apply OnlyChanges.ite
    | with_reducible apply modFramer_frame
    | ((with_reducible refine Part.nested ?_); rfl)
    | ((with_reducible refine Part.held ?_); rfl)
    | split
    | dsimp only
    | dsimp only [id]
theorem framerSetAps_frame {qs : List Part} {s t : State} (q : Request) (a : OnlyChanges qs s t) (h : ([.framer] : List Part).all (fun p => qs.contains p) = true) :
    ReplyChanges qs s (framerSetAps q t) := ReplyChanges.after (framerSetAps_only q t) a h

theorem framerSetOverhead_only (q : Request) (s : State) :
    ReplyChanges [.framer] s (framerSetOverhead q s) := by
  unfold framerSetOverhead
  repeat' first
    | with_reducible exact OnlyChanges.refl _ _
    | with_reducible assumption
    | with_reducible apply ReplyChanges.checked
    | with_reducible apply ReplyChanges.require
    | with_reducible apply ReplyChanges.ite
    | with_reducible apply ReplyChanges.okay
    | with_reducible apply ReplyChanges.okWith
    | with_reducible refine ReplyChanges.okThen ?_ (fun _ => ?_)
    | with_reducible apply ReplyChanges.refuse
    | with_reducible apply ReplyChanges.reject
    | with_reducible refine ReplyChanges.done _ _ ?_ (fun _ => ?_)
    | with_reducible apply ReplyChanges.later
    | with_reducible apply OnlyChanges.ite
    | with_reducible apply modFramer_frame
    | ((with_reducible refine Part.nested ?_); rfl)
    | ((with_reducible refine Part.held ?_); rfl)
    | split
    | dsimp only
    | dsimp only [id]
theorem framerSetOverhead_frame {qs : List Part} {s t : State} (q : Request) (a : OnlyChanges qs s t) (h : ([.framer] : List Part).all (fun p => qs.contains p) = true) :
    ReplyChanges qs s (framerSetOverhead q t) := ReplyChanges.after (framerSetOverhead_only q t) a h

theorem framerSetMaint_only (q : Request) (s : State) :
    ReplyChanges [.framer] s (framerSetMaint q s) := by
  unfold framerSetMaint
  repeat' first
    | with_reducible exact OnlyChanges.refl _ _
    | with_reducible assumption
    | with_reducible apply ReplyChanges.checked
    | with_reducible apply ReplyChanges.require
    | with_reducible apply ReplyChanges.ite
    | with_reducible apply ReplyChanges.okay
    | with_reducible apply ReplyChanges.okWith
    | with_reducible refine ReplyChanges.okThen ?_ (fun _ => ?_)
    | with_reducible apply ReplyChanges.refuse
    | with_reducible apply ReplyChanges.reject
    | with_reducible refine ReplyChanges.done _ _ ?_ (fun _ => ?_)
    | with_reducible apply ReplyChanges.later
    | with_reducible apply OnlyChanges.ite
    | with_reducible apply modFramer_frame
    | ((with_reducible refine Part.nested ?_); rfl)
    | ((with_reducible refine Part.held ?_); rfl)
    | split
    | dsimp only
    | dsimp only [id]
theorem framerSetMaint_frame {qs : List Part} {s t : State} (q : Request) (a : OnlyChanges qs s t) (h : ([.framer] : List Part).all (fun p => qs.contains p) = true) :
    ReplyChanges qs s (framerSetMaint q t) := ReplyChanges.after (framerSetMaint_only q t) a h

theorem framerGetStatus_only (q : Request) (s : State) :
    ReplyChanges [] s (framerGetStatus q s) := by
  unfold framerGetStatus
  repeat' first
    | with_reducible exact OnlyChanges.refl _ _
    | with_reducible assumption
    | with_reducible apply ReplyChanges.checked
    | with_reducible apply ReplyChanges.require
    | with_reducible apply ReplyChanges.ite
    | with_reducible apply ReplyChanges.okay
    | with_reducible apply ReplyChanges.okWith
    | with_reducible refine ReplyChanges.okThen ?_ (fun _ => ?_)
    | with_reducible apply ReplyChanges.refuse
    | with_reducible apply ReplyChanges.reject
    | with_reducible refine ReplyChanges.done _ _ ?_ (fun _ => ?_)
    | with_reducible apply ReplyChanges.later
    | with_reducible apply OnlyChanges.ite
    | ((with_reducible refine Part.nested ?_); rfl)
    | ((with_reducible refine Part.held ?_); rfl)
    | split
    | dsimp only
    | dsimp only [id]
theorem framerGetStatus_frame {qs : List Part} {s t : State} (q : Request) (a : OnlyChanges qs s t) (h : ([] : List Part).all (fun p => qs.contains p) = true) :
    ReplyChanges qs s (framerGetStatus q t) := ReplyChanges.after (framerGetStatus_only q t) a h

theorem framerGetOverhead_only (q : Request) (s : State) :
    ReplyChanges [] s (framerGetOverhead q s) := by
  unfold framerGetOverhead
  repeat' first
    | with_reducible exact OnlyChanges.refl _ _
    | with_reducible assumption
    | with_reducible apply ReplyChanges.checked
    | with_reducible apply ReplyChanges.require
    | with_reducible apply ReplyChanges.ite
    | with_reducible apply ReplyChanges.okay
    | with_reducible apply ReplyChanges.okWith
    | with_reducible refine ReplyChanges.okThen ?_ (fun _ => ?_)
    | with_reducible apply ReplyChanges.refuse
    | with_reducible apply ReplyChanges.reject
    | with_reducible refine ReplyChanges.done _ _ ?_ (fun _ => ?_)
    | with_reducible apply ReplyChanges.later
    | with_reducible apply OnlyChanges.ite
    | ((with_reducible refine Part.nested ?_); rfl)
    | ((with_reducible refine Part.held ?_); rfl)
    | split
    | dsimp only
    | dsimp only [id]
theorem framerGetOverhead_frame {qs : List Part} {s t : State} (q : Request) (a : OnlyChanges qs s t) (h : ([] : List Part).all (fun p => qs.contains p) = true) :
    ReplyChanges qs s (framerGetOverhead q t) := ReplyChanges.after (framerGetOverhead_only q t) a h

theorem framerGetCounts_only (q : Request) (s : State) :
    ReplyChanges [] s (framerGetCounts q s) := by
  unfold framerGetCounts
  repeat' first
    | with_reducible exact OnlyChanges.refl _ _
    | with_reducible assumption
    | with_reducible apply ReplyChanges.checked
    | with_reducible apply ReplyChanges.require
    | with_reducible apply ReplyChanges.ite
    | with_reducible apply ReplyChanges.okay
    | with_reducible apply ReplyChanges.okWith
    | with_reducible refine ReplyChanges.okThen ?_ (fun _ => ?_)
    | with_reducible apply ReplyChanges.refuse
    | with_reducible apply ReplyChanges.reject
    | with_reducible refine ReplyChanges.done _ _ ?_ (fun _ => ?_)
    | with_reducible apply ReplyChanges.later
    | with_reducible apply OnlyChanges.ite
    | ((with_reducible refine Part.nested ?_); rfl)
    | ((with_reducible refine Part.held ?_); rfl)
    | split
    | dsimp only
    | dsimp only [id]
theorem framerGetCounts_frame {qs : List Part} {s t : State} (q : Request) (a : OnlyChanges qs s t) (h : ([] : List Part).all (fun p => qs.contains p) = true) :
    ReplyChanges qs s (framerGetCounts q t) := ReplyChanges.after (framerGetCounts_only q t) a h

end Sys2Proof.Machine
end

