-- ==== Sys2Proof/Laws/FrameMemoryOps.lean ====
section
/-! SUPPORT. What each operation of MemoryOps.lean may change. -/

-- One theorem after another: with a thread for each, the package as one text outgrows the checker's memory limit.
set_option Elab.async false

namespace Sys2Proof.Machine

theorem modMemory_only (f : Memory → Memory) (s : State) :
    OnlyChanges [.memory] s (modMemory f s) := by
  unfold modMemory
  repeat' first
    | with_reducible exact OnlyChanges.refl _ _
    | with_reducible assumption
    | with_reducible apply OnlyChanges.ite
    | ((with_reducible refine Part.nested ?_); rfl)
    | ((with_reducible refine Part.held ?_); rfl)
    | split
    | dsimp only
    | dsimp only [id]
    | with_reducible apply set_memory
theorem modMemory_frame {qs : List Part} {s t : State} (f : Memory → Memory) (a : OnlyChanges qs s t) (h : ([.memory] : List Part).all (fun p => qs.contains p) = true) :
    OnlyChanges qs s (modMemory f t) := OnlyChanges.after (modMemory_only f t) a h

theorem modStack_only (k : Nat) (f : Stack → Stack) (s : State) :
    OnlyChanges [.memory] s (modStack k f s) := by
  unfold modStack
  repeat' first
    | with_reducible exact OnlyChanges.refl _ _
    | with_reducible assumption
    | with_reducible apply OnlyChanges.ite
    | with_reducible apply modMemory_frame
    | ((with_reducible refine Part.nested ?_); rfl)
    | ((with_reducible refine Part.held ?_); rfl)
    | split
    | dsimp only
    | dsimp only [id]
theorem modStack_frame {qs : List Part} {s t : State} (k : Nat) (f : Stack → Stack) (a : OnlyChanges qs s t) (h : ([.memory] : List Part).all (fun p => qs.contains p) = true) :
    OnlyChanges qs s (modStack k f t) := OnlyChanges.after (modStack_only k f t) a h

theorem logFlags_only (k : Nat) (w : Nat) (s : State) :
    PairChanges [.fresh] s (logFlags k w s) := by
  unfold logFlags
  repeat' first
    | with_reducible exact OnlyChanges.refl _ _
    | with_reducible assumption
    | with_reducible apply PairChanges.ite
    | with_reducible apply OnlyChanges.ite
    | with_reducible apply drawBelow_frame
    | with_reducible refine drawBelow_snd (by assumption) ?_ ?_
    | with_reducible apply drawBelow_pair
    | ((with_reducible refine Part.nested ?_); rfl)
    | ((with_reducible refine Part.held ?_); rfl)
    | split
    | dsimp only
    | dsimp only [id]
    | with_reducible apply PairChanges.mk
theorem logFlags_frame {qs : List Part} {s t : State} (k : Nat) (w : Nat) (a : OnlyChanges qs s t) (h : ([.fresh] : List Part).all (fun p => qs.contains p) = true) :
    OnlyChanges qs s (logFlags k w t).2 := OnlyChanges.after (logFlags_only k w t) a h
theorem logFlags_pair {qs : List Part} {s t : State} (k : Nat) (w : Nat) (a : OnlyChanges qs s t) (h : ([.fresh] : List Part).all (fun p => qs.contains p) = true) :
    PairChanges qs s (logFlags k w t) := OnlyChanges.after (logFlags_only k w t) a h
theorem logFlags_snd {qs : List Part} {s t u : State} {k : Nat} {w : Nat} {y : _} (e : (logFlags k w t) = (y, u)) (a : OnlyChanges qs s t) (h : ([.fresh] : List Part).all (fun p => qs.contains p) = true) :
    OnlyChanges qs s u := PairChanges.snd (logFlags_only k w t) e a h

theorem memLog_only (k : Nat) (kind : Nat) (w : Nat) (s : State) :
    OnlyChanges [.memory, .fresh] s (memLog k kind w s) := by
  unfold memLog
  repeat' first
    | with_reducible exact OnlyChanges.refl _ _
    | with_reducible assumption
    | with_reducible apply OnlyChanges.ite
    | with_reducible apply logFlags_frame
    | with_reducible refine logFlags_snd (by assumption) ?_ ?_
    | with_reducible apply modStack_frame
    | ((with_reducible refine Part.nested ?_); rfl)
    | ((with_reducible refine Part.held ?_); rfl)
    | split
    | dsimp only
    | dsimp only [id]
theorem memLog_frame {qs : List Part} {s t : State} (k : Nat) (kind : Nat) (w : Nat) (a : OnlyChanges qs s t) (h : ([.memory, .fresh] : List Part).all (fun p => qs.contains p) = true) :
    OnlyChanges qs s (memLog k kind w t) := OnlyChanges.after (memLog_only k kind w t) a h

theorem ceRate_only (k : Nat) (s : State) :
    OnlyChanges [.sill, .control, .counters, .memory] s (ceRate k s) := by
  unfold ceRate
  repeat' first
    | with_reducible exact OnlyChanges.refl _ _
    | with_reducible assumption
    | with_reducible apply OnlyChanges.ite
    | with_reducible apply modStack_frame
    | with_reducible apply raise_frame
    | ((with_reducible refine Part.nested ?_); rfl)
    | ((with_reducible refine Part.held ?_); rfl)
    | split
    | dsimp only
    | dsimp only [id]
theorem ceRate_frame {qs : List Part} {s t : State} (k : Nat) (a : OnlyChanges qs s t) (h : ([.sill, .control, .counters, .memory] : List Part).all (fun p => qs.contains p) = true) :
    OnlyChanges qs s (ceRate k t) := OnlyChanges.after (ceRate_only k t) a h

theorem corrected_only (k : Nat) (s : State) :
    OnlyChanges [.sill, .control, .counters, .memory] s (corrected k s) := by
  unfold corrected
  repeat' first
    | with_reducible exact OnlyChanges.refl _ _
    | with_reducible assumption
    | with_reducible apply OnlyChanges.ite
    | with_reducible apply bump_frame
    | with_reducible apply ceRate_frame
    | with_reducible apply modStack_frame
    | ((with_reducible refine Part.nested ?_); rfl)
    | ((with_reducible refine Part.held ?_); rfl)
    | split
    | dsimp only
    | dsimp only [id]
theorem corrected_frame {qs : List Part} {s t : State} (k : Nat) (a : OnlyChanges qs s t) (h : ([.sill, .control, .counters, .memory] : List Part).all (fun p => qs.contains p) = true) :
    OnlyChanges qs s (corrected k t) := OnlyChanges.after (corrected_only k t) a h

theorem writeWords_only (k : Nat) (w : Nat) (ws : List (BitVec 128)) (s : State) :
    OnlyChanges [.counters, .memory] s (writeWords k w ws s) := by
  unfold writeWords
  repeat' first
    | with_reducible exact OnlyChanges.refl _ _
    | with_reducible assumption
    | with_reducible apply OnlyChanges.ite
    | with_reducible apply bump_frame
    | with_reducible apply modStack_frame
    | ((with_reducible refine Part.nested ?_); rfl)
    | ((with_reducible refine Part.held ?_); rfl)
    | split
    | dsimp only
    | dsimp only [id]
theorem writeWords_frame {qs : List Part} {s t : State} (k : Nat) (w : Nat) (ws : List (BitVec 128)) (a : OnlyChanges qs s t) (h : ([.counters, .memory] : List Part).all (fun p => qs.contains p) = true) :
    OnlyChanges qs s (writeWords k w ws t) := OnlyChanges.after (writeWords_only k w ws t) a h

theorem writePoison_only (k : Nat) (w : Nat) (s : State) :
    OnlyChanges [.counters, .memory] s (writePoison k w s) := by
  unfold writePoison
  repeat' first
    | with_reducible exact OnlyChanges.refl _ _
    | with_reducible assumption
    | with_reducible apply OnlyChanges.ite
    | with_reducible apply bump_frame
    | with_reducible apply modStack_frame
    | ((with_reducible refine Part.nested ?_); rfl)
    | ((with_reducible refine Part.held ?_); rfl)
    | split
    | dsimp only
    | dsimp only [id]
theorem writePoison_frame {qs : List Part} {s t : State} (k : Nat) (w : Nat) (a : OnlyChanges qs s t) (h : ([.counters, .memory] : List Part).all (fun p => qs.contains p) = true) :
    OnlyChanges qs s (writePoison k w t) := OnlyChanges.after (writePoison_only k w t) a h

theorem readWord_only (k : Nat) (w : Nat) (odd : Option WordSeen) (s : State) :
    PairChanges [.sill, .control, .counters, .memory] s (readWord k w odd s) := by
  unfold readWord
  repeat' first
    | with_reducible exact OnlyChanges.refl _ _
    | with_reducible assumption
    | with_reducible apply PairChanges.ite
    | with_reducible apply OnlyChanges.ite
    | with_reducible apply bump_frame
    | with_reducible apply corrected_frame
    | ((with_reducible refine Part.nested ?_); rfl)
    | ((with_reducible refine Part.held ?_); rfl)
    | split
    | dsimp only
    | dsimp only [id]
    | with_reducible apply PairChanges.mk
theorem readWord_frame {qs : List Part} {s t : State} (k : Nat) (w : Nat) (odd : Option WordSeen) (a : OnlyChanges qs s t) (h : ([.sill, .control, .counters, .memory] : List Part).all (fun p => qs.contains p) = true) :
    OnlyChanges qs s (readWord k w odd t).2 := OnlyChanges.after (readWord_only k w odd t) a h
theorem readWord_pair {qs : List Part} {s t : State} (k : Nat) (w : Nat) (odd : Option WordSeen) (a : OnlyChanges qs s t) (h : ([.sill, .control, .counters, .memory] : List Part).all (fun p => qs.contains p) = true) :
    PairChanges qs s (readWord k w odd t) := OnlyChanges.after (readWord_only k w odd t) a h
theorem readWord_snd {qs : List Part} {s t u : State} {k : Nat} {w : Nat} {odd : Option WordSeen} {y : _} (e : (readWord k w odd t) = (y, u)) (a : OnlyChanges qs s t) (h : ([.sill, .control, .counters, .memory] : List Part).all (fun p => qs.contains p) = true) :
    OnlyChanges qs s u := PairChanges.snd (readWord_only k w odd t) e a h

theorem consumed_only (k : Nat) (s : State) :
    OnlyChanges [.sill, .counters] s (consumed k s) := by
  unfold consumed
  repeat' first
    | with_reducible exact OnlyChanges.refl _ _
    | with_reducible assumption
    | with_reducible apply OnlyChanges.ite
    | with_reducible apply bump_frame
    | with_reducible apply modSill_frame
    | ((with_reducible refine Part.nested ?_); rfl)
    | ((with_reducible refine Part.held ?_); rfl)
    | split
    | dsimp only
    | dsimp only [id]
theorem consumed_frame {qs : List Part} {s t : State} (k : Nat) (a : OnlyChanges qs s t) (h : ([.sill, .counters] : List Part).all (fun p => qs.contains p) = true) :
    OnlyChanges qs s (consumed k t) := OnlyChanges.after (consumed_only k t) a h

theorem flushEntry_only (k : Nat) (e : ClampEntry) (odd : Option WordSeen) (s : State) :
    OnlyChanges [.sill, .control, .counters, .memory, .fresh] s (flushEntry k e odd s) := by
  unfold flushEntry
  repeat' first
    | with_reducible exact OnlyChanges.refl _ _
    | with_reducible assumption
    | with_reducible apply OnlyChanges.ite
    | with_reducible apply bump_frame
    | with_reducible apply consumed_frame
    | with_reducible apply memLog_frame
    | with_reducible apply readWord_frame
    | with_reducible refine readWord_snd (by assumption) ?_ ?_
    | with_reducible apply writePoison_frame
    | with_reducible apply writeWords_frame
    | ((with_reducible refine Part.nested ?_); rfl)
    | ((with_reducible refine Part.held ?_); rfl)
    | split
    | dsimp only
    | dsimp only [id]
theorem flushEntry_frame {qs : List Part} {s t : State} (k : Nat) (e : ClampEntry) (odd : Option WordSeen) (a : OnlyChanges qs s t) (h : ([.sill, .control, .counters, .memory, .fresh] : List Part).all (fun p => qs.contains p) = true) :
    OnlyChanges qs s (flushEntry k e odd t) := OnlyChanges.after (flushEntry_only k e odd t) a h

theorem flushWord_only (k : Nat) (w : Nat) (odd : Option WordSeen) (s : State) :
    OnlyChanges [.sill, .control, .counters, .memory, .fresh] s (flushWord k w odd s) := by
  unfold flushWord
  repeat' first
    | with_reducible exact OnlyChanges.refl _ _
    | with_reducible assumption
    | with_reducible apply OnlyChanges.ite
    | with_reducible apply flushEntry_frame
    | with_reducible apply modStack_frame
    | ((with_reducible refine Part.nested ?_); rfl)
    | ((with_reducible refine Part.held ?_); rfl)
    | split
    | dsimp only
    | dsimp only [id]
theorem flushWord_frame {qs : List Part} {s t : State} (k : Nat) (w : Nat) (odd : Option WordSeen) (a : OnlyChanges qs s t) (h : ([.sill, .control, .counters, .memory, .fresh] : List Part).all (fun p => qs.contains p) = true) :
    OnlyChanges qs s (flushWord k w odd t) := OnlyChanges.after (flushWord_only k w odd t) a h

theorem flushOldest_only (k : Nat) (odd : Option WordSeen) (s : State) :
    OnlyChanges [.sill, .control, .counters, .memory, .fresh] s (flushOldest k odd s) := by
  unfold flushOldest
  repeat' first
    | with_reducible exact OnlyChanges.refl _ _
    | with_reducible assumption
    | with_reducible apply OnlyChanges.ite
    | with_reducible apply flushEntry_frame
    | with_reducible apply modStack_frame
    | ((with_reducible refine Part.nested ?_); rfl)
    | ((with_reducible refine Part.held ?_); rfl)
    | split
    | dsimp only
    | dsimp only [id]
theorem flushOldest_frame {qs : List Part} {s t : State} (k : Nat) (odd : Option WordSeen) (a : OnlyChanges qs s t) (h : ([.sill, .control, .counters, .memory, .fresh] : List Part).all (fun p => qs.contains p) = true) :
    OnlyChanges qs s (flushOldest k odd t) := OnlyChanges.after (flushOldest_only k odd t) a h

theorem flushClamp_only (k : Nat) (odd : List OddWord) (s : State) :
    OnlyChanges [.sill, .control, .counters, .memory, .fresh] s (flushClamp k odd s) := by
  unfold flushClamp
  repeat' first
    | with_reducible exact OnlyChanges.refl _ _
    | with_reducible assumption
    | with_reducible apply OnlyChanges.ite
    | with_reducible refine OnlyChanges.each (fun _ _ => ?_) _ ?_
    | with_reducible apply flushWord_frame
    | ((with_reducible refine Part.nested ?_); rfl)
    | ((with_reducible refine Part.held ?_); rfl)
    | split
    | dsimp only
    | dsimp only [id]
theorem flushClamp_frame {qs : List Part} {s t : State} (k : Nat) (odd : List OddWord) (a : OnlyChanges qs s t) (h : ([.sill, .control, .counters, .memory, .fresh] : List Part).all (fun p => qs.contains p) = true) :
    OnlyChanges qs s (flushClamp k odd t) := OnlyChanges.after (flushClamp_only k odd t) a h

theorem clampWrite_only (k : Nat) (w : Nat) (mask : Nat) (bytes : List Byte) (odd : List OddWord) (s : State) :
    OnlyChanges [.sill, .control, .counters, .memory, .fresh] s (clampWrite k w mask bytes odd s) := by
  unfold clampWrite
  repeat' first
    | with_reducible exact OnlyChanges.refl _ _
    | with_reducible assumption
    | with_reducible apply OnlyChanges.ite
    | with_reducible apply flushOldest_frame
    | with_reducible apply flushWord_frame
    | with_reducible apply modStack_frame
    | ((with_reducible refine Part.nested ?_); rfl)
    | ((with_reducible refine Part.held ?_); rfl)
    | split
    | dsimp only
    | dsimp only [id]
theorem clampWrite_frame {qs : List Part} {s t : State} (k : Nat) (w : Nat) (mask : Nat) (bytes : List Byte) (odd : List OddWord) (a : OnlyChanges qs s t) (h : ([.sill, .control, .counters, .memory, .fresh] : List Part).all (fun p => qs.contains p) = true) :
    OnlyChanges qs s (clampWrite k w mask bytes odd t) := OnlyChanges.after (clampWrite_only k w mask bytes odd t) a h

theorem demandRead_only (k : Nat) (w : Nat) (odd : List OddWord) (s : State) :
    PairChanges [.sill, .control, .counters, .memory, .fresh] s (demandRead k w odd s) := by
  unfold demandRead
  repeat' first
    | with_reducible exact OnlyChanges.refl _ _
    | with_reducible assumption
    | with_reducible apply PairChanges.ite
    | with_reducible apply OnlyChanges.ite
    | with_reducible apply bump_frame
    | with_reducible apply consumed_frame
    | with_reducible apply flushWord_frame
    | with_reducible apply memLog_frame
    | with_reducible apply readWord_frame
    | with_reducible refine readWord_snd (by assumption) ?_ ?_
    | with_reducible apply readWord_pair
    | ((with_reducible refine Part.nested ?_); rfl)
    | ((with_reducible refine Part.held ?_); rfl)
    | split
    | dsimp only
    | dsimp only [id]
    | with_reducible apply PairChanges.mk
theorem demandRead_frame {qs : List Part} {s t : State} (k : Nat) (w : Nat) (odd : List OddWord) (a : OnlyChanges qs s t) (h : ([.sill, .control, .counters, .memory, .fresh] : List Part).all (fun p => qs.contains p) = true) :
    OnlyChanges qs s (demandRead k w odd t).2 := OnlyChanges.after (demandRead_only k w odd t) a h
theorem demandRead_pair {qs : List Part} {s t : State} (k : Nat) (w : Nat) (odd : List OddWord) (a : OnlyChanges qs s t) (h : ([.sill, .control, .counters, .memory, .fresh] : List Part).all (fun p => qs.contains p) = true) :
    PairChanges qs s (demandRead k w odd t) := OnlyChanges.after (demandRead_only k w odd t) a h
theorem demandRead_snd {qs : List Part} {s t u : State} {k : Nat} {w : Nat} {odd : List OddWord} {y : _} (e : (demandRead k w odd t) = (y, u)) (a : OnlyChanges qs s t) (h : ([.sill, .control, .counters, .memory, .fresh] : List Part).all (fun p => qs.contains p) = true) :
    OnlyChanges qs s u := PairChanges.snd (demandRead_only k w odd t) e a h

theorem takeCell_some {s u : State} {p : Nat} (e : takeCell s = some (p, u)) : OnlyChanges [.counters, .memory, .fresh] s u := by
  unfold takeCell at e
  split at e
  · cases e
  · simp only [Option.some.injEq, Prod.mk.injEq] at e
    obtain ⟨-, rfl⟩ := e
    exact bump_frame _ _ _ _ (modMemory_frame _ (modStack_frame _ _ (drawBelow_frame _ (OnlyChanges.refl _ _) rfl) rfl) rfl) rfl

theorem takeCells_only : ∀ (x0 : Nat) (s : State), PairChanges [.counters, .memory, .fresh] s (takeCells x0 s)
  | 0, s => OnlyChanges.refl _ s
  | n + 1, s => by
    unfold takeCells
    split
    · exact OnlyChanges.refl _ s
    · rename_i e
      exact (takeCell_some e).trans (takeCells_only n _)

theorem takeCells_frame {qs : List Part} {x1 t : State} (x0 : Nat) (a : OnlyChanges qs x1 t) (h : ([.counters, .memory, .fresh] : List Part).all (fun p => qs.contains p) = true) :
    OnlyChanges qs x1 (takeCells x0 t).2 := OnlyChanges.after (takeCells_only x0 t) a h
theorem takeCells_pair {qs : List Part} {x1 t : State} (x0 : Nat) (a : OnlyChanges qs x1 t) (h : ([.counters, .memory, .fresh] : List Part).all (fun p => qs.contains p) = true) :
    PairChanges qs x1 (takeCells x0 t) := OnlyChanges.after (takeCells_only x0 t) a h
theorem takeCells_snd {qs : List Part} {x1 t u : State} {x0 : Nat} {y : _} (e : (takeCells x0 t) = (y, u)) (a : OnlyChanges qs x1 t) (h : ([.counters, .memory, .fresh] : List Part).all (fun p => qs.contains p) = true) :
    OnlyChanges qs x1 u := PairChanges.snd (takeCells_only x0 t) e a h

theorem freeCell_only (p : Nat) (s : State) :
    OnlyChanges [.counters, .memory] s (freeCell p s) := by
  unfold freeCell
  repeat' first
    | with_reducible exact OnlyChanges.refl _ _
    | with_reducible assumption
    | with_reducible apply OnlyChanges.ite
    | with_reducible apply bump_frame
    | with_reducible apply modStack_frame
    | ((with_reducible refine Part.nested ?_); rfl)
    | ((with_reducible refine Part.held ?_); rfl)
    | split
    | dsimp only
    | dsimp only [id]
theorem freeCell_frame {qs : List Part} {s t : State} (p : Nat) (a : OnlyChanges qs s t) (h : ([.counters, .memory] : List Part).all (fun p => qs.contains p) = true) :
    OnlyChanges qs s (freeCell p t) := OnlyChanges.after (freeCell_only p t) a h

theorem traceCell_only (k : Nat) (owner : Nat) (p : Nat) (s : State) :
    OnlyChanges [.counters, .memory, .fresh] s (traceCell k owner p s) := by
  unfold traceCell
  repeat' first
    | with_reducible exact OnlyChanges.refl _ _
    | with_reducible assumption
    | with_reducible apply OnlyChanges.ite
    | with_reducible apply drawNat_frame
    | with_reducible refine drawNat_snd (by assumption) ?_ ?_
    | with_reducible apply modStack_frame
    | with_reducible apply traceItem_frame
    | ((with_reducible refine Part.nested ?_); rfl)
    | ((with_reducible refine Part.held ?_); rfl)
    | split
    | dsimp only
    | dsimp only [id]
theorem traceCell_frame {qs : List Part} {s t : State} (k : Nat) (owner : Nat) (p : Nat) (a : OnlyChanges qs s t) (h : ([.counters, .memory, .fresh] : List Part).all (fun p => qs.contains p) = true) :
    OnlyChanges qs s (traceCell k owner p t) := OnlyChanges.after (traceCell_only k owner p t) a h

theorem writeFrame_only (owner : Nat) (enq : Nat) (data : List Byte) (cells : List Nat) (s : State) :
    OnlyChanges [.counters, .memory, .fresh] s (writeFrame owner enq data cells s) := by
  unfold writeFrame
  repeat' first
    | with_reducible exact OnlyChanges.refl _ _
    | with_reducible assumption
    | with_reducible apply OnlyChanges.ite
    | with_reducible refine OnlyChanges.each (fun _ _ => ?_) _ ?_
    | with_reducible apply traceCell_frame
    | with_reducible apply writeWords_frame
    | ((with_reducible refine Part.nested ?_); rfl)
    | ((with_reducible refine Part.held ?_); rfl)
    | split
    | dsimp only
    | dsimp only [id]
theorem writeFrame_frame {qs : List Part} {s t : State} (owner : Nat) (enq : Nat) (data : List Byte) (cells : List Nat) (a : OnlyChanges qs s t) (h : ([.counters, .memory, .fresh] : List Part).all (fun p => qs.contains p) = true) :
    OnlyChanges qs s (writeFrame owner enq data cells t) := OnlyChanges.after (writeFrame_only owner enq data cells t) a h

theorem readCell_only (p : Nat) (fill : Nat) (odd : List OddWord) (s : State) :
    PairChanges [.sill, .control, .counters, .memory, .fresh] s (readCell p fill odd s) := by
  unfold readCell
  dsimp only
  split
  · exact demandRead_only _ _ _ _
  · refine OnlyChanges.foldl (fun b : Nat × State => b.2) (fun b x => ?_) _ _ (demandRead_only _ _ _ _)
    split
    · exact OnlyChanges.refl _ _
    · exact demandRead_only _ _ _ _

theorem readCell_frame {qs : List Part} {s t : State} (p : Nat) (fill : Nat) (odd : List OddWord) (a : OnlyChanges qs s t) (h : ([.sill, .control, .counters, .memory, .fresh] : List Part).all (fun p => qs.contains p) = true) :
    OnlyChanges qs s (readCell p fill odd t).2 := OnlyChanges.after (readCell_only p fill odd t) a h
theorem readCell_pair {qs : List Part} {s t : State} (p : Nat) (fill : Nat) (odd : List OddWord) (a : OnlyChanges qs s t) (h : ([.sill, .control, .counters, .memory, .fresh] : List Part).all (fun p => qs.contains p) = true) :
    PairChanges qs s (readCell p fill odd t) := OnlyChanges.after (readCell_only p fill odd t) a h
theorem readCell_snd {qs : List Part} {s t u : State} {p : Nat} {fill : Nat} {odd : List OddWord} {y : _} (e : (readCell p fill odd t) = (y, u)) (a : OnlyChanges qs s t) (h : ([.sill, .control, .counters, .memory, .fresh] : List Part).all (fun p => qs.contains p) = true) :
    OnlyChanges qs s u := PairChanges.snd (readCell_only p fill odd t) e a h

theorem readFrame_only (len : Nat) (cells : List Nat) (odd : List OddWord) (s : State) :
    OnlyChanges [.sill, .control, .counters, .memory, .fresh] s (readFrame len cells odd s).2.2 := by
  unfold readFrame
  refine OnlyChanges.foldl (fun b : Nat × Nat × State => b.2.2) (fun b x => ?_) _ _ (OnlyChanges.refl _ _)
  split
  · exact OnlyChanges.refl _ _
  · exact readCell_only _ _ _ _

theorem readFrame_frame {qs : List Part} {s t : State} (len : Nat) (cells : List Nat) (odd : List OddWord) (a : OnlyChanges qs s t) (h : ([.sill, .control, .counters, .memory, .fresh] : List Part).all (fun p => qs.contains p) = true) :
    OnlyChanges qs s (readFrame len cells odd t).2.2 := OnlyChanges.after (readFrame_only len cells odd t) a h

theorem reserveDeskew_only (cells : Nat) (s : State) :
    OnlyChanges [.memory] s (reserveDeskew cells s) := by
  unfold reserveDeskew
  repeat' first
    | with_reducible exact OnlyChanges.refl _ _
    | with_reducible assumption
    | with_reducible apply OnlyChanges.ite
    | with_reducible refine OnlyChanges.each (fun _ _ => ?_) _ ?_
    | with_reducible apply modStack_frame
    | ((with_reducible refine Part.nested ?_); rfl)
    | ((with_reducible refine Part.held ?_); rfl)
    | split
    | dsimp only
    | dsimp only [id]
theorem reserveDeskew_frame {qs : List Part} {s t : State} (cells : Nat) (a : OnlyChanges qs s t) (h : ([.memory] : List Part).all (fun p => qs.contains p) = true) :
    OnlyChanges qs s (reserveDeskew cells t) := OnlyChanges.after (reserveDeskew_only cells t) a h

theorem releaseDeskew_only (cells : Nat) (s : State) :
    OnlyChanges [.memory] s (releaseDeskew cells s) := by
  unfold releaseDeskew
  repeat' first
    | with_reducible exact OnlyChanges.refl _ _
    | with_reducible assumption
    | with_reducible apply OnlyChanges.ite
    | with_reducible refine OnlyChanges.each (fun _ _ => ?_) _ ?_
    | with_reducible apply modStack_frame
    | ((with_reducible refine Part.nested ?_); rfl)
    | ((with_reducible refine Part.held ?_); rfl)
    | split
    | dsimp only
    | dsimp only [id]
theorem releaseDeskew_frame {qs : List Part} {s t : State} (cells : Nat) (a : OnlyChanges qs s t) (h : ([.memory] : List Part).all (fun p => qs.contains p) = true) :
    OnlyChanges qs s (releaseDeskew cells t) := OnlyChanges.after (releaseDeskew_only cells t) a h

theorem zeroReserved_only (k : Nat) (s : State) :
    OnlyChanges [.counters, .memory] s (zeroReserved k s) := by
  unfold zeroReserved
  repeat' first
    | with_reducible exact OnlyChanges.refl _ _
    | with_reducible assumption
    | with_reducible apply OnlyChanges.ite
    | with_reducible apply bump_frame
    | with_reducible apply modStack_frame
    | ((with_reducible refine Part.nested ?_); rfl)
    | ((with_reducible refine Part.held ?_); rfl)
    | split
    | dsimp only
    | dsimp only [id]
theorem zeroReserved_frame {qs : List Part} {s t : State} (k : Nat) (a : OnlyChanges qs s t) (h : ([.counters, .memory] : List Part).all (fun p => qs.contains p) = true) :
    OnlyChanges qs s (zeroReserved k t) := OnlyChanges.after (zeroReserved_only k t) a h

end Sys2Proof.Machine
end

