-- ==== Sys2Proof/Laws/FrameSchedOps.lean ====
section
/-! SUPPORT. What each operation of SchedOps.lean may change. -/

-- One theorem after another: with a thread for each, the package as one text outgrows the checker's memory limit.
set_option Elab.async false

namespace Sys2Proof.Machine

theorem modSched_only (f : Sched → Sched) (s : State) :
    OnlyChanges [.sched] s (modSched f s) := by
  unfold modSched
  repeat' first
    | with_reducible exact OnlyChanges.refl _ _
    | with_reducible assumption
    | with_reducible apply OnlyChanges.ite
    | ((with_reducible refine Part.nested ?_); rfl)
    | ((with_reducible refine Part.held ?_); rfl)
    | split
    | dsimp only
    | dsimp only [id]
    | with_reducible apply set_sched
theorem modSched_frame {qs : List Part} {s t : State} (f : Sched → Sched) (a : OnlyChanges qs s t) (h : ([.sched] : List Part).all (fun p => qs.contains p) = true) :
    OnlyChanges qs s (modSched f t) := OnlyChanges.after (modSched_only f t) a h

theorem modQueue_only (q : Nat) (f : SvcQueue → SvcQueue) (s : State) :
    OnlyChanges [.sched] s (modQueue q f s) := by
  unfold modQueue
  repeat' first
    | with_reducible exact OnlyChanges.refl _ _
    | with_reducible assumption
    | with_reducible apply OnlyChanges.ite
    | with_reducible apply modSched_frame
    | ((with_reducible refine Part.nested ?_); rfl)
    | ((with_reducible refine Part.held ?_); rfl)
    | split
    | dsimp only
    | dsimp only [id]
theorem modQueue_frame {qs : List Part} {s t : State} (q : Nat) (f : SvcQueue → SvcQueue) (a : OnlyChanges qs s t) (h : ([.sched] : List Part).all (fun p => qs.contains p) = true) :
    OnlyChanges qs s (modQueue q f t) := OnlyChanges.after (modQueue_only q f t) a h

theorem modSub_only (i : Nat) (f : SubNode → SubNode) (s : State) :
    OnlyChanges [.sched] s (modSub i f s) := by
  unfold modSub
  repeat' first
    | with_reducible exact OnlyChanges.refl _ _
    | with_reducible assumption
    | with_reducible apply OnlyChanges.ite
    | with_reducible apply modSched_frame
    | ((with_reducible refine Part.nested ?_); rfl)
    | ((with_reducible refine Part.held ?_); rfl)
    | split
    | dsimp only
    | dsimp only [id]
theorem modSub_frame {qs : List Part} {s t : State} (i : Nat) (f : SubNode → SubNode) (a : OnlyChanges qs s t) (h : ([.sched] : List Part).all (fun p => qs.contains p) = true) :
    OnlyChanges qs s (modSub i f t) := OnlyChanges.after (modSub_only i f t) a h

theorem modPort_only (p : Nat) (f : PortNode → PortNode) (s : State) :
    OnlyChanges [.sched] s (modPort p f s) := by
  unfold modPort
  repeat' first
    | with_reducible exact OnlyChanges.refl _ _
    | with_reducible assumption
    | with_reducible apply OnlyChanges.ite
    | with_reducible apply modSched_frame
    | ((with_reducible refine Part.nested ?_); rfl)
    | ((with_reducible refine Part.held ?_); rfl)
    | split
    | dsimp only
    | dsimp only [id]
theorem modPort_frame {qs : List Part} {s t : State} (p : Nat) (f : PortNode → PortNode) (a : OnlyChanges qs s t) (h : ([.sched] : List Part).all (fun p => qs.contains p) = true) :
    OnlyChanges qs s (modPort p f t) := OnlyChanges.after (modPort_only p f t) a h

theorem traceFrame_only (q : Nat) (flags : Nat) (f : StoredFrame) (s : State) :
    OnlyChanges [.counters, .sched, .fresh] s (traceFrame q flags f s) := by
  unfold traceFrame
  repeat' first
    | with_reducible exact OnlyChanges.refl _ _
    | with_reducible assumption
    | with_reducible apply OnlyChanges.ite
    | with_reducible apply modQueue_frame
    | with_reducible apply traceItem_frame
    | ((with_reducible refine Part.nested ?_); rfl)
    | ((with_reducible refine Part.held ?_); rfl)
    | split
    | dsimp only
    | dsimp only [id]
theorem traceFrame_frame {qs : List Part} {s t : State} (q : Nat) (flags : Nat) (f : StoredFrame) (a : OnlyChanges qs s t) (h : ([.counters, .sched, .fresh] : List Part).all (fun p => qs.contains p) = true) :
    OnlyChanges qs s (traceFrame q flags f t) := OnlyChanges.after (traceFrame_only q flags f t) a h

theorem dropHead_only (q : Nat) (ev : Nat) (flags : Nat) (s : State) :
    OnlyChanges [.counters, .sched, .memory, .fresh] s (dropHead q ev flags s) := by
  unfold dropHead
  repeat' first
    | with_reducible exact OnlyChanges.refl _ _
    | with_reducible assumption
    | with_reducible apply OnlyChanges.ite
    | with_reducible refine OnlyChanges.each (fun _ _ => ?_) _ ?_
    | with_reducible apply bump_frame
    | with_reducible apply freeCell_frame
    | with_reducible apply modQueue_frame
    | with_reducible apply traceFrame_frame
    | ((with_reducible refine Part.nested ?_); rfl)
    | ((with_reducible refine Part.held ?_); rfl)
    | split
    | dsimp only
    | dsimp only [id]
theorem dropHead_frame {qs : List Part} {s t : State} (q : Nat) (ev : Nat) (flags : Nat) (a : OnlyChanges qs s t) (h : ([.counters, .sched, .memory, .fresh] : List Part).all (fun p => qs.contains p) = true) :
    OnlyChanges qs s (dropHead q ev flags t) := OnlyChanges.after (dropHead_only q ev flags t) a h

theorem flushQueue_only (q : Nat) (ev : Nat) (s : State) :
    OnlyChanges [.counters, .sched, .memory, .fresh] s (flushQueue q ev s) := by
  unfold flushQueue
  repeat' first
    | with_reducible exact OnlyChanges.refl _ _
    | with_reducible assumption
    | with_reducible apply OnlyChanges.ite
    | with_reducible refine OnlyChanges.each (fun _ _ => ?_) _ ?_
    | with_reducible apply dropHead_frame
    | ((with_reducible refine Part.nested ?_); rfl)
    | ((with_reducible refine Part.held ?_); rfl)
    | split
    | dsimp only
    | dsimp only [id]
theorem flushQueue_frame {qs : List Part} {s t : State} (q : Nat) (ev : Nat) (a : OnlyChanges qs s t) (h : ([.counters, .sched, .memory, .fresh] : List Part).all (fun p => qs.contains p) = true) :
    OnlyChanges qs s (flushQueue q ev t) := OnlyChanges.after (flushQueue_only q ev t) a h

theorem quarantine_only (q : Nat) (k : Nat) (word : Nat) (s : State) :
    OnlyChanges [.sill, .control, .counters, .sched, .memory, .fresh] s (quarantine q k word s) := by
  unfold quarantine
  repeat' first
    | with_reducible exact OnlyChanges.refl _ _
    | with_reducible assumption
    | with_reducible apply OnlyChanges.ite
    | with_reducible refine OnlyChanges.each (fun _ _ => ?_) _ ?_
    | with_reducible apply bump_frame
    | with_reducible apply modQueue_frame
    | with_reducible apply modStack_frame
    | with_reducible apply raise_frame
    | with_reducible apply traceFrame_frame
    | ((with_reducible refine Part.nested ?_); rfl)
    | ((with_reducible refine Part.held ?_); rfl)
    | split
    | dsimp only
    | dsimp only [id]
theorem quarantine_frame {qs : List Part} {s t : State} (q : Nat) (k : Nat) (word : Nat) (a : OnlyChanges qs s t) (h : ([.sill, .control, .counters, .sched, .memory, .fresh] : List Part).all (fun p => qs.contains p) = true) :
    OnlyChanges qs s (quarantine q k word t) := OnlyChanges.after (quarantine_only q k word t) a h

theorem loseChain_only (q : Nat) (k : Nat) (word : Nat) (s : State) :
    OnlyChanges [.sill, .control, .counters, .sched, .memory, .fresh] s (loseChain q k word s) := by
  unfold loseChain
  repeat' first
    | with_reducible exact OnlyChanges.refl _ _
    | with_reducible assumption
    | with_reducible apply OnlyChanges.ite
    | with_reducible apply bump_frame
    | with_reducible apply modQueue_frame
    | with_reducible apply quarantine_frame
    | with_reducible apply traceFrame_frame
    | ((with_reducible refine Part.nested ?_); rfl)
    | ((with_reducible refine Part.held ?_); rfl)
    | split
    | dsimp only
    | dsimp only [id]
theorem loseChain_frame {qs : List Part} {s t : State} (q : Nat) (k : Nat) (word : Nat) (a : OnlyChanges qs s t) (h : ([.sill, .control, .counters, .sched, .memory, .fresh] : List Part).all (fun p => qs.contains p) = true) :
    OnlyChanges qs s (loseChain q k word t) := OnlyChanges.after (loseChain_only q k word t) a h

theorem sendGfp_only (x0 : Nat) (core : List Byte) (area : List Byte) (s : State) :
    OnlyChanges [.client] s (sendGfp x0 core area s) := by
  unfold sendGfp
  repeat' first
    | with_reducible exact OnlyChanges.refl _ _
    | with_reducible assumption
    | with_reducible apply OnlyChanges.ite
    | ((with_reducible refine Part.nested ?_); rfl)
    | ((with_reducible refine Part.held ?_); rfl)
    | split
    | dsimp only
    | dsimp only [id]
    | with_reducible apply set_client
theorem sendGfp_frame {qs : List Part} {s t : State} (x0 : Nat) (core : List Byte) (area : List Byte) (a : OnlyChanges qs s t) (h : ([.client] : List Part).all (fun p => qs.contains p) = true) :
    OnlyChanges qs s (sendGfp x0 core area t) := OnlyChanges.after (sendGfp_only x0 core area t) a h

theorem startFrame_only (p : Nat) (i : Nat) (q : Nat) (rotP : Rotation) (rotI : Rotation) (f : StoredFrame) (s : State) :
    OnlyChanges [.counters, .client, .sched, .memory, .fresh] s (startFrame p i q rotP rotI f s) := by
  unfold startFrame
  repeat' first
    | with_reducible exact OnlyChanges.refl _ _
    | with_reducible assumption
    | with_reducible apply OnlyChanges.ite
    | with_reducible refine OnlyChanges.each (fun _ _ => ?_) _ ?_
    | with_reducible apply bump_frame
    | with_reducible apply drawNat_frame
    | with_reducible refine drawNat_snd (by assumption) ?_ ?_
    | with_reducible apply freeCell_frame
    | with_reducible apply modPort_frame
    | with_reducible apply modQueue_frame
    | with_reducible apply modSub_frame
    | with_reducible apply sendGfp_frame
    | with_reducible apply traceFrame_frame
    | with_reducible apply traceItem_frame
    | ((with_reducible refine Part.nested ?_); rfl)
    | ((with_reducible refine Part.held ?_); rfl)
    | split
    | dsimp only
    | dsimp only [id]
    | with_reducible apply set_client
theorem startFrame_frame {qs : List Part} {s t : State} (p : Nat) (i : Nat) (q : Nat) (rotP : Rotation) (rotI : Rotation) (f : StoredFrame) (a : OnlyChanges qs s t) (h : ([.counters, .client, .sched, .memory, .fresh] : List Part).all (fun p => qs.contains p) = true) :
    OnlyChanges qs s (startFrame p i q rotP rotI f t) := OnlyChanges.after (startFrame_only p i q rotP rotI f t) a h

theorem purgeQueue_only (p : Nat) (q : Nat) (s : State) :
    OnlyChanges [.counters, .sched, .memory, .fresh] s (purgeQueue p q s) := by
  unfold purgeQueue
  repeat' first
    | with_reducible exact OnlyChanges.refl _ _
    | with_reducible assumption
    | with_reducible apply OnlyChanges.ite
    | with_reducible refine OnlyChanges.each (fun _ _ => ?_) _ ?_
    | with_reducible apply dropHead_frame
    | ((with_reducible refine Part.nested ?_); rfl)
    | ((with_reducible refine Part.held ?_); rfl)
    | split
    | dsimp only
    | dsimp only [id]
theorem purgeQueue_frame {qs : List Part} {s t : State} (p : Nat) (q : Nat) (a : OnlyChanges qs s t) (h : ([.counters, .sched, .memory, .fresh] : List Part).all (fun p => qs.contains p) = true) :
    OnlyChanges qs s (purgeQueue p q t) := OnlyChanges.after (purgeQueue_only p q t) a h

theorem purgeHeads_only (p : Nat) (s : State) :
    OnlyChanges [.counters, .sched, .memory, .fresh] s (purgeHeads p s) := by
  unfold purgeHeads
  repeat' first
    | with_reducible exact OnlyChanges.refl _ _
    | with_reducible assumption
    | with_reducible apply OnlyChanges.ite
    | with_reducible refine OnlyChanges.each (fun _ _ => ?_) _ ?_
    | with_reducible apply purgeQueue_frame
    | ((with_reducible refine Part.nested ?_); rfl)
    | ((with_reducible refine Part.held ?_); rfl)
    | split
    | dsimp only
    | dsimp only [id]
theorem purgeHeads_frame {qs : List Part} {s t : State} (p : Nat) (a : OnlyChanges qs s t) (h : ([.counters, .sched, .memory, .fresh] : List Part).all (fun p => qs.contains p) = true) :
    OnlyChanges qs s (purgeHeads p t) := OnlyChanges.after (purgeHeads_only p t) a h

theorem choose_only (p : Nat) (odd : List OddWord) : ∀ (x2 : Nat) (s : State),
    OnlyChanges [.sill, .control, .counters, .client, .sched, .memory, .fresh] s (choose p odd x2 s)
  | 0, s => OnlyChanges.refl _ s
  | n + 1, s => by
    unfold choose
    have h1 : OnlyChanges [.sill, .control, .counters, .client, .sched, .memory, .fresh] s (purgeHeads p s) :=
      purgeHeads_frame p (OnlyChanges.refl _ _) rfl
    dsimp only
    split
    · exact h1
    · split
      · exact h1
      · have h2 := fun f : StoredFrame => readFrame_frame f.len f.cells odd h1 rfl
        split
        · exact startFrame_frame _ _ _ _ _ _ (h2 _) rfl
        · split
          · exact OnlyChanges.trans (loseChain_frame _ _ _ (h2 _) rfl) (choose_only p odd n _)
          · exact OnlyChanges.trans (dropHead_frame _ _ _ (h2 _) rfl) (choose_only p odd n _)

theorem choose_frame {qs : List Part} {x3 t : State} (p : Nat) (odd : List OddWord) (x2 : Nat) (a : OnlyChanges qs x3 t) (h : ([.sill, .control, .counters, .client, .sched, .memory, .fresh] : List Part).all (fun p => qs.contains p) = true) :
    OnlyChanges qs x3 (choose p odd x2 t) := OnlyChanges.after (choose_only p odd x2 t) a h

theorem demandFor_only (p : Nat) (s : State) :
    OnlyChanges [.power, .cal, .elements, .carrier, .client] s (demandFor p s) := by
  unfold demandFor
  repeat' first
    | with_reducible exact OnlyChanges.refl _ _
    | with_reducible assumption
    | with_reducible apply OnlyChanges.ite
    | with_reducible refine OnlyChanges.each (fun _ _ => ?_) _ ?_
    | with_reducible apply demand_frame
    | ((with_reducible refine Part.nested ?_); rfl)
    | ((with_reducible refine Part.held ?_); rfl)
    | split
    | dsimp only
    | dsimp only [id]
theorem demandFor_frame {qs : List Part} {s t : State} (p : Nat) (a : OnlyChanges qs s t) (h : ([.power, .cal, .elements, .carrier, .client] : List Part).all (fun p => qs.contains p) = true) :
    OnlyChanges qs s (demandFor p t) := OnlyChanges.after (demandFor_only p t) a h

theorem selectNext_only (p : Nat) (odd : List OddWord) (s : State) :
    OnlyChanges [.sill, .power, .control, .counters, .cal, .elements, .carrier, .client, .sched, .memory, .fresh] s (selectNext p odd s) := by
  unfold selectNext
  repeat' first
    | with_reducible exact OnlyChanges.refl _ _
    | with_reducible assumption
    | with_reducible apply OnlyChanges.ite
    | with_reducible apply choose_frame
    | with_reducible apply demandFor_frame
    | ((with_reducible refine Part.nested ?_); rfl)
    | ((with_reducible refine Part.held ?_); rfl)
    | split
    | dsimp only
    | dsimp only [id]
theorem selectNext_frame {qs : List Part} {s t : State} (p : Nat) (odd : List OddWord) (a : OnlyChanges qs s t) (h : ([.sill, .power, .control, .counters, .cal, .elements, .carrier, .client, .sched, .memory, .fresh] : List Part).all (fun p => qs.contains p) = true) :
    OnlyChanges qs s (selectNext p odd t) := OnlyChanges.after (selectNext_only p odd t) a h

theorem selectAll_only (s : State) :
    OnlyChanges [.sill, .power, .control, .counters, .cal, .elements, .carrier, .client, .sched, .memory, .fresh] s (selectAll s) := by
  unfold selectAll
  repeat' first
    | with_reducible exact OnlyChanges.refl _ _
    | with_reducible assumption
    | with_reducible apply OnlyChanges.ite
    | with_reducible refine OnlyChanges.each (fun _ _ => ?_) _ ?_
    | with_reducible apply selectNext_frame
    | ((with_reducible refine Part.nested ?_); rfl)
    | ((with_reducible refine Part.held ?_); rfl)
    | split
    | dsimp only
    | dsimp only [id]
theorem selectAll_frame {qs : List Part} {s t : State}  (a : OnlyChanges qs s t) (h : ([.sill, .power, .control, .counters, .cal, .elements, .carrier, .client, .sched, .memory, .fresh] : List Part).all (fun p => qs.contains p) = true) :
    OnlyChanges qs s (selectAll t) := OnlyChanges.after (selectAll_only t) a h

/-- ST_BUSY or the rest, with the ports choosing in between. -/
theorem onSlice_frame {qs : List Part} {s t : State} (k : Nat) (f : State → Reply) (a : OnlyChanges qs s t)
    (g : ([.sill, .power, .control, .counters, .cal, .elements, .carrier, .client, .sched, .memory, .fresh] : List Part).all (fun p => qs.contains p) = true)
    (h : ∀ u, ReplyChanges qs u (f u)) : ReplyChanges qs s (onSlice k t f) :=
  have rest := fun u => ReplyChanges.from (selectAll_frame (OnlyChanges.refl _ u) (Part.all_trans rfl g)) (h _)
  needing_frame 9 k _ a (Part.all_trans rfl g) rest


/-- ST_BUSY or the rest, with the ports choosing in between. -/
theorem onStacks_frame {qs : List Part} {s t : State} (ks : List Nat) (f : State → Reply) (a : OnlyChanges qs s t)
    (g : ([.sill, .power, .control, .counters, .cal, .elements, .carrier, .client, .sched, .memory, .fresh] : List Part).all (fun p => qs.contains p) = true)
    (h : ∀ u, ReplyChanges qs u (f u)) : ReplyChanges qs s (onStacks ks t f) :=
  have rest := fun u => ReplyChanges.from (selectAll_frame (OnlyChanges.refl _ u) (Part.all_trans rfl g)) (h _)
  needingAll_frame 4 _ (Part.all_trans rfl g) rest ks a


theorem storeFrame_only (q : Nat) (data : List Byte) (odd : List OddWord) (s : State) :
    OnlyChanges [.sill, .control, .counters, .sched, .memory, .fresh] s (storeFrame q data odd s) := by
  unfold storeFrame
  repeat' first
    | with_reducible exact OnlyChanges.refl _ _
    | with_reducible assumption
    | with_reducible apply OnlyChanges.ite
    | with_reducible apply clampWrite_frame
    | with_reducible apply modQueue_frame
    | with_reducible apply takeCells_frame
    | with_reducible refine takeCells_snd (by assumption) ?_ ?_
    | with_reducible apply writeFrame_frame
    | ((with_reducible refine Part.nested ?_); rfl)
    | ((with_reducible refine Part.held ?_); rfl)
    | split
    | dsimp only
    | dsimp only [id]
theorem storeFrame_frame {qs : List Part} {s t : State} (q : Nat) (data : List Byte) (odd : List OddWord) (a : OnlyChanges qs s t) (h : ([.sill, .control, .counters, .sched, .memory, .fresh] : List Part).all (fun p => qs.contains p) = true) :
    OnlyChanges qs s (storeFrame q data odd t) := OnlyChanges.after (storeFrame_only q data odd t) a h

theorem enqueue_only (q : Nat) (data : List Byte) (odd : List OddWord) (s : State) :
    OnlyChanges [.sill, .power, .control, .counters, .cal, .elements, .carrier, .client, .sched, .memory, .fresh] s (enqueue q data odd s) := by
  unfold enqueue
  repeat' first
    | with_reducible exact OnlyChanges.refl _ _
    | with_reducible assumption
    | with_reducible apply OnlyChanges.ite
    | with_reducible apply bump_frame
    | with_reducible apply demand_frame
    | with_reducible apply selectNext_frame
    | with_reducible apply storeFrame_frame
    | with_reducible apply traceFrame_frame
    | ((with_reducible refine Part.nested ?_); rfl)
    | ((with_reducible refine Part.held ?_); rfl)
    | split
    | dsimp only
    | dsimp only [id]
theorem enqueue_frame {qs : List Part} {s t : State} (q : Nat) (data : List Byte) (odd : List OddWord) (a : OnlyChanges qs s t) (h : ([.sill, .power, .control, .counters, .cal, .elements, .carrier, .client, .sched, .memory, .fresh] : List Part).all (fun p => qs.contains p) = true) :
    OnlyChanges qs s (enqueue q data odd t) := OnlyChanges.after (enqueue_only q data odd t) a h

end Sys2Proof.Machine
end

