-- ==== Sys2Proof/Laws/FrameSched.lean ====
section
/-! SUPPORT. What each operation of Sched.lean may change. -/

-- One theorem after another: with a thread for each, the package as one text outgrows the checker's memory limit.
set_option Elab.async false

namespace Sys2Proof.Machine

theorem frameSelection_only (p : Nat) (odd : List OddWord) (s : State) :
    OnlyChanges [.sill, .power, .control, .counters, .cal, .elements, .carrier, .client, .sched, .memory, .fresh] s (frameSelection p odd s) := by
  unfold frameSelection
  repeat' first
    | with_reducible exact OnlyChanges.refl _ _
    | with_reducible assumption
    | with_reducible apply OnlyChanges.ite
    | with_reducible apply bump_frame
    | with_reducible apply modPort_frame
    | with_reducible apply selectNext_frame
    | with_reducible apply sendGfp_frame
    | ((with_reducible refine Part.nested ?_); rfl)
    | ((with_reducible refine Part.held ?_); rfl)
    | split
    | dsimp only
    | dsimp only [id]
theorem frameSelection_frame {qs : List Part} {s t : State} (p : Nat) (odd : List OddWord) (a : OnlyChanges qs s t) (h : ([.sill, .power, .control, .counters, .cal, .elements, .carrier, .client, .sched, .memory, .fresh] : List Part).all (fun p => qs.contains p) = true) :
    OnlyChanges qs s (frameSelection p odd t) := OnlyChanges.after (frameSelection_only p odd t) a h

theorem shaperCreditReachesZero_only (p : Nat) (s : State) :
    OnlyChanges [.sill, .power, .control, .counters, .cal, .elements, .carrier, .client, .sched, .memory, .fresh] s (shaperCreditReachesZero p s) := by
  unfold shaperCreditReachesZero
  repeat' first
    | with_reducible exact OnlyChanges.refl _ _
    | with_reducible assumption
    | with_reducible apply OnlyChanges.ite
    | with_reducible apply selectNext_frame
    | ((with_reducible refine Part.nested ?_); rfl)
    | ((with_reducible refine Part.held ?_); rfl)
    | split
    | dsimp only
    | dsimp only [id]
theorem shaperCreditReachesZero_frame {qs : List Part} {s t : State} (p : Nat) (a : OnlyChanges qs s t) (h : ([.sill, .power, .control, .counters, .cal, .elements, .carrier, .client, .sched, .memory, .fresh] : List Part).all (fun p => qs.contains p) = true) :
    OnlyChanges qs s (shaperCreditReachesZero p t) := OnlyChanges.after (shaperCreditReachesZero_only p t) a h

theorem gateEntryEnd_only (p : Nat) (s : State) :
    OnlyChanges [.sill, .power, .control, .counters, .cal, .elements, .carrier, .client, .sched, .memory, .fresh] s (gateEntryEnd p s) := by
  unfold gateEntryEnd
  repeat' first
    | with_reducible exact OnlyChanges.refl _ _
    | with_reducible assumption
    | with_reducible apply OnlyChanges.ite
    | with_reducible refine OnlyChanges.cond (fun _ => ?_) ?_
    | with_reducible apply selectNext_frame
    | ((with_reducible refine Part.nested ?_); rfl)
    | ((with_reducible refine Part.held ?_); rfl)
    | split
    | dsimp only
    | dsimp only [id]
theorem gateEntryEnd_frame {qs : List Part} {s t : State} (p : Nat) (a : OnlyChanges qs s t) (h : ([.sill, .power, .control, .counters, .cal, .elements, .carrier, .client, .sched, .memory, .fresh] : List Part).all (fun p => qs.contains p) = true) :
    OnlyChanges qs s (gateEntryEnd p t) := OnlyChanges.after (gateEntryEnd_only p t) a h

theorem gateListStart_only (p : Nat) (s : State) :
    OnlyChanges [.sill, .power, .control, .counters, .cal, .elements, .carrier, .client, .sched, .memory, .fresh] s (gateListStart p s) := by
  unfold gateListStart
  repeat' first
    | with_reducible exact OnlyChanges.refl _ _
    | with_reducible assumption
    | with_reducible apply OnlyChanges.ite
    | with_reducible refine OnlyChanges.cond (fun _ => ?_) ?_
    | with_reducible apply modPort_frame
    | with_reducible apply purgeHeads_frame
    | with_reducible apply raise_frame
    | with_reducible apply selectNext_frame
    | ((with_reducible refine Part.nested ?_); rfl)
    | ((with_reducible refine Part.held ?_); rfl)
    | split
    | dsimp only
    | dsimp only [id]
theorem gateListStart_frame {qs : List Part} {s t : State} (p : Nat) (a : OnlyChanges qs s t) (h : ([.sill, .power, .control, .counters, .cal, .elements, .carrier, .client, .sched, .memory, .fresh] : List Part).all (fun p => qs.contains p) = true) :
    OnlyChanges qs s (gateListStart p t) := OnlyChanges.after (gateListStart_only p t) a h

theorem gateWait_only (p : Nat) (n : Nat) (s : State) :
    OnlyChanges [.counters] s (gateWait p n s) := by
  unfold gateWait
  repeat' first
    | with_reducible exact OnlyChanges.refl _ _
    | with_reducible assumption
    | with_reducible apply OnlyChanges.ite
    | with_reducible apply bump_frame
    | ((with_reducible refine Part.nested ?_); rfl)
    | ((with_reducible refine Part.held ?_); rfl)
    | split
    | dsimp only
    | dsimp only [id]
theorem gateWait_frame {qs : List Part} {s t : State} (p : Nat) (n : Nat) (a : OnlyChanges qs s t) (h : ([.counters] : List Part).all (fun p => qs.contains p) = true) :
    OnlyChanges qs s (gateWait p n t) := OnlyChanges.after (gateWait_only p n t) a h

theorem gateWaits_only (n : Nat) (s : State) :
    OnlyChanges [.counters] s (gateWaits n s) := by
  unfold gateWaits
  repeat' first
    | with_reducible exact OnlyChanges.refl _ _
    | with_reducible assumption
    | with_reducible apply OnlyChanges.ite
    | with_reducible refine OnlyChanges.each (fun _ _ => ?_) _ ?_
    | with_reducible apply gateWait_frame
    | ((with_reducible refine Part.nested ?_); rfl)
    | ((with_reducible refine Part.held ?_); rfl)
    | split
    | dsimp only
    | dsimp only [id]
theorem gateWaits_frame {qs : List Part} {s t : State} (n : Nat) (a : OnlyChanges qs s t) (h : ([.counters] : List Part).all (fun p => qs.contains p) = true) :
    OnlyChanges qs s (gateWaits n t) := OnlyChanges.after (gateWaits_only n t) a h

theorem modSampling_only (k : Nat) (f : Sampling → Sampling) (s : State) :
    OnlyChanges [.sched] s (modSampling k f s) := by
  unfold modSampling
  repeat' first
    | with_reducible exact OnlyChanges.refl _ _
    | with_reducible assumption
    | with_reducible apply OnlyChanges.ite
    | with_reducible apply modSched_frame
    | ((with_reducible refine Part.nested ?_); rfl)
    | ((with_reducible refine Part.held ?_); rfl)
    | split
    | dsimp only
    | dsimp only [id]
theorem modSampling_frame {qs : List Part} {s t : State} (k : Nat) (f : Sampling → Sampling) (a : OnlyChanges qs s t) (h : ([.sched] : List Part).all (fun p => qs.contains p) = true) :
    OnlyChanges qs s (modSampling k f t) := OnlyChanges.after (modSampling_only k f t) a h

theorem schedSamplingInstant_only (k : Nat) (s : State) :
    OnlyChanges [.counters] s (schedSamplingInstant k s) := by
  unfold schedSamplingInstant
  repeat' first
    | with_reducible exact OnlyChanges.refl _ _
    | with_reducible assumption
    | with_reducible apply OnlyChanges.ite
    | with_reducible refine OnlyChanges.each (fun _ _ => ?_) _ ?_
    | with_reducible apply bump_frame
    | with_reducible apply writeRecord_frame
    | ((with_reducible refine Part.nested ?_); rfl)
    | ((with_reducible refine Part.held ?_); rfl)
    | split
    | dsimp only
    | dsimp only [id]
theorem schedSamplingInstant_frame {qs : List Part} {s t : State} (k : Nat) (a : OnlyChanges qs s t) (h : ([.counters] : List Part).all (fun p => qs.contains p) = true) :
    OnlyChanges qs s (schedSamplingInstant k t) := OnlyChanges.after (schedSamplingInstant_only k t) a h

theorem schedChangeSub_only (p : List Byte) (s : State) :
    PairChanges [.sched] s (schedChangeSub p s) := by
  unfold schedChangeSub
  repeat' first
    | with_reducible exact OnlyChanges.refl _ _
    | with_reducible assumption
    | with_reducible apply PairChanges.ite
    | with_reducible apply OnlyChanges.ite
    | with_reducible apply modSub_frame
    | ((with_reducible refine Part.nested ?_); rfl)
    | ((with_reducible refine Part.held ?_); rfl)
    | split
    | dsimp only
    | dsimp only [id]
    | with_reducible apply PairChanges.mk
theorem schedChangeSub_frame {qs : List Part} {s t : State} (p : List Byte) (a : OnlyChanges qs s t) (h : ([.sched] : List Part).all (fun p => qs.contains p) = true) :
    OnlyChanges qs s (schedChangeSub p t).2 := OnlyChanges.after (schedChangeSub_only p t) a h
theorem schedChangeSub_pair {qs : List Part} {s t : State} (p : List Byte) (a : OnlyChanges qs s t) (h : ([.sched] : List Part).all (fun p => qs.contains p) = true) :
    PairChanges qs s (schedChangeSub p t) := OnlyChanges.after (schedChangeSub_only p t) a h
theorem schedChangeSub_snd {qs : List Part} {s t u : State} {p : List Byte} {y : _} (e : (schedChangeSub p t) = (y, u)) (a : OnlyChanges qs s t) (h : ([.sched] : List Part).all (fun p => qs.contains p) = true) :
    OnlyChanges qs s u := PairChanges.snd (schedChangeSub_only p t) e a h

theorem schedChangeQueue_only (p : List Byte) (s : State) :
    PairChanges [.counters, .sched, .memory, .fresh] s (schedChangeQueue p s) := by
  unfold schedChangeQueue
  repeat' first
    | with_reducible exact OnlyChanges.refl _ _
    | with_reducible assumption
    | with_reducible apply PairChanges.ite
    | with_reducible apply OnlyChanges.ite
    | with_reducible apply flushQueue_frame
    | with_reducible apply modQueue_frame
    | ((with_reducible refine Part.nested ?_); rfl)
    | ((with_reducible refine Part.held ?_); rfl)
    | split
    | dsimp only
    | dsimp only [id]
    | with_reducible apply PairChanges.mk
theorem schedChangeQueue_frame {qs : List Part} {s t : State} (p : List Byte) (a : OnlyChanges qs s t) (h : ([.counters, .sched, .memory, .fresh] : List Part).all (fun p => qs.contains p) = true) :
    OnlyChanges qs s (schedChangeQueue p t).2 := OnlyChanges.after (schedChangeQueue_only p t) a h
theorem schedChangeQueue_pair {qs : List Part} {s t : State} (p : List Byte) (a : OnlyChanges qs s t) (h : ([.counters, .sched, .memory, .fresh] : List Part).all (fun p => qs.contains p) = true) :
    PairChanges qs s (schedChangeQueue p t) := OnlyChanges.after (schedChangeQueue_only p t) a h
theorem schedChangeQueue_snd {qs : List Part} {s t u : State} {p : List Byte} {y : _} (e : (schedChangeQueue p t) = (y, u)) (a : OnlyChanges qs s t) (h : ([.counters, .sched, .memory, .fresh] : List Part).all (fun p => qs.contains p) = true) :
    OnlyChanges qs s u := PairChanges.snd (schedChangeQueue_only p t) e a h

theorem schedParamApply_only (s : State) :
    OnlyChanges [.sill, .power, .control, .counters, .stream, .domain, .cal, .elements, .carrier, .client, .sched, .memory, .security, .fresh] s (schedParamApply s) := by
  unfold schedParamApply
  repeat' first
    | with_reducible exact OnlyChanges.refl _ _
    | with_reducible assumption
    | with_reducible apply OnlyChanges.ite
    | with_reducible apply completeEntry_frame
    | with_reducible apply modSched_frame
    | with_reducible apply schedChangeQueue_frame
    | with_reducible refine schedChangeQueue_snd (by assumption) ?_ ?_
    | with_reducible apply schedChangeSub_frame
    | with_reducible refine schedChangeSub_snd (by assumption) ?_ ?_
    | with_reducible apply selectNext_frame
    | ((with_reducible refine Part.nested ?_); rfl)
    | ((with_reducible refine Part.held ?_); rfl)
    | split
    | dsimp only
    | dsimp only [id]
theorem schedParamApply_frame {qs : List Part} {s t : State}  (a : OnlyChanges qs s t) (h : ([.sill, .power, .control, .counters, .stream, .domain, .cal, .elements, .carrier, .client, .sched, .memory, .security, .fresh] : List Part).all (fun p => qs.contains p) = true) :
    OnlyChanges qs s (schedParamApply t) := OnlyChanges.after (schedParamApply_only t) a h

theorem schedWait_only (isQueue : Bool) (q : Request) (s : State) :
    ReplyChanges [.sched] s (schedWait isQueue q s) := by
  unfold schedWait
  repeat' first
    | with_reducible exact OnlyChanges.refl _ _
    | with_reducible assumption
    | with_reducible apply ReplyChanges.checked
    | with_reducible apply ReplyChanges.require
    | with_reducible apply ReplyChanges.ite
    | with_reducible apply ReplyChanges.okay
    | with_reducible apply ReplyChanges.okWith
    | with_reducible refine ReplyChanges.okThen ?_ (fun _ => ?_)
    | with_reducible apply ReplyChanges.refuse
    | with_reducible apply ReplyChanges.reject
    | with_reducible refine ReplyChanges.done _ _ ?_ (fun _ => ?_)
    | with_reducible apply ReplyChanges.later
    | with_reducible apply OnlyChanges.ite
    | with_reducible apply modSched_frame
    | ((with_reducible refine Part.nested ?_); rfl)
    | ((with_reducible refine Part.held ?_); rfl)
    | split
    | dsimp only
    | dsimp only [id]
theorem schedWait_frame {qs : List Part} {s t : State} (isQueue : Bool) (q : Request) (a : OnlyChanges qs s t) (h : ([.sched] : List Part).all (fun p => qs.contains p) = true) :
    ReplyChanges qs s (schedWait isQueue q t) := ReplyChanges.after (schedWait_only isQueue q t) a h

theorem schedSetSubscriber_only (q : Request) (s : State) :
    ReplyChanges [.sill, .power, .control, .counters, .cal, .elements, .carrier, .client, .sched, .memory, .fresh] s (schedSetSubscriber q s) := by
  unfold schedSetSubscriber
  repeat' first
    | with_reducible exact OnlyChanges.refl _ _
    | with_reducible assumption
    | with_reducible apply ReplyChanges.checked
    | with_reducible apply ReplyChanges.require
    | with_reducible apply ReplyChanges.ite
    | with_reducible apply ReplyChanges.okay
    | with_reducible apply ReplyChanges.okWith
    | with_reducible refine ReplyChanges.okThen ?_ (fun _ => ?_)
    | with_reducible apply ReplyChanges.refuse
    | with_reducible apply ReplyChanges.reject
    | with_reducible refine ReplyChanges.done _ _ ?_ (fun _ => ?_)
    | with_reducible apply ReplyChanges.later
    | with_reducible refine onSlice_frame _ _ ?_ ?_ (fun _ => ?_)
    | with_reducible apply OnlyChanges.ite
    | with_reducible apply schedWait_frame
    | ((with_reducible refine Part.nested ?_); rfl)
    | ((with_reducible refine Part.held ?_); rfl)
    | split
    | dsimp only
    | dsimp only [id]
theorem schedSetSubscriber_frame {qs : List Part} {s t : State} (q : Request) (a : OnlyChanges qs s t) (h : ([.sill, .power, .control, .counters, .cal, .elements, .carrier, .client, .sched, .memory, .fresh] : List Part).all (fun p => qs.contains p) = true) :
    ReplyChanges qs s (schedSetSubscriber q t) := ReplyChanges.after (schedSetSubscriber_only q t) a h

theorem schedSetQueue_only (q : Request) (s : State) :
    ReplyChanges [.sill, .power, .control, .counters, .cal, .elements, .carrier, .client, .sched, .memory, .fresh] s (schedSetQueue q s) := by
  unfold schedSetQueue
  repeat' first
    | with_reducible exact OnlyChanges.refl _ _
    | with_reducible assumption
    | with_reducible apply ReplyChanges.checked
    | with_reducible apply ReplyChanges.require
    | with_reducible apply ReplyChanges.ite
    | with_reducible apply ReplyChanges.okay
    | with_reducible apply ReplyChanges.okWith
    | with_reducible refine ReplyChanges.okThen ?_ (fun _ => ?_)
    | with_reducible apply ReplyChanges.refuse
    | with_reducible apply ReplyChanges.reject
    | with_reducible refine ReplyChanges.done _ _ ?_ (fun _ => ?_)
    | with_reducible apply ReplyChanges.later
    | with_reducible refine onSlice_frame _ _ ?_ ?_ (fun _ => ?_)
    | with_reducible apply OnlyChanges.ite
    | with_reducible apply schedWait_frame
    | ((with_reducible refine Part.nested ?_); rfl)
    | ((with_reducible refine Part.held ?_); rfl)
    | split
    | dsimp only
    | dsimp only [id]
theorem schedSetQueue_frame {qs : List Part} {s t : State} (q : Request) (a : OnlyChanges qs s t) (h : ([.sill, .power, .control, .counters, .cal, .elements, .carrier, .client, .sched, .memory, .fresh] : List Part).all (fun p => qs.contains p) = true) :
    ReplyChanges qs s (schedSetQueue q t) := ReplyChanges.after (schedSetQueue_only q t) a h

theorem schedSetGates_only (q : Request) (s : State) :
    ReplyChanges [.sill, .power, .control, .counters, .cal, .elements, .carrier, .client, .sched, .memory, .fresh] s (schedSetGates q s) := by
  unfold schedSetGates
  repeat' first
    | with_reducible exact OnlyChanges.refl _ _
    | with_reducible assumption
    | with_reducible apply ReplyChanges.checked
    | with_reducible apply ReplyChanges.require
    | with_reducible apply ReplyChanges.ite
    | with_reducible apply ReplyChanges.okay
    | with_reducible apply ReplyChanges.okWith
    | with_reducible refine ReplyChanges.okThen ?_ (fun _ => ?_)
    | with_reducible apply ReplyChanges.refuse
    | with_reducible apply ReplyChanges.reject
    | with_reducible refine ReplyChanges.done _ _ ?_ (fun _ => ?_)
    | with_reducible apply ReplyChanges.later
    | with_reducible refine onSlice_frame _ _ ?_ ?_ (fun _ => ?_)
    | with_reducible apply OnlyChanges.ite
    | with_reducible apply modPort_frame
    | ((with_reducible refine Part.nested ?_); rfl)
    | ((with_reducible refine Part.held ?_); rfl)
    | split
    | dsimp only
    | dsimp only [id]
theorem schedSetGates_frame {qs : List Part} {s t : State} (q : Request) (a : OnlyChanges qs s t) (h : ([.sill, .power, .control, .counters, .cal, .elements, .carrier, .client, .sched, .memory, .fresh] : List Part).all (fun p => qs.contains p) = true) :
    ReplyChanges qs s (schedSetGates q t) := ReplyChanges.after (schedSetGates_only q t) a h

theorem schedGetGates_only (q : Request) (s : State) :
    ReplyChanges [.sill, .power, .control, .counters, .cal, .elements, .carrier, .client, .sched, .memory, .fresh] s (schedGetGates q s) := by
  unfold schedGetGates
  repeat' first
    | with_reducible exact OnlyChanges.refl _ _
    | with_reducible assumption
    | with_reducible apply ReplyChanges.checked
    | with_reducible apply ReplyChanges.require
    | with_reducible apply ReplyChanges.ite
    | with_reducible apply ReplyChanges.okay
    | with_reducible apply ReplyChanges.okWith
    | with_reducible refine ReplyChanges.okThen ?_ (fun _ => ?_)
    | with_reducible apply ReplyChanges.refuse
    | with_reducible apply ReplyChanges.reject
    | with_reducible refine ReplyChanges.done _ _ ?_ (fun _ => ?_)
    | with_reducible apply ReplyChanges.later
    | with_reducible refine onSlice_frame _ _ ?_ ?_ (fun _ => ?_)
    | with_reducible apply OnlyChanges.ite
    | ((with_reducible refine Part.nested ?_); rfl)
    | ((with_reducible refine Part.held ?_); rfl)
    | split
    | dsimp only
    | dsimp only [id]
theorem schedGetGates_frame {qs : List Part} {s t : State} (q : Request) (a : OnlyChanges qs s t) (h : ([.sill, .power, .control, .counters, .cal, .elements, .carrier, .client, .sched, .memory, .fresh] : List Part).all (fun p => qs.contains p) = true) :
    ReplyChanges qs s (schedGetGates q t) := ReplyChanges.after (schedGetGates_only q t) a h

theorem schedGetQueue_only (q : Request) (s : State) :
    ReplyChanges [.sill, .power, .control, .counters, .cal, .elements, .carrier, .client, .sched, .memory, .fresh] s (schedGetQueue q s) := by
  unfold schedGetQueue
  repeat' first
    | with_reducible exact OnlyChanges.refl _ _
    | with_reducible assumption
    | with_reducible apply ReplyChanges.checked
    | with_reducible apply ReplyChanges.require
    | with_reducible apply ReplyChanges.ite
    | with_reducible apply ReplyChanges.okay
    | with_reducible apply ReplyChanges.okWith
    | with_reducible refine ReplyChanges.okThen ?_ (fun _ => ?_)
    | with_reducible apply ReplyChanges.refuse
    | with_reducible apply ReplyChanges.reject
    | with_reducible refine ReplyChanges.done _ _ ?_ (fun _ => ?_)
    | with_reducible apply ReplyChanges.later
    | with_reducible refine onSlice_frame _ _ ?_ ?_ (fun _ => ?_)
    | with_reducible apply OnlyChanges.ite
    | ((with_reducible refine Part.nested ?_); rfl)
    | ((with_reducible refine Part.held ?_); rfl)
    | split
    | dsimp only
    | dsimp only [id]
theorem schedGetQueue_frame {qs : List Part} {s t : State} (q : Request) (a : OnlyChanges qs s t) (h : ([.sill, .power, .control, .counters, .cal, .elements, .carrier, .client, .sched, .memory, .fresh] : List Part).all (fun p => qs.contains p) = true) :
    ReplyChanges qs s (schedGetQueue q t) := ReplyChanges.after (schedGetQueue_only q t) a h

theorem schedSetSampling_only (q : Request) (s : State) :
    ReplyChanges [.sill, .power, .control, .counters, .cal, .elements, .carrier, .client, .sched, .memory, .fresh] s (schedSetSampling q s) := by
  unfold schedSetSampling
  repeat' first
    | with_reducible exact OnlyChanges.refl _ _
    | with_reducible assumption
    | with_reducible apply ReplyChanges.checked
    | with_reducible apply ReplyChanges.require
    | with_reducible apply ReplyChanges.ite
    | with_reducible apply ReplyChanges.okay
    | with_reducible apply ReplyChanges.okWith
    | with_reducible refine ReplyChanges.okThen ?_ (fun _ => ?_)
    | with_reducible apply ReplyChanges.refuse
    | with_reducible apply ReplyChanges.reject
    | with_reducible refine ReplyChanges.done _ _ ?_ (fun _ => ?_)
    | with_reducible apply ReplyChanges.later
    | with_reducible refine onSlice_frame _ _ ?_ ?_ (fun _ => ?_)
    | with_reducible apply OnlyChanges.ite
    | with_reducible apply modSampling_frame
    | ((with_reducible refine Part.nested ?_); rfl)
    | ((with_reducible refine Part.held ?_); rfl)
    | split
    | dsimp only
    | dsimp only [id]
theorem schedSetSampling_frame {qs : List Part} {s t : State} (q : Request) (a : OnlyChanges qs s t) (h : ([.sill, .power, .control, .counters, .cal, .elements, .carrier, .client, .sched, .memory, .fresh] : List Part).all (fun p => qs.contains p) = true) :
    ReplyChanges qs s (schedSetSampling q t) := ReplyChanges.after (schedSetSampling_only q t) a h

theorem schedGetCounts_only (q : Request) (s : State) :
    ReplyChanges [] s (schedGetCounts q s) := by
  unfold schedGetCounts
  repeat' first
    | with_reducible exact OnlyChanges.refl _ _
    | with_reducible assumption
    | with_reducible apply ReplyChanges.checked
    | with_reducible apply ReplyChanges.require
    | with_reducible apply ReplyChanges.ite
    | with_reducible apply ReplyChanges.okay
    | with_reducible apply ReplyChanges.okWith
    | with_reducible refine ReplyChanges.okThen ?_ (fun _ => ?_)
    | with_reducible apply ReplyChanges.refuse
    | with_reducible apply ReplyChanges.reject
    | with_reducible refine ReplyChanges.done _ _ ?_ (fun _ => ?_)
    | with_reducible apply ReplyChanges.later
    | with_reducible apply OnlyChanges.ite
    | ((with_reducible refine Part.nested ?_); rfl)
    | ((with_reducible refine Part.held ?_); rfl)
    | split
    | dsimp only
    | dsimp only [id]
theorem schedGetCounts_frame {qs : List Part} {s t : State} (q : Request) (a : OnlyChanges qs s t) (h : ([] : List Part).all (fun p => qs.contains p) = true) :
    ReplyChanges qs s (schedGetCounts q t) := ReplyChanges.after (schedGetCounts_only q t) a h

theorem schedGauges_only (s : State) :
    OnlyChanges [.counters] s (schedGauges s) := by
  unfold schedGauges
  repeat' first
    | with_reducible exact OnlyChanges.refl _ _
    | with_reducible assumption
    | with_reducible apply OnlyChanges.ite
    | with_reducible refine OnlyChanges.each (fun _ _ => ?_) _ ?_
    | with_reducible apply setLive_frame
    | ((with_reducible refine Part.nested ?_); rfl)
    | ((with_reducible refine Part.held ?_); rfl)
    | split
    | dsimp only
    | dsimp only [id]
theorem schedGauges_frame {qs : List Part} {s t : State}  (a : OnlyChanges qs s t) (h : ([.counters] : List Part).all (fun p => qs.contains p) = true) :
    OnlyChanges qs s (schedGauges t) := OnlyChanges.after (schedGauges_only t) a h

theorem schedBoundary_only (k : Nat) (s : State) :
    OnlyChanges [.sill, .control, .counters, .sched] s (schedBoundary k s) := by
  unfold schedBoundary
  repeat' first
    | with_reducible exact OnlyChanges.refl _ _
    | with_reducible assumption
    | with_reducible apply OnlyChanges.ite
    | with_reducible apply modSampling_frame
    | with_reducible apply raise_frame
    | ((with_reducible refine Part.nested ?_); rfl)
    | ((with_reducible refine Part.held ?_); rfl)
    | split
    | dsimp only
    | dsimp only [id]
theorem schedBoundary_frame {qs : List Part} {s t : State} (k : Nat) (a : OnlyChanges qs s t) (h : ([.sill, .control, .counters, .sched] : List Part).all (fun p => qs.contains p) = true) :
    OnlyChanges qs s (schedBoundary k t) := OnlyChanges.after (schedBoundary_only k t) a h

end Sys2Proof.Machine
end

