-- ==== Sys2Proof/Laws/FrameBoundary.lean ====
section
/-! SUPPORT. What each operation of Boundary.lean may change. -/

-- One theorem after another: with a thread for each, the package as one text outgrows the checker's memory limit.
set_option Elab.async false

namespace Sys2Proof.Machine

theorem latchCounters_only (s : State) :
    OnlyChanges [.counters] s (latchCounters s) := by
  unfold latchCounters
  repeat' first
    | with_reducible exact OnlyChanges.refl _ _
    | with_reducible assumption
    | with_reducible apply OnlyChanges.ite
    | ((with_reducible refine Part.nested ?_); rfl)
    | ((with_reducible refine Part.held ?_); rfl)
    | split
    | dsimp only
    | dsimp only [id]
    | with_reducible apply set_counters
theorem latchCounters_frame {qs : List Part} {s t : State}  (a : OnlyChanges qs s t) (h : ([.counters] : List Part).all (fun p => qs.contains p) = true) :
    OnlyChanges qs s (latchCounters t) := OnlyChanges.after (latchCounters_only t) a h

theorem traceLost_only (x0 : Nat) (s : State) :
    OnlyChanges [.sill, .control, .counters] s (traceLost x0 s) := by
  unfold traceLost
  repeat' first
    | with_reducible exact OnlyChanges.refl _ _
    | with_reducible assumption
    | with_reducible apply OnlyChanges.ite
    | with_reducible apply modCountUnit_frame
    | with_reducible apply raise_frame
    | ((with_reducible refine Part.nested ?_); rfl)
    | ((with_reducible refine Part.held ?_); rfl)
    | split
    | dsimp only
    | dsimp only [id]
theorem traceLost_frame {qs : List Part} {s t : State} (x0 : Nat) (a : OnlyChanges qs s t) (h : ([.sill, .control, .counters] : List Part).all (fun p => qs.contains p) = true) :
    OnlyChanges qs s (traceLost x0 t) := OnlyChanges.after (traceLost_only x0 t) a h

theorem secondBoundary_only (s : State) :
    OnlyChanges [.sill, .control, .counters, .carrier, .framer, .sched, .protect, .security, .timing, .monitor, .fresh] s (secondBoundary s) := by
  unfold secondBoundary
  repeat' first
    | with_reducible exact OnlyChanges.refl _ _
    | with_reducible assumption
    | with_reducible apply OnlyChanges.ite
    | with_reducible refine OnlyChanges.each (fun _ _ => ?_) _ ?_
    | with_reducible apply authBoundary_frame
    | with_reducible apply fecBoundary_frame
    | with_reducible apply framerBoundary_frame
    | with_reducible apply latchCounters_frame
    | with_reducible apply modCountUnit_frame
    | with_reducible apply modTiming_frame
    | with_reducible apply monitorBoundary_frame
    | with_reducible apply schedBoundary_frame
    | with_reducible apply schedGauges_frame
    | with_reducible apply traceLost_frame
    | ((with_reducible refine Part.nested ?_); rfl)
    | ((with_reducible refine Part.held ?_); rfl)
    | split
    | dsimp only
    | dsimp only [id]
theorem secondBoundary_frame {qs : List Part} {s t : State}  (a : OnlyChanges qs s t) (h : ([.sill, .control, .counters, .carrier, .framer, .sched, .protect, .security, .timing, .monitor, .fresh] : List Part).all (fun p => qs.contains p) = true) :
    OnlyChanges qs s (secondBoundary t) := OnlyChanges.after (secondBoundary_only t) a h

end Sys2Proof.Machine
end

