-- ==== Sys2Proof/Laws/FrameCarrier.lean ====
section
/-! SUPPORT. What each operation of Carrier.lean may change. -/

-- One theorem after another: with a thread for each, the package as one text outgrows the checker's memory limit.
set_option Elab.async false

namespace Sys2Proof.Machine

theorem carrierSetFormat_only (q : Request) (s : State) :
    ReplyChanges [.sill, .power, .control, .counters, .stream, .domain, .cal, .elements, .carrier, .joinery, .framer, .client, .protect, .security, .timing, .fresh] s (carrierSetFormat q s) := by
  unfold carrierSetFormat
  repeat' first
    | with_reducible exact OnlyChanges.refl _ _
    | with_reducible assumption
    | with_reducible apply ReplyChanges.checked
    | with_reducible apply ReplyChanges.require
    | with_reducible apply ReplyChanges.ite
    | with_reducible apply ReplyChanges.okay
    | with_reducible apply ReplyChanges.okWith
    | with_reducible refine ReplyChanges.okThen ?_ (fun _ => ?_)
    | with_reducible apply ReplyChanges.refuse
    | with_reducible apply ReplyChanges.reject
    | with_reducible refine ReplyChanges.done _ _ ?_ (fun _ => ?_)
    | with_reducible apply ReplyChanges.later
    | with_reducible apply OnlyChanges.ite
    | with_reducible apply formatDue_frame
    | with_reducible apply modCu_frame
    | ((with_reducible refine Part.nested ?_); rfl)
    | ((with_reducible refine Part.held ?_); rfl)
    | split
    | dsimp only
    | dsimp only [id]
theorem carrierSetFormat_frame {qs : List Part} {s t : State} (q : Request) (a : OnlyChanges qs s t) (h : ([.sill, .power, .control, .counters, .stream, .domain, .cal, .elements, .carrier, .joinery, .framer, .client, .protect, .security, .timing, .fresh] : List Part).all (fun p => qs.contains p) = true) :
    ReplyChanges qs s (carrierSetFormat q t) := ReplyChanges.after (carrierSetFormat_only q t) a h

theorem formatEpoch_only (x0 : Nat) (s : State) :
    OnlyChanges [.sill, .power, .control, .counters, .stream, .domain, .cal, .elements, .carrier, .joinery, .framer, .client, .protect, .security, .timing, .fresh] s (formatEpoch x0 s) := by
  unfold formatEpoch
  repeat' first
    | with_reducible exact OnlyChanges.refl _ _
    | with_reducible assumption
    | with_reducible apply OnlyChanges.ite
    | with_reducible refine OnlyChanges.cond (fun _ => ?_) ?_
    | with_reducible apply formatDue_frame
    | ((with_reducible refine Part.nested ?_); rfl)
    | ((with_reducible refine Part.held ?_); rfl)
    | split
    | dsimp only
    | dsimp only [id]
theorem formatEpoch_frame {qs : List Part} {s t : State} (x0 : Nat) (a : OnlyChanges qs s t) (h : ([.sill, .power, .control, .counters, .stream, .domain, .cal, .elements, .carrier, .joinery, .framer, .client, .protect, .security, .timing, .fresh] : List Part).all (fun p => qs.contains p) = true) :
    OnlyChanges qs s (formatEpoch x0 t) := OnlyChanges.after (formatEpoch_only x0 t) a h

theorem carrierSetPath_only (q : Request) (s : State) :
    ReplyChanges [.sill, .power, .control, .counters, .stream, .domain, .cal, .elements, .carrier, .joinery, .framer, .client, .protect, .security, .timing, .fresh] s (carrierSetPath q s) := by
  unfold carrierSetPath
  repeat' first
    | with_reducible exact OnlyChanges.refl _ _
    | with_reducible assumption
    | with_reducible apply ReplyChanges.checked
    | with_reducible apply ReplyChanges.require
    | with_reducible apply ReplyChanges.ite
    | with_reducible apply ReplyChanges.okay
    | with_reducible apply ReplyChanges.okWith
    | with_reducible refine ReplyChanges.okThen ?_ (fun _ => ?_)
    | with_reducible apply ReplyChanges.refuse
    | with_reducible apply ReplyChanges.reject
    | with_reducible refine ReplyChanges.done _ _ ?_ (fun _ => ?_)
    | with_reducible apply ReplyChanges.later
    | with_reducible apply OnlyChanges.ite
    | with_reducible apply followEnable_frame
    | with_reducible apply modCu_frame
    | with_reducible apply settleRx_frame
    | with_reducible apply settleTx_frame
    | ((with_reducible refine Part.nested ?_); rfl)
    | ((with_reducible refine Part.held ?_); rfl)
    | split
    | dsimp only
    | dsimp only [id]
theorem carrierSetPath_frame {qs : List Part} {s t : State} (q : Request) (a : OnlyChanges qs s t) (h : ([.sill, .power, .control, .counters, .stream, .domain, .cal, .elements, .carrier, .joinery, .framer, .client, .protect, .security, .timing, .fresh] : List Part).all (fun p => qs.contains p) = true) :
    ReplyChanges qs s (carrierSetPath q t) := ReplyChanges.after (carrierSetPath_only q t) a h

theorem carrierSetDsp_only (q : Request) (s : State) :
    ReplyChanges [.sill, .power, .control, .counters, .stream, .domain, .cal, .elements, .carrier, .joinery, .framer, .client, .protect, .security, .timing, .fresh] s (carrierSetDsp q s) := by
  unfold carrierSetDsp
  repeat' first
    | with_reducible exact OnlyChanges.refl _ _
    | with_reducible assumption
    | with_reducible apply ReplyChanges.checked
    | with_reducible apply ReplyChanges.require
    | with_reducible apply ReplyChanges.ite
    | with_reducible apply ReplyChanges.okay
    | with_reducible apply ReplyChanges.okWith
    | with_reducible refine ReplyChanges.okThen ?_ (fun _ => ?_)
    | with_reducible apply ReplyChanges.refuse
    | with_reducible apply ReplyChanges.reject
    | with_reducible refine ReplyChanges.done _ _ ?_ (fun _ => ?_)
    | with_reducible apply ReplyChanges.later
    | with_reducible apply OnlyChanges.ite
    | with_reducible apply modCu_frame
    | with_reducible apply settleRx_frame
    | with_reducible apply settleTx_frame
    | ((with_reducible refine Part.nested ?_); rfl)
    | ((with_reducible refine Part.held ?_); rfl)
    | split
    | dsimp only
    | dsimp only [id]
theorem carrierSetDsp_frame {qs : List Part} {s t : State} (q : Request) (a : OnlyChanges qs s t) (h : ([.sill, .power, .control, .counters, .stream, .domain, .cal, .elements, .carrier, .joinery, .framer, .client, .protect, .security, .timing, .fresh] : List Part).all (fun p => qs.contains p) = true) :
    ReplyChanges qs s (carrierSetDsp q t) := ReplyChanges.after (carrierSetDsp_only q t) a h

theorem carrierSetSpectralOrder_only (q : Request) (s : State) :
    ReplyChanges [.sill, .power, .control, .counters, .stream, .domain, .cal, .elements, .carrier, .joinery, .framer, .client, .protect, .security, .timing, .fresh] s (carrierSetSpectralOrder q s) := by
  unfold carrierSetSpectralOrder
  repeat' first
    | with_reducible exact OnlyChanges.refl _ _
    | with_reducible assumption
    | with_reducible apply ReplyChanges.checked
    | with_reducible apply ReplyChanges.require
    | with_reducible apply ReplyChanges.ite
    | with_reducible apply ReplyChanges.okay
    | with_reducible apply ReplyChanges.okWith
    | with_reducible refine ReplyChanges.okThen ?_ (fun _ => ?_)
    | with_reducible apply ReplyChanges.refuse
    | with_reducible apply ReplyChanges.reject
    | with_reducible refine ReplyChanges.done _ _ ?_ (fun _ => ?_)
    | with_reducible apply ReplyChanges.later
    | with_reducible apply OnlyChanges.ite
    | with_reducible refine OnlyChanges.each (fun _ _ => ?_) _ ?_
    | with_reducible apply modJoinery_frame
    | with_reducible apply settleRx_frame
    | ((with_reducible refine Part.nested ?_); rfl)
    | ((with_reducible refine Part.held ?_); rfl)
    | split
    | dsimp only
    | dsimp only [id]
theorem carrierSetSpectralOrder_frame {qs : List Part} {s t : State} (q : Request) (a : OnlyChanges qs s t) (h : ([.sill, .power, .control, .counters, .stream, .domain, .cal, .elements, .carrier, .joinery, .framer, .client, .protect, .security, .timing, .fresh] : List Part).all (fun p => qs.contains p) = true) :
    ReplyChanges qs s (carrierSetSpectralOrder q t) := ReplyChanges.after (carrierSetSpectralOrder_only q t) a h

theorem carrierGetStatus_only (q : Request) (s : State) :
    ReplyChanges [] s (carrierGetStatus q s) := by
  unfold carrierGetStatus
  repeat' first
    | with_reducible exact OnlyChanges.refl _ _
    | with_reducible assumption
    | with_reducible apply ReplyChanges.checked
    | with_reducible apply ReplyChanges.require
    | with_reducible apply ReplyChanges.ite
    | with_reducible apply ReplyChanges.okay
    | with_reducible apply ReplyChanges.okWith
    | with_reducible refine ReplyChanges.okThen ?_ (fun _ => ?_)
    | with_reducible apply ReplyChanges.refuse
    | with_reducible apply ReplyChanges.reject
    | with_reducible refine ReplyChanges.done _ _ ?_ (fun _ => ?_)
    | with_reducible apply ReplyChanges.later
    | with_reducible apply OnlyChanges.ite
    | ((with_reducible refine Part.nested ?_); rfl)
    | ((with_reducible refine Part.held ?_); rfl)
    | split
    | dsimp only
    | dsimp only [id]
theorem carrierGetStatus_frame {qs : List Part} {s t : State} (q : Request) (a : OnlyChanges qs s t) (h : ([] : List Part).all (fun p => qs.contains p) = true) :
    ReplyChanges qs s (carrierGetStatus q t) := ReplyChanges.after (carrierGetStatus_only q t) a h

theorem carrierReacquire_only (q : Request) (s : State) :
    ReplyChanges [.sill, .power, .control, .counters, .cal, .elements, .carrier, .joinery, .framer, .client, .timing] s (carrierReacquire q s) := by
  unfold carrierReacquire
  repeat' first
    | with_reducible exact OnlyChanges.refl _ _
    | with_reducible assumption
    | with_reducible apply ReplyChanges.checked
    | with_reducible apply ReplyChanges.require
    | with_reducible apply ReplyChanges.ite
    | with_reducible apply ReplyChanges.okay
    | with_reducible apply ReplyChanges.okWith
    | with_reducible refine ReplyChanges.okThen ?_ (fun _ => ?_)
    | with_reducible apply ReplyChanges.refuse
    | with_reducible apply ReplyChanges.reject
    | with_reducible refine ReplyChanges.done _ _ ?_ (fun _ => ?_)
    | with_reducible apply ReplyChanges.later
    | with_reducible refine needing_frame _ _ _ ?_ ?_ (fun _ => ?_)
    | with_reducible apply OnlyChanges.ite
    | with_reducible apply acquire_frame
    | with_reducible apply unlock_frame
    | ((with_reducible refine Part.nested ?_); rfl)
    | ((with_reducible refine Part.held ?_); rfl)
    | split
    | dsimp only
    | dsimp only [id]
theorem carrierReacquire_frame {qs : List Part} {s t : State} (q : Request) (a : OnlyChanges qs s t) (h : ([.sill, .power, .control, .counters, .cal, .elements, .carrier, .joinery, .framer, .client, .timing] : List Part).all (fun p => qs.contains p) = true) :
    ReplyChanges qs s (carrierReacquire q t) := ReplyChanges.after (carrierReacquire_only q t) a h

theorem carrierGetConfig_only (q : Request) (s : State) :
    ReplyChanges [] s (carrierGetConfig q s) := by
  unfold carrierGetConfig
  repeat' first
    | with_reducible exact OnlyChanges.refl _ _
    | with_reducible assumption
    | with_reducible apply ReplyChanges.checked
    | with_reducible apply ReplyChanges.require
    | with_reducible apply ReplyChanges.ite
    | with_reducible apply ReplyChanges.okay
    | with_reducible apply ReplyChanges.okWith
    | with_reducible refine ReplyChanges.okThen ?_ (fun _ => ?_)
    | with_reducible apply ReplyChanges.refuse
    | with_reducible apply ReplyChanges.reject
    | with_reducible refine ReplyChanges.done _ _ ?_ (fun _ => ?_)
    | with_reducible apply ReplyChanges.later
    | with_reducible apply OnlyChanges.ite
    | ((with_reducible refine Part.nested ?_); rfl)
    | ((with_reducible refine Part.held ?_); rfl)
    | split
    | dsimp only
    | dsimp only [id]
theorem carrierGetConfig_frame {qs : List Part} {s t : State} (q : Request) (a : OnlyChanges qs s t) (h : ([] : List Part).all (fun p => qs.contains p) = true) :
    ReplyChanges qs s (carrierGetConfig q t) := ReplyChanges.after (carrierGetConfig_only q t) a h

theorem lossOfSignal_only (x0 : Nat) (level : Int) (s : State) :
    OnlyChanges [.sill, .control, .counters, .cal, .carrier, .joinery, .framer, .timing] s (lossOfSignal x0 level s) := by
  unfold lossOfSignal
  repeat' first
    | with_reducible exact OnlyChanges.refl _ _
    | with_reducible assumption
    | with_reducible apply OnlyChanges.ite
    | with_reducible refine OnlyChanges.cond (fun _ => ?_) ?_
    | with_reducible apply bump_frame
    | with_reducible apply fallbackUnit_frame
    | with_reducible apply modCu_frame
    | with_reducible apply suspendSources_frame
    | with_reducible apply unlock_frame
    | ((with_reducible refine Part.nested ?_); rfl)
    | ((with_reducible refine Part.held ?_); rfl)
    | split
    | dsimp only
    | dsimp only [id]
theorem lossOfSignal_frame {qs : List Part} {s t : State} (x0 : Nat) (level : Int) (a : OnlyChanges qs s t) (h : ([.sill, .control, .counters, .cal, .carrier, .joinery, .framer, .timing] : List Part).all (fun p => qs.contains p) = true) :
    OnlyChanges qs s (lossOfSignal x0 level t) := OnlyChanges.after (lossOfSignal_only x0 level t) a h

theorem losClear_only (x0 : Nat) (level : Int) (s : State) :
    OnlyChanges [.carrier] s (losClear x0 level s) := by
  unfold losClear
  repeat' first
    | with_reducible exact OnlyChanges.refl _ _
    | with_reducible assumption
    | with_reducible apply OnlyChanges.ite
    | with_reducible refine OnlyChanges.cond (fun _ => ?_) ?_
    | with_reducible apply acquire_frame
    | with_reducible apply modCu_frame
    | ((with_reducible refine Part.nested ?_); rfl)
    | ((with_reducible refine Part.held ?_); rfl)
    | split
    | dsimp only
    | dsimp only [id]
theorem losClear_frame {qs : List Part} {s t : State} (x0 : Nat) (level : Int) (a : OnlyChanges qs s t) (h : ([.carrier] : List Part).all (fun p => qs.contains p) = true) :
    OnlyChanges qs s (losClear x0 level t) := OnlyChanges.after (losClear_only x0 level t) a h

theorem losHoldExpiry_only (x0 : Nat) (s : State) :
    OnlyChanges [.carrier] s (losHoldExpiry x0 s) := by
  unfold losHoldExpiry
  repeat' first
    | with_reducible exact OnlyChanges.refl _ _
    | with_reducible assumption
    | with_reducible apply OnlyChanges.ite
    | with_reducible refine OnlyChanges.cond (fun _ => ?_) ?_
    | with_reducible apply modCu_frame
    | ((with_reducible refine Part.nested ?_); rfl)
    | ((with_reducible refine Part.held ?_); rfl)
    | split
    | dsimp only
    | dsimp only [id]
theorem losHoldExpiry_frame {qs : List Part} {s t : State} (x0 : Nat) (a : OnlyChanges qs s t) (h : ([.carrier] : List Part).all (fun p => qs.contains p) = true) :
    OnlyChanges qs s (losHoldExpiry x0 t) := OnlyChanges.after (losHoldExpiry_only x0 t) a h

theorem enterTracking_only (x0 : Nat) (dgd : Nat) (snr : Nat) (freq : Int) (sop : Nat) (s : State) :
    OnlyChanges [.sill, .control, .counters, .carrier, .timing] s (enterTracking x0 dgd snr freq sop s) := by
  unfold enterTracking
  repeat' first
    | with_reducible exact OnlyChanges.refl _ _
    | with_reducible assumption
    | with_reducible apply OnlyChanges.ite
    | with_reducible apply lineClock_frame
    | with_reducible apply modCu_frame
    | with_reducible apply raise_frame
    | ((with_reducible refine Part.nested ?_); rfl)
    | ((with_reducible refine Part.held ?_); rfl)
    | split
    | dsimp only
    | dsimp only [id]
theorem enterTracking_frame {qs : List Part} {s t : State} (x0 : Nat) (dgd : Nat) (snr : Nat) (freq : Int) (sop : Nat) (a : OnlyChanges qs s t) (h : ([.sill, .control, .counters, .carrier, .timing] : List Part).all (fun p => qs.contains p) = true) :
    OnlyChanges qs s (enterTracking x0 dgd snr freq sop t) := OnlyChanges.after (enterTracking_only x0 dgd snr freq sop t) a h

theorem diverge_only (x0 : Nat) (s : State) :
    OnlyChanges [.sill, .control, .counters, .cal, .carrier, .joinery, .framer, .timing] s (diverge x0 s) := by
  unfold diverge
  repeat' first
    | with_reducible exact OnlyChanges.refl _ _
    | with_reducible assumption
    | with_reducible apply OnlyChanges.ite
    | with_reducible apply modCu_frame
    | with_reducible apply spikeTaps_frame
    | with_reducible apply unlock_frame
    | ((with_reducible refine Part.nested ?_); rfl)
    | ((with_reducible refine Part.held ?_); rfl)
    | split
    | dsimp only
    | dsimp only [id]
theorem diverge_frame {qs : List Part} {s t : State} (x0 : Nat) (a : OnlyChanges qs s t) (h : ([.sill, .control, .counters, .cal, .carrier, .joinery, .framer, .timing] : List Part).all (fun p => qs.contains p) = true) :
    OnlyChanges qs s (diverge x0 t) := OnlyChanges.after (diverge_only x0 t) a h

theorem trainTaps_only (x0 : Nat) (s : State) :
    OnlyChanges [.carrier, .fresh] s (trainTaps x0 s) := by
  unfold trainTaps
  repeat' first
    | with_reducible exact OnlyChanges.refl _ _
    | with_reducible assumption
    | with_reducible apply OnlyChanges.ite
    | with_reducible apply modCu_frame
    | ((with_reducible refine Part.nested ?_); rfl)
    | ((with_reducible refine Part.held ?_); rfl)
    | split
    | dsimp only
    | dsimp only [id]
    | with_reducible apply set_fresh
theorem trainTaps_frame {qs : List Part} {s t : State} (x0 : Nat) (a : OnlyChanges qs s t) (h : ([.carrier, .fresh] : List Part).all (fun p => qs.contains p) = true) :
    OnlyChanges qs s (trainTaps x0 t) := OnlyChanges.after (trainTaps_only x0 t) a h

theorem acqStageDone_only (x0 : Nat) (scores : List (Int × Nat)) (dgd : Nat) (snr : Nat) (freq : Int) (sop : Nat) (s : State) :
    OnlyChanges [.sill, .control, .counters, .cal, .carrier, .joinery, .framer, .timing, .fresh] s (acqStageDone x0 scores dgd snr freq sop s) := by
  unfold acqStageDone
  repeat' first
    | with_reducible exact OnlyChanges.refl _ _
    | with_reducible assumption
    | with_reducible apply OnlyChanges.ite
    | with_reducible apply diverge_frame
    | with_reducible apply enterTracking_frame
    | with_reducible apply modCu_frame
    | with_reducible apply trainTaps_frame
    | ((with_reducible refine Part.nested ?_); rfl)
    | ((with_reducible refine Part.held ?_); rfl)
    | split
    | dsimp only
    | dsimp only [id]
theorem acqStageDone_frame {qs : List Part} {s t : State} (x0 : Nat) (scores : List (Int × Nat)) (dgd : Nat) (snr : Nat) (freq : Int) (sop : Nat) (a : OnlyChanges qs s t) (h : ([.sill, .control, .counters, .cal, .carrier, .joinery, .framer, .timing, .fresh] : List Part).all (fun p => qs.contains p) = true) :
    OnlyChanges qs s (acqStageDone x0 scores dgd snr freq sop t) := OnlyChanges.after (acqStageDone_only x0 scores dgd snr freq sop t) a h

theorem acqStageTimeout_only (x0 : Nat) (s : State) :
    OnlyChanges [.counters, .carrier] s (acqStageTimeout x0 s) := by
  unfold acqStageTimeout
  repeat' first
    | with_reducible exact OnlyChanges.refl _ _
    | with_reducible assumption
    | with_reducible apply OnlyChanges.ite
    | with_reducible refine OnlyChanges.cond (fun _ => ?_) ?_
    | with_reducible apply bump_frame
    | with_reducible apply modCu_frame
    | ((with_reducible refine Part.nested ?_); rfl)
    | ((with_reducible refine Part.held ?_); rfl)
    | split
    | dsimp only
    | dsimp only [id]
theorem acqStageTimeout_frame {qs : List Part} {s t : State} (x0 : Nat) (a : OnlyChanges qs s t) (h : ([.counters, .carrier] : List Part).all (fun p => qs.contains p) = true) :
    OnlyChanges qs s (acqStageTimeout x0 t) := OnlyChanges.after (acqStageTimeout_only x0 t) a h

theorem equaliserDivergence_only (x0 : Nat) (s : State) :
    OnlyChanges [.sill, .control, .counters, .cal, .carrier, .joinery, .framer, .timing] s (equaliserDivergence x0 s) := by
  unfold equaliserDivergence
  repeat' first
    | with_reducible exact OnlyChanges.refl _ _
    | with_reducible assumption
    | with_reducible apply OnlyChanges.ite
    | with_reducible refine OnlyChanges.cond (fun _ => ?_) ?_
    | with_reducible apply diverge_frame
    | ((with_reducible refine Part.nested ?_); rfl)
    | ((with_reducible refine Part.held ?_); rfl)
    | split
    | dsimp only
    | dsimp only [id]
theorem equaliserDivergence_frame {qs : List Part} {s t : State} (x0 : Nat) (a : OnlyChanges qs s t) (h : ([.sill, .control, .counters, .cal, .carrier, .joinery, .framer, .timing] : List Part).all (fun p => qs.contains p) = true) :
    OnlyChanges qs s (equaliserDivergence x0 t) := OnlyChanges.after (equaliserDivergence_only x0 t) a h

theorem acfLossOfFrame_only (x0 : Nat) (s : State) :
    OnlyChanges [.sill, .control, .counters, .cal, .carrier, .joinery, .framer, .timing] s (acfLossOfFrame x0 s) := by
  unfold acfLossOfFrame
  repeat' first
    | with_reducible exact OnlyChanges.refl _ _
    | with_reducible assumption
    | with_reducible apply OnlyChanges.ite
    | with_reducible refine OnlyChanges.cond (fun _ => ?_) ?_
    | with_reducible apply acquire_frame
    | with_reducible apply modCu_frame
    | with_reducible apply unlock_frame
    | ((with_reducible refine Part.nested ?_); rfl)
    | ((with_reducible refine Part.held ?_); rfl)
    | split
    | dsimp only
    | dsimp only [id]
theorem acfLossOfFrame_frame {qs : List Part} {s t : State} (x0 : Nat) (a : OnlyChanges qs s t) (h : ([.sill, .control, .counters, .cal, .carrier, .joinery, .framer, .timing] : List Part).all (fun p => qs.contains p) = true) :
    OnlyChanges qs s (acfLossOfFrame x0 t) := OnlyChanges.after (acfLossOfFrame_only x0 t) a h

theorem joineryFallback_only (p : Nat) (s : State) :
    OnlyChanges [.sill, .control, .counters, .joinery] s (joineryFallback p s) := by
  unfold joineryFallback
  repeat' first
    | with_reducible exact OnlyChanges.refl _ _
    | with_reducible assumption
    | with_reducible apply OnlyChanges.ite
    | with_reducible refine OnlyChanges.cond (fun _ => ?_) ?_
    | with_reducible apply fallbackPair_frame
    | ((with_reducible refine Part.nested ?_); rfl)
    | ((with_reducible refine Part.held ?_); rfl)
    | split
    | dsimp only
    | dsimp only [id]
theorem joineryFallback_frame {qs : List Part} {s t : State} (p : Nat) (a : OnlyChanges qs s t) (h : ([.sill, .control, .counters, .joinery] : List Part).all (fun p => qs.contains p) = true) :
    OnlyChanges qs s (joineryFallback p t) := OnlyChanges.after (joineryFallback_only p t) a h

theorem joineryJoin_only (p : Nat) (s : State) :
    OnlyChanges [.sill, .control, .counters, .joinery] s (joineryJoin p s) := by
  unfold joineryJoin
  repeat' first
    | with_reducible exact OnlyChanges.refl _ _
    | with_reducible assumption
    | with_reducible apply OnlyChanges.ite
    | with_reducible refine OnlyChanges.cond (fun _ => ?_) ?_
    | with_reducible apply modPair_frame
    | with_reducible apply raise_frame
    | ((with_reducible refine Part.nested ?_); rfl)
    | ((with_reducible refine Part.held ?_); rfl)
    | split
    | dsimp only
    | dsimp only [id]
theorem joineryJoin_frame {qs : List Part} {s t : State} (p : Nat) (a : OnlyChanges qs s t) (h : ([.sill, .control, .counters, .joinery] : List Part).all (fun p => qs.contains p) = true) :
    OnlyChanges qs s (joineryJoin p t) := OnlyChanges.after (joineryJoin_only p t) a h

theorem daeSuspend_only (x0 : Nat) (s : State) :
    OnlyChanges [.sill, .control, .counters, .carrier] s (daeSuspend x0 s) := by
  unfold daeSuspend
  repeat' first
    | with_reducible exact OnlyChanges.refl _ _
    | with_reducible assumption
    | with_reducible apply OnlyChanges.ite
    | with_reducible refine OnlyChanges.cond (fun _ => ?_) ?_
    | with_reducible apply modCu_frame
    | with_reducible apply raise_frame
    | ((with_reducible refine Part.nested ?_); rfl)
    | ((with_reducible refine Part.held ?_); rfl)
    | split
    | dsimp only
    | dsimp only [id]
theorem daeSuspend_frame {qs : List Part} {s t : State} (x0 : Nat) (a : OnlyChanges qs s t) (h : ([.sill, .control, .counters, .carrier] : List Part).all (fun p => qs.contains p) = true) :
    OnlyChanges qs s (daeSuspend x0 t) := OnlyChanges.after (daeSuspend_only x0 t) a h

theorem daeResume_only (x0 : Nat) (s : State) :
    OnlyChanges [.sill, .control, .counters, .carrier] s (daeResume x0 s) := by
  unfold daeResume
  repeat' first
    | with_reducible exact OnlyChanges.refl _ _
    | with_reducible assumption
    | with_reducible apply OnlyChanges.ite
    | with_reducible refine OnlyChanges.cond (fun _ => ?_) ?_
    | with_reducible apply modCu_frame
    | with_reducible apply raise_frame
    | ((with_reducible refine Part.nested ?_); rfl)
    | ((with_reducible refine Part.held ?_); rfl)
    | split
    | dsimp only
    | dsimp only [id]
theorem daeResume_frame {qs : List Part} {s t : State} (x0 : Nat) (a : OnlyChanges qs s t) (h : ([.sill, .control, .counters, .carrier] : List Part).all (fun p => qs.contains p) = true) :
    OnlyChanges qs s (daeResume x0 t) := OnlyChanges.after (daeResume_only x0 t) a h

end Sys2Proof.Machine
end

