-- ==== Sys2Proof/Laws/FrameClient.lean ====
section
/-! SUPPORT. What each operation of Client.lean may change. -/

-- One theorem after another: with a thread for each, the package as one text outgrows the checker's memory limit.
set_option Elab.async false

namespace Sys2Proof.Machine

theorem modClients_only (f : Clients → Clients) (s : State) :
    OnlyChanges [.client] s (modClients f s) := by
  unfold modClients
  repeat' first
    | with_reducible exact OnlyChanges.refl _ _
    | with_reducible assumption
    | with_reducible apply OnlyChanges.ite
    | ((with_reducible refine Part.nested ?_); rfl)
    | ((with_reducible refine Part.held ?_); rfl)
    | split
    | dsimp only
    | dsimp only [id]
    | with_reducible apply set_client
theorem modClients_frame {qs : List Part} {s t : State} (f : Clients → Clients) (a : OnlyChanges qs s t) (h : ([.client] : List Part).all (fun p => qs.contains p) = true) :
    OnlyChanges qs s (modClients f t) := OnlyChanges.after (modClients_only f t) a h

theorem modClient_only (c : Nat) (f : Client → Client) (s : State) :
    OnlyChanges [.client] s (modClient c f s) := by
  unfold modClient
  repeat' first
    | with_reducible exact OnlyChanges.refl _ _
    | with_reducible assumption
    | with_reducible apply OnlyChanges.ite
    | with_reducible apply modClients_frame
    | ((with_reducible refine Part.nested ?_); rfl)
    | ((with_reducible refine Part.held ?_); rfl)
    | split
    | dsimp only
    | dsimp only [id]
theorem modClient_frame {qs : List Part} {s t : State} (c : Nat) (f : Client → Client) (a : OnlyChanges qs s t) (h : ([.client] : List Part).all (fun p => qs.contains p) = true) :
    OnlyChanges qs s (modClient c f t) := OnlyChanges.after (modClient_only c f t) a h

theorem modFlexe_only (g : Nat) (f : FlexE → FlexE) (s : State) :
    OnlyChanges [.client] s (modFlexe g f s) := by
  unfold modFlexe
  repeat' first
    | with_reducible exact OnlyChanges.refl _ _
    | with_reducible assumption
    | with_reducible apply OnlyChanges.ite
    | with_reducible apply modClients_frame
    | ((with_reducible refine Part.nested ?_); rfl)
    | ((with_reducible refine Part.held ?_); rfl)
    | split
    | dsimp only
    | dsimp only [id]
theorem modFlexe_frame {qs : List Part} {s t : State} (g : Nat) (f : FlexE → FlexE) (a : OnlyChanges qs s t) (h : ([.client] : List Part).all (fun p => qs.contains p) = true) :
    OnlyChanges qs s (modFlexe g f t) := OnlyChanges.after (modFlexe_only g f t) a h

theorem modTrib_only (x0 : Nat) (f : Trib → Trib) (s : State) :
    OnlyChanges [.client] s (modTrib x0 f s) := by
  unfold modTrib
  repeat' first
    | with_reducible exact OnlyChanges.refl _ _
    | with_reducible assumption
    | with_reducible apply OnlyChanges.ite
    | with_reducible apply modClients_frame
    | ((with_reducible refine Part.nested ?_); rfl)
    | ((with_reducible refine Part.held ?_); rfl)
    | split
    | dsimp only
    | dsimp only [id]
theorem modTrib_frame {qs : List Part} {s t : State} (x0 : Nat) (f : Trib → Trib) (a : OnlyChanges qs s t) (h : ([.client] : List Part).all (fun p => qs.contains p) = true) :
    OnlyChanges qs s (modTrib x0 f t) := OnlyChanges.after (modTrib_only x0 f t) a h

theorem demandLanes_only (c : Nat) (s : State) :
    OnlyChanges [.power, .cal, .elements, .carrier, .client] s (demandLanes c s) := by
  unfold demandLanes
  repeat' first
    | with_reducible exact OnlyChanges.refl _ _
    | with_reducible assumption
    | with_reducible apply OnlyChanges.ite
    | with_reducible refine OnlyChanges.each (fun _ _ => ?_) _ ?_
    | with_reducible apply demand_frame
    | ((with_reducible refine Part.nested ?_); rfl)
    | ((with_reducible refine Part.held ?_); rfl)
    | split
    | dsimp only
    | dsimp only [id]
theorem demandLanes_frame {qs : List Part} {s t : State} (c : Nat) (a : OnlyChanges qs s t) (h : ([.power, .cal, .elements, .carrier, .client] : List Part).all (fun p => qs.contains p) = true) :
    OnlyChanges qs s (demandLanes c t) := OnlyChanges.after (demandLanes_only c t) a h

theorem countFec_only (c : Nat) (f : HostFec) (s : State) :
    OnlyChanges [.counters] s (countFec c f s) := by
  unfold countFec
  repeat' first
    | with_reducible exact OnlyChanges.refl _ _
    | with_reducible assumption
    | with_reducible apply OnlyChanges.ite
    | with_reducible apply bump_frame
    | ((with_reducible refine Part.nested ?_); rfl)
    | ((with_reducible refine Part.held ?_); rfl)
    | split
    | dsimp only
    | dsimp only [id]
theorem countFec_frame {qs : List Part} {s t : State} (c : Nat) (f : HostFec) (a : OnlyChanges qs s t) (h : ([.counters] : List Part).all (fun p => qs.contains p) = true) :
    OnlyChanges qs s (countFec c f t) := OnlyChanges.after (countFec_only c f t) a h

theorem clientFrameRx_only (c : Nat) (data : List Byte) (fcsOk : Bool) (fec : HostFec) (odd : List OddWord) (s : State) :
    OnlyChanges [.sill, .power, .control, .counters, .cal, .elements, .carrier, .client, .sched, .memory, .fresh] s (clientFrameRx c data fcsOk fec odd s) := by
  unfold clientFrameRx
  repeat' first
    | with_reducible exact OnlyChanges.refl _ _
    | with_reducible assumption
    | with_reducible apply OnlyChanges.ite
    | with_reducible apply bump_frame
    | with_reducible apply countFec_frame
    | with_reducible apply demandLanes_frame
    | with_reducible apply drawNat_frame
    | with_reducible refine drawNat_snd (by assumption) ?_ ?_
    | with_reducible apply enqueue_frame
    | with_reducible apply modClient_frame
    | with_reducible apply traceItem_frame
    | ((with_reducible refine Part.nested ?_); rfl)
    | ((with_reducible refine Part.held ?_); rfl)
    | split
    | dsimp only
    | dsimp only [id]
theorem clientFrameRx_frame {qs : List Part} {s t : State} (c : Nat) (data : List Byte) (fcsOk : Bool) (fec : HostFec) (odd : List OddWord) (a : OnlyChanges qs s t) (h : ([.sill, .power, .control, .counters, .cal, .elements, .carrier, .client, .sched, .memory, .fresh] : List Part).all (fun p => qs.contains p) = true) :
    OnlyChanges qs s (clientFrameRx c data fcsOk fec odd t) := OnlyChanges.after (clientFrameRx_only c data fcsOk fec odd t) a h

theorem clientLinkChange_only (c : Nat) (link : Nat) (s : State) :
    OnlyChanges [.sill, .control, .counters, .client, .timing] s (clientLinkChange c link s) := by
  unfold clientLinkChange
  repeat' first
    | with_reducible exact OnlyChanges.refl _ _
    | with_reducible assumption
    | with_reducible apply OnlyChanges.ite
    | with_reducible apply hostClock_frame
    | with_reducible apply modClient_frame
    | with_reducible apply raise_frame
    | ((with_reducible refine Part.nested ?_); rfl)
    | ((with_reducible refine Part.held ?_); rfl)
    | split
    | dsimp only
    | dsimp only [id]
theorem clientLinkChange_frame {qs : List Part} {s t : State} (c : Nat) (link : Nat) (a : OnlyChanges qs s t) (h : ([.sill, .control, .counters, .client, .timing] : List Part).all (fun p => qs.contains p) = true) :
    OnlyChanges qs s (clientLinkChange c link t) := OnlyChanges.after (clientLinkChange_only c link t) a h

theorem settleLinks_only (s : State) :
    OnlyChanges [.sill, .control, .counters, .client, .timing] s (settleLinks s) := by
  unfold settleLinks
  repeat' first
    | with_reducible exact OnlyChanges.refl _ _
    | with_reducible assumption
    | with_reducible apply OnlyChanges.ite
    | with_reducible refine OnlyChanges.each (fun _ _ => ?_) _ ?_
    | with_reducible apply clientLinkChange_frame
    | ((with_reducible refine Part.nested ?_); rfl)
    | ((with_reducible refine Part.held ?_); rfl)
    | split
    | dsimp only
    | dsimp only [id]
theorem settleLinks_frame {qs : List Part} {s t : State}  (a : OnlyChanges qs s t) (h : ([.sill, .control, .counters, .client, .timing] : List Part).all (fun p => qs.contains p) = true) :
    OnlyChanges qs s (settleLinks t) := OnlyChanges.after (settleLinks_only t) a h

theorem modElastic_only (c : Nat) (dir : Nat) (f : Elastic → Elastic) (s : State) :
    OnlyChanges [.client] s (modElastic c dir f s) := by
  unfold modElastic
  repeat' first
    | with_reducible exact OnlyChanges.refl _ _
    | with_reducible assumption
    | with_reducible apply OnlyChanges.ite
    | with_reducible apply modClients_frame
    | ((with_reducible refine Part.nested ?_); rfl)
    | ((with_reducible refine Part.held ?_); rfl)
    | split
    | dsimp only
    | dsimp only [id]
theorem modElastic_frame {qs : List Part} {s t : State} (c : Nat) (dir : Nat) (f : Elastic → Elastic) (a : OnlyChanges qs s t) (h : ([.client] : List Part).all (fun p => qs.contains p) = true) :
    OnlyChanges qs s (modElastic c dir f t) := OnlyChanges.after (modElastic_only c dir f t) a h

theorem elasticEnter_only (c : Nat) (dir : Nat) (kind : Nat) (block : Nat) (s : State) :
    OnlyChanges [.counters, .client] s (elasticEnter c dir kind block s) := by
  unfold elasticEnter
  repeat' first
    | with_reducible exact OnlyChanges.refl _ _
    | with_reducible assumption
    | with_reducible apply OnlyChanges.ite
    | with_reducible apply bump_frame
    | with_reducible apply modElastic_frame
    | ((with_reducible refine Part.nested ?_); rfl)
    | ((with_reducible refine Part.held ?_); rfl)
    | split
    | dsimp only
    | dsimp only [id]
theorem elasticEnter_frame {qs : List Part} {s t : State} (c : Nat) (dir : Nat) (kind : Nat) (block : Nat) (a : OnlyChanges qs s t) (h : ([.counters, .client] : List Part).all (fun p => qs.contains p) = true) :
    OnlyChanges qs s (elasticEnter c dir kind block t) := OnlyChanges.after (elasticEnter_only c dir kind block t) a h

theorem elasticLeave_only (c : Nat) (dir : Nat) (s : State) :
    OnlyChanges [.counters, .client] s (elasticLeave c dir s) := by
  unfold elasticLeave
  repeat' first
    | with_reducible exact OnlyChanges.refl _ _
    | with_reducible assumption
    | with_reducible apply OnlyChanges.ite
    | with_reducible apply bump_frame
    | with_reducible apply modElastic_frame
    | ((with_reducible refine Part.nested ?_); rfl)
    | ((with_reducible refine Part.held ?_); rfl)
    | split
    | dsimp only
    | dsimp only [id]
theorem elasticLeave_frame {qs : List Part} {s t : State} (c : Nat) (dir : Nat) (a : OnlyChanges qs s t) (h : ([.counters, .client] : List Part).all (fun p => qs.contains p) = true) :
    OnlyChanges qs s (elasticLeave c dir t) := OnlyChanges.after (elasticLeave_only c dir t) a h

theorem elasticBufferBlock_only (c : Nat) (dir : Nat) (enters : Option (Fin 4)) (leaves : Bool) (s : State) :
    OnlyChanges [.counters, .client] s (elasticBufferBlock c dir enters leaves s) := by
  unfold elasticBufferBlock
  repeat' first
    | with_reducible exact OnlyChanges.refl _ _
    | with_reducible assumption
    | with_reducible apply OnlyChanges.ite
    | with_reducible apply elasticEnter_frame
    | with_reducible apply elasticLeave_frame
    | with_reducible apply modElastic_frame
    | ((with_reducible refine Part.nested ?_); rfl)
    | ((with_reducible refine Part.held ?_); rfl)
    | split
    | dsimp only
    | dsimp only [id]
theorem elasticBufferBlock_frame {qs : List Part} {s t : State} (c : Nat) (dir : Nat) (enters : Option (Fin 4)) (leaves : Bool) (a : OnlyChanges qs s t) (h : ([.counters, .client] : List Part).all (fun p => qs.contains p) = true) :
    OnlyChanges qs s (elasticBufferBlock c dir enters leaves t) := OnlyChanges.after (elasticBufferBlock_only c dir enters leaves t) a h

theorem flexeEvent_only (g : Nat) (result : Nat) (s : State) :
    OnlyChanges [.sill, .control, .counters] s (flexeEvent g result s) := by
  unfold flexeEvent
  repeat' first
    | with_reducible exact OnlyChanges.refl _ _
    | with_reducible assumption
    | with_reducible apply OnlyChanges.ite
    | with_reducible apply raise_frame
    | ((with_reducible refine Part.nested ?_); rfl)
    | ((with_reducible refine Part.held ?_); rfl)
    | split
    | dsimp only
    | dsimp only [id]
theorem flexeEvent_frame {qs : List Part} {s t : State} (g : Nat) (result : Nat) (a : OnlyChanges qs s t) (h : ([.sill, .control, .counters] : List Part).all (fun p => qs.contains p) = true) :
    OnlyChanges qs s (flexeEvent g result t) := OnlyChanges.after (flexeEvent_only g result t) a h

theorem flexeCalAck_only (g : Nat) (inFrame : List Nat) (s : State) :
    OnlyChanges [.sill, .control, .counters, .client] s (flexeCalAck g inFrame s) := by
  unfold flexeCalAck
  repeat' first
    | with_reducible exact OnlyChanges.refl _ _
    | with_reducible assumption
    | with_reducible apply OnlyChanges.ite
    | with_reducible refine OnlyChanges.cond (fun _ => ?_) ?_
    | with_reducible refine OnlyChanges.each (fun _ _ => ?_) _ ?_
    | with_reducible apply bump_frame
    | with_reducible apply flexeEvent_frame
    | with_reducible apply modFlexe_frame
    | ((with_reducible refine Part.nested ?_); rfl)
    | ((with_reducible refine Part.held ?_); rfl)
    | split
    | dsimp only
    | dsimp only [id]
theorem flexeCalAck_frame {qs : List Part} {s t : State} (g : Nat) (inFrame : List Nat) (a : OnlyChanges qs s t) (h : ([.sill, .control, .counters, .client] : List Part).all (fun p => qs.contains p) = true) :
    OnlyChanges qs s (flexeCalAck g inFrame t) := OnlyChanges.after (flexeCalAck_only g inFrame t) a h

theorem flexeSwitchTimeout_only (g : Nat) (s : State) :
    OnlyChanges [.sill, .control, .counters, .client] s (flexeSwitchTimeout g s) := by
  unfold flexeSwitchTimeout
  repeat' first
    | with_reducible exact OnlyChanges.refl _ _
    | with_reducible assumption
    | with_reducible apply OnlyChanges.ite
    | with_reducible refine OnlyChanges.cond (fun _ => ?_) ?_
    | with_reducible apply flexeEvent_frame
    | with_reducible apply modFlexe_frame
    | ((with_reducible refine Part.nested ?_); rfl)
    | ((with_reducible refine Part.held ?_); rfl)
    | split
    | dsimp only
    | dsimp only [id]
theorem flexeSwitchTimeout_frame {qs : List Part} {s t : State} (g : Nat) (a : OnlyChanges qs s t) (h : ([.sill, .control, .counters, .client] : List Part).all (fun p => qs.contains p) = true) :
    OnlyChanges qs s (flexeSwitchTimeout g t) := OnlyChanges.after (flexeSwitchTimeout_only g t) a h

theorem gfpEvent_only (x0 : Nat) (state : Nat) (s : State) :
    OnlyChanges [.sill, .control, .counters] s (gfpEvent x0 state s) := by
  unfold gfpEvent
  repeat' first
    | with_reducible exact OnlyChanges.refl _ _
    | with_reducible assumption
    | with_reducible apply OnlyChanges.ite
    | with_reducible apply raise_frame
    | ((with_reducible refine Part.nested ?_); rfl)
    | ((with_reducible refine Part.held ?_); rfl)
    | split
    | dsimp only
    | dsimp only [id]
theorem gfpEvent_frame {qs : List Part} {s t : State} (x0 : Nat) (state : Nat) (a : OnlyChanges qs s t) (h : ([.sill, .control, .counters] : List Part).all (fun p => qs.contains p) = true) :
    OnlyChanges qs s (gfpEvent x0 state t) := OnlyChanges.after (gfpEvent_only x0 state t) a h

theorem gfpGo_only (x0 : Nat) (new : Nat) (s : State) :
    OnlyChanges [.sill, .control, .counters, .client] s (gfpGo x0 new s) := by
  unfold gfpGo
  repeat' first
    | with_reducible exact OnlyChanges.refl _ _
    | with_reducible assumption
    | with_reducible apply OnlyChanges.ite
    | with_reducible apply gfpEvent_frame
    | with_reducible apply modTrib_frame
    | ((with_reducible refine Part.nested ?_); rfl)
    | ((with_reducible refine Part.held ?_); rfl)
    | split
    | dsimp only
    | dsimp only [id]
theorem gfpGo_frame {qs : List Part} {s t : State} (x0 : Nat) (new : Nat) (a : OnlyChanges qs s t) (h : ([.sill, .control, .counters, .client] : List Part).all (fun p => qs.contains p) = true) :
    OnlyChanges qs s (gfpGo x0 new t) := OnlyChanges.after (gfpGo_only x0 new t) a h

theorem egressFrame_only (x0 : Nat) (c : Nat) (n : Nat) (s : State) :
    OnlyChanges [.power, .counters, .cal, .elements, .carrier, .client] s (egressFrame x0 c n s) := by
  unfold egressFrame
  repeat' first
    | with_reducible exact OnlyChanges.refl _ _
    | with_reducible assumption
    | with_reducible apply OnlyChanges.ite
    | with_reducible apply bump_frame
    | with_reducible apply demandLanes_frame
    | with_reducible apply modClients_frame
    | ((with_reducible refine Part.nested ?_); rfl)
    | ((with_reducible refine Part.held ?_); rfl)
    | split
    | dsimp only
    | dsimp only [id]
theorem egressFrame_frame {qs : List Part} {s t : State} (x0 : Nat) (c : Nat) (n : Nat) (a : OnlyChanges qs s t) (h : ([.power, .counters, .cal, .elements, .carrier, .client] : List Part).all (fun p => qs.contains p) = true) :
    OnlyChanges qs s (egressFrame x0 c n t) := OnlyChanges.after (egressFrame_only x0 c n t) a h

theorem gfpFrame_only (x0 : Nat) (f : GfpSeen) (s : State) :
    OnlyChanges [.power, .counters, .cal, .elements, .carrier, .client, .fresh] s (gfpFrame x0 f s) := by
  unfold gfpFrame
  repeat' first
    | with_reducible exact OnlyChanges.refl _ _
    | with_reducible assumption
    | with_reducible apply OnlyChanges.ite
    | with_reducible apply bump_frame
    | with_reducible apply drawNat_frame
    | with_reducible refine drawNat_snd (by assumption) ?_ ?_
    | with_reducible apply egressFrame_frame
    | with_reducible apply modTrib_frame
    | with_reducible apply traceItem_frame
    | ((with_reducible refine Part.nested ?_); rfl)
    | ((with_reducible refine Part.held ?_); rfl)
    | split
    | dsimp only
    | dsimp only [id]
theorem gfpFrame_frame {qs : List Part} {s t : State} (x0 : Nat) (f : GfpSeen) (a : OnlyChanges qs s t) (h : ([.power, .counters, .cal, .elements, .carrier, .client, .fresh] : List Part).all (fun p => qs.contains p) = true) :
    OnlyChanges qs s (gfpFrame x0 f t) := OnlyChanges.after (gfpFrame_only x0 f t) a h

theorem gfpFrameRx_only (x0 : Nat) (f : GfpSeen) (s : State) :
    OnlyChanges [.sill, .power, .control, .counters, .cal, .elements, .carrier, .client, .fresh] s (gfpFrameRx x0 f s) := by
  unfold gfpFrameRx
  repeat' first
    | with_reducible exact OnlyChanges.refl _ _
    | with_reducible assumption
    | with_reducible apply OnlyChanges.ite
    | with_reducible apply bump_frame
    | with_reducible apply gfpFrame_frame
    | with_reducible apply gfpGo_frame
    | ((with_reducible refine Part.nested ?_); rfl)
    | ((with_reducible refine Part.held ?_); rfl)
    | split
    | dsimp only
    | dsimp only [id]
theorem gfpFrameRx_frame {qs : List Part} {s t : State} (x0 : Nat) (f : GfpSeen) (a : OnlyChanges qs s t) (h : ([.sill, .power, .control, .counters, .cal, .elements, .carrier, .client, .fresh] : List Part).all (fun p => qs.contains p) = true) :
    OnlyChanges qs s (gfpFrameRx x0 f t) := OnlyChanges.after (gfpFrameRx_only x0 f t) a h

theorem setClient_only (c : Nat) (k : Client) (s : State) :
    OnlyChanges [.sill, .power, .control, .counters, .cal, .elements, .carrier, .client, .timing] s (setClient c k s) := by
  unfold setClient
  repeat' first
    | with_reducible exact OnlyChanges.refl _ _
    | with_reducible assumption
    | with_reducible apply OnlyChanges.ite
    | with_reducible apply followQuads_frame
    | with_reducible apply hostClock_frame
    | with_reducible apply modClient_frame
    | with_reducible apply modClients_frame
    | ((with_reducible refine Part.nested ?_); rfl)
    | ((with_reducible refine Part.held ?_); rfl)
    | split
    | dsimp only
    | dsimp only [id]
theorem setClient_frame {qs : List Part} {s t : State} (c : Nat) (k : Client) (a : OnlyChanges qs s t) (h : ([.sill, .power, .control, .counters, .cal, .elements, .carrier, .client, .timing] : List Part).all (fun p => qs.contains p) = true) :
    OnlyChanges qs s (setClient c k t) := OnlyChanges.after (setClient_only c k t) a h

theorem clientSetClient_only (q : Request) (s : State) :
    ReplyChanges [.sill, .power, .control, .counters, .cal, .elements, .carrier, .client, .timing] s (clientSetClient q s) := by
  unfold clientSetClient
  repeat' first
    | with_reducible exact OnlyChanges.refl _ _
    | with_reducible assumption
    | with_reducible apply ReplyChanges.checked
    | with_reducible apply ReplyChanges.require
    | with_reducible apply ReplyChanges.ite
    | with_reducible apply ReplyChanges.okay
    | with_reducible apply ReplyChanges.okWith
    | with_reducible refine ReplyChanges.okThen ?_ (fun _ => ?_)
    | with_reducible apply ReplyChanges.refuse
    | with_reducible apply ReplyChanges.reject
    | with_reducible refine ReplyChanges.done _ _ ?_ (fun _ => ?_)
    | with_reducible apply ReplyChanges.later
    | with_reducible apply OnlyChanges.ite
    | with_reducible apply setClient_frame
    | ((with_reducible refine Part.nested ?_); rfl)
    | ((with_reducible refine Part.held ?_); rfl)
    | split
    | dsimp only
    | dsimp only [id]
theorem clientSetClient_frame {qs : List Part} {s t : State} (q : Request) (a : OnlyChanges qs s t) (h : ([.sill, .power, .control, .counters, .cal, .elements, .carrier, .client, .timing] : List Part).all (fun p => qs.contains p) = true) :
    ReplyChanges qs s (clientSetClient q t) := ReplyChanges.after (clientSetClient_only q t) a h

theorem clientSetTrib_only (q : Request) (s : State) :
    ReplyChanges [.client] s (clientSetTrib q s) := by
  have set := fun (f : Trib → Trib) => modTrib_frame (qs := [.client]) (q.b 0) f (OnlyChanges.refl _ s) rfl
  refine ReplyChanges.checked _ (OnlyChanges.refl _ _) (ReplyChanges.require _ (OnlyChanges.refl _ _) (ReplyChanges.ite ?_ ?_))
  · exact ReplyChanges.okay (set _)
  · split
    · exact OnlyChanges.refl _ _
    · exact ReplyChanges.ite (OnlyChanges.refl _ _) (ReplyChanges.ite (OnlyChanges.refl _ _) (ReplyChanges.okay (set _)))

theorem clientSetTrib_frame {qs : List Part} {s t : State} (q : Request) (a : OnlyChanges qs s t) (h : ([.client] : List Part).all (fun p => qs.contains p) = true) :
    ReplyChanges qs s (clientSetTrib q t) := ReplyChanges.after (clientSetTrib_only q t) a h

theorem clientSetFlexe_only (q : Request) (s : State) :
    ReplyChanges [.sill, .control, .counters, .client] s (clientSetFlexe q s) := by
  unfold clientSetFlexe
  repeat' first
    | with_reducible exact OnlyChanges.refl _ _
    | with_reducible assumption
    | with_reducible apply ReplyChanges.checked
    | with_reducible apply ReplyChanges.require
    | with_reducible apply ReplyChanges.ite
    | with_reducible apply ReplyChanges.okay
    | with_reducible apply ReplyChanges.okWith
    | with_reducible refine ReplyChanges.okThen ?_ (fun _ => ?_)
    | with_reducible apply ReplyChanges.refuse
    | with_reducible apply ReplyChanges.reject
    | with_reducible refine ReplyChanges.done _ _ ?_ (fun _ => ?_)
    | with_reducible apply ReplyChanges.later
    | with_reducible apply OnlyChanges.ite
    | with_reducible apply flexeEvent_frame
    | with_reducible apply modFlexe_frame
    | ((with_reducible refine Part.nested ?_); rfl)
    | ((with_reducible refine Part.held ?_); rfl)
    | split
    | dsimp only
    | dsimp only [id]
theorem clientSetFlexe_frame {qs : List Part} {s t : State} (q : Request) (a : OnlyChanges qs s t) (h : ([.sill, .control, .counters, .client] : List Part).all (fun p => qs.contains p) = true) :
    ReplyChanges qs s (clientSetFlexe q t) := ReplyChanges.after (clientSetFlexe_only q t) a h

theorem clientSetClass_only (q : Request) (s : State) :
    ReplyChanges [.client] s (clientSetClass q s) := by
  unfold clientSetClass
  repeat' first
    | with_reducible exact OnlyChanges.refl _ _
    | with_reducible assumption
    | with_reducible apply ReplyChanges.checked
    | with_reducible apply ReplyChanges.require
    | with_reducible apply ReplyChanges.ite
    | with_reducible apply ReplyChanges.okay
    | with_reducible apply ReplyChanges.okWith
    | with_reducible refine ReplyChanges.okThen ?_ (fun _ => ?_)
    | with_reducible apply ReplyChanges.refuse
    | with_reducible apply ReplyChanges.reject
    | with_reducible refine ReplyChanges.done _ _ ?_ (fun _ => ?_)
    | with_reducible apply ReplyChanges.later
    | with_reducible apply OnlyChanges.ite
    | with_reducible apply modClients_frame
    | ((with_reducible refine Part.nested ?_); rfl)
    | ((with_reducible refine Part.held ?_); rfl)
    | split
    | dsimp only
    | dsimp only [id]
theorem clientSetClass_frame {qs : List Part} {s t : State} (q : Request) (a : OnlyChanges qs s t) (h : ([.client] : List Part).all (fun p => qs.contains p) = true) :
    ReplyChanges qs s (clientSetClass q t) := ReplyChanges.after (clientSetClass_only q t) a h

theorem clientGetStatus_only (q : Request) (s : State) :
    ReplyChanges [] s (clientGetStatus q s) := by
  unfold clientGetStatus
  repeat' first
    | with_reducible exact OnlyChanges.refl _ _
    | with_reducible assumption
    | with_reducible apply ReplyChanges.checked
    | with_reducible apply ReplyChanges.require
    | with_reducible apply ReplyChanges.ite
    | with_reducible apply ReplyChanges.okay
    | with_reducible apply ReplyChanges.okWith
    | with_reducible refine ReplyChanges.okThen ?_ (fun _ => ?_)
    | with_reducible apply ReplyChanges.refuse
    | with_reducible apply ReplyChanges.reject
    | with_reducible refine ReplyChanges.done _ _ ?_ (fun _ => ?_)
    | with_reducible apply ReplyChanges.later
    | with_reducible apply OnlyChanges.ite
    | ((with_reducible refine Part.nested ?_); rfl)
    | ((with_reducible refine Part.held ?_); rfl)
    | split
    | dsimp only
    | dsimp only [id]
theorem clientGetStatus_frame {qs : List Part} {s t : State} (q : Request) (a : OnlyChanges qs s t) (h : ([] : List Part).all (fun p => qs.contains p) = true) :
    ReplyChanges qs s (clientGetStatus q t) := ReplyChanges.after (clientGetStatus_only q t) a h

theorem clientGetCounts_only (q : Request) (s : State) :
    ReplyChanges [] s (clientGetCounts q s) := by
  unfold clientGetCounts
  repeat' first
    | with_reducible exact OnlyChanges.refl _ _
    | with_reducible assumption
    | with_reducible apply ReplyChanges.checked
    | with_reducible apply ReplyChanges.require
    | with_reducible apply ReplyChanges.ite
    | with_reducible apply ReplyChanges.okay
    | with_reducible apply ReplyChanges.okWith
    | with_reducible refine ReplyChanges.okThen ?_ (fun _ => ?_)
    | with_reducible apply ReplyChanges.refuse
    | with_reducible apply ReplyChanges.reject
    | with_reducible refine ReplyChanges.done _ _ ?_ (fun _ => ?_)
    | with_reducible apply ReplyChanges.later
    | with_reducible apply OnlyChanges.ite
    | ((with_reducible refine Part.nested ?_); rfl)
    | ((with_reducible refine Part.held ?_); rfl)
    | split
    | dsimp only
    | dsimp only [id]
theorem clientGetCounts_frame {qs : List Part} {s t : State} (q : Request) (a : OnlyChanges qs s t) (h : ([] : List Part).all (fun p => qs.contains p) = true) :
    ReplyChanges qs s (clientGetCounts q t) := ReplyChanges.after (clientGetCounts_only q t) a h

end Sys2Proof.Machine
end

