-- ==== Sys2Proof/Laws/FrameControlPort.lean ====
section
/-! SUPPORT. What each operation of ControlPort.lean may change. -/

-- One theorem after another: with a thread for each, the package as one text outgrows the checker's memory limit.
set_option Elab.async false

namespace Sys2Proof.Machine

theorem admitReplies_only (s : State) :
    OnlyChanges [.control] s (admitReplies s) := by
  unfold admitReplies
  repeat' first
    | with_reducible exact OnlyChanges.refl _ _
    | with_reducible assumption
    | with_reducible apply OnlyChanges.ite
    | with_reducible apply modControl_frame
    | ((with_reducible refine Part.nested ?_); rfl)
    | ((with_reducible refine Part.held ?_); rfl)
    | split
    | dsimp only
    | dsimp only [id]
theorem admitReplies_frame {qs : List Part} {s t : State}  (a : OnlyChanges qs s t) (h : ([.control] : List Part).all (fun p => qs.contains p) = true) :
    OnlyChanges qs s (admitReplies t) := OnlyChanges.after (admitReplies_only t) a h

theorem cpPushPacket_only (bytes : List Byte) (s : State) :
    OnlyChanges [.pins, .sill, .control] s (cpPushPacket bytes s) := by
  unfold cpPushPacket
  repeat' first
    | with_reducible exact OnlyChanges.refl _ _
    | with_reducible assumption
    | with_reducible apply OnlyChanges.ite
    | with_reducible refine OnlyChanges.cond (fun _ => ?_) ?_
    | with_reducible apply modPins_frame
    | with_reducible apply receive_frame
    | ((with_reducible refine Part.nested ?_); rfl)
    | ((with_reducible refine Part.held ?_); rfl)
    | split
    | dsimp only
    | dsimp only [id]
theorem cpPushPacket_frame {qs : List Part} {s t : State} (bytes : List Byte) (a : OnlyChanges qs s t) (h : ([.pins, .sill, .control] : List Part).all (fun p => qs.contains p) = true) :
    OnlyChanges qs s (cpPushPacket bytes t) := OnlyChanges.after (cpPushPacket_only bytes t) a h

theorem cpPull_only (n : Nat) (s : State) :
    OnlyChanges [.pins, .sill, .control] s (cpPull n s) := by
  unfold cpPull
  repeat' first
    | with_reducible exact OnlyChanges.refl _ _
    | with_reducible assumption
    | with_reducible apply OnlyChanges.ite
    | with_reducible apply admitReplies_frame
    | with_reducible apply freeEntry_frame
    | with_reducible apply modControl_frame
    | with_reducible apply modPins_frame
    | with_reducible apply modSill_frame
    | ((with_reducible refine Part.nested ?_); rfl)
    | ((with_reducible refine Part.held ?_); rfl)
    | split
    | dsimp only
    | dsimp only [id]
theorem cpPull_frame {qs : List Part} {s t : State} (n : Nat) (a : OnlyChanges qs s t) (h : ([.pins, .sill, .control] : List Part).all (fun p => qs.contains p) = true) :
    OnlyChanges qs s (cpPull n t) := OnlyChanges.after (cpPull_only n t) a h

theorem cpInvalidTransaction_only (first : Byte) (s : State) :
    OnlyChanges [.pins] s (cpInvalidTransaction first s) := by
  unfold cpInvalidTransaction
  repeat' first
    | with_reducible exact OnlyChanges.refl _ _
    | with_reducible assumption
    | with_reducible apply OnlyChanges.ite
    | with_reducible refine OnlyChanges.cond (fun _ => ?_) ?_
    | with_reducible apply modPins_frame
    | ((with_reducible refine Part.nested ?_); rfl)
    | ((with_reducible refine Part.held ?_); rfl)
    | split
    | dsimp only
    | dsimp only [id]
theorem cpInvalidTransaction_frame {qs : List Part} {s t : State} (first : Byte) (a : OnlyChanges qs s t) (h : ([.pins] : List Part).all (fun p => qs.contains p) = true) :
    OnlyChanges qs s (cpInvalidTransaction first t) := OnlyChanges.after (cpInvalidTransaction_only first t) a h

theorem rejectRaw_only (port : Port) (origin : Nat) (bytes : List Byte) (f : RawFail) (s : State) :
    OnlyChanges [.sill, .control, .stream, .domain] s (rejectRaw port origin bytes f s) := by
  unfold rejectRaw
  repeat' first
    | with_reducible exact OnlyChanges.refl _ _
    | with_reducible assumption
    | with_reducible apply OnlyChanges.ite
    | with_reducible apply answer_frame
    | with_reducible apply modSill_frame
    | ((with_reducible refine Part.nested ?_); rfl)
    | ((with_reducible refine Part.held ?_); rfl)
    | split
    | dsimp only
    | dsimp only [id]
theorem rejectRaw_frame {qs : List Part} {s t : State} (port : Port) (origin : Nat) (bytes : List Byte) (f : RawFail) (a : OnlyChanges qs s t) (h : ([.sill, .control, .stream, .domain] : List Part).all (fun p => qs.contains p) = true) :
    OnlyChanges qs s (rejectRaw port origin bytes f t) := OnlyChanges.after (rejectRaw_only port origin bytes f t) a h

theorem malformedPacket_only (port : Port) (bytes : List Byte) (count : Nat) (s : State) :
    OnlyChanges [.sill, .control, .stream, .domain] s (malformedPacket port bytes count s) := by
  unfold malformedPacket
  repeat' first
    | with_reducible exact OnlyChanges.refl _ _
    | with_reducible assumption
    | with_reducible apply OnlyChanges.ite
    | with_reducible apply enqueueRx_frame
    | with_reducible apply overrun_frame
    | with_reducible apply rejectRaw_frame
    | with_reducible apply takeAt_frame
    | ((with_reducible refine Part.nested ?_); rfl)
    | ((with_reducible refine Part.held ?_); rfl)
    | split
    | dsimp only
    | dsimp only [id]
theorem malformedPacket_frame {qs : List Part} {s t : State} (port : Port) (bytes : List Byte) (count : Nat) (a : OnlyChanges qs s t) (h : ([.sill, .control, .stream, .domain] : List Part).all (fun p => qs.contains p) = true) :
    OnlyChanges qs s (malformedPacket port bytes count t) := OnlyChanges.after (malformedPacket_only port bytes count t) a h

theorem packetForward_only (port : Port) (p : Packet) (s : State) :
    OnlyChanges [.sill, .control, .stream, .domain] s (packetForward port p s) := by
  unfold packetForward
  repeat' first
    | with_reducible exact OnlyChanges.refl _ _
    | with_reducible assumption
    | with_reducible apply OnlyChanges.ite
    | with_reducible apply enqueueRx_frame
    | with_reducible apply forwardOne_frame
    | with_reducible apply overrun_frame
    | with_reducible apply takeAt_frame
    | ((with_reducible refine Part.nested ?_); rfl)
    | ((with_reducible refine Part.held ?_); rfl)
    | split
    | dsimp only
    | dsimp only [id]
theorem packetForward_frame {qs : List Part} {s t : State} (port : Port) (p : Packet) (a : OnlyChanges qs s t) (h : ([.sill, .control, .stream, .domain] : List Part).all (fun p => qs.contains p) = true) :
    OnlyChanges qs s (packetForward port p t) := OnlyChanges.after (packetForward_only port p t) a h

theorem eventToOutgoingQueue_only (s : State) :
    OnlyChanges [.sill, .control, .counters] s (eventToOutgoingQueue s) := by
  unfold eventToOutgoingQueue
  repeat' first
    | with_reducible exact OnlyChanges.refl _ _
    | with_reducible assumption
    | with_reducible apply OnlyChanges.ite
    | with_reducible apply flushLost_frame
    | with_reducible apply modControl_frame
    | ((with_reducible refine Part.nested ?_); rfl)
    | ((with_reducible refine Part.held ?_); rfl)
    | split
    | dsimp only
    | dsimp only [id]
theorem eventToOutgoingQueue_frame {qs : List Part} {s t : State}  (a : OnlyChanges qs s t) (h : ([.sill, .control, .counters] : List Part).all (fun p => qs.contains p) = true) :
    OnlyChanges qs s (eventToOutgoingQueue t) := OnlyChanges.after (eventToOutgoingQueue_only t) a h

theorem sessionIdleExpiry_only (n : Nat) (s : State) :
    OnlyChanges [.sill, .control, .counters] s (sessionIdleExpiry n s) := by
  unfold sessionIdleExpiry
  repeat' first
    | with_reducible exact OnlyChanges.refl _ _
    | with_reducible assumption
    | with_reducible apply OnlyChanges.ite
    | with_reducible refine OnlyChanges.cond (fun _ => ?_) ?_
    | with_reducible apply endSession_frame
    | ((with_reducible refine Part.nested ?_); rfl)
    | ((with_reducible refine Part.held ?_); rfl)
    | split
    | dsimp only
    | dsimp only [id]
theorem sessionIdleExpiry_frame {qs : List Part} {s t : State} (n : Nat) (a : OnlyChanges qs s t) (h : ([.sill, .control, .counters] : List Part).all (fun p => qs.contains p) = true) :
    OnlyChanges qs s (sessionIdleExpiry n t) := OnlyChanges.after (sessionIdleExpiry_only n t) a h

theorem sessionAuthExpiry_only (n : Nat) (s : State) :
    OnlyChanges [.sill, .control, .counters] s (sessionAuthExpiry n s) := by
  unfold sessionAuthExpiry
  repeat' first
    | with_reducible exact OnlyChanges.refl _ _
    | with_reducible assumption
    | with_reducible apply OnlyChanges.ite
    | with_reducible refine OnlyChanges.cond (fun _ => ?_) ?_
    | with_reducible apply closeSession_frame
    | ((with_reducible refine Part.nested ?_); rfl)
    | ((with_reducible refine Part.held ?_); rfl)
    | split
    | dsimp only
    | dsimp only [id]
theorem sessionAuthExpiry_frame {qs : List Part} {s t : State} (n : Nat) (a : OnlyChanges qs s t) (h : ([.sill, .control, .counters] : List Part).all (fun p => qs.contains p) = true) :
    OnlyChanges qs s (sessionAuthExpiry n t) := OnlyChanges.after (sessionAuthExpiry_only n t) a h

theorem sessionOpen_only (q : Request) (s : State) :
    ReplyChanges [.sill, .control, .fresh] s (sessionOpen q s) := by
  unfold sessionOpen
  repeat' first
    | with_reducible exact OnlyChanges.refl _ _
    | with_reducible assumption
    | with_reducible apply ReplyChanges.checked
    | with_reducible apply ReplyChanges.require
    | with_reducible apply ReplyChanges.ite
    | with_reducible apply ReplyChanges.okay
    | with_reducible apply ReplyChanges.okWith
    | with_reducible refine ReplyChanges.okThen ?_ (fun _ => ?_)
    | with_reducible apply ReplyChanges.refuse
    | with_reducible apply ReplyChanges.reject
    | with_reducible refine ReplyChanges.done _ _ ?_ (fun _ => ?_)
    | with_reducible apply ReplyChanges.later
    | with_reducible apply OnlyChanges.ite
    | with_reducible apply drawBytes_frame
    | with_reducible refine drawBytes_snd (by assumption) ?_ ?_
    | with_reducible apply modControl_frame
    | with_reducible apply modSill_frame
    | ((with_reducible refine Part.nested ?_); rfl)
    | ((with_reducible refine Part.held ?_); rfl)
    | split
    | dsimp only
    | dsimp only [id]
theorem sessionOpen_frame {qs : List Part} {s t : State} (q : Request) (a : OnlyChanges qs s t) (h : ([.sill, .control, .fresh] : List Part).all (fun p => qs.contains p) = true) :
    ReplyChanges qs s (sessionOpen q t) := ReplyChanges.after (sessionOpen_only q t) a h

theorem sessionAuth_only (q : Request) (s : State) :
    ReplyChanges [.sill, .control, .counters, .stream, .domain, .security] s (sessionAuth q s) := by
  unfold sessionAuth
  repeat' first
    | with_reducible exact OnlyChanges.refl _ _
    | with_reducible assumption
    | with_reducible apply ReplyChanges.checked
    | with_reducible apply ReplyChanges.require
    | with_reducible apply ReplyChanges.ite
    | with_reducible apply ReplyChanges.okay
    | with_reducible apply ReplyChanges.okWith
    | with_reducible refine ReplyChanges.okThen ?_ (fun _ => ?_)
    | with_reducible apply ReplyChanges.refuse
    | with_reducible apply ReplyChanges.reject
    | with_reducible refine ReplyChanges.done _ _ ?_ (fun _ => ?_)
    | with_reducible apply ReplyChanges.later
    | with_reducible apply OnlyChanges.ite
    | with_reducible apply authFailure_frame
    | with_reducible apply closeSession_frame
    | with_reducible apply modSession_frame
    | ((with_reducible refine Part.nested ?_); rfl)
    | ((with_reducible refine Part.held ?_); rfl)
    | split
    | dsimp only
    | dsimp only [id]
theorem sessionAuth_frame {qs : List Part} {s t : State} (q : Request) (a : OnlyChanges qs s t) (h : ([.sill, .control, .counters, .stream, .domain, .security] : List Part).all (fun p => qs.contains p) = true) :
    ReplyChanges qs s (sessionAuth q t) := ReplyChanges.after (sessionAuth_only q t) a h

theorem sessionClose_only (q : Request) (s : State) :
    ReplyChanges [.sill, .control, .counters] s (sessionClose q s) := by
  unfold sessionClose
  repeat' first
    | with_reducible exact OnlyChanges.refl _ _
    | with_reducible assumption
    | with_reducible apply ReplyChanges.checked
    | with_reducible apply ReplyChanges.require
    | with_reducible apply ReplyChanges.ite
    | with_reducible apply ReplyChanges.okay
    | with_reducible apply ReplyChanges.okWith
    | with_reducible refine ReplyChanges.okThen ?_ (fun _ => ?_)
    | with_reducible apply ReplyChanges.refuse
    | with_reducible apply ReplyChanges.reject
    | with_reducible refine ReplyChanges.done _ _ ?_ (fun _ => ?_)
    | with_reducible apply ReplyChanges.later
    | with_reducible apply OnlyChanges.ite
    | with_reducible apply endSession_frame
    | ((with_reducible refine Part.nested ?_); rfl)
    | ((with_reducible refine Part.held ?_); rfl)
    | split
    | dsimp only
    | dsimp only [id]
theorem sessionClose_frame {qs : List Part} {s t : State} (q : Request) (a : OnlyChanges qs s t) (h : ([.sill, .control, .counters] : List Part).all (fun p => qs.contains p) = true) :
    ReplyChanges qs s (sessionClose q t) := ReplyChanges.after (sessionClose_only q t) a h

theorem sessionGrantCounters_only (q : Request) (s : State) :
    ReplyChanges [.control] s (sessionGrantCounters q s) := by
  unfold sessionGrantCounters
  repeat' first
    | with_reducible exact OnlyChanges.refl _ _
    | with_reducible assumption
    | with_reducible apply ReplyChanges.checked
    | with_reducible apply ReplyChanges.require
    | with_reducible apply ReplyChanges.ite
    | with_reducible apply ReplyChanges.okay
    | with_reducible apply ReplyChanges.okWith
    | with_reducible refine ReplyChanges.okThen ?_ (fun _ => ?_)
    | with_reducible apply ReplyChanges.refuse
    | with_reducible apply ReplyChanges.reject
    | with_reducible refine ReplyChanges.done _ _ ?_ (fun _ => ?_)
    | with_reducible apply ReplyChanges.later
    | with_reducible apply OnlyChanges.ite
    | with_reducible apply modSession_frame
    | ((with_reducible refine Part.nested ?_); rfl)
    | ((with_reducible refine Part.held ?_); rfl)
    | split
    | dsimp only
    | dsimp only [id]
theorem sessionGrantCounters_frame {qs : List Part} {s t : State} (q : Request) (a : OnlyChanges qs s t) (h : ([.control] : List Part).all (fun p => qs.contains p) = true) :
    ReplyChanges qs s (sessionGrantCounters q t) := ReplyChanges.after (sessionGrantCounters_only q t) a h

theorem sessionGetInfo_only (q : Request) (s : State) :
    ReplyChanges [] s (sessionGetInfo q s) := by
  unfold sessionGetInfo
  repeat' first
    | with_reducible exact OnlyChanges.refl _ _
    | with_reducible assumption
    | with_reducible apply ReplyChanges.checked
    | with_reducible apply ReplyChanges.require
    | with_reducible apply ReplyChanges.ite
    | with_reducible apply ReplyChanges.okay
    | with_reducible apply ReplyChanges.okWith
    | with_reducible refine ReplyChanges.okThen ?_ (fun _ => ?_)
    | with_reducible apply ReplyChanges.refuse
    | with_reducible apply ReplyChanges.reject
    | with_reducible refine ReplyChanges.done _ _ ?_ (fun _ => ?_)
    | with_reducible apply ReplyChanges.later
    | with_reducible apply OnlyChanges.ite
    | ((with_reducible refine Part.nested ?_); rfl)
    | ((with_reducible refine Part.held ?_); rfl)
    | split
    | dsimp only
    | dsimp only [id]
theorem sessionGetInfo_frame {qs : List Part} {s t : State} (q : Request) (a : OnlyChanges qs s t) (h : ([] : List Part).all (fun p => qs.contains p) = true) :
    ReplyChanges qs s (sessionGetInfo q t) := ReplyChanges.after (sessionGetInfo_only q t) a h

theorem sessionSetEvents_only (q : Request) (s : State) :
    ReplyChanges [.control] s (sessionSetEvents q s) := by
  unfold sessionSetEvents
  repeat' first
    | with_reducible exact OnlyChanges.refl _ _
    | with_reducible assumption
    | with_reducible apply ReplyChanges.checked
    | with_reducible apply ReplyChanges.require
    | with_reducible apply ReplyChanges.ite
    | with_reducible apply ReplyChanges.okay
    | with_reducible apply ReplyChanges.okWith
    | with_reducible refine ReplyChanges.okThen ?_ (fun _ => ?_)
    | with_reducible apply ReplyChanges.refuse
    | with_reducible apply ReplyChanges.reject
    | with_reducible refine ReplyChanges.done _ _ ?_ (fun _ => ?_)
    | with_reducible apply ReplyChanges.later
    | with_reducible apply OnlyChanges.ite
    | with_reducible apply modRoute_frame
    | ((with_reducible refine Part.nested ?_); rfl)
    | ((with_reducible refine Part.held ?_); rfl)
    | split
    | dsimp only
    | dsimp only [id]
theorem sessionSetEvents_frame {qs : List Part} {s t : State} (q : Request) (a : OnlyChanges qs s t) (h : ([.control] : List Part).all (fun p => qs.contains p) = true) :
    ReplyChanges qs s (sessionSetEvents q t) := ReplyChanges.after (sessionSetEvents_only q t) a h

end Sys2Proof.Machine
end

