-- ==== Sys2Proof/Laws/FrameFirmware.lean ====
section
/-! SUPPORT. What each operation of Firmware.lean may change. -/

-- One theorem after another: with a thread for each, the package as one text outgrows the checker's memory limit.
set_option Elab.async false

namespace Sys2Proof.Machine

theorem systemGetIdentity_only (_q : Request) (s : State) :
    ReplyChanges [] s (systemGetIdentity _q s) := by
  unfold systemGetIdentity
  repeat' first
    | with_reducible exact OnlyChanges.refl _ _
    | with_reducible assumption
    | with_reducible apply ReplyChanges.checked
    | with_reducible apply ReplyChanges.require
    | with_reducible apply ReplyChanges.ite
    | with_reducible apply ReplyChanges.okay
    | with_reducible apply ReplyChanges.okWith
    | with_reducible refine ReplyChanges.okThen ?_ (fun _ => ?_)
    | with_reducible apply ReplyChanges.refuse
    | with_reducible apply ReplyChanges.reject
    | with_reducible refine ReplyChanges.done _ _ ?_ (fun _ => ?_)
    | with_reducible apply ReplyChanges.later
    | with_reducible apply OnlyChanges.ite
    | ((with_reducible refine Part.nested ?_); rfl)
    | ((with_reducible refine Part.held ?_); rfl)
    | split
    | dsimp only
    | dsimp only [id]
theorem systemGetIdentity_frame {qs : List Part} {s t : State} (_q : Request) (a : OnlyChanges qs s t) (h : ([] : List Part).all (fun p => qs.contains p) = true) :
    ReplyChanges qs s (systemGetIdentity _q t) := ReplyChanges.after (systemGetIdentity_only _q t) a h

theorem systemReset_only (q : Request) (s : State) :
    ReplyChanges [.control] s (systemReset q s) := by
  unfold systemReset
  repeat' first
    | with_reducible exact OnlyChanges.refl _ _
    | with_reducible assumption
    | with_reducible apply ReplyChanges.checked
    | with_reducible apply ReplyChanges.require
    | with_reducible apply ReplyChanges.ite
    | with_reducible apply ReplyChanges.okay
    | with_reducible apply ReplyChanges.okWith
    | with_reducible refine ReplyChanges.okThen ?_ (fun _ => ?_)
    | with_reducible apply ReplyChanges.refuse
    | with_reducible apply ReplyChanges.reject
    | with_reducible refine ReplyChanges.done _ _ ?_ (fun _ => ?_)
    | with_reducible apply ReplyChanges.later
    | with_reducible apply OnlyChanges.ite
    | with_reducible apply modControl_frame
    | ((with_reducible refine Part.nested ?_); rfl)
    | ((with_reducible refine Part.held ?_); rfl)
    | split
    | dsimp only
    | dsimp only [id]
theorem systemReset_frame {qs : List Part} {s t : State} (q : Request) (a : OnlyChanges qs s t) (h : ([.control] : List Part).all (fun p => qs.contains p) = true) :
    ReplyChanges qs s (systemReset q t) := ReplyChanges.after (systemReset_only q t) a h

theorem systemGetDebugChallenge_only (_q : Request) (s : State) :
    ReplyChanges [.fw, .fresh] s (systemGetDebugChallenge _q s) := by
  unfold systemGetDebugChallenge
  repeat' first
    | with_reducible exact OnlyChanges.refl _ _
    | with_reducible assumption
    | with_reducible apply ReplyChanges.checked
    | with_reducible apply ReplyChanges.require
    | with_reducible apply ReplyChanges.ite
    | with_reducible apply ReplyChanges.okay
    | with_reducible apply ReplyChanges.okWith
    | with_reducible refine ReplyChanges.okThen ?_ (fun _ => ?_)
    | with_reducible apply ReplyChanges.refuse
    | with_reducible apply ReplyChanges.reject
    | with_reducible refine ReplyChanges.done _ _ ?_ (fun _ => ?_)
    | with_reducible apply ReplyChanges.later
    | with_reducible apply OnlyChanges.ite
    | with_reducible apply drawBytes_frame
    | with_reducible refine drawBytes_snd (by assumption) ?_ ?_
    | with_reducible apply modFw_frame
    | ((with_reducible refine Part.nested ?_); rfl)
    | ((with_reducible refine Part.held ?_); rfl)
    | split
    | dsimp only
    | dsimp only [id]
theorem systemGetDebugChallenge_frame {qs : List Part} {s t : State} (_q : Request) (a : OnlyChanges qs s t) (h : ([.fw, .fresh] : List Part).all (fun p => qs.contains p) = true) :
    ReplyChanges qs s (systemGetDebugChallenge _q t) := ReplyChanges.after (systemGetDebugChallenge_only _q t) a h

theorem systemDebugUnlock_only (q : Request) (s : State) :
    ReplyChanges [.sill, .fw, .control, .counters, .stream, .domain, .security] s (systemDebugUnlock q s) := by
  unfold systemDebugUnlock
  repeat' first
    | with_reducible exact OnlyChanges.refl _ _
    | with_reducible assumption
    | with_reducible apply ReplyChanges.checked
    | with_reducible apply ReplyChanges.require
    | with_reducible apply ReplyChanges.ite
    | with_reducible apply ReplyChanges.okay
    | with_reducible apply ReplyChanges.okWith
    | with_reducible refine ReplyChanges.okThen ?_ (fun _ => ?_)
    | with_reducible apply ReplyChanges.refuse
    | with_reducible apply ReplyChanges.reject
    | with_reducible refine ReplyChanges.done _ _ ?_ (fun _ => ?_)
    | with_reducible apply ReplyChanges.later
    | with_reducible apply OnlyChanges.ite
    | with_reducible apply countAuthFail_frame
    | with_reducible apply eraseClass_frame
    | with_reducible apply fireAlarm_frame
    | with_reducible apply modFw_frame
    | with_reducible apply modSill_frame
    | with_reducible apply raise_frame
    | ((with_reducible refine Part.nested ?_); rfl)
    | ((with_reducible refine Part.held ?_); rfl)
    | split
    | dsimp only
    | dsimp only [id]
theorem systemDebugUnlock_frame {qs : List Part} {s t : State} (q : Request) (a : OnlyChanges qs s t) (h : ([.sill, .fw, .control, .counters, .stream, .domain, .security] : List Part).all (fun p => qs.contains p) = true) :
    ReplyChanges qs s (systemDebugUnlock q t) := ReplyChanges.after (systemDebugUnlock_only q t) a h

theorem systemGetEvents_only (q : Request) (s : State) :
    ReplyChanges [] s (systemGetEvents q s) := by
  unfold systemGetEvents
  repeat' first
    | with_reducible exact OnlyChanges.refl _ _
    | with_reducible assumption
    | with_reducible apply ReplyChanges.checked
    | with_reducible apply ReplyChanges.require
    | with_reducible apply ReplyChanges.ite
    | with_reducible apply ReplyChanges.okay
    | with_reducible apply ReplyChanges.okWith
    | with_reducible refine ReplyChanges.okThen ?_ (fun _ => ?_)
    | with_reducible apply ReplyChanges.refuse
    | with_reducible apply ReplyChanges.reject
    | with_reducible refine ReplyChanges.done _ _ ?_ (fun _ => ?_)
    | with_reducible apply ReplyChanges.later
    | with_reducible apply OnlyChanges.ite
    | ((with_reducible refine Part.nested ?_); rfl)
    | ((with_reducible refine Part.held ?_); rfl)
    | split
    | dsimp only
    | dsimp only [id]
theorem systemGetEvents_frame {qs : List Part} {s t : State} (q : Request) (a : OnlyChanges qs s t) (h : ([] : List Part).all (fun p => qs.contains p) = true) :
    ReplyChanges qs s (systemGetEvents q t) := ReplyChanges.after (systemGetEvents_only q t) a h

theorem firmwareGetInfo_only (_q : Request) (s : State) :
    ReplyChanges [] s (firmwareGetInfo _q s) := by
  unfold firmwareGetInfo
  repeat' first
    | with_reducible exact OnlyChanges.refl _ _
    | with_reducible assumption
    | with_reducible apply ReplyChanges.checked
    | with_reducible apply ReplyChanges.require
    | with_reducible apply ReplyChanges.ite
    | with_reducible apply ReplyChanges.okay
    | with_reducible apply ReplyChanges.okWith
    | with_reducible refine ReplyChanges.okThen ?_ (fun _ => ?_)
    | with_reducible apply ReplyChanges.refuse
    | with_reducible apply ReplyChanges.reject
    | with_reducible refine ReplyChanges.done _ _ ?_ (fun _ => ?_)
    | with_reducible apply ReplyChanges.later
    | with_reducible apply OnlyChanges.ite
    | ((with_reducible refine Part.nested ?_); rfl)
    | ((with_reducible refine Part.held ?_); rfl)
    | split
    | dsimp only
    | dsimp only [id]
theorem firmwareGetInfo_frame {qs : List Part} {s t : State} (_q : Request) (a : OnlyChanges qs s t) (h : ([] : List Part).all (fun p => qs.contains p) = true) :
    ReplyChanges qs s (firmwareGetInfo _q t) := ReplyChanges.after (firmwareGetInfo_only _q t) a h

theorem loadFault_only (s : State) :
    OnlyChanges [.sill] s (loadFault s) := by
  unfold loadFault
  repeat' first
    | with_reducible exact OnlyChanges.refl _ _
    | with_reducible assumption
    | with_reducible apply OnlyChanges.ite
    | with_reducible apply modSill_frame
    | ((with_reducible refine Part.nested ?_); rfl)
    | ((with_reducible refine Part.held ?_); rfl)
    | split
    | dsimp only
    | dsimp only [id]
theorem loadFault_frame {qs : List Part} {s t : State}  (a : OnlyChanges qs s t) (h : ([.sill] : List Part).all (fun p => qs.contains p) = true) :
    OnlyChanges qs s (loadFault t) := OnlyChanges.after (loadFault_only t) a h

theorem firmwareStageBegin_only (q : Request) (s : State) :
    ReplyChanges [.sill, .flash, .fw, .fresh] s (firmwareStageBegin q s) := by
  unfold firmwareStageBegin
  repeat' first
    | with_reducible exact OnlyChanges.refl _ _
    | with_reducible assumption
    | with_reducible apply ReplyChanges.checked
    | with_reducible apply ReplyChanges.require
    | with_reducible apply ReplyChanges.ite
    | with_reducible apply ReplyChanges.okay
    | with_reducible apply ReplyChanges.okWith
    | with_reducible refine ReplyChanges.okThen ?_ (fun _ => ?_)
    | with_reducible apply ReplyChanges.refuse
    | with_reducible apply ReplyChanges.reject
    | with_reducible refine ReplyChanges.done _ _ ?_ (fun _ => ?_)
    | with_reducible apply ReplyChanges.later
    | with_reducible apply OnlyChanges.ite
    | with_reducible apply flashErase_frame
    | with_reducible apply flashTakes_frame
    | with_reducible refine flashTakes_snd (by assumption) ?_ ?_
    | with_reducible apply loadFault_frame
    | with_reducible apply modFw_frame
    | ((with_reducible refine Part.nested ?_); rfl)
    | ((with_reducible refine Part.held ?_); rfl)
    | split
    | dsimp only
    | dsimp only [id]
theorem firmwareStageBegin_frame {qs : List Part} {s t : State} (q : Request) (a : OnlyChanges qs s t) (h : ([.sill, .flash, .fw, .fresh] : List Part).all (fun p => qs.contains p) = true) :
    ReplyChanges qs s (firmwareStageBegin q t) := ReplyChanges.after (firmwareStageBegin_only q t) a h

theorem firmwareStageWrite_only (q : Request) (s : State) :
    ReplyChanges [.sill, .flash, .fw, .fresh] s (firmwareStageWrite q s) := by
  unfold firmwareStageWrite
  repeat' first
    | with_reducible exact OnlyChanges.refl _ _
    | with_reducible assumption
    | with_reducible apply ReplyChanges.checked
    | with_reducible apply ReplyChanges.require
    | with_reducible apply ReplyChanges.ite
    | with_reducible apply ReplyChanges.okay
    | with_reducible apply ReplyChanges.okWith
    | with_reducible refine ReplyChanges.okThen ?_ (fun _ => ?_)
    | with_reducible apply ReplyChanges.refuse
    | with_reducible apply ReplyChanges.reject
    | with_reducible refine ReplyChanges.done _ _ ?_ (fun _ => ?_)
    | with_reducible apply ReplyChanges.later
    | with_reducible apply OnlyChanges.ite
    | with_reducible apply flashTakes_frame
    | with_reducible refine flashTakes_snd (by assumption) ?_ ?_
    | with_reducible apply flashWrite_frame
    | with_reducible apply loadFault_frame
    | with_reducible apply modFw_frame
    | ((with_reducible refine Part.nested ?_); rfl)
    | ((with_reducible refine Part.held ?_); rfl)
    | split
    | dsimp only
    | dsimp only [id]
theorem firmwareStageWrite_frame {qs : List Part} {s t : State} (q : Request) (a : OnlyChanges qs s t) (h : ([.sill, .flash, .fw, .fresh] : List Part).all (fun p => qs.contains p) = true) :
    ReplyChanges qs s (firmwareStageWrite q t) := ReplyChanges.after (firmwareStageWrite_only q t) a h

theorem firmwareStageVerify_only (q : Request) (s : State) :
    ReplyChanges [.sill, .flash, .fw, .control, .counters, .stream, .domain, .cal, .elements, .carrier, .security, .fresh] s (firmwareStageVerify q s) := by
  unfold firmwareStageVerify
  repeat' first
    | with_reducible exact OnlyChanges.refl _ _
    | with_reducible assumption
    | with_reducible apply ReplyChanges.checked
    | with_reducible apply ReplyChanges.require
    | with_reducible apply ReplyChanges.ite
    | with_reducible apply ReplyChanges.okay
    | with_reducible apply ReplyChanges.okWith
    | with_reducible refine ReplyChanges.okThen ?_ (fun _ => ?_)
    | with_reducible apply ReplyChanges.refuse
    | with_reducible apply ReplyChanges.reject
    | with_reducible refine ReplyChanges.done _ _ ?_ (fun _ => ?_)
    | with_reducible apply ReplyChanges.later
    | with_reducible apply OnlyChanges.ite
    | with_reducible apply authFailure_frame
    | with_reducible apply beginInit_frame
    | with_reducible apply flashTakes_frame
    | with_reducible refine flashTakes_snd (by assumption) ?_ ?_
    | with_reducible apply flashWrite_frame
    | with_reducible apply loadFault_frame
    | with_reducible apply modFw_frame
    | with_reducible apply modSill_frame
    | ((with_reducible refine Part.nested ?_); rfl)
    | ((with_reducible refine Part.held ?_); rfl)
    | split
    | dsimp only
    | dsimp only [id]
theorem firmwareStageVerify_frame {qs : List Part} {s t : State} (q : Request) (a : OnlyChanges qs s t) (h : ([.sill, .flash, .fw, .control, .counters, .stream, .domain, .cal, .elements, .carrier, .security, .fresh] : List Part).all (fun p => qs.contains p) = true) :
    ReplyChanges qs s (firmwareStageVerify q t) := ReplyChanges.after (firmwareStageVerify_only q t) a h

theorem firmwareActivate_only (q : Request) (s : State) :
    ReplyChanges [.sill, .fw, .control, .counters, .protect] s (firmwareActivate q s) := by
  unfold firmwareActivate
  repeat' first
    | with_reducible exact OnlyChanges.refl _ _
    | with_reducible assumption
    | with_reducible apply ReplyChanges.checked
    | with_reducible apply ReplyChanges.require
    | with_reducible apply ReplyChanges.ite
    | with_reducible apply ReplyChanges.okay
    | with_reducible apply ReplyChanges.okWith
    | with_reducible refine ReplyChanges.okThen ?_ (fun _ => ?_)
    | with_reducible apply ReplyChanges.refuse
    | with_reducible apply ReplyChanges.reject
    | with_reducible refine ReplyChanges.done _ _ ?_ (fun _ => ?_)
    | with_reducible apply ReplyChanges.later
    | with_reducible apply OnlyChanges.ite
    | with_reducible apply modControl_frame
    | with_reducible apply modFw_frame
    | with_reducible apply settleIntake_frame
    | ((with_reducible refine Part.nested ?_); rfl)
    | ((with_reducible refine Part.held ?_); rfl)
    | split
    | dsimp only
    | dsimp only [id]
theorem firmwareActivate_frame {qs : List Part} {s t : State} (q : Request) (a : OnlyChanges qs s t) (h : ([.sill, .fw, .control, .counters, .protect] : List Part).all (fun p => qs.contains p) = true) :
    ReplyChanges qs s (firmwareActivate q t) := ReplyChanges.after (firmwareActivate_only q t) a h

theorem burnFuses_only (target : Nat) (revoke : Nat) (s : State) :
    OnlyChanges [.otp, .fresh] s (burnFuses target revoke s) := by
  unfold burnFuses
  repeat' first
    | with_reducible exact OnlyChanges.refl _ _
    | with_reducible assumption
    | with_reducible apply OnlyChanges.ite
    | with_reducible apply drawBelow_frame
    | with_reducible refine drawBelow_snd (by assumption) ?_ ?_
    | ((with_reducible refine Part.nested ?_); rfl)
    | ((with_reducible refine Part.held ?_); rfl)
    | split
    | dsimp only
    | dsimp only [id]
    | with_reducible apply set_otp
theorem burnFuses_frame {qs : List Part} {s t : State} (target : Nat) (revoke : Nat) (a : OnlyChanges qs s t) (h : ([.otp, .fresh] : List Part).all (fun p => qs.contains p) = true) :
    OnlyChanges qs s (burnFuses target revoke t) := OnlyChanges.after (burnFuses_only target revoke t) a h

theorem firmwareCommit_only (_q : Request) (s : State) :
    ReplyChanges [.otp, .flash, .fw, .fresh] s (firmwareCommit _q s) := by
  unfold firmwareCommit
  repeat' first
    | with_reducible exact OnlyChanges.refl _ _
    | with_reducible assumption
    | with_reducible apply ReplyChanges.checked
    | with_reducible apply ReplyChanges.require
    | with_reducible apply ReplyChanges.ite
    | with_reducible apply ReplyChanges.okay
    | with_reducible apply ReplyChanges.okWith
    | with_reducible refine ReplyChanges.okThen ?_ (fun _ => ?_)
    | with_reducible apply ReplyChanges.refuse
    | with_reducible apply ReplyChanges.reject
    | with_reducible refine ReplyChanges.done _ _ ?_ (fun _ => ?_)
    | with_reducible apply ReplyChanges.later
    | with_reducible apply OnlyChanges.ite
    | with_reducible apply burnFuses_frame
    | with_reducible apply flashErase_frame
    | with_reducible apply flashTakes_frame
    | with_reducible refine flashTakes_snd (by assumption) ?_ ?_
    | with_reducible apply flashWrite_frame
    | with_reducible apply modFw_frame
    | ((with_reducible refine Part.nested ?_); rfl)
    | ((with_reducible refine Part.held ?_); rfl)
    | split
    | dsimp only
    | dsimp only [id]
theorem firmwareCommit_frame {qs : List Part} {s t : State} (_q : Request) (a : OnlyChanges qs s t) (h : ([.otp, .flash, .fw, .fresh] : List Part).all (fun p => qs.contains p) = true) :
    ReplyChanges qs s (firmwareCommit _q t) := ReplyChanges.after (firmwareCommit_only _q t) a h

theorem firmwareRollback_only (_q : Request) (s : State) :
    ReplyChanges [.sill, .fw, .control, .counters, .protect] s (firmwareRollback _q s) := by
  unfold firmwareRollback
  repeat' first
    | with_reducible exact OnlyChanges.refl _ _
    | with_reducible assumption
    | with_reducible apply ReplyChanges.checked
    | with_reducible apply ReplyChanges.require
    | with_reducible apply ReplyChanges.ite
    | with_reducible apply ReplyChanges.okay
    | with_reducible apply ReplyChanges.okWith
    | with_reducible refine ReplyChanges.okThen ?_ (fun _ => ?_)
    | with_reducible apply ReplyChanges.refuse
    | with_reducible apply ReplyChanges.reject
    | with_reducible refine ReplyChanges.done _ _ ?_ (fun _ => ?_)
    | with_reducible apply ReplyChanges.later
    | with_reducible apply OnlyChanges.ite
    | with_reducible apply modControl_frame
    | with_reducible apply modFw_frame
    | with_reducible apply raise_frame
    | with_reducible apply settleIntake_frame
    | ((with_reducible refine Part.nested ?_); rfl)
    | ((with_reducible refine Part.held ?_); rfl)
    | split
    | dsimp only
    | dsimp only [id]
theorem firmwareRollback_frame {qs : List Part} {s t : State} (_q : Request) (a : OnlyChanges qs s t) (h : ([.sill, .fw, .control, .counters, .protect] : List Part).all (fun p => qs.contains p) = true) :
    ReplyChanges qs s (firmwareRollback _q t) := ReplyChanges.after (firmwareRollback_only _q t) a h

end Sys2Proof.Machine
end

