-- ==== Sys2Proof/Laws/FrameStream.lean ====
section
/-! SUPPORT. What each operation of Stream.lean may change. -/

-- One theorem after another: with a thread for each, the package as one text outgrows the checker's memory limit.
set_option Elab.async false

namespace Sys2Proof.Machine

theorem countersSetUnit_only (q : Request) (s : State) :
    ReplyChanges [.counters] s (countersSetUnit q s) := by
  unfold countersSetUnit
  repeat' first
    | with_reducible exact OnlyChanges.refl _ _
    | with_reducible assumption
    | with_reducible apply ReplyChanges.checked
    | with_reducible apply ReplyChanges.require
    | with_reducible apply ReplyChanges.ite
    | with_reducible apply ReplyChanges.okay
    | with_reducible apply ReplyChanges.okWith
    | with_reducible refine ReplyChanges.okThen ?_ (fun _ => ?_)
    | with_reducible apply ReplyChanges.refuse
    | with_reducible apply ReplyChanges.reject
    | with_reducible refine ReplyChanges.done _ _ ?_ (fun _ => ?_)
    | with_reducible apply ReplyChanges.later
    | with_reducible apply OnlyChanges.ite
    | with_reducible apply modCountUnit_frame
    | ((with_reducible refine Part.nested ?_); rfl)
    | ((with_reducible refine Part.held ?_); rfl)
    | split
    | dsimp only
    | dsimp only [id]
theorem countersSetUnit_frame {qs : List Part} {s t : State} (q : Request) (a : OnlyChanges qs s t) (h : ([.counters] : List Part).all (fun p => qs.contains p) = true) :
    ReplyChanges qs s (countersSetUnit q t) := ReplyChanges.after (countersSetUnit_only q t) a h

theorem countersRead_only (q : Request) (s : State) :
    ReplyChanges [] s (countersRead q s) := by
  unfold countersRead
  repeat' first
    | with_reducible exact OnlyChanges.refl _ _
    | with_reducible assumption
    | with_reducible apply ReplyChanges.checked
    | with_reducible apply ReplyChanges.require
    | with_reducible apply ReplyChanges.ite
    | with_reducible apply ReplyChanges.okay
    | with_reducible apply ReplyChanges.okWith
    | with_reducible refine ReplyChanges.okThen ?_ (fun _ => ?_)
    | with_reducible apply ReplyChanges.refuse
    | with_reducible apply ReplyChanges.reject
    | with_reducible refine ReplyChanges.done _ _ ?_ (fun _ => ?_)
    | with_reducible apply ReplyChanges.later
    | with_reducible apply OnlyChanges.ite
    | ((with_reducible refine Part.nested ?_); rfl)
    | ((with_reducible refine Part.held ?_); rfl)
    | split
    | dsimp only
    | dsimp only [id]
theorem countersRead_frame {qs : List Part} {s t : State} (q : Request) (a : OnlyChanges qs s t) (h : ([] : List Part).all (fun p => qs.contains p) = true) :
    ReplyChanges qs s (countersRead q t) := ReplyChanges.after (countersRead_only q t) a h

theorem countersClear_only (q : Request) (s : State) :
    ReplyChanges [.counters] s (countersClear q s) := by
  unfold countersClear
  repeat' first
    | with_reducible exact OnlyChanges.refl _ _
    | with_reducible assumption
    | with_reducible apply ReplyChanges.checked
    | with_reducible apply ReplyChanges.require
    | with_reducible apply ReplyChanges.ite
    | with_reducible apply ReplyChanges.okay
    | with_reducible apply ReplyChanges.okWith
    | with_reducible refine ReplyChanges.okThen ?_ (fun _ => ?_)
    | with_reducible apply ReplyChanges.refuse
    | with_reducible apply ReplyChanges.reject
    | with_reducible refine ReplyChanges.done _ _ ?_ (fun _ => ?_)
    | with_reducible apply ReplyChanges.later
    | with_reducible apply OnlyChanges.ite
    | with_reducible refine OnlyChanges.each (fun _ _ => ?_) _ ?_
    | with_reducible apply modCountUnit_frame
    | ((with_reducible refine Part.nested ?_); rfl)
    | ((with_reducible refine Part.held ?_); rfl)
    | split
    | dsimp only
    | dsimp only [id]
theorem countersClear_frame {qs : List Part} {s t : State} (q : Request) (a : OnlyChanges qs s t) (h : ([.counters] : List Part).all (fun p => qs.contains p) = true) :
    ReplyChanges qs s (countersClear q t) := ReplyChanges.after (countersClear_only q t) a h

theorem countersSetTrace_only (q : Request) (s : State) :
    ReplyChanges [.counters] s (countersSetTrace q s) := by
  unfold countersSetTrace
  repeat' first
    | with_reducible exact OnlyChanges.refl _ _
    | with_reducible assumption
    | with_reducible apply ReplyChanges.checked
    | with_reducible apply ReplyChanges.require
    | with_reducible apply ReplyChanges.ite
    | with_reducible apply ReplyChanges.okay
    | with_reducible apply ReplyChanges.okWith
    | with_reducible refine ReplyChanges.okThen ?_ (fun _ => ?_)
    | with_reducible apply ReplyChanges.refuse
    | with_reducible apply ReplyChanges.reject
    | with_reducible refine ReplyChanges.done _ _ ?_ (fun _ => ?_)
    | with_reducible apply ReplyChanges.later
    | with_reducible apply OnlyChanges.ite
    | with_reducible apply modCountUnit_frame
    | ((with_reducible refine Part.nested ?_); rfl)
    | ((with_reducible refine Part.held ?_); rfl)
    | split
    | dsimp only
    | dsimp only [id]
theorem countersSetTrace_frame {qs : List Part} {s t : State} (q : Request) (a : OnlyChanges qs s t) (h : ([.counters] : List Part).all (fun p => qs.contains p) = true) :
    ReplyChanges qs s (countersSetTrace q t) := ReplyChanges.after (countersSetTrace_only q t) a h

theorem countersSetTags_only (q : Request) (s : State) :
    ReplyChanges [.counters] s (countersSetTags q s) := by
  unfold countersSetTags
  repeat' first
    | with_reducible exact OnlyChanges.refl _ _
    | with_reducible assumption
    | with_reducible apply ReplyChanges.checked
    | with_reducible apply ReplyChanges.require
    | with_reducible apply ReplyChanges.ite
    | with_reducible apply ReplyChanges.okay
    | with_reducible apply ReplyChanges.okWith
    | with_reducible refine ReplyChanges.okThen ?_ (fun _ => ?_)
    | with_reducible apply ReplyChanges.refuse
    | with_reducible apply ReplyChanges.reject
    | with_reducible refine ReplyChanges.done _ _ ?_ (fun _ => ?_)
    | with_reducible apply ReplyChanges.later
    | with_reducible apply OnlyChanges.ite
    | with_reducible apply modCountUnit_frame
    | ((with_reducible refine Part.nested ?_); rfl)
    | ((with_reducible refine Part.held ?_); rfl)
    | split
    | dsimp only
    | dsimp only [id]
theorem countersSetTags_frame {qs : List Part} {s t : State} (q : Request) (a : OnlyChanges qs s t) (h : ([.counters] : List Part).all (fun p => qs.contains p) = true) :
    ReplyChanges qs s (countersSetTags q t) := ReplyChanges.after (countersSetTags_only q t) a h

theorem streamEvent_only (cause : Nat) (s : State) :
    OnlyChanges [.sill, .control, .counters] s (streamEvent cause s) := by
  unfold streamEvent
  repeat' first
    | with_reducible exact OnlyChanges.refl _ _
    | with_reducible assumption
    | with_reducible apply OnlyChanges.ite
    | with_reducible apply raise_frame
    | ((with_reducible refine Part.nested ?_); rfl)
    | ((with_reducible refine Part.held ?_); rfl)
    | split
    | dsimp only
    | dsimp only [id]
theorem streamEvent_frame {qs : List Part} {s t : State} (cause : Nat) (a : OnlyChanges qs s t) (h : ([.sill, .control, .counters] : List Part).all (fun p => qs.contains p) = true) :
    OnlyChanges qs s (streamEvent cause t) := OnlyChanges.after (streamEvent_only cause t) a h

theorem countersSetStream_only (q : Request) (s : State) :
    ReplyChanges [.sill, .power, .control, .counters, .stream, .cal, .elements, .carrier, .client] s (countersSetStream q s) := by
  unfold countersSetStream
  repeat' first
    | with_reducible exact OnlyChanges.refl _ _
    | with_reducible assumption
    | with_reducible apply ReplyChanges.checked
    | with_reducible apply ReplyChanges.require
    | with_reducible apply ReplyChanges.ite
    | with_reducible apply ReplyChanges.okay
    | with_reducible apply ReplyChanges.okWith
    | with_reducible refine ReplyChanges.okThen ?_ (fun _ => ?_)
    | with_reducible apply ReplyChanges.refuse
    | with_reducible apply ReplyChanges.reject
    | with_reducible refine ReplyChanges.done _ _ ?_ (fun _ => ?_)
    | with_reducible apply ReplyChanges.later
    | with_reducible refine needing_frame _ _ _ ?_ ?_ (fun _ => ?_)
    | with_reducible apply OnlyChanges.ite
    | with_reducible apply holdOff_frame
    | with_reducible apply modStream_frame
    | with_reducible apply startExit_frame
    | with_reducible apply streamEvent_frame
    | ((with_reducible refine Part.nested ?_); rfl)
    | ((with_reducible refine Part.held ?_); rfl)
    | split
    | dsimp only
    | dsimp only [id]
theorem countersSetStream_frame {qs : List Part} {s t : State} (q : Request) (a : OnlyChanges qs s t) (h : ([.sill, .power, .control, .counters, .stream, .cal, .elements, .carrier, .client] : List Part).all (fun p => qs.contains p) = true) :
    ReplyChanges qs s (countersSetStream q t) := ReplyChanges.after (countersSetStream_only q t) a h

theorem countersGetStream_only (q : Request) (s : State) :
    ReplyChanges [] s (countersGetStream q s) := by
  unfold countersGetStream
  repeat' first
    | with_reducible exact OnlyChanges.refl _ _
    | with_reducible assumption
    | with_reducible apply ReplyChanges.checked
    | with_reducible apply ReplyChanges.require
    | with_reducible apply ReplyChanges.ite
    | with_reducible apply ReplyChanges.okay
    | with_reducible apply ReplyChanges.okWith
    | with_reducible refine ReplyChanges.okThen ?_ (fun _ => ?_)
    | with_reducible apply ReplyChanges.refuse
    | with_reducible apply ReplyChanges.reject
    | with_reducible refine ReplyChanges.done _ _ ?_ (fun _ => ?_)
    | with_reducible apply ReplyChanges.later
    | with_reducible apply OnlyChanges.ite
    | ((with_reducible refine Part.nested ?_); rfl)
    | ((with_reducible refine Part.held ?_); rfl)
    | split
    | dsimp only
    | dsimp only [id]
theorem countersGetStream_frame {qs : List Part} {s t : State} (q : Request) (a : OnlyChanges qs s t) (h : ([] : List Part).all (fun p => qs.contains p) = true) :
    ReplyChanges qs s (countersGetStream q t) := ReplyChanges.after (countersGetStream_only q t) a h

theorem streamBytes_only (b : List Byte) (s : State) :
    OnlyChanges [.counters, .stream] s (streamBytes b s) := by
  unfold streamBytes
  repeat' first
    | with_reducible exact OnlyChanges.refl _ _
    | with_reducible assumption
    | with_reducible apply OnlyChanges.ite
    | with_reducible apply bump_frame
    | with_reducible apply modStream_frame
    | ((with_reducible refine Part.nested ?_); rfl)
    | ((with_reducible refine Part.held ?_); rfl)
    | split
    | dsimp only
    | dsimp only [id]
theorem streamBytes_frame {qs : List Part} {s t : State} (b : List Byte) (a : OnlyChanges qs s t) (h : ([.counters, .stream] : List Part).all (fun p => qs.contains p) = true) :
    OnlyChanges qs s (streamBytes b t) := OnlyChanges.after (streamBytes_only b t) a h

theorem streamSend_only (m : Message) (s : State) :
    OnlyChanges [.counters, .stream] s (streamSend m s) := by
  unfold streamSend
  repeat' first
    | with_reducible exact OnlyChanges.refl _ _
    | with_reducible assumption
    | with_reducible apply OnlyChanges.ite
    | with_reducible apply bump_frame
    | with_reducible apply modStream_frame
    | with_reducible apply streamBytes_frame
    | ((with_reducible refine Part.nested ?_); rfl)
    | ((with_reducible refine Part.held ?_); rfl)
    | split
    | dsimp only
    | dsimp only [id]
theorem streamSend_frame {qs : List Part} {s t : State} (m : Message) (a : OnlyChanges qs s t) (h : ([.counters, .stream] : List Part).all (fun p => qs.contains p) = true) :
    OnlyChanges qs s (streamSend m t) := OnlyChanges.after (streamSend_only m t) a h

theorem streamDataTx_only (vc : Nat) (s : State) :
    OnlyChanges [.sill, .control, .counters, .stream] s (streamDataTx vc s) := by
  unfold streamDataTx
  repeat' first
    | with_reducible exact OnlyChanges.refl _ _
    | with_reducible assumption
    | with_reducible apply OnlyChanges.ite
    | with_reducible refine OnlyChanges.cond (fun _ => ?_) ?_
    | with_reducible apply flushLost_frame
    | with_reducible apply freeEntry_frame
    | with_reducible apply modCountUnit_frame
    | with_reducible apply modRoute_frame
    | with_reducible apply modStream_frame
    | with_reducible apply streamSend_frame
    | ((with_reducible refine Part.nested ?_); rfl)
    | ((with_reducible refine Part.held ?_); rfl)
    | split
    | dsimp only
    | dsimp only [id]
theorem streamDataTx_frame {qs : List Part} {s t : State} (vc : Nat) (a : OnlyChanges qs s t) (h : ([.sill, .control, .counters, .stream] : List Part).all (fun p => qs.contains p) = true) :
    OnlyChanges qs s (streamDataTx vc t) := OnlyChanges.after (streamDataTx_only vc t) a h

theorem streamResend_only (s : State) :
    OnlyChanges [.counters, .stream] s (streamResend s) := by
  unfold streamResend
  repeat' first
    | with_reducible exact OnlyChanges.refl _ _
    | with_reducible assumption
    | with_reducible apply OnlyChanges.ite
    | with_reducible refine OnlyChanges.each (fun _ _ => ?_) _ ?_
    | with_reducible apply bump_frame
    | with_reducible apply streamBytes_frame
    | ((with_reducible refine Part.nested ?_); rfl)
    | ((with_reducible refine Part.held ?_); rfl)
    | split
    | dsimp only
    | dsimp only [id]
theorem streamResend_frame {qs : List Part} {s t : State}  (a : OnlyChanges qs s t) (h : ([.counters, .stream] : List Part).all (fun p => qs.contains p) = true) :
    OnlyChanges qs s (streamResend t) := OnlyChanges.after (streamResend_only t) a h

theorem streamControlOut_only (s : State) :
    OnlyChanges [.counters, .stream] s (streamControlOut s) := by
  unfold streamControlOut
  repeat' first
    | with_reducible exact OnlyChanges.refl _ _
    | with_reducible assumption
    | with_reducible apply OnlyChanges.ite
    | with_reducible apply modStream_frame
    | with_reducible apply streamBytes_frame
    | ((with_reducible refine Part.nested ?_); rfl)
    | ((with_reducible refine Part.held ?_); rfl)
    | split
    | dsimp only
    | dsimp only [id]
theorem streamControlOut_frame {qs : List Part} {s t : State}  (a : OnlyChanges qs s t) (h : ([.counters, .stream] : List Part).all (fun p => qs.contains p) = true) :
    OnlyChanges qs s (streamControlOut t) := OnlyChanges.after (streamControlOut_only t) a h

theorem streamResume_only (s : State) :
    OnlyChanges [.counters, .stream] s (streamResume s) := by
  unfold streamResume
  repeat' first
    | with_reducible exact OnlyChanges.refl _ _
    | with_reducible assumption
    | with_reducible apply OnlyChanges.ite
    | with_reducible apply streamControlOut_frame
    | with_reducible apply streamResend_frame
    | ((with_reducible refine Part.nested ?_); rfl)
    | ((with_reducible refine Part.held ?_); rfl)
    | split
    | dsimp only
    | dsimp only [id]
theorem streamResume_frame {qs : List Part} {s t : State}  (a : OnlyChanges qs s t) (h : ([.counters, .stream] : List Part).all (fun p => qs.contains p) = true) :
    OnlyChanges qs s (streamResume t) := OnlyChanges.after (streamResume_only t) a h

theorem streamControl_only (k : LinkControl) (s : State) :
    OnlyChanges [.sill, .control, .counters, .stream] s (streamControl k s) := by
  unfold streamControl
  repeat' first
    | with_reducible exact OnlyChanges.refl _ _
    | with_reducible assumption
    | with_reducible apply OnlyChanges.ite
    | with_reducible apply modStream_frame
    | with_reducible apply streamEvent_frame
    | with_reducible apply streamResume_frame
    | ((with_reducible refine Part.nested ?_); rfl)
    | ((with_reducible refine Part.held ?_); rfl)
    | split
    | dsimp only
    | dsimp only [id]
theorem streamControl_frame {qs : List Part} {s t : State} (k : LinkControl) (a : OnlyChanges qs s t) (h : ([.sill, .control, .counters, .stream] : List Part).all (fun p => qs.contains p) = true) :
    OnlyChanges qs s (streamControl k t) := OnlyChanges.after (streamControl_only k t) a h

theorem streamData_only (crcOk : Bool) (m : Message) (s : State) :
    OnlyChanges [.sill, .control, .counters, .stream] s (streamData crcOk m s) := by
  unfold streamData
  repeat' first
    | with_reducible exact OnlyChanges.refl _ _
    | with_reducible assumption
    | with_reducible apply OnlyChanges.ite
    | with_reducible apply bump_frame
    | with_reducible apply modStream_frame
    | with_reducible apply receive_frame
    | ((with_reducible refine Part.nested ?_); rfl)
    | ((with_reducible refine Part.held ?_); rfl)
    | split
    | dsimp only
    | dsimp only [id]
theorem streamData_frame {qs : List Part} {s t : State} (crcOk : Bool) (m : Message) (a : OnlyChanges qs s t) (h : ([.sill, .control, .counters, .stream] : List Part).all (fun p => qs.contains p) = true) :
    OnlyChanges qs s (streamData crcOk m t) := OnlyChanges.after (streamData_only crcOk m t) a h

theorem streamMessageRx_only (crcOk : Bool) (m : Message ⊕ LinkControl) (s : State) :
    OnlyChanges [.sill, .control, .counters, .stream] s (streamMessageRx crcOk m s) := by
  unfold streamMessageRx
  repeat' first
    | with_reducible exact OnlyChanges.refl _ _
    | with_reducible assumption
    | with_reducible apply OnlyChanges.ite
    | with_reducible apply bump_frame
    | with_reducible apply streamControl_frame
    | with_reducible apply streamData_frame
    | ((with_reducible refine Part.nested ?_); rfl)
    | ((with_reducible refine Part.held ?_); rfl)
    | split
    | dsimp only
    | dsimp only [id]
theorem streamMessageRx_frame {qs : List Part} {s t : State} (crcOk : Bool) (m : Message ⊕ LinkControl) (a : OnlyChanges qs s t) (h : ([.sill, .control, .counters, .stream] : List Part).all (fun p => qs.contains p) = true) :
    OnlyChanges qs s (streamMessageRx crcOk m t) := OnlyChanges.after (streamMessageRx_only crcOk m t) a h

theorem streamLinkControlTx_only (s : State) :
    OnlyChanges [.counters, .stream] s (streamLinkControlTx s) := by
  unfold streamLinkControlTx
  repeat' first
    | with_reducible exact OnlyChanges.refl _ _
    | with_reducible assumption
    | with_reducible apply OnlyChanges.ite
    | with_reducible refine OnlyChanges.cond (fun _ => ?_) ?_
    | with_reducible apply streamControlOut_frame
    | ((with_reducible refine Part.nested ?_); rfl)
    | ((with_reducible refine Part.held ?_); rfl)
    | split
    | dsimp only
    | dsimp only [id]
theorem streamLinkControlTx_frame {qs : List Part} {s t : State}  (a : OnlyChanges qs s t) (h : ([.counters, .stream] : List Part).all (fun p => qs.contains p) = true) :
    OnlyChanges qs s (streamLinkControlTx t) := OnlyChanges.after (streamLinkControlTx_only t) a h

theorem streamReplayTimeout_only (s : State) :
    OnlyChanges [.counters, .stream] s (streamReplayTimeout s) := by
  unfold streamReplayTimeout
  repeat' first
    | with_reducible exact OnlyChanges.refl _ _
    | with_reducible assumption
    | with_reducible apply OnlyChanges.ite
    | with_reducible refine OnlyChanges.cond (fun _ => ?_) ?_
    | with_reducible apply streamResend_frame
    | ((with_reducible refine Part.nested ?_); rfl)
    | ((with_reducible refine Part.held ?_); rfl)
    | split
    | dsimp only
    | dsimp only [id]
theorem streamReplayTimeout_frame {qs : List Part} {s t : State}  (a : OnlyChanges qs s t) (h : ([.counters, .stream] : List Part).all (fun p => qs.contains p) = true) :
    OnlyChanges qs s (streamReplayTimeout t) := OnlyChanges.after (streamReplayTimeout_only t) a h

theorem streamRetrain_only (s : State) :
    OnlyChanges [.sill, .power, .control, .counters, .stream, .cal, .elements, .carrier, .client] s (streamRetrain s) := by
  unfold streamRetrain
  repeat' first
    | with_reducible exact OnlyChanges.refl _ _
    | with_reducible assumption
    | with_reducible apply OnlyChanges.ite
    | with_reducible apply bump_frame
    | with_reducible apply modStream_frame
    | with_reducible apply startExit_frame
    | with_reducible apply streamEvent_frame
    | with_reducible apply streamResume_frame
    | ((with_reducible refine Part.nested ?_); rfl)
    | ((with_reducible refine Part.held ?_); rfl)
    | split
    | dsimp only
    | dsimp only [id]
theorem streamRetrain_frame {qs : List Part} {s t : State}  (a : OnlyChanges qs s t) (h : ([.sill, .power, .control, .counters, .stream, .cal, .elements, .carrier, .client] : List Part).all (fun p => qs.contains p) = true) :
    OnlyChanges qs s (streamRetrain t) := OnlyChanges.after (streamRetrain_only t) a h

theorem streamTrained_only (s : State) :
    OnlyChanges [.sill, .control, .counters, .stream] s (streamTrained s) := by
  unfold streamTrained
  repeat' first
    | with_reducible exact OnlyChanges.refl _ _
    | with_reducible assumption
    | with_reducible apply OnlyChanges.ite
    | with_reducible refine OnlyChanges.cond (fun _ => ?_) ?_
    | with_reducible apply modStream_frame
    | with_reducible apply streamEvent_frame
    | ((with_reducible refine Part.nested ?_); rfl)
    | ((with_reducible refine Part.held ?_); rfl)
    | split
    | dsimp only
    | dsimp only [id]
theorem streamTrained_frame {qs : List Part} {s t : State}  (a : OnlyChanges qs s t) (h : ([.sill, .control, .counters, .stream] : List Part).all (fun p => qs.contains p) = true) :
    OnlyChanges qs s (streamTrained t) := OnlyChanges.after (streamTrained_only t) a h

end Sys2Proof.Machine
end

