-- ==== Sys2Proof/Laws/FrameTenonOps.lean ====
section
/-! SUPPORT. What each operation of TenonOps.lean may change. -/

-- One theorem after another: with a thread for each, the package as one text outgrows the checker's memory limit.
set_option Elab.async false

namespace Sys2Proof.Machine

theorem tenonEvent_only (p : Nat) (cause : Nat) (s : State) :
    OnlyChanges [.sill, .control, .counters] s (tenonEvent p cause s) := by
  unfold tenonEvent
  repeat' first
    | with_reducible exact OnlyChanges.refl _ _
    | with_reducible assumption
    | with_reducible apply OnlyChanges.ite
    | with_reducible apply raise_frame
    | ((with_reducible refine Part.nested ?_); rfl)
    | ((with_reducible refine Part.held ?_); rfl)
    | split
    | dsimp only
    | dsimp only [id]
theorem tenonEvent_frame {qs : List Part} {s t : State} (p : Nat) (cause : Nat) (a : OnlyChanges qs s t) (h : ([.sill, .control, .counters] : List Part).all (fun p => qs.contains p) = true) :
    OnlyChanges qs s (tenonEvent p cause t) := OnlyChanges.after (tenonEvent_only p cause t) a h

theorem rerouteFrom_only (p : Nat) (s : State) :
    OnlyChanges [.counters, .domain] s (rerouteFrom p s) := by
  unfold rerouteFrom
  repeat' first
    | with_reducible exact OnlyChanges.refl _ _
    | with_reducible assumption
    | with_reducible apply OnlyChanges.ite
    | with_reducible refine OnlyChanges.each (fun _ _ => ?_) _ ?_
    | with_reducible apply bump_frame
    | with_reducible apply modTenon_frame
    | with_reducible apply tenonPush_frame
    | ((with_reducible refine Part.nested ?_); rfl)
    | ((with_reducible refine Part.held ?_); rfl)
    | split
    | dsimp only
    | dsimp only [id]
theorem rerouteFrom_frame {qs : List Part} {s t : State} (p : Nat) (a : OnlyChanges qs s t) (h : ([.counters, .domain] : List Part).all (fun p => qs.contains p) = true) :
    OnlyChanges qs s (rerouteFrom p t) := OnlyChanges.after (rerouteFrom_only p t) a h

theorem portDown_only (p : Nat) (cause : Nat) (s : State) :
    OnlyChanges [.sill, .control, .counters, .domain] s (portDown p cause s) := by
  unfold portDown
  repeat' first
    | with_reducible exact OnlyChanges.refl _ _
    | with_reducible assumption
    | with_reducible apply OnlyChanges.ite
    | with_reducible apply modTenon_frame
    | with_reducible apply rerouteFrom_frame
    | with_reducible apply tenonEvent_frame
    | ((with_reducible refine Part.nested ?_); rfl)
    | ((with_reducible refine Part.held ?_); rfl)
    | split
    | dsimp only
    | dsimp only [id]
theorem portDown_frame {qs : List Part} {s t : State} (p : Nat) (cause : Nat) (a : OnlyChanges qs s t) (h : ([.sill, .control, .counters, .domain] : List Part).all (fun p => qs.contains p) = true) :
    OnlyChanges qs s (portDown p cause t) := OnlyChanges.after (portDown_only p cause t) a h

theorem tenonBytes_only (p : Nat) (b : List Byte) (s : State) :
    OnlyChanges [.counters, .domain] s (tenonBytes p b s) := by
  unfold tenonBytes
  repeat' first
    | with_reducible exact OnlyChanges.refl _ _
    | with_reducible assumption
    | with_reducible apply OnlyChanges.ite
    | with_reducible apply bump_frame
    | with_reducible apply modTenon_frame
    | ((with_reducible refine Part.nested ?_); rfl)
    | ((with_reducible refine Part.held ?_); rfl)
    | split
    | dsimp only
    | dsimp only [id]
theorem tenonBytes_frame {qs : List Part} {s t : State} (p : Nat) (b : List Byte) (a : OnlyChanges qs s t) (h : ([.counters, .domain] : List Part).all (fun p => qs.contains p) = true) :
    OnlyChanges qs s (tenonBytes p b t) := OnlyChanges.after (tenonBytes_only p b t) a h

theorem tenonResend_only (p : Nat) (s : State) :
    OnlyChanges [.counters, .domain] s (tenonResend p s) := by
  unfold tenonResend
  repeat' first
    | with_reducible exact OnlyChanges.refl _ _
    | with_reducible assumption
    | with_reducible apply OnlyChanges.ite
    | with_reducible refine OnlyChanges.each (fun _ _ => ?_) _ ?_
    | with_reducible apply bump_frame
    | with_reducible apply tenonBytes_frame
    | ((with_reducible refine Part.nested ?_); rfl)
    | ((with_reducible refine Part.held ?_); rfl)
    | split
    | dsimp only
    | dsimp only [id]
theorem tenonResend_frame {qs : List Part} {s t : State} (p : Nat) (a : OnlyChanges qs s t) (h : ([.counters, .domain] : List Part).all (fun p => qs.contains p) = true) :
    OnlyChanges qs s (tenonResend p t) := OnlyChanges.after (tenonResend_only p t) a h

theorem tenonControlOut_only (p : Nat) (sleep : Bool) (retrain : Bool) (s : State) :
    OnlyChanges [.counters, .domain] s (tenonControlOut p sleep retrain s) := by
  unfold tenonControlOut
  repeat' first
    | with_reducible exact OnlyChanges.refl _ _
    | with_reducible assumption
    | with_reducible apply OnlyChanges.ite
    | with_reducible apply modTenon_frame
    | with_reducible apply tenonBytes_frame
    | ((with_reducible refine Part.nested ?_); rfl)
    | ((with_reducible refine Part.held ?_); rfl)
    | split
    | dsimp only
    | dsimp only [id]
theorem tenonControlOut_frame {qs : List Part} {s t : State} (p : Nat) (sleep : Bool) (retrain : Bool) (a : OnlyChanges qs s t) (h : ([.counters, .domain] : List Part).all (fun p => qs.contains p) = true) :
    OnlyChanges qs s (tenonControlOut p sleep retrain t) := OnlyChanges.after (tenonControlOut_only p sleep retrain t) a h

theorem tenonBurst_only (p : Nat) (s : State) :
    OnlyChanges [.domain] s (tenonBurst p s) := by
  unfold tenonBurst
  repeat' first
    | with_reducible exact OnlyChanges.refl _ _
    | with_reducible assumption
    | with_reducible apply OnlyChanges.ite
    | with_reducible apply modTenon_frame
    | ((with_reducible refine Part.nested ?_); rfl)
    | ((with_reducible refine Part.held ?_); rfl)
    | split
    | dsimp only
    | dsimp only [id]
theorem tenonBurst_frame {qs : List Part} {s t : State} (p : Nat) (a : OnlyChanges qs s t) (h : ([.domain] : List Part).all (fun p => qs.contains p) = true) :
    OnlyChanges qs s (tenonBurst p t) := OnlyChanges.after (tenonBurst_only p t) a h

theorem tenonSleep_only (p : Nat) (s : State) :
    OnlyChanges [.power, .counters, .domain] s (tenonSleep p s) := by
  unfold tenonSleep
  repeat' first
    | with_reducible exact OnlyChanges.refl _ _
    | with_reducible assumption
    | with_reducible apply OnlyChanges.ite
    | with_reducible apply modDom_frame
    | with_reducible apply modTenon_frame
    | with_reducible apply settlePlls_frame
    | with_reducible apply tenonControlOut_frame
    | ((with_reducible refine Part.nested ?_); rfl)
    | ((with_reducible refine Part.held ?_); rfl)
    | split
    | dsimp only
    | dsimp only [id]
theorem tenonSleep_frame {qs : List Part} {s t : State} (p : Nat) (a : OnlyChanges qs s t) (h : ([.power, .counters, .domain] : List Part).all (fun p => qs.contains p) = true) :
    OnlyChanges qs s (tenonSleep p t) := OnlyChanges.after (tenonSleep_only p t) a h

theorem tenonSend_only (p : Nat) (m : Message) (s : State) :
    OnlyChanges [.control, .counters, .domain] s (tenonSend p m s) := by
  unfold tenonSend
  repeat' first
    | with_reducible exact OnlyChanges.refl _ _
    | with_reducible assumption
    | with_reducible apply OnlyChanges.ite
    | with_reducible apply bump_frame
    | with_reducible apply freeEntry_frame
    | with_reducible apply modTenon_frame
    | with_reducible apply tenonBytes_frame
    | ((with_reducible refine Part.nested ?_); rfl)
    | ((with_reducible refine Part.held ?_); rfl)
    | split
    | dsimp only
    | dsimp only [id]
theorem tenonSend_frame {qs : List Part} {s t : State} (p : Nat) (m : Message) (a : OnlyChanges qs s t) (h : ([.control, .counters, .domain] : List Part).all (fun p => qs.contains p) = true) :
    OnlyChanges qs s (tenonSend p m t) := OnlyChanges.after (tenonSend_only p m t) a h

theorem floorChange_frame {qs : List Part} {s t : State} (f : State → State) (a : OnlyChanges qs s t)
    (g : ([.sill, .control, .counters] : List Part).all (fun p => qs.contains p) = true) (h : ∀ u, OnlyChanges qs u (f u)) :
    OnlyChanges qs s (floorChange f t) := by
  unfold floorChange
  dsimp only
  split
  · exact a.trans (h t)
  · exact raise_frame _ _ _ _ (a.trans (h t)) g


theorem takeFloor_only (floor : Nat) (seq : Nat) (x2 : State) :
    OnlyChanges [.sill, .control, .counters, .domain] x2 (takeFloor floor seq x2) := by
  unfold takeFloor
  repeat' first
    | with_reducible exact OnlyChanges.refl _ _
    | with_reducible assumption
    | with_reducible apply OnlyChanges.ite
    | with_reducible apply modDomain_frame
    | with_reducible refine floorChange_frame _ ?_ ?_ (fun _ => ?_)
    | ((with_reducible refine Part.nested ?_); rfl)
    | ((with_reducible refine Part.held ?_); rfl)
    | split
    | dsimp only
    | dsimp only [id]
theorem takeFloor_frame {qs : List Part} {x2 t : State} (floor : Nat) (seq : Nat) (a : OnlyChanges qs x2 t) (h : ([.sill, .control, .counters, .domain] : List Part).all (fun p => qs.contains p) = true) :
    OnlyChanges qs x2 (takeFloor floor seq t) := OnlyChanges.after (takeFloor_only floor seq t) a h

theorem settleFloor_only (x0 : State) :
    OnlyChanges [.sill, .control, .counters, .domain] x0 (settleFloor x0) := by
  unfold settleFloor
  repeat' first
    | with_reducible exact OnlyChanges.refl _ _
    | with_reducible assumption
    | with_reducible apply OnlyChanges.ite
    | with_reducible apply modDomain_frame
    | with_reducible refine floorChange_frame _ ?_ ?_ (fun _ => ?_)
    | ((with_reducible refine Part.nested ?_); rfl)
    | ((with_reducible refine Part.held ?_); rfl)
    | split
    | dsimp only
    | dsimp only [id]
theorem settleFloor_frame {qs : List Part} {x0 t : State}  (a : OnlyChanges qs x0 t) (h : ([.sill, .control, .counters, .domain] : List Part).all (fun p => qs.contains p) = true) :
    OnlyChanges qs x0 (settleFloor t) := OnlyChanges.after (settleFloor_only t) a h

theorem onward_frame {qs : List Part} {s t : State} (p : Nat) (m : Message) (go : Message → State → State) (a : OnlyChanges qs s t)
    (g : ([.counters] : List Part).all (fun p => qs.contains p) = true) (h : ∀ m u, OnlyChanges qs u (go m u)) :
    OnlyChanges qs s (onward p m go t) := by
  unfold onward
  split
  · exact bump_frame _ _ _ _ a g
  · exact bump_frame _ _ _ _ (a.trans (h _ t)) g


theorem passRound_only (p : Nat) (m : Message) (s : State) :
    OnlyChanges [.counters, .domain] s (passRound p m s) := by
  unfold passRound
  repeat' first
    | with_reducible exact OnlyChanges.refl _ _
    | with_reducible assumption
    | with_reducible apply OnlyChanges.ite
    | with_reducible apply tenonPush_frame
    | with_reducible refine onward_frame _ _ _ ?_ ?_ (fun _ _ => ?_)
    | ((with_reducible refine Part.nested ?_); rfl)
    | ((with_reducible refine Part.held ?_); rfl)
    | split
    | dsimp only
    | dsimp only [id]
theorem passRound_frame {qs : List Part} {s t : State} (p : Nat) (m : Message) (a : OnlyChanges qs s t) (h : ([.counters, .domain] : List Part).all (fun p => qs.contains p) = true) :
    OnlyChanges qs s (passRound p m t) := OnlyChanges.after (passRound_only p m t) a h

theorem passToward_only (p : Nat) (x1 : Nat) (m : Message) (s : State) :
    OnlyChanges [.counters, .domain] s (passToward p x1 m s) := by
  unfold passToward
  repeat' first
    | with_reducible exact OnlyChanges.refl _ _
    | with_reducible assumption
    | with_reducible apply OnlyChanges.ite
    | with_reducible apply sendToward_frame
    | with_reducible refine sendToward_snd (by assumption) ?_ ?_
    | with_reducible refine onward_frame _ _ _ ?_ ?_ (fun _ _ => ?_)
    | ((with_reducible refine Part.nested ?_); rfl)
    | ((with_reducible refine Part.held ?_); rfl)
    | split
    | dsimp only
    | dsimp only [id]
theorem passToward_frame {qs : List Part} {s t : State} (p : Nat) (x1 : Nat) (m : Message) (a : OnlyChanges qs s t) (h : ([.counters, .domain] : List Part).all (fun p => qs.contains p) = true) :
    OnlyChanges qs s (passToward p x1 m t) := OnlyChanges.after (passToward_only p x1 m t) a h

theorem sendFence_only (l : Nat) (mask : Nat) (s : State) :
    OnlyChanges [.domain] s (sendFence l mask s) := by
  unfold sendFence
  repeat' first
    | with_reducible exact OnlyChanges.refl _ _
    | with_reducible assumption
    | with_reducible apply OnlyChanges.ite
    | with_reducible apply tenonPush_frame
    | ((with_reducible refine Part.nested ?_); rfl)
    | ((with_reducible refine Part.held ?_); rfl)
    | split
    | dsimp only
    | dsimp only [id]
theorem sendFence_frame {qs : List Part} {s t : State} (l : Nat) (mask : Nat) (a : OnlyChanges qs s t) (h : ([.domain] : List Part).all (fun p => qs.contains p) = true) :
    OnlyChanges qs s (sendFence l mask t) := OnlyChanges.after (sendFence_only l mask t) a h

theorem fenceReversed_only (old : State) (l : Nat) (s : State) :
    OnlyChanges [.domain] s (fenceReversed old l s) := by
  unfold fenceReversed
  repeat' first
    | with_reducible exact OnlyChanges.refl _ _
    | with_reducible assumption
    | with_reducible apply OnlyChanges.ite
    | with_reducible refine OnlyChanges.each (fun _ _ => ?_) _ ?_
    | with_reducible apply modDomain_frame
    | with_reducible apply sendFence_frame
    | ((with_reducible refine Part.nested ?_); rfl)
    | ((with_reducible refine Part.held ?_); rfl)
    | split
    | dsimp only
    | dsimp only [id]
theorem fenceReversed_frame {qs : List Part} {s t : State} (old : State) (l : Nat) (a : OnlyChanges qs s t) (h : ([.domain] : List Part).all (fun p => qs.contains p) = true) :
    OnlyChanges qs s (fenceReversed old l t) := OnlyChanges.after (fenceReversed_only old l t) a h

theorem fenceReturn_only (l : Nat) (s : State) :
    OnlyChanges [.domain] s (fenceReturn l s) := by
  unfold fenceReturn
  repeat' first
    | with_reducible exact OnlyChanges.refl _ _
    | with_reducible assumption
    | with_reducible apply OnlyChanges.ite
    | with_reducible refine OnlyChanges.each (fun _ _ => ?_) _ ?_
    | with_reducible apply modDomain_frame
    | with_reducible apply sendToward_frame
    | with_reducible refine sendToward_snd (by assumption) ?_ ?_
    | ((with_reducible refine Part.nested ?_); rfl)
    | ((with_reducible refine Part.held ?_); rfl)
    | split
    | dsimp only
    | dsimp only [id]
theorem fenceReturn_frame {qs : List Part} {s t : State} (l : Nat) (a : OnlyChanges qs s t) (h : ([.domain] : List Part).all (fun p => qs.contains p) = true) :
    OnlyChanges qs s (fenceReturn l t) := OnlyChanges.after (fenceReturn_only l t) a h

theorem fenceAgain_only (l : Nat) (s : State) :
    OnlyChanges [.domain] s (fenceAgain l s) := by
  unfold fenceAgain
  repeat' first
    | with_reducible exact OnlyChanges.refl _ _
    | with_reducible assumption
    | with_reducible apply OnlyChanges.ite
    | with_reducible apply sendFence_frame
    | ((with_reducible refine Part.nested ?_); rfl)
    | ((with_reducible refine Part.held ?_); rfl)
    | split
    | dsimp only
    | dsimp only [id]
theorem fenceAgain_frame {qs : List Part} {s t : State} (l : Nat) (a : OnlyChanges qs s t) (h : ([.domain] : List Part).all (fun p => qs.contains p) = true) :
    OnlyChanges qs s (fenceAgain l t) := OnlyChanges.after (fenceAgain_only l t) a h

theorem fenceRx_only (p : Nat) (m : Message) (l : Nat) (mask : Nat) (returned : Bool) (s : State) :
    OnlyChanges [.counters, .domain] s (fenceRx p m l mask returned s) := by
  unfold fenceRx
  repeat' first
    | with_reducible exact OnlyChanges.refl _ _
    | with_reducible assumption
    | with_reducible apply OnlyChanges.ite
    | with_reducible apply fenceReturn_frame
    | with_reducible apply passRound_frame
    | ((with_reducible refine Part.nested ?_); rfl)
    | ((with_reducible refine Part.held ?_); rfl)
    | split
    | dsimp only
    | dsimp only [id]
theorem fenceRx_frame {qs : List Part} {s t : State} (p : Nat) (m : Message) (l : Nat) (mask : Nat) (returned : Bool) (a : OnlyChanges qs s t) (h : ([.counters, .domain] : List Part).all (fun p => qs.contains p) = true) :
    OnlyChanges qs s (fenceRx p m l mask returned t) := OnlyChanges.after (fenceRx_only p m l mask returned t) a h

end Sys2Proof.Machine
end

