-- ==== Sys2Proof/Laws/FrameTenon.lean ====
section
/-! SUPPORT. What each operation of Tenon.lean may change. -/

-- One theorem after another: with a thread for each, the package as one text outgrows the checker's memory limit.
set_option Elab.async false

namespace Sys2Proof.Machine

theorem tenonAligned_only (p : Nat) (s : State) :
    OnlyChanges [.sill, .control, .counters, .domain, .fresh] s (tenonAligned p s) := by
  unfold tenonAligned
  repeat' first
    | with_reducible exact OnlyChanges.refl _ _
    | with_reducible assumption
    | with_reducible apply OnlyChanges.ite
    | with_reducible apply bump_frame
    | with_reducible apply drawBytes_frame
    | with_reducible refine drawBytes_snd (by assumption) ?_ ?_
    | with_reducible apply modTenon_frame
    | with_reducible apply tenonBytes_frame
    | with_reducible apply tenonEvent_frame
    | with_reducible apply tenonResend_frame
    | ((with_reducible refine Part.nested ?_); rfl)
    | ((with_reducible refine Part.held ?_); rfl)
    | split
    | dsimp only
    | dsimp only [id]
theorem tenonAligned_frame {qs : List Part} {s t : State} (p : Nat) (a : OnlyChanges qs s t) (h : ([.sill, .control, .counters, .domain, .fresh] : List Part).all (fun p => qs.contains p) = true) :
    OnlyChanges qs s (tenonAligned p t) := OnlyChanges.after (tenonAligned_only p t) a h

theorem scribeWordAlignmentGained_only (port : Port) (s : State) :
    OnlyChanges [.sill, .control, .counters, .stream, .domain, .fresh] s (scribeWordAlignmentGained port s) := by
  unfold scribeWordAlignmentGained
  repeat' first
    | with_reducible exact OnlyChanges.refl _ _
    | with_reducible assumption
    | with_reducible apply OnlyChanges.ite
    | with_reducible apply streamTrained_frame
    | with_reducible apply tenonAligned_frame
    | ((with_reducible refine Part.nested ?_); rfl)
    | ((with_reducible refine Part.held ?_); rfl)
    | split
    | dsimp only
    | dsimp only [id]
theorem scribeWordAlignmentGained_frame {qs : List Part} {s t : State} (port : Port) (a : OnlyChanges qs s t) (h : ([.sill, .control, .counters, .stream, .domain, .fresh] : List Part).all (fun p => qs.contains p) = true) :
    OnlyChanges qs s (scribeWordAlignmentGained port t) := OnlyChanges.after (scribeWordAlignmentGained_only port t) a h

theorem tenonAlignmentLoss_only (p : Nat) (s : State) :
    OnlyChanges [.sill, .control, .counters, .domain] s (tenonAlignmentLoss p s) := by
  unfold tenonAlignmentLoss
  repeat' first
    | with_reducible exact OnlyChanges.refl _ _
    | with_reducible assumption
    | with_reducible apply OnlyChanges.ite
    | with_reducible refine OnlyChanges.cond (fun _ => ?_) ?_
    | with_reducible apply bump_frame
    | with_reducible apply modTenon_frame
    | with_reducible apply tenonBurst_frame
    | with_reducible apply tenonControlOut_frame
    | with_reducible apply tenonEvent_frame
    | ((with_reducible refine Part.nested ?_); rfl)
    | ((with_reducible refine Part.held ?_); rfl)
    | split
    | dsimp only
    | dsimp only [id]
theorem tenonAlignmentLoss_frame {qs : List Part} {s t : State} (p : Nat) (a : OnlyChanges qs s t) (h : ([.sill, .control, .counters, .domain] : List Part).all (fun p => qs.contains p) = true) :
    OnlyChanges qs s (tenonAlignmentLoss p t) := OnlyChanges.after (tenonAlignmentLoss_only p t) a h

theorem tenonRetrainTimeout_only (p : Nat) (s : State) :
    OnlyChanges [.sill, .control, .counters, .domain] s (tenonRetrainTimeout p s) := by
  unfold tenonRetrainTimeout
  repeat' first
    | with_reducible exact OnlyChanges.refl _ _
    | with_reducible assumption
    | with_reducible apply OnlyChanges.ite
    | with_reducible refine OnlyChanges.cond (fun _ => ?_) ?_
    | with_reducible apply portDown_frame
    | ((with_reducible refine Part.nested ?_); rfl)
    | ((with_reducible refine Part.held ?_); rfl)
    | split
    | dsimp only
    | dsimp only [id]
theorem tenonRetrainTimeout_frame {qs : List Part} {s t : State} (p : Nat) (a : OnlyChanges qs s t) (h : ([.sill, .control, .counters, .domain] : List Part).all (fun p => qs.contains p) = true) :
    OnlyChanges qs s (tenonRetrainTimeout p t) := OnlyChanges.after (tenonRetrainTimeout_only p t) a h

theorem tenonDownRetry_only (p : Nat) (s : State) :
    OnlyChanges [.domain] s (tenonDownRetry p s) := by
  unfold tenonDownRetry
  repeat' first
    | with_reducible exact OnlyChanges.refl _ _
    | with_reducible assumption
    | with_reducible apply OnlyChanges.ite
    | with_reducible refine OnlyChanges.cond (fun _ => ?_) ?_
    | with_reducible apply modTenon_frame
    | ((with_reducible refine Part.nested ?_); rfl)
    | ((with_reducible refine Part.held ?_); rfl)
    | split
    | dsimp only
    | dsimp only [id]
theorem tenonDownRetry_frame {qs : List Part} {s t : State} (p : Nat) (a : OnlyChanges qs s t) (h : ([.domain] : List Part).all (fun p => qs.contains p) = true) :
    OnlyChanges qs s (tenonDownRetry p t) := OnlyChanges.after (tenonDownRetry_only p t) a h

theorem tenonWakeBurst_only (p : Nat) (s : State) :
    OnlyChanges [.power, .counters, .domain, .cal, .elements, .carrier, .client] s (tenonWakeBurst p s) := by
  unfold tenonWakeBurst
  repeat' first
    | with_reducible exact OnlyChanges.refl _ _
    | with_reducible assumption
    | with_reducible apply OnlyChanges.ite
    | with_reducible refine OnlyChanges.cond (fun _ => ?_) ?_
    | with_reducible apply bump_frame
    | with_reducible apply modTenon_frame
    | with_reducible apply startExit_frame
    | with_reducible apply tenonBurst_frame
    | ((with_reducible refine Part.nested ?_); rfl)
    | ((with_reducible refine Part.held ?_); rfl)
    | split
    | dsimp only
    | dsimp only [id]
theorem tenonWakeBurst_frame {qs : List Part} {s t : State} (p : Nat) (a : OnlyChanges qs s t) (h : ([.power, .counters, .domain, .cal, .elements, .carrier, .client] : List Part).all (fun p => qs.contains p) = true) :
    OnlyChanges qs s (tenonWakeBurst p t) := OnlyChanges.after (tenonWakeBurst_only p t) a h

theorem learnNumber_only (p : Nat) (x1 : Hello) (s : State) :
    OnlyChanges [.domain] s (learnNumber p x1 s) := by
  unfold learnNumber
  repeat' first
    | with_reducible exact OnlyChanges.refl _ _
    | with_reducible assumption
    | with_reducible apply OnlyChanges.ite
    | with_reducible apply modDomain_frame
    | ((with_reducible refine Part.nested ?_); rfl)
    | ((with_reducible refine Part.held ?_); rfl)
    | split
    | dsimp only
    | dsimp only [id]
theorem learnNumber_frame {qs : List Part} {s t : State} (p : Nat) (x1 : Hello) (a : OnlyChanges qs s t) (h : ([.domain] : List Part).all (fun p => qs.contains p) = true) :
    OnlyChanges qs s (learnNumber p x1 t) := OnlyChanges.after (learnNumber_only p x1 t) a h

theorem standBy_only (p : Nat) (x1 : Hello) (s : State) :
    OnlyChanges [.sill, .control, .counters, .domain] s (standBy p x1 s) := by
  unfold standBy
  repeat' first
    | with_reducible exact OnlyChanges.refl _ _
    | with_reducible assumption
    | with_reducible apply OnlyChanges.ite
    | with_reducible apply modDomain_frame
    | with_reducible apply raise_frame
    | ((with_reducible refine Part.nested ?_); rfl)
    | ((with_reducible refine Part.held ?_); rfl)
    | split
    | dsimp only
    | dsimp only [id]
theorem standBy_frame {qs : List Part} {s t : State} (p : Nat) (x1 : Hello) (a : OnlyChanges qs s t) (h : ([.sill, .control, .counters, .domain] : List Part).all (fun p => qs.contains p) = true) :
    OnlyChanges qs s (standBy p x1 t) := OnlyChanges.after (standBy_only p x1 t) a h

theorem tenonHelloRx_only (p : Nat) (x1 : Hello) (s : State) :
    OnlyChanges [.sill, .control, .counters, .domain, .fresh] s (tenonHelloRx p x1 s) := by
  unfold tenonHelloRx
  repeat' first
    | with_reducible exact OnlyChanges.refl _ _
    | with_reducible assumption
    | with_reducible apply OnlyChanges.ite
    | with_reducible apply drawNat_frame
    | with_reducible refine drawNat_snd (by assumption) ?_ ?_
    | with_reducible apply learnNumber_frame
    | with_reducible apply modTenon_frame
    | with_reducible apply portDown_frame
    | with_reducible apply standBy_frame
    | with_reducible apply takeFloor_frame
    | with_reducible apply tenonBytes_frame
    | ((with_reducible refine Part.nested ?_); rfl)
    | ((with_reducible refine Part.held ?_); rfl)
    | split
    | dsimp only
    | dsimp only [id]
theorem tenonHelloRx_frame {qs : List Part} {s t : State} (p : Nat) (x1 : Hello) (a : OnlyChanges qs s t) (h : ([.sill, .control, .counters, .domain, .fresh] : List Part).all (fun p => qs.contains p) = true) :
    OnlyChanges qs s (tenonHelloRx p x1 t) := OnlyChanges.after (tenonHelloRx_only p x1 t) a h

theorem tenonAuthRx_only (p : Nat) (x1 : Auth) (s : State) :
    OnlyChanges [.sill, .control, .counters, .stream, .domain, .security] s (tenonAuthRx p x1 s) := by
  unfold tenonAuthRx
  repeat' first
    | with_reducible exact OnlyChanges.refl _ _
    | with_reducible assumption
    | with_reducible apply OnlyChanges.ite
    | with_reducible apply authFailure_frame
    | with_reducible apply bump_frame
    | with_reducible apply modTenon_frame
    | with_reducible apply portDown_frame
    | with_reducible apply tenonEvent_frame
    | ((with_reducible refine Part.nested ?_); rfl)
    | ((with_reducible refine Part.held ?_); rfl)
    | split
    | dsimp only
    | dsimp only [id]
theorem tenonAuthRx_frame {qs : List Part} {s t : State} (p : Nat) (x1 : Auth) (a : OnlyChanges qs s t) (h : ([.sill, .control, .counters, .stream, .domain, .security] : List Part).all (fun p => qs.contains p) = true) :
    OnlyChanges qs s (tenonAuthRx p x1 t) := OnlyChanges.after (tenonAuthRx_only p x1 t) a h

theorem tenonLinkControlRx_only (p : Nat) (crcOk : Bool) (k : LinkControl) (s : State) :
    OnlyChanges [.sill, .power, .control, .counters, .domain] s (tenonLinkControlRx p crcOk k s) := by
  unfold tenonLinkControlRx
  repeat' first
    | with_reducible exact OnlyChanges.refl _ _
    | with_reducible assumption
    | with_reducible apply OnlyChanges.ite
    | with_reducible apply bump_frame
    | with_reducible apply modDom_frame
    | with_reducible apply modTenon_frame
    | with_reducible apply portDown_frame
    | with_reducible apply settlePlls_frame
    | with_reducible apply tenonBurst_frame
    | with_reducible apply tenonControlOut_frame
    | with_reducible apply tenonEvent_frame
    | with_reducible apply tenonResend_frame
    | ((with_reducible refine Part.nested ?_); rfl)
    | ((with_reducible refine Part.held ?_); rfl)
    | split
    | dsimp only
    | dsimp only [id]
theorem tenonLinkControlRx_frame {qs : List Part} {s t : State} (p : Nat) (crcOk : Bool) (k : LinkControl) (a : OnlyChanges qs s t) (h : ([.sill, .power, .control, .counters, .domain] : List Part).all (fun p => qs.contains p) = true) :
    OnlyChanges qs s (tenonLinkControlRx p crcOk k t) := OnlyChanges.after (tenonLinkControlRx_only p crcOk k t) a h

theorem tenonLinkControlTx_only (p : Nat) (s : State) :
    OnlyChanges [.counters, .domain] s (tenonLinkControlTx p s) := by
  unfold tenonLinkControlTx
  repeat' first
    | with_reducible exact OnlyChanges.refl _ _
    | with_reducible assumption
    | with_reducible apply OnlyChanges.ite
    | with_reducible refine OnlyChanges.cond (fun _ => ?_) ?_
    | with_reducible apply tenonControlOut_frame
    | ((with_reducible refine Part.nested ?_); rfl)
    | ((with_reducible refine Part.held ?_); rfl)
    | split
    | dsimp only
    | dsimp only [id]
theorem tenonLinkControlTx_frame {qs : List Part} {s t : State} (p : Nat) (a : OnlyChanges qs s t) (h : ([.counters, .domain] : List Part).all (fun p => qs.contains p) = true) :
    OnlyChanges qs s (tenonLinkControlTx p t) := OnlyChanges.after (tenonLinkControlTx_only p t) a h

theorem tenonReplayTimeout_only (p : Nat) (s : State) :
    OnlyChanges [.counters, .domain] s (tenonReplayTimeout p s) := by
  unfold tenonReplayTimeout
  repeat' first
    | with_reducible exact OnlyChanges.refl _ _
    | with_reducible assumption
    | with_reducible apply OnlyChanges.ite
    | with_reducible refine OnlyChanges.cond (fun _ => ?_) ?_
    | with_reducible apply tenonResend_frame
    | ((with_reducible refine Part.nested ?_); rfl)
    | ((with_reducible refine Part.held ?_); rfl)
    | split
    | dsimp only
    | dsimp only [id]
theorem tenonReplayTimeout_frame {qs : List Part} {s t : State} (p : Nat) (a : OnlyChanges qs s t) (h : ([.counters, .domain] : List Part).all (fun p => qs.contains p) = true) :
    OnlyChanges qs s (tenonReplayTimeout p t) := OnlyChanges.after (tenonReplayTimeout_only p t) a h

theorem tenonDataTx_only (p : Nat) (vc : Nat) (s : State) :
    OnlyChanges [.sill, .control, .counters, .domain] s (tenonDataTx p vc s) := by
  unfold tenonDataTx
  repeat' first
    | with_reducible exact OnlyChanges.refl _ _
    | with_reducible assumption
    | with_reducible apply OnlyChanges.ite
    | with_reducible refine OnlyChanges.cond (fun _ => ?_) ?_
    | with_reducible apply flushLost_frame
    | with_reducible apply modRoute_frame
    | with_reducible apply modTenon_frame
    | with_reducible apply tenonSend_frame
    | ((with_reducible refine Part.nested ?_); rfl)
    | ((with_reducible refine Part.held ?_); rfl)
    | split
    | dsimp only
    | dsimp only [id]
theorem tenonDataTx_frame {qs : List Part} {s t : State} (p : Nat) (vc : Nat) (a : OnlyChanges qs s t) (h : ([.sill, .control, .counters, .domain] : List Part).all (fun p => qs.contains p) = true) :
    OnlyChanges qs s (tenonDataTx p vc t) := OnlyChanges.after (tenonDataTx_only p vc t) a h

theorem takeIn_only (p : Nat) (m : Message) (q : Packet) (s : State) :
    OnlyChanges [.sill, .control] s (takeIn p m q s) := by
  unfold takeIn
  repeat' first
    | with_reducible exact OnlyChanges.refl _ _
    | with_reducible assumption
    | with_reducible apply OnlyChanges.ite
    | with_reducible apply receive_frame
    | ((with_reducible refine Part.nested ?_); rfl)
    | ((with_reducible refine Part.held ?_); rfl)
    | split
    | dsimp only
    | dsimp only [id]
theorem takeIn_frame {qs : List Part} {s t : State} (p : Nat) (m : Message) (q : Packet) (a : OnlyChanges qs s t) (h : ([.sill, .control] : List Part).all (fun p => qs.contains p) = true) :
    OnlyChanges qs s (takeIn p m q t) := OnlyChanges.after (takeIn_only p m q t) a h

theorem noWay_only (m : Message) (q : Packet) (s : State) :
    OnlyChanges [.domain] s (noWay m q s) := by
  unfold noWay
  repeat' first
    | with_reducible exact OnlyChanges.refl _ _
    | with_reducible assumption
    | with_reducible apply OnlyChanges.ite
    | with_reducible apply sendToward_frame
    | with_reducible refine sendToward_snd (by assumption) ?_ ?_
    | ((with_reducible refine Part.nested ?_); rfl)
    | ((with_reducible refine Part.held ?_); rfl)
    | split
    | dsimp only
    | dsimp only [id]
theorem noWay_frame {qs : List Part} {s t : State} (m : Message) (q : Packet) (a : OnlyChanges qs s t) (h : ([.domain] : List Part).all (fun p => qs.contains p) = true) :
    OnlyChanges qs s (noWay m q t) := OnlyChanges.after (noWay_only m q t) a h

theorem requestRx_only (p : Nat) (m : Message) (q : Packet) (s : State) :
    OnlyChanges [.sill, .control, .counters, .domain] s (requestRx p m q s) := by
  unfold requestRx
  repeat' first
    | with_reducible exact OnlyChanges.refl _ _
    | with_reducible assumption
    | with_reducible apply OnlyChanges.ite
    | with_reducible apply bump_frame
    | with_reducible apply modTenon_frame
    | with_reducible apply noWay_frame
    | with_reducible apply passRound_frame
    | with_reducible apply passToward_frame
    | with_reducible apply sendToward_frame
    | with_reducible refine sendToward_snd (by assumption) ?_ ?_
    | with_reducible apply takeIn_frame
    | ((with_reducible refine Part.nested ?_); rfl)
    | ((with_reducible refine Part.held ?_); rfl)
    | split
    | dsimp only
    | dsimp only [id]
theorem requestRx_frame {qs : List Part} {s t : State} (p : Nat) (m : Message) (q : Packet) (a : OnlyChanges qs s t) (h : ([.sill, .control, .counters, .domain] : List Part).all (fun p => qs.contains p) = true) :
    OnlyChanges qs s (requestRx p m q t) := OnlyChanges.after (requestRx_only p m q t) a h

theorem finishDistribution_only (s : State) :
    OnlyChanges [.sill, .control, .counters, .domain] s (finishDistribution s) := by
  unfold finishDistribution
  repeat' first
    | with_reducible exact OnlyChanges.refl _ _
    | with_reducible assumption
    | with_reducible apply OnlyChanges.ite
    | with_reducible apply modDomain_frame
    | with_reducible apply raise_frame
    | ((with_reducible refine Part.nested ?_); rfl)
    | ((with_reducible refine Part.held ?_); rfl)
    | split
    | dsimp only
    | dsimp only [id]
theorem finishDistribution_frame {qs : List Part} {s t : State}  (a : OnlyChanges qs s t) (h : ([.sill, .control, .counters, .domain] : List Part).all (fun p => qs.contains p) = true) :
    OnlyChanges qs s (finishDistribution t) := OnlyChanges.after (finishDistribution_only t) a h

theorem report_only (x0 : Nat) (st : Nat) (s : State) :
    OnlyChanges [.sill, .control, .counters, .domain] s (report x0 st s) := by
  unfold report
  repeat' first
    | with_reducible exact OnlyChanges.refl _ _
    | with_reducible assumption
    | with_reducible apply OnlyChanges.ite
    | with_reducible apply finishDistribution_frame
    | with_reducible apply modDomain_frame
    | ((with_reducible refine Part.nested ?_); rfl)
    | ((with_reducible refine Part.held ?_); rfl)
    | split
    | dsimp only
    | dsimp only [id]
theorem report_frame {qs : List Part} {s t : State} (x0 : Nat) (st : Nat) (a : OnlyChanges qs s t) (h : ([.sill, .control, .counters, .domain] : List Part).all (fun p => qs.contains p) = true) :
    OnlyChanges qs s (report x0 st t) := OnlyChanges.after (report_only x0 st t) a h

theorem replyRx_only (p : Nat) (m : Message) (r : Packet) (s : State) :
    OnlyChanges [.sill, .control, .counters, .stream, .domain, .security] s (replyRx p m r s) := by
  unfold replyRx
  repeat' first
    | with_reducible exact OnlyChanges.refl _ _
    | with_reducible assumption
    | with_reducible apply OnlyChanges.ite
    | with_reducible apply bump_frame
    | with_reducible apply closeCollation_frame
    | with_reducible apply modControl_frame
    | with_reducible apply modDomain_frame
    | with_reducible apply passToward_frame
    | with_reducible apply putReply_frame
    | with_reducible apply report_frame
    | with_reducible apply storeReply_frame
    | ((with_reducible refine Part.nested ?_); rfl)
    | ((with_reducible refine Part.held ?_); rfl)
    | split
    | dsimp only
    | dsimp only [id]
theorem replyRx_frame {qs : List Part} {s t : State} (p : Nat) (m : Message) (r : Packet) (a : OnlyChanges qs s t) (h : ([.sill, .control, .counters, .stream, .domain, .security] : List Part).all (fun p => qs.contains p) = true) :
    OnlyChanges qs s (replyRx p m r t) := OnlyChanges.after (replyRx_only p m r t) a h

theorem eventRx_only (p : Nat) (m : Message) (e : Packet) (s : State) :
    OnlyChanges [.sill, .control, .counters, .domain] s (eventRx p m e s) := by
  unfold eventRx
  repeat' first
    | with_reducible exact OnlyChanges.refl _ _
    | with_reducible assumption
    | with_reducible apply OnlyChanges.ite
    | with_reducible refine OnlyChanges.each (fun _ _ => ?_) _ ?_
    | with_reducible apply bump_frame
    | with_reducible apply flushLost_frame
    | with_reducible apply modDomain_frame
    | with_reducible apply modRoute_frame
    | with_reducible apply passToward_frame
    | ((with_reducible refine Part.nested ?_); rfl)
    | ((with_reducible refine Part.held ?_); rfl)
    | split
    | dsimp only
    | dsimp only [id]
theorem eventRx_frame {qs : List Part} {s t : State} (p : Nat) (m : Message) (e : Packet) (a : OnlyChanges qs s t) (h : ([.sill, .control, .counters, .domain] : List Part).all (fun p => qs.contains p) = true) :
    OnlyChanges qs s (eventRx p m e t) := OnlyChanges.after (eventRx_only p m e t) a h

theorem outcome_frame {qs : List Part} {s : State} {r : Reply} (h : ReplyChanges qs s r) : OnlyChanges qs s (outcome r).2 := by
  cases r with
  | reject => exact h
  | done => exact h.1.trans (h.2 _)
  | later => exact h

theorem outcome_snd {qs : List Part} {s u : State} {r : Reply} {st : Status} (e : outcome r = (st, u)) (h : ReplyChanges qs s r) :
    OnlyChanges qs s u := by
  have := outcome_frame h
  rwa [e] at this

theorem sendReport_only (origin : Nat) (st : Status) (s : State) :
    OnlyChanges [.domain] s (sendReport origin st s) := by
  unfold sendReport
  repeat' first
    | with_reducible exact OnlyChanges.refl _ _
    | with_reducible assumption
    | with_reducible apply OnlyChanges.ite
    | with_reducible apply sendToward_frame
    | with_reducible refine sendToward_snd (by assumption) ?_ ?_
    | ((with_reducible refine Part.nested ?_); rfl)
    | ((with_reducible refine Part.held ?_); rfl)
    | split
    | dsimp only
    | dsimp only [id]

theorem sendReport_frame {qs : List Part} {s t : State} (origin : Nat) (st : Status) (a : OnlyChanges qs s t) (h : ([.domain] : List Part).all (fun p => qs.contains p) = true) :
    OnlyChanges qs s (sendReport origin st t) := OnlyChanges.after (sendReport_only origin st t) a h

theorem stageBlock_only (origin : Nat) (off : Nat) (len : Nat) (data : List Byte) (s : State) :
    OnlyChanges [.sill, .flash, .fw, .control, .counters, .stream, .domain, .cal, .elements, .carrier, .security, .fresh] s (stageBlock origin off len data s) := by
  unfold stageBlock
  repeat' first
    | with_reducible exact OnlyChanges.refl _ _
    | with_reducible assumption
    | with_reducible apply OnlyChanges.ite
    | with_reducible apply firmwareStageBegin_frame
    | with_reducible apply firmwareStageVerify_frame
    | with_reducible apply firmwareStageWrite_frame
    | with_reducible apply modFw_frame
    | with_reducible apply sendReport_frame
    | with_reducible apply outcome_frame
    | with_reducible refine outcome_snd (by assumption) ?_
    | ((with_reducible refine Part.nested ?_); rfl)
    | ((with_reducible refine Part.held ?_); rfl)
    | split
    | dsimp only
    | dsimp only [id]
theorem stageBlock_frame {qs : List Part} {s t : State} (origin : Nat) (off : Nat) (len : Nat) (data : List Byte) (a : OnlyChanges qs s t) (h : ([.sill, .flash, .fw, .control, .counters, .stream, .domain, .cal, .elements, .carrier, .security, .fresh] : List Part).all (fun p => qs.contains p) = true) :
    OnlyChanges qs s (stageBlock origin off len data t) := OnlyChanges.after (stageBlock_only origin off len data t) a h

theorem sendImage_only (l : Nat) (role : Nat) (m : Message) (s : State) :
    OnlyChanges [.sill, .control, .counters, .domain] s (sendImage l role m s) := by
  unfold sendImage
  repeat' first
    | with_reducible exact OnlyChanges.refl _ _
    | with_reducible assumption
    | with_reducible apply OnlyChanges.ite
    | with_reducible refine OnlyChanges.each (fun _ _ => ?_) _ ?_
    | with_reducible apply report_frame
    | with_reducible apply sendToward_frame
    | with_reducible refine sendToward_snd (by assumption) ?_ ?_
    | with_reducible apply tenonPush_frame
    | ((with_reducible refine Part.nested ?_); rfl)
    | ((with_reducible refine Part.held ?_); rfl)
    | split
    | dsimp only
    | dsimp only [id]
theorem sendImage_frame {qs : List Part} {s t : State} (l : Nat) (role : Nat) (m : Message) (a : OnlyChanges qs s t) (h : ([.sill, .control, .counters, .domain] : List Part).all (fun p => qs.contains p) = true) :
    OnlyChanges qs s (sendImage l role m t) := OnlyChanges.after (sendImage_only l role m t) a h

theorem injectRing_only (l : Nat) (m : Message) (s : State) :
    OnlyChanges [.sill, .control, .counters, .domain] s (injectRing l m s) := by
  unfold injectRing
  repeat' first
    | with_reducible exact OnlyChanges.refl _ _
    | with_reducible assumption
    | with_reducible apply OnlyChanges.ite
    | with_reducible apply sendImage_frame
    | ((with_reducible refine Part.nested ?_); rfl)
    | ((with_reducible refine Part.held ?_); rfl)
    | split
    | dsimp only
    | dsimp only [id]
theorem injectRing_frame {qs : List Part} {s t : State} (l : Nat) (m : Message) (a : OnlyChanges qs s t) (h : ([.sill, .control, .counters, .domain] : List Part).all (fun p => qs.contains p) = true) :
    OnlyChanges qs s (injectRing l m t) := OnlyChanges.after (injectRing_only l m t) a h

theorem passImage_only (p : Nat) (m : Message) (s : State) :
    OnlyChanges [.sill, .control, .counters, .domain] s (passImage p m s) := by
  unfold passImage
  repeat' first
    | with_reducible exact OnlyChanges.refl _ _
    | with_reducible assumption
    | with_reducible apply OnlyChanges.ite
    | with_reducible refine OnlyChanges.each (fun _ _ => ?_) _ ?_
    | with_reducible apply injectRing_frame
    | with_reducible apply sendImage_frame
    | with_reducible refine onward_frame _ _ _ ?_ ?_ (fun _ _ => ?_)
    | ((with_reducible refine Part.nested ?_); rfl)
    | ((with_reducible refine Part.held ?_); rfl)
    | split
    | dsimp only
    | dsimp only [id]
theorem passImage_frame {qs : List Part} {s t : State} (p : Nat) (m : Message) (a : OnlyChanges qs s t) (h : ([.sill, .control, .counters, .domain] : List Part).all (fun p => qs.contains p) = true) :
    OnlyChanges qs s (passImage p m t) := OnlyChanges.after (passImage_only p m t) a h

theorem imageRx_only (p : Nat) (m : Message) (scope : BitVec 16) (off : Nat) (len : Nat) (data : List Byte) (s : State) :
    OnlyChanges [.sill, .flash, .fw, .control, .counters, .stream, .domain, .cal, .elements, .carrier, .security, .fresh] s (imageRx p m scope off len data s) := by
  unfold imageRx
  repeat' first
    | with_reducible exact OnlyChanges.refl _ _
    | with_reducible assumption
    | with_reducible apply OnlyChanges.ite
    | with_reducible apply passImage_frame
    | with_reducible apply stageBlock_frame
    | ((with_reducible refine Part.nested ?_); rfl)
    | ((with_reducible refine Part.held ?_); rfl)
    | split
    | dsimp only
    | dsimp only [id]
theorem imageRx_frame {qs : List Part} {s t : State} (p : Nat) (m : Message) (scope : BitVec 16) (off : Nat) (len : Nat) (data : List Byte) (a : OnlyChanges qs s t) (h : ([.sill, .flash, .fw, .control, .counters, .stream, .domain, .cal, .elements, .carrier, .security, .fresh] : List Part).all (fun p => qs.contains p) = true) :
    OnlyChanges qs s (imageRx p m scope off len data t) := OnlyChanges.after (imageRx_only p m scope off len data t) a h

theorem tenonTake_only (p : Nat) (m : Message) (s : State) :
    OnlyChanges [.sill, .flash, .fw, .control, .counters, .stream, .domain, .cal, .elements, .carrier, .security, .fresh] s (tenonTake p m s) := by
  unfold tenonTake
  repeat' first
    | with_reducible exact OnlyChanges.refl _ _
    | with_reducible assumption
    | with_reducible apply OnlyChanges.ite
    | with_reducible apply eventRx_frame
    | with_reducible apply fenceRx_frame
    | with_reducible apply imageRx_frame
    | with_reducible apply modTenon_frame
    | with_reducible apply replyRx_frame
    | with_reducible apply requestRx_frame
    | ((with_reducible refine Part.nested ?_); rfl)
    | ((with_reducible refine Part.held ?_); rfl)
    | split
    | dsimp only
    | dsimp only [id]
theorem tenonTake_frame {qs : List Part} {s t : State} (p : Nat) (m : Message) (a : OnlyChanges qs s t) (h : ([.sill, .flash, .fw, .control, .counters, .stream, .domain, .cal, .elements, .carrier, .security, .fresh] : List Part).all (fun p => qs.contains p) = true) :
    OnlyChanges qs s (tenonTake p m t) := OnlyChanges.after (tenonTake_only p m t) a h

theorem tenonMessageRx_only (p : Nat) (crcOk : Bool) (m : Message) (s : State) :
    OnlyChanges [.sill, .flash, .fw, .control, .counters, .stream, .domain, .cal, .elements, .carrier, .security, .fresh] s (tenonMessageRx p crcOk m s) := by
  unfold tenonMessageRx
  repeat' first
    | with_reducible exact OnlyChanges.refl _ _
    | with_reducible assumption
    | with_reducible apply OnlyChanges.ite
    | with_reducible apply bump_frame
    | with_reducible apply modTenon_frame
    | with_reducible apply tenonTake_frame
    | ((with_reducible refine Part.nested ?_); rfl)
    | ((with_reducible refine Part.held ?_); rfl)
    | split
    | dsimp only
    | dsimp only [id]
theorem tenonMessageRx_frame {qs : List Part} {s t : State} (p : Nat) (crcOk : Bool) (m : Message) (a : OnlyChanges qs s t) (h : ([.sill, .flash, .fw, .control, .counters, .stream, .domain, .cal, .elements, .carrier, .security, .fresh] : List Part).all (fun p => qs.contains p) = true) :
    OnlyChanges qs s (tenonMessageRx p crcOk m t) := OnlyChanges.after (tenonMessageRx_only p crcOk m t) a h

end Sys2Proof.Machine
end

