-- ==== Sys2Proof/Laws/FrameDomain.lean ====
section
/-! SUPPORT. What each operation of Domain.lean may change. -/

-- One theorem after another: with a thread for each, the package as one text outgrows the checker's memory limit.
set_option Elab.async false

namespace Sys2Proof.Machine

theorem adoptMap_only (l : Nat) (m : RingMap) (s : State) :
    OnlyChanges [.domain] s (adoptMap l m s) := by
  unfold adoptMap
  repeat' first
    | with_reducible exact OnlyChanges.refl _ _
    | with_reducible assumption
    | with_reducible apply OnlyChanges.ite
    | with_reducible apply fenceReversed_frame
    | with_reducible apply modDomain_frame
    | ((with_reducible refine Part.nested ?_); rfl)
    | ((with_reducible refine Part.held ?_); rfl)
    | split
    | dsimp only
    | dsimp only [id]
theorem adoptMap_frame {qs : List Part} {s t : State} (l : Nat) (m : RingMap) (a : OnlyChanges qs s t) (h : ([.domain] : List Part).all (fun p => qs.contains p) = true) :
    OnlyChanges qs s (adoptMap l m t) := OnlyChanges.after (adoptMap_only l m t) a h

theorem buildMap_only (l : Nat) (seen : List Seen) (s : State) :
    OnlyChanges [.sill, .control, .counters, .domain] s (buildMap l seen s) := by
  unfold buildMap
  repeat' first
    | with_reducible exact OnlyChanges.refl _ _
    | with_reducible assumption
    | with_reducible apply OnlyChanges.ite
    | with_reducible apply adoptMap_frame
    | with_reducible apply modDomain_frame
    | with_reducible apply raise_frame
    | ((with_reducible refine Part.nested ?_); rfl)
    | ((with_reducible refine Part.held ?_); rfl)
    | split
    | dsimp only
    | dsimp only [id]
theorem buildMap_frame {qs : List Part} {s t : State} (l : Nat) (seen : List Seen) (a : OnlyChanges qs s t) (h : ([.sill, .control, .counters, .domain] : List Part).all (fun p => qs.contains p) = true) :
    OnlyChanges qs s (buildMap l seen t) := OnlyChanges.after (buildMap_only l seen t) a h

theorem mapSend_only (l : Nat) (seen : List Seen) (s : State) :
    OnlyChanges [.sill, .control, .counters, .domain] s (mapSend l seen s) := by
  unfold mapSend
  repeat' first
    | with_reducible exact OnlyChanges.refl _ _
    | with_reducible assumption
    | with_reducible apply OnlyChanges.ite
    | with_reducible refine OnlyChanges.each (fun _ _ => ?_) _ ?_
    | with_reducible apply buildMap_frame
    | with_reducible apply tenonPush_frame
    | ((with_reducible refine Part.nested ?_); rfl)
    | ((with_reducible refine Part.held ?_); rfl)
    | split
    | dsimp only
    | dsimp only [id]
theorem mapSend_frame {qs : List Part} {s t : State} (l : Nat) (seen : List Seen) (a : OnlyChanges qs s t) (h : ([.sill, .control, .counters, .domain] : List Part).all (fun p => qs.contains p) = true) :
    OnlyChanges qs s (mapSend l seen t) := OnlyChanges.after (mapSend_only l seen t) a h

theorem takeNumber_only (n : Option Nat) (s : State) :
    OnlyChanges [.sill, .control, .counters, .domain] s (takeNumber n s) := by
  unfold takeNumber
  repeat' first
    | with_reducible exact OnlyChanges.refl _ _
    | with_reducible assumption
    | with_reducible apply OnlyChanges.ite
    | with_reducible apply modDomain_frame
    | with_reducible apply raise_frame
    | ((with_reducible refine Part.nested ?_); rfl)
    | ((with_reducible refine Part.held ?_); rfl)
    | split
    | dsimp only
    | dsimp only [id]
theorem takeNumber_frame {qs : List Part} {s t : State} (n : Option Nat) (a : OnlyChanges qs s t) (h : ([.sill, .control, .counters, .domain] : List Part).all (fun p => qs.contains p) = true) :
    OnlyChanges qs s (takeNumber n t) := OnlyChanges.after (takeNumber_only n t) a h

theorem managerState_only (l : Nat) (new : Nat) (s : State) :
    OnlyChanges [.sill, .control, .counters, .domain] s (managerState l new s) := by
  unfold managerState
  repeat' first
    | with_reducible exact OnlyChanges.refl _ _
    | with_reducible assumption
    | with_reducible apply OnlyChanges.ite
    | with_reducible apply modDomain_frame
    | with_reducible apply raise_frame
    | ((with_reducible refine Part.nested ?_); rfl)
    | ((with_reducible refine Part.held ?_); rfl)
    | split
    | dsimp only
    | dsimp only [id]
theorem managerState_frame {qs : List Part} {s t : State} (l : Nat) (new : Nat) (a : OnlyChanges qs s t) (h : ([.sill, .control, .counters, .domain] : List Part).all (fun p => qs.contains p) = true) :
    OnlyChanges qs s (managerState l new t) := OnlyChanges.after (managerState_only l new t) a h

theorem mapRx_only (p : Nat) (m : MapMsg) (s : State) :
    OnlyChanges [.sill, .control, .counters, .domain] s (mapRx p m s) := by
  unfold mapRx
  repeat' first
    | with_reducible exact OnlyChanges.refl _ _
    | with_reducible assumption
    | with_reducible apply OnlyChanges.ite
    | with_reducible apply adoptMap_frame
    | with_reducible apply managerState_frame
    | with_reducible apply modDomain_frame
    | with_reducible apply passRound_frame
    | with_reducible apply takeFloor_frame
    | with_reducible apply takeNumber_frame
    | ((with_reducible refine Part.nested ?_); rfl)
    | ((with_reducible refine Part.held ?_); rfl)
    | split
    | dsimp only
    | dsimp only [id]
theorem mapRx_frame {qs : List Part} {s t : State} (p : Nat) (m : MapMsg) (a : OnlyChanges qs s t) (h : ([.sill, .control, .counters, .domain] : List Part).all (fun p => qs.contains p) = true) :
    OnlyChanges qs s (mapRx p m t) := OnlyChanges.after (mapRx_only p m t) a h

theorem managerTakeover_only (s : State) :
    OnlyChanges [.sill, .control, .counters, .domain] s (managerTakeover s) := by
  unfold managerTakeover
  repeat' first
    | with_reducible exact OnlyChanges.refl _ _
    | with_reducible assumption
    | with_reducible apply OnlyChanges.ite
    | with_reducible refine OnlyChanges.cond (fun _ => ?_) ?_
    | with_reducible apply managerState_frame
    | with_reducible apply modDomain_frame
    | ((with_reducible refine Part.nested ?_); rfl)
    | ((with_reducible refine Part.held ?_); rfl)
    | split
    | dsimp only
    | dsimp only [id]
theorem managerTakeover_frame {qs : List Part} {s t : State}  (a : OnlyChanges qs s t) (h : ([.sill, .control, .counters, .domain] : List Part).all (fun p => qs.contains p) = true) :
    OnlyChanges qs s (managerTakeover t) := OnlyChanges.after (managerTakeover_only t) a h

theorem collationClose_only (id : Nat) (s : State) :
    OnlyChanges [.control, .stream, .domain, .security] s (collationClose id s) := by
  unfold collationClose
  repeat' first
    | with_reducible exact OnlyChanges.refl _ _
    | with_reducible assumption
    | with_reducible apply OnlyChanges.ite
    | with_reducible apply closeCollation_frame
    | ((with_reducible refine Part.nested ?_); rfl)
    | ((with_reducible refine Part.held ?_); rfl)
    | split
    | dsimp only
    | dsimp only [id]
theorem collationClose_frame {qs : List Part} {s t : State} (id : Nat) (a : OnlyChanges qs s t) (h : ([.control, .stream, .domain, .security] : List Part).all (fun p => qs.contains p) = true) :
    OnlyChanges qs s (collationClose id t) := OnlyChanges.after (collationClose_only id t) a h

theorem distributionTimeout_only (s : State) :
    OnlyChanges [.sill, .control, .counters, .domain] s (distributionTimeout s) := by
  unfold distributionTimeout
  repeat' first
    | with_reducible exact OnlyChanges.refl _ _
    | with_reducible assumption
    | with_reducible apply OnlyChanges.ite
    | with_reducible refine OnlyChanges.cond (fun _ => ?_) ?_
    | with_reducible apply finishDistribution_frame
    | with_reducible apply modDomain_frame
    | ((with_reducible refine Part.nested ?_); rfl)
    | ((with_reducible refine Part.held ?_); rfl)
    | split
    | dsimp only
    | dsimp only [id]
theorem distributionTimeout_frame {qs : List Part} {s t : State}  (a : OnlyChanges qs s t) (h : ([.sill, .control, .counters, .domain] : List Part).all (fun p => qs.contains p) = true) :
    OnlyChanges qs s (distributionTimeout t) := OnlyChanges.after (distributionTimeout_only t) a h

theorem setPortRole_only (p : Nat) (r : Nat) (s : State) :
    OnlyChanges [.sill, .power, .control, .counters, .domain, .cal, .elements, .carrier, .client] s (setPortRole p r s) := by
  unfold setPortRole
  repeat' first
    | with_reducible exact OnlyChanges.refl _ _
    | with_reducible assumption
    | with_reducible apply OnlyChanges.ite
    | with_reducible apply followEnable_frame
    | with_reducible apply modTenon_frame
    | with_reducible apply rerouteFrom_frame
    | with_reducible apply settleFloor_frame
    | with_reducible apply tenonEvent_frame
    | ((with_reducible refine Part.nested ?_); rfl)
    | ((with_reducible refine Part.held ?_); rfl)
    | split
    | dsimp only
    | dsimp only [id]
theorem setPortRole_frame {qs : List Part} {s t : State} (p : Nat) (r : Nat) (a : OnlyChanges qs s t) (h : ([.sill, .power, .control, .counters, .domain, .cal, .elements, .carrier, .client] : List Part).all (fun p => qs.contains p) = true) :
    OnlyChanges qs s (setPortRole p r t) := OnlyChanges.after (setPortRole_only p r t) a h

theorem domainSetPort_only (q : Request) (s : State) :
    ReplyChanges [.sill, .power, .control, .counters, .domain, .cal, .elements, .carrier, .client] s (domainSetPort q s) := by
  unfold domainSetPort
  repeat' first
    | with_reducible exact OnlyChanges.refl _ _
    | with_reducible assumption
    | with_reducible apply ReplyChanges.checked
    | with_reducible apply ReplyChanges.require
    | with_reducible apply ReplyChanges.ite
    | with_reducible apply ReplyChanges.okay
    | with_reducible apply ReplyChanges.okWith
    | with_reducible refine ReplyChanges.okThen ?_ (fun _ => ?_)
    | with_reducible apply ReplyChanges.refuse
    | with_reducible apply ReplyChanges.reject
    | with_reducible refine ReplyChanges.done _ _ ?_ (fun _ => ?_)
    | with_reducible apply ReplyChanges.later
    | with_reducible apply OnlyChanges.ite
    | with_reducible apply setPortRole_frame
    | ((with_reducible refine Part.nested ?_); rfl)
    | ((with_reducible refine Part.held ?_); rfl)
    | split
    | dsimp only
    | dsimp only [id]
theorem domainSetPort_frame {qs : List Part} {s t : State} (q : Request) (a : OnlyChanges qs s t) (h : ([.sill, .power, .control, .counters, .domain, .cal, .elements, .carrier, .client] : List Part).all (fun p => qs.contains p) = true) :
    ReplyChanges qs s (domainSetPort q t) := ReplyChanges.after (domainSetPort_only q t) a h

theorem domainGetPorts_only (q : Request) (s : State) :
    ReplyChanges [] s (domainGetPorts q s) := by
  unfold domainGetPorts
  repeat' first
    | with_reducible exact OnlyChanges.refl _ _
    | with_reducible assumption
    | with_reducible apply ReplyChanges.checked
    | with_reducible apply ReplyChanges.require
    | with_reducible apply ReplyChanges.ite
    | with_reducible apply ReplyChanges.okay
    | with_reducible apply ReplyChanges.okWith
    | with_reducible refine ReplyChanges.okThen ?_ (fun _ => ?_)
    | with_reducible apply ReplyChanges.refuse
    | with_reducible apply ReplyChanges.reject
    | with_reducible refine ReplyChanges.done _ _ ?_ (fun _ => ?_)
    | with_reducible apply ReplyChanges.later
    | with_reducible apply OnlyChanges.ite
    | ((with_reducible refine Part.nested ?_); rfl)
    | ((with_reducible refine Part.held ?_); rfl)
    | split
    | dsimp only
    | dsimp only [id]
theorem domainGetPorts_frame {qs : List Part} {s t : State} (q : Request) (a : OnlyChanges qs s t) (h : ([] : List Part).all (fun p => qs.contains p) = true) :
    ReplyChanges qs s (domainGetPorts q t) := ReplyChanges.after (domainGetPorts_only q t) a h

theorem domainGetTopology_only (q : Request) (s : State) :
    ReplyChanges [] s (domainGetTopology q s) := by
  unfold domainGetTopology
  repeat' first
    | with_reducible exact OnlyChanges.refl _ _
    | with_reducible assumption
    | with_reducible apply ReplyChanges.checked
    | with_reducible apply ReplyChanges.require
    | with_reducible apply ReplyChanges.ite
    | with_reducible apply ReplyChanges.okay
    | with_reducible apply ReplyChanges.okWith
    | with_reducible refine ReplyChanges.okThen ?_ (fun _ => ?_)
    | with_reducible apply ReplyChanges.refuse
    | with_reducible apply ReplyChanges.reject
    | with_reducible refine ReplyChanges.done _ _ ?_ (fun _ => ?_)
    | with_reducible apply ReplyChanges.later
    | with_reducible apply OnlyChanges.ite
    | ((with_reducible refine Part.nested ?_); rfl)
    | ((with_reducible refine Part.held ?_); rfl)
    | split
    | dsimp only
    | dsimp only [id]
theorem domainGetTopology_frame {qs : List Part} {s t : State} (q : Request) (a : OnlyChanges qs s t) (h : ([] : List Part).all (fun p => qs.contains p) = true) :
    ReplyChanges qs s (domainGetTopology q t) := ReplyChanges.after (domainGetTopology_only q t) a h

theorem domainSetFloor_only (q : Request) (s : State) :
    ReplyChanges [.sill, .flash, .control, .counters, .domain, .fresh] s (domainSetFloor q s) := by
  unfold domainSetFloor
  repeat' first
    | with_reducible exact OnlyChanges.refl _ _
    | with_reducible assumption
    | with_reducible apply ReplyChanges.checked
    | with_reducible apply ReplyChanges.require
    | with_reducible apply ReplyChanges.ite
    | with_reducible apply ReplyChanges.okay
    | with_reducible apply ReplyChanges.okWith
    | with_reducible refine ReplyChanges.okThen ?_ (fun _ => ?_)
    | with_reducible apply ReplyChanges.refuse
    | with_reducible apply ReplyChanges.reject
    | with_reducible refine ReplyChanges.done _ _ ?_ (fun _ => ?_)
    | with_reducible apply ReplyChanges.later
    | with_reducible apply OnlyChanges.ite
    | with_reducible apply flashErase_frame
    | with_reducible apply flashTakes_frame
    | with_reducible refine flashTakes_snd (by assumption) ?_ ?_
    | with_reducible apply flashWrite_frame
    | with_reducible apply modDomain_frame
    | with_reducible refine floorChange_frame _ ?_ ?_ (fun _ => ?_)
    | ((with_reducible refine Part.nested ?_); rfl)
    | ((with_reducible refine Part.held ?_); rfl)
    | split
    | dsimp only
    | dsimp only [id]
theorem domainSetFloor_frame {qs : List Part} {s t : State} (q : Request) (a : OnlyChanges qs s t) (h : ([.sill, .flash, .control, .counters, .domain, .fresh] : List Part).all (fun p => qs.contains p) = true) :
    ReplyChanges qs s (domainSetFloor q t) := ReplyChanges.after (domainSetFloor_only q t) a h

theorem domainSetManager_only (q : Request) (s : State) :
    ReplyChanges [.domain] s (domainSetManager q s) := by
  unfold domainSetManager
  repeat' first
    | with_reducible exact OnlyChanges.refl _ _
    | with_reducible assumption
    | with_reducible apply ReplyChanges.checked
    | with_reducible apply ReplyChanges.require
    | with_reducible apply ReplyChanges.ite
    | with_reducible apply ReplyChanges.okay
    | with_reducible apply ReplyChanges.okWith
    | with_reducible refine ReplyChanges.okThen ?_ (fun _ => ?_)
    | with_reducible apply ReplyChanges.refuse
    | with_reducible apply ReplyChanges.reject
    | with_reducible refine ReplyChanges.done _ _ ?_ (fun _ => ?_)
    | with_reducible apply ReplyChanges.later
    | with_reducible apply OnlyChanges.ite
    | with_reducible apply modDomain_frame
    | ((with_reducible refine Part.nested ?_); rfl)
    | ((with_reducible refine Part.held ?_); rfl)
    | split
    | dsimp only
    | dsimp only [id]
theorem domainSetManager_frame {qs : List Part} {s t : State} (q : Request) (a : OnlyChanges qs s t) (h : ([.domain] : List Part).all (fun p => qs.contains p) = true) :
    ReplyChanges qs s (domainSetManager q t) := ReplyChanges.after (domainSetManager_only q t) a h

theorem distribute_only (scope : BitVec 16) (bank : Nat) (s : State) :
    OnlyChanges [.sill, .control, .counters, .domain] s (distribute scope bank s) := by
  unfold distribute
  repeat' first
    | with_reducible exact OnlyChanges.refl _ _
    | with_reducible assumption
    | with_reducible apply OnlyChanges.ite
    | with_reducible refine OnlyChanges.each (fun _ _ => ?_) _ ?_
    | with_reducible apply injectRing_frame
    | with_reducible apply modDomain_frame
    | with_reducible apply report_frame
    | ((with_reducible refine Part.nested ?_); rfl)
    | ((with_reducible refine Part.held ?_); rfl)
    | split
    | dsimp only
    | dsimp only [id]
theorem distribute_frame {qs : List Part} {s t : State} (scope : BitVec 16) (bank : Nat) (a : OnlyChanges qs s t) (h : ([.sill, .control, .counters, .domain] : List Part).all (fun p => qs.contains p) = true) :
    OnlyChanges qs s (distribute scope bank t) := OnlyChanges.after (distribute_only scope bank t) a h

theorem domainDistribute_only (q : Request) (s : State) :
    ReplyChanges [.sill, .control, .counters, .domain] s (domainDistribute q s) := by
  unfold domainDistribute
  repeat' first
    | with_reducible exact OnlyChanges.refl _ _
    | with_reducible assumption
    | with_reducible apply ReplyChanges.checked
    | with_reducible apply ReplyChanges.require
    | with_reducible apply ReplyChanges.ite
    | with_reducible apply ReplyChanges.okay
    | with_reducible apply ReplyChanges.okWith
    | with_reducible refine ReplyChanges.okThen ?_ (fun _ => ?_)
    | with_reducible apply ReplyChanges.refuse
    | with_reducible apply ReplyChanges.reject
    | with_reducible refine ReplyChanges.done _ _ ?_ (fun _ => ?_)
    | with_reducible apply ReplyChanges.later
    | with_reducible apply OnlyChanges.ite
    | with_reducible apply distribute_frame
    | ((with_reducible refine Part.nested ?_); rfl)
    | ((with_reducible refine Part.held ?_); rfl)
    | split
    | dsimp only
    | dsimp only [id]
theorem domainDistribute_frame {qs : List Part} {s t : State} (q : Request) (a : OnlyChanges qs s t) (h : ([.sill, .control, .counters, .domain] : List Part).all (fun p => qs.contains p) = true) :
    ReplyChanges qs s (domainDistribute q t) := ReplyChanges.after (domainDistribute_only q t) a h

theorem domainGetDist_only (q : Request) (s : State) :
    ReplyChanges [] s (domainGetDist q s) := by
  unfold domainGetDist
  repeat' first
    | with_reducible exact OnlyChanges.refl _ _
    | with_reducible assumption
    | with_reducible apply ReplyChanges.checked
    | with_reducible apply ReplyChanges.require
    | with_reducible apply ReplyChanges.ite
    | with_reducible apply ReplyChanges.okay
    | with_reducible apply ReplyChanges.okWith
    | with_reducible refine ReplyChanges.okThen ?_ (fun _ => ?_)
    | with_reducible apply ReplyChanges.refuse
    | with_reducible apply ReplyChanges.reject
    | with_reducible refine ReplyChanges.done _ _ ?_ (fun _ => ?_)
    | with_reducible apply ReplyChanges.later
    | with_reducible apply OnlyChanges.ite
    | ((with_reducible refine Part.nested ?_); rfl)
    | ((with_reducible refine Part.held ?_); rfl)
    | split
    | dsimp only
    | dsimp only [id]
theorem domainGetDist_frame {qs : List Part} {s t : State} (q : Request) (a : OnlyChanges qs s t) (h : ([] : List Part).all (fun p => qs.contains p) = true) :
    ReplyChanges qs s (domainGetDist q t) := ReplyChanges.after (domainGetDist_only q t) a h

theorem domainFreePosition_only (q : Request) (s : State) :
    ReplyChanges [.domain] s (domainFreePosition q s) := by
  unfold domainFreePosition
  repeat' first
    | with_reducible exact OnlyChanges.refl _ _
    | with_reducible assumption
    | with_reducible apply ReplyChanges.checked
    | with_reducible apply ReplyChanges.require
    | with_reducible apply ReplyChanges.ite
    | with_reducible apply ReplyChanges.okay
    | with_reducible apply ReplyChanges.okWith
    | with_reducible refine ReplyChanges.okThen ?_ (fun _ => ?_)
    | with_reducible apply ReplyChanges.refuse
    | with_reducible apply ReplyChanges.reject
    | with_reducible refine ReplyChanges.done _ _ ?_ (fun _ => ?_)
    | with_reducible apply ReplyChanges.later
    | with_reducible apply OnlyChanges.ite
    | with_reducible apply modDomain_frame
    | ((with_reducible refine Part.nested ?_); rfl)
    | ((with_reducible refine Part.held ?_); rfl)
    | split
    | dsimp only
    | dsimp only [id]
theorem domainFreePosition_frame {qs : List Part} {s t : State} (q : Request) (a : OnlyChanges qs s t) (h : ([.domain] : List Part).all (fun p => qs.contains p) = true) :
    ReplyChanges qs s (domainFreePosition q t) := ReplyChanges.after (domainFreePosition_only q t) a h

end Sys2Proof.Machine
end

