-- ==== Sys2Proof/Laws/FrameMemory.lean ====
section
/-! SUPPORT. What each operation of Memory.lean may change. -/

-- One theorem after another: with a thread for each, the package as one text outgrows the checker's memory limit.
set_option Elab.async false

namespace Sys2Proof.Machine

theorem hardFaultKept_only (k : Nat) (w : Nat) (s : State) :
    OnlyChanges [.sill, .control, .counters, .memory, .fresh] s (hardFaultKept k w s) := by
  unfold hardFaultKept
  repeat' first
    | with_reducible exact OnlyChanges.refl _ _
    | with_reducible assumption
    | with_reducible apply OnlyChanges.ite
    | with_reducible apply memLog_frame
    | with_reducible apply modStack_frame
    | with_reducible apply raise_frame
    | ((with_reducible refine Part.nested ?_); rfl)
    | ((with_reducible refine Part.held ?_); rfl)
    | split
    | dsimp only
    | dsimp only [id]
theorem hardFaultKept_frame {qs : List Part} {s t : State} (k : Nat) (w : Nat) (a : OnlyChanges qs s t) (h : ([.sill, .control, .counters, .memory, .fresh] : List Part).all (fun p => qs.contains p) = true) :
    OnlyChanges qs s (hardFaultKept k w t) := OnlyChanges.after (hardFaultKept_only k w t) a h

theorem unwatch_only (k : Nat) (w : Nat) (s : State) :
    OnlyChanges [.memory] s (unwatch k w s) := by
  unfold unwatch
  repeat' first
    | with_reducible exact OnlyChanges.refl _ _
    | with_reducible assumption
    | with_reducible apply OnlyChanges.ite
    | with_reducible apply modStack_frame
    | ((with_reducible refine Part.nested ?_); rfl)
    | ((with_reducible refine Part.held ?_); rfl)
    | split
    | dsimp only
    | dsimp only [id]
theorem unwatch_frame {qs : List Part} {s t : State} (k : Nat) (w : Nat) (a : OnlyChanges qs s t) (h : ([.memory] : List Part).all (fun p => qs.contains p) = true) :
    OnlyChanges qs s (unwatch k w t) := OnlyChanges.after (unwatch_only k w t) a h

theorem watchWord_only (k : Nat) (w : Nat) (s : State) :
    OnlyChanges [.counters, .memory] s (watchWord k w s) := by
  unfold watchWord
  repeat' first
    | with_reducible exact OnlyChanges.refl _ _
    | with_reducible assumption
    | with_reducible apply OnlyChanges.ite
    | with_reducible apply bump_frame
    | with_reducible apply modStack_frame
    | ((with_reducible refine Part.nested ?_); rfl)
    | ((with_reducible refine Part.held ?_); rfl)
    | split
    | dsimp only
    | dsimp only [id]
theorem watchWord_frame {qs : List Part} {s t : State} (k : Nat) (w : Nat) (a : OnlyChanges qs s t) (h : ([.counters, .memory] : List Part).all (fun p => qs.contains p) = true) :
    OnlyChanges qs s (watchWord k w t) := OnlyChanges.after (watchWord_only k w t) a h

theorem moveToSpare_only (k : Nat) (i : Nat) (w : Nat) (s : State) :
    OnlyChanges [.counters, .memory] s (moveToSpare k i w s) := by
  unfold moveToSpare
  repeat' first
    | with_reducible exact OnlyChanges.refl _ _
    | with_reducible assumption
    | with_reducible apply OnlyChanges.ite
    | with_reducible apply bump_frame
    | with_reducible apply modStack_frame
    | with_reducible apply writeWords_frame
    | ((with_reducible refine Part.nested ?_); rfl)
    | ((with_reducible refine Part.held ?_); rfl)
    | split
    | dsimp only
    | dsimp only [id]
theorem moveToSpare_frame {qs : List Part} {s t : State} (k : Nat) (i : Nat) (w : Nat) (a : OnlyChanges qs s t) (h : ([.counters, .memory] : List Part).all (fun p => qs.contains p) = true) :
    OnlyChanges qs s (moveToSpare k i w t) := OnlyChanges.after (moveToSpare_only k i w t) a h

theorem hardFault_only (k : Nat) (w : Nat) (s : State) :
    OnlyChanges [.sill, .control, .counters, .memory, .fresh] s (hardFault k w s) := by
  unfold hardFault
  repeat' first
    | with_reducible exact OnlyChanges.refl _ _
    | with_reducible assumption
    | with_reducible apply OnlyChanges.ite
    | with_reducible apply bump_frame
    | with_reducible apply hardFaultKept_frame
    | with_reducible apply memLog_frame
    | with_reducible apply modStack_frame
    | with_reducible apply moveToSpare_frame
    | with_reducible apply raise_frame
    | with_reducible apply unwatch_frame
    | ((with_reducible refine Part.nested ?_); rfl)
    | ((with_reducible refine Part.held ?_); rfl)
    | split
    | dsimp only
    | dsimp only [id]
theorem hardFault_frame {qs : List Part} {s t : State} (k : Nat) (w : Nat) (a : OnlyChanges qs s t) (h : ([.sill, .control, .counters, .memory, .fresh] : List Part).all (fun p => qs.contains p) = true) :
    OnlyChanges qs s (hardFault k w t) := OnlyChanges.after (hardFault_only k w t) a h

theorem planerCorrected_only (k : Nat) (w : Nat) (s : State) :
    OnlyChanges [.sill, .control, .counters, .memory, .fresh] s (planerCorrected k w s) := by
  unfold planerCorrected
  repeat' first
    | with_reducible exact OnlyChanges.refl _ _
    | with_reducible assumption
    | with_reducible apply OnlyChanges.ite
    | with_reducible apply hardFault_frame
    | with_reducible apply memLog_frame
    | with_reducible apply watchWord_frame
    | with_reducible apply writeWords_frame
    | ((with_reducible refine Part.nested ?_); rfl)
    | ((with_reducible refine Part.held ?_); rfl)
    | split
    | dsimp only
    | dsimp only [id]
theorem planerCorrected_frame {qs : List Part} {s t : State} (k : Nat) (w : Nat) (a : OnlyChanges qs s t) (h : ([.sill, .control, .counters, .memory, .fresh] : List Part).all (fun p => qs.contains p) = true) :
    OnlyChanges qs s (planerCorrected k w t) := OnlyChanges.after (planerCorrected_only k w t) a h

theorem planerRead_only (k : Nat) (odd : Option WordSeen) (s : State) :
    OnlyChanges [.sill, .control, .counters, .memory, .fresh] s (planerRead k odd s) := by
  unfold planerRead
  repeat' first
    | with_reducible exact OnlyChanges.refl _ _
    | with_reducible assumption
    | with_reducible apply OnlyChanges.ite
    | with_reducible refine OnlyChanges.cond (fun _ => ?_) ?_
    | with_reducible apply bump_frame
    | with_reducible apply consumed_frame
    | with_reducible apply flushWord_frame
    | with_reducible apply memLog_frame
    | with_reducible apply modStack_frame
    | with_reducible apply planerCorrected_frame
    | with_reducible apply readWord_frame
    | with_reducible refine readWord_snd (by assumption) ?_ ?_
    | with_reducible apply unwatch_frame
    | with_reducible apply writePoison_frame
    | ((with_reducible refine Part.nested ?_); rfl)
    | ((with_reducible refine Part.held ?_); rfl)
    | split
    | dsimp only
    | dsimp only [id]
theorem planerRead_frame {qs : List Part} {s t : State} (k : Nat) (odd : Option WordSeen) (a : OnlyChanges qs s t) (h : ([.sill, .control, .counters, .memory, .fresh] : List Part).all (fun p => qs.contains p) = true) :
    OnlyChanges qs s (planerRead k odd t) := OnlyChanges.after (planerRead_only k odd t) a h

theorem clampFlush_only (k : Nat) (odd : Option WordSeen) (s : State) :
    OnlyChanges [.sill, .control, .counters, .memory, .fresh] s (clampFlush k odd s) := by
  unfold clampFlush
  repeat' first
    | with_reducible exact OnlyChanges.refl _ _
    | with_reducible assumption
    | with_reducible apply OnlyChanges.ite
    | with_reducible refine OnlyChanges.cond (fun _ => ?_) ?_
    | with_reducible apply flushOldest_frame
    | ((with_reducible refine Part.nested ?_); rfl)
    | ((with_reducible refine Part.held ?_); rfl)
    | split
    | dsimp only
    | dsimp only [id]
theorem clampFlush_frame {qs : List Part} {s t : State} (k : Nat) (odd : Option WordSeen) (a : OnlyChanges qs s t) (h : ([.sill, .control, .counters, .memory, .fresh] : List Part).all (fun p => qs.contains p) = true) :
    OnlyChanges qs s (clampFlush k odd t) := OnlyChanges.after (clampFlush_only k odd t) a h

theorem bucketDrain_only (k : Nat) (s : State) :
    OnlyChanges [.memory] s (bucketDrain k s) := by
  unfold bucketDrain
  repeat' first
    | with_reducible exact OnlyChanges.refl _ _
    | with_reducible assumption
    | with_reducible apply OnlyChanges.ite
    | with_reducible refine OnlyChanges.cond (fun _ => ?_) ?_
    | with_reducible apply modStack_frame
    | ((with_reducible refine Part.nested ?_); rfl)
    | ((with_reducible refine Part.held ?_); rfl)
    | split
    | dsimp only
    | dsimp only [id]
theorem bucketDrain_frame {qs : List Part} {s t : State} (k : Nat) (a : OnlyChanges qs s t) (h : ([.memory] : List Part).all (fun p => qs.contains p) = true) :
    OnlyChanges qs s (bucketDrain k t) := OnlyChanges.after (bucketDrain_only k t) a h

theorem retrainStart_only (k : Nat) (retries : Nat) (s : State) :
    OnlyChanges [.counters, .memory] s (retrainStart k retries s) := by
  unfold retrainStart
  repeat' first
    | with_reducible exact OnlyChanges.refl _ _
    | with_reducible assumption
    | with_reducible apply OnlyChanges.ite
    | with_reducible refine OnlyChanges.cond (fun _ => ?_) ?_
    | with_reducible apply bump_frame
    | with_reducible apply modStack_frame
    | ((with_reducible refine Part.nested ?_); rfl)
    | ((with_reducible refine Part.held ?_); rfl)
    | split
    | dsimp only
    | dsimp only [id]
theorem retrainStart_frame {qs : List Part} {s t : State} (k : Nat) (retries : Nat) (a : OnlyChanges qs s t) (h : ([.counters, .memory] : List Part).all (fun p => qs.contains p) = true) :
    OnlyChanges qs s (retrainStart k retries t) := OnlyChanges.after (retrainStart_only k retries t) a h

theorem retrainGood_only (k : Nat) (odd : List OddWord) (s : State) :
    OnlyChanges [.sill, .power, .control, .counters, .cal, .elements, .carrier, .client, .sched, .memory, .fresh] s (retrainGood k odd s) := by
  unfold retrainGood
  repeat' first
    | with_reducible exact OnlyChanges.refl _ _
    | with_reducible assumption
    | with_reducible apply OnlyChanges.ite
    | with_reducible apply flushClamp_frame
    | with_reducible apply modStack_frame
    | with_reducible apply selectAll_frame
    | ((with_reducible refine Part.nested ?_); rfl)
    | ((with_reducible refine Part.held ?_); rfl)
    | split
    | dsimp only
    | dsimp only [id]
theorem retrainGood_frame {qs : List Part} {s t : State} (k : Nat) (odd : List OddWord) (a : OnlyChanges qs s t) (h : ([.sill, .power, .control, .counters, .cal, .elements, .carrier, .client, .sched, .memory, .fresh] : List Part).all (fun p => qs.contains p) = true) :
    OnlyChanges qs s (retrainGood k odd t) := OnlyChanges.after (retrainGood_only k odd t) a h

theorem retrainBad_only (k : Nat) (s : State) :
    OnlyChanges [.sill, .control, .counters, .memory, .protect] s (retrainBad k s) := by
  unfold retrainBad
  repeat' first
    | with_reducible exact OnlyChanges.refl _ _
    | with_reducible assumption
    | with_reducible apply OnlyChanges.ite
    | with_reducible apply mirrorRelease_frame
    | with_reducible apply modStack_frame
    | with_reducible apply raise_frame
    | ((with_reducible refine Part.nested ?_); rfl)
    | ((with_reducible refine Part.held ?_); rfl)
    | split
    | dsimp only
    | dsimp only [id]
theorem retrainBad_frame {qs : List Part} {s t : State} (k : Nat) (a : OnlyChanges qs s t) (h : ([.sill, .control, .counters, .memory, .protect] : List Part).all (fun p => qs.contains p) = true) :
    OnlyChanges qs s (retrainBad k t) := OnlyChanges.after (retrainBad_only k t) a h

theorem retrainComplete_only (k : Nat) (good : Bool) (odd : List OddWord) (s : State) :
    OnlyChanges [.sill, .power, .control, .counters, .cal, .elements, .carrier, .client, .sched, .memory, .protect, .fresh] s (retrainComplete k good odd s) := by
  unfold retrainComplete
  repeat' first
    | with_reducible exact OnlyChanges.refl _ _
    | with_reducible assumption
    | with_reducible apply OnlyChanges.ite
    | with_reducible refine OnlyChanges.cond (fun _ => ?_) ?_
    | with_reducible apply bump_frame
    | with_reducible apply retrainBad_frame
    | with_reducible apply retrainGood_frame
    | ((with_reducible refine Part.nested ?_); rfl)
    | ((with_reducible refine Part.held ?_); rfl)
    | split
    | dsimp only
    | dsimp only [id]
theorem retrainComplete_frame {qs : List Part} {s t : State} (k : Nat) (good : Bool) (odd : List OddWord) (a : OnlyChanges qs s t) (h : ([.sill, .power, .control, .counters, .cal, .elements, .carrier, .client, .sched, .memory, .protect, .fresh] : List Part).all (fun p => qs.contains p) = true) :
    OnlyChanges qs s (retrainComplete k good odd t) := OnlyChanges.after (retrainComplete_only k good odd t) a h

theorem sweepStack_only (k : Nat) (s : State) :
    PairChanges [.counters, .memory] s (sweepStack k s) := by
  unfold sweepStack
  repeat' first
    | with_reducible exact OnlyChanges.refl _ _
    | with_reducible assumption
    | with_reducible apply PairChanges.ite
    | with_reducible apply OnlyChanges.ite
    | with_reducible apply bump_frame
    | with_reducible apply modStack_frame
    | ((with_reducible refine Part.nested ?_); rfl)
    | ((with_reducible refine Part.held ?_); rfl)
    | split
    | dsimp only
    | dsimp only [id]
    | with_reducible apply PairChanges.mk
theorem sweepStack_frame {qs : List Part} {s t : State} (k : Nat) (a : OnlyChanges qs s t) (h : ([.counters, .memory] : List Part).all (fun p => qs.contains p) = true) :
    OnlyChanges qs s (sweepStack k t).2 := OnlyChanges.after (sweepStack_only k t) a h
theorem sweepStack_pair {qs : List Part} {s t : State} (k : Nat) (a : OnlyChanges qs s t) (h : ([.counters, .memory] : List Part).all (fun p => qs.contains p) = true) :
    PairChanges qs s (sweepStack k t) := OnlyChanges.after (sweepStack_only k t) a h
theorem sweepStack_snd {qs : List Part} {s t u : State} {k : Nat} {y : _} (e : (sweepStack k t) = (y, u)) (a : OnlyChanges qs s t) (h : ([.counters, .memory] : List Part).all (fun p => qs.contains p) = true) :
    OnlyChanges qs s u := PairChanges.snd (sweepStack_only k t) e a h

theorem sweepAll_only (s : State) :
    PairChanges [.counters, .memory] s (sweepAll s) := by
  unfold sweepAll
  repeat' first
    | with_reducible exact OnlyChanges.refl _ _
    | with_reducible assumption
    | with_reducible apply PairChanges.ite
    | with_reducible apply OnlyChanges.ite
    | with_reducible apply sweepStack_frame
    | with_reducible refine sweepStack_snd (by assumption) ?_ ?_
    | with_reducible apply sweepStack_pair
    | ((with_reducible refine Part.nested ?_); rfl)
    | ((with_reducible refine Part.held ?_); rfl)
    | split
    | dsimp only
    | dsimp only [id]
    | with_reducible apply PairChanges.mk
theorem sweepAll_frame {qs : List Part} {s t : State}  (a : OnlyChanges qs s t) (h : ([.counters, .memory] : List Part).all (fun p => qs.contains p) = true) :
    OnlyChanges qs s (sweepAll t).2 := OnlyChanges.after (sweepAll_only t) a h
theorem sweepAll_pair {qs : List Part} {s t : State}  (a : OnlyChanges qs s t) (h : ([.counters, .memory] : List Part).all (fun p => qs.contains p) = true) :
    PairChanges qs s (sweepAll t) := OnlyChanges.after (sweepAll_only t) a h
theorem sweepAll_snd {qs : List Part} {s t u : State}  {y : _} (e : (sweepAll t) = (y, u)) (a : OnlyChanges qs s t) (h : ([.counters, .memory] : List Part).all (fun p => qs.contains p) = true) :
    OnlyChanges qs s u := PairChanges.snd (sweepAll_only t) e a h

theorem auditComplete_only (k : Nat) (poisoned : List (Nat × Nat × Nat)) (s : State) :
    OnlyChanges [.sill, .control, .counters, .sched, .memory, .fresh] s (auditComplete k poisoned s) := by
  unfold auditComplete
  repeat' first
    | with_reducible exact OnlyChanges.refl _ _
    | with_reducible assumption
    | with_reducible apply OnlyChanges.ite
    | with_reducible refine OnlyChanges.each (fun _ _ => ?_) _ ?_
    | with_reducible apply consumed_frame
    | with_reducible apply memLog_frame
    | with_reducible apply modQueue_frame
    | with_reducible apply modStack_frame
    | with_reducible apply quarantine_frame
    | with_reducible apply raise_frame
    | with_reducible apply sweepAll_frame
    | with_reducible refine sweepAll_snd (by assumption) ?_ ?_
    | ((with_reducible refine Part.nested ?_); rfl)
    | ((with_reducible refine Part.held ?_); rfl)
    | split
    | dsimp only
    | dsimp only [id]
theorem auditComplete_frame {qs : List Part} {s t : State} (k : Nat) (poisoned : List (Nat × Nat × Nat)) (a : OnlyChanges qs s t) (h : ([.sill, .control, .counters, .sched, .memory, .fresh] : List Part).all (fun p => qs.contains p) = true) :
    OnlyChanges qs s (auditComplete k poisoned t) := OnlyChanges.after (auditComplete_only k poisoned t) a h

theorem memorySetPolicy_only (q : Request) (s : State) :
    ReplyChanges [.sill, .power, .control, .counters, .cal, .elements, .carrier, .client, .sched, .memory, .fresh] s (memorySetPolicy q s) := by
  unfold memorySetPolicy
  repeat' first
    | with_reducible exact OnlyChanges.refl _ _
    | with_reducible assumption
    | with_reducible apply ReplyChanges.checked
    | with_reducible apply ReplyChanges.require
    | with_reducible apply ReplyChanges.ite
    | with_reducible apply ReplyChanges.okay
    | with_reducible apply ReplyChanges.okWith
    | with_reducible refine ReplyChanges.okThen ?_ (fun _ => ?_)
    | with_reducible apply ReplyChanges.refuse
    | with_reducible apply ReplyChanges.reject
    | with_reducible refine ReplyChanges.done _ _ ?_ (fun _ => ?_)
    | with_reducible apply ReplyChanges.later
    | with_reducible refine onStacks_frame _ _ ?_ ?_ (fun _ => ?_)
    | with_reducible apply OnlyChanges.ite
    | with_reducible refine OnlyChanges.each (fun _ _ => ?_) _ ?_
    | with_reducible apply modStack_frame
    | ((with_reducible refine Part.nested ?_); rfl)
    | ((with_reducible refine Part.held ?_); rfl)
    | split
    | dsimp only
    | dsimp only [id]
theorem memorySetPolicy_frame {qs : List Part} {s t : State} (q : Request) (a : OnlyChanges qs s t) (h : ([.sill, .power, .control, .counters, .cal, .elements, .carrier, .client, .sched, .memory, .fresh] : List Part).all (fun p => qs.contains p) = true) :
    ReplyChanges qs s (memorySetPolicy q t) := ReplyChanges.after (memorySetPolicy_only q t) a h

theorem memoryGetStatus_only (q : Request) (s : State) :
    ReplyChanges [.sill, .power, .control, .counters, .cal, .elements, .carrier, .client, .sched, .memory, .fresh] s (memoryGetStatus q s) := by
  unfold memoryGetStatus
  repeat' first
    | with_reducible exact OnlyChanges.refl _ _
    | with_reducible assumption
    | with_reducible apply ReplyChanges.checked
    | with_reducible apply ReplyChanges.require
    | with_reducible apply ReplyChanges.ite
    | with_reducible apply ReplyChanges.okay
    | with_reducible apply ReplyChanges.okWith
    | with_reducible refine ReplyChanges.okThen ?_ (fun _ => ?_)
    | with_reducible apply ReplyChanges.refuse
    | with_reducible apply ReplyChanges.reject
    | with_reducible refine ReplyChanges.done _ _ ?_ (fun _ => ?_)
    | with_reducible apply ReplyChanges.later
    | with_reducible refine onStacks_frame _ _ ?_ ?_ (fun _ => ?_)
    | with_reducible apply OnlyChanges.ite
    | with_reducible apply drawBelow_frame
    | with_reducible refine drawBelow_snd (by assumption) ?_ ?_
    | ((with_reducible refine Part.nested ?_); rfl)
    | ((with_reducible refine Part.held ?_); rfl)
    | split
    | dsimp only
    | dsimp only [id]
theorem memoryGetStatus_frame {qs : List Part} {s t : State} (q : Request) (a : OnlyChanges qs s t) (h : ([.sill, .power, .control, .counters, .cal, .elements, .carrier, .client, .sched, .memory, .fresh] : List Part).all (fun p => qs.contains p) = true) :
    ReplyChanges qs s (memoryGetStatus q t) := ReplyChanges.after (memoryGetStatus_only q t) a h

theorem memoryGetLog_only (q : Request) (s : State) :
    ReplyChanges [.sill, .power, .control, .counters, .cal, .elements, .carrier, .client, .sched, .memory, .fresh] s (memoryGetLog q s) := by
  unfold memoryGetLog
  repeat' first
    | with_reducible exact OnlyChanges.refl _ _
    | with_reducible assumption
    | with_reducible apply ReplyChanges.checked
    | with_reducible apply ReplyChanges.require
    | with_reducible apply ReplyChanges.ite
    | with_reducible apply ReplyChanges.okay
    | with_reducible apply ReplyChanges.okWith
    | with_reducible refine ReplyChanges.okThen ?_ (fun _ => ?_)
    | with_reducible apply ReplyChanges.refuse
    | with_reducible apply ReplyChanges.reject
    | with_reducible refine ReplyChanges.done _ _ ?_ (fun _ => ?_)
    | with_reducible apply ReplyChanges.later
    | with_reducible refine onStacks_frame _ _ ?_ ?_ (fun _ => ?_)
    | with_reducible apply OnlyChanges.ite
    | ((with_reducible refine Part.nested ?_); rfl)
    | ((with_reducible refine Part.held ?_); rfl)
    | split
    | dsimp only
    | dsimp only [id]
theorem memoryGetLog_frame {qs : List Part} {s t : State} (q : Request) (a : OnlyChanges qs s t) (h : ([.sill, .power, .control, .counters, .cal, .elements, .carrier, .client, .sched, .memory, .fresh] : List Part).all (fun p => qs.contains p) = true) :
    ReplyChanges qs s (memoryGetLog q t) := ReplyChanges.after (memoryGetLog_only q t) a h

theorem memoryRetrain_only (q : Request) (s : State) :
    ReplyChanges [.sill, .power, .control, .counters, .cal, .elements, .carrier, .client, .sched, .memory, .fresh] s (memoryRetrain q s) := by
  unfold memoryRetrain
  repeat' first
    | with_reducible exact OnlyChanges.refl _ _
    | with_reducible assumption
    | with_reducible apply ReplyChanges.checked
    | with_reducible apply ReplyChanges.require
    | with_reducible apply ReplyChanges.ite
    | with_reducible apply ReplyChanges.okay
    | with_reducible apply ReplyChanges.okWith
    | with_reducible refine ReplyChanges.okThen ?_ (fun _ => ?_)
    | with_reducible apply ReplyChanges.refuse
    | with_reducible apply ReplyChanges.reject
    | with_reducible refine ReplyChanges.done _ _ ?_ (fun _ => ?_)
    | with_reducible apply ReplyChanges.later
    | with_reducible refine onStacks_frame _ _ ?_ ?_ (fun _ => ?_)
    | with_reducible apply OnlyChanges.ite
    | with_reducible apply modStack_frame
    | ((with_reducible refine Part.nested ?_); rfl)
    | ((with_reducible refine Part.held ?_); rfl)
    | split
    | dsimp only
    | dsimp only [id]
theorem memoryRetrain_frame {qs : List Part} {s t : State} (q : Request) (a : OnlyChanges qs s t) (h : ([.sill, .power, .control, .counters, .cal, .elements, .carrier, .client, .sched, .memory, .fresh] : List Part).all (fun p => qs.contains p) = true) :
    ReplyChanges qs s (memoryRetrain q t) := ReplyChanges.after (memoryRetrain_only q t) a h

theorem preload_only (k : Nat) (w : Nat) (s : State) :
    OnlyChanges [.memory] s (preload k w s) := by
  unfold preload
  repeat' first
    | with_reducible exact OnlyChanges.refl _ _
    | with_reducible assumption
    | with_reducible apply OnlyChanges.ite
    | with_reducible apply modStack_frame
    | ((with_reducible refine Part.nested ?_); rfl)
    | ((with_reducible refine Part.held ?_); rfl)
    | split
    | dsimp only
    | dsimp only [id]
theorem preload_frame {qs : List Part} {s t : State} (k : Nat) (w : Nat) (a : OnlyChanges qs s t) (h : ([.memory] : List Part).all (fun p => qs.contains p) = true) :
    OnlyChanges qs s (preload k w t) := OnlyChanges.after (preload_only k w t) a h

theorem memorySetShim_only (q : Request) (s : State) :
    ReplyChanges [.sill, .power, .control, .counters, .cal, .elements, .carrier, .client, .sched, .memory, .fresh] s (memorySetShim q s) := by
  unfold memorySetShim
  repeat' first
    | with_reducible exact OnlyChanges.refl _ _
    | with_reducible assumption
    | with_reducible apply ReplyChanges.checked
    | with_reducible apply ReplyChanges.require
    | with_reducible apply ReplyChanges.ite
    | with_reducible apply ReplyChanges.okay
    | with_reducible apply ReplyChanges.okWith
    | with_reducible refine ReplyChanges.okThen ?_ (fun _ => ?_)
    | with_reducible apply ReplyChanges.refuse
    | with_reducible apply ReplyChanges.reject
    | with_reducible refine ReplyChanges.done _ _ ?_ (fun _ => ?_)
    | with_reducible apply ReplyChanges.later
    | with_reducible refine onStacks_frame _ _ ?_ ?_ (fun _ => ?_)
    | with_reducible apply OnlyChanges.ite
    | with_reducible refine OnlyChanges.each (fun _ _ => ?_) _ ?_
    | with_reducible apply preload_frame
    | ((with_reducible refine Part.nested ?_); rfl)
    | ((with_reducible refine Part.held ?_); rfl)
    | split
    | dsimp only
    | dsimp only [id]
theorem memorySetShim_frame {qs : List Part} {s t : State} (q : Request) (a : OnlyChanges qs s t) (h : ([.sill, .power, .control, .counters, .cal, .elements, .carrier, .client, .sched, .memory, .fresh] : List Part).all (fun p => qs.contains p) = true) :
    ReplyChanges qs s (memorySetShim q t) := ReplyChanges.after (memorySetShim_only q t) a h

theorem memoryGetCounts_only (q : Request) (s : State) :
    ReplyChanges [] s (memoryGetCounts q s) := by
  unfold memoryGetCounts
  repeat' first
    | with_reducible exact OnlyChanges.refl _ _
    | with_reducible assumption
    | with_reducible apply ReplyChanges.checked
    | with_reducible apply ReplyChanges.require
    | with_reducible apply ReplyChanges.ite
    | with_reducible apply ReplyChanges.okay
    | with_reducible apply ReplyChanges.okWith
    | with_reducible refine ReplyChanges.okThen ?_ (fun _ => ?_)
    | with_reducible apply ReplyChanges.refuse
    | with_reducible apply ReplyChanges.reject
    | with_reducible refine ReplyChanges.done _ _ ?_ (fun _ => ?_)
    | with_reducible apply ReplyChanges.later
    | with_reducible apply OnlyChanges.ite
    | ((with_reducible refine Part.nested ?_); rfl)
    | ((with_reducible refine Part.held ?_); rfl)
    | split
    | dsimp only
    | dsimp only [id]
theorem memoryGetCounts_frame {qs : List Part} {s t : State} (q : Request) (a : OnlyChanges qs s t) (h : ([] : List Part).all (fun p => qs.contains p) = true) :
    ReplyChanges qs s (memoryGetCounts q t) := ReplyChanges.after (memoryGetCounts_only q t) a h

end Sys2Proof.Machine
end

