-- ==== Sys2Proof/Laws/FrameMonitor.lean ====
section
/-! SUPPORT. What each operation of Monitor.lean may change. -/

-- One theorem after another: with a thread for each, the package as one text outgrows the checker's memory limit.
set_option Elab.async false

namespace Sys2Proof.Machine

theorem monRefSettled_only (c : Nat) (s : State) :
    OnlyChanges [.monitor] s (monRefSettled c s) := by
  unfold monRefSettled
  repeat' first
    | with_reducible exact OnlyChanges.refl _ _
    | with_reducible assumption
    | with_reducible apply OnlyChanges.ite
    | with_reducible refine OnlyChanges.cond (fun _ => ?_) ?_
    | with_reducible apply refSettled_frame
    | ((with_reducible refine Part.nested ?_); rfl)
    | ((with_reducible refine Part.held ?_); rfl)
    | split
    | dsimp only
    | dsimp only [id]
theorem monRefSettled_frame {qs : List Part} {s t : State} (c : Nat) (a : OnlyChanges qs s t) (h : ([.monitor] : List Part).all (fun p => qs.contains p) = true) :
    OnlyChanges qs s (monRefSettled c t) := OnlyChanges.after (monRefSettled_only c t) a h

theorem monConverterApply_only (c : Nat) (s : State) :
    OnlyChanges [.monitor] s (monConverterApply c s) := by
  unfold monConverterApply
  repeat' first
    | with_reducible exact OnlyChanges.refl _ _
    | with_reducible assumption
    | with_reducible apply OnlyChanges.ite
    | with_reducible refine OnlyChanges.cond (fun _ => ?_) ?_
    | with_reducible refine OnlyChanges.each (fun _ _ => ?_) _ ?_
    | with_reducible apply modConverter_frame
    | with_reducible apply modMonitor_frame
    | ((with_reducible refine Part.nested ?_); rfl)
    | ((with_reducible refine Part.held ?_); rfl)
    | split
    | dsimp only
    | dsimp only [id]
theorem monConverterApply_frame {qs : List Part} {s t : State} (c : Nat) (a : OnlyChanges qs s t) (h : ([.monitor] : List Part).all (fun p => qs.contains p) = true) :
    OnlyChanges qs s (monConverterApply c t) := OnlyChanges.after (monConverterApply_only c t) a h

theorem decimOutput_only (c : Nat) (s : State) :
    OnlyChanges [.sill, .control, .counters, .monitor] s (decimOutput c s) := by
  unfold decimOutput
  repeat' first
    | with_reducible exact OnlyChanges.refl _ _
    | with_reducible assumption
    | with_reducible apply OnlyChanges.ite
    | with_reducible apply deliver_frame
    | with_reducible apply modDecim_frame
    | with_reducible apply raise_frame
    | ((with_reducible refine Part.nested ?_); rfl)
    | ((with_reducible refine Part.held ?_); rfl)
    | split
    | dsimp only
    | dsimp only [id]
theorem decimOutput_frame {qs : List Part} {s t : State} (c : Nat) (a : OnlyChanges qs s t) (h : ([.sill, .control, .counters, .monitor] : List Part).all (fun p => qs.contains p) = true) :
    OnlyChanges qs s (decimOutput c t) := OnlyChanges.after (decimOutput_only c t) a h

theorem decimSettled_only (c : Nat) (s : State) :
    OnlyChanges [.sill, .control, .counters, .monitor] s (decimSettled c s) := by
  unfold decimSettled
  repeat' first
    | with_reducible exact OnlyChanges.refl _ _
    | with_reducible assumption
    | with_reducible apply OnlyChanges.ite
    | with_reducible refine OnlyChanges.cond (fun _ => ?_) ?_
    | with_reducible apply decimOutput_frame
    | ((with_reducible refine Part.nested ?_); rfl)
    | ((with_reducible refine Part.held ?_); rfl)
    | split
    | dsimp only
    | dsimp only [id]
theorem decimSettled_frame {qs : List Part} {s t : State} (c : Nat) (a : OnlyChanges qs s t) (h : ([.sill, .control, .counters, .monitor] : List Part).all (fun p => qs.contains p) = true) :
    OnlyChanges qs s (decimSettled c t) := OnlyChanges.after (decimSettled_only c t) a h

theorem monValueComplete_only (q : Nat) (vref : Nat) (v : List Int) (s : State) :
    OnlyChanges [.sill, .control, .counters, .monitor] s (monValueComplete q vref v s) := by
  unfold monValueComplete
  repeat' first
    | with_reducible exact OnlyChanges.refl _ _
    | with_reducible assumption
    | with_reducible apply OnlyChanges.ite
    | with_reducible refine OnlyChanges.cond (fun _ => ?_) ?_
    | with_reducible apply deliver_frame
    | with_reducible apply modDecim_frame
    | with_reducible apply modSequencer_frame
    | ((with_reducible refine Part.nested ?_); rfl)
    | ((with_reducible refine Part.held ?_); rfl)
    | split
    | dsimp only
    | dsimp only [id]
theorem monValueComplete_frame {qs : List Part} {s t : State} (q : Nat) (vref : Nat) (v : List Int) (a : OnlyChanges qs s t) (h : ([.sill, .control, .counters, .monitor] : List Part).all (fun p => qs.contains p) = true) :
    OnlyChanges qs s (monValueComplete q vref v t) := OnlyChanges.after (monValueComplete_only q vref v t) a h

theorem applyTable_only (q : Nat) (x1 : SeqTable) (s : State) :
    OnlyChanges [.power, .cal, .elements, .carrier, .client, .monitor] s (applyTable q x1 s) := by
  unfold applyTable
  repeat' first
    | with_reducible exact OnlyChanges.refl _ _
    | with_reducible assumption
    | with_reducible apply OnlyChanges.ite
    | with_reducible refine OnlyChanges.each (fun _ _ => ?_) _ ?_
    | with_reducible apply missTrigger_frame
    | with_reducible apply modDecim_frame
    | with_reducible apply modSequencer_frame
    | with_reducible apply startExit_frame
    | with_reducible apply startPass_frame
    | ((with_reducible refine Part.nested ?_); rfl)
    | ((with_reducible refine Part.held ?_); rfl)
    | split
    | dsimp only
    | dsimp only [id]
theorem applyTable_frame {qs : List Part} {s t : State} (q : Nat) (x1 : SeqTable) (a : OnlyChanges qs s t) (h : ([.power, .cal, .elements, .carrier, .client, .monitor] : List Part).all (fun p => qs.contains p) = true) :
    OnlyChanges qs s (applyTable q x1 t) := OnlyChanges.after (applyTable_only q x1 t) a h

theorem monPassEnd_only (q : Nat) (s : State) :
    OnlyChanges [.power, .cal, .elements, .carrier, .client, .monitor] s (monPassEnd q s) := by
  unfold monPassEnd
  repeat' first
    | with_reducible exact OnlyChanges.refl _ _
    | with_reducible assumption
    | with_reducible apply OnlyChanges.ite
    | with_reducible refine OnlyChanges.cond (fun _ => ?_) ?_
    | with_reducible apply applyTable_frame
    | with_reducible apply modSequencer_frame
    | with_reducible apply startPass_frame
    | ((with_reducible refine Part.nested ?_); rfl)
    | ((with_reducible refine Part.held ?_); rfl)
    | split
    | dsimp only
    | dsimp only [id]
theorem monPassEnd_frame {qs : List Part} {s t : State} (q : Nat) (a : OnlyChanges qs s t) (h : ([.power, .cal, .elements, .carrier, .client, .monitor] : List Part).all (fun p => qs.contains p) = true) :
    OnlyChanges qs s (monPassEnd q t) := OnlyChanges.after (monPassEnd_only q t) a h

theorem monTriggerTimer_only (q : Nat) (s : State) :
    OnlyChanges [.power, .cal, .elements, .carrier, .client, .monitor] s (monTriggerTimer q s) := by
  unfold monTriggerTimer
  repeat' first
    | with_reducible exact OnlyChanges.refl _ _
    | with_reducible assumption
    | with_reducible apply OnlyChanges.ite
    | with_reducible refine OnlyChanges.cond (fun _ => ?_) ?_
    | with_reducible apply triggerSeq_frame
    | with_reducible refine triggerSeq_snd (by assumption) ?_ ?_
    | ((with_reducible refine Part.nested ?_); rfl)
    | ((with_reducible refine Part.held ?_); rfl)
    | split
    | dsimp only
    | dsimp only [id]
theorem monTriggerTimer_frame {qs : List Part} {s t : State} (q : Nat) (a : OnlyChanges qs s t) (h : ([.power, .cal, .elements, .carrier, .client, .monitor] : List Part).all (fun p => qs.contains p) = true) :
    OnlyChanges qs s (monTriggerTimer q t) := OnlyChanges.after (monTriggerTimer_only q t) a h

theorem monLatchedTriggerStart_only (q : Nat) (s : State) :
    OnlyChanges [.monitor] s (monLatchedTriggerStart q s) := by
  unfold monLatchedTriggerStart
  repeat' first
    | with_reducible exact OnlyChanges.refl _ _
    | with_reducible assumption
    | with_reducible apply OnlyChanges.ite
    | with_reducible refine OnlyChanges.cond (fun _ => ?_) ?_
    | with_reducible apply modSequencer_frame
    | with_reducible apply startPass_frame
    | ((with_reducible refine Part.nested ?_); rfl)
    | ((with_reducible refine Part.held ?_); rfl)
    | split
    | dsimp only
    | dsimp only [id]
theorem monLatchedTriggerStart_frame {qs : List Part} {s t : State} (q : Nat) (a : OnlyChanges qs s t) (h : ([.monitor] : List Part).all (fun p => qs.contains p) = true) :
    OnlyChanges qs s (monLatchedTriggerStart q t) := OnlyChanges.after (monLatchedTriggerStart_only q t) a h

theorem monInjectComplete_only (c : Nat) (vref : Nat) (v : List Int) (s : State) :
    OnlyChanges [.sill, .control, .counters, .stream, .domain, .security, .monitor] s (monInjectComplete c vref v s) := by
  unfold monInjectComplete
  repeat' first
    | with_reducible exact OnlyChanges.refl _ _
    | with_reducible assumption
    | with_reducible apply OnlyChanges.ite
    | with_reducible refine OnlyChanges.cond (fun _ => ?_) ?_
    | with_reducible apply completeEntry_frame
    | with_reducible apply deliver_frame
    | with_reducible apply setInjection_frame
    | ((with_reducible refine Part.nested ?_); rfl)
    | ((with_reducible refine Part.held ?_); rfl)
    | split
    | dsimp only
    | dsimp only [id]
theorem monInjectComplete_frame {qs : List Part} {s t : State} (c : Nat) (vref : Nat) (v : List Int) (a : OnlyChanges qs s t) (h : ([.sill, .control, .counters, .stream, .domain, .security, .monitor] : List Part).all (fun p => qs.contains p) = true) :
    OnlyChanges qs s (monInjectComplete c vref v t) := OnlyChanges.after (monInjectComplete_only c vref v t) a h

/-- ST_MON_ROUTE or its rest. -/
theorem routed_frame {qs : List Part} {s t : State} (wanted taken : List Destination) (k : Reply) (a : OnlyChanges qs s t)
    (h : ReplyChanges qs s k) : ReplyChanges qs s (routed wanted taken t k) := by
  unfold routed; split
  · exact a
  · exact h


theorem monitorSetConverter_only (q : Request) (s : State) :
    ReplyChanges [.sill, .power, .control, .counters, .cal, .elements, .carrier, .client, .monitor] s (monitorSetConverter q s) := by
  unfold monitorSetConverter
  repeat' first
    | with_reducible exact OnlyChanges.refl _ _
    | with_reducible assumption
    | with_reducible apply ReplyChanges.checked
    | with_reducible apply ReplyChanges.require
    | with_reducible apply ReplyChanges.ite
    | with_reducible apply ReplyChanges.okay
    | with_reducible apply ReplyChanges.okWith
    | with_reducible refine ReplyChanges.okThen ?_ (fun _ => ?_)
    | with_reducible apply ReplyChanges.refuse
    | with_reducible apply ReplyChanges.reject
    | with_reducible refine ReplyChanges.done _ _ ?_ (fun _ => ?_)
    | with_reducible apply ReplyChanges.later
    | with_reducible refine needing_frame _ _ _ ?_ ?_ (fun _ => ?_)
    | with_reducible apply OnlyChanges.ite
    | with_reducible apply modConverter_frame
    | with_reducible apply modMonitor_frame
    | ((with_reducible refine Part.nested ?_); rfl)
    | ((with_reducible refine Part.held ?_); rfl)
    | split
    | dsimp only
    | dsimp only [id]
theorem monitorSetConverter_frame {qs : List Part} {s t : State} (q : Request) (a : OnlyChanges qs s t) (h : ([.sill, .power, .control, .counters, .cal, .elements, .carrier, .client, .monitor] : List Part).all (fun p => qs.contains p) = true) :
    ReplyChanges qs s (monitorSetConverter q t) := ReplyChanges.after (monitorSetConverter_only q t) a h

theorem monitorSetSequence_only (q : Request) (s : State) :
    ReplyChanges [.sill, .power, .control, .counters, .cal, .elements, .carrier, .client, .monitor] s (monitorSetSequence q s) := by
  unfold monitorSetSequence
  repeat' first
    | with_reducible exact OnlyChanges.refl _ _
    | with_reducible assumption
    | with_reducible apply ReplyChanges.checked
    | with_reducible apply ReplyChanges.require
    | with_reducible apply ReplyChanges.ite
    | with_reducible apply ReplyChanges.okay
    | with_reducible apply ReplyChanges.okWith
    | with_reducible refine ReplyChanges.okThen ?_ (fun _ => ?_)
    | with_reducible apply ReplyChanges.refuse
    | with_reducible apply ReplyChanges.reject
    | with_reducible refine ReplyChanges.done _ _ ?_ (fun _ => ?_)
    | with_reducible apply ReplyChanges.later
    | with_reducible refine needing_frame _ _ _ ?_ ?_ (fun _ => ?_)
    | with_reducible apply OnlyChanges.ite
    | with_reducible apply applyTable_frame
    | with_reducible apply modSequencer_frame
    | with_reducible apply routed_frame
    | ((with_reducible refine Part.nested ?_); rfl)
    | ((with_reducible refine Part.held ?_); rfl)
    | split
    | dsimp only
    | dsimp only [id]
theorem monitorSetSequence_frame {qs : List Part} {s t : State} (q : Request) (a : OnlyChanges qs s t) (h : ([.sill, .power, .control, .counters, .cal, .elements, .carrier, .client, .monitor] : List Part).all (fun p => qs.contains p) = true) :
    ReplyChanges qs s (monitorSetSequence q t) := ReplyChanges.after (monitorSetSequence_only q t) a h

theorem monitorSetDecim_only (q : Request) (s : State) :
    ReplyChanges [.sill, .power, .control, .counters, .cal, .elements, .carrier, .client, .monitor] s (monitorSetDecim q s) := by
  unfold monitorSetDecim
  repeat' first
    | with_reducible exact OnlyChanges.refl _ _
    | with_reducible assumption
    | with_reducible apply ReplyChanges.checked
    | with_reducible apply ReplyChanges.require
    | with_reducible apply ReplyChanges.ite
    | with_reducible apply ReplyChanges.okay
    | with_reducible apply ReplyChanges.okWith
    | with_reducible refine ReplyChanges.okThen ?_ (fun _ => ?_)
    | with_reducible apply ReplyChanges.refuse
    | with_reducible apply ReplyChanges.reject
    | with_reducible refine ReplyChanges.done _ _ ?_ (fun _ => ?_)
    | with_reducible apply ReplyChanges.later
    | with_reducible refine needing_frame _ _ _ ?_ ?_ (fun _ => ?_)
    | with_reducible apply OnlyChanges.ite
    | with_reducible apply modDecim_frame
    | with_reducible apply startExit_frame
    | with_reducible apply routed_frame
    | ((with_reducible refine Part.nested ?_); rfl)
    | ((with_reducible refine Part.held ?_); rfl)
    | split
    | dsimp only
    | dsimp only [id]
theorem monitorSetDecim_frame {qs : List Part} {s t : State} (q : Request) (a : OnlyChanges qs s t) (h : ([.sill, .power, .control, .counters, .cal, .elements, .carrier, .client, .monitor] : List Part).all (fun p => qs.contains p) = true) :
    ReplyChanges qs s (monitorSetDecim q t) := ReplyChanges.after (monitorSetDecim_only q t) a h

theorem monitorSetAccum_only (q : Request) (s : State) :
    ReplyChanges [.monitor] s (monitorSetAccum q s) := by
  unfold monitorSetAccum
  repeat' first
    | with_reducible exact OnlyChanges.refl _ _
    | with_reducible assumption
    | with_reducible apply ReplyChanges.checked
    | with_reducible apply ReplyChanges.require
    | with_reducible apply ReplyChanges.ite
    | with_reducible apply ReplyChanges.okay
    | with_reducible apply ReplyChanges.okWith
    | with_reducible refine ReplyChanges.okThen ?_ (fun _ => ?_)
    | with_reducible apply ReplyChanges.refuse
    | with_reducible apply ReplyChanges.reject
    | with_reducible refine ReplyChanges.done _ _ ?_ (fun _ => ?_)
    | with_reducible apply ReplyChanges.later
    | with_reducible apply OnlyChanges.ite
    | with_reducible refine OnlyChanges.each (fun _ _ => ?_) _ ?_
    | with_reducible apply modMonSlot_frame
    | with_reducible apply modTracker_frame
    | ((with_reducible refine Part.nested ?_); rfl)
    | ((with_reducible refine Part.held ?_); rfl)
    | split
    | dsimp only
    | dsimp only [id]
theorem monitorSetAccum_frame {qs : List Part} {s t : State} (q : Request) (a : OnlyChanges qs s t) (h : ([.monitor] : List Part).all (fun p => qs.contains p) = true) :
    ReplyChanges qs s (monitorSetAccum q t) := ReplyChanges.after (monitorSetAccum_only q t) a h

theorem monitorTrigger_only (q : Request) (s : State) :
    ReplyChanges [.power, .cal, .elements, .carrier, .client, .monitor] s (monitorTrigger q s) := by
  unfold monitorTrigger
  repeat' first
    | with_reducible exact OnlyChanges.refl _ _
    | with_reducible assumption
    | with_reducible apply ReplyChanges.checked
    | with_reducible apply ReplyChanges.require
    | with_reducible apply ReplyChanges.ite
    | with_reducible apply ReplyChanges.okay
    | with_reducible apply ReplyChanges.okWith
    | with_reducible refine ReplyChanges.okThen ?_ (fun _ => ?_)
    | with_reducible apply ReplyChanges.refuse
    | with_reducible apply ReplyChanges.reject
    | with_reducible refine ReplyChanges.done _ _ ?_ (fun _ => ?_)
    | with_reducible apply ReplyChanges.later
    | with_reducible apply OnlyChanges.ite
    | with_reducible apply triggerSeq_frame
    | with_reducible refine triggerSeq_snd (by assumption) ?_ ?_
    | ((with_reducible refine Part.nested ?_); rfl)
    | ((with_reducible refine Part.held ?_); rfl)
    | split
    | dsimp only
    | dsimp only [id]
theorem monitorTrigger_frame {qs : List Part} {s t : State} (q : Request) (a : OnlyChanges qs s t) (h : ([.power, .cal, .elements, .carrier, .client, .monitor] : List Part).all (fun p => qs.contains p) = true) :
    ReplyChanges qs s (monitorTrigger q t) := ReplyChanges.after (monitorTrigger_only q t) a h

theorem monitorInject_only (q : Request) (s : State) :
    ReplyChanges [.sill, .power, .control, .counters, .cal, .elements, .carrier, .client, .monitor] s (monitorInject q s) := by
  unfold monitorInject
  repeat' first
    | with_reducible exact OnlyChanges.refl _ _
    | with_reducible assumption
    | with_reducible apply ReplyChanges.checked
    | with_reducible apply ReplyChanges.require
    | with_reducible apply ReplyChanges.ite
    | with_reducible apply ReplyChanges.okay
    | with_reducible apply ReplyChanges.okWith
    | with_reducible refine ReplyChanges.okThen ?_ (fun _ => ?_)
    | with_reducible apply ReplyChanges.refuse
    | with_reducible apply ReplyChanges.reject
    | with_reducible refine ReplyChanges.done _ _ ?_ (fun _ => ?_)
    | with_reducible apply ReplyChanges.later
    | with_reducible refine needing_frame _ _ _ ?_ ?_ (fun _ => ?_)
    | with_reducible apply OnlyChanges.ite
    | with_reducible apply setInjection_frame
    | with_reducible apply routed_frame
    | ((with_reducible refine Part.nested ?_); rfl)
    | ((with_reducible refine Part.held ?_); rfl)
    | split
    | dsimp only
    | dsimp only [id]
theorem monitorInject_frame {qs : List Part} {s t : State} (q : Request) (a : OnlyChanges qs s t) (h : ([.sill, .power, .control, .counters, .cal, .elements, .carrier, .client, .monitor] : List Part).all (fun p => qs.contains p) = true) :
    ReplyChanges qs s (monitorInject q t) := ReplyChanges.after (monitorInject_only q t) a h

theorem monitorReadSlots_only (q : Request) (s : State) :
    ReplyChanges [.monitor] s (monitorReadSlots q s) := by
  unfold monitorReadSlots
  repeat' first
    | with_reducible exact OnlyChanges.refl _ _
    | with_reducible assumption
    | with_reducible apply ReplyChanges.checked
    | with_reducible apply ReplyChanges.require
    | with_reducible apply ReplyChanges.ite
    | with_reducible apply ReplyChanges.okay
    | with_reducible apply ReplyChanges.okWith
    | with_reducible refine ReplyChanges.okThen ?_ (fun _ => ?_)
    | with_reducible apply ReplyChanges.refuse
    | with_reducible apply ReplyChanges.reject
    | with_reducible refine ReplyChanges.done _ _ ?_ (fun _ => ?_)
    | with_reducible apply ReplyChanges.later
    | with_reducible apply OnlyChanges.ite
    | with_reducible refine OnlyChanges.each (fun _ _ => ?_) _ ?_
    | with_reducible apply modMonSlot_frame
    | ((with_reducible refine Part.nested ?_); rfl)
    | ((with_reducible refine Part.held ?_); rfl)
    | split
    | dsimp only
    | dsimp only [id]
theorem monitorReadSlots_frame {qs : List Part} {s t : State} (q : Request) (a : OnlyChanges qs s t) (h : ([.monitor] : List Part).all (fun p => qs.contains p) = true) :
    ReplyChanges qs s (monitorReadSlots q t) := ReplyChanges.after (monitorReadSlots_only q t) a h

theorem monitorReadTrackers_only (q : Request) (s : State) :
    ReplyChanges [.monitor] s (monitorReadTrackers q s) := by
  unfold monitorReadTrackers
  repeat' first
    | with_reducible exact OnlyChanges.refl _ _
    | with_reducible assumption
    | with_reducible apply ReplyChanges.checked
    | with_reducible apply ReplyChanges.require
    | with_reducible apply ReplyChanges.ite
    | with_reducible apply ReplyChanges.okay
    | with_reducible apply ReplyChanges.okWith
    | with_reducible refine ReplyChanges.okThen ?_ (fun _ => ?_)
    | with_reducible apply ReplyChanges.refuse
    | with_reducible apply ReplyChanges.reject
    | with_reducible refine ReplyChanges.done _ _ ?_ (fun _ => ?_)
    | with_reducible apply ReplyChanges.later
    | with_reducible apply OnlyChanges.ite
    | with_reducible refine OnlyChanges.each (fun _ _ => ?_) _ ?_
    | with_reducible apply modTracker_frame
    | ((with_reducible refine Part.nested ?_); rfl)
    | ((with_reducible refine Part.held ?_); rfl)
    | split
    | dsimp only
    | dsimp only [id]
theorem monitorReadTrackers_frame {qs : List Part} {s t : State} (q : Request) (a : OnlyChanges qs s t) (h : ([.monitor] : List Part).all (fun p => qs.contains p) = true) :
    ReplyChanges qs s (monitorReadTrackers q t) := ReplyChanges.after (monitorReadTrackers_only q t) a h

theorem monitorGetStatus_only (q : Request) (s : State) :
    ReplyChanges [] s (monitorGetStatus q s) := by
  unfold monitorGetStatus
  repeat' first
    | with_reducible exact OnlyChanges.refl _ _
    | with_reducible assumption
    | with_reducible apply ReplyChanges.checked
    | with_reducible apply ReplyChanges.require
    | with_reducible apply ReplyChanges.ite
    | with_reducible apply ReplyChanges.okay
    | with_reducible apply ReplyChanges.okWith
    | with_reducible refine ReplyChanges.okThen ?_ (fun _ => ?_)
    | with_reducible apply ReplyChanges.refuse
    | with_reducible apply ReplyChanges.reject
    | with_reducible refine ReplyChanges.done _ _ ?_ (fun _ => ?_)
    | with_reducible apply ReplyChanges.later
    | with_reducible apply OnlyChanges.ite
    | ((with_reducible refine Part.nested ?_); rfl)
    | ((with_reducible refine Part.held ?_); rfl)
    | split
    | dsimp only
    | dsimp only [id]
theorem monitorGetStatus_frame {qs : List Part} {s t : State} (q : Request) (a : OnlyChanges qs s t) (h : ([] : List Part).all (fun p => qs.contains p) = true) :
    ReplyChanges qs s (monitorGetStatus q t) := ReplyChanges.after (monitorGetStatus_only q t) a h

end Sys2Proof.Machine
end

