-- ==== Sys2Proof/Laws/FramePower.lean ====
section
/-! SUPPORT. What each operation of Power.lean may change. -/

-- One theorem after another: with a thread for each, the package as one text outgrows the checker's memory limit.
set_option Elab.async false

namespace Sys2Proof.Machine

theorem powerSetTolerance_only (q : Request) (s : State) :
    ReplyChanges [.power, .cal, .elements, .carrier, .client] s (powerSetTolerance q s) := by
  unfold powerSetTolerance
  repeat' first
    | with_reducible exact OnlyChanges.refl _ _
    | with_reducible assumption
    | with_reducible apply ReplyChanges.checked
    | with_reducible apply ReplyChanges.require
    | with_reducible apply ReplyChanges.ite
    | with_reducible apply ReplyChanges.okay
    | with_reducible apply ReplyChanges.okWith
    | with_reducible refine ReplyChanges.okThen ?_ (fun _ => ?_)
    | with_reducible apply ReplyChanges.refuse
    | with_reducible apply ReplyChanges.reject
    | with_reducible refine ReplyChanges.done _ _ ?_ (fun _ => ?_)
    | with_reducible apply ReplyChanges.later
    | with_reducible apply OnlyChanges.ite
    | with_reducible refine OnlyChanges.each (fun _ _ => ?_) _ ?_
    | with_reducible apply setTolerance_frame
    | ((with_reducible refine Part.nested ?_); rfl)
    | ((with_reducible refine Part.held ?_); rfl)
    | split
    | dsimp only
    | dsimp only [id]
theorem powerSetTolerance_frame {qs : List Part} {s t : State} (q : Request) (a : OnlyChanges qs s t) (h : ([.power, .cal, .elements, .carrier, .client] : List Part).all (fun p => qs.contains p) = true) :
    ReplyChanges qs s (powerSetTolerance q t) := ReplyChanges.after (powerSetTolerance_only q t) a h

theorem powerGetState_only (q : Request) (s : State) :
    ReplyChanges [] s (powerGetState q s) := by
  unfold powerGetState
  repeat' first
    | with_reducible exact OnlyChanges.refl _ _
    | with_reducible assumption
    | with_reducible apply ReplyChanges.checked
    | with_reducible apply ReplyChanges.require
    | with_reducible apply ReplyChanges.ite
    | with_reducible apply ReplyChanges.okay
    | with_reducible apply ReplyChanges.okWith
    | with_reducible refine ReplyChanges.okThen ?_ (fun _ => ?_)
    | with_reducible apply ReplyChanges.refuse
    | with_reducible apply ReplyChanges.reject
    | with_reducible refine ReplyChanges.done _ _ ?_ (fun _ => ?_)
    | with_reducible apply ReplyChanges.later
    | with_reducible apply OnlyChanges.ite
    | ((with_reducible refine Part.nested ?_); rfl)
    | ((with_reducible refine Part.held ?_); rfl)
    | split
    | dsimp only
    | dsimp only [id]
theorem powerGetState_frame {qs : List Part} {s t : State} (q : Request) (a : OnlyChanges qs s t) (h : ([] : List Part).all (fun p => qs.contains p) = true) :
    ReplyChanges qs s (powerGetState q t) := ReplyChanges.after (powerGetState_only q t) a h

theorem powerGetPower_only (_q : Request) (s : State) :
    ReplyChanges [.fresh] s (powerGetPower _q s) := by
  unfold powerGetPower
  repeat' first
    | with_reducible exact OnlyChanges.refl _ _
    | with_reducible assumption
    | with_reducible apply ReplyChanges.checked
    | with_reducible apply ReplyChanges.require
    | with_reducible apply ReplyChanges.ite
    | with_reducible apply ReplyChanges.okay
    | with_reducible apply ReplyChanges.okWith
    | with_reducible refine ReplyChanges.okThen ?_ (fun _ => ?_)
    | with_reducible apply ReplyChanges.refuse
    | with_reducible apply ReplyChanges.reject
    | with_reducible refine ReplyChanges.done _ _ ?_ (fun _ => ?_)
    | with_reducible apply ReplyChanges.later
    | with_reducible apply OnlyChanges.ite
    | with_reducible apply drawBelow_frame
    | with_reducible refine drawBelow_snd (by assumption) ?_ ?_
    | ((with_reducible refine Part.nested ?_); rfl)
    | ((with_reducible refine Part.held ?_); rfl)
    | split
    | dsimp only
    | dsimp only [id]
theorem powerGetPower_frame {qs : List Part} {s t : State} (_q : Request) (a : OnlyChanges qs s t) (h : ([.fresh] : List Part).all (fun p => qs.contains p) = true) :
    ReplyChanges qs s (powerGetPower _q t) := ReplyChanges.after (powerGetPower_only _q t) a h

theorem powerSetRegulator_only (q : Request) (s : State) :
    ReplyChanges [.power, .fresh] s (powerSetRegulator q s) := by
  unfold powerSetRegulator
  repeat' first
    | with_reducible exact OnlyChanges.refl _ _
    | with_reducible assumption
    | with_reducible apply ReplyChanges.checked
    | with_reducible apply ReplyChanges.require
    | with_reducible apply ReplyChanges.ite
    | with_reducible apply ReplyChanges.okay
    | with_reducible apply ReplyChanges.okWith
    | with_reducible refine ReplyChanges.okThen ?_ (fun _ => ?_)
    | with_reducible apply ReplyChanges.refuse
    | with_reducible apply ReplyChanges.reject
    | with_reducible refine ReplyChanges.done _ _ ?_ (fun _ => ?_)
    | with_reducible apply ReplyChanges.later
    | with_reducible apply OnlyChanges.ite
    | with_reducible apply drawBelow_frame
    | with_reducible refine drawBelow_snd (by assumption) ?_ ?_
    | with_reducible apply drawBytes_frame
    | with_reducible refine drawBytes_snd (by assumption) ?_ ?_
    | with_reducible apply modPower_frame
    | ((with_reducible refine Part.nested ?_); rfl)
    | ((with_reducible refine Part.held ?_); rfl)
    | split
    | dsimp only
    | dsimp only [id]
theorem powerSetRegulator_frame {qs : List Part} {s t : State} (q : Request) (a : OnlyChanges qs s t) (h : ([.power, .fresh] : List Part).all (fun p => qs.contains p) = true) :
    ReplyChanges qs s (powerSetRegulator q t) := ReplyChanges.after (powerSetRegulator_only q t) a h

theorem domainHoldExpiry_only (cls : Nat) (idx : Nat) (s : State) :
    OnlyChanges [.sill, .power, .control, .counters, .stream, .domain, .cal, .elements, .carrier, .memory, .fresh] s (domainHoldExpiry cls idx s) := by
  unfold domainHoldExpiry
  repeat' first
    | with_reducible exact OnlyChanges.refl _ _
    | with_reducible assumption
    | with_reducible apply OnlyChanges.ite
    | with_reducible apply enterP4_frame
    | with_reducible apply flushClamp_frame
    | with_reducible apply modDom_frame
    | with_reducible apply modStream_frame
    | with_reducible apply settlePlls_frame
    | with_reducible apply suspendSources_frame
    | with_reducible apply tenonSleep_frame
    | ((with_reducible refine Part.nested ?_); rfl)
    | ((with_reducible refine Part.held ?_); rfl)
    | split
    | dsimp only
    | dsimp only [id]
theorem domainHoldExpiry_frame {qs : List Part} {s t : State} (cls : Nat) (idx : Nat) (a : OnlyChanges qs s t) (h : ([.sill, .power, .control, .counters, .stream, .domain, .cal, .elements, .carrier, .memory, .fresh] : List Part).all (fun p => qs.contains p) = true) :
    OnlyChanges qs s (domainHoldExpiry cls idx t) := OnlyChanges.after (domainHoldExpiry_only cls idx t) a h

theorem domainDemand_only (cls : Nat) (idx : Nat) (s : State) :
    OnlyChanges [.power, .cal, .elements, .carrier, .client] s (domainDemand cls idx s) := by
  unfold domainDemand
  repeat' first
    | with_reducible exact OnlyChanges.refl _ _
    | with_reducible assumption
    | with_reducible apply OnlyChanges.ite
    | with_reducible refine OnlyChanges.cond (fun _ => ?_) ?_
    | with_reducible apply demand_frame
    | ((with_reducible refine Part.nested ?_); rfl)
    | ((with_reducible refine Part.held ?_); rfl)
    | split
    | dsimp only
    | dsimp only [id]
theorem domainDemand_frame {qs : List Part} {s t : State} (cls : Nat) (idx : Nat) (a : OnlyChanges qs s t) (h : ([.power, .cal, .elements, .carrier, .client] : List Part).all (fun p => qs.contains p) = true) :
    OnlyChanges qs s (domainDemand cls idx t) := OnlyChanges.after (domainDemand_only cls idx t) a h

theorem settleDemands_only (s : State) :
    OnlyChanges [.power, .cal, .elements, .carrier, .client] s (settleDemands s) := by
  unfold settleDemands
  repeat' first
    | with_reducible exact OnlyChanges.refl _ _
    | with_reducible assumption
    | with_reducible apply OnlyChanges.ite
    | with_reducible refine OnlyChanges.each (fun _ _ => ?_) _ ?_
    | with_reducible apply demand_frame
    | ((with_reducible refine Part.nested ?_); rfl)
    | ((with_reducible refine Part.held ?_); rfl)
    | split
    | dsimp only
    | dsimp only [id]
theorem settleDemands_frame {qs : List Part} {s t : State}  (a : OnlyChanges qs s t) (h : ([.power, .cal, .elements, .carrier, .client] : List Part).all (fun p => qs.contains p) = true) :
    OnlyChanges qs s (settleDemands t) := OnlyChanges.after (settleDemands_only t) a h

theorem pllLock_only (k : Nat) (s : State) :
    OnlyChanges [.power, .client] s (pllLock k s) := by
  unfold pllLock
  repeat' first
    | with_reducible exact OnlyChanges.refl _ _
    | with_reducible assumption
    | with_reducible apply OnlyChanges.ite
    | with_reducible refine OnlyChanges.cond (fun _ => ?_) ?_
    | with_reducible apply modPower_frame
    | with_reducible apply trainQuad_frame
    | ((with_reducible refine Part.nested ?_); rfl)
    | ((with_reducible refine Part.held ?_); rfl)
    | split
    | dsimp only
    | dsimp only [id]
theorem pllLock_frame {qs : List Part} {s t : State} (k : Nat) (a : OnlyChanges qs s t) (h : ([.power, .client] : List Part).all (fun p => qs.contains p) = true) :
    OnlyChanges qs s (pllLock k t) := OnlyChanges.after (pllLock_only k t) a h

theorem domainExitComplete_only (cls : Nat) (idx : Nat) (s : State) :
    OnlyChanges [.sill, .power, .control, .counters, .cal, .elements, .carrier, .client, .sched, .memory, .monitor, .fresh] s (domainExitComplete cls idx s) := by
  unfold domainExitComplete
  repeat' first
    | with_reducible exact OnlyChanges.refl _ _
    | with_reducible assumption
    | with_reducible apply OnlyChanges.ite
    | with_reducible refine OnlyChanges.cond (fun _ => ?_) ?_
    | with_reducible apply biasUp_frame
    | with_reducible apply monitorAwake_frame
    | with_reducible apply reachP0_frame
    | with_reducible apply selectAll_frame
    | with_reducible apply startRound_frame
    | with_reducible apply zeroReserved_frame
    | ((with_reducible refine Part.nested ?_); rfl)
    | ((with_reducible refine Part.held ?_); rfl)
    | split
    | dsimp only
    | dsimp only [id]
theorem domainExitComplete_frame {qs : List Part} {s t : State} (cls : Nat) (idx : Nat) (a : OnlyChanges qs s t) (h : ([.sill, .power, .control, .counters, .cal, .elements, .carrier, .client, .sched, .memory, .monitor, .fresh] : List Part).all (fun p => qs.contains p) = true) :
    OnlyChanges qs s (domainExitComplete cls idx t) := OnlyChanges.after (domainExitComplete_only cls idx t) a h

theorem coreVoltageEvaluation_only (steps : Fin 21) (lostMargin : Bool) (s : State) :
    OnlyChanges [.power] s (coreVoltageEvaluation steps lostMargin s) := by
  unfold coreVoltageEvaluation
  repeat' first
    | with_reducible exact OnlyChanges.refl _ _
    | with_reducible assumption
    | with_reducible apply OnlyChanges.ite
    | with_reducible refine OnlyChanges.cond (fun _ => ?_) ?_
    | with_reducible apply modPower_frame
    | ((with_reducible refine Part.nested ?_); rfl)
    | ((with_reducible refine Part.held ?_); rfl)
    | split
    | dsimp only
    | dsimp only [id]
theorem coreVoltageEvaluation_frame {qs : List Part} {s t : State} (steps : Fin 21) (lostMargin : Bool) (a : OnlyChanges qs s t) (h : ([.power] : List Part).all (fun p => qs.contains p) = true) :
    OnlyChanges qs s (coreVoltageEvaluation steps lostMargin t) := OnlyChanges.after (coreVoltageEvaluation_only steps lostMargin t) a h

theorem stopAdapting_only (cause : Nat) (s : State) :
    OnlyChanges [.sill, .power, .control, .counters] s (stopAdapting cause s) := by
  unfold stopAdapting
  repeat' first
    | with_reducible exact OnlyChanges.refl _ _
    | with_reducible assumption
    | with_reducible apply OnlyChanges.ite
    | with_reducible apply modPower_frame
    | with_reducible apply modSill_frame
    | with_reducible apply raise_frame
    | ((with_reducible refine Part.nested ?_); rfl)
    | ((with_reducible refine Part.held ?_); rfl)
    | split
    | dsimp only
    | dsimp only [id]
theorem stopAdapting_frame {qs : List Part} {s t : State} (cause : Nat) (a : OnlyChanges qs s t) (h : ([.sill, .power, .control, .counters] : List Part).all (fun p => qs.contains p) = true) :
    OnlyChanges qs s (stopAdapting cause t) := OnlyChanges.after (stopAdapting_only cause t) a h

theorem coreVoltageStep_only (ack : Bool) (pec : Bool) (s : State) :
    OnlyChanges [.sill, .power, .control, .counters] s (coreVoltageStep ack pec s) := by
  unfold coreVoltageStep
  repeat' first
    | with_reducible exact OnlyChanges.refl _ _
    | with_reducible assumption
    | with_reducible apply OnlyChanges.ite
    | with_reducible apply modPower_frame
    | with_reducible apply stopAdapting_frame
    | ((with_reducible refine Part.nested ?_); rfl)
    | ((with_reducible refine Part.held ?_); rfl)
    | split
    | dsimp only
    | dsimp only [id]
theorem coreVoltageStep_frame {qs : List Part} {s t : State} (ack : Bool) (pec : Bool) (a : OnlyChanges qs s t) (h : ([.sill, .power, .control, .counters] : List Part).all (fun p => qs.contains p) = true) :
    OnlyChanges qs s (coreVoltageStep ack pec t) := OnlyChanges.after (coreVoltageStep_only ack pec t) a h

theorem pmbAlert_only (s : State) :
    OnlyChanges [.sill, .power, .control, .counters] s (pmbAlert s) := by
  unfold pmbAlert
  repeat' first
    | with_reducible exact OnlyChanges.refl _ _
    | with_reducible assumption
    | with_reducible apply OnlyChanges.ite
    | with_reducible refine OnlyChanges.cond (fun _ => ?_) ?_
    | with_reducible apply stopAdapting_frame
    | ((with_reducible refine Part.nested ?_); rfl)
    | ((with_reducible refine Part.held ?_); rfl)
    | split
    | dsimp only
    | dsimp only [id]
theorem pmbAlert_frame {qs : List Part} {s t : State}  (a : OnlyChanges qs s t) (h : ([.sill, .power, .control, .counters] : List Part).all (fun p => qs.contains p) = true) :
    OnlyChanges qs s (pmbAlert t) := OnlyChanges.after (pmbAlert_only t) a h

end Sys2Proof.Machine
end

