-- ==== Sys2Proof/Laws/FrameSecurity.lean ====
section
/-! SUPPORT. What each operation of Security.lean may change. -/

-- One theorem after another: with a thread for each, the package as one text outgrows the checker's memory limit.
set_option Elab.async false

namespace Sys2Proof.Machine

theorem securitySetOwnerRoot_only (q : Request) (s : State) :
    ReplyChanges [.otp, .fresh] s (securitySetOwnerRoot q s) := by
  unfold securitySetOwnerRoot
  repeat' first
    | with_reducible exact OnlyChanges.refl _ _
    | with_reducible assumption
    | with_reducible apply ReplyChanges.checked
    | with_reducible apply ReplyChanges.require
    | with_reducible apply ReplyChanges.ite
    | with_reducible apply ReplyChanges.okay
    | with_reducible apply ReplyChanges.okWith
    | with_reducible refine ReplyChanges.okThen ?_ (fun _ => ?_)
    | with_reducible apply ReplyChanges.refuse
    | with_reducible apply ReplyChanges.reject
    | with_reducible refine ReplyChanges.done _ _ ?_ (fun _ => ?_)
    | with_reducible apply ReplyChanges.later
    | with_reducible apply OnlyChanges.ite
    | with_reducible apply drawBelow_frame
    | with_reducible refine drawBelow_snd (by assumption) ?_ ?_
    | ((with_reducible refine Part.nested ?_); rfl)
    | ((with_reducible refine Part.held ?_); rfl)
    | split
    | dsimp only
    | dsimp only [id]
    | with_reducible apply set_otp
theorem securitySetOwnerRoot_frame {qs : List Part} {s t : State} (q : Request) (a : OnlyChanges qs s t) (h : ([.otp, .fresh] : List Part).all (fun p => qs.contains p) = true) :
    ReplyChanges qs s (securitySetOwnerRoot q t) := ReplyChanges.after (securitySetOwnerRoot_only q t) a h

theorem securitySetOwnerRecord_only (q : Request) (s : State) :
    ReplyChanges [.sill, .flash, .control, .counters, .stream, .domain, .security, .fresh] s (securitySetOwnerRecord q s) := by
  unfold securitySetOwnerRecord
  repeat' first
    | with_reducible exact OnlyChanges.refl _ _
    | with_reducible assumption
    | with_reducible apply ReplyChanges.checked
    | with_reducible apply ReplyChanges.require
    | with_reducible apply ReplyChanges.ite
    | with_reducible apply ReplyChanges.okay
    | with_reducible apply ReplyChanges.okWith
    | with_reducible refine ReplyChanges.okThen ?_ (fun _ => ?_)
    | with_reducible apply ReplyChanges.refuse
    | with_reducible apply ReplyChanges.reject
    | with_reducible refine ReplyChanges.done _ _ ?_ (fun _ => ?_)
    | with_reducible apply ReplyChanges.later
    | with_reducible apply OnlyChanges.ite
    | with_reducible refine OnlyChanges.each (fun _ _ => ?_) _ ?_
    | with_reducible apply authFailure_frame
    | with_reducible apply endSession_frame
    | with_reducible apply flashErase_frame
    | with_reducible apply flashTakes_frame
    | with_reducible refine flashTakes_snd (by assumption) ?_ ?_
    | with_reducible apply flashWrite_frame
    | with_reducible apply modSecurity_frame
    | ((with_reducible refine Part.nested ?_); rfl)
    | ((with_reducible refine Part.held ?_); rfl)
    | split
    | dsimp only
    | dsimp only [id]
theorem securitySetOwnerRecord_frame {qs : List Part} {s t : State} (q : Request) (a : OnlyChanges qs s t) (h : ([.sill, .flash, .control, .counters, .stream, .domain, .security, .fresh] : List Part).all (fun p => qs.contains p) = true) :
    ReplyChanges qs s (securitySetOwnerRecord q t) := ReplyChanges.after (securitySetOwnerRecord_only q t) a h

theorem securityLoadKek_only (q : Request) (s : State) :
    ReplyChanges [.sill, .control, .counters, .stream, .domain, .security] s (securityLoadKek q s) := by
  unfold securityLoadKek
  repeat' first
    | with_reducible exact OnlyChanges.refl _ _
    | with_reducible assumption
    | with_reducible apply ReplyChanges.checked
    | with_reducible apply ReplyChanges.require
    | with_reducible apply ReplyChanges.ite
    | with_reducible apply ReplyChanges.okay
    | with_reducible apply ReplyChanges.okWith
    | with_reducible refine ReplyChanges.okThen ?_ (fun _ => ?_)
    | with_reducible apply ReplyChanges.refuse
    | with_reducible apply ReplyChanges.reject
    | with_reducible refine ReplyChanges.done _ _ ?_ (fun _ => ?_)
    | with_reducible apply ReplyChanges.later
    | with_reducible apply OnlyChanges.ite
    | with_reducible apply authFailure_frame
    | with_reducible apply modSecurity_frame
    | with_reducible apply modSill_frame
    | ((with_reducible refine Part.nested ?_); rfl)
    | ((with_reducible refine Part.held ?_); rfl)
    | split
    | dsimp only
    | dsimp only [id]
theorem securityLoadKek_frame {qs : List Part} {s t : State} (q : Request) (a : OnlyChanges qs s t) (h : ([.sill, .control, .counters, .stream, .domain, .security] : List Part).all (fun p => qs.contains p) = true) :
    ReplyChanges qs s (securityLoadKek q t) := ReplyChanges.after (securityLoadKek_only q t) a h

theorem securityLoadKey_only (q : Request) (s : State) :
    ReplyChanges [.sill, .power, .control, .counters, .cal, .elements, .carrier, .client, .security] s (securityLoadKey q s) := by
  unfold securityLoadKey
  repeat' first
    | with_reducible exact OnlyChanges.refl _ _
    | with_reducible assumption
    | with_reducible apply ReplyChanges.checked
    | with_reducible apply ReplyChanges.require
    | with_reducible apply ReplyChanges.ite
    | with_reducible apply ReplyChanges.okay
    | with_reducible apply ReplyChanges.okWith
    | with_reducible refine ReplyChanges.okThen ?_ (fun _ => ?_)
    | with_reducible apply ReplyChanges.refuse
    | with_reducible apply ReplyChanges.reject
    | with_reducible refine ReplyChanges.done _ _ ?_ (fun _ => ?_)
    | with_reducible apply ReplyChanges.later
    | with_reducible refine needing_frame _ _ _ ?_ ?_ (fun _ => ?_)
    | with_reducible apply OnlyChanges.ite
    | with_reducible apply modSecurity_frame
    | ((with_reducible refine Part.nested ?_); rfl)
    | ((with_reducible refine Part.held ?_); rfl)
    | split
    | dsimp only
    | dsimp only [id]
theorem securityLoadKey_frame {qs : List Part} {s t : State} (q : Request) (a : OnlyChanges qs s t) (h : ([.sill, .power, .control, .counters, .cal, .elements, .carrier, .client, .security] : List Part).all (fun p => qs.contains p) = true) :
    ReplyChanges qs s (securityLoadKey q t) := ReplyChanges.after (securityLoadKey_only q t) a h

theorem loadKey_only (slot : Nat) (kek : Nat) (blob : List Byte) (entry : Nat) (s : State) :
    OnlyChanges [.sill, .control, .counters, .stream, .domain, .security] s (loadKey slot kek blob entry s) := by
  unfold loadKey
  repeat' first
    | with_reducible exact OnlyChanges.refl _ _
    | with_reducible assumption
    | with_reducible apply OnlyChanges.ite
    | with_reducible apply authFailure_frame
    | with_reducible apply completeEntry_frame
    | with_reducible apply modSlot_frame
    | ((with_reducible refine Part.nested ?_); rfl)
    | ((with_reducible refine Part.held ?_); rfl)
    | split
    | dsimp only
    | dsimp only [id]
theorem loadKey_frame {qs : List Part} {s t : State} (slot : Nat) (kek : Nat) (blob : List Byte) (entry : Nat) (a : OnlyChanges qs s t) (h : ([.sill, .control, .counters, .stream, .domain, .security] : List Part).all (fun p => qs.contains p) = true) :
    OnlyChanges qs s (loadKey slot kek blob entry t) := OnlyChanges.after (loadKey_only slot kek blob entry t) a h

theorem keyLoadExecute_only (s : State) :
    OnlyChanges [.sill, .control, .counters, .stream, .domain, .security] s (keyLoadExecute s) := by
  unfold keyLoadExecute
  repeat' first
    | with_reducible exact OnlyChanges.refl _ _
    | with_reducible assumption
    | with_reducible apply OnlyChanges.ite
    | with_reducible refine OnlyChanges.cond (fun _ => ?_) ?_
    | with_reducible apply loadKey_frame
    | with_reducible apply modSecurity_frame
    | ((with_reducible refine Part.nested ?_); rfl)
    | ((with_reducible refine Part.held ?_); rfl)
    | split
    | dsimp only
    | dsimp only [id]
theorem keyLoadExecute_frame {qs : List Part} {s t : State}  (a : OnlyChanges qs s t) (h : ([.sill, .control, .counters, .stream, .domain, .security] : List Part).all (fun p => qs.contains p) = true) :
    OnlyChanges qs s (keyLoadExecute t) := OnlyChanges.after (keyLoadExecute_only t) a h

theorem securityEraseKey_only (q : Request) (s : State) :
    ReplyChanges [.sill, .control, .counters, .stream, .domain, .security] s (securityEraseKey q s) := by
  unfold securityEraseKey
  repeat' first
    | with_reducible exact OnlyChanges.refl _ _
    | with_reducible assumption
    | with_reducible apply ReplyChanges.checked
    | with_reducible apply ReplyChanges.require
    | with_reducible apply ReplyChanges.ite
    | with_reducible apply ReplyChanges.okay
    | with_reducible apply ReplyChanges.okWith
    | with_reducible refine ReplyChanges.okThen ?_ (fun _ => ?_)
    | with_reducible apply ReplyChanges.refuse
    | with_reducible apply ReplyChanges.reject
    | with_reducible refine ReplyChanges.done _ _ ?_ (fun _ => ?_)
    | with_reducible apply ReplyChanges.later
    | with_reducible apply OnlyChanges.ite
    | with_reducible apply eraseClass_frame
    | ((with_reducible refine Part.nested ?_); rfl)
    | ((with_reducible refine Part.held ?_); rfl)
    | split
    | dsimp only
    | dsimp only [id]
theorem securityEraseKey_frame {qs : List Part} {s t : State} (q : Request) (a : OnlyChanges qs s t) (h : ([.sill, .control, .counters, .stream, .domain, .security] : List Part).all (fun p => qs.contains p) = true) :
    ReplyChanges qs s (securityEraseKey q t) := ReplyChanges.after (securityEraseKey_only q t) a h

theorem releaseSlot_only (o : Option Nat) (s : State) :
    OnlyChanges [.security] s (releaseSlot o s) := by
  unfold releaseSlot
  repeat' first
    | with_reducible exact OnlyChanges.refl _ _
    | with_reducible assumption
    | with_reducible apply OnlyChanges.ite
    | with_reducible apply modSlot_frame
    | ((with_reducible refine Part.nested ?_); rfl)
    | ((with_reducible refine Part.held ?_); rfl)
    | split
    | dsimp only
    | dsimp only [id]
theorem releaseSlot_frame {qs : List Part} {s t : State} (o : Option Nat) (a : OnlyChanges qs s t) (h : ([.security] : List Part).all (fun p => qs.contains p) = true) :
    OnlyChanges qs s (releaseSlot o t) := OnlyChanges.after (releaseSlot_only o t) a h

theorem securitySetChannel_only (q : Request) (s : State) :
    ReplyChanges [.sill, .control, .counters, .security] s (securitySetChannel q s) := by
  unfold securitySetChannel
  repeat' first
    | with_reducible exact OnlyChanges.refl _ _
    | with_reducible assumption
    | with_reducible apply ReplyChanges.checked
    | with_reducible apply ReplyChanges.require
    | with_reducible apply ReplyChanges.ite
    | with_reducible apply ReplyChanges.okay
    | with_reducible apply ReplyChanges.okWith
    | with_reducible refine ReplyChanges.okThen ?_ (fun _ => ?_)
    | with_reducible apply ReplyChanges.refuse
    | with_reducible apply ReplyChanges.reject
    | with_reducible refine ReplyChanges.done _ _ ?_ (fun _ => ?_)
    | with_reducible apply ReplyChanges.later
    | with_reducible apply OnlyChanges.ite
    | with_reducible apply modChannel_frame
    | with_reducible apply releaseSlot_frame
    | with_reducible apply squelch_frame
    | ((with_reducible refine Part.nested ?_); rfl)
    | ((with_reducible refine Part.held ?_); rfl)
    | split
    | dsimp only
    | dsimp only [id]
theorem securitySetChannel_frame {qs : List Part} {s t : State} (q : Request) (a : OnlyChanges qs s t) (h : ([.sill, .control, .counters, .security] : List Part).all (fun p => qs.contains p) = true) :
    ReplyChanges qs s (securitySetChannel q t) := ReplyChanges.after (securitySetChannel_only q t) a h

theorem securityRollover_only (q : Request) (s : State) :
    ReplyChanges [.security] s (securityRollover q s) := by
  unfold securityRollover
  repeat' first
    | with_reducible exact OnlyChanges.refl _ _
    | with_reducible assumption
    | with_reducible apply ReplyChanges.checked
    | with_reducible apply ReplyChanges.require
    | with_reducible apply ReplyChanges.ite
    | with_reducible apply ReplyChanges.okay
    | with_reducible apply ReplyChanges.okWith
    | with_reducible refine ReplyChanges.okThen ?_ (fun _ => ?_)
    | with_reducible apply ReplyChanges.refuse
    | with_reducible apply ReplyChanges.reject
    | with_reducible refine ReplyChanges.done _ _ ?_ (fun _ => ?_)
    | with_reducible apply ReplyChanges.later
    | with_reducible apply OnlyChanges.ite
    | with_reducible apply modChannel_frame
    | ((with_reducible refine Part.nested ?_); rfl)
    | ((with_reducible refine Part.held ?_); rfl)
    | split
    | dsimp only
    | dsimp only [id]
theorem securityRollover_frame {qs : List Part} {s t : State} (q : Request) (a : OnlyChanges qs s t) (h : ([.security] : List Part).all (fun p => qs.contains p) = true) :
    ReplyChanges qs s (securityRollover q t) := ReplyChanges.after (securityRollover_only q t) a h

theorem rolloverFlip_only (x0 : Nat) (s : State) :
    OnlyChanges [.sill, .control, .counters, .security] s (rolloverFlip x0 s) := by
  unfold rolloverFlip
  repeat' first
    | with_reducible exact OnlyChanges.refl _ _
    | with_reducible assumption
    | with_reducible apply OnlyChanges.ite
    | with_reducible refine OnlyChanges.cond (fun _ => ?_) ?_
    | with_reducible apply modChannel_frame
    | with_reducible apply raise_frame
    | with_reducible apply squelch_frame
    | ((with_reducible refine Part.nested ?_); rfl)
    | ((with_reducible refine Part.held ?_); rfl)
    | split
    | dsimp only
    | dsimp only [id]
theorem rolloverFlip_frame {qs : List Part} {s t : State} (x0 : Nat) (a : OnlyChanges qs s t) (h : ([.sill, .control, .counters, .security] : List Part).all (fun p => qs.contains p) = true) :
    OnlyChanges qs s (rolloverFlip x0 t) := OnlyChanges.after (rolloverFlip_only x0 t) a h

theorem channelModeApply_only (x0 : Nat) (d : Nat) (s : State) :
    OnlyChanges [.sill, .control, .counters, .security] s (channelModeApply x0 d s) := by
  unfold channelModeApply
  repeat' first
    | with_reducible exact OnlyChanges.refl _ _
    | with_reducible assumption
    | with_reducible apply OnlyChanges.ite
    | with_reducible refine OnlyChanges.cond (fun _ => ?_) ?_
    | with_reducible apply modChannel_frame
    | with_reducible apply squelch_frame
    | ((with_reducible refine Part.nested ?_); rfl)
    | ((with_reducible refine Part.held ?_); rfl)
    | split
    | dsimp only
    | dsimp only [id]
theorem channelModeApply_frame {qs : List Part} {s t : State} (x0 : Nat) (d : Nat) (a : OnlyChanges qs s t) (h : ([.sill, .control, .counters, .security] : List Part).all (fun p => qs.contains p) = true) :
    OnlyChanges qs s (channelModeApply x0 d t) := OnlyChanges.after (channelModeApply_only x0 d t) a h

theorem securityBench_only (q : Request) (s : State) :
    ReplyChanges [.sill, .power, .control, .counters, .cal, .elements, .carrier, .client, .security] s (securityBench q s) := by
  unfold securityBench
  repeat' first
    | with_reducible exact OnlyChanges.refl _ _
    | with_reducible assumption
    | with_reducible apply ReplyChanges.checked
    | with_reducible apply ReplyChanges.require
    | with_reducible apply ReplyChanges.ite
    | with_reducible apply ReplyChanges.okay
    | with_reducible apply ReplyChanges.okWith
    | with_reducible refine ReplyChanges.okThen ?_ (fun _ => ?_)
    | with_reducible apply ReplyChanges.refuse
    | with_reducible apply ReplyChanges.reject
    | with_reducible refine ReplyChanges.done _ _ ?_ (fun _ => ?_)
    | with_reducible apply ReplyChanges.later
    | with_reducible refine needing_frame _ _ _ ?_ ?_ (fun _ => ?_)
    | with_reducible apply OnlyChanges.ite
    | with_reducible apply modSecurity_frame
    | ((with_reducible refine Part.nested ?_); rfl)
    | ((with_reducible refine Part.held ?_); rfl)
    | split
    | dsimp only
    | dsimp only [id]
theorem securityBench_frame {qs : List Part} {s t : State} (q : Request) (a : OnlyChanges qs s t) (h : ([.sill, .power, .control, .counters, .cal, .elements, .carrier, .client, .security] : List Part).all (fun p => qs.contains p) = true) :
    ReplyChanges qs s (securityBench q t) := ReplyChanges.after (securityBench_only q t) a h

theorem benchExecute_only (b : Bench) (s : State) :
    OnlyChanges [.sill, .control, .counters, .stream, .domain, .security] s (benchExecute b s) := by
  unfold benchExecute
  repeat' first
    | with_reducible exact OnlyChanges.refl _ _
    | with_reducible assumption
    | with_reducible apply OnlyChanges.ite
    | with_reducible apply completeEntry_frame
    | with_reducible apply modSlot_frame
    | with_reducible apply nonceWarn_frame
    | ((with_reducible refine Part.nested ?_); rfl)
    | ((with_reducible refine Part.held ?_); rfl)
    | split
    | dsimp only
    | dsimp only [id]
theorem benchExecute_frame {qs : List Part} {s t : State} (b : Bench) (a : OnlyChanges qs s t) (h : ([.sill, .control, .counters, .stream, .domain, .security] : List Part).all (fun p => qs.contains p) = true) :
    OnlyChanges qs s (benchExecute b t) := OnlyChanges.after (benchExecute_only b t) a h

theorem benchRequestExecute_only (s : State) :
    OnlyChanges [.sill, .control, .counters, .stream, .domain, .security] s (benchRequestExecute s) := by
  unfold benchRequestExecute
  repeat' first
    | with_reducible exact OnlyChanges.refl _ _
    | with_reducible assumption
    | with_reducible apply OnlyChanges.ite
    | with_reducible refine OnlyChanges.cond (fun _ => ?_) ?_
    | with_reducible apply benchExecute_frame
    | with_reducible apply modSecurity_frame
    | ((with_reducible refine Part.nested ?_); rfl)
    | ((with_reducible refine Part.held ?_); rfl)
    | split
    | dsimp only
    | dsimp only [id]
theorem benchRequestExecute_frame {qs : List Part} {s t : State}  (a : OnlyChanges qs s t) (h : ([.sill, .control, .counters, .stream, .domain, .security] : List Part).all (fun p => qs.contains p) = true) :
    OnlyChanges qs s (benchRequestExecute t) := OnlyChanges.after (benchRequestExecute_only t) a h

theorem entropyHealthFail_only (s : State) :
    OnlyChanges [.security] s (entropyHealthFail s) := by
  unfold entropyHealthFail
  repeat' first
    | with_reducible exact OnlyChanges.refl _ _
    | with_reducible assumption
    | with_reducible apply OnlyChanges.ite
    | with_reducible apply modSecurity_frame
    | ((with_reducible refine Part.nested ?_); rfl)
    | ((with_reducible refine Part.held ?_); rfl)
    | split
    | dsimp only
    | dsimp only [id]
theorem entropyHealthFail_frame {qs : List Part} {s t : State}  (a : OnlyChanges qs s t) (h : ([.security] : List Part).all (fun p => qs.contains p) = true) :
    OnlyChanges qs s (entropyHealthFail t) := OnlyChanges.after (entropyHealthFail_only t) a h

theorem entropyHealthRestored_only (s : State) :
    OnlyChanges [.security] s (entropyHealthRestored s) := by
  unfold entropyHealthRestored
  repeat' first
    | with_reducible exact OnlyChanges.refl _ _
    | with_reducible assumption
    | with_reducible apply OnlyChanges.ite
    | with_reducible apply modSecurity_frame
    | ((with_reducible refine Part.nested ?_); rfl)
    | ((with_reducible refine Part.held ?_); rfl)
    | split
    | dsimp only
    | dsimp only [id]
theorem entropyHealthRestored_frame {qs : List Part} {s t : State}  (a : OnlyChanges qs s t) (h : ([.security] : List Part).all (fun p => qs.contains p) = true) :
    OnlyChanges qs s (entropyHealthRestored t) := OnlyChanges.after (entropyHealthRestored_only t) a h

theorem supplyGlitch_only (_x : Supply) (s : State) :
    OnlyChanges [.sill, .control, .counters, .stream, .domain, .security] s (supplyGlitch _x s) := by
  unfold supplyGlitch
  repeat' first
    | with_reducible exact OnlyChanges.refl _ _
    | with_reducible assumption
    | with_reducible apply OnlyChanges.ite
    | with_reducible refine OnlyChanges.cond (fun _ => ?_) ?_
    | with_reducible apply fireAlarm_frame
    | ((with_reducible refine Part.nested ?_); rfl)
    | ((with_reducible refine Part.held ?_); rfl)
    | split
    | dsimp only
    | dsimp only [id]
theorem supplyGlitch_frame {qs : List Part} {s t : State} (_x : Supply) (a : OnlyChanges qs s t) (h : ([.sill, .control, .counters, .stream, .domain, .security] : List Part).all (fun p => qs.contains p) = true) :
    OnlyChanges qs s (supplyGlitch _x t) := OnlyChanges.after (supplyGlitch_only _x t) a h

theorem vddIoLoss_only (s : State) :
    OnlyChanges [.pins, .sill, .control, .counters, .stream, .domain, .security] s (vddIoLoss s) := by
  unfold vddIoLoss
  repeat' first
    | with_reducible exact OnlyChanges.refl _ _
    | with_reducible assumption
    | with_reducible apply OnlyChanges.ite
    | with_reducible refine OnlyChanges.cond (fun _ => ?_) ?_
    | with_reducible apply fireAlarm_frame
    | with_reducible apply modPins_frame
    | ((with_reducible refine Part.nested ?_); rfl)
    | ((with_reducible refine Part.held ?_); rfl)
    | split
    | dsimp only
    | dsimp only [id]
theorem vddIoLoss_frame {qs : List Part} {s t : State}  (a : OnlyChanges qs s t) (h : ([.pins, .sill, .control, .counters, .stream, .domain, .security] : List Part).all (fun p => qs.contains p) = true) :
    OnlyChanges qs s (vddIoLoss t) := OnlyChanges.after (vddIoLoss_only t) a h

theorem vddIoReturn_only (s : State) :
    OnlyChanges [.pins, .sill, .control, .counters, .stream, .domain, .security, .timing] s (vddIoReturn s) := by
  unfold vddIoReturn
  repeat' first
    | with_reducible exact OnlyChanges.refl _ _
    | with_reducible assumption
    | with_reducible apply OnlyChanges.ite
    | with_reducible apply vddIoPresent_frame
    | ((with_reducible refine Part.nested ?_); rfl)
    | ((with_reducible refine Part.held ?_); rfl)
    | split
    | dsimp only
    | dsimp only [id]
theorem vddIoReturn_frame {qs : List Part} {s t : State}  (a : OnlyChanges qs s t) (h : ([.pins, .sill, .control, .counters, .stream, .domain, .security, .timing] : List Part).all (fun p => qs.contains p) = true) :
    OnlyChanges qs s (vddIoReturn t) := OnlyChanges.after (vddIoReturn_only t) a h

theorem clockGlitch_only (s : State) :
    OnlyChanges [.sill, .control, .counters, .stream, .domain, .security] s (clockGlitch s) := by
  unfold clockGlitch
  repeat' first
    | with_reducible exact OnlyChanges.refl _ _
    | with_reducible assumption
    | with_reducible apply OnlyChanges.ite
    | with_reducible refine OnlyChanges.cond (fun _ => ?_) ?_
    | with_reducible apply fireAlarm_frame
    | ((with_reducible refine Part.nested ?_); rfl)
    | ((with_reducible refine Part.held ?_); rfl)
    | split
    | dsimp only
    | dsimp only [id]
theorem clockGlitch_frame {qs : List Part} {s t : State}  (a : OnlyChanges qs s t) (h : ([.sill, .control, .counters, .stream, .domain, .security] : List Part).all (fun p => qs.contains p) = true) :
    OnlyChanges qs s (clockGlitch t) := OnlyChanges.after (clockGlitch_only t) a h

theorem temperatureExcursion_only (s : State) :
    OnlyChanges [.sill, .control, .counters, .stream, .domain, .security] s (temperatureExcursion s) := by
  unfold temperatureExcursion
  repeat' first
    | with_reducible exact OnlyChanges.refl _ _
    | with_reducible assumption
    | with_reducible apply OnlyChanges.ite
    | with_reducible refine OnlyChanges.cond (fun _ => ?_) ?_
    | with_reducible apply fireAlarm_frame
    | with_reducible apply modSecurity_frame
    | ((with_reducible refine Part.nested ?_); rfl)
    | ((with_reducible refine Part.held ?_); rfl)
    | split
    | dsimp only
    | dsimp only [id]
theorem temperatureExcursion_frame {qs : List Part} {s t : State}  (a : OnlyChanges qs s t) (h : ([.sill, .control, .counters, .stream, .domain, .security] : List Part).all (fun p => qs.contains p) = true) :
    OnlyChanges qs s (temperatureExcursion t) := OnlyChanges.after (temperatureExcursion_only t) a h

theorem tamperInAsserted_only (s : State) :
    OnlyChanges [.pins, .sill, .control, .counters, .stream, .domain, .security] s (tamperInAsserted s) := by
  unfold tamperInAsserted
  repeat' first
    | with_reducible exact OnlyChanges.refl _ _
    | with_reducible assumption
    | with_reducible apply OnlyChanges.ite
    | with_reducible refine OnlyChanges.cond (fun _ => ?_) ?_
    | with_reducible apply fireAlarm_frame
    | with_reducible apply modPins_frame
    | ((with_reducible refine Part.nested ?_); rfl)
    | ((with_reducible refine Part.held ?_); rfl)
    | split
    | dsimp only
    | dsimp only [id]
theorem tamperInAsserted_frame {qs : List Part} {s t : State}  (a : OnlyChanges qs s t) (h : ([.pins, .sill, .control, .counters, .stream, .domain, .security] : List Part).all (fun p => qs.contains p) = true) :
    OnlyChanges qs s (tamperInAsserted t) := OnlyChanges.after (tamperInAsserted_only t) a h

theorem tamperInDeasserted_only (s : State) :
    OnlyChanges [.pins] s (tamperInDeasserted s) := by
  unfold tamperInDeasserted
  repeat' first
    | with_reducible exact OnlyChanges.refl _ _
    | with_reducible assumption
    | with_reducible apply OnlyChanges.ite
    | with_reducible apply modPins_frame
    | ((with_reducible refine Part.nested ?_); rfl)
    | ((with_reducible refine Part.held ?_); rfl)
    | split
    | dsimp only
    | dsimp only [id]
theorem tamperInDeasserted_frame {qs : List Part} {s t : State}  (a : OnlyChanges qs s t) (h : ([.pins] : List Part).all (fun p => qs.contains p) = true) :
    OnlyChanges qs s (tamperInDeasserted t) := OnlyChanges.after (tamperInDeasserted_only t) a h

theorem zeroizeNAsserted_only (s : State) :
    OnlyChanges [.pins, .sill, .control, .counters, .stream, .domain, .security] s (zeroizeNAsserted s) := by
  unfold zeroizeNAsserted
  repeat' first
    | with_reducible exact OnlyChanges.refl _ _
    | with_reducible assumption
    | with_reducible apply OnlyChanges.ite
    | with_reducible refine OnlyChanges.cond (fun _ => ?_) ?_
    | with_reducible apply fireAlarm_frame
    | with_reducible apply modPins_frame
    | ((with_reducible refine Part.nested ?_); rfl)
    | ((with_reducible refine Part.held ?_); rfl)
    | split
    | dsimp only
    | dsimp only [id]
theorem zeroizeNAsserted_frame {qs : List Part} {s t : State}  (a : OnlyChanges qs s t) (h : ([.pins, .sill, .control, .counters, .stream, .domain, .security] : List Part).all (fun p => qs.contains p) = true) :
    OnlyChanges qs s (zeroizeNAsserted t) := OnlyChanges.after (zeroizeNAsserted_only t) a h

theorem zeroizeNDeasserted_only (s : State) :
    OnlyChanges [.pins] s (zeroizeNDeasserted s) := by
  unfold zeroizeNDeasserted
  repeat' first
    | with_reducible exact OnlyChanges.refl _ _
    | with_reducible assumption
    | with_reducible apply OnlyChanges.ite
    | with_reducible apply modPins_frame
    | ((with_reducible refine Part.nested ?_); rfl)
    | ((with_reducible refine Part.held ?_); rfl)
    | split
    | dsimp only
    | dsimp only [id]
theorem zeroizeNDeasserted_frame {qs : List Part} {s t : State}  (a : OnlyChanges qs s t) (h : ([.pins] : List Part).all (fun p => qs.contains p) = true) :
    OnlyChanges qs s (zeroizeNDeasserted t) := OnlyChanges.after (zeroizeNDeasserted_only t) a h

theorem securitySetPolicy_only (q : Request) (s : State) :
    ReplyChanges [.sill, .security] s (securitySetPolicy q s) := by
  unfold securitySetPolicy
  repeat' first
    | with_reducible exact OnlyChanges.refl _ _
    | with_reducible assumption
    | with_reducible apply ReplyChanges.checked
    | with_reducible apply ReplyChanges.require
    | with_reducible apply ReplyChanges.ite
    | with_reducible apply ReplyChanges.okay
    | with_reducible apply ReplyChanges.okWith
    | with_reducible refine ReplyChanges.okThen ?_ (fun _ => ?_)
    | with_reducible apply ReplyChanges.refuse
    | with_reducible apply ReplyChanges.reject
    | with_reducible refine ReplyChanges.done _ _ ?_ (fun _ => ?_)
    | with_reducible apply ReplyChanges.later
    | with_reducible apply OnlyChanges.ite
    | with_reducible apply modSecurity_frame
    | with_reducible apply modSill_frame
    | ((with_reducible refine Part.nested ?_); rfl)
    | ((with_reducible refine Part.held ?_); rfl)
    | split
    | dsimp only
    | dsimp only [id]
theorem securitySetPolicy_frame {qs : List Part} {s t : State} (q : Request) (a : OnlyChanges qs s t) (h : ([.sill, .security] : List Part).all (fun p => qs.contains p) = true) :
    ReplyChanges qs s (securitySetPolicy q t) := ReplyChanges.after (securitySetPolicy_only q t) a h

theorem securityClearAlarm_only (q : Request) (s : State) :
    ReplyChanges [.sill, .security, .fresh] s (securityClearAlarm q s) := by
  unfold securityClearAlarm
  repeat' first
    | with_reducible exact OnlyChanges.refl _ _
    | with_reducible assumption
    | with_reducible apply ReplyChanges.checked
    | with_reducible apply ReplyChanges.require
    | with_reducible apply ReplyChanges.ite
    | with_reducible apply ReplyChanges.okay
    | with_reducible apply ReplyChanges.okWith
    | with_reducible refine ReplyChanges.okThen ?_ (fun _ => ?_)
    | with_reducible apply ReplyChanges.refuse
    | with_reducible apply ReplyChanges.reject
    | with_reducible refine ReplyChanges.done _ _ ?_ (fun _ => ?_)
    | with_reducible apply ReplyChanges.later
    | with_reducible apply OnlyChanges.ite
    | with_reducible apply drawBelow_frame
    | with_reducible refine drawBelow_snd (by assumption) ?_ ?_
    | with_reducible apply modSecurity_frame
    | with_reducible apply modSill_frame
    | ((with_reducible refine Part.nested ?_); rfl)
    | ((with_reducible refine Part.held ?_); rfl)
    | split
    | dsimp only
    | dsimp only [id]
theorem securityClearAlarm_frame {qs : List Part} {s t : State} (q : Request) (a : OnlyChanges qs s t) (h : ([.sill, .security, .fresh] : List Part).all (fun p => qs.contains p) = true) :
    ReplyChanges qs s (securityClearAlarm q t) := ReplyChanges.after (securityClearAlarm_only q t) a h

theorem securityAttest_only (q : Request) (s : State) :
    ReplyChanges [.fresh] s (securityAttest q s) := by
  unfold securityAttest
  repeat' first
    | with_reducible exact OnlyChanges.refl _ _
    | with_reducible assumption
    | with_reducible apply ReplyChanges.checked
    | with_reducible apply ReplyChanges.require
    | with_reducible apply ReplyChanges.ite
    | with_reducible apply ReplyChanges.okay
    | with_reducible apply ReplyChanges.okWith
    | with_reducible refine ReplyChanges.okThen ?_ (fun _ => ?_)
    | with_reducible apply ReplyChanges.refuse
    | with_reducible apply ReplyChanges.reject
    | with_reducible refine ReplyChanges.done _ _ ?_ (fun _ => ?_)
    | with_reducible apply ReplyChanges.later
    | with_reducible apply OnlyChanges.ite
    | with_reducible apply drawNat_frame
    | with_reducible refine drawNat_snd (by assumption) ?_ ?_
    | ((with_reducible refine Part.nested ?_); rfl)
    | ((with_reducible refine Part.held ?_); rfl)
    | split
    | dsimp only
    | dsimp only [id]
theorem securityAttest_frame {qs : List Part} {s t : State} (q : Request) (a : OnlyChanges qs s t) (h : ([.fresh] : List Part).all (fun p => qs.contains p) = true) :
    ReplyChanges qs s (securityAttest q t) := ReplyChanges.after (securityAttest_only q t) a h

theorem securityGetCert_only (q : Request) (s : State) :
    ReplyChanges [] s (securityGetCert q s) := by
  unfold securityGetCert
  repeat' first
    | with_reducible exact OnlyChanges.refl _ _
    | with_reducible assumption
    | with_reducible apply ReplyChanges.checked
    | with_reducible apply ReplyChanges.require
    | with_reducible apply ReplyChanges.ite
    | with_reducible apply ReplyChanges.okay
    | with_reducible apply ReplyChanges.okWith
    | with_reducible refine ReplyChanges.okThen ?_ (fun _ => ?_)
    | with_reducible apply ReplyChanges.refuse
    | with_reducible apply ReplyChanges.reject
    | with_reducible refine ReplyChanges.done _ _ ?_ (fun _ => ?_)
    | with_reducible apply ReplyChanges.later
    | with_reducible apply OnlyChanges.ite
    | ((with_reducible refine Part.nested ?_); rfl)
    | ((with_reducible refine Part.held ?_); rfl)
    | split
    | dsimp only
    | dsimp only [id]
theorem securityGetCert_frame {qs : List Part} {s t : State} (q : Request) (a : OnlyChanges qs s t) (h : ([] : List Part).all (fun p => qs.contains p) = true) :
    ReplyChanges qs s (securityGetCert q t) := ReplyChanges.after (securityGetCert_only q t) a h

theorem securityGetStatus_only (q : Request) (s : State) :
    ReplyChanges [] s (securityGetStatus q s) := by
  unfold securityGetStatus
  repeat' first
    | with_reducible exact OnlyChanges.refl _ _
    | with_reducible assumption
    | with_reducible apply ReplyChanges.checked
    | with_reducible apply ReplyChanges.require
    | with_reducible apply ReplyChanges.ite
    | with_reducible apply ReplyChanges.okay
    | with_reducible apply ReplyChanges.okWith
    | with_reducible refine ReplyChanges.okThen ?_ (fun _ => ?_)
    | with_reducible apply ReplyChanges.refuse
    | with_reducible apply ReplyChanges.reject
    | with_reducible refine ReplyChanges.done _ _ ?_ (fun _ => ?_)
    | with_reducible apply ReplyChanges.later
    | with_reducible apply OnlyChanges.ite
    | ((with_reducible refine Part.nested ?_); rfl)
    | ((with_reducible refine Part.held ?_); rfl)
    | split
    | dsimp only
    | dsimp only [id]
theorem securityGetStatus_frame {qs : List Part} {s t : State} (q : Request) (a : OnlyChanges qs s t) (h : ([] : List Part).all (fun p => qs.contains p) = true) :
    ReplyChanges qs s (securityGetStatus q t) := ReplyChanges.after (securityGetStatus_only q t) a h

theorem securityGetSlots_only (q : Request) (s : State) :
    ReplyChanges [] s (securityGetSlots q s) := by
  unfold securityGetSlots
  repeat' first
    | with_reducible exact OnlyChanges.refl _ _
    | with_reducible assumption
    | with_reducible apply ReplyChanges.checked
    | with_reducible apply ReplyChanges.require
    | with_reducible apply ReplyChanges.ite
    | with_reducible apply ReplyChanges.okay
    | with_reducible apply ReplyChanges.okWith
    | with_reducible refine ReplyChanges.okThen ?_ (fun _ => ?_)
    | with_reducible apply ReplyChanges.refuse
    | with_reducible apply ReplyChanges.reject
    | with_reducible refine ReplyChanges.done _ _ ?_ (fun _ => ?_)
    | with_reducible apply ReplyChanges.later
    | with_reducible apply OnlyChanges.ite
    | ((with_reducible refine Part.nested ?_); rfl)
    | ((with_reducible refine Part.held ?_); rfl)
    | split
    | dsimp only
    | dsimp only [id]
theorem securityGetSlots_frame {qs : List Part} {s t : State} (q : Request) (a : OnlyChanges qs s t) (h : ([] : List Part).all (fun p => qs.contains p) = true) :
    ReplyChanges qs s (securityGetSlots q t) := ReplyChanges.after (securityGetSlots_only q t) a h

theorem securityGetCounts_only (q : Request) (s : State) :
    ReplyChanges [] s (securityGetCounts q s) := by
  unfold securityGetCounts
  repeat' first
    | with_reducible exact OnlyChanges.refl _ _
    | with_reducible assumption
    | with_reducible apply ReplyChanges.checked
    | with_reducible apply ReplyChanges.require
    | with_reducible apply ReplyChanges.ite
    | with_reducible apply ReplyChanges.okay
    | with_reducible apply ReplyChanges.okWith
    | with_reducible refine ReplyChanges.okThen ?_ (fun _ => ?_)
    | with_reducible apply ReplyChanges.refuse
    | with_reducible apply ReplyChanges.reject
    | with_reducible refine ReplyChanges.done _ _ ?_ (fun _ => ?_)
    | with_reducible apply ReplyChanges.later
    | with_reducible apply OnlyChanges.ite
    | ((with_reducible refine Part.nested ?_); rfl)
    | ((with_reducible refine Part.held ?_); rfl)
    | split
    | dsimp only
    | dsimp only [id]
theorem securityGetCounts_frame {qs : List Part} {s t : State} (q : Request) (a : OnlyChanges qs s t) (h : ([] : List Part).all (fun p => qs.contains p) = true) :
    ReplyChanges qs s (securityGetCounts q t) := ReplyChanges.after (securityGetCounts_only q t) a h

end Sys2Proof.Machine
end

