-- ==== Sys2Proof/Laws/FrameProtect.lean ====
section
/-! SUPPORT. What each operation of Protect.lean may change. -/

-- One theorem after another: with a thread for each, the package as one text outgrows the checker's memory limit.
set_option Elab.async false

namespace Sys2Proof.Machine

theorem ringWrite_only (k : Nat) (q : Word32) (n : Nat) (s : State) :
    OnlyChanges [.counters, .memory, .fresh] s (ringWrite k q n s) := by
  unfold ringWrite
  repeat' first
    | with_reducible exact OnlyChanges.refl _ _
    | with_reducible assumption
    | with_reducible apply OnlyChanges.ite
    | with_reducible refine OnlyChanges.each (fun _ _ => ?_) _ ?_
    | with_reducible apply bump_frame
    | with_reducible apply drawBelow_frame
    | with_reducible refine drawBelow_snd (by assumption) ?_ ?_
    | with_reducible apply traceCell_frame
    | ((with_reducible refine Part.nested ?_); rfl)
    | ((with_reducible refine Part.held ?_); rfl)
    | split
    | dsimp only
    | dsimp only [id]
theorem ringWrite_frame {qs : List Part} {s t : State} (k : Nat) (q : Word32) (n : Nat) (a : OnlyChanges qs s t) (h : ([.counters, .memory, .fresh] : List Part).all (fun p => qs.contains p) = true) :
    OnlyChanges qs s (ringWrite k q n t) := OnlyChanges.after (ringWrite_only k q n t) a h

theorem ringPut_only (g : Nat) (k : Nat) (q : Word32) (f : CopyFrame) (s : State) :
    OnlyChanges [.protect] s (ringPut g k q f s) := by
  unfold ringPut
  repeat' first
    | with_reducible exact OnlyChanges.refl _ _
    | with_reducible assumption
    | with_reducible apply OnlyChanges.ite
    | with_reducible apply modTwin_frame
    | ((with_reducible refine Part.nested ?_); rfl)
    | ((with_reducible refine Part.held ?_); rfl)
    | split
    | dsimp only
    | dsimp only [id]
theorem ringPut_frame {qs : List Part} {s t : State} (g : Nat) (k : Nat) (q : Word32) (f : CopyFrame) (a : OnlyChanges qs s t) (h : ([.protect] : List Part).all (fun p => qs.contains p) = true) :
    OnlyChanges qs s (ringPut g k q f t) := OnlyChanges.after (ringPut_only g k q f t) a h

theorem lateFrame_only (g : Nat) (k : Nat) (s : State) :
    OnlyChanges [.sill, .control, .counters, .protect, .fresh] s (lateFrame g k s) := by
  unfold lateFrame
  repeat' first
    | with_reducible exact OnlyChanges.refl _ _
    | with_reducible assumption
    | with_reducible apply OnlyChanges.ite
    | with_reducible apply bump_frame
    | with_reducible apply copyLost_frame
    | with_reducible apply modTwin_frame
    | ((with_reducible refine Part.nested ?_); rfl)
    | ((with_reducible refine Part.held ?_); rfl)
    | split
    | dsimp only
    | dsimp only [id]
theorem lateFrame_frame {qs : List Part} {s t : State} (g : Nat) (k : Nat) (a : OnlyChanges qs s t) (h : ([.sill, .control, .counters, .protect, .fresh] : List Part).all (fun p => qs.contains p) = true) :
    OnlyChanges qs s (lateFrame g k t) := OnlyChanges.after (lateFrame_only g k t) a h

theorem huntFrame_only (g : Nat) (k : Nat) (q : Option Word32) (s : State) :
    OnlyChanges [.sill, .control, .counters, .protect, .security, .fresh] s (huntFrame g k q s) := by
  unfold huntFrame
  repeat' first
    | with_reducible exact OnlyChanges.refl _ _
    | with_reducible assumption
    | with_reducible apply OnlyChanges.ite
    | with_reducible apply copyVerified_frame
    | with_reducible apply modTwin_frame
    | ((with_reducible refine Part.nested ?_); rfl)
    | ((with_reducible refine Part.held ?_); rfl)
    | split
    | dsimp only
    | dsimp only [id]
theorem huntFrame_frame {qs : List Part} {s t : State} (g : Nat) (k : Nat) (q : Option Word32) (a : OnlyChanges qs s t) (h : ([.sill, .control, .counters, .protect, .security, .fresh] : List Part).all (fun p => qs.contains p) = true) :
    OnlyChanges qs s (huntFrame g k q t) := OnlyChanges.after (huntFrame_only g k q t) a h

theorem heldFrame_only (g : Nat) (k : Nat) (q : Option Word32) (s : State) :
    OnlyChanges [.sill, .control, .counters, .protect, .fresh] s (heldFrame g k q s) := by
  unfold heldFrame
  repeat' first
    | with_reducible exact OnlyChanges.refl _ _
    | with_reducible assumption
    | with_reducible apply OnlyChanges.ite
    | with_reducible apply copyLost_frame
    | with_reducible apply modTwin_frame
    | ((with_reducible refine Part.nested ?_); rfl)
    | ((with_reducible refine Part.held ?_); rfl)
    | split
    | dsimp only
    | dsimp only [id]
theorem heldFrame_frame {qs : List Part} {s t : State} (g : Nat) (k : Nat) (q : Option Word32) (a : OnlyChanges qs s t) (h : ([.sill, .control, .counters, .protect, .fresh] : List Part).all (fun p => qs.contains p) = true) :
    OnlyChanges qs s (heldFrame g k q t) := OnlyChanges.after (heldFrame_only g k q t) a h

theorem twinFrameArrival_only (g : Nat) (k : Nat) (s : State) :
    OnlyChanges [.sill, .control, .counters, .framer, .memory, .protect, .security, .fresh] s (twinFrameArrival g k s) := by
  unfold twinFrameArrival
  repeat' first
    | with_reducible exact OnlyChanges.refl _ _
    | with_reducible assumption
    | with_reducible apply OnlyChanges.ite
    | with_reducible apply heldFrame_frame
    | with_reducible apply huntFrame_frame
    | with_reducible apply lateFrame_frame
    | with_reducible apply modFramer_frame
    | with_reducible apply modTwin_frame
    | with_reducible apply ringPut_frame
    | with_reducible apply ringWrite_frame
    | ((with_reducible refine Part.nested ?_); rfl)
    | ((with_reducible refine Part.held ?_); rfl)
    | split
    | dsimp only
    | dsimp only [id]
theorem twinFrameArrival_frame {qs : List Part} {s t : State} (g : Nat) (k : Nat) (a : OnlyChanges qs s t) (h : ([.sill, .control, .counters, .framer, .memory, .protect, .security, .fresh] : List Part).all (fun p => qs.contains p) = true) :
    OnlyChanges qs s (twinFrameArrival g k t) := OnlyChanges.after (twinFrameArrival_only g k t) a h

theorem ringRead_only (g : Nat) (k : Nat) (q : Word32) (n : Nat) (odd : List OddCell) (s : State) :
    OnlyChanges [.sill, .counters, .memory, .fresh] s (ringRead g k q n odd s) := by
  unfold ringRead
  repeat' first
    | with_reducible exact OnlyChanges.refl _ _
    | with_reducible assumption
    | with_reducible apply OnlyChanges.ite
    | with_reducible refine OnlyChanges.each (fun _ _ => ?_) _ ?_
    | with_reducible apply bump_frame
    | with_reducible apply consumed_frame
    | with_reducible apply drawBelow_frame
    | with_reducible refine drawBelow_snd (by assumption) ?_ ?_
    | with_reducible apply memLog_frame
    | ((with_reducible refine Part.nested ?_); rfl)
    | ((with_reducible refine Part.held ?_); rfl)
    | split
    | dsimp only
    | dsimp only [id]
theorem ringRead_frame {qs : List Part} {s t : State} (g : Nat) (k : Nat) (q : Word32) (n : Nat) (odd : List OddCell) (a : OnlyChanges qs s t) (h : ([.sill, .counters, .memory, .fresh] : List Part).all (fun p => qs.contains p) = true) :
    OnlyChanges qs s (ringRead g k q n odd t) := OnlyChanges.after (ringRead_only g k q n odd t) a h

theorem twinPlayout_only (g : Nat) (odd : List OddCell) (errs : List (Nat × Nat)) (s : State) :
    OnlyChanges [.sill, .control, .counters, .framer, .memory, .protect, .security, .fresh] s (twinPlayout g odd errs s) := by
  unfold twinPlayout
  repeat' first
    | with_reducible exact OnlyChanges.refl _ _
    | with_reducible assumption
    | with_reducible apply OnlyChanges.ite
    | with_reducible refine OnlyChanges.each (fun _ _ => ?_) _ ?_
    | with_reducible apply bump_frame
    | with_reducible apply drawBelow_frame
    | with_reducible refine drawBelow_snd (by assumption) ?_ ?_
    | with_reducible apply modFramer_frame
    | with_reducible apply modTwin_frame
    | with_reducible apply pathFrame_frame
    | with_reducible apply ringRead_frame
    | with_reducible apply traceItem_frame
    | ((with_reducible refine Part.nested ?_); rfl)
    | ((with_reducible refine Part.held ?_); rfl)
    | split
    | dsimp only
    | dsimp only [id]
theorem twinPlayout_frame {qs : List Part} {s t : State} (g : Nat) (odd : List OddCell) (errs : List (Nat × Nat)) (a : OnlyChanges qs s t) (h : ([.sill, .control, .counters, .framer, .memory, .protect, .security, .fresh] : List Part).all (fun p => qs.contains p) = true) :
    OnlyChanges qs s (twinPlayout g odd errs t) := OnlyChanges.after (twinPlayout_only g odd errs t) a h

theorem mirActInChange_only (level : Bool) (s : State) :
    OnlyChanges [.pins] s (mirActInChange level s) := by
  unfold mirActInChange
  repeat' first
    | with_reducible exact OnlyChanges.refl _ _
    | with_reducible assumption
    | with_reducible apply OnlyChanges.ite
    | with_reducible apply modPins_frame
    | ((with_reducible refine Part.nested ?_); rfl)
    | ((with_reducible refine Part.held ?_); rfl)
    | split
    | dsimp only
    | dsimp only [id]
theorem mirActInChange_frame {qs : List Part} {s t : State} (level : Bool) (a : OnlyChanges qs s t) (h : ([.pins] : List Part).all (fun p => qs.contains p) = true) :
    OnlyChanges qs s (mirActInChange level t) := OnlyChanges.after (mirActInChange_only level t) a h

theorem mirrorClaimStable_only (s : State) :
    OnlyChanges [.pins, .sill, .power, .control, .counters, .cal, .elements, .carrier, .client, .protect] s (mirrorClaimStable s) := by
  unfold mirrorClaimStable
  repeat' first
    | with_reducible exact OnlyChanges.refl _ _
    | with_reducible assumption
    | with_reducible apply OnlyChanges.ite
    | with_reducible refine OnlyChanges.cond (fun _ => ?_) ?_
    | with_reducible apply mirrorGo_frame
    | with_reducible apply modMirror_frame
    | ((with_reducible refine Part.nested ?_); rfl)
    | ((with_reducible refine Part.held ?_); rfl)
    | split
    | dsimp only
    | dsimp only [id]
theorem mirrorClaimStable_frame {qs : List Part} {s t : State}  (a : OnlyChanges qs s t) (h : ([.pins, .sill, .power, .control, .counters, .cal, .elements, .carrier, .client, .protect] : List Part).all (fun p => qs.contains p) = true) :
    OnlyChanges qs s (mirrorClaimStable t) := OnlyChanges.after (mirrorClaimStable_only t) a h

theorem mirrorClaimSample_only (s : State) :
    OnlyChanges [.pins, .sill, .power, .control, .counters, .cal, .elements, .carrier, .client, .protect] s (mirrorClaimSample s) := by
  unfold mirrorClaimSample
  repeat' first
    | with_reducible exact OnlyChanges.refl _ _
    | with_reducible assumption
    | with_reducible apply OnlyChanges.ite
    | with_reducible refine OnlyChanges.cond (fun _ => ?_) ?_
    | with_reducible apply mirrorGo_frame
    | with_reducible apply modMirror_frame
    | ((with_reducible refine Part.nested ?_); rfl)
    | ((with_reducible refine Part.held ?_); rfl)
    | split
    | dsimp only
    | dsimp only [id]
theorem mirrorClaimSample_frame {qs : List Part} {s t : State}  (a : OnlyChanges qs s t) (h : ([.pins, .sill, .power, .control, .counters, .cal, .elements, .carrier, .client, .protect] : List Part).all (fun p => qs.contains p) = true) :
    OnlyChanges qs s (mirrorClaimSample t) := OnlyChanges.after (mirrorClaimSample_only t) a h

theorem mirrorTieResample_only (s : State) :
    OnlyChanges [.pins, .sill, .power, .control, .counters, .cal, .elements, .carrier, .client, .protect] s (mirrorTieResample s) := by
  unfold mirrorTieResample
  repeat' first
    | with_reducible exact OnlyChanges.refl _ _
    | with_reducible assumption
    | with_reducible apply OnlyChanges.ite
    | with_reducible refine OnlyChanges.cond (fun _ => ?_) ?_
    | with_reducible apply mirrorConflict_frame
    | with_reducible apply mirrorGo_frame
    | ((with_reducible refine Part.nested ?_); rfl)
    | ((with_reducible refine Part.held ?_); rfl)
    | split
    | dsimp only
    | dsimp only [id]
theorem mirrorTieResample_frame {qs : List Part} {s t : State}  (a : OnlyChanges qs s t) (h : ([.pins, .sill, .power, .control, .counters, .cal, .elements, .carrier, .client, .protect] : List Part).all (fun p => qs.contains p) = true) :
    OnlyChanges qs s (mirrorTieResample t) := OnlyChanges.after (mirrorTieResample_only t) a h

theorem mirrorHoldoffExpiry_only (s : State) :
    OnlyChanges [.protect] s (mirrorHoldoffExpiry s) := by
  unfold mirrorHoldoffExpiry
  repeat' first
    | with_reducible exact OnlyChanges.refl _ _
    | with_reducible assumption
    | with_reducible apply OnlyChanges.ite
    | with_reducible apply modMirror_frame
    | ((with_reducible refine Part.nested ?_); rfl)
    | ((with_reducible refine Part.held ?_); rfl)
    | split
    | dsimp only
    | dsimp only [id]
theorem mirrorHoldoffExpiry_frame {qs : List Part} {s t : State}  (a : OnlyChanges qs s t) (h : ([.protect] : List Part).all (fun p => qs.contains p) = true) :
    OnlyChanges qs s (mirrorHoldoffExpiry t) := OnlyChanges.after (mirrorHoldoffExpiry_only t) a h

theorem mirrorLosRelease_only (s : State) :
    OnlyChanges [.protect] s (mirrorLosRelease s) := by
  unfold mirrorLosRelease
  repeat' first
    | with_reducible exact OnlyChanges.refl _ _
    | with_reducible assumption
    | with_reducible apply OnlyChanges.ite
    | with_reducible refine OnlyChanges.cond (fun _ => ?_) ?_
    | with_reducible apply mirrorRelease_frame
    | ((with_reducible refine Part.nested ?_); rfl)
    | ((with_reducible refine Part.held ?_); rfl)
    | split
    | dsimp only
    | dsimp only [id]
theorem mirrorLosRelease_frame {qs : List Part} {s t : State}  (a : OnlyChanges qs s t) (h : ([.protect] : List Part).all (fun p => qs.contains p) = true) :
    OnlyChanges qs s (mirrorLosRelease t) := OnlyChanges.after (mirrorLosRelease_only t) a h

theorem mirrorReleaseDeassert_only (s : State) :
    OnlyChanges [.pins, .sill, .power, .control, .counters, .cal, .elements, .carrier, .client, .protect] s (mirrorReleaseDeassert s) := by
  unfold mirrorReleaseDeassert
  repeat' first
    | with_reducible exact OnlyChanges.refl _ _
    | with_reducible assumption
    | with_reducible apply OnlyChanges.ite
    | with_reducible apply mirrorGo_frame
    | ((with_reducible refine Part.nested ?_); rfl)
    | ((with_reducible refine Part.held ?_); rfl)
    | split
    | dsimp only
    | dsimp only [id]
theorem mirrorReleaseDeassert_frame {qs : List Part} {s t : State}  (a : OnlyChanges qs s t) (h : ([.pins, .sill, .power, .control, .counters, .cal, .elements, .carrier, .client, .protect] : List Part).all (fun p => qs.contains p) = true) :
    OnlyChanges qs s (mirrorReleaseDeassert t) := OnlyChanges.after (mirrorReleaseDeassert_only t) a h

theorem braceHeartbeatTx_only (s : State) :
    OnlyChanges [.domain] s (braceHeartbeatTx s) := by
  unfold braceHeartbeatTx
  repeat' first
    | with_reducible exact OnlyChanges.refl _ _
    | with_reducible assumption
    | with_reducible apply OnlyChanges.ite
    | with_reducible refine OnlyChanges.cond (fun _ => ?_) ?_
    | with_reducible apply tenonPush_frame
    | ((with_reducible refine Part.nested ?_); rfl)
    | ((with_reducible refine Part.held ?_); rfl)
    | split
    | dsimp only
    | dsimp only [id]
theorem braceHeartbeatTx_frame {qs : List Part} {s t : State}  (a : OnlyChanges qs s t) (h : ([.domain] : List Part).all (fun p => qs.contains p) = true) :
    OnlyChanges qs s (braceHeartbeatTx t) := OnlyChanges.after (braceHeartbeatTx_only t) a h

theorem braceLink_only (up : Bool) (s : State) :
    OnlyChanges [.sill, .control, .counters, .protect] s (braceLink up s) := by
  unfold braceLink
  repeat' first
    | with_reducible exact OnlyChanges.refl _ _
    | with_reducible assumption
    | with_reducible apply OnlyChanges.ite
    | with_reducible apply modMirror_frame
    | with_reducible apply raise_frame
    | ((with_reducible refine Part.nested ?_); rfl)
    | ((with_reducible refine Part.held ?_); rfl)
    | split
    | dsimp only
    | dsimp only [id]
theorem braceLink_frame {qs : List Part} {s t : State} (up : Bool) (a : OnlyChanges qs s t) (h : ([.sill, .control, .counters, .protect] : List Part).all (fun p => qs.contains p) = true) :
    OnlyChanges qs s (braceLink up t) := OnlyChanges.after (braceLink_only up t) a h

theorem braceHeartbeatRx_only (x0 : Heartbeat) (s : State) :
    OnlyChanges [.sill, .control, .counters, .protect] s (braceHeartbeatRx x0 s) := by
  unfold braceHeartbeatRx
  repeat' first
    | with_reducible exact OnlyChanges.refl _ _
    | with_reducible assumption
    | with_reducible apply OnlyChanges.ite
    | with_reducible refine OnlyChanges.cond (fun _ => ?_) ?_
    | with_reducible apply braceLink_frame
    | with_reducible apply judgeConflicts_frame
    | with_reducible apply modMirror_frame
    | ((with_reducible refine Part.nested ?_); rfl)
    | ((with_reducible refine Part.held ?_); rfl)
    | split
    | dsimp only
    | dsimp only [id]
theorem braceHeartbeatRx_frame {qs : List Part} {s t : State} (x0 : Heartbeat) (a : OnlyChanges qs s t) (h : ([.sill, .control, .counters, .protect] : List Part).all (fun p => qs.contains p) = true) :
    OnlyChanges qs s (braceHeartbeatRx x0 t) := OnlyChanges.after (braceHeartbeatRx_only x0 t) a h

theorem braceHeartbeatMissed_only (s : State) :
    OnlyChanges [.counters, .protect] s (braceHeartbeatMissed s) := by
  unfold braceHeartbeatMissed
  repeat' first
    | with_reducible exact OnlyChanges.refl _ _
    | with_reducible assumption
    | with_reducible apply OnlyChanges.ite
    | with_reducible refine OnlyChanges.cond (fun _ => ?_) ?_
    | with_reducible apply bump_frame
    | with_reducible apply modMirror_frame
    | ((with_reducible refine Part.nested ?_); rfl)
    | ((with_reducible refine Part.held ?_); rfl)
    | split
    | dsimp only
    | dsimp only [id]
theorem braceHeartbeatMissed_frame {qs : List Part} {s t : State}  (a : OnlyChanges qs s t) (h : ([.counters, .protect] : List Part).all (fun p => qs.contains p) = true) :
    OnlyChanges qs s (braceHeartbeatMissed t) := OnlyChanges.after (braceHeartbeatMissed_only t) a h

theorem braceLinkDown_only (s : State) :
    OnlyChanges [.sill, .control, .counters, .protect] s (braceLinkDown s) := by
  unfold braceLinkDown
  repeat' first
    | with_reducible exact OnlyChanges.refl _ _
    | with_reducible assumption
    | with_reducible apply OnlyChanges.ite
    | with_reducible refine OnlyChanges.cond (fun _ => ?_) ?_
    | with_reducible apply braceLink_frame
    | with_reducible apply modMirror_frame
    | ((with_reducible refine Part.nested ?_); rfl)
    | ((with_reducible refine Part.held ?_); rfl)
    | split
    | dsimp only
    | dsimp only [id]
theorem braceLinkDown_frame {qs : List Part} {s t : State}  (a : OnlyChanges qs s t) (h : ([.sill, .control, .counters, .protect] : List Part).all (fun p => qs.contains p) = true) :
    OnlyChanges qs s (braceLinkDown t) := OnlyChanges.after (braceLinkDown_only t) a h

theorem copyStarts_only (x0 : Nat) (s : State) :
    OnlyChanges [.protect] s (copyStarts x0 s) := by
  unfold copyStarts
  repeat' first
    | with_reducible exact OnlyChanges.refl _ _
    | with_reducible assumption
    | with_reducible apply OnlyChanges.ite
    | with_reducible apply framerGained_frame
    | ((with_reducible refine Part.nested ?_); rfl)
    | ((with_reducible refine Part.held ?_); rfl)
    | split
    | dsimp only
    | dsimp only [id]
theorem copyStarts_frame {qs : List Part} {s t : State} (x0 : Nat) (a : OnlyChanges qs s t) (h : ([.protect] : List Part).all (fun p => qs.contains p) = true) :
    OnlyChanges qs s (copyStarts x0 t) := OnlyChanges.after (copyStarts_only x0 t) a h

theorem pathFresh_only (x0 : Nat) (s : State) :
    OnlyChanges [.framer] s (pathFresh x0 s) := by
  unfold pathFresh
  repeat' first
    | with_reducible exact OnlyChanges.refl _ _
    | with_reducible assumption
    | with_reducible apply OnlyChanges.ite
    | with_reducible apply modFramer_frame
    | ((with_reducible refine Part.nested ?_); rfl)
    | ((with_reducible refine Part.held ?_); rfl)
    | split
    | dsimp only
    | dsimp only [id]
theorem pathFresh_frame {qs : List Part} {s t : State} (x0 : Nat) (a : OnlyChanges qs s t) (h : ([.framer] : List Part).all (fun p => qs.contains p) = true) :
    OnlyChanges qs s (pathFresh x0 t) := OnlyChanges.after (pathFresh_only x0 t) a h

theorem twinDisable_only (g : Nat) (s : State) :
    OnlyChanges [.sill, .control, .counters, .framer, .memory, .protect, .fresh] s (twinDisable g s) := by
  unfold twinDisable
  repeat' first
    | with_reducible exact OnlyChanges.refl _ _
    | with_reducible assumption
    | with_reducible apply OnlyChanges.ite
    | with_reducible refine OnlyChanges.each (fun _ _ => ?_) _ ?_
    | with_reducible apply bump_frame
    | with_reducible apply modFramer_frame
    | with_reducible apply modTwin_frame
    | with_reducible apply pathFresh_frame
    | with_reducible apply releaseDeskew_frame
    | with_reducible apply twinEvent_frame
    | ((with_reducible refine Part.nested ?_); rfl)
    | ((with_reducible refine Part.held ?_); rfl)
    | split
    | dsimp only
    | dsimp only [id]
theorem twinDisable_frame {qs : List Part} {s t : State} (g : Nat) (a : OnlyChanges qs s t) (h : ([.sill, .control, .counters, .framer, .memory, .protect, .fresh] : List Part).all (fun p => qs.contains p) = true) :
    OnlyChanges qs s (twinDisable g t) := OnlyChanges.after (twinDisable_only g t) a h

theorem twinEnable_only (g : Nat) (x1 : Nat) (b : Nat) (q : Request) (s : State) :
    OnlyChanges [.sill, .control, .counters, .framer, .memory, .protect, .fresh] s (twinEnable g x1 b q s) := by
  unfold twinEnable
  repeat' first
    | with_reducible exact OnlyChanges.refl _ _
    | with_reducible assumption
    | with_reducible apply OnlyChanges.ite
    | with_reducible apply copyStarts_frame
    | with_reducible apply modFramer_frame
    | with_reducible apply modTwin_frame
    | with_reducible apply pathFresh_frame
    | with_reducible apply reserveDeskew_frame
    | with_reducible apply setDefects_frame
    | ((with_reducible refine Part.nested ?_); rfl)
    | ((with_reducible refine Part.held ?_); rfl)
    | split
    | dsimp only
    | dsimp only [id]
theorem twinEnable_frame {qs : List Part} {s t : State} (g : Nat) (x1 : Nat) (b : Nat) (q : Request) (a : OnlyChanges qs s t) (h : ([.sill, .control, .counters, .framer, .memory, .protect, .fresh] : List Part).all (fun p => qs.contains p) = true) :
    OnlyChanges qs s (twinEnable g x1 b q t) := OnlyChanges.after (twinEnable_only g x1 b q t) a h

theorem protectSetTwin_only (q : Request) (s : State) :
    ReplyChanges [.sill, .control, .counters, .framer, .memory, .protect, .fresh] s (protectSetTwin q s) := by
  unfold protectSetTwin
  repeat' first
    | with_reducible exact OnlyChanges.refl _ _
    | with_reducible assumption
    | with_reducible apply ReplyChanges.checked
    | with_reducible apply ReplyChanges.require
    | with_reducible apply ReplyChanges.ite
    | with_reducible apply ReplyChanges.okay
    | with_reducible apply ReplyChanges.okWith
    | with_reducible refine ReplyChanges.okThen ?_ (fun _ => ?_)
    | with_reducible apply ReplyChanges.refuse
    | with_reducible apply ReplyChanges.reject
    | with_reducible refine ReplyChanges.done _ _ ?_ (fun _ => ?_)
    | with_reducible apply ReplyChanges.later
    | with_reducible apply OnlyChanges.ite
    | with_reducible apply modTwin_frame
    | with_reducible apply twinDisable_frame
    | with_reducible apply twinEnable_frame
    | ((with_reducible refine Part.nested ?_); rfl)
    | ((with_reducible refine Part.held ?_); rfl)
    | split
    | dsimp only
    | dsimp only [id]
theorem protectSetTwin_frame {qs : List Part} {s t : State} (q : Request) (a : OnlyChanges qs s t) (h : ([.sill, .control, .counters, .framer, .memory, .protect, .fresh] : List Part).all (fun p => qs.contains p) = true) :
    ReplyChanges qs s (protectSetTwin q t) := ReplyChanges.after (protectSetTwin_only q t) a h

theorem twinRealign_only (g : Nat) (k : Nat) (s : State) :
    OnlyChanges [.sill, .control, .counters, .protect, .fresh] s (twinRealign g k s) := by
  unfold twinRealign
  repeat' first
    | with_reducible exact OnlyChanges.refl _ _
    | with_reducible assumption
    | with_reducible apply OnlyChanges.ite
    | with_reducible apply modTwin_frame
    | with_reducible apply rebaseTo_frame
    | with_reducible apply twinEvent_frame
    | ((with_reducible refine Part.nested ?_); rfl)
    | ((with_reducible refine Part.held ?_); rfl)
    | split
    | dsimp only
    | dsimp only [id]
theorem twinRealign_frame {qs : List Part} {s t : State} (g : Nat) (k : Nat) (a : OnlyChanges qs s t) (h : ([.sill, .control, .counters, .protect, .fresh] : List Part).all (fun p => qs.contains p) = true) :
    OnlyChanges qs s (twinRealign g k t) := OnlyChanges.after (twinRealign_only g k t) a h

theorem protectRealign_only (q : Request) (s : State) :
    ReplyChanges [.sill, .control, .counters, .protect, .fresh] s (protectRealign q s) := by
  unfold protectRealign
  repeat' first
    | with_reducible exact OnlyChanges.refl _ _
    | with_reducible assumption
    | with_reducible apply ReplyChanges.checked
    | with_reducible apply ReplyChanges.require
    | with_reducible apply ReplyChanges.ite
    | with_reducible apply ReplyChanges.okay
    | with_reducible apply ReplyChanges.okWith
    | with_reducible refine ReplyChanges.okThen ?_ (fun _ => ?_)
    | with_reducible apply ReplyChanges.refuse
    | with_reducible apply ReplyChanges.reject
    | with_reducible refine ReplyChanges.done _ _ ?_ (fun _ => ?_)
    | with_reducible apply ReplyChanges.later
    | with_reducible apply OnlyChanges.ite
    | with_reducible apply twinRealign_frame
    | ((with_reducible refine Part.nested ?_); rfl)
    | ((with_reducible refine Part.held ?_); rfl)
    | split
    | dsimp only
    | dsimp only [id]
theorem protectRealign_frame {qs : List Part} {s t : State} (q : Request) (a : OnlyChanges qs s t) (h : ([.sill, .control, .counters, .protect, .fresh] : List Part).all (fun p => qs.contains p) = true) :
    ReplyChanges qs s (protectRealign q t) := ReplyChanges.after (protectRealign_only q t) a h

theorem mirrorResettle_only (old : List Nat) (s : State) :
    OnlyChanges [.power, .cal, .elements, .carrier, .client] s (mirrorResettle old s) := by
  unfold mirrorResettle
  repeat' first
    | with_reducible exact OnlyChanges.refl _ _
    | with_reducible assumption
    | with_reducible apply OnlyChanges.ite
    | with_reducible refine OnlyChanges.each (fun _ _ => ?_) _ ?_
    | with_reducible apply mirrorQuads_frame
    | with_reducible apply startExit_frame
    | ((with_reducible refine Part.nested ?_); rfl)
    | ((with_reducible refine Part.held ?_); rfl)
    | split
    | dsimp only
    | dsimp only [id]
theorem mirrorResettle_frame {qs : List Part} {s t : State} (old : List Nat) (a : OnlyChanges qs s t) (h : ([.power, .cal, .elements, .carrier, .client] : List Part).all (fun p => qs.contains p) = true) :
    OnlyChanges qs s (mirrorResettle old t) := OnlyChanges.after (mirrorResettle_only old t) a h

theorem protectSetMirror_only (q : Request) (s : State) :
    ReplyChanges [.pins, .sill, .power, .control, .counters, .cal, .elements, .carrier, .client, .protect] s (protectSetMirror q s) := by
  unfold protectSetMirror
  repeat' first
    | with_reducible exact OnlyChanges.refl _ _
    | with_reducible assumption
    | with_reducible apply ReplyChanges.checked
    | with_reducible apply ReplyChanges.require
    | with_reducible apply ReplyChanges.ite
    | with_reducible apply ReplyChanges.okay
    | with_reducible apply ReplyChanges.okWith
    | with_reducible refine ReplyChanges.okThen ?_ (fun _ => ?_)
    | with_reducible apply ReplyChanges.refuse
    | with_reducible apply ReplyChanges.reject
    | with_reducible refine ReplyChanges.done _ _ ?_ (fun _ => ?_)
    | with_reducible apply ReplyChanges.later
    | with_reducible apply OnlyChanges.ite
    | with_reducible apply mirrorGo_frame
    | with_reducible apply mirrorResettle_frame
    | with_reducible apply modMirror_frame
    | ((with_reducible refine Part.nested ?_); rfl)
    | ((with_reducible refine Part.held ?_); rfl)
    | split
    | dsimp only
    | dsimp only [id]
theorem protectSetMirror_frame {qs : List Part} {s t : State} (q : Request) (a : OnlyChanges qs s t) (h : ([.pins, .sill, .power, .control, .counters, .cal, .elements, .carrier, .client, .protect] : List Part).all (fun p => qs.contains p) = true) :
    ReplyChanges qs s (protectSetMirror q t) := ReplyChanges.after (protectSetMirror_only q t) a h

theorem protectClaim_only (q : Request) (s : State) :
    ReplyChanges [.pins, .sill, .power, .control, .counters, .cal, .elements, .carrier, .client, .protect] s (protectClaim q s) := by
  unfold protectClaim
  repeat' first
    | with_reducible exact OnlyChanges.refl _ _
    | with_reducible assumption
    | with_reducible apply ReplyChanges.checked
    | with_reducible apply ReplyChanges.require
    | with_reducible apply ReplyChanges.ite
    | with_reducible apply ReplyChanges.okay
    | with_reducible apply ReplyChanges.okWith
    | with_reducible refine ReplyChanges.okThen ?_ (fun _ => ?_)
    | with_reducible apply ReplyChanges.refuse
    | with_reducible apply ReplyChanges.reject
    | with_reducible refine ReplyChanges.done _ _ ?_ (fun _ => ?_)
    | with_reducible apply ReplyChanges.later
    | with_reducible apply OnlyChanges.ite
    | with_reducible apply mirrorGo_frame
    | with_reducible apply modMirror_frame
    | with_reducible apply startRelease_frame
    | ((with_reducible refine Part.nested ?_); rfl)
    | ((with_reducible refine Part.held ?_); rfl)
    | split
    | dsimp only
    | dsimp only [id]
theorem protectClaim_frame {qs : List Part} {s t : State} (q : Request) (a : OnlyChanges qs s t) (h : ([.pins, .sill, .power, .control, .counters, .cal, .elements, .carrier, .client, .protect] : List Part).all (fun p => qs.contains p) = true) :
    ReplyChanges qs s (protectClaim q t) := ReplyChanges.after (protectClaim_only q t) a h

theorem protectGetStatus_only (q : Request) (s : State) :
    ReplyChanges [] s (protectGetStatus q s) := by
  unfold protectGetStatus
  repeat' first
    | with_reducible exact OnlyChanges.refl _ _
    | with_reducible assumption
    | with_reducible apply ReplyChanges.checked
    | with_reducible apply ReplyChanges.require
    | with_reducible apply ReplyChanges.ite
    | with_reducible apply ReplyChanges.okay
    | with_reducible apply ReplyChanges.okWith
    | with_reducible refine ReplyChanges.okThen ?_ (fun _ => ?_)
    | with_reducible apply ReplyChanges.refuse
    | with_reducible apply ReplyChanges.reject
    | with_reducible refine ReplyChanges.done _ _ ?_ (fun _ => ?_)
    | with_reducible apply ReplyChanges.later
    | with_reducible apply OnlyChanges.ite
    | ((with_reducible refine Part.nested ?_); rfl)
    | ((with_reducible refine Part.held ?_); rfl)
    | split
    | dsimp only
    | dsimp only [id]
theorem protectGetStatus_frame {qs : List Part} {s t : State} (q : Request) (a : OnlyChanges qs s t) (h : ([] : List Part).all (fun p => qs.contains p) = true) :
    ReplyChanges qs s (protectGetStatus q t) := ReplyChanges.after (protectGetStatus_only q t) a h

theorem protectGetCounts_only (q : Request) (s : State) :
    ReplyChanges [] s (protectGetCounts q s) := by
  unfold protectGetCounts
  repeat' first
    | with_reducible exact OnlyChanges.refl _ _
    | with_reducible assumption
    | with_reducible apply ReplyChanges.checked
    | with_reducible apply ReplyChanges.require
    | with_reducible apply ReplyChanges.ite
    | with_reducible apply ReplyChanges.okay
    | with_reducible apply ReplyChanges.okWith
    | with_reducible refine ReplyChanges.okThen ?_ (fun _ => ?_)
    | with_reducible apply ReplyChanges.refuse
    | with_reducible apply ReplyChanges.reject
    | with_reducible refine ReplyChanges.done _ _ ?_ (fun _ => ?_)
    | with_reducible apply ReplyChanges.later
    | with_reducible apply OnlyChanges.ite
    | ((with_reducible refine Part.nested ?_); rfl)
    | ((with_reducible refine Part.held ?_); rfl)
    | split
    | dsimp only
    | dsimp only [id]
theorem protectGetCounts_frame {qs : List Part} {s t : State} (q : Request) (a : OnlyChanges qs s t) (h : ([] : List Part).all (fun p => qs.contains p) = true) :
    ReplyChanges qs s (protectGetCounts q t) := ReplyChanges.after (protectGetCounts_only q t) a h

end Sys2Proof.Machine
end

