-- ==== Sys2Proof/Laws/FrameTiming.lean ====
section
/-! SUPPORT. What each operation of Timing.lean may change. -/

-- One theorem after another: with a thread for each, the package as one text outgrows the checker's memory limit.
set_option Elab.async false

namespace Sys2Proof.Machine

theorem measureSource_only (k : Nat) (f : Int) (s : State) :
    OnlyChanges [.sill, .control, .counters, .timing] s (measureSource k f s) := by
  unfold measureSource
  repeat' first
    | with_reducible exact OnlyChanges.refl _ _
    | with_reducible assumption
    | with_reducible apply OnlyChanges.ite
    | with_reducible apply disqualify_frame
    | with_reducible apply modSource_frame
    | ((with_reducible refine Part.nested ?_); rfl)
    | ((with_reducible refine Part.held ?_); rfl)
    | split
    | dsimp only
    | dsimp only [id]
theorem measureSource_frame {qs : List Part} {s t : State} (k : Nat) (f : Int) (a : OnlyChanges qs s t) (h : ([.sill, .control, .counters, .timing] : List Part).all (fun p => qs.contains p) = true) :
    OnlyChanges qs s (measureSource k f t) := OnlyChanges.after (measureSource_only k f t) a h

theorem refMeasurement_only (f : Vector Int 6) (phase : Int) (s : State) :
    OnlyChanges [.sill, .control, .counters, .timing] s (refMeasurement f phase s) := by
  unfold refMeasurement
  repeat' first
    | with_reducible exact OnlyChanges.refl _ _
    | with_reducible assumption
    | with_reducible apply OnlyChanges.ite
    | with_reducible refine OnlyChanges.cond (fun _ => ?_) ?_
    | with_reducible refine OnlyChanges.each (fun _ _ => ?_) _ ?_
    | with_reducible apply measureSource_frame
    | with_reducible apply modTiming_frame
    | ((with_reducible refine Part.nested ?_); rfl)
    | ((with_reducible refine Part.held ?_); rfl)
    | split
    | dsimp only
    | dsimp only [id]
theorem refMeasurement_frame {qs : List Part} {s t : State} (f : Vector Int 6) (phase : Int) (a : OnlyChanges qs s t) (h : ([.sill, .control, .counters, .timing] : List Part).all (fun p => qs.contains p) = true) :
    OnlyChanges qs s (refMeasurement f phase t) := OnlyChanges.after (refMeasurement_only f phase t) a h

theorem refPresenceRestored_only (k : Nat) (s : State) :
    OnlyChanges [.sill, .control, .counters, .timing] s (refPresenceRestored k s) := by
  unfold refPresenceRestored
  repeat' first
    | with_reducible exact OnlyChanges.refl _ _
    | with_reducible assumption
    | with_reducible apply OnlyChanges.ite
    | with_reducible refine OnlyChanges.cond (fun _ => ?_) ?_
    | with_reducible apply sourcePresent_frame
    | ((with_reducible refine Part.nested ?_); rfl)
    | ((with_reducible refine Part.held ?_); rfl)
    | split
    | dsimp only
    | dsimp only [id]
theorem refPresenceRestored_frame {qs : List Part} {s t : State} (k : Nat) (a : OnlyChanges qs s t) (h : ([.sill, .control, .counters, .timing] : List Part).all (fun p => qs.contains p) = true) :
    OnlyChanges qs s (refPresenceRestored k t) := OnlyChanges.after (refPresenceRestored_only k t) a h

theorem refDisqualified_only (k : Nat) (s : State) :
    OnlyChanges [.sill, .control, .counters, .timing] s (refDisqualified k s) := by
  unfold refDisqualified
  repeat' first
    | with_reducible exact OnlyChanges.refl _ _
    | with_reducible assumption
    | with_reducible apply OnlyChanges.ite
    | with_reducible refine OnlyChanges.cond (fun _ => ?_) ?_
    | with_reducible apply disqualify_frame
    | ((with_reducible refine Part.nested ?_); rfl)
    | ((with_reducible refine Part.held ?_); rfl)
    | split
    | dsimp only
    | dsimp only [id]
theorem refDisqualified_frame {qs : List Part} {s t : State} (k : Nat) (a : OnlyChanges qs s t) (h : ([.sill, .control, .counters, .timing] : List Part).all (fun p => qs.contains p) = true) :
    OnlyChanges qs s (refDisqualified k t) := OnlyChanges.after (refDisqualified_only k t) a h

theorem refRequalified_only (k : Nat) (s : State) :
    OnlyChanges [.sill, .control, .counters, .timing] s (refRequalified k s) := by
  unfold refRequalified
  repeat' first
    | with_reducible exact OnlyChanges.refl _ _
    | with_reducible assumption
    | with_reducible apply OnlyChanges.ite
    | with_reducible refine OnlyChanges.cond (fun _ => ?_) ?_
    | with_reducible apply modSource_frame
    | with_reducible apply qualEvent_frame
    | with_reducible apply retime_frame
    | ((with_reducible refine Part.nested ?_); rfl)
    | ((with_reducible refine Part.held ?_); rfl)
    | split
    | dsimp only
    | dsimp only [id]
theorem refRequalified_frame {qs : List Part} {s t : State} (k : Nat) (a : OnlyChanges qs s t) (h : ([.sill, .control, .counters, .timing] : List Part).all (fun p => qs.contains p) = true) :
    OnlyChanges qs s (refRequalified k t) := OnlyChanges.after (refRequalified_only k t) a h

theorem refSelChange_only (v : Nat) (s : State) :
    OnlyChanges [.pins, .sill, .control, .counters, .timing] s (refSelChange v s) := by
  unfold refSelChange
  repeat' first
    | with_reducible exact OnlyChanges.refl _ _
    | with_reducible assumption
    | with_reducible apply OnlyChanges.ite
    | with_reducible refine OnlyChanges.cond (fun _ => ?_) ?_
    | with_reducible apply modPins_frame
    | with_reducible apply senseRefSel_frame
    | ((with_reducible refine Part.nested ?_); rfl)
    | ((with_reducible refine Part.held ?_); rfl)
    | split
    | dsimp only
    | dsimp only [id]
theorem refSelChange_frame {qs : List Part} {s t : State} (v : Nat) (a : OnlyChanges qs s t) (h : ([.pins, .sill, .control, .counters, .timing] : List Part).all (fun p => qs.contains p) = true) :
    OnlyChanges qs s (refSelChange v t) := OnlyChanges.after (refSelChange_only v t) a h

theorem lockTestMet_only (s : State) :
    OnlyChanges [.sill, .control, .counters, .timing] s (lockTestMet s) := by
  unfold lockTestMet
  repeat' first
    | with_reducible exact OnlyChanges.refl _ _
    | with_reducible assumption
    | with_reducible apply OnlyChanges.ite
    | with_reducible refine OnlyChanges.cond (fun _ => ?_) ?_
    | with_reducible apply enterTiming_frame
    | ((with_reducible refine Part.nested ?_); rfl)
    | ((with_reducible refine Part.held ?_); rfl)
    | split
    | dsimp only
    | dsimp only [id]
theorem lockTestMet_frame {qs : List Part} {s t : State}  (a : OnlyChanges qs s t) (h : ([.sill, .control, .counters, .timing] : List Part).all (fun p => qs.contains p) = true) :
    OnlyChanges qs s (lockTestMet t) := OnlyChanges.after (lockTestMet_only t) a h

theorem dcoUpdate_only (loop : Int) (s : State) :
    OnlyChanges [.timing] s (dcoUpdate loop s) := by
  unfold dcoUpdate
  repeat' first
    | with_reducible exact OnlyChanges.refl _ _
    | with_reducible assumption
    | with_reducible apply OnlyChanges.ite
    | with_reducible refine OnlyChanges.cond (fun _ => ?_) ?_
    | with_reducible apply modTiming_frame
    | ((with_reducible refine Part.nested ?_); rfl)
    | ((with_reducible refine Part.held ?_); rfl)
    | split
    | dsimp only
    | dsimp only [id]
theorem dcoUpdate_frame {qs : List Part} {s t : State} (loop : Int) (a : OnlyChanges qs s t) (h : ([.timing] : List Part).all (fun p => qs.contains p) = true) :
    OnlyChanges qs s (dcoUpdate loop t) := OnlyChanges.after (dcoUpdate_only loop t) a h

theorem todEvent_only (mode : Nat) (result : Nat) (change : Int) (s : State) :
    OnlyChanges [.sill, .control, .counters] s (todEvent mode result change s) := by
  unfold todEvent
  repeat' first
    | with_reducible exact OnlyChanges.refl _ _
    | with_reducible assumption
    | with_reducible apply OnlyChanges.ite
    | with_reducible apply raise_frame
    | ((with_reducible refine Part.nested ?_); rfl)
    | ((with_reducible refine Part.held ?_); rfl)
    | split
    | dsimp only
    | dsimp only [id]
theorem todEvent_frame {qs : List Part} {s t : State} (mode : Nat) (result : Nat) (change : Int) (a : OnlyChanges qs s t) (h : ([.sill, .control, .counters] : List Part).all (fun p => qs.contains p) = true) :
    OnlyChanges qs s (todEvent mode result change t) := OnlyChanges.after (todEvent_only mode result change t) a h

theorem stepTod_only (x0 : Tod) (s : State) :
    OnlyChanges [.sill, .control, .counters, .carrier, .framer, .sched, .protect, .security, .timing, .monitor, .fresh] s (stepTod x0 s) := by
  unfold stepTod
  repeat' first
    | with_reducible exact OnlyChanges.refl _ _
    | with_reducible assumption
    | with_reducible apply OnlyChanges.ite
    | with_reducible apply modTiming_frame
    | with_reducible apply secondBoundary_frame
    | ((with_reducible refine Part.nested ?_); rfl)
    | ((with_reducible refine Part.held ?_); rfl)
    | split
    | dsimp only
    | dsimp only [id]
theorem stepTod_frame {qs : List Part} {s t : State} (x0 : Tod) (a : OnlyChanges qs s t) (h : ([.sill, .control, .counters, .carrier, .framer, .sched, .protect, .security, .timing, .monitor, .fresh] : List Part).all (fun p => qs.contains p) = true) :
    OnlyChanges qs s (stepTod x0 t) := OnlyChanges.after (stepTod_only x0 t) a h

theorem busTick_only (s : State) :
    OnlyChanges [.sill, .control, .counters, .carrier, .framer, .sched, .protect, .security, .timing, .monitor, .localNs, .fresh] s (busTick s) := by
  unfold busTick
  repeat' first
    | with_reducible exact OnlyChanges.refl _ _
    | with_reducible assumption
    | with_reducible apply OnlyChanges.ite
    | with_reducible apply modTiming_frame
    | with_reducible apply secondBoundary_frame
    | ((with_reducible refine Part.nested ?_); rfl)
    | ((with_reducible refine Part.held ?_); rfl)
    | split
    | dsimp only
    | dsimp only [id]
    | with_reducible apply set_localNs
theorem busTick_frame {qs : List Part} {s t : State}  (a : OnlyChanges qs s t) (h : ([.sill, .control, .counters, .carrier, .framer, .sched, .protect, .security, .timing, .monitor, .localNs, .fresh] : List Part).all (fun p => qs.contains p) = true) :
    OnlyChanges qs s (busTick t) := OnlyChanges.after (busTick_only t) a h

theorem busTicks_only (x0 : Nat) (s : State) :
    OnlyChanges [.sill, .control, .counters, .carrier, .framer, .sched, .protect, .security, .timing, .monitor, .localNs, .fresh] s (busTicks x0 s) := by
  induction x0 generalizing s with
  | zero => unfold busTicks; exact OnlyChanges.refl _ s
  | succ n ih => unfold busTicks; exact (busTick_only s).trans (ih _)

theorem busTicks_frame {qs : List Part} {x1 t : State} (x0 : Nat) (a : OnlyChanges qs x1 t) (h : ([.sill, .control, .counters, .carrier, .framer, .sched, .protect, .security, .timing, .monitor, .localNs, .fresh] : List Part).all (fun p => qs.contains p) = true) :
    OnlyChanges qs x1 (busTicks x0 t) := OnlyChanges.after (busTicks_only x0 t) a h

theorem sillClock_only (s : State) :
    OnlyChanges [.sill, .control, .counters, .carrier, .framer, .sched, .protect, .security, .timing, .monitor, .localNs, .fresh] s (sillClock s) := by
  unfold sillClock
  repeat' first
    | with_reducible exact OnlyChanges.refl _ _
    | with_reducible assumption
    | with_reducible apply OnlyChanges.ite
    | with_reducible apply busTicks_frame
    | with_reducible apply modTiming_frame
    | ((with_reducible refine Part.nested ?_); rfl)
    | ((with_reducible refine Part.held ?_); rfl)
    | split
    | dsimp only
    | dsimp only [id]
theorem sillClock_frame {qs : List Part} {s t : State}  (a : OnlyChanges qs s t) (h : ([.sill, .control, .counters, .carrier, .framer, .sched, .protect, .security, .timing, .monitor, .localNs, .fresh] : List Part).all (fun p => qs.contains p) = true) :
    OnlyChanges qs s (sillClock t) := OnlyChanges.after (sillClock_only t) a h

theorem todSecondBoundary_only (s : State) :
    OnlyChanges [.sill, .control, .counters, .carrier, .framer, .sched, .protect, .security, .timing, .monitor, .localNs, .fresh] s (todSecondBoundary s) := by
  unfold todSecondBoundary
  repeat' first
    | with_reducible exact OnlyChanges.refl _ _
    | with_reducible assumption
    | with_reducible apply OnlyChanges.ite
    | with_reducible refine OnlyChanges.cond (fun _ => ?_) ?_
    | with_reducible apply modTiming_frame
    | with_reducible apply secondBoundary_frame
    | ((with_reducible refine Part.nested ?_); rfl)
    | ((with_reducible refine Part.held ?_); rfl)
    | split
    | dsimp only
    | dsimp only [id]
    | with_reducible apply set_localNs
theorem todSecondBoundary_frame {qs : List Part} {s t : State}  (a : OnlyChanges qs s t) (h : ([.sill, .control, .counters, .carrier, .framer, .sched, .protect, .security, .timing, .monitor, .localNs, .fresh] : List Part).all (fun p => qs.contains p) = true) :
    OnlyChanges qs s (todSecondBoundary t) := OnlyChanges.after (todSecondBoundary_only t) a h

theorem cancelTod_only (s : State) :
    OnlyChanges [.sill, .control, .counters, .timing] s (cancelTod s) := by
  unfold cancelTod
  repeat' first
    | with_reducible exact OnlyChanges.refl _ _
    | with_reducible assumption
    | with_reducible apply OnlyChanges.ite
    | with_reducible apply modTiming_frame
    | with_reducible apply todEvent_frame
    | ((with_reducible refine Part.nested ?_); rfl)
    | ((with_reducible refine Part.held ?_); rfl)
    | split
    | dsimp only
    | dsimp only [id]
theorem cancelTod_frame {qs : List Part} {s t : State}  (a : OnlyChanges qs s t) (h : ([.sill, .control, .counters, .timing] : List Part).all (fun p => qs.contains p) = true) :
    OnlyChanges qs s (cancelTod t) := OnlyChanges.after (cancelTod_only t) a h

theorem timingSetTod_only (q : Request) (s : State) :
    ReplyChanges [.sill, .control, .counters, .carrier, .framer, .sched, .protect, .security, .timing, .monitor, .fresh] s (timingSetTod q s) := by
  unfold timingSetTod
  repeat' first
    | with_reducible exact OnlyChanges.refl _ _
    | with_reducible assumption
    | with_reducible apply ReplyChanges.checked
    | with_reducible apply ReplyChanges.require
    | with_reducible apply ReplyChanges.ite
    | with_reducible apply ReplyChanges.okay
    | with_reducible apply ReplyChanges.okWith
    | with_reducible refine ReplyChanges.okThen ?_ (fun _ => ?_)
    | with_reducible apply ReplyChanges.refuse
    | with_reducible apply ReplyChanges.reject
    | with_reducible refine ReplyChanges.done _ _ ?_ (fun _ => ?_)
    | with_reducible apply ReplyChanges.later
    | with_reducible apply OnlyChanges.ite
    | with_reducible apply cancelTod_frame
    | with_reducible apply modTiming_frame
    | with_reducible apply stepTod_frame
    | with_reducible apply todEvent_frame
    | ((with_reducible refine Part.nested ?_); rfl)
    | ((with_reducible refine Part.held ?_); rfl)
    | split
    | dsimp only
    | dsimp only [id]
theorem timingSetTod_frame {qs : List Part} {s t : State} (q : Request) (a : OnlyChanges qs s t) (h : ([.sill, .control, .counters, .carrier, .framer, .sched, .protect, .security, .timing, .monitor, .fresh] : List Part).all (fun p => qs.contains p) = true) :
    ReplyChanges qs s (timingSetTod q t) := ReplyChanges.after (timingSetTod_only q t) a h

theorem todMode2Expiry_only (s : State) :
    OnlyChanges [.sill, .control, .counters, .timing] s (todMode2Expiry s) := by
  unfold todMode2Expiry
  repeat' first
    | with_reducible exact OnlyChanges.refl _ _
    | with_reducible assumption
    | with_reducible apply OnlyChanges.ite
    | with_reducible apply modTiming_frame
    | with_reducible apply todEvent_frame
    | ((with_reducible refine Part.nested ?_); rfl)
    | ((with_reducible refine Part.held ?_); rfl)
    | split
    | dsimp only
    | dsimp only [id]
theorem todMode2Expiry_frame {qs : List Part} {s t : State}  (a : OnlyChanges qs s t) (h : ([.sill, .control, .counters, .timing] : List Part).all (fun p => qs.contains p) = true) :
    OnlyChanges qs s (todMode2Expiry t) := OnlyChanges.after (todMode2Expiry_only t) a h

theorem todSlewEnd_only (s : State) :
    OnlyChanges [.sill, .control, .counters, .carrier, .framer, .sched, .protect, .security, .timing, .monitor, .fresh] s (todSlewEnd s) := by
  unfold todSlewEnd
  repeat' first
    | with_reducible exact OnlyChanges.refl _ _
    | with_reducible assumption
    | with_reducible apply OnlyChanges.ite
    | with_reducible apply modTiming_frame
    | with_reducible apply secondBoundary_frame
    | with_reducible apply todEvent_frame
    | ((with_reducible refine Part.nested ?_); rfl)
    | ((with_reducible refine Part.held ?_); rfl)
    | split
    | dsimp only
    | dsimp only [id]
theorem todSlewEnd_frame {qs : List Part} {s t : State}  (a : OnlyChanges qs s t) (h : ([.sill, .control, .counters, .carrier, .framer, .sched, .protect, .security, .timing, .monitor, .fresh] : List Part).all (fun p => qs.contains p) = true) :
    OnlyChanges qs s (todSlewEnd t) := OnlyChanges.after (todSlewEnd_only t) a h

theorem ppsInEdge_only (highNs : Nat) (sinceNs : Nat) (lateNs : Nat) (s : State) :
    OnlyChanges [.sill, .control, .counters, .carrier, .framer, .sched, .protect, .security, .timing, .monitor, .fresh] s (ppsInEdge highNs sinceNs lateNs s) := by
  unfold ppsInEdge
  repeat' first
    | with_reducible exact OnlyChanges.refl _ _
    | with_reducible assumption
    | with_reducible apply OnlyChanges.ite
    | with_reducible apply modTiming_frame
    | with_reducible apply raise_frame
    | with_reducible apply stepTod_frame
    | with_reducible apply todEvent_frame
    | ((with_reducible refine Part.nested ?_); rfl)
    | ((with_reducible refine Part.held ?_); rfl)
    | split
    | dsimp only
    | dsimp only [id]
theorem ppsInEdge_frame {qs : List Part} {s t : State} (highNs : Nat) (sinceNs : Nat) (lateNs : Nat) (a : OnlyChanges qs s t) (h : ([.sill, .control, .counters, .carrier, .framer, .sched, .protect, .security, .timing, .monitor, .fresh] : List Part).all (fun p => qs.contains p) = true) :
    OnlyChanges qs s (ppsInEdge highNs sinceNs lateNs t) := OnlyChanges.after (ppsInEdge_only highNs sinceNs lateNs t) a h

theorem ppsOutPulse_only (s : State) :
    OnlyChanges [.pins, .power, .cal, .elements, .carrier, .client, .timing, .monitor] s (ppsOutPulse s) := by
  unfold ppsOutPulse
  repeat' first
    | with_reducible exact OnlyChanges.refl _ _
    | with_reducible assumption
    | with_reducible apply OnlyChanges.ite
    | with_reducible refine OnlyChanges.cond (fun _ => ?_) ?_
    | with_reducible apply modPins_frame
    | with_reducible apply modTiming_frame
    | with_reducible apply triggerSource_frame
    | ((with_reducible refine Part.nested ?_); rfl)
    | ((with_reducible refine Part.held ?_); rfl)
    | split
    | dsimp only
    | dsimp only [id]
theorem ppsOutPulse_frame {qs : List Part} {s t : State}  (a : OnlyChanges qs s t) (h : ([.pins, .power, .cal, .elements, .carrier, .client, .timing, .monitor] : List Part).all (fun p => qs.contains p) = true) :
    OnlyChanges qs s (ppsOutPulse t) := OnlyChanges.after (ppsOutPulse_only t) a h

theorem frameOutPulse_only (s : State) :
    OnlyChanges [.pins, .power, .cal, .elements, .carrier, .client, .timing, .monitor] s (frameOutPulse s) := by
  unfold frameOutPulse
  repeat' first
    | with_reducible exact OnlyChanges.refl _ _
    | with_reducible assumption
    | with_reducible apply OnlyChanges.ite
    | with_reducible refine OnlyChanges.cond (fun _ => ?_) ?_
    | with_reducible apply modPins_frame
    | with_reducible apply modTiming_frame
    | with_reducible apply triggerSource_frame
    | ((with_reducible refine Part.nested ?_); rfl)
    | ((with_reducible refine Part.held ?_); rfl)
    | split
    | dsimp only
    | dsimp only [id]
theorem frameOutPulse_frame {qs : List Part} {s t : State}  (a : OnlyChanges qs s t) (h : ([.pins, .power, .cal, .elements, .carrier, .client, .timing, .monitor] : List Part).all (fun p => qs.contains p) = true) :
    OnlyChanges qs s (frameOutPulse t) := OnlyChanges.after (frameOutPulse_only t) a h

theorem reconfigure_only (k : Nat) (mode : Nat) (freq : Nat) (present : Bool) (s : State) :
    OnlyChanges [.sill, .control, .counters, .timing] s (reconfigure k mode freq present s) := by
  unfold reconfigure
  repeat' first
    | with_reducible exact OnlyChanges.refl _ _
    | with_reducible assumption
    | with_reducible apply OnlyChanges.ite
    | with_reducible apply modSource_frame
    | with_reducible apply qualEvent_frame
    | with_reducible apply retime_frame
    | ((with_reducible refine Part.nested ?_); rfl)
    | ((with_reducible refine Part.held ?_); rfl)
    | split
    | dsimp only
    | dsimp only [id]
theorem reconfigure_frame {qs : List Part} {s t : State} (k : Nat) (mode : Nat) (freq : Nat) (present : Bool) (a : OnlyChanges qs s t) (h : ([.sill, .control, .counters, .timing] : List Part).all (fun p => qs.contains p) = true) :
    OnlyChanges qs s (reconfigure k mode freq present t) := OnlyChanges.after (reconfigure_only k mode freq present t) a h

theorem timingSetRefs_only (q : Request) (s : State) :
    ReplyChanges [.sill, .control, .counters, .timing] s (timingSetRefs q s) := by
  unfold timingSetRefs
  repeat' first
    | with_reducible exact OnlyChanges.refl _ _
    | with_reducible assumption
    | with_reducible apply ReplyChanges.checked
    | with_reducible apply ReplyChanges.require
    | with_reducible apply ReplyChanges.ite
    | with_reducible apply ReplyChanges.okay
    | with_reducible apply ReplyChanges.okWith
    | with_reducible refine ReplyChanges.okThen ?_ (fun _ => ?_)
    | with_reducible apply ReplyChanges.refuse
    | with_reducible apply ReplyChanges.reject
    | with_reducible refine ReplyChanges.done _ _ ?_ (fun _ => ?_)
    | with_reducible apply ReplyChanges.later
    | with_reducible apply OnlyChanges.ite
    | with_reducible refine OnlyChanges.each (fun _ _ => ?_) _ ?_
    | with_reducible apply modTiming_frame
    | with_reducible apply reconfigure_frame
    | ((with_reducible refine Part.nested ?_); rfl)
    | ((with_reducible refine Part.held ?_); rfl)
    | split
    | dsimp only
    | dsimp only [id]
theorem timingSetRefs_frame {qs : List Part} {s t : State} (q : Request) (a : OnlyChanges qs s t) (h : ([.sill, .control, .counters, .timing] : List Part).all (fun p => qs.contains p) = true) :
    ReplyChanges qs s (timingSetRefs q t) := ReplyChanges.after (timingSetRefs_only q t) a h

theorem timingSetLoop_only (q : Request) (s : State) :
    ReplyChanges [.timing] s (timingSetLoop q s) := by
  unfold timingSetLoop
  repeat' first
    | with_reducible exact OnlyChanges.refl _ _
    | with_reducible assumption
    | with_reducible apply ReplyChanges.checked
    | with_reducible apply ReplyChanges.require
    | with_reducible apply ReplyChanges.ite
    | with_reducible apply ReplyChanges.okay
    | with_reducible apply ReplyChanges.okWith
    | with_reducible refine ReplyChanges.okThen ?_ (fun _ => ?_)
    | with_reducible apply ReplyChanges.refuse
    | with_reducible apply ReplyChanges.reject
    | with_reducible refine ReplyChanges.done _ _ ?_ (fun _ => ?_)
    | with_reducible apply ReplyChanges.later
    | with_reducible apply OnlyChanges.ite
    | with_reducible apply modTiming_frame
    | ((with_reducible refine Part.nested ?_); rfl)
    | ((with_reducible refine Part.held ?_); rfl)
    | split
    | dsimp only
    | dsimp only [id]
theorem timingSetLoop_frame {qs : List Part} {s t : State} (q : Request) (a : OnlyChanges qs s t) (h : ([.timing] : List Part).all (fun p => qs.contains p) = true) :
    ReplyChanges qs s (timingSetLoop q t) := ReplyChanges.after (timingSetLoop_only q t) a h

theorem timingSetDco_only (q : Request) (s : State) :
    ReplyChanges [.timing] s (timingSetDco q s) := by
  unfold timingSetDco
  repeat' first
    | with_reducible exact OnlyChanges.refl _ _
    | with_reducible assumption
    | with_reducible apply ReplyChanges.checked
    | with_reducible apply ReplyChanges.require
    | with_reducible apply ReplyChanges.ite
    | with_reducible apply ReplyChanges.okay
    | with_reducible apply ReplyChanges.okWith
    | with_reducible refine ReplyChanges.okThen ?_ (fun _ => ?_)
    | with_reducible apply ReplyChanges.refuse
    | with_reducible apply ReplyChanges.reject
    | with_reducible refine ReplyChanges.done _ _ ?_ (fun _ => ?_)
    | with_reducible apply ReplyChanges.later
    | with_reducible apply OnlyChanges.ite
    | with_reducible apply modTiming_frame
    | ((with_reducible refine Part.nested ?_); rfl)
    | ((with_reducible refine Part.held ?_); rfl)
    | split
    | dsimp only
    | dsimp only [id]
theorem timingSetDco_frame {qs : List Part} {s t : State} (q : Request) (a : OnlyChanges qs s t) (h : ([.timing] : List Part).all (fun p => qs.contains p) = true) :
    ReplyChanges qs s (timingSetDco q t) := ReplyChanges.after (timingSetDco_only q t) a h

theorem timingSetOutputs_only (q : Request) (s : State) :
    ReplyChanges [.timing] s (timingSetOutputs q s) := by
  unfold timingSetOutputs
  repeat' first
    | with_reducible exact OnlyChanges.refl _ _
    | with_reducible assumption
    | with_reducible apply ReplyChanges.checked
    | with_reducible apply ReplyChanges.require
    | with_reducible apply ReplyChanges.ite
    | with_reducible apply ReplyChanges.okay
    | with_reducible apply ReplyChanges.okWith
    | with_reducible refine ReplyChanges.okThen ?_ (fun _ => ?_)
    | with_reducible apply ReplyChanges.refuse
    | with_reducible apply ReplyChanges.reject
    | with_reducible refine ReplyChanges.done _ _ ?_ (fun _ => ?_)
    | with_reducible apply ReplyChanges.later
    | with_reducible apply OnlyChanges.ite
    | with_reducible apply modTiming_frame
    | ((with_reducible refine Part.nested ?_); rfl)
    | ((with_reducible refine Part.held ?_); rfl)
    | split
    | dsimp only
    | dsimp only [id]
theorem timingSetOutputs_frame {qs : List Part} {s t : State} (q : Request) (a : OnlyChanges qs s t) (h : ([.timing] : List Part).all (fun p => qs.contains p) = true) :
    ReplyChanges qs s (timingSetOutputs q t) := ReplyChanges.after (timingSetOutputs_only q t) a h

theorem timingRealign_only (q : Request) (s : State) :
    ReplyChanges [.timing] s (timingRealign q s) := by
  unfold timingRealign
  repeat' first
    | with_reducible exact OnlyChanges.refl _ _
    | with_reducible assumption
    | with_reducible apply ReplyChanges.checked
    | with_reducible apply ReplyChanges.require
    | with_reducible apply ReplyChanges.ite
    | with_reducible apply ReplyChanges.okay
    | with_reducible apply ReplyChanges.okWith
    | with_reducible refine ReplyChanges.okThen ?_ (fun _ => ?_)
    | with_reducible apply ReplyChanges.refuse
    | with_reducible apply ReplyChanges.reject
    | with_reducible refine ReplyChanges.done _ _ ?_ (fun _ => ?_)
    | with_reducible apply ReplyChanges.later
    | with_reducible apply OnlyChanges.ite
    | with_reducible apply modTiming_frame
    | ((with_reducible refine Part.nested ?_); rfl)
    | ((with_reducible refine Part.held ?_); rfl)
    | split
    | dsimp only
    | dsimp only [id]
theorem timingRealign_frame {qs : List Part} {s t : State} (q : Request) (a : OnlyChanges qs s t) (h : ([.timing] : List Part).all (fun p => qs.contains p) = true) :
    ReplyChanges qs s (timingRealign q t) := ReplyChanges.after (timingRealign_only q t) a h

theorem timingGetStatus_only (q : Request) (s : State) :
    ReplyChanges [] s (timingGetStatus q s) := by
  unfold timingGetStatus
  repeat' first
    | with_reducible exact OnlyChanges.refl _ _
    | with_reducible assumption
    | with_reducible apply ReplyChanges.checked
    | with_reducible apply ReplyChanges.require
    | with_reducible apply ReplyChanges.ite
    | with_reducible apply ReplyChanges.okay
    | with_reducible apply ReplyChanges.okWith
    | with_reducible refine ReplyChanges.okThen ?_ (fun _ => ?_)
    | with_reducible apply ReplyChanges.refuse
    | with_reducible apply ReplyChanges.reject
    | with_reducible refine ReplyChanges.done _ _ ?_ (fun _ => ?_)
    | with_reducible apply ReplyChanges.later
    | with_reducible apply OnlyChanges.ite
    | ((with_reducible refine Part.nested ?_); rfl)
    | ((with_reducible refine Part.held ?_); rfl)
    | split
    | dsimp only
    | dsimp only [id]
theorem timingGetStatus_frame {qs : List Part} {s t : State} (q : Request) (a : OnlyChanges qs s t) (h : ([] : List Part).all (fun p => qs.contains p) = true) :
    ReplyChanges qs s (timingGetStatus q t) := ReplyChanges.after (timingGetStatus_only q t) a h

end Sys2Proof.Machine
end

