-- ==== Sys2Proof/Laws/FrameRequests.lean ====
section
/-! SUPPORT. What each operation of Requests.lean may change. -/

-- One theorem after another: with a thread for each, the package as one text outgrows the checker's memory limit.
set_option Elab.async false

namespace Sys2Proof.Machine

/-- The parts that commands may change. -/
def requestParts : List Part := [.pins, .sill, .power, .otp, .flash, .fw, .control, .counters, .stream, .domain, .cal, .elements, .carrier, .joinery, .framer, .client, .sched, .memory, .protect, .security, .timing, .monitor, .fresh]

/-- Each command of a family changes only those parts. -/
def FamilyChanges (cs : List (Nat × (Request → State → Reply))) : Prop :=
  ∀ e ∈ cs, ∀ q u, ReplyChanges requestParts u (e.2 q u)

theorem FamilyChanges.cons {n : Nat} {c : Request → State → Reply} {cs : List (Nat × (Request → State → Reply))}
    (a : ∀ q u, ReplyChanges requestParts u (c q u)) (b : FamilyChanges cs) : FamilyChanges ((n, c) :: cs) :=
  List.forall_mem_cons.2 ⟨a, b⟩

theorem FamilyChanges.nil : FamilyChanges [] := fun _ h => nomatch h

theorem FamilyChanges.append {cs ds : List (Nat × (Request → State → Reply))} (a : FamilyChanges cs) (b : FamilyChanges ds) :
    FamilyChanges (cs ++ ds) := List.forall_mem_append.2 ⟨a, b⟩

theorem systemCommands_change : FamilyChanges systemCommands :=
  .cons (fun q u => (systemGetIdentity_only q u).mono rfl) <|
  .cons (fun q u => (systemReset_only q u).mono rfl) <|
  .cons (fun q u => (systemGetDebugChallenge_only q u).mono rfl) <|
  .cons (fun q u => (systemDebugUnlock_only q u).mono rfl) <|
  .cons (fun q u => (systemGetEvents_only q u).mono rfl) <|
  .nil

theorem powerCommands_change : FamilyChanges powerCommands :=
  .cons (fun q u => (powerSetTolerance_only q u).mono rfl) <|
  .cons (fun q u => (powerGetState_only q u).mono rfl) <|
  .cons (fun q u => (powerGetPower_only q u).mono rfl) <|
  .cons (fun q u => (powerSetRegulator_only q u).mono rfl) <|
  .nil

theorem carrierCommands_change : FamilyChanges carrierCommands :=
  .cons (fun q u => (carrierSetFormat_only q u).mono rfl) <|
  .cons (fun q u => (carrierSetPath_only q u).mono rfl) <|
  .cons (fun q u => (carrierSetDsp_only q u).mono rfl) <|
  .cons (fun q u => (carrierSetSpectralOrder_only q u).mono rfl) <|
  .cons (fun q u => (carrierGetStatus_only q u).mono rfl) <|
  .cons (fun q u => (carrierReacquire_only q u).mono rfl) <|
  .cons (fun q u => (carrierGetConfig_only q u).mono rfl) <|
  .nil

theorem fecCommands_change : FamilyChanges fecCommands :=
  .cons (fun q u => (fecGetFrameInfo_only q u).mono rfl) <|
  .cons (fun q u => (fecGetCounts_only q u).mono rfl) <|
  .cons (fun q u => (fecSetInject_only q u).mono rfl) <|
  .nil

theorem framerCommands_change : FamilyChanges framerCommands :=
  .cons (fun q u => (framerSetTti_only q u).mono rfl) <|
  .cons (fun q u => (framerSetDegrade_only q u).mono rfl) <|
  .cons (fun q u => (framerSetAps_only q u).mono rfl) <|
  .cons (fun q u => (framerSetOverhead_only q u).mono rfl) <|
  .cons (fun q u => (framerSetMaint_only q u).mono rfl) <|
  .cons (fun q u => (framerGetStatus_only q u).mono rfl) <|
  .cons (fun q u => (framerGetOverhead_only q u).mono rfl) <|
  .cons (fun q u => (framerGetCounts_only q u).mono rfl) <|
  .nil

theorem clientCommands_change : FamilyChanges clientCommands :=
  .cons (fun q u => (clientSetClient_only q u).mono rfl) <|
  .cons (fun q u => (clientSetTrib_only q u).mono rfl) <|
  .cons (fun q u => (clientSetFlexe_only q u).mono rfl) <|
  .cons (fun q u => (clientSetClass_only q u).mono rfl) <|
  .cons (fun q u => (clientGetStatus_only q u).mono rfl) <|
  .cons (fun q u => (clientGetCounts_only q u).mono rfl) <|
  .nil

theorem schedCommands_change : FamilyChanges schedCommands :=
  .cons (fun q u => (schedSetSubscriber_only q u).mono rfl) <|
  .cons (fun q u => (schedSetQueue_only q u).mono rfl) <|
  .cons (fun q u => (schedSetGates_only q u).mono rfl) <|
  .cons (fun q u => (schedGetGates_only q u).mono rfl) <|
  .cons (fun q u => (schedGetQueue_only q u).mono rfl) <|
  .cons (fun q u => (schedSetSampling_only q u).mono rfl) <|
  .cons (fun q u => (schedGetCounts_only q u).mono rfl) <|
  .nil

theorem memoryCommands_change : FamilyChanges memoryCommands :=
  .cons (fun q u => (memorySetPolicy_only q u).mono rfl) <|
  .cons (fun q u => (memoryGetStatus_only q u).mono rfl) <|
  .cons (fun q u => (memoryGetLog_only q u).mono rfl) <|
  .cons (fun q u => (memoryRetrain_only q u).mono rfl) <|
  .cons (fun q u => (memorySetShim_only q u).mono rfl) <|
  .cons (fun q u => (memoryGetCounts_only q u).mono rfl) <|
  .nil

theorem securityCommands_change : FamilyChanges securityCommands :=
  .cons (fun q u => (securitySetOwnerRoot_only q u).mono rfl) <|
  .cons (fun q u => (securitySetOwnerRecord_only q u).mono rfl) <|
  .cons (fun q u => (securityLoadKek_only q u).mono rfl) <|
  .cons (fun q u => (securityLoadKey_only q u).mono rfl) <|
  .cons (fun q u => (securityEraseKey_only q u).mono rfl) <|
  .cons (fun q u => (securitySetChannel_only q u).mono rfl) <|
  .cons (fun q u => (securityRollover_only q u).mono rfl) <|
  .cons (fun q u => (securityBench_only q u).mono rfl) <|
  .cons (fun q u => (securitySetPolicy_only q u).mono rfl) <|
  .cons (fun q u => (securityClearAlarm_only q u).mono rfl) <|
  .cons (fun q u => (securityAttest_only q u).mono rfl) <|
  .cons (fun q u => (securityGetCert_only q u).mono rfl) <|
  .cons (fun q u => (securityGetStatus_only q u).mono rfl) <|
  .cons (fun q u => (securityGetSlots_only q u).mono rfl) <|
  .cons (fun q u => (securityGetCounts_only q u).mono rfl) <|
  .nil

theorem timingCommands_change : FamilyChanges timingCommands :=
  .cons (fun q u => (timingSetRefs_only q u).mono rfl) <|
  .cons (fun q u => (timingSetLoop_only q u).mono rfl) <|
  .cons (fun q u => (timingSetDco_only q u).mono rfl) <|
  .cons (fun q u => (timingSetTod_only q u).mono rfl) <|
  .cons (fun q u => (timingSetOutputs_only q u).mono rfl) <|
  .cons (fun q u => (timingRealign_only q u).mono rfl) <|
  .cons (fun q u => (timingGetStatus_only q u).mono rfl) <|
  .nil

theorem calCommands_change : FamilyChanges calCommands :=
  .cons (fun q u => (calGetParam_only q u).mono rfl) <|
  .cons (fun q u => (calSetOverlay_only q u).mono rfl) <|
  .cons (fun q u => (calSaveRecord_only q u).mono rfl) <|
  .cons (fun q u => (calRun_only q u).mono rfl) <|
  .cons (fun q u => (calSetPolicy_only q u).mono rfl) <|
  .cons (fun q u => (calGetStats_only q u).mono rfl) <|
  .cons (fun q u => (calSetAnalog_only q u).mono rfl) <|
  .cons (fun q u => (calSetBias_only q u).mono rfl) <|
  .cons (fun q u => (calPicSpi_only q u).mono rfl) <|
  .nil

theorem monitorCommands_change : FamilyChanges monitorCommands :=
  .cons (fun q u => (monitorSetConverter_only q u).mono rfl) <|
  .cons (fun q u => (monitorSetSequence_only q u).mono rfl) <|
  .cons (fun q u => (monitorSetDecim_only q u).mono rfl) <|
  .cons (fun q u => (monitorSetAccum_only q u).mono rfl) <|
  .cons (fun q u => (monitorTrigger_only q u).mono rfl) <|
  .cons (fun q u => (monitorInject_only q u).mono rfl) <|
  .cons (fun q u => (monitorReadSlots_only q u).mono rfl) <|
  .cons (fun q u => (monitorReadTrackers_only q u).mono rfl) <|
  .cons (fun q u => (monitorGetStatus_only q u).mono rfl) <|
  .nil

theorem countersCommands_change : FamilyChanges countersCommands :=
  .cons (fun q u => (countersSetUnit_only q u).mono rfl) <|
  .cons (fun q u => (countersRead_only q u).mono rfl) <|
  .cons (fun q u => (countersClear_only q u).mono rfl) <|
  .cons (fun q u => (countersSetTrace_only q u).mono rfl) <|
  .cons (fun q u => (countersSetTags_only q u).mono rfl) <|
  .cons (fun q u => (countersSetStream_only q u).mono rfl) <|
  .cons (fun q u => (countersGetStream_only q u).mono rfl) <|
  .nil

theorem domainCommands_change : FamilyChanges domainCommands :=
  .cons (fun q u => (domainSetPort_only q u).mono rfl) <|
  .cons (fun q u => (domainGetPorts_only q u).mono rfl) <|
  .cons (fun q u => (domainGetTopology_only q u).mono rfl) <|
  .cons (fun q u => (domainSetFloor_only q u).mono rfl) <|
  .cons (fun q u => (domainSetManager_only q u).mono rfl) <|
  .cons (fun q u => (domainDistribute_only q u).mono rfl) <|
  .cons (fun q u => (domainGetDist_only q u).mono rfl) <|
  .cons (fun q u => (domainFreePosition_only q u).mono rfl) <|
  .nil

theorem protectCommands_change : FamilyChanges protectCommands :=
  .cons (fun q u => (protectSetTwin_only q u).mono rfl) <|
  .cons (fun q u => (protectRealign_only q u).mono rfl) <|
  .cons (fun q u => (protectSetMirror_only q u).mono rfl) <|
  .cons (fun q u => (protectClaim_only q u).mono rfl) <|
  .cons (fun q u => (protectGetStatus_only q u).mono rfl) <|
  .cons (fun q u => (protectGetCounts_only q u).mono rfl) <|
  .nil

theorem firmwareCommands_change : FamilyChanges firmwareCommands :=
  .cons (fun q u => (firmwareGetInfo_only q u).mono rfl) <|
  .cons (fun q u => (firmwareStageBegin_only q u).mono rfl) <|
  .cons (fun q u => (firmwareStageWrite_only q u).mono rfl) <|
  .cons (fun q u => (firmwareStageVerify_only q u).mono rfl) <|
  .cons (fun q u => (firmwareActivate_only q u).mono rfl) <|
  .cons (fun q u => (firmwareCommit_only q u).mono rfl) <|
  .cons (fun q u => (firmwareRollback_only q u).mono rfl) <|
  .nil

theorem sessionCommands_change : FamilyChanges sessionCommands :=
  .cons (fun q u => (sessionOpen_only q u).mono rfl) <|
  .cons (fun q u => (sessionAuth_only q u).mono rfl) <|
  .cons (fun q u => (sessionClose_only q u).mono rfl) <|
  .cons (fun q u => (sessionGrantCounters_only q u).mono rfl) <|
  .cons (fun q u => (sessionGetInfo_only q u).mono rfl) <|
  .cons (fun q u => (sessionSetEvents_only q u).mono rfl) <|
  .nil

theorem requestCommands_change : FamilyChanges requestCommands :=
  (((((((((((((((systemCommands_change.append powerCommands_change).append carrierCommands_change).append fecCommands_change).append framerCommands_change).append clientCommands_change).append schedCommands_change).append memoryCommands_change).append securityCommands_change).append timingCommands_change).append calCommands_change).append monitorCommands_change).append countersCommands_change).append domainCommands_change).append protectCommands_change).append firmwareCommands_change).append sessionCommands_change

theorem runRequest_only (code : Nat) (q : Request) (s : State) :
    OnlyChanges [.pins, .sill, .power, .otp, .flash, .fw, .control, .counters, .stream, .domain, .cal, .elements, .carrier, .joinery, .framer, .client, .sched, .memory, .protect, .security, .timing, .monitor, .fresh] s (runRequest code q s) := by
  unfold runRequest
  split
  · rename_i e he
    exact checks_frame _ _ _ (requestCommands_change e (List.mem_of_find?_eq_some he) q) (OnlyChanges.refl _ _) rfl
  · exact OnlyChanges.refl _ _

theorem runRequest_frame {qs : List Part} {s t : State} (code : Nat) (q : Request) (a : OnlyChanges qs s t) (h : ([.pins, .sill, .power, .otp, .flash, .fw, .control, .counters, .stream, .domain, .cal, .elements, .carrier, .joinery, .framer, .client, .sched, .memory, .protect, .security, .timing, .monitor, .fresh] : List Part).all (fun p => qs.contains p) = true) :
    OnlyChanges qs s (runRequest code q t) := OnlyChanges.after (runRequest_only code q t) a h

end Sys2Proof.Machine
end

