-- ==== Sys2Proof/Laws/FrameIdle.lean ====
section
/-! SUPPORT. What each operation of Idle.lean may change. -/

-- One theorem after another: with a thread for each, the package as one text outgrows the checker's memory limit.
set_option Elab.async false

namespace Sys2Proof.Machine

theorem creditStalls_only (s : State) :
    OnlyChanges [.counters] s (creditStalls s) := by
  unfold creditStalls
  repeat' first
    | with_reducible exact OnlyChanges.refl _ _
    | with_reducible assumption
    | with_reducible apply OnlyChanges.ite
    | with_reducible refine OnlyChanges.each (fun _ _ => ?_) _ ?_
    | with_reducible apply bump_frame
    | ((with_reducible refine Part.nested ?_); rfl)
    | ((with_reducible refine Part.held ?_); rfl)
    | split
    | dsimp only
    | dsimp only [id]
theorem creditStalls_frame {qs : List Part} {s t : State}  (a : OnlyChanges qs s t) (h : ([.counters] : List Part).all (fun p => qs.contains p) = true) :
    OnlyChanges qs s (creditStalls t) := OnlyChanges.after (creditStalls_only t) a h

theorem idleCycle_only (s : State) :
    OnlyChanges [.sill, .control, .counters, .carrier, .framer, .sched, .protect, .security, .timing, .monitor, .localNs, .fresh] s (idleCycle s) := by
  unfold idleCycle
  repeat' first
    | with_reducible exact OnlyChanges.refl _ _
    | with_reducible assumption
    | with_reducible apply OnlyChanges.ite
    | with_reducible apply creditStalls_frame
    | with_reducible apply gateWaits_frame
    | with_reducible apply modSecurity_frame
    | with_reducible apply modSill_frame
    | with_reducible apply sillClock_frame
    | ((with_reducible refine Part.nested ?_); rfl)
    | ((with_reducible refine Part.held ?_); rfl)
    | split
    | dsimp only
    | dsimp only [id]
theorem idleCycle_frame {qs : List Part} {s t : State}  (a : OnlyChanges qs s t) (h : ([.sill, .control, .counters, .carrier, .framer, .sched, .protect, .security, .timing, .monitor, .localNs, .fresh] : List Part).all (fun p => qs.contains p) = true) :
    OnlyChanges qs s (idleCycle t) := OnlyChanges.after (idleCycle_only t) a h

theorem runPacket_only (r : RxItem) (s : State) :
    OnlyChanges [.pins, .sill, .power, .otp, .flash, .fw, .control, .counters, .stream, .domain, .cal, .elements, .carrier, .joinery, .framer, .client, .sched, .memory, .protect, .security, .timing, .monitor, .fresh] s (runPacket r s) := by
  unfold runPacket
  repeat' first
    | with_reducible exact OnlyChanges.refl _ _
    | with_reducible assumption
    | with_reducible apply OnlyChanges.ite
    | with_reducible apply rejectRaw_frame
    | with_reducible apply runRequest_frame
    | ((with_reducible refine Part.nested ?_); rfl)
    | ((with_reducible refine Part.held ?_); rfl)
    | split
    | dsimp only
    | dsimp only [id]
theorem runPacket_frame {qs : List Part} {s t : State} (r : RxItem) (a : OnlyChanges qs s t) (h : ([.pins, .sill, .power, .otp, .flash, .fw, .control, .counters, .stream, .domain, .cal, .elements, .carrier, .joinery, .framer, .client, .sched, .memory, .protect, .security, .timing, .monitor, .fresh] : List Part).all (fun p => qs.contains p) = true) :
    OnlyChanges qs s (runPacket r t) := OnlyChanges.after (runPacket_only r t) a h

theorem recordPacket_only (r : RxItem) (s : State) :
    OnlyChanges [.control] s (recordPacket r s) := by
  unfold recordPacket
  repeat' first
    | with_reducible exact OnlyChanges.refl _ _
    | with_reducible assumption
    | with_reducible apply OnlyChanges.ite
    | with_reducible apply modControl_frame
    | ((with_reducible refine Part.nested ?_); rfl)
    | ((with_reducible refine Part.held ?_); rfl)
    | split
    | dsimp only
    | dsimp only [id]
theorem recordPacket_frame {qs : List Part} {s t : State} (r : RxItem) (a : OnlyChanges qs s t) (h : ([.control] : List Part).all (fun p => qs.contains p) = true) :
    OnlyChanges qs s (recordPacket r t) := OnlyChanges.after (recordPacket_only r t) a h

theorem executeRecorded_only (e : Entry) (r : RxItem) (s : State) :
    OnlyChanges [.pins, .sill, .power, .otp, .flash, .fw, .control, .counters, .stream, .domain, .cal, .elements, .carrier, .joinery, .framer, .client, .sched, .memory, .protect, .security, .timing, .monitor, .fresh] s (executeRecorded e r s) := by
  unfold executeRecorded
  repeat' first
    | with_reducible exact OnlyChanges.refl _ _
    | with_reducible assumption
    | with_reducible apply OnlyChanges.ite
    | with_reducible apply modControl_frame
    | with_reducible apply runPacket_frame
    | ((with_reducible refine Part.nested ?_); rfl)
    | ((with_reducible refine Part.held ?_); rfl)
    | split
    | dsimp only
    | dsimp only [id]
theorem executeRecorded_frame {qs : List Part} {s t : State} (e : Entry) (r : RxItem) (a : OnlyChanges qs s t) (h : ([.pins, .sill, .power, .otp, .flash, .fw, .control, .counters, .stream, .domain, .cal, .elements, .carrier, .joinery, .framer, .client, .sched, .memory, .protect, .security, .timing, .monitor, .fresh] : List Part).all (fun p => qs.contains p) = true) :
    OnlyChanges qs s (executeRecorded e r t) := OnlyChanges.after (executeRecorded_only e r t) a h

theorem servePacket_only (i : Nat) (r : RxItem) (s : State) :
    OnlyChanges [.pins, .sill, .power, .otp, .flash, .fw, .control, .counters, .stream, .domain, .cal, .elements, .carrier, .joinery, .framer, .client, .sched, .memory, .protect, .security, .timing, .monitor, .fresh] s (servePacket i r s) := by
  unfold servePacket
  repeat' first
    | with_reducible exact OnlyChanges.refl _ _
    | with_reducible assumption
    | with_reducible apply OnlyChanges.ite
    | with_reducible apply recordPacket_frame
    | with_reducible apply runPacket_frame
    | with_reducible apply takeAt_frame
    | ((with_reducible refine Part.nested ?_); rfl)
    | ((with_reducible refine Part.held ?_); rfl)
    | split
    | dsimp only
    | dsimp only [id]
theorem servePacket_frame {qs : List Part} {s t : State} (i : Nat) (r : RxItem) (a : OnlyChanges qs s t) (h : ([.pins, .sill, .power, .otp, .flash, .fw, .control, .counters, .stream, .domain, .cal, .elements, .carrier, .joinery, .framer, .client, .sched, .memory, .protect, .security, .timing, .monitor, .fresh] : List Part).all (fun p => qs.contains p) = true) :
    OnlyChanges qs s (servePacket i r t) := OnlyChanges.after (servePacket_only i r t) a h

theorem salurnTurn_only (s : State) :
    OnlyChanges [.pins, .sill, .power, .otp, .flash, .fw, .control, .counters, .stream, .domain, .cal, .elements, .carrier, .joinery, .framer, .client, .sched, .memory, .protect, .security, .timing, .monitor, .fresh] s (salurnTurn s) := by
  unfold salurnTurn
  repeat' first
    | with_reducible exact OnlyChanges.refl _ _
    | with_reducible assumption
    | with_reducible apply OnlyChanges.ite
    | with_reducible apply executeRecorded_frame
    | with_reducible apply servePacket_frame
    | ((with_reducible refine Part.nested ?_); rfl)
    | ((with_reducible refine Part.held ?_); rfl)
    | split
    | dsimp only
    | dsimp only [id]
theorem salurnTurn_frame {qs : List Part} {s t : State}  (a : OnlyChanges qs s t) (h : ([.pins, .sill, .power, .otp, .flash, .fw, .control, .counters, .stream, .domain, .cal, .elements, .carrier, .joinery, .framer, .client, .sched, .memory, .protect, .security, .timing, .monitor, .fresh] : List Part).all (fun p => qs.contains p) = true) :
    OnlyChanges qs s (salurnTurn t) := OnlyChanges.after (salurnTurn_only t) a h

end Sys2Proof.Machine
end

