-- ==== Sys2Proof/Laws/FrameRestart.lean ====
section
/-! SUPPORT. What each operation of Restart.lean may change. -/

-- One theorem after another: with a thread for each, the package as one text outgrows the checker's memory limit.
set_option Elab.async false

namespace Sys2Proof.Machine

theorem initFailed_only (s : State) :
    OnlyChanges [.sill, .fw, .control, .counters, .stream, .domain, .security] s (initFailed s) := by
  unfold initFailed
  repeat' first
    | with_reducible exact OnlyChanges.refl _ _
    | with_reducible assumption
    | with_reducible apply OnlyChanges.ite
    | with_reducible apply bankFailed_frame
    | with_reducible apply modFw_frame
    | with_reducible apply modSill_frame
    | with_reducible apply nextBank_frame
    | ((with_reducible refine Part.nested ?_); rfl)
    | ((with_reducible refine Part.held ?_); rfl)
    | split
    | dsimp only
    | dsimp only [id]
theorem initFailed_frame {qs : List Part} {s t : State}  (a : OnlyChanges qs s t) (h : ([.sill, .fw, .control, .counters, .stream, .domain, .security] : List Part).all (fun p => qs.contains p) = true) :
    OnlyChanges qs s (initFailed t) := OnlyChanges.after (initFailed_only t) a h

theorem activatedFailed_only (s : State) :
    OnlyChanges [.sill, .fw, .control, .counters, .stream, .domain, .security] s (activatedFailed s) := by
  unfold activatedFailed
  repeat' first
    | with_reducible exact OnlyChanges.refl _ _
    | with_reducible assumption
    | with_reducible apply OnlyChanges.ite
    | with_reducible apply bankFailed_frame
    | with_reducible apply rollBack_frame
    | ((with_reducible refine Part.nested ?_); rfl)
    | ((with_reducible refine Part.held ?_); rfl)
    | split
    | dsimp only
    | dsimp only [id]
theorem activatedFailed_frame {qs : List Part} {s t : State}  (a : OnlyChanges qs s t) (h : ([.sill, .fw, .control, .counters, .stream, .domain, .security] : List Part).all (fun p => qs.contains p) = true) :
    OnlyChanges qs s (activatedFailed t) := OnlyChanges.after (activatedFailed_only t) a h

theorem initPassed_only (s : State) :
    OnlyChanges [.sill, .power, .fw, .control, .counters, .stream, .domain, .cal, .elements, .carrier, .client, .security, .timing] s (initPassed s) := by
  unfold initPassed
  repeat' first
    | with_reducible exact OnlyChanges.refl _ _
    | with_reducible assumption
    | with_reducible apply OnlyChanges.ite
    | with_reducible apply findStaged_frame
    | with_reducible apply loadFloor_frame
    | with_reducible apply loadOwnerRecord_frame
    | with_reducible apply reachRun_frame
    | ((with_reducible refine Part.nested ?_); rfl)
    | ((with_reducible refine Part.held ?_); rfl)
    | split
    | dsimp only
    | dsimp only [id]
theorem initPassed_frame {qs : List Part} {s t : State}  (a : OnlyChanges qs s t) (h : ([.sill, .power, .fw, .control, .counters, .stream, .domain, .cal, .elements, .carrier, .client, .security, .timing] : List Part).all (fun p => qs.contains p) = true) :
    OnlyChanges qs s (initPassed t) := OnlyChanges.after (initPassed_only t) a h

theorem salurnInitDone_only (ok : Bool) (s : State) :
    OnlyChanges [.sill, .power, .fw, .control, .counters, .stream, .domain, .cal, .elements, .carrier, .client, .security, .timing] s (salurnInitDone ok s) := by
  unfold salurnInitDone
  repeat' first
    | with_reducible exact OnlyChanges.refl _ _
    | with_reducible assumption
    | with_reducible apply OnlyChanges.ite
    | with_reducible apply activatedFailed_frame
    | with_reducible apply initFailed_frame
    | with_reducible apply initPassed_frame
    | ((with_reducible refine Part.nested ?_); rfl)
    | ((with_reducible refine Part.held ?_); rfl)
    | split
    | dsimp only
    | dsimp only [id]
theorem salurnInitDone_frame {qs : List Part} {s t : State} (ok : Bool) (a : OnlyChanges qs s t) (h : ([.sill, .power, .fw, .control, .counters, .stream, .domain, .cal, .elements, .carrier, .client, .security, .timing] : List Part).all (fun p => qs.contains p) = true) :
    OnlyChanges qs s (salurnInitDone ok t) := OnlyChanges.after (salurnInitDone_only ok t) a h

theorem sillReset_only (s : State) :
    OnlyChanges [.pins, .sill, .power, .fw, .control, .counters, .stream, .domain, .cal, .elements, .carrier, .joinery, .framer, .client, .sched, .memory, .protect, .security, .timing, .monitor] s (sillReset s) := by
  unfold sillReset
  repeat' first
    | with_reducible exact OnlyChanges.refl _ _
    | with_reducible assumption
    | with_reducible apply OnlyChanges.ite
    | with_reducible apply releaseHub_frame
    | with_reducible apply sillResetState_frame
    | ((with_reducible refine Part.nested ?_); rfl)
    | ((with_reducible refine Part.held ?_); rfl)
    | split
    | dsimp only
    | dsimp only [id]
theorem sillReset_frame {qs : List Part} {s t : State}  (a : OnlyChanges qs s t) (h : ([.pins, .sill, .power, .fw, .control, .counters, .stream, .domain, .cal, .elements, .carrier, .joinery, .framer, .client, .sched, .memory, .protect, .security, .timing, .monitor] : List Part).all (fun p => qs.contains p) = true) :
    OnlyChanges qs s (sillReset t) := OnlyChanges.after (sillReset_only t) a h

theorem restartUnits_only (us : List Nat) (s : State) :
    OnlyChanges [.sill, .power, .control, .counters, .stream, .domain, .cal, .elements, .carrier, .joinery, .framer, .client, .protect, .security, .timing, .fresh] s (restartUnits us s) := by
  unfold restartUnits
  repeat' first
    | with_reducible exact OnlyChanges.refl _ _
    | with_reducible assumption
    | with_reducible apply OnlyChanges.ite
    | with_reducible refine OnlyChanges.cond (fun _ => ?_) ?_
    | with_reducible refine OnlyChanges.each (fun _ _ => ?_) _ ?_
    | with_reducible apply cuRestart_frame
    | ((with_reducible refine Part.nested ?_); rfl)
    | ((with_reducible refine Part.held ?_); rfl)
    | split
    | dsimp only
    | dsimp only [id]
theorem restartUnits_frame {qs : List Part} {s t : State} (us : List Nat) (a : OnlyChanges qs s t) (h : ([.sill, .power, .control, .counters, .stream, .domain, .cal, .elements, .carrier, .joinery, .framer, .client, .protect, .security, .timing, .fresh] : List Part).all (fun p => qs.contains p) = true) :
    OnlyChanges qs s (restartUnits us t) := OnlyChanges.after (restartUnits_only us t) a h

theorem writeResetCtrl_only (w : Word32) (s : State) :
    OnlyChanges [.pins, .sill, .power, .fw, .control, .counters, .stream, .domain, .cal, .elements, .carrier, .joinery, .framer, .client, .sched, .memory, .protect, .security, .timing, .monitor, .fresh] s (writeResetCtrl w s) := by
  unfold writeResetCtrl
  repeat' first
    | with_reducible exact OnlyChanges.refl _ _
    | with_reducible assumption
    | with_reducible apply OnlyChanges.ite
    | with_reducible apply mpRestart_frame
    | with_reducible apply requestHubReset_frame
    | with_reducible apply restartUnits_frame
    | with_reducible apply sillReset_frame
    | ((with_reducible refine Part.nested ?_); rfl)
    | ((with_reducible refine Part.held ?_); rfl)
    | split
    | dsimp only
    | dsimp only [id]
theorem writeResetCtrl_frame {qs : List Part} {s t : State} (w : Word32) (a : OnlyChanges qs s t) (h : ([.pins, .sill, .power, .fw, .control, .counters, .stream, .domain, .cal, .elements, .carrier, .joinery, .framer, .client, .sched, .memory, .protect, .security, .timing, .monitor, .fresh] : List Part).all (fun p => qs.contains p) = true) :
    OnlyChanges qs s (writeResetCtrl w t) := OnlyChanges.after (writeResetCtrl_only w t) a h

theorem writeMiso_only (n : Nat) (s : State) :
    OnlyChanges [.pins] s (writeMiso n s) := by
  unfold writeMiso
  repeat' first
    | with_reducible exact OnlyChanges.refl _ _
    | with_reducible assumption
    | with_reducible apply OnlyChanges.ite
    | with_reducible apply modPins_frame
    | ((with_reducible refine Part.nested ?_); rfl)
    | ((with_reducible refine Part.held ?_); rfl)
    | split
    | dsimp only
    | dsimp only [id]
theorem writeMiso_frame {qs : List Part} {s t : State} (n : Nat) (a : OnlyChanges qs s t) (h : ([.pins] : List Part).all (fun p => qs.contains p) = true) :
    OnlyChanges qs s (writeMiso n t) := OnlyChanges.after (writeMiso_only n t) a h

theorem resetCommand_only (names : Bool) (w : Word32) (s : State) :
    OnlyChanges [.pins, .sill, .power, .fw, .control, .counters, .stream, .domain, .cal, .elements, .carrier, .joinery, .framer, .client, .sched, .memory, .protect, .security, .timing, .monitor, .fresh] s (resetCommand names w s) := by
  unfold resetCommand
  repeat' first
    | with_reducible exact OnlyChanges.refl _ _
    | with_reducible assumption
    | with_reducible apply OnlyChanges.ite
    | with_reducible refine OnlyChanges.cond (fun _ => ?_) ?_
    | with_reducible apply writeMiso_frame
    | with_reducible apply writeResetCtrl_frame
    | ((with_reducible refine Part.nested ?_); rfl)
    | ((with_reducible refine Part.held ?_); rfl)
    | split
    | dsimp only
    | dsimp only [id]
theorem resetCommand_frame {qs : List Part} {s t : State} (names : Bool) (w : Word32) (a : OnlyChanges qs s t) (h : ([.pins, .sill, .power, .fw, .control, .counters, .stream, .domain, .cal, .elements, .carrier, .joinery, .framer, .client, .sched, .memory, .protect, .security, .timing, .monitor, .fresh] : List Part).all (fun p => qs.contains p) = true) :
    OnlyChanges qs s (resetCommand names w t) := OnlyChanges.after (resetCommand_only names w t) a h

theorem sillRegisterWrite_only (addr : Nat) (data : List Byte) (s : State) :
    OnlyChanges [.pins, .sill, .power, .fw, .control, .counters, .stream, .domain, .cal, .elements, .carrier, .joinery, .framer, .client, .sched, .memory, .protect, .security, .timing, .monitor, .fresh] s (sillRegisterWrite addr data s) := by
  unfold sillRegisterWrite
  repeat' first
    | with_reducible exact OnlyChanges.refl _ _
    | with_reducible assumption
    | with_reducible apply OnlyChanges.ite
    | with_reducible refine OnlyChanges.cond (fun _ => ?_) ?_
    | with_reducible apply slWrite_frame
    | with_reducible apply writeMiso_frame
    | with_reducible apply writeResetCtrl_frame
    | ((with_reducible refine Part.nested ?_); rfl)
    | ((with_reducible refine Part.held ?_); rfl)
    | split
    | dsimp only
    | dsimp only [id]
theorem sillRegisterWrite_frame {qs : List Part} {s t : State} (addr : Nat) (data : List Byte) (a : OnlyChanges qs s t) (h : ([.pins, .sill, .power, .fw, .control, .counters, .stream, .domain, .cal, .elements, .carrier, .joinery, .framer, .client, .sched, .memory, .protect, .security, .timing, .monitor, .fresh] : List Part).all (fun p => qs.contains p) = true) :
    OnlyChanges qs s (sillRegisterWrite addr data t) := OnlyChanges.after (sillRegisterWrite_only addr data t) a h

theorem systemResetExecute_only (s : State) :
    OnlyChanges [.pins, .sill, .power, .fw, .control, .counters, .stream, .domain, .cal, .elements, .carrier, .joinery, .framer, .client, .sched, .memory, .protect, .security, .timing, .monitor, .fresh] s (systemResetExecute s) := by
  unfold systemResetExecute
  repeat' first
    | with_reducible exact OnlyChanges.refl _ _
    | with_reducible assumption
    | with_reducible apply OnlyChanges.ite
    | with_reducible apply freeEntry_frame
    | with_reducible apply modControl_frame
    | with_reducible apply mpRestart_frame
    | with_reducible apply requestHubReset_frame
    | with_reducible apply restartUnits_frame
    | ((with_reducible refine Part.nested ?_); rfl)
    | ((with_reducible refine Part.held ?_); rfl)
    | split
    | dsimp only
    | dsimp only [id]
theorem systemResetExecute_frame {qs : List Part} {s t : State}  (a : OnlyChanges qs s t) (h : ([.pins, .sill, .power, .fw, .control, .counters, .stream, .domain, .cal, .elements, .carrier, .joinery, .framer, .client, .sched, .memory, .protect, .security, .timing, .monitor, .fresh] : List Part).all (fun p => qs.contains p) = true) :
    OnlyChanges qs s (systemResetExecute t) := OnlyChanges.after (systemResetExecute_only t) a h

theorem undoEntry_only (e : Entry) (s : State) :
    OnlyChanges [.sill, .control, .counters, .cal, .elements, .sched, .security, .monitor] s (undoEntry e s) := by
  unfold undoEntry
  repeat' first
    | with_reducible exact OnlyChanges.refl _ _
    | with_reducible assumption
    | with_reducible apply OnlyChanges.ite
    | with_reducible refine OnlyChanges.each (fun _ _ => ?_) _ ?_
    | with_reducible apply modElem_frame
    | with_reducible apply modSecurity_frame
    | with_reducible apply setInjection_frame
    | with_reducible apply supersede_frame
    | ((with_reducible refine Part.nested ?_); rfl)
    | ((with_reducible refine Part.held ?_); rfl)
    | split
    | dsimp only
    | dsimp only [id]
    | with_reducible apply set_sched
theorem undoEntry_frame {qs : List Part} {s t : State} (e : Entry) (a : OnlyChanges qs s t) (h : ([.sill, .control, .counters, .cal, .elements, .sched, .security, .monitor] : List Part).all (fun p => qs.contains p) = true) :
    OnlyChanges qs s (undoEntry e t) := OnlyChanges.after (undoEntry_only e t) a h

theorem rollBackRecorded_only (e : Entry) (s : State) :
    OnlyChanges [.control, .counters, .stream, .domain, .security] s (rollBackRecorded e s) := by
  unfold rollBackRecorded
  repeat' first
    | with_reducible exact OnlyChanges.refl _ _
    | with_reducible assumption
    | with_reducible apply OnlyChanges.ite
    | with_reducible apply bump_frame
    | with_reducible apply finishEntry_frame
    | with_reducible apply modSession_frame
    | ((with_reducible refine Part.nested ?_); rfl)
    | ((with_reducible refine Part.held ?_); rfl)
    | split
    | dsimp only
    | dsimp only [id]
theorem rollBackRecorded_frame {qs : List Part} {s t : State} (e : Entry) (a : OnlyChanges qs s t) (h : ([.control, .counters, .stream, .domain, .security] : List Part).all (fun p => qs.contains p) = true) :
    OnlyChanges qs s (rollBackRecorded e t) := OnlyChanges.after (rollBackRecorded_only e t) a h

theorem resolveEntry_only (e : Entry) (s : State) :
    OnlyChanges [.sill, .control, .counters, .stream, .domain, .cal, .elements, .sched, .security, .monitor] s (resolveEntry e s) := by
  unfold resolveEntry
  repeat' first
    | with_reducible exact OnlyChanges.refl _ _
    | with_reducible assumption
    | with_reducible apply OnlyChanges.ite
    | with_reducible apply closeCollation_frame
    | with_reducible apply finishEntry_frame
    | with_reducible apply rollBackRecorded_frame
    | with_reducible apply undoEntry_frame
    | ((with_reducible refine Part.nested ?_); rfl)
    | ((with_reducible refine Part.held ?_); rfl)
    | split
    | dsimp only
    | dsimp only [id]
theorem resolveEntry_frame {qs : List Part} {s t : State} (e : Entry) (a : OnlyChanges qs s t) (h : ([.sill, .control, .counters, .stream, .domain, .cal, .elements, .sched, .security, .monitor] : List Part).all (fun p => qs.contains p) = true) :
    OnlyChanges qs s (resolveEntry e t) := OnlyChanges.after (resolveEntry_only e t) a h

theorem bootActivated_only (s : State) :
    PairChanges [.sill, .fw, .control, .counters, .stream, .domain, .security] s (bootActivated s) := by
  unfold bootActivated
  repeat' first
    | with_reducible exact OnlyChanges.refl _ _
    | with_reducible assumption
    | with_reducible apply PairChanges.ite
    | with_reducible apply OnlyChanges.ite
    | with_reducible apply bankFailed_frame
    | with_reducible apply modFw_frame
    | with_reducible apply modSill_frame
    | with_reducible apply rollBack_frame
    | ((with_reducible refine Part.nested ?_); rfl)
    | ((with_reducible refine Part.held ?_); rfl)
    | split
    | dsimp only
    | dsimp only [id]
    | with_reducible apply PairChanges.mk
theorem bootActivated_frame {qs : List Part} {s t : State}  (a : OnlyChanges qs s t) (h : ([.sill, .fw, .control, .counters, .stream, .domain, .security] : List Part).all (fun p => qs.contains p) = true) :
    OnlyChanges qs s (bootActivated t).2 := OnlyChanges.after (bootActivated_only t) a h
theorem bootActivated_pair {qs : List Part} {s t : State}  (a : OnlyChanges qs s t) (h : ([.sill, .fw, .control, .counters, .stream, .domain, .security] : List Part).all (fun p => qs.contains p) = true) :
    PairChanges qs s (bootActivated t) := OnlyChanges.after (bootActivated_only t) a h
theorem bootActivated_snd {qs : List Part} {s t u : State}  {y : _} (e : (bootActivated t) = (y, u)) (a : OnlyChanges qs s t) (h : ([.sill, .fw, .control, .counters, .stream, .domain, .security] : List Part).all (fun p => qs.contains p) = true) :
    OnlyChanges qs s u := PairChanges.snd (bootActivated_only t) e a h

theorem mpRestartComplete_only (s : State) :
    OnlyChanges [.sill, .fw, .control, .counters, .stream, .domain, .cal, .elements, .sched, .protect, .security, .monitor] s (mpRestartComplete s) := by
  unfold mpRestartComplete
  repeat' first
    | with_reducible exact OnlyChanges.refl _ _
    | with_reducible assumption
    | with_reducible apply OnlyChanges.ite
    | with_reducible refine OnlyChanges.cond (fun _ => ?_) ?_
    | with_reducible refine OnlyChanges.each (fun _ _ => ?_) _ ?_
    | with_reducible apply bootActivated_frame
    | with_reducible refine bootActivated_snd (by assumption) ?_ ?_
    | with_reducible apply modControl_frame
    | with_reducible apply raise_frame
    | with_reducible apply reportRollbacks_frame
    | with_reducible apply resolveEntry_frame
    | with_reducible apply settleIntake_frame
    | ((with_reducible refine Part.nested ?_); rfl)
    | ((with_reducible refine Part.held ?_); rfl)
    | split
    | dsimp only
    | dsimp only [id]
theorem mpRestartComplete_frame {qs : List Part} {s t : State}  (a : OnlyChanges qs s t) (h : ([.sill, .fw, .control, .counters, .stream, .domain, .cal, .elements, .sched, .protect, .security, .monitor] : List Part).all (fun p => qs.contains p) = true) :
    OnlyChanges qs s (mpRestartComplete t) := OnlyChanges.after (mpRestartComplete_only t) a h

end Sys2Proof.Machine
end

