-- ==== Sys2Proof/Laws/FrameStep.lean ====
section
/-! SUPPORT. What each operation of Step.lean may change: no word of the table spells a command, so placing one changes nothing. -/

-- One theorem after another: with a thread for each, the package as one text outgrows the checker's memory limit.
set_option Elab.async false

namespace Sys2Proof.Machine

@[simp] theorem State.withFetchWord_eq (s : State) (nbits w : Nat) : s.withFetchWord nbits w = s := rfl

end Sys2Proof.Machine
end

