-- ==== Sys2Proof/Laws/Commands.lean ====
section
/-! SUPPORT. Every command answers a next state, and what it may change. -/

-- One theorem after another: with a thread for each, the package as one text outgrows the checker's memory limit.
set_option Elab.async false

namespace Sys2Proof.Machine

theorem execSillPowerOn_frame (s : State) :
    ResultChanges [.pins, .sill, .power, .fw, .control, .counters, .stream, .domain, .cal, .elements, .carrier, .joinery, .framer, .client, .sched, .memory, .protect, .security, .timing, .monitor] s (execSillPowerOn s) :=
  ⟨_, rfl, sillPowerOn_frame  (OnlyChanges.refl _ _) rfl⟩

theorem execSillPowerLoss_frame (s : State) :
    ResultChanges [.pins, .sill, .power, .fw, .control, .counters, .stream, .domain, .cal, .elements, .carrier, .joinery, .framer, .client, .sched, .memory, .protect, .security, .timing, .monitor] s (execSillPowerLoss s) :=
  ⟨_, rfl, sillPowerLoss_frame  (OnlyChanges.refl _ _) rfl⟩

theorem execSupplyHold_frame (x : Supply) (s : State) :
    ResultChanges [.pins, .sill, .power, .fw, .control, .counters, .stream, .domain, .cal, .elements, .carrier, .joinery, .framer, .client, .sched, .memory, .protect, .security, .timing, .monitor] s (execSupplyHold x s) :=
  ⟨_, rfl, supplyHold_frame _ (OnlyChanges.refl _ _) rfl⟩

theorem execSequenceFault_frame (x : Supply) (s : State) :
    ResultChanges [.pins, .sill, .power, .fw, .control, .counters, .stream, .domain, .cal, .elements, .carrier, .joinery, .framer, .client, .sched, .memory, .protect, .security, .timing, .monitor] s (execSequenceFault x s) :=
  ⟨_, rfl, sequenceFault_frame _ (OnlyChanges.refl _ _) rfl⟩

theorem execHubPowerLoss_frame (s : State) :
    ResultChanges [.pins, .sill, .power, .fw, .control, .counters, .stream, .domain, .cal, .elements, .carrier, .joinery, .framer, .client, .sched, .memory, .protect, .security, .timing, .monitor] s (execHubPowerLoss s) :=
  ⟨_, rfl, hubPowerLoss_frame  (OnlyChanges.refl _ _) rfl⟩

theorem execSuppliesValid_frame (s : State) :
    ResultChanges [.pins, .sill, .control, .counters, .stream, .domain, .security, .timing] s (execSuppliesValid s) :=
  ⟨_, rfl, suppliesValid_frame  (OnlyChanges.refl _ _) rfl⟩

theorem execResetNFall_frame (s : State) :
    ResultChanges [.pins, .sill, .power, .fw, .control, .counters, .stream, .domain, .cal, .elements, .carrier, .joinery, .framer, .client, .sched, .memory, .protect, .security, .timing, .monitor] s (execResetNFall s) :=
  ⟨_, rfl, resetNFall_frame  (OnlyChanges.refl _ _) rfl⟩

theorem execResetNRise_frame (s : State) :
    ResultChanges [.pins, .sill] s (execResetNRise s) :=
  ⟨_, rfl, resetNRise_frame  (OnlyChanges.refl _ _) rfl⟩

theorem execStrapWindow_frame (readings : Vector Straps 16) (s : State) :
    ResultChanges [.pins, .sill, .power, .fw, .domain] s (execStrapWindow readings s) :=
  ⟨_, rfl, strapWindow_frame _ (OnlyChanges.refl _ _) rfl⟩

theorem execStrapFault_frame (s : State) :
    ResultChanges [.sill] s (execStrapFault s) :=
  ⟨_, rfl, strapFault_frame  (OnlyChanges.refl _ _) rfl⟩

theorem execBankCheck_frame (s : State) :
    ResultChanges [.sill, .fw, .control, .counters, .stream, .domain, .cal, .elements, .carrier, .security] s (execBankCheck s) :=
  ⟨_, rfl, bankCheck_frame  (OnlyChanges.refl _ _) rfl⟩

theorem execSalurnInitDone_frame (selfTest : Bool) (s : State) :
    ResultChanges [.sill, .power, .fw, .control, .counters, .stream, .domain, .cal, .elements, .carrier, .client, .security, .timing] s (execSalurnInitDone selfTest s) :=
  ⟨_, rfl, salurnInitDone_frame _ (OnlyChanges.refl _ _) rfl⟩

theorem execSillReset_frame (w : Word32) (s : State) :
    ResultChanges [.pins, .sill, .power, .fw, .control, .counters, .stream, .domain, .cal, .elements, .carrier, .joinery, .framer, .client, .sched, .memory, .protect, .security, .timing, .monitor, .fresh] s (execSillReset w s) := by
  refine ⟨_, rfl, ?_⟩
  repeat' first
    | with_reducible exact OnlyChanges.refl _ _
    | with_reducible assumption
    | with_reducible apply OnlyChanges.ite
    | with_reducible refine OnlyChanges.cond (fun _ => ?_) ?_
    | with_reducible apply resetCommand_frame
    | ((with_reducible refine Part.nested ?_); rfl)
    | split
    | dsimp only

theorem execHubResetByRegister_frame (w : Word32) (s : State) :
    ResultChanges [.pins, .sill, .power, .fw, .control, .counters, .stream, .domain, .cal, .elements, .carrier, .joinery, .framer, .client, .sched, .memory, .protect, .security, .timing, .monitor, .fresh] s (execHubResetByRegister w s) := by
  refine ⟨_, rfl, ?_⟩
  repeat' first
    | with_reducible exact OnlyChanges.refl _ _
    | with_reducible assumption
    | with_reducible apply OnlyChanges.ite
    | with_reducible refine OnlyChanges.cond (fun _ => ?_) ?_
    | with_reducible apply resetCommand_frame
    | ((with_reducible refine Part.nested ?_); rfl)
    | split
    | dsimp only

theorem execMpRestartByRegister_frame (w : Word32) (s : State) :
    ResultChanges [.pins, .sill, .power, .fw, .control, .counters, .stream, .domain, .cal, .elements, .carrier, .joinery, .framer, .client, .sched, .memory, .protect, .security, .timing, .monitor, .fresh] s (execMpRestartByRegister w s) := by
  refine ⟨_, rfl, ?_⟩
  repeat' first
    | with_reducible exact OnlyChanges.refl _ _
    | with_reducible assumption
    | with_reducible apply OnlyChanges.ite
    | with_reducible refine OnlyChanges.cond (fun _ => ?_) ?_
    | with_reducible apply resetCommand_frame
    | ((with_reducible refine Part.nested ?_); rfl)
    | split
    | dsimp only

theorem execCuRestartByRegister_frame (w : Word32) (s : State) :
    ResultChanges [.pins, .sill, .power, .fw, .control, .counters, .stream, .domain, .cal, .elements, .carrier, .joinery, .framer, .client, .sched, .memory, .protect, .security, .timing, .monitor, .fresh] s (execCuRestartByRegister w s) := by
  refine ⟨_, rfl, ?_⟩
  repeat' first
    | with_reducible exact OnlyChanges.refl _ _
    | with_reducible assumption
    | with_reducible apply OnlyChanges.ite
    | with_reducible refine OnlyChanges.cond (fun _ => ?_) ?_
    | with_reducible apply resetCommand_frame
    | ((with_reducible refine Part.nested ?_); rfl)
    | split
    | dsimp only

theorem execSillRegisterWrite_frame (addr : Byte) (data : List Byte) (s : State) :
    ResultChanges [.pins, .sill, .power, .fw, .control, .counters, .stream, .domain, .cal, .elements, .carrier, .joinery, .framer, .client, .sched, .memory, .protect, .security, .timing, .monitor, .fresh] s (execSillRegisterWrite addr data s) := by
  refine ⟨_, rfl, ?_⟩
  repeat' first
    | with_reducible exact OnlyChanges.refl _ _
    | with_reducible assumption
    | with_reducible apply OnlyChanges.ite
    | with_reducible refine OnlyChanges.cond (fun _ => ?_) ?_
    | with_reducible apply sillRegisterWrite_frame
    | ((with_reducible refine Part.nested ?_); rfl)
    | split
    | dsimp only

theorem execWatchdogExpiry_frame (s : State) :
    ResultChanges [.sill, .fw, .control, .counters, .protect] s (execWatchdogExpiry s) :=
  ⟨_, rfl, mpRestart_frame _ (OnlyChanges.refl _ _) rfl⟩

theorem execLockstepMismatch_frame (s : State) :
    ResultChanges [.sill, .fw, .control, .counters, .protect] s (execLockstepMismatch s) :=
  ⟨_, rfl, mpRestart_frame _ (OnlyChanges.refl _ _) rfl⟩

theorem execMpRestartComplete_frame (s : State) :
    ResultChanges [.sill, .fw, .control, .counters, .stream, .domain, .cal, .elements, .sched, .protect, .security, .monitor] s (execMpRestartComplete s) :=
  ⟨_, rfl, mpRestartComplete_frame  (OnlyChanges.refl _ _) rfl⟩

theorem execTrialTimeout_frame (s : State) :
    ResultChanges [.sill, .fw, .control, .counters, .protect] s (execTrialTimeout s) :=
  ⟨_, rfl, trialTimeout_frame  (OnlyChanges.refl _ _) rfl⟩

theorem execActivationEpoch_frame (s : State) :
    ResultChanges [.sill, .fw, .control, .counters, .protect] s (execActivationEpoch s) :=
  ⟨_, rfl, activationEpoch_frame  (OnlyChanges.refl _ _) rfl⟩

theorem execDebugUnlockExpiry_frame (s : State) :
    ResultChanges [.sill] s (execDebugUnlockExpiry s) :=
  ⟨_, rfl, debugUnlockExpiry_frame  (OnlyChanges.refl _ _) rfl⟩

theorem execDebugNonceExpiry_frame (s : State) :
    ResultChanges [.fw] s (execDebugNonceExpiry s) :=
  ⟨_, rfl, debugNonceExpiry_frame  (OnlyChanges.refl _ _) rfl⟩

theorem execJtagInstructionLoad_frame (j : Jtag) (s : State) :
    ResultChanges [.pins, .sill, .power, .control, .counters, .cal, .elements, .carrier, .client, .protect, .fresh] s (execJtagInstructionLoad j s) :=
  ⟨_, rfl, jtagInstructionLoad_frame _ (OnlyChanges.refl _ _) rfl⟩

theorem execCpPushPacket_frame (bytes : List Byte) (s : State) :
    ResultChanges [.pins, .sill, .control] s (execCpPushPacket bytes s) :=
  ⟨_, rfl, cpPushPacket_frame _ (OnlyChanges.refl _ _) rfl⟩

theorem execCpPull_frame (clocked : Nat) (s : State) :
    ResultChanges [.pins, .sill, .control] s (execCpPull clocked s) :=
  ⟨_, rfl, cpPull_frame _ (OnlyChanges.refl _ _) rfl⟩

theorem execCpInvalidTransaction_frame (first : Byte) (s : State) :
    ResultChanges [.pins] s (execCpInvalidTransaction first s) :=
  ⟨_, rfl, cpInvalidTransaction_frame _ (OnlyChanges.refl _ _) rfl⟩

theorem execMalformedPacket_frame (port : Port) (bytes : List Byte) (count : Nat) (s : State) :
    ResultChanges [.sill, .control, .stream, .domain] s (execMalformedPacket port bytes count s) :=
  ⟨_, rfl, malformedPacket_frame _ _ _ (OnlyChanges.refl _ _) rfl⟩

theorem execPacketForward_frame (port : Port) (p : Packet) (s : State) :
    ResultChanges [.sill, .control, .stream, .domain] s (execPacketForward port p s) :=
  ⟨_, rfl, packetForward_frame _ _ (OnlyChanges.refl _ _) rfl⟩

theorem execEventToOutgoingQueue_frame (s : State) :
    ResultChanges [.sill, .control, .counters] s (execEventToOutgoingQueue s) :=
  ⟨_, rfl, eventToOutgoingQueue_frame  (OnlyChanges.refl _ _) rfl⟩

theorem execEventsLostQueued_frame (route : Fin 3) (s : State) :
    ResultChanges [.sill, .control, .counters] s (execEventsLostQueued route s) :=
  ⟨_, rfl, flushLost_frame _ (OnlyChanges.refl _ _) rfl⟩

theorem execSessionIdleExpiry_frame (number : Nat) (s : State) :
    ResultChanges [.sill, .control, .counters] s (execSessionIdleExpiry number s) :=
  ⟨_, rfl, sessionIdleExpiry_frame _ (OnlyChanges.refl _ _) rfl⟩

theorem execSessionAuthExpiry_frame (number : Nat) (s : State) :
    ResultChanges [.sill, .control, .counters] s (execSessionAuthExpiry number s) :=
  ⟨_, rfl, sessionAuthExpiry_frame _ (OnlyChanges.refl _ _) rfl⟩

theorem execSystemResetExecute_frame (s : State) :
    ResultChanges [.pins, .sill, .power, .fw, .control, .counters, .stream, .domain, .cal, .elements, .carrier, .joinery, .framer, .client, .sched, .memory, .protect, .security, .timing, .monitor, .fresh] s (execSystemResetExecute s) :=
  ⟨_, rfl, systemResetExecute_frame  (OnlyChanges.refl _ _) rfl⟩

theorem execSystemGetIdentity_frame (q : Request) (s : State) :
    ResultChanges [.sill, .control, .counters, .stream, .domain, .security] s (execSystemGetIdentity q s) :=
  ⟨_, rfl, takeRequest_frame _ q _ (fun q u => ReplyChanges.mono (systemGetIdentity_only q u) rfl) (OnlyChanges.refl _ _) rfl⟩

theorem execSystemReset_frame (q : Request) (s : State) :
    ResultChanges [.sill, .control, .counters, .stream, .domain, .security] s (execSystemReset q s) :=
  ⟨_, rfl, takeRequest_frame _ q _ (fun q u => ReplyChanges.mono (systemReset_only q u) rfl) (OnlyChanges.refl _ _) rfl⟩

theorem execSystemGetDebugChallenge_frame (q : Request) (s : State) :
    ResultChanges [.sill, .fw, .control, .counters, .stream, .domain, .security, .fresh] s (execSystemGetDebugChallenge q s) :=
  ⟨_, rfl, takeRequest_frame _ q _ (fun q u => ReplyChanges.mono (systemGetDebugChallenge_only q u) rfl) (OnlyChanges.refl _ _) rfl⟩

theorem execSystemDebugUnlock_frame (q : Request) (s : State) :
    ResultChanges [.sill, .fw, .control, .counters, .stream, .domain, .security] s (execSystemDebugUnlock q s) :=
  ⟨_, rfl, takeRequest_frame _ q _ (fun q u => ReplyChanges.mono (systemDebugUnlock_only q u) rfl) (OnlyChanges.refl _ _) rfl⟩

theorem execSystemGetEvents_frame (q : Request) (s : State) :
    ResultChanges [.sill, .control, .counters, .stream, .domain, .security] s (execSystemGetEvents q s) :=
  ⟨_, rfl, takeRequest_frame _ q _ (fun q u => ReplyChanges.mono (systemGetEvents_only q u) rfl) (OnlyChanges.refl _ _) rfl⟩

theorem execPowerSetTolerance_frame (q : Request) (s : State) :
    ResultChanges [.sill, .power, .control, .counters, .stream, .domain, .cal, .elements, .carrier, .client, .security] s (execPowerSetTolerance q s) :=
  ⟨_, rfl, takeRequest_frame _ q _ (fun q u => ReplyChanges.mono (powerSetTolerance_only q u) rfl) (OnlyChanges.refl _ _) rfl⟩

theorem execPowerGetState_frame (q : Request) (s : State) :
    ResultChanges [.sill, .control, .counters, .stream, .domain, .security] s (execPowerGetState q s) :=
  ⟨_, rfl, takeRequest_frame _ q _ (fun q u => ReplyChanges.mono (powerGetState_only q u) rfl) (OnlyChanges.refl _ _) rfl⟩

theorem execPowerGetPower_frame (q : Request) (s : State) :
    ResultChanges [.sill, .control, .counters, .stream, .domain, .security, .fresh] s (execPowerGetPower q s) :=
  ⟨_, rfl, takeRequest_frame _ q _ (fun q u => ReplyChanges.mono (powerGetPower_only q u) rfl) (OnlyChanges.refl _ _) rfl⟩

theorem execPowerSetRegulator_frame (q : Request) (s : State) :
    ResultChanges [.sill, .power, .control, .counters, .stream, .domain, .security, .fresh] s (execPowerSetRegulator q s) :=
  ⟨_, rfl, takeRequest_frame _ q _ (fun q u => ReplyChanges.mono (powerSetRegulator_only q u) rfl) (OnlyChanges.refl _ _) rfl⟩

theorem execCarrierSetFormat_frame (q : Request) (s : State) :
    ResultChanges [.sill, .power, .control, .counters, .stream, .domain, .cal, .elements, .carrier, .joinery, .framer, .client, .protect, .security, .timing, .fresh] s (execCarrierSetFormat q s) :=
  ⟨_, rfl, takeRequest_frame _ q _ (fun q u => ReplyChanges.mono (carrierSetFormat_only q u) rfl) (OnlyChanges.refl _ _) rfl⟩

theorem execCarrierSetPath_frame (q : Request) (s : State) :
    ResultChanges [.sill, .power, .control, .counters, .stream, .domain, .cal, .elements, .carrier, .joinery, .framer, .client, .protect, .security, .timing, .fresh] s (execCarrierSetPath q s) :=
  ⟨_, rfl, takeRequest_frame _ q _ (fun q u => ReplyChanges.mono (carrierSetPath_only q u) rfl) (OnlyChanges.refl _ _) rfl⟩

theorem execCarrierSetDsp_frame (q : Request) (s : State) :
    ResultChanges [.sill, .power, .control, .counters, .stream, .domain, .cal, .elements, .carrier, .joinery, .framer, .client, .protect, .security, .timing, .fresh] s (execCarrierSetDsp q s) :=
  ⟨_, rfl, takeRequest_frame _ q _ (fun q u => ReplyChanges.mono (carrierSetDsp_only q u) rfl) (OnlyChanges.refl _ _) rfl⟩

theorem execCarrierSetSpectralOrder_frame (q : Request) (s : State) :
    ResultChanges [.sill, .power, .control, .counters, .stream, .domain, .cal, .elements, .carrier, .joinery, .framer, .client, .protect, .security, .timing, .fresh] s (execCarrierSetSpectralOrder q s) :=
  ⟨_, rfl, takeRequest_frame _ q _ (fun q u => ReplyChanges.mono (carrierSetSpectralOrder_only q u) rfl) (OnlyChanges.refl _ _) rfl⟩

theorem execCarrierGetStatus_frame (q : Request) (s : State) :
    ResultChanges [.sill, .control, .counters, .stream, .domain, .security] s (execCarrierGetStatus q s) :=
  ⟨_, rfl, takeRequest_frame _ q _ (fun q u => ReplyChanges.mono (carrierGetStatus_only q u) rfl) (OnlyChanges.refl _ _) rfl⟩

theorem execCarrierReacquire_frame (q : Request) (s : State) :
    ResultChanges [.sill, .power, .control, .counters, .stream, .domain, .cal, .elements, .carrier, .joinery, .framer, .client, .security, .timing] s (execCarrierReacquire q s) :=
  ⟨_, rfl, takeRequest_frame _ q _ (fun q u => ReplyChanges.mono (carrierReacquire_only q u) rfl) (OnlyChanges.refl _ _) rfl⟩

theorem execCarrierGetConfig_frame (q : Request) (s : State) :
    ResultChanges [.sill, .control, .counters, .stream, .domain, .security] s (execCarrierGetConfig q s) :=
  ⟨_, rfl, takeRequest_frame _ q _ (fun q u => ReplyChanges.mono (carrierGetConfig_only q u) rfl) (OnlyChanges.refl _ _) rfl⟩

theorem execFormatEpoch_frame (x0 : Fin 4) (s : State) :
    ResultChanges [.sill, .power, .control, .counters, .stream, .domain, .cal, .elements, .carrier, .joinery, .framer, .client, .protect, .security, .timing, .fresh] s (execFormatEpoch x0 s) :=
  ⟨_, rfl, formatEpoch_frame _ (OnlyChanges.refl _ _) rfl⟩

theorem execAcfFrameTx_frame (x0 : Fin 4) (clipped : Nat) (s : State) :
    ResultChanges [.sill, .power, .control, .counters, .stream, .domain, .cal, .elements, .carrier, .joinery, .framer, .client, .security, .fresh] s (execAcfFrameTx x0 clipped s) :=
  ⟨_, rfl, acfFrameTx_frame _ _ (OnlyChanges.refl _ _) rfl⟩

theorem execAcfFrameRx_frame (x0 : Fin 4) (f : AcfSeen) (s : State) :
    ResultChanges [.sill, .power, .control, .counters, .stream, .domain, .cal, .elements, .carrier, .joinery, .framer, .client, .protect, .security, .timing, .fresh] s (execAcfFrameRx x0 f s) :=
  ⟨_, rfl, acfFrameRx_frame _ _ (OnlyChanges.refl _ _) rfl⟩

theorem execAcfLossOfFrame_frame (x0 : Fin 4) (s : State) :
    ResultChanges [.sill, .control, .counters, .cal, .carrier, .joinery, .framer, .timing] s (execAcfLossOfFrame x0 s) :=
  ⟨_, rfl, acfLossOfFrame_frame _ (OnlyChanges.refl _ _) rfl⟩

theorem execLossOfSignal_frame (x : InputPower) (s : State) :
    ResultChanges [.sill, .control, .counters, .cal, .carrier, .joinery, .framer, .timing] s (execLossOfSignal x s) := by
  refine ⟨_, rfl, ?_⟩
  repeat' first
    | with_reducible exact OnlyChanges.refl _ _
    | with_reducible assumption
    | with_reducible apply OnlyChanges.ite
    | with_reducible refine OnlyChanges.cond (fun _ => ?_) ?_
    | with_reducible apply lossOfSignal_frame
    | ((with_reducible refine Part.nested ?_); rfl)
    | split
    | dsimp only

theorem execLosClear_frame (x : InputPower) (s : State) :
    ResultChanges [.carrier] s (execLosClear x s) := by
  refine ⟨_, rfl, ?_⟩
  repeat' first
    | with_reducible exact OnlyChanges.refl _ _
    | with_reducible assumption
    | with_reducible apply OnlyChanges.ite
    | with_reducible refine OnlyChanges.cond (fun _ => ?_) ?_
    | with_reducible apply losClear_frame
    | ((with_reducible refine Part.nested ?_); rfl)
    | split
    | dsimp only

theorem execLosHoldExpiry_frame (x0 : Fin 4) (s : State) :
    ResultChanges [.carrier] s (execLosHoldExpiry x0 s) :=
  ⟨_, rfl, losHoldExpiry_frame _ (OnlyChanges.refl _ _) rfl⟩

theorem execAcqStageDone_frame (x0 : Fin 4) (scores : List (Int × Nat)) (dgd : Nat) (snr : Nat) (freq : Int) (sop : Nat) (s : State) :
    ResultChanges [.sill, .control, .counters, .cal, .carrier, .joinery, .framer, .timing, .fresh] s (execAcqStageDone x0 scores dgd snr freq sop s) :=
  ⟨_, rfl, acqStageDone_frame _ _ _ _ _ _ (OnlyChanges.refl _ _) rfl⟩

theorem execAcqStageTimeout_frame (x0 : Fin 4) (s : State) :
    ResultChanges [.counters, .carrier] s (execAcqStageTimeout x0 s) :=
  ⟨_, rfl, acqStageTimeout_frame _ (OnlyChanges.refl _ _) rfl⟩

theorem execEqualiserDivergence_frame (x0 : Fin 4) (s : State) :
    ResultChanges [.sill, .control, .counters, .cal, .carrier, .joinery, .framer, .timing] s (execEqualiserDivergence x0 s) :=
  ⟨_, rfl, equaliserDivergence_frame _ (OnlyChanges.refl _ _) rfl⟩

theorem execCodewordDecoded_frame (x0 : Fin 4) (w : Decoded) (s : State) :
    ResultChanges [.counters, .carrier, .fresh] s (execCodewordDecoded x0 w s) :=
  ⟨_, rfl, codewordDecoded_frame _ _ (OnlyChanges.refl _ _) rfl⟩

theorem execJoineryFallback_frame (pair : Fin 4) (s : State) :
    ResultChanges [.sill, .control, .counters, .joinery] s (execJoineryFallback pair s) :=
  ⟨_, rfl, joineryFallback_frame _ (OnlyChanges.refl _ _) rfl⟩

theorem execJoineryJoin_frame (pair : Fin 4) (s : State) :
    ResultChanges [.sill, .control, .counters, .joinery] s (execJoineryJoin pair s) :=
  ⟨_, rfl, joineryJoin_frame _ (OnlyChanges.refl _ _) rfl⟩

theorem execDaeSuspend_frame (x0 : Fin 4) (s : State) :
    ResultChanges [.sill, .control, .counters, .carrier] s (execDaeSuspend x0 s) :=
  ⟨_, rfl, daeSuspend_frame _ (OnlyChanges.refl _ _) rfl⟩

theorem execDaeResume_frame (x0 : Fin 4) (s : State) :
    ResultChanges [.sill, .control, .counters, .carrier] s (execDaeResume x0 s) :=
  ⟨_, rfl, daeResume_frame _ (OnlyChanges.refl _ _) rfl⟩

theorem execFullCalibrationDone_frame (x0 : Fin 5) (tx : Bool) (s : State) :
    ResultChanges [.sill, .control, .counters, .stream, .domain, .cal, .elements, .carrier, .security] s (execFullCalibrationDone x0 tx s) :=
  ⟨_, rfl, fullCalibrationDone_frame _ _ (OnlyChanges.refl _ _) rfl⟩

theorem execCalRoundStart_frame (x0 : Fin 5) (s : State) :
    ResultChanges [.cal, .elements] s (execCalRoundStart x0 s) :=
  ⟨_, rfl, calRoundStart_frame _ (OnlyChanges.refl _ _) rfl⟩

theorem execCalWindowDone_frame (x0 : Fin 5) (estimates : List (Nat × Nat × Int)) (s : State) :
    ResultChanges [.sill, .control, .counters, .cal, .elements] s (execCalWindowDone x0 estimates s) :=
  ⟨_, rfl, calWindowDone_frame _ _ (OnlyChanges.refl _ _) rfl⟩

theorem execMonCalStep_frame (s : State) :
    ResultChanges [.sill, .control, .counters, .stream, .domain, .cal, .elements, .security, .monitor] s (execMonCalStep s) :=
  ⟨_, rfl, monCalStep_frame  (OnlyChanges.refl _ _) rfl⟩

theorem execBiasRampStep_frame (x0 : Fin 4) (ch : Fin 4) (limited : Bool) (s : State) :
    ResultChanges [.power, .cal, .elements, .carrier] s (execBiasRampStep x0 ch limited s) := by
  refine ⟨_, rfl, ?_⟩
  repeat' first
    | with_reducible exact OnlyChanges.refl _ _
    | with_reducible assumption
    | with_reducible apply OnlyChanges.ite
    | with_reducible refine OnlyChanges.cond (fun _ => ?_) ?_
    | with_reducible apply biasRampStep_frame
    | ((with_reducible refine Part.nested ?_); rfl)
    | split
    | dsimp only

theorem execPicInterrupt_frame (x0 : Fin 4) (highNs : Nat) (s : State) :
    ResultChanges [.sill, .control, .counters, .cal] s (execPicInterrupt x0 highNs s) :=
  ⟨_, rfl, picInterrupt_frame _ _ (OnlyChanges.refl _ _) rfl⟩

theorem execCalGetParam_frame (q : Request) (s : State) :
    ResultChanges [.sill, .control, .counters, .stream, .domain, .security] s (execCalGetParam q s) :=
  ⟨_, rfl, takeRequest_frame _ q _ (fun q u => ReplyChanges.mono (calGetParam_only q u) rfl) (OnlyChanges.refl _ _) rfl⟩

theorem execCalSetOverlay_frame (q : Request) (s : State) :
    ResultChanges [.sill, .power, .control, .counters, .stream, .domain, .cal, .elements, .carrier, .client, .security] s (execCalSetOverlay q s) :=
  ⟨_, rfl, takeRequest_frame _ q _ (fun q u => ReplyChanges.mono (calSetOverlay_only q u) rfl) (OnlyChanges.refl _ _) rfl⟩

theorem execCalSaveRecord_frame (q : Request) (s : State) :
    ResultChanges [.sill, .flash, .control, .counters, .stream, .domain, .security, .fresh] s (execCalSaveRecord q s) :=
  ⟨_, rfl, takeRequest_frame _ q _ (fun q u => ReplyChanges.mono (calSaveRecord_only q u) rfl) (OnlyChanges.refl _ _) rfl⟩

theorem execCalRun_frame (q : Request) (s : State) :
    ResultChanges [.sill, .power, .control, .counters, .stream, .domain, .cal, .elements, .carrier, .client, .security] s (execCalRun q s) :=
  ⟨_, rfl, takeRequest_frame _ q _ (fun q u => ReplyChanges.mono (calRun_only q u) rfl) (OnlyChanges.refl _ _) rfl⟩

theorem execCalSetPolicy_frame (q : Request) (s : State) :
    ResultChanges [.sill, .control, .counters, .stream, .domain, .cal, .security] s (execCalSetPolicy q s) :=
  ⟨_, rfl, takeRequest_frame _ q _ (fun q u => ReplyChanges.mono (calSetPolicy_only q u) rfl) (OnlyChanges.refl _ _) rfl⟩

theorem execCalGetStats_frame (q : Request) (s : State) :
    ResultChanges [.sill, .control, .counters, .stream, .domain, .security] s (execCalGetStats q s) :=
  ⟨_, rfl, takeRequest_frame _ q _ (fun q u => ReplyChanges.mono (calGetStats_only q u) rfl) (OnlyChanges.refl _ _) rfl⟩

theorem execCalSetAnalog_frame (q : Request) (s : State) :
    ResultChanges [.sill, .power, .control, .counters, .stream, .domain, .cal, .elements, .carrier, .client, .security] s (execCalSetAnalog q s) :=
  ⟨_, rfl, takeRequest_frame _ q _ (fun q u => ReplyChanges.mono (calSetAnalog_only q u) rfl) (OnlyChanges.refl _ _) rfl⟩

theorem execCalSetBias_frame (q : Request) (s : State) :
    ResultChanges [.sill, .power, .control, .counters, .stream, .domain, .cal, .elements, .carrier, .client, .security] s (execCalSetBias q s) :=
  ⟨_, rfl, takeRequest_frame _ q _ (fun q u => ReplyChanges.mono (calSetBias_only q u) rfl) (OnlyChanges.refl _ _) rfl⟩

theorem execCalPicSpi_frame (q : Request) (s : State) :
    ResultChanges [.sill, .power, .control, .counters, .stream, .domain, .cal, .elements, .carrier, .client, .security, .fresh] s (execCalPicSpi q s) :=
  ⟨_, rfl, takeRequest_frame _ q _ (fun q u => ReplyChanges.mono (calPicSpi_only q u) rfl) (OnlyChanges.refl _ _) rfl⟩

theorem execDomainHoldExpiry_frame (cls : Nat) (idx : Nat) (s : State) :
    ResultChanges [.sill, .power, .control, .counters, .stream, .domain, .cal, .elements, .carrier, .memory, .fresh] s (execDomainHoldExpiry cls idx s) :=
  ⟨_, rfl, domainHoldExpiry_frame _ _ (OnlyChanges.refl _ _) rfl⟩

theorem execDomainDemand_frame (cls : Nat) (idx : Nat) (s : State) :
    ResultChanges [.power, .cal, .elements, .carrier, .client] s (execDomainDemand cls idx s) :=
  ⟨_, rfl, domainDemand_frame _ _ (OnlyChanges.refl _ _) rfl⟩

theorem execPllLock_frame (pll : Fin 28) (s : State) :
    ResultChanges [.power, .client] s (execPllLock pll s) :=
  ⟨_, rfl, pllLock_frame _ (OnlyChanges.refl _ _) rfl⟩

theorem execDomainExitComplete_frame (cls : Nat) (idx : Nat) (s : State) :
    ResultChanges [.sill, .power, .control, .counters, .cal, .elements, .carrier, .client, .sched, .memory, .monitor, .fresh] s (execDomainExitComplete cls idx s) :=
  ⟨_, rfl, domainExitComplete_frame _ _ (OnlyChanges.refl _ _) rfl⟩

theorem execCoreVoltageEvaluation_frame (steps : Fin 21) (lostMargin : Bool) (s : State) :
    ResultChanges [.power] s (execCoreVoltageEvaluation steps lostMargin s) :=
  ⟨_, rfl, coreVoltageEvaluation_frame _ _ (OnlyChanges.refl _ _) rfl⟩

theorem execCoreVoltageStep_frame (acknowledged : Bool) (pecGood : Bool) (s : State) :
    ResultChanges [.sill, .power, .control, .counters] s (execCoreVoltageStep acknowledged pecGood s) :=
  ⟨_, rfl, coreVoltageStep_frame _ _ (OnlyChanges.refl _ _) rfl⟩

theorem execPmbAlert_frame (s : State) :
    ResultChanges [.sill, .power, .control, .counters] s (execPmbAlert s) :=
  ⟨_, rfl, pmbAlert_frame  (OnlyChanges.refl _ _) rfl⟩

theorem execFecGetFrameInfo_frame (q : Request) (s : State) :
    ResultChanges [.sill, .control, .counters, .stream, .domain, .security] s (execFecGetFrameInfo q s) :=
  ⟨_, rfl, takeRequest_frame _ q _ (fun q u => ReplyChanges.mono (fecGetFrameInfo_only q u) rfl) (OnlyChanges.refl _ _) rfl⟩

theorem execFecGetCounts_frame (q : Request) (s : State) :
    ResultChanges [.sill, .control, .counters, .stream, .domain, .security] s (execFecGetCounts q s) :=
  ⟨_, rfl, takeRequest_frame _ q _ (fun q u => ReplyChanges.mono (fecGetCounts_only q u) rfl) (OnlyChanges.refl _ _) rfl⟩

theorem execFecSetInject_frame (q : Request) (s : State) :
    ResultChanges [.sill, .power, .control, .counters, .stream, .domain, .cal, .elements, .carrier, .joinery, .framer, .client, .security] s (execFecSetInject q s) :=
  ⟨_, rfl, takeRequest_frame _ q _ (fun q u => ReplyChanges.mono (fecSetInject_only q u) rfl) (OnlyChanges.refl _ _) rfl⟩

theorem execOtucnFrameTx_frame (x0 : Fin 4) (load : OtuLoad) (s : State) :
    ResultChanges [.sill, .control, .counters, .carrier, .framer, .client, .protect, .security, .fresh] s (execOtucnFrameTx x0 load s) :=
  ⟨_, rfl, otucnFrameTx_frame _ _ (OnlyChanges.refl _ _) rfl⟩

theorem execOtucnFrameRx_frame (x0 : Fin 4) (f : OtuSeen) (s : State) :
    ResultChanges [.sill, .control, .counters, .carrier, .framer, .protect, .security, .fresh] s (execOtucnFrameRx x0 f s) :=
  ⟨_, rfl, otucnFrameRx_frame _ _ (OnlyChanges.refl _ _) rfl⟩

theorem execOofDeclared_frame (x0 : Fin 4) (s : State) :
    ResultChanges [.sill, .control, .counters, .framer, .protect, .security, .fresh] s (execOofDeclared x0 s) :=
  ⟨_, rfl, oofDeclared_frame _ (OnlyChanges.refl _ _) rfl⟩

theorem execOofCleared_frame (x0 : Fin 4) (s : State) :
    ResultChanges [.sill, .control, .counters, .framer, .protect, .fresh] s (execOofCleared x0 s) :=
  ⟨_, rfl, oofCleared_frame _ (OnlyChanges.refl _ _) rfl⟩

theorem execLofDeclared_frame (x0 : Fin 4) (s : State) :
    ResultChanges [.sill, .control, .counters, .framer, .protect, .fresh] s (execLofDeclared x0 s) :=
  ⟨_, rfl, lofDeclared_frame _ (OnlyChanges.refl _ _) rfl⟩

theorem execLofCleared_frame (x0 : Fin 4) (s : State) :
    ResultChanges [.sill, .control, .counters, .framer, .protect, .fresh] s (execLofCleared x0 s) :=
  ⟨_, rfl, lofCleared_frame _ (OnlyChanges.refl _ _) rfl⟩

theorem execOomDeclared_frame (x0 : Fin 4) (s : State) :
    ResultChanges [.sill, .control, .counters, .framer, .protect, .fresh] s (execOomDeclared x0 s) :=
  ⟨_, rfl, oomDeclared_frame _ (OnlyChanges.refl _ _) rfl⟩

theorem execOomCleared_frame (x0 : Fin 4) (s : State) :
    ResultChanges [.sill, .control, .counters, .framer, .protect, .fresh] s (execOomCleared x0 s) :=
  ⟨_, rfl, oomCleared_frame _ (OnlyChanges.refl _ _) rfl⟩

theorem execLomDeclared_frame (x0 : Fin 4) (s : State) :
    ResultChanges [.sill, .control, .counters, .framer, .protect, .fresh] s (execLomDeclared x0 s) :=
  ⟨_, rfl, lomDeclared_frame _ (OnlyChanges.refl _ _) rfl⟩

theorem execLomCleared_frame (x0 : Fin 4) (s : State) :
    ResultChanges [.sill, .control, .counters, .framer, .protect, .fresh] s (execLomCleared x0 s) :=
  ⟨_, rfl, lomCleared_frame _ (OnlyChanges.refl _ _) rfl⟩

theorem execDefectPersistence_frame (x0 : Fin 4) (bit : Fin 19) (s : State) :
    ResultChanges [.sill, .control, .counters, .framer, .protect, .fresh] s (execDefectPersistence x0 bit s) :=
  ⟨_, rfl, defectPersistence_frame _ _ (OnlyChanges.refl _ _) rfl⟩

theorem execApsAccept_frame (x0 : Fin 4) (s : State) :
    ResultChanges [.sill, .control, .counters, .framer, .protect, .fresh] s (execApsAccept x0 s) :=
  ⟨_, rfl, apsAccept_frame _ (OnlyChanges.refl _ _) rfl⟩

theorem execApsInconsistent_frame (x0 : Fin 4) (s : State) :
    ResultChanges [.sill, .control, .counters, .framer, .protect, .fresh] s (execApsInconsistent x0 s) :=
  ⟨_, rfl, apsInconsistent_frame _ (OnlyChanges.refl _ _) rfl⟩

theorem execTtiAccept_frame (x0 : Fin 4) (s : State) :
    ResultChanges [.sill, .control, .counters, .framer, .protect, .fresh] s (execTtiAccept x0 s) :=
  ⟨_, rfl, ttiAccept_frame _ (OnlyChanges.refl _ _) rfl⟩

theorem execPsiAccept_frame (x0 : Fin 4) (s : State) :
    ResultChanges [.sill, .control, .counters, .framer, .protect, .fresh] s (execPsiAccept x0 s) :=
  ⟨_, rfl, psiAccept_frame _ (OnlyChanges.refl _ _) rfl⟩

theorem execPassedBytesAccept_frame (x0 : Fin 4) (s : State) :
    ResultChanges [.framer] s (execPassedBytesAccept x0 s) :=
  ⟨_, rfl, passedBytesAccept_frame _ (OnlyChanges.refl _ _) rfl⟩

theorem execLinkTagAccept_frame (x0 : Fin 4) (s : State) :
    ResultChanges [.sill, .control, .counters, .framer, .protect, .fresh] s (execLinkTagAccept x0 s) :=
  ⟨_, rfl, linkTagAccept_frame _ (OnlyChanges.refl _ _) rfl⟩

theorem execDefectEventGather_frame (x0 : Fin 4) (s : State) :
    ResultChanges [.sill, .control, .counters, .framer] s (execDefectEventGather x0 s) := by
  refine ⟨_, rfl, ?_⟩
  repeat' first
    | with_reducible exact OnlyChanges.refl _ _
    | with_reducible assumption
    | with_reducible apply OnlyChanges.ite
    | with_reducible refine OnlyChanges.cond (fun _ => ?_) ?_
    | with_reducible apply defectEventGather_frame
    | ((with_reducible refine Part.nested ?_); rfl)
    | split
    | dsimp only

theorem execFramerSetTti_frame (q : Request) (s : State) :
    ResultChanges [.sill, .control, .counters, .stream, .domain, .framer, .security] s (execFramerSetTti q s) :=
  ⟨_, rfl, takeRequest_frame _ q _ (fun q u => ReplyChanges.mono (framerSetTti_only q u) rfl) (OnlyChanges.refl _ _) rfl⟩

theorem execFramerSetDegrade_frame (q : Request) (s : State) :
    ResultChanges [.sill, .control, .counters, .stream, .domain, .framer, .security] s (execFramerSetDegrade q s) :=
  ⟨_, rfl, takeRequest_frame _ q _ (fun q u => ReplyChanges.mono (framerSetDegrade_only q u) rfl) (OnlyChanges.refl _ _) rfl⟩

theorem execFramerSetAps_frame (q : Request) (s : State) :
    ResultChanges [.sill, .control, .counters, .stream, .domain, .framer, .security] s (execFramerSetAps q s) :=
  ⟨_, rfl, takeRequest_frame _ q _ (fun q u => ReplyChanges.mono (framerSetAps_only q u) rfl) (OnlyChanges.refl _ _) rfl⟩

theorem execFramerSetOverhead_frame (q : Request) (s : State) :
    ResultChanges [.sill, .control, .counters, .stream, .domain, .framer, .security] s (execFramerSetOverhead q s) :=
  ⟨_, rfl, takeRequest_frame _ q _ (fun q u => ReplyChanges.mono (framerSetOverhead_only q u) rfl) (OnlyChanges.refl _ _) rfl⟩

theorem execFramerSetMaint_frame (q : Request) (s : State) :
    ResultChanges [.sill, .control, .counters, .stream, .domain, .framer, .security] s (execFramerSetMaint q s) :=
  ⟨_, rfl, takeRequest_frame _ q _ (fun q u => ReplyChanges.mono (framerSetMaint_only q u) rfl) (OnlyChanges.refl _ _) rfl⟩

theorem execFramerGetStatus_frame (q : Request) (s : State) :
    ResultChanges [.sill, .control, .counters, .stream, .domain, .security] s (execFramerGetStatus q s) :=
  ⟨_, rfl, takeRequest_frame _ q _ (fun q u => ReplyChanges.mono (framerGetStatus_only q u) rfl) (OnlyChanges.refl _ _) rfl⟩

theorem execFramerGetOverhead_frame (q : Request) (s : State) :
    ResultChanges [.sill, .control, .counters, .stream, .domain, .security] s (execFramerGetOverhead q s) :=
  ⟨_, rfl, takeRequest_frame _ q _ (fun q u => ReplyChanges.mono (framerGetOverhead_only q u) rfl) (OnlyChanges.refl _ _) rfl⟩

theorem execFramerGetCounts_frame (q : Request) (s : State) :
    ResultChanges [.sill, .control, .counters, .stream, .domain, .security] s (execFramerGetCounts q s) :=
  ⟨_, rfl, takeRequest_frame _ q _ (fun q u => ReplyChanges.mono (framerGetCounts_only q u) rfl) (OnlyChanges.refl _ _) rfl⟩

theorem execTodSecondBoundary_frame (s : State) :
    ResultChanges [.sill, .control, .counters, .carrier, .framer, .sched, .protect, .security, .timing, .monitor, .localNs, .fresh] s (execTodSecondBoundary s) :=
  ⟨_, rfl, todSecondBoundary_frame  (OnlyChanges.refl _ _) rfl⟩

theorem execClientFrameRx_frame (c : Fin 64) (data : List Byte) (fcsOk : Bool) (fec : HostFec) (odd : List OddWord) (s : State) :
    ResultChanges [.sill, .power, .control, .counters, .cal, .elements, .carrier, .client, .sched, .memory, .fresh] s (execClientFrameRx c data fcsOk fec odd s) :=
  ⟨_, rfl, clientFrameRx_frame _ _ _ _ _ (OnlyChanges.refl _ _) rfl⟩

theorem execElasticBufferBlock_frame (c : Fin 64) (egress : Bool) (enters : Option (Fin 4)) (leaves : Bool) (s : State) :
    ResultChanges [.counters, .client] s (execElasticBufferBlock c egress enters leaves s) := by
  refine ⟨_, rfl, ?_⟩
  repeat' first
    | with_reducible exact OnlyChanges.refl _ _
    | with_reducible assumption
    | with_reducible apply OnlyChanges.ite
    | with_reducible refine OnlyChanges.cond (fun _ => ?_) ?_
    | with_reducible apply elasticBufferBlock_frame
    | ((with_reducible refine Part.nested ?_); rfl)
    | split
    | dsimp only

theorem execClientLinkChange_frame (c : Fin 64) (link : Fin 4) (s : State) :
    ResultChanges [.sill, .control, .counters, .client, .timing] s (execClientLinkChange c link s) :=
  ⟨_, rfl, clientLinkChange_frame _ _ (OnlyChanges.refl _ _) rfl⟩

theorem execFlexeCalAck_frame (g : Fin 8) (inFrame : List Nat) (s : State) :
    ResultChanges [.sill, .control, .counters, .client] s (execFlexeCalAck g inFrame s) :=
  ⟨_, rfl, flexeCalAck_frame _ _ (OnlyChanges.refl _ _) rfl⟩

theorem execFlexeSwitchTimeout_frame (g : Fin 8) (s : State) :
    ResultChanges [.sill, .control, .counters, .client] s (execFlexeSwitchTimeout g s) :=
  ⟨_, rfl, flexeSwitchTimeout_frame _ (OnlyChanges.refl _ _) rfl⟩

theorem execGfpFrameRx_frame (x0 : Fin 256) (f : GfpSeen) (s : State) :
    ResultChanges [.sill, .power, .control, .counters, .cal, .elements, .carrier, .client, .fresh] s (execGfpFrameRx x0 f s) :=
  ⟨_, rfl, gfpFrameRx_frame _ _ (OnlyChanges.refl _ _) rfl⟩

theorem execClientSetClient_frame (q : Request) (s : State) :
    ResultChanges [.sill, .power, .control, .counters, .stream, .domain, .cal, .elements, .carrier, .client, .security, .timing] s (execClientSetClient q s) :=
  ⟨_, rfl, takeRequest_frame _ q _ (fun q u => ReplyChanges.mono (clientSetClient_only q u) rfl) (OnlyChanges.refl _ _) rfl⟩

theorem execClientSetTrib_frame (q : Request) (s : State) :
    ResultChanges [.sill, .control, .counters, .stream, .domain, .client, .security] s (execClientSetTrib q s) :=
  ⟨_, rfl, takeRequest_frame _ q _ (fun q u => ReplyChanges.mono (clientSetTrib_only q u) rfl) (OnlyChanges.refl _ _) rfl⟩

theorem execClientSetFlexe_frame (q : Request) (s : State) :
    ResultChanges [.sill, .control, .counters, .stream, .domain, .client, .security] s (execClientSetFlexe q s) :=
  ⟨_, rfl, takeRequest_frame _ q _ (fun q u => ReplyChanges.mono (clientSetFlexe_only q u) rfl) (OnlyChanges.refl _ _) rfl⟩

theorem execClientSetClass_frame (q : Request) (s : State) :
    ResultChanges [.sill, .control, .counters, .stream, .domain, .client, .security] s (execClientSetClass q s) :=
  ⟨_, rfl, takeRequest_frame _ q _ (fun q u => ReplyChanges.mono (clientSetClass_only q u) rfl) (OnlyChanges.refl _ _) rfl⟩

theorem execClientGetStatus_frame (q : Request) (s : State) :
    ResultChanges [.sill, .control, .counters, .stream, .domain, .security] s (execClientGetStatus q s) :=
  ⟨_, rfl, takeRequest_frame _ q _ (fun q u => ReplyChanges.mono (clientGetStatus_only q u) rfl) (OnlyChanges.refl _ _) rfl⟩

theorem execClientGetCounts_frame (q : Request) (s : State) :
    ResultChanges [.sill, .control, .counters, .stream, .domain, .security] s (execClientGetCounts q s) :=
  ⟨_, rfl, takeRequest_frame _ q _ (fun q u => ReplyChanges.mono (clientGetCounts_only q u) rfl) (OnlyChanges.refl _ _) rfl⟩

theorem execFrameSelection_frame (p : Fin 256) (odd : List OddWord) (s : State) :
    ResultChanges [.sill, .power, .control, .counters, .cal, .elements, .carrier, .client, .sched, .memory, .fresh] s (execFrameSelection p odd s) :=
  ⟨_, rfl, frameSelection_frame _ _ (OnlyChanges.refl _ _) rfl⟩

theorem execSchedParamApply_frame (s : State) :
    ResultChanges [.sill, .power, .control, .counters, .stream, .domain, .cal, .elements, .carrier, .client, .sched, .memory, .security, .fresh] s (execSchedParamApply s) :=
  ⟨_, rfl, schedParamApply_frame  (OnlyChanges.refl _ _) rfl⟩

theorem execGateEntryEnd_frame (p : Fin 256) (s : State) :
    ResultChanges [.sill, .power, .control, .counters, .cal, .elements, .carrier, .client, .sched, .memory, .fresh] s (execGateEntryEnd p s) :=
  ⟨_, rfl, gateEntryEnd_frame _ (OnlyChanges.refl _ _) rfl⟩

theorem execGateListStart_frame (p : Fin 256) (s : State) :
    ResultChanges [.sill, .power, .control, .counters, .cal, .elements, .carrier, .client, .sched, .memory, .fresh] s (execGateListStart p s) :=
  ⟨_, rfl, gateListStart_frame _ (OnlyChanges.refl _ _) rfl⟩

theorem execSchedSamplingInstant_frame (slice : Fin 8) (s : State) :
    ResultChanges [.counters] s (execSchedSamplingInstant slice s) :=
  ⟨_, rfl, schedSamplingInstant_frame _ (OnlyChanges.refl _ _) rfl⟩

theorem execSchedSetSubscriber_frame (q : Request) (s : State) :
    ResultChanges [.sill, .power, .control, .counters, .stream, .domain, .cal, .elements, .carrier, .client, .sched, .memory, .security, .fresh] s (execSchedSetSubscriber q s) :=
  ⟨_, rfl, takeRequest_frame _ q _ (fun q u => ReplyChanges.mono (schedSetSubscriber_only q u) rfl) (OnlyChanges.refl _ _) rfl⟩

theorem execSchedSetQueue_frame (q : Request) (s : State) :
    ResultChanges [.sill, .power, .control, .counters, .stream, .domain, .cal, .elements, .carrier, .client, .sched, .memory, .security, .fresh] s (execSchedSetQueue q s) :=
  ⟨_, rfl, takeRequest_frame _ q _ (fun q u => ReplyChanges.mono (schedSetQueue_only q u) rfl) (OnlyChanges.refl _ _) rfl⟩

theorem execSchedSetGates_frame (q : Request) (s : State) :
    ResultChanges [.sill, .power, .control, .counters, .stream, .domain, .cal, .elements, .carrier, .client, .sched, .memory, .security, .fresh] s (execSchedSetGates q s) :=
  ⟨_, rfl, takeRequest_frame _ q _ (fun q u => ReplyChanges.mono (schedSetGates_only q u) rfl) (OnlyChanges.refl _ _) rfl⟩

theorem execSchedGetGates_frame (q : Request) (s : State) :
    ResultChanges [.sill, .power, .control, .counters, .stream, .domain, .cal, .elements, .carrier, .client, .sched, .memory, .security, .fresh] s (execSchedGetGates q s) :=
  ⟨_, rfl, takeRequest_frame _ q _ (fun q u => ReplyChanges.mono (schedGetGates_only q u) rfl) (OnlyChanges.refl _ _) rfl⟩

theorem execSchedGetQueue_frame (q : Request) (s : State) :
    ResultChanges [.sill, .power, .control, .counters, .stream, .domain, .cal, .elements, .carrier, .client, .sched, .memory, .security, .fresh] s (execSchedGetQueue q s) :=
  ⟨_, rfl, takeRequest_frame _ q _ (fun q u => ReplyChanges.mono (schedGetQueue_only q u) rfl) (OnlyChanges.refl _ _) rfl⟩

theorem execSchedSetSampling_frame (q : Request) (s : State) :
    ResultChanges [.sill, .power, .control, .counters, .stream, .domain, .cal, .elements, .carrier, .client, .sched, .memory, .security, .fresh] s (execSchedSetSampling q s) :=
  ⟨_, rfl, takeRequest_frame _ q _ (fun q u => ReplyChanges.mono (schedSetSampling_only q u) rfl) (OnlyChanges.refl _ _) rfl⟩

theorem execSchedGetCounts_frame (q : Request) (s : State) :
    ResultChanges [.sill, .control, .counters, .stream, .domain, .security] s (execSchedGetCounts q s) :=
  ⟨_, rfl, takeRequest_frame _ q _ (fun q u => ReplyChanges.mono (schedGetCounts_only q u) rfl) (OnlyChanges.refl _ _) rfl⟩

theorem execPlanerRead_frame (stack : Fin 4) (odd : Option WordSeen) (s : State) :
    ResultChanges [.sill, .control, .counters, .memory, .fresh] s (execPlanerRead stack odd s) :=
  ⟨_, rfl, planerRead_frame _ _ (OnlyChanges.refl _ _) rfl⟩

theorem execClampFlush_frame (stack : Fin 4) (odd : Option WordSeen) (s : State) :
    ResultChanges [.sill, .control, .counters, .memory, .fresh] s (execClampFlush stack odd s) :=
  ⟨_, rfl, clampFlush_frame _ _ (OnlyChanges.refl _ _) rfl⟩

theorem execBucketDrain_frame (stack : Fin 4) (s : State) :
    ResultChanges [.memory] s (execBucketDrain stack s) :=
  ⟨_, rfl, bucketDrain_frame _ (OnlyChanges.refl _ _) rfl⟩

theorem execCeRateThreshold_frame (stack : Fin 4) (s : State) :
    ResultChanges [.sill, .control, .counters, .memory] s (execCeRateThreshold stack s) := by
  refine ⟨_, rfl, ?_⟩
  repeat' first
    | with_reducible exact OnlyChanges.refl _ _
    | with_reducible assumption
    | with_reducible apply OnlyChanges.ite
    | with_reducible refine OnlyChanges.cond (fun _ => ?_) ?_
    | with_reducible apply ceRate_frame
    | ((with_reducible refine Part.nested ?_); rfl)
    | split
    | dsimp only

theorem execRetrainStart_frame (stack : Fin 4) (retries : Nat) (s : State) :
    ResultChanges [.counters, .memory] s (execRetrainStart stack retries s) :=
  ⟨_, rfl, retrainStart_frame _ _ (OnlyChanges.refl _ _) rfl⟩

theorem execRetrainComplete_frame (stack : Fin 4) (good : Bool) (odd : List OddWord) (s : State) :
    ResultChanges [.sill, .power, .control, .counters, .cal, .elements, .carrier, .client, .sched, .memory, .protect, .fresh] s (execRetrainComplete stack good odd s) :=
  ⟨_, rfl, retrainComplete_frame _ _ _ (OnlyChanges.refl _ _) rfl⟩

theorem execAuditComplete_frame (stack : Fin 4) (poisoned : List (Nat × Nat × Nat)) (s : State) :
    ResultChanges [.sill, .control, .counters, .sched, .memory, .fresh] s (execAuditComplete stack poisoned s) :=
  ⟨_, rfl, auditComplete_frame _ _ (OnlyChanges.refl _ _) rfl⟩

theorem execMemorySetPolicy_frame (q : Request) (s : State) :
    ResultChanges [.sill, .power, .control, .counters, .stream, .domain, .cal, .elements, .carrier, .client, .sched, .memory, .security, .fresh] s (execMemorySetPolicy q s) :=
  ⟨_, rfl, takeRequest_frame _ q _ (fun q u => ReplyChanges.mono (memorySetPolicy_only q u) rfl) (OnlyChanges.refl _ _) rfl⟩

theorem execMemoryGetStatus_frame (q : Request) (s : State) :
    ResultChanges [.sill, .power, .control, .counters, .stream, .domain, .cal, .elements, .carrier, .client, .sched, .memory, .security, .fresh] s (execMemoryGetStatus q s) :=
  ⟨_, rfl, takeRequest_frame _ q _ (fun q u => ReplyChanges.mono (memoryGetStatus_only q u) rfl) (OnlyChanges.refl _ _) rfl⟩

theorem execMemoryGetLog_frame (q : Request) (s : State) :
    ResultChanges [.sill, .power, .control, .counters, .stream, .domain, .cal, .elements, .carrier, .client, .sched, .memory, .security, .fresh] s (execMemoryGetLog q s) :=
  ⟨_, rfl, takeRequest_frame _ q _ (fun q u => ReplyChanges.mono (memoryGetLog_only q u) rfl) (OnlyChanges.refl _ _) rfl⟩

theorem execMemoryRetrain_frame (q : Request) (s : State) :
    ResultChanges [.sill, .power, .control, .counters, .stream, .domain, .cal, .elements, .carrier, .client, .sched, .memory, .security, .fresh] s (execMemoryRetrain q s) :=
  ⟨_, rfl, takeRequest_frame _ q _ (fun q u => ReplyChanges.mono (memoryRetrain_only q u) rfl) (OnlyChanges.refl _ _) rfl⟩

theorem execMemorySetShim_frame (q : Request) (s : State) :
    ResultChanges [.sill, .power, .control, .counters, .stream, .domain, .cal, .elements, .carrier, .client, .sched, .memory, .security, .fresh] s (execMemorySetShim q s) :=
  ⟨_, rfl, takeRequest_frame _ q _ (fun q u => ReplyChanges.mono (memorySetShim_only q u) rfl) (OnlyChanges.refl _ _) rfl⟩

theorem execMemoryGetCounts_frame (q : Request) (s : State) :
    ResultChanges [.sill, .control, .counters, .stream, .domain, .security] s (execMemoryGetCounts q s) :=
  ⟨_, rfl, takeRequest_frame _ q _ (fun q u => ReplyChanges.mono (memoryGetCounts_only q u) rfl) (OnlyChanges.refl _ _) rfl⟩

theorem execTwinFrameArrival_frame (group : Fin 2) (copy : Fin 2) (s : State) :
    ResultChanges [.sill, .control, .counters, .framer, .memory, .protect, .security, .fresh] s (execTwinFrameArrival group copy s) :=
  ⟨_, rfl, twinFrameArrival_frame _ _ (OnlyChanges.refl _ _) rfl⟩

theorem execTwinPlayout_frame (group : Fin 2) (odd : List (Nat × Nat × WordSeen)) (errs : List (Nat × Nat)) (s : State) :
    ResultChanges [.sill, .control, .counters, .framer, .memory, .protect, .security, .fresh] s (execTwinPlayout group odd errs s) :=
  ⟨_, rfl, twinPlayout_frame _ _ _ (OnlyChanges.refl _ _) rfl⟩

theorem execMirActInChange_frame (level : Bool) (s : State) :
    ResultChanges [.pins] s (execMirActInChange level s) :=
  ⟨_, rfl, mirActInChange_frame _ (OnlyChanges.refl _ _) rfl⟩

theorem execMirrorClaimStable_frame (s : State) :
    ResultChanges [.pins, .sill, .power, .control, .counters, .cal, .elements, .carrier, .client, .protect] s (execMirrorClaimStable s) :=
  ⟨_, rfl, mirrorClaimStable_frame  (OnlyChanges.refl _ _) rfl⟩

theorem execMirrorClaimSample_frame (s : State) :
    ResultChanges [.pins, .sill, .power, .control, .counters, .cal, .elements, .carrier, .client, .protect] s (execMirrorClaimSample s) :=
  ⟨_, rfl, mirrorClaimSample_frame  (OnlyChanges.refl _ _) rfl⟩

theorem execMirrorTieResample_frame (s : State) :
    ResultChanges [.pins, .sill, .power, .control, .counters, .cal, .elements, .carrier, .client, .protect] s (execMirrorTieResample s) :=
  ⟨_, rfl, mirrorTieResample_frame  (OnlyChanges.refl _ _) rfl⟩

theorem execMirrorHoldoffExpiry_frame (s : State) :
    ResultChanges [.protect] s (execMirrorHoldoffExpiry s) :=
  ⟨_, rfl, mirrorHoldoffExpiry_frame  (OnlyChanges.refl _ _) rfl⟩

theorem execMirrorLosRelease_frame (s : State) :
    ResultChanges [.protect] s (execMirrorLosRelease s) :=
  ⟨_, rfl, mirrorLosRelease_frame  (OnlyChanges.refl _ _) rfl⟩

theorem execMirrorReleaseDeassert_frame (s : State) :
    ResultChanges [.pins, .sill, .power, .control, .counters, .cal, .elements, .carrier, .client, .protect] s (execMirrorReleaseDeassert s) :=
  ⟨_, rfl, mirrorReleaseDeassert_frame  (OnlyChanges.refl _ _) rfl⟩

theorem execBraceHeartbeatTx_frame (s : State) :
    ResultChanges [.domain] s (execBraceHeartbeatTx s) :=
  ⟨_, rfl, braceHeartbeatTx_frame  (OnlyChanges.refl _ _) rfl⟩

theorem execBraceHeartbeatRx_frame (x0 : Heartbeat) (s : State) :
    ResultChanges [.sill, .control, .counters, .protect] s (execBraceHeartbeatRx x0 s) :=
  ⟨_, rfl, braceHeartbeatRx_frame _ (OnlyChanges.refl _ _) rfl⟩

theorem execBraceLinkDown_frame (s : State) :
    ResultChanges [.sill, .control, .counters, .protect] s (execBraceLinkDown s) :=
  ⟨_, rfl, braceLinkDown_frame  (OnlyChanges.refl _ _) rfl⟩

theorem execProtectSetTwin_frame (q : Request) (s : State) :
    ResultChanges [.sill, .control, .counters, .stream, .domain, .framer, .memory, .protect, .security, .fresh] s (execProtectSetTwin q s) :=
  ⟨_, rfl, takeRequest_frame _ q _ (fun q u => ReplyChanges.mono (protectSetTwin_only q u) rfl) (OnlyChanges.refl _ _) rfl⟩

theorem execProtectRealign_frame (q : Request) (s : State) :
    ResultChanges [.sill, .control, .counters, .stream, .domain, .protect, .security, .fresh] s (execProtectRealign q s) :=
  ⟨_, rfl, takeRequest_frame _ q _ (fun q u => ReplyChanges.mono (protectRealign_only q u) rfl) (OnlyChanges.refl _ _) rfl⟩

theorem execProtectSetMirror_frame (q : Request) (s : State) :
    ResultChanges [.pins, .sill, .power, .control, .counters, .stream, .domain, .cal, .elements, .carrier, .client, .protect, .security] s (execProtectSetMirror q s) :=
  ⟨_, rfl, takeRequest_frame _ q _ (fun q u => ReplyChanges.mono (protectSetMirror_only q u) rfl) (OnlyChanges.refl _ _) rfl⟩

theorem execProtectClaim_frame (q : Request) (s : State) :
    ResultChanges [.pins, .sill, .power, .control, .counters, .stream, .domain, .cal, .elements, .carrier, .client, .protect, .security] s (execProtectClaim q s) :=
  ⟨_, rfl, takeRequest_frame _ q _ (fun q u => ReplyChanges.mono (protectClaim_only q u) rfl) (OnlyChanges.refl _ _) rfl⟩

theorem execProtectGetStatus_frame (q : Request) (s : State) :
    ResultChanges [.sill, .control, .counters, .stream, .domain, .security] s (execProtectGetStatus q s) :=
  ⟨_, rfl, takeRequest_frame _ q _ (fun q u => ReplyChanges.mono (protectGetStatus_only q u) rfl) (OnlyChanges.refl _ _) rfl⟩

theorem execProtectGetCounts_frame (q : Request) (s : State) :
    ResultChanges [.sill, .control, .counters, .stream, .domain, .security] s (execProtectGetCounts q s) :=
  ⟨_, rfl, takeRequest_frame _ q _ (fun q u => ReplyChanges.mono (protectGetCounts_only q u) rfl) (OnlyChanges.refl _ _) rfl⟩

theorem execRolloverFlip_frame (x0 : Fin 4) (s : State) :
    ResultChanges [.sill, .control, .counters, .security] s (execRolloverFlip x0 s) :=
  ⟨_, rfl, rolloverFlip_frame _ (OnlyChanges.refl _ _) rfl⟩

theorem execChannelModeApply_frame (x0 : Fin 4) (dir : Fin 2) (s : State) :
    ResultChanges [.sill, .control, .counters, .security] s (execChannelModeApply x0 dir s) :=
  ⟨_, rfl, channelModeApply_frame _ _ (OnlyChanges.refl _ _) rfl⟩

theorem execBenchRequestExecute_frame (s : State) :
    ResultChanges [.sill, .control, .counters, .stream, .domain, .security] s (execBenchRequestExecute s) :=
  ⟨_, rfl, benchRequestExecute_frame  (OnlyChanges.refl _ _) rfl⟩

theorem execKeyLoadExecute_frame (s : State) :
    ResultChanges [.sill, .control, .counters, .stream, .domain, .security] s (execKeyLoadExecute s) :=
  ⟨_, rfl, keyLoadExecute_frame  (OnlyChanges.refl _ _) rfl⟩

theorem execSupplyGlitch_frame (x : Supply) (s : State) :
    ResultChanges [.sill, .control, .counters, .stream, .domain, .security] s (execSupplyGlitch x s) :=
  ⟨_, rfl, supplyGlitch_frame _ (OnlyChanges.refl _ _) rfl⟩

theorem execVddIoLoss_frame (s : State) :
    ResultChanges [.pins, .sill, .control, .counters, .stream, .domain, .security] s (execVddIoLoss s) :=
  ⟨_, rfl, vddIoLoss_frame  (OnlyChanges.refl _ _) rfl⟩

theorem execVddIoReturn_frame (s : State) :
    ResultChanges [.pins, .sill, .control, .counters, .stream, .domain, .security, .timing] s (execVddIoReturn s) :=
  ⟨_, rfl, vddIoReturn_frame  (OnlyChanges.refl _ _) rfl⟩

theorem execClockGlitch_frame (s : State) :
    ResultChanges [.sill, .control, .counters, .stream, .domain, .security] s (execClockGlitch s) :=
  ⟨_, rfl, clockGlitch_frame  (OnlyChanges.refl _ _) rfl⟩

theorem execTemperatureExcursion_frame (s : State) :
    ResultChanges [.sill, .control, .counters, .stream, .domain, .security] s (execTemperatureExcursion s) :=
  ⟨_, rfl, temperatureExcursion_frame  (OnlyChanges.refl _ _) rfl⟩

theorem execTamperInAsserted_frame (s : State) :
    ResultChanges [.pins, .sill, .control, .counters, .stream, .domain, .security] s (execTamperInAsserted s) :=
  ⟨_, rfl, tamperInAsserted_frame  (OnlyChanges.refl _ _) rfl⟩

theorem execZeroizeNAsserted_frame (s : State) :
    ResultChanges [.pins, .sill, .control, .counters, .stream, .domain, .security] s (execZeroizeNAsserted s) :=
  ⟨_, rfl, zeroizeNAsserted_frame  (OnlyChanges.refl _ _) rfl⟩

theorem execEntropyHealthFail_frame (s : State) :
    ResultChanges [.security] s (execEntropyHealthFail s) :=
  ⟨_, rfl, entropyHealthFail_frame  (OnlyChanges.refl _ _) rfl⟩

theorem execSecuritySetOwnerRoot_frame (q : Request) (s : State) :
    ResultChanges [.sill, .otp, .control, .counters, .stream, .domain, .security, .fresh] s (execSecuritySetOwnerRoot q s) :=
  ⟨_, rfl, takeRequest_frame _ q _ (fun q u => ReplyChanges.mono (securitySetOwnerRoot_only q u) rfl) (OnlyChanges.refl _ _) rfl⟩

theorem execSecuritySetOwnerRecord_frame (q : Request) (s : State) :
    ResultChanges [.sill, .flash, .control, .counters, .stream, .domain, .security, .fresh] s (execSecuritySetOwnerRecord q s) :=
  ⟨_, rfl, takeRequest_frame _ q _ (fun q u => ReplyChanges.mono (securitySetOwnerRecord_only q u) rfl) (OnlyChanges.refl _ _) rfl⟩

theorem execSecurityLoadKek_frame (q : Request) (s : State) :
    ResultChanges [.sill, .control, .counters, .stream, .domain, .security] s (execSecurityLoadKek q s) :=
  ⟨_, rfl, takeRequest_frame _ q _ (fun q u => ReplyChanges.mono (securityLoadKek_only q u) rfl) (OnlyChanges.refl _ _) rfl⟩

theorem execSecurityLoadKey_frame (q : Request) (s : State) :
    ResultChanges [.sill, .power, .control, .counters, .stream, .domain, .cal, .elements, .carrier, .client, .security] s (execSecurityLoadKey q s) :=
  ⟨_, rfl, takeRequest_frame _ q _ (fun q u => ReplyChanges.mono (securityLoadKey_only q u) rfl) (OnlyChanges.refl _ _) rfl⟩

theorem execSecurityEraseKey_frame (q : Request) (s : State) :
    ResultChanges [.sill, .control, .counters, .stream, .domain, .security] s (execSecurityEraseKey q s) :=
  ⟨_, rfl, takeRequest_frame _ q _ (fun q u => ReplyChanges.mono (securityEraseKey_only q u) rfl) (OnlyChanges.refl _ _) rfl⟩

theorem execSecuritySetChannel_frame (q : Request) (s : State) :
    ResultChanges [.sill, .control, .counters, .stream, .domain, .security] s (execSecuritySetChannel q s) :=
  ⟨_, rfl, takeRequest_frame _ q _ (fun q u => ReplyChanges.mono (securitySetChannel_only q u) rfl) (OnlyChanges.refl _ _) rfl⟩

theorem execSecurityRollover_frame (q : Request) (s : State) :
    ResultChanges [.sill, .control, .counters, .stream, .domain, .security] s (execSecurityRollover q s) :=
  ⟨_, rfl, takeRequest_frame _ q _ (fun q u => ReplyChanges.mono (securityRollover_only q u) rfl) (OnlyChanges.refl _ _) rfl⟩

theorem execSecurityBench_frame (q : Request) (s : State) :
    ResultChanges [.sill, .power, .control, .counters, .stream, .domain, .cal, .elements, .carrier, .client, .security] s (execSecurityBench q s) :=
  ⟨_, rfl, takeRequest_frame _ q _ (fun q u => ReplyChanges.mono (securityBench_only q u) rfl) (OnlyChanges.refl _ _) rfl⟩

theorem execSecuritySetPolicy_frame (q : Request) (s : State) :
    ResultChanges [.sill, .control, .counters, .stream, .domain, .security] s (execSecuritySetPolicy q s) :=
  ⟨_, rfl, takeRequest_frame _ q _ (fun q u => ReplyChanges.mono (securitySetPolicy_only q u) rfl) (OnlyChanges.refl _ _) rfl⟩

theorem execSecurityClearAlarm_frame (q : Request) (s : State) :
    ResultChanges [.sill, .control, .counters, .stream, .domain, .security, .fresh] s (execSecurityClearAlarm q s) :=
  ⟨_, rfl, takeRequest_frame _ q _ (fun q u => ReplyChanges.mono (securityClearAlarm_only q u) rfl) (OnlyChanges.refl _ _) rfl⟩

theorem execSecurityAttest_frame (q : Request) (s : State) :
    ResultChanges [.sill, .control, .counters, .stream, .domain, .security, .fresh] s (execSecurityAttest q s) :=
  ⟨_, rfl, takeRequest_frame _ q _ (fun q u => ReplyChanges.mono (securityAttest_only q u) rfl) (OnlyChanges.refl _ _) rfl⟩

theorem execSecurityGetCert_frame (q : Request) (s : State) :
    ResultChanges [.sill, .control, .counters, .stream, .domain, .security] s (execSecurityGetCert q s) :=
  ⟨_, rfl, takeRequest_frame _ q _ (fun q u => ReplyChanges.mono (securityGetCert_only q u) rfl) (OnlyChanges.refl _ _) rfl⟩

theorem execSecurityGetStatus_frame (q : Request) (s : State) :
    ResultChanges [.sill, .control, .counters, .stream, .domain, .security] s (execSecurityGetStatus q s) :=
  ⟨_, rfl, takeRequest_frame _ q _ (fun q u => ReplyChanges.mono (securityGetStatus_only q u) rfl) (OnlyChanges.refl _ _) rfl⟩

theorem execSecurityGetSlots_frame (q : Request) (s : State) :
    ResultChanges [.sill, .control, .counters, .stream, .domain, .security] s (execSecurityGetSlots q s) :=
  ⟨_, rfl, takeRequest_frame _ q _ (fun q u => ReplyChanges.mono (securityGetSlots_only q u) rfl) (OnlyChanges.refl _ _) rfl⟩

theorem execSecurityGetCounts_frame (q : Request) (s : State) :
    ResultChanges [.sill, .control, .counters, .stream, .domain, .security] s (execSecurityGetCounts q s) :=
  ⟨_, rfl, takeRequest_frame _ q _ (fun q u => ReplyChanges.mono (securityGetCounts_only q u) rfl) (OnlyChanges.refl _ _) rfl⟩

theorem execRefMeasurement_frame (f : Vector Int 6) (phase : Int) (s : State) :
    ResultChanges [.sill, .control, .counters, .timing] s (execRefMeasurement f phase s) :=
  ⟨_, rfl, refMeasurement_frame _ _ (OnlyChanges.refl _ _) rfl⟩

theorem execRefAbsence_frame (ref : Fin 4) (s : State) :
    ResultChanges [.sill, .control, .counters, .timing] s (execRefAbsence ref s) := by
  refine ⟨_, rfl, ?_⟩
  repeat' first
    | with_reducible exact OnlyChanges.refl _ _
    | with_reducible assumption
    | with_reducible apply OnlyChanges.ite
    | with_reducible refine OnlyChanges.cond (fun _ => ?_) ?_
    | with_reducible apply sourceAbsent_frame
    | ((with_reducible refine Part.nested ?_); rfl)
    | split
    | dsimp only

theorem execRefDisqualified_frame (source : Fin 6) (s : State) :
    ResultChanges [.sill, .control, .counters, .timing] s (execRefDisqualified source s) :=
  ⟨_, rfl, refDisqualified_frame _ (OnlyChanges.refl _ _) rfl⟩

theorem execRefRequalified_frame (source : Fin 6) (s : State) :
    ResultChanges [.sill, .control, .counters, .timing] s (execRefRequalified source s) :=
  ⟨_, rfl, refRequalified_frame _ (OnlyChanges.refl _ _) rfl⟩

theorem execRefSelChange_frame (v : Fin 8) (s : State) :
    ResultChanges [.pins, .sill, .control, .counters, .timing] s (execRefSelChange v s) :=
  ⟨_, rfl, refSelChange_frame _ (OnlyChanges.refl _ _) rfl⟩

theorem execLockTestMet_frame (s : State) :
    ResultChanges [.sill, .control, .counters, .timing] s (execLockTestMet s) :=
  ⟨_, rfl, lockTestMet_frame  (OnlyChanges.refl _ _) rfl⟩

theorem execDcoUpdate_frame (loop : Int) (s : State) :
    ResultChanges [.timing] s (execDcoUpdate loop s) :=
  ⟨_, rfl, dcoUpdate_frame _ (OnlyChanges.refl _ _) rfl⟩

theorem execPpsInEdge_frame (highNs : Nat) (sinceNs : Nat) (lateNs : Fin 8) (s : State) :
    ResultChanges [.sill, .control, .counters, .carrier, .framer, .sched, .protect, .security, .timing, .monitor, .fresh] s (execPpsInEdge highNs sinceNs lateNs s) :=
  ⟨_, rfl, ppsInEdge_frame _ _ _ (OnlyChanges.refl _ _) rfl⟩

theorem execTodMode2Expiry_frame (s : State) :
    ResultChanges [.sill, .control, .counters, .timing] s (execTodMode2Expiry s) :=
  ⟨_, rfl, todMode2Expiry_frame  (OnlyChanges.refl _ _) rfl⟩

theorem execTodSlewEnd_frame (s : State) :
    ResultChanges [.sill, .control, .counters, .carrier, .framer, .sched, .protect, .security, .timing, .monitor, .fresh] s (execTodSlewEnd s) :=
  ⟨_, rfl, todSlewEnd_frame  (OnlyChanges.refl _ _) rfl⟩

theorem execPpsOutPulse_frame (s : State) :
    ResultChanges [.pins, .power, .cal, .elements, .carrier, .client, .timing, .monitor] s (execPpsOutPulse s) :=
  ⟨_, rfl, ppsOutPulse_frame  (OnlyChanges.refl _ _) rfl⟩

theorem execFrameOutPulse_frame (s : State) :
    ResultChanges [.pins, .power, .cal, .elements, .carrier, .client, .timing, .monitor] s (execFrameOutPulse s) :=
  ⟨_, rfl, frameOutPulse_frame  (OnlyChanges.refl _ _) rfl⟩

theorem execTimingSetRefs_frame (q : Request) (s : State) :
    ResultChanges [.sill, .control, .counters, .stream, .domain, .security, .timing] s (execTimingSetRefs q s) :=
  ⟨_, rfl, takeRequest_frame _ q _ (fun q u => ReplyChanges.mono (timingSetRefs_only q u) rfl) (OnlyChanges.refl _ _) rfl⟩

theorem execTimingSetLoop_frame (q : Request) (s : State) :
    ResultChanges [.sill, .control, .counters, .stream, .domain, .security, .timing] s (execTimingSetLoop q s) :=
  ⟨_, rfl, takeRequest_frame _ q _ (fun q u => ReplyChanges.mono (timingSetLoop_only q u) rfl) (OnlyChanges.refl _ _) rfl⟩

theorem execTimingSetDco_frame (q : Request) (s : State) :
    ResultChanges [.sill, .control, .counters, .stream, .domain, .security, .timing] s (execTimingSetDco q s) :=
  ⟨_, rfl, takeRequest_frame _ q _ (fun q u => ReplyChanges.mono (timingSetDco_only q u) rfl) (OnlyChanges.refl _ _) rfl⟩

theorem execTimingSetTod_frame (q : Request) (s : State) :
    ResultChanges [.sill, .control, .counters, .stream, .domain, .carrier, .framer, .sched, .protect, .security, .timing, .monitor, .fresh] s (execTimingSetTod q s) :=
  ⟨_, rfl, takeRequest_frame _ q _ (fun q u => ReplyChanges.mono (timingSetTod_only q u) rfl) (OnlyChanges.refl _ _) rfl⟩

theorem execTimingSetOutputs_frame (q : Request) (s : State) :
    ResultChanges [.sill, .control, .counters, .stream, .domain, .security, .timing] s (execTimingSetOutputs q s) :=
  ⟨_, rfl, takeRequest_frame _ q _ (fun q u => ReplyChanges.mono (timingSetOutputs_only q u) rfl) (OnlyChanges.refl _ _) rfl⟩

theorem execTimingRealign_frame (q : Request) (s : State) :
    ResultChanges [.sill, .control, .counters, .stream, .domain, .security, .timing] s (execTimingRealign q s) :=
  ⟨_, rfl, takeRequest_frame _ q _ (fun q u => ReplyChanges.mono (timingRealign_only q u) rfl) (OnlyChanges.refl _ _) rfl⟩

theorem execTimingGetStatus_frame (q : Request) (s : State) :
    ResultChanges [.sill, .control, .counters, .stream, .domain, .security] s (execTimingGetStatus q s) :=
  ⟨_, rfl, takeRequest_frame _ q _ (fun q u => ReplyChanges.mono (timingGetStatus_only q u) rfl) (OnlyChanges.refl _ _) rfl⟩

theorem execMonRefSettled_frame (conv : Fin 2) (s : State) :
    ResultChanges [.monitor] s (execMonRefSettled conv s) :=
  ⟨_, rfl, monRefSettled_frame _ (OnlyChanges.refl _ _) rfl⟩

theorem execMonConverterApply_frame (conv : Fin 2) (s : State) :
    ResultChanges [.monitor] s (execMonConverterApply conv s) :=
  ⟨_, rfl, monConverterApply_frame _ (OnlyChanges.refl _ _) rfl⟩

theorem execMonValueComplete_frame (q : Fin 2) (vref : Nat) (v : List Int) (s : State) :
    ResultChanges [.sill, .control, .counters, .monitor] s (execMonValueComplete q vref v s) :=
  ⟨_, rfl, monValueComplete_frame _ _ _ (OnlyChanges.refl _ _) rfl⟩

theorem execMonPassEnd_frame (q : Fin 2) (s : State) :
    ResultChanges [.power, .cal, .elements, .carrier, .client, .monitor] s (execMonPassEnd q s) :=
  ⟨_, rfl, monPassEnd_frame _ (OnlyChanges.refl _ _) rfl⟩

theorem execMonTriggerTimer_frame (q : Fin 2) (s : State) :
    ResultChanges [.power, .cal, .elements, .carrier, .client, .monitor] s (execMonTriggerTimer q s) :=
  ⟨_, rfl, monTriggerTimer_frame _ (OnlyChanges.refl _ _) rfl⟩

theorem execMonLatchedTriggerStart_frame (q : Fin 2) (s : State) :
    ResultChanges [.monitor] s (execMonLatchedTriggerStart q s) :=
  ⟨_, rfl, monLatchedTriggerStart_frame _ (OnlyChanges.refl _ _) rfl⟩

theorem execMonInjectComplete_frame (conv : Fin 2) (vref : Nat) (v : List Int) (s : State) :
    ResultChanges [.sill, .control, .counters, .stream, .domain, .security, .monitor] s (execMonInjectComplete conv vref v s) :=
  ⟨_, rfl, monInjectComplete_frame _ _ _ (OnlyChanges.refl _ _) rfl⟩

theorem execDecimOutput_frame (c : Fin 8) (s : State) :
    ResultChanges [.sill, .control, .counters, .monitor] s (execDecimOutput c s) := by
  refine ⟨_, rfl, ?_⟩
  repeat' first
    | with_reducible exact OnlyChanges.refl _ _
    | with_reducible assumption
    | with_reducible apply OnlyChanges.ite
    | with_reducible refine OnlyChanges.cond (fun _ => ?_) ?_
    | with_reducible apply decimOutput_frame
    | ((with_reducible refine Part.nested ?_); rfl)
    | split
    | dsimp only

theorem execDecimSettled_frame (c : Fin 8) (s : State) :
    ResultChanges [.sill, .control, .counters, .monitor] s (execDecimSettled c s) :=
  ⟨_, rfl, decimSettled_frame _ (OnlyChanges.refl _ _) rfl⟩

theorem execMonitorSetConverter_frame (q : Request) (s : State) :
    ResultChanges [.sill, .power, .control, .counters, .stream, .domain, .cal, .elements, .carrier, .client, .security, .monitor] s (execMonitorSetConverter q s) :=
  ⟨_, rfl, takeRequest_frame _ q _ (fun q u => ReplyChanges.mono (monitorSetConverter_only q u) rfl) (OnlyChanges.refl _ _) rfl⟩

theorem execMonitorSetSequence_frame (q : Request) (s : State) :
    ResultChanges [.sill, .power, .control, .counters, .stream, .domain, .cal, .elements, .carrier, .client, .security, .monitor] s (execMonitorSetSequence q s) :=
  ⟨_, rfl, takeRequest_frame _ q _ (fun q u => ReplyChanges.mono (monitorSetSequence_only q u) rfl) (OnlyChanges.refl _ _) rfl⟩

theorem execMonitorSetDecim_frame (q : Request) (s : State) :
    ResultChanges [.sill, .power, .control, .counters, .stream, .domain, .cal, .elements, .carrier, .client, .security, .monitor] s (execMonitorSetDecim q s) :=
  ⟨_, rfl, takeRequest_frame _ q _ (fun q u => ReplyChanges.mono (monitorSetDecim_only q u) rfl) (OnlyChanges.refl _ _) rfl⟩

theorem execMonitorSetAccum_frame (q : Request) (s : State) :
    ResultChanges [.sill, .control, .counters, .stream, .domain, .security, .monitor] s (execMonitorSetAccum q s) :=
  ⟨_, rfl, takeRequest_frame _ q _ (fun q u => ReplyChanges.mono (monitorSetAccum_only q u) rfl) (OnlyChanges.refl _ _) rfl⟩

theorem execMonitorTrigger_frame (q : Request) (s : State) :
    ResultChanges [.sill, .power, .control, .counters, .stream, .domain, .cal, .elements, .carrier, .client, .security, .monitor] s (execMonitorTrigger q s) :=
  ⟨_, rfl, takeRequest_frame _ q _ (fun q u => ReplyChanges.mono (monitorTrigger_only q u) rfl) (OnlyChanges.refl _ _) rfl⟩

theorem execMonitorInject_frame (q : Request) (s : State) :
    ResultChanges [.sill, .power, .control, .counters, .stream, .domain, .cal, .elements, .carrier, .client, .security, .monitor] s (execMonitorInject q s) :=
  ⟨_, rfl, takeRequest_frame _ q _ (fun q u => ReplyChanges.mono (monitorInject_only q u) rfl) (OnlyChanges.refl _ _) rfl⟩

theorem execMonitorReadSlots_frame (q : Request) (s : State) :
    ResultChanges [.sill, .control, .counters, .stream, .domain, .security, .monitor] s (execMonitorReadSlots q s) :=
  ⟨_, rfl, takeRequest_frame _ q _ (fun q u => ReplyChanges.mono (monitorReadSlots_only q u) rfl) (OnlyChanges.refl _ _) rfl⟩

theorem execMonitorReadTrackers_frame (q : Request) (s : State) :
    ResultChanges [.sill, .control, .counters, .stream, .domain, .security, .monitor] s (execMonitorReadTrackers q s) :=
  ⟨_, rfl, takeRequest_frame _ q _ (fun q u => ReplyChanges.mono (monitorReadTrackers_only q u) rfl) (OnlyChanges.refl _ _) rfl⟩

theorem execMonitorGetStatus_frame (q : Request) (s : State) :
    ResultChanges [.sill, .control, .counters, .stream, .domain, .security] s (execMonitorGetStatus q s) :=
  ⟨_, rfl, takeRequest_frame _ q _ (fun q u => ReplyChanges.mono (monitorGetStatus_only q u) rfl) (OnlyChanges.refl _ _) rfl⟩

theorem execStreamDataTx_frame (vc : Fin 4) (s : State) :
    ResultChanges [.sill, .control, .counters, .stream] s (execStreamDataTx vc s) :=
  ⟨_, rfl, streamDataTx_frame _ (OnlyChanges.refl _ _) rfl⟩

theorem execStreamMessageRx_frame (crcOk : Bool) (m : Message ⊕ LinkControl) (s : State) :
    ResultChanges [.sill, .control, .counters, .stream] s (execStreamMessageRx crcOk m s) :=
  ⟨_, rfl, streamMessageRx_frame _ _ (OnlyChanges.refl _ _) rfl⟩

theorem execStreamLinkControlTx_frame (s : State) :
    ResultChanges [.counters, .stream] s (execStreamLinkControlTx s) :=
  ⟨_, rfl, streamLinkControlTx_frame  (OnlyChanges.refl _ _) rfl⟩

theorem execStreamReplayTimeout_frame (s : State) :
    ResultChanges [.counters, .stream] s (execStreamReplayTimeout s) :=
  ⟨_, rfl, streamReplayTimeout_frame  (OnlyChanges.refl _ _) rfl⟩

theorem execStreamRetrain_frame (s : State) :
    ResultChanges [.sill, .power, .control, .counters, .stream, .cal, .elements, .carrier, .client] s (execStreamRetrain s) :=
  ⟨_, rfl, streamRetrain_frame  (OnlyChanges.refl _ _) rfl⟩

theorem execCountersSetUnit_frame (q : Request) (s : State) :
    ResultChanges [.sill, .control, .counters, .stream, .domain, .security] s (execCountersSetUnit q s) :=
  ⟨_, rfl, takeRequest_frame _ q _ (fun q u => ReplyChanges.mono (countersSetUnit_only q u) rfl) (OnlyChanges.refl _ _) rfl⟩

theorem execCountersRead_frame (q : Request) (s : State) :
    ResultChanges [.sill, .control, .counters, .stream, .domain, .security] s (execCountersRead q s) :=
  ⟨_, rfl, takeRequest_frame _ q _ (fun q u => ReplyChanges.mono (countersRead_only q u) rfl) (OnlyChanges.refl _ _) rfl⟩

theorem execCountersClear_frame (q : Request) (s : State) :
    ResultChanges [.sill, .control, .counters, .stream, .domain, .security] s (execCountersClear q s) :=
  ⟨_, rfl, takeRequest_frame _ q _ (fun q u => ReplyChanges.mono (countersClear_only q u) rfl) (OnlyChanges.refl _ _) rfl⟩

theorem execCountersSetTrace_frame (q : Request) (s : State) :
    ResultChanges [.sill, .control, .counters, .stream, .domain, .security] s (execCountersSetTrace q s) :=
  ⟨_, rfl, takeRequest_frame _ q _ (fun q u => ReplyChanges.mono (countersSetTrace_only q u) rfl) (OnlyChanges.refl _ _) rfl⟩

theorem execCountersSetTags_frame (q : Request) (s : State) :
    ResultChanges [.sill, .control, .counters, .stream, .domain, .security] s (execCountersSetTags q s) :=
  ⟨_, rfl, takeRequest_frame _ q _ (fun q u => ReplyChanges.mono (countersSetTags_only q u) rfl) (OnlyChanges.refl _ _) rfl⟩

theorem execCountersSetStream_frame (q : Request) (s : State) :
    ResultChanges [.sill, .power, .control, .counters, .stream, .domain, .cal, .elements, .carrier, .client, .security] s (execCountersSetStream q s) :=
  ⟨_, rfl, takeRequest_frame _ q _ (fun q u => ReplyChanges.mono (countersSetStream_only q u) rfl) (OnlyChanges.refl _ _) rfl⟩

theorem execCountersGetStream_frame (q : Request) (s : State) :
    ResultChanges [.sill, .control, .counters, .stream, .domain, .security] s (execCountersGetStream q s) :=
  ⟨_, rfl, takeRequest_frame _ q _ (fun q u => ReplyChanges.mono (countersGetStream_only q u) rfl) (OnlyChanges.refl _ _) rfl⟩

theorem execTenonMessageRx_frame (p : Fin 8) (crcOk : Bool) (m : Message) (s : State) :
    ResultChanges [.sill, .flash, .fw, .control, .counters, .stream, .domain, .cal, .elements, .carrier, .security, .fresh] s (execTenonMessageRx p crcOk m s) :=
  ⟨_, rfl, tenonMessageRx_frame _ _ _ (OnlyChanges.refl _ _) rfl⟩

theorem execTenonDataTx_frame (p : Fin 8) (vc : Fin 4) (s : State) :
    ResultChanges [.sill, .control, .counters, .domain] s (execTenonDataTx p vc s) :=
  ⟨_, rfl, tenonDataTx_frame _ _ (OnlyChanges.refl _ _) rfl⟩

theorem execTenonLinkControlTx_frame (p : Fin 8) (s : State) :
    ResultChanges [.counters, .domain] s (execTenonLinkControlTx p s) :=
  ⟨_, rfl, tenonLinkControlTx_frame _ (OnlyChanges.refl _ _) rfl⟩

theorem execTenonLinkControlRx_frame (p : Fin 8) (crcOk : Bool) (k : LinkControl) (s : State) :
    ResultChanges [.sill, .power, .control, .counters, .domain] s (execTenonLinkControlRx p crcOk k s) :=
  ⟨_, rfl, tenonLinkControlRx_frame _ _ _ (OnlyChanges.refl _ _) rfl⟩

theorem execTenonReplayTimeout_frame (p : Fin 8) (s : State) :
    ResultChanges [.counters, .domain] s (execTenonReplayTimeout p s) :=
  ⟨_, rfl, tenonReplayTimeout_frame _ (OnlyChanges.refl _ _) rfl⟩

theorem execTenonWakeBurst_frame (p : Fin 8) (s : State) :
    ResultChanges [.power, .counters, .domain, .cal, .elements, .carrier, .client] s (execTenonWakeBurst p s) :=
  ⟨_, rfl, tenonWakeBurst_frame _ (OnlyChanges.refl _ _) rfl⟩

theorem execTenonAlignmentLoss_frame (p : Fin 8) (s : State) :
    ResultChanges [.sill, .control, .counters, .domain] s (execTenonAlignmentLoss p s) :=
  ⟨_, rfl, tenonAlignmentLoss_frame _ (OnlyChanges.refl _ _) rfl⟩

theorem execTenonRetrainTimeout_frame (p : Fin 8) (s : State) :
    ResultChanges [.sill, .control, .counters, .domain] s (execTenonRetrainTimeout p s) :=
  ⟨_, rfl, tenonRetrainTimeout_frame _ (OnlyChanges.refl _ _) rfl⟩

theorem execTenonDownRetry_frame (p : Fin 8) (s : State) :
    ResultChanges [.domain] s (execTenonDownRetry p s) :=
  ⟨_, rfl, tenonDownRetry_frame _ (OnlyChanges.refl _ _) rfl⟩

theorem execTenonHelloRx_frame (p : Fin 8) (x1 : Hello) (s : State) :
    ResultChanges [.sill, .control, .counters, .domain, .fresh] s (execTenonHelloRx p x1 s) :=
  ⟨_, rfl, tenonHelloRx_frame _ _ (OnlyChanges.refl _ _) rfl⟩

theorem execTenonAuthRx_frame (p : Fin 8) (x1 : Auth) (s : State) :
    ResultChanges [.sill, .control, .counters, .stream, .domain, .security] s (execTenonAuthRx p x1 s) :=
  ⟨_, rfl, tenonAuthRx_frame _ _ (OnlyChanges.refl _ _) rfl⟩

theorem execMapSend_frame (level : Fin 3) (observed : List Seen) (s : State) :
    ResultChanges [.sill, .control, .counters, .domain] s (execMapSend level observed s) :=
  ⟨_, rfl, mapSend_frame _ _ (OnlyChanges.refl _ _) rfl⟩

theorem execMapRx_frame (p : Fin 8) (map : MapMsg) (s : State) :
    ResultChanges [.sill, .control, .counters, .domain] s (execMapRx p map s) :=
  ⟨_, rfl, mapRx_frame _ _ (OnlyChanges.refl _ _) rfl⟩

theorem execFenceReturn_frame (level : Fin 3) (s : State) :
    ResultChanges [.domain] s (execFenceReturn level s) :=
  ⟨_, rfl, fenceReturn_frame _ (OnlyChanges.refl _ _) rfl⟩

theorem execFenceTimeout_frame (level : Fin 3) (s : State) :
    ResultChanges [.domain] s (execFenceTimeout level s) :=
  ⟨_, rfl, fenceAgain_frame _ (OnlyChanges.refl _ _) rfl⟩

theorem execManagerTakeover_frame (s : State) :
    ResultChanges [.sill, .control, .counters, .domain] s (execManagerTakeover s) :=
  ⟨_, rfl, managerTakeover_frame  (OnlyChanges.refl _ _) rfl⟩

theorem execCollationClose_frame (entry : Nat) (s : State) :
    ResultChanges [.control, .stream, .domain, .security] s (execCollationClose entry s) :=
  ⟨_, rfl, collationClose_frame _ (OnlyChanges.refl _ _) rfl⟩

theorem execDistributionTimeout_frame (s : State) :
    ResultChanges [.sill, .control, .counters, .domain] s (execDistributionTimeout s) :=
  ⟨_, rfl, distributionTimeout_frame  (OnlyChanges.refl _ _) rfl⟩

theorem execDomainSetPort_frame (q : Request) (s : State) :
    ResultChanges [.sill, .power, .control, .counters, .stream, .domain, .cal, .elements, .carrier, .client, .security] s (execDomainSetPort q s) :=
  ⟨_, rfl, takeRequest_frame _ q _ (fun q u => ReplyChanges.mono (domainSetPort_only q u) rfl) (OnlyChanges.refl _ _) rfl⟩

theorem execDomainGetPorts_frame (q : Request) (s : State) :
    ResultChanges [.sill, .control, .counters, .stream, .domain, .security] s (execDomainGetPorts q s) :=
  ⟨_, rfl, takeRequest_frame _ q _ (fun q u => ReplyChanges.mono (domainGetPorts_only q u) rfl) (OnlyChanges.refl _ _) rfl⟩

theorem execDomainGetTopology_frame (q : Request) (s : State) :
    ResultChanges [.sill, .control, .counters, .stream, .domain, .security] s (execDomainGetTopology q s) :=
  ⟨_, rfl, takeRequest_frame _ q _ (fun q u => ReplyChanges.mono (domainGetTopology_only q u) rfl) (OnlyChanges.refl _ _) rfl⟩

theorem execDomainSetFloor_frame (q : Request) (s : State) :
    ResultChanges [.sill, .flash, .control, .counters, .stream, .domain, .security, .fresh] s (execDomainSetFloor q s) :=
  ⟨_, rfl, takeRequest_frame _ q _ (fun q u => ReplyChanges.mono (domainSetFloor_only q u) rfl) (OnlyChanges.refl _ _) rfl⟩

theorem execDomainSetManager_frame (q : Request) (s : State) :
    ResultChanges [.sill, .control, .counters, .stream, .domain, .security] s (execDomainSetManager q s) :=
  ⟨_, rfl, takeRequest_frame _ q _ (fun q u => ReplyChanges.mono (domainSetManager_only q u) rfl) (OnlyChanges.refl _ _) rfl⟩

theorem execDomainDistribute_frame (q : Request) (s : State) :
    ResultChanges [.sill, .control, .counters, .stream, .domain, .security] s (execDomainDistribute q s) :=
  ⟨_, rfl, takeRequest_frame _ q _ (fun q u => ReplyChanges.mono (domainDistribute_only q u) rfl) (OnlyChanges.refl _ _) rfl⟩

theorem execDomainGetDist_frame (q : Request) (s : State) :
    ResultChanges [.sill, .control, .counters, .stream, .domain, .security] s (execDomainGetDist q s) :=
  ⟨_, rfl, takeRequest_frame _ q _ (fun q u => ReplyChanges.mono (domainGetDist_only q u) rfl) (OnlyChanges.refl _ _) rfl⟩

theorem execDomainFreePosition_frame (q : Request) (s : State) :
    ResultChanges [.sill, .control, .counters, .stream, .domain, .security] s (execDomainFreePosition q s) :=
  ⟨_, rfl, takeRequest_frame _ q _ (fun q u => ReplyChanges.mono (domainFreePosition_only q u) rfl) (OnlyChanges.refl _ _) rfl⟩

theorem execFirmwareGetInfo_frame (q : Request) (s : State) :
    ResultChanges [.sill, .control, .counters, .stream, .domain, .security] s (execFirmwareGetInfo q s) :=
  ⟨_, rfl, takeRequest_frame _ q _ (fun q u => ReplyChanges.mono (firmwareGetInfo_only q u) rfl) (OnlyChanges.refl _ _) rfl⟩

theorem execFirmwareStageBegin_frame (q : Request) (s : State) :
    ResultChanges [.sill, .flash, .fw, .control, .counters, .stream, .domain, .security, .fresh] s (execFirmwareStageBegin q s) :=
  ⟨_, rfl, takeRequest_frame _ q _ (fun q u => ReplyChanges.mono (firmwareStageBegin_only q u) rfl) (OnlyChanges.refl _ _) rfl⟩

theorem execFirmwareStageWrite_frame (q : Request) (s : State) :
    ResultChanges [.sill, .flash, .fw, .control, .counters, .stream, .domain, .security, .fresh] s (execFirmwareStageWrite q s) :=
  ⟨_, rfl, takeRequest_frame _ q _ (fun q u => ReplyChanges.mono (firmwareStageWrite_only q u) rfl) (OnlyChanges.refl _ _) rfl⟩

theorem execFirmwareStageVerify_frame (q : Request) (s : State) :
    ResultChanges [.sill, .flash, .fw, .control, .counters, .stream, .domain, .cal, .elements, .carrier, .security, .fresh] s (execFirmwareStageVerify q s) :=
  ⟨_, rfl, takeRequest_frame _ q _ (fun q u => ReplyChanges.mono (firmwareStageVerify_only q u) rfl) (OnlyChanges.refl _ _) rfl⟩

theorem execFirmwareActivate_frame (q : Request) (s : State) :
    ResultChanges [.sill, .fw, .control, .counters, .stream, .domain, .protect, .security] s (execFirmwareActivate q s) :=
  ⟨_, rfl, takeRequest_frame _ q _ (fun q u => ReplyChanges.mono (firmwareActivate_only q u) rfl) (OnlyChanges.refl _ _) rfl⟩

theorem execFirmwareCommit_frame (q : Request) (s : State) :
    ResultChanges [.sill, .otp, .flash, .fw, .control, .counters, .stream, .domain, .security, .fresh] s (execFirmwareCommit q s) :=
  ⟨_, rfl, takeRequest_frame _ q _ (fun q u => ReplyChanges.mono (firmwareCommit_only q u) rfl) (OnlyChanges.refl _ _) rfl⟩

theorem execFirmwareRollback_frame (q : Request) (s : State) :
    ResultChanges [.sill, .fw, .control, .counters, .stream, .domain, .protect, .security] s (execFirmwareRollback q s) :=
  ⟨_, rfl, takeRequest_frame _ q _ (fun q u => ReplyChanges.mono (firmwareRollback_only q u) rfl) (OnlyChanges.refl _ _) rfl⟩

theorem execSessionOpen_frame (q : Request) (s : State) :
    ResultChanges [.sill, .control, .counters, .stream, .domain, .security, .fresh] s (execSessionOpen q s) :=
  ⟨_, rfl, takeRequest_frame _ q _ (fun q u => ReplyChanges.mono (sessionOpen_only q u) rfl) (OnlyChanges.refl _ _) rfl⟩

theorem execSessionAuth_frame (q : Request) (s : State) :
    ResultChanges [.sill, .control, .counters, .stream, .domain, .security] s (execSessionAuth q s) :=
  ⟨_, rfl, takeRequest_frame _ q _ (fun q u => ReplyChanges.mono (sessionAuth_only q u) rfl) (OnlyChanges.refl _ _) rfl⟩

theorem execSessionClose_frame (q : Request) (s : State) :
    ResultChanges [.sill, .control, .counters, .stream, .domain, .security] s (execSessionClose q s) :=
  ⟨_, rfl, takeRequest_frame _ q _ (fun q u => ReplyChanges.mono (sessionClose_only q u) rfl) (OnlyChanges.refl _ _) rfl⟩

theorem execSessionGrantCounters_frame (q : Request) (s : State) :
    ResultChanges [.sill, .control, .counters, .stream, .domain, .security] s (execSessionGrantCounters q s) :=
  ⟨_, rfl, takeRequest_frame _ q _ (fun q u => ReplyChanges.mono (sessionGrantCounters_only q u) rfl) (OnlyChanges.refl _ _) rfl⟩

theorem execSessionGetInfo_frame (q : Request) (s : State) :
    ResultChanges [.sill, .control, .counters, .stream, .domain, .security] s (execSessionGetInfo q s) :=
  ⟨_, rfl, takeRequest_frame _ q _ (fun q u => ReplyChanges.mono (sessionGetInfo_only q u) rfl) (OnlyChanges.refl _ _) rfl⟩

theorem execSessionSetEvents_frame (q : Request) (s : State) :
    ResultChanges [.sill, .control, .counters, .stream, .domain, .security] s (execSessionSetEvents q s) :=
  ⟨_, rfl, takeRequest_frame _ q _ (fun q u => ReplyChanges.mono (sessionSetEvents_only q u) rfl) (OnlyChanges.refl _ _) rfl⟩

theorem execJunctionExceeds105c_frame (s : State) :
    ResultChanges [.sill] s (execJunctionExceeds105c s) :=
  ⟨_, rfl, junctionExceeds105c_frame  (OnlyChanges.refl _ _) rfl⟩

theorem execShaperCreditReachesZero_frame (p : Fin 256) (s : State) :
    ResultChanges [.sill, .power, .control, .counters, .cal, .elements, .carrier, .client, .sched, .memory, .fresh] s (execShaperCreditReachesZero p s) :=
  ⟨_, rfl, shaperCreditReachesZero_frame _ (OnlyChanges.refl _ _) rfl⟩

theorem execEntropyHealthRestored_frame (s : State) :
    ResultChanges [.security] s (execEntropyHealthRestored s) :=
  ⟨_, rfl, entropyHealthRestored_frame  (OnlyChanges.refl _ _) rfl⟩

theorem execTamperInDeasserted_frame (s : State) :
    ResultChanges [.pins] s (execTamperInDeasserted s) :=
  ⟨_, rfl, tamperInDeasserted_frame  (OnlyChanges.refl _ _) rfl⟩

theorem execZeroizeNDeasserted_frame (s : State) :
    ResultChanges [.pins] s (execZeroizeNDeasserted s) :=
  ⟨_, rfl, zeroizeNDeasserted_frame  (OnlyChanges.refl _ _) rfl⟩

theorem execRefPresenceRestored_frame (ref : Fin 4) (s : State) :
    ResultChanges [.sill, .control, .counters, .timing] s (execRefPresenceRestored ref s) :=
  ⟨_, rfl, refPresenceRestored_frame _ (OnlyChanges.refl _ _) rfl⟩

theorem execBraceHeartbeatMissed_frame (s : State) :
    ResultChanges [.counters, .protect] s (execBraceHeartbeatMissed s) :=
  ⟨_, rfl, braceHeartbeatMissed_frame  (OnlyChanges.refl _ _) rfl⟩

theorem execScribeWordAlignmentGained_frame (port : Port) (s : State) :
    ResultChanges [.sill, .control, .counters, .stream, .domain, .fresh] s (execScribeWordAlignmentGained port s) :=
  ⟨_, rfl, scribeWordAlignmentGained_frame _ (OnlyChanges.refl _ _) rfl⟩

theorem execWatchdogStrobe_frame (s : State) :
    ResultChanges [.control] s (execWatchdogStrobe s) :=
  ⟨_, rfl, watchdogStrobe_frame  (OnlyChanges.refl _ _) rfl⟩

end Sys2Proof.Machine
end

