-- ==== Sys2Proof/Laws/State.lean ====
section
/-! SUPPORT. What each update of a part of the state leaves in each field; later proofs need not unfold a record update. -/

-- One theorem after another: with a thread for each, the package as one text outgrows the checker's memory limit.
set_option Elab.async false

namespace Sys2Proof.Machine

@[simp] theorem modPins_pins (f : Pins → Pins) (s : State) : (modPins f s).pins = f s.pins := rfl
@[simp] theorem modPins_sill (f : Pins → Pins) (s : State) : (modPins f s).sill = s.sill := rfl
@[simp] theorem modPins_power (f : Pins → Pins) (s : State) : (modPins f s).power = s.power := rfl
@[simp] theorem modPins_otp (f : Pins → Pins) (s : State) : (modPins f s).otp = s.otp := rfl
@[simp] theorem modPins_flash (f : Pins → Pins) (s : State) : (modPins f s).flash = s.flash := rfl
@[simp] theorem modPins_fw (f : Pins → Pins) (s : State) : (modPins f s).fw = s.fw := rfl
@[simp] theorem modPins_control (f : Pins → Pins) (s : State) : (modPins f s).control = s.control := rfl
@[simp] theorem modPins_counters (f : Pins → Pins) (s : State) : (modPins f s).counters = s.counters := rfl
@[simp] theorem modPins_stream (f : Pins → Pins) (s : State) : (modPins f s).stream = s.stream := rfl
@[simp] theorem modPins_domain (f : Pins → Pins) (s : State) : (modPins f s).domain = s.domain := rfl
@[simp] theorem modPins_cal (f : Pins → Pins) (s : State) : (modPins f s).cal = s.cal := rfl
@[simp] theorem modPins_elements (f : Pins → Pins) (s : State) : (modPins f s).elements = s.elements := rfl
@[simp] theorem modPins_carrier (f : Pins → Pins) (s : State) : (modPins f s).carrier = s.carrier := rfl
@[simp] theorem modPins_joinery (f : Pins → Pins) (s : State) : (modPins f s).joinery = s.joinery := rfl
@[simp] theorem modPins_framer (f : Pins → Pins) (s : State) : (modPins f s).framer = s.framer := rfl
@[simp] theorem modPins_client (f : Pins → Pins) (s : State) : (modPins f s).client = s.client := rfl
@[simp] theorem modPins_sched (f : Pins → Pins) (s : State) : (modPins f s).sched = s.sched := rfl
@[simp] theorem modPins_memory (f : Pins → Pins) (s : State) : (modPins f s).memory = s.memory := rfl
@[simp] theorem modPins_protect (f : Pins → Pins) (s : State) : (modPins f s).protect = s.protect := rfl
@[simp] theorem modPins_security (f : Pins → Pins) (s : State) : (modPins f s).security = s.security := rfl
@[simp] theorem modPins_timing (f : Pins → Pins) (s : State) : (modPins f s).timing = s.timing := rfl
@[simp] theorem modPins_monitor (f : Pins → Pins) (s : State) : (modPins f s).monitor = s.monitor := rfl
@[simp] theorem modPins_localNs (f : Pins → Pins) (s : State) : (modPins f s).localNs = s.localNs := rfl
@[simp] theorem modPins_fresh (f : Pins → Pins) (s : State) : (modPins f s).fresh = s.fresh := rfl
@[simp] theorem modPins_pending (f : Pins → Pins) (s : State) : (modPins f s).pending = s.pending := rfl

@[simp] theorem modSill_pins (f : Sill → Sill) (s : State) : (modSill f s).pins = s.pins := rfl
@[simp] theorem modSill_sill (f : Sill → Sill) (s : State) : (modSill f s).sill = f s.sill := rfl
@[simp] theorem modSill_power (f : Sill → Sill) (s : State) : (modSill f s).power = s.power := rfl
@[simp] theorem modSill_otp (f : Sill → Sill) (s : State) : (modSill f s).otp = s.otp := rfl
@[simp] theorem modSill_flash (f : Sill → Sill) (s : State) : (modSill f s).flash = s.flash := rfl
@[simp] theorem modSill_fw (f : Sill → Sill) (s : State) : (modSill f s).fw = s.fw := rfl
@[simp] theorem modSill_control (f : Sill → Sill) (s : State) : (modSill f s).control = s.control := rfl
@[simp] theorem modSill_counters (f : Sill → Sill) (s : State) : (modSill f s).counters = s.counters := rfl
@[simp] theorem modSill_stream (f : Sill → Sill) (s : State) : (modSill f s).stream = s.stream := rfl
@[simp] theorem modSill_domain (f : Sill → Sill) (s : State) : (modSill f s).domain = s.domain := rfl
@[simp] theorem modSill_cal (f : Sill → Sill) (s : State) : (modSill f s).cal = s.cal := rfl
@[simp] theorem modSill_elements (f : Sill → Sill) (s : State) : (modSill f s).elements = s.elements := rfl
@[simp] theorem modSill_carrier (f : Sill → Sill) (s : State) : (modSill f s).carrier = s.carrier := rfl
@[simp] theorem modSill_joinery (f : Sill → Sill) (s : State) : (modSill f s).joinery = s.joinery := rfl
@[simp] theorem modSill_framer (f : Sill → Sill) (s : State) : (modSill f s).framer = s.framer := rfl
@[simp] theorem modSill_client (f : Sill → Sill) (s : State) : (modSill f s).client = s.client := rfl
@[simp] theorem modSill_sched (f : Sill → Sill) (s : State) : (modSill f s).sched = s.sched := rfl
@[simp] theorem modSill_memory (f : Sill → Sill) (s : State) : (modSill f s).memory = s.memory := rfl
@[simp] theorem modSill_protect (f : Sill → Sill) (s : State) : (modSill f s).protect = s.protect := rfl
@[simp] theorem modSill_security (f : Sill → Sill) (s : State) : (modSill f s).security = s.security := rfl
@[simp] theorem modSill_timing (f : Sill → Sill) (s : State) : (modSill f s).timing = s.timing := rfl
@[simp] theorem modSill_monitor (f : Sill → Sill) (s : State) : (modSill f s).monitor = s.monitor := rfl
@[simp] theorem modSill_localNs (f : Sill → Sill) (s : State) : (modSill f s).localNs = s.localNs := rfl
@[simp] theorem modSill_fresh (f : Sill → Sill) (s : State) : (modSill f s).fresh = s.fresh := rfl
@[simp] theorem modSill_pending (f : Sill → Sill) (s : State) : (modSill f s).pending = s.pending := rfl

@[simp] theorem modPower_pins (f : Power → Power) (s : State) : (modPower f s).pins = s.pins := rfl
@[simp] theorem modPower_sill (f : Power → Power) (s : State) : (modPower f s).sill = s.sill := rfl
@[simp] theorem modPower_power (f : Power → Power) (s : State) : (modPower f s).power = f s.power := rfl
@[simp] theorem modPower_otp (f : Power → Power) (s : State) : (modPower f s).otp = s.otp := rfl
@[simp] theorem modPower_flash (f : Power → Power) (s : State) : (modPower f s).flash = s.flash := rfl
@[simp] theorem modPower_fw (f : Power → Power) (s : State) : (modPower f s).fw = s.fw := rfl
@[simp] theorem modPower_control (f : Power → Power) (s : State) : (modPower f s).control = s.control := rfl
@[simp] theorem modPower_counters (f : Power → Power) (s : State) : (modPower f s).counters = s.counters := rfl
@[simp] theorem modPower_stream (f : Power → Power) (s : State) : (modPower f s).stream = s.stream := rfl
@[simp] theorem modPower_domain (f : Power → Power) (s : State) : (modPower f s).domain = s.domain := rfl
@[simp] theorem modPower_cal (f : Power → Power) (s : State) : (modPower f s).cal = s.cal := rfl
@[simp] theorem modPower_elements (f : Power → Power) (s : State) : (modPower f s).elements = s.elements := rfl
@[simp] theorem modPower_carrier (f : Power → Power) (s : State) : (modPower f s).carrier = s.carrier := rfl
@[simp] theorem modPower_joinery (f : Power → Power) (s : State) : (modPower f s).joinery = s.joinery := rfl
@[simp] theorem modPower_framer (f : Power → Power) (s : State) : (modPower f s).framer = s.framer := rfl
@[simp] theorem modPower_client (f : Power → Power) (s : State) : (modPower f s).client = s.client := rfl
@[simp] theorem modPower_sched (f : Power → Power) (s : State) : (modPower f s).sched = s.sched := rfl
@[simp] theorem modPower_memory (f : Power → Power) (s : State) : (modPower f s).memory = s.memory := rfl
@[simp] theorem modPower_protect (f : Power → Power) (s : State) : (modPower f s).protect = s.protect := rfl
@[simp] theorem modPower_security (f : Power → Power) (s : State) : (modPower f s).security = s.security := rfl
@[simp] theorem modPower_timing (f : Power → Power) (s : State) : (modPower f s).timing = s.timing := rfl
@[simp] theorem modPower_monitor (f : Power → Power) (s : State) : (modPower f s).monitor = s.monitor := rfl
@[simp] theorem modPower_localNs (f : Power → Power) (s : State) : (modPower f s).localNs = s.localNs := rfl
@[simp] theorem modPower_fresh (f : Power → Power) (s : State) : (modPower f s).fresh = s.fresh := rfl
@[simp] theorem modPower_pending (f : Power → Power) (s : State) : (modPower f s).pending = s.pending := rfl

@[simp] theorem modFw_pins (f : Fw → Fw) (s : State) : (modFw f s).pins = s.pins := rfl
@[simp] theorem modFw_sill (f : Fw → Fw) (s : State) : (modFw f s).sill = s.sill := rfl
@[simp] theorem modFw_power (f : Fw → Fw) (s : State) : (modFw f s).power = s.power := rfl
@[simp] theorem modFw_otp (f : Fw → Fw) (s : State) : (modFw f s).otp = s.otp := rfl
@[simp] theorem modFw_flash (f : Fw → Fw) (s : State) : (modFw f s).flash = s.flash := rfl
@[simp] theorem modFw_fw (f : Fw → Fw) (s : State) : (modFw f s).fw = f s.fw := rfl
@[simp] theorem modFw_control (f : Fw → Fw) (s : State) : (modFw f s).control = s.control := rfl
@[simp] theorem modFw_counters (f : Fw → Fw) (s : State) : (modFw f s).counters = s.counters := rfl
@[simp] theorem modFw_stream (f : Fw → Fw) (s : State) : (modFw f s).stream = s.stream := rfl
@[simp] theorem modFw_domain (f : Fw → Fw) (s : State) : (modFw f s).domain = s.domain := rfl
@[simp] theorem modFw_cal (f : Fw → Fw) (s : State) : (modFw f s).cal = s.cal := rfl
@[simp] theorem modFw_elements (f : Fw → Fw) (s : State) : (modFw f s).elements = s.elements := rfl
@[simp] theorem modFw_carrier (f : Fw → Fw) (s : State) : (modFw f s).carrier = s.carrier := rfl
@[simp] theorem modFw_joinery (f : Fw → Fw) (s : State) : (modFw f s).joinery = s.joinery := rfl
@[simp] theorem modFw_framer (f : Fw → Fw) (s : State) : (modFw f s).framer = s.framer := rfl
@[simp] theorem modFw_client (f : Fw → Fw) (s : State) : (modFw f s).client = s.client := rfl
@[simp] theorem modFw_sched (f : Fw → Fw) (s : State) : (modFw f s).sched = s.sched := rfl
@[simp] theorem modFw_memory (f : Fw → Fw) (s : State) : (modFw f s).memory = s.memory := rfl
@[simp] theorem modFw_protect (f : Fw → Fw) (s : State) : (modFw f s).protect = s.protect := rfl
@[simp] theorem modFw_security (f : Fw → Fw) (s : State) : (modFw f s).security = s.security := rfl
@[simp] theorem modFw_timing (f : Fw → Fw) (s : State) : (modFw f s).timing = s.timing := rfl
@[simp] theorem modFw_monitor (f : Fw → Fw) (s : State) : (modFw f s).monitor = s.monitor := rfl
@[simp] theorem modFw_localNs (f : Fw → Fw) (s : State) : (modFw f s).localNs = s.localNs := rfl
@[simp] theorem modFw_fresh (f : Fw → Fw) (s : State) : (modFw f s).fresh = s.fresh := rfl
@[simp] theorem modFw_pending (f : Fw → Fw) (s : State) : (modFw f s).pending = s.pending := rfl

@[simp] theorem modControl_pins (f : Control → Control) (s : State) : (modControl f s).pins = s.pins := rfl
@[simp] theorem modControl_sill (f : Control → Control) (s : State) : (modControl f s).sill = s.sill := rfl
@[simp] theorem modControl_power (f : Control → Control) (s : State) : (modControl f s).power = s.power := rfl
@[simp] theorem modControl_otp (f : Control → Control) (s : State) : (modControl f s).otp = s.otp := rfl
@[simp] theorem modControl_flash (f : Control → Control) (s : State) : (modControl f s).flash = s.flash := rfl
@[simp] theorem modControl_fw (f : Control → Control) (s : State) : (modControl f s).fw = s.fw := rfl
@[simp] theorem modControl_control (f : Control → Control) (s : State) : (modControl f s).control = f s.control := rfl
@[simp] theorem modControl_counters (f : Control → Control) (s : State) : (modControl f s).counters = s.counters := rfl
@[simp] theorem modControl_stream (f : Control → Control) (s : State) : (modControl f s).stream = s.stream := rfl
@[simp] theorem modControl_domain (f : Control → Control) (s : State) : (modControl f s).domain = s.domain := rfl
@[simp] theorem modControl_cal (f : Control → Control) (s : State) : (modControl f s).cal = s.cal := rfl
@[simp] theorem modControl_elements (f : Control → Control) (s : State) : (modControl f s).elements = s.elements := rfl
@[simp] theorem modControl_carrier (f : Control → Control) (s : State) : (modControl f s).carrier = s.carrier := rfl
@[simp] theorem modControl_joinery (f : Control → Control) (s : State) : (modControl f s).joinery = s.joinery := rfl
@[simp] theorem modControl_framer (f : Control → Control) (s : State) : (modControl f s).framer = s.framer := rfl
@[simp] theorem modControl_client (f : Control → Control) (s : State) : (modControl f s).client = s.client := rfl
@[simp] theorem modControl_sched (f : Control → Control) (s : State) : (modControl f s).sched = s.sched := rfl
@[simp] theorem modControl_memory (f : Control → Control) (s : State) : (modControl f s).memory = s.memory := rfl
@[simp] theorem modControl_protect (f : Control → Control) (s : State) : (modControl f s).protect = s.protect := rfl
@[simp] theorem modControl_security (f : Control → Control) (s : State) : (modControl f s).security = s.security := rfl
@[simp] theorem modControl_timing (f : Control → Control) (s : State) : (modControl f s).timing = s.timing := rfl
@[simp] theorem modControl_monitor (f : Control → Control) (s : State) : (modControl f s).monitor = s.monitor := rfl
@[simp] theorem modControl_localNs (f : Control → Control) (s : State) : (modControl f s).localNs = s.localNs := rfl
@[simp] theorem modControl_fresh (f : Control → Control) (s : State) : (modControl f s).fresh = s.fresh := rfl
@[simp] theorem modControl_pending (f : Control → Control) (s : State) : (modControl f s).pending = s.pending := rfl

@[simp] theorem modStream_pins (f : StreamPort → StreamPort) (s : State) : (modStream f s).pins = s.pins := rfl
@[simp] theorem modStream_sill (f : StreamPort → StreamPort) (s : State) : (modStream f s).sill = s.sill := rfl
@[simp] theorem modStream_power (f : StreamPort → StreamPort) (s : State) : (modStream f s).power = s.power := rfl
@[simp] theorem modStream_otp (f : StreamPort → StreamPort) (s : State) : (modStream f s).otp = s.otp := rfl
@[simp] theorem modStream_flash (f : StreamPort → StreamPort) (s : State) : (modStream f s).flash = s.flash := rfl
@[simp] theorem modStream_fw (f : StreamPort → StreamPort) (s : State) : (modStream f s).fw = s.fw := rfl
@[simp] theorem modStream_control (f : StreamPort → StreamPort) (s : State) : (modStream f s).control = s.control := rfl
@[simp] theorem modStream_counters (f : StreamPort → StreamPort) (s : State) : (modStream f s).counters = s.counters := rfl
@[simp] theorem modStream_stream (f : StreamPort → StreamPort) (s : State) : (modStream f s).stream = f s.stream := rfl
@[simp] theorem modStream_domain (f : StreamPort → StreamPort) (s : State) : (modStream f s).domain = s.domain := rfl
@[simp] theorem modStream_cal (f : StreamPort → StreamPort) (s : State) : (modStream f s).cal = s.cal := rfl
@[simp] theorem modStream_elements (f : StreamPort → StreamPort) (s : State) : (modStream f s).elements = s.elements := rfl
@[simp] theorem modStream_carrier (f : StreamPort → StreamPort) (s : State) : (modStream f s).carrier = s.carrier := rfl
@[simp] theorem modStream_joinery (f : StreamPort → StreamPort) (s : State) : (modStream f s).joinery = s.joinery := rfl
@[simp] theorem modStream_framer (f : StreamPort → StreamPort) (s : State) : (modStream f s).framer = s.framer := rfl
@[simp] theorem modStream_client (f : StreamPort → StreamPort) (s : State) : (modStream f s).client = s.client := rfl
@[simp] theorem modStream_sched (f : StreamPort → StreamPort) (s : State) : (modStream f s).sched = s.sched := rfl
@[simp] theorem modStream_memory (f : StreamPort → StreamPort) (s : State) : (modStream f s).memory = s.memory := rfl
@[simp] theorem modStream_protect (f : StreamPort → StreamPort) (s : State) : (modStream f s).protect = s.protect := rfl
@[simp] theorem modStream_security (f : StreamPort → StreamPort) (s : State) : (modStream f s).security = s.security := rfl
@[simp] theorem modStream_timing (f : StreamPort → StreamPort) (s : State) : (modStream f s).timing = s.timing := rfl
@[simp] theorem modStream_monitor (f : StreamPort → StreamPort) (s : State) : (modStream f s).monitor = s.monitor := rfl
@[simp] theorem modStream_localNs (f : StreamPort → StreamPort) (s : State) : (modStream f s).localNs = s.localNs := rfl
@[simp] theorem modStream_fresh (f : StreamPort → StreamPort) (s : State) : (modStream f s).fresh = s.fresh := rfl
@[simp] theorem modStream_pending (f : StreamPort → StreamPort) (s : State) : (modStream f s).pending = s.pending := rfl

@[simp] theorem modDomain_pins (f : Domain → Domain) (s : State) : (modDomain f s).pins = s.pins := rfl
@[simp] theorem modDomain_sill (f : Domain → Domain) (s : State) : (modDomain f s).sill = s.sill := rfl
@[simp] theorem modDomain_power (f : Domain → Domain) (s : State) : (modDomain f s).power = s.power := rfl
@[simp] theorem modDomain_otp (f : Domain → Domain) (s : State) : (modDomain f s).otp = s.otp := rfl
@[simp] theorem modDomain_flash (f : Domain → Domain) (s : State) : (modDomain f s).flash = s.flash := rfl
@[simp] theorem modDomain_fw (f : Domain → Domain) (s : State) : (modDomain f s).fw = s.fw := rfl
@[simp] theorem modDomain_control (f : Domain → Domain) (s : State) : (modDomain f s).control = s.control := rfl
@[simp] theorem modDomain_counters (f : Domain → Domain) (s : State) : (modDomain f s).counters = s.counters := rfl
@[simp] theorem modDomain_stream (f : Domain → Domain) (s : State) : (modDomain f s).stream = s.stream := rfl
@[simp] theorem modDomain_domain (f : Domain → Domain) (s : State) : (modDomain f s).domain = f s.domain := rfl
@[simp] theorem modDomain_cal (f : Domain → Domain) (s : State) : (modDomain f s).cal = s.cal := rfl
@[simp] theorem modDomain_elements (f : Domain → Domain) (s : State) : (modDomain f s).elements = s.elements := rfl
@[simp] theorem modDomain_carrier (f : Domain → Domain) (s : State) : (modDomain f s).carrier = s.carrier := rfl
@[simp] theorem modDomain_joinery (f : Domain → Domain) (s : State) : (modDomain f s).joinery = s.joinery := rfl
@[simp] theorem modDomain_framer (f : Domain → Domain) (s : State) : (modDomain f s).framer = s.framer := rfl
@[simp] theorem modDomain_client (f : Domain → Domain) (s : State) : (modDomain f s).client = s.client := rfl
@[simp] theorem modDomain_sched (f : Domain → Domain) (s : State) : (modDomain f s).sched = s.sched := rfl
@[simp] theorem modDomain_memory (f : Domain → Domain) (s : State) : (modDomain f s).memory = s.memory := rfl
@[simp] theorem modDomain_protect (f : Domain → Domain) (s : State) : (modDomain f s).protect = s.protect := rfl
@[simp] theorem modDomain_security (f : Domain → Domain) (s : State) : (modDomain f s).security = s.security := rfl
@[simp] theorem modDomain_timing (f : Domain → Domain) (s : State) : (modDomain f s).timing = s.timing := rfl
@[simp] theorem modDomain_monitor (f : Domain → Domain) (s : State) : (modDomain f s).monitor = s.monitor := rfl
@[simp] theorem modDomain_localNs (f : Domain → Domain) (s : State) : (modDomain f s).localNs = s.localNs := rfl
@[simp] theorem modDomain_fresh (f : Domain → Domain) (s : State) : (modDomain f s).fresh = s.fresh := rfl
@[simp] theorem modDomain_pending (f : Domain → Domain) (s : State) : (modDomain f s).pending = s.pending := rfl

@[simp] theorem modSecurity_pins (f : Security → Security) (s : State) : (modSecurity f s).pins = s.pins := rfl
@[simp] theorem modSecurity_sill (f : Security → Security) (s : State) : (modSecurity f s).sill = s.sill := rfl
@[simp] theorem modSecurity_power (f : Security → Security) (s : State) : (modSecurity f s).power = s.power := rfl
@[simp] theorem modSecurity_otp (f : Security → Security) (s : State) : (modSecurity f s).otp = s.otp := rfl
@[simp] theorem modSecurity_flash (f : Security → Security) (s : State) : (modSecurity f s).flash = s.flash := rfl
@[simp] theorem modSecurity_fw (f : Security → Security) (s : State) : (modSecurity f s).fw = s.fw := rfl
@[simp] theorem modSecurity_control (f : Security → Security) (s : State) : (modSecurity f s).control = s.control := rfl
@[simp] theorem modSecurity_counters (f : Security → Security) (s : State) : (modSecurity f s).counters = s.counters := rfl
@[simp] theorem modSecurity_stream (f : Security → Security) (s : State) : (modSecurity f s).stream = s.stream := rfl
@[simp] theorem modSecurity_domain (f : Security → Security) (s : State) : (modSecurity f s).domain = s.domain := rfl
@[simp] theorem modSecurity_cal (f : Security → Security) (s : State) : (modSecurity f s).cal = s.cal := rfl
@[simp] theorem modSecurity_elements (f : Security → Security) (s : State) : (modSecurity f s).elements = s.elements := rfl
@[simp] theorem modSecurity_carrier (f : Security → Security) (s : State) : (modSecurity f s).carrier = s.carrier := rfl
@[simp] theorem modSecurity_joinery (f : Security → Security) (s : State) : (modSecurity f s).joinery = s.joinery := rfl
@[simp] theorem modSecurity_framer (f : Security → Security) (s : State) : (modSecurity f s).framer = s.framer := rfl
@[simp] theorem modSecurity_client (f : Security → Security) (s : State) : (modSecurity f s).client = s.client := rfl
@[simp] theorem modSecurity_sched (f : Security → Security) (s : State) : (modSecurity f s).sched = s.sched := rfl
@[simp] theorem modSecurity_memory (f : Security → Security) (s : State) : (modSecurity f s).memory = s.memory := rfl
@[simp] theorem modSecurity_protect (f : Security → Security) (s : State) : (modSecurity f s).protect = s.protect := rfl
@[simp] theorem modSecurity_security (f : Security → Security) (s : State) : (modSecurity f s).security = f s.security := rfl
@[simp] theorem modSecurity_timing (f : Security → Security) (s : State) : (modSecurity f s).timing = s.timing := rfl
@[simp] theorem modSecurity_monitor (f : Security → Security) (s : State) : (modSecurity f s).monitor = s.monitor := rfl
@[simp] theorem modSecurity_localNs (f : Security → Security) (s : State) : (modSecurity f s).localNs = s.localNs := rfl
@[simp] theorem modSecurity_fresh (f : Security → Security) (s : State) : (modSecurity f s).fresh = s.fresh := rfl
@[simp] theorem modSecurity_pending (f : Security → Security) (s : State) : (modSecurity f s).pending = s.pending := rfl

@[simp] theorem modTiming_pins (f : Timing → Timing) (s : State) : (modTiming f s).pins = s.pins := rfl
@[simp] theorem modTiming_sill (f : Timing → Timing) (s : State) : (modTiming f s).sill = s.sill := rfl
@[simp] theorem modTiming_power (f : Timing → Timing) (s : State) : (modTiming f s).power = s.power := rfl
@[simp] theorem modTiming_otp (f : Timing → Timing) (s : State) : (modTiming f s).otp = s.otp := rfl
@[simp] theorem modTiming_flash (f : Timing → Timing) (s : State) : (modTiming f s).flash = s.flash := rfl
@[simp] theorem modTiming_fw (f : Timing → Timing) (s : State) : (modTiming f s).fw = s.fw := rfl
@[simp] theorem modTiming_control (f : Timing → Timing) (s : State) : (modTiming f s).control = s.control := rfl
@[simp] theorem modTiming_counters (f : Timing → Timing) (s : State) : (modTiming f s).counters = s.counters := rfl
@[simp] theorem modTiming_stream (f : Timing → Timing) (s : State) : (modTiming f s).stream = s.stream := rfl
@[simp] theorem modTiming_domain (f : Timing → Timing) (s : State) : (modTiming f s).domain = s.domain := rfl
@[simp] theorem modTiming_cal (f : Timing → Timing) (s : State) : (modTiming f s).cal = s.cal := rfl
@[simp] theorem modTiming_elements (f : Timing → Timing) (s : State) : (modTiming f s).elements = s.elements := rfl
@[simp] theorem modTiming_carrier (f : Timing → Timing) (s : State) : (modTiming f s).carrier = s.carrier := rfl
@[simp] theorem modTiming_joinery (f : Timing → Timing) (s : State) : (modTiming f s).joinery = s.joinery := rfl
@[simp] theorem modTiming_framer (f : Timing → Timing) (s : State) : (modTiming f s).framer = s.framer := rfl
@[simp] theorem modTiming_client (f : Timing → Timing) (s : State) : (modTiming f s).client = s.client := rfl
@[simp] theorem modTiming_sched (f : Timing → Timing) (s : State) : (modTiming f s).sched = s.sched := rfl
@[simp] theorem modTiming_memory (f : Timing → Timing) (s : State) : (modTiming f s).memory = s.memory := rfl
@[simp] theorem modTiming_protect (f : Timing → Timing) (s : State) : (modTiming f s).protect = s.protect := rfl
@[simp] theorem modTiming_security (f : Timing → Timing) (s : State) : (modTiming f s).security = s.security := rfl
@[simp] theorem modTiming_timing (f : Timing → Timing) (s : State) : (modTiming f s).timing = f s.timing := rfl
@[simp] theorem modTiming_monitor (f : Timing → Timing) (s : State) : (modTiming f s).monitor = s.monitor := rfl
@[simp] theorem modTiming_localNs (f : Timing → Timing) (s : State) : (modTiming f s).localNs = s.localNs := rfl
@[simp] theorem modTiming_fresh (f : Timing → Timing) (s : State) : (modTiming f s).fresh = s.fresh := rfl
@[simp] theorem modTiming_pending (f : Timing → Timing) (s : State) : (modTiming f s).pending = s.pending := rfl

@[simp] theorem modJoinery_pins (f : Joinery → Joinery) (s : State) : (modJoinery f s).pins = s.pins := rfl
@[simp] theorem modJoinery_sill (f : Joinery → Joinery) (s : State) : (modJoinery f s).sill = s.sill := rfl
@[simp] theorem modJoinery_power (f : Joinery → Joinery) (s : State) : (modJoinery f s).power = s.power := rfl
@[simp] theorem modJoinery_otp (f : Joinery → Joinery) (s : State) : (modJoinery f s).otp = s.otp := rfl
@[simp] theorem modJoinery_flash (f : Joinery → Joinery) (s : State) : (modJoinery f s).flash = s.flash := rfl
@[simp] theorem modJoinery_fw (f : Joinery → Joinery) (s : State) : (modJoinery f s).fw = s.fw := rfl
@[simp] theorem modJoinery_control (f : Joinery → Joinery) (s : State) : (modJoinery f s).control = s.control := rfl
@[simp] theorem modJoinery_counters (f : Joinery → Joinery) (s : State) : (modJoinery f s).counters = s.counters := rfl
@[simp] theorem modJoinery_stream (f : Joinery → Joinery) (s : State) : (modJoinery f s).stream = s.stream := rfl
@[simp] theorem modJoinery_domain (f : Joinery → Joinery) (s : State) : (modJoinery f s).domain = s.domain := rfl
@[simp] theorem modJoinery_cal (f : Joinery → Joinery) (s : State) : (modJoinery f s).cal = s.cal := rfl
@[simp] theorem modJoinery_elements (f : Joinery → Joinery) (s : State) : (modJoinery f s).elements = s.elements := rfl
@[simp] theorem modJoinery_carrier (f : Joinery → Joinery) (s : State) : (modJoinery f s).carrier = s.carrier := rfl
@[simp] theorem modJoinery_joinery (f : Joinery → Joinery) (s : State) : (modJoinery f s).joinery = f s.joinery := rfl
@[simp] theorem modJoinery_framer (f : Joinery → Joinery) (s : State) : (modJoinery f s).framer = s.framer := rfl
@[simp] theorem modJoinery_client (f : Joinery → Joinery) (s : State) : (modJoinery f s).client = s.client := rfl
@[simp] theorem modJoinery_sched (f : Joinery → Joinery) (s : State) : (modJoinery f s).sched = s.sched := rfl
@[simp] theorem modJoinery_memory (f : Joinery → Joinery) (s : State) : (modJoinery f s).memory = s.memory := rfl
@[simp] theorem modJoinery_protect (f : Joinery → Joinery) (s : State) : (modJoinery f s).protect = s.protect := rfl
@[simp] theorem modJoinery_security (f : Joinery → Joinery) (s : State) : (modJoinery f s).security = s.security := rfl
@[simp] theorem modJoinery_timing (f : Joinery → Joinery) (s : State) : (modJoinery f s).timing = s.timing := rfl
@[simp] theorem modJoinery_monitor (f : Joinery → Joinery) (s : State) : (modJoinery f s).monitor = s.monitor := rfl
@[simp] theorem modJoinery_localNs (f : Joinery → Joinery) (s : State) : (modJoinery f s).localNs = s.localNs := rfl
@[simp] theorem modJoinery_fresh (f : Joinery → Joinery) (s : State) : (modJoinery f s).fresh = s.fresh := rfl
@[simp] theorem modJoinery_pending (f : Joinery → Joinery) (s : State) : (modJoinery f s).pending = s.pending := rfl

@[simp] theorem modCu_pins (u : Nat) (f : CarrierUnit → CarrierUnit) (s : State) : (modCu u f s).pins = s.pins := rfl
@[simp] theorem modCu_sill (u : Nat) (f : CarrierUnit → CarrierUnit) (s : State) : (modCu u f s).sill = s.sill := rfl
@[simp] theorem modCu_power (u : Nat) (f : CarrierUnit → CarrierUnit) (s : State) : (modCu u f s).power = s.power := rfl
@[simp] theorem modCu_otp (u : Nat) (f : CarrierUnit → CarrierUnit) (s : State) : (modCu u f s).otp = s.otp := rfl
@[simp] theorem modCu_flash (u : Nat) (f : CarrierUnit → CarrierUnit) (s : State) : (modCu u f s).flash = s.flash := rfl
@[simp] theorem modCu_fw (u : Nat) (f : CarrierUnit → CarrierUnit) (s : State) : (modCu u f s).fw = s.fw := rfl
@[simp] theorem modCu_control (u : Nat) (f : CarrierUnit → CarrierUnit) (s : State) : (modCu u f s).control = s.control := rfl
@[simp] theorem modCu_counters (u : Nat) (f : CarrierUnit → CarrierUnit) (s : State) : (modCu u f s).counters = s.counters := rfl
@[simp] theorem modCu_stream (u : Nat) (f : CarrierUnit → CarrierUnit) (s : State) : (modCu u f s).stream = s.stream := rfl
@[simp] theorem modCu_domain (u : Nat) (f : CarrierUnit → CarrierUnit) (s : State) : (modCu u f s).domain = s.domain := rfl
@[simp] theorem modCu_cal (u : Nat) (f : CarrierUnit → CarrierUnit) (s : State) : (modCu u f s).cal = s.cal := rfl
@[simp] theorem modCu_elements (u : Nat) (f : CarrierUnit → CarrierUnit) (s : State) : (modCu u f s).elements = s.elements := rfl
@[simp] theorem modCu_carrier (u : Nat) (f : CarrierUnit → CarrierUnit) (s : State) : (modCu u f s).carrier = tblMod {} s.carrier u f := rfl
@[simp] theorem modCu_joinery (u : Nat) (f : CarrierUnit → CarrierUnit) (s : State) : (modCu u f s).joinery = s.joinery := rfl
@[simp] theorem modCu_framer (u : Nat) (f : CarrierUnit → CarrierUnit) (s : State) : (modCu u f s).framer = s.framer := rfl
@[simp] theorem modCu_client (u : Nat) (f : CarrierUnit → CarrierUnit) (s : State) : (modCu u f s).client = s.client := rfl
@[simp] theorem modCu_sched (u : Nat) (f : CarrierUnit → CarrierUnit) (s : State) : (modCu u f s).sched = s.sched := rfl
@[simp] theorem modCu_memory (u : Nat) (f : CarrierUnit → CarrierUnit) (s : State) : (modCu u f s).memory = s.memory := rfl
@[simp] theorem modCu_protect (u : Nat) (f : CarrierUnit → CarrierUnit) (s : State) : (modCu u f s).protect = s.protect := rfl
@[simp] theorem modCu_security (u : Nat) (f : CarrierUnit → CarrierUnit) (s : State) : (modCu u f s).security = s.security := rfl
@[simp] theorem modCu_timing (u : Nat) (f : CarrierUnit → CarrierUnit) (s : State) : (modCu u f s).timing = s.timing := rfl
@[simp] theorem modCu_monitor (u : Nat) (f : CarrierUnit → CarrierUnit) (s : State) : (modCu u f s).monitor = s.monitor := rfl
@[simp] theorem modCu_localNs (u : Nat) (f : CarrierUnit → CarrierUnit) (s : State) : (modCu u f s).localNs = s.localNs := rfl
@[simp] theorem modCu_fresh (u : Nat) (f : CarrierUnit → CarrierUnit) (s : State) : (modCu u f s).fresh = s.fresh := rfl
@[simp] theorem modCu_pending (u : Nat) (f : CarrierUnit → CarrierUnit) (s : State) : (modCu u f s).pending = s.pending := rfl

@[simp] theorem modFramer_pins (u : Nat) (f : Framer → Framer) (s : State) : (modFramer u f s).pins = s.pins := rfl
@[simp] theorem modFramer_sill (u : Nat) (f : Framer → Framer) (s : State) : (modFramer u f s).sill = s.sill := rfl
@[simp] theorem modFramer_power (u : Nat) (f : Framer → Framer) (s : State) : (modFramer u f s).power = s.power := rfl
@[simp] theorem modFramer_otp (u : Nat) (f : Framer → Framer) (s : State) : (modFramer u f s).otp = s.otp := rfl
@[simp] theorem modFramer_flash (u : Nat) (f : Framer → Framer) (s : State) : (modFramer u f s).flash = s.flash := rfl
@[simp] theorem modFramer_fw (u : Nat) (f : Framer → Framer) (s : State) : (modFramer u f s).fw = s.fw := rfl
@[simp] theorem modFramer_control (u : Nat) (f : Framer → Framer) (s : State) : (modFramer u f s).control = s.control := rfl
@[simp] theorem modFramer_counters (u : Nat) (f : Framer → Framer) (s : State) : (modFramer u f s).counters = s.counters := rfl
@[simp] theorem modFramer_stream (u : Nat) (f : Framer → Framer) (s : State) : (modFramer u f s).stream = s.stream := rfl
@[simp] theorem modFramer_domain (u : Nat) (f : Framer → Framer) (s : State) : (modFramer u f s).domain = s.domain := rfl
@[simp] theorem modFramer_cal (u : Nat) (f : Framer → Framer) (s : State) : (modFramer u f s).cal = s.cal := rfl
@[simp] theorem modFramer_elements (u : Nat) (f : Framer → Framer) (s : State) : (modFramer u f s).elements = s.elements := rfl
@[simp] theorem modFramer_carrier (u : Nat) (f : Framer → Framer) (s : State) : (modFramer u f s).carrier = s.carrier := rfl
@[simp] theorem modFramer_joinery (u : Nat) (f : Framer → Framer) (s : State) : (modFramer u f s).joinery = s.joinery := rfl
@[simp] theorem modFramer_framer (u : Nat) (f : Framer → Framer) (s : State) : (modFramer u f s).framer = tblMod {} s.framer u f := rfl
@[simp] theorem modFramer_client (u : Nat) (f : Framer → Framer) (s : State) : (modFramer u f s).client = s.client := rfl
@[simp] theorem modFramer_sched (u : Nat) (f : Framer → Framer) (s : State) : (modFramer u f s).sched = s.sched := rfl
@[simp] theorem modFramer_memory (u : Nat) (f : Framer → Framer) (s : State) : (modFramer u f s).memory = s.memory := rfl
@[simp] theorem modFramer_protect (u : Nat) (f : Framer → Framer) (s : State) : (modFramer u f s).protect = s.protect := rfl
@[simp] theorem modFramer_security (u : Nat) (f : Framer → Framer) (s : State) : (modFramer u f s).security = s.security := rfl
@[simp] theorem modFramer_timing (u : Nat) (f : Framer → Framer) (s : State) : (modFramer u f s).timing = s.timing := rfl
@[simp] theorem modFramer_monitor (u : Nat) (f : Framer → Framer) (s : State) : (modFramer u f s).monitor = s.monitor := rfl
@[simp] theorem modFramer_localNs (u : Nat) (f : Framer → Framer) (s : State) : (modFramer u f s).localNs = s.localNs := rfl
@[simp] theorem modFramer_fresh (u : Nat) (f : Framer → Framer) (s : State) : (modFramer u f s).fresh = s.fresh := rfl
@[simp] theorem modFramer_pending (u : Nat) (f : Framer → Framer) (s : State) : (modFramer u f s).pending = s.pending := rfl

@[simp] theorem modCal_pins (u : Nat) (f : Cal → Cal) (s : State) : (modCal u f s).pins = s.pins := rfl
@[simp] theorem modCal_sill (u : Nat) (f : Cal → Cal) (s : State) : (modCal u f s).sill = s.sill := rfl
@[simp] theorem modCal_power (u : Nat) (f : Cal → Cal) (s : State) : (modCal u f s).power = s.power := rfl
@[simp] theorem modCal_otp (u : Nat) (f : Cal → Cal) (s : State) : (modCal u f s).otp = s.otp := rfl
@[simp] theorem modCal_flash (u : Nat) (f : Cal → Cal) (s : State) : (modCal u f s).flash = s.flash := rfl
@[simp] theorem modCal_fw (u : Nat) (f : Cal → Cal) (s : State) : (modCal u f s).fw = s.fw := rfl
@[simp] theorem modCal_control (u : Nat) (f : Cal → Cal) (s : State) : (modCal u f s).control = s.control := rfl
@[simp] theorem modCal_counters (u : Nat) (f : Cal → Cal) (s : State) : (modCal u f s).counters = s.counters := rfl
@[simp] theorem modCal_stream (u : Nat) (f : Cal → Cal) (s : State) : (modCal u f s).stream = s.stream := rfl
@[simp] theorem modCal_domain (u : Nat) (f : Cal → Cal) (s : State) : (modCal u f s).domain = s.domain := rfl
@[simp] theorem modCal_cal (u : Nat) (f : Cal → Cal) (s : State) : (modCal u f s).cal = tblMod {} s.cal u f := rfl
@[simp] theorem modCal_elements (u : Nat) (f : Cal → Cal) (s : State) : (modCal u f s).elements = s.elements := rfl
@[simp] theorem modCal_carrier (u : Nat) (f : Cal → Cal) (s : State) : (modCal u f s).carrier = s.carrier := rfl
@[simp] theorem modCal_joinery (u : Nat) (f : Cal → Cal) (s : State) : (modCal u f s).joinery = s.joinery := rfl
@[simp] theorem modCal_framer (u : Nat) (f : Cal → Cal) (s : State) : (modCal u f s).framer = s.framer := rfl
@[simp] theorem modCal_client (u : Nat) (f : Cal → Cal) (s : State) : (modCal u f s).client = s.client := rfl
@[simp] theorem modCal_sched (u : Nat) (f : Cal → Cal) (s : State) : (modCal u f s).sched = s.sched := rfl
@[simp] theorem modCal_memory (u : Nat) (f : Cal → Cal) (s : State) : (modCal u f s).memory = s.memory := rfl
@[simp] theorem modCal_protect (u : Nat) (f : Cal → Cal) (s : State) : (modCal u f s).protect = s.protect := rfl
@[simp] theorem modCal_security (u : Nat) (f : Cal → Cal) (s : State) : (modCal u f s).security = s.security := rfl
@[simp] theorem modCal_timing (u : Nat) (f : Cal → Cal) (s : State) : (modCal u f s).timing = s.timing := rfl
@[simp] theorem modCal_monitor (u : Nat) (f : Cal → Cal) (s : State) : (modCal u f s).monitor = s.monitor := rfl
@[simp] theorem modCal_localNs (u : Nat) (f : Cal → Cal) (s : State) : (modCal u f s).localNs = s.localNs := rfl
@[simp] theorem modCal_fresh (u : Nat) (f : Cal → Cal) (s : State) : (modCal u f s).fresh = s.fresh := rfl
@[simp] theorem modCal_pending (u : Nat) (f : Cal → Cal) (s : State) : (modCal u f s).pending = s.pending := rfl

@[simp] theorem modMemory_pins (f : Memory → Memory) (s : State) : (modMemory f s).pins = s.pins := rfl
@[simp] theorem modMemory_sill (f : Memory → Memory) (s : State) : (modMemory f s).sill = s.sill := rfl
@[simp] theorem modMemory_power (f : Memory → Memory) (s : State) : (modMemory f s).power = s.power := rfl
@[simp] theorem modMemory_otp (f : Memory → Memory) (s : State) : (modMemory f s).otp = s.otp := rfl
@[simp] theorem modMemory_flash (f : Memory → Memory) (s : State) : (modMemory f s).flash = s.flash := rfl
@[simp] theorem modMemory_fw (f : Memory → Memory) (s : State) : (modMemory f s).fw = s.fw := rfl
@[simp] theorem modMemory_control (f : Memory → Memory) (s : State) : (modMemory f s).control = s.control := rfl
@[simp] theorem modMemory_counters (f : Memory → Memory) (s : State) : (modMemory f s).counters = s.counters := rfl
@[simp] theorem modMemory_stream (f : Memory → Memory) (s : State) : (modMemory f s).stream = s.stream := rfl
@[simp] theorem modMemory_domain (f : Memory → Memory) (s : State) : (modMemory f s).domain = s.domain := rfl
@[simp] theorem modMemory_cal (f : Memory → Memory) (s : State) : (modMemory f s).cal = s.cal := rfl
@[simp] theorem modMemory_elements (f : Memory → Memory) (s : State) : (modMemory f s).elements = s.elements := rfl
@[simp] theorem modMemory_carrier (f : Memory → Memory) (s : State) : (modMemory f s).carrier = s.carrier := rfl
@[simp] theorem modMemory_joinery (f : Memory → Memory) (s : State) : (modMemory f s).joinery = s.joinery := rfl
@[simp] theorem modMemory_framer (f : Memory → Memory) (s : State) : (modMemory f s).framer = s.framer := rfl
@[simp] theorem modMemory_client (f : Memory → Memory) (s : State) : (modMemory f s).client = s.client := rfl
@[simp] theorem modMemory_sched (f : Memory → Memory) (s : State) : (modMemory f s).sched = s.sched := rfl
@[simp] theorem modMemory_memory (f : Memory → Memory) (s : State) : (modMemory f s).memory = f s.memory := rfl
@[simp] theorem modMemory_protect (f : Memory → Memory) (s : State) : (modMemory f s).protect = s.protect := rfl
@[simp] theorem modMemory_security (f : Memory → Memory) (s : State) : (modMemory f s).security = s.security := rfl
@[simp] theorem modMemory_timing (f : Memory → Memory) (s : State) : (modMemory f s).timing = s.timing := rfl
@[simp] theorem modMemory_monitor (f : Memory → Memory) (s : State) : (modMemory f s).monitor = s.monitor := rfl
@[simp] theorem modMemory_localNs (f : Memory → Memory) (s : State) : (modMemory f s).localNs = s.localNs := rfl
@[simp] theorem modMemory_fresh (f : Memory → Memory) (s : State) : (modMemory f s).fresh = s.fresh := rfl
@[simp] theorem modMemory_pending (f : Memory → Memory) (s : State) : (modMemory f s).pending = s.pending := rfl

@[simp] theorem modMonitor_pins (f : Monitor → Monitor) (s : State) : (modMonitor f s).pins = s.pins := rfl
@[simp] theorem modMonitor_sill (f : Monitor → Monitor) (s : State) : (modMonitor f s).sill = s.sill := rfl
@[simp] theorem modMonitor_power (f : Monitor → Monitor) (s : State) : (modMonitor f s).power = s.power := rfl
@[simp] theorem modMonitor_otp (f : Monitor → Monitor) (s : State) : (modMonitor f s).otp = s.otp := rfl
@[simp] theorem modMonitor_flash (f : Monitor → Monitor) (s : State) : (modMonitor f s).flash = s.flash := rfl
@[simp] theorem modMonitor_fw (f : Monitor → Monitor) (s : State) : (modMonitor f s).fw = s.fw := rfl
@[simp] theorem modMonitor_control (f : Monitor → Monitor) (s : State) : (modMonitor f s).control = s.control := rfl
@[simp] theorem modMonitor_counters (f : Monitor → Monitor) (s : State) : (modMonitor f s).counters = s.counters := rfl
@[simp] theorem modMonitor_stream (f : Monitor → Monitor) (s : State) : (modMonitor f s).stream = s.stream := rfl
@[simp] theorem modMonitor_domain (f : Monitor → Monitor) (s : State) : (modMonitor f s).domain = s.domain := rfl
@[simp] theorem modMonitor_cal (f : Monitor → Monitor) (s : State) : (modMonitor f s).cal = s.cal := rfl
@[simp] theorem modMonitor_elements (f : Monitor → Monitor) (s : State) : (modMonitor f s).elements = s.elements := rfl
@[simp] theorem modMonitor_carrier (f : Monitor → Monitor) (s : State) : (modMonitor f s).carrier = s.carrier := rfl
@[simp] theorem modMonitor_joinery (f : Monitor → Monitor) (s : State) : (modMonitor f s).joinery = s.joinery := rfl
@[simp] theorem modMonitor_framer (f : Monitor → Monitor) (s : State) : (modMonitor f s).framer = s.framer := rfl
@[simp] theorem modMonitor_client (f : Monitor → Monitor) (s : State) : (modMonitor f s).client = s.client := rfl
@[simp] theorem modMonitor_sched (f : Monitor → Monitor) (s : State) : (modMonitor f s).sched = s.sched := rfl
@[simp] theorem modMonitor_memory (f : Monitor → Monitor) (s : State) : (modMonitor f s).memory = s.memory := rfl
@[simp] theorem modMonitor_protect (f : Monitor → Monitor) (s : State) : (modMonitor f s).protect = s.protect := rfl
@[simp] theorem modMonitor_security (f : Monitor → Monitor) (s : State) : (modMonitor f s).security = s.security := rfl
@[simp] theorem modMonitor_timing (f : Monitor → Monitor) (s : State) : (modMonitor f s).timing = s.timing := rfl
@[simp] theorem modMonitor_monitor (f : Monitor → Monitor) (s : State) : (modMonitor f s).monitor = f s.monitor := rfl
@[simp] theorem modMonitor_localNs (f : Monitor → Monitor) (s : State) : (modMonitor f s).localNs = s.localNs := rfl
@[simp] theorem modMonitor_fresh (f : Monitor → Monitor) (s : State) : (modMonitor f s).fresh = s.fresh := rfl
@[simp] theorem modMonitor_pending (f : Monitor → Monitor) (s : State) : (modMonitor f s).pending = s.pending := rfl

@[simp] theorem modClients_pins (f : Clients → Clients) (s : State) : (modClients f s).pins = s.pins := rfl
@[simp] theorem modClients_sill (f : Clients → Clients) (s : State) : (modClients f s).sill = s.sill := rfl
@[simp] theorem modClients_power (f : Clients → Clients) (s : State) : (modClients f s).power = s.power := rfl
@[simp] theorem modClients_otp (f : Clients → Clients) (s : State) : (modClients f s).otp = s.otp := rfl
@[simp] theorem modClients_flash (f : Clients → Clients) (s : State) : (modClients f s).flash = s.flash := rfl
@[simp] theorem modClients_fw (f : Clients → Clients) (s : State) : (modClients f s).fw = s.fw := rfl
@[simp] theorem modClients_control (f : Clients → Clients) (s : State) : (modClients f s).control = s.control := rfl
@[simp] theorem modClients_counters (f : Clients → Clients) (s : State) : (modClients f s).counters = s.counters := rfl
@[simp] theorem modClients_stream (f : Clients → Clients) (s : State) : (modClients f s).stream = s.stream := rfl
@[simp] theorem modClients_domain (f : Clients → Clients) (s : State) : (modClients f s).domain = s.domain := rfl
@[simp] theorem modClients_cal (f : Clients → Clients) (s : State) : (modClients f s).cal = s.cal := rfl
@[simp] theorem modClients_elements (f : Clients → Clients) (s : State) : (modClients f s).elements = s.elements := rfl
@[simp] theorem modClients_carrier (f : Clients → Clients) (s : State) : (modClients f s).carrier = s.carrier := rfl
@[simp] theorem modClients_joinery (f : Clients → Clients) (s : State) : (modClients f s).joinery = s.joinery := rfl
@[simp] theorem modClients_framer (f : Clients → Clients) (s : State) : (modClients f s).framer = s.framer := rfl
@[simp] theorem modClients_client (f : Clients → Clients) (s : State) : (modClients f s).client = f s.client := rfl
@[simp] theorem modClients_sched (f : Clients → Clients) (s : State) : (modClients f s).sched = s.sched := rfl
@[simp] theorem modClients_memory (f : Clients → Clients) (s : State) : (modClients f s).memory = s.memory := rfl
@[simp] theorem modClients_protect (f : Clients → Clients) (s : State) : (modClients f s).protect = s.protect := rfl
@[simp] theorem modClients_security (f : Clients → Clients) (s : State) : (modClients f s).security = s.security := rfl
@[simp] theorem modClients_timing (f : Clients → Clients) (s : State) : (modClients f s).timing = s.timing := rfl
@[simp] theorem modClients_monitor (f : Clients → Clients) (s : State) : (modClients f s).monitor = s.monitor := rfl
@[simp] theorem modClients_localNs (f : Clients → Clients) (s : State) : (modClients f s).localNs = s.localNs := rfl
@[simp] theorem modClients_fresh (f : Clients → Clients) (s : State) : (modClients f s).fresh = s.fresh := rfl
@[simp] theorem modClients_pending (f : Clients → Clients) (s : State) : (modClients f s).pending = s.pending := rfl

@[simp] theorem modSched_pins (f : Sched → Sched) (s : State) : (modSched f s).pins = s.pins := rfl
@[simp] theorem modSched_sill (f : Sched → Sched) (s : State) : (modSched f s).sill = s.sill := rfl
@[simp] theorem modSched_power (f : Sched → Sched) (s : State) : (modSched f s).power = s.power := rfl
@[simp] theorem modSched_otp (f : Sched → Sched) (s : State) : (modSched f s).otp = s.otp := rfl
@[simp] theorem modSched_flash (f : Sched → Sched) (s : State) : (modSched f s).flash = s.flash := rfl
@[simp] theorem modSched_fw (f : Sched → Sched) (s : State) : (modSched f s).fw = s.fw := rfl
@[simp] theorem modSched_control (f : Sched → Sched) (s : State) : (modSched f s).control = s.control := rfl
@[simp] theorem modSched_counters (f : Sched → Sched) (s : State) : (modSched f s).counters = s.counters := rfl
@[simp] theorem modSched_stream (f : Sched → Sched) (s : State) : (modSched f s).stream = s.stream := rfl
@[simp] theorem modSched_domain (f : Sched → Sched) (s : State) : (modSched f s).domain = s.domain := rfl
@[simp] theorem modSched_cal (f : Sched → Sched) (s : State) : (modSched f s).cal = s.cal := rfl
@[simp] theorem modSched_elements (f : Sched → Sched) (s : State) : (modSched f s).elements = s.elements := rfl
@[simp] theorem modSched_carrier (f : Sched → Sched) (s : State) : (modSched f s).carrier = s.carrier := rfl
@[simp] theorem modSched_joinery (f : Sched → Sched) (s : State) : (modSched f s).joinery = s.joinery := rfl
@[simp] theorem modSched_framer (f : Sched → Sched) (s : State) : (modSched f s).framer = s.framer := rfl
@[simp] theorem modSched_client (f : Sched → Sched) (s : State) : (modSched f s).client = s.client := rfl
@[simp] theorem modSched_sched (f : Sched → Sched) (s : State) : (modSched f s).sched = f s.sched := rfl
@[simp] theorem modSched_memory (f : Sched → Sched) (s : State) : (modSched f s).memory = s.memory := rfl
@[simp] theorem modSched_protect (f : Sched → Sched) (s : State) : (modSched f s).protect = s.protect := rfl
@[simp] theorem modSched_security (f : Sched → Sched) (s : State) : (modSched f s).security = s.security := rfl
@[simp] theorem modSched_timing (f : Sched → Sched) (s : State) : (modSched f s).timing = s.timing := rfl
@[simp] theorem modSched_monitor (f : Sched → Sched) (s : State) : (modSched f s).monitor = s.monitor := rfl
@[simp] theorem modSched_localNs (f : Sched → Sched) (s : State) : (modSched f s).localNs = s.localNs := rfl
@[simp] theorem modSched_fresh (f : Sched → Sched) (s : State) : (modSched f s).fresh = s.fresh := rfl
@[simp] theorem modSched_pending (f : Sched → Sched) (s : State) : (modSched f s).pending = s.pending := rfl

@[simp] theorem modProtect_pins (f : Protect → Protect) (s : State) : (modProtect f s).pins = s.pins := rfl
@[simp] theorem modProtect_sill (f : Protect → Protect) (s : State) : (modProtect f s).sill = s.sill := rfl
@[simp] theorem modProtect_power (f : Protect → Protect) (s : State) : (modProtect f s).power = s.power := rfl
@[simp] theorem modProtect_otp (f : Protect → Protect) (s : State) : (modProtect f s).otp = s.otp := rfl
@[simp] theorem modProtect_flash (f : Protect → Protect) (s : State) : (modProtect f s).flash = s.flash := rfl
@[simp] theorem modProtect_fw (f : Protect → Protect) (s : State) : (modProtect f s).fw = s.fw := rfl
@[simp] theorem modProtect_control (f : Protect → Protect) (s : State) : (modProtect f s).control = s.control := rfl
@[simp] theorem modProtect_counters (f : Protect → Protect) (s : State) : (modProtect f s).counters = s.counters := rfl
@[simp] theorem modProtect_stream (f : Protect → Protect) (s : State) : (modProtect f s).stream = s.stream := rfl
@[simp] theorem modProtect_domain (f : Protect → Protect) (s : State) : (modProtect f s).domain = s.domain := rfl
@[simp] theorem modProtect_cal (f : Protect → Protect) (s : State) : (modProtect f s).cal = s.cal := rfl
@[simp] theorem modProtect_elements (f : Protect → Protect) (s : State) : (modProtect f s).elements = s.elements := rfl
@[simp] theorem modProtect_carrier (f : Protect → Protect) (s : State) : (modProtect f s).carrier = s.carrier := rfl
@[simp] theorem modProtect_joinery (f : Protect → Protect) (s : State) : (modProtect f s).joinery = s.joinery := rfl
@[simp] theorem modProtect_framer (f : Protect → Protect) (s : State) : (modProtect f s).framer = s.framer := rfl
@[simp] theorem modProtect_client (f : Protect → Protect) (s : State) : (modProtect f s).client = s.client := rfl
@[simp] theorem modProtect_sched (f : Protect → Protect) (s : State) : (modProtect f s).sched = s.sched := rfl
@[simp] theorem modProtect_memory (f : Protect → Protect) (s : State) : (modProtect f s).memory = s.memory := rfl
@[simp] theorem modProtect_protect (f : Protect → Protect) (s : State) : (modProtect f s).protect = f s.protect := rfl
@[simp] theorem modProtect_security (f : Protect → Protect) (s : State) : (modProtect f s).security = s.security := rfl
@[simp] theorem modProtect_timing (f : Protect → Protect) (s : State) : (modProtect f s).timing = s.timing := rfl
@[simp] theorem modProtect_monitor (f : Protect → Protect) (s : State) : (modProtect f s).monitor = s.monitor := rfl
@[simp] theorem modProtect_localNs (f : Protect → Protect) (s : State) : (modProtect f s).localNs = s.localNs := rfl
@[simp] theorem modProtect_fresh (f : Protect → Protect) (s : State) : (modProtect f s).fresh = s.fresh := rfl
@[simp] theorem modProtect_pending (f : Protect → Protect) (s : State) : (modProtect f s).pending = s.pending := rfl

end Sys2Proof.Machine
end

