-- ==== Sys2Proof/Laws/Events.lean ====
section
/-! SUPPORT. What raising an event leaves: it is the last of the history, it takes sequences of the sill, and nothing else of the
sill or of the command protocol moves but the routes and the history. -/

-- One theorem after another: with a thread for each, the package as one text outgrows the checker's memory limit.
set_option Elab.async false

namespace Sys2Proof.Machine

@[simp] theorem modCountUnit_control (u : Nat) (f : CountUnit → CountUnit) (s : State) : (modCountUnit u f s).control = s.control := rfl
@[simp] theorem modCountUnit_sill (u : Nat) (f : CountUnit → CountUnit) (s : State) : (modCountUnit u f s).sill = s.sill := rfl

@[simp] theorem bump_control (fam inst ev n : Nat) (s : State) : (bump fam inst ev n s).control = s.control := by
  unfold bump; split <;> rfl
@[simp] theorem bump_sill (fam inst ev n : Nat) (s : State) : (bump fam inst ev n s).sill = s.sill := by
  unfold bump; split <;> rfl

/-- What the history ends with after an event is remembered. -/
theorem remember_last (e : EventRec) (s : State) : (remember e s).control.history.getLast? = some e := by
  unfold remember
  simp only [modControl_control]
  rw [List.getLast?_drop]
  simp <;> omega

/-- The event raised is the last of the history. -/
theorem raise_lastEvent (code unit : Nat) (pl : List Byte) (urgent : Bool) (s : State) :
    lastEvent (raise code unit pl urgent s) = some (code, unit, pl) := by
  unfold lastEvent raise raiseAs
  dsimp only
  rw [bump_control, remember_last]
  rfl

/-- Routes and history aside, a route's late EV_EVENTS_LOST leaves the command protocol as it was. -/
theorem flushLost_control (k : Nat) (s : State) : (flushLost k s).control =
    { s.control with routeCp := (flushLost k s).control.routeCp, routeTenon := (flushLost k s).control.routeTenon,
                     routeStream := (flushLost k s).control.routeStream, history := (flushLost k s).control.history } := by
  unfold flushLost
  dsimp only
  split
  · rfl
  · simp only [bump_control, remember, nextEventSeq, modControl_control, modSill_control, modRoute]
    split
    · rfl
    · split <;> rfl

theorem flushLost_sill (k : Nat) (s : State) : (flushLost k s).sill = { s.sill with eventSeq := (flushLost k s).sill.eventSeq } := by
  unfold flushLost
  dsimp only
  split <;> simp [remember, nextEventSeq, modRoute]

/-- The sill's event sequence aside, raising an event leaves the sill as it was. -/
theorem raise_sill (code unit : Nat) (pl : List Byte) (urgent : Bool) (s : State) :
    (raise code unit pl urgent s).sill = { s.sill with eventSeq := (raise code unit pl urgent s).sill.eventSeq } := by
  unfold raise raiseAs
  simp only [bump_sill, remember, nextEventSeq, modControl_sill, modSill_sill]
  rw [flushLost_sill 2, flushLost_sill 1, flushLost_sill 0]

/-- Routes and history aside, raising an event leaves the command protocol as it was. -/
theorem raise_control (code unit : Nat) (pl : List Byte) (urgent : Bool) (s : State) :
    (raise code unit pl urgent s).control =
    { s.control with routeCp := (raise code unit pl urgent s).control.routeCp, routeTenon := (raise code unit pl urgent s).control.routeTenon,
                     routeStream := (raise code unit pl urgent s).control.routeStream,
                     history := (raise code unit pl urgent s).control.history } := by
  unfold raise raiseAs
  simp only [bump_control, remember, nextEventSeq, modControl_control, modSill_control]
  rw [flushLost_control 2, flushLost_control 1, flushLost_control 0]

@[simp] theorem raise_stage (code unit : Nat) (pl : List Byte) (urgent : Bool) (s : State) :
    (raise code unit pl urgent s).sill.stage = s.sill.stage := by rw [raise_sill]
@[simp] theorem raise_ready (code unit : Nat) (pl : List Byte) (urgent : Bool) (s : State) :
    (raise code unit pl urgent s).control.ready = s.control.ready := by rw [raise_control]
@[simp] theorem raise_mp (code unit : Nat) (pl : List Byte) (urgent : Bool) (s : State) :
    (raise code unit pl urgent s).control.mp = s.control.mp := by rw [raise_control]
@[simp] theorem raise_sessions (code unit : Nat) (pl : List Byte) (urgent : Bool) (s : State) :
    (raise code unit pl urgent s).control.sessions = s.control.sessions := by rw [raise_control]
@[simp] theorem raise_journal (code unit : Nat) (pl : List Byte) (urgent : Bool) (s : State) :
    (raise code unit pl urgent s).control.journal = s.control.journal := by rw [raise_control]
@[simp] theorem raise_outgoing (code unit : Nat) (pl : List Byte) (urgent : Bool) (s : State) :
    (raise code unit pl urgent s).control.outgoing = s.control.outgoing := by rw [raise_control]

end Sys2Proof.Machine
end

