-- ==== Sys2Proof/Laws/Table.lean ====
section
/-! SUPPORT. Laws of the finite tables and of flash: a read after a write, and the canonical form that every operation keeps. -/

-- One theorem after another: with a thread for each, the package as one text outgrows the checker's memory limit.
set_option Elab.async false

namespace Sys2Proof.Machine

variable {α : Type}

theorem tblGet_erase_same (d : α) (t : Tbl α) (k : Nat) : tblGet d (tblErase t k) k = d := by
  induction t with
  | nil => rfl
  | cons e r ih =>
    obtain ⟨j, v⟩ := e
    simp only [tblErase]
    split
    · exact ih
    · rename_i h; simp only [tblGet, h, if_false]; exact ih

theorem tblGet_erase_other (d : α) (t : Tbl α) {k n : Nat} (h : n ≠ k) : tblGet d (tblErase t k) n = tblGet d t n := by
  induction t with
  | nil => rfl
  | cons e r ih =>
    obtain ⟨j, v⟩ := e
    by_cases hj : j = k
    · have : j ≠ n := fun e => h (by omega)
      simp only [tblErase, hj, if_true, tblGet, ih]
      rw [if_neg (by omega)]
    · simp only [tblErase, hj, if_false, tblGet, ih]

theorem tblGet_insert_same (d : α) (t : Tbl α) (k : Nat) (v : α) : tblGet d (tblInsert t k v) k = v := by
  induction t with
  | nil => simp [tblInsert, tblGet]
  | cons e r ih =>
    obtain ⟨j, w⟩ := e
    simp only [tblInsert]
    split
    · simp [tblGet]
    · split
      · simp [tblGet]
      · rename_i h; simp only [tblGet, h, if_false]; exact ih

theorem tblGet_insert_other (d : α) (t : Tbl α) {k n : Nat} (h : n ≠ k) (v : α) : tblGet d (tblInsert t k v) n = tblGet d t n := by
  have hk : ¬k = n := fun e => h e.symm
  induction t with
  | nil => simp [tblInsert, tblGet, hk]
  | cons e r ih =>
    obtain ⟨j, w⟩ := e
    simp only [tblInsert]
    split
    · simp only [tblGet, hk, if_false]
    · split
      · rename_i hj; subst hj; simp only [tblGet, hk, if_false]
      · simp only [tblGet, ih]

/-- A read after a write of the same entry. -/
theorem tblGet_set_same [DecidableEq α] (d : α) (t : Tbl α) (k : Nat) (v : α) : tblGet d (tblSet d t k v) k = v := by
  unfold tblSet; split
  · rename_i h; rw [h]; exact tblGet_erase_same d t k
  · exact tblGet_insert_same d t k v

/-- A read after a write of another entry. -/
theorem tblGet_set_other [DecidableEq α] (d : α) (t : Tbl α) {k n : Nat} (h : n ≠ k) (v : α) : tblGet d (tblSet d t k v) n = tblGet d t n := by
  unfold tblSet; split
  · exact tblGet_erase_other d t h
  · exact tblGet_insert_other d t h v

theorem tblGet_mod_same [DecidableEq α] (d : α) (t : Tbl α) (k : Nat) (f : α → α) : tblGet d (tblMod d t k f) k = f (tblGet d t k) :=
  tblGet_set_same d t k _

theorem tblGet_mod_other [DecidableEq α] (d : α) (t : Tbl α) {k n : Nat} (h : n ≠ k) (f : α → α) :
    tblGet d (tblMod d t k f) n = tblGet d t n := tblGet_set_other d t h _

/-! The canonical form. -/

/-- Rising indices, said of pairs. -/
theorem tblSorted_pairwise (t : Tbl α) : tblSorted t = true ↔ t.Pairwise (fun a b => a.1 < b.1) := by
  induction t with
  | nil => simp [tblSorted]
  | cons e r ih =>
    cases r with
    | nil => simp [tblSorted]
    | cons e2 r2 =>
      obtain ⟨j, v⟩ := e
      obtain ⟨k, w⟩ := e2
      simp only [tblSorted, Bool.and_eq_true, decide_eq_true_eq, ih, List.pairwise_cons, List.mem_cons]
      constructor
      · rintro ⟨h1, h2, h3⟩
        refine ⟨?_, h2, h3⟩
        rintro x (rfl | hx)
        · exact h1
        · exact Nat.lt_trans h1 (h2 x hx)
      · rintro ⟨h1, h2, h3⟩
        exact ⟨h1 _ (Or.inl rfl), h2, h3⟩

theorem mem_tblErase {t : Tbl α} {k : Nat} {e : Nat × α} (h : e ∈ tblErase t k) : e ∈ t ∧ e.1 ≠ k := by
  induction t with
  | nil => cases h
  | cons x r ih =>
    obtain ⟨j, v⟩ := x
    simp only [tblErase] at h
    split at h
    · exact ⟨List.mem_cons_of_mem _ (ih h).1, (ih h).2⟩
    · rcases List.mem_cons.mp h with rfl | h
      · exact ⟨List.mem_cons_self, by assumption⟩
      · exact ⟨List.mem_cons_of_mem _ (ih h).1, (ih h).2⟩

theorem mem_tblInsert {t : Tbl α} {k : Nat} {v : α} {e : Nat × α} (h : e ∈ tblInsert t k v) : e = (k, v) ∨ e ∈ t := by
  induction t with
  | nil => simp [tblInsert] at h; exact Or.inl h
  | cons x r ih =>
    obtain ⟨j, w⟩ := x
    simp only [tblInsert] at h
    split at h
    · rcases List.mem_cons.mp h with h | h
      · exact Or.inl h
      · exact Or.inr h
    · split at h
      · rcases List.mem_cons.mp h with h | h
        · exact Or.inl h
        · exact Or.inr (List.mem_cons_of_mem _ h)
      · rcases List.mem_cons.mp h with h | h
        · exact Or.inr (h ▸ List.mem_cons_self)
        · rcases ih h with h | h
          · exact Or.inl h
          · exact Or.inr (List.mem_cons_of_mem _ h)

theorem tblErase_pairwise {t : Tbl α} (h : t.Pairwise (fun a b => a.1 < b.1)) (k : Nat) :
    (tblErase t k).Pairwise (fun a b => a.1 < b.1) := by
  induction t with
  | nil => exact h
  | cons x r ih =>
    obtain ⟨j, v⟩ := x
    rw [List.pairwise_cons] at h
    simp only [tblErase]
    split
    · exact ih h.2
    · exact List.pairwise_cons.mpr ⟨fun e he => h.1 e (mem_tblErase he).1, ih h.2⟩

theorem tblInsert_pairwise {t : Tbl α} (h : t.Pairwise (fun a b => a.1 < b.1)) (k : Nat) (v : α) :
    (tblInsert t k v).Pairwise (fun a b => a.1 < b.1) := by
  induction t with
  | nil => simp [tblInsert]
  | cons x r ih =>
    obtain ⟨j, w⟩ := x
    have h' := List.pairwise_cons.mp h
    simp only [tblInsert]
    split
    · rename_i hk
      refine List.pairwise_cons.mpr ⟨fun e he => ?_, h⟩
      rcases List.mem_cons.mp he with rfl | he
      · exact hk
      · exact Nat.lt_trans hk (h'.1 e he)
    · split
      · rename_i hj; subst hj
        exact List.pairwise_cons.mpr ⟨h'.1, h'.2⟩
      · refine List.pairwise_cons.mpr ⟨fun e he => ?_, ih h'.2⟩
        rcases mem_tblInsert he with rfl | he
        · show j < k; omega
        · exact h'.1 e he

variable [DecidableEq α]

theorem tblWf_iff (d : α) (t : Tbl α) : tblWf d t = true ↔ t.Pairwise (fun a b => a.1 < b.1) ∧ ∀ e ∈ t, e.2 ≠ d := by
  simp [tblWf, tblSorted_pairwise]

/-- A write keeps the canonical form. -/
theorem tblWf_set {d : α} {t : Tbl α} (h : tblWf d t = true) (k : Nat) (v : α) : tblWf d (tblSet d t k v) = true := by
  rw [tblWf_iff] at h ⊢
  unfold tblSet
  split
  · exact ⟨tblErase_pairwise h.1 k, fun e he => h.2 e (mem_tblErase he).1⟩
  · refine ⟨tblInsert_pairwise h.1 k v, fun e he => ?_⟩
    rcases mem_tblInsert he with rfl | he
    · assumption
    · exact h.2 e he

theorem tblWf_mod {d : α} {t : Tbl α} (h : tblWf d t = true) (k : Nat) (f : α → α) : tblWf d (tblMod d t k f) = true := tblWf_set h k _

theorem tblWf_filter {d : α} {t : Tbl α} (h : tblWf d t = true) (p : Nat × α → Bool) : tblWf d (t.filter p) = true := by
  rw [tblWf_iff] at h ⊢
  exact ⟨h.1.filter p, fun e he => h.2 e (List.mem_filter.mp he).1⟩

/-! Flash. -/

/-- Programming keeps flash's canonical form. -/
theorem flashWrite_wf (a : Nat) (l : List Byte) (s : State) (h : tblWf 0xFF s.flash = true) : tblWf 0xFF (flashWrite a l s).flash = true := by
  induction l generalizing a s with
  | nil => exact h
  | cons b r ih => exact ih (a + 1) _ (tblWf_set h a b)

/-- Erasing keeps it. -/
theorem flashErase_wf (a n : Nat) (s : State) (h : tblWf 0xFF s.flash = true) : tblWf 0xFF (flashErase a n s).flash = true :=
  tblWf_filter h _

/-- A byte outside what is programmed reads as before. -/
theorem flashWrite_other (a : Nat) (l : List Byte) (s : State) (n : Nat) (h : n < a ∨ a + l.length ≤ n) :
    tblGet 0xFF (flashWrite a l s).flash n = tblGet 0xFF s.flash n := by
  induction l generalizing a s with
  | nil => rfl
  | cons b r ih =>
    simp only [List.length_cons] at h
    rw [flashWrite, ih (a + 1) _ (by omega), tblGet_set_other _ _ (by omega)]

/-- A byte programmed reads as programmed. -/
theorem flashWrite_same (a : Nat) (l : List Byte) (s : State) (i : Nat) (h : i < l.length) :
    tblGet 0xFF (flashWrite a l s).flash (a + i) = l[i] := by
  induction l generalizing a s i with
  | nil => simp at h
  | cons b r ih =>
    cases i with
    | zero => rw [flashWrite, flashWrite_other _ _ _ _ (by omega)]; exact tblGet_set_same _ _ _ _
    | succ i =>
      have := ih (a + 1) { s with flash := tblSet 0xFF s.flash a b } i (by simpa using h)
      rw [flashWrite, show a + (i + 1) = a + 1 + i by omega]
      exact this

/-- The state at reset has flash in its canonical form. -/
theorem reset_flash_wf : tblWf 0xFF State.reset.flash = true := rfl

end Sys2Proof.Machine
end

