-- ==== Sys2Proof/Laws/Memory.lean ====
section
/-! SUPPORT. Every operation on DRAM words keeps the canonical form of the four stacks. -/

-- One theorem after another: with a thread for each, the package as one text outgrows the checker's memory limit.
set_option Elab.async false

namespace Sys2Proof.Machine

/-- An operation that leaves the memory alone leaves its form. -/
theorem Memory.wf_of_same {ps : List Part} {s t : State} (c : OnlyChanges ps s t) (h : ps.contains .memory = false) (w : s.memory.wf = true) :
    t.memory.wf = true := by rw [show t.memory = s.memory from c .memory h]; exact w

theorem Memory.wf_iff (m : Memory) : m.wf = true ↔ tblWf {} m.dramStacks = true ∧ ∀ e ∈ m.dramStacks, e.2.wf = true := by
  simp [Memory.wf]

/-- Each stack of a memory in canonical form is in it. -/
theorem Memory.stack_wf {s : State} (w : s.memory.wf = true) (k : Nat) : (s.stack k).wf = true := by
  have each := ((Memory.wf_iff _).mp w).2
  suffices ∀ t : Tbl Stack, (∀ e ∈ t, e.2.wf = true) → (tblGet {} t k).wf = true from this _ each
  intro t
  induction t with
  | nil => intro _; rfl
  | cons e r ih =>
    intro h
    unfold tblGet
    split
    · exact h e List.mem_cons_self
    · exact ih fun x hx => h x (List.mem_cons_of_mem _ hx)

/-- A change of one stack that keeps the stack's form keeps the memory's. -/
theorem modStack_wf {k : Nat} {f : Stack → Stack} {s : State} (w : s.memory.wf = true) (h : (f (s.stack k)).wf = true) :
    (modStack k f s).memory.wf = true := by
  have all := (Memory.wf_iff _).mp w
  refine (Memory.wf_iff _).mpr ⟨tblWf_mod all.1 k f, fun e he => ?_⟩
  change e ∈ tblSet {} s.memory.dramStacks k (f (s.stack k)) at he
  unfold tblSet at he
  split at he
  · exact all.2 e (mem_tblErase he).1
  · rcases mem_tblInsert he with rfl | old
    · exact h
    · exact all.2 e old

/-- Words of good data. -/
theorem writeWords_wf (k w : Nat) (ws : List (BitVec 128)) (s : State) (h : s.memory.wf = true) : (writeWords k w ws s).memory.wf = true := by
  unfold writeWords
  dsimp only
  split
  · exact h
  · refine Memory.wf_of_same (bump_only _ _ _ _ _) rfl (modStack_wf h ?_)
    have x := Memory.stack_wf h k
    simp only [Stack.wf, Bool.and_eq_true] at x ⊢
    constructor
    · suffices ∀ (l : List (BitVec 128 × Nat)) (t : Tbl (BitVec 128)), tblWf 0 t = true →
          tblWf 0 (l.foldl (fun t v => tblSet 0 t ((s.stack k).place (w + v.2)) v.1) t) = true from this _ _ x.1
      intro l
      induction l with
      | nil => exact fun _ a => a
      | cons v r ih => exact fun t a => ih _ (tblWf_set a _ _)
    · suffices ∀ (l : List Nat) (t : Tbl Bool), tblWf false t = true →
          tblWf false (l.foldl (fun t j => tblErase t ((s.stack k).place (w + j))) t) = true from this _ _ x.2
      intro l
      induction l with
      | nil => exact fun _ a => a
      | cons j r ih => exact fun t a => ih _ (by simpa [tblSet] using tblWf_set a ((s.stack k).place (w + j)) false)

/-- Poison. -/
theorem writePoison_wf (k w : Nat) (s : State) (h : s.memory.wf = true) : (writePoison k w s).memory.wf = true := by
  unfold writePoison
  dsimp only
  split
  · exact h
  · refine Memory.wf_of_same (bump_only _ _ _ _ _) rfl (Memory.wf_of_same (bump_only _ _ _ _ _) rfl (modStack_wf h ?_))
    have x := Memory.stack_wf h k
    simp only [Stack.wf, Bool.and_eq_true] at x ⊢
    exact ⟨tblWf_set x.1 _ _, tblWf_set x.2 _ _⟩

/-- The reserved words, written zero. -/
theorem zeroReserved_wf (k : Nat) (s : State) (h : s.memory.wf = true) : (zeroReserved k s).memory.wf = true := by
  unfold zeroReserved
  split
  · exact h
  · refine Memory.wf_of_same (bump_only _ _ _ _ _) rfl (modStack_wf h ?_)
    have x := Memory.stack_wf h k
    simp only [Stack.wf, Bool.and_eq_true] at x ⊢
    exact ⟨tblWf_filter x.1 _, tblWf_filter x.2 _⟩

/-- The memory at reset is in it. -/
theorem reset_memory_wf : State.reset.memory.wf = true := rfl

end Sys2Proof.Machine
end

