-- ==== Sys2Proof/Laws/Request.lean ====
section
/-! SUPPORT. A request that passes checks 1 to 11 reaches its command's own part, and what each outcome of that part leaves. -/

-- One theorem after another: with a thread for each, the package as one text outgrows the checker's memory limit.
set_option Elab.async false

namespace Sys2Proof.Machine

/-- The role a request needs does not depend on the sessions, the buffers or the counters. -/
theorem neededRole_congr (o : Op) (q : Request) (g : Nat) {s t : State} (h : t.otp = s.otp) (k : t.security = s.security) :
    neededRole o q g t = neededRole o q g s := by
  unfold neededRole; rw [h, k]

/-- The row of an opcode of the table: its own code, at most 4 096 words, and a version of 2.0 or later. -/
def opFits₀ (code : Nat) : Bool :=
  (opOf code).code == code && decide ((opOf code).hi ≤ 4096) && decide (0x20 ≤ (opOf code).since)

theorem opFits₀_code {code : Nat} (h : opFits₀ code = true) : (opOf code).code = code := by
  unfold opFits₀ at h
  rw [Bool.and_eq_true, Bool.and_eq_true, beq_iff_eq] at h
  exact h.1.1

theorem takenNow_port {code : Nat} {q : Request} {s : State} (h : takenNow code q s = true) : q.port = .control := by
  unfold takenNow at h
  rw [Bool.and_eq_true, Bool.and_eq_true, beq_iff_eq] at h
  exact h.1.1

theorem plainRequest_flags {code : Nat} {q : Request} (h : plainRequest code q = true) : q.flags = 1 := by
  unfold plainRequest at h
  simp only [Bool.and_assoc] at h
  rw [Bool.and_eq_true, beq_iff_eq] at h
  exact h.1

/-- Leaving a receive buffer changes the buffers and the credit they hold, and no more. -/
theorem arrived_only (code : Nat) (q : Request) (s : State) : OnlyChanges [.control, .stream, .domain] s (arrived code q s) := by
  unfold arrived
  split
  · exact takeAt_only _ _
  · exact OnlyChanges.refl _ _

/-- A request that is taken now goes through the checks on the state its packet has left. -/
theorem takeRequest_now {code : Nat} {q : Request} {s : State} (body : Request → State → Reply) (h : takenNow code q s = true) :
    takeRequest code q body s = checks (opOf code) q body (arrived code q s) := by
  unfold takenNow at h
  rw [Bool.and_eq_true, Bool.and_eq_true, beq_iff_eq] at h
  have open_ : s.portTakes q.port = true := by unfold State.portTakes; rw [h.1.1]; exact h.1.2
  have rest := h.2
  unfold takeRequest arrived
  rw [open_]
  cases hn : s.namesNext q.port (packetBytes (requestPacket code q)) with
  | some e =>
    rw [hn] at rest
    simp only [Bool.and_eq_true, beq_iff_eq] at rest
    simp only [rest.1, rest.2]
    rfl
  | none =>
    rw [hn] at rest
    simp only [Bool.and_eq_true, Bool.not_eq_true'] at rest
    simp only [rest.1.1, rest.1.2, rest.2, Bool.not_true, Bool.false_eq_true, if_false, if_true]

/-- A plain request of an opcode passes checks 2 to 6. -/
theorem checks_plain {code : Nat} {q : Request} (o : opFits₀ code = true) (h : plainRequest code q = true) (body : Request → State → Reply)
    (u : State) : checks (opOf code) q body u = letIn (opOf code) q body u := by
  unfold opFits₀ at o
  unfold plainRequest at h
  rw [Bool.and_eq_true, decide_eq_true_eq] at o h
  have size := h.1
  rw [Bool.and_eq_true, Bool.and_eq_true, Bool.and_eq_true, decide_eq_true_eq, decide_eq_true_eq, decide_eq_true_eq] at size
  have plain := size.1.1.1
  rw [Bool.and_eq_true, Bool.and_eq_true, beq_iff_eq, beq_iff_eq, beq_iff_eq] at plain
  have from_ := o.2
  have most := o.1
  rw [Bool.and_eq_true, decide_eq_true_eq] at most
  have flags : flagsValid q.flags = true ∧ targetValid q.flags q.target = true ∧ broadcastBit q.flags = false := by
    rw [plain.1.1, plain.1.2]; decide
  have self_ : targetsSelf u q = true := by unfold targetsSelf; rw [flags.2.2, plain.1.2]; rfl
  have barred : broadcastBarred (opOf code) q.flags = false := by unfold broadcastBarred; rw [flags.2.2]; rfl
  unfold checks
  dsimp only
  rw [if_neg (by omega), if_neg (by omega), flags.1, flags.2.1, barred, flags.2.2, self_]
  simp only [Bool.not_true, Bool.or_self, Bool.not_false, Bool.and_false, Bool.false_eq_true, if_false]
  rw [if_neg (by omega), if_neg (by omega)]

/-- A request for this device alone that is of an open session and comes next: `letIn` runs it. -/
theorem admit_taken {o : Op} {q : Request} {s : State} {x : Session} (body : Request → State → Reply) (hp : q.port = .control)
    (hf : q.flags = 1) (h0 : q.session ≠ 0) (hx : s.session q.session.toNat = some x) (ha : x.awaiting = none) (hv : x.version = q.version)
    (hcl : x.closing.any (fun c => c.2 == 0) = false) (hs : x.nextSeq = q.seq) (hr : x.role.code ≤ neededRole o q x.grants s)
    (hc : o.code ≠ 0x1101 ∧ o.code ≠ 0x1102) : letIn o q body s = execute o q body (advanceSeq q s) := by
  have role : ¬(neededRole o q x.grants (advanceSeq q s) < x.role.code ∨ urgentBit 1 = true ∧ x.role ≠ .supervisor) := by
    have e : neededRole o q x.grants (advanceSeq q s) = neededRole o q x.grants s := neededRole_congr o q x.grants rfl rfl
    rintro (h | h)
    · omega
    · exact absurd h.1 (by decide)
  unfold letIn
  simp only [hp, hx, hf, ha, hv, hcl, hs, show broadcastBit 1 = false by decide]
  rw [if_neg h0, if_neg (not_or.mpr hc), if_neg role, if_neg (by simp), if_neg (show ¬q.seq ≠ q.seq from fun h => h rfl)]
  exact if_neg (by simp)

/-- What a literal opcode's row must be for the laws below: `decide` shows it. -/
def opFits (code : Nat) (get : Bool) : Bool :=
  opFits₀ code && (opOf code).get == get && code != 0x1101 && code != 0x1102

/-- The meaning of a request that is taken: its command's own part, on the state in which it has been accepted. -/
theorem takeRequest_execute {code : Nat} {get : Bool} {q : Request} {body : Request → State → Reply} {s : State}
    (ho : opFits code get = true) (h : taken code q s = true) :
    takeRequest code q body s = execute (opOf code) q body (admitted code q s) ∧ (opOf code).code = code ∧ (opOf code).get = get := by
  unfold opFits at ho
  rw [Bool.and_eq_true, Bool.and_eq_true, Bool.and_eq_true, bne_iff_ne, bne_iff_ne, beq_iff_eq] at ho
  have code_ := opFits₀_code ho.1.1.1
  refine ⟨?_, code_, ho.1.1.2⟩
  unfold taken at h
  rw [Bool.and_eq_true, Bool.and_eq_true, Bool.and_eq_true, bne_iff_ne] at h
  rw [takeRequest_now body h.1.1.1, checks_plain ho.1.1.1 h.1.1.2]
  have own := h.2
  cases hx : (arrived code q s).session q.session.toNat with
  | none => rw [hx] at own; cases own
  | some x =>
    rw [hx] at own
    simp only [Bool.and_eq_true, decide_eq_true_eq, beq_iff_eq, Option.isNone_iff_eq_none, Bool.not_eq_true'] at own
    exact admit_taken body (takenNow_port h.1.1.1) (plainRequest_flags h.1.1.2) h.1.2 hx own.1.1.1.1 own.1.1.1.2 own.1.1.2 own.1.2
      (by rw [neededRole_congr _ _ _ (arrived_only code q s .otp rfl) (arrived_only code q s .security rfl)]; exact own.2) (by rw [code_]; exact ⟨ho.1.2, ho.2⟩)

/-! Sessions. -/

theorem find_map_number (n : Nat) (f : Session → Session) (hf : ∀ x, (f x).number = x.number) (l : List Session) :
    (l.map (fun x => if x.number = n then f x else x)).find? (fun x => x.number == n) = (l.find? (fun x => x.number == n)).map f := by
  induction l with
  | nil => rfl
  | cons a r ih =>
    rw [List.map_cons, List.find?_cons, List.find?_cons]
    by_cases ha : a.number = n
    · have h2 : ((f a).number == n) = true := by simp [hf, ha]
      simp only [ha, if_true, h2, Option.map_some, beq_self_eq_true]
    · have h1 : (a.number == n) = false := by simp [ha]
      simp only [ha, if_false, h1]
      exact ih

/-- A change of a session that keeps its number is what the session then is. -/
theorem modSession_session (n : Nat) (f : Session → Session) (hf : ∀ x, (f x).number = x.number) (s : State) :
    (modSession n f s).session n = (s.session n).map f := find_map_number n f hf _

/-- A taken request has used up its SEQUENCE. -/
theorem admitted_session (code : Nat) (q : Request) (s : State) :
    (admitted code q s).session q.session.toNat =
      ((arrived code q s).session q.session.toNat).map (fun x => if q.seq = x.nextSeq then { x with nextSeq := x.nextSeq + 1 } else x) := by
  unfold admitted advanceSeq
  exact modSession_session _ _ (fun x => by split <;> rfl) _

/-- A reply kept is the last of the session's. -/
theorem storeReply_session (n : Nat) (p : Packet) (s : State) :
    (storeReply n p s).session n = (s.session n).map (fun x => { x with replies := (x.replies ++ [p]).drop (x.replies.length + 1 - 4) }) := by
  unfold storeReply
  exact modSession_session n (fun x => { x with replies := (x.replies ++ [p]).drop (x.replies.length + 1 - 4) }) (fun _ => rfl) s

/-! Outcomes of a command's own part. -/

/-- Every field in range: check 12 lets the command go on. -/
theorem checked_pass (cs : List (Bool × Nat)) (s : State) (k : Reply) (h : cs.all (fun c => c.1) = true) : checked cs s k = k := by
  unfold checked
  have : cs.find? (fun c => !c.1) = none := by
    rw [List.find?_eq_none]
    intro c hc
    simp [List.all_eq_true.mp h c hc]
  rw [this]

/-- Every condition met: check 13 lets the command go on. -/
theorem require_pass (cs : List (Bool × Status)) (s : State) (k : Reply) (h : cs.all (fun c => c.1) = true) : require cs s k = k := by
  unfold require
  have : cs.find? (fun c => !c.1) = none := by
    rw [List.find?_eq_none]
    intro c hc
    simp [List.all_eq_true.mp h c hc]
  rw [this]

theorem execute_get (o : Op) (q : Request) (body : Request → State → Reply) (s t : State) (pl : List Byte) (hg : o.get = true)
    (h : body q s = .okWith pl t) : execute o q body s = got o.code q pl t := by
  unfold execute
  rw [h]
  simp only [Reply.okWith, hg, if_true, got, id]

theorem execute_set (o : Op) (q : Request) (body : Request → State → Reply) (s t : State) (st : Status) (pl : List Byte)
    (next : State → State) (hg : o.get = false) (h : body q s = .done st pl t next) :
    execute o q body s = next (answerKept o.code q st pl (some t.control.nextEntry)
      (digestCommand o.code q.u st (Config.sha512 q.payload) (journal o.code q .none .done (bump pmDevice 0 8 1 t)))) := by
  unfold execute
  rw [h]
  simp only [hg, Bool.false_eq_true, if_false]

theorem execute_refuse (o : Op) (q : Request) (body : Request → State → Reply) (s t : State) (st : Status) (pl : List Byte)
    (h : body q s = .reject st pl t) : execute o q body s = refused o.code q st pl t := by
  unfold execute
  rw [h]
  rfl

theorem execute_later (o : Op) (q : Request) (body : Request → State → Reply) (s t : State) (undo : Undo)
    (h : body q s = .later undo t) : execute o q body s = begun o.code q undo t := by
  unfold execute
  rw [h]
  rfl

/-- A GET whose own part answers a payload. -/
theorem takeRequest_get {code : Nat} {q : Request} {body : Request → State → Reply} {s t : State} {pl : List Byte}
    (ho : opFits code true = true) (h : taken code q s = true) (hb : body q (admitted code q s) = .okWith pl t) :
    takeRequest code q body s = got code q pl t := by
  obtain ⟨e, hc, hg⟩ := takeRequest_execute (body := body) ho h
  rw [e, execute_get _ _ _ _ _ _ hg hb, hc]

/-- Another command whose own part has executed. -/
theorem takeRequest_done {code : Nat} {q : Request} {body : Request → State → Reply} {s t : State} {st : Status} {pl : List Byte}
    {next : State → State} (ho : opFits code false = true) (h : taken code q s = true)
    (hb : body q (admitted code q s) = .done st pl t next) : takeRequest code q body s = next (carriedOut code q st pl t) := by
  obtain ⟨e, hc, hg⟩ := takeRequest_execute (body := body) ho h
  rw [e, execute_set _ _ _ _ _ _ _ _ hg hb, hc]
  rfl

/-- A command whose own part refuses. -/
theorem takeRequest_refuse {code : Nat} {get : Bool} {q : Request} {body : Request → State → Reply} {s t : State} {st : Status}
    {pl : List Byte} (ho : opFits code get = true) (h : taken code q s = true)
    (hb : body q (admitted code q s) = .reject st pl t) : takeRequest code q body s = refused code q st pl t := by
  obtain ⟨e, hc, -⟩ := takeRequest_execute (body := body) ho h
  rw [e, execute_refuse _ _ _ _ _ _ _ hb, hc]

/-- A command whose reply comes later. -/
theorem takeRequest_later {code : Nat} {get : Bool} {q : Request} {body : Request → State → Reply} {s t : State} {undo : Undo}
    (ho : opFits code get = true) (h : taken code q s = true) (hb : body q (admitted code q s) = .later undo t) :
    takeRequest code q body s = begun code q undo t := by
  obtain ⟨e, hc, -⟩ := takeRequest_execute (body := body) ho h
  rw [e, execute_later _ _ _ _ _ _ hb, hc]

/-! Requests of session 0. -/

/-- The meaning of a request of session 0 that is taken. -/
theorem takeRequest_unsessioned {code : Nat} {q : Request} {body : Request → State → Reply} {s : State} (ho : opFits₀ code = true)
    (h : takenWithoutSession code q s = true) : takeRequest code q body s = execute (opOf code) q body (received code q s) := by
  unfold takenWithoutSession at h
  rw [Bool.and_eq_true, Bool.and_eq_true, Bool.and_eq_true, beq_iff_eq] at h
  have serves : sessionless (arrived code q s) (opOf code).code = true := by
    have e : (arrived code q s).sill = s.sill := arrived_only code q s .sill rfl
    rw [opFits₀_code ho]
    unfold sessionless State.romTakes
    rw [e]
    exact h.2
  rw [takeRequest_now body h.1.1.1, checks_plain ho h.1.1.2, received]
  unfold letIn
  simp only [takenNow_port h.1.1.1, h.1.2, serves, plainRequest_flags h.1.1.2, show broadcastBit 1 = false by decide,
    show urgentBit 1 = false by decide, Bool.not_true, Bool.false_eq_true, if_false, if_true]

/-! What accepting and answering change. -/

theorem admitted_only (code : Nat) (q : Request) (s : State) : OnlyChanges [.control, .stream, .domain] s (admitted code q s) :=
  advanceSeq_frame _ (arrived_only _ _ _) rfl

/-- A packet taken out of a buffer of the control port frees nothing elsewhere. -/
theorem arrived_control (code : Nat) (q : Request) (s : State) (h : q.port = .control) : OnlyChanges [.control] s (arrived code q s) := by
  unfold arrived
  split
  · rename_i i r e
    unfold State.namesNext at e
    cases hn : s.nextIndex with
    | none => rw [hn] at e; cases e
    | some k =>
      rw [hn] at e
      dsimp only at e
      cases hr : s.control.rx[k]? with
      | none => rw [hr] at e; cases e
      | some r' =>
        rw [hr] at e
        dsimp only at e
        split at e
        · rename_i same
          cases e
          unfold takeAt
          rw [hr]
          dsimp only
          rw [same.1, h]
          exact modSession_frame _ _ (modControl_frame _ (OnlyChanges.refl _ _) rfl) rfl
        · cases e
  · exact OnlyChanges.refl _ _

theorem admitted_control (code : Nat) (q : Request) (s : State) (h : q.port = .control) : OnlyChanges [.control] s (admitted code q s) :=
  advanceSeq_frame _ (arrived_control code q s h) rfl

theorem answerKept_control (op : Nat) (q : Request) (st : Status) (pl : List Byte) (e : Option Nat) (s : State) (h : q.port = .control) :
    OnlyChanges [.control] s (answerKept op q st pl e s) := by
  unfold answerKept keepReply putReply
  rw [h]
  exact storeReply_frame _ _ (modControl_frame _ (OnlyChanges.refl _ _) rfl) rfl

theorem got_only (code : Nat) (q : Request) (pl : List Byte) (s : State) (h : q.port = .control) :
    OnlyChanges [.control, .counters] s (got code q pl s) :=
  OnlyChanges.trans (bump_frame _ _ _ _ (OnlyChanges.refl _ _) rfl) ((answerKept_control _ _ _ _ _ _ h).mono rfl)

theorem carriedOut_only (code : Nat) (q : Request) (st : Status) (pl : List Byte) (s : State) (h : q.port = .control) :
    OnlyChanges [.control, .counters, .security] s (carriedOut code q st pl s) :=
  OnlyChanges.trans (digestCommand_frame _ _ _ _ (journal_frame _ _ _ _ (bump_frame _ _ _ _ (OnlyChanges.refl _ _) rfl) rfl) rfl)
    ((answerKept_control _ _ _ _ _ _ h).mono rfl)

end Sys2Proof.Machine
end

