-- ==== Sys2Proof/Machine/PinTable.lean ====
section
/-! DEFINITION. The signals of R37 and R38: direction, supply, the sill's share, reset state, and what each output shows. -/

namespace Sys2Proof.Machine

/-- Direction of a signal. -/
inductive PinDir where
  | input | output | both | openDrain
  deriving DecidableEq, Repr

/-- What a signal shows: high impedance, electrical idle, a level, an open-drain output that is off, or what its block sends. -/
inductive PinLevel where
  | z | idle | low | high | released | sends
  deriving DecidableEq, Repr

/-- The pull of R37 and R38. -/
inductive PinPull where
  | none | up | down
  deriving DecidableEq, Repr

/-- A row of the signal tables. Inputs have no reset level; SEC_ALARM_N follows the sill alarm state. -/
structure PinRow where
  name : String
  dir : PinDir
  supply : Supply
  sill : Bool := false
  reset : Option PinLevel := none
  pull : PinPull := .none
  deriving DecidableEq, Repr

/-- R37: lanes, references and monitor inputs. -/
def lanePins : List PinRow :=
  [ { name := "HL_TX", dir := .output, supply := .hsio, reset := some .idle }, { name := "HL_RX", dir := .input, supply := .hsio },
    { name := "HL_REFCLK", dir := .input, supply := .hsio }, { name := "TN_TX", dir := .output, supply := .hsio, reset := some .idle },
    { name := "TN_RX", dir := .input, supply := .hsio }, { name := "SP_TX", dir := .output, supply := .hsio, reset := some .idle },
    { name := "SP_RX", dir := .input, supply := .hsio }, { name := "TN_REFCLK", dir := .input, supply := .hsio },
    { name := "SP_REFCLK", dir := .input, supply := .hsio }, { name := "MON_IN", dir := .input, supply := .ana },
    { name := "MON_VREF", dir := .input, supply := .ana } ]

/-- R37: the control port, flash, PMBus, straps and resets. -/
def controlPins : List PinRow :=
  [ { name := "CP_SCK", dir := .input, supply := .io, sill := true }, { name := "CP_MOSI", dir := .input, supply := .io, sill := true },
    { name := "CP_CS_N", dir := .input, supply := .io, sill := true, pull := .up },
    { name := "CP_MISO", dir := .output, supply := .io, sill := true, reset := some .z },
    { name := "CP_IRQ_N", dir := .openDrain, supply := .io, sill := true, reset := some .released },
    { name := "FL_SCK", dir := .output, supply := .io, reset := some .z }, { name := "FL_IO", dir := .both, supply := .io, reset := some .z },
    { name := "FL_CS_N", dir := .output, supply := .io, reset := some .z, pull := .up },
    { name := "PMB_SCL", dir := .openDrain, supply := .io, sill := true, reset := some .released },
    { name := "PMB_SDA", dir := .openDrain, supply := .io, sill := true, reset := some .released },
    { name := "PMB_ALERT_N", dir := .input, supply := .io, sill := true, pull := .up },
    { name := "SILL_CLK_XI", dir := .input, supply := .io, sill := true }, { name := "SILL_CLK_XO", dir := .output, supply := .io, sill := true },
    { name := "RESET_N", dir := .input, supply := .io, sill := true }, { name := "ROLE", dir := .input, supply := .io, sill := true, pull := .down },
    { name := "BOOT_SRC", dir := .input, supply := .io, sill := true, pull := .down },
    { name := "MIR_TIE", dir := .input, supply := .io, sill := true, pull := .down } ]

/-- R37: the mirror, security, timing and test signals. -/
def otherPins : List PinRow :=
  [ { name := "MIR_ACT_OUT", dir := .output, supply := .io, sill := true, reset := some .low },
    { name := "MIR_ACT_IN", dir := .input, supply := .io, sill := true, pull := .up },
    { name := "SEC_ALARM_N", dir := .openDrain, supply := .io, sill := true },
    { name := "TAMPER_IN", dir := .input, supply := .io, sill := true, pull := .up },
    { name := "ZEROIZE_N", dir := .input, supply := .io, sill := true, pull := .up },
    { name := "FACT_TEST", dir := .input, supply := .io, pull := .down }, { name := "REF", dir := .input, supply := .io },
    { name := "REF_SEL", dir := .input, supply := .io, sill := true, pull := .down },
    { name := "PPS_IN", dir := .input, supply := .io, pull := .down }, { name := "PPS_OUT", dir := .output, supply := .io, reset := some .low },
    { name := "FRAME_OUT", dir := .output, supply := .io, reset := some .low },
    { name := "CLKOUT", dir := .output, supply := .io, reset := some .z }, { name := "TCK", dir := .input, supply := .io, pull := .down },
    { name := "TMS", dir := .input, supply := .io, pull := .up }, { name := "TDI", dir := .input, supply := .io, pull := .up },
    { name := "TDO", dir := .output, supply := .io, reset := some .z }, { name := "TRST_N", dir := .input, supply := .io, pull := .down } ]

/-- R38: the outputs of an optics attach site. -/
def sitePins : List PinRow :=
  [ { name := "OA_CS_N", dir := .output, supply := .io, reset := some .high }, { name := "OA_PIC_RST_N", dir := .output, supply := .io, reset := some .low },
    { name := "OA_SCK", dir := .output, supply := .io, reset := some .low }, { name := "OA_MOSI", dir := .output, supply := .io, reset := some .low },
    { name := "OA_TX", dir := .output, supply := .conv, reset := some .idle }, { name := "OA_BIAS", dir := .output, supply := .ana, reset := some .low } ]

/-- Every row. -/
def pinTable : List PinRow := lanePins ++ controlPins ++ otherPins ++ sitePins

/-! What the outputs show between two commands. -/

/-- A host lane (R37, R66). -/
def State.hostLanePin (s : State) (lane : Nat) : PinLevel := if s.laneSends lane = 0 then .idle else .sends

/-- The lanes of a Tenon port: idle without a role, and while the port sleeps (R37, R66). -/
def State.tenonPin (s : State) (p : Nat) : PinLevel :=
  if !s.hubUp || (s.tenon p).role == 0 || (s.tenon p).state == 4 || (s.dom 5 p).state != 0 then .idle else .sends

/-- A lane of the stream port: idle while the port is disabled or asleep, and where it is not bonded (R37, R455). -/
def State.streamPin (s : State) (lane : Nat) : PinLevel :=
  if !s.hubUp || !s.stream.enabled || s.stream.state == 3 || (s.dom 6 0).state != 0 || decide (s.stream.lanes ≤ lane) then .idle else .sends

/-- FL_SCK, FL_CS_N and FL_IO0 to 3 (R37, R41). -/
def State.flashPin (s : State) : PinLevel := if s.pins.flashDriven then .sends else .z

/-- CP_MISO between two transactions, CP_CS_N being high, PMB_SCL and PMB_SDA between two transfers, and TDO between two scans. -/
def State.misoPin (_ : State) : PinLevel := .z
def State.pmbPin (_ : State) : PinLevel := .released
def State.tdoPin (_ : State) : PinLevel := .z

/-- A pulse of a schedule is high for its width after its rising edge (R414). -/
def Pulse.high (p : Pulse) (widthNs now : Nat) : Bool := match p.last with | some t => decide (t ≤ now ∧ now < t + widthNs) | none => false

/-- PPS_OUT and FRAME_OUT. -/
def State.ppsPin (s : State) : PinLevel :=
  if s.timing.pps.on && s.timing.pps.high (s.timing.outputs.ppsWidth * 1000) s.localNs then .high else .low
def State.framePin (s : State) : PinLevel :=
  if s.timing.frame.on && s.timing.frame.high s.timing.outputs.frameWidth s.localNs then .high else .low

/-- The reset-state outputs of a site and its released ones (R38, R145): select high and data low between transfers, the clock at the idle
level of the last mode. -/
def State.picCsPin (_ : State) : PinLevel := .high
def State.picMosiPin (_ : State) : PinLevel := .low
def State.picSckPin (s : State) (u : Nat) : PinLevel := match (s.calOf u).spi with | some t => if t.mode = 3 then .high else .low | none => .low
def State.picResetPin (s : State) (u : Nat) : PinLevel := if (s.calOf u).picReleased then .high else .low

/-- The DAC outputs of a site: signal only while the output is live or a full transmit calibration drives them (R38, R142). -/
def State.dacPin (s : State) (u : Nat) : PinLevel := if s.txLive u || (s.calOf u).fullTx then .sends else .idle

end Sys2Proof.Machine
end

