-- ==== Sys2Proof/WellFormed.lean ====
section
/-! DEFINITION. What a command's operands must be for the command to be one the outside world can send: the bounds the spec gives
that their types do not. The meanings are total and do not rest on it. -/

namespace Sys2Proof.Machine

/-- A packet's payload is whole words and at most 4 096 of them (R112). -/
def payloadWf (p : List Byte) : Bool := p.length % 4 == 0 && decide (p.length ≤ 16384)

/-- TN0 to TN7 (R465). -/
def Port.wf : Port → Bool
  | .tenon p => decide (p < 8)
  | _ => true

def Packet.wf (p : Packet) : Bool := payloadWf p.payload

/-- The payload is one that a buffer holds; ORIGIN is an address and ORIGIN_ROLE a role (R112, R471). -/
def Request.wf (q : Request) : Bool := payloadWf q.payload && q.port.wf && decide (q.origin < 16384) && decide (q.originRole ≤ 3)

/-- Session numbers run from 1 to 0xFFFF (R118). -/
def sessionNumber (n : Nat) : Bool := decide (1 ≤ n ∧ n ≤ 0xFFFF)

/-- A governed domain: a class of R55 and an index it has. -/
def governed (cls idx : Nat) : Bool :=
  decide (1 ≤ cls ∧ cls ≤ 9 ∧ idx < [0, 4, 4, 16, 4, 8, 1, 1, 1, 8].getD cls 0)

def LinkControl.wf (k : LinkControl) : Bool :=
  decide (k.freed.length = 4 ∧ k.grants.length = 4) && k.grants.all (fun g => decide (g < 65536))

def MapMsg.wf (m : MapMsg) : Bool :=
  decide (m.level ≤ 2 ∧ m.manager < 16384 ∧ m.east < 2 ^ 32 ∧ m.west < 2 ^ 32 ∧ m.floor < 2 ^ 32 ∧ m.floorSeq < 2 ^ 32)

/-- A message of a virtual channel, with the payload its channel carries (R456, R471). -/
def Message.wf (m : Message) : Bool :=
  decide (m.vc ≤ 3 ∧ m.hops < 256 ∧ m.originRole ≤ 3 ∧ m.origin < 16384) &&
    (match m.body with | .packet p _ => p.wf | .map x => x.wf | _ => true)

def Hello.wf (h : Hello) : Bool :=
  decide (h.nonce.length = 8 ∧ h.serial.length = 16 ∧ h.portRole ≤ 7 ∧ h.strapRole ≤ 3 ∧ h.address < 16384)

def Auth.wf (a : Auth) : Bool :=
  decide (a.idPub.length = 133 ∧ a.agrPub.length = 133 ∧ a.certR.length = 66 ∧ a.certS.length = 66 ∧ a.sigR.length = 66 ∧
    a.sigS.length = 66)

/-- No more slips than pilots (R180). -/
def AcfSeen.wf (f : AcfSeen) : Bool := decide (f.slips ≤ 8192)

def Decoded.wf (w : Decoded) : Bool := decide (w.stage1.ns < 1000000000 ∧ w.group < 1024 ∧ w.codeword < 3)

/-- An element of R151 of a carrier unit, or of the monitor ADC as unit 4. -/
def element (u : Fin 5) (p i : Nat) : Bool :=
  if u.val = 4 then decide ((p = 0x20 ∧ i < 2) ∨ (p = 0x21 ∧ i < 2) ∨ (p = 0x22 ∧ i < 1))
  else decide (1 ≤ p ∧ p ≤ 10 ∧ i < [0, 256, 256, 256, 4, 2, 2, 32, 4, 2, 2].getD p 0)

/-- A slice's OPUCn payload is 15 232 bytes (R261). -/
def OtuLoad.wf (l : OtuLoad) : Bool := l.payload.all (fun p => p.length == 15232)

/-- A slice is 15 296 bytes (R249). -/
def OtuSeen.wf (f : OtuSeen) : Bool := f.slices.all (fun x => x.length == 15296)

/-- One of the four stacks (R318). -/
def OddWord.wf (w : OddWord) : Bool := decide (w.stack < 4)

def HostFec.wf (f : HostFec) : Bool := decide (f.corrected + f.uncorrectable ≤ f.codewords)

def GfpSeen.wf (f : GfpSeen) : Bool := decide (f.length ≤ 65535 ∧ f.upi < 256)

/-- The states of R358 to R364, and the digest of a mirrored configuration. -/
def Heartbeat.wf (h : Heartbeat) : Bool := decide (h.state ≤ 4 ∧ h.fw < 2 ^ 32)

/-- The conversions of one value: 2^AVG_LOG2 of them, AVG_LOG2 from 1 to 8 (R424). -/
def conversions (v : List Int) : Bool := [2, 4, 8, 16, 32, 64, 128, 256].contains v.length

end Sys2Proof.Machine

namespace Sys2Proof

open Sys2Proof.Machine

/-- The command is well formed. -/
def Instr.wf (i : Instr) : Bool :=
  match i with
  | .sillPowerOn => true
  | .sillPowerLoss => true
  | .supplyHold _ => true
  | .sequenceFault _ => true
  | .hubPowerLoss => true
  | .suppliesValid => true
  | .resetNFall => true
  | .resetNRise => true
  | .strapWindow _ => true
  | .strapFault => true
  | .bankCheck => true
  | .salurnInitDone _ => true
  | .sillReset _ => true
  | .hubResetByRegister _ => true
  | .mpRestartByRegister _ => true
  | .cuRestartByRegister _ => true
  | .sillRegisterWrite _ _ => true
  | .watchdogExpiry => true
  | .lockstepMismatch => true
  | .mpRestartComplete => true
  | .trialTimeout => true
  | .activationEpoch => true
  | .debugUnlockExpiry => true
  | .debugNonceExpiry => true
  | .jtagInstructionLoad _ => true
  | .cpPushPacket _ => true
  | .cpPull _ => true
  | .cpInvalidTransaction _ => true
  | .malformedPacket port bytes count => port.wf && decide (bytes.length ≤ count)
  | .packetForward port p => port.wf && p.wf
  | .eventToOutgoingQueue => true
  | .eventsLostQueued _ => true
  | .sessionIdleExpiry number => sessionNumber number
  | .sessionAuthExpiry number => sessionNumber number
  | .systemResetExecute => true
  | .systemGetIdentity q => q.wf
  | .systemReset q => q.wf
  | .systemGetDebugChallenge q => q.wf
  | .systemDebugUnlock q => q.wf
  | .systemGetEvents q => q.wf
  | .powerSetTolerance q => q.wf
  | .powerGetState q => q.wf
  | .powerGetPower q => q.wf
  | .powerSetRegulator q => q.wf
  | .carrierSetFormat q => q.wf
  | .carrierSetPath q => q.wf
  | .carrierSetDsp q => q.wf
  | .carrierSetSpectralOrder q => q.wf
  | .carrierGetStatus q => q.wf
  | .carrierReacquire q => q.wf
  | .carrierGetConfig q => q.wf
  | .formatEpoch _ => true
  | .acfFrameTx _ _ => true
  | .acfFrameRx _ f => f.wf
  | .acfLossOfFrame _ => true
  | .lossOfSignal _ => true
  | .losClear _ => true
  | .losHoldExpiry _ => true
  | .acqStageDone _ _ _ _ _ _ => true
  | .acqStageTimeout _ => true
  | .equaliserDivergence _ => true
  | .codewordDecoded _ w => w.wf
  | .joineryFallback _ => true
  | .joineryJoin _ => true
  | .daeSuspend _ => true
  | .daeResume _ => true
  | .fullCalibrationDone _ _ => true
  | .calRoundStart _ => true
  | .calWindowDone u estimates => estimates.all (fun e => element u e.1 e.2.1)
  | .monCalStep => true
  | .biasRampStep _ _ _ => true
  | .picInterrupt _ _ => true
  | .calGetParam q => q.wf
  | .calSetOverlay q => q.wf
  | .calSaveRecord q => q.wf
  | .calRun q => q.wf
  | .calSetPolicy q => q.wf
  | .calGetStats q => q.wf
  | .calSetAnalog q => q.wf
  | .calSetBias q => q.wf
  | .calPicSpi q => q.wf
  | .domainHoldExpiry cls idx => governed cls idx
  | .domainDemand cls idx => governed cls idx
  | .pllLock _ => true
  | .domainExitComplete cls idx => governed cls idx
  | .coreVoltageEvaluation _ _ => true
  | .coreVoltageStep _ _ => true
  | .pmbAlert => true
  | .fecGetFrameInfo q => q.wf
  | .fecGetCounts q => q.wf
  | .fecSetInject q => q.wf
  | .otucnFrameTx _ load => load.wf
  | .otucnFrameRx _ f => f.wf
  | .oofDeclared _ => true
  | .oofCleared _ => true
  | .lofDeclared _ => true
  | .lofCleared _ => true
  | .oomDeclared _ => true
  | .oomCleared _ => true
  | .lomDeclared _ => true
  | .lomCleared _ => true
  | .defectPersistence _ _ => true
  | .apsAccept _ => true
  | .apsInconsistent _ => true
  | .ttiAccept _ => true
  | .psiAccept _ => true
  | .passedBytesAccept _ => true
  | .linkTagAccept _ => true
  | .defectEventGather _ => true
  | .framerSetTti q => q.wf
  | .framerSetDegrade q => q.wf
  | .framerSetAps q => q.wf
  | .framerSetOverhead q => q.wf
  | .framerSetMaint q => q.wf
  | .framerGetStatus q => q.wf
  | .framerGetOverhead q => q.wf
  | .framerGetCounts q => q.wf
  | .todSecondBoundary => true
  | .clientFrameRx _ data _ fec odd => decide (0 < data.length) && fec.wf && odd.all OddWord.wf
  | .elasticBufferBlock _ _ _ _ => true
  | .clientLinkChange _ _ => true
  | .flexeCalAck _ inFrame => inFrame.all (fun p => decide (p < 64))
  | .flexeSwitchTimeout _ => true
  | .gfpFrameRx _ f => f.wf
  | .clientSetClient q => q.wf
  | .clientSetTrib q => q.wf
  | .clientSetFlexe q => q.wf
  | .clientSetClass q => q.wf
  | .clientGetStatus q => q.wf
  | .clientGetCounts q => q.wf
  | .frameSelection _ odd => odd.all OddWord.wf
  | .schedParamApply => true
  | .gateEntryEnd _ => true
  | .gateListStart _ => true
  | .schedSamplingInstant _ => true
  | .schedSetSubscriber q => q.wf
  | .schedSetQueue q => q.wf
  | .schedSetGates q => q.wf
  | .schedGetGates q => q.wf
  | .schedGetQueue q => q.wf
  | .schedSetSampling q => q.wf
  | .schedGetCounts q => q.wf
  | .planerRead _ _ => true
  | .clampFlush _ _ => true
  | .bucketDrain _ => true
  | .ceRateThreshold _ => true
  | .retrainStart _ _ => true
  | .retrainComplete _ _ odd => odd.all OddWord.wf
  | .auditComplete _ _ => true
  | .memorySetPolicy q => q.wf
  | .memoryGetStatus q => q.wf
  | .memoryGetLog q => q.wf
  | .memoryRetrain q => q.wf
  | .memorySetShim q => q.wf
  | .memoryGetCounts q => q.wf
  | .twinFrameArrival _ _ => true
  | .twinPlayout _ _ _ => true
  | .mirActInChange _ => true
  | .mirrorClaimStable => true
  | .mirrorClaimSample => true
  | .mirrorTieResample => true
  | .mirrorHoldoffExpiry => true
  | .mirrorLosRelease => true
  | .mirrorReleaseDeassert => true
  | .braceHeartbeatTx => true
  | .braceHeartbeatRx h => h.wf
  | .braceLinkDown => true
  | .protectSetTwin q => q.wf
  | .protectRealign q => q.wf
  | .protectSetMirror q => q.wf
  | .protectClaim q => q.wf
  | .protectGetStatus q => q.wf
  | .protectGetCounts q => q.wf
  | .rolloverFlip _ => true
  | .channelModeApply _ _ => true
  | .benchRequestExecute => true
  | .keyLoadExecute => true
  | .supplyGlitch _ => true
  | .vddIoLoss => true
  | .vddIoReturn => true
  | .clockGlitch => true
  | .temperatureExcursion => true
  | .tamperInAsserted => true
  | .zeroizeNAsserted => true
  | .entropyHealthFail => true
  | .securitySetOwnerRoot q => q.wf
  | .securitySetOwnerRecord q => q.wf
  | .securityLoadKek q => q.wf
  | .securityLoadKey q => q.wf
  | .securityEraseKey q => q.wf
  | .securitySetChannel q => q.wf
  | .securityRollover q => q.wf
  | .securityBench q => q.wf
  | .securitySetPolicy q => q.wf
  | .securityClearAlarm q => q.wf
  | .securityAttest q => q.wf
  | .securityGetCert q => q.wf
  | .securityGetStatus q => q.wf
  | .securityGetSlots q => q.wf
  | .securityGetCounts q => q.wf
  | .refMeasurement _ _ => true
  | .refAbsence _ => true
  | .refDisqualified _ => true
  | .refRequalified _ => true
  | .refSelChange _ => true
  | .lockTestMet => true
  | .dcoUpdate _ => true
  | .ppsInEdge _ _ _ => true
  | .todMode2Expiry => true
  | .todSlewEnd => true
  | .ppsOutPulse => true
  | .frameOutPulse => true
  | .timingSetRefs q => q.wf
  | .timingSetLoop q => q.wf
  | .timingSetDco q => q.wf
  | .timingSetTod q => q.wf
  | .timingSetOutputs q => q.wf
  | .timingRealign q => q.wf
  | .timingGetStatus q => q.wf
  | .monRefSettled _ => true
  | .monConverterApply _ => true
  | .monValueComplete _ vref v => decide (0 < vref) && conversions v
  | .monPassEnd _ => true
  | .monTriggerTimer _ => true
  | .monLatchedTriggerStart _ => true
  | .monInjectComplete _ vref v => decide (0 < vref) && conversions v
  | .decimOutput _ => true
  | .decimSettled _ => true
  | .monitorSetConverter q => q.wf
  | .monitorSetSequence q => q.wf
  | .monitorSetDecim q => q.wf
  | .monitorSetAccum q => q.wf
  | .monitorTrigger q => q.wf
  | .monitorInject q => q.wf
  | .monitorReadSlots q => q.wf
  | .monitorReadTrackers q => q.wf
  | .monitorGetStatus q => q.wf
  | .streamDataTx _ => true
  | .streamMessageRx _ m => match m with | .inl x => x.wf | .inr k => k.wf
  | .streamLinkControlTx => true
  | .streamReplayTimeout => true
  | .streamRetrain => true
  | .countersSetUnit q => q.wf
  | .countersRead q => q.wf
  | .countersClear q => q.wf
  | .countersSetTrace q => q.wf
  | .countersSetTags q => q.wf
  | .countersSetStream q => q.wf
  | .countersGetStream q => q.wf
  | .tenonMessageRx _ _ m => m.wf
  | .tenonDataTx _ _ => true
  | .tenonLinkControlTx _ => true
  | .tenonLinkControlRx _ _ k => k.wf
  | .tenonReplayTimeout _ => true
  | .tenonWakeBurst _ => true
  | .tenonAlignmentLoss _ => true
  | .tenonRetrainTimeout _ => true
  | .tenonDownRetry _ => true
  | .tenonHelloRx _ h => h.wf
  | .tenonAuthRx _ a => a.wf
  | .mapSend _ observed => observed.all (fun x => x.serial.length == 16) && decide (observed.length ≤ 32)
  | .mapRx _ map => map.wf
  | .fenceReturn _ => true
  | .fenceTimeout _ => true
  | .managerTakeover => true
  | .collationClose _ => true
  | .distributionTimeout => true
  | .domainSetPort q => q.wf
  | .domainGetPorts q => q.wf
  | .domainGetTopology q => q.wf
  | .domainSetFloor q => q.wf
  | .domainSetManager q => q.wf
  | .domainDistribute q => q.wf
  | .domainGetDist q => q.wf
  | .domainFreePosition q => q.wf
  | .firmwareGetInfo q => q.wf
  | .firmwareStageBegin q => q.wf
  | .firmwareStageWrite q => q.wf
  | .firmwareStageVerify q => q.wf
  | .firmwareActivate q => q.wf
  | .firmwareCommit q => q.wf
  | .firmwareRollback q => q.wf
  | .sessionOpen q => q.wf
  | .sessionAuth q => q.wf
  | .sessionClose q => q.wf
  | .sessionGrantCounters q => q.wf
  | .sessionGetInfo q => q.wf
  | .sessionSetEvents q => q.wf
  | .junctionExceeds105c => true
  | .shaperCreditReachesZero _ => true
  | .entropyHealthRestored => true
  | .tamperInDeasserted => true
  | .zeroizeNDeasserted => true
  | .refPresenceRestored _ => true
  | .braceHeartbeatMissed => true
  | .scribeWordAlignmentGained port => port.wf
  | .watchdogStrobe => true

end Sys2Proof
end

