-- ==== Sys2Proof/Tests/Slice0.lean ====
section
/-! SUPPORT. Tests of the model: what well-formedness refuses, and states and operands that meet the hypotheses of each statement. -/

-- One theorem after another: with a thread for each, the package as one text outgrows the checker's memory limit.
set_option Elab.async false

namespace Sys2Proof.Tests

open Sys2Proof.Machine

/-! Small states and requests. -/

/-- A SUPERVISOR session that expects SEQUENCE 1. -/
def supervisor : Session := { number := 1, role := .supervisor, version := 0x24, idleS := 60 }

/-- Salurn runs, with one SUPERVISOR session. -/
def run : State := {
  pins := { resetN := true, vddIo := true, tamperIn := false }
  sill := { suppliesValid := true, hold := .released, stage := .run }
  control := { ready := true, everRun := true, sessions := [supervisor] } }

/-- The bytes of an `n`-byte field at an offset. -/
def pb (n off v : Nat) : List (Nat × Byte) := (List.range n).map (fun i => (off + i, (be n v).getD i 0))

/-- A request of session 1 for an opcode, its payload `n` bytes, zero but for the bytes given. -/
def rqn (n : Nat) (l : List (Nat × Byte)) (u : BitVec 16 := 0) : Request :=
  { session := 1, seq := 1, unit := u, payload := l.foldl (fun b e => b.set e.1 e.2) (zeros n) }

/-- The same, of the least payload the opcode takes. -/
def rq (code : Nat) (l : List (Nat × Byte)) (u : BitVec 16 := 0) : Request := rqn (4 * (opOf code).lo) l u

/-- The same, of session 0. -/
def rq0 (code : Nat) (l : List (Nat × Byte)) : Request := { rq code l with session := 0 }

/-- A governed domain in a state. -/
def inState (cls idx n : Nat) (s : State) : State := modDom cls idx (fun d => { d with state := n }) s

/-- At second `n`. -/
def atSecond (n : Nat) (s : State) : State := modTiming (fun t => { t with tod := ⟨n, 0⟩ }) s

/-- A native format: 80 GBd, modulation 2, OTUC4. -/
def fmt : Format := ⟨2560, 0, 2, 0, 4, 24, 0, 10⟩

/-- Unit 0 with a format and both paths enabled, its receive in TRACKING, its converters awake. -/
def live : State := inState 1 0 0 (inState 2 0 0 (modCu 0 (fun c => { c with
  fmt := some fmt, fmtTx := some fmt, fmtRx := some fmt, txEn := true, rxEn := true, txCalibrated := true, rxCalibrated := true,
  acq := 7, held := true }) run))

/-- A frame of 64 bytes in cell 0 of stack 0. -/
def frame : StoredFrame := ⟨64, [0], {}, 0⟩

/-- Port 0 has a mapper of one slot, subscriber 0 and queue 0, which holds a frame; its slice and the frame's stack are awake. -/
def port : State := modQueue 0 (fun q => { q with enabled := true, weight := 1, limitKib := 16, frames := [frame] })
  (modSub 0 (fun n => { n with enabled := true, weight := 1 }) (modTrib 0 (fun t => { t with now := { kind := 2, slots := 1 } }) (inState 9 0 0 (inState 4 0 0 run))))

/-- A journal entry that is being applied. -/
def applying : Entry := { id := 1, port := .control, session := 1, seq := 1, opcode := 0x0701, unit := 0, version := 0x24, digest := [], state := .applying }

/-- Tenon port 0 is up as RING_E, and the ring's map shows number 1, its manager here. -/
def up : State := modTenon 0 (fun t => { t with role := 1, state := 3, credit := { peerGrant := [(0, 100), (1, 100), (2, 100)] } })
  (modDomain (fun d => { d with ringMgr := 1, maps := [(0, { east := 2, west := 2 })] }) run)

/-- The stream port is up. -/
def stream : State := modStream (fun t => { t with enabled := true, state := 2, credit := { peerGrant := [(1, 100), (2, 100), (3, 100)] } }) run

/-- A manager of a ring. -/
def manager : State := modDomain (fun d => { d with mgrState := 1 }) { up with sill := { suppliesValid := true, hold := .released, stage := .run, straps := { role := 1 } } }

/-- An event and a broadcast being collated. -/
def event : EventRec := { seq := 1, code := 0x0301, unit := 0, urgent := false, tod := {}, payload := [] }
def collation : Collation := { id := 1, port := .control, origin := 0, request := {} }

/-! What well-formedness refuses: an ill-formed command for each of its checks. -/

theorem test_wf_request : (Instr.timingGetStatus (rq 0x0A07 [])).wf = true := by decide
theorem test_wf_payload_words : (Instr.timingGetStatus (rqn 3 [])).wf = false := by decide
theorem test_wf_payload_long : (Instr.timingGetStatus (rqn 16388 [])).wf = false := by decide +kernel
theorem test_wf_request_port : (Instr.timingGetStatus { port := .tenon 8 }).wf = false := by decide
theorem test_wf_origin : (Instr.timingGetStatus { origin := 16384 }).wf = false := by decide
theorem test_wf_origin_role : (Instr.timingGetStatus { originRole := 4 }).wf = false := by decide
theorem test_wf_malformed_port : (Instr.malformedPacket (.tenon 8) [] 0).wf = false := by decide
theorem test_wf_malformed_count : (Instr.malformedPacket .control [0] 0).wf = false := by decide
theorem test_wf_forward_port : (Instr.packetForward (.tenon 8) {}).wf = false := by decide
theorem test_wf_forward_payload : (Instr.packetForward .control { payload := [0] }).wf = false := by decide
theorem test_wf_session_zero : (Instr.sessionIdleExpiry 0).wf = false := by decide
theorem test_wf_session_large : (Instr.sessionAuthExpiry 65536).wf = false := by decide
theorem test_wf_acf_slips : (Instr.acfFrameRx 0 { training := true, header := 0, slips := 8193 }).wf = false := by decide
theorem test_wf_codeword_time : (Instr.codewordDecoded 0 { group := 0, codeword := 0, stage1 := ⟨0, 1000000000⟩ }).wf = false := by decide
theorem test_wf_codeword_group : (Instr.codewordDecoded 0 { group := 1024, codeword := 0 }).wf = false := by decide
theorem test_wf_codeword_number : (Instr.codewordDecoded 0 { group := 0, codeword := 3 }).wf = false := by decide
theorem test_wf_element_parameter : (Instr.calWindowDone 3 [(11, 0, 0)]).wf = false := by decide
theorem test_wf_element_index : (Instr.calWindowDone 0 [(4, 4, 0)]).wf = false := by decide
theorem test_wf_element_monitor : (Instr.calWindowDone 4 [(0x22, 1, 0)]).wf = false := by decide
theorem test_wf_domain_class : (Instr.domainHoldExpiry 10 0).wf = false := by decide
theorem test_wf_domain_class_zero : (Instr.domainDemand 0 0).wf = false := by decide
theorem test_wf_domain_index : (Instr.domainExitComplete 3 16).wf = false := by decide
theorem test_wf_opucn_payload : (Instr.otucnFrameTx 0 { payload := [[0]] }).wf = false := by decide
theorem test_wf_otucn_slice : (Instr.otucnFrameRx 0 { slices := [[0]] }).wf = false := by decide
theorem test_wf_empty_frame : (Instr.clientFrameRx 0 [] true {} []).wf = false := by decide
theorem test_wf_host_fec : (Instr.clientFrameRx 0 [0] true { codewords := 1, corrected := 2 } []).wf = false := by decide
theorem test_wf_client_odd : (Instr.clientFrameRx 0 [0] true {} [⟨4, 0, .poison⟩]).wf = false := by decide
theorem test_wf_flexe_client : (Instr.flexeCalAck 0 [64]).wf = false := by decide
theorem test_wf_gfp_length : (Instr.gfpFrameRx 0 { chec := 0, idle := false, length := 65536 }).wf = false := by decide
theorem test_wf_gfp_upi : (Instr.gfpFrameRx 0 { chec := 0, idle := false, upi := 256 }).wf = false := by decide
theorem test_wf_selection_odd : (Instr.frameSelection 0 [⟨4, 0, .clean⟩]).wf = false := by decide
theorem test_wf_retrain_odd : (Instr.retrainComplete 0 true [⟨4, 0, .clean⟩]).wf = false := by decide
theorem test_wf_heartbeat_state : (Instr.braceHeartbeatRx ⟨5, false, 0, []⟩).wf = false := by decide
theorem test_wf_heartbeat_version : (Instr.braceHeartbeatRx ⟨0, false, 2 ^ 32, []⟩).wf = false := by decide
theorem test_wf_reference : (Instr.monValueComplete 0 0 [1, 2]).wf = false := by decide
theorem test_wf_conversions : (Instr.monInjectComplete 0 1 [1, 2, 3]).wf = false := by decide
theorem test_wf_message_channel : (Instr.streamMessageRx true (.inl { vc := 4, body := .heartbeat [] })).wf = false := by decide
theorem test_wf_message_hops : (Instr.tenonMessageRx 0 true { vc := 0, hops := 256, body := .heartbeat [] }).wf = false := by decide
theorem test_wf_message_origin : (Instr.tenonMessageRx 0 true { vc := 0, origin := 16384, body := .heartbeat [] }).wf = false := by decide
theorem test_wf_message_packet : (Instr.tenonMessageRx 0 true { vc := 0, body := .packet { payload := [0] } none }).wf = false := by decide
theorem test_wf_message_map : (Instr.tenonMessageRx 0 true { vc := 3, body := .map ⟨3, 0, 0, 0, [], 0, 0, []⟩ }).wf = false := by decide
theorem test_wf_control_freed : (Instr.tenonLinkControlRx 0 true { grants := [0, 0, 0, 0] }).wf = false := by decide
theorem test_wf_control_grants : (Instr.tenonLinkControlRx 0 true { freed := [0, 0, 0, 0], grants := [0] }).wf = false := by decide
theorem test_wf_control_grant : (Instr.streamMessageRx true (.inr { freed := [0, 0, 0, 0], grants := [65536, 0, 0, 0] })).wf = false := by decide
theorem test_wf_map_level : (Instr.mapRx 0 ⟨3, 0, 0, 0, [], 0, 0, []⟩).wf = false := by decide
theorem test_wf_map_manager : (Instr.mapRx 0 ⟨0, 16384, 0, 0, [], 0, 0, []⟩).wf = false := by decide
theorem test_wf_map_reach : (Instr.mapRx 0 ⟨0, 0, 2 ^ 32, 0, [], 0, 0, []⟩).wf = false := by decide
theorem test_wf_map_floor : (Instr.mapRx 0 ⟨0, 0, 0, 0, [], 2 ^ 32, 0, []⟩).wf = false := by decide
theorem test_wf_seen_serial : (Instr.mapSend 0 [⟨[], false, 0, true, true⟩]).wf = false := by decide
theorem test_wf_seen_many : (Instr.mapSend 0 (List.replicate 33 ⟨zeros 16, false, 0, true, true⟩)).wf = false := by decide

/-- A HELLO of a port role, with a nonce and a serial of some lengths. -/
def hello (role n k : Nat) : Hello :=
  ⟨1, 3, role, 0, 0, false, false, 0, 0, 0, 0, zeros n, zeros k⟩

theorem test_wf_hello : (Instr.tenonHelloRx 0 (hello 7 8 16)).wf = true := by decide
theorem test_wf_hello_role : (Instr.tenonHelloRx 0 (hello 8 8 16)).wf = false := by decide
theorem test_wf_hello_nonce : (Instr.tenonHelloRx 0 (hello 7 7 16)).wf = false := by decide
theorem test_wf_hello_serial : (Instr.tenonHelloRx 0 (hello 7 8 15)).wf = false := by decide
theorem test_wf_auth : (Instr.tenonAuthRx 0 ⟨zeros 133, zeros 133, zeros 66, zeros 66, [], zeros 66, zeros 65⟩).wf = false := by decide +kernel
theorem test_wf_auth_key : (Instr.tenonAuthRx 0 ⟨zeros 132, zeros 133, zeros 66, zeros 66, [], zeros 66, zeros 66⟩).wf = false := by decide +kernel
theorem test_wf_scribe_port : (Instr.scribeWordAlignmentGained (.tenon 8)).wf = false := by decide

/-! Figures that the worked examples of spec/ give. -/

/-- R115: the CRC of the ASCII bytes "123456789". -/
theorem test_crc32c : crc32c [0x31, 0x32, 0x33, 0x34, 0x35, 0x36, 0x37, 0x38, 0x39] = 0xE3069283#32 := by decide +kernel

/-- Chapter 03: a tolerance of 40 µs permits P2, one of 20 P1. -/
theorem test_quad_tolerance : deepestFor 40 = 2 ∧ deepestFor 20 = 1 := by decide

/-- Chapter 08: 1.8 Tb/s at 200 GBd, PCS-64QAM. -/
def example18 (e : Nat) : Format := ⟨1600, 0, 5, e, 18, 36, 0, 10⟩
theorem test_group : (example18 530).wg = 832 ∧ (example18 530).blocks = 52 ∧ (example18 530).groups = 619 ∧ (example18 530).pad = 804 := by decide
theorem test_entropy : (example18 529).t = 5565 ∧ (example18 529).fits 18 = false ∧ (example18 530).t = 5580 ∧ (example18 530).fits 18 = true := by
  decide
theorem test_capacity :
    (example18 530).dg = 8140 ∧ (example18 530).segment = 5038660 ∧ (example18 530).maxN = 18 ∧ ((example18 530).capMbps + 5) / 10 = 180192 := by decide +kernel

/-- Chapter 06: one sub-ADC skew, corrected in the first round and left alone in the second. -/
def skew (ins : Int) : State := modElem 2 3 229 (fun e => { e with factory := -14, inservice := ins }) run
theorem test_skew_corrected :
    ((judge 2 3 229 9 11 false (skew 3)).elem 2 3 229).inservice = 13 ∧ ((judge 2 3 229 9 11 false (skew 3)).calOf 2).applied = 1 := by
  decide +kernel
theorem test_skew_disagreement :
    ((judge 2 3 229 1 5 false (skew 13)).elem 2 3 229).inservice = 13 ∧ ((judge 2 3 229 1 5 false (skew 13)).calOf 2).rejDisagree = 1 := by
  decide +kernel

/-- Chapter 11: a queue in debt when its rate is cut. A tick is 8 ns. -/
def inDebt : Tokens := ((⟨1000000, 20000, 20000 * 1000000, 0⟩ : Tokens).spend 0 16000).spend 1250 16000
def cut : Tokens := (inDebt.change 2500 500000 18000).1
theorem test_debt : inDebt.credit = -10750000000 ∧ inDebt.change 2500 500000 18000 = (cut, 0) ∧ cut.credit = -9500000000 := by decide
theorem test_debt_paid : cut.ready 3750 = false ∧ cut.ready 21499 = false ∧ cut.ready 21500 = true := by decide
theorem test_credit_clipped :
    (⟨1000000, 20000, 20000 * 1000000, 0⟩ : Tokens).change 5 500000 18000 = (⟨500000, 18000, 18000 * 1000000, 5⟩, 2000000000) := by decide

/-- Chapter 16: outputs of a photodiode's channel withheld, in input values. -/
theorem test_settling : (⟨true, false, 4, 1, 6, true, 26214400, some 10, some 3⟩ : DecimConfig).window = 1024 := by decide

/-- Chapter 20: EV_CARRIER_UNLOCKED of device 0x0469, 44 bytes, with its header. -/
def unlocked : List Byte :=
  packetBytes (eventPacket (modDomain (fun d => { d with address := some 0x0469 }) run) ⟨7, 0x0302, 1, true, {}, [1, 0, 0, 0], false, none, 0x24⟩)
theorem test_event_length : unlocked.length = 44 := by decide +kernel
theorem test_event_header :
    unlocked.take 24 = [0xA6, 0x24, 0x00, 0x14, 0x03, 0x02, 0x44, 0x69, 0x00, 0x01, 0x00, 0x00, 0x00, 0x00, 0x00, 0x07, 0x00, 0x04, 0x00, 0x00,
      0x00, 0x00, 0x00, 0x00] := by decide +kernel
theorem test_event_cause : (unlocked.drop 24).take 16 = zeros 12 ++ [1, 0, 0, 0] := by decide +kernel

/-! IdleStepLeavesTheQueue -/

theorem test_witness_idleStepLeavesTheQueue_1 :
    ∃ s : State, (s.pending = []) :=
  ⟨run, by decide⟩

/-! FusesAndFlashLast -/

theorem test_witness_fusesAndFlashLast_1 :
    ∃ s : State, ∃ t : State, (step s = .next t) :=
  ⟨{ run with pending := [.tamperInDeasserted] }, _, (by rfl)⟩

/-! RequestChecksAnswerInOrder -/

theorem test_witness_requestChecksAnswerInOrder_1 :
    ∃ code : Nat, ∃ q : Request, ∃ s : State, (takenNow code q s = true) ∧ ((opOf code).code = code) ∧ (4096 < (q.payload.length / 4)
      ∨ q.payload.length % 4 ≠ 0) :=
  ⟨0x0101, rqn 2 [], run, by decide⟩

theorem test_witness_requestChecksAnswerInOrder_2 :
    ∃ code : Nat, ∃ q : Request, ∃ s : State, (takenNow code q s = true) ∧ ((opOf code).code = code) ∧ ((q.payload.length / 4) ≤ 4096
      ∧ q.payload.length % 4 = 0) ∧ (¬(q.version.toNat / 16 = 2 ∧ q.version.toNat % 16 ≤ 4)) :=
  ⟨0x0101, { rq 0x0101 [] with version := 0x25 }, run, by decide⟩

theorem test_witness_requestChecksAnswerInOrder_3 :
    ∃ code : Nat, ∃ q : Request, ∃ s : State, (takenNow code q s = true) ∧ ((opOf code).code = code) ∧ ((q.payload.length / 4) ≤ 4096
      ∧ q.payload.length % 4 = 0) ∧ ((q.version.toNat / 16 = 2 ∧ q.version.toNat % 16 ≤ 4)) ∧ (flagsValid q.flags = false ∨
      targetValid q.flags q.target = false ∨ broadcastBarred (opOf code) q.flags = true) :=
  ⟨0x0101, { rq 0x0101 [] with flags := 2 }, run, by decide⟩

theorem test_witness_requestChecksAnswerInOrder_4 :
    ∃ code : Nat, ∃ q : Request, ∃ s : State, (takenNow code q s = true) ∧ ((opOf code).code = code) ∧ ((q.payload.length / 4) ≤ 4096
      ∧ q.payload.length % 4 = 0) ∧ ((q.version.toNat / 16 = 2 ∧ q.version.toNat % 16 ≤ 4)) ∧ ((q.flags = 1 ∧ q.target = 0)) ∧
      (q.version.toNat < (opOf code).since) :=
  ⟨0x0D05, { rq 0x0D05 [] with version := 0x20 }, run, by decide⟩

theorem test_witness_requestChecksAnswerInOrder_5 :
    ∃ code : Nat, ∃ q : Request, ∃ s : State, (takenNow code q s = true) ∧ ((opOf code).code = code) ∧ ((q.payload.length / 4) ≤ 4096
      ∧ q.payload.length % 4 = 0) ∧ ((q.version.toNat / 16 = 2 ∧ q.version.toNat % 16 ≤ 4)) ∧ ((q.flags = 1 ∧ q.target = 0)) ∧
      ((opOf code).since ≤ q.version.toNat) ∧ (¬((opOf code).lo ≤ (q.payload.length / 4) ∧ (q.payload.length / 4) ≤ (opOf code).hi)) :=
  ⟨0x0101, rqn 4 [], run, by decide⟩

theorem test_witness_requestChecksAnswerInOrder_6 :
    ∃ code : Nat, ∃ q : Request, ∃ s : State, (takenNow code q s = true) ∧ ((opOf code).code = code) ∧ ((q.payload.length / 4) ≤ 4096
      ∧ q.payload.length % 4 = 0) ∧ ((q.version.toNat / 16 = 2 ∧ q.version.toNat % 16 ≤ 4)) ∧ ((q.flags = 1 ∧ q.target = 0)) ∧
      ((opOf code).since ≤ q.version.toNat) ∧ (((opOf code).lo ≤ (q.payload.length / 4) ∧ (q.payload.length / 4) ≤ (opOf code).hi)) ∧
      (q.session = 0) ∧ (sessionless (arrived code q s) code = false) :=
  ⟨0x0102, { rq 0x0102 [] with session := 0 }, run, by decide⟩

theorem test_witness_requestChecksAnswerInOrder_7 :
    ∃ code : Nat, ∃ q : Request, ∃ s : State, (takenNow code q s = true) ∧ ((opOf code).code = code) ∧ ((q.payload.length / 4) ≤ 4096
      ∧ q.payload.length % 4 = 0) ∧ ((q.version.toNat / 16 = 2 ∧ q.version.toNat % 16 ≤ 4)) ∧ ((q.flags = 1 ∧ q.target = 0)) ∧
      ((opOf code).since ≤ q.version.toNat) ∧ (((opOf code).lo ≤ (q.payload.length / 4) ∧ (q.payload.length / 4) ≤ (opOf code).hi)) ∧
      (q.session ≠ 0) ∧ (code ≠ 0x1101) ∧ (code ≠ 0x1102) ∧ ((arrived code q s).session q.session.toNat = none) :=
  ⟨0x0101, { rq 0x0101 [] with session := 2 }, run, by decide⟩

theorem test_witness_requestChecksAnswerInOrder_8 :
    ∃ code : Nat, ∃ q : Request, ∃ s : State, ((takenNow code q s = true) ∧ ((opOf code).code = code) ∧
      ((q.payload.length / 4) ≤ 4096 ∧ q.payload.length % 4 = 0) ∧ ((q.version.toNat / 16 = 2 ∧ q.version.toNat % 16 ≤ 4)) ∧
      ((q.flags = 1 ∧ q.target = 0)) ∧ ((opOf code).since ≤ q.version.toNat) ∧
      (((opOf code).lo ≤ (q.payload.length / 4) ∧ (q.payload.length / 4) ≤ (opOf code).hi)) ∧ (q.session ≠ 0) ∧ (code ≠ 0x1101) ∧
      (code ≠ 0x1102)) ∧ ∃ x, ((arrived code q s).session q.session.toNat = some x) ∧
      ((x.awaiting.isSome = true ∨ x.version ≠ q.version ∨ x.closing.any (fun c => c.2 == 0) = true)) :=
  ⟨0x0101, rq 0x0101 [], modControl (fun c => { c with sessions := [{ supervisor with awaiting := some [] }] }) run, by decide,
    { supervisor with awaiting := some [] }, by decide⟩

theorem test_witness_requestChecksAnswerInOrder_9 :
    ∃ code : Nat, ∃ q : Request, ∃ s : State, ((takenNow code q s = true) ∧ ((opOf code).code = code) ∧
      ((q.payload.length / 4) ≤ 4096 ∧ q.payload.length % 4 = 0) ∧ ((q.version.toNat / 16 = 2 ∧ q.version.toNat % 16 ≤ 4)) ∧
      ((q.flags = 1 ∧ q.target = 0)) ∧ ((opOf code).since ≤ q.version.toNat) ∧
      (((opOf code).lo ≤ (q.payload.length / 4) ∧ (q.payload.length / 4) ≤ (opOf code).hi)) ∧ (q.session ≠ 0) ∧ (code ≠ 0x1101) ∧
      (code ≠ 0x1102)) ∧ ∃ x, ((arrived code q s).session q.session.toNat = some x) ∧
      (¬(x.awaiting.isSome = true ∨ x.version ≠ q.version ∨ x.closing.any (fun c => c.2 == 0) = true)) ∧ (q.seq ≠ x.nextSeq) ∧
      (x.replies.find? (fun r => r.seq == q.seq) = none) :=
  ⟨0x0101, { rq 0x0101 [] with seq := 5 }, run, by decide, supervisor, by decide⟩

theorem test_witness_requestChecksAnswerInOrder_10 :
    ∃ code : Nat, ∃ q : Request, ∃ s : State, ((takenNow code q s = true) ∧ ((opOf code).code = code) ∧
      ((q.payload.length / 4) ≤ 4096 ∧ q.payload.length % 4 = 0) ∧ ((q.version.toNat / 16 = 2 ∧ q.version.toNat % 16 ≤ 4)) ∧
      ((q.flags = 1 ∧ q.target = 0)) ∧ ((opOf code).since ≤ q.version.toNat) ∧
      (((opOf code).lo ≤ (q.payload.length / 4) ∧ (q.payload.length / 4) ≤ (opOf code).hi)) ∧ (q.session ≠ 0) ∧ (code ≠ 0x1101) ∧
      (code ≠ 0x1102)) ∧ ∃ x, (((arrived code q s).session q.session.toNat = some x) ∧
      (¬(x.awaiting.isSome = true ∨ x.version ≠ q.version ∨ x.closing.any (fun c => c.2 == 0) = true))) ∧ ∃ r, (q.seq ≠ x.nextSeq) ∧
      (x.replies.find? (fun r => r.seq == q.seq) = some r) :=
  ⟨0x0101, rq 0x0101 [], modControl (fun c => { c with sessions := [{ supervisor with nextSeq := 2, replies := [{ seq := 1 }] }] })
    run, by decide, { supervisor with nextSeq := 2, replies := [{ seq := 1 }] }, by decide, { seq := 1 }, by decide⟩

theorem test_witness_requestChecksAnswerInOrder_11 :
    ∃ code : Nat, ∃ q : Request, ∃ s : State, ((takenNow code q s = true) ∧ ((opOf code).code = code) ∧
      ((q.payload.length / 4) ≤ 4096 ∧ q.payload.length % 4 = 0) ∧ ((q.version.toNat / 16 = 2 ∧ q.version.toNat % 16 ≤ 4)) ∧
      ((q.flags = 1 ∧ q.target = 0)) ∧ ((opOf code).since ≤ q.version.toNat) ∧
      (((opOf code).lo ≤ (q.payload.length / 4) ∧ (q.payload.length / 4) ≤ (opOf code).hi)) ∧ (q.session ≠ 0) ∧ (code ≠ 0x1101) ∧
      (code ≠ 0x1102)) ∧ ∃ x, ((arrived code q s).session q.session.toNat = some x) ∧
      (¬(x.awaiting.isSome = true ∨ x.version ≠ q.version ∨ x.closing.any (fun c => c.2 == 0) = true)) ∧ (q.seq = x.nextSeq) ∧
      (neededRole (opOf code) q x.grants s < x.role.code) :=
  ⟨0x0102, rq 0x0102 [], modControl (fun c => { c with sessions := [{ supervisor with role := .observer }] }) run, by decide,
    { supervisor with role := .observer }, by decide⟩

/-! AnsweredRequestsLeaveTheirMark -/

theorem test_witness_answeredRequestsLeaveTheirMark_1 :
    ∃ code : Nat, ∃ q : Request, ∃ x : Session, ∃ s : State, (q.port = .control) ∧ ((arrived code q s).session q.session.toNat = some
      x) :=
  ⟨0x0101, rq 0x0101 [], supervisor, run, by decide⟩

theorem test_witness_answeredRequestsLeaveTheirMark_2 :
    ∃ code : Nat, ∃ q : Request, ∃ x : Session, ∃ pl : List Byte, ∃ s : State, (q.port = .control) ∧ (s.session q.session.toNat = some
      x) ∧ (s.control.held = []) ∧ (s.control.room (replyPacket s (replyVersion q) code q.unit q.session q.seq .ok pl) = true) :=
  ⟨0x0101, rq 0x0101 [], supervisor, [], run, by decide⟩

theorem test_witness_answeredRequestsLeaveTheirMark_3 :
    ∃ code : Nat, ∃ q : Request, ∃ x : Session, ∃ st : Status, ∃ pl : List Byte, ∃ s : State, (q.port = .control) ∧ (s.session
      q.session.toNat = some x) ∧ (s.control.held = []) ∧ (s.control.room
      (replyPacket s (replyVersion q) code q.unit q.session q.seq st pl) = true) :=
  ⟨0x0101, rq 0x0101 [], supervisor, .ok, [], run, by decide⟩

/-! PortTransactionsComplete -/

theorem test_witness_portTransactionsComplete_1 :
    ∃ bytes : List Byte, ∃ s : State, (s.portLives = true) ∧ (s.rxHeld < 4) ∧
      (((({ port := .control, bytes := bytes.take 16412, count := bytes.length } : RxItem)).sound && s.repeats (opOf (parsePacket (({ port := .control, bytes := bytes.take 16412, count := bytes.length } : RxItem)).bytes).opcode.toNat) (({ port := .control, bytes := bytes.take 16412, count := bytes.length } : RxItem)).request)
      = false) :=
  ⟨[0xA6], run, by decide⟩

theorem test_witness_portTransactionsComplete_2 :
    ∃ bytes : List Byte, ∃ s : State, (s.portLives = true) ∧ (s.rxHeld < 4) ∧
      (((({ port := .control, bytes := bytes.take 16412, count := bytes.length } : RxItem)).sound && s.repeats (opOf (parsePacket (({ port := .control, bytes := bytes.take 16412, count := bytes.length } : RxItem)).bytes).opcode.toNat) (({ port := .control, bytes := bytes.take 16412, count := bytes.length } : RxItem)).request)
      = true) :=
  ⟨packetBytes (requestPacket 0x0101 (rq 0x0101 [])), modControl
    (fun c => { c with rx := [{ port := .control, bytes := packetBytes (requestPacket 0x0101 (rq 0x0101 [])), count := 28 }] }) run,
    (by decide +kernel)⟩

theorem test_witness_portTransactionsComplete_3 :
    ∃ s : State, (s.portLives = true) ∧ (4 ≤ s.rxHeld) :=
  ⟨modControl (fun c => { c with rx := List.replicate 4 { port := .control, bytes := [], count := 0 } }) run, by decide⟩

theorem test_witness_portTransactionsComplete_4 :
    ∃ s : State, (s.portLives = true) ∧ (s.control.outgoing = []) :=
  ⟨run, by decide⟩

theorem test_witness_portTransactionsComplete_5 :
    ∃ n : Nat, ∃ s : State, (s.portLives = true) ∧ ∃ o, ∃ rest, (s.control.outgoing = o :: rest) ∧ ((packetBytes o.packet).length ≤ n)
      ∧ (s.control.held = []) :=
  ⟨28, modControl (fun c => { c with outgoing := [{ packet := {}, isReply := true, entry := some 3 }] }) run, by decide,
    { packet := {}, isReply := true, entry := some 3 }, [], by decide⟩

theorem test_witness_portTransactionsComplete_6 :
    ∃ n : Nat, ∃ s : State, (s.portLives = true) ∧ ∃ o, ∃ rest, (s.control.outgoing = o :: rest) ∧ (n < (packetBytes o.packet).length) :=
  ⟨27, modControl (fun c => { c with outgoing := [{ packet := {}, isReply := true, entry := some 3 }] }) run, by decide,
    { packet := {}, isReply := true, entry := some 3 }, [], by decide⟩

theorem test_witness_portTransactionsComplete_7 :
    ∃ b : Byte, ∃ s : State, (s.portLives = true) ∧ (b ≠ 0x0B) ∧ (b ≠ 0x02) ∧ (b ≠ 0x5A) ∧ (b ≠ 0xA5) :=
  ⟨0x00, run, by decide⟩

theorem test_witness_portTransactionsComplete_8 :
    ∃ bytes : List Byte, ∃ s : State, (s.portLives = true) ∧ (s.intakeOpen = true) ∧ (s.recorded = none) ∧ (s.nextIndex = none) ∧
      (s.rxHeld < 4) ∧ (bytes.headD 0 ≠ 0xA6) :=
  ⟨[0xA5], run, by decide⟩

theorem test_witness_portTransactionsComplete_9 :
    ∃ bytes : List Byte, ∃ count : Nat, ∃ s : State, (s.portLives = true) ∧ (s.intakeOpen = true) ∧ (s.recorded = none) ∧ (s.nextIndex
      = none) ∧ (s.rxHeld < 4) ∧ (bytes.headD 0 = 0xA6) ∧ (4096 < u16 bytes 16 ∨ count ≠ 28 + 4 * u16 bytes 16) :=
  ⟨[0xA6], 1, run, by decide⟩

theorem test_witness_portTransactionsComplete_10 :
    ∃ bytes : List Byte, ∃ count : Nat, ∃ s : State, (s.portLives = true) ∧ (s.intakeOpen = true) ∧ (s.recorded = none) ∧ (s.nextIndex
      = none) ∧ (s.rxHeld < 4) ∧ (bytes.headD 0 = 0xA6) ∧ (u16 bytes 16 ≤ 4096) ∧ (count = 28 + 4 * u16 bytes 16) ∧
      ((crc32c (bytes.take (count - 4))).toNat ≠ u32 bytes (count - 4)) :=
  ⟨0xA6 :: zeros 27, 28, run, (by decide +kernel)⟩

theorem test_witness_portTransactionsComplete_11 :
    ∃ p : Packet, ∃ s : State, (s.portLives = true) ∧ (forwards .control p s = true) ∧ (s.namesNext .control (packetBytes p) = none) ∧
      (s.rxHeld < 4) ∧ (s.goesFirst (packetRequest .control 0 0 p) = true) :=
  ⟨{ flags := 1, opcode := 0x0101, target := 0x4005, session := 1, seq := 1 }, run, (by decide +kernel)⟩

theorem test_witness_portTransactionsComplete_12 :
    ∃ p : Packet, ∃ s : State, ((s.portLives = true) ∧ (forwards .control p s = true)) ∧ ∃ i, ∃ r, (s.namesNext .control
      (packetBytes p) = some (i, r)) :=
  ⟨{ flags := 1, opcode := 0x0101, target := 0x4005, session := 1, seq := 1 }, modControl
    (fun c => { c with rx := [{ port := .control, bytes := packetBytes { flags := 1, opcode := 0x0101, target := 0x4005, session := 1, seq := 1 }, count := 28 }] })
    run, (by decide +kernel), 0,
    { port := .control, bytes := packetBytes { flags := 1, opcode := 0x0101, target := 0x4005, session := 1, seq := 1 }, count := 28 },
    (by decide +kernel)⟩

theorem test_witness_portTransactionsComplete_13 :
    ∃ e : EventRec, ∃ rest : List EventRec, ∃ s : State, (s.hubUp = true) ∧ (s.control.held = []) ∧ (s.control.room (eventPacket s e)
      = true) ∧ (s.control.routeCp.queue = e :: rest) ∧ (s.control.routeCp.lost = 0) ∧ (s.pins.extest = false) :=
  ⟨{ seq := 0, code := 0x0201, unit := 0, urgent := false, tod := {}, payload := [] }, [], modRoute 0
    (fun r => { r with queue := [{ seq := 0, code := 0x0201, unit := 0, urgent := false, tod := {}, payload := [] }] }) run, by
    decide⟩

theorem test_witness_portTransactionsComplete_14 :
    ∃ k : Fin 3, ∃ s : State, ((s.route k).lost ≠ 0) ∧ ((s.route k).queue.length < 1024) :=
  ⟨0, modRoute 0 (fun r => { r with lost := 1 }) run, by decide⟩

/-! ResetsOfTheHub -/

theorem test_witness_resetsOfTheHub_1 :
    ∃ x : Supply, ∃ s : State, (s.sill.on = true) ∧ (s.takesReset = true) ∧ (x ≠ .sill) :=
  ⟨.core, run, by decide⟩

theorem test_witness_resetsOfTheHub_2 :
    ∃ x : Supply, ∃ s : State, (s.sill.on = true) ∧ (s.takesReset = false) ∧ (x ≠ .sill) :=
  ⟨.core, modSill (fun x => { x with hold := .strapFault }) run, by decide⟩

theorem test_witness_resetsOfTheHub_3 :
    ∃ s : State, (s.sill.on = true) ∧ (s.takesReset = true) :=
  ⟨run, by decide⟩

theorem test_witness_resetsOfTheHub_4 :
    ∃ s : State, (s.sill.on = true) ∧ (s.takesReset = true) :=
  ⟨run, by decide⟩

theorem test_witness_resetsOfTheHub_5 :
    ∃ s : State, (s.sill.on = true) ∧ (s.sill.hold = .supplyHold) :=
  ⟨modSill (fun x => { x with hold := .supplyHold }) run, by decide⟩

theorem test_witness_resetsOfTheHub_6 :
    ∃ s : State, (s.sill.on = true) ∧ (s.sill.hold = .waiting ∨ s.sill.hold = .seqFault) :=
  ⟨modSill (fun x => { x with hold := .waiting }) run, by decide⟩

theorem test_witness_resetsOfTheHub_7 :
    ∃ s : State, (s.sill.on = true) ∧ (s.sill.hold = .strapFault) :=
  ⟨modSill (fun x => { x with hold := .strapFault }) run, by decide⟩

theorem test_witness_resetsOfTheHub_8 :
    ∃ s : State, (s.sill.on = true) ∧ (s.sill.hold = .waiting) ∧ (s.pins.resetN = true) :=
  ⟨modSill (fun x => { x with hold := .waiting }) run, by decide⟩

theorem test_witness_resetsOfTheHub_9 :
    ∃ s : State, (s.sill.on = true) ∧ (s.sill.hold ≠ .waiting) :=
  ⟨run, by decide⟩

theorem test_witness_resetsOfTheHub_10 :
    ∃ s : State, (s.sill.on = true) ∧ (s.pins.vddIo = true) ∧ (s.takesReset = true) :=
  ⟨run, by decide⟩

theorem test_witness_resetsOfTheHub_11 :
    ∃ s : State, ((s.sill.on = true) ∧ (s.pins.vddIo = true) ∧ (s.sill.suppliesValid = true)) ∧ (s.sill.hold = .waiting ∨ s.sill.hold
      = .seqFault) :=
  ⟨modSill (fun x => { x with hold := .seqFault }) run, by decide, (.inr rfl)⟩

theorem test_witness_resetsOfTheHub_12 :
    ∃ w : Word32, ∃ s : State, (s.portLives = true) ∧ (resetSill w = true) :=
  ⟨0xA5C30001, run, by decide⟩

theorem test_witness_resetsOfTheHub_13 :
    ∃ w : Word32, ∃ s : State, (s.portLives = true) ∧ (resetHub w = true) ∧ (s.takesReset = true) ∧ (s.mayRelease = true) :=
  ⟨0xA5C30002, run, by decide⟩

theorem test_witness_resetsOfTheHub_14 :
    ∃ u : Nat, ∃ e : Nat, ∃ rest : List PendingReset, ∃ s : State, (s.control.resets = ⟨1, u, e⟩ :: rest) ∧ (s.takesReset = true) ∧
      (s.mayRelease = true) :=
  ⟨0, 7, [], modControl (fun c => { c with resets := [⟨1, 0, 7⟩] }) run, by decide⟩

/-! BootReachesRun -/

theorem test_witness_bootReachesRun_1 :
    ∃ x : Straps, ∃ n : Nat, ∃ s : State, (s.pins.vddIo = true) ∧ (s.sill.hold = .sampling n) ∧ (n < 1024) ∧ (x.role = 3) :=
  ⟨{ role := 3 }, 1023, modSill (fun x => { x with hold := .sampling 1023 }) run, by decide⟩

theorem test_witness_bootReachesRun_2 :
    ∃ x : Straps, ∃ n : Nat, ∃ s : State, (s.pins.vddIo = true) ∧ (s.sill.hold = .sampling n) ∧ (n < 1024) ∧ (x.bootSrc = false) ∧
      (s.directory = none) :=
  ⟨{ role := 3 }, 1023, modSill (fun x => { x with hold := .sampling 1023 }) run, by decide⟩

theorem test_witness_bootReachesRun_3 :
    ∃ r : Vector Straps 16, ∃ n : Nat, ∃ s : State, ((s.pins.vddIo = true) ∧ (s.sill.hold = .sampling n) ∧ (n < 1024)) ∧ (∃ i j : Fin
      16, r[i] ≠ r[j]) :=
  ⟨Vector.ofFn (fun i => { tie := i.val == 15 }), 0, modSill (fun x => { x with hold := .sampling 0 }) run, by decide,
    (⟨0, 15, by decide⟩)⟩

theorem test_witness_bootReachesRun_4 :
    ∃ s : State, (s.sill.hold = .sampling 1024) :=
  ⟨modSill (fun x => { x with hold := .sampling 1024 }) run, by decide⟩

/-- The hypothesis left out rests on a value that nothing can evaluate (log entries 3 and 4). -/
theorem test_witness_bootReachesRun_5 :
    ∃ s : State, ((s.hubUp = true) ∧ (s.sill.straps.bootSrc = false)) ∧ (s.sill.stage = .rom ∨ s.sill.stage = .verify) :=
  ⟨modSill (fun x => { x with stage := .rom }) run, by decide, (.inl rfl)⟩

theorem test_witness_bootReachesRun_6 :
    ∃ s : State, ((s.hubUp = true) ∧ (s.sill.straps.bootSrc = false)) ∧ (s.sill.stage = .rom ∨ s.sill.stage = .verify) ∧ ∃ c,
      (checkBank s s.fw.tryBank = some c) ∧ (authCode c = false) ∧ (s.fw.triedOther = false) :=
  ⟨modSill (fun x => { x with stage := .rom }) run, by decide, (.inl rfl), 2, by decide⟩

theorem test_witness_bootReachesRun_7 :
    ∃ s : State, ((s.hubUp = true) ∧ (s.sill.straps.bootSrc = false)) ∧ (s.sill.stage = .rom ∨ s.sill.stage = .verify) ∧ ∃ c,
      (checkBank s s.fw.tryBank = some c) ∧ (authCode c = false) ∧ (s.fw.triedOther = true) :=
  ⟨modFw (fun f => { f with triedOther := true }) (modSill (fun x => { x with stage := .verify }) run), by decide, (.inr rfl), 2, by
    decide⟩

theorem test_witness_bootReachesRun_8 :
    ∃ s : State, (s.hubUp = true) ∧ (s.sill.stage = .init) ∧ (s.fw.rolledBack = []) :=
  ⟨modSill (fun x => { x with stage := .init }) run, by decide⟩

theorem test_witness_bootReachesRun_9 :
    ∃ s : State, (s.hubUp = true) ∧ (s.sill.stage = .init) ∧ (s.fw.fromMemory = true) :=
  ⟨modFw (fun f => { f with fromMemory := true }) (modSill (fun x => { x with stage := .init }) run), by decide⟩

theorem test_witness_bootReachesRun_10 :
    ∃ s : State, (s.hubUp = true) ∧ (s.sill.stage = .init) ∧ (s.fw.fromMemory = false) ∧ (s.fw.triedOther = false) :=
  ⟨modSill (fun x => { x with stage := .init }) run, by decide⟩

theorem test_witness_bootReachesRun_11 :
    ∃ s : State, (s.hubUp = true) ∧ (s.sill.stage = .init) ∧ (s.fw.fromMemory = false) ∧ (s.fw.triedOther = true) :=
  ⟨modFw (fun f => { f with triedOther := true }) (modSill (fun x => { x with stage := .init }) run), by decide⟩

/-! RestartsOfTheManagementProcessor -/

theorem test_witness_restartsOfTheManagementProcessor_1 :
    ∃ c : Nat, ∃ i : Instr, ∃ s : State, ((c, i) ∈ [(1, Instr.watchdogExpiry), (2, Instr.lockstepMismatch)]) ∧ (s.hubUp = true) ∧
      (s.sill.stage = .run) ∧ (s.fw.trial = false) ∧ (s.fw.activating = false) ∧
      ((s.control.restarts.filter (fun t => decide (s.localNs < t + 60 * billion))).length < 2) :=
  ⟨1, .watchdogExpiry, run, (by simp), by decide⟩

theorem test_witness_restartsOfTheManagementProcessor_2 :
    ∃ c : Nat, ∃ i : Instr, ∃ s : State, ((c, i) ∈ [(1, Instr.watchdogExpiry), (2, Instr.lockstepMismatch)]) ∧ (s.hubUp = true) ∧
      (s.sill.stage = .run) ∧ (s.fw.trial = false) ∧ (s.fw.activating = false) ∧ (2 ≤
      (s.control.restarts.filter (fun t => decide (s.localNs < t + 60 * billion))).length) ∧ (s.protect.mirror.releaseMask.testBit 0 =
      false) :=
  ⟨2, .lockstepMismatch, modControl (fun c => { c with restarts := [0, 0] }) run, (by simp), by decide⟩

theorem test_witness_restartsOfTheManagementProcessor_3 :
    ∃ w : Word32, ∃ s : State, (s.portLives = true) ∧ (resetMp w = true) ∧ (s.hubUp = true) ∧ (s.sill.stage = .run) ∧
      ((s.control.restarts.filter (fun t => decide (s.localNs < t + 60 * billion))).length < 2) :=
  ⟨0xA5C30004, run, by decide⟩

theorem test_witness_restartsOfTheManagementProcessor_4 :
    ∃ c : Nat, ∃ s : State, (s.control.mp = .restarting c) ∧ (s.hubUp = true) ∧ (s.sill.stage = .run) ∧ (s.control.journal = []) ∧
      (s.fw.activating = false) ∧ (s.fw.activateDue = false) ∧ (s.fw.rollbackDue = false) ∧ (s.fw.rolledBack = []) :=
  ⟨1, modControl (fun c => { c with mp := .restarting 1 }) run, by decide⟩

theorem test_witness_restartsOfTheManagementProcessor_5 :
    ∃ c : Nat, ∃ s : State, (s.control.mp = .restarting c) ∧ (s.fw.activating = true) ∧ (s.hubUp = true) ∧ (s.sill.stage = .run) ∧
      ((s.control.restarts.filter (fun t => decide (s.localNs < t + 60 * billion))).length < 2) :=
  ⟨1, modFw (fun f => { f with activating := true }) (modControl (fun c => { c with mp := .restarting 1 }) run), by decide⟩

theorem test_witness_restartsOfTheManagementProcessor_6 :
    ∃ s : State, (s.hubUp = true) :=
  ⟨run, by decide⟩

/-! RegistersDebugAndPins -/

theorem test_witness_registersDebugAndPins_1 :
    ∃ a : Byte, ∃ data : List Byte, ∃ s : State, (s.portLives = true) ∧ (data.length ≠ 4 ∨ a.toNat % 4 ≠ 0) :=
  ⟨0x01, [0, 0, 0, 0], run, by decide⟩

theorem test_witness_registersDebugAndPins_2 :
    ∃ data : List Byte, ∃ s : State, (s.portLives = true) ∧ (data.length = 4) :=
  ⟨[0, 0, 0, 0], run, by decide⟩

theorem test_witness_registersDebugAndPins_3 :
    ∃ w : Word32, ∃ u : Nat, ∃ s : State, (s.portLives = true) ∧ (s.salurnRuns = true) ∧ (resetCus w = [u]) :=
  ⟨0xA5C30010, 0, run, by decide⟩

theorem test_witness_registersDebugAndPins_4 :
    ∃ s : State, (s.sill.debugLevel ≠ 0) ∧ (s.fw.debugExpiry ≤ s.timing.tod.sec) :=
  ⟨modSill (fun x => { x with debugLevel := 3 }) run, by decide⟩

theorem test_witness_registersDebugAndPins_5 :
    ∃ j : Jtag, ∃ s : State, (s.sill.on = true) ∧ (s.sill.debugLevel < j.level) :=
  ⟨.dieTest, run, by decide⟩

theorem test_witness_registersDebugAndPins_6 :
    ∃ j : Jtag, ∃ s : State, (s.sill.on = true) ∧ (j.level ≤ s.sill.debugLevel) ∧ (j.isExtest = false) :=
  ⟨.bypass, run, by decide⟩

theorem test_witness_registersDebugAndPins_7 :
    ∃ j : Jtag, ∃ s : State, (s.sill.on = true) ∧ (j.isExtest = true) ∧ (s.protect.mirror.state ≠ 2) ∧ (s.protect.mirror.state ≠ 3) :=
  ⟨.extest, run, by decide⟩

theorem test_witness_registersDebugAndPins_8 :
    ∃ s : State, (s.sill.on = true) :=
  ⟨run, by decide⟩

theorem test_witness_registersDebugAndPins_9 :
    ∃ e : Nat, ∃ s : State, (s.fw.pendingEpoch = some e) ∧ (e ≤ s.timing.tod.sec) ∧ (s.salurnRuns = true) ∧ (s.hubUp = true) ∧ (∀ x ∈
      s.control.journal, x.state = .done) ∧ (s.fw.rollbackDue = false) ∧
      ((s.control.restarts.filter (fun t => decide (s.localNs < t + 60 * billion))).length < 2) :=
  ⟨0, modFw (fun f => { f with pendingEpoch := some 0 }) run, by decide⟩

/-! SessionCommandsComplete -/

theorem test_witness_sessionCommandsComplete_1 :
    ∃ q : Request, ∃ s : State, (takenWithoutSession 0x1101 q s = true) ∧ (1 ≤ q.b 0) ∧ (q.b 0 ≤ 3) ∧ (q.b 1 ≤ 7) ∧ (q.b 0 = 3 → q.b 1
      = 0) ∧ (q.h 2 = 0 ∨ 10 ≤ q.h 2) ∧ (s.control.sessions.length < 16) :=
  ⟨rq0 0x1101 [(0, 1), (1, 7), (3, 10)], run, by decide⟩

/-- The hypothesis left out rests on a value that nothing can evaluate (log entries 3 and 4). -/
theorem test_witness_sessionCommandsComplete_2 :
    ∃ q : Request, ∃ x : Session, ∃ nonce : List Byte, ∃ s : State, (takenWithoutSession 0x1102 q s = true) ∧ (1 ≤ q.h 0) ∧ (q.h 2 =
      0) ∧ ((received 0x1102 q s).session (q.h 0) = some x) ∧ (x.awaiting = some nonce) :=
  ⟨rq0 0x1102 [(1, 1)], { supervisor with awaiting := some [] }, [], modControl
    (fun c => { c with sessions := [{ supervisor with awaiting := some [] }] }) run, (by decide +kernel)⟩

theorem test_witness_sessionCommandsComplete_3 :
    ∃ q : Request, ∃ x : Session, ∃ nonce : List Byte, ∃ s : State, (takenWithoutSession 0x1102 q s = true) ∧ (1 ≤ q.h 0) ∧ (q.h 2 =
      0) ∧ ((received 0x1102 q s).session (q.h 0) = some x) ∧ (x.awaiting = some nonce) ∧ (authHolds q x nonce s = false) :=
  ⟨rq0 0x1102 [(1, 1)], { supervisor with awaiting := some [] }, [], modControl
    (fun c => { c with sessions := [{ supervisor with awaiting := some [] }] }) run, (by decide +kernel)⟩

theorem test_witness_sessionCommandsComplete_4 :
    ∃ q : Request, ∃ s : State, (taken 0x1103 q s = true) ∧ (q.h 2 = 0) ∧
      (((admitted 0x1103 q s).session (if q.h 0 = 0 then q.session.toNat else q.h 0)).isSome = true) ∧
      ((admitted 0x1103 q s).executing .control 0 (if q.h 0 = 0 then q.session.toNat else q.h 0) = false) ∧
      ((admitted 0x1103 q s).waitingOf (if q.h 0 = 0 then q.session.toNat else q.h 0) = 0) :=
  ⟨rq 0x1103 [], run, by decide⟩

theorem test_witness_sessionCommandsComplete_5 :
    ∃ q : Request, ∃ s : State, ((taken 0x1103 q s = true) ∧ (q.h 2 = 0) ∧
      (((admitted 0x1103 q s).session (if q.h 0 = 0 then q.session.toNat else q.h 0)).isSome = true)) ∧
      ((admitted 0x1103 q s).executing .control 0 (if q.h 0 = 0 then q.session.toNat else q.h 0) = true ∨
      (admitted 0x1103 q s).waitingOf (if q.h 0 = 0 then q.session.toNat else q.h 0) ≠ 0) :=
  ⟨rq 0x1103 [(1, 2)], modControl
    (fun c => { c with sessions := [supervisor, { supervisor with number := 2 }], journal := [{ applying with session := 2 }] }) run,
    by decide, (.inl (by decide))⟩

theorem test_witness_sessionCommandsComplete_6 :
    ∃ q : Request, ∃ x : Session, ∃ s : State, (taken 0x1104 q s = true) ∧ (q.h 2 = 0) ∧ (q.w 4 ≤ 0xFFFFFF) ∧
      ((admitted 0x1104 q s).session (q.h 0) = some x) ∧ (x.role = .observer) ∧ (x.awaiting = none) :=
  ⟨rq 0x1104 [(1, 2), (5, 0xFF), (6, 0xFF), (7, 0xFF)], { number := 2, role := .observer, version := 0x24, idleS := 60 }, modControl
    (fun c => { c with sessions := [supervisor, { number := 2, role := .observer, version := 0x24, idleS := 60 }] }) run, by decide⟩

theorem test_witness_sessionCommandsComplete_7 :
    ∃ q : Request, ∃ x : Session, ∃ s : State, (taken 0x1105 q s = true) ∧ ((admitted 0x1105 q s).session q.session.toNat = some x) :=
  ⟨rq 0x1105 [], { supervisor with nextSeq := 2 }, run, by decide⟩

theorem test_witness_sessionCommandsComplete_8 :
    ∃ q : Request, ∃ s : State, (taken 0x1106 q s = true) ∧ (q.b 0 ≤ 2) ∧ (isZero q.payload 1 3 = true) ∧ (q.w 4 % 2 = 0) ∧ (q.w 4 < 2
      ^ 18) :=
  ⟨rq 0x1106 (pb 4 4 0x3FFFE), run, by decide⟩

theorem test_witness_sessionCommandsComplete_9 :
    ∃ n : Nat, ∃ x : Session, ∃ s : State, (s.session n = some x) ∧ (x.awaiting = none) ∧ (s.executing .control 0 n = false) ∧
      (s.waitingOf n = 0) :=
  ⟨1, supervisor, run, by decide⟩

theorem test_witness_sessionCommandsComplete_10 :
    ∃ n : Nat, ∃ x : Session, ∃ s : State, ((s.session n = some x) ∧ (x.awaiting = none)) ∧ (s.executing .control 0 n = true ∨
      s.waitingOf n ≠ 0) :=
  ⟨1, supervisor, modControl (fun c => { c with journal := [applying] }) run, by decide, (.inl (by decide))⟩

theorem test_witness_sessionCommandsComplete_11 :
    ∃ n : Nat, ∃ x : Session, ∃ s : State, (s.session n = some x) ∧ (x.awaiting ≠ none) :=
  ⟨1, { supervisor with awaiting := some [] }, modControl (fun c => { c with sessions := [{ supervisor with awaiting := some [] }] })
    run, by decide⟩

theorem test_witness_sessionCommandsComplete_12 :
    ∃ n : Nat, ∃ m, (m ≠ n) :=
  ⟨1, 2, by decide⟩

/-! SystemCommandsComplete -/

theorem test_witness_systemCommandsComplete_1 :
    ∃ q : Request, ∃ s : State, (taken 0x0101 q s = true) :=
  ⟨rq 0x0101 [], run, by decide⟩

theorem test_witness_systemCommandsComplete_2 :
    ∃ q : Request, ∃ s : State, (taken 0x0102 q s = true) ∧ (1 ≤ q.b 0) ∧ (q.b 0 ≤ 3) ∧ (q.b 0 = 3 → q.b 1 ≤ 3) ∧ (q.b 0 ≠ 3 → q.b 1 =
      0) ∧ (isZero q.payload 2 2 = true) :=
  ⟨rq 0x0102 [(0, 3), (1, 3)], run, by decide⟩

theorem test_witness_systemCommandsComplete_3 :
    ∃ q : Request, ∃ s : State, (taken 0x0103 q s = true) :=
  ⟨rq 0x0103 [], run, by decide⟩

/-- The hypothesis left out rests on a value that nothing can evaluate (log entries 3 and 4). -/
theorem test_witness_systemCommandsComplete_4 :
    ∃ q : Request, ∃ s : State, (taken 0x0104 q s = true) ∧ (1 ≤ q.b 0) ∧ (q.b 0 ≤ 3) ∧ (q.b 1 ≤ 1) ∧ (isZero q.payload 2 2 = true) ∧
      (s.timing.tod.sec < q.d 4) :=
  ⟨rq 0x0104 ([(0, 3), (1, 1)] ++ pb 8 4 1), run, (by decide +kernel)⟩

theorem test_witness_systemCommandsComplete_5 :
    ∃ q : Request, ∃ s : State, (taken 0x0104 q s = true) ∧ (1 ≤ q.b 0) ∧ (q.b 0 ≤ 3) ∧ (q.b 1 ≤ 1) ∧ (isZero q.payload 2 2 = true) ∧
      (s.timing.tod.sec < q.d 4) ∧ (debugTokenHolds q s = false) :=
  ⟨rq 0x0104 ([(0, 1)] ++ pb 8 4 1), run, (by decide +kernel)⟩

theorem test_witness_systemCommandsComplete_6 :
    ∃ q : Request, ∃ s : State, (taken 0x0105 q s = true) ∧ (q.u = 0) ∧ (1 ≤ q.h 4) ∧ (q.h 4 ≤ 256) ∧ (isZero q.payload 6 2 = true) :=
  ⟨rq 0x0105 (pb 2 4 256), run, by decide⟩

/-! FirmwareCommandsComplete -/

theorem test_witness_firmwareCommandsComplete_1 :
    ∃ q : Request, ∃ s : State, (taken 0x1001 q s = true) :=
  ⟨rq 0x1001 [], run, by decide⟩

theorem test_witness_firmwareCommandsComplete_2 :
    ∃ q : Request, ∃ s : State, ((taken 0x1002 q s = true) ∧ (4100 ≤ q.w 0) ∧ (q.w 0 ≤ 16777216) ∧ (q.w 0 % 4 = 0) ∧
      (s.fw.trial = false) ∧ (s.fw.pendingEpoch = none) ∧ (stagedByOther q s = false) ∧ (s.romTakes = false)) ∧ ∃ a, (bankBase
      (1 - s.committed) ≤ a) ∧ (a < bankBase (1 - s.committed) + 0x10000) :=
  ⟨rq 0x1002 (pb 4 0 4100), run, by decide, bankBase 1, by decide⟩

theorem test_witness_firmwareCommandsComplete_3 :
    ∃ q : Request, ∃ s : State, ((taken 0x1002 q s = true) ∧ (4100 ≤ q.w 0) ∧ (q.w 0 ≤ 16777216) ∧ (q.w 0 % 4 = 0) ∧
      (s.fw.trial = false) ∧ (s.fw.pendingEpoch = none) ∧ (stagedByOther q s = false) ∧ (s.romTakes = false)) ∧ ∃ a, (a < bankBase
      (1 - s.committed) ∨ bankBase (1 - s.committed) + 0x10000 ≤ a) :=
  ⟨rq 0x1002 (pb 4 0 16777216), run, by decide, bankBase 1 + 0x10000, by decide⟩

theorem test_witness_firmwareCommandsComplete_4 :
    ∃ q : Request, ∃ g : Staging, ∃ s : State, ((taken 0x1003 q s = true) ∧ (s.fw.staging = some g) ∧ (g.session = q.session.toNat) ∧
      (g.prevOffset ≠ some (q.w 0)) ∧ (q.w 0 = g.written) ∧ (q.w 0 + (q.payload.length - 4) ≤ g.length)) ∧ (Config.freeNat s.fresh % 2
      = 0 ∨ g.target = 0xFF) :=
  ⟨rq 0x1003 [], { target := 0xFF, length := 4100, session := 1 }, modFw
    (fun f => { f with staging := some { target := 0xFF, length := 4100, session := 1 } }) run, by decide, (Or.inr (by decide))⟩

/-- The hypothesis left out rests on a value that nothing can evaluate (log entries 3 and 4). -/
theorem test_witness_firmwareCommandsComplete_5 :
    ∃ q : Request, ∃ g : Staging, ∃ s : State, (taken 0x1003 q s = true) ∧ (s.fw.staging = some g) ∧ (g.session = q.session.toNat) ∧
      (g.prevOffset ≠ some (q.w 0)) ∧ (q.w 0 = g.written) ∧ (q.w 0 + (q.payload.length - 4) ≤ g.length) :=
  ⟨rq 0x1003 [], { target := 1, length := 4100, session := 1 }, modFw
    (fun f => { f with staging := some { target := 1, length := 4100, session := 1 } }) run, by decide⟩

/-- The hypothesis left out rests on a value that nothing can evaluate (log entries 3 and 4). -/
theorem test_witness_firmwareCommandsComplete_6 :
    ∃ q : Request, ∃ g : Staging, ∃ s : State, (taken 0x1004 q s = true) ∧ (s.fw.staging = some g) ∧ (g.session = q.session.toNat) ∧
      (g.length ≤ g.written) ∧ (g.target ≠ 0xFF) ∧ (s.romTakes = false) :=
  ⟨rq 0x1004 [], { target := 1, length := 4100, session := 1, written := 4100 }, modFw
    (fun f => { f with staging := some { target := 1, length := 4100, session := 1, written := 4100 } }) run, by decide⟩

theorem test_witness_firmwareCommandsComplete_7 :
    ∃ q : Request, ∃ g : Staging, ∃ s : State, (taken 0x1004 q s = true) ∧ (s.fw.staging = some g) ∧ (g.session = q.session.toNat) ∧
      (g.length ≤ g.written) ∧ (g.target ≠ 0xFF) ∧ (s.romTakes = false) ∧ (stagedCheck s g ≠ none) :=
  ⟨rq 0x1004 [], { target := 1, length := 4100, session := 1, written := 4100 }, modFw
    (fun f => { f with staging := some { target := 1, length := 4100, session := 1, written := 4100 } }) run, by decide⟩

theorem test_witness_firmwareCommandsComplete_8 :
    ∃ q : Request, ∃ s : State, (takenWithoutSession 0x1002 q s = true) ∧ (s.romTakes = true) ∧ (4100 ≤ q.w 0) ∧ (q.w 0 ≤ 16777216) ∧
      (q.w 0 % 4 = 0) ∧ (s.fw.trial = false) ∧ (s.fw.pendingEpoch = none) ∧ (stagedByOther q s = false) :=
  ⟨rq0 0x1002 (pb 4 0 4100), modControl (fun c => { c with ready := false }) (modSill (fun x => { x with stage := .loadWait }) run),
    by decide⟩

/-- The hypothesis left out rests on a value that nothing can evaluate (log entries 3 and 4). -/
theorem test_witness_firmwareCommandsComplete_9 :
    ∃ q : Request, ∃ g : Staging, ∃ s : State, (takenWithoutSession 0x1004 q s = true) ∧ (s.fw.staging = some g) ∧ (g.session = 0) ∧
      (g.length ≤ g.written) ∧ (g.target = 0xFF) :=
  ⟨rq0 0x1004 [], { target := 0xFF, length := 4100, session := 0, written := 4100 }, modFw
    (fun f => { f with staging := some { target := 0xFF, length := 4100, session := 0, written := 4100 } })
    (modControl (fun c => { c with ready := false }) (modSill (fun x => { x with stage := .loadWait }) run)), by decide⟩

theorem test_witness_firmwareCommandsComplete_10 :
    ∃ q : Request, ∃ b : Nat, ∃ s : State, (taken 0x1005 q s = true) ∧ (q.b 0 ≤ 1) ∧ (isZero q.payload 1 3 = true) ∧ (s.fw.staged =
      some b) ∧ (s.domain.floor.getD 0 ≤ u32 (flashBytes s (bankBase b) 352) 8) ∧ (q.b 0 = 1) ∧ (q.h 4 = 0) ∧ (s.timing.tod.sec < q.d
      4) :=
  ⟨rq 0x1005 ([(0, 1)] ++ pb 8 4 1), 1, modFw (fun f => { f with staged := some 1 }) run, by decide⟩

theorem test_witness_firmwareCommandsComplete_11 :
    ∃ q : Request, ∃ b : Nat, ∃ s : State, (taken 0x1005 q s = true) ∧ (q.b 0 ≤ 1) ∧ (isZero q.payload 1 3 = true) ∧ (s.fw.staged =
      some b) ∧ (s.domain.floor.getD 0 ≤ u32 (flashBytes s (bankBase b) 352) 8) ∧ (q.b 0 = 0) ∧ (q.d 4 = 0) :=
  ⟨rq 0x1005 [], 1, modFw (fun f => { f with staged := some 1 }) run, by decide⟩

/-- The hypothesis left out rests on a value that nothing can evaluate (log entries 3 and 4). -/
theorem test_witness_firmwareCommandsComplete_12 :
    ∃ q : Request, ∃ s : State, (taken 0x1006 q s = true) ∧ (s.fw.trial = true) ∧ (s.directory = none) :=
  ⟨rq 0x1006 [], modFw (fun f => { f with trial := true }) run, by decide⟩

/-- The hypothesis left out rests on a value that nothing can evaluate (log entries 3 and 4). -/
theorem test_witness_firmwareCommandsComplete_13 :
    ∃ q : Request, ∃ s : State, ((taken 0x1006 q s = true) ∧ (s.fw.trial = true)) ∧ ∃ c, ∃ d, (s.directory = some (c, d)) :=
  ⟨rq 0x1006 [], flashWrite 0 (directoryBytes 5 0) (modFw (fun f => { f with trial := true }) run), (by decide +kernel), 0,
    directoryBytes 5 0, (by decide +kernel)⟩

/-- The hypothesis left out rests on a value that nothing can evaluate (log entries 3 and 4). -/
theorem test_witness_firmwareCommandsComplete_14 :
    ∃ q : Request, ∃ s : State, (taken 0x1006 q s = true) ∧ (s.fw.trial = true) :=
  ⟨rq 0x1006 [], modFw (fun f => { f with trial := true }) run, by decide⟩

/-- The hypothesis left out rests on a value that nothing can evaluate (log entries 3 and 4). -/
theorem test_witness_firmwareCommandsComplete_15 :
    ∃ q : Request, ∃ s : State, (taken 0x1006 q s = true) ∧ (s.fw.trial = true) :=
  ⟨rq 0x1006 [], modFw (fun f => { f with trial := true }) run, by decide⟩

theorem test_witness_firmwareCommandsComplete_16 :
    ∃ q : Request, ∃ s : State, (taken 0x1007 q s = true) ∧ (s.fw.trial = false) ∧ (s.fw.pendingEpoch ≠ none) :=
  ⟨rq 0x1007 [], modFw (fun f => { f with pendingEpoch := some 5 }) run, by decide⟩

theorem test_witness_firmwareCommandsComplete_17 :
    ∃ q : Request, ∃ s : State, (taken 0x1007 q s = true) ∧ (s.fw.trial = true) :=
  ⟨rq 0x1007 [], modFw (fun f => { f with trial := true }) run, by decide⟩

/-! PowerCommandsComplete -/

theorem test_witness_powerCommandsComplete_1 :
    ∃ q : Request, ∃ s : State, (taken 0x0201 q s = true) ∧ (1 ≤ q.b 0) ∧ (q.b 0 ≤ 9) ∧ (q.b 1 = 0xFF ∨ q.b 1 < classCount (q.b 0)) ∧
      (q.h 2 = 0) :=
  ⟨rq 0x0201 [(0, 9), (1, 0xFF)], run, by decide⟩

theorem test_witness_powerCommandsComplete_2 :
    ∃ q : Request, ∃ s : State, (taken 0x0202 q s = true) ∧ (1 ≤ q.b 0) ∧ (q.b 0 ≤ 9) ∧ (q.b 1 = 0xFF ∨ q.b 1 < classCount (q.b 0)) ∧
      (q.h 2 = 0) :=
  ⟨rq 0x0202 [(0, 1), (1, 3)], run, by decide⟩

theorem test_witness_powerCommandsComplete_3 :
    ∃ q : Request, ∃ s : State, (taken 0x0203 q s = true) :=
  ⟨rq 0x0203 [], run, by decide⟩

/-- The hypothesis left out rests on a value that nothing can evaluate (log entries 3 and 4). -/
theorem test_witness_powerCommandsComplete_4 :
    ∃ q : Request, ∃ s : State, (taken 0x0204 q s = true) ∧ (0x08 ≤ q.b 0) ∧ (q.b 0 ≤ 0x77) ∧ (isZero q.payload 1 3 = true) :=
  ⟨rq 0x0204 [(0, 0x08)], run, by decide⟩

/-- The hypothesis left out rests on a value that nothing can evaluate (log entries 3 and 4). -/
theorem test_witness_powerCommandsComplete_5 :
    ∃ q : Request, ∃ s : State, (taken 0x0204 q s = true) ∧ (0x08 ≤ q.b 0) ∧ (q.b 0 ≤ 0x77) ∧ (isZero q.payload 1 3 = true) :=
  ⟨rq 0x0204 [(0, 0x77)], run, by decide⟩

theorem test_witness_powerCommandsComplete_6 :
    ∃ cls : Nat, ∃ idx : Nat, ∃ s : State, (s.enabled cls idx = true) ∧ ((s.dom cls idx).state = 0) :=
  ⟨7, 0, inState 7 0 0 run, by decide⟩

theorem test_witness_powerCommandsComplete_7 :
    ∃ cls : Nat, ∃ idx : Nat, ∃ s : State, (s.enabled cls idx = true) ∧ (1 ≤ (s.dom cls idx).state) ∧ ((s.dom cls idx).state ≤ 2) :=
  ⟨7, 0, inState 7 0 2 run, by decide⟩

theorem test_witness_powerCommandsComplete_8 :
    ∃ cls : Nat, ∃ idx : Nat, ∃ s : State, (s.enabled cls idx = true) ∧ (3 ≤ (s.dom cls idx).state) ∧ (cls = 3 → s.quadForced idx =
      false) :=
  ⟨7, 0, inState 7 0 3 run, by decide⟩

/-! SleepFollowsIdleness -/

theorem test_witness_sleepFollowsIdleness_1 :
    ∃ cls : Nat, ∃ idx : Nat, ∃ s : State, ((s.blocksRun = true) ∧ (idx < classCount cls) ∧ (s.enabled cls idx = true) ∧
      ((s.dom cls idx).exiting = false) ∧ (s.domainIdle cls idx = true) ∧ ((s.dom cls idx).state < s.deepest cls idx)) ∧
      ((cls ≠ 5 ∧ cls ≠ 6) ∨ (s.dom cls idx).state ≠ 0) ∧ (cls = 1 → (s.dom cls idx).state = 3 → (s.calOf idx).bias = []) :=
  ⟨7, 0, modDom 7 0 (fun _ => { state := 0, tol := 400000 }) run, by decide, (.inl (by decide)), (fun h => absurd h (by decide))⟩

theorem test_witness_sleepFollowsIdleness_2 :
    ∃ cls : Nat, ∃ idx : Nat, ∃ s : State, (s.blocksRun = true) ∧ (idx < classCount cls) ∧ (s.enabled cls idx = true) ∧
      ((s.dom cls idx).exiting = false) ∧ (s.domainIdle cls idx = true) ∧ ((s.dom cls idx).state < s.deepest cls idx) ∧ (cls = 5) ∧
      ((s.dom cls idx).state = 0) ∧ ((s.tenon idx).state = 3) ∧ (s.pins.trafficStopped = false) ∧ ((s.tenon idx).retraining = false) ∧
      ((s.tenon idx).sleepSeen = false) :=
  ⟨5, 0, modDom 5 0 (fun _ => { state := 0, tol := 24 })
    (modTenon 0 (fun t => { t with role := 1, state := 3, sleepSeen := false }) run), by decide⟩

theorem test_witness_sleepFollowsIdleness_3 :
    ∃ cls : Nat, ∃ idx : Nat, ∃ s : State, (s.blocksRun = true) ∧ (idx < classCount cls) ∧ (s.enabled cls idx = true) ∧
      ((s.dom cls idx).exiting = false) ∧ (s.domainIdle cls idx = true) ∧ ((s.dom cls idx).state < s.deepest cls idx) ∧ (cls = 5) ∧
      ((s.dom cls idx).state = 0) ∧ ((s.tenon idx).state = 3) ∧ (s.pins.trafficStopped = false) ∧ ((s.tenon idx).retraining = false) ∧
      ((s.tenon idx).sleepSeen = true) :=
  ⟨5, 0, modDom 5 0 (fun _ => { state := 0, tol := 24 })
    (modTenon 0 (fun t => { t with role := 1, state := 3, sleepSeen := true }) run), by decide⟩

theorem test_witness_sleepFollowsIdleness_4 :
    ∃ cls : Nat, ∃ idx : Nat, ∃ s : State, (s.blocksRun = true) ∧ (idx < classCount cls) ∧ (s.enabled cls idx = true) ∧
      ((s.dom cls idx).exiting = false) ∧ (s.domainIdle cls idx = true) ∧ ((s.dom cls idx).state < s.deepest cls idx) ∧ (cls = 6) ∧
      ((s.dom cls idx).state = 0) ∧ (s.stream.state = 2) :=
  ⟨6, 0, modDom 6 0 (fun _ => { state := 0, tol := 24 }) (modStream (fun t => { t with enabled := true, state := 2 }) run), by decide⟩

theorem test_witness_sleepFollowsIdleness_5 :
    ∃ cls : Nat, ∃ idx : Nat, ∃ s : State, ((s.blocksRun = true) ∧ (idx < classCount cls) ∧ (s.enabled cls idx = true)) ∧ (cls = 3 →
      s.quadForced idx = false) ∧ ((s.dom cls idx).state = 0) ∧ (cls = 1 → (s.cu idx).txCalibrated = true) :=
  ⟨7, 0, inState 7 0 0 run, by decide, (fun h => absurd h (by decide)), by decide, (fun h => absurd h (by decide))⟩

theorem test_witness_sleepFollowsIdleness_6 :
    ∃ cls : Nat, ∃ idx : Nat, ∃ s : State, ((s.blocksRun = true) ∧ (idx < classCount cls) ∧ (s.enabled cls idx = true)) ∧ (cls = 3 →
      s.quadForced idx = false) ∧ ((s.dom cls idx).state = 0) ∧ (cls = 1) ∧ ((s.cu idx).txCalibrated = false) ∧ ((s.calOf idx).fullTx
      = false) :=
  ⟨1, 0, modCu 0 (fun c => { c with txCalibrated := false }) (live), by decide, (fun h => absurd h (by decide)), by decide⟩

theorem test_witness_sleepFollowsIdleness_7 :
    ∃ cls : Nat, ∃ idx : Nat, ∃ s : State, ((s.blocksRun = true) ∧ (idx < classCount cls) ∧ (s.enabled cls idx = true)) ∧ (cls = 3 →
      s.quadForced idx = false) ∧ ((s.dom cls idx).state ≠ 0) ∧ ((s.dom cls idx).exiting = true) :=
  ⟨7, 0, modDom 7 0 (fun d => { d with exiting := true }) run, by decide, (fun h => absurd h (by decide)), by decide⟩

theorem test_witness_sleepFollowsIdleness_8 :
    ∃ cls : Nat, ∃ idx : Nat, ∃ s : State, ((s.blocksRun = true) ∧ (idx < classCount cls) ∧ (s.enabled cls idx = true)) ∧ (cls = 3 →
      s.quadForced idx = false) ∧ ((s.dom cls idx).state ≠ 0) ∧ ((s.dom cls idx).exiting = false) :=
  ⟨7, 0, run, by decide, (fun h => absurd h (by decide)), by decide⟩

theorem test_witness_sleepFollowsIdleness_9 :
    ∃ k : Fin 28, ∃ s : State, ((s.hubUp = true) ∧ (s.pll k = .starting)) ∧ ∃ j, (j ≠ k.val) :=
  ⟨3, { run with power := { plls := [(3, .starting)] } }, by decide, 0, by decide⟩

theorem test_witness_sleepFollowsIdleness_10 :
    ∃ k : Fin 28, ∃ s : State, ((s.hubUp = true) ∧ (s.pll k = .starting)) ∧ ∃ q, (q < 16) ∧ (k.val = 5 + q) ∧ ((s.dom 3 q).exiting =
      true) :=
  ⟨5, modDom 3 0 (fun d => { d with exiting := true }) { run with power := { plls := [(5, .starting)] } }, by decide, 0, by decide⟩

theorem test_witness_sleepFollowsIdleness_11 :
    ∃ cls : Nat, ∃ idx : Nat, ∃ s : State, ((s.hubUp = true) ∧ (idx < classCount cls) ∧ ((s.dom cls idx).exiting = true) ∧
      (s.pll (pllOf cls idx) = .locked)) ∧ ((s.dom cls idx).state ≠ 4 ∨ s.coreRising = false) ∧ (cls = 1 → (s.cu idx).txCalibrated =
      true) ∧ (cls = 2 → (s.cu idx).rxCalibrated = true) ∧ (cls = 8 → (s.calOf 4).fullTx = false) ∧ ((s.dom cls idx).wake = true) :=
  ⟨7, 0, { run with power := { plls := [(0, .locked)], domains := [(112, { state := 4, exiting := true, wake := true })] } }, by
    decide, (.inr (by decide)), (fun h => absurd h (by decide)), (fun h => absurd h (by decide)), (fun h => absurd h (by decide)), by
    decide⟩

/-! CoreVoltageAdapts -/

theorem test_witness_coreVoltageAdapts_1 :
    ∃ s : State, (s.salurnRuns = true) ∧ (s.power.adapting = true) :=
  ⟨{ run with power := { adapting := true } }, by decide⟩

theorem test_witness_coreVoltageAdapts_2 :
    ∃ s : State, (s.salurnRuns = true) ∧ (s.power.adapting = false) ∧ (s.power.recovered = false) :=
  ⟨run, by decide⟩

theorem test_witness_coreVoltageAdapts_3 :
    ∃ s : State, (s.salurnRuns = true) ∧ (s.power.adapting = false) ∧ (s.power.recovered = true) ∧ (s.power.coreMv ≠ s.power.targetMv) :=
  ⟨{ run with power := { recovered := true, coreMv := 740 } }, by decide⟩

theorem test_witness_coreVoltageAdapts_4 :
    ∃ lost : Bool, ∃ s : State, ((s.salurnRuns = true) ∧ (s.power.adapting = false)) ∧ (lost = false ∨ s.power.recovered = true) :=
  ⟨false, run, by decide, (.inl rfl)⟩

theorem test_witness_coreVoltageAdapts_5 :
    ∃ s : State, (s.salurnRuns = true) ∧ (s.power.adapting = true) ∧ (s.power.coreMv ≠ s.power.targetMv) ∧ (s.power.coreMv <
      s.power.targetMv) :=
  ⟨{ run with power := { adapting := true, targetMv := 751 } }, by decide⟩

theorem test_witness_coreVoltageAdapts_6 :
    ∃ s : State, (s.salurnRuns = true) ∧ (s.power.adapting = true) ∧ (s.power.coreMv ≠ s.power.targetMv) ∧ (s.power.targetMv <
      s.power.coreMv) :=
  ⟨{ run with power := { adapting := true, targetMv := 749 } }, by decide⟩

theorem test_witness_coreVoltageAdapts_7 :
    ∃ s : State, (s.salurnRuns = true) ∧ (s.power.adapting = true) ∧ (s.power.coreMv ≠ s.power.targetMv) ∧ (s.power.nackRun = 2) :=
  ⟨{ run with power := { adapting := true, targetMv := 751, nackRun := 2 } }, by decide⟩

theorem test_witness_coreVoltageAdapts_8 :
    ∃ s : State, (s.salurnRuns = true) ∧ (s.power.adapting = true) ∧ (s.power.coreMv ≠ s.power.targetMv) ∧ (s.power.pecRun = 2) :=
  ⟨{ run with power := { adapting := true, targetMv := 751, pecRun := 2 } }, by decide⟩

/-! OtucNStaysAboveItsSlots -/

theorem test_witness_otucNStaysAboveItsSlots_1 :
    ∃ q : Request, ∃ g : Format, ∃ s : State, (taken 0x0301 q s = true) ∧ ((formatChecks q s).all (fun c => c.1) = true) ∧
      ((s.cu q.u).fmt = some g) ∧ (q.b 6 < g.otucN) ∧ (s.slotsFrom q.u (20 * q.b 6) = true) :=
  ⟨rq 0x0301 (pb 2 0 2560 ++ [(3, 2), (6, 4), (7, 24), (9, 10)]), { fmt with otucN := 8 },
    { modCu 0 (fun c => { c with fmt := some { fmt with otucN := 8 } }) run with client := { tribs := [(0, { set := { kind := 1, slots := 2 ^ 80 } })] } },
    by decide⟩

/-! CarrierCommandsComplete -/

theorem test_witness_carrierCommandsComplete_1 :
    ∃ q : Request, ∃ s : State, ((taken 0x0301 q s = true) ∧ ((formatChecks q s).all (fun c => c.1) = true) ∧
      (((s.cu q.u).txEn = true ∨ (s.cu q.u).rxEn = true) → rateChanges (s.cu q.u) (formatOf q) = false)) ∧ (∀ g, (s.cu q.u).fmt = some
      g → (formatOf q).otucN < g.otucN → s.slotsFrom q.u (20 * (formatOf q).otucN) = false) ∧ ((s.channel q.u 0).secure = false) ∧
      ((s.channel q.u 1).secure = false) ∧ (s.twinOf q.u = none) ∧ ((s.cu q.u).dsp.cdOk (some (formatOf q)) = true) ∧
      ((s.cu q.u).dsp.precompOk (some (formatOf q)) = true) ∧ ((formatOf q).lineMode = 0 → (formatOf q).fits (formatOf q).otucN =
      true) ∧ (q.b 10 = 1) :=
  ⟨rq 0x0301 (pb 2 0 2560 ++ [(3, 2), (6, 4), (7, 24), (9, 10)] ++ [(10, 1)] ++ pb 8 12 5), run, by decide, (by intro g h; cases h),
    by decide⟩

theorem test_witness_carrierCommandsComplete_2 :
    ∃ q : Request, ∃ s : State, ((taken 0x0301 q s = true) ∧ ((formatChecks q s).all (fun c => c.1) = true) ∧
      (((s.cu q.u).txEn = true ∨ (s.cu q.u).rxEn = true) → rateChanges (s.cu q.u) (formatOf q) = false)) ∧ (∀ g, (s.cu q.u).fmt = some
      g → (formatOf q).otucN < g.otucN → s.slotsFrom q.u (20 * (formatOf q).otucN) = false) ∧ ((s.channel q.u 0).secure = false) ∧
      ((s.channel q.u 1).secure = false) ∧ (s.twinOf q.u = none) ∧ ((s.cu q.u).dsp.cdOk (some (formatOf q)) = true) ∧
      ((s.cu q.u).dsp.precompOk (some (formatOf q)) = true) ∧ ((formatOf q).lineMode = 0 → (formatOf q).fits (formatOf q).otucN =
      true) ∧ (q.b 10 = 0) :=
  ⟨rq 0x0301 (pb 2 0 2560 ++ [(3, 2), (6, 4), (7, 24), (9, 10)]), run, by decide, (by intro g h; cases h), by decide⟩

theorem test_witness_carrierCommandsComplete_3 :
    ∃ u : Nat, ∃ s : State, ((s.cu u).txEn = false) ∧ ((s.cu u).rxEn = false) :=
  ⟨0, run, by decide⟩

theorem test_witness_carrierCommandsComplete_4 :
    ∃ u : Fin 4, ∃ f : Format, ∃ e : Nat, ∃ s : State, ((s.cu u).pending = some (f, e)) ∧ (s.blocksRun = true) ∧ (e ≤
      s.timing.tod.sec) :=
  ⟨3, fmt, 0, modCu 3 (fun c => { c with pending := some (fmt, 0) }) run, by decide⟩

theorem test_witness_carrierCommandsComplete_5 :
    ∃ q : Request, ∃ s : State, ((taken 0x0302 q s = true) ∧ (q.u < 4) ∧ (q.b 0 ≤ 1) ∧ (q.b 1 ≤ 1) ∧ (q.h 2 = 0)) ∧ (q.b 0 = 1 ∧
      (s.cu q.u).txEn = false ∨ q.b 1 = 1 ∧ (s.cu q.u).rxEn = false → (s.cu q.u).fmt ≠ none ∧ ∀ f e, (s.cu q.u).pending = some (f, e)
      → rateChanges (s.cu q.u) f = false) ∧ (q.b 0 = 1) ∧ ((s.cu q.u).txEn = true) :=
  ⟨rq 0x0302 [(0, 1)], live, by decide, (fun h => absurd h (by decide)), by decide⟩

theorem test_witness_carrierCommandsComplete_6 :
    ∃ q : Request, ∃ s : State, ((taken 0x0302 q s = true) ∧ (q.u < 4) ∧ (q.b 0 ≤ 1) ∧ (q.b 1 ≤ 1) ∧ (q.h 2 = 0)) ∧ (q.b 0 = 1 ∧
      (s.cu q.u).txEn = false ∨ q.b 1 = 1 ∧ (s.cu q.u).rxEn = false → (s.cu q.u).fmt ≠ none ∧ ∀ f e, (s.cu q.u).pending = some (f, e)
      → rateChanges (s.cu q.u) f = false) ∧ (q.b 0 = 0) ∧ (s.txRuns q.u = true) :=
  ⟨rq 0x0302 [], live, by decide, (fun h => absurd h (by decide)), by decide⟩

theorem test_witness_carrierCommandsComplete_7 :
    ∃ q : Request, ∃ s : State, ((taken 0x0302 q s = true) ∧ (q.u < 4) ∧ (q.b 0 ≤ 1) ∧ (q.b 1 ≤ 1) ∧ (q.h 2 = 0)) ∧ (q.b 0 = 1 ∧
      (s.cu q.u).txEn = false ∨ q.b 1 = 1 ∧ (s.cu q.u).rxEn = false → (s.cu q.u).fmt ≠ none ∧ ∀ f e, (s.cu q.u).pending = some (f, e)
      → rateChanges (s.cu q.u) f = false) ∧ (q.b 0 = 0) ∧ (s.txRuns q.u = false) :=
  ⟨rq 0x0302 [] 3, run, by decide, (fun h => absurd h (by decide)), by decide⟩

theorem test_witness_carrierCommandsComplete_8 :
    ∃ q : Request, ∃ s : State, ((taken 0x0302 q s = true) ∧ (q.u < 4) ∧ (q.b 0 ≤ 1) ∧ (q.b 1 ≤ 1) ∧ (q.h 2 = 0)) ∧ (q.b 0 = 1 ∧
      (s.cu q.u).txEn = false ∨ q.b 1 = 1 ∧ (s.cu q.u).rxEn = false → (s.cu q.u).fmt ≠ none ∧ ∀ f e, (s.cu q.u).pending = some (f, e)
      → rateChanges (s.cu q.u) f = false) ∧ (q.b 1 = 1) ∧ ((s.cu q.u).rxEn = true) :=
  ⟨rq 0x0302 [(1, 1)], live, by decide, (fun h => absurd h (by decide)), by decide⟩

theorem test_witness_carrierCommandsComplete_9 :
    ∃ q : Request, ∃ s : State, ((taken 0x0302 q s = true) ∧ (q.u < 4) ∧ (q.b 0 ≤ 1) ∧ (q.b 1 ≤ 1) ∧ (q.h 2 = 0)) ∧ (q.b 0 = 1 ∧
      (s.cu q.u).txEn = false ∨ q.b 1 = 1 ∧ (s.cu q.u).rxEn = false → (s.cu q.u).fmt ≠ none ∧ ∀ f e, (s.cu q.u).pending = some (f, e)
      → rateChanges (s.cu q.u) f = false) ∧ (q.b 1 = 0) ∧ ((s.cu q.u).rxEn = true) ∧ ((s.cu q.u).acq = 7) :=
  ⟨rq 0x0302 [], live, by decide, (fun h => absurd h (by decide)), by decide⟩

theorem test_witness_carrierCommandsComplete_10 :
    ∃ q : Request, ∃ s : State, ((taken 0x0302 q s = true) ∧ (q.u < 4) ∧ (q.b 0 ≤ 1) ∧ (q.b 1 ≤ 1) ∧ (q.h 2 = 0)) ∧ (q.b 0 = 1 ∧
      (s.cu q.u).txEn = false ∨ q.b 1 = 1 ∧ (s.cu q.u).rxEn = false → (s.cu q.u).fmt ≠ none ∧ ∀ f e, (s.cu q.u).pending = some (f, e)
      → rateChanges (s.cu q.u) f = false) ∧ (q.b 1 = 0) ∧ ((s.cu q.u).acq ≠ 7) :=
  ⟨rq 0x0302 [], run, by decide, (fun h => absurd h (by decide)), by decide⟩

theorem test_witness_carrierCommandsComplete_11 :
    ∃ q : Request, ∃ s : State, (taken 0x0303 q s = true) ∧ (q.u < 4) ∧ ((dspOf q).cdOk (s.cu q.u).fmt = true) ∧ ((dspOf q).cdSpan ≤
      200000) ∧ (-5000 ≤ (dspOf q).txPrecomp) ∧ ((dspOf q).txPrecomp ≤ 5000) ∧ ((dspOf q).precompOk (s.cu q.u).fmt = true) ∧ (7 ≤
      (dspOf q).taps) ∧ ((dspOf q).taps ≤ 63) ∧ ((dspOf q).taps % 2 = 1) ∧ ((dspOf q).tracking ≤ 1) ∧ ((dspOf q).nlcMode ≤ 2) ∧ (10 ≤
      (dspOf q).joinWindow) ∧ ((dspOf q).joinWindow ≤ 16) ∧ (2 ≤ (dspOf q).daeShift) ∧ ((dspOf q).daeShift ≤ 8) ∧ (6 ≤
      (dspOf q).losThresh) ∧ ((dspOf q).losThresh ≤ 30) ∧ ((dspOf q).timingBw ≤ 3) ∧ ((dspOf q).preemph ≤ 24) ∧ (60 ≤ (dspOf q).clip)
      ∧ ((dspOf q).clip ≤ 140) ∧ (q.b 19 = 0) ∧ ((s.cu q.u).txEn = true → (dspOf q).txPrecomp = (s.cu q.u).dsp.txPrecomp) ∧
      ((s.cu q.u).rxEn = true → ((dspOf q).nlcMode = 2 ↔ (s.cu q.u).dsp.nlcMode = 2) ∧ (dspOf q).joinWindow =
      (s.cu q.u).dsp.joinWindow) ∧ (s.txRuns q.u = false) ∧ (s.coreRising = false) :=
  ⟨rq 0x0303 [(10, 7), (13, 10), (14, 2), (15, 6), (18, 60)], run, by decide⟩

theorem test_witness_carrierCommandsComplete_12 :
    ∃ q : Request, ∃ s : State, (taken 0x0303 q s = true) ∧ (q.u < 4) ∧ ((dspOf q).cdOk (s.cu q.u).fmt = true) ∧ ((dspOf q).cdSpan ≤
      200000) ∧ (-5000 ≤ (dspOf q).txPrecomp) ∧ ((dspOf q).txPrecomp ≤ 5000) ∧ ((dspOf q).precompOk (s.cu q.u).fmt = true) ∧ (7 ≤
      (dspOf q).taps) ∧ ((dspOf q).taps ≤ 63) ∧ ((dspOf q).taps % 2 = 1) ∧ ((dspOf q).tracking ≤ 1) ∧ ((dspOf q).nlcMode ≤ 2) ∧ (10 ≤
      (dspOf q).joinWindow) ∧ ((dspOf q).joinWindow ≤ 16) ∧ (2 ≤ (dspOf q).daeShift) ∧ ((dspOf q).daeShift ≤ 8) ∧ (6 ≤
      (dspOf q).losThresh) ∧ ((dspOf q).losThresh ≤ 30) ∧ ((dspOf q).timingBw ≤ 3) ∧ ((dspOf q).preemph ≤ 24) ∧ (60 ≤ (dspOf q).clip)
      ∧ ((dspOf q).clip ≤ 140) ∧ (q.b 19 = 0) ∧ ((s.cu q.u).txEn = true → (dspOf q).txPrecomp = (s.cu q.u).dsp.txPrecomp) ∧
      ((s.cu q.u).rxEn = true → ((dspOf q).nlcMode = 2 ↔ (s.cu q.u).dsp.nlcMode = 2) ∧ (dspOf q).joinWindow =
      (s.cu q.u).dsp.joinWindow) ∧ ((s.cu q.u).acq ≠ 7) ∧ (s.coreRising = false) :=
  ⟨rq 0x0303 ([(10, 63), (11, 1), (12, 2), (13, 16), (14, 8), (15, 30), (16, 3), (17, 24), (18, 140)] ++ pb 2 8 100), run, by decide⟩

theorem test_witness_carrierCommandsComplete_13 :
    ∃ q : Request, ∃ s : State, (taken 0x0303 q s = true) ∧ (q.u < 4) ∧ ((dspOf q).cdOk (s.cu q.u).fmt = true) ∧ ((dspOf q).cdSpan ≤
      200000) ∧ (-5000 ≤ (dspOf q).txPrecomp) ∧ ((dspOf q).txPrecomp ≤ 5000) ∧ ((dspOf q).precompOk (s.cu q.u).fmt = true) ∧ (7 ≤
      (dspOf q).taps) ∧ ((dspOf q).taps ≤ 63) ∧ ((dspOf q).taps % 2 = 1) ∧ ((dspOf q).tracking ≤ 1) ∧ ((dspOf q).nlcMode ≤ 2) ∧ (10 ≤
      (dspOf q).joinWindow) ∧ ((dspOf q).joinWindow ≤ 16) ∧ (2 ≤ (dspOf q).daeShift) ∧ ((dspOf q).daeShift ≤ 8) ∧ (6 ≤
      (dspOf q).losThresh) ∧ ((dspOf q).losThresh ≤ 30) ∧ ((dspOf q).timingBw ≤ 3) ∧ ((dspOf q).preemph ≤ 24) ∧ (60 ≤ (dspOf q).clip)
      ∧ ((dspOf q).clip ≤ 140) ∧ (q.b 19 = 0) ∧ ((s.cu q.u).txEn = true → (dspOf q).txPrecomp = (s.cu q.u).dsp.txPrecomp) ∧
      ((s.cu q.u).rxEn = true → ((dspOf q).nlcMode = 2 ↔ (s.cu q.u).dsp.nlcMode = 2) ∧ (dspOf q).joinWindow =
      (s.cu q.u).dsp.joinWindow) ∧ (s.txRuns q.u = true) ∧ ((s.cu q.u).acq = 7) :=
  ⟨rq 0x0303 [(10, 7), (13, 14), (14, 2), (15, 6), (18, 60)], live, by decide⟩

theorem test_witness_carrierCommandsComplete_14 :
    ∃ q : Request, ∃ s : State, (taken 0x0304 q s = true) ∧ (q.u = 0) ∧ (∀ r ∈ ([q.b 0, q.b 1, q.b 2, q.b 3]), r ≤ 3 ∨ r = 0xFF) ∧
      (ranksDistinct ([q.b 0, q.b 1, q.b 2, q.b 3]) = true) ∧ (q.b 4 < 8) ∧ (∀ r < 3, (q.b 4).testBit r = true → r ∈
      ([q.b 0, q.b 1, q.b 2, q.b 3]) ∧ r + 1 ∈ ([q.b 0, q.b 1, q.b 2, q.b 3])) ∧ (q.b 5 < 16) ∧ (q.h 6 = 0) ∧ (s.meetsFloor = true ∨ ∀
      p < 4, (q.b 5).testBit p = true → s.joinery.order.joinEn.testBit p = true) :=
  ⟨rq 0x0304 [(0, 0), (1, 1), (2, 2), (3, 3), (4, 7), (5, 15)], run, by decide⟩

theorem test_witness_carrierCommandsComplete_15 :
    ∃ u : Nat, ∃ s : State, ((s.cu u).order ≠ s.joinery.order) ∧ ∃ p, (p ∈ pairsOf u) ∧ ((applyOrder u s).joinable p = false) :=
  ⟨0, { live with joinery := { order := { joinEn := 1 } } }, by decide, 0, by decide⟩

theorem test_witness_carrierCommandsComplete_16 :
    ∃ q : Request, ∃ s : State, (taken 0x0305 q s = true) ∧ (q.u < 4) :=
  ⟨rq 0x0305 [] 3, run, by decide⟩

theorem test_witness_carrierCommandsComplete_17 :
    ∃ q : Request, ∃ s : State, (taken 0x0306 q s = true) ∧ (q.u < 4) ∧ (q.b 0 ≤ 1) ∧ (isZero q.payload 1 3 = true) ∧ ((s.cu q.u).rxEn
      = true) ∧ ((s.dom 2 q.u).state = 0) ∧ ((s.cu q.u).acq = 0) :=
  ⟨rq 0x0306 [(0, 1)], modCu 0 (fun c => { c with acq := 0 }) live, by decide⟩

theorem test_witness_carrierCommandsComplete_18 :
    ∃ q : Request, ∃ s : State, (taken 0x0306 q s = true) ∧ (q.u < 4) ∧ (q.b 0 ≤ 1) ∧ (isZero q.payload 1 3 = true) ∧ ((s.cu q.u).rxEn
      = true) ∧ ((s.dom 2 q.u).state = 0) ∧ ((s.cu q.u).acq ≠ 0) :=
  ⟨rq 0x0306 [], live, by decide⟩

theorem test_witness_carrierCommandsComplete_19 :
    ∃ q : Request, ∃ s : State, ((taken 0x0307 q s = true) ∧ (q.u < 4)) ∧ ∃ f, ∃ e, ((s.cu q.u).pending = some (f, e)) :=
  ⟨rq 0x0307 [], modCu 0 (fun c => { c with pending := some (fmt, 9) }) run, by decide, fmt, 9, by decide⟩

theorem test_witness_carrierCommandsComplete_20 :
    ∃ q : Request, ∃ s : State, ((taken 0x0307 q s = true) ∧ (q.u < 4)) ∧ ∃ f, ((s.cu q.u).pending = none) ∧ ((s.cu q.u).fmt = some f) :=
  ⟨rq 0x0307 [], live, by decide, fmt, by decide⟩

theorem test_witness_carrierCommandsComplete_21 :
    ∃ q : Request, ∃ s : State, (taken 0x0307 q s = true) ∧ (q.u < 4) ∧ ((s.cu q.u).pending = none) ∧ ((s.cu q.u).fmt = none) :=
  ⟨rq 0x0307 [], run, by decide⟩

/-! ReceiveAcquiresAndLoses -/

theorem test_witness_receiveAcquiresAndLoses_1 :
    ∃ u : Fin 4, ∃ s : State, (s.trafficRuns = true) ∧ ∃ a, ∃ b, ((a, b) ∈
      [(1, if (s.cu u).dspRx.cdSpan = 0 then 3 else 2), (2, 3), (4, 5)]) ∧ ((s.cu u).acq = a) ∧ (a = 2) :=
  ⟨0, modCu 0 (fun c => { c with acq := 2 }) (live), by decide, 2, 3, by decide⟩

theorem test_witness_receiveAcquiresAndLoses_2 :
    ∃ u : Fin 4, ∃ freq : Int, ∃ s : State, (s.trafficRuns = true) ∧ ((s.cu u).acq = 3) ∧ (freq.natAbs ≤ 4000000) :=
  ⟨0, 4000000, modCu 0 (fun c => { c with acq := 3 }) (live), by decide⟩

theorem test_witness_receiveAcquiresAndLoses_3 :
    ∃ u : Fin 4, ∃ snr : Nat, ∃ s : State, (s.trafficRuns = true) ∧ ((s.cu u).acq = 5) ∧ (snr < 300) :=
  ⟨0, 299, modCu 0 (fun c => { c with acq := 5 }) (live), by decide⟩

theorem test_witness_receiveAcquiresAndLoses_4 :
    ∃ u : Fin 4, ∃ snr : Nat, ∃ s : State, (s.trafficRuns = true) ∧ ((s.cu u).acq = 5) ∧ (300 ≤ snr) :=
  ⟨0, 300, modCu 0 (fun c => { c with acq := 5 }) (live), by decide⟩

theorem test_witness_receiveAcquiresAndLoses_5 :
    ∃ u : Fin 4, ∃ s : State, (s.trafficRuns = true) ∧ ∃ f, ((s.cu u).acq = 6) ∧ ((s.cu u).fmtRx = some f) ∧ (f.lineMode = 0) ∧
      ((s.cu u).rxAligned = false) :=
  ⟨0, modCu 0 (fun c => { c with acq := 6 }) (live), by decide, fmt, by decide⟩

theorem test_witness_receiveAcquiresAndLoses_6 :
    ∃ u : Fin 4, ∃ s : State, (s.trafficRuns = true) ∧ ∃ f, (((s.cu u).acq = 6) ∧ ((s.cu u).fmtRx = some f)) ∧ (f.lineMode ≠ 0 ∨
      (s.cu u).rxAligned = true) :=
  ⟨0, modCu 0 (fun c => { c with acq := 6, rxAligned := true }) (live), by decide, fmt, by decide, (Or.inr (by decide))⟩

theorem test_witness_receiveAcquiresAndLoses_7 :
    ∃ u : Fin 4, ∃ freq : Int, ∃ s : State, (s.trafficRuns = true) ∧ ((s.cu u).acq = 7) ∧ (freq.natAbs ≤ 4500000) :=
  ⟨0, 4500000, live, by decide⟩

theorem test_witness_receiveAcquiresAndLoses_8 :
    ∃ u : Fin 4, ∃ freq : Int, ∃ s : State, (s.trafficRuns = true) ∧ ((s.cu u).acq = 7) ∧ (4500000 < freq.natAbs) :=
  ⟨0, 4500001, live, by decide⟩

theorem test_witness_receiveAcquiresAndLoses_9 :
    ∃ u : Fin 4, ∃ s : State, (s.trafficRuns = true) ∧ (1 ≤ (s.cu u).acq) ∧ ((s.cu u).acq ≤ 6) ∧ ((s.cu u).acq = 6 → (s.cu u).hunting
      = false) :=
  ⟨0, modCu 0 (fun c => { c with acq := 6 }) (live), by decide⟩

theorem test_witness_receiveAcquiresAndLoses_10 :
    ∃ u : Fin 4, ∃ level : Int, ∃ s : State, (s.trafficRuns = true) ∧ (1 ≤ (s.cu u).acq) ∧ ((s.cu u).acq ≤ 7) ∧ (level < -100 *
      ((s.cu u).dspRx.losThresh : Int)) :=
  ⟨0, -100000, live, by decide⟩

theorem test_witness_receiveAcquiresAndLoses_11 :
    ∃ u : Fin 4, ∃ level : Int, ∃ s : State, (s.trafficRuns = true) ∧ ((s.cu u).los = true) ∧ (300 - 100 *
      ((s.cu u).dspRx.losThresh : Int) ≤ level) :=
  ⟨0, 0, modCu 0 (fun c => { c with acq := 8, los := true }) (live), by decide⟩

theorem test_witness_receiveAcquiresAndLoses_12 :
    ∃ u : Fin 4, ∃ s : State, (s.hubUp = true) ∧ ((s.cu u).acq = 8) :=
  ⟨0, modCu 0 (fun c => { c with acq := 8 }) (live), by decide⟩

theorem test_witness_receiveAcquiresAndLoses_13 :
    ∃ u : Fin 4, ∃ s : State, (s.trafficRuns = true) ∧ (3 ≤ (s.cu u).acq) ∧ ((s.cu u).acq ≤ 7) :=
  ⟨0, modCu 0 (fun c => { c with acq := 3 }) (live), by decide⟩

theorem test_witness_receiveAcquiresAndLoses_14 :
    ∃ u : Fin 4, ∃ s : State, ((s.trafficRuns = true) ∧ ((s.cu u).acq = 7)) ∧ (4 ≤ (s.cu u).rxTrainFails ∨ 4 ≤ (s.cu u).rxHeaderFails) :=
  ⟨0, modCu 0 (fun c => { c with rxHeaderFails := 4 }) (live), by decide, (Or.inr (by decide))⟩

theorem test_witness_receiveAcquiresAndLoses_15 :
    ∃ u : Nat, ∃ s : State, ((s.cu u).acq = 7) :=
  ⟨0, live, by decide⟩

theorem test_witness_receiveAcquiresAndLoses_16 :
    ∃ u : Nat, ∃ s : State, ((s.cu u).acq ≠ 7) :=
  ⟨1, live, by decide⟩

/-! JoineryAndFeedback -/

theorem test_witness_joineryAndFeedback_1 :
    ∃ p : Fin 4, ∃ s : State, (s.blocksRun = true) ∧ ((s.pair p).joined = false) ∧ (s.pairEligible p = true) ∧ ((s.pair p).steady =
      true) :=
  ⟨0, modPair 0 (fun x => { x with recent := List.replicate 63 4 ++ [0] })
    (modCu 0 (fun c => { c with dspRx := { c.dspRx with nlcMode := 2 }, order := { rank := [0, 1, 0xFF, 0xFF], adj := 1, joinEn := 1 } }) (modCu 1 (fun c => { c with fmtRx := some fmt, acq := 7, dspRx := { c.dspRx with nlcMode := 2 }, order := { rank := [0, 1, 0xFF, 0xFF], adj := 1, joinEn := 1 } }) { live with joinery := { order := { rank := [0, 1, 0xFF, 0xFF], adj := 1, joinEn := 1 } }, domain := { floor := some 0 } })),
    by decide⟩

theorem test_witness_joineryAndFeedback_2 :
    ∃ p : Fin 4, ∃ c : Nat, ∃ s : State, (s.blocksRun = true) ∧ ((s.pair p).joined = true) ∧ (fallbackCause s p = some c) :=
  ⟨0, 3, modPair 0 (fun x => { x with joined := true }) live, by decide⟩

theorem test_witness_joineryAndFeedback_3 :
    ∃ u : Fin 4, ∃ s : State, (s.trafficRuns = true) ∧ ((s.cu u).acq = 7) ∧ ((s.cu u).deep = true) ∧ ((s.cu u).daeSuspended = false) ∧
      (4 ≤ (s.cu u).daeDiscardRun) :=
  ⟨0, modCu 0 (fun c => { c with fmtRx := some { fmt with decoder := 1 }, daeDiscardRun := 4 }) (live), by decide⟩

theorem test_witness_joineryAndFeedback_4 :
    ∃ u : Fin 4, ∃ s : State, (s.trafficRuns = true) ∧ ((s.cu u).acq = 7) ∧ ((s.cu u).deep = true) ∧ ((s.cu u).daeSuspended = true) ∧
      (16 ≤ (s.cu u).daeGoodRun) :=
  ⟨0, modCu 0 (fun c => { c with fmtRx := some { fmt with decoder := 1 }, daeSuspended := true, daeGoodRun := 16 }) (live), by decide⟩

/-! CarrierFramesAndFec -/

theorem test_witness_carrierFramesAndFec_1 :
    ∃ u : Fin 4, ∃ f : Format, ∃ s : State, (s.txRuns u = true) ∧ ((s.cu u).fmtTx = some f) ∧ ((s.cu u).dueTx = none) ∧
      ((s.cu u).txOff = false) ∧ (s.coreRising = false) ∧ (f.lineMode = 0) ∧ (s.muteDue u = true) :=
  ⟨0, fmt, { live with protect := { mirror := { state := 1, muteCu := 1 } } }, by decide⟩

theorem test_witness_carrierFramesAndFec_2 :
    ∃ u : Fin 4, ∃ f : Format, ∃ s : State, (s.txRuns u = true) ∧ ((s.cu u).fmtTx = some f) ∧ ((s.cu u).dueTx = none) ∧
      ((s.cu u).txOff = false) ∧ (s.coreRising = false) ∧ (f.lineMode ≠ 0) :=
  ⟨0, { fmt with lineMode := 1 }, modCu 0 (fun c => { c with fmtTx := some { fmt with lineMode := 1 } }) (live), by decide⟩

theorem test_witness_carrierFramesAndFec_3 :
    ∃ u : Fin 4, ∃ seen : AcfSeen, ∃ f : Format, ∃ s : State, (s.trafficRuns = true) ∧ ((s.cu u).fmtRx = some f) ∧ (f.lineMode = 0) ∧
      ((s.cu u).acq = 6) ∧ ((s.cu u).rxAligned = false) ∧ ((s.cu u).rxVerify = 2) ∧ ((s.cu u).rxHeaderGood = true) ∧ (seen.training =
      true) :=
  ⟨0, ⟨true, 0, none, none, 0⟩, fmt, modCu 0 (fun c => { c with acq := 6, rxVerify := 2, rxHeaderGood := true }) (live), by decide⟩

theorem test_witness_carrierFramesAndFec_4 :
    ∃ u : Fin 4, ∃ f : Format, ∃ s : State, (s.trafficRuns = true) ∧ ((s.cu u).fmtRx = some f) ∧ (f.lineMode = 0) ∧ ((s.cu u).acq = 7)
      ∧ ((s.cu u).dueRx = none) ∧ ((s.cu u).dspRx = (s.cu u).dsp) ∧ ((s.cu u).rxOff = false) :=
  ⟨0, fmt, live, by decide⟩

theorem test_witness_carrierFramesAndFec_5 :
    ∃ u : Fin 4, ∃ w : Decoded, ∃ f : Format, ∃ s : State, (s.trafficRuns = true) ∧ ((s.cu u).acq = 7) ∧ ((s.cu u).fmtRx = some f) ∧
      (w.incomplete = false) ∧ (f.lineMode ≠ 0) :=
  ⟨0, { group := 0, codeword := 0 }, { fmt with lineMode := 1 }, modCu 0
    (fun c => { c with fmtRx := some { fmt with lineMode := 1 } }) (live), by decide⟩

theorem test_witness_carrierFramesAndFec_6 :
    ∃ u : Fin 4, ∃ w : Decoded, ∃ f : Format, ∃ s : State, (s.trafficRuns = true) ∧ ((s.cu u).acq = 7) ∧ ((s.cu u).fmtRx = some f) ∧
      (w.incomplete = false) ∧ (f.lineMode = 0) :=
  ⟨0, { group := 0, codeword := 0 }, fmt, live, by decide⟩

theorem test_witness_carrierFramesAndFec_7 :
    ∃ q : Request, ∃ f : Format, ∃ s : State, (taken 0x0401 q s = true) ∧ (q.u < 4) ∧ ((s.cu q.u).fmt = some f) ∧ (f.lineMode = 0) :=
  ⟨rq 0x0401 [], fmt, live, by decide⟩

theorem test_witness_carrierFramesAndFec_8 :
    ∃ q : Request, ∃ f : Format, ∃ s : State, (taken 0x0401 q s = true) ∧ (q.u < 4) ∧ ((s.cu q.u).fmt = some f) ∧ (f.lineMode ≠ 0) :=
  ⟨rq 0x0401 [], { fmt with lineMode := 1 }, modCu 0 (fun c => { c with fmt := some { fmt with lineMode := 1 } }) (live), by decide⟩

theorem test_witness_carrierFramesAndFec_9 :
    ∃ q : Request, ∃ s : State, (taken 0x0402 q s = true) ∧ (q.u < 4) :=
  ⟨rq 0x0402 [] 3, run, by decide⟩

theorem test_witness_carrierFramesAndFec_10 :
    ∃ q : Request, ∃ s : State, ((taken 0x0403 q s = true) ∧ (q.u < 4) ∧ (q.b 0 ≤ 2) ∧ (q.b 0 = 1 → 2 ≤ q.b 1 ∧ q.b 1 ≤ 12) ∧
      (q.b 0 ≠ 1 → q.b 1 = 0) ∧ (q.h 2 = 0) ∧ (q.b 0 = 2 ↔ q.w 4 ≠ 0) ∧ ((s.cu q.u).txEn = true)) ∧ (∀ f, (s.cu q.u).fmt = some f →
      f.lineMode = 0) ∧ (s.txRuns q.u = true) :=
  ⟨rq 0x0403 [(0, 1), (1, 12)], live, by decide, (by intro f h; cases h; decide), by decide⟩

/-! PicInterruptIsRaisedOnce -/

theorem test_witness_picInterruptIsRaisedOnce_1 :
    ∃ u : Fin 4, ∃ highNs : Nat, ∃ s : State, (s.blocksRun = true) ∧ ((s.calOf u).intArmed = true ∨ 1000 ≤ highNs) :=
  ⟨0, 1000, run, by decide⟩

theorem test_witness_picInterruptIsRaisedOnce_2 :
    ∃ u : Fin 4, ∃ highNs : Nat, ∃ s : State, (s.blocksRun = true) ∧ ((s.calOf u).intArmed = false) ∧ (highNs < 1000) :=
  ⟨0, 999, modCal 0 (fun c => { c with intArmed := false }) (run), by decide⟩

/-! CalibrationAgrees -/

theorem test_witness_calibrationAgrees_1 :
    ∃ u : Fin 5, ∃ s : State, (s.blocksRun = true) ∧ ((s.calOf u).round = false) ∧ ((s.calOf u).fullTx = false) ∧ ((s.calOf u).fullRx
      = false) :=
  ⟨4, run, by decide⟩

theorem test_witness_calibrationAgrees_2 :
    ∃ u : Fin 5, ∃ s : State, (s.blocksRun = true) ∧ (s.fullReady u true = true ∨ s.fullReady u false = true) :=
  ⟨0, modCal 0 (fun c => { c with fullRx := true }) (inState 2 0 0 run), by decide, (.inr (by decide))⟩

theorem test_witness_calibrationAgrees_3 :
    ∃ u : Fin 5, ∃ s : State, (s.blocksRun = true) ∧ ((s.calOf u).fullTx = false) ∧ ((s.calOf u).fullRx = false) ∧ ((s.calOf u).round
      = true) ∧ ((s.calOf u).window = 0) :=
  ⟨0, modCal 0 (fun c => { c with round := true }) (run), by decide⟩

theorem test_witness_calibrationAgrees_4 :
    ∃ u : Fin 5, ∃ s : State, (s.blocksRun = true) ∧ ((s.calOf u).fullTx = false) ∧ ((s.calOf u).fullRx = false) ∧ ((s.calOf u).round
      = true) ∧ ((s.calOf u).window = 1) :=
  ⟨0, modCal 0 (fun c => { c with round := true, window := 1 }) (run), by decide⟩

theorem test_witness_calibrationAgrees_5 :
    ∃ u : Nat, ∃ p : Nat, ∃ i : Nat, ∃ a : Int, ∃ b : Int, ∃ full : Bool, ∃ s : State, ((s.elem u p i).superseded = false) ∧
      ((if full = true then (if txParam p = true then (s.calOf u).fullSupTx else (s.calOf u).fullSupRx) else (s.calOf u).allSuperseded)
      = false) ∧ ((paramOf p).tol < (a - b).natAbs) :=
  ⟨0, 1, 0, 3, 0, true, run, by decide⟩

theorem test_witness_calibrationAgrees_6 :
    ∃ u : Nat, ∃ p : Nat, ∃ i : Nat, ∃ a : Int, ∃ b : Int, ∃ full : Bool, ∃ s : State, ((s.elem u p i).superseded = false) ∧
      ((if full = true then (if txParam p = true then (s.calOf u).fullSupTx else (s.calOf u).fullSupRx) else (s.calOf u).allSuperseded)
      = false) ∧ ((a - b).natAbs ≤ (paramOf p).tol) ∧ (((a + b).tdiv 2) = 0) :=
  ⟨0, 1, 0, 1, -1, false, run, by decide⟩

theorem test_witness_calibrationAgrees_7 :
    ∃ u : Nat, ∃ p : Nat, ∃ i : Nat, ∃ a : Int, ∃ b : Int, ∃ full : Bool, ∃ s : State, ((s.elem u p i).superseded = false) ∧
      ((if full = true then (if txParam p = true then (s.calOf u).fullSupTx else (s.calOf u).fullSupRx) else (s.calOf u).allSuperseded)
      = false) ∧ ((a - b).natAbs ≤ (paramOf p).tol) ∧ (((a + b).tdiv 2) ≠ 0) ∧ ((paramOf p).holds
      ((s.elem u p i).target + ((a + b).tdiv 2)) = true) ∧ (full = true) :=
  ⟨0, 1, 255, 512, 510, true, run, by decide⟩

theorem test_witness_calibrationAgrees_8 :
    ∃ u : Nat, ∃ p : Nat, ∃ i : Nat, ∃ a : Int, ∃ b : Int, ∃ full : Bool, ∃ s : State, ((s.elem u p i).superseded = false) ∧
      ((if full = true then (if txParam p = true then (s.calOf u).fullSupTx else (s.calOf u).fullSupRx) else (s.calOf u).allSuperseded)
      = false) ∧ ((a - b).natAbs ≤ (paramOf p).tol) ∧ (((a + b).tdiv 2) ≠ 0) ∧ ((paramOf p).holds
      ((s.elem u p i).target + ((a + b).tdiv 2)) = false) :=
  ⟨0, 1, 0, 512, 512, false, run, by decide⟩

theorem test_witness_calibrationAgrees_9 :
    ∃ u : Fin 5, ∃ tx : Bool, ∃ s : State, (s.hubUp = true) ∧ (s.fullReady u tx = true) ∧ (u.val < 4) :=
  ⟨3, true, modCal 3 (fun c => { c with fullTx := true }) (inState 1 3 0 run), by decide⟩

theorem test_witness_calibrationAgrees_10 :
    ∃ u : Fin 5, ∃ tx : Bool, ∃ s : State, (s.hubUp = true) ∧ (s.fullReady u tx = true) ∧ (tx = false) ∧ ((s.cu u).rxEn = true) :=
  ⟨0, false, modCal 0 (fun c => { c with fullRx := true }) live, by decide⟩

theorem test_witness_calibrationAgrees_11 :
    ∃ s : State, (s.blocksRun = true) ∧ ((s.dom 8 0).state = 0) ∧ (s.monitor.pair = false) :=
  ⟨inState 8 0 0 run, by decide⟩

theorem test_witness_calibrationAgrees_12 :
    ∃ s : State, (s.blocksRun = true) ∧ ((s.dom 8 0).state = 0) ∧ (s.monitor.pair = true) :=
  ⟨modMonitor (fun m => { m with pair := true }) (inState 8 0 0 run), by decide⟩

theorem test_witness_calibrationAgrees_13 :
    ∃ s : State, ((s.blocksRun = true) ∧ ((s.dom 8 0).state = 0)) ∧ ∃ c, (c ∈ s.stepFree) ∧ ∃ i, (s.injection c = some i) :=
  ⟨setInjection 1 (some { what := ⟨0, 1, 0⟩, slot := none, tracker := none, entry := 0 }) (inState 8 0 0 run), by decide, 1, by
    decide, { what := ⟨0, 1, 0⟩, slot := none, tracker := none, entry := 0 }, by decide⟩

theorem test_witness_calibrationAgrees_14 :
    ∃ s : State, ((s.blocksRun = true) ∧ ((s.dom 8 0).state = 0)) ∧ ∃ c, (c ∉ s.stepFree) :=
  ⟨inState 8 0 0 run, by decide, 2, by decide⟩

/-! CalCommandsComplete -/

theorem test_witness_calCommandsComplete_1 :
    ∃ q : Request, ∃ s : State, (taken 0x0B01 q s = true) ∧ ((elementChecks q).all (fun c => c.1) = true) :=
  ⟨rqn 4 [(0, 1), (1, 255), (3, 1)], run, by decide⟩

theorem test_witness_calCommandsComplete_2 :
    ∃ q : Request, ∃ s : State, ((taken 0x0B02 q s = true) ∧ ((elementChecks q).all (fun c => c.1) = true) ∧
      (q.payload.length = 4 + (q.h 2 + 1) / 2 * 4) ∧ (∀ i < q.h 2, (paramOf (q.b 0)).holds (ifield q.payload (4 + 2 * i) 2) = true) ∧
      (isZero q.payload (4 + 2 * q.h 2) (q.payload.length - (4 + 2 * q.h 2)) = true)) ∧ ∃ i, (i < q.h 2) ∧
      ((fun i => (paramOf (q.b 0)).holds (((forEach ((List.range (q.h 2)).map (fun i => (i, q.b 1 + i))) (fun x s => supersede q.u (q.b 0) x.2 s) (admitted 0x0B02 q s)).elem q.u (q.b 0) (q.b 1 + i)).factory + (fun i => ifield q.payload (4 + 2 * i) 2) i + ((forEach ((List.range (q.h 2)).map (fun i => (i, q.b 1 + i))) (fun x s => supersede q.u (q.b 0) x.2 s) (admitted 0x0B02 q s)).elem q.u (q.b 0) (q.b 1 + i)).inservice))
      i = false) ∧ (∀ j < i,
      (fun i => (paramOf (q.b 0)).holds (((forEach ((List.range (q.h 2)).map (fun i => (i, q.b 1 + i))) (fun x s => supersede q.u (q.b 0) x.2 s) (admitted 0x0B02 q s)).elem q.u (q.b 0) (q.b 1 + i)).factory + (fun i => ifield q.payload (4 + 2 * i) 2) i + ((forEach ((List.range (q.h 2)).map (fun i => (i, q.b 1 + i))) (fun x s => supersede q.u (q.b 0) x.2 s) (admitted 0x0B02 q s)).elem q.u (q.b 0) (q.b 1 + i)).inservice))
      j = true) :=
  ⟨rqn 8 [(0, 1), (3, 1), (4, 1), (5, 0xFF)], modElem 0 1 0 (fun e => { e with factory := 1 }) run, by decide, 0, by decide⟩

theorem test_witness_calCommandsComplete_3 :
    ∃ q : Request, ∃ s : State, (taken 0x0B02 q s = true) ∧ ((elementChecks q).all (fun c => c.1) = true) ∧ (q.payload.length = 4 +
      (q.h 2 + 1) / 2 * 4) ∧ (∀ i < q.h 2, (paramOf (q.b 0)).holds (ifield q.payload (4 + 2 * i) 2) = true) ∧ (isZero q.payload
      (4 + 2 * q.h 2) (q.payload.length - (4 + 2 * q.h 2)) = true) ∧ (∀ i < q.h 2,
      (fun i => (paramOf (q.b 0)).holds (((forEach ((List.range (q.h 2)).map (fun i => (i, q.b 1 + i))) (fun x s => supersede q.u (q.b 0) x.2 s) (admitted 0x0B02 q s)).elem q.u (q.b 0) (q.b 1 + i)).factory + (fun i => ifield q.payload (4 + 2 * i) 2) i + ((forEach ((List.range (q.h 2)).map (fun i => (i, q.b 1 + i))) (fun x s => supersede q.u (q.b 0) x.2 s) (admitted 0x0B02 q s)).elem q.u (q.b 0) (q.b 1 + i)).inservice))
      i = true) :=
  ⟨rqn 8 [(0, 1), (3, 1), (4, 0xFE), (5, 0)], run, by decide⟩

theorem test_witness_calCommandsComplete_4 :
    ∃ q : Request, ∃ s : State, (taken 0x0B02 q s = true) ∧ ((elementChecks q).all (fun c => c.1) = true) ∧ (q.payload.length = 4 +
      (q.h 2 + 1) / 2 * 4) ∧ (∀ i < q.h 2, (paramOf (q.b 0)).holds (ifield q.payload (4 + 2 * i) 2) = true) ∧ (isZero q.payload
      (4 + 2 * q.h 2) (q.payload.length - (4 + 2 * q.h 2)) = true) ∧ (∀ i < q.h 2,
      (fun i => (paramOf (q.b 0)).holds (((forEach ((List.range (q.h 2)).map (fun i => (i, q.b 1 + i))) (fun x s => supersede q.u (q.b 0) x.2 s) (admitted 0x0B02 q s)).elem q.u (q.b 0) (q.b 1 + i)).factory + (fun i => ifield q.payload (4 + 2 * i) 2) i + ((forEach ((List.range (q.h 2)).map (fun i => (i, q.b 1 + i))) (fun x s => supersede q.u (q.b 0) x.2 s) (admitted 0x0B02 q s)).elem q.u (q.b 0) (q.b 1 + i)).inservice))
      i = true) :=
  ⟨rqn 8 [(0, 1), (3, 1), (4, 0xFE), (5, 0)], run, by decide⟩

theorem test_witness_calCommandsComplete_5 :
    ∃ q : Request, ∃ s : State, (taken 0x0B03 q s = true) ∧ (q.u < 5) ∧ (s.security.entropyOk = false) :=
  ⟨rq 0x0B03 [], modSecurity (fun c => { c with entropyOk := false }) run, by decide⟩

/-- The hypothesis left out rests on a value that nothing can evaluate (log entries 3 and 4). -/
theorem test_witness_calCommandsComplete_6 :
    ∃ q : Request, ∃ s : State, (taken 0x0B03 q s = true) ∧ (q.u < 5) ∧ (s.security.entropyOk = true) ∧
      ((match s.calRecord with | some c => u32 (calCopy s c) 8 + 1 | none => 1) ≤ 0xFFFFFFFE) :=
  ⟨rq 0x0B03 [], modSecurity (fun c => { c with entropyOk := true }) run, (by decide +kernel)⟩

theorem test_witness_calCommandsComplete_7 :
    ∃ q : Request, ∃ s : State, (taken 0x0B03 q s = true) ∧ (q.u < 5) ∧ (s.security.entropyOk = true) :=
  ⟨rq 0x0B03 [] 4, modSecurity (fun c => { c with entropyOk := true }) run, by decide⟩

theorem test_witness_calCommandsComplete_8 :
    ∃ q : Request, ∃ s : State, (taken 0x0B03 q s = true) ∧ (q.u < 5) ∧ (s.security.entropyOk = true) :=
  ⟨rq 0x0B03 [], modSecurity (fun c => { c with entropyOk := true }) run, by decide⟩

theorem test_witness_calCommandsComplete_9 :
    ∃ q : Request, ∃ s : State, ((taken 0x0B03 q s = true) ∧ (q.u < 5) ∧ (s.security.entropyOk = true)) ∧ ∃ a, (a < calCopyAt
      (match s.calRecord with | some c => 1 - c | none => 0) ∨ calCopyAt (match s.calRecord with | some c => 1 - c | none => 0) +
      0x10000 ≤ a) :=
  ⟨rq 0x0B03 [], modSecurity (fun c => { c with entropyOk := true }) run, (by decide +kernel), 0, (by decide +kernel)⟩

theorem test_witness_calCommandsComplete_10 :
    ∃ q : Request, ∃ s : State, (taken 0x0B04 q s = true) ∧ (q.u < 5) ∧ (isZero q.payload 1 3 = true) ∧ (q.b 0 = 1) ∧ (q.u < 4 →
      (s.cu q.u).txEn = false ∧ (s.cu q.u).rxEn = false) ∧ (q.u < 4) :=
  ⟨rq 0x0B04 [(0, 1)], run, by decide⟩

theorem test_witness_calCommandsComplete_11 :
    ∃ q : Request, ∃ s : State, ((taken 0x0B04 q s = true) ∧ (q.u < 5) ∧ (isZero q.payload 1 3 = true) ∧ (q.b 0 = 2) ∧
      ((s.calOf q.u).round = false) ∧ ((s.calOf q.u).roundDue = false) ∧ ((s.calOf q.u).fullTx = false) ∧
      ((s.calOf q.u).fullRx = false)) ∧ (q.u = 4 → ((rouseUnit q.u (admitted 0x0B04 q s)).dom 8 0).state = 0) :=
  ⟨rq 0x0B04 [(0, 2)], run, by decide, (fun h => absurd h (by decide))⟩

theorem test_witness_calCommandsComplete_12 :
    ∃ q : Request, ∃ s : State, (taken 0x0B04 q s = true) ∧ (q.u < 5) ∧ (isZero q.payload 1 3 = true) ∧ (q.b 0 = 2) ∧
      ((s.calOf q.u).round = false) ∧ ((s.calOf q.u).roundDue = false) ∧ ((s.calOf q.u).fullTx = false) ∧ ((s.calOf q.u).fullRx =
      false) ∧ (q.u = 4) ∧ (((rouseUnit q.u (admitted 0x0B04 q s)).dom 8 0).state ≠ 0) :=
  ⟨rq 0x0B04 [(0, 2)] 4, run, by decide⟩

theorem test_witness_calCommandsComplete_13 :
    ∃ q : Request, ∃ s : State, (taken 0x0B04 q s = true) ∧ (q.u < 5) ∧ (isZero q.payload 1 3 = true) ∧ (q.b 0 = 2) ∧
      ((s.calOf q.u).round = true ∨ (s.calOf q.u).roundDue = true ∨ (s.calOf q.u).fullTx = true ∨ (s.calOf q.u).fullRx = true) :=
  ⟨rq 0x0B04 [(0, 2)], modCal 0 (fun c => { c with round := true }) (run), by decide⟩

theorem test_witness_calCommandsComplete_14 :
    ∃ q : Request, ∃ s : State, (taken 0x0B05 q s = true) ∧ (q.u < 5) ∧ (q.h 0 < (if q.u = 4 then 8 else 1024)) ∧ (1 ≤ q.h 2) ∧ (q.h 2
      ≤ 3600) ∧ (q.u < 4 → 16 ≤ q.b 4 ∧ q.b 4 ≤ 24 ∧ 16 ≤ q.b 5 ∧ q.b 5 ≤ 26 ∧ 14 ≤ q.b 6 ∧ q.b 6 ≤ 22) ∧ (q.u = 4 → q.b 4 = 0 ∧ q.b 5
      = 0 ∧ q.b 6 = 0) ∧ (q.b 7 = 0) :=
  ⟨rq 0x0B05 [(0, 3), (1, 0xFF), (2, 0x0E), (3, 0x10), (4, 16), (5, 26), (6, 14)], run, by decide⟩

theorem test_witness_calCommandsComplete_15 :
    ∃ q : Request, ∃ s : State, (taken 0x0B06 q s = true) ∧ (q.u < 5) :=
  ⟨rq 0x0B06 [] 4, run, by decide⟩

theorem test_witness_calCommandsComplete_16 :
    ∃ q : Request, ∃ s : State, (taken 0x0B07 q s = true) ∧ (q.u < 4) ∧ (400 ≤ q.h 0) ∧ (q.h 0 ≤ 900) ∧ (q.h 0 % 10 = 0) ∧ (250 ≤ q.h
      2) ∧ (q.h 2 ≤ 750) ∧ (q.h 2 % 10 = 0) ∧ ((rouseUnit q.u (admitted 0x0B07 q s)).txRuns q.u = true) :=
  ⟨rq 0x0B07 (pb 2 0 900 ++ pb 2 2 250), live, by decide⟩

theorem test_witness_calCommandsComplete_17 :
    ∃ q : Request, ∃ s : State, (taken 0x0B07 q s = true) ∧ (q.u < 4) ∧ (400 ≤ q.h 0) ∧ (q.h 0 ≤ 900) ∧ (q.h 0 % 10 = 0) ∧ (250 ≤ q.h
      2) ∧ (q.h 2 ≤ 750) ∧ (q.h 2 % 10 = 0) ∧ ((rouseUnit q.u (admitted 0x0B07 q s)).txRuns q.u = false) :=
  ⟨rq 0x0B07 (pb 2 0 900 ++ pb 2 2 250), run, by decide⟩

theorem test_witness_calCommandsComplete_18 :
    ∃ q : Request, ∃ s : State, (taken 0x0B07 q s = true) ∧ (q.u < 4) ∧ (400 ≤ q.h 0) ∧ (q.h 0 ≤ 900) ∧ (q.h 0 % 10 = 0) ∧ (250 ≤ q.h
      2) ∧ (q.h 2 ≤ 750) ∧ (q.h 2 % 10 = 0) ∧ (s.trafficRuns = true) ∧ ((s.cu q.u).acq = 7) :=
  ⟨rq 0x0B07 (pb 2 0 900 ++ pb 2 2 250), live, by decide⟩

theorem test_witness_calCommandsComplete_19 :
    ∃ q : Request, ∃ s : State, (taken 0x0B07 q s = true) ∧ (q.u < 4) ∧ (400 ≤ q.h 0) ∧ (q.h 0 ≤ 900) ∧ (q.h 0 % 10 = 0) ∧ (250 ≤ q.h
      2) ∧ (q.h 2 ≤ 750) ∧ (q.h 2 % 10 = 0) ∧ ((s.cu q.u).acq ≠ 7) :=
  ⟨rq 0x0B07 (pb 2 0 900 ++ pb 2 2 250), run, by decide⟩

theorem test_witness_calCommandsComplete_20 :
    ∃ q : Request, ∃ s : State, ((taken 0x0B08 q s = true) ∧ (q.u < 4) ∧ (q.b 0 ≤ 3 ∨ q.b 0 = 0xFF) ∧ (q.b 1 = 0) ∧ (q.h 2 ≤ 4095) ∧
      (q.h 4 ≤ 4095) ∧ (q.h 6 = 0)) ∧ ∃ ch, (ch ≤ 3) ∧ (q.b 0 = ch ∨ q.b 0 = 0xFF) ∧ ((s.dom 1 q.u).state ≠ 4) :=
  ⟨rq 0x0B08 ([(0, 0xFF)] ++ pb 2 2 4095), live, by decide, 3, by decide⟩

theorem test_witness_calCommandsComplete_21 :
    ∃ q : Request, ∃ s : State, ((taken 0x0B08 q s = true) ∧ (q.u < 4) ∧ (q.b 0 ≤ 3 ∨ q.b 0 = 0xFF) ∧ (q.b 1 = 0) ∧ (q.h 2 ≤ 4095) ∧
      (q.h 4 ≤ 4095) ∧ (q.h 6 = 0)) ∧ ∃ ch, (ch ≤ 3) ∧ (q.b 0 = ch ∨ q.b 0 = 0xFF) ∧ ((s.dom 1 q.u).state = 4) :=
  ⟨rq 0x0B08 ([(0, 0xFF)] ++ pb 2 2 4095), run, by decide, 3, by decide⟩

theorem test_witness_calCommandsComplete_22 :
    ∃ q : Request, ∃ s : State, ((taken 0x0B08 q s = true) ∧ (q.u < 4) ∧ (q.b 0 ≤ 3 ∨ q.b 0 = 0xFF) ∧ (q.b 1 = 0) ∧ (q.h 2 ≤ 4095) ∧
      (q.h 4 ≤ 4095) ∧ (q.h 6 = 0)) ∧ ∃ ch, (q.b 0 ≤ 3) ∧ (ch ≠ q.b 0) :=
  ⟨rq 0x0B08 [], run, by decide, 1, by decide⟩

theorem test_witness_calCommandsComplete_23 :
    ∃ q : Request, ∃ s : State, (taken 0x0B09 q s = true) ∧ (q.u < 4) ∧ (1 ≤ q.b 0) ∧ (q.b 0 ≤ 49) ∧ (q.b 1 = 0 ∨ q.b 1 = 3) ∧ (q.b 2
      ≤ 2) ∧ (q.b 3 ≤ 252) ∧ (q.payload.length = 4 + (q.b 3 + 3) / 4 * 4) ∧ (isZero q.payload (4 + q.b 3)
      (q.payload.length - (4 + q.b 3)) = true) ∧ (0 < q.b 3) :=
  ⟨rqn 8 [(0, 49), (1, 3), (2, 2), (3, 1), (4, 9)], run, by decide⟩

theorem test_witness_calCommandsComplete_24 :
    ∃ u : Fin 4, ∃ ch : Fin 4, ∃ s : State, (s.hubUp = true) ∧ (s.enabled 1 u = true) ∧ (((s.calOf u).biasOf ch).ramp = 0) :=
  ⟨0, 3, live, by decide⟩

theorem test_witness_calCommandsComplete_25 :
    ∃ u : Fin 4, ∃ ch : Fin 4, ∃ s : State, (s.hubUp = true) ∧ (s.enabled 1 u = true) ∧ (((s.calOf u).biasOf ch).code ≤
      ((s.calOf u).biasOf ch).target) ∧ (((s.calOf u).biasOf ch).ramp ≠ 0) :=
  ⟨0, 3, modCal 0 (fun c => { c with bias := [(3, { code := 5, target := 5, ramp := 4 })] }) live, by decide⟩

theorem test_witness_calCommandsComplete_26 :
    ∃ u : Fin 4, ∃ ch : Fin 4, ∃ s : State, (s.hubUp = true) ∧ (s.enabled 1 u = true) ∧ (((s.calOf u).biasOf ch).target ≤
      ((s.calOf u).biasOf ch).code) ∧ (((s.calOf u).biasOf ch).ramp ≠ 0) :=
  ⟨0, 3, modCal 0 (fun c => { c with bias := [(3, { code := 5, target := 0, ramp := 4 })] }) live, by decide⟩

theorem test_witness_calCommandsComplete_27 :
    ∃ u : Fin 4, ∃ ch : Fin 4, ∃ b : Bias, ∃ s : State, (s.hubUp = true) ∧ (s.enabled 1 u = false) ∧ ((s.dom 1 u).state ≠ 4) ∧
      ((s.calOf u).bias = [(ch.val, b)]) ∧ (b.target = 0) ∧ (b.code ≤ b.ramp) :=
  ⟨0, 3, { code := 3, target := 0, ramp := 4 }, modCal 0 (fun c => { c with bias := [(3, { code := 3, target := 0, ramp := 4 })] })
    (inState 1 0 0 run), by decide⟩

/-! FramerDefects -/

theorem test_witness_framerDefects_1 :
    ∃ u : Nat, ∃ d : Nat, ∃ s : State, (maskDefects (s.mergedHolds u) d ≠ (s.frm u).defects) ∧ ((s.frm u).gather = none) :=
  ⟨0, 1, run, by decide⟩

theorem test_witness_framerDefects_2 :
    ∃ u : Fin 4, ∃ s : State, (s.hubUp = true) ∧ ((s.frm u).state = 3) ∧ (5 ≤ (s.frm u).fasBad) :=
  ⟨0, modFramer 0 (fun f => { f with state := 3, fasBad := 5 }) (run), by decide⟩

theorem test_witness_framerDefects_3 :
    ∃ u : Fin 4, ∃ s : State, (s.hubUp = true) ∧ ((s.frm u).state = 4) ∧ (2 ≤ (s.frm u).fasGood ∨ 3 ≤ (s.frm u).verify) :=
  ⟨0, modFramer 0 (fun f => { f with state := 4, fasGood := 2 }) (run), by decide⟩

theorem test_witness_framerDefects_4 :
    ∃ u : Fin 4, ∃ s : State, (s.hubUp = true) ∧ ((s.frm u).has 1 = true) :=
  ⟨0, modFramer 0 (fun f => { f with defects := 2 }) (run), by decide⟩

theorem test_witness_framerDefects_5 :
    ∃ u : Fin 4, ∃ s : State, (s.hubUp = true) ∧ ((s.frm u).has 2 = true) ∧ ((s.frm u).state = 3) :=
  ⟨0, modFramer 0 (fun f => { f with state := 3, defects := 4 }) (run), by decide⟩

theorem test_witness_framerDefects_6 :
    ∃ u : Fin 4, ∃ s : State, (s.hubUp = true) ∧ ((s.frm u).state = 3) ∧ (5 ≤ (s.frm u).mfasBad) ∧ ((s.frm u).has 0 = false) ∧
      ((s.frm u).has 2 = false) :=
  ⟨0, modFramer 0 (fun f => { f with state := 3, mfasBad := 5 }) (run), by decide⟩

theorem test_witness_framerDefects_7 :
    ∃ u : Fin 4, ∃ s : State, (s.hubUp = true) ∧ ((s.frm u).has 3 = true) ∧ (1 ≤ (s.frm u).mfasRun) :=
  ⟨0, modFramer 0 (fun f => { f with defects := 8, mfasRun := 1 }) (run), by decide⟩

theorem test_witness_framerDefects_8 :
    ∃ u : Fin 4, ∃ s : State, (s.hubUp = true) ∧ ((s.frm u).has 3 = true) ∧ ((s.frm u).has 0 = false) ∧ ((s.frm u).has 2 = false) :=
  ⟨0, modFramer 0 (fun f => { f with defects := 8 }) (run), by decide⟩

theorem test_witness_framerDefects_9 :
    ∃ u : Fin 4, ∃ s : State, (s.hubUp = true) ∧ ((s.frm u).has 4 = true) ∧ ((s.frm u).has 3 = false) :=
  ⟨0, modFramer 0 (fun f => { f with defects := 16 }) (run), by decide⟩

theorem test_witness_framerDefects_10 :
    ∃ u : Fin 4, ∃ bit : Fin 19, ∃ s : State, (s.hubUp = true) ∧ (persistent bit = true) ∧ (persistence bit ≤ tblGet 0 (s.frm u).runs
      (2 * bit.val + b2n ((s.frm u).has bit))) :=
  ⟨0, 14, modFramer 0 (fun f => { f with runs := [(28, 5)] }) (run), by decide⟩

theorem test_witness_framerDefects_11 :
    ∃ u : Fin 4, ∃ m : Nat, ∃ s : State, (s.hubUp = true) ∧ ((s.frm u).gather = some m) ∧ (m = 0) :=
  ⟨0, 0, modFramer 0 (fun f => { f with gather := some 0 }) (run), by decide⟩

theorem test_witness_framerDefects_12 :
    ∃ u : Fin 4, ∃ m : Nat, ∃ s : State, (s.hubUp = true) ∧ ((s.frm u).gather = some m) ∧ (m ≠ 0) :=
  ⟨0, 1, modFramer 0 (fun f => { f with gather := some 1 }) (run), by decide⟩

/-! FramerOverheadIsAccepted -/

theorem test_witness_framerOverheadIsAccepted_1 :
    ∃ u : Fin 4, ∃ s : State, (s.hubUp = true) ∧ (hardFail (s.frm u).defects = false) ∧ ((s.frm u).apsN ≤ (s.frm u).aps.count) ∧
      ((s.frm u).aps.value ≠ (s.frm u).accAps) :=
  ⟨0, modFramer 0 (fun f => { f with aps := ⟨7, 3⟩ }) (run), by decide⟩

theorem test_witness_framerOverheadIsAccepted_2 :
    ∃ u : Fin 4, ∃ s : State, (s.hubUp = true) ∧ (apsLimit (s.frm u) ≤ (s.frm u).apsC) :=
  ⟨0, modFramer 0 (fun f => { f with apsC := 12 }) (run), by decide⟩

theorem test_witness_framerOverheadIsAccepted_3 :
    ∃ u : Fin 4, ∃ s : State, (s.hubUp = true) ∧ (3 ≤ (s.frm u).ttiRun) ∧ ((s.frm u).accTti ≠ some (s.frm u).ttiLast) ∧ (hardFail
      (s.frm u).defects = false) :=
  ⟨0, modFramer 0 (fun f => { f with ttiRun := 3, ttiLast := zeros 64 }) (run), by decide⟩

theorem test_witness_framerOverheadIsAccepted_4 :
    ∃ u : Fin 4, ∃ s : State, (s.hubUp = true) ∧ (s.pathLost u = false) ∧ (3 ≤ (tblGet {} (s.frm u).psi 0).count) :=
  ⟨0, modFramer 0 (fun f => { f with psi := [(0, ⟨0x22, 3⟩)] }) (run), by decide⟩

theorem test_witness_framerOverheadIsAccepted_5 :
    ∃ u : Fin 4, ∃ s : State, (s.hubUp = true) ∧ (3 ≤ (s.frm u).tag.count) ∧ (hardFail (s.frm u).defects = false) :=
  ⟨0, modFramer 0 (fun f => { f with tag := ⟨7, 3⟩ }) (run), by decide⟩

/-! FramesAndFramerCommands -/

theorem test_witness_framesAndFramerCommands_1 :
    ∃ u : Fin 4, ∃ f : Format, ∃ s : State, (s.twinPartner u = false) ∧ (s.twinOf u = none) ∧ (s.txRuns u = true) ∧ ((s.cu u).nativeTx
      = some f) :=
  ⟨0, fmt, live, by decide⟩

theorem test_witness_framesAndFramerCommands_2 :
    ∃ u : Fin 4, ∃ seen : OtuSeen, ∃ f : Format, ∃ s : State, (s.trafficRuns = true) ∧ ((s.cu u).rxEn = true) ∧ ((s.cu u).fmtRx = some
      f) ∧ (f.lineMode = 0) ∧ (seen.valid = false ∨ (s.cu u).acq ≠ 7 ∨ (s.cu u).rxValid = false) :=
  ⟨0, { valid := false }, fmt, live, by decide⟩

theorem test_witness_framesAndFramerCommands_3 :
    ∃ u : Fin 4, ∃ seen : OtuSeen, ∃ f : Format, ∃ s : State, (s.trafficRuns = true) ∧ ((s.cu u).rxEn = true) ∧ ((s.cu u).fmtRx = some
      f) ∧ (f.lineMode = 0) ∧ (seen.valid = true) ∧ ((s.cu u).acq = 7) ∧ ((s.cu u).rxValid = true) ∧ ((s.frm u).n = f.otucN) ∧
      ((s.frm u).state = 3) :=
  ⟨0, {}, fmt, modFramer 0 (fun f => { f with n := 4, state := 3 }) (modCu 0 (fun c => { c with rxValid := true }) (live)), by decide⟩

theorem test_witness_framesAndFramerCommands_4 :
    ∃ u : Fin 4, ∃ seen : OtuSeen, ∃ f : Format, ∃ s : State, (s.trafficRuns = true) ∧ ((s.cu u).rxEn = true) ∧ ((s.cu u).fmtRx = some
      f) ∧ (f.lineMode = 0) ∧ (seen.valid = true) ∧ ((s.cu u).acq = 7) ∧ ((s.cu u).rxValid = true) ∧ ((s.frm u).n = f.otucN) ∧
      ((s.frm u).state = 1 ∨ (s.frm u).state = 2) ∧ ((seen.slices.headD []).take 6 = fas) ∧ ((s.frm u).verify = 0) :=
  ⟨0, { slices := [fas] }, fmt, modFramer 0 (fun f => { f with n := 4 }) (modCu 0 (fun c => { c with rxValid := true }) (live)), by
    decide⟩

theorem test_witness_framesAndFramerCommands_5 :
    ∃ u : Fin 4, ∃ seen : OtuSeen, ∃ f : Format, ∃ s : State, (s.trafficRuns = true) ∧ ((s.cu u).rxEn = true) ∧ ((s.cu u).fmtRx = some
      f) ∧ (f.lineMode = 0) ∧ (seen.valid = true) ∧ ((s.cu u).acq = 7) ∧ ((s.cu u).rxValid = true) ∧ ((s.frm u).n = f.otucN) ∧
      ((s.frm u).state = 1 ∨ (s.frm u).state = 2) ∧ ((seen.slices.headD []).take 6 = fas) ∧ ((s.frm u).verify = 2) ∧ (u8
      (cell (seen.slices.headD []) 1 7 1) 0 = ((s.frm u).candMfas + 1) % 256) :=
  ⟨0, { slices := [fas ++ [0]] }, fmt, modFramer 0 (fun f => { f with n := 4, state := 2, verify := 2, candMfas := 255 })
    (modCu 0 (fun c => { c with rxValid := true }) (live)), by decide⟩

theorem test_witness_framesAndFramerCommands_6 :
    ∃ q : Request, ∃ s : State, (taken 0x0501 q s = true) ∧ (q.u < 4) ∧ (q.b 96 ≤ 3) ∧ (q.b 97 ≤ 1) ∧ (q.h 98 = 0) ∧ (s.native q.u =
      true) :=
  ⟨rq 0x0501 [(96, 3), (97, 1)], live, by decide⟩

theorem test_witness_framesAndFramerCommands_7 :
    ∃ q : Request, ∃ s : State, (taken 0x0502 q s = true) ∧ (q.u < 4) ∧ (2 ≤ q.b 4) ∧ (q.b 4 ≤ 10) ∧ (2 ≤ q.b 5) ∧ (q.b 5 ≤ 10) ∧ (q.h
      6 = 0) ∧ (q.w 8 ≤ 500000000) ∧ (q.w 12 ≤ q.w 8) :=
  ⟨rq 0x0502 ([(4, 10), (5, 2)] ++ pb 4 8 500000000 ++ pb 4 12 500000000) 3, run, by decide⟩

theorem test_witness_framesAndFramerCommands_8 :
    ∃ q : Request, ∃ s : State, (taken 0x0503 q s = true) ∧ (q.u < 4) ∧ (q.b 4 = 0 ∨ (2 ≤ q.b 4 ∧ q.b 4 ≤ 15)) ∧ (isZero q.payload 5 3
      = true) ∧ (s.native q.u = true) :=
  ⟨rq 0x0503 [(4, 15)], live, by decide⟩

theorem test_witness_framesAndFramerCommands_9 :
    ∃ q : Request, ∃ s : State, (taken 0x0504 q s = true) ∧ (q.u < 4) ∧ (q.b 10 ≤ 1) ∧ (q.b 11 = 0) ∧ (s.native q.u = true) :=
  ⟨rq 0x0504 [(10, 1)], live, by decide⟩

theorem test_witness_framesAndFramerCommands_10 :
    ∃ q : Request, ∃ s : State, (taken 0x0505 q s = true) ∧ (q.u < 4) ∧ (q.b 0 ≤ 3) ∧ (isZero q.payload 1 3 = true) ∧ (s.native q.u =
      true) :=
  ⟨rq 0x0505 [(0, 3)], live, by decide⟩

theorem test_witness_framesAndFramerCommands_11 :
    ∃ q : Request, ∃ s : State, (taken 0x0506 q s = true) ∧ (q.u < 4) :=
  ⟨rq 0x0506 [] 3, run, by decide⟩

theorem test_witness_framesAndFramerCommands_12 :
    ∃ q : Request, ∃ s : State, (taken 0x0507 q s = true) ∧ (q.u < 4) ∧ (s.native q.u = false) :=
  ⟨rq 0x0507 [] 3, run, by decide⟩

theorem test_witness_framesAndFramerCommands_13 :
    ∃ q : Request, ∃ s : State, (taken 0x0507 q s = true) ∧ (q.u < 4) ∧ (s.native q.u = true) :=
  ⟨rq 0x0507 [], live, by decide⟩

theorem test_witness_framesAndFramerCommands_14 :
    ∃ q : Request, ∃ s : State, (taken 0x0508 q s = true) ∧ (q.u < 4) ∧ (s.native q.u = false) :=
  ⟨rq 0x0508 [] 3, run, by decide⟩

theorem test_witness_framesAndFramerCommands_15 :
    ∃ q : Request, ∃ s : State, (taken 0x0508 q s = true) ∧ (q.u < 4) ∧ (s.native q.u = true) :=
  ⟨rq 0x0508 [], live, by decide⟩

/-! ClientTrafficFlows -/

theorem test_witness_clientTrafficFlows_1 :
    ∃ c : Fin 64, ∃ s : State, (s.trafficRuns = true) ∧ ((s.clientOf c).kind ≠ 0) ∧ (s.lanesAwake c = false) :=
  ⟨63, modClient 63 (fun c => { c with kind := 1, firstLane := 63, lanes := 1 }) (run), by decide⟩

theorem test_witness_clientTrafficFlows_2 :
    ∃ c : Fin 64, ∃ s : State, (s.trafficRuns = true) ∧ ((s.clientOf c).framed = true) ∧ (s.lanesAwake c = true) :=
  ⟨63, modClient 63 (fun c => { c with kind := 1 }) (run), by decide⟩

theorem test_witness_clientTrafficFlows_3 :
    ∃ c : Fin 64, ∃ link : Fin 4, ∃ s : State, (s.trafficRuns = true) ∧ ((s.clientOf c).kind ≠ 0) ∧ ((s.clientOf c).mode ≠ 4) ∧
      ((s.clientOf c).link = link.val) :=
  ⟨0, 1, modClient 0 (fun c => { c with kind := 1, link := 1 }) (run), by decide⟩

theorem test_witness_clientTrafficFlows_4 :
    ∃ c : Fin 64, ∃ link : Fin 4, ∃ s : State, (s.trafficRuns = true) ∧ ((s.clientOf c).kind ≠ 0) ∧ ((s.clientOf c).mode ≠ 4) ∧
      ((s.clientOf c).link ≠ link.val) :=
  ⟨0, 1, modClient 0 (fun c => { c with kind := 1 }) (run), by decide⟩

theorem test_witness_clientTrafficFlows_5 :
    ∃ c : Fin 64, ∃ out : Bool, ∃ s : State, (s.trafficRuns = true) ∧ ((s.clientOf c).kind ≠ 0) ∧ ((s.clientOf c).mode = 1) ∧
      (s.streamPasses c (b2n out) = false) :=
  ⟨0, false, modClient 0 (fun c => { c with kind := 1, mode := 1 }) (run), by decide⟩

theorem test_witness_clientTrafficFlows_6 :
    ∃ c : Fin 64, ∃ out : Bool, ∃ s : State, (s.trafficRuns = true) ∧ ((s.clientOf c).kind ≠ 0) ∧ ((s.clientOf c).mode = 1) ∧
      (s.streamPasses c (b2n out) = true) ∧ ((s.elasticOf c (b2n out)).discarding = false) ∧ (elasticDepth (s.clientOf c).kind ≤
      (s.elasticOf c (b2n out)).blocks.length + 64) :=
  ⟨0, false, modElastic 0 0 (fun e => { e with blocks := List.replicate 1984 2 })
    (modClient 0 (fun c => { c with kind := 1, mode := 1, link := 1 }) (run)), (by decide +kernel)⟩

theorem test_witness_clientTrafficFlows_7 :
    ∃ c : Fin 64, ∃ out : Bool, ∃ s : State, ((s.trafficRuns = true) ∧ ((s.clientOf c).kind ≠ 0) ∧ ((s.clientOf c).mode = 1) ∧
      (s.streamPasses c (b2n out) = true)) ∧ ∃ b, ∃ r, ((s.elasticOf c (b2n out)).blocks = b :: r) :=
  ⟨0, false, modElastic 0 0 (fun e => { e with blocks := [2] })
    (modClient 0 (fun c => { c with kind := 1, mode := 1, link := 1 }) (run)), by decide, 2, [], by decide⟩

theorem test_witness_clientTrafficFlows_8 :
    ∃ g : Fin 8, ∃ cal : FlexECalendar, ∃ s : State, (s.trafficRuns = true) ∧ ((s.flexeOf g).pending = some cal) :=
  ⟨7, ⟨1, 1, [0], List.replicate 20 255⟩, modFlexe 7 (fun f => { f with pending := some ⟨1, 1, [0], List.replicate 20 255⟩ }) run, by
    decide⟩

theorem test_witness_clientTrafficFlows_9 :
    ∃ t : Fin 256, ∃ s : State, (s.trafficRuns = true) ∧ ((s.trib t).now.kind = 2) ∧ (s.tribFail t = true) :=
  ⟨255, modFramer 0 (fun f => { f with defects := 1 }) <| modTrib 255 (fun t => { t with now := { kind := 2 } }) run, by decide⟩

theorem test_witness_clientTrafficFlows_10 :
    ∃ t : Fin 256, ∃ f : GfpSeen, ∃ s : State, (s.trafficRuns = true) ∧ ((s.trib t).now.kind = 2) ∧ (s.tribFail t = false) ∧
      ((s.trib t).gfp = 0) ∧ (f.chec = 0) :=
  ⟨255, { chec := 0, idle := true }, modFramer 0 (fun f => { f with state := 3, lostTrack := false })
    (modTrib 255 (fun t => { t with now := { kind := 2 }, gfp := 0 }) (live)), (by decide +kernel)⟩

theorem test_witness_clientTrafficFlows_11 :
    ∃ t : Fin 256, ∃ f : GfpSeen, ∃ s : State, (s.trafficRuns = true) ∧ ((s.trib t).now.kind = 2) ∧ (s.tribFail t = false) ∧
      ((s.trib t).gfp = 1) ∧ (f.chec = 0) :=
  ⟨255, { chec := 0, idle := true }, modFramer 0 (fun f => { f with state := 3, lostTrack := false })
    (modTrib 255 (fun t => { t with now := { kind := 2 }, gfp := 1 }) (live)), (by decide +kernel)⟩

theorem test_witness_clientTrafficFlows_12 :
    ∃ t : Fin 256, ∃ f : GfpSeen, ∃ s : State, (s.trafficRuns = true) ∧ ((s.trib t).now.kind = 2) ∧ (s.tribFail t = false) ∧
      ((s.trib t).gfp = 2) ∧ (f.chec = 2) :=
  ⟨255, { chec := 2, idle := true }, modFramer 0 (fun f => { f with state := 3, lostTrack := false })
    (modTrib 255 (fun t => { t with now := { kind := 2 }, gfp := 2 }) (live)), (by decide +kernel)⟩

theorem test_witness_clientTrafficFlows_13 :
    ∃ t : Fin 256, ∃ f : GfpSeen, ∃ s : State, (s.trafficRuns = true) ∧ ((s.trib t).now.kind = 2) ∧ (s.tribFail t = false) ∧
      ((s.trib t).gfp = 2) ∧ (f.chec ≠ 2) ∧ (f.idle = false) ∧ (f.thec = true ∧ f.upi = 1 ∧ f.length ≤
      (s.clientOf (s.trib t).now.client).maxFrame) :=
  ⟨255, { chec := 1, idle := false, length := 1518 }, modClient 0 (fun c => { c with maxFrame := 1518 })
    (modFramer 0 (fun f => { f with state := 3, lostTrack := false }) (modTrib 255 (fun t => { t with now := { kind := 2 }, gfp := 2 }) (live))),
    (by decide +kernel)⟩

theorem test_witness_clientTrafficFlows_14 :
    ∃ t : Fin 256, ∃ f : GfpSeen, ∃ s : State, (s.trafficRuns = true) ∧ ((s.trib t).now.kind = 2) ∧ (s.tribFail t = false) ∧
      ((s.trib t).gfp = 2) ∧ (f.chec ≠ 2) ∧ (f.idle = false) ∧ (f.thec = false ∨ f.upi ≠ 1 ∨
      (s.clientOf (s.trib t).now.client).maxFrame < f.length) :=
  ⟨255, { chec := 1, idle := false, length := 1519 }, modClient 0 (fun c => { c with maxFrame := 1518 })
    (modFramer 0 (fun f => { f with state := 3, lostTrack := false }) (modTrib 255 (fun t => { t with now := { kind := 2 }, gfp := 2 }) (live))),
    (by decide +kernel)⟩

/-! ClientCommandsComplete -/

theorem test_witness_clientCommandsComplete_1 :
    ∃ q : Request, ∃ s : State, (taken 0x0601 q s = true) ∧ (q.u = 0) ∧ (q.b 0 ≤ 63) ∧ (s.clientUsed (q.b 0) = false) ∧ (q.b 1 = 0) ∧
      (isZero q.payload 13 3 = true) :=
  ⟨rq 0x0601 [(0, 63)], run, by decide⟩

theorem test_witness_clientCommandsComplete_2 :
    ∃ q : Request, ∃ s : State, ((taken 0x0601 q s = true) ∧ (q.u = 0) ∧ (q.b 0 ≤ 63) ∧ (s.clientUsed (q.b 0) = false) ∧ (1 ≤ q.b 1) ∧
      (q.b 1 ≤ 5) ∧ (q.b 3 ≤ 1) ∧ (q.b 4 = 4 ∨ (clientAsked q).lanes ≠ 0) ∧ (laneOk (clientAsked q) = true) ∧ (q.b 4 ≤ 4) ∧
      (q.b 4 = 2 → q.b 1 ≤ 3) ∧ (q.b 5 ≤ 3) ∧ (q.b 4 = 3 ∨ q.b 5 = 0) ∧ (64 ≤ q.h 6) ∧ (q.h 6 ≤ 16000) ∧
      (q.w 8 ≤ 131071 ∨ q.w 8 = 0xFFFFFFFF) ∧ (q.b 12 ≤ 1) ∧ (isZero q.payload 13 3 = true)) ∧ (∀ e ∈ s.client.clients, e.1 ≠ q.b 0 →
      lanesOverlap (clientAsked q) e.2 = false ∧ quadClash (clientAsked q) e.2 = false) ∧ (s.zrOk (q.b 0) (clientAsked q) = true) :=
  ⟨rq 0x0601 ([(0, 63), (1, 5), (2, 56), (3, 1), (12, 1)] ++ pb 2 6 16000 ++ pb 4 8 131071), run, by decide,
    (by intro e he; cases he), by decide⟩

theorem test_witness_clientCommandsComplete_3 :
    ∃ q : Request, ∃ f : Format, ∃ s : State, (taken 0x0602 q s = true) ∧ (q.u = 0) ∧ (q.b 1 ≤ 3) ∧ (q.w 4 = 0) ∧ ((s.cu (q.b 1)).fmt
      = some f) ∧ (f.lineMode = 0) ∧ (s.twinPartner (q.b 1) = false) ∧ (q.b 3 ≤ 63) ∧ (q.b 2 = 0) ∧
      ((slotMask (bytesAt q.payload 8 80)) < 2 ^ (20 * f.otucN)) :=
  ⟨rq 0x0602 [(0, 5), (1, 0), (3, 63)], fmt, live, (by decide +kernel)⟩

theorem test_witness_clientCommandsComplete_4 :
    ∃ q : Request, ∃ f : Format, ∃ s : State, ((taken 0x0602 q s = true) ∧ (q.u = 0) ∧ (q.b 1 ≤ 3) ∧ (q.w 4 = 0) ∧
      ((s.cu (q.b 1)).fmt = some f) ∧ (f.lineMode = 0) ∧ (s.twinPartner (q.b 1) = false) ∧ (q.b 3 ≤ 63) ∧
      ((q.b 2 = 1 ∧ (s.clientOf (q.b 3)).mode = 1 ∧ (bitsOf 640 (slotMask (bytesAt q.payload 8 80))).length = gmpSlots (s.clientOf (q.b 3)).kind) ∨ (q.b 2 = 2 ∧ ((s.clientOf (q.b 3)).mode = 0 ∨ (s.clientOf (q.b 3)).mode = 4)))
      ∧ ((s.clientOf (q.b 3)).kind ≠ 0) ∧ ((slotMask (bytesAt q.payload 8 80)) < 2 ^ (20 * f.otucN)) ∧
      ((slotMask (bytesAt q.payload 8 80)) ≠ 0) ∧
      ((s.trib (q.b 0)).set.kind = 0 ∨ (s.trib (q.b 0)).set = ((⟨q.b 1, q.b 2, q.b 3, (slotMask (bytesAt q.payload 8 80))⟩ : Alloc)))
      ∧ (s.slotTaken (q.b 0) (q.b 1) (slotMask (bytesAt q.payload 8 80)) = none)) ∧ ((slotMask (bytesAt q.payload 8 80)).testBit
      (20 * f.otucN - 1) = true → s.secureUnit (q.b 1) = false) :=
  ⟨rq 0x0602 [(2, 2), (8, 1)], fmt, modClient 0 (fun c => { c with kind := 1 }) (modCu 0 (fun c => { c with txEn := false }) live),
    (by decide +kernel), (by intro h; exact absurd h (by decide +kernel))⟩

theorem test_witness_clientCommandsComplete_5 :
    ∃ u : Fin 4, ∃ f : Format, ∃ k : Nat, ∃ s : State, (s.trafficRuns = true) ∧ (s.twinPartner u = false) ∧ (s.twinOf u = none) ∧
      ((s.cu u).nativeTx = some f) ∧ ((s.frm u).txMfas = 0) ∧ ((s.trib k).set.cu = u) :=
  ⟨0, fmt, 7, modCu 0 (fun c => { c with txEn := true }) (live), by decide⟩

theorem test_witness_clientCommandsComplete_6 :
    ∃ q : Request, ∃ s : State, (taken 0x0603 q s = true) ∧ (q.u = 0) ∧ (q.b 0 ≤ 7) ∧ (q.b 1 = 0) ∧ (q.payload.length = 24) ∧ (q.b 3 =
      0) ∧ ((s.flexeOf (q.b 0)).pending ≠ none) :=
  ⟨rqn 24 [(0, 7)], modFlexe 7 (fun f => { f with pending := some ⟨1, 1, [0], List.replicate 20 255⟩ }) run, by decide⟩

theorem test_witness_clientCommandsComplete_7 :
    ∃ q : Request, ∃ s : State, (taken 0x0603 q s = true) ∧ (q.u = 0) ∧ (q.b 0 ≤ 7) ∧ (1 ≤ q.b 1) ∧ (q.b 1 ≤ 16) ∧ (1 ≤ q.b 2) ∧ (q.b
      2 ≤ 3) ∧ (q.payload.length = 24 + q.b 1 * phySlots (q.b 2)) ∧ (q.b 3 = 0) ∧ (1 ≤ q.w 4) ∧ (q.w 4 ≤ 0xFFFFE) ∧ (physOk q (q.b 1)
      s = true) ∧ (∀ i < q.b 1 * phySlots (q.b 2), q.b (24 + i) = 0xFF ∨
      (q.b (24 + i) < 64 ∧ (s.clientOf (q.b (24 + i))).kind ≠ 0 ∧ (s.clientOf (q.b (24 + i))).mode = 4)) ∧
      ((s.flexeOf (q.b 0)).pending ≠ none) :=
  ⟨rqn 44
    ([(0, 7), (1, 1), (2, 1)] ++ pb 4 4 1 ++ (List.range 15).map (fun i => (9 + i, 255)) ++ (List.range 20).map (fun i => (24 + i, 255))),
    modClient 0 (fun c => { c with kind := 1, mode := 2 })
    (modFlexe 7 (fun f => { f with pending := some ⟨1, 1, [0], List.replicate 20 255⟩ }) run), by decide⟩

theorem test_witness_clientCommandsComplete_8 :
    ∃ q : Request, ∃ s : State, (taken 0x0603 q s = true) ∧ (q.u = 0) ∧ (q.b 0 ≤ 7) ∧ (1 ≤ q.b 1) ∧ (q.b 1 ≤ 16) ∧ (1 ≤ q.b 2) ∧ (q.b
      2 ≤ 3) ∧ (q.payload.length = 24 + q.b 1 * phySlots (q.b 2)) ∧ (q.b 3 = 0) ∧ (1 ≤ q.w 4) ∧ (q.w 4 ≤ 0xFFFFE) ∧ (physOk q (q.b 1)
      s = true) ∧ (∀ i < q.b 1 * phySlots (q.b 2), q.b (24 + i) = 0xFF ∨
      (q.b (24 + i) < 64 ∧ (s.clientOf (q.b (24 + i))).kind ≠ 0 ∧ (s.clientOf (q.b (24 + i))).mode = 4)) ∧
      ((s.flexeOf (q.b 0)).pending = none) :=
  ⟨rqn 44
    ([(0, 7), (1, 1), (2, 1)] ++ pb 4 4 1 ++ (List.range 15).map (fun i => (9 + i, 255)) ++ (List.range 20).map (fun i => (24 + i, 255))),
    modClient 0 (fun c => { c with kind := 1, mode := 2 }) (run), by decide⟩

theorem test_witness_clientCommandsComplete_9 :
    ∃ q : Request, ∃ s : State, (taken 0x0604 q s = true) ∧ (q.u = 0) ∧ (q.b 0 ≤ 63) ∧ (q.b 1 ≤ 3) ∧ (keyOk q = true) ∧ (q.h 6 = 0) ∧
      (q.w 8 / 2 ^ 17 % 2 ^ 14 = 0) ∧ ((q.w 8).testBit 31 = true) :=
  ⟨rq 0x0604 ([(1, 3)] ++ pb 4 8 0x80000000), run, by decide⟩

theorem test_witness_clientCommandsComplete_10 :
    ∃ q : Request, ∃ s : State, (taken 0x0604 q s = true) ∧ (q.u = 0) ∧ (q.b 0 ≤ 63) ∧ (q.b 1 ≤ 3) ∧ (keyOk q = true) ∧ (q.h 6 = 0) ∧
      (q.w 8 / 2 ^ 17 % 2 ^ 14 = 0) ∧ ((q.w 8).testBit 31 = false) ∧ (tblGet 0 s.client.classes (q.d 0) = 0 ∧ 4 ≤
      ((s.client.classes.filter (fun e => keyBucket e.1 == keyBucket (q.d 0))).length)) :=
  ⟨rq 0x0604 [], modClients
    (fun c => { c with classes := [(0x000107d700000000, 1), (0x040103cd00000000, 1), (0x0801072600000000, 1), (0x0c01033c00000000, 1)] })
    run, (by decide +kernel)⟩

theorem test_witness_clientCommandsComplete_11 :
    ∃ q : Request, ∃ s : State, ((taken 0x0604 q s = true) ∧ (q.u = 0) ∧ (q.b 0 ≤ 63) ∧ (q.b 1 ≤ 3) ∧ (keyOk q = true) ∧ (q.h 6 = 0) ∧
      (q.w 8 / 2 ^ 17 % 2 ^ 14 = 0) ∧ ((q.w 8).testBit 31 = false)) ∧ (tblGet 0 s.client.classes (q.d 0) ≠ 0 ∨
      ((s.client.classes.filter (fun e => keyBucket e.1 == keyBucket (q.d 0))).length) < 4) :=
  ⟨rq 0x0604 (pb 4 8 131071), run, by decide, (.inr (by decide))⟩

theorem test_witness_clientCommandsComplete_12 :
    ∃ q : Request, ∃ s : State, (taken 0x0605 q s = true) ∧ (q.u < 64) :=
  ⟨rq 0x0605 [] 63, run, by decide⟩

theorem test_witness_clientCommandsComplete_13 :
    ∃ q : Request, ∃ s : State, (taken 0x0606 q s = true) ∧ (q.u < 64) :=
  ⟨rq 0x0606 [] 63, run, by decide⟩

theorem test_witness_clientCommandsComplete_14 :
    ∃ q : Request, ∃ s : State, (taken 0x0606 q s = true) ∧ (0x100 ≤ q.u) ∧ (q.u ≤ 0x1FF) :=
  ⟨rq 0x0606 [] 0x1FF, run, by decide⟩

/-! SchedulerMoments -/

theorem test_witness_schedulerMoments_1 :
    ∃ p : Fin 256, ∃ s : State, (s.trafficRuns = true) ∧ (s.portSlots p = 0) :=
  ⟨255, run, by decide⟩

theorem test_witness_schedulerMoments_2 :
    ∃ p : Fin 256, ∃ s : State, ((s.trafficRuns = true) ∧ (s.portSlots p ≠ 0)) ∧ (∀ e ∈ s.sched.queues, e.2.frames = []) :=
  ⟨0, modTrib 0 (fun t => { t with now := { kind := 2, slots := 1 } }) run, (by decide +kernel), (by intro e he; cases he)⟩

theorem test_witness_schedulerMoments_3 :
    ∃ p : Fin 256, ∃ odd : List OddWord, ∃ i : Nat, ∃ q : Nat, ∃ rotP : Rotation, ∃ rotI : Rotation, ∃ f : StoredFrame, ∃ s : State,
      (s.trafficRuns = true) ∧ ((modPort p (fun x => { x with busy := false }) s).portSlots p ≠ 0) ∧ (demandFor p
      (modPort p (fun x => { x with busy := false }) s) = (modPort p (fun x => { x with busy := false }) s)) ∧
      (((modPort p (fun x => { x with busy := false }) s).dom 9 (p / 32)).state = 0) ∧ (purgeHeads p
      (modPort p (fun x => { x with busy := false }) s) = (modPort p (fun x => { x with busy := false }) s)) ∧
      ((modPort p (fun x => { x with busy := false }) s).portPick p = some (i, q, rotP, rotI)) ∧
      (((modPort p (fun x => { x with busy := false }) s).queue q).frames.head? = some f) ∧
      ((readFrame f.len f.cells odd (modPort p (fun x => { x with busy := false }) s)).1 = 0) :=
  ⟨0, [], 0, 0, { turn := some 0, deficits := [(0, 184)] }, { turn := some 0, deficits := [(0, 184)] }, frame, port,
    (by decide +kernel)⟩

theorem test_witness_schedulerMoments_4 :
    ∃ p : Fin 256, ∃ i : Nat, ∃ q : Nat, ∃ rotP : Rotation, ∃ rotI : Rotation, ∃ f : StoredFrame, ∃ s : State, (s.trafficRuns = true)
      ∧ ((s.portNode p).busy = false) ∧ (s.portSlots p ≠ 0) ∧ (demandFor p s = s) ∧ ((s.dom 9 (p / 32)).state = 0) ∧ (purgeHeads p s =
      s) ∧ (s.portPick p = some (i, q, rotP, rotI)) ∧ ((s.queue q).frames.head? = some f) ∧ ((readFrame f.len f.cells [] s).1 = 0) ∧
      ((s.portNode p).gates ≠ none) :=
  ⟨0, 0, 0, { turn := some 0, deficits := [(0, 184)] }, { turn := some 0, deficits := [(0, 184)] }, frame, modPort 0
    (fun p => { p with gates := some ⟨[(255, 125000)], 0⟩ }) port, (by decide +kernel)⟩

theorem test_witness_schedulerMoments_5 :
    ∃ p : Fin 256, ∃ s : State, ((s.portNode p).busy = true) :=
  ⟨0, modPort 0 (fun p => { p with busy := true }) run, by decide⟩

theorem test_witness_schedulerMoments_6 :
    ∃ p : Nat, ∃ i : Nat, ∃ q : Nat, (q < 131072) ∧ (i < 32768) ∧ (p < 256) :=
  ⟨255, 32767, 131071, by decide⟩

theorem test_witness_schedulerMoments_7 :
    ∃ p : Fin 256, ∃ g : GateList, ∃ s : State, (s.blocksRun = true) ∧ ((s.portNode p).pending = some g) ∧ (g.start ≤
      s.timing.tod.toNs) :=
  ⟨0, ⟨[(255, 125000)], 0⟩, modPort 0 (fun p => { p with pending := some ⟨[(255, 125000)], 0⟩ }) run, by decide⟩

theorem test_witness_schedulerMoments_8 :
    ∃ c : SchedChange, ∃ r : List SchedChange, ∃ s : State, (s.blocksRun = true) ∧ (s.control.mp = .running) ∧ (s.sched.waiting = c ::
      r) ∧ (c.isQueue = false) :=
  ⟨{ entry := 1, isQueue := false, payload := zeros 20 }, [], modSched
    (fun x => { x with waiting := [{ entry := 1, isQueue := false, payload := zeros 20 }] }) run, by decide⟩

theorem test_witness_schedulerMoments_9 :
    ∃ c : SchedChange, ∃ r : List SchedChange, ∃ s : State, (s.blocksRun = true) ∧ (s.control.mp = .running) ∧ (s.sched.waiting = c ::
      r) ∧ (c.isQueue = true) :=
  ⟨{ entry := 1, isQueue := true, payload := zeros 20 }, [], modSched
    (fun x => { x with waiting := [{ entry := 1, isQueue := true, payload := zeros 20 }] }) run, by decide⟩

theorem test_witness_schedulerMoments_10 :
    ∃ c : SchedChange, ∃ r : List SchedChange, ∃ s : State, ((s.blocksRun = true) ∧ (s.control.mp = .running) ∧
      (s.sched.waiting = c :: r)) ∧ ∃ e, (s.control.journal.find? (fun e => e.id == c.entry) = some e) ∧ (e.state = .applying) :=
  ⟨{ entry := 1, isQueue := false, payload := zeros 20 }, [], modControl (fun c => { c with journal := [applying] })
    (modSched (fun x => { x with waiting := [{ entry := 1, isQueue := false, payload := zeros 20 }] }) run), by decide, applying, by
    decide⟩

theorem test_witness_schedulerMoments_11 :
    ∃ k : Fin 8, ∃ s : State, (s.blocksRun = true) ∧ ((s.countUnit (13 + k.val)).records.length + (s.samplingOf k).count ≤ 16384) :=
  ⟨7, run, by decide⟩

/-! SchedCommandsComplete -/

theorem test_witness_schedCommandsComplete_1 :
    ∃ q : Request, ∃ s : State, (taken 0x0701 q s = true) ∧ (q.u = 0) ∧ (q.h 0 ≤ 32767) ∧ (q.b 3 ≤ 1) ∧ (q.b 4 ≤ 7) ∧ (q.b 5 = 0) ∧ (1
      ≤ q.h 6) ∧ (q.h 6 ≤ 4096) ∧ (q.w 8 = 0 ∨ (1000 ≤ q.w 8 ∧ q.w 8 ≤ 3200000000)) ∧ (16008 ≤ q.w 12) ∧ (q.w 12 ≤ 16777216) ∧ (q.b 2
      / 32 = q.h 0 / 4096) ∧ ((s.trib (q.b 2)).set.kind = 2) ∧ ((∃ e ∈ s.sched.queues, e.2.enabled = true ∧ e.2.sub = q.h 0) → q.b 3 =
      1 ∧ (s.sub (q.h 0)).port = q.b 2) ∧ (s.serves 9 (q.h 0 / 4096) = true) :=
  ⟨rq 0x0701 (pb 2 0 32767 ++ [(2, 255), (4, 7)] ++ pb 2 6 4096 ++ pb 4 8 3200000000 ++ pb 4 12 16777216), inState 9 7 0
    (modTrib 255 (fun t => { t with set := { kind := 2 } }) run), by decide⟩

theorem test_witness_schedCommandsComplete_2 :
    ∃ q : Request, ∃ s : State, (taken 0x0701 q s = true) ∧ (q.u = 0) ∧ (q.h 0 ≤ 32767) ∧ (q.b 3 ≤ 1) ∧ (q.b 4 ≤ 7) ∧ (q.b 5 = 0) ∧ (1
      ≤ q.h 6) ∧ (q.h 6 ≤ 4096) ∧ (q.w 8 = 0 ∨ (1000 ≤ q.w 8 ∧ q.w 8 ≤ 3200000000)) ∧ (16008 ≤ q.w 12) ∧ (q.w 12 ≤ 16777216) ∧ (q.b 2
      / 32 = q.h 0 / 4096) ∧ ((s.trib (q.b 2)).set.kind = 2) ∧ ((∃ e ∈ s.sched.queues, e.2.enabled = true ∧ e.2.sub = q.h 0) → q.b 3 =
      1 ∧ (s.sub (q.h 0)).port = q.b 2) ∧ (s.serves 9 (q.h 0 / 4096) = false) :=
  ⟨rq 0x0701 (pb 2 0 32767 ++ [(2, 255), (4, 7)] ++ pb 2 6 4096 ++ pb 4 8 3200000000 ++ pb 4 12 16777216), modTrib 255
    (fun t => { t with set := { kind := 2 } }) run, by decide⟩

theorem test_witness_schedCommandsComplete_3 :
    ∃ q : Request, ∃ s : State, (taken 0x0702 q s = true) ∧ (q.u = 0) ∧ (q.w 0 ≤ 131071) ∧ (q.h 4 ≤ 32767) ∧ (q.b 6 ≤ 7) ∧ (q.b 7 ≤ 3)
      ∧ (q.b 8 ≤ 7) ∧ (q.b 9 = 0) ∧ (1 ≤ q.h 10) ∧ (q.h 10 ≤ 4096) ∧ (q.w 12 = 0 ∨ (1000 ≤ q.w 12 ∧ q.w 12 ≤ 3200000000)) ∧ (16008 ≤
      q.w 16) ∧ (q.w 16 ≤ 16777216) ∧ (16 ≤ q.w 20) ∧ (q.w 20 ≤ 33554432) ∧ ((q.b 7).testBit 1 = true → 1000 ≤ q.w 24 ∧ q.w 24 ≤
      3200000000 ∧ 16008 ≤ q.w 28 ∧ q.w 28 ≤ 16777216) ∧ ((q.b 7).testBit 1 = false → q.w 24 = 0 ∧ q.w 28 = 0) ∧ ((q.b 7).testBit 0 =
      true → q.h 4 / 4096 = q.w 0 / 16384 ∧ (s.sub (q.h 4)).enabled = true ∧
      ((s.queue (q.w 0)).frames = [] ∨ ((s.queue (q.w 0)).sub = q.h 4 ∧ (s.queue (q.w 0)).cls = q.b 6))) ∧ (s.serves 9 (q.w 0 / 16384)
      = true) :=
  ⟨rq 0x0702
    (pb 4 0 131071 ++ [(6, 7), (7, 2), (8, 7)] ++ pb 2 10 1 ++ pb 4 12 1000 ++ pb 4 16 16008 ++ pb 4 20 16 ++ pb 4 24 1000 ++ pb 4 28 16008),
    inState 9 7 0 (modTrib 255 (fun t => { t with set := { kind := 2 } }) run), by decide⟩

theorem test_witness_schedCommandsComplete_4 :
    ∃ q : Request, ∃ s : State, (taken 0x0702 q s = true) ∧ (q.u = 0) ∧ (q.w 0 ≤ 131071) ∧ (q.h 4 ≤ 32767) ∧ (q.b 6 ≤ 7) ∧ (q.b 7 ≤ 3)
      ∧ (q.b 8 ≤ 7) ∧ (q.b 9 = 0) ∧ (1 ≤ q.h 10) ∧ (q.h 10 ≤ 4096) ∧ (q.w 12 = 0 ∨ (1000 ≤ q.w 12 ∧ q.w 12 ≤ 3200000000)) ∧ (16008 ≤
      q.w 16) ∧ (q.w 16 ≤ 16777216) ∧ (16 ≤ q.w 20) ∧ (q.w 20 ≤ 33554432) ∧ ((q.b 7).testBit 1 = true → 1000 ≤ q.w 24 ∧ q.w 24 ≤
      3200000000 ∧ 16008 ≤ q.w 28 ∧ q.w 28 ≤ 16777216) ∧ ((q.b 7).testBit 1 = false → q.w 24 = 0 ∧ q.w 28 = 0) ∧ ((q.b 7).testBit 0 =
      true → q.h 4 / 4096 = q.w 0 / 16384 ∧ (s.sub (q.h 4)).enabled = true ∧
      ((s.queue (q.w 0)).frames = [] ∨ ((s.queue (q.w 0)).sub = q.h 4 ∧ (s.queue (q.w 0)).cls = q.b 6))) ∧ (s.serves 9 (q.w 0 / 16384)
      = false) :=
  ⟨rq 0x0702
    (pb 4 0 131071 ++ [(6, 7), (7, 2), (8, 7)] ++ pb 2 10 1 ++ pb 4 12 1000 ++ pb 4 16 16008 ++ pb 4 20 16 ++ pb 4 24 1000 ++ pb 4 28 16008),
    run, by decide⟩

theorem test_witness_schedCommandsComplete_5 :
    ∃ q : Request, ∃ s : State, (taken 0x0703 q s = true) ∧ (q.u = 0) ∧ (q.b 1 = 0) ∧ (q.h 2 ≤ 1024) ∧ (q.payload.length = 16 + 4 *
      q.h 2) ∧ ((gateEntries q (q.h 2)).foldl (fun a e => a + e.2) 0 ≤ 125000000) ∧ (∀ e ∈ (gateEntries q (q.h 2)), e.2 ≠ 0) ∧ (q.w 10
      < billion) ∧ (q.w 10 % 8 = 0) ∧ (s.timing.tod.toNs + 1000000 ≤ (field q.payload 4 6 * billion + q.w 10)) ∧ (q.h 14 = 0) ∧
      (s.serves 9 (q.b 0 / 32) = true) :=
  ⟨rqn 20 ([(0, 255)] ++ pb 2 2 1 ++ pb 4 10 1000000 ++ [(16, 1)] ++ pb 3 17 125000000), inState 9 7 0
    (modTrib 255 (fun t => { t with set := { kind := 2 } }) run), by decide⟩

theorem test_witness_schedCommandsComplete_6 :
    ∃ q : Request, ∃ s : State, (taken 0x0704 q s = true) ∧ (q.u < 256) ∧ (s.serves 9 (q.u / 32) = true) :=
  ⟨rq 0x0704 [] 255, inState 9 7 0 (modTrib 255 (fun t => { t with set := { kind := 2 } }) run), by decide⟩

theorem test_witness_schedCommandsComplete_7 :
    ∃ q : Request, ∃ s : State, (taken 0x0705 q s = true) ∧ (q.u = 0) ∧ (q.w 0 ≤ 131071) ∧ (s.serves 9 (q.w 0 / 16384) = true) :=
  ⟨rq 0x0705 (pb 4 0 131071), inState 9 7 0 (modTrib 255 (fun t => { t with set := { kind := 2 } }) run), by decide⟩

theorem test_witness_schedCommandsComplete_8 :
    ∃ q : Request, ∃ s : State, (taken 0x0706 q s = true) ∧ (q.u = 0) ∧ (q.b 0 ≤ 7) ∧ (isZero q.payload 1 3 = true) ∧ (q.w 4 / 16384 =
      q.b 0) ∧ (q.w 8 ≤ 16384) ∧ (q.w 4 % 16384 + q.w 8 ≤ 16384) ∧ (q.w 8 * 1000000 ≤ 1048576 * q.w 12) ∧ (10 ≤ q.w 12) ∧ (q.w 12 ≤
      1000000) ∧ (1000000 % q.w 12 = 0) ∧ (s.serves 9 (q.b 0) = true) :=
  ⟨rq 0x0706 ([(0, 7)] ++ pb 4 4 114688 ++ pb 4 8 10 ++ pb 4 12 10), inState 9 7 0
    (modTrib 255 (fun t => { t with set := { kind := 2 } }) run), by decide⟩

theorem test_witness_schedCommandsComplete_9 :
    ∃ q : Request, ∃ s : State, (taken 0x0707 q s = true) ∧ (q.u = 0) ∧ (isZero q.payload 1 3 = true) ∧ (q.b 0 = 0) ∧ (q.w 4 < 131072) :=
  ⟨rq 0x0707 (pb 4 4 131071), run, by decide⟩

theorem test_witness_schedCommandsComplete_10 :
    ∃ q : Request, ∃ s : State, (taken 0x0707 q s = true) ∧ (q.u = 0) ∧ (isZero q.payload 1 3 = true) ∧ (q.b 0 = 1) ∧ (q.w 4 < 32768) :=
  ⟨rq 0x0707 ([(0, 1)] ++ pb 4 4 32767), run, by decide⟩

theorem test_witness_schedCommandsComplete_11 :
    ∃ q : Request, ∃ s : State, (taken 0x0707 q s = true) ∧ (q.u = 0) ∧ (isZero q.payload 1 3 = true) ∧ (q.b 0 = 2) ∧ (q.w 4 < 256) :=
  ⟨rq 0x0707 ([(0, 2)] ++ pb 4 4 255), run, by decide⟩

/-! MemoryMoments -/

theorem test_witness_memoryMoments_1 :
    ∃ k : Fin 4, ∃ odd : Option WordSeen, ∃ s : State, (s.blocksRun = true) ∧ ((s.dom 4 k).state = 0) ∧ ((s.stack k).retraining =
      false) ∧ (odd = some .uncorrectable) ∧ ((s.stack k).failed = false) ∧ (∀ e ∈ (s.stack k).clamp, e.word ≠ (s.stack k).planer) :=
  ⟨0, some .uncorrectable, inState 4 0 0 run, by decide⟩

theorem test_witness_memoryMoments_2 :
    ∃ k : Fin 4, ∃ e : ClampEntry, ∃ r : List ClampEntry, ∃ s : State, (s.blocksRun = true) ∧ ((s.stack k).retraining = false) ∧
      ((s.stack k).clamp = e :: r) ∧ (e.mask = 0xFFFF) :=
  ⟨0, ⟨3, 0xFFFF, zeros 64⟩, [], modStack 0 (fun x => { x with clamp := [⟨3, 0xFFFF, zeros 64⟩] }) (run), by decide⟩

theorem test_witness_memoryMoments_3 :
    ∃ k : Fin 4, ∃ s : State, (s.blocksRun = true) ∧ ((s.stack k).bucket < (s.stack k).thresh) :=
  ⟨0, modStack 0 (fun x => { x with bucket := 63 }) (run), by decide⟩

theorem test_witness_memoryMoments_4 :
    ∃ k : Fin 4, ∃ s : State, (s.blocksRun = true) ∧ ((s.stack k).thresh ≤ (s.stack k).bucket) :=
  ⟨0, modStack 0 (fun x => { x with bucket := 64 }) (run), by decide⟩

theorem test_witness_memoryMoments_5 :
    ∃ k : Fin 4, ∃ s : State, (s.blocksRun = true) ∧ ((s.stack k).failed = false) :=
  ⟨3, run, by decide⟩

theorem test_witness_memoryMoments_6 :
    ∃ k : Fin 4, ∃ s : State, (s.blocksRun = true) ∧ ((s.stack k).retraining = true) ∧ ((s.stack k).fails < 2) :=
  ⟨0, modStack 0 (fun x => { x with retraining := true, fails := 1 }) (run), by decide⟩

theorem test_witness_memoryMoments_7 :
    ∃ k : Fin 4, ∃ s : State, (s.blocksRun = true) ∧ ((s.stack k).retraining = true) ∧ (2 ≤ (s.stack k).fails) ∧ ((s.stack k).failed =
      false) :=
  ⟨0, modStack 0 (fun x => { x with retraining := true, fails := 2 }) (run), by decide⟩

theorem test_witness_memoryMoments_8 :
    ∃ k : Fin 4, ∃ qs : List Nat, ∃ s : State, (s.blocksRun = true) ∧ ((s.stack k).audit = some qs) :=
  ⟨0, [0], modStack 0 (fun x => { x with audit := some [0] }) (run), by decide⟩

/-! MemoryCommandsComplete -/

theorem test_witness_memoryCommandsComplete_1 :
    ∃ q : Request, ∃ s : State, (taken 0x0801 q s = true) ∧ (q.u = 0) ∧ (q.b 0 ≤ 3 ∨ q.b 0 = 0xFF) ∧ (isZero q.payload 1 3 = true) ∧
      (1024 ≤ q.w 4) ∧ (q.w 4 ≤ 16777216) ∧ (1 ≤ q.h 8) ∧ (q.h 8 ≤ 65000) ∧ (1 ≤ q.h 10) ∧ (q.h 10 ≤ 65535) ∧ (∀ k ∈
      (if q.b 0 = 0xFF then [0, 1, 2, 3] else [q.b 0]), s.serves 4 k = true) :=
  ⟨rq 0x0801 ([(0, 0xFF)] ++ pb 4 4 16777216 ++ pb 2 8 65000 ++ pb 2 10 65535), inState 4 0 0
    (inState 4 1 0 (inState 4 2 0 (inState 4 3 0 run))), by decide⟩

theorem test_witness_memoryCommandsComplete_2 :
    ∃ q : Request, ∃ s : State, (taken 0x0802 q s = true) ∧ (q.u < 4) ∧ (s.serves 4 q.u = true) ∧
      (((withStacks 0x0802 [q.u] q s).stack q.u).audit = none) :=
  ⟨rq 0x0802 [] 3, inState 4 3 0 run, by decide⟩

theorem test_witness_memoryCommandsComplete_3 :
    ∃ q : Request, ∃ s : State, (taken 0x0802 q s = true) ∧ (q.u < 4) ∧ (s.serves 4 q.u = true) ∧
      (((withStacks 0x0802 [q.u] q s).stack q.u).audit ≠ none) :=
  ⟨rq 0x0802 [] 3, modStack 3 (fun x => { x with audit := some [0] }) (inState 4 3 0 run), by decide⟩

theorem test_witness_memoryCommandsComplete_4 :
    ∃ q : Request, ∃ s : State, (taken 0x0803 q s = true) ∧ (q.u < 4) ∧ (1 ≤ q.b 4) ∧ (q.b 4 ≤ 64) ∧ (isZero q.payload 5 3 = true) ∧
      (s.serves 4 q.u = true) :=
  ⟨rq 0x0803 [(4, 64)] 3, inState 4 3 0 run, by decide⟩

theorem test_witness_memoryCommandsComplete_5 :
    ∃ q : Request, ∃ s : State, (taken 0x0804 q s = true) ∧ (q.u < 4) ∧ ((s.stack q.u).retraining = true) :=
  ⟨rq 0x0804 [], modStack 0 (fun x => { x with retraining := true }) (run), by decide⟩

theorem test_witness_memoryCommandsComplete_6 :
    ∃ q : Request, ∃ s : State, (taken 0x0804 q s = true) ∧ (q.u < 4) ∧ ((s.stack q.u).retraining = false) ∧ (s.serves 4 q.u = true) :=
  ⟨rq 0x0804 [], inState 4 0 0 run, by decide⟩

theorem test_witness_memoryCommandsComplete_7 :
    ∃ q : Request, ∃ s : State, (taken 0x0804 q s = true) ∧ (q.u < 4) ∧ ((s.stack q.u).retraining = false) ∧ (s.serves 4 q.u = false) :=
  ⟨rq 0x0804 [], run, by decide⟩

theorem test_witness_memoryCommandsComplete_8 :
    ∃ q : Request, ∃ s : State, (taken 0x0805 q s = true) ∧ (q.u < 4) ∧ (1 ≤ q.b 0) ∧ (q.b 0 ≤ 16) ∧ (q.payload.length = 4 + 4 * q.b
      0) ∧ (isZero q.payload 1 3 = true) ∧ (∀ w ∈ shimWords q, w < spareBase) ∧ ((shimWords q).Nodup) ∧ (s.stackHolds q.u = false) ∧
      ((s.stack q.u).freeSpares.length < q.b 0) :=
  ⟨rqn 8 ([(0, 1)] ++ pb 4 4 0x1FFFFFEF), modStack 0 (fun x => { x with retired := List.range 16 }) (run), by decide⟩

theorem test_witness_memoryCommandsComplete_9 :
    ∃ q : Request, ∃ s : State, (taken 0x0805 q s = true) ∧ (q.u < 4) ∧ (1 ≤ q.b 0) ∧ (q.b 0 ≤ 16) ∧ (q.payload.length = 4 + 4 * q.b
      0) ∧ (isZero q.payload 1 3 = true) ∧ (∀ w ∈ shimWords q, w < spareBase) ∧ ((shimWords q).Nodup) ∧ (s.stackHolds q.u = false) ∧
      (q.b 0 ≤ (s.stack q.u).freeSpares.length) ∧ (s.serves 4 q.u = true) :=
  ⟨rqn 8 ([(0, 1)] ++ pb 4 4 0x1FFFFFEF), inState 4 0 0 run, by decide⟩

theorem test_witness_memoryCommandsComplete_10 :
    ∃ q : Request, ∃ s : State, (taken 0x0806 q s = true) ∧ (q.u < 4) :=
  ⟨rq 0x0806 [] 3, run, by decide⟩

/-! TwinCopiesMerge -/

theorem test_witness_twinCopiesMerge_1 :
    ∃ g : Fin 2, ∃ k : Fin 2, ∃ f : CopyFrame, ∃ s : State, (s.trafficRuns = true) ∧ ((s.twin g).enabled = true) ∧
      ((s.frm (if k.val = 0 then (s.twin g).home else (s.twin g).partner)).copy = some f) ∧ (((s.twin g).copy k).state = 0) :=
  ⟨0, 0, { seq := some 5, slices := [] }, modTwin 0 (fun t => { t with enabled := true, home := 0, partner := 1 })
    (modFramer 0 (fun f => { f with copy := some { seq := some 5, slices := [] } }) (live)), by decide⟩

theorem test_witness_twinCopiesMerge_2 :
    ∃ g : Fin 2, ∃ k : Fin 2, ∃ f : CopyFrame, ∃ s : State, ((s.trafficRuns = true) ∧ ((s.twin g).enabled = true) ∧
      ((s.frm (if k.val = 0 then (s.twin g).home else (s.twin g).partner)).copy = some f)) ∧ ∃ q, (((s.twin g).copy k).state ≠ 0) ∧
      (f.seq = some q) ∧ ((s.twin g).passed q = true) :=
  ⟨0, 0, { seq := some 4, slices := [] }, modTwin 0
    (fun t => { t with enabled := true, home := 0, partner := 1, a := { state := 3 }, next := some (5, 0) })
    (modFramer 0 (fun f => { f with copy := some { seq := some 4, slices := [] } }) (live)), by decide, 4, by decide⟩

theorem test_witness_twinCopiesMerge_3 :
    ∃ g : Fin 2, ∃ k : Fin 2, ∃ f : CopyFrame, ∃ s : State, ((s.trafficRuns = true) ∧ ((s.twin g).enabled = true) ∧
      ((s.frm (if k.val = 0 then (s.twin g).home else (s.twin g).partner)).copy = some f)) ∧ ∃ q, (((s.twin g).copy k).state ≠ 0) ∧
      (f.seq = some q) ∧ ((s.twin g).passed q = false) :=
  ⟨0, 0, { seq := some 5, slices := [] }, modTwin 0
    (fun t => { t with enabled := true, home := 0, partner := 1, a := { state := 3 }, next := some (5, 0) })
    (modFramer 0 (fun f => { f with copy := some { seq := some 5, slices := [] } }) (live)), by decide, 5, by decide⟩

theorem test_witness_twinCopiesMerge_4 :
    ∃ g : Fin 2, ∃ k : Fin 2, ∃ f : CopyFrame, ∃ s : State, ((s.trafficRuns = true) ∧ ((s.twin g).enabled = true) ∧
      ((s.frm (if k.val = 0 then (s.twin g).home else (s.twin g).partner)).copy = some f)) ∧ ∃ q, ((((s.twin g).copy k).state ≠ 0) ∧
      (f.seq = some q)) ∧ ∃ l, ∃ at_, (((s.twin g).copy k).state = 1) ∧ (((s.twin g).copy k).last = some (l, at_)) ∧ (q = l + 1) ∧
      (((s.twin g).copy k).verified = 2) ∧ (((s.twin g).copy (1 - k.val)).last = none) ∧ ((s.twin g).next = none) :=
  ⟨0, 0, { seq := some 5, slices := [] }, modTwin 0
    (fun t => { t with enabled := true, home := 0, partner := 1, a := { state := 1, last := some (4, 0), verified := 2 } })
    (modFramer 0 (fun f => { f with copy := some { seq := some 5, slices := [] } }) (live)), by decide, 5, by decide, 4, 0, by decide⟩

theorem test_witness_twinCopiesMerge_5 :
    ∃ g : Fin 2, ∃ errs : List (Nat × Nat), ∃ q : Word32, ∃ due : Nat, ∃ s : State, ((s.trafficRuns = true) ∧
      ((s.twin g).enabled = true) ∧ ((s.twin g).next = some (q, due)) ∧ ((s.twin g).stopped = false)) ∧ (∀ e ∈ errs, e.1 < 256) ∧ (∀ e
      ∈ s.client.tribs, e.1 < 256) :=
  ⟨0, [], 5, 0, modTwin 0 (fun t => { t with enabled := true, home := 0, partner := 1, stopped := false, next := some (5, 0) })
    (live), by decide, (by intro e he; cases he), by decide⟩

/-! MirrorInterlock -/

theorem test_witness_mirrorInterlock_1 :
    ∃ s : State, (s.trafficRuns = true) ∧ (s.mirIn = false) ∧ (s.protect.mirror.state = 1) ∧ (s.protect.mirror.holdoff = false) :=
  ⟨modMirror (fun m => { m with state := 1 })
    ({ live with pins := { resetN := true, vddIo := true, tamperIn := false, mirActIn := false } }), by decide⟩

theorem test_witness_mirrorInterlock_2 :
    ∃ s : State, (s.trafficRuns = true) ∧ (s.protect.mirror.state = 2) ∧ (s.protect.mirror.tieSample = false) ∧ (s.mirIn = false) :=
  ⟨modMirror (fun m => { m with state := 2 })
    ({ live with pins := { resetN := true, vddIo := true, tamperIn := false, mirActIn := false } }), by decide⟩

theorem test_witness_mirrorInterlock_3 :
    ∃ s : State, (s.trafficRuns = true) ∧ (s.protect.mirror.state = 2) ∧ (s.protect.mirror.tieSample = false) ∧ (s.mirIn = true) ∧
      (s.sill.straps.tie = true) :=
  ⟨modMirror (fun m => { m with state := 2 })
    ({ live with sill := { suppliesValid := true, hold := .released, stage := .run, straps := { tie := true } } }), by decide⟩

theorem test_witness_mirrorInterlock_4 :
    ∃ s : State, (s.trafficRuns = true) ∧ (s.protect.mirror.state = 2) ∧ (s.protect.mirror.tieSample = false) ∧ (s.mirIn = true) ∧
      (s.sill.straps.tie = false) :=
  ⟨modMirror (fun m => { m with state := 2 }) (live), by decide⟩

theorem test_witness_mirrorInterlock_5 :
    ∃ s : State, (s.trafficRuns = true) ∧ (s.protect.mirror.state = 2) ∧ (s.protect.mirror.tieSample = true) ∧ (s.mirIn = false) :=
  ⟨modMirror (fun m => { m with state := 2, tieSample := true })
    ({ live with pins := { resetN := true, vddIo := true, tamperIn := false, mirActIn := false } }), by decide⟩

theorem test_witness_mirrorInterlock_6 :
    ∃ s : State, (s.trafficRuns = true) ∧ (s.protect.mirror.state = 2) ∧ (s.protect.mirror.tieSample = true) ∧ (s.mirIn = true) :=
  ⟨modMirror (fun m => { m with state := 2, tieSample := true }) (live), by decide⟩

theorem test_witness_mirrorInterlock_7 :
    ∃ s : State, (s.trafficRuns = true) ∧ (s.allLost = true) ∧ (s.protect.mirror.state = 3) ∧ (s.protect.mirror.releasing = none) ∧
      (s.protect.mirror.releaseMask.testBit 2 = true) :=
  ⟨modMirror (fun m => { m with state := 3, releaseMask := 4 }) (modCu 0 (fun c => { c with los := true }) (live)), by decide⟩

theorem test_witness_mirrorInterlock_8 :
    ∃ c : Nat, ∃ s : State, (s.protect.mirror.releasing = some c) ∧ (s.protect.mirror.state = 3) :=
  ⟨2, modMirror (fun m => { m with state := 3, releasing := some 2 }) (live), by decide⟩

theorem test_witness_mirrorInterlock_9 :
    ∃ p : Nat, ∃ s : State, (s.trafficRuns = true) ∧ (s.bracePort = some p) ∧ (s.braceTrained = true) :=
  ⟨7, modTenon 7 (fun t => { t with role := 7, state := 3 }) run, by decide⟩

theorem test_witness_mirrorInterlock_10 :
    ∃ s : State, (s.blocksRun = true) ∧ (s.braceTrained = true) :=
  ⟨modTenon 7 (fun t => { t with role := 7, state := 3 }) run, by decide⟩

theorem test_witness_mirrorInterlock_11 :
    ∃ p : Nat, ∃ s : State, (s.blocksRun = true) ∧ (s.bracePort = some p) :=
  ⟨7, modTenon 7 (fun t => { t with role := 7, state := 3 }) run, by decide⟩

theorem test_witness_mirrorInterlock_12 :
    ∃ s : State, (s.blocksRun = true) ∧ (8 ≤ s.protect.mirror.missed) ∧ (s.protect.mirror.brace = true) :=
  ⟨modMirror (fun m => { m with missed := 8, brace := true }) (live), by decide⟩

/-! ProtectCommandsComplete -/

theorem test_witness_protectCommandsComplete_1 :
    ∃ q : Request, ∃ s : State, (taken 0x0F01 q s = true) ∧ (q.u = 0) ∧ (q.b 0 ≤ 1) ∧ (q.b 1 ≤ 3) ∧ (q.b 2 ≤ 3) ∧ (q.b 2 ≠ q.b 1) ∧ (4
      ≤ q.b 4) ∧ (q.b 4 ≤ 64) ∧ (q.b 5 ≤ 1) ∧ (100 ≤ q.h 6) ∧ (q.h 6 ≤ 8000) ∧ (q.b 8 ≤ 1) ∧ (isZero q.payload 9 3 = true) ∧ (q.b 3 =
      0) :=
  ⟨rq 0x0F01 ([(0, 1), (1, 3), (4, 4)] ++ pb 2 6 100), run, by decide⟩

theorem test_witness_protectCommandsComplete_2 :
    ∃ q : Request, ∃ s : State, ((taken 0x0F01 q s = true) ∧ (q.u = 0) ∧ (q.b 0 ≤ 1) ∧ (q.b 1 ≤ 3) ∧ (q.b 2 ≤ 3) ∧ (q.b 2 ≠ q.b 1) ∧
      (4 ≤ q.b 4) ∧ (q.b 4 ≤ 64) ∧ (q.b 5 ≤ 1) ∧ (100 ≤ q.h 6) ∧ (q.h 6 ≤ 8000) ∧ (q.b 8 ≤ 1) ∧ (isZero q.payload 9 3 = true)) ∧ ∃ x,
      ∃ y, ((q.b 3 = 1) ∧ ((s.cu (q.b 1)).fmt = some x) ∧ ((s.cu (q.b 2)).fmt = some y) ∧ (x.lineMode = 0) ∧ (y.lineMode = 0) ∧
      (x.otucN = y.otucN)) ∧ ((s.twin (1 - q.b 0)).enabled = true → ∀ u ∈ [(s.twin (1 - q.b 0)).home, (s.twin (1 - q.b 0)).partner], u
      ≠ q.b 1 ∧ u ≠ q.b 2) ∧ (s.hasTribs (max (q.b 1) (q.b 2)) = false) ∧ ((s.twin (q.b 0)).enabled = true) ∧ ((s.twin (q.b 0)).home =
      min (q.b 1) (q.b 2)) ∧ ((s.twin (q.b 0)).partner = max (q.b 1) (q.b 2)) ∧ ((s.twin (q.b 0)).guard_ = q.b 4) ∧
      ((s.twin (q.b 0)).depthUs = q.h 6) :=
  ⟨rq 0x0F01 ([(1, 1), (3, 1), (4, 64), (5, 1), (8, 1)] ++ pb 2 6 8000), modTwin 0
    (fun t => { t with enabled := true, home := 0, partner := 1, guard_ := 64, depthUs := 8000 })
    (modDomain (fun d => { d with floor := some 0 }) (modCu 1 (fun c => { c with fmt := some fmt }) (live))), by decide, fmt, fmt, by
    decide, (by intro h; exact absurd h (by decide)), by decide⟩

theorem test_witness_protectCommandsComplete_3 :
    ∃ q : Request, ∃ s : State, ((taken 0x0F01 q s = true) ∧ (q.u = 0) ∧ (q.b 0 ≤ 1) ∧ (q.b 1 ≤ 3) ∧ (q.b 2 ≤ 3) ∧ (q.b 2 ≠ q.b 1) ∧
      (4 ≤ q.b 4) ∧ (q.b 4 ≤ 64) ∧ (q.b 5 ≤ 1) ∧ (100 ≤ q.h 6) ∧ (q.h 6 ≤ 8000) ∧ (q.b 8 ≤ 1) ∧ (isZero q.payload 9 3 = true)) ∧ ∃ x,
      ∃ y, ((q.b 3 = 1) ∧ ((s.cu (q.b 1)).fmt = some x) ∧ ((s.cu (q.b 2)).fmt = some y) ∧ (x.lineMode = 0) ∧ (y.lineMode = 0) ∧
      (x.otucN = y.otucN)) ∧ ((s.twin (1 - q.b 0)).enabled = true → ∀ u ∈ [(s.twin (1 - q.b 0)).home, (s.twin (1 - q.b 0)).partner], u
      ≠ q.b 1 ∧ u ≠ q.b 2) ∧ (s.hasTribs (max (q.b 1) (q.b 2)) = false) ∧ ((s.twin (q.b 0)).enabled = false) ∧ (s.cellsShort
      (2 * deskewCells (q.h 6) x.otucN) = 0) ∧ (s.meetsFloor = true) :=
  ⟨rq 0x0F01 ([(1, 1), (3, 1), (4, 64), (5, 1), (8, 1)] ++ pb 2 6 8000), modDomain (fun d => { d with floor := some 0 })
    (modCu 1 (fun c => { c with fmt := some fmt }) (live)), by decide, fmt, fmt, by decide, (by intro h; exact absurd h (by decide)),
    by decide⟩

theorem test_witness_protectCommandsComplete_4 :
    ∃ q : Request, ∃ s : State, (taken 0x0F02 q s = true) ∧ (q.u = 0) ∧ (q.b 0 ≤ 1) ∧ (isZero q.payload 1 3 = true) ∧
      ((s.twin (q.b 0)).pendingCopy = none) :=
  ⟨rq 0x0F02 [(0, 1)], run, by decide⟩

theorem test_witness_protectCommandsComplete_5 :
    ∃ q : Request, ∃ s : State, ((taken 0x0F02 q s = true) ∧ (q.u = 0) ∧ (q.b 0 ≤ 1) ∧ (isZero q.payload 1 3 = true)) ∧ ∃ k,
      ((s.twin (q.b 0)).pendingCopy = some k) :=
  ⟨rq 0x0F02 [], modTwin 0 (fun t => { t with b := { state := 2 } }) run, by decide, 1, by decide⟩

theorem test_witness_protectCommandsComplete_6 :
    ∃ q : Request, ∃ s : State, (taken 0x0F03 q s = true) ∧ (q.u = 0) ∧ (q.b 0 ≤ 1) ∧ (q.b 1 ≤ 7) ∧ (q.b 2 ≤ 7) ∧ (q.b 3 ≤ 15) ∧
      ((s.tenon (q.b 1)).role = 7) ∧ (q.b 0 = 0 ∨
      (s.protect.mirror.brace = true ∧ s.protect.mirror.peerTie ≠ s.sill.straps.tie ∧ s.meetsFloor = true ∧ ∃ f, s.floorHeld = some f ∧ f ≤ s.protect.mirror.peerFw)) :=
  ⟨rq 0x0F03 [(1, 7), (2, 7), (3, 15)], modTenon 7 (fun t => { t with role := 7 }) run, by decide⟩

theorem test_witness_protectCommandsComplete_7 :
    ∃ q : Request, ∃ s : State, (taken 0x0F04 q s = true) ∧ (q.u = 0) ∧ (isZero q.payload 1 3 = true) ∧ (q.b 0 = 0) ∧
      (s.protect.mirror.state = 3) :=
  ⟨rq 0x0F04 [], modMirror (fun m => { m with state := 3 }) (live), by decide⟩

theorem test_witness_protectCommandsComplete_8 :
    ∃ q : Request, ∃ s : State, (taken 0x0F04 q s = true) ∧ (q.u = 0) ∧ (isZero q.payload 1 3 = true) ∧ (q.b 0 = 1) ∧ (s.mirIn =
      false) ∧ (s.protect.mirror.state = 1 ∨ s.protect.mirror.state = 4) :=
  ⟨rq 0x0F04 [(0, 1)], modMirror (fun m => { m with state := 4 })
    ({ live with pins := { resetN := true, vddIo := true, tamperIn := false, mirActIn := false } }), by decide⟩

theorem test_witness_protectCommandsComplete_9 :
    ∃ q : Request, ∃ s : State, (taken 0x0F04 q s = true) ∧ (q.u = 0) ∧ (isZero q.payload 1 3 = true) ∧ (q.b 0 = 2) ∧
      (s.protect.mirror.state = 4) :=
  ⟨rq 0x0F04 [(0, 2)], modMirror (fun m => { m with state := 4 }) (live), by decide⟩

theorem test_witness_protectCommandsComplete_10 :
    ∃ q : Request, ∃ s : State, (taken 0x0F05 q s = true) ∧ (q.u = 0) :=
  ⟨rq 0x0F05 [], run, by decide⟩

theorem test_witness_protectCommandsComplete_11 :
    ∃ q : Request, ∃ s : State, (taken 0x0F06 q s = true) ∧ (q.u < 2) :=
  ⟨rq 0x0F06 [] 1, run, by decide⟩

theorem test_witness_protectCommandsComplete_12 :
    ∃ q : Request, ∃ s : State, (taken 0x0F06 q s = true) ∧ (q.u = 2) :=
  ⟨rq 0x0F06 [] 2, run, by decide⟩

/-! AlarmsFire -/

theorem test_witness_alarmsFire_1 :
    ∃ s : State, (s.sill.on = true) ∧ (s.hubUp = true) :=
  ⟨run, by decide⟩

theorem test_witness_alarmsFire_2 :
    ∃ s : State, (s.sill.on = true) ∧ (s.pins.vddIo = true) :=
  ⟨run, by decide⟩

theorem test_witness_alarmsFire_3 :
    ∃ s : State, (s.pins.refSel = s.timing.refSel) ∧ (s.pins.vddIo = true) :=
  ⟨run, by decide⟩

theorem test_witness_alarmsFire_4 :
    ∃ s : State, ((s.pins.refSel = s.timing.refSel) ∧ (s.pins.vddIo = false)) ∧ (s.sill.on = false ∨
      (s.pins.tamperIn = false ∧ s.pins.zeroizeN = true)) :=
  ⟨{ run with pins := { resetN := true, vddIo := false, tamperIn := false } }, by decide, (.inr (by decide))⟩

theorem test_witness_alarmsFire_5 :
    ∃ s : State, (s.pins.refSel = s.timing.refSel) ∧ (s.pins.vddIo = false) ∧ (s.sill.on = true) ∧ (s.pins.tamperIn = true) ∧
      (s.pins.zeroizeN = true) :=
  ⟨{ run with pins := { resetN := true, vddIo := false, tamperIn := true } }, by decide⟩

theorem test_witness_alarmsFire_6 :
    ∃ s : State, (s.pins.refSel = s.timing.refSel) ∧ (s.pins.vddIo = false) ∧ (s.sill.on = true) ∧ (s.pins.tamperIn = false) ∧
      (s.pins.zeroizeN = false) :=
  ⟨{ run with pins := { resetN := true, vddIo := false, tamperIn := false, zeroizeN := false } }, by decide⟩

/-! ChannelsAndBenchMove -/

theorem test_witness_channelsAndBenchMove_1 :
    ∃ u : Fin 4, ∃ i : Nat, ∃ s : State, (s.trafficRuns = true) ∧ ((s.channel u 0).rollover = true) ∧ (s.epochMayChange u = true) ∧
      ((s.channel u 0).slotAt (1 - (s.channel u 0).epoch) = some i) ∧ ((s.slot i).state = 1) ∧ ((s.slot i).counter < counterEnd) :=
  ⟨0, 9, modSlot 9 (fun x => { x with state := 1, counter := 2 ^ 47 })
    (modChannel 0 0 (fun c => { c with rollover := true, slot1 := some 9 }) live), by decide⟩

theorem test_witness_channelsAndBenchMove_2 :
    ∃ u : Fin 4, ∃ i : Nat, ∃ s : State, (s.trafficRuns = true) ∧ ((s.channel u 0).rollover = true) ∧ (s.epochMayChange u = true) ∧
      ((s.channel u 0).slotAt (1 - (s.channel u 0).epoch) = some i) ∧ ((s.slot i).state ≠ 1 ∨ counterEnd ≤ (s.slot i).counter) :=
  ⟨0, 9, modSlot 9 (fun x => { x with state := 1, counter := counterEnd })
    (modChannel 0 0 (fun c => { c with rollover := true, slot1 := some 9 }) live), by decide⟩

theorem test_witness_channelsAndBenchMove_3 :
    ∃ u : Fin 4, ∃ d : Fin 2, ∃ m : Bool, ∃ e : Nat, ∃ s : State, (s.blocksRun = true) ∧ ((s.channel u d).modeDue = some (m, e)) ∧ (e
      ≤ s.timing.tod.sec) ∧ (s.multiframeStarts u d = true) :=
  ⟨3, 0, true, 0, modChannel 3 0 (fun c => { c with modeDue := some (true, 0) }) run, by decide⟩

theorem test_witness_channelsAndBenchMove_4 :
    ∃ i : Nat, ∃ fixed : List Byte, ∃ aad : List Byte, ∃ text : List Byte, ∃ e : Nat, ∃ rest : List Bench, ∃ s : State, (s.benchRuns =
      true) ∧ (s.security.bench = .seal i fixed aad text e :: rest) ∧ ((s.slot i).state = 1) ∧ ((s.slot i).usage = 2) ∧
      ((s.slot i).counter < counterEnd) :=
  ⟨9, [], [], [], 1, [], modSlot 9 (fun x => { x with state := 1, usage := 2 })
    (modSecurity (fun c => { c with bench := [.seal 9 [] [] [] 1] }) (inState 7 0 0 run)), by decide⟩

theorem test_witness_channelsAndBenchMove_5 :
    ∃ i : Nat, ∃ fixed : List Byte, ∃ aad : List Byte, ∃ text : List Byte, ∃ e : Nat, ∃ rest : List Bench, ∃ s : State, (s.benchRuns =
      true) ∧ (s.security.bench = .seal i fixed aad text e :: rest) ∧ ((s.slot i).state ≠ 1 ∨ (s.slot i).usage ≠ 2) :=
  ⟨9, [], [], [], 1, [], modSlot 9 (fun x => { x with state := 1, usage := 1 })
    (modSecurity (fun c => { c with bench := [.seal 9 [] [] [] 1] }) (inState 7 0 0 run)), by decide⟩

theorem test_witness_channelsAndBenchMove_6 :
    ∃ i : Nat, ∃ iv : List Byte, ∃ tag : List Byte, ∃ aad : List Byte, ∃ text : List Byte, ∃ e : Nat, ∃ rest : List Bench, ∃ s :
      State, (s.benchRuns = true) ∧ (s.security.bench = .unseal i iv tag aad text e :: rest) :=
  ⟨9, [], [], [], [], 1, [], modSecurity (fun c => { c with bench := [.unseal 9 [] [] [] [] 1] }) (inState 7 0 0 run), by decide⟩

theorem test_witness_channelsAndBenchMove_7 :
    ∃ slot : Nat, ∃ kek : Nat, ∃ blob : List Byte, ∃ e : Nat, ∃ rest : List Bench, ∃ s : State, (s.benchRuns = true) ∧
      (s.security.bench = .load slot kek blob e :: rest) ∧ (s.sill.debugLevel < 2) ∧ (s.kek kek ≠ []) ∧ (s.binds slot = 0) ∧
      (s.erasedSlot slot = true) :=
  ⟨9, 1, [], 1, [], modSecurity (fun c => { c with erasedNow := [9] })
    (modSecurity (fun c => { c with keks := [(1, zeros 32)] }) (modSecurity (fun c => { c with bench := [.load 9 1 [] 1] }) (inState 7 0 0 run))),
    by decide⟩

/-- The hypothesis left out rests on a value that nothing can evaluate (log entries 3 and 4). -/
theorem test_witness_channelsAndBenchMove_8 :
    ∃ slot : Nat, ∃ kek : Nat, ∃ blob : List Byte, ∃ e : Nat, ∃ rest : List Bench, ∃ s : State, ((s.benchRuns = true) ∧
      (s.security.bench = .load slot kek blob e :: rest) ∧ (s.sill.debugLevel < 2) ∧ (s.kek kek ≠ []) ∧ (s.binds slot = 0) ∧
      (s.erasedSlot slot = false)) ∧ ∃ p, (u8 p 33 = 0) ∧ (u8 p 32 = 1 ∨ u8 p 32 = 2) :=
  ⟨9, 1, [], 1, [], modSecurity (fun c => { c with keks := [(1, zeros 32)] })
    (modSecurity (fun c => { c with bench := [.load 9 1 [] 1] }) (inState 7 0 0 run)), by decide, zeros 32 ++ [1, 0], (by decide),
    (.inl (by decide))⟩

/-- The hypothesis left out rests on a value that nothing can evaluate (log entries 3 and 4). -/
theorem test_witness_channelsAndBenchMove_9 :
    ∃ slot : Nat, ∃ kek : Nat, ∃ blob : List Byte, ∃ e : Nat, ∃ rest : List Bench, ∃ s : State, (s.benchRuns = true) ∧
      (s.security.bench = .load slot kek blob e :: rest) ∧ (s.sill.debugLevel < 2) ∧ (s.kek kek ≠ []) ∧ (s.binds slot = 0) ∧
      (s.erasedSlot slot = false) :=
  ⟨9, 1, [], 1, [], modSecurity (fun c => { c with keks := [(1, zeros 32)] })
    (modSecurity (fun c => { c with bench := [.load 9 1 [] 1] }) (inState 7 0 0 run)), by decide⟩

/-! OwnerAndKeyCommandsComplete -/

theorem test_witness_ownerAndKeyCommandsComplete_1 :
    ∃ q : Request, ∃ s : State, (taken 0x0901 q s = true) ∧ (q.u = 0) ∧ (q.b 1 ≤ 3) ∧ (q.h 2 = 0) ∧ (isZero q.payload 137 3 = true) ∧
      (q.b 0 = 1) ∧ (s.freeRoot = none) :=
  ⟨rq 0x0901 [(0, 1)], { run with otp := { ownerRoots := [(0, [1]), (1, [1]), (2, [1]), (3, [1])] } }, (by decide +kernel)⟩

/-- The hypothesis left out rests on a value that nothing can evaluate (log entries 3 and 4). -/
theorem test_witness_ownerAndKeyCommandsComplete_2 :
    ∃ q : Request, ∃ s : State, ((taken 0x0901 q s = true) ∧ (q.u = 0) ∧ (q.b 1 ≤ 3) ∧ (q.h 2 = 0) ∧ (isZero q.payload 137 3 = true))
      ∧ ∃ i, (q.b 0 = 1) ∧ (s.freeRoot = some i) :=
  ⟨rq 0x0901 [(0, 1)], { run with otp := { ownerRoots := [(0, [1]), (1, [1]), (2, [1])] } }, (by decide +kernel), 3,
    (by decide +kernel)⟩

/-- The hypothesis left out rests on a value that nothing can evaluate (log entries 3 and 4). -/
theorem test_witness_ownerAndKeyCommandsComplete_3 :
    ∃ q : Request, ∃ s : State, ((taken 0x0901 q s = true) ∧ (q.u = 0) ∧ (q.b 1 ≤ 3) ∧ (q.h 2 = 0) ∧ (isZero q.payload 137 3 = true))
      ∧ ∃ i, (q.b 0 = 1) ∧ (s.freeRoot = some i) :=
  ⟨rq 0x0901 [(0, 1)], run, (by decide +kernel), 0, (by decide +kernel)⟩

theorem test_witness_ownerAndKeyCommandsComplete_4 :
    ∃ q : Request, ∃ s : State, ((taken 0x0901 q s = true) ∧ (q.u = 0) ∧ (q.b 1 ≤ 3) ∧ (q.h 2 = 0) ∧ (isZero q.payload 137 3 = true) ∧
      (q.b 0 = 2) ∧ (isZero q.payload 4 133 = true)) ∧ (∀ r, s.security.record = some r → r.root ≠ q.b 1) ∧ (s.rootLive (q.b 1) =
      true) ∧ (∃ j < 4, j ≠ q.b 1 ∧ s.rootLive j = true) :=
  ⟨rq 0x0901 [(0, 2), (1, 3)], { run with otp := { ownerRoots := [(2, [1]), (3, [1])] } }, (by decide +kernel),
    (by intro r h; cases h), (by decide +kernel)⟩

/-- The hypothesis left out rests on a value that nothing can evaluate (log entries 3 and 4). -/
theorem test_witness_ownerAndKeyCommandsComplete_5 :
    ∃ q : Request, ∃ s : State, (taken 0x0902 q s = true) ∧ ((recordFields q s).all (fun c => c.1) = true) :=
  ⟨rq 0x0902 (pb 4 0 0xA6E52C00 ++ [(5, 1)] ++ pb 4 8 1), run, (by decide +kernel)⟩

/-- The hypothesis left out rests on a value that nothing can evaluate (log entries 3 and 4). -/
theorem test_witness_ownerAndKeyCommandsComplete_6 :
    ∃ q : Request, ∃ s : State, (taken 0x0902 q s = true) ∧ ((recordFields q s).all (fun c => c.1) = true) :=
  ⟨rq 0x0902 (pb 4 0 0xA6E52C00 ++ [(5, 1)] ++ pb 4 8 1), run, (by decide +kernel)⟩

/-- The hypothesis left out rests on a value that nothing can evaluate (log entries 3 and 4). -/
theorem test_witness_ownerAndKeyCommandsComplete_7 :
    ∃ q : Request, ∃ s : State, (taken 0x0902 q s = true) ∧ ((recordFields q s).all (fun c => c.1) = true) :=
  ⟨rq 0x0902 (pb 4 0 0xA6E52C00 ++ [(5, 1)] ++ pb 4 8 1), run, (by decide +kernel)⟩

/-- The hypothesis left out rests on a value that nothing can evaluate (log entries 3 and 4). -/
theorem test_witness_ownerAndKeyCommandsComplete_8 :
    ∃ q : Request, ∃ s : State, ((taken 0x0902 q s = true) ∧ ((recordFields q s).all (fun c => c.1) = true)) ∧ ∃ b, (b <
      (0x100000 + (match s.security.record with | some r => 1 - r.copy | none => 0) * 0x10000) ∨
      (0x100000 + (match s.security.record with | some r => 1 - r.copy | none => 0) * 0x10000) + 0x10000 ≤ b) :=
  ⟨rq 0x0902 (pb 4 0 0xA6E52C00 ++ [(5, 1)] ++ pb 4 8 1), run, (by decide +kernel), 0, (by decide +kernel)⟩

theorem test_witness_ownerAndKeyCommandsComplete_9 :
    ∃ q : Request, ∃ s : State, (taken 0x0903 q s = true) ∧ (q.u = 0) ∧ (q.b 0 ≤ 7) ∧ (isZero q.payload 1 3 = true) ∧ (isZero
      q.payload 137 3 = true) ∧ (2 ≤ s.sill.debugLevel) :=
  ⟨rq 0x0903 [(0, 7)], modSill (fun x => { x with debugLevel := 2 }) run, (by decide +kernel)⟩

theorem test_witness_ownerAndKeyCommandsComplete_10 :
    ∃ q : Request, ∃ s : State, (taken 0x0903 q s = true) ∧ (q.u = 0) ∧ (q.b 0 ≤ 7) ∧ (isZero q.payload 1 3 = true) ∧ (isZero
      q.payload 137 3 = true) ∧ (s.sill.debugLevel < 2) ∧ (s.security.entropyOk = false) :=
  ⟨rq 0x0903 [(0, 7)], modSecurity (fun c => { c with entropyOk := false }) (run), (by decide +kernel)⟩

/-- The hypothesis left out rests on a value that nothing can evaluate (log entries 3 and 4). -/
theorem test_witness_ownerAndKeyCommandsComplete_11 :
    ∃ q : Request, ∃ s : State, (taken 0x0903 q s = true) ∧ (q.u = 0) ∧ (q.b 0 ≤ 7) ∧ (isZero q.payload 1 3 = true) ∧ (isZero
      q.payload 137 3 = true) ∧ (s.sill.debugLevel < 2) ∧ (s.security.entropyOk = true) ∧ (s.kek (q.b 0) = []) ∧ (s.erasedKek (q.b 0)
      = false) :=
  ⟨rq 0x0903 [(0, 7)], modSecurity (fun c => { c with entropyOk := true }) (run), (by decide +kernel)⟩

/-- The hypothesis left out rests on a value that nothing can evaluate (log entries 3 and 4). -/
theorem test_witness_ownerAndKeyCommandsComplete_12 :
    ∃ q : Request, ∃ s : State, (taken 0x0903 q s = true) ∧ (q.u = 0) ∧ (q.b 0 ≤ 7) ∧ (isZero q.payload 1 3 = true) ∧ (isZero
      q.payload 137 3 = true) ∧ (s.sill.debugLevel < 2) ∧ (s.security.entropyOk = true) ∧ (s.kek (q.b 0) = []) ∧ (s.erasedKek (q.b 0)
      = false) :=
  ⟨rq 0x0903 [(0, 7)], modSecurity (fun c => { c with entropyOk := true }) (run), (by decide +kernel)⟩

theorem test_witness_ownerAndKeyCommandsComplete_13 :
    ∃ q : Request, ∃ s : State, (taken 0x0904 q s = true) ∧ (q.u = 0) ∧ (q.b 0 ≤ 127) ∧ (q.b 1 ≤ 7) ∧ (q.h 2 = 0) ∧ (s.sill.debugLevel
      < 2) ∧ (s.kek (q.b 1) ≠ []) ∧ (s.binds (q.b 0) = 0) ∧ (s.security.bench.length < 64) ∧ (s.security.entropyOk = true) ∧ (s.serves
      7 0 = true) :=
  ⟨rq 0x0904 [(0, 127), (1, 7)], modSecurity (fun c => { c with entropyOk := true, keks := [(7, zeros 32)] }) (inState 7 0 0 run), by
    decide⟩

theorem test_witness_ownerAndKeyCommandsComplete_14 :
    ∃ q : Request, ∃ s : State, (taken 0x0905 q s = true) ∧ (q.u = 0) ∧ (q.b 0 ≤ 3) ∧ (q.b 0 = 0 → q.b 1 ≤ 127) ∧ (q.b 0 = 1 → q.b 1 ≤
      7) ∧ (2 ≤ q.b 0 → q.b 1 = 0) ∧ (q.h 2 = 0) ∧ (q.b 0 = 0) :=
  ⟨rq 0x0905 [(1, 127)], run, by decide⟩

theorem test_witness_ownerAndKeyCommandsComplete_15 :
    ∃ q : Request, ∃ s : State, (taken 0x0905 q s = true) ∧ (q.u = 0) ∧ (q.b 0 ≤ 3) ∧ (q.b 0 = 0 → q.b 1 ≤ 127) ∧ (q.b 0 = 1 → q.b 1 ≤
      7) ∧ (2 ≤ q.b 0 → q.b 1 = 0) ∧ (q.h 2 = 0) ∧ (q.b 0 = 1) :=
  ⟨rq 0x0905 [(0, 1), (1, 7)], run, by decide⟩

theorem test_witness_ownerAndKeyCommandsComplete_16 :
    ∃ q : Request, ∃ s : State, (taken 0x0905 q s = true) ∧ (q.u = 0) ∧ (q.b 0 ≤ 3) ∧ (q.b 0 = 0 → q.b 1 ≤ 127) ∧ (q.b 0 = 1 → q.b 1 ≤
      7) ∧ (2 ≤ q.b 0 → q.b 1 = 0) ∧ (q.h 2 = 0) ∧ (2 ≤ q.b 0) :=
  ⟨rq 0x0905 [(0, 2)], run, by decide⟩

theorem test_witness_ownerAndKeyCommandsComplete_17 :
    ∃ q : Request, ∃ s : State, (taken 0x0905 q s = true) ∧ (q.u = 0) ∧ (q.b 0 ≤ 3) ∧ (q.b 0 = 0 → q.b 1 ≤ 127) ∧ (q.b 0 = 1 → q.b 1 ≤
      7) ∧ (2 ≤ q.b 0 → q.b 1 = 0) ∧ (q.h 2 = 0) ∧ (q.b 0 = 3) :=
  ⟨rq 0x0905 [(0, 3)], run, by decide⟩

theorem test_witness_ownerAndKeyCommandsComplete_18 :
    ∃ q : Request, ∃ s : State, (taken 0x0905 q s = true) ∧ (q.u = 0) ∧ (q.b 0 ≤ 3) ∧ (q.b 0 = 0 → q.b 1 ≤ 127) ∧ (q.b 0 = 1 → q.b 1 ≤
      7) ∧ (2 ≤ q.b 0 → q.b 1 = 0) ∧ (q.h 2 = 0) ∧ (s.salurnRuns = true) :=
  ⟨rq 0x0905 [(0, 3)], run, by decide⟩

/-! ChannelAndReadCommandsComplete -/

theorem test_witness_channelAndReadCommandsComplete_1 :
    ∃ q : Request, ∃ s : State, ((taken 0x0906 q s = true) ∧ (q.u < 4) ∧ (q.b 0 ≤ 1) ∧ (q.b 1 ≤ 1) ∧
      (∀ o ∈ [q.b 2, q.b 3], o ≤ 127 ∨ o = 0xFE ∨ o = 0xFF) ∧ (q.b 0 = 1 → isZero q.payload 4 6 = true) ∧ (q.h 10 = 0) ∧
      (q.b 0 = 0 → 1 ≤ field q.payload 12 6 ∧ field q.payload 12 6 ≤ 2 ^ 48 - 2) ∧ (q.b 0 = 1 → isZero q.payload 12 6 = true) ∧
      (q.h 18 = 0) ∧ (q.d 20 = 0 ∨ (q.h 20 = 0 ∧ s.timing.tod.sec < q.d 20)) ∧
      ((newPosition (s.channel q.u (q.b 0)).slot0 (q.b 2)) ≠ (s.channel q.u (q.b 0)).slot0 → (nameable q.u (q.b 0) 0 (newPosition (s.channel q.u (q.b 0)).slot0 (q.b 2)) s).all (fun x => x.1) = true ∧ (s.channel q.u (q.b 0)).inUse (q.b 0) 0 = false)
      ∧
      ((newPosition (s.channel q.u (q.b 0)).slot1 (q.b 3)) ≠ (s.channel q.u (q.b 0)).slot1 → (nameable q.u (q.b 0) 1 (newPosition (s.channel q.u (q.b 0)).slot1 (q.b 3)) s).all (fun x => x.1) = true ∧ (s.channel q.u (q.b 0)).inUse (q.b 0) 1 = false)
      ∧
      (q.b 0 = 0 → (newPosition (s.channel q.u (q.b 0)).slot0 (q.b 2)) ≠ none → (newPosition (s.channel q.u (q.b 0)).slot0 (q.b 2)) ≠ (newPosition (s.channel q.u (q.b 0)).slot1 (q.b 3)))
      ∧ (s.twinPartner q.u = false)) ∧ (∀ f, (s.cu q.u).fmtTx = some f → f.lineMode = 0) ∧ ∃ t,
      ((q.b 0 = 0 ∧ q.b 1 = 1 ∧ (s.channel q.u (q.b 0)).secure = false)) ∧ (s.securityTrib q.u = some t) :=
  ⟨rq 0x0906 ([(1, 1), (2, 9), (3, 0xFF)] ++ pb 6 12 1), modTrib 5 (fun t => { t with set := { kind := 1, slots := 2 ^ 79 } })
    (modSlot 9 (fun x => { x with state := 1, usage := 1 }) live), by decide, (by intro f h; cases h; rfl), 5, by decide⟩

theorem test_witness_channelAndReadCommandsComplete_2 :
    ∃ q : Request, ∃ s : State, ((taken 0x0906 q s = true) ∧ (q.u < 4) ∧ (q.b 0 ≤ 1) ∧ (q.b 1 ≤ 1) ∧
      (∀ o ∈ [q.b 2, q.b 3], o ≤ 127 ∨ o = 0xFE ∨ o = 0xFF) ∧ (q.b 0 = 1 → isZero q.payload 4 6 = true) ∧ (q.h 10 = 0) ∧
      (q.b 0 = 0 → 1 ≤ field q.payload 12 6 ∧ field q.payload 12 6 ≤ 2 ^ 48 - 2) ∧ (q.b 0 = 1 → isZero q.payload 12 6 = true) ∧
      (q.h 18 = 0) ∧ (q.d 20 = 0 ∨ (q.h 20 = 0 ∧ s.timing.tod.sec < q.d 20)) ∧
      ((newPosition (s.channel q.u (q.b 0)).slot0 (q.b 2)) ≠ (s.channel q.u (q.b 0)).slot0 → (nameable q.u (q.b 0) 0 (newPosition (s.channel q.u (q.b 0)).slot0 (q.b 2)) s).all (fun x => x.1) = true ∧ (s.channel q.u (q.b 0)).inUse (q.b 0) 0 = false)
      ∧
      ((newPosition (s.channel q.u (q.b 0)).slot1 (q.b 3)) ≠ (s.channel q.u (q.b 0)).slot1 → (nameable q.u (q.b 0) 1 (newPosition (s.channel q.u (q.b 0)).slot1 (q.b 3)) s).all (fun x => x.1) = true ∧ (s.channel q.u (q.b 0)).inUse (q.b 0) 1 = false)
      ∧
      (q.b 0 = 0 → (newPosition (s.channel q.u (q.b 0)).slot0 (q.b 2)) ≠ none → (newPosition (s.channel q.u (q.b 0)).slot0 (q.b 2)) ≠ (newPosition (s.channel q.u (q.b 0)).slot1 (q.b 3)))
      ∧ (s.twinPartner q.u = false)) ∧ (∀ f, (s.cu q.u).fmtTx = some f → f.lineMode = 0) ∧
      ((q.b 0 = 0 ∧ q.b 1 = 1 ∧ (s.channel q.u (q.b 0)).secure = false) → s.securityTrib q.u = none ∧ ∃ i,
      (if (s.channel q.u (q.b 0)).epoch = 0 then (newPosition (s.channel q.u (q.b 0)).slot0 (q.b 2)) else (newPosition (s.channel q.u (q.b 0)).slot1 (q.b 3)))
      = some i ∧ (s.slot i).state = 1) :=
  ⟨rq 0x0906 ([(1, 1), (2, 9), (3, 0xFF)] ++ pb 6 12 1), modSlot 9 (fun x => { x with state := 1, usage := 1 }) live, by decide,
    (by intro f h; cases h; rfl), (by intro _; exact ⟨by decide, 9, by decide, by decide⟩)⟩

theorem test_witness_channelAndReadCommandsComplete_3 :
    ∃ q : Request, ∃ i : Nat, ∃ s : State, (taken 0x0907 q s = true) ∧ (q.u < 4) ∧ ((s.channel q.u 0).slotAt
      (1 - (s.channel q.u 0).epoch) = some i) ∧ ((s.channel q.u 0).secure = true) ∧ ((s.slot i).state ≠ 2) ∧ ((s.slot i).counter <
      counterEnd) ∧ ((s.channel q.u 0).rollover = true) :=
  ⟨rq 0x0907 [], 9, modSlot 9 (fun x => { x with state := 1 })
    (modChannel 0 0 (fun c => { c with secure := true, slot1 := some 9, rollover := true }) live), by decide⟩

theorem test_witness_channelAndReadCommandsComplete_4 :
    ∃ q : Request, ∃ i : Nat, ∃ s : State, (taken 0x0907 q s = true) ∧ (q.u < 4) ∧ ((s.channel q.u 0).slotAt
      (1 - (s.channel q.u 0).epoch) = some i) ∧ ((s.channel q.u 0).secure = true) ∧ ((s.slot i).state ≠ 2) ∧ ((s.slot i).counter <
      counterEnd) ∧ ((s.channel q.u 0).rollover = false) :=
  ⟨rq 0x0907 [], 9, modSlot 9 (fun x => { x with state := 1 })
    (modChannel 0 0 (fun c => { c with secure := true, slot1 := some 9 }) live), by decide⟩

theorem test_witness_channelAndReadCommandsComplete_5 :
    ∃ q : Request, ∃ s : State, (taken 0x0908 q s = true) ∧ (q.u = 0) ∧ (1 ≤ q.b 0) ∧ (q.b 0 ≤ 2) ∧ (q.b 1 ≤ 127) ∧ (q.h 2 + q.h 4 ≤
      16348) ∧ (q.payload.length = 36 + (q.h 2 + q.h 4 + 3) / 4 * 4) ∧ (q.h 6 = 0) ∧ (q.b 0 = 1 → isZero q.payload 14 6 = true ∧
      isZero q.payload 20 16 = true) ∧ (isZero q.payload (36 + q.h 2 + q.h 4) (q.payload.length - (36 + q.h 2 + q.h 4)) = true) ∧
      (s.security.bench.length < 64) ∧ (s.security.entropyOk = true) ∧ (s.serves 7 0 = true) :=
  ⟨rqn 40 ([(0, 1), (1, 127)] ++ [(5, 3)]), inState 7 0 0 run, by decide⟩

theorem test_witness_channelAndReadCommandsComplete_6 :
    ∃ q : Request, ∃ s : State, (taken 0x0909 q s = true) ∧ (q.u = 0) ∧ (∀ c < 9, q.b c ≤ 3) ∧ (2 ≤ q.b 4) ∧ (1 ≤ q.b 9) ∧ (1 ≤ q.b
      10) ∧ (1 ≤ q.b 11) ∧ (q.b 12 ≤ 1) ∧ (isZero q.payload 13 3 = true) ∧ (s.sill.policyCommitted = true) :=
  ⟨rq 0x0909 [(0, 3), (4, 2), (8, 3), (9, 1), (10, 1), (11, 1), (12, 1)], modSill (fun x => { x with policyCommitted := true }) run,
    by decide⟩

theorem test_witness_channelAndReadCommandsComplete_7 :
    ∃ q : Request, ∃ s : State, (taken 0x0909 q s = true) ∧ (q.u = 0) ∧ (∀ c < 9, q.b c ≤ 3) ∧ (2 ≤ q.b 4) ∧ (1 ≤ q.b 9) ∧ (1 ≤ q.b
      10) ∧ (1 ≤ q.b 11) ∧ (q.b 12 ≤ 1) ∧ (isZero q.payload 13 3 = true) ∧ (s.sill.policyCommitted = false) :=
  ⟨rq 0x0909 [(0, 3), (4, 2), (8, 3), (9, 1), (10, 1), (11, 1), (12, 1)], run, by decide⟩

theorem test_witness_channelAndReadCommandsComplete_8 :
    ∃ q : Request, ∃ s : State, ((taken 0x090A q s = true) ∧ (q.u = 0) ∧ (s.security.hot = false)) ∧ (s.tamper = true ∨ s.zeroize =
      true) :=
  ⟨rq 0x090A [], { run with pins := { resetN := true, vddIo := true, tamperIn := true } }, by decide, (Or.inl (by decide))⟩

theorem test_witness_channelAndReadCommandsComplete_9 :
    ∃ q : Request, ∃ s : State, (taken 0x090A q s = true) ∧ (q.u = 0) ∧ (s.security.hot = false) ∧ (s.tamper = false) ∧ (s.zeroize =
      false) :=
  ⟨rq 0x090A [], run, by decide⟩

theorem test_witness_channelAndReadCommandsComplete_10 :
    ∃ q : Request, ∃ s : State, (taken 0x090B q s = true) ∧ (q.u = 0) ∧ (s.security.entropyOk = true) :=
  ⟨rq 0x090B [], run, by decide⟩

theorem test_witness_channelAndReadCommandsComplete_11 :
    ∃ q : Request, ∃ s : State, (taken 0x090C q s = true) ∧ (q.u = 0) :=
  ⟨rq 0x090C [], run, by decide⟩

theorem test_witness_channelAndReadCommandsComplete_12 :
    ∃ q : Request, ∃ s : State, (taken 0x090D q s = true) ∧ (q.u < 4) :=
  ⟨rq 0x090D [] 3, run, by decide⟩

theorem test_witness_channelAndReadCommandsComplete_13 :
    ∃ q : Request, ∃ s : State, (taken 0x090E q s = true) ∧ (q.u = 0) :=
  ⟨rq 0x090E [], run, by decide⟩

theorem test_witness_channelAndReadCommandsComplete_14 :
    ∃ q : Request, ∃ s : State, (taken 0x090F q s = true) ∧ (q.u < 4) :=
  ⟨rq 0x090F [] 3, run, by decide⟩

/-! ReferencesQualifyAndFail -/

theorem test_witness_referencesQualifyAndFail_1 :
    ∃ s : State, (s.hubUp = true) ∧ ∃ k, (k < 6) ∧ ((s.source k).present = true) :=
  ⟨modSource 5 (fun x => { x with present := true }) (run), by decide, 5, by decide⟩

theorem test_witness_referencesQualifyAndFail_2 :
    ∃ s : State, (s.hubUp = true) ∧ ∃ k, (k < 6) ∧ ((s.source k).present = false) :=
  ⟨run, by decide, 0, by decide⟩

theorem test_witness_referencesQualifyAndFail_3 :
    ∃ n : Fin 4, ∃ s : State, (s.hubUp = true) ∧ ((s.source n).present = true) ∧ (s.timing.refSel = n.val + 1) ∧ (s.timing.state ≠ 4) :=
  ⟨3, modSource 3 (fun x => { x with present := true }) (modTiming (fun t => { t with refSel := 4, state := 3 }) (run)), by decide⟩

theorem test_witness_referencesQualifyAndFail_4 :
    ∃ n : Fin 4, ∃ s : State, (s.hubUp = true) ∧ ((s.source n).mode ≠ 0) ∧ ((s.source n).present = false) ∧ ((s.source n).qualified =
      false) ∧ (s.timing.refSel = n.val + 1) :=
  ⟨0, modSource 0 (fun x => { x with mode := 1, freq := 10000000 }) (modTiming (fun t => { t with refSel := 1 }) (run)), by decide⟩

theorem test_witness_referencesQualifyAndFail_5 :
    ∃ k : Fin 6, ∃ s : State, (s.hubUp = true) ∧ ((s.source k).qualified = true) ∧ (s.timing.dwellMs ≤ (s.source k).driftMs) ∧
      (s.timing.refSel = k.val + 1) ∧ ((s.source k).present = true) ∧ (s.timing.state ≠ 3) :=
  ⟨5, modSource 5 (fun x => { x with present := true, qualified := true, driftMs := 100 })
    (modTiming (fun t => { t with refSel := 6, state := 2 }) (run)), by decide⟩

theorem test_witness_referencesQualifyAndFail_6 :
    ∃ k : Fin 6, ∃ s : State, (s.hubUp = true) ∧ ((s.source k).qualified = true) ∧ (s.timing.dwellMs ≤ (s.source k).driftMs) ∧
      (s.timing.refSel ≠ k.val + 1) ∧ (timingState s true = s.timing.state) :=
  ⟨0, modSource 0 (fun x => { x with present := true, qualified := true, driftMs := 100 }) (run), by decide⟩

theorem test_witness_referencesQualifyAndFail_7 :
    ∃ k : Fin 6, ∃ s : State, (s.hubUp = true) ∧ ((s.source k).qualified = false) ∧ (steady s.timing (s.source k) = true) ∧
      (s.timing.refSel = k.val + 1) ∧ (s.timing.state ≠ 2) :=
  ⟨0, modSource 0 (fun x => { x with present := true, recent := List.replicate 100 7 })
    (modTiming (fun t => { t with refSel := 1, state := 3, reqS := 1 }) (run)), (by decide +kernel)⟩

theorem test_witness_referencesQualifyAndFail_8 :
    ∃ s : State, (s.pins.vddIo = false) :=
  ⟨{ run with pins := { resetN := true, vddIo := false } }, by decide⟩

theorem test_witness_referencesQualifyAndFail_9 :
    ∃ v : Fin 8, ∃ s : State, (s.sill.on = true) ∧ (s.pins.vddIo = true) ∧ (v.val ≠ s.timing.refSel) ∧ (s.hubUp = true) :=
  ⟨7, modSill (fun x => { x with on := true }) run, by decide⟩

theorem test_witness_referencesQualifyAndFail_10 :
    ∃ v : Fin 8, ∃ s : State, (s.sill.on = true) ∧ (s.pins.vddIo = true) ∧ (v.val ≠ s.timing.refSel) ∧ (s.hubUp = false) :=
  ⟨7, modSill (fun x => { x with on := true, hold := .seqFault }) run, by decide⟩

theorem test_witness_referencesQualifyAndFail_11 :
    ∃ s : State, (s.hubUp = true) ∧ (s.timing.state = 1) :=
  ⟨modTiming (fun t => { t with state := 1 }) (run), by decide⟩

/-! DcoFollowsItsState -/

theorem test_witness_dcoFollowsItsState_1 :
    ∃ s : State, (s.hubUp = true) ∧ (-2147483647 ≤ s.timing.w) ∧ (s.timing.w ≤ 2147483647) :=
  ⟨modTiming (fun t => { t with w := -2147483647 }) (run), by decide⟩

theorem test_witness_dcoFollowsItsState_2 :
    ∃ loop : Int, ∃ s : State, (s.hubUp = true) ∧ ∃ x : Int, ((s.timing.state = 0 ∧ x = s.timing.steer) ∨
      (∃ k, s.timing.state = 1 ∧ selectedSource s.timing.refSel = some k ∧ x = (s.source k).f * 100000) ∨
      (s.timing.state = 2 ∧ x = loop) ∨ (s.timing.state = 3 ∧ x = s.timing.holdW) ∨ (4 ≤ s.timing.state ∧ x = 0)) ∧
      ((clipW x - s.timing.w).natAbs ≤ s.timing.freqRate * 100) :=
  ⟨0, modTiming (fun t => { t with steer := 100000 }) (run), by decide, 100000, (Or.inl (by decide)), by decide⟩

/-! TimeOfDayMoves -/

theorem test_witness_timeOfDayMoves_1 :
    ∃ s : State, ((s.sill.on = true) ∧ (s.hubUp = true)) ∧ ∃ u, (u < 24) ∧ ∃ m, ∃ es, ((s.countUnit u).pending = some (m, es)) :=
  ⟨modCountUnit 23 (fun c => { c with pending := some (0, []) }) (modSill (fun x => { x with on := true }) run), by decide, 23, by
    decide, 0, [], by decide⟩

theorem test_witness_timeOfDayMoves_2 :
    ∃ x : Slew, ∃ s : State, (s.timing.slew = some x) :=
  ⟨⟨8, 8, 1, 0⟩, modTiming (fun t => { t with slew := some ⟨8, 8, 1, 0⟩ }) (run), by decide⟩

theorem test_witness_timeOfDayMoves_3 :
    ∃ a : Nat × Nat, ∃ s : State, (s.timing.atPps = some a) :=
  ⟨(5, 7), modTiming (fun t => { t with atPps := some (5, 7) }) (run), by decide⟩

theorem test_witness_timeOfDayMoves_4 :
    ∃ high : Nat, ∃ since : Nat, ∃ s : State, (s.hubUp = true) ∧ (s.timing.outputs.flags.testBit 2 = true) ∧ (high < 100 ∨
      (s.timing.ppsAt.isSome = true ∧ (since < 999900000 ∨ 1000100000 < since))) :=
  ⟨100, 999899999, modTiming (fun t => { t with outputs := { t.outputs with flags := 4 }, ppsAt := some 0 }) (run), by decide⟩

theorem test_witness_timeOfDayMoves_5 :
    ∃ high : Nat, ∃ since : Nat, ∃ s : State, (s.hubUp = true) ∧ (s.timing.outputs.flags.testBit 2 = true) ∧ (100 ≤ high) ∧
      (s.timing.ppsAt = none ∨ (999900000 ≤ since ∧ since ≤ 1000100000)) ∧ (s.timing.atPps = none) ∧ (s.timing.outputs.flags.testBit 3
      = true) :=
  ⟨100, 999900000, modTiming (fun t => { t with outputs := { t.outputs with flags := 12 }, ppsAt := some 0 }) (run), by decide⟩

theorem test_witness_timeOfDayMoves_6 :
    ∃ high : Nat, ∃ since : Nat, ∃ s : State, ((s.hubUp = true) ∧ (s.timing.outputs.flags.testBit 2 = true) ∧ (100 ≤ high) ∧
      (s.timing.ppsAt = none ∨ (999900000 ≤ since ∧ since ≤ 1000100000))) ∧ ∃ sec, ∃ due, (s.timing.atPps = some (sec, due)) :=
  ⟨100, 0, modTiming (fun t => { t with outputs := { t.outputs with flags := 4 }, atPps := some (5, 7) }) (run), by decide, 5, 7, by
    decide⟩

theorem test_witness_timeOfDayMoves_7 :
    ∃ s : State, (s.hubUp = true) ∧ (s.timing.pps.on = true) :=
  ⟨modTiming (fun t => { t with pps := { t.pps with on := true } }) (run), by decide⟩

theorem test_witness_timeOfDayMoves_8 :
    ∃ s : State, (s.hubUp = true) ∧ (s.timing.pps.on = false) :=
  ⟨run, by decide⟩

theorem test_witness_timeOfDayMoves_9 :
    ∃ s : State, (s.hubUp = true) ∧ (s.timing.frame.on = true) :=
  ⟨modTiming (fun t => { t with frame := { t.frame with on := true } }) (run), by decide⟩

theorem test_witness_timeOfDayMoves_10 :
    ∃ s : State, (s.hubUp = true) ∧ (s.timing.frame.on = false) :=
  ⟨run, by decide⟩

/-! TimingCommandsComplete -/

theorem test_witness_timingCommandsComplete_1 :
    ∃ q : Request, ∃ s : State, ((taken 0x0A01 q s = true) ∧ (q.u = 0) ∧
      (∀ n < 4, q.b n ≤ 2 ∧ refRange (q.b n) (q.w (4 + 4 * n)) = true) ∧ (q.b 20 ≤ 3) ∧ (q.b 21 ≤ 63) ∧ (q.h 22 = 0)) ∧ ∃ n, (n < 4) ∧
      ((s.source n).mode = q.b n) ∧ ((s.source n).freq = q.w (4 + 4 * n)) :=
  ⟨rq 0x0A01 ([(0, 1), (1, 2), (20, 3), (21, 63)] ++ pb 4 4 750000000 ++ pb 4 8 8000), run, by decide, 3, by decide⟩

theorem test_witness_timingCommandsComplete_2 :
    ∃ q : Request, ∃ s : State, ((taken 0x0A01 q s = true) ∧ (q.u = 0) ∧
      (∀ n < 4, q.b n ≤ 2 ∧ refRange (q.b n) (q.w (4 + 4 * n)) = true) ∧ (q.b 20 ≤ 3) ∧ (q.b 21 ≤ 63) ∧ (q.h 22 = 0)) ∧ ∃ n, (n < 4) ∧
      ((s.source n).mode ≠ q.b n ∨ (s.source n).freq ≠ q.w (4 + 4 * n)) :=
  ⟨rq 0x0A01 ([(0, 1), (1, 2), (20, 3), (21, 63)] ++ pb 4 4 750000000 ++ pb 4 8 8000), run, by decide, 0, by decide⟩

theorem test_witness_timingCommandsComplete_3 :
    ∃ q : Request, ∃ s : State, (taken 0x0A02 q s = true) ∧ (q.u = 0) ∧ (q.b 0 ≤ 3) ∧ (q.b 1 = 0) ∧ (100 ≤ q.h 2 ∧ q.h 2 ≤ 20000) ∧
      (10 ≤ q.h 4 ∧ q.h 4 ≤ 10000) ∧ (1 ≤ q.h 6 ∧ q.h 6 ≤ 3600) ∧ (1 ≤ q.h 8 ∧ q.h 8 ≤ 10000) ∧ (10 ≤ q.h 10 ∧ q.h 10 ≤ 10000) :=
  ⟨rq 0x0A02 ([(0, 3)] ++ pb 2 2 100 ++ pb 2 4 10000 ++ pb 2 6 3600 ++ pb 2 8 10000 ++ pb 2 10 10), run, by decide⟩

theorem test_witness_timingCommandsComplete_4 :
    ∃ q : Request, ∃ s : State, (taken 0x0A03 q s = true) ∧ (q.u = 0) ∧ (q.w 0 ≠ 0x80000000) :=
  ⟨rq 0x0A03 (pb 4 0 0x80000001), run, by decide⟩

theorem test_witness_timingCommandsComplete_5 :
    ∃ q : Request, ∃ s : State, (taken 0x0A04 q s = true) ∧ (q.u = 0) ∧ (q.h 2 = 0) ∧ (q.h 14 = 0) ∧ (q.b 0 = 0) ∧ (q.b 1 = 0) ∧
      ((ifield q.payload 16 8) = 0) ∧ ((q.tod 4).ns < billion) ∧ ((q.tod 4).ns % 8 = 0) :=
  ⟨rq 0x0A04 (pb 4 10 999999992), run, by decide⟩

theorem test_witness_timingCommandsComplete_6 :
    ∃ q : Request, ∃ s : State, (taken 0x0A04 q s = true) ∧ (q.u = 0) ∧ (q.h 2 = 0) ∧ (q.h 14 = 0) ∧ (q.b 0 = 1) ∧ (q.b 1 = 0) ∧
      (isZero q.payload 4 10 = true) ∧ ((ifield q.payload 16 8) % 8 = 0) ∧ (0 ≤
      (((s.timing.tod.toNs : Int) + (ifield q.payload 16 8) : Int))) ∧ ((((s.timing.tod.toNs : Int) + (ifield q.payload 16 8) : Int))
      < ((2 ^ 48 * billion : Nat) : Int)) :=
  ⟨rq 0x0A04 ([(0, 1)] ++ pb 8 16 8), run, by decide⟩

theorem test_witness_timingCommandsComplete_7 :
    ∃ q : Request, ∃ s : State, (taken 0x0A04 q s = true) ∧ (q.u = 0) ∧ (q.h 2 = 0) ∧ (q.h 14 = 0) ∧ (q.b 0 = 2) ∧ (q.b 1 = 0) ∧
      ((ifield q.payload 16 8) = 0) ∧ ((q.tod 4).ns = 0) ∧ (s.timing.outputs.flags.testBit 2 = false) :=
  ⟨rq 0x0A04 ([(0, 2)] ++ pb 4 6 7), run, by decide⟩

theorem test_witness_timingCommandsComplete_8 :
    ∃ q : Request, ∃ s : State, (taken 0x0A04 q s = true) ∧ (q.u = 0) ∧ (q.h 2 = 0) ∧ (q.h 14 = 0) ∧ (q.b 0 = 2) ∧ (q.b 1 = 0) ∧
      ((ifield q.payload 16 8) = 0) ∧ ((q.tod 4).ns = 0) ∧ (s.timing.outputs.flags.testBit 2 = true) :=
  ⟨rq 0x0A04 ([(0, 2)] ++ pb 4 6 7), modTiming (fun t => { t with outputs := { t.outputs with flags := 4 } }) (run), by decide⟩

theorem test_witness_timingCommandsComplete_9 :
    ∃ q : Request, ∃ s : State, (taken 0x0A04 q s = true) ∧ (q.u = 0) ∧ (q.h 2 = 0) ∧ (q.h 14 = 0) ∧ (q.b 0 = 3) ∧ (1 ≤ q.b 1) ∧ (q.b
      1 ≤ 100) ∧ (isZero q.payload 4 10 = true) ∧ ((ifield q.payload 16 8) % 8 = 0) ∧ ((ifield q.payload 16 8).natAbs ≤ billion) :=
  ⟨rq 0x0A04 ([(0, 3), (1, 100)] ++ pb 8 16 1000000000), run, by decide⟩

theorem test_witness_timingCommandsComplete_10 :
    ∃ q : Request, ∃ s : State, (taken 0x0A05 q s = true) ∧ (q.u = 0) ∧ (q.w 0 = 0 ∨ (8000 ≤ q.w 0 ∧ q.w 0 ≤ 750000000)) ∧ (q.w 4 = 0
      ∨ (8000 ≤ q.w 4 ∧ q.w 4 ≤ 750000000)) ∧ (q.b 8 ≤ 31) ∧ (q.b 9 ≤ 15) ∧ (1 ≤ q.h 10 ∧ q.h 10 ≤ 50000) ∧ (ifield q.payload 12 4 % 8
      = 0) ∧ ((ifield q.payload 12 4).natAbs ≤ 500000000) ∧ (125000 ≤ q.w 16 ∧ q.w 16 ≤ billion) ∧ (q.w 16 % 8 = 0) ∧ (billion % q.w
      16 = 0) ∧ (q.w 20 % 8 = 0) ∧ (8 ≤ q.w 20) ∧ (2 * q.w 20 ≤ q.w 16) :=
  ⟨rq 0x0A05
    (pb 4 0 750000000 ++ [(8, 31), (9, 15)] ++ pb 2 10 50000 ++ pb 4 12 500000000 ++ pb 4 16 1000000000 ++ pb 4 20 500000000), run, by
    decide⟩

theorem test_witness_timingCommandsComplete_11 :
    ∃ q : Request, ∃ s : State, (taken 0x0A06 q s = true) ∧ (q.u = 0) ∧ (1 ≤ q.b 0) ∧ (q.b 0 ≤ 3) ∧ (isZero q.payload 1 3 = true) :=
  ⟨rq 0x0A06 [(0, 3)], run, by decide⟩

theorem test_witness_timingCommandsComplete_12 :
    ∃ q : Request, ∃ s : State, (taken 0x0A07 q s = true) ∧ (q.u = 0) :=
  ⟨rq 0x0A07 [], run, by decide⟩

/-! ConvertersSettleAndApply -/

theorem test_witness_convertersSettleAndApply_1 :
    ∃ c : Fin 2, ∃ s : State, (s.hubUp = true) ∧ ((s.converter c).settled = true) :=
  ⟨1, run, by decide⟩

theorem test_witness_convertersSettleAndApply_2 :
    ∃ c : Fin 2, ∃ s : State, ((s.hubUp = true) ∧ ((s.converter c).settled = false)) ∧ ∃ i, (s.injection c = some i) :=
  ⟨1, setInjection 1 (some ⟨{}, none, none, 1, {}⟩) (modConverter 1 (fun k => { k with settled := false }) (run)), by decide,
    ⟨{}, none, none, 1, {}⟩, by decide⟩

theorem test_witness_convertersSettleAndApply_3 :
    ∃ c : Fin 2, ∃ s : State, (s.hubUp = true) ∧ ((s.converter c).settled = false) ∧
      ((s.sequencer (if s.monitor.pair then 0 else c)).running = true) :=
  ⟨1, modSequencer 1 (fun x => { x with running := true }) (modConverter 1 (fun k => { k with settled := false }) (run)), by decide⟩

theorem test_witness_convertersSettleAndApply_4 :
    ∃ c : Fin 2, ∃ s : State, (s.hubUp = true) ∧ (s.monitor.wantPair = none) ∧ (s.convIdle
      (if s.monitor.pair then [0, 1] else [c.val]) = false) :=
  ⟨1, modSequencer 1 (fun x => { x with running := true, entry := 1 }) (run), by decide⟩

theorem test_witness_convertersSettleAndApply_5 :
    ∃ c : Fin 2, ∃ s : State, ((s.hubUp = true) ∧ (s.monitor.wantPair = none)) ∧ ∃ r, ((s.converter c).want = some r) ∧ (s.convIdle
      (if s.monitor.pair then [0, 1] else [c.val]) = true) ∧ (s.monitor.pair = false) ∧ (r ≠ (s.converter c).ref) :=
  ⟨1, modConverter 1 (fun k => { k with want := some 1 }) (run), by decide, 1, by decide⟩

theorem test_witness_convertersSettleAndApply_6 :
    ∃ c : Fin 2, ∃ s : State, ((s.hubUp = true) ∧ (s.monitor.wantPair = none)) ∧ ∃ r, ((s.converter c).want = some r) ∧ (s.convIdle
      (if s.monitor.pair then [0, 1] else [c.val]) = true) ∧ (s.monitor.pair = true) ∧ (c = 0) ∧ (r ≠ (s.converter 0).ref) :=
  ⟨0, modMonitor (fun m => { m with pair := true }) (modConverter 0 (fun k => { k with want := some 1 }) (run)), by decide, 1, by
    decide⟩

theorem test_witness_convertersSettleAndApply_7 :
    ∃ p : Bool, ∃ s : State, (s.hubUp = true) ∧ (s.monitor.wantPair = some p) ∧ ((s.sequencer 0).table.start = 0) ∧
      ((s.sequencer 1).table.start = 0) ∧ (s.convIdle [0, 1] = true) :=
  ⟨true, modMonitor (fun m => { m with wantPair := some true }) run, by decide⟩

theorem test_witness_convertersSettleAndApply_8 :
    ∃ q : Fin 2, ∃ s : State, (s.blocksRun = true) ∧ ((s.sequencer q).table.start = 2) ∧ ((s.sequencer q).table.trigSrc = 1) ∧
      ((s.sequencer q).periodInForce ≠ 0) ∧ (s.canStart q = true) ∧ ((s.sequencer q).latched = false) :=
  ⟨1, modSequencer 1 (fun x => { x with table := { start := 2, trigSrc := 1, periodUs := 5, entries := [{}] }, periodInForce := 5 })
    (inState 8 0 0 run), by decide⟩

theorem test_witness_convertersSettleAndApply_9 :
    ∃ q : Fin 2, ∃ s : State, (s.blocksRun = true) ∧ ((s.sequencer q).table.start = 2) ∧ ((s.sequencer q).table.trigSrc = 1) ∧
      ((s.sequencer q).periodInForce ≠ 0) ∧ ((s.sequencer q).latched = true) :=
  ⟨1, modSequencer 1
    (fun x => { x with table := { start := 2, trigSrc := 1, periodUs := 5, entries := [{}] }, periodInForce := 5, latched := true })
    (run), by decide⟩

theorem test_witness_convertersSettleAndApply_10 :
    ∃ q : Fin 2, ∃ s : State, (s.blocksRun = true) ∧ ((s.sequencer q).table.start = 2) ∧ ((s.sequencer q).table.trigSrc = 1) ∧
      ((s.sequencer q).periodInForce ≠ 0) ∧ (s.canStart q = false) ∧ ((s.sequencer q).latched = false) :=
  ⟨1, modSequencer 1
    (fun x => { x with table := { start := 2, trigSrc := 1, periodUs := 5, entries := [{}] }, periodInForce := 5, running := true })
    (run), by decide⟩

theorem test_witness_convertersSettleAndApply_11 :
    ∃ q : Fin 2, ∃ s : State, (s.blocksRun = true) ∧ ((s.sequencer q).latched = true) ∧ (s.canStart q = true) :=
  ⟨0, modSequencer 0
    (fun x => { x with table := { start := 2, trigSrc := 1, periodUs := 5, entries := [{}] }, periodInForce := 5, latched := true })
    (inState 8 0 0 run), by decide⟩

theorem test_witness_convertersSettleAndApply_12 :
    ∃ q : Fin 2, ∃ s : State, (s.blocksRun = true) ∧ ((s.sequencer q).running = true) ∧ ((s.sequencer q).entry =
      (s.sequencer q).table.entries.length) ∧ ((s.sequencer q).waiting = none) :=
  ⟨0, modSequencer 0
    (fun x => { x with table := { start := 2, trigSrc := 1, periodUs := 5, entries := [{}] }, periodInForce := 5, running := true, entry := 1 })
    (run), by decide⟩

theorem test_witness_convertersSettleAndApply_13 :
    ∃ q : Fin 2, ∃ s : State, ((s.blocksRun = true) ∧ ((s.sequencer q).running = true) ∧
      ((s.sequencer q).entry = (s.sequencer q).table.entries.length)) ∧ ∃ x, ((s.sequencer q).waiting = some x) :=
  ⟨0, modSequencer 0
    (fun x => { x with table := { start := 2, trigSrc := 1, periodUs := 5, entries := [{}] }, periodInForce := 5, running := true, entry := 1, waiting := some {} })
    (run), by decide, {}, by decide⟩

/-! ValuesReachTheirDestinations -/

theorem test_witness_valuesReachTheirDestinations_1 :
    ∃ q : Fin 2, ∃ v : List Int, ∃ e : SeqEntry, ∃ s : State, ((s.blocksRun = true) ∧ ((s.sequencer q).running = true) ∧
      ((s.dom 8 0).state = 0) ∧ ((s.sequencer q).table.entries[(s.sequencer q).entry]? = some e) ∧ (v.length = 2 ^ e.what.avgLog2)) ∧
      ∃ i, (e.slot = some i) ∧ ((s.monSlot i).now.count ≠ 0xFFFFFFFF) :=
  ⟨1, [5, 7], { slot := some 63, tracker := some 31, decim := some 7 }, modSequencer 1
    (fun x => { x with table := { start := 1, entries := [{ slot := some 63, tracker := some 31, decim := some 7 }] }, running := true })
    (inState 8 0 0 run), by decide, 63, by decide⟩

theorem test_witness_valuesReachTheirDestinations_2 :
    ∃ q : Fin 2, ∃ v : List Int, ∃ e : SeqEntry, ∃ s : State, ((s.blocksRun = true) ∧ ((s.sequencer q).running = true) ∧
      ((s.dom 8 0).state = 0) ∧ ((s.sequencer q).table.entries[(s.sequencer q).entry]? = some e) ∧ (v.length = 2 ^ e.what.avgLog2)) ∧
      ∃ i, (e.slot = some i) ∧ ((s.monSlot i).now.count = 0xFFFFFFFF) :=
  ⟨1, [5, 7], { slot := some 63, tracker := some 31, decim := some 7 }, modSequencer 1
    (fun x => { x with table := { start := 1, entries := [{ slot := some 63, tracker := some 31, decim := some 7 }] }, running := true })
    (modMonSlot 63 (fun m => { m with now := { m.now with count := 0xFFFFFFFF } }) (inState 8 0 0 run)), by decide, 63, by decide⟩

theorem test_witness_valuesReachTheirDestinations_3 :
    ∃ q : Fin 2, ∃ v : List Int, ∃ e : SeqEntry, ∃ s : State, ((s.blocksRun = true) ∧ ((s.sequencer q).running = true) ∧
      ((s.dom 8 0).state = 0) ∧ ((s.sequencer q).table.entries[(s.sequencer q).entry]? = some e) ∧ (v.length = 2 ^ e.what.avgLog2)) ∧
      ∃ i, (e.tracker = some i) :=
  ⟨1, [5, 7], { slot := some 63, tracker := some 31, decim := some 7 }, modSequencer 1
    (fun x => { x with table := { start := 1, entries := [{ slot := some 63, tracker := some 31, decim := some 7 }] }, running := true })
    (inState 8 0 0 run), by decide, 31, by decide⟩

theorem test_witness_valuesReachTheirDestinations_4 :
    ∃ q : Fin 2, ∃ v : List Int, ∃ e : SeqEntry, ∃ s : State, ((s.blocksRun = true) ∧ ((s.sequencer q).running = true) ∧
      ((s.dom 8 0).state = 0) ∧ ((s.sequencer q).table.entries[(s.sequencer q).entry]? = some e) ∧ (v.length = 2 ^ e.what.avgLog2)) ∧
      ∃ c, (e.decim = some c) ∧ ((s.decim c).config.enabled = true) :=
  ⟨1, [5, 7], { slot := some 63, tracker := some 31, decim := some 7 }, modSequencer 1
    (fun x => { x with table := { start := 1, entries := [{ slot := some 63, tracker := some 31, decim := some 7 }] }, running := true })
    (modDecim 7 (fun d => { d with config := { enabled := true, snap := true } }) (inState 8 0 0 run)), by decide, 7, by decide⟩

theorem test_witness_valuesReachTheirDestinations_5 :
    ∃ q : Fin 2, ∃ v : List Int, ∃ e : SeqEntry, ∃ s : State, ((s.blocksRun = true) ∧ ((s.sequencer q).running = true) ∧
      ((s.dom 8 0).state = 0) ∧ ((s.sequencer q).table.entries[(s.sequencer q).entry]? = some e) ∧ (v.length = 2 ^ e.what.avgLog2)) ∧
      ∃ i, (e.slot ≠ some i) :=
  ⟨1, [5, 7], { slot := some 63, tracker := some 31, decim := some 7 }, modSequencer 1
    (fun x => { x with table := { start := 1, entries := [{ slot := some 63, tracker := some 31, decim := some 7 }] }, running := true })
    (inState 8 0 0 run), by decide, 0, by decide⟩

theorem test_witness_valuesReachTheirDestinations_6 :
    ∃ q : Fin 2, ∃ v : List Int, ∃ e : SeqEntry, ∃ s : State, ((s.blocksRun = true) ∧ ((s.sequencer q).running = true) ∧
      ((s.dom 8 0).state = 0) ∧ ((s.sequencer q).table.entries[(s.sequencer q).entry]? = some e) ∧ (v.length = 2 ^ e.what.avgLog2)) ∧
      ∃ i, (e.tracker ≠ some i) :=
  ⟨1, [5, 7], { slot := some 63, tracker := some 31, decim := some 7 }, modSequencer 1
    (fun x => { x with table := { start := 1, entries := [{ slot := some 63, tracker := some 31, decim := some 7 }] }, running := true })
    (inState 8 0 0 run), by decide, 0, by decide⟩

theorem test_witness_valuesReachTheirDestinations_7 :
    ∃ c : Fin 2, ∃ v : List Int, ∃ i : Injection, ∃ s : State, ((s.blocksRun = true) ∧ ((s.dom 8 0).state = 0) ∧
      (s.injection c = some i) ∧ (v.length = 2 ^ i.what.avgLog2) ∧ (s.control.mp = .running)) ∧ ∃ n, (i.slot = some n) ∧
      ((s.monSlot n).now.count ≠ 0xFFFFFFFF) :=
  ⟨1, [5, 7], ⟨{}, some 63, none, 1, {}⟩, setInjection 1 (some ⟨{}, some 63, none, 1, {}⟩) (inState 8 0 0 run), by decide, 63, by
    decide⟩

theorem test_witness_valuesReachTheirDestinations_8 :
    ∃ c : Fin 2, ∃ v : List Int, ∃ i : Injection, ∃ s : State, ((s.blocksRun = true) ∧ ((s.dom 8 0).state = 0) ∧
      (s.injection c = some i) ∧ (v.length = 2 ^ i.what.avgLog2) ∧ (s.control.mp = .running)) ∧ ∃ x, (s.control.journal.find?
      (fun x => x.id == i.entry) = some x) ∧ (x.state = .applying) :=
  ⟨1, [5, 7], ⟨{}, some 63, none, 1, {}⟩, modControl (fun c => { c with journal := [applying] })
    (setInjection 1 (some ⟨{}, some 63, none, 1, {}⟩) (inState 8 0 0 run)), by decide, applying, by decide⟩

theorem test_witness_valuesReachTheirDestinations_9 :
    ∃ c : Fin 8, ∃ x : DecimDue, ∃ rest : List DecimDue, ∃ s : State, (s.blocksRun = true) ∧ ((s.decim c).due = x :: rest) ∧
      (x.entered < (s.decim c).config.window) :=
  ⟨7, ⟨9, 3⟩, [], modDecim 7
    (fun d => { d with config := { enabled := true, snap := true, slot := some 3 }, due := [⟨9, 3⟩], settled := false }) run, by
    decide⟩

theorem test_witness_valuesReachTheirDestinations_10 :
    ∃ c : Fin 8, ∃ x : DecimDue, ∃ rest : List DecimDue, ∃ s : State, ((s.blocksRun = true) ∧ ((s.decim c).due = x :: rest) ∧
      ((s.decim c).config.snap = true) ∧ ((s.decim c).config.window ≤ x.entered)) ∧ ∃ i, ((s.decim c).config.slot = some i) ∧
      ((s.monSlot i).now.count ≠ 0xFFFFFFFF) ∧ ((s.decim c).settled = false) ∧ ((s.monSlot i).now.count + 1 ≠ 0xFFFFFFFF) :=
  ⟨7, ⟨9, 4⟩, [], modDecim 7
    (fun d => { d with config := { enabled := true, snap := true, slot := some 3 }, due := [⟨9, 4⟩], settled := false }) run, by
    decide, 3, by decide⟩

theorem test_witness_valuesReachTheirDestinations_11 :
    ∃ c : Fin 8, ∃ x : DecimDue, ∃ rest : List DecimDue, ∃ s : State, (s.blocksRun = true) ∧ ((s.decim c).due = x :: rest) ∧
      ((s.decim c).settled = false) ∧ ((s.decim c).config.window ≤ x.entered) :=
  ⟨7, ⟨9, 4⟩, [], modDecim 7
    (fun d => { d with config := { enabled := true, snap := true, slot := some 3 }, due := [⟨9, 4⟩], settled := false }) run, by
    decide⟩

theorem test_witness_valuesReachTheirDestinations_12 :
    ∃ c : Fin 8, ∃ x : DecimDue, ∃ rest : List DecimDue, ∃ s : State, ((s.blocksRun = true) ∧ ((s.decim c).due = x :: rest)) ∧
      ((s.decim c).settled = true ∨ x.entered < (s.decim c).config.window) :=
  ⟨7, ⟨9, 4⟩, [], modDecim 7
    (fun d => { d with config := { enabled := true, snap := true, slot := some 3 }, due := [⟨9, 4⟩], settled := true }) run, by
    decide, (Or.inl (by decide))⟩

/-! MonitorCommandsComplete -/

theorem test_witness_monitorCommandsComplete_1 :
    ∃ q : Request, ∃ s : State, (taken 0x0C01 q s = true) ∧ (q.u = 0) ∧ (q.b 0 ≤ 1) ∧ (q.b 1 ≤ 2) ∧ (q.b 2 ≤
      (if q.b 0 = 1 then 0 else 1)) ∧ (q.b 3 = 0) ∧ (q.b 0 = 1 ∨ (q.b 2 == 1) = s.monitor.wantPair.getD s.monitor.pair ∨ ∀ k < 2,
      (s.sequencer k).table.start = 0 ∧ (s.sequencer k).waiting = none) ∧ (s.serves 8 0 = false) :=
  ⟨rq 0x0C01 [(0, 1), (1, 2)], run, by decide⟩

theorem test_witness_monitorCommandsComplete_2 :
    ∃ q : Request, ∃ s : State, (taken 0x0C01 q s = true) ∧ (q.u = 0) ∧ (q.b 0 ≤ 1) ∧ (q.b 1 ≤ 2) ∧ (q.b 2 ≤
      (if q.b 0 = 1 then 0 else 1)) ∧ (q.b 3 = 0) ∧ (q.b 0 = 1 ∨ (q.b 2 == 1) = s.monitor.wantPair.getD s.monitor.pair ∨ ∀ k < 2,
      (s.sequencer k).table.start = 0 ∧ (s.sequencer k).waiting = none) ∧ (s.serves 8 0 = true) :=
  ⟨rq 0x0C01 [(0, 1), (1, 2)], inState 8 0 0 run, by decide⟩

theorem test_witness_monitorCommandsComplete_3 :
    ∃ q : Request, ∃ s : State, ((taken 0x0C02 q s = true) ∧ (q.u = 0) ∧ (q.b 0 ≤ (if s.monitor.pair then 0 else 1)) ∧ (q.b 1 ≤ 2) ∧
      (q.b 2 ≤ (if q.b 1 = 2 then 3 else 0)) ∧ (1 ≤ q.b 3 ∧ q.b 3 ≤ if s.monitor.pair then 1 else 16) ∧
      (q.payload.length = 8 + 8 * q.b 3) ∧ (q.b 2 = 1 → 10 ≤ q.w 4 ∧ q.w 4 ≤ 1000000 ∧ 1000000 % q.w 4 = 0) ∧ (q.b 2 ≠ 1 → q.w 4 = 0)
      ∧ (∀ e < q.b 3, (entryChecks q e).all (fun x => x.1) = true)) ∧ ∃ d,
      ((secondProducer ((⟨q.b 1, q.b 2, q.w 4, (List.range (q.b 3)).map (entryOf q)⟩ : SeqTable)).feeds (s.seqFeeds (1 - q.b 0) ++ s.decimFeeds none ++ s.injectFeeds))
      = some d) :=
  ⟨rqn 16 ([(0, 1), (1, 2), (2, 1), (3, 1)] ++ pb 4 4 1000000 ++ [(8, 0x21), (9, 8), (10, 8), (11, 63), (12, 31), (13, 0xFF)]),
    modSequencer 0 (fun x => { x with table := { start := 1, entries := [{ slot := some 63 }] } }) run, by decide, (0, 63), by decide⟩

theorem test_witness_monitorCommandsComplete_4 :
    ∃ q : Request, ∃ s : State, (taken 0x0C02 q s = true) ∧ (q.u = 0) ∧ (q.b 0 ≤ (if s.monitor.pair then 0 else 1)) ∧ (q.b 1 ≤ 2) ∧
      (q.b 2 ≤ (if q.b 1 = 2 then 3 else 0)) ∧ (1 ≤ q.b 3 ∧ q.b 3 ≤ if s.monitor.pair then 1 else 16) ∧ (q.payload.length = 8 + 8 *
      q.b 3) ∧ (q.b 2 = 1 → 10 ≤ q.w 4 ∧ q.w 4 ≤ 1000000 ∧ 1000000 % q.w 4 = 0) ∧ (q.b 2 ≠ 1 → q.w 4 = 0) ∧ (∀ e < q.b 3,
      (entryChecks q e).all (fun x => x.1) = true) ∧
      ((secondProducer ((⟨q.b 1, q.b 2, q.w 4, (List.range (q.b 3)).map (entryOf q)⟩ : SeqTable)).feeds (s.seqFeeds (1 - q.b 0) ++ s.decimFeeds none ++ s.injectFeeds))
      = none) ∧ (s.serves 8 0 = false) :=
  ⟨rqn 16 ([(0, 1), (1, 2), (2, 1), (3, 1)] ++ pb 4 4 1000000 ++ [(8, 0x21), (9, 8), (10, 8), (11, 63), (12, 31), (13, 0xFF)]), run,
    by decide⟩

theorem test_witness_monitorCommandsComplete_5 :
    ∃ q : Request, ∃ s : State, (taken 0x0C02 q s = true) ∧ (q.u = 0) ∧ (q.b 0 ≤ (if s.monitor.pair then 0 else 1)) ∧ (q.b 1 ≤ 2) ∧
      (q.b 2 ≤ (if q.b 1 = 2 then 3 else 0)) ∧ (1 ≤ q.b 3 ∧ q.b 3 ≤ if s.monitor.pair then 1 else 16) ∧ (q.payload.length = 8 + 8 *
      q.b 3) ∧ (q.b 2 = 1 → 10 ≤ q.w 4 ∧ q.w 4 ≤ 1000000 ∧ 1000000 % q.w 4 = 0) ∧ (q.b 2 ≠ 1 → q.w 4 = 0) ∧ (∀ e < q.b 3,
      (entryChecks q e).all (fun x => x.1) = true) ∧
      ((secondProducer ((⟨q.b 1, q.b 2, q.w 4, (List.range (q.b 3)).map (entryOf q)⟩ : SeqTable)).feeds (s.seqFeeds (1 - q.b 0) ++ s.decimFeeds none ++ s.injectFeeds))
      = none) ∧ (s.serves 8 0 = true) ∧ ((s.sequencer (q.b 0)).running = true) :=
  ⟨rqn 16 ([(0, 1), (1, 2), (2, 1), (3, 1)] ++ pb 4 4 1000000 ++ [(8, 0x21), (9, 8), (10, 8), (11, 63), (12, 31), (13, 0xFF)]),
    modSequencer 1 (fun x => { x with running := true }) (inState 8 0 0 run), by decide⟩

theorem test_witness_monitorCommandsComplete_6 :
    ∃ q : Request, ∃ s : State, (taken 0x0C02 q s = true) ∧ (q.u = 0) ∧ (q.b 0 ≤ (if s.monitor.pair then 0 else 1)) ∧ (q.b 1 ≤ 2) ∧
      (q.b 2 ≤ (if q.b 1 = 2 then 3 else 0)) ∧ (1 ≤ q.b 3 ∧ q.b 3 ≤ if s.monitor.pair then 1 else 16) ∧ (q.payload.length = 8 + 8 *
      q.b 3) ∧ (q.b 2 = 1 → 10 ≤ q.w 4 ∧ q.w 4 ≤ 1000000 ∧ 1000000 % q.w 4 = 0) ∧ (q.b 2 ≠ 1 → q.w 4 = 0) ∧ (∀ e < q.b 3,
      (entryChecks q e).all (fun x => x.1) = true) ∧
      ((secondProducer ((⟨q.b 1, q.b 2, q.w 4, (List.range (q.b 3)).map (entryOf q)⟩ : SeqTable)).feeds (s.seqFeeds (1 - q.b 0) ++ s.decimFeeds none ++ s.injectFeeds))
      = none) ∧ (s.serves 8 0 = true) ∧ ((s.sequencer (q.b 0)).running = false) :=
  ⟨rqn 16 ([(0, 1), (1, 2), (2, 1), (3, 1)] ++ pb 4 4 1000000 ++ [(8, 0x21), (9, 8), (10, 8), (11, 63), (12, 31), (13, 0xFF)]),
    inState 8 0 0 run, by decide⟩

theorem test_witness_monitorCommandsComplete_7 :
    ∃ q : Request, ∃ s : State, ((taken 0x0C03 q s = true) ∧ (q.u = 0) ∧ (q.b 0 ≤ 7) ∧ (q.b 1 ≤ 1) ∧ (2 ≤ q.b 5 ∧ q.b 5 ≤ 10) ∧
      (q.b 7 = 0) ∧ (q.h 14 = 0) ∧
      ((q.b 2 = 1 ∧ q.b 3 = 0 ∧ q.b 4 = 0 ∧ q.b 6 = 0) ∨ (q.b 2 = 0 ∧ 3 ≤ q.b 3 ∧ q.b 3 ≤ 5 ∧ 1 ≤ q.b 4 ∧ q.b 4 ≤ 2 ∧ q.b 6 ≤ 1)) ∧
      (q.b 6 = 1 → 16777216 ≤ q.w 8 ∧ q.w 8 ≤ 33554432) ∧ (q.b 6 = 0 → q.w 8 = 0) ∧ (q.b 12 < 64 ∨ q.b 12 = 0xFF) ∧
      (q.b 13 < 32 ∨ q.b 13 = 0xFF)) ∧ ∃ d,
      ((secondProducer ((⟨q.b 1 == 1, q.b 2 == 1, q.b 3, q.b 4, q.b 5, q.b 6 == 1, q.w 8, orNone (q.b 12), orNone (q.b 13)⟩ : DecimConfig)).feeds ([0, 1].flatMap s.seqFeeds ++ s.decimFeeds (some (q.b 0)) ++ s.injectFeeds))
      = some d) :=
  ⟨rq 0x0C03 ([(0, 7), (1, 1), (3, 5), (4, 2), (5, 10), (6, 1), (12, 63), (13, 0xFF)] ++ pb 4 8 33554432), modSequencer 0
    (fun x => { x with table := { start := 1, entries := [{ slot := some 63 }] } }) run, by decide, (0, 63), by decide⟩

theorem test_witness_monitorCommandsComplete_8 :
    ∃ q : Request, ∃ s : State, (taken 0x0C03 q s = true) ∧ (q.u = 0) ∧ (q.b 0 ≤ 7) ∧ (q.b 1 ≤ 1) ∧ (2 ≤ q.b 5 ∧ q.b 5 ≤ 10) ∧ (q.b 7
      = 0) ∧ (q.h 14 = 0) ∧ ((q.b 2 = 1 ∧ q.b 3 = 0 ∧ q.b 4 = 0 ∧ q.b 6 = 0) ∨
      (q.b 2 = 0 ∧ 3 ≤ q.b 3 ∧ q.b 3 ≤ 5 ∧ 1 ≤ q.b 4 ∧ q.b 4 ≤ 2 ∧ q.b 6 ≤ 1)) ∧ (q.b 6 = 1 → 16777216 ≤ q.w 8 ∧ q.w 8 ≤ 33554432) ∧
      (q.b 6 = 0 → q.w 8 = 0) ∧ (q.b 12 < 64 ∨ q.b 12 = 0xFF) ∧ (q.b 13 < 32 ∨ q.b 13 = 0xFF) ∧
      ((secondProducer ((⟨q.b 1 == 1, q.b 2 == 1, q.b 3, q.b 4, q.b 5, q.b 6 == 1, q.w 8, orNone (q.b 12), orNone (q.b 13)⟩ : DecimConfig)).feeds ([0, 1].flatMap s.seqFeeds ++ s.decimFeeds (some (q.b 0)) ++ s.injectFeeds))
      = none) ∧ (s.serves 8 0 = false) :=
  ⟨rq 0x0C03 ([(0, 7), (1, 1), (3, 5), (4, 2), (5, 10), (6, 1), (12, 63), (13, 0xFF)] ++ pb 4 8 33554432), run, by decide⟩

theorem test_witness_monitorCommandsComplete_9 :
    ∃ q : Request, ∃ s : State, (taken 0x0C03 q s = true) ∧ (q.u = 0) ∧ (q.b 0 ≤ 7) ∧ (q.b 1 ≤ 1) ∧ (2 ≤ q.b 5 ∧ q.b 5 ≤ 10) ∧ (q.b 7
      = 0) ∧ (q.h 14 = 0) ∧ ((q.b 2 = 1 ∧ q.b 3 = 0 ∧ q.b 4 = 0 ∧ q.b 6 = 0) ∨
      (q.b 2 = 0 ∧ 3 ≤ q.b 3 ∧ q.b 3 ≤ 5 ∧ 1 ≤ q.b 4 ∧ q.b 4 ≤ 2 ∧ q.b 6 ≤ 1)) ∧ (q.b 6 = 1 → 16777216 ≤ q.w 8 ∧ q.w 8 ≤ 33554432) ∧
      (q.b 6 = 0 → q.w 8 = 0) ∧ (q.b 12 < 64 ∨ q.b 12 = 0xFF) ∧ (q.b 13 < 32 ∨ q.b 13 = 0xFF) ∧
      ((secondProducer ((⟨q.b 1 == 1, q.b 2 == 1, q.b 3, q.b 4, q.b 5, q.b 6 == 1, q.w 8, orNone (q.b 12), orNone (q.b 13)⟩ : DecimConfig)).feeds ([0, 1].flatMap s.seqFeeds ++ s.decimFeeds (some (q.b 0)) ++ s.injectFeeds))
      = none) ∧ (s.serves 8 0 = true) :=
  ⟨rq 0x0C03 ([(0, 7), (1, 1), (3, 5), (4, 2), (5, 10), (6, 1), (12, 63), (13, 0xFF)] ++ pb 4 8 33554432), inState 8 0 0 run, by
    decide⟩

theorem test_witness_monitorCommandsComplete_10 :
    ∃ q : Request, ∃ s : State, ((taken 0x0C04 q s = true) ∧ (q.u = 0) ∧ (isZero q.payload 12 4 = true)) ∧ ∃ i, (i < 64) ∧
      ((s.monSlot i).perSecond = (q.d 0).testBit i) :=
  ⟨rq 0x0C04 (pb 8 0 0x8000000000000000), run, by decide, 0, by decide⟩

theorem test_witness_monitorCommandsComplete_11 :
    ∃ q : Request, ∃ s : State, ((taken 0x0C04 q s = true) ∧ (q.u = 0) ∧ (isZero q.payload 12 4 = true)) ∧ ∃ i, (i < 64) ∧
      ((s.monSlot i).perSecond ≠ (q.d 0).testBit i) :=
  ⟨rq 0x0C04 (pb 8 0 0x8000000000000000), run, by decide, 63, by decide⟩

theorem test_witness_monitorCommandsComplete_12 :
    ∃ q : Request, ∃ s : State, ((taken 0x0C04 q s = true) ∧ (q.u = 0) ∧ (isZero q.payload 12 4 = true)) ∧ ∃ i, (i < 32) ∧
      ((s.tracker i).perSecond = (q.w 8).testBit i) :=
  ⟨rq 0x0C04 (pb 8 0 0x8000000000000000), run, by decide, 31, by decide⟩

theorem test_witness_monitorCommandsComplete_13 :
    ∃ q : Request, ∃ s : State, ((taken 0x0C05 q s = true) ∧ (q.u = 0) ∧ (isZero q.payload 1 3 = true)) ∧ ∃ k, (k < 2) ∧ (1 ≤ q.b 0) ∧
      (q.b 0 ≤ 3) ∧ ((q.b 0).testBit k = true) ∧ ((s.sequencer k).table.start ≠ 2 ∨ (s.sequencer k).table.trigSrc ≠ 0) :=
  ⟨rq 0x0C05 [(0, 3)], run, by decide, 1, by decide⟩

theorem test_witness_monitorCommandsComplete_14 :
    ∃ q : Request, ∃ s : State, ((taken 0x0C05 q s = true) ∧ (q.u = 0) ∧ (isZero q.payload 1 3 = true)) ∧ ∃ k, (k < 2) ∧ (q.b 0 = 2 ^
      k) ∧ ((s.sequencer k).table.start = 2) ∧ ((s.sequencer k).table.trigSrc = 0) ∧
      ((if (s.sequencer k).latched = true then 2 else if s.canStart k = true then 0 else 1) = 0) :=
  ⟨rq 0x0C05 [(0, 2)], modSequencer 1 (fun x => { x with table := { start := 2, entries := [{}] } }) (inState 8 0 0 run), by decide,
    1, by decide⟩

theorem test_witness_monitorCommandsComplete_15 :
    ∃ q : Request, ∃ s : State, ((taken 0x0C05 q s = true) ∧ (q.u = 0) ∧ (isZero q.payload 1 3 = true)) ∧ ∃ k, (k < 2) ∧ (q.b 0 = 2 ^
      k) ∧ ((s.sequencer k).table.start = 2) ∧ ((s.sequencer k).table.trigSrc = 0) ∧
      ((if (s.sequencer k).latched = true then 2 else if s.canStart k = true then 0 else 1) = 1) :=
  ⟨rq 0x0C05 [(0, 2)], modSequencer 1 (fun x => { x with table := { start := 2, entries := [{}] }, running := true })
    (inState 8 0 0 run), by decide, 1, by decide⟩

theorem test_witness_monitorCommandsComplete_16 :
    ∃ q : Request, ∃ s : State, ((taken 0x0C05 q s = true) ∧ (q.u = 0) ∧ (isZero q.payload 1 3 = true)) ∧ ∃ k, (k < 2) ∧ (q.b 0 = 2 ^
      k) ∧ ((s.sequencer k).table.start = 2) ∧ ((s.sequencer k).table.trigSrc = 0) ∧
      ((if (s.sequencer k).latched = true then 2 else if s.canStart k = true then 0 else 1) = 2) :=
  ⟨rq 0x0C05 [(0, 2)], modSequencer 1 (fun x => { x with table := { start := 2, entries := [{}] }, latched := true })
    (inState 8 0 0 run), by decide, 1, by decide⟩

theorem test_witness_monitorCommandsComplete_17 :
    ∃ q : Request, ∃ s : State, (taken 0x0C06 q s = true) ∧ (q.u = 0) ∧ (q.b 0 ≤ 1) ∧ (monInput (q.b 1) = true) ∧ (1 ≤ q.b 2 ∧ q.b 2 ≤
      8) ∧ (q.b 3 ≤ q.b 2) ∧ (q.b 4 < 64 ∨ q.b 4 = 0xFF) ∧ (q.b 5 < 32 ∨ q.b 5 = 0xFF) ∧ (q.h 6 = 0) ∧ (s.monitor.pair = true) :=
  ⟨rq 0x0C06 [(0, 1), (1, 0x21), (2, 8), (3, 8), (4, 63), (5, 0xFF)], modMonitor (fun m => { m with pair := true }) run, by decide⟩

theorem test_witness_monitorCommandsComplete_18 :
    ∃ q : Request, ∃ s : State, (taken 0x0C06 q s = true) ∧ (q.u = 0) ∧ (q.b 0 ≤ 1) ∧ (monInput (q.b 1) = true) ∧ (1 ≤ q.b 2 ∧ q.b 2 ≤
      8) ∧ (q.b 3 ≤ q.b 2) ∧ (q.b 4 < 64 ∨ q.b 4 = 0xFF) ∧ (q.b 5 < 32 ∨ q.b 5 = 0xFF) ∧ (q.h 6 = 0) ∧ (s.monitor.pair = false) ∧
      ((s.injection (q.b 0)).isSome = true) :=
  ⟨rq 0x0C06 [(0, 1), (1, 0x21), (2, 8), (3, 8), (4, 63), (5, 0xFF)], setInjection 1 (some ⟨{}, some 63, none, 1, {}⟩) run, by decide⟩

theorem test_witness_monitorCommandsComplete_19 :
    ∃ q : Request, ∃ s : State, (taken 0x0C06 q s = true) ∧ (q.u = 0) ∧ (q.b 0 ≤ 1) ∧ (monInput (q.b 1) = true) ∧ (1 ≤ q.b 2 ∧ q.b 2 ≤
      8) ∧ (q.b 3 ≤ q.b 2) ∧ (q.b 4 < 64 ∨ q.b 4 = 0xFF) ∧ (q.b 5 < 32 ∨ q.b 5 = 0xFF) ∧ (q.h 6 = 0) ∧ (s.monitor.pair = false) ∧
      (s.injection (q.b 0) = none) ∧ (secondProducer (destinations (orNone (q.b 4)) (orNone (q.b 5)) none)
      ([0, 1].flatMap s.seqFeeds ++ s.decimFeeds none) = none) ∧ (s.serves 8 0 = false) :=
  ⟨rq 0x0C06 [(0, 1), (1, 0x21), (2, 8), (3, 8), (4, 63), (5, 0xFF)], run, by decide⟩

theorem test_witness_monitorCommandsComplete_20 :
    ∃ q : Request, ∃ s : State, (taken 0x0C06 q s = true) ∧ (q.u = 0) ∧ (q.b 0 ≤ 1) ∧ (monInput (q.b 1) = true) ∧ (1 ≤ q.b 2 ∧ q.b 2 ≤
      8) ∧ (q.b 3 ≤ q.b 2) ∧ (q.b 4 < 64 ∨ q.b 4 = 0xFF) ∧ (q.b 5 < 32 ∨ q.b 5 = 0xFF) ∧ (q.h 6 = 0) ∧ (s.monitor.pair = false) ∧
      (s.injection (q.b 0) = none) ∧ (secondProducer (destinations (orNone (q.b 4)) (orNone (q.b 5)) none)
      ([0, 1].flatMap s.seqFeeds ++ s.decimFeeds none) = none) ∧ (s.serves 8 0 = true) :=
  ⟨rq 0x0C06 [(0, 1), (1, 0x21), (2, 8), (3, 8), (4, 63), (5, 0xFF)], inState 8 0 0 run, by decide⟩

theorem test_witness_monitorCommandsComplete_21 :
    ∃ q : Request, ∃ s : State, (taken 0x0C07 q s = true) ∧ (q.u = 0) ∧ (q.b 0 < 64) ∧ (q.b 0 + q.b 1 ≤ 64) ∧ (q.b 2 ≤ 1) ∧ (q.b 3 =
      0) :=
  ⟨rq 0x0C07 [(0, 63), (1, 1), (2, 1)], run, by decide⟩

theorem test_witness_monitorCommandsComplete_22 :
    ∃ q : Request, ∃ s : State, (taken 0x0C08 q s = true) ∧ (q.u = 0) ∧ (q.b 0 < 32) ∧ (q.b 0 + q.b 1 ≤ 32) ∧ (q.b 2 ≤ 1) ∧ (q.b 3 =
      0) :=
  ⟨rq 0x0C08 [(0, 31), (1, 1), (2, 1)], run, by decide⟩

theorem test_witness_monitorCommandsComplete_23 :
    ∃ q : Request, ∃ s : State, (taken 0x0C09 q s = true) ∧ (q.u = 0) :=
  ⟨rq 0x0C09 [], run, by decide⟩

/-! StreamPortCarriesMessages -/

theorem test_witness_streamPortCarriesMessages_1 :
    ∃ m : Message, ∃ rest : List Message, ∃ s : State, (s.streamRuns = true) ∧ (s.stream.state = 2) ∧ (tblGet []
      s.stream.credit.queues 1 = m :: rest) ∧ (s.streamRoom m = false) :=
  ⟨{ vc := 1, body := .packet {} (some 1) }, [], modStream
    (fun t => { t with credit := { t.credit with queues := [(1, [{ vc := 1, body := .packet {} (some 1) }])] } })
    (modStream (fun t => { t with state := 2 }) run), by decide⟩

theorem test_witness_streamPortCarriesMessages_2 :
    ∃ m : Message, ∃ rest : List Message, ∃ s : State, ((s.streamRuns = true) ∧ (s.stream.state = 2) ∧
      (tblGet [] s.stream.credit.queues 1 = m :: rest) ∧ (s.streamRoom m = true)) ∧ ∃ p, ∃ e, (m.body = .packet p (some e)) :=
  ⟨{ vc := 1, body := .packet {} (some 1) }, [], modStream
    (fun t => { t with credit := { t.credit with queues := [(1, [{ vc := 1, body := .packet {} (some 1) }])] } }) stream, by decide,
    {}, 1, by decide⟩

theorem test_witness_streamPortCarriesMessages_3 :
    ∃ e : EventRec, ∃ rest : List EventRec, ∃ s : State, (s.streamRuns = true) ∧ (s.stream.state = 2) ∧ (s.control.routeStream.queue =
      e :: rest) ∧ (s.control.routeStream.lost = 0) ∧ (s.streamRoom { vc := 2, body := .packet (eventPacket s e) none } = true) :=
  ⟨event, [], modControl (fun c => { c with routeStream := { queue := [event] } }) stream, by decide⟩

theorem test_witness_streamPortCarriesMessages_4 :
    ∃ u : Nat, ∃ s : State, (s.streamRuns = true) ∧ (s.stream.state = 2) ∧ (s.nextDrain = some u) ∧ (s.streamRoom
      { vc := 3, body := .records u (headRecords (s.countUnit u)).1 (headRecords (s.countUnit u)).2 } = true) :=
  ⟨0, modCountUnit 0 (fun c => { c with records := [(1, zeros 16)] }) stream, by decide⟩

theorem test_witness_streamPortCarriesMessages_5 :
    ∃ m : Message, ∃ s : State, (s.streamRuns = true) ∧ (s.stream.enabled = true) ∧ (s.stream.state = 2) ∧ ((bodyBytes m.body).length
      ≤ 16412) ∧ (m.seq ≠ s.stream.credit.rxSeq + 1) :=
  ⟨{ vc := 1, body := .packet {} (some 1) }, stream, by decide⟩

theorem test_witness_streamPortCarriesMessages_6 :
    ∃ m : Message, ∃ s : State, ((s.streamRuns = true) ∧ (s.stream.enabled = true) ∧ (s.stream.state = 2) ∧
      ((bodyBytes m.body).length ≤ 16412) ∧ (m.seq = s.stream.credit.rxSeq + 1)) ∧ ∃ p, ∃ e, (m.vc = 0) ∧ (m.body = .packet p e) ∧
      (((({ port := .stream, bytes := packetBytes p, count := packetSize p } : RxItem)).sound && s.repeats (opOf (parsePacket (({ port := .stream, bytes := packetBytes p, count := packetSize p } : RxItem)).bytes).opcode.toNat) (({ port := .stream, bytes := packetBytes p, count := packetSize p } : RxItem)).request)
      = false) :=
  ⟨{ vc := 0, seq := 1, body := .packet {} none }, stream, (by decide +kernel), {}, none, (by decide +kernel)⟩

theorem test_witness_streamPortCarriesMessages_7 :
    ∃ m : Message, ∃ s : State, ((s.streamRuns = true) ∧ (s.stream.enabled = true) ∧ (s.stream.state = 2) ∧
      ((bodyBytes m.body).length ≤ 16412) ∧ (m.seq = s.stream.credit.rxSeq + 1)) ∧ ∃ p, ∃ e, (m.vc = 0) ∧ (m.body = .packet p e) ∧
      (((({ port := .stream, bytes := packetBytes p, count := packetSize p } : RxItem)).sound && s.repeats (opOf (parsePacket (({ port := .stream, bytes := packetBytes p, count := packetSize p } : RxItem)).bytes).opcode.toNat) (({ port := .stream, bytes := packetBytes p, count := packetSize p } : RxItem)).request)
      = true) :=
  ⟨{ vc := 0, seq := 1, body := .packet (requestPacket 0x0202 (rq 0x0202 [])) none }, enqueueRx
    { port := .stream, bytes := packetBytes (requestPacket 0x0202 (rq 0x0202 [])), count := 32 } stream, (by decide +kernel),
    requestPacket 0x0202 (rq 0x0202 []), none, (by decide +kernel)⟩

theorem test_witness_streamPortCarriesMessages_8 :
    ∃ m : Message, ∃ s : State, (s.streamRuns = true) ∧ (s.stream.enabled = true) ∧ (s.stream.state = 2) ∧ ((bodyBytes m.body).length
      ≤ 16412) ∧ (m.seq = s.stream.credit.rxSeq + 1) ∧ (m.vc ≠ 0) :=
  ⟨{ vc := 1, seq := 1, body := .packet {} none }, stream, by decide⟩

theorem test_witness_streamPortCarriesMessages_9 :
    ∃ k : LinkControl, ∃ s : State, (s.streamRuns = true) ∧ (s.stream.enabled = true) ∧ (s.stream.state = 2) ∧ (grantsMeet k.grants =
      true) :=
  ⟨{ grants := [0, 65, 65, 9] }, stream, by decide⟩

theorem test_witness_streamPortCarriesMessages_10 :
    ∃ k : LinkControl, ∃ s : State, (s.streamRuns = true) ∧ (s.stream.enabled = true) ∧ (s.stream.state = 2) ∧ (grantsMeet k.grants =
      false) :=
  ⟨{ grants := [0, 65, 65, 8] }, stream, by decide⟩

theorem test_witness_streamPortCarriesMessages_11 :
    ∃ s : State, (s.streamRuns = true) ∧ (s.stream.state = 2 ∨ s.stream.state = 4) :=
  ⟨modStream (fun t => { t with state := 4, enabled := true }) run, by decide⟩

theorem test_witness_streamPortCarriesMessages_12 :
    ∃ s : State, (s.streamRuns = true) ∧ (s.stream.state = 2) :=
  ⟨modStream (fun t => { t with state := 2, enabled := true }) run, by decide⟩

theorem test_witness_streamPortCarriesMessages_13 :
    ∃ s : State, (s.streamRuns = true) ∧ (s.stream.enabled = true) ∧ (s.stream.state = 3) :=
  ⟨modStream (fun t => { t with state := 3, enabled := true }) run, by decide⟩

theorem test_witness_streamPortCarriesMessages_14 :
    ∃ s : State, (s.streamRuns = true) ∧ (s.stream.enabled = true) ∧ (s.stream.state = 2 ∨ s.stream.state = 4) :=
  ⟨modStream (fun t => { t with state := 4, enabled := true }) run, by decide⟩

theorem test_witness_streamPortCarriesMessages_15 :
    ∃ s : State, (s.streamRuns = true) ∧ (s.stream.enabled = true) ∧ (s.stream.state < 2) :=
  ⟨modStream (fun t => { t with state := 1, enabled := true }) run, by decide⟩

theorem test_witness_streamPortCarriesMessages_16 :
    ∃ s : State, (s.hubUp = true) ∧ (s.stream.enabled = true) ∧ (s.stream.state = 1) :=
  ⟨modStream (fun t => { t with state := 1, enabled := true }) run, by decide⟩

/-! CounterCommandsComplete -/

theorem test_witness_counterCommandsComplete_1 :
    ∃ q : Request, ∃ s : State, ((taken 0x0D01 q s = true) ∧ (q.u < 24) ∧ (1 ≤ q.b 0) ∧ (q.b 0 ≤ 2) ∧ (isZero q.payload 1 3 = true) ∧
      (∀ j < 8, q.b (5 + 4 * j) = 0 ∧ (q.b 0 = 2 → q.b (4 + 4 * j) = 0 ∧ q.h (6 + 4 * j) = 0) ∧ (q.b 0 = 1 → (q.b (4 + 4 * j) ≤ 63 ∨ q.b (4 + 4 * j) = 0xFF) ∧ (q.b (4 + 4 * j) = 0xFF ∨ q.h (6 + 4 * j) = 0xFFFF ∨ q.h (6 + 4 * j) < filterLimit q.u (q.b (4 + 4 * j))))))
      ∧ ∃ u, (u ≠ q.u) :=
  ⟨rq 0x0D01 ([(0, 1)] ++ (List.range 8).map (fun j => (4 + 4 * j, 255)) ++ [(4, 47), (7, 7)]) 23, run, by decide, 0, by decide⟩

theorem test_witness_counterCommandsComplete_2 :
    ∃ q : Request, ∃ s : State, (taken 0x0D02 q s = true) ∧ (q.u < 24) :=
  ⟨rq 0x0D02 [] 23, run, by decide⟩

theorem test_witness_counterCommandsComplete_3 :
    ∃ q : Request, ∃ s : State, (taken 0x0D03 q s = true) ∧ (q.u = 0) ∧ (q.w 0 < 2 ^ 24) :=
  ⟨rq 0x0D03 (pb 4 0 0xFFFFFF), run, by decide⟩

theorem test_witness_counterCommandsComplete_4 :
    ∃ q : Request, ∃ s : State, (taken 0x0D04 q s = true) ∧ (4 ≤ q.u) ∧ (q.u ≤ 22) ∧ (q.b 0 ≤ 1) ∧ (q.b 1 ≤ 24) ∧ (q.b 2 ≤ 1) ∧ (q.u ≤
      7 → q.b 3 ≤ 1) ∧ (7 < q.u → q.b 3 = 0) ∧ (q.w 4 = 0xFFFFFFFF ∨ q.w 4 < traceLimit q.u) :=
  ⟨rq 0x0D04 ([(0, 1), (1, 24), (2, 1)] ++ pb 4 4 1) 22, run, by decide⟩

theorem test_witness_counterCommandsComplete_5 :
    ∃ q : Request, ∃ s : State, ((taken 0x0D05 q s = true) ∧ (q.u < 4) ∧ (q.b 0 ≤ 1) ∧ (8 ≤ q.b 1) ∧ (q.b 1 ≤ 24) ∧ (q.h 2 = 0)) ∧ ∃
      f, ((s.cu q.u).fmtRx = some f) ∧ (f.lineMode = 1 ∨ f.lineMode = 2) :=
  ⟨rq 0x0D05 [(0, 1), (1, 24)], modCu 0 (fun c => { c with fmtRx := some { fmt with lineMode := 2 } }) (live), by decide,
    { fmt with lineMode := 2 }, by decide⟩

theorem test_witness_counterCommandsComplete_6 :
    ∃ q : Request, ∃ s : State, ((taken 0x0D05 q s = true) ∧ (q.u < 4) ∧ (q.b 0 ≤ 1) ∧ (8 ≤ q.b 1) ∧ (q.b 1 ≤ 24) ∧ (q.h 2 = 0)) ∧ (∀
      f, (s.cu q.u).fmtRx = some f → f.lineMode ≠ 1 ∧ f.lineMode ≠ 2) :=
  ⟨rq 0x0D05 [(0, 1), (1, 24)], run, by decide, (by intro f h; cases h)⟩

theorem test_witness_counterCommandsComplete_7 :
    ∃ q : Request, ∃ s : State, (taken 0x0D06 q s = true) ∧ (q.u = 0) ∧ (q.b 0 ≤ 1) ∧ (q.b 1 = 1 ∨ q.b 1 = 2 ∨ q.b 1 = 4) ∧ (q.h 2 =
      0) ∧ (q.w 4 < 2 ^ 23) ∧ (q.b 0 = 1) ∧ (s.stream.enabled = true) ∧ (2 ≤ s.stream.state) ∧ (q.b 1 ≠ s.stream.lanes) :=
  ⟨rq 0x0D06 ([(0, 1), (1, 2)] ++ pb 4 4 0x7FFFFF), stream, by decide⟩

theorem test_witness_counterCommandsComplete_8 :
    ∃ q : Request, ∃ s : State, (taken 0x0D06 q s = true) ∧ (q.u = 0) ∧ (q.b 0 ≤ 1) ∧ (q.b 1 = 1 ∨ q.b 1 = 2 ∨ q.b 1 = 4) ∧ (q.h 2 =
      0) ∧ (q.w 4 < 2 ^ 23) ∧ (q.b 0 = 1) ∧ (s.stream.enabled = false) :=
  ⟨rq 0x0D06 ([(0, 1), (1, 1)] ++ pb 4 4 0x7FFFFF), run, by decide⟩

theorem test_witness_counterCommandsComplete_9 :
    ∃ q : Request, ∃ s : State, (taken 0x0D06 q s = true) ∧ (q.u = 0) ∧ (q.b 0 ≤ 1) ∧ (q.b 1 = 1 ∨ q.b 1 = 2 ∨ q.b 1 = 4) ∧ (q.h 2 =
      0) ∧ (q.w 4 < 2 ^ 23) ∧ (s.serves 6 0 = false) ∧ (q.b 0 = 1 → 2 ≤ s.stream.state → q.b 1 = s.stream.lanes) :=
  ⟨rq 0x0D06 ([(0, 0), (1, 1)] ++ pb 4 4 0x7FFFFF), inState 6 0 4 (stream), by decide⟩

theorem test_witness_counterCommandsComplete_10 :
    ∃ q : Request, ∃ s : State, (taken 0x0D06 q s = true) ∧ (q.u = 0) ∧ (q.b 0 ≤ 1) ∧ (q.b 1 = 1 ∨ q.b 1 = 2 ∨ q.b 1 = 4) ∧ (q.h 2 =
      0) ∧ (q.w 4 < 2 ^ 23) ∧ (q.b 0 = 0) ∧ (s.stream.enabled = true) ∧ (s.serves 6 0 = true) :=
  ⟨rq 0x0D06 ([(0, 0), (1, 1)] ++ pb 4 4 0x7FFFFF), inState 6 0 0 (stream), by decide⟩

theorem test_witness_counterCommandsComplete_11 :
    ∃ q : Request, ∃ s : State, (taken 0x0D06 q s = true) ∧ (q.u = 0) ∧ (q.b 0 ≤ 1) ∧ (q.b 1 = 1 ∨ q.b 1 = 2 ∨ q.b 1 = 4) ∧ (q.h 2 =
      0) ∧ (q.w 4 < 2 ^ 23) ∧ (q.b 0 = 0 ↔ s.stream.enabled = false) ∧ (q.b 0 = 1 → 2 ≤ s.stream.state → q.b 1 = s.stream.lanes) ∧
      (s.serves 6 0 = true) :=
  ⟨rq 0x0D06 ([(0, 1), (1, 4)] ++ pb 4 4 0x7FFFFF), inState 6 0 0 (stream), by decide⟩

theorem test_witness_counterCommandsComplete_12 :
    ∃ q : Request, ∃ s : State, (taken 0x0D07 q s = true) ∧ (q.u = 0) :=
  ⟨rq 0x0D07 [], run, by decide⟩

/-! TenonPortsTrainAndFail -/

theorem test_witness_tenonPortsTrainAndFail_1 :
    ∃ p : Nat, ∃ s : State, (s.hubUp = true) ∧ ((s.tenon p).role ≠ 0) ∧ ((s.tenon p).retraining = true) :=
  ⟨7, modTenon 7 (fun t => { t with role := 1, state := 3, retraining := true }) (run), by decide⟩

theorem test_witness_tenonPortsTrainAndFail_2 :
    ∃ p : Nat, ∃ s : State, (s.hubUp = true) ∧ ((s.tenon p).role ≠ 0) ∧ ((s.tenon p).retraining = false) ∧ ((s.tenon p).state = 1) :=
  ⟨7, modTenon 7 (fun t => { t with role := 1, state := 1 }) (run), by decide⟩

theorem test_witness_tenonPortsTrainAndFail_3 :
    ∃ p : Fin 8, ∃ s : State, (s.hubUp = true) ∧ ((s.tenon p).state = 2 ∨ (s.tenon p).state = 3) ∧ ((s.tenon p).retraining = false) :=
  ⟨0, up, by decide, (Or.inr (by decide)), by decide⟩

theorem test_witness_tenonPortsTrainAndFail_4 :
    ∃ p : Fin 8, ∃ s : State, (s.hubUp = true) ∧ ((s.tenon p).retraining = true ∨ (s.tenon p).state = 1) ∧ ∃ o, (s.otherPort p = some
      o) :=
  ⟨0, modTenon 0 (fun t => { t with role := 1, state := 1 }) (modTenon 1 (fun t => { t with role := 2 }) (run)), by decide,
    (Or.inr (by decide)), 1, by decide⟩

theorem test_witness_tenonPortsTrainAndFail_5 :
    ∃ p : Fin 8, ∃ s : State, (s.hubUp = true) ∧ ((s.tenon p).state = 5) ∧ ((s.tenon p).role ≠ 0) :=
  ⟨0, modTenon 0 (fun t => { t with role := 1, state := 5 }) (run), by decide⟩

theorem test_witness_tenonPortsTrainAndFail_6 :
    ∃ p : Fin 8, ∃ s : State, (s.hubUp = true) ∧ ((s.tenon p).state = 4) :=
  ⟨0, modTenon 0 (fun t => { t with role := 1, state := 4 }) (run), by decide⟩

theorem test_witness_tenonPortsTrainAndFail_7 :
    ∃ p : Fin 8, ∃ h : Hello, ∃ s : State, (s.hubUp = true) ∧ ((s.tenon p).state = 2) ∧ ((s.tenon p).retraining = false) ∧ (min 3
      h.revMax < max 1 h.revMin) :=
  ⟨0,
    { revMin := 4, revMax := 4, portRole := 2, strapRole := 0, address := 0, assigned := false, manager := false, fw := 0, floor := 0, floorSeq := 0, epoch := 0, nonce := zeros 8, serial := zeros 16 },
    modTenon 0 (fun t => { t with role := 1, state := 2 }) (run), by decide⟩

theorem test_witness_tenonPortsTrainAndFail_8 :
    ∃ p : Fin 8, ∃ h : Hello, ∃ s : State, (s.hubUp = true) ∧ ((s.tenon p).state = 2) ∧ ((s.tenon p).retraining = false) ∧ (max 1
      h.revMin ≤ min 3 h.revMax) ∧ (facingRole (s.tenon p).role ≠ h.portRole) :=
  ⟨0,
    { revMin := 3, revMax := 3, portRole := 1, strapRole := 0, address := 0, assigned := false, manager := false, fw := 0, floor := 0, floorSeq := 0, epoch := 0, nonce := zeros 8, serial := zeros 16 },
    modTenon 0 (fun t => { t with role := 1, state := 2 }) (run), by decide⟩

theorem test_witness_tenonPortsTrainAndFail_9 :
    ∃ p : Fin 8, ∃ h : Hello, ∃ s : State, (s.hubUp = true) ∧ ((s.tenon p).state = 2) ∧ ((s.tenon p).retraining = false) ∧ (max 1
      h.revMin ≤ min 3 h.revMax) ∧ (facingRole (s.tenon p).role = h.portRole) :=
  ⟨0,
    { revMin := 1, revMax := 1, portRole := 2, strapRole := 0, address := 0, assigned := false, manager := false, fw := 0, floor := 0, floorSeq := 0, epoch := 0, nonce := zeros 8, serial := zeros 16 },
    modTenon 0 (fun t => { t with role := 1, state := 2 }) (run), by decide⟩

/-- The hypothesis left out rests on a value that nothing can evaluate (log entries 3 and 4). -/
theorem test_witness_tenonPortsTrainAndFail_10 :
    ∃ p : Fin 8, ∃ s : State, (s.hubUp = true) ∧ ((s.tenon p).state = 2) ∧ ((s.tenon p).authSent = true) ∧ ((s.tenon p).retraining =
      false) ∧ ((s.tenon p).fellDown = true) :=
  ⟨0, modTenon 0 (fun t => { t with role := 1, state := 2, authSent := true, fellDown := true }) (run), by decide⟩

/-- The hypothesis left out rests on a value that nothing can evaluate (log entries 3 and 4). -/
theorem test_witness_tenonPortsTrainAndFail_11 :
    ∃ p : Fin 8, ∃ s : State, (s.hubUp = true) ∧ ((s.tenon p).state = 2) ∧ ((s.tenon p).authSent = true) ∧ ((s.tenon p).retraining =
      false) ∧ ((s.tenon p).fellDown = false) :=
  ⟨0, modTenon 0 (fun t => { t with role := 1, state := 2, authSent := true }) (run), by decide⟩

/-- The hypothesis left out rests on a value that nothing can evaluate (log entries 3 and 4). -/
theorem test_witness_tenonPortsTrainAndFail_12 :
    ∃ p : Fin 8, ∃ s : State, (s.hubUp = true) ∧ ((s.tenon p).state = 2) ∧ ((s.tenon p).authSent = true) ∧ ((s.tenon p).retraining =
      false) :=
  ⟨0, modTenon 0 (fun t => { t with role := 1, state := 2, authSent := true }) (run), by decide⟩

/-! TenonMessagesMove -/

theorem test_witness_tenonMessagesMove_1 :
    ∃ p : Fin 8, ∃ s : State, (s.tenonUp p = true) :=
  ⟨0, up, by decide⟩

theorem test_witness_tenonMessagesMove_2 :
    ∃ p : Fin 8, ∃ k : LinkControl, ∃ s : State, ((s.tenonUp p = true) ∧ ((s.tenon p).firstControl = true)) ∧ (∃ v < 4, k.grants.getD
      v 0 < 65) :=
  ⟨0, { grants := [65, 65, 65, 64] }, up, by decide, (⟨3, by decide, by decide⟩)⟩

theorem test_witness_tenonMessagesMove_3 :
    ∃ p : Fin 8, ∃ k : LinkControl, ∃ s : State, (s.tenonUp p = true) ∧ ((s.tenon p).firstControl = false ∨
      (∀ v < 4, 65 ≤ k.grants.getD v 0)) :=
  ⟨0, { grants := [65, 65, 65, 65] }, up, by decide, (Or.inr (by decide))⟩

theorem test_witness_tenonMessagesMove_4 :
    ∃ p : Fin 8, ∃ vc : Fin 4, ∃ m : Message, ∃ rest : List Message, ∃ s : State, (s.tenonUp p = true) ∧ (tblGet []
      (s.tenon p).credit.queues vc = m :: rest) ∧ (s.tenonRoom p m = false) :=
  ⟨0, 1, { vc := 1, body := .packet {} (some 1) }, [], modTenon 0
    (fun t => { t with credit := { t.credit with queues := [(1, [{ vc := 1, body := .packet {} (some 1) }])] } })
    (modTenon 0 (fun t => { t with role := 1, state := 3 }) (run)), by decide⟩

theorem test_witness_tenonMessagesMove_5 :
    ∃ p : Fin 8, ∃ vc : Fin 4, ∃ m : Message, ∃ rest : List Message, ∃ s : State, ((s.tenonUp p = true) ∧
      (tblGet [] (s.tenon p).credit.queues vc = m :: rest) ∧ (s.tenonRoom p m = true)) ∧ ∃ x, ∃ e, (m.body = .packet x (some e)) :=
  ⟨0, 1, { vc := 1, body := .packet {} (some 1) }, [], modTenon 0
    (fun t => { t with credit := { t.credit with queues := [(1, [{ vc := 1, body := .packet {} (some 1) }])] } }) (up), by decide, {},
    1, by decide⟩

theorem test_witness_tenonMessagesMove_6 :
    ∃ p : Fin 8, ∃ e : EventRec, ∃ s : State, (s.tenonUp p = true) ∧ (tblGet [] (s.tenon p).credit.queues 2 = []) ∧ (s.routeHead p =
      some e) ∧ (s.control.routeTenon.lost = 0) ∧ (s.tenonRoom p
      { vc := 2, origin := s.address, body := .packet (eventPacket s e) none } = true) :=
  ⟨0, event, modControl (fun c => { c with routeTenon := { queue := [event] } }) up, by decide⟩

theorem test_witness_tenonMessagesMove_7 :
    ∃ p : Fin 8, ∃ m : Message, ∃ s : State, (s.tenonUp p = true) ∧ (m.seq ≠ (s.tenon p).credit.rxSeq + 1) :=
  ⟨0, { vc := 1, body := .packet {} (some 1) }, up, by decide⟩

theorem test_witness_tenonMessagesMove_8 :
    ∃ p : Fin 8, ∃ m : Message, ∃ s : State, (s.tenonUp p = true) ∧ (m.seq = (s.tenon p).credit.rxSeq + 1) ∧ ((s.tenon p).role = 7) :=
  ⟨0, { vc := 0, seq := 1, body := .heartbeat [] }, modTenon 0 (fun t => { t with role := 7 }) (up), by decide⟩

theorem test_witness_tenonMessagesMove_9 :
    ∃ p : Fin 8, ∃ m : Message, ∃ s : State, ((s.tenonUp p = true) ∧ (m.seq = (s.tenon p).credit.rxSeq + 1)) ∧ ∃ q, ∃ e,
      ((s.tenon p).role ≠ 7) ∧ (m.vc = 0) ∧ (m.body = .packet q e) ∧ (broadcastBit q.flags = false) ∧ (q.target.toNat % 16384 =
      s.address) :=
  ⟨0, { vc := 0, seq := 1, hops := 0, body := .packet { target := 0 } none }, up, by decide, { target := 0 }, none, by decide⟩

theorem test_witness_tenonMessagesMove_10 :
    ∃ p : Fin 8, ∃ m : Message, ∃ s : State, ((s.tenonUp p = true) ∧ (m.seq = (s.tenon p).credit.rxSeq + 1)) ∧ ∃ q, ∃ e,
      ((s.tenon p).role ≠ 7) ∧ (m.vc = 0) ∧ (m.body = .packet q e) ∧ (broadcastBit q.flags = false) ∧ (q.target.toNat % 16384 ≠
      s.address) ∧ (200 ≤ m.hops) :=
  ⟨0, { vc := 0, seq := 1, hops := 200, body := .packet { target := 0x4001 } none }, up, by decide, { target := 0x4001 }, none, by
    decide⟩

theorem test_witness_tenonMessagesMove_11 :
    ∃ p : Fin 8, ∃ m : Message, ∃ s : State, ((s.tenonUp p = true) ∧ (m.seq = (s.tenon p).credit.rxSeq + 1)) ∧ ∃ q, ∃ e,
      (((s.tenon p).role ≠ 7) ∧ (m.vc = 0) ∧ (m.body = .packet q e) ∧ (broadcastBit q.flags = false)) ∧ ∃ o, (q.target.toNat % 16384 ≠
      s.address) ∧ (m.hops < 200) ∧ (s.domain.fenced = []) ∧ (s.nextHop (q.target.toNat % 16384) = some o) :=
  ⟨0, { vc := 0, seq := 1, hops := 199, body := .packet { target := 0x4001 } none }, up, by decide, { target := 0x4001 }, none, by
    decide, 0, by decide⟩

/-! DomainHoldsTogether -/

theorem test_witness_domainHoldsTogether_1 :
    ∃ l : Fin 3, ∃ s : State, (s.blocksRun = true) ∧ (s.manages l = true) ∧ (s.onLevel l = true) ∧ (s.salurnRuns = true) :=
  ⟨0, manager, by decide⟩

theorem test_witness_domainHoldsTogether_2 :
    ∃ l : Fin 3, ∃ s : State, (s.blocksRun = true) ∧ (s.manages l = true) ∧ (s.onLevel l = true) ∧ (s.salurnRuns = false) :=
  ⟨0, modControl (fun c => { c with mp := .halted }) manager, by decide⟩

theorem test_witness_domainHoldsTogether_3 :
    ∃ l : Fin 3, ∃ s : State, ((s.blocksRun = true) ∧ (s.manages l = true) ∧ (s.onLevel l = true)) ∧ ∃ r, ∃ p, (r = 2 * l.val + 1 ∨ r
      = 2 * l.val + 2) ∧ (s.portOfRole r = some p) :=
  ⟨0, manager, by decide, 1, 0, (Or.inl (by decide)), by decide⟩

theorem test_witness_domainHoldsTogether_4 :
    ∃ p : Fin 8, ∃ m : MapMsg, ∃ s : State, (s.tenonUp p = true) ∧ (1 ≤ (s.tenon p).role) ∧ ((s.tenon p).role ≤ 6) ∧ (roleLevel
      (s.tenon p).role ≠ m.level) :=
  ⟨0, ⟨1, 0, 0, 0, [], 0xFFFFFFFF, 0, []⟩, up, by decide⟩

theorem test_witness_domainHoldsTogether_5 :
    ∃ p : Fin 8, ∃ m : MapMsg, ∃ s : State, ((s.tenonUp p = true) ∧ (1 ≤ (s.tenon p).role) ∧ ((s.tenon p).role ≤ 6) ∧
      (roleLevel (s.tenon p).role = m.level) ∧ (s.manages m.level = false)) ∧ ∃ e, ∃ a, (s.addressLevel = some m.level) ∧
      (m.numbers.find? (fun e => e.1 == s.serial) = some e) ∧ (e.2 = some a) :=
  ⟨0, ⟨0, 0, 0, 0, [], 0xFFFFFFFF, 0, [(zeros 16, some 5)]⟩, up, by decide, (zeros 16, some 5), 5, by decide⟩

theorem test_witness_domainHoldsTogether_6 :
    ∃ l : Fin 3, ∃ s : State, (s.domain.fenced.find? (fun f => f.1 == l.val) = none) :=
  ⟨2, run, by decide⟩

theorem test_witness_domainHoldsTogether_7 :
    ∃ l : Fin 3, ∃ s : State, ∃ f, ((s.domain.fenced = [f]) ∧ (f.1 = l.val)) ∧ ∃ o, (∀ x ∈ f.2.2, s.nextHop x.1 = some o) :=
  ⟨0, modDomain (fun d => { d with fenced := [(0, 2, [])] }) (up), (0, 2, []), by decide, 0, (by intro x hx; cases hx)⟩

theorem test_witness_domainHoldsTogether_8 :
    ∃ l : Fin 3, ∃ s : State, ∃ f, ∃ p, (s.domain.fenced.find? (fun f => f.1 == l.val) = some f) ∧ (s.portOfRole
      (if s.fenceEast l f.2.1 then 2 * l.val + 1 else 2 * l.val + 2) = some p) :=
  ⟨0, modTenon 1 (fun t => { t with role := 2 }) (modDomain (fun d => { d with fenced := [(0, 2, [])] }) (up)), (0, 2, []), 1, by
    decide⟩

theorem test_witness_domainHoldsTogether_9 :
    ∃ s : State, (s.salurnRuns = true) ∧ (s.domain.mgrState = 2) ∧ (s.sill.straps.role ≠ 0) ∧ (s.domain.standbyEn = false) :=
  ⟨modDomain (fun d => { d with mgrState := 2, standbyEn := false }) manager, by decide⟩

theorem test_witness_domainHoldsTogether_10 :
    ∃ s : State, (s.salurnRuns = true) ∧ (s.domain.mgrState = 2) ∧ (s.sill.straps.role ≠ 0) ∧ (s.domain.standbyEn = true) :=
  ⟨modDomain (fun d => { d with mgrState := 2, standbyEn := true }) manager, by decide⟩

theorem test_witness_domainHoldsTogether_11 :
    ∃ id : Nat, ∃ s : State, (s.control.collations.find? (fun c => c.id == id) = none) :=
  ⟨1, run, by decide⟩

theorem test_witness_domainHoldsTogether_12 :
    ∃ id : Nat, ∃ s : State, ∃ c, ∃ x, (s.control.collations.find? (fun c => c.id == id) = some c) ∧ (s.control.journal.find?
      (fun x => x.id == id) = some x) ∧ (x.state = .applying) ∧ (s.control.mp = .running) :=
  ⟨1, modControl (fun c => { c with collations := [collation], journal := [applying] }) run, collation, applying, by decide⟩

theorem test_witness_domainHoldsTogether_13 :
    ∃ id : Nat, ∃ s : State, ∃ c, ∃ x, (s.control.collations.find? (fun c => c.id == id) = some c) ∧ (s.control.journal.find?
      (fun x => x.id == id) = some x) ∧ (x.state = .applying) ∧ (s.control.mp = .running) ∧ (x.port = .control) :=
  ⟨1, modControl (fun c => { c with collations := [collation], journal := [applying] }) run, collation, applying, by decide⟩

theorem test_witness_domainHoldsTogether_14 :
    ∃ s : State, (s.domain.dist.running = false) :=
  ⟨run, by decide⟩

theorem test_witness_domainHoldsTogether_15 :
    ∃ s : State, (s.domain.dist.running = true) ∧ ∃ a, (a ∈ s.domain.dist.targets) ∧ (∀ r ∈ s.domain.dist.reports, r.1 ≠ a) :=
  ⟨modDomain (fun d => { d with dist := { running := true, targets := [5] } }) run, by decide, 5, by decide⟩

/-! DomainCommandsComplete -/

theorem test_witness_domainCommandsComplete_1 :
    ∃ q : Request, ∃ s : State, ((taken 0x0E01 q s = true) ∧ (q.u = 0) ∧ (q.b 0 ≤ 7) ∧ (q.b 1 ≤ 7) ∧ (q.h 2 = 0)) ∧ (rolePermitted
      s.sill.straps.role.toNat (q.b 1) = false ∨ (q.b 1 ≠ 0 ∧ ∃ k < 8, k ≠ q.b 0 ∧ (s.tenon k).role = q.b 1)) :=
  ⟨rq 0x0E01 [(0, 7), (1, 7)], modTenon 6 (fun t => { t with role := 7 }) (run), by decide,
    (Or.inr ⟨by decide, 6, by decide, by decide, by decide⟩)⟩

theorem test_witness_domainCommandsComplete_2 :
    ∃ q : Request, ∃ s : State, (taken 0x0E01 q s = true) ∧ (q.u = 0) ∧ (q.b 0 ≤ 7) ∧ (q.b 1 ≤ 7) ∧ (q.h 2 = 0) ∧ (rolePermitted
      s.sill.straps.role.toNat (q.b 1) = true) ∧ (q.b 1 = 0 ∨ ∀ k < 8, k ≠ q.b 0 → (s.tenon k).role ≠ q.b 1) ∧ ((s.tenon (q.b 0)).role
      = q.b 1) :=
  ⟨rq 0x0E01 [(0, 6), (1, 7)], modTenon 6 (fun t => { t with role := 7 }) (run), by decide⟩

theorem test_witness_domainCommandsComplete_3 :
    ∃ q : Request, ∃ s : State, (taken 0x0E01 q s = true) ∧ (q.u = 0) ∧ (q.b 0 ≤ 7) ∧ (q.b 1 ≤ 7) ∧ (q.h 2 = 0) ∧ (rolePermitted
      s.sill.straps.role.toNat (q.b 1) = true) ∧ (q.b 1 = 0 ∨ ∀ k < 8, k ≠ q.b 0 → (s.tenon k).role ≠ q.b 1) ∧ ((s.tenon (q.b 0)).role
      ≠ q.b 1) :=
  ⟨rq 0x0E01 [(0, 6), (1, 2)], modTenon 6 (fun t => { t with role := 7 }) (run), by decide⟩

theorem test_witness_domainCommandsComplete_4 :
    ∃ q : Request, ∃ s : State, (taken 0x0E02 q s = true) ∧ (q.u = 0) :=
  ⟨rq 0x0E02 [], run, by decide⟩

theorem test_witness_domainCommandsComplete_5 :
    ∃ q : Request, ∃ s : State, (taken 0x0E03 q s = true) ∧ (q.u = 0) :=
  ⟨rq 0x0E03 [], run, by decide⟩

theorem test_witness_domainCommandsComplete_6 :
    ∃ q : Request, ∃ s : State, ((taken 0x0E04 q s = true) ∧ (q.u = 0) ∧ (q.b 4 ≤ 1) ∧ (isZero q.payload 5 3 = true)) ∧ (q.b 4 = 1 ∨ ∀
      old, s.domain.floor = some old → old ≤ q.w 0) ∧ (s.actsAsRoot = false) :=
  ⟨rq 0x0E04 [(4, 1)], run, by decide, (Or.inl (by decide)), by decide⟩

theorem test_witness_domainCommandsComplete_7 :
    ∃ q : Request, ∃ s : State, ((taken 0x0E04 q s = true) ∧ (q.u = 0) ∧ (q.b 4 ≤ 1) ∧ (isZero q.payload 5 3 = true)) ∧ (q.b 4 = 1 ∨ ∀
      old, s.domain.floor = some old → old ≤ q.w 0) ∧ (s.actsAsRoot = true) ∧ (s.fw.running.fwVersion < q.w 0) :=
  ⟨rq 0x0E04 [(3, 1), (4, 1)], modDomain (fun d => { d with mgrState := 1 })
    { run with sill := { suppliesValid := true, hold := .released, stage := .run, straps := { role := 3 } } }, by decide,
    (Or.inl (by decide)), by decide⟩

/-- The hypothesis left out rests on a value that nothing can evaluate (log entries 3 and 4). -/
theorem test_witness_domainCommandsComplete_8 :
    ∃ q : Request, ∃ s : State, ((taken 0x0E04 q s = true) ∧ (q.u = 0) ∧ (q.b 4 ≤ 1) ∧ (isZero q.payload 5 3 = true)) ∧ (q.b 4 = 1 ∨ ∀
      old, s.domain.floor = some old → old ≤ q.w 0) ∧ (s.actsAsRoot = true) ∧ (q.w 0 ≤ s.fw.running.fwVersion) ∧ (s.domain.floorSeq <
      0xFFFFFFFE) :=
  ⟨rq 0x0E04 [(4, 1)], modDomain (fun d => { d with mgrState := 1 })
    { run with sill := { suppliesValid := true, hold := .released, stage := .run, straps := { role := 3 } } }, by decide,
    (Or.inl (by decide)), by decide⟩

/-- The hypothesis left out rests on a value that nothing can evaluate (log entries 3 and 4). -/
theorem test_witness_domainCommandsComplete_9 :
    ∃ q : Request, ∃ s : State, ((taken 0x0E04 q s = true) ∧ (q.u = 0) ∧ (q.b 4 ≤ 1) ∧ (isZero q.payload 5 3 = true)) ∧ (q.b 4 = 1 ∨ ∀
      old, s.domain.floor = some old → old ≤ q.w 0) ∧ (s.actsAsRoot = true) ∧ (q.w 0 ≤ s.fw.running.fwVersion) ∧ (s.domain.floorSeq <
      0xFFFFFFFE) :=
  ⟨rq 0x0E04 [(4, 1)], modDomain (fun d => { d with mgrState := 1 })
    { run with sill := { suppliesValid := true, hold := .released, stage := .run, straps := { role := 3 } } }, by decide,
    (Or.inl (by decide)), by decide⟩

theorem test_witness_domainCommandsComplete_10 :
    ∃ q : Request, ∃ s : State, (taken 0x0E05 q s = true) ∧ (q.u = 0) ∧ (1 ≤ q.h 0 ∧ q.h 0 ≤ 1000) ∧ (3 * q.h 0 ≤ q.h 2 ∧ q.h 2 ≤
      10000) ∧ (10 ≤ q.h 4 ∧ q.h 4 ≤ 10000) ∧ (q.b 6 ≤ 1) ∧ (q.b 7 = 0) ∧ (s.domain.mgrState ≠ 1) ∧ (s.domain.mgrState ≠ 3) :=
  ⟨rq 0x0E05 (pb 2 0 1000 ++ pb 2 2 3000 ++ pb 2 4 10000 ++ [(6, 1)]), run, by decide⟩

theorem test_witness_domainCommandsComplete_11 :
    ∃ q : Request, ∃ s : State, (taken 0x0E05 q s = true) ∧ (q.u = 0) ∧ (1 ≤ q.h 0 ∧ q.h 0 ≤ 1000) ∧ (3 * q.h 0 ≤ q.h 2 ∧ q.h 2 ≤
      10000) ∧ (10 ≤ q.h 4 ∧ q.h 4 ≤ 10000) ∧ (q.b 6 ≤ 1) ∧ (q.b 7 = 0) ∧ (s.domain.mgrState = 1 ∨ s.domain.mgrState = 3) :=
  ⟨rq 0x0E05 (pb 2 0 1000 ++ pb 2 2 3000 ++ pb 2 4 10000 ++ [(6, 1)]), manager, by decide⟩

theorem test_witness_domainCommandsComplete_12 :
    ∃ q : Request, ∃ s : State, (taken 0x0E06 q s = true) ∧ (q.u = 0) ∧ (targetValid 8 (BitVec.ofNat 16 (q.h 0)) = true) ∧ (q.h 2 = 0)
      ∧ (s.fwState = 2) ∧ (s.domain.dist.running = true) :=
  ⟨rq 0x0E06 (pb 2 0 0x8000), modDomain (fun d => { d with dist := { running := true } })
    (modFw (fun f => { f with staged := some 1 }) run), by decide⟩

theorem test_witness_domainCommandsComplete_13 :
    ∃ q : Request, ∃ s : State, ((taken 0x0E06 q s = true) ∧ (q.u = 0) ∧ (targetValid 8 (BitVec.ofNat 16 (q.h 0)) = true) ∧
      (q.h 2 = 0) ∧ (s.fwState = 2)) ∧ ∃ b, (s.domain.dist.running = false) ∧ (s.fw.staged = some b) ∧ (inScope
      (BitVec.ofNat 16 (q.h 0)) s.address = true) :=
  ⟨rq 0x0E06 (pb 2 0 0x4000), modDomain (fun d => { d with dist := { running := false } })
    (modFw (fun f => { f with staged := some 1 }) run), by decide, 1, by decide⟩

theorem test_witness_domainCommandsComplete_14 :
    ∃ q : Request, ∃ s : State, (taken 0x0E07 q s = true) ∧ (q.u = 0) :=
  ⟨rq 0x0E07 [], run, by decide⟩

theorem test_witness_domainCommandsComplete_15 :
    ∃ q : Request, ∃ s : State, (taken 0x0E08 q s = true) ∧ (q.u = 0) ∧ (1 ≤ q.b 0) ∧ (q.b 0 ≤ 31) ∧ (isZero q.payload 1 3 = true) ∧
      (s.domain.mgrState ≠ 1) ∧ (s.domain.mgrState ≠ 3) :=
  ⟨rq 0x0E08 [(0, 31)], run, by decide⟩

theorem test_witness_domainCommandsComplete_16 :
    ∃ q : Request, ∃ s : State, (taken 0x0E08 q s = true) ∧ (q.u = 0) ∧ (1 ≤ q.b 0) ∧ (q.b 0 ≤ 31) ∧ (isZero q.payload 1 3 = true) ∧
      (s.domain.mgrState = 1 ∨ s.domain.mgrState = 3) ∧ ((s.map s.ownLevel).east.testBit (q.b 0) = true ∨
      (s.map s.ownLevel).west.testBit (q.b 0) = true) :=
  ⟨rq 0x0E08 [(0, 1)], manager, by decide⟩

theorem test_witness_domainCommandsComplete_17 :
    ∃ q : Request, ∃ s : State, (taken 0x0E08 q s = true) ∧ (q.u = 0) ∧ (1 ≤ q.b 0) ∧ (q.b 0 ≤ 31) ∧ (isZero q.payload 1 3 = true) ∧
      (s.domain.mgrState = 1 ∨ s.domain.mgrState = 3) ∧ ((s.map s.ownLevel).east.testBit (q.b 0) = false) ∧
      ((s.map s.ownLevel).west.testBit (q.b 0) = false) :=
  ⟨rq 0x0E08 [(0, 31)], manager, by decide⟩

/-! WaitingPacketsRunTheirCommand -/

theorem test_witness_waitingPacketsRunTheirCommand_1 :
    ∃ (q : Request) (s : State) (i : Nat) (r : RxItem),
      s.portTakes q.port = true ∧ s.namesNext q.port (packetBytes (requestPacket 0x0202 q)) = some (i, r) :=
  ⟨rq 0x0202 [], enqueueRx ⟨.control, packetBytes (requestPacket 0x0202 (rq 0x0202 [])), 28, 0, 0⟩ run, 0,
    ⟨.control, packetBytes (requestPacket 0x0202 (rq 0x0202 [])), 28, 0, 0⟩, by decide, by decide +kernel⟩

/-! UnitIsJudgedFirst -/

theorem test_witness_unitIsJudgedFirst_1 :
    ∃ e, (e ∈
      ([(0x0105, 1, .systemGetEvents), (0x0302, 4, .carrierSetPath), (0x0303, 4, .carrierSetDsp), (0x0304, 1, .carrierSetSpectralOrder), (0x0305, 4, .carrierGetStatus), (0x0306, 4, .carrierReacquire), (0x0307, 4, .carrierGetConfig), (0x0401, 4, .fecGetFrameInfo), (0x0402, 4, .fecGetCounts), (0x0403, 4, .fecSetInject), (0x0501, 4, .framerSetTti), (0x0502, 4, .framerSetDegrade), (0x0503, 4, .framerSetAps), (0x0504, 4, .framerSetOverhead), (0x0505, 4, .framerSetMaint), (0x0506, 4, .framerGetStatus), (0x0507, 4, .framerGetOverhead), (0x0508, 4, .framerGetCounts), (0x0601, 1, .clientSetClient), (0x0602, 1, .clientSetTrib)] : List (Nat × Nat × (Request → Instr))))
      ∧ ∃ q, ∃ s, (taken e.1 q s = true) ∧ (e.2.1 ≤ q.u) :=
  ⟨(0x0105, 1, .systemGetEvents), (List.mem_cons_self), rq 0x0105 [] 1, run, by decide⟩

theorem test_witness_unitIsJudgedFirst_2 :
    ∃ e, (e ∈
      ([(0x0603, 1, .clientSetFlexe), (0x0604, 1, .clientSetClass), (0x0605, 64, .clientGetStatus), (0x0701, 1, .schedSetSubscriber), (0x0702, 1, .schedSetQueue), (0x0703, 1, .schedSetGates), (0x0704, 256, .schedGetGates), (0x0705, 1, .schedGetQueue), (0x0706, 1, .schedSetSampling), (0x0707, 1, .schedGetCounts), (0x0801, 1, .memorySetPolicy), (0x0802, 4, .memoryGetStatus), (0x0803, 4, .memoryGetLog), (0x0804, 4, .memoryRetrain), (0x0805, 4, .memorySetShim), (0x0806, 4, .memoryGetCounts), (0x0901, 1, .securitySetOwnerRoot), (0x0903, 1, .securityLoadKek), (0x0904, 1, .securityLoadKey), (0x0905, 1, .securityEraseKey), (0x0906, 4, .securitySetChannel), (0x0907, 4, .securityRollover), (0x0908, 1, .securityBench), (0x0909, 1, .securitySetPolicy)] : List (Nat × Nat × (Request → Instr))))
      ∧ ∃ q, ∃ s, (taken e.1 q s = true) ∧ (e.2.1 ≤ q.u) :=
  ⟨(0x0603, 1, .clientSetFlexe), (List.mem_cons_self), rq 0x0603 [] 1, run, by decide⟩

theorem test_witness_unitIsJudgedFirst_3 :
    ∃ e, (e ∈
      ([(0x090A, 1, .securityClearAlarm), (0x090B, 1, .securityAttest), (0x090C, 1, .securityGetCert), (0x090D, 4, .securityGetStatus), (0x090E, 1, .securityGetSlots), (0x090F, 4, .securityGetCounts), (0x0A01, 1, .timingSetRefs), (0x0A02, 1, .timingSetLoop), (0x0A03, 1, .timingSetDco), (0x0A04, 1, .timingSetTod), (0x0A05, 1, .timingSetOutputs), (0x0A06, 1, .timingRealign), (0x0A07, 1, .timingGetStatus), (0x0B03, 5, .calSaveRecord), (0x0B04, 5, .calRun), (0x0B05, 5, .calSetPolicy), (0x0B06, 5, .calGetStats), (0x0B07, 4, .calSetAnalog), (0x0B08, 4, .calSetBias), (0x0B09, 4, .calPicSpi), (0x0C01, 1, .monitorSetConverter), (0x0C02, 1, .monitorSetSequence), (0x0C03, 1, .monitorSetDecim), (0x0C04, 1, .monitorSetAccum)] : List (Nat × Nat × (Request → Instr))))
      ∧ ∃ q, ∃ s, (taken e.1 q s = true) ∧ (e.2.1 ≤ q.u) :=
  ⟨(0x090A, 1, .securityClearAlarm), (List.mem_cons_self), rq 0x090A [] 1, run, by decide⟩

theorem test_witness_unitIsJudgedFirst_4 :
    ∃ e, (e ∈
      ([(0x0C05, 1, .monitorTrigger), (0x0C06, 1, .monitorInject), (0x0C09, 1, .monitorGetStatus), (0x0D01, 24, .countersSetUnit), (0x0D02, 24, .countersRead), (0x0D03, 1, .countersClear), (0x0D05, 4, .countersSetTags), (0x0D06, 1, .countersSetStream), (0x0D07, 1, .countersGetStream), (0x0E01, 1, .domainSetPort), (0x0E02, 1, .domainGetPorts), (0x0E03, 1, .domainGetTopology), (0x0E04, 1, .domainSetFloor), (0x0E05, 1, .domainSetManager), (0x0E06, 1, .domainDistribute), (0x0E07, 1, .domainGetDist), (0x0E08, 1, .domainFreePosition), (0x0F01, 1, .protectSetTwin), (0x0F02, 1, .protectRealign), (0x0F03, 1, .protectSetMirror), (0x0F04, 1, .protectClaim), (0x0F05, 1, .protectGetStatus), (0x0F06, 3, .protectGetCounts)] : List (Nat × Nat × (Request → Instr))))
      ∧ ∃ q, ∃ s, (taken e.1 q s = true) ∧ (e.2.1 ≤ q.u) :=
  ⟨(0x0C05, 1, .monitorTrigger), (List.mem_cons_self), rq 0x0C05 [] 1, run, by decide⟩

theorem test_witness_unitIsJudgedFirst_5 :
    ∃ e, (e ∈
      ([(0x0C07, 1, .monitorReadSlots), (0x0C08, 1, .monitorReadTrackers), (0x0902, 1, .securitySetOwnerRecord)] : List (Nat × Nat × (Request → Instr))))
      ∧ ∃ q, ∃ s, (taken e.1 q s = true) ∧ (e.2.1 ≤ q.u) :=
  ⟨(0x0C07, 1, .monitorReadSlots), (List.mem_cons_self), rq 0x0C07 [] 1, run, by decide⟩

end Sys2Proof.Tests
end

section
/-! PROOFS. The sill's registers, debug access, the JTAG port and the activation epoch (R7, R44, R45, R83, R85, R95, R96, R98, R107):
what each operation does once its condition is decided, and the statement assembled from these. -/

namespace Sys2Proof.Machine

/-! A guarded operation. -/

theorem when_of_true {c : Bool} (h : c = true) (f : State → State) (s : State) : when c f s = f s := if_pos h
theorem when_of_false {c : Bool} (h : c = false) (f : State → State) (s : State) : when c f s = s := by simp [when, h]

/-! Writes of the sill's registers (R83, R107). -/

/-- R107: a write of the wrong length, or at an address between registers, answers on CP_MISO and does nothing more. -/
theorem sillRegisterWrite_ignored {addr : Nat} {data : List Byte} {s : State} (hp : s.portLives = true)
    (h : data.length ≠ 4 ∨ addr % 4 ≠ 0) : sillRegisterWrite addr data s = writeMiso (1 + data.length) s := by
  unfold sillRegisterWrite
  rw [when_of_true hp]
  exact if_pos h

/-- A word written at a register other than SL_RESET_CTRL. -/
theorem sillRegisterWrite_word {addr : Nat} {data : List Byte} {s : State} (hp : s.portLives = true) (hlen : data.length = 4)
    (haligned : addr % 4 = 0) (hreset : addr ≠ 0x10) :
    sillRegisterWrite addr data s = slWrite addr (BitVec.ofNat 32 (beNat data)) (writeMiso (1 + data.length) s) := by
  unfold sillRegisterWrite
  rw [when_of_true hp]
  simp only [hlen, haligned, hreset, ne_eq, not_true_eq_false, or_self, if_false]

/-- A word written at a register other than SL_RESET_CTRL leaves all but the pins and the sill. -/
theorem slWrite_writeMiso_only (addr n : Nat) (v : Word32) (s : State) :
    OnlyChanges [.pins, .sill] s (slWrite addr v (writeMiso n s)) :=
  slWrite_frame addr v (writeMiso_frame n (OnlyChanges.refl _ s) rfl) rfl

/-- SL_WAKE_TOL takes the word. -/
theorem slWrite_wakeTol (v : Word32) (s : State) : (slWrite 0x14 v s).sill = { s.sill with wakeTol := v } := rfl

/-- SL_ALARM_SUMMARY clears what a 1 is written to. -/
theorem slWrite_alarmSummary (v : Word32) (s : State) : (slWrite 0x08 v s).sill = { s.sill with
    thermal := s.sill.cleared .thermal s.sill.thermal (v.getLsbD 10)
    supplyAlarm := s.sill.cleared .supply s.sill.supplyAlarm (v.getLsbD 11)
    memAlarm := s.sill.cleared .mem s.sill.memAlarm (v.getLsbD 12)
    mpRestartAlarm := s.sill.cleared .mpRestart s.sill.mpRestartAlarm (v.getLsbD 14) } := rfl

/-- SL_CP_STATUS clears what a 1 is written to. -/
theorem slWrite_cpStatus (v : Word32) (s : State) : (slWrite 0x1C v s).sill = { s.sill with
    crcErr := s.sill.cleared .crcErr s.sill.crcErr (v.getLsbD 8)
    overrun := s.sill.cleared .overrun s.sill.overrun (v.getLsbD 9)
    underrun := s.sill.cleared .underrun s.sill.underrun (v.getLsbD 10) } := rfl

/-! Unit restarts by SL_RESET_CTRL (R85, R192). -/

/-- Units restart only by a keyed write that names no wider reset. -/
theorem noWiderReset_of_resetCus {w : Word32} (h : resetCus w ≠ []) :
    resetSill w = false ∧ resetHub w = false ∧ resetMp w = false := by
  unfold resetCus at h
  split at h
  next hw =>
    simp only [Bool.and_eq_true, Bool.not_eq_true'] at hw
    obtain ⟨⟨⟨-, h0⟩, h1⟩, h2⟩ := hw
    simp only [resetSill, resetHub, resetMp, h0, h1, h2, Bool.and_false, and_self]
  next => exact absurd rfl h

theorem writeResetCtrl_units {w : Word32} (h : resetCus w ≠ []) (s : State) :
    writeResetCtrl w s = restartUnits (resetCus w) s := by
  obtain ⟨hsill, hhub, hmp⟩ := noWiderReset_of_resetCus h
  simp [writeResetCtrl, hsill, hhub, hmp]

theorem restartUnits_one {s : State} (hrun : s.salurnRuns = true) (u : Nat) : restartUnits [u] s = cuRestart u s := by
  unfold restartUnits
  rw [when_of_true hrun]
  rfl

/-- A keyed write that names one carrier unit restarts it. -/
theorem resetCommand_one_unit {w : Word32} {u : Nat} {s : State} (hp : s.portLives = true) (hrun : s.salurnRuns = true)
    (hw : resetCus w = [u]) : resetCommand (!(resetCus w).isEmpty) w s = cuRestart u (writeMiso 5 s) := by
  have hne : resetCus w ≠ [] := by simp [hw]
  have hrun' : (writeMiso 5 s).salurnRuns = true := hrun
  unfold resetCommand
  rw [when_of_true (by simp [hp, hw]), writeResetCtrl_units hne, hw, restartUnits_one hrun']

/-! The JTAG port (R44, R45). -/

/-- R44: EXTEST needs no debug level. -/
theorem Jtag.level_of_isExtest {j : Jtag} (h : j.isExtest = true) : j.level = 0 := by
  cases j with
  | extest | extestPulse | extestTrain => rfl
  | bypass | idcode | samplePreload | scan | mpAccess | dieTest => cases h

theorem jtagInstructionLoad_forbidden {j : Jtag} {s : State} (h : s.sill.debugLevel < j.level) : jtagInstructionLoad j s = s :=
  when_of_false (by simp [h]) _ s

/-- An instruction that is permitted and no EXTEST takes the place of the one loaded. -/
theorem jtagInstructionLoad_plain {j : Jtag} {s : State} (hon : s.sill.on = true) (hl : j.level ≤ s.sill.debugLevel)
    (hj : j.isExtest = false) : jtagInstructionLoad j s =
      modPins (fun p => { p with jtagIr := j.code, extest := false, trafficStopped := p.trafficStopped }) s := by
  unfold jtagInstructionLoad
  rw [when_of_true (by simp [hon, hl])]
  simp only [hj, Bool.or_false, Bool.false_eq_true, if_false]

theorem extestRelease_of_inactive {s : State} (h2 : s.protect.mirror.state ≠ 2) (h3 : s.protect.mirror.state ≠ 3) :
    extestRelease s = s := if_neg (by simp [h2, h3])

/-- EXTEST on a device that is not active in a mirror pair. -/
theorem jtagInstructionLoad_extest {j : Jtag} {s : State} (hon : s.sill.on = true) (hj : j.isExtest = true)
    (h2 : s.protect.mirror.state ≠ 2) (h3 : s.protect.mirror.state ≠ 3) : jtagInstructionLoad j s =
      modPins (fun p => { p with jtagIr := j.code, extest := true, trafficStopped := true }) s := by
  unfold jtagInstructionLoad
  rw [when_of_true (by simp [hon, Jtag.level_of_isExtest hj])]
  simp only [hj, Bool.or_true, if_true]
  exact extestRelease_of_inactive h2 h3

theorem cpIrq_of_extest {s : State} (h : s.pins.extest = true) : s.cpIrq = false := by simp [State.cpIrq, h]
theorem trafficRuns_of_stopped {s : State} (h : s.pins.trafficStopped = true) : s.trafficRuns = false := by
  simp [State.trafficRuns, h]

/-! Debug unlock and the junction (R96, R526). -/

theorem debugUnlockExpiry_reached {s : State} (hl : s.sill.debugLevel ≠ 0) (he : s.fw.debugExpiry ≤ s.timing.tod.sec) :
    debugUnlockExpiry s = modSill (fun x => { x with debugLevel := 0 }) s :=
  when_of_true (by simp [State.reached, hl, he]) _ s

theorem junctionExceeds105c_on {s : State} (hon : s.sill.on = true) : junctionExceeds105c s = modSill (Sill.mark .thermal) s :=
  when_of_true hon _ s

/-! Restarts of the management processor in RUN (R82), and the one that activates an image (R98, R502). -/

theorem salurnRuns_iff (s : State) : s.salurnRuns = true ↔ s.sill.stage = .run ∧ s.control.mp = .running := decide_eq_true_iff

/-- Counting a restart sets a bit of the sill, and leaves the stage. -/
theorem countRestart_stage (s : State) : (countRestart s).2.sill.stage = s.sill.stage := by
  unfold countRestart
  rw [bump_sill]
  rfl

theorem countRestart_fw (s : State) : (countRestart s).2.fw = s.fw := countRestart_only s .fw rfl

/-- The restarts of the last 60 s that a new one is counted with. -/
def State.recentRestarts (s : State) : List Nat := s.control.restarts.filter (fun t => decide (s.localNs < t + 60 * billion))

theorem countRestart_limit (s : State) : (countRestart s).1 = decide (3 ≤ s.recentRestarts.length + 1) := rfl

/-- A restart in RUN, below the limit and no watchdog expiry or lockstep mismatch of a trial, stops Salurn with its cause. -/
theorem mpRestart_stopsSalurn {cause : Nat} {s : State} (hup : s.hubUp = true) (hrun : s.sill.stage = .run)
    (hfew : s.recentRestarts.length < 2) (htrial : ((s.fw.trial || s.fw.activating) && (cause == 1 || cause == 2)) = false) :
    mpRestart cause s = stopSalurn cause (modFw endStaging (countRestart s).2) := by
  have hacts : ¬((!s.hubUp) = true ∨ s.sill.stage = .mpHalted) := by simp [hup, hrun]
  have hlimit : (countRestart s).1 = false := by
    rw [countRestart_limit]
    exact decide_eq_false (by omega)
  have htrial' : (((modFw endStaging (countRestart s).2).fw.trial || (modFw endStaging (countRestart s).2).fw.activating) &&
      (cause == 1 || cause == 2)) = false := by
    simpa only [modFw_fw, countRestart_fw, endStaging] using htrial
  unfold mpRestart
  rw [if_neg hacts]
  dsimp only
  rw [if_pos (by rw [modFw_sill, countRestart_stage, hrun]), htrial', hlimit]
  rfl

/-- R502: with the intake stopped and the journal DONE, the activation that is due starts. -/
theorem settleIntake_activates {s : State} (hstop : s.control.intakeStopped = true) (hruns : s.salurnRuns = true)
    (hdone : ∀ x ∈ s.control.journal, x.state = .done) (hroll : s.fw.rollbackDue = false) : settleIntake s = startActivation s := by
  have hall : s.control.journal.all (fun x => x.state == .done) = true :=
    List.all_eq_true.mpr (fun x hx => beq_iff_eq.mpr (hdone x hx))
  simp [settleIntake, hstop, hruns, hall, hroll]

theorem activationEpoch_reached {e : Nat} {s : State} (hpend : s.fw.pendingEpoch = some e) (he : e ≤ s.timing.tod.sec)
    (hruns : s.salurnRuns = true) :
    activationEpoch s = settleIntake (modControl (fun c => { c with intakeStopped := true }) s) := by
  simp [activationEpoch, hpend, hruns, State.reached, he]

/-- An activation below the limit of restarts stops Salurn with cause 5, and no activation pends. -/
theorem startActivation_stopsSalurn {s : State} (hup : s.hubUp = true) (hrun : s.sill.stage = .run)
    (hfew : s.recentRestarts.length < 2) :
    (startActivation s).control.mp = .restarting 5 ∧ (startActivation s).control.ready = false ∧
      (startActivation s).fw.activating = true ∧ (startActivation s).fw.pendingEpoch = none := by
  have hstop : startActivation s = _ := mpRestart_stopsSalurn hup hrun hfew (Bool.and_false _)
  rw [hstop]
  refine ⟨rfl, rfl, ?_, rfl⟩
  simp only [stopSalurn, modControl_fw, modFw_fw, countRestart_fw, endStaging]

end Sys2Proof.Machine

open Sys2Proof Sys2Proof.Machine

/-- Settles O12: each clause is what its operation does once its condition is decided. -/
theorem registersDebugAndPins : Obligations.RegistersDebugAndPins := by
  refine ⟨?ignored, ?registers, ?units, ?unlock, fun s => rfl, ?jtag, ?junction, ?epoch⟩
  case ignored =>
    intro a data s hp h
    exact congrArg Host.Outcome.next (sillRegisterWrite_ignored hp h)
  case registers =>
    intro data s hp hlen
    have hword : ∀ a : Byte, a.toNat % 4 = 0 → a.toNat ≠ 0x10 → exec (.sillRegisterWrite a data) s =
        .next (slWrite a.toNat (BitVec.ofNat 32 (beNat data)) (writeMiso (1 + data.length) s)) :=
      fun a h4 hr => congrArg Host.Outcome.next (sillRegisterWrite_word hp hlen h4 hr)
    exact ⟨⟨_, hword 0x14 rfl (by decide), congrArg Sill.wakeTol (slWrite_wakeTol ..), slWrite_writeMiso_only _ _ _ s⟩,
      ⟨_, hword 0x08 rfl (by decide), slWrite_alarmSummary .., slWrite_writeMiso_only _ _ _ s⟩,
      ⟨_, hword 0x1C rfl (by decide), slWrite_cpStatus .., slWrite_writeMiso_only _ _ _ s⟩⟩
  case units =>
    intro w u s hp hrun hw
    exact congrArg Host.Outcome.next (resetCommand_one_unit hp hrun hw)
  case unlock =>
    intro s hl he
    exact congrArg Host.Outcome.next (debugUnlockExpiry_reached hl he)
  case jtag =>
    intro j s hon
    refine ⟨fun h => ?_, fun hl hj => ?_, fun hj h2 h3 => ?_⟩
    · exact congrArg Host.Outcome.next (jtagInstructionLoad_forbidden h)
    · exact congrArg Host.Outcome.next (jtagInstructionLoad_plain hon hl hj)
    · exact ⟨_, congrArg Host.Outcome.next (jtagInstructionLoad_extest hon hj h2 h3), cpIrq_of_extest rfl,
        trafficRuns_of_stopped rfl, rfl, modPins_only _ s⟩
  case junction =>
    intro s hon
    exact ⟨_, congrArg Host.Outcome.next (junctionExceeds105c_on hon), rfl, modSill_only _ s⟩
  case epoch =>
    intro e s hpend he hruns hup hdone hroll hfew
    obtain ⟨hstage, -⟩ := (salurnRuns_iff s).mp hruns
    have hsettle := settleIntake_activates (s := modControl (fun c => { c with intakeStopped := true }) s) rfl hruns hdone hroll
    obtain ⟨hmp, hready, hactivating, hnone⟩ :=
      startActivation_stopsSalurn (s := modControl (fun c => { c with intakeStopped := true }) s) hup hstage hfew
    exact ⟨_, congrArg Host.Outcome.next ((activationEpoch_reached hpend he hruns).trans hsettle), hmp, hactivating, hnone, hready⟩

end

section
/-! PROOFS. Power domains and requests, as the power and the monitor commands use them: what taking a request leaves alone, and what
each operation on a domain does to the domains (R61 to R63). -/

-- One theorem after another: with a thread for each, the package as one text outgrows the checker's memory limit.
set_option Elab.async false

namespace Sys2Proof.Machine

/-! A list of changes, one after another. -/

/-- What each change leaves alone, all of them do. -/
theorem forEach_keeps {α β : Type} (get : State → β) {f : α → State → State} (h : ∀ a s, get (f a s) = get s) :
    ∀ (l : List α) (s : State), get (forEach l f s) = get s
  | [], _ => rfl
  | a :: r, s => (forEach_keeps get h r (f a s)).trans (h a s)

/-- Changes of one entry each, no entry twice: every entry named is changed once, and the others stay. -/
theorem forEach_entries {β : Type} (get : State → Nat → β) {f : Nat → State → State} {change : Nat → β → β}
    (same : ∀ i s, get (f i s) i = change i (get s i)) (other : ∀ i j s, j ≠ i → get (f i s) j = get s j) :
    ∀ (l : List Nat), l.Nodup → ∀ (s : State) (j : Nat), get (forEach l f s) j = if j ∈ l then change j (get s j) else get s j := by
  intro l
  induction l with
  | nil => intro _ s j; rfl
  | cons i r ih =>
    intro distinct s j
    obtain ⟨hi, hr⟩ := List.nodup_cons.mp distinct
    have step : get (forEach (i :: r) f s) j = _ := ih hr (f i s) j
    rw [step]
    by_cases hj : j = i
    · subst hj
      rw [if_neg hi, if_pos List.mem_cons_self, same]
    · simp only [List.mem_cons, hj, false_or, other i j s hj]

/-! Taking a request (R116). -/

theorem taken_port {code : Nat} {q : Request} {s : State} (h : taken code q s = true) : q.port = .control := by
  unfold taken at h
  simp only [Bool.and_eq_true] at h
  obtain ⟨⟨⟨hnow, -⟩, -⟩, -⟩ := h
  exact takenNow_port hnow

/-- `t` is `s` but for the receive buffers of the control port and the sessions. -/
def IntakeOnly (s t : State) : Prop := ∃ rx sessions, t = { s with control := { s.control with rx := rx, sessions := sessions } }

theorem intakeOnly_takeAt {i : Nat} {r : RxItem} {s : State} (hi : s.control.rx[i]? = some r) (hp : r.port = .control) :
    IntakeOnly s (takeAt i s) := by
  unfold takeAt
  rw [hi]
  dsimp only
  rw [hp]
  exact ⟨_, _, rfl⟩

/-- The packet taken next is one of the port's buffers. -/
theorem namesNext_buffer {s : State} {p : Port} {bytes : List Byte} {i : Nat} {r : RxItem} (h : s.namesNext p bytes = some (i, r)) :
    s.control.rx[i]? = some r ∧ r.port = p := by
  unfold State.namesNext at h
  split at h
  next => cases h
  next k _ =>
    split at h
    next r' hk =>
      split at h
      next same => cases h; exact ⟨hk, same.1⟩
      next => cases h
    next => cases h

/-- Taking a request of the control port leaves all but the receive buffers and the sessions. -/
theorem admitted_intakeOnly {code : Nat} {q : Request} {s : State} (h : taken code q s = true) : IntakeOnly s (admitted code q s) := by
  have arrival : IntakeOnly s (arrived code q s) := by
    unfold arrived
    split
    next i r hn =>
      obtain ⟨hi, hp⟩ := namesNext_buffer hn
      exact intakeOnly_takeAt hi (hp.trans (taken_port h))
    next => exact ⟨_, _, rfl⟩
  obtain ⟨rx, sessions, e⟩ := arrival
  unfold admitted
  rw [e]
  exact ⟨_, _, rfl⟩

theorem admitted_power (code : Nat) (q : Request) (s : State) : (admitted code q s).power = s.power := admitted_only code q s .power rfl
theorem admitted_monitor (code : Nat) (q : Request) (s : State) : (admitted code q s).monitor = s.monitor :=
  admitted_only code q s .monitor rfl
theorem admitted_fresh (code : Nat) (q : Request) (s : State) : (admitted code q s).fresh = s.fresh := admitted_only code q s .fresh rfl

theorem admitted_deepest {code : Nat} {q : Request} {s : State} (h : taken code q s = true) (cls idx : Nat) :
    (admitted code q s).deepest cls idx = s.deepest cls idx := by
  obtain ⟨_, _, e⟩ := admitted_intakeOnly h
  rw [e]
  rfl

theorem admitted_typicalMw {code : Nat} {q : Request} {s : State} (h : taken code q s = true) :
    (admitted code q s).typicalMw = s.typicalMw := by
  obtain ⟨_, _, e⟩ := admitted_intakeOnly h
  rw [e]
  rfl

theorem admitted_serves {code : Nat} {q : Request} {s : State} (h : taken code q s = true) (cls idx : Nat) :
    (admitted code q s).serves cls idx = s.serves cls idx := by
  obtain ⟨_, _, e⟩ := admitted_intakeOnly h
  rw [e]
  rfl

/-- A command that has executed, and after whose reply nothing follows. -/
theorem takeRequest_completes {code : Nat} {q : Request} {body : Request → State → Reply} {s t : State} {st : Status} {pl : List Byte}
    (ho : opFits code false = true) (h : taken code q s = true) (hb : body q (admitted code q s) = .done st pl t id) :
    takeRequest code q body s = carriedOut code q st pl t := takeRequest_done ho h hb

/-! Reading a domain (R55). -/

/-- Domains of one class have places of their own. -/
theorem domKey_ne {cls i j : Nat} (h : j ≠ i) : domKey cls j ≠ domKey cls i := by unfold domKey; omega

theorem dom_of_domains {s t : State} (h : t.power.domains = s.power.domains) (cls idx : Nat) : t.dom cls idx = s.dom cls idx := by
  unfold State.dom; rw [h]
theorem dom_of_power {s t : State} (h : t.power = s.power) (cls idx : Nat) : t.dom cls idx = s.dom cls idx :=
  dom_of_domains (by rw [h]) cls idx
theorem pll_of_power {s t : State} (h : t.power = s.power) (k : Nat) : t.pll k = s.pll k := by unfold State.pll; rw [h]

theorem admitted_dom (code : Nat) (q : Request) (s : State) (cls idx : Nat) : (admitted code q s).dom cls idx = s.dom cls idx :=
  dom_of_power (admitted_power code q s) cls idx

@[simp] theorem modDom_dom (cls idx : Nat) (f : PowerDomain → PowerDomain) (s : State) :
    (modDom cls idx f s).dom cls idx = f (s.dom cls idx) := tblGet_mod_same _ _ _ _
theorem modDom_dom_other {c i cls idx : Nat} (h : domKey c i ≠ domKey cls idx) (f : PowerDomain → PowerDomain) (s : State) :
    (modDom cls idx f s).dom c i = s.dom c i := tblGet_mod_other _ _ h _

theorem modDom_domains (cls idx : Nat) (f : PowerDomain → PowerDomain) (s : State) :
    (modDom cls idx f s).power.domains = tblMod {} s.power.domains (domKey cls idx) f := rfl

/-- The PLLs follow the domains and leave them. -/
theorem settlePlls_domains (s : State) : (settlePlls s).power.domains = s.power.domains := by
  unfold settlePlls
  refine forEach_keeps (fun s => s.power.domains) ?_ _ s
  exact fun _ _ => rfl

@[simp] theorem settlePlls_dom (s : State) (cls idx : Nat) : (settlePlls s).dom cls idx = s.dom cls idx :=
  dom_of_domains (settlePlls_domains s) cls idx
@[simp] theorem trainLanes_dom (c i : Nat) (s : State) (cls idx : Nat) : (trainLanes c i s).dom cls idx = s.dom cls idx :=
  dom_of_power (trainLanes_only c i s .power rfl) cls idx
@[simp] theorem startFullCal_dom (u : Nat) (tx : Bool) (s : State) (cls idx : Nat) : (startFullCal u tx s).dom cls idx = s.dom cls idx :=
  dom_of_power (startFullCal_only u tx s .power rfl) cls idx
@[simp] theorem raise_dom (code unit : Nat) (pl : List Byte) (urgent : Bool) (s : State) (cls idx : Nat) :
    (raise code unit pl urgent s).dom cls idx = s.dom cls idx := dom_of_power (raise_only code unit pl urgent s .power rfl) cls idx

/-! An exit to P0 (R61, R62). -/

/-- A sleeping domain that does not exit yet: its exit starts, which marks it and nothing else of the domains. -/
theorem startExit_asleep {cls idx : Nat} {s : State} (hq : cls = 3 → s.quadForced idx = false) (h0 : (s.dom cls idx).state ≠ 0)
    (he : (s.dom cls idx).exiting = false) :
    (startExit cls idx s).power.domains = tblMod {} s.power.domains (domKey cls idx) (fun d => { d with exiting := true }) := by
  have hforced : ¬(cls = 3 ∧ s.quadForced idx = true) := fun ⟨h3, hf⟩ => by simp [hq h3] at hf
  unfold startExit
  rw [if_neg hforced, if_neg h0, if_neg (by simp [he])]
  dsimp only
  rw [show ∀ t, (trainLanes cls idx t).power = t.power from fun t => trainLanes_only cls idx t .power rfl, settlePlls_domains]
  split
  · rw [modDom_domains, startFullCal_only _ _ s .power rfl]
  · rfl

theorem startExit_exiting {cls idx : Nat} {s : State} (he : (s.dom cls idx).exiting = true) (h0 : (s.dom cls idx).state ≠ 0) :
    startExit cls idx s = s := by
  unfold startExit
  rw [if_neg h0, if_pos he, ite_self]

/-- Whatever starts the exit of a domain, no domain's state, tolerance or waiting command changes. -/
theorem startExit_keeps (cls idx : Nat) (s : State) (c i : Nat) :
    ((startExit cls idx s).dom c i).state = (s.dom c i).state ∧ ((startExit cls idx s).dom c i).tol = (s.dom c i).tol ∧
      ((startExit cls idx s).dom c i).wake = (s.dom c i).wake := by
  by_cases hforced : cls = 3 ∧ s.quadForced idx = true
  · unfold startExit
    rw [if_pos hforced]
    exact ⟨rfl, rfl, rfl⟩
  by_cases h0 : (s.dom cls idx).state = 0
  · unfold startExit
    rw [if_neg hforced, if_pos h0]
    split <;> simp
  cases he : (s.dom cls idx).exiting with
  | true =>
    rw [startExit_exiting he h0]
    exact ⟨rfl, rfl, rfl⟩
  | false =>
    have hd := startExit_asleep (fun h3 => by simpa [h3] using hforced) h0 he
    unfold State.dom
    rw [hd]
    by_cases hk : domKey c i = domKey cls idx
    · rw [hk, tblGet_mod_same]
      exact ⟨rfl, rfl, rfl⟩
    · rw [tblGet_mod_other _ _ hk]
      exact ⟨rfl, rfl, rfl⟩

/-- A sleeping domain is on its way to P0 once its exit has been asked for. -/
theorem startExit_exits {cls idx : Nat} {s : State} (hq : cls = 3 → s.quadForced idx = false) (h0 : (s.dom cls idx).state ≠ 0) :
    ((startExit cls idx s).dom cls idx).exiting = true := by
  cases he : (s.dom cls idx).exiting with
  | true => rw [startExit_exiting he h0, he]
  | false =>
    unfold State.dom
    rw [startExit_asleep hq h0 he, tblGet_mod_same]

/-! Reaching P0 (R63). -/

theorem reachP0_dom (cls idx : Nat) (s : State) :
    (reachP0 cls idx s).dom cls idx = { s.dom cls idx with state := 0, exiting := false, wake := false } := by
  unfold reachP0
  dsimp only
  split <;> simp

/-- EV_DOMAIN_AWAKE (R79). -/
theorem reachP0_lastEvent {cls idx : Nat} {s : State} (h : (s.dom cls idx).wake = true) :
    lastEvent (reachP0 cls idx s) = some (0x0201, 0, be 1 cls ++ be 1 idx ++ zeros 2) := by
  unfold reachP0
  dsimp only
  rw [if_pos h]
  exact raise_lastEvent _ _ _ _ _

theorem wakeNow_dom (cls idx : Nat) (s : State) :
    (wakeNow cls idx s).dom cls idx = { s.dom cls idx with state := 0, exiting := false, wake := false } := reachP0_dom cls idx s

theorem wakeNow_pll (cls idx : Nat) (s : State) : (wakeNow cls idx s).pll (pllOf cls idx) = .locked := by
  unfold wakeNow State.pll
  simp only [modPower_power, tblGet_set_same]

/-! A command that needs a domain (R63). -/

/-- What a command finds of an enabled domain in P0, in P1 or P2, and in P3 or P4. -/
theorem needing_awake {cls idx : Nat} {s : State} (h : (s.dom cls idx).state = 0) (k : State → Reply) : needing cls idx s k = k s := by
  simp [needing, needDomain, h]

theorem needing_light {cls idx : Nat} {s : State} (hen : s.enabled cls idx = true) (h0 : (s.dom cls idx).state ≠ 0)
    (h2 : (s.dom cls idx).state ≤ 2) (k : State → Reply) : needing cls idx s k = k (wakeNow cls idx s) := by
  simp [needing, needDomain, hen, h0, h2]

theorem needDomain_deep {cls idx : Nat} {s : State} (hen : s.enabled cls idx = true) (h3 : 3 ≤ (s.dom cls idx).state) :
    needDomain cls idx s = (false, modDom cls idx (fun d => { d with wake := true }) (startExit cls idx s)) := by
  have h0 : (s.dom cls idx).state ≠ 0 := by omega
  have h2 : ¬(s.dom cls idx).state ≤ 2 := by omega
  simp [needDomain, hen, h0, h2]

/-- A domain answers at once exactly where it serves the command in time. -/
theorem needDomain_fst (cls idx : Nat) (s : State) : (needDomain cls idx s).1 = s.serves cls idx := by
  unfold needDomain State.serves
  dsimp only
  cases s.enabled cls idx with
  | false => rfl
  | true =>
    by_cases h0 : (s.dom cls idx).state = 0
    · simp [h0]
    · by_cases h2 : (s.dom cls idx).state ≤ 2 <;> simp [h0, h2]

theorem needing_serves {cls idx : Nat} {s : State} (h : s.serves cls idx = true) (k : State → Reply) :
    needing cls idx s k = k (needDomain cls idx s).2 := by
  unfold needing
  dsimp only
  rw [needDomain_fst, h]
  rfl

theorem needing_busy {cls idx : Nat} {s : State} (h : s.serves cls idx = false) (k : State → Reply) :
    needing cls idx s k = .reject .busy [] (needDomain cls idx s).2 := by
  unfold needing
  dsimp only
  rw [needDomain_fst, h]
  rfl

end Sys2Proof.Machine
end

section
/-! PROOFS. The POWER commands and the command that needs a domain (R63, R75 to R79), and the adaptive VDD_CORE (R71 to R73). -/

-- One theorem after another: with a thread for each, the package as one text outgrows the checker's memory limit.
set_option Elab.async false

namespace Sys2Proof.Machine

/-! Tolerances (R75, R76). -/

/-- CLASS, INDEX and the reserved half-word are in range. -/
theorem domainChecks_pass {q : Request} (h1 : 1 ≤ q.b 0) (h9 : q.b 0 ≤ 9) (hi : q.b 1 = 0xFF ∨ q.b 1 < classCount (q.b 0))
    (hr : q.h 2 = 0) : (domainChecks q).all (fun c => c.1) = true := by
  have hz : isZero q.payload 2 2 = true := beq_iff_eq.mpr hr
  simp [domainChecks, inByte, resv, h1, h9, hi, hz]

theorem namedDomains_nodup (cls idx : Nat) : (namedDomains cls idx).Nodup := by
  unfold namedDomains
  split
  · exact List.nodup_range
  · exact List.pairwise_singleton _ _

theorem setTolerance_tol (cls idx tol : Nat) (s : State) : ((setTolerance cls idx tol s).dom cls idx).tol = tol := by
  unfold setTolerance
  dsimp only
  split
  · obtain ⟨-, htol, -⟩ := startExit_keeps cls idx (modDom cls idx (fun d => { d with tol := tol }) s) cls idx
    rw [htol, modDom_dom]
  · rw [modDom_dom]

theorem setTolerance_tol_other {cls i j : Nat} (h : j ≠ i) (tol : Nat) (s : State) :
    ((setTolerance cls i tol s).dom cls j).tol = (s.dom cls j).tol := by
  unfold setTolerance
  dsimp only
  split
  · obtain ⟨-, htol, -⟩ := startExit_keeps cls i (modDom cls i (fun d => { d with tol := tol }) s) cls j
    rw [htol, modDom_dom_other (domKey_ne h)]
  · rw [modDom_dom_other (domKey_ne h)]

/-- Every domain named has the tolerance. -/
theorem forEach_setTolerance {cls tol i : Nat} {l : List Nat} (distinct : l.Nodup) (hi : i ∈ l) (s : State) :
    ((forEach l (fun k s => setTolerance cls k tol s) s).dom cls i).tol = tol := by
  have each := forEach_entries (fun s k => (s.dom cls k).tol) (f := fun k s => setTolerance cls k tol s) (change := fun _ _ => tol)
    (fun k s => setTolerance_tol cls k tol s) (fun _ _ s h => setTolerance_tol_other h tol s) l distinct s i
  rw [if_pos hi] at each
  exact each

theorem forEach_setTolerance_only (cls tol : Nat) (l : List Nat) (s : State) :
    OnlyChanges [.power, .cal, .elements, .carrier, .client] s (forEach l (fun k s => setTolerance cls k tol s) s) :=
  OnlyChanges.each (fun k u => setTolerance_only cls k tol u) l (OnlyChanges.refl _ s)

/-! The readings (R77). -/

theorem powerGetPower_reads (q : Request) (s : State) : powerGetPower q s =
    .okWith (be 2 s.power.targetMv ++
        be 2 (if Config.freeNat s.fresh % 1002 = 1001 then 0xFFFF else Config.freeNat s.fresh % 1002) ++
        be 4 (if Config.freeNat (s.fresh + 1) % 400002 = 400001 then 0xFFFFFFFF else Config.freeNat (s.fresh + 1) % 400002) ++
        be 4 (min 300000 (Config.deviceMw s.typicalMw (Config.freeNat s.fresh % 1002) (Config.freeNat (s.fresh + 1) % 400002))))
      { s with fresh := s.fresh + 2 } := rfl

/-! The regulator (R78). -/

theorem powerSetRegulator_acknowledged {q : Request} {s : State} (hl : 0x08 ≤ q.b 0) (hh : q.b 0 ≤ 0x77)
    (hz : isZero q.payload 1 3 = true) (hfree : Config.freeNat s.fresh % 2 = 0) :
    ∃ t id, powerSetRegulator q s = .okay t ∧
      t.power = { s.power with regAddr := q.b 0, regIdentity := id, adapting := true, nackRun := 0, pecRun := 0, recovered := false } := by
  refine ⟨_, _, (checked_pass _ _ _ ?_).trans (if_neg ?_), rfl⟩
  · simp [inByte, resv, hl, hh, hz]
  · simp [hfree]

theorem powerSetRegulator_nack {q : Request} {s : State} (hl : 0x08 ≤ q.b 0) (hh : q.b 0 ≤ 0x77)
    (hz : isZero q.payload 1 3 = true) (hfree : Config.freeNat s.fresh % 2 = 1) :
    powerSetRegulator q s = .done .pmbusNack [] { s with fresh := s.fresh + 1 } id := by
  refine (checked_pass _ _ _ ?_).trans (if_pos ?_)
  · simp [inByte, resv, hl, hh, hz]
  · exact hfree

/-! VDD_CORE (R71 to R73). -/

theorem coreVoltageEvaluation_runs {k : Fin 21} {lost : Bool} {s : State} (hrun : s.salurnRuns = true) :
    coreVoltageEvaluation k lost s = modPower (fun p =>
      if p.adapting then { p with targetMv := 650 + 5 * k.val }
      else if lost && !p.recovered then { p with targetMv := 750, recovered := true } else p) s := when_of_true hrun _ s

/-- A step rises toward a higher target and falls toward a lower one, by at most 5 mV and never past it. -/
theorem stepMv_rises {now target : Nat} (h : now < target) :
    now < stepMv now target ∧ stepMv now target ≤ now + 5 ∧ stepMv now target ≤ target := by
  unfold stepMv
  rw [if_pos h]
  omega

theorem stepMv_falls {now target : Nat} (h : target < now) :
    stepMv now target < now ∧ now ≤ stepMv now target + 5 ∧ target ≤ stepMv now target := by
  unfold stepMv
  rw [if_neg (by omega)]
  omega

/-- A step that is acknowledged with a good PEC moves VDD_CORE and ends both runs of failures. -/
theorem coreVoltageStep_acknowledged {s : State} (hrun : s.salurnRuns = true) (ha : s.power.adapting = true)
    (hne : s.power.coreMv ≠ s.power.targetMv) : coreVoltageStep true true s =
      modPower (fun p => { p with nackRun := 0, pecRun := 0, coreMv := stepMv p.coreMv p.targetMv }) s := by
  simp [coreVoltageStep, hrun, ha, hne]

theorem coreVoltageStep_thirdNack {pec : Bool} {s : State} (hrun : s.salurnRuns = true) (ha : s.power.adapting = true)
    (hne : s.power.coreMv ≠ s.power.targetMv) (h2 : s.power.nackRun = 2) : coreVoltageStep false pec s =
      stopAdapting 1 (modPower (fun p => { p with nackRun := p.nackRun + 1 }) s) := by
  simp [coreVoltageStep, hrun, ha, hne, h2]

theorem coreVoltageStep_thirdBadPec {s : State} (hrun : s.salurnRuns = true) (ha : s.power.adapting = true)
    (hne : s.power.coreMv ≠ s.power.targetMv) (h2 : s.power.pecRun = 2) : coreVoltageStep true false s =
      stopAdapting 2 (modPower (fun p => { p with nackRun := 0, pecRun := p.pecRun + 1 }) s) := by
  simp [coreVoltageStep, hrun, ha, hne, h2]

theorem coreVoltageStep_recovering {s : State} (hrun : s.salurnRuns = true) (ha : s.power.adapting = false)
    (hr : s.power.recovered = true) (hne : s.power.coreMv ≠ s.power.targetMv) :
    coreVoltageStep true true s = modPower (fun p => { p with coreMv := stepMv s.power.coreMv s.power.targetMv }) s := by
  simp [coreVoltageStep, modPower, hrun, ha, hr, hne]

/-- Adaptation that stops says why, records the fault and leaves VDD_CORE where it is (R73). -/
theorem stopAdapting_power (cause : Nat) (s : State) :
    (stopAdapting cause s).power = { s.power with adapting := false, recovered := false } := raise_only _ _ _ _ _ .power rfl

theorem stopAdapting_supplyAlarm (cause : Nat) (s : State) : (stopAdapting cause s).sill.supplyAlarm = true := by
  unfold stopAdapting
  rw [raise_sill]
  rfl

theorem stopAdapting_lastEvent (cause : Nat) (s : State) :
    lastEvent (stopAdapting cause s) = some (0x0202, 0, be 1 cause ++ zeros 3) := raise_lastEvent _ _ _ _ _

end Sys2Proof.Machine

open Sys2Proof Sys2Proof.Machine

/-- Settles O16: each command by its own part on the state that taking the request leaves, and R63 by the state of the domain. -/
theorem powerCommandsComplete : Obligations.PowerCommandsComplete := by
  refine ⟨?tolerance, ?state, ?power, ?regulator, ?needs⟩
  case tolerance =>
    intro q s h h1 h9 hi hr
    refine ⟨forEach (namedDomains (q.b 0) (q.b 1)) (fun i s => setTolerance (q.b 0) i (q.w 4) s) (admitted 0x0201 q s), ?_, ?_, ?_⟩
    · exact congrArg Host.Outcome.next (takeRequest_completes (by decide) h (checked_pass _ _ _ (domainChecks_pass h1 h9 hi hr)))
    · exact fun i hmem => forEach_setTolerance (namedDomains_nodup _ _) hmem _
    · exact ((admitted_only 0x0201 q s).mono rfl).trans ((forEach_setTolerance_only _ _ _ _).mono rfl)
  case state =>
    intro q s h h1 h9 hi hr
    refine congrArg Host.Outcome.next (takeRequest_get (by decide) h ((checked_pass _ _ _ (domainChecks_pass h1 h9 hi hr)).trans ?_))
    simp only [domainEntry, admitted_dom, admitted_deepest h]
  case power =>
    intro q s h
    refine ⟨Config.freeNat s.fresh % 1002, Config.freeNat (s.fresh + 1) % 400002, Nat.le_of_lt_succ (Nat.mod_lt _ (by decide)),
      Nat.le_of_lt_succ (Nat.mod_lt _ (by decide)), congrArg Host.Outcome.next (takeRequest_get (by decide) h ?_)⟩
    simp only [powerGetPower_reads, admitted_power, admitted_fresh, admitted_typicalMw h]
  case regulator =>
    intro q s h hl hh hz
    constructor
    · intro hfree
      obtain ⟨t, id, body, hpower⟩ := powerSetRegulator_acknowledged (s := admitted 0x0204 q s) hl hh hz (by rw [admitted_fresh]; exact hfree)
      refine ⟨t, id, congrArg Host.Outcome.next (takeRequest_completes (by decide) h body), ?_⟩
      rw [hpower, admitted_power]
    · intro hfree
      have body := powerSetRegulator_nack (s := admitted 0x0204 q s) hl hh hz (by rw [admitted_fresh]; exact hfree)
      exact ⟨_, congrArg Host.Outcome.next (takeRequest_completes (by decide) h body), admitted_power 0x0204 q s⟩
  case needs =>
    intro cls idx k s hen
    refine ⟨fun h0 => needing_awake h0 k, fun h1 h2 => ?_, fun h3 hq => ?_⟩
    · refine ⟨wakeNow cls idx s, needing_light hen (by omega) h2 k, ?_, wakeNow_pll cls idx s, wakeNow_only cls idx s⟩
      rw [wakeNow_dom]
    · have hbusy : s.serves cls idx = false := by simp [State.serves, hen]; omega
      refine ⟨_, needing_busy hbusy k, ?_, ?_⟩ <;> rw [needDomain_deep hen h3, modDom_dom]
      exact startExit_exits hq (by omega)

/-- Settles O18: a step and an evaluation by whether Salurn adapts, and a failure by what adaptation that stops leaves. -/
theorem coreVoltageAdapts : Obligations.CoreVoltageAdapts := by
  refine ⟨?evaluates, ?recovers, ?moves, ?stays, ?steps, ?alert⟩
  case evaluates =>
    intro k lost s hrun ha
    refine congrArg Host.Outcome.next ((coreVoltageEvaluation_runs hrun).trans ?_)
    simp only [modPower, ha, if_true]
  case recovers =>
    intro k s hrun ha hr
    refine congrArg Host.Outcome.next ((coreVoltageEvaluation_runs hrun).trans ?_)
    simp only [modPower, ha, hr, Bool.false_eq_true, if_false, Bool.not_false, Bool.and_self, if_true]
  case moves =>
    intro s hrun ha hr hne
    exact congrArg Host.Outcome.next (coreVoltageStep_recovering hrun ha hr hne)
  case stays =>
    intro k lost s hrun ha h
    refine congrArg Host.Outcome.next ((coreVoltageEvaluation_runs hrun).trans ?_)
    have hno : ¬((lost && !s.power.recovered) = true) := by rcases h with h | h <;> simp [h]
    simp only [modPower, ha, Bool.false_eq_true, if_false, if_neg hno]
  case steps =>
    intro s hrun ha hne
    refine ⟨⟨_, congrArg Host.Outcome.next (coreVoltageStep_acknowledged hrun ha hne), rfl, stepMv_rises, stepMv_falls, modPower_only _ s⟩,
      fun pec hnack => ?_, fun hpec => ?_⟩
    · exact ⟨_, congrArg Host.Outcome.next (coreVoltageStep_thirdNack hrun ha hne hnack), by rw [stopAdapting_power],
        stopAdapting_supplyAlarm _ _, stopAdapting_lastEvent _ _⟩
    · exact ⟨_, congrArg Host.Outcome.next (coreVoltageStep_thirdBadPec hrun ha hne hpec), by rw [stopAdapting_power],
        stopAdapting_supplyAlarm _ _, stopAdapting_lastEvent _ _⟩
  case alert =>
    intro s hrun ha
    refine ⟨stopAdapting 3 s, congrArg Host.Outcome.next (when_of_true (by simp [hrun, ha]) _ s), ?_, ?_, stopAdapting_supplyAlarm _ _,
      stopAdapting_lastEvent _ _, stopAdapting_only 3 s⟩ <;> rw [stopAdapting_power]

end

section
/-! PROOFS. Latency-governed sleep (R51 to R63, R67, R469): a domain falls asleep a state at a time, wakes on demand, and its PLL and
its lanes follow. -/

-- One theorem after another: with a thread for each, the package as one text outgrows the checker's memory limit.
set_option Elab.async false

namespace Sys2Proof.Machine

/-! Domains under the operations that sleep calls. -/

theorem dom_ite (c : Prop) [Decidable c] (s t : State) (cls idx : Nat) :
    (if c then s else t).dom cls idx = if c then s.dom cls idx else t.dom cls idx := apply_ite (fun u : State => u.dom cls idx) c s t

@[simp] theorem flushClamp_dom (k : Nat) (odd : List OddWord) (s : State) (cls idx : Nat) :
    (flushClamp k odd s).dom cls idx = s.dom cls idx := dom_of_power (flushClamp_only k odd s .power rfl) cls idx
@[simp] theorem suspendSources_dom (u : Nat) (s : State) (cls idx : Nat) : (suspendSources u s).dom cls idx = s.dom cls idx :=
  dom_of_power (suspendSources_only u s .power rfl) cls idx
@[simp] theorem zeroReserved_dom (k : Nat) (s : State) (cls idx : Nat) : (zeroReserved k s).dom cls idx = s.dom cls idx :=
  dom_of_power (zeroReserved_only k s .power rfl) cls idx
@[simp] theorem monitorAwake_dom (s : State) (cls idx : Nat) : (monitorAwake s).dom cls idx = s.dom cls idx :=
  dom_of_power (monitorAwake_only s .power rfl) cls idx
@[simp] theorem biasUp_dom (u : Nat) (s : State) (cls idx : Nat) : (biasUp u s).dom cls idx = s.dom cls idx :=
  dom_of_power (biasUp_only u s .power rfl) cls idx

@[simp] theorem modCal_calOf (u : Nat) (f : Cal → Cal) (s : State) : (modCal u f s).calOf u = f (s.calOf u) := tblGet_mod_same _ _ _ _

/-! Falling asleep (R60). -/

/-- A unit without bias outputs has none that ramps down. -/
theorem biasDown_none {u : Nat} {s : State} (h : (s.calOf u).bias = []) : ((biasDown u s).calOf u).bias = [] := by
  unfold biasDown
  rw [modCal_calOf, h]
  rfl

theorem biasQuiet_of_none {u : Nat} {s : State} (h : (s.calOf u).bias = []) : s.biasQuiet u = true := by simp [State.biasQuiet, h]

/-- A domain enters P4, but for a transmit domain whose bias outputs still ramp (R144). -/
theorem enterP4_dom {cls idx : Nat} {s : State} (hb : cls = 1 → (s.calOf idx).bias = []) :
    ((enterP4 cls idx s).dom cls idx).state = 4 ∧ ((enterP4 cls idx s).dom cls idx).exiting = false := by
  by_cases h1 : cls = 1
  · have none : ((if (s.dom 1 idx).state = 4 then s else biasDown idx s).calOf idx).bias = [] := by
      split
      · exact hb h1
      · exact biasDown_none (hb h1)
    have quiet := biasQuiet_of_none (u := idx)
      (s := modCal idx (fun c => { c with fullTx := false }) (if (s.dom 1 idx).state = 4 then s else biasDown idx s))
      (by rw [modCal_calOf]; exact none)
    simp [enterP4, h1, quiet]
  · by_cases h2 : cls = 2
    · simp [enterP4, h2]
    · by_cases h8 : cls = 8 <;> simp [enterP4, h1, h2, h8]

/-- The hold time of a domain may take it deeper: it is enabled, idle, in no exit, and a deeper state is permitted. -/
def State.maySleep (s : State) (cls idx : Nat) : Bool :=
  s.blocksRun && decide (idx < classCount cls) && s.enabled cls idx && !(s.dom cls idx).exiting && s.domainIdle cls idx &&
    decide ((s.dom cls idx).state < s.deepest cls idx)

/-- A domain that is not a link in P0 enters the next state. -/
theorem domainHoldExpiry_deeper {cls idx : Nat} {s : State} (h : s.maySleep cls idx = true) (he : (s.dom cls idx).exiting = false)
    (hlink : (cls ≠ 5 ∧ cls ≠ 6) ∨ (s.dom cls idx).state ≠ 0)
    (hb : cls = 1 → (s.dom cls idx).state = 3 → (s.calOf idx).bias = []) :
    ((domainHoldExpiry cls idx s).dom cls idx).state = (s.dom cls idx).state + 1 ∧
      ((domainHoldExpiry cls idx s).dom cls idx).exiting = false := by
  have h5 : ¬(cls = 5 ∧ (s.dom cls idx).state = 0) := by omega
  have h6 : ¬(cls = 6 ∧ (s.dom cls idx).state = 0) := by omega
  unfold State.maySleep at h
  unfold domainHoldExpiry
  dsimp only
  rw [h, if_neg (by decide), if_neg h5, if_neg h6]
  by_cases h3 : (s.dom cls idx).state = 3
  · rw [if_pos h3, settlePlls_dom, h3]
    exact enterP4_dom (fun h1 => hb h1 h3)
  · simp only [if_neg h3, settlePlls_dom, dom_ite, suspendSources_dom, modDom_dom, flushClamp_dom, ite_self, he, and_self]

/-- The stream domain rests in P1, and a port that is up with it (R60). -/
theorem domainHoldExpiry_stream {idx : Nat} {s : State} (h : s.maySleep 6 idx = true) (h0 : (s.dom 6 idx).state = 0) :
    domainHoldExpiry 6 idx s = settlePlls (modDom 6 idx (fun d => { d with state := 1 })
      (if s.stream.state = 2 then modStream (fun t => { t with state := 3 }) s else s)) := by
  unfold State.maySleep at h
  unfold domainHoldExpiry
  dsimp only
  rw [h, if_neg (by decide), if_neg (by omega), if_pos ⟨rfl, h0⟩]

/-- A Tenon port that is up sends SLEEP (R469). -/
theorem domainHoldExpiry_tenon {idx : Nat} {s : State} (h : s.maySleep 5 idx = true) (h0 : (s.dom 5 idx).state = 0)
    (hup : s.tenonUp idx = true) : domainHoldExpiry 5 idx s = tenonSleep idx s := by
  unfold State.maySleep at h
  unfold domainHoldExpiry
  dsimp only
  rw [h, if_neg (by decide), if_pos ⟨rfl, h0⟩, if_pos hup]

/-! SLEEP on a Tenon link (R469). -/

@[simp] theorem modTenon_tenon (p : Nat) (f : TenonPort → TenonPort) (s : State) : (modTenon p f s).tenon p = f (s.tenon p) :=
  tblGet_mod_same _ _ _ _

theorem tenon_of_domain {s t : State} (h : t.domain = s.domain) (p : Nat) : t.tenon p = s.tenon p := by unfold State.tenon; rw [h]

/-- Bytes that leave move the lanes of the port alone. -/
theorem tenonBytes_tenon (p : Nat) (b : List Byte) (s : State) :
    (tenonBytes p b s).tenon p = { s.tenon p with
      lane := dealBytes 2 b (s.tenon p).dealt (s.tenon p).lane, dealt := (s.tenon p).dealt + b.length } := by
  unfold tenonBytes
  dsimp only
  rw [tenon_of_domain (bump_only _ _ _ _ _ .domain rfl), tenon_of_domain (bump_only _ _ _ _ _ .domain rfl), modTenon_tenon]

/-- A link-control message that leaves keeps the port's state and what it knows of SLEEP. -/
theorem tenonControlOut_tenon (p : Nat) (sleep retrain : Bool) (s : State) :
    ((tenonControlOut p sleep retrain s).tenon p).state = (s.tenon p).state ∧
      ((tenonControlOut p sleep retrain s).tenon p).sleepSent = (s.tenon p).sleepSent ∧
      ((tenonControlOut p sleep retrain s).tenon p).sleepSeen = (s.tenon p).sleepSeen := by
  unfold tenonControlOut
  dsimp only
  rw [tenonBytes_tenon, modTenon_tenon]
  exact ⟨rfl, rfl, rfl⟩

/-- The port with SLEEP sent. -/
def sentSleep (p : Nat) (s : State) : State := tenonControlOut p true false (modTenon p (fun t => { t with sleepSent := true }) s)

theorem sentSleep_tenon (p : Nat) (s : State) :
    ((sentSleep p s).tenon p).state = (s.tenon p).state ∧ ((sentSleep p s).tenon p).sleepSent = true ∧
      ((sentSleep p s).tenon p).sleepSeen = (s.tenon p).sleepSeen := by
  obtain ⟨hstate, hsent, hseen⟩ := tenonControlOut_tenon p true false (modTenon p (fun t => { t with sleepSent := true }) s)
  simp only [modTenon_tenon] at hstate hsent hseen
  exact ⟨hstate, hsent, hseen⟩

theorem sentSleep_only (p : Nat) (s : State) : OnlyChanges [.counters, .domain] s (sentSleep p s) :=
  tenonControlOut_frame p true false (modTenon_frame p _ (OnlyChanges.refl _ s) rfl) rfl

theorem tenonSleep_waits {p : Nat} {s : State} (h : (s.tenon p).sleepSeen = false) : tenonSleep p s = sentSleep p s := by
  obtain ⟨-, -, hseen⟩ := sentSleep_tenon p s
  exact if_neg (fun seen => Bool.false_ne_true ((hseen.trans h).symm.trans seen))

theorem tenonSleep_agreed {p : Nat} {s : State} (h : (s.tenon p).sleepSeen = true) : tenonSleep p s =
    settlePlls (modDom 5 p (fun d => { d with state := 1 }) (modTenon p (fun t => { t with state := 4 }) (sentSleep p s))) := by
  obtain ⟨-, -, hseen⟩ := sentSleep_tenon p s
  exact if_pos (hseen.trans h)

/-! Demand (R61). -/

theorem domainDemand_enabled {cls idx : Nat} {s : State} (hb : s.blocksRun = true) (hi : idx < classCount cls)
    (hen : s.enabled cls idx = true) : domainDemand cls idx s = startExit cls idx s := by
  unfold domainDemand demand
  rw [when_of_true (by simp [hb, hi]), if_pos hen]

/-- A domain in P0 stays as it is, but for the full calibration of a transmit domain that has none. -/
theorem startExit_awake {cls idx : Nat} {s : State} (h0 : (s.dom cls idx).state = 0) (hc : cls = 1 → (s.cu idx).txCalibrated = true) :
    startExit cls idx s = s := by
  have calibrated : ¬(cls = 1 ∧ (s.cu idx).txEn = true ∧ (!(s.cu idx).txCalibrated) = true ∧ (!(s.calOf idx).fullTx) = true) :=
    fun ⟨h1, _, hno, _⟩ => by simp [hc h1] at hno
  unfold startExit
  rw [if_pos h0, if_neg calibrated, ite_self]

theorem startExit_uncalibrated {idx : Nat} {s : State} (h0 : (s.dom 1 idx).state = 0) (hen : (s.cu idx).txEn = true)
    (hc : (s.cu idx).txCalibrated = false) (hf : (s.calOf idx).fullTx = false) : startExit 1 idx s = startFullCal idx true s := by
  simp [startExit, h0, hen, hc, hf]

/-! PLLs (R51). -/

/-- A PLL that has restarted is locked. -/
def lockPll (k : Nat) (s : State) : State := modPower (fun p => { p with plls := tblSet .off p.plls k .locked }) s

theorem lockPll_same (k : Nat) (s : State) : (lockPll k s).pll k = .locked := by
  simp only [State.pll, lockPll, modPower_power, tblGet_set_same]
theorem lockPll_other {k j : Nat} (h : j ≠ k) (s : State) : (lockPll k s).pll j = s.pll j := by
  simp only [State.pll, lockPll, modPower_power, tblGet_set_other _ _ h]

theorem pllLock_starting {k : Nat} {s : State} (hup : s.hubUp = true) (hp : s.pll k = .starting) : pllLock k s =
    if 5 ≤ k ∧ k ≤ 20 ∧ (s.dom 3 (k - 5)).exiting = true then trainQuad (k - 5) (lockPll k s) else lockPll k s := by
  unfold pllLock
  rw [when_of_true (by simp [hup, hp])]
  rfl

theorem pllLock_power {k : Nat} {s : State} (hup : s.hubUp = true) (hp : s.pll k = .starting) :
    (pllLock k s).power = (lockPll k s).power := by
  rw [pllLock_starting hup hp]
  split <;> rfl

theorem trainQuad_bursts (q : Nat) (s : State) : tblGet 0 (trainQuad q s).client.bursts q = 4096 := by
  simp only [trainQuad, tblGet_set_same]

/-! The end of an exit (R63). -/

theorem exitReady_of {cls idx : Nat} {s : State} (hp : s.pll (pllOf cls idx) = .locked)
    (hrise : (s.dom cls idx).state ≠ 4 ∨ s.coreRising = false) (htx : cls = 1 → (s.cu idx).txCalibrated = true)
    (hrx : cls = 2 → (s.cu idx).rxCalibrated = true) (hmon : cls = 8 → (s.calOf 4).fullTx = false) : s.exitReady cls idx = true := by
  have calibrated : (if cls = 1 then (s.cu idx).txCalibrated else if cls = 2 then (s.cu idx).rxCalibrated
      else if cls = 8 then !(s.calOf 4).fullTx else true) = true := by
    split
    next h => exact htx h
    split
    next h => exact hrx h
    split
    next h => simp [hmon h]
    next => rfl
  have steady : ((s.dom cls idx).state == 4 && s.coreRising) = false := by rcases hrise with h | h <;> simp [h]
  unfold State.exitReady
  rw [calibrated, steady, hp]
  rfl

/-- What a domain does as it leaves its sleep: a stack's reserved words are written, the monitor's references have settled, the bias codes
named in P4 act. -/
def leaveSleep (cls idx : Nat) (s : State) : State :=
  if cls = 4 ∧ (s.dom cls idx).state = 4 then zeroReserved idx s
  else if cls = 8 ∧ 3 ≤ (s.dom cls idx).state then monitorAwake s else if cls = 1 then biasUp idx s else s

theorem leaveSleep_dom (cls idx : Nat) (s : State) : (leaveSleep cls idx s).dom cls idx = s.dom cls idx := by
  simp only [leaveSleep, dom_ite, zeroReserved_dom, monitorAwake_dom, biasUp_dom, ite_self]

theorem domainExitComplete_ready {cls idx : Nat} {s : State} (hup : s.hubUp = true) (hi : idx < classCount cls)
    (he : (s.dom cls idx).exiting = true) (hr : s.exitReady cls idx = true) : domainExitComplete cls idx s =
      let u := reachP0 cls idx (leaveSleep cls idx s)
      let v := if cls = 8 ∧ (u.calOf 4).roundDue = true then startRound 4 true u else u
      if cls = 4 ∨ cls = 9 then selectAll v else v := when_of_true (by simp [hup, hi, he, hr]) _ s

end Sys2Proof.Machine

open Sys2Proof Sys2Proof.Machine

/-- Settles O17: the hold time by the class and the state of the domain, and each wake by what it finds. -/
theorem sleepFollowsIdleness : Obligations.SleepFollowsIdleness := by
  refine ⟨?sleeps, ?demand, ?locks, ?wakes⟩
  case sleeps =>
    intro cls idx s hb hi hen he hidle hdeep
    have may : s.maySleep cls idx = true := by simp [State.maySleep, hb, hi, hen, he, hidle, hdeep]
    refine ⟨fun hlink hbias => ⟨_, rfl, domainHoldExpiry_deeper may he hlink hbias⟩, fun h5 h0 hup => ?_, fun h6 h0 => ?_⟩
    · subst h5
      have hhub : s.hubUp = true := by simp only [State.blocksRun, Bool.and_eq_true] at hb; exact hb.1
      obtain ⟨hstate, hsent, -⟩ := sentSleep_tenon idx s
      constructor <;> intro htraffic htrain hseen <;>
        have e := domainHoldExpiry_tenon may h0 (by simp [State.tenonUp, hhub, htraffic, hup, htrain])
      · rw [tenonSleep_waits hseen] at e
        exact ⟨_, congrArg Host.Outcome.next e, hsent, hstate.trans hup, sentSleep_only idx s⟩
      · refine ⟨_, congrArg Host.Outcome.next e, ?_, ?_, tenonSleep_only idx s⟩ <;> rw [tenonSleep_agreed hseen]
        · rw [settlePlls_dom, modDom_dom]
        · rw [tenon_of_domain (settlePlls_only _ .domain rfl), tenon_of_domain (modDom_only _ _ _ _ .domain rfl), modTenon_tenon]
    · subst h6
      refine ⟨_, congrArg Host.Outcome.next (domainHoldExpiry_stream may h0), by rw [settlePlls_dom, modDom_dom], fun h2 => ?_, ?_⟩
      · rw [settlePlls_only _ .stream rfl, modDom_only _ _ _ _ .stream rfl, if_pos h2]
        rfl
      · refine settlePlls_frame (modDom_frame _ _ _ (OnlyChanges.ite (modStream_frame _ (OnlyChanges.refl _ s) rfl) ?_) rfl) rfl
        exact OnlyChanges.refl _ s
  case demand =>
    intro cls idx s hb hi hen hq
    have e : exec (.domainDemand cls idx) s = .next (startExit cls idx s) :=
      congrArg Host.Outcome.next (domainDemand_enabled hb hi hen)
    refine ⟨fun h0 hc => ?_, fun h0 h1 hc hf => ?_, fun h0 he => ?_, fun h0 he => ?_⟩
    · rw [startExit_awake h0 hc] at e
      exact e
    · subst h1
      rw [startExit_uncalibrated h0 hen hc hf] at e
      exact e
    · rw [startExit_exiting he h0] at e
      exact e
    · obtain ⟨hstate, -, -⟩ := startExit_keeps cls idx s cls idx
      exact ⟨_, e, startExit_exits hq h0, hstate, startExit_only cls idx s⟩
  case locks =>
    intro k s hup hp
    have hpower := pllLock_power hup hp
    refine ⟨_, rfl, ?_, fun j hj => ?_, ?_, fun q hq16 hk hexit => ?_, pllLock_only k s⟩
    · rw [pll_of_power hpower, lockPll_same]
    · rw [pll_of_power hpower, lockPll_other hj]
    · rw [hpower]
      rfl
    · have hq : k.val - 5 = q := by omega
      rw [pllLock_starting hup hp, hq, if_pos ⟨by omega, by omega, hexit⟩]
      exact trainQuad_bursts q _
  case wakes =>
    intro cls idx s hup hi he hp hrise htx hrx hmon
    have hdom := reachP0_dom cls idx (leaveSleep cls idx s)
    refine ⟨reachP0 cls idx (leaveSleep cls idx s), by rw [hdom], by rw [hdom], by rw [hdom], fun hwake => ?_, ?_⟩
    · exact reachP0_lastEvent (by rw [leaveSleep_dom]; exact hwake)
    · exact congrArg Host.Outcome.next (domainExitComplete_ready hup hi he (exitReady_of hp hrise htx hrx hmon))

end

section
/-! PROOFS. The MONITOR commands (R63, R423 to R442): what each does on fields that are in range, once its domain is awake, and the
statement assembled from these. -/

-- One theorem after another: with a thread for each, the package as one text outgrows the checker's memory limit.
set_option Elab.async false

namespace Sys2Proof.Machine

/-! Reading the monitor. -/

section
variable {s t : State} (h : t.monitor = s.monitor)
include h

theorem converter_of_monitor (c : Nat) : t.converter c = s.converter c := by unfold State.converter; rw [h]
theorem sequencer_of_monitor (k : Nat) : t.sequencer k = s.sequencer k := by unfold State.sequencer; rw [h]
theorem injection_of_monitor (c : Nat) : t.injection c = s.injection c := by unfold State.injection; rw [h]
theorem decim_of_monitor (c : Nat) : t.decim c = s.decim c := by unfold State.decim; rw [h]
theorem monSlot_of_monitor (i : Nat) : t.monSlot i = s.monSlot i := by unfold State.monSlot; rw [h]
theorem tracker_of_monitor (i : Nat) : t.tracker i = s.tracker i := by unfold State.tracker; rw [h]
theorem seqFeeds_of_monitor (k : Nat) : t.seqFeeds k = s.seqFeeds k := by unfold State.seqFeeds; rw [sequencer_of_monitor h]
theorem decimFeeds_of_monitor (but : Option Nat) : t.decimFeeds but = s.decimFeeds but := by
  unfold State.decimFeeds State.decim; rw [h]
theorem injectFeeds_of_monitor : t.injectFeeds = s.injectFeeds := by unfold State.injectFeeds State.injection; rw [h]

end

/-- The state in which a command that needs the ADC goes on, or is answered ST_BUSY. -/
def withAdc (code : Nat) (q : Request) (s : State) : State := (needDomain 8 0 (admitted code q s)).2

/-- The ADC's waking leaves what the monitor holds. -/
theorem withAdc_monitor (code : Nat) (q : Request) (s : State) : (withAdc code q s).monitor = s.monitor :=
  (needDomain_only 8 0 (admitted code q s) .monitor rfl).trans (admitted_monitor code q s)

theorem startExit_monitor (cls idx : Nat) (s : State) : (startExit cls idx s).monitor = s.monitor := startExit_only cls idx s .monitor rfl

theorem admitted_seqFeeds (code : Nat) (q : Request) (s : State) : (admitted code q s).seqFeeds = s.seqFeeds :=
  funext (seqFeeds_of_monitor (admitted_monitor code q s))
theorem admitted_decimFeeds (code : Nat) (q : Request) (s : State) : (admitted code q s).decimFeeds = s.decimFeeds :=
  funext (decimFeeds_of_monitor (admitted_monitor code q s))
theorem admitted_injectFeeds (code : Nat) (q : Request) (s : State) : (admitted code q s).injectFeeds = s.injectFeeds :=
  injectFeeds_of_monitor (admitted_monitor code q s)

/-- A command that needs the ADC while it must wake from P3 or P4. -/
theorem takeRequest_adcBusy {code : Nat} {get : Bool} {q : Request} {body : Request → State → Reply} {s : State} {k : State → Reply}
    (ho : opFits code get = true) (h : taken code q s = true) (hs : s.serves 8 0 = false)
    (hb : body q (admitted code q s) = needing 8 0 (admitted code q s) k) :
    takeRequest code q body s = refused code q .busy [] (withAdc code q s) :=
  takeRequest_refuse ho h (hb.trans (needing_busy ((admitted_serves h 8 0).trans hs) k))

/-- A command that needs the ADC and has it. -/
theorem needing_adc {code : Nat} {q : Request} {s : State} (h : taken code q s = true) (hs : s.serves 8 0 = true) (k : State → Reply) :
    needing 8 0 (admitted code q s) k = k (withAdc code q s) := needing_serves ((admitted_serves h 8 0).trans hs) k

@[simp] theorem modConverter_converter (c : Nat) (f : Converter → Converter) (s : State) :
    (modConverter c f s).converter c = f (s.converter c) := tblGet_mod_same _ _ _ _
theorem wantPair_converter (want : Monitor → Option Bool) (s : State) (c : Nat) :
    (modMonitor (fun m => { m with wantPair := want m }) s).converter c = s.converter c := rfl
@[simp] theorem modSequencer_sequencer (k : Nat) (f : Sequencer → Sequencer) (s : State) :
    (modSequencer k f s).sequencer k = f (s.sequencer k) := tblGet_mod_same _ _ _ _
@[simp] theorem modDecim_decim (c : Nat) (f : Decim → Decim) (s : State) : (modDecim c f s).decim c = f (s.decim c) :=
  tblGet_mod_same _ _ _ _
@[simp] theorem modMonSlot_monSlot (i : Nat) (f : MonSlot → MonSlot) (s : State) : (modMonSlot i f s).monSlot i = f (s.monSlot i) :=
  tblGet_mod_same _ _ _ _
theorem modMonSlot_monSlot_other {i j : Nat} (h : j ≠ i) (f : MonSlot → MonSlot) (s : State) :
    (modMonSlot i f s).monSlot j = s.monSlot j := tblGet_mod_other _ _ h _
@[simp] theorem modTracker_tracker (i : Nat) (f : Tracker → Tracker) (s : State) : (modTracker i f s).tracker i = f (s.tracker i) :=
  tblGet_mod_same _ _ _ _
theorem modTracker_tracker_other {i j : Nat} (h : j ≠ i) (f : Tracker → Tracker) (s : State) :
    (modTracker i f s).tracker j = s.tracker j := tblGet_mod_other _ _ h _

/-! Fields. -/

theorem isZero_of_byte {q : Request} {off : Nat} (h : q.b off = 0) : isZero q.payload off 1 = true := beq_iff_eq.mpr h
theorem isZero_of_half {q : Request} {off : Nat} (h : q.h off = 0) : isZero q.payload off 2 = true := beq_iff_eq.mpr h

/-! Refusals (R432). -/

/-- The first condition of check 13 that does not hold decides. -/
theorem require_first {c : Bool} {st : Status} (hc : c = false) (cs : List (Bool × Status)) (s : State) (k : Reply) :
    require ((c, st) :: cs) s k = .reject st [] s := by
  subst hc
  rfl

theorem require_next {c : Bool} {st : Status} (hc : c = true) (cs : List (Bool × Status)) (s : State) (k : Reply) :
    require ((c, st) :: cs) s k = require cs s k := by
  subst hc
  rfl

theorem routed_conflict {wanted held : List Destination} {d : Destination} (h : secondProducer wanted held = some d) (s : State)
    (k : Reply) : routed wanted held s k = .reject .monRoute (be 1 d.1 ++ be 1 d.2 ++ zeros 2) s := by
  unfold routed
  rw [h]

theorem routed_free {wanted held : List Destination} (h : secondProducer wanted held = none) (s : State) (k : Reply) :
    routed wanted held s k = k := by
  unfold routed
  rw [h]

/-! MONITOR.SET_CONVERTER (R423, R440). -/

/-- REF and PAIR wait. -/
def setWants (q : Request) (s : State) : State :=
  let s := modConverter (q.b 0) (fun k => { k with want := if q.b 1 = k.ref then none else some (q.b 1) }) s
  if q.b 0 = 1 then s else modMonitor (fun m => { m with wantPair := if (q.b 2 == 1) = m.pair then none else some (q.b 2 == 1) }) s

theorem setWants_converter (q : Request) (s : State) : (setWants q s).converter (q.b 0) =
    { s.converter (q.b 0) with want := if q.b 1 = (s.converter (q.b 0)).ref then none else some (q.b 1) } := by
  unfold setWants
  dsimp only
  split
  · rw [modConverter_converter]
  · rw [wantPair_converter, modConverter_converter]

theorem setWants_wantPair (q : Request) (s : State) : (setWants q s).monitor.wantPair = if q.b 0 = 1 then s.monitor.wantPair
    else if (q.b 2 == 1) = s.monitor.pair then none else some (q.b 2 == 1) := by
  unfold setWants
  dsimp only
  split <;> rfl

theorem monitorSetConverter_legal {q : Request} {s : State} (hu : q.u = 0) (h0 : q.b 0 ≤ 1) (h1 : q.b 1 ≤ 2)
    (h2 : q.b 2 ≤ if q.b 0 = 1 then 0 else 1) (h3 : q.b 3 = 0)
    (hp : q.b 0 = 1 ∨ (q.b 2 == 1) = s.monitor.wantPair.getD s.monitor.pair ∨
      ∀ k < 2, (s.sequencer k).table.start = 0 ∧ (s.sequencer k).waiting = none) :
    monitorSetConverter q s = needing 8 0 s (fun s => .okay (setWants q s)) := by
  have pairMay : (q.b 0 == 1 || (q.b 2 == 1) == s.monitor.wantPair.getD s.monitor.pair || [0, 1].all (fun k =>
      (s.sequencer k).table.start == 0 && (s.sequencer k).waiting.all (fun t => t.start == 0))) = true := by
    rcases hp with h | h | h
    · simp [h]
    · simp [h]
    · simp [h 0 (by decide), h 1 (by decide)]
  refine (checked_pass _ _ _ ?_).trans (require_pass _ _ _ ?_)
  · simp [unitZero, inByte, resv, hu, h0, h1, h2, isZero_of_byte h3]
  · simpa only [List.all_cons, List.all_nil, Bool.and_true] using pairMay

/-! MONITOR.SET_SEQUENCE (R428). -/

/-- The table is taken, and a trigger that waited for another source is missed. -/
def tableTaken (k : Nat) (x : SeqTable) (s : State) : State :=
  let drop := (s.sequencer k).latched && (x.start == 0 || x.trigSrc != (s.sequencer k).table.trigSrc)
  let s := modSequencer k (fun y => { y with
    table := x, waiting := none, running := false, entry := 0, carry := {}, latched := y.latched && !drop
    periodInForce := if x.periodUs = 0 then 0 else y.periodInForce }) s
  if drop then missTrigger k s else s

theorem tableTaken_sequencer (k : Nat) (x : SeqTable) (s : State) : ((tableTaken k x s).sequencer k).table = x ∧
    ((tableTaken k x s).sequencer k).waiting = none ∧ ((tableTaken k x s).sequencer k).running = false := by
  unfold tableTaken
  dsimp only
  split
  · simp [missTrigger]
  · simp

/-- The channels that a starting sequencer feeds settle anew. -/
def feedsCleared (k : Nat) (x : SeqTable) (s t : State) : State :=
  if (s.sequencer k).table.start = 0 ∧ x.start ≠ 0 then
    forEach (x.fed.filter (fun c => (t.decim c).config.enabled)) (fun c s => modDecim c (fun d => clearedDecim d.config) s) t else t

theorem feedsCleared_sequencer (k : Nat) (x : SeqTable) (s t : State) : (feedsCleared k x s t).sequencer k = t.sequencer k := by
  unfold feedsCleared
  split
  · refine forEach_keeps (fun u => u.sequencer k) ?_ _ t
    exact fun _ _ => rfl
  · rfl

theorem applyTable_eq (k : Nat) (x : SeqTable) (s : State) : applyTable k x s =
    if x.start = 1 then startPass k (startExit 8 0 (feedsCleared k x s (tableTaken k x s)))
    else feedsCleared k x s (tableTaken k x s) := rfl

/-- A table in force: nothing waits, and the sequencer runs exactly where it is continuous. -/
theorem applyTable_sequencer (k : Nat) (x : SeqTable) (s : State) : ((applyTable k x s).sequencer k).table = x ∧
    ((applyTable k x s).sequencer k).waiting = none ∧ (((applyTable k x s).sequencer k).running = true ↔ x.start = 1) := by
  obtain ⟨htable, hwaiting, hrunning⟩ := tableTaken_sequencer k x s
  rw [applyTable_eq]
  by_cases hx : x.start = 1
  · simp [hx, startPass, sequencer_of_monitor (startExit_monitor _ _ _), feedsCleared_sequencer, htable, hwaiting]
  · simp [hx, feedsCleared_sequencer, htable, hwaiting, hrunning]

/-- The table a request carries. -/
def tableOf (q : Request) : SeqTable := ⟨q.b 1, q.b 2, q.w 4, (List.range (q.b 3)).map (entryOf q)⟩

theorem monitorSetSequence_legal {q : Request} {s : State} (hu : q.u = 0) (h0 : q.b 0 ≤ if s.monitor.pair then 0 else 1)
    (h1 : q.b 1 ≤ 2) (h2 : q.b 2 ≤ if q.b 1 = 2 then 3 else 0) (h3 : 1 ≤ q.b 3 ∧ q.b 3 ≤ if s.monitor.pair then 1 else 16)
    (hlen : q.payload.length = 8 + 8 * q.b 3) (htimer : q.b 2 = 1 → 10 ≤ q.w 4 ∧ q.w 4 ≤ 1000000 ∧ 1000000 % q.w 4 = 0)
    (hno : q.b 2 ≠ 1 → q.w 4 = 0) (hentries : ∀ e < q.b 3, (entryChecks q e).all (fun x => x.1) = true) :
    monitorSetSequence q s = routed (tableOf q).feeds (s.seqFeeds (1 - q.b 0) ++ s.decimFeeds none ++ s.injectFeeds) s
      (needing 8 0 s fun s => if (s.sequencer (q.b 0)).running
        then .okay (modSequencer (q.b 0) (fun y => { y with waiting := some (tableOf q) }) s)
        else .okay (applyTable (q.b 0) (tableOf q) s)) := by
  have period : (if q.b 2 = 1 then decide (10 ≤ q.w 4 ∧ q.w 4 ≤ 1000000) && 1000000 % q.w 4 == 0 else q.w 4 == 0) = true := by
    by_cases h : q.b 2 = 1
    · simp [h, htimer h]
    · simp [h, hno h]
  have entries : ((List.range (q.b 3)).flatMap (entryChecks q)).all (fun c => c.1) = true := by
    rw [List.all_flatMap, List.all_eq_true]
    exact fun e he => hentries e (List.mem_range.mp he)
  refine checked_pass _ _ _ ?_
  rw [List.all_append, entries, Bool.and_true]
  simp only [List.all_cons, List.all_nil, period, unitZero, inByte, hu, h0, h1, h2, h3, hlen]
  simp

/-! MONITOR.SET_DECIM (R434 to R437). -/

/-- The configuration a request carries. -/
def decimOf (q : Request) : DecimConfig :=
  ⟨q.b 1 == 1, q.b 2 == 1, q.b 3, q.b 4, q.b 5, q.b 6 == 1, q.w 8, orNone (q.b 12), orNone (q.b 13)⟩

/-- A changed channel starts from cleared registers; one that is enabled ends the domain's sleep. -/
def decimSet (q : Request) (s : State) : State :=
  let s := if (s.decim (q.b 0)).config = decimOf q then s else modDecim (q.b 0) (fun _ => clearedDecim (decimOf q)) s
  if (decimOf q).enabled then startExit 8 0 s else s

theorem decimSet_decim (q : Request) (s : State) : (decimSet q s).decim (q.b 0) =
    if (s.decim (q.b 0)).config = decimOf q then s.decim (q.b 0) else clearedDecim (decimOf q) := by
  have changed : (if (s.decim (q.b 0)).config = decimOf q then s else modDecim (q.b 0) (fun _ => clearedDecim (decimOf q)) s).decim
      (q.b 0) = if (s.decim (q.b 0)).config = decimOf q then s.decim (q.b 0) else clearedDecim (decimOf q) := by
    split
    · rfl
    · rw [modDecim_decim]
  unfold decimSet
  dsimp only
  split
  · rw [decim_of_monitor (startExit_monitor _ _ _)]
    exact changed
  · exact changed

theorem monitorSetDecim_legal {q : Request} {s : State} (hu : q.u = 0) (h0 : q.b 0 ≤ 7) (h1 : q.b 1 ≤ 1) (h5 : 2 ≤ q.b 5 ∧ q.b 5 ≤ 10)
    (h7 : q.b 7 = 0) (h14 : q.h 14 = 0)
    (hmode : (q.b 2 = 1 ∧ q.b 3 = 0 ∧ q.b 4 = 0 ∧ q.b 6 = 0) ∨
      (q.b 2 = 0 ∧ 3 ≤ q.b 3 ∧ q.b 3 ≤ 5 ∧ 1 ≤ q.b 4 ∧ q.b 4 ≤ 2 ∧ q.b 6 ≤ 1))
    (hratio : q.b 6 = 1 → 16777216 ≤ q.w 8 ∧ q.w 8 ≤ 33554432) (hno : q.b 6 = 0 → q.w 8 = 0)
    (h12 : q.b 12 < 64 ∨ q.b 12 = 0xFF) (h13 : q.b 13 < 32 ∨ q.b 13 = 0xFF) :
    monitorSetDecim q s = routed (decimOf q).feeds ([0, 1].flatMap s.seqFeeds ++ s.decimFeeds (some (q.b 0)) ++ s.injectFeeds) s
      (needing 8 0 s fun s => .okay (decimSet q s)) := by
  refine checked_pass _ _ _ ?_
  rcases hmode with ⟨hsnap, h3, h4, h6⟩ | ⟨hcic, h3, h3', h4, h4', h6⟩
  · simp [unitZero, inByte, inDest, resv, hu, h0, h1, h5, isZero_of_byte h7, isZero_of_half h14, hsnap, h3, h4, h6, hno h6, h12, h13]
  · rcases Nat.le_one_iff_eq_zero_or_eq_one.mp h6 with h6 | h6
    · simp [unitZero, inByte, inDest, resv, hu, h0, h1, h5, isZero_of_byte h7, isZero_of_half h14, hcic, h3, h3', h4, h4', h6, hno h6, h12, h13]
    · simp [unitZero, inByte, inDest, resv, hu, h0, h1, h5, isZero_of_byte h7, isZero_of_half h14, hcic, h3, h3', h4, h4', h6, hratio h6, h12, h13]

/-! MONITOR.SET_ACCUM (R433). -/

/-- The mode a bit gives; a change of mode clears. -/
def slotMode (mask i : Nat) (x : MonSlot) : MonSlot := if mask.testBit i = x.perSecond then x else { perSecond := mask.testBit i }
def trackerMode (mask i : Nat) (x : Tracker) : Tracker := if mask.testBit i = x.perSecond then x else { perSecond := mask.testBit i }

def setSlotModes (mask : Nat) (s : State) : State := forEach (List.range 64) (fun i s => modMonSlot i (slotMode mask i) s) s
def setTrackerModes (mask : Nat) (s : State) : State := forEach (List.range 32) (fun i s => modTracker i (trackerMode mask i) s) s

theorem setSlotModes_monSlot {mask i : Nat} (h : i < 64) (s : State) : (setSlotModes mask s).monSlot i = slotMode mask i (s.monSlot i) := by
  unfold setSlotModes
  rw [forEach_entries State.monSlot (change := slotMode mask) (fun i s => modMonSlot_monSlot i _ s)
    (fun _ _ s h => modMonSlot_monSlot_other h _ s) _ List.nodup_range, if_pos (List.mem_range.mpr h)]

theorem setTrackerModes_tracker {mask i : Nat} (h : i < 32) (s : State) :
    (setTrackerModes mask s).tracker i = trackerMode mask i (s.tracker i) := by
  unfold setTrackerModes
  rw [forEach_entries State.tracker (change := trackerMode mask) (fun i s => modTracker_tracker i _ s)
    (fun _ _ s h => modTracker_tracker_other h _ s) _ List.nodup_range, if_pos (List.mem_range.mpr h)]

/-- Slots and trackers do not touch each other. -/
theorem setSlotModes_tracker (mask i : Nat) (s : State) : (setSlotModes mask s).tracker i = s.tracker i := by
  unfold setSlotModes
  refine forEach_keeps (fun u => u.tracker i) ?_ _ s
  exact fun _ _ => rfl
theorem setTrackerModes_monSlot (mask i : Nat) (s : State) : (setTrackerModes mask s).monSlot i = s.monSlot i := by
  unfold setTrackerModes
  refine forEach_keeps (fun u => u.monSlot i) ?_ _ s
  exact fun _ _ => rfl

theorem monitorSetAccum_legal {q : Request} {s : State} (hu : q.u = 0) (hz : isZero q.payload 12 4 = true) :
    monitorSetAccum q s = .okay (setTrackerModes (q.w 8) (setSlotModes (q.d 0) s)) := by
  refine checked_pass _ _ _ ?_
  simp [unitZero, resv, hu, hz]

theorem slotMode_spec (mask i : Nat) (x : MonSlot) : (slotMode mask i x).perSecond = mask.testBit i ∧
    (x.perSecond = mask.testBit i → slotMode mask i x = x) ∧
    (x.perSecond ≠ mask.testBit i → (slotMode mask i x).now = {} ∧ (slotMode mask i x).last = {}) := by
  unfold slotMode
  split
  next h => exact ⟨h.symm, fun _ => rfl, fun hne => absurd h.symm hne⟩
  next h => exact ⟨rfl, fun he => absurd he.symm h, fun _ => ⟨rfl, rfl⟩⟩

theorem trackerMode_spec (mask i : Nat) (x : Tracker) : (trackerMode mask i x).perSecond = mask.testBit i ∧
    (x.perSecond = mask.testBit i → trackerMode mask i x = x) := by
  unfold trackerMode
  split
  next h => exact ⟨h.symm, fun _ => rfl⟩
  next h => exact ⟨rfl, fun he => absurd he.symm h⟩

/-! MONITOR.TRIGGER (R426). -/

/-- What a trigger does to its sequencer: 0 the pass starts, 1 it waits, 2 it is missed. -/
def State.triggerResult (s : State) (k : Nat) : Nat := if (s.sequencer k).latched = true then 2 else if s.canStart k = true then 0 else 1

theorem triggerSeq_result (k : Nat) (s : State) : (triggerSeq k s).1 = s.triggerResult k ∧
    (s.triggerResult k = 0 → ((triggerSeq k s).2.sequencer k).running = true) ∧
    (s.triggerResult k = 1 → ((triggerSeq k s).2.sequencer k).latched = true) ∧
    (s.triggerResult k = 2 → ((triggerSeq k s).2.sequencer k).missed = (s.sequencer k).missed + 1) := by
  unfold triggerSeq State.triggerResult
  cases hl : (s.sequencer k).latched with
  | true => simp [missTrigger]
  | false =>
    cases hs : s.canStart k with
    | true => simp [startPass]
    | false => simp [sequencer_of_monitor (startExit_monitor _ _ _)]

theorem admitted_triggerResult {code : Nat} {q : Request} {s : State} (h : taken code q s = true) (k : Nat) :
    (admitted code q s).triggerResult k = s.triggerResult k := by
  obtain ⟨_, _, e⟩ := admitted_intakeOnly h
  rw [e]
  rfl

theorem triggerChecks_pass {q : Request} (hu : q.u = 0) (h1 : 1 ≤ q.b 0) (h3 : q.b 0 ≤ 3) (hz : isZero q.payload 1 3 = true) :
    [unitZero q, inByte q 0 1 3, resv q 1 3].all (fun c => c.1) = true := by
  simp [unitZero, inByte, resv, hu, h1, h3, hz]

/-- A sequencer that is named and takes no trigger from commands refuses them all. -/
theorem monitorTrigger_refused {q : Request} {s : State} {k : Nat} (hu : q.u = 0) (h1 : 1 ≤ q.b 0) (h3 : q.b 0 ≤ 3)
    (hz : isZero q.payload 1 3 = true) (hk : k < 2) (hbit : (q.b 0).testBit k = true)
    (hno : (s.sequencer k).table.start ≠ 2 ∨ (s.sequencer k).table.trigSrc ≠ 0) : monitorTrigger q s = .reject .state [] s := by
  refine (checked_pass _ _ _ (triggerChecks_pass hu h1 h3 hz)).trans (require_first ?_ _ _ _)
  refine List.all_eq_false.mpr ⟨k, List.mem_filter.mpr ⟨List.mem_range.mpr hk, hbit⟩, ?_⟩
  rcases hno with h | h <;> simp [h]

/-- The reply of a trigger of one sequencer. -/
def triggerReply (k r : Nat) : List Byte := (if k = 0 then be 1 r ++ be 1 3 else be 1 3 ++ be 1 r) ++ zeros 2

theorem monitorTrigger_one {q : Request} {s : State} {k : Nat} (hu : q.u = 0) (hz : isZero q.payload 1 3 = true) (hk : k < 2)
    (hm : q.b 0 = 2 ^ k) (hstart : (s.sequencer k).table.start = 2) (hsrc : (s.sequencer k).table.trigSrc = 0) :
    monitorTrigger q s = .okWith (triggerReply k (triggerSeq k s).1) (triggerSeq k s).2 := by
  have hcases : k = 0 ∨ k = 1 := by omega
  have named : bitsOf 2 (q.b 0) = [k] := by
    rw [hm]
    rcases hcases with rfl | rfl <;> decide
  have least : 1 ≤ q.b 0 ∧ q.b 0 ≤ 3 := by rcases hcases with rfl | rfl <;> omega
  refine (checked_pass _ _ _ (triggerChecks_pass hu least.1 least.2 hz)).trans ((require_pass _ _ _ ?_).trans ?_)
  · simp [named, hstart, hsrc]
  · rw [hm]
    rcases hcases with rfl | rfl <;> rfl

/-! MONITOR.INJECT (R429). -/

def injectChecks (q : Request) : List (Bool × Nat) :=
  [unitZero q, inByte q 0 0 1, (monInput (q.b 1), 1), inByte q 2 1 8, (decide (q.b 3 ≤ q.b 2), 3), inDest q 4 64, inDest q 5 32, resv q 6 2]

theorem injectChecks_pass {q : Request} (hu : q.u = 0) (h0 : q.b 0 ≤ 1) (h1 : monInput (q.b 1) = true) (h2 : 1 ≤ q.b 2 ∧ q.b 2 ≤ 8)
    (h3 : q.b 3 ≤ q.b 2) (h4 : q.b 4 < 64 ∨ q.b 4 = 0xFF) (h5 : q.b 5 < 32 ∨ q.b 5 = 0xFF) (h6 : q.h 6 = 0) :
    (injectChecks q).all (fun c => c.1) = true := by
  simp [injectChecks, unitZero, inByte, inDest, resv, hu, h0, h1, h2, h3, h4, h5, isZero_of_half h6]

section
variable {q : Request} {s : State} (hc : (injectChecks q).all (fun c => c.1) = true)
include hc

/-- Nothing is injected in pair mode, nor while another injection of the converter is pending. -/
theorem monitorInject_paired (hp : s.monitor.pair = true) : monitorInject q s = .reject .state [] s :=
  (checked_pass _ _ _ hc).trans (require_first (by simp [hp]) _ _ _)

theorem monitorInject_pending (hp : s.monitor.pair = false) (hi : (s.injection (q.b 0)).isSome = true) :
    monitorInject q s = .reject .busy [] s :=
  (checked_pass _ _ _ hc).trans ((require_next (by simp [hp]) _ _ _).trans
    (require_first (by rw [← Option.not_isSome, hi]; rfl) _ _ _))

theorem monitorInject_free (hp : s.monitor.pair = false) (hi : s.injection (q.b 0) = none)
    (hfree : secondProducer (destinations (orNone (q.b 4)) (orNone (q.b 5)) none) ([0, 1].flatMap s.seqFeeds ++ s.decimFeeds none) = none) :
    monitorInject q s = needing 8 0 s (fun s => .later (.inject (q.b 0)) (setInjection (q.b 0) (some {
      what := ⟨q.b 1, q.b 2, q.b 3⟩, slot := orNone (q.b 4), tracker := orNone (q.b 5), entry := s.control.nextEntry }) s)) :=
  (checked_pass _ _ _ hc).trans ((require_pass _ _ _ (by simp [hp, hi])).trans (routed_free hfree _ _))

end

/-! Reads (R433, R441). -/

/-- The places a read names. -/
def readPlaces (q : Request) : List Nat := (List.range (q.b 1)).map (fun i => q.b 0 + i)

theorem readPlaces_nodup (q : Request) : (readPlaces q).Nodup :=
  List.pairwise_map.mpr (List.nodup_range.imp (fun distinct same => distinct (Nat.add_left_cancel same)))

theorem mem_readPlaces {q : Request} {i : Nat} : i ∈ readPlaces q ↔ q.b 0 ≤ i ∧ i < q.b 0 + q.b 1 := by
  simp only [readPlaces, List.mem_map, List.mem_range]
  constructor
  · rintro ⟨k, hk, rfl⟩
    omega
  · rintro ⟨h1, h2⟩
    exact ⟨i - q.b 0, by omega, by omega⟩

/-- Records of one size, one after another: each stands at its own place. -/
theorem flatMap_window {α : Type} {f : α → List Byte} {w : Nat} (hf : ∀ a, (f a).length = w) :
    ∀ (l : List α) (i : Nat) (hi : i < l.length), ((l.flatMap f).drop (w * i)).take w = f l[i]
  | [], _, hi => absurd hi (Nat.not_lt_zero _)
  | a :: r, 0, _ => by
    rw [Nat.mul_zero, List.drop_zero, List.flatMap_cons]
    exact List.take_left' (hf a)
  | a :: r, i + 1, hi => by
    rw [List.flatMap_cons, Nat.mul_succ, Nat.add_comm, ← List.drop_drop, List.drop_left' (hf a)]
    exact flatMap_window hf r i (Nat.lt_of_succ_lt_succ hi)

/-- The payload of a read: a ToD, two reserved bytes and a record for each place. -/
def readOut (tod : Tod) (q : Request) (record : Nat → List Byte) : List Byte := tod.bytes ++ zeros 2 ++ (readPlaces q).flatMap record

theorem readOut_length {record : Nat → List Byte} {w : Nat} (hw : ∀ i, (record i).length = w) (tod : Tod) (q : Request) :
    (readOut tod q record).length = 12 + w * q.b 1 := by
  have records := flatMap_length (readPlaces q) record w (fun i _ => hw i)
  simp only [readPlaces, List.length_map, List.length_range] at records
  simp only [readOut, readPlaces, List.length_append, tod_bytes_length, zeros_length, records, Nat.mul_comm]

theorem readOut_record {record : Nat → List Byte} {w : Nat} (hw : ∀ i, (record i).length = w) (tod : Tod) {q : Request} {i : Nat}
    (hi : i < q.b 1) : ((readOut tod q record).drop (12 + w * i)).take w = record (q.b 0 + i) := by
  have places : i < (readPlaces q).length := by simpa [readPlaces] using hi
  have head : (tod.bytes ++ zeros 2).length = 12 := by simp
  rw [readOut, ← List.drop_drop, List.drop_left' head, flatMap_window hw _ i places]
  simp [readPlaces]

@[simp] theorem slotBytes_length (x : MonSlot) : (slotBytes x).length = 16 := by simp [slotBytes]
@[simp] theorem trackerBytes_length (x : Tracker) : (trackerBytes x).length = 12 := by simp [trackerBytes]

/-- What CLEAR does to an entry that is not in per-second mode. -/
def MonSlot.emptied (x : MonSlot) : MonSlot := if x.perSecond then x else { x with now := {} }
def Tracker.emptied (x : Tracker) : Tracker := if x.perSecond then x else { x with now := {} }

def clearSlots (q : Request) (s : State) : State :=
  if q.b 2 = 1 then forEach (readPlaces q) (fun i s => modMonSlot i MonSlot.emptied s) s else s
def clearTrackers (q : Request) (s : State) : State :=
  if q.b 2 = 1 then forEach (readPlaces q) (fun i s => modTracker i Tracker.emptied s) s else s

theorem clearSlots_monSlot (q : Request) (s : State) (i : Nat) : (clearSlots q s).monSlot i =
    if q.b 2 = 1 ∧ q.b 0 ≤ i ∧ i < q.b 0 + q.b 1 ∧ (s.monSlot i).perSecond = false then { s.monSlot i with now := {} }
    else s.monSlot i := by
  unfold clearSlots
  by_cases hclear : q.b 2 = 1
  · rw [if_pos hclear, forEach_entries State.monSlot (change := fun _ => MonSlot.emptied) (fun i s => modMonSlot_monSlot i _ s)
      (fun _ _ s h => modMonSlot_monSlot_other h _ s) _ (readPlaces_nodup q)]
    simp only [mem_readPlaces, hclear, true_and, MonSlot.emptied]
    cases (s.monSlot i).perSecond <;> simp
  · simp [hclear]

theorem clearTrackers_tracker (q : Request) (s : State) (i : Nat) : (clearTrackers q s).tracker i =
    if q.b 2 = 1 ∧ q.b 0 ≤ i ∧ i < q.b 0 + q.b 1 ∧ (s.tracker i).perSecond = false then { s.tracker i with now := {} }
    else s.tracker i := by
  unfold clearTrackers
  by_cases hclear : q.b 2 = 1
  · rw [if_pos hclear, forEach_entries State.tracker (change := fun _ => Tracker.emptied) (fun i s => modTracker_tracker i _ s)
      (fun _ _ s h => modTracker_tracker_other h _ s) _ (readPlaces_nodup q)]
    simp only [mem_readPlaces, hclear, true_and, Tracker.emptied]
    cases (s.tracker i).perSecond <;> simp
  · simp [hclear]

theorem readChecks_pass {q : Request} {n : Nat} (hu : q.u = 0) (h0 : q.b 0 < n) (h1 : q.b 0 + q.b 1 ≤ n) (h2 : q.b 2 ≤ 1) (h3 : q.b 3 = 0) :
    (readChecks q n).all (fun c => c.1) = true := by
  simp [readChecks, unitZero, inByte, resv, hu, h0, h1, h2, isZero_of_byte h3]

theorem monitorReadSlots_legal {q : Request} (h : (readChecks q 64).all (fun c => c.1) = true) (s : State) :
    ∃ tod, monitorReadSlots q s = .okWith (readOut tod q (fun i => slotBytes (s.monSlot i))) (clearSlots q s) :=
  ⟨_, checked_pass _ _ _ h⟩

theorem monitorReadTrackers_legal {q : Request} (h : (readChecks q 32).all (fun c => c.1) = true) (s : State) :
    ∃ tod, monitorReadTrackers q s = .okWith (readOut tod q (fun i => trackerBytes (s.tracker i))) (clearTrackers q s) :=
  ⟨_, checked_pass _ _ _ h⟩

theorem monitorGetStatus_legal {q : Request} (hu : q.u = 0) (s : State) :
    ∃ pl, monitorGetStatus q s = .okWith pl s ∧ pl.length = 40 := by
  refine ⟨_, checked_pass _ _ _ (by simp [unitZero, hu]), ?_⟩
  simp

end Sys2Proof.Machine

open Sys2Proof Sys2Proof.Machine

/-- Settles O49: each command by its own part on the state that taking the request, and waking the ADC, leaves. -/
theorem monitorCommandsComplete : Obligations.MonitorCommandsComplete := by
  refine ⟨?converter, ?sequence, ?decim, ?accum, ?trigger, ?inject, ?slots, ?trackers, ?status⟩
  case converter =>
    intro q s h hu h0 h1 h2 h3 pair hp
    have body := monitorSetConverter_legal (s := admitted 0x0C01 q s) hu h0 h1 h2 h3
      (by simpa only [admitted_monitor, sequencer_of_monitor (admitted_monitor 0x0C01 q s)] using hp)
    refine ⟨fun hs => congrArg Host.Outcome.next (takeRequest_adcBusy (get := false) (by decide) h hs body), fun hs => ?_⟩
    refine ⟨setWants q (withAdc 0x0C01 q s),
      congrArg Host.Outcome.next (takeRequest_completes (by decide) h (body.trans (needing_adc h hs _))), ?_⟩
    rw [setWants_converter, setWants_wantPair, converter_of_monitor (withAdc_monitor 0x0C01 q s), withAdc_monitor]
    exact ⟨rfl, rfl, rfl⟩
  case sequence =>
    intro q s h hu h0 h1 h2 h3 hlen htimer hno hentries x conflict
    have body := monitorSetSequence_legal (s := admitted 0x0C02 q s) hu (by rw [admitted_monitor]; exact h0) h1 h2
      (by rw [admitted_monitor]; exact h3) hlen htimer hno hentries
    rw [admitted_seqFeeds, admitted_decimFeeds, admitted_injectFeeds] at body
    have running := sequencer_of_monitor (withAdc_monitor 0x0C02 q s) (q.b 0)
    refine ⟨fun d hd => ?_, fun hfree hs => ?_, fun hfree hs hrun => ?_, fun hfree hs hrun => ?_⟩
    · exact congrArg Host.Outcome.next (takeRequest_refuse (get := false) (by decide) h (body.trans (routed_conflict hd _ _)))
    all_goals replace body := body.trans (routed_free hfree _ _)
    · exact congrArg Host.Outcome.next (takeRequest_adcBusy (get := false) (by decide) h hs body)
    · exact congrArg Host.Outcome.next (takeRequest_completes (by decide) h ((body.trans (needing_adc h hs _)).trans
        (if_pos (by rw [running]; exact hrun))))
    · exact ⟨_, congrArg Host.Outcome.next (takeRequest_completes (by decide) h ((body.trans (needing_adc h hs _)).trans
        (if_neg (by rw [running, hrun]; decide)))), applyTable_sequencer (q.b 0) x _⟩
  case decim =>
    intro q s h hu h0 h1 h5 h7 h14 hmode hratio hno h12 h13 k conflict
    have body := monitorSetDecim_legal (s := admitted 0x0C03 q s) hu h0 h1 h5 h7 h14 hmode hratio hno h12 h13
    rw [admitted_seqFeeds, admitted_decimFeeds, admitted_injectFeeds] at body
    refine ⟨fun d hd => ?_, fun hfree hs => ?_, fun hfree hs => ?_⟩
    · exact congrArg Host.Outcome.next (takeRequest_refuse (get := false) (by decide) h (body.trans (routed_conflict hd _ _)))
    all_goals replace body := body.trans (routed_free hfree _ _)
    · exact congrArg Host.Outcome.next (takeRequest_adcBusy (get := false) (by decide) h hs body)
    · refine ⟨_, congrArg Host.Outcome.next (takeRequest_completes (by decide) h (body.trans (needing_adc h hs _))), ?_⟩
      rw [decimSet_decim, decim_of_monitor (withAdc_monitor 0x0C03 q s)]
      rfl
  case accum =>
    intro q s h hu hz
    refine ⟨_, congrArg Host.Outcome.next (takeRequest_completes (by decide) h (monitorSetAccum_legal hu hz)), fun i hi => ?_, fun i hi => ?_⟩
    · rw [setTrackerModes_monSlot, setSlotModes_monSlot hi, monSlot_of_monitor (admitted_monitor 0x0C04 q s)]
      exact slotMode_spec (q.d 0) i _
    · rw [setTrackerModes_tracker hi, setSlotModes_tracker, tracker_of_monitor (admitted_monitor 0x0C04 q s)]
      exact trackerMode_spec (q.w 8) i _
  case trigger =>
    intro q s h hu hz
    have same := sequencer_of_monitor (admitted_monitor 0x0C05 q s)
    refine ⟨fun k hk h1 h3 hbit hno => ?_, fun k hk hm hstart hsrc => ?_⟩
    · exact congrArg Host.Outcome.next (takeRequest_refuse (get := false) (by decide) h
        (monitorTrigger_refused hu h1 h3 hz hk hbit (by rw [same]; exact hno)))
    · have body := monitorTrigger_one (s := admitted 0x0C05 q s) hu hz hk hm (by rw [same]; exact hstart) (by rw [same]; exact hsrc)
      obtain ⟨hr, hstarted, hlatched, hmissed⟩ := triggerSeq_result k (admitted 0x0C05 q s)
      rw [admitted_triggerResult h] at hr hstarted hlatched hmissed
      rw [hr] at body
      rw [same] at hmissed
      exact ⟨_, congrArg Host.Outcome.next (takeRequest_completes (by decide) h body), hstarted, hlatched, hmissed⟩
  case inject =>
    intro q s h hu h0 h1 h2 h3 h4 h5 h6
    have checks := injectChecks_pass hu h0 h1 h2 h3 h4 h5 h6
    have pairs : (admitted 0x0C06 q s).monitor.pair = s.monitor.pair := by rw [admitted_monitor]
    have pending := injection_of_monitor (admitted_monitor 0x0C06 q s) (q.b 0)
    refine ⟨fun hp => ?_, fun hp hi => ?_, fun hp hi hfree => ?_⟩
    · exact congrArg Host.Outcome.next (takeRequest_refuse (get := false) (by decide) h (monitorInject_paired checks (pairs.trans hp)))
    · exact congrArg Host.Outcome.next (takeRequest_refuse (get := false) (by decide) h
        (monitorInject_pending checks (pairs.trans hp) (by rw [pending]; exact hi)))
    · have body := monitorInject_free checks (pairs.trans hp) (pending.trans hi)
        (by rw [admitted_seqFeeds, admitted_decimFeeds]; exact hfree)
      refine ⟨fun hs => congrArg Host.Outcome.next (takeRequest_adcBusy (get := false) (by decide) h hs body), fun hs => ?_⟩
      exact congrArg Host.Outcome.next (takeRequest_later (get := false) (by decide) h (body.trans (needing_adc h hs _)))
  case slots =>
    intro q s h hu h0 h1 h2 h3
    obtain ⟨tod, body⟩ := monitorReadSlots_legal (readChecks_pass hu h0 h1 h2 h3) (admitted 0x0C07 q s)
    have same := monSlot_of_monitor (admitted_monitor 0x0C07 q s)
    simp only [same] at body
    refine ⟨_, _, congrArg Host.Outcome.next (takeRequest_completes (by decide) h body), readOut_length (fun _ => slotBytes_length _) tod q,
      fun i hi => readOut_record (fun _ => slotBytes_length _) tod hi, fun i => ?_⟩
    rw [clearSlots_monSlot, same]
  case trackers =>
    intro q s h hu h0 h1 h2 h3
    obtain ⟨tod, body⟩ := monitorReadTrackers_legal (readChecks_pass hu h0 h1 h2 h3) (admitted 0x0C08 q s)
    have same := tracker_of_monitor (admitted_monitor 0x0C08 q s)
    simp only [same] at body
    refine ⟨_, _, congrArg Host.Outcome.next (takeRequest_completes (by decide) h body), readOut_length (fun _ => trackerBytes_length _) tod q,
      fun i hi => readOut_record (fun _ => trackerBytes_length _) tod hi, fun i => ?_⟩
    rw [clearTrackers_tracker, same]
  case status =>
    intro q s h hu
    obtain ⟨pl, body, hlen⟩ := monitorGetStatus_legal hu (admitted 0x0C09 q s)
    exact ⟨pl, congrArg Host.Outcome.next (takeRequest_get (by decide) h body), hlen⟩

end

section
/-! PROOFS. What the state after a sill power-on holds (R80, R83, R84, R87, R128, R410). -/

namespace Sys2Proof.Machine

/-- R83: no alarm stands, so every bit of SL_ALARM_SUMMARY reads 0. -/
theorem slAlarmSummary_reset : slAlarmSummary State.reset = 0 := by decide

end Sys2Proof.Machine

open Sys2Proof Sys2Proof.Machine

/-- Settles O5: each part at its reset value. -/
theorem resetStateHolds : Obligations.ResetStateHolds :=
  ⟨rfl, rfl, rfl, slAlarmSummary_reset, rfl, rfl, rfl, rfl, rfl, rfl, rfl, rfl, rfl, rfl, reset_flash_wf, rfl⟩

end

section
/-! PROOFS. Fuses and flash last (R88, R92, R99, R376): nine commands write the flash or burn a fuse and each keeps what it must; every
other command, and the device on its own, leaves both alone. -/

-- One theorem after another: with a thread for each, the package as one text outgrows the checker's memory limit.
set_option Elab.async false

namespace Sys2Proof.Machine

/-! What lasts, from one state to another. -/

/-- Where the fuses stay as they are, only flash remains to be seen to. -/
theorem Lasting.of_flash {s t : State} (otp : t.otp = s.otp) (flash : flashWf s → flashWf t) : Lasting s t where
  serial := by rw [otp]
  floor := Nat.le_of_eq (by rw [otp])
  firmwareKeys _ h := by rw [otp]; exact h
  ownerKeys _ h := by rw [otp]; exact h
  ownerRoots _ _ := by rw [otp]
  flash := flash

theorem Lasting.of_same {s t : State} (otp : t.otp = s.otp) (flash : t.flash = s.flash) : Lasting s t :=
  .of_flash otp (fun h => by unfold flashWf; rw [flash]; exact h)

theorem Lasting.refl (s : State) : Lasting s s := .of_same rfl rfl

theorem Lasting.trans {s t u : State} (a : Lasting s t) (b : Lasting t u) : Lasting s u where
  serial := b.serial.trans a.serial
  floor := Nat.le_trans a.floor b.floor
  firmwareKeys k h := b.firmwareKeys k (a.firmwareKeys k h)
  ownerKeys k h := b.ownerKeys k (a.ownerKeys k h)
  ownerRoots k h := (b.ownerRoots k (a.ownerRoots k h ▸ h)).trans (a.ownerRoots k h)
  flash h := b.flash (a.flash h)

/-- A list of parts holds neither the fuses nor the flash. -/
def sparesStores (ps : List Part) : Bool := !ps.contains .otp && !ps.contains .flash

theorem OnlyChanges.lasting {ps : List Part} {s t : State} (a : OnlyChanges ps s t) (h : sparesStores ps = true) : Lasting s t := by
  simp only [sparesStores, Bool.and_eq_true, Bool.not_eq_true'] at h
  exact .of_same (a .otp h.1) (a .flash h.2)

theorem Lasting.ite {c : Prop} [Decidable c] {s t u : State} (a : Lasting s t) (b : Lasting s u) : Lasting s (if c then t else u) := by
  split
  · exact a
  · exact b

/-- What changes neither fuses nor flash may follow. -/
theorem Lasting.then_only {ps : List Part} {s t u : State} (a : Lasting s t) (b : OnlyChanges ps t u) (h : sparesStores ps = true) :
    Lasting s u := a.trans (b.lasting h)

/-! Writing the flash and burning fuses. -/

theorem flashWrite_otp (a : Nat) (l : List Byte) (s : State) : (flashWrite a l s).otp = s.otp := flashWrite_only a l s .otp rfl

theorem flashWrite_lasting (a : Nat) (l : List Byte) (s : State) : Lasting s (flashWrite a l s) :=
  .of_flash (flashWrite_otp a l s) (flashWrite_wf a l s)

theorem flashErase_lasting (a n : Nat) (s : State) : Lasting s (flashErase a n s) := .of_flash rfl (flashErase_wf a n s)

theorem flashTakes_lasting (s : State) : Lasting s (flashTakes s).2 := .of_same rfl rfl

/-- A sector is erased and its start programmed. -/
theorem flashRewrite_lasting (a : Nat) (l : List Byte) (s : State) : Lasting s (flashWrite a l (flashErase a 0x10000 s)) :=
  (flashErase_lasting a _ s).trans (flashWrite_lasting a l _)

/-- A bit of a mask of fuses stays set when more of them are blown. -/
theorem testBit_or_of_left {a k : Nat} (b : Nat) (h : a.testBit k = true) : (a ||| b).testBit k = true := by
  rw [Nat.testBit_or, h, Bool.true_or]

/-- R92: a burn that completes reaches its goal. -/
theorem burnFuses_whole {target revoke : Nat} {s : State} (h : Config.freeNat s.fresh % 2 = 0) :
    (burnFuses target revoke s).otp.floor = max s.otp.floor (min target 64) ∧
      (burnFuses target revoke s).otp.fwRevoked = s.otp.fwRevoked ||| revoke := by
  dsimp only [burnFuses, drawBelow]
  simp only [h, if_true, and_self]

/-- R92: also a burn that does not complete leaves the floor between the old value and its goal. -/
theorem burnFuses_floor (target revoke : Nat) (s : State) : s.otp.floor ≤ (burnFuses target revoke s).otp.floor ∧
    (burnFuses target revoke s).otp.floor ≤ max s.otp.floor (min target 64) := by
  by_cases h : Config.freeNat s.fresh % 2 = 0
  · rw [(burnFuses_whole h).1]
    exact ⟨Nat.le_max_left _ _, Nat.le_refl _⟩
  · have part := Nat.mod_lt (Config.freeNat (s.fresh + 1)) (Nat.succ_pos (max s.otp.floor (min target 64) - s.otp.floor))
    rw [Nat.succ_eq_add_one] at part
    dsimp only [burnFuses, drawBelow]
    simp only [h, if_false]
    omega

/-- R92: no fuse of the floor or of revocation is unblown, whatever the burn comes to. -/
theorem burnFuses_lasting (target revoke : Nat) (s : State) : Lasting s (burnFuses target revoke s) where
  serial := rfl
  floor := (burnFuses_floor target revoke s).1
  firmwareKeys _ h := testBit_or_of_left _ h
  ownerKeys _ h := h
  ownerRoots _ _ := rfl
  flash h := h

/-- R376: a root is fused into a slot that holds none. -/
theorem fuseRoot_lasting {i : Nat} {s : State} (free : tblGet [] s.otp.ownerRoots i = []) (digest : List Byte) :
    Lasting s { s with otp := { s.otp with ownerRoots := tblSet [] s.otp.ownerRoots i digest } } where
  serial := rfl
  floor := Nat.le_refl _
  firmwareKeys _ h := h
  ownerKeys _ h := h
  ownerRoots k h := tblGet_set_other _ _ (fun e => h (by rw [e]; exact free)) _
  flash h := h

theorem revokeRoot_lasting (i : Nat) (s : State) :
    Lasting s { s with otp := { s.otp with ownerRevoked := s.otp.ownerRevoked ||| 2 ^ i } } where
  serial := rfl
  floor := Nat.le_refl _
  firmwareKeys _ h := h
  ownerKeys _ h := testBit_or_of_left _ h
  ownerRoots _ _ := rfl
  flash h := h

theorem freeRoot_empty {i : Nat} {s : State} (h : s.freeRoot = some i) : tblGet [] s.otp.ownerRoots i = [] := by
  unfold State.freeRoot at h
  exact List.isEmpty_iff.mp (List.find?_some (p := fun i => (tblGet [] s.otp.ownerRoots i).isEmpty) h)

/-! A command's own part. -/

/-- Whatever a command's own part answers, fuses and flash last, and so they do through what follows its reply. -/
def ReplyLasts (s : State) (r : Reply) : Prop :=
  match r with
  | .reject _ _ t => Lasting s t
  | .done _ _ t next => Lasting s t ∧ ∀ u, Lasting u (next u)
  | .later _ t => Lasting s t

theorem ReplyChanges.lasts {ps : List Part} {s : State} {r : Reply} (a : ReplyChanges ps s r) (h : sparesStores ps = true) :
    ReplyLasts s r := by
  cases r with
  | reject => exact OnlyChanges.lasting a h
  | done => exact ⟨OnlyChanges.lasting a.1 h, fun u => OnlyChanges.lasting (a.2 u) h⟩
  | later => exact OnlyChanges.lasting a h

theorem ReplyLasts.done {s t : State} (st : Status) (pl : List Byte) (a : Lasting s t) : ReplyLasts s (.done st pl t id) := ⟨a, Lasting.refl⟩

theorem ReplyLasts.checked {s t : State} {k : Reply} (cs : List (Bool × Nat)) (a : Lasting s t) (h : ReplyLasts s k) :
    ReplyLasts s (Sys2Proof.Machine.checked cs t k) := by
  unfold Sys2Proof.Machine.checked
  split
  · exact a
  · exact h

theorem ReplyLasts.require {s t : State} {k : Reply} (cs : List (Bool × Status)) (a : Lasting s t) (h : ReplyLasts s k) :
    ReplyLasts s (Sys2Proof.Machine.require cs t k) := by
  unfold Sys2Proof.Machine.require
  split
  · exact a
  · exact h

theorem ReplyLasts.ite {c : Prop} [Decidable c] {s : State} {a b : Reply} (ha : ReplyLasts s a) (hb : ReplyLasts s b) :
    ReplyLasts s (if c then a else b) := by
  split
  · exact ha
  · exact hb

/-! The commands that write the flash or burn a fuse. -/

theorem loadFault_lasting (s : State) : Lasting s (loadFault s) := (loadFault_only s).lasting rfl

theorem firmwareStageBegin_lasts (q : Request) (s : State) : ReplyLasts s (firmwareStageBegin q s) := by
  unfold firmwareStageBegin
  refine .checked _ (loadFault_lasting s) (.require _ (.refl s) ?_)
  have erased : Lasting s (flashErase (bankBase (1 - s.committed)) 0x10000 (flashTakes s).2) :=
    (flashTakes_lasting s).trans (flashErase_lasting _ _ _)
  split
  · exact .done _ _ (.of_same rfl rfl)
  · dsimp only
    split
    · exact .done _ _ (erased.trans (.of_same rfl rfl))
    · exact .done _ _ (erased.trans (.of_same rfl rfl))

/-- R97, R102. -/
theorem firmwareStageWrite_lasts (q : Request) (s : State) : ReplyLasts s (firmwareStageWrite q s) := by
  unfold firmwareStageWrite
  split
  · exact loadFault_lasting s
  next g _ =>
    refine .ite (Lasting.refl s) (.ite (.ite (.done _ _ (.refl s)) (loadFault_lasting s))
      (.ite (loadFault_lasting s) (.ite (loadFault_lasting s) ?_)))
    have takes : Lasting s (if g.target = 0xFF then (true, s) else flashTakes s).2 := by
      split
      · exact .refl s
      · exact flashTakes_lasting s
    generalize (if g.target = 0xFF then (true, s) else flashTakes s) = p at takes
    obtain ⟨ok, u⟩ := p
    refine .ite (.done _ _ takes) (.done _ _ ?_)
    refine Lasting.then_only ?_ (modFw_only _ _) rfl
    exact .ite takes (takes.trans (flashWrite_lasting _ _ _))

/-- R97, R104: the header is written last, and only of an image that passed. -/
theorem firmwareStageVerify_lasts (q : Request) (s : State) : ReplyLasts s (firmwareStageVerify q s) := by
  unfold firmwareStageVerify
  split
  · exact loadFault_lasting s
  next g _ =>
    refine .ite (loadFault_lasting s) ?_
    have ended (u : State) (h : Lasting s u) : Lasting s (modFw (fun f => { f with staging := none }) u) := h.then_only (modFw_only _ u) rfl
    dsimp only
    split
    next c _ =>
      have found : Lasting s (if s.romTakes then modSill (fun x => { x with failCode := c }) (modFw (fun f => { f with staging := none }) s)
          else modFw (fun f => { f with staging := none }) s) :=
        .ite ((ended s (.refl s)).then_only (modSill_only _ _) rfl) (ended s (.refl s))
      have failed := Lasting.ite (c := authCode c = true) (found.then_only (authFailure_only 7 _) rfl) found
      exact .ite (.done _ _ failed) (.done _ _ failed)
    next =>
      refine .ite ⟨.refl s, fun u => ?_⟩ (.ite (.done _ _ ?_) (.done _ _ (ended _ (flashTakes_lasting s))))
      · exact (beginInit_frame (modSill_frame (qs := [.sill, .fw, .control, .counters, .cal, .elements, .carrier]) _
          (modFw_frame _ (.refl _ u) rfl) rfl) rfl).lasting rfl
      · exact ((ended _ (flashTakes_lasting s)).trans (flashWrite_lasting _ _ _)).then_only (modFw_only _ _) rfl

/-- R99: the directory, then the fuses. -/
theorem firmwareCommit_lasts (q : Request) (s : State) : ReplyLasts s (firmwareCommit q s) := by
  unfold firmwareCommit
  refine .require _ (.refl s) ?_
  split
  refine .ite (.done _ _ (flashTakes_lasting s)) (.done _ _ ?_)
  exact (((flashTakes_lasting s).trans (flashRewrite_lasting _ _ _)).trans (burnFuses_lasting _ _ _)).then_only (modFw_only _ _) rfl

/-- R149: the user calibration record. -/
theorem calSaveRecord_lasts (q : Request) (s : State) : ReplyLasts s (calSaveRecord q s) := by
  unfold calSaveRecord
  refine .checked _ (.refl s) (.require _ (.refl s) ?_)
  split
  have takes : Lasting s (flashTakes (drawNat s).2).2 := ((drawNat_only s).lasting rfl).trans (flashTakes_lasting _)
  exact .ite (.done _ _ (.refl s)) (.ite (.done _ _ (takes.trans (flashRewrite_lasting _ _ _))) (.done _ _ takes))

/-- R376. -/
theorem securitySetOwnerRoot_lasts (q : Request) (s : State) : ReplyLasts s (securitySetOwnerRoot q s) := by
  unfold securitySetOwnerRoot
  refine .checked _ (.refl s) (.ite ?_ (.require _ (.refl s) (.done _ _ (revokeRoot_lasting _ s))))
  split
  · exact Lasting.refl s
  next i free =>
    have drawn : Lasting s (drawBelow 2 s).2 := (drawBelow_only 2 s).lasting rfl
    exact .ite (.done _ _ drawn) (.done _ _ (drawn.trans (fuseRoot_lasting (s := (drawBelow 2 s).2) (freeRoot_empty free) _)))

/-- R378: the record is written to the copy not in force; the sessions it closes touch neither flash nor fuses. -/
theorem securitySetOwnerRecord_lasts (q : Request) (s : State) : ReplyLasts s (securitySetOwnerRecord q s) := by
  unfold securitySetOwnerRecord
  refine .checked _ (.refl s) ?_
  dsimp only
  split
  · exact (authFailure_only 7 s).lasting rfl
  · refine .ite (.done _ _ (flashTakes_lasting s)) ⟨?_, fun u => ?_⟩
    · exact ((flashTakes_lasting s).trans (flashRewrite_lasting _ _ _)).then_only (modSecurity_only _ _) rfl
    · exact (OnlyChanges.each (fun n v => endSession_only n 3 v) _ (.refl _ u)).lasting rfl

/-- R489: the root's record of the floor. -/
theorem domainSetFloor_lasts (q : Request) (s : State) : ReplyLasts s (domainSetFloor q s) := by
  unfold domainSetFloor
  refine .checked _ (.refl s) (.require _ (.refl s) ?_)
  dsimp only
  refine .ite (.done _ _ (flashTakes_lasting s)) ⟨?_, fun u => ?_⟩
  · exact (flashTakes_lasting s).trans (flashRewrite_lasting _ _ _)
  · exact (floorChange_frame (qs := [.sill, .control, .counters, .domain]) _ (.refl _ u) rfl
      (fun v => modDomain_frame _ (.refl _ v) rfl)).lasting rfl

/-! A request, from its arrival to its reply (R116, R485). -/

/-- Where every run of a command's own part keeps fuses and flash, so does carrying it out. -/
theorem execute_lasting (o : Op) (q : Request) {body : Request → State → Reply} (hb : ∀ u, ReplyLasts u (body q u)) (s : State) :
    Lasting s (execute o q body s) := by
  have own := hb s
  unfold execute
  split <;> rename_i e <;> rw [e] at own
  · exact own.then_only (answerKept_only _ _ _ _ _ _) rfl
  · obtain ⟨ran, follows⟩ := own
    refine .ite (.trans ?_ (follows _)) (.trans ?_ (follows _))
    · exact (ran.then_only (bump_only _ _ _ _ _) rfl).then_only (answerKept_only _ _ _ _ _ _) rfl
    · exact (((ran.then_only (bump_only _ _ _ _ _) rfl).then_only (journal_only _ _ _ _ _) rfl).then_only
        (digestCommand_only _ _ _ _ _) rfl).then_only (answerKept_only _ _ _ _ _ _) rfl
  · exact (own.then_only (journal_only _ _ _ _ _) rfl).then_only (bump_only _ _ _ _ _) rfl

theorem broadcastOwn_lasting (q : Request) {body : Request → State → Reply} (hb : ∀ u, ReplyLasts u (body q u)) (s : State) :
    Lasting s (broadcastOwn q body s).2.1 ∧ ∀ u, Lasting u ((broadcastOwn q body s).2.2 u) := by
  have own := hb s
  unfold broadcastOwn
  split
  · exact ⟨.refl s, .refl⟩
  split <;> rename_i e <;> rw [e] at own
  · exact ⟨own, .refl⟩
  · exact ⟨own.1.then_only (bump_only _ _ _ _ _) rfl, own.2⟩
  · exact ⟨own.then_only (bump_only _ _ _ _ _) rfl, .refl⟩

theorem executeBroadcast_lasting (o : Op) (q : Request) {body : Request → State → Reply} (hb : ∀ u, ReplyLasts u (body q u)) (s : State) :
    Lasting s (executeBroadcast o q body s) := by
  obtain ⟨ran, follows⟩ := broadcastOwn_lasting q hb (journal o.code q .forward .applying s)
  have begun_ : Lasting s (journal o.code q .forward .applying s) := (journal_only _ _ _ _ s).lasting rfl
  exact (((begun_.trans ran).then_only (fanOut_only _ _ _ _ _) rfl).then_only (broadcastSent_only _ _) rfl).trans (follows _)

theorem letIn_lasting (o : Op) (q : Request) {body : Request → State → Reply} (hb : ∀ u, ReplyLasts u (body q u)) (s : State) :
    Lasting s (letIn o q body s) := by
  have run (u : State) : Lasting u ((if broadcastBit q.flags then executeBroadcast o q body else execute o q body) u) := by
    split
    · exact executeBroadcast_lasting o q hb u
    · exact execute_lasting o q hb u
  have said (st : Status) (pl : List Byte) (u : State) : Lasting u (answer o.code q st pl u) := (answer_only _ _ _ _ u).lasting rfl
  unfold letIn
  dsimp only
  refine .ite ?tenon (.ite ?unsessioned (.ite (said _ _ _) ?sessioned))
  case tenon => exact .ite ((bump_only _ _ _ _ _).lasting rfl) (.trans ((modDomain_only _ _).lasting rfl) (.ite (said _ _ _) (run _)))
  case unsessioned => exact .ite (said _ _ _) (.ite (said _ _ _) (run s))
  case sessioned =>
    split
    · exact said _ _ _
    refine .ite (said _ _ _) (.ite ?_ (.trans ((advanceSeq_only q s).lasting rfl) (.ite ((answerKept_only _ _ _ _ _ _).lasting rfl) (run _))))
    split
    · exact (putReply_only _ _ _ _ _).lasting rfl
    · exact said _ _ _

theorem checks_lasting (o : Op) (q : Request) {body : Request → State → Reply} (hb : ∀ u, ReplyLasts u (body q u)) (s : State) :
    Lasting s (checks o q body s) := by
  have said (r : Request) (st : Status) (pl : List Byte) : Lasting s (answer o.code r st pl s) := (answer_only _ _ _ _ s).lasting rfl
  unfold checks
  exact .ite (said _ _ _) (.ite (said _ _ _) (.ite (said _ _ _) (.ite (said _ _ _) (.ite (said _ _ _)
    (.ite ((forwardOne_only _ _ _).lasting rfl) (letIn_lasting o q hb s))))))

theorem takeRequest_lasting (code : Nat) (q : Request) {body : Request → State → Reply} (hb : ∀ q u, ReplyLasts u (body q u)) (s : State) :
    Lasting s (takeRequest code q body s) := by
  unfold takeRequest
  refine .ite (.refl s) ?_
  split
  · exact ((takeAt_only _ s).lasting rfl).trans (checks_lasting _ _ (hb _) _)
  · exact .ite ((overrun_only s).lasting rfl) (.ite (.refl s) (.ite (checks_lasting _ _ (hb q) s) ((enqueueRx_only _ s).lasting rfl)))

/-! An image block on a Tenon link (R491). -/

theorem outcome_lasting {s : State} {r : Reply} (h : ReplyLasts s r) : Lasting s (outcome r).2 := by
  cases r with
  | reject => exact h
  | done => exact h.1.trans (h.2 _)
  | later => exact h

theorem stageBlock_lasting (origin off len : Nat) (data : List Byte) (s : State) : Lasting s (stageBlock origin off len data s) := by
  have reported {t : State} (st : Status) (h : Lasting s t) : Lasting s (sendReport origin st t) := h.then_only (sendReport_only origin st t) rfl
  unfold stageBlock
  have first : Lasting s (if off = 0 then outcome (firmwareStageBegin { payload := be 4 len } s) else (.ok, s)).2 := by
    split
    · exact outcome_lasting (firmwareStageBegin_lasts _ s)
    · exact .refl s
  dsimp only
  generalize (if off = 0 then outcome (firmwareStageBegin { payload := be 4 len } s) else (.ok, s)) = p at first
  obtain ⟨st, u⟩ := p
  have wrote := first.trans (outcome_lasting (firmwareStageWrite_lasts { payload := be 4 off ++ data } u))
  refine .ite (reported st first) (.ite first (.ite (reported _ ?_) (.ite wrote (reported _ ?_))))
  · exact wrote.then_only (modFw_only _ _) rfl
  · exact wrote.trans (outcome_lasting (firmwareStageVerify_lasts _ _))

theorem imageRx_lasting (p : Nat) (m : Message) (scope : BitVec 16) (off len : Nat) (data : List Byte) (s : State) :
    Lasting s (imageRx p m scope off len data s) := by
  have passed : Lasting s (passImage p m s) := (passImage_only p m s).lasting rfl
  exact .ite (.refl s) (.ite (passed.trans (stageBlock_lasting _ _ _ _ _)) passed)

theorem tenonTake_lasting (p : Nat) (m : Message) (s : State) : Lasting s (tenonTake p m s) := by
  have freed : Lasting s (modTenon p (fun t => { t with credit := t.credit.free m.vc (messageCells m) }) s) := (modTenon_only _ _ s).lasting rfl
  unfold tenonTake
  dsimp only
  split
  · exact (requestRx_only p m _ s).lasting rfl
  · exact freed.then_only (replyRx_only p m _ _) rfl
  · exact freed.then_only (eventRx_only p m _ _) rfl
  · exact freed.trans (imageRx_lasting p m _ _ _ _ _)
  · exact freed.then_only (fenceRx_only p m _ _ _ _) rfl
  · exact freed

theorem tenonMessageRx_lasting (p : Nat) (crcOk : Bool) (m : Message) (s : State) : Lasting s (tenonMessageRx p crcOk m s) := by
  have taken_ : Lasting s (bump pmTenon p 33 1 (modTenon p (fun t => { t with credit := t.credit.accept m }) s)) :=
    ((modTenon_only _ _ s).lasting rfl).then_only (bump_only _ _ _ _ _) rfl
  unfold tenonMessageRx
  exact .ite (.refl s) (.ite ((bump_only _ _ _ _ s).lasting rfl) (.ite ((bump_only _ _ _ _ s).lasting rfl)
    (.ite (taken_.then_only (modTenon_only _ _ _) rfl) (taken_.trans (tenonTake_lasting p m _)))))

/-! Requests out of a receive buffer (R111, R125): every opcode's command. -/

/-- Fuses and flash last through each command of a family. -/
def FamilyLasts (cs : List (Nat × (Request → State → Reply))) : Prop := ∀ e ∈ cs, ∀ q u, ReplyLasts u (e.2 q u)

theorem FamilyLasts.nil : FamilyLasts [] := fun _ h => nomatch h

theorem FamilyLasts.cons {n : Nat} {c : Request → State → Reply} {cs : List (Nat × (Request → State → Reply))}
    (a : ∀ q u, ReplyLasts u (c q u)) (b : FamilyLasts cs) : FamilyLasts ((n, c) :: cs) := List.forall_mem_cons.2 ⟨a, b⟩

/-- A command of neither fuses nor flash. -/
theorem FamilyLasts.plain {ps : List Part} {n : Nat} {c : Request → State → Reply} {cs : List (Nat × (Request → State → Reply))}
    (a : ∀ q u, ReplyChanges ps u (c q u)) (h : sparesStores ps = true) (b : FamilyLasts cs) : FamilyLasts ((n, c) :: cs) :=
  .cons (fun q u => (a q u).lasts h) b

theorem FamilyLasts.append {cs ds : List (Nat × (Request → State → Reply))} (a : FamilyLasts cs) (b : FamilyLasts ds) :
    FamilyLasts (cs ++ ds) := fun e h => (List.mem_append.1 h).elim (a e) (b e)

theorem systemCommands_last : FamilyLasts systemCommands :=
  .plain systemGetIdentity_only rfl <|
  .plain systemReset_only rfl <|
  .plain systemGetDebugChallenge_only rfl <|
  .plain systemDebugUnlock_only rfl <|
  .plain systemGetEvents_only rfl <|
  .nil

theorem powerCommands_last : FamilyLasts powerCommands :=
  .plain powerSetTolerance_only rfl <|
  .plain powerGetState_only rfl <|
  .plain powerGetPower_only rfl <|
  .plain powerSetRegulator_only rfl <|
  .nil

theorem carrierCommands_last : FamilyLasts carrierCommands :=
  .plain carrierSetFormat_only rfl <|
  .plain carrierSetPath_only rfl <|
  .plain carrierSetDsp_only rfl <|
  .plain carrierSetSpectralOrder_only rfl <|
  .plain carrierGetStatus_only rfl <|
  .plain carrierReacquire_only rfl <|
  .plain carrierGetConfig_only rfl <|
  .nil

theorem fecCommands_last : FamilyLasts fecCommands :=
  .plain fecGetFrameInfo_only rfl <|
  .plain fecGetCounts_only rfl <|
  .plain fecSetInject_only rfl <|
  .nil

theorem framerCommands_last : FamilyLasts framerCommands :=
  .plain framerSetTti_only rfl <|
  .plain framerSetDegrade_only rfl <|
  .plain framerSetAps_only rfl <|
  .plain framerSetOverhead_only rfl <|
  .plain framerSetMaint_only rfl <|
  .plain framerGetStatus_only rfl <|
  .plain framerGetOverhead_only rfl <|
  .plain framerGetCounts_only rfl <|
  .nil

theorem clientCommands_last : FamilyLasts clientCommands :=
  .plain clientSetClient_only rfl <|
  .plain clientSetTrib_only rfl <|
  .plain clientSetFlexe_only rfl <|
  .plain clientSetClass_only rfl <|
  .plain clientGetStatus_only rfl <|
  .plain clientGetCounts_only rfl <|
  .nil

theorem schedCommands_last : FamilyLasts schedCommands :=
  .plain schedSetSubscriber_only rfl <|
  .plain schedSetQueue_only rfl <|
  .plain schedSetGates_only rfl <|
  .plain schedGetGates_only rfl <|
  .plain schedGetQueue_only rfl <|
  .plain schedSetSampling_only rfl <|
  .plain schedGetCounts_only rfl <|
  .nil

theorem memoryCommands_last : FamilyLasts memoryCommands :=
  .plain memorySetPolicy_only rfl <|
  .plain memoryGetStatus_only rfl <|
  .plain memoryGetLog_only rfl <|
  .plain memoryRetrain_only rfl <|
  .plain memorySetShim_only rfl <|
  .plain memoryGetCounts_only rfl <|
  .nil

theorem securityCommands_last : FamilyLasts securityCommands :=
  .cons securitySetOwnerRoot_lasts <|
  .cons securitySetOwnerRecord_lasts <|
  .plain securityLoadKek_only rfl <|
  .plain securityLoadKey_only rfl <|
  .plain securityEraseKey_only rfl <|
  .plain securitySetChannel_only rfl <|
  .plain securityRollover_only rfl <|
  .plain securityBench_only rfl <|
  .plain securitySetPolicy_only rfl <|
  .plain securityClearAlarm_only rfl <|
  .plain securityAttest_only rfl <|
  .plain securityGetCert_only rfl <|
  .plain securityGetStatus_only rfl <|
  .plain securityGetSlots_only rfl <|
  .plain securityGetCounts_only rfl <|
  .nil

theorem timingCommands_last : FamilyLasts timingCommands :=
  .plain timingSetRefs_only rfl <|
  .plain timingSetLoop_only rfl <|
  .plain timingSetDco_only rfl <|
  .plain timingSetTod_only rfl <|
  .plain timingSetOutputs_only rfl <|
  .plain timingRealign_only rfl <|
  .plain timingGetStatus_only rfl <|
  .nil

theorem calCommands_last : FamilyLasts calCommands :=
  .plain calGetParam_only rfl <|
  .plain calSetOverlay_only rfl <|
  .cons calSaveRecord_lasts <|
  .plain calRun_only rfl <|
  .plain calSetPolicy_only rfl <|
  .plain calGetStats_only rfl <|
  .plain calSetAnalog_only rfl <|
  .plain calSetBias_only rfl <|
  .plain calPicSpi_only rfl <|
  .nil

theorem monitorCommands_last : FamilyLasts monitorCommands :=
  .plain monitorSetConverter_only rfl <|
  .plain monitorSetSequence_only rfl <|
  .plain monitorSetDecim_only rfl <|
  .plain monitorSetAccum_only rfl <|
  .plain monitorTrigger_only rfl <|
  .plain monitorInject_only rfl <|
  .plain monitorReadSlots_only rfl <|
  .plain monitorReadTrackers_only rfl <|
  .plain monitorGetStatus_only rfl <|
  .nil

theorem countersCommands_last : FamilyLasts countersCommands :=
  .plain countersSetUnit_only rfl <|
  .plain countersRead_only rfl <|
  .plain countersClear_only rfl <|
  .plain countersSetTrace_only rfl <|
  .plain countersSetTags_only rfl <|
  .plain countersSetStream_only rfl <|
  .plain countersGetStream_only rfl <|
  .nil

theorem domainCommands_last : FamilyLasts domainCommands :=
  .plain domainSetPort_only rfl <|
  .plain domainGetPorts_only rfl <|
  .plain domainGetTopology_only rfl <|
  .cons domainSetFloor_lasts <|
  .plain domainSetManager_only rfl <|
  .plain domainDistribute_only rfl <|
  .plain domainGetDist_only rfl <|
  .plain domainFreePosition_only rfl <|
  .nil

theorem protectCommands_last : FamilyLasts protectCommands :=
  .plain protectSetTwin_only rfl <|
  .plain protectRealign_only rfl <|
  .plain protectSetMirror_only rfl <|
  .plain protectClaim_only rfl <|
  .plain protectGetStatus_only rfl <|
  .plain protectGetCounts_only rfl <|
  .nil

theorem firmwareCommands_last : FamilyLasts firmwareCommands :=
  .plain firmwareGetInfo_only rfl <|
  .cons firmwareStageBegin_lasts <|
  .cons firmwareStageWrite_lasts <|
  .cons firmwareStageVerify_lasts <|
  .plain firmwareActivate_only rfl <|
  .cons firmwareCommit_lasts <|
  .plain firmwareRollback_only rfl <|
  .nil

theorem sessionCommands_last : FamilyLasts sessionCommands :=
  .plain sessionOpen_only rfl <|
  .plain sessionAuth_only rfl <|
  .plain sessionClose_only rfl <|
  .plain sessionGrantCounters_only rfl <|
  .plain sessionGetInfo_only rfl <|
  .plain sessionSetEvents_only rfl <|
  .nil

theorem requestCommands_last : FamilyLasts requestCommands :=
  (((((((((((((((systemCommands_last.append powerCommands_last).append carrierCommands_last).append fecCommands_last).append framerCommands_last).append clientCommands_last).append schedCommands_last).append memoryCommands_last).append securityCommands_last).append timingCommands_last).append calCommands_last).append monitorCommands_last).append countersCommands_last).append domainCommands_last).append protectCommands_last).append firmwareCommands_last).append sessionCommands_last
theorem runRequest_lasting (code : Nat) (q : Request) (s : State) : Lasting s (runRequest code q s) := by
  unfold runRequest
  split
  next e found => exact checks_lasting _ q (requestCommands_last e (List.mem_of_find?_eq_some found) q) s
  next => exact .refl s


/-- Every command answers a next state that differs in the command's own parts alone. -/
theorem exec_changes (i : Instr) (s : State) : ResultChanges (commandParts i) s (exec i s) :=
  match i with
  | .sillPowerOn => execSillPowerOn_frame s
  | .sillPowerLoss => execSillPowerLoss_frame s
  | .supplyHold x => execSupplyHold_frame x s
  | .sequenceFault x => execSequenceFault_frame x s
  | .hubPowerLoss => execHubPowerLoss_frame s
  | .suppliesValid => execSuppliesValid_frame s
  | .resetNFall => execResetNFall_frame s
  | .resetNRise => execResetNRise_frame s
  | .strapWindow readings => execStrapWindow_frame readings s
  | .strapFault => execStrapFault_frame s
  | .bankCheck => execBankCheck_frame s
  | .salurnInitDone selfTest => execSalurnInitDone_frame selfTest s
  | .sillReset w => execSillReset_frame w s
  | .hubResetByRegister w => execHubResetByRegister_frame w s
  | .mpRestartByRegister w => execMpRestartByRegister_frame w s
  | .cuRestartByRegister w => execCuRestartByRegister_frame w s
  | .sillRegisterWrite addr data => execSillRegisterWrite_frame addr data s
  | .watchdogExpiry => execWatchdogExpiry_frame s
  | .lockstepMismatch => execLockstepMismatch_frame s
  | .mpRestartComplete => execMpRestartComplete_frame s
  | .trialTimeout => execTrialTimeout_frame s
  | .activationEpoch => execActivationEpoch_frame s
  | .debugUnlockExpiry => execDebugUnlockExpiry_frame s
  | .debugNonceExpiry => execDebugNonceExpiry_frame s
  | .jtagInstructionLoad j => execJtagInstructionLoad_frame j s
  | .cpPushPacket bytes => execCpPushPacket_frame bytes s
  | .cpPull clocked => execCpPull_frame clocked s
  | .cpInvalidTransaction first => execCpInvalidTransaction_frame first s
  | .malformedPacket port bytes count => execMalformedPacket_frame port bytes count s
  | .packetForward port p => execPacketForward_frame port p s
  | .eventToOutgoingQueue => execEventToOutgoingQueue_frame s
  | .eventsLostQueued route => execEventsLostQueued_frame route s
  | .sessionIdleExpiry number => execSessionIdleExpiry_frame number s
  | .sessionAuthExpiry number => execSessionAuthExpiry_frame number s
  | .systemResetExecute => execSystemResetExecute_frame s
  | .systemGetIdentity q => execSystemGetIdentity_frame q s
  | .systemReset q => execSystemReset_frame q s
  | .systemGetDebugChallenge q => execSystemGetDebugChallenge_frame q s
  | .systemDebugUnlock q => execSystemDebugUnlock_frame q s
  | .systemGetEvents q => execSystemGetEvents_frame q s
  | .powerSetTolerance q => execPowerSetTolerance_frame q s
  | .powerGetState q => execPowerGetState_frame q s
  | .powerGetPower q => execPowerGetPower_frame q s
  | .powerSetRegulator q => execPowerSetRegulator_frame q s
  | .carrierSetFormat q => execCarrierSetFormat_frame q s
  | .carrierSetPath q => execCarrierSetPath_frame q s
  | .carrierSetDsp q => execCarrierSetDsp_frame q s
  | .carrierSetSpectralOrder q => execCarrierSetSpectralOrder_frame q s
  | .carrierGetStatus q => execCarrierGetStatus_frame q s
  | .carrierReacquire q => execCarrierReacquire_frame q s
  | .carrierGetConfig q => execCarrierGetConfig_frame q s
  | .formatEpoch u => execFormatEpoch_frame u s
  | .acfFrameTx u clipped => execAcfFrameTx_frame u clipped s
  | .acfFrameRx u f => execAcfFrameRx_frame u f s
  | .acfLossOfFrame u => execAcfLossOfFrame_frame u s
  | .lossOfSignal x => execLossOfSignal_frame x s
  | .losClear x => execLosClear_frame x s
  | .losHoldExpiry u => execLosHoldExpiry_frame u s
  | .acqStageDone u scores dgd snr freq sop => execAcqStageDone_frame u scores dgd snr freq sop s
  | .acqStageTimeout u => execAcqStageTimeout_frame u s
  | .equaliserDivergence u => execEqualiserDivergence_frame u s
  | .codewordDecoded u w => execCodewordDecoded_frame u w s
  | .joineryFallback pair => execJoineryFallback_frame pair s
  | .joineryJoin pair => execJoineryJoin_frame pair s
  | .daeSuspend u => execDaeSuspend_frame u s
  | .daeResume u => execDaeResume_frame u s
  | .fullCalibrationDone u tx => execFullCalibrationDone_frame u tx s
  | .calRoundStart u => execCalRoundStart_frame u s
  | .calWindowDone u estimates => execCalWindowDone_frame u estimates s
  | .monCalStep => execMonCalStep_frame s
  | .biasRampStep u ch limited => execBiasRampStep_frame u ch limited s
  | .picInterrupt u highNs => execPicInterrupt_frame u highNs s
  | .calGetParam q => execCalGetParam_frame q s
  | .calSetOverlay q => execCalSetOverlay_frame q s
  | .calSaveRecord q => execCalSaveRecord_frame q s
  | .calRun q => execCalRun_frame q s
  | .calSetPolicy q => execCalSetPolicy_frame q s
  | .calGetStats q => execCalGetStats_frame q s
  | .calSetAnalog q => execCalSetAnalog_frame q s
  | .calSetBias q => execCalSetBias_frame q s
  | .calPicSpi q => execCalPicSpi_frame q s
  | .domainHoldExpiry cls idx => execDomainHoldExpiry_frame cls idx s
  | .domainDemand cls idx => execDomainDemand_frame cls idx s
  | .pllLock pll => execPllLock_frame pll s
  | .domainExitComplete cls idx => execDomainExitComplete_frame cls idx s
  | .coreVoltageEvaluation steps lostMargin => execCoreVoltageEvaluation_frame steps lostMargin s
  | .coreVoltageStep acknowledged pecGood => execCoreVoltageStep_frame acknowledged pecGood s
  | .pmbAlert => execPmbAlert_frame s
  | .fecGetFrameInfo q => execFecGetFrameInfo_frame q s
  | .fecGetCounts q => execFecGetCounts_frame q s
  | .fecSetInject q => execFecSetInject_frame q s
  | .otucnFrameTx u load => execOtucnFrameTx_frame u load s
  | .otucnFrameRx u f => execOtucnFrameRx_frame u f s
  | .oofDeclared u => execOofDeclared_frame u s
  | .oofCleared u => execOofCleared_frame u s
  | .lofDeclared u => execLofDeclared_frame u s
  | .lofCleared u => execLofCleared_frame u s
  | .oomDeclared u => execOomDeclared_frame u s
  | .oomCleared u => execOomCleared_frame u s
  | .lomDeclared u => execLomDeclared_frame u s
  | .lomCleared u => execLomCleared_frame u s
  | .defectPersistence u bit => execDefectPersistence_frame u bit s
  | .apsAccept u => execApsAccept_frame u s
  | .apsInconsistent u => execApsInconsistent_frame u s
  | .ttiAccept u => execTtiAccept_frame u s
  | .psiAccept u => execPsiAccept_frame u s
  | .passedBytesAccept u => execPassedBytesAccept_frame u s
  | .linkTagAccept u => execLinkTagAccept_frame u s
  | .defectEventGather u => execDefectEventGather_frame u s
  | .framerSetTti q => execFramerSetTti_frame q s
  | .framerSetDegrade q => execFramerSetDegrade_frame q s
  | .framerSetAps q => execFramerSetAps_frame q s
  | .framerSetOverhead q => execFramerSetOverhead_frame q s
  | .framerSetMaint q => execFramerSetMaint_frame q s
  | .framerGetStatus q => execFramerGetStatus_frame q s
  | .framerGetOverhead q => execFramerGetOverhead_frame q s
  | .framerGetCounts q => execFramerGetCounts_frame q s
  | .todSecondBoundary => execTodSecondBoundary_frame s
  | .clientFrameRx c data fcsOk fec odd => execClientFrameRx_frame c data fcsOk fec odd s
  | .elasticBufferBlock c egress enters leaves => execElasticBufferBlock_frame c egress enters leaves s
  | .clientLinkChange c link => execClientLinkChange_frame c link s
  | .flexeCalAck g inFrame => execFlexeCalAck_frame g inFrame s
  | .flexeSwitchTimeout g => execFlexeSwitchTimeout_frame g s
  | .gfpFrameRx t f => execGfpFrameRx_frame t f s
  | .clientSetClient q => execClientSetClient_frame q s
  | .clientSetTrib q => execClientSetTrib_frame q s
  | .clientSetFlexe q => execClientSetFlexe_frame q s
  | .clientSetClass q => execClientSetClass_frame q s
  | .clientGetStatus q => execClientGetStatus_frame q s
  | .clientGetCounts q => execClientGetCounts_frame q s
  | .frameSelection p odd => execFrameSelection_frame p odd s
  | .schedParamApply => execSchedParamApply_frame s
  | .gateEntryEnd p => execGateEntryEnd_frame p s
  | .gateListStart p => execGateListStart_frame p s
  | .schedSamplingInstant slice => execSchedSamplingInstant_frame slice s
  | .schedSetSubscriber q => execSchedSetSubscriber_frame q s
  | .schedSetQueue q => execSchedSetQueue_frame q s
  | .schedSetGates q => execSchedSetGates_frame q s
  | .schedGetGates q => execSchedGetGates_frame q s
  | .schedGetQueue q => execSchedGetQueue_frame q s
  | .schedSetSampling q => execSchedSetSampling_frame q s
  | .schedGetCounts q => execSchedGetCounts_frame q s
  | .planerRead stack odd => execPlanerRead_frame stack odd s
  | .clampFlush stack odd => execClampFlush_frame stack odd s
  | .bucketDrain stack => execBucketDrain_frame stack s
  | .ceRateThreshold stack => execCeRateThreshold_frame stack s
  | .retrainStart stack retries => execRetrainStart_frame stack retries s
  | .retrainComplete stack good odd => execRetrainComplete_frame stack good odd s
  | .auditComplete stack poisoned => execAuditComplete_frame stack poisoned s
  | .memorySetPolicy q => execMemorySetPolicy_frame q s
  | .memoryGetStatus q => execMemoryGetStatus_frame q s
  | .memoryGetLog q => execMemoryGetLog_frame q s
  | .memoryRetrain q => execMemoryRetrain_frame q s
  | .memorySetShim q => execMemorySetShim_frame q s
  | .memoryGetCounts q => execMemoryGetCounts_frame q s
  | .twinFrameArrival group copy => execTwinFrameArrival_frame group copy s
  | .twinPlayout group odd errs => execTwinPlayout_frame group odd errs s
  | .mirActInChange level => execMirActInChange_frame level s
  | .mirrorClaimStable => execMirrorClaimStable_frame s
  | .mirrorClaimSample => execMirrorClaimSample_frame s
  | .mirrorTieResample => execMirrorTieResample_frame s
  | .mirrorHoldoffExpiry => execMirrorHoldoffExpiry_frame s
  | .mirrorLosRelease => execMirrorLosRelease_frame s
  | .mirrorReleaseDeassert => execMirrorReleaseDeassert_frame s
  | .braceHeartbeatTx => execBraceHeartbeatTx_frame s
  | .braceHeartbeatRx h => execBraceHeartbeatRx_frame h s
  | .braceLinkDown => execBraceLinkDown_frame s
  | .protectSetTwin q => execProtectSetTwin_frame q s
  | .protectRealign q => execProtectRealign_frame q s
  | .protectSetMirror q => execProtectSetMirror_frame q s
  | .protectClaim q => execProtectClaim_frame q s
  | .protectGetStatus q => execProtectGetStatus_frame q s
  | .protectGetCounts q => execProtectGetCounts_frame q s
  | .rolloverFlip u => execRolloverFlip_frame u s
  | .channelModeApply u dir => execChannelModeApply_frame u dir s
  | .benchRequestExecute => execBenchRequestExecute_frame s
  | .keyLoadExecute => execKeyLoadExecute_frame s
  | .supplyGlitch x => execSupplyGlitch_frame x s
  | .vddIoLoss => execVddIoLoss_frame s
  | .vddIoReturn => execVddIoReturn_frame s
  | .clockGlitch => execClockGlitch_frame s
  | .temperatureExcursion => execTemperatureExcursion_frame s
  | .tamperInAsserted => execTamperInAsserted_frame s
  | .zeroizeNAsserted => execZeroizeNAsserted_frame s
  | .entropyHealthFail => execEntropyHealthFail_frame s
  | .securitySetOwnerRoot q => execSecuritySetOwnerRoot_frame q s
  | .securitySetOwnerRecord q => execSecuritySetOwnerRecord_frame q s
  | .securityLoadKek q => execSecurityLoadKek_frame q s
  | .securityLoadKey q => execSecurityLoadKey_frame q s
  | .securityEraseKey q => execSecurityEraseKey_frame q s
  | .securitySetChannel q => execSecuritySetChannel_frame q s
  | .securityRollover q => execSecurityRollover_frame q s
  | .securityBench q => execSecurityBench_frame q s
  | .securitySetPolicy q => execSecuritySetPolicy_frame q s
  | .securityClearAlarm q => execSecurityClearAlarm_frame q s
  | .securityAttest q => execSecurityAttest_frame q s
  | .securityGetCert q => execSecurityGetCert_frame q s
  | .securityGetStatus q => execSecurityGetStatus_frame q s
  | .securityGetSlots q => execSecurityGetSlots_frame q s
  | .securityGetCounts q => execSecurityGetCounts_frame q s
  | .refMeasurement f phase => execRefMeasurement_frame f phase s
  | .refAbsence ref => execRefAbsence_frame ref s
  | .refDisqualified source => execRefDisqualified_frame source s
  | .refRequalified source => execRefRequalified_frame source s
  | .refSelChange v => execRefSelChange_frame v s
  | .lockTestMet => execLockTestMet_frame s
  | .dcoUpdate loop => execDcoUpdate_frame loop s
  | .ppsInEdge highNs sinceNs lateNs => execPpsInEdge_frame highNs sinceNs lateNs s
  | .todMode2Expiry => execTodMode2Expiry_frame s
  | .todSlewEnd => execTodSlewEnd_frame s
  | .ppsOutPulse => execPpsOutPulse_frame s
  | .frameOutPulse => execFrameOutPulse_frame s
  | .timingSetRefs q => execTimingSetRefs_frame q s
  | .timingSetLoop q => execTimingSetLoop_frame q s
  | .timingSetDco q => execTimingSetDco_frame q s
  | .timingSetTod q => execTimingSetTod_frame q s
  | .timingSetOutputs q => execTimingSetOutputs_frame q s
  | .timingRealign q => execTimingRealign_frame q s
  | .timingGetStatus q => execTimingGetStatus_frame q s
  | .monRefSettled conv => execMonRefSettled_frame conv s
  | .monConverterApply conv => execMonConverterApply_frame conv s
  | .monValueComplete q vref v => execMonValueComplete_frame q vref v s
  | .monPassEnd q => execMonPassEnd_frame q s
  | .monTriggerTimer q => execMonTriggerTimer_frame q s
  | .monLatchedTriggerStart q => execMonLatchedTriggerStart_frame q s
  | .monInjectComplete conv vref v => execMonInjectComplete_frame conv vref v s
  | .decimOutput c => execDecimOutput_frame c s
  | .decimSettled c => execDecimSettled_frame c s
  | .monitorSetConverter q => execMonitorSetConverter_frame q s
  | .monitorSetSequence q => execMonitorSetSequence_frame q s
  | .monitorSetDecim q => execMonitorSetDecim_frame q s
  | .monitorSetAccum q => execMonitorSetAccum_frame q s
  | .monitorTrigger q => execMonitorTrigger_frame q s
  | .monitorInject q => execMonitorInject_frame q s
  | .monitorReadSlots q => execMonitorReadSlots_frame q s
  | .monitorReadTrackers q => execMonitorReadTrackers_frame q s
  | .monitorGetStatus q => execMonitorGetStatus_frame q s
  | .streamDataTx vc => execStreamDataTx_frame vc s
  | .streamMessageRx crcOk m => execStreamMessageRx_frame crcOk m s
  | .streamLinkControlTx => execStreamLinkControlTx_frame s
  | .streamReplayTimeout => execStreamReplayTimeout_frame s
  | .streamRetrain => execStreamRetrain_frame s
  | .countersSetUnit q => execCountersSetUnit_frame q s
  | .countersRead q => execCountersRead_frame q s
  | .countersClear q => execCountersClear_frame q s
  | .countersSetTrace q => execCountersSetTrace_frame q s
  | .countersSetTags q => execCountersSetTags_frame q s
  | .countersSetStream q => execCountersSetStream_frame q s
  | .countersGetStream q => execCountersGetStream_frame q s
  | .tenonMessageRx p crcOk m => execTenonMessageRx_frame p crcOk m s
  | .tenonDataTx p vc => execTenonDataTx_frame p vc s
  | .tenonLinkControlTx p => execTenonLinkControlTx_frame p s
  | .tenonLinkControlRx p crcOk k => execTenonLinkControlRx_frame p crcOk k s
  | .tenonReplayTimeout p => execTenonReplayTimeout_frame p s
  | .tenonWakeBurst p => execTenonWakeBurst_frame p s
  | .tenonAlignmentLoss p => execTenonAlignmentLoss_frame p s
  | .tenonRetrainTimeout p => execTenonRetrainTimeout_frame p s
  | .tenonDownRetry p => execTenonDownRetry_frame p s
  | .tenonHelloRx p h => execTenonHelloRx_frame p h s
  | .tenonAuthRx p a => execTenonAuthRx_frame p a s
  | .mapSend level observed => execMapSend_frame level observed s
  | .mapRx p map => execMapRx_frame p map s
  | .fenceReturn level => execFenceReturn_frame level s
  | .fenceTimeout level => execFenceTimeout_frame level s
  | .managerTakeover => execManagerTakeover_frame s
  | .collationClose entry => execCollationClose_frame entry s
  | .distributionTimeout => execDistributionTimeout_frame s
  | .domainSetPort q => execDomainSetPort_frame q s
  | .domainGetPorts q => execDomainGetPorts_frame q s
  | .domainGetTopology q => execDomainGetTopology_frame q s
  | .domainSetFloor q => execDomainSetFloor_frame q s
  | .domainSetManager q => execDomainSetManager_frame q s
  | .domainDistribute q => execDomainDistribute_frame q s
  | .domainGetDist q => execDomainGetDist_frame q s
  | .domainFreePosition q => execDomainFreePosition_frame q s
  | .firmwareGetInfo q => execFirmwareGetInfo_frame q s
  | .firmwareStageBegin q => execFirmwareStageBegin_frame q s
  | .firmwareStageWrite q => execFirmwareStageWrite_frame q s
  | .firmwareStageVerify q => execFirmwareStageVerify_frame q s
  | .firmwareActivate q => execFirmwareActivate_frame q s
  | .firmwareCommit q => execFirmwareCommit_frame q s
  | .firmwareRollback q => execFirmwareRollback_frame q s
  | .sessionOpen q => execSessionOpen_frame q s
  | .sessionAuth q => execSessionAuth_frame q s
  | .sessionClose q => execSessionClose_frame q s
  | .sessionGrantCounters q => execSessionGrantCounters_frame q s
  | .sessionGetInfo q => execSessionGetInfo_frame q s
  | .sessionSetEvents q => execSessionSetEvents_frame q s
  | .junctionExceeds105c => execJunctionExceeds105c_frame s
  | .shaperCreditReachesZero p => execShaperCreditReachesZero_frame p s
  | .entropyHealthRestored => execEntropyHealthRestored_frame s
  | .tamperInDeasserted => execTamperInDeasserted_frame s
  | .zeroizeNDeasserted => execZeroizeNDeasserted_frame s
  | .refPresenceRestored ref => execRefPresenceRestored_frame ref s
  | .braceHeartbeatMissed => execBraceHeartbeatMissed_frame s
  | .scribeWordAlignmentGained port => execScribeWordAlignmentGained_frame port s
  | .watchdogStrobe => execWatchdogStrobe_frame s

/-! The step. -/

theorem runPacket_lasting (r : RxItem) (s : State) : Lasting s (runPacket r s) := by
  unfold runPacket
  split
  · exact (rejectRaw_only _ _ _ _ s).lasting rfl
  · exact runRequest_lasting _ _ s

theorem servePacket_lasting (i : Nat) (r : RxItem) (s : State) : Lasting s (servePacket i r s) := by
  have out : Lasting s (takeAt i s) := (takeAt_only i s).lasting rfl
  exact .ite (out.trans (runPacket_lasting r _)) (out.then_only (recordPacket_only r _) rfl)

theorem salurnTurn_lasting (s : State) : Lasting s (salurnTurn s) := by
  unfold salurnTurn
  split
  · split
    · exact .ite (.trans ((modControl_only _ s).lasting rfl) (runPacket_lasting _ _)) (.refl s)
    · exact .refl s
  · split
    · split
      · exact servePacket_lasting _ _ s
      · exact .refl s
    · exact .refl s

/-- The device on its own: only the packet that Salurn takes can reach fuses or flash. -/
theorem idle_lasting {s t : State} (h : idle s = .next t) : Lasting s t := by
  cases h
  have settled : Lasting s (settleIntake (settleClosings (settleLinks (settleUnits (settleDemands (idleCycle s)))))) :=
    (((((idleCycle_only s).lasting rfl).then_only (settleDemands_only _) rfl).then_only (settleUnits_only _) rfl).then_only
      (settleLinks_only _) rfl).then_only (settleClosings_only _) rfl |>.then_only (settleIntake_only _) rfl
  exact settled.trans (salurnTurn_lasting _)

theorem ResultChanges.lasting {ps : List Part} {s t : State} {r : Result} (a : ResultChanges ps s r) (h : sparesStores ps = true)
    (e : r = .next t) : Lasting s t := by
  obtain ⟨u, hu, only⟩ := a
  cases hu.symm.trans e
  exact only.lasting h

theorem exec_lasting (i : Instr) {s t : State} (h : exec i s = .next t) : Lasting s t := by
  cases hp : sparesStores (commandParts i) with
  | true => exact (exec_changes i s).lasting hp h
  | false =>
    cases i with
    | calSaveRecord q => cases h; exact takeRequest_lasting _ q calSaveRecord_lasts s
    | securitySetOwnerRoot q => cases h; exact takeRequest_lasting _ q securitySetOwnerRoot_lasts s
    | securitySetOwnerRecord q => cases h; exact takeRequest_lasting _ q securitySetOwnerRecord_lasts s
    | tenonMessageRx p crcOk m => cases h; exact tenonMessageRx_lasting p crcOk m s
    | domainSetFloor q => cases h; exact takeRequest_lasting _ q domainSetFloor_lasts s
    | firmwareStageBegin q => cases h; exact takeRequest_lasting _ q firmwareStageBegin_lasts s
    | firmwareStageWrite q => cases h; exact takeRequest_lasting _ q firmwareStageWrite_lasts s
    | firmwareStageVerify q => cases h; exact takeRequest_lasting _ q firmwareStageVerify_lasts s
    | firmwareCommit q => cases h; exact takeRequest_lasting _ q firmwareCommit_lasts s
    | _ => cases hp

end Sys2Proof.Machine

open Sys2Proof Sys2Proof.Machine

/-- Settles O4: the command at the front of the queue or, where none waits, the device on its own. -/
theorem fusesAndFlashLast : Obligations.FusesAndFlashLast := by
  intro s t h
  unfold step at h
  split at h
  next i rest _ => exact (Lasting.of_same (s := s) (t := { s with pending := rest }) rfl rfl).trans (exec_lasting i h)
  next => exact idle_lasting h

end
section
/-! PROOFS. Taking a request, as the SYSTEM and the FIRMWARE commands see it, and the SYSTEM commands (R95, R96, R101, R514). -/

-- One theorem after another: with a thread for each, the package as one text outgrows the checker's memory limit.
set_option Elab.async false

namespace Sys2Proof.Machine

/-! What taking a request leaves alone. -/

/-- A request that comes by the control port leaves the receive buffer where it waits, and nothing else. -/
theorem arrived_intakeOnly {code : Nat} {q : Request} {s : State} (h : q.port = .control) : IntakeOnly s (arrived code q s) := by
  unfold arrived
  split
  next i r hn =>
    obtain ⟨hi, hp⟩ := namesNext_buffer hn
    exact intakeOnly_takeAt hi (hp.trans h)
  next => exact ⟨_, _, rfl⟩

theorem takenWithoutSession_now {code : Nat} {q : Request} {s : State} (h : takenWithoutSession code q s = true) :
    takenNow code q s = true := by
  unfold takenWithoutSession at h
  simp only [Bool.and_eq_true] at h
  exact h.1.1.1

theorem takenWithoutSession_session {code : Nat} {q : Request} {s : State} (h : takenWithoutSession code q s = true) : q.session = 0 := by
  unfold takenWithoutSession at h
  simp only [Bool.and_eq_true, beq_iff_eq] at h
  exact h.1.2

theorem received_intakeOnly {code : Nat} {q : Request} {s : State} (h : takenWithoutSession code q s = true) :
    IntakeOnly s (received code q s) := arrived_intakeOnly (takenNow_port (takenWithoutSession_now h))

/-- A command of session 0 whose own part has executed. -/
theorem takeRequest_done_unsessioned {code : Nat} {q : Request} {body : Request → State → Reply} {s t : State} {st : Status}
    {pl : List Byte} {next : State → State} (ho : opFits code false = true) (h : takenWithoutSession code q s = true)
    (hb : body q (received code q s) = .done st pl t next) : takeRequest code q body s = next (carriedOut code q st pl t) := by
  unfold opFits at ho
  simp only [Bool.and_eq_true, beq_iff_eq] at ho
  obtain ⟨⟨⟨fits, get⟩, -⟩, -⟩ := ho
  rw [takeRequest_unsessioned fits h, execute_set _ _ _ _ _ _ _ _ get hb, opFits₀_code fits]
  rfl

/-! The intake of a request leaves every part but the command protocol's, and of that the history and the journal's numbers. -/

theorem IntakeOnly.fw {s u : State} (h : IntakeOnly s u) : u.fw = s.fw := by obtain ⟨_, _, e⟩ := h; rw [e]
theorem IntakeOnly.otp {s u : State} (h : IntakeOnly s u) : u.otp = s.otp := by obtain ⟨_, _, e⟩ := h; rw [e]
theorem IntakeOnly.sill {s u : State} (h : IntakeOnly s u) : u.sill = s.sill := by obtain ⟨_, _, e⟩ := h; rw [e]
theorem IntakeOnly.flash {s u : State} (h : IntakeOnly s u) : u.flash = s.flash := by obtain ⟨_, _, e⟩ := h; rw [e]
theorem IntakeOnly.fresh {s u : State} (h : IntakeOnly s u) : u.fresh = s.fresh := by obtain ⟨_, _, e⟩ := h; rw [e]
theorem IntakeOnly.timing {s u : State} (h : IntakeOnly s u) : u.timing = s.timing := by obtain ⟨_, _, e⟩ := h; rw [e]
theorem IntakeOnly.domain {s u : State} (h : IntakeOnly s u) : u.domain = s.domain := by obtain ⟨_, _, e⟩ := h; rw [e]
theorem IntakeOnly.history {s u : State} (h : IntakeOnly s u) : u.control.history = s.control.history := by obtain ⟨_, _, e⟩ := h; rw [e]
theorem IntakeOnly.nextEntry {s u : State} (h : IntakeOnly s u) : u.control.nextEntry = s.control.nextEntry := by
  obtain ⟨_, _, e⟩ := h; rw [e]
theorem IntakeOnly.serial {s u : State} (h : IntakeOnly s u) : u.serial = s.serial := by unfold State.serial; rw [h.otp]
theorem IntakeOnly.debugTokenHolds {s u : State} (h : IntakeOnly s u) (q : Request) : debugTokenHolds q u = debugTokenHolds q s := by
  obtain ⟨_, _, e⟩ := h; rw [e]; rfl

/-! Carrying a command out leaves the sill, the firmware, the fuses and the flash alone. -/

theorem carriedOut_sill {code : Nat} {q : Request} {st : Status} {pl : List Byte} {s : State} (h : q.port = .control) :
    (carriedOut code q st pl s).sill = s.sill := carriedOut_only code q st pl s h .sill rfl
theorem carriedOut_fw {code : Nat} {q : Request} {st : Status} {pl : List Byte} {s : State} (h : q.port = .control) :
    (carriedOut code q st pl s).fw = s.fw := carriedOut_only code q st pl s h .fw rfl
theorem carriedOut_otp {code : Nat} {q : Request} {st : Status} {pl : List Byte} {s : State} (h : q.port = .control) :
    (carriedOut code q st pl s).otp = s.otp := carriedOut_only code q st pl s h .otp rfl
theorem carriedOut_flash {code : Nat} {q : Request} {st : Status} {pl : List Byte} {s : State} (h : q.port = .control) :
    (carriedOut code q st pl s).flash = s.flash := carriedOut_only code q st pl s h .flash rfl

/-! An alarm cause (R391, R392). -/

/-- From `x` to `y` the sill has counted events and shown erased keys, and is the same otherwise. -/
def ShowsErase (x y : Sill) : Prop := ∃ n a b, y = { x with eventSeq := n, sessionErased := a, allErased := b }

theorem ShowsErase.refl (x : Sill) : ShowsErase x x := ⟨_, _, _, rfl⟩
theorem ShowsErase.of_eq {x y : Sill} (h : y = x) : ShowsErase x y := ⟨_, _, _, h⟩
theorem ShowsErase.trans {x y z : Sill} (a : ShowsErase x y) (b : ShowsErase y z) : ShowsErase x z := by
  obtain ⟨_, _, _, rfl⟩ := a
  obtain ⟨_, _, _, rfl⟩ := b
  exact ⟨_, _, _, rfl⟩

theorem ShowsErase.lastCause {x y : Sill} (h : ShowsErase x y) : y.lastCause = x.lastCause := by obtain ⟨_, _, _, rfl⟩ := h; rfl
theorem ShowsErase.debugLevel {x y : Sill} (h : ShowsErase x y) : y.debugLevel = x.debugLevel := by obtain ⟨_, _, _, rfl⟩ := h; rfl
theorem ShowsErase.authFails {x y : Sill} (h : ShowsErase x y) : y.authFails = x.authFails := by obtain ⟨_, _, _, rfl⟩ := h; rfl

theorem raise_showsErase (code unit : Nat) (pl : List Byte) (urgent : Bool) (s : State) :
    ShowsErase s.sill (raise code unit pl urgent s).sill := ⟨_, _, _, raise_sill code unit pl urgent s⟩

theorem forEach_showsErase {α : Type} {f : α → State → State} (h : ∀ a s, ShowsErase s.sill (f a s).sill) :
    ∀ (l : List α) (s : State), ShowsErase s.sill (forEach l f s).sill
  | [], s => .refl s.sill
  | a :: r, s => (h a s).trans (forEach_showsErase h r (f a s))

theorem squelch_showsErase (u cause : Nat) (s : State) : ShowsErase s.sill (squelch u cause s).sill := by
  unfold squelch
  split
  · exact .refl _
  · exact raise_showsErase _ _ _ _ (modChannel u 0 _ s)

theorem eraseSlot_showsErase (i : Nat) (s : State) : ShowsErase s.sill (eraseSlot i s).sill := by
  have dropped (u : State) : ShowsErase u.sill (dropBench i u).sill := .of_eq (dropBench_only i u .sill rfl)
  unfold eraseSlot
  dsimp only
  split
  · exact dropped (modSecurity _ s)
  · refine ShowsErase.trans (dropped (modSlot i _ (modSecurity _ s))) (forEach_showsErase (fun u t => ?_) _ _)
    split
    · exact squelch_showsErase u 1 t
    · exact .refl _

theorem eraseSlots_showsErase (s : State) : ShowsErase s.sill (eraseSlots s).sill :=
  (forEach_showsErase eraseSlot_showsErase _ s).trans ⟨_, _, _, rfl⟩

theorem erasedEvent_showsErase (cls idx src : Nat) (s : State) : ShowsErase s.sill (erasedEvent cls idx src s).sill := by
  unfold erasedEvent
  split
  · exact raise_showsErase _ _ _ _ s
  · exact .refl _

theorem eraseClass_showsErase (cls idx src : Nat) (s : State) : ShowsErase s.sill (eraseClass cls idx src s).sill := by
  unfold eraseClass
  refine ShowsErase.trans ?_ (erasedEvent_showsErase _ _ _ _)
  split
  · exact eraseSlot_showsErase idx s
  split
  · exact .refl _
  split
  · exact eraseSlots_showsErase s
  · exact (eraseSlots_showsErase s).trans ⟨_, _, _, rfl⟩

/-- The sill after a cause has fired: it is the last cause, the alarm stands from action 1, and the rest is the erases' and the events'. -/
theorem fireAlarm_showsErase (cause : Nat) (s : State) :
    ShowsErase { s.sill with lastCause := cause, secAlarm := s.sill.secAlarm || decide (1 ≤ s.alarmAction cause) }
      (fireAlarm cause s).sill := by
  unfold fireAlarm
  dsimp only
  generalize s.alarmAction cause = a
  have erased (t : State) : ShowsErase t.sill (if a = 2 then eraseClass 2 0 cause t else if a = 3 then eraseClass 3 0 cause t else t).sill := by
    split
    · exact eraseClass_showsErase 2 0 cause t
    split
    · exact eraseClass_showsErase 3 0 cause t
    · exact .refl _
  have told (t : State) : ShowsErase t.sill (if t.salurnRuns then raise 0x0901 0 (be 1 cause ++ be 1 a ++ zeros 2) true t
      else modSecurity (fun c => { c with deferred := some (cause, a) }) t).sill := by
    split
    · exact raise_showsErase _ _ _ _ t
    · exact .refl _
  exact (erased (modSill (fun x => { x with lastCause := cause, secAlarm := x.secAlarm || decide (1 ≤ a) }) s)).trans (told _)

theorem fireAlarm_fw (cause : Nat) (s : State) : (fireAlarm cause s).fw = s.fw := fireAlarm_only cause s .fw rfl

/-! The SYSTEM commands. -/

theorem drawBytes_length (n : Nat) (s : State) : (drawBytes n s).1.length = n := by simp [drawBytes]

/-- R101: the reset ordered waits behind those ordered before it. -/
theorem systemReset_legal {q : Request} (h1 : 1 ≤ q.b 0) (h3 : q.b 0 ≤ 3) (unit : q.b 0 = 3 → q.b 1 ≤ 3) (plain : q.b 0 ≠ 3 → q.b 1 = 0)
    (hz : isZero q.payload 2 2 = true) (s : State) : systemReset q s =
      .okThen s (modControl (fun c => { c with resets := c.resets ++ [⟨q.b 0, q.b 1, s.control.nextEntry⟩] })) := by
  have scope : (if q.b 0 = 3 then decide (q.b 1 ≤ 3) else q.b 1 == 0) = true := by
    split
    next h => exact decide_eq_true (unit h)
    next h => exact beq_iff_eq.mpr (plain h)
  exact checked_pass _ _ _ (by simp [inByte, resv, h1, h3, scope, hz])

/-- R95, R96: the nonce is used up and cause 6 fires, whatever the token is; a token that holds grants its level. -/
theorem systemDebugUnlock_legal {q : Request} {s : State} (h1 : 1 ≤ q.b 0) (h3 : q.b 0 ≤ 3) (hsrc : q.b 1 ≤ 1)
    (hz : isZero q.payload 2 2 = true) (expiry : s.timing.tod.sec < q.d 4) :
    (debugTokenHolds q s = true → ∃ v, systemDebugUnlock q s = .okThen v (raise 0x0103 0 (be 1 (q.b 0) ++ be 1 (q.b 1) ++ zeros 2) false) ∧
      v.fw = { s.fw with debugNonce := none, debugExpiry := q.d 4 } ∧ v.sill.lastCause = 6 ∧ v.sill.debugLevel = q.b 0) ∧
    (debugTokenHolds q s = false → ∃ v, systemDebugUnlock q s = .done .auth [] v id ∧ v.fw = { s.fw with debugNonce := none } ∧
      v.sill.lastCause = 6 ∧ v.sill.debugLevel = s.sill.debugLevel ∧ v.sill.authFails = min (s.sill.authFails + 1) 255) := by
  have body : systemDebugUnlock q s =
      let u := modFw (fun f => { f with debugNonce := none }) s
      let w := if 2 ≤ q.b 0 then eraseClass 2 0 0 (fireAlarm 6 u) else fireAlarm 6 u
      if debugTokenHolds q s then
        .okThen (modFw (fun f => { f with debugExpiry := q.d 4 }) (modSill (fun x => { x with debugLevel := q.b 0 }) w))
          (raise 0x0103 0 (be 1 (q.b 0) ++ be 1 (q.b 1) ++ zeros 2) false)
      else .done .auth [] (fireAlarm 6 (countAuthFail u)) id := by
    exact checked_pass _ _ _ (by simp [inByte, resv, h1, h3, hsrc, expiry, hz])
  dsimp only at body
  generalize hw : (if 2 ≤ q.b 0 then eraseClass 2 0 0 (fireAlarm 6 (modFw (fun f => { f with debugNonce := none }) s))
    else fireAlarm 6 (modFw (fun f => { f with debugNonce := none }) s)) = w at body
  refine ⟨fun holds => ?_, fun fails => ?_⟩
  · rw [holds] at body
    have fired : w.fw = { s.fw with debugNonce := none } ∧ w.sill.lastCause = 6 := by
      subst hw
      split
      · exact ⟨(eraseClass_only 2 0 0 _ .fw rfl).trans (fireAlarm_fw 6 _),
          (eraseClass_showsErase 2 0 0 _).lastCause.trans (fireAlarm_showsErase 6 _).lastCause⟩
      · exact ⟨fireAlarm_fw 6 _, (fireAlarm_showsErase 6 _).lastCause⟩
    refine ⟨_, body, ?_, fired.2, rfl⟩
    simp only [modFw_fw, modSill_fw, fired.1]
  · rw [fails] at body
    have shown := fireAlarm_showsErase 6 (countAuthFail (modFw (fun f => { f with debugNonce := none }) s))
    exact ⟨_, body, fireAlarm_fw 6 _, shown.lastCause, shown.debugLevel, shown.authFails⟩

/-- R514: the events from a sequence on, at most so many, and how the history reaches. -/
theorem systemGetEvents_legal {q : Request} (hu : q.u = 0) (h1 : 1 ≤ q.h 4) (h256 : q.h 4 ≤ 256) (hz : isZero q.payload 6 2 = true)
    (s : State) : systemGetEvents q s = .okWith (be 4 (s.control.history.head?.map (fun e => e.seq) |>.getD s.sill.eventSeq).toNat ++
      be 4 s.sill.eventSeq.toNat ++
      ((s.control.history.filter (fun e => !seqOlder e.seq (BitVec.ofNat 32 (q.w 0)))).take (q.h 4)).flatMap historyEntry) s := by
  unfold systemGetEvents
  rw [checked_pass _ _ _ (by simp [unitZero, inHalf, resv, hu, h1, h256, hz])]
  cases s.control.history <;> rfl

end Sys2Proof.Machine

open Sys2Proof Sys2Proof.Machine

/-- Settles O14: each clause is what its command's own part answers, on the state that has taken the request. -/
theorem systemCommandsComplete : Obligations.SystemCommandsComplete := by
  refine ⟨?identity, ?reset, ?challenge, ?unlock, ?events⟩
  case identity =>
    intro q s h
    have intake := admitted_intakeOnly h
    refine congrArg Host.Outcome.next (takeRequest_get (by decide) h ?_)
    rw [← intake.serial, ← intake.otp]
    rfl
  case reset =>
    intro q s h h1 h3 unit plain hz
    have body := systemReset_legal h1 h3 unit plain hz (admitted 0x0102 q s)
    rw [(admitted_intakeOnly h).nextEntry] at body
    exact congrArg Host.Outcome.next (takeRequest_done (by decide) h body)
  case challenge =>
    intro q s h
    have intake := admitted_intakeOnly h
    refine ⟨_, (drawBytes 32 (admitted 0x0103 q s)).1, congrArg Host.Outcome.next (takeRequest_get (by decide) h rfl), ?_,
      drawBytes_length _ _, ?_⟩
    · rw [got_only _ _ _ _ (taken_port h) .fw rfl]
      rfl
    · rw [← intake.fw, ← intake.fresh]
      rfl
  case unlock =>
    intro q s h h1 h3 hsrc hz expiry
    have intake := admitted_intakeOnly h
    obtain ⟨grants, denies⟩ := systemDebugUnlock_legal h1 h3 hsrc hz (s := admitted 0x0104 q s) (by rw [intake.timing]; exact expiry)
    rw [intake.debugTokenHolds] at grants denies
    rw [intake.fw, intake.sill] at denies
    cases token : debugTokenHolds q s with
    | true =>
      obtain ⟨v, body, fw, cause, level⟩ := grants token
      refine ⟨_, congrArg Host.Outcome.next (takeRequest_done (by decide) h body), ?_, ?_, fun _ => ⟨?_, ?_, raise_lastEvent _ _ _ _ _⟩,
        nofun⟩
      · rw [raise_only _ _ _ _ _ .fw rfl, carriedOut_fw (taken_port h), fw]
      · rw [(raise_showsErase _ _ _ _ _).lastCause, carriedOut_sill (taken_port h), cause]
      · rw [(raise_showsErase _ _ _ _ _).debugLevel, carriedOut_sill (taken_port h), level]
      · rw [raise_only _ _ _ _ _ .fw rfl, carriedOut_fw (taken_port h), fw]
    | false =>
      obtain ⟨v, body, fw, cause, level, fails⟩ := denies token
      refine ⟨_, congrArg Host.Outcome.next (takeRequest_completes (by decide) h body), ?_, ?_, nofun, fun _ => ⟨?_, ?_⟩⟩
      · rw [carriedOut_fw (taken_port h), fw]
      · rw [carriedOut_sill (taken_port h), cause]
      · rw [carriedOut_sill (taken_port h), level]
      · rw [carriedOut_sill (taken_port h), fails]
  case events =>
    intro q s h hu h1 h256 hz
    have intake := admitted_intakeOnly h
    have body := systemGetEvents_legal hu h1 h256 hz (admitted 0x0105 q s)
    rw [intake.history, intake.sill] at body
    refine ⟨_, List.length_take_le _ _, fun e he => ?_, congrArg Host.Outcome.next (takeRequest_get (by decide) h body)⟩
    simpa using List.mem_filter.mp (List.mem_of_mem_take he)

end

section
/-! PROOFS. The FIRMWARE commands (R88 to R104): what each answers on legal fields, and what that leaves of flash, fuses and firmware. -/

-- One theorem after another: with a thread for each, the package as one text outgrows the checker's memory limit.
set_option Elab.async false

namespace Sys2Proof.Machine

/-! Flash (R88). -/

theorem tblGet_filter {α : Type} (d : α) (p : Nat → Bool) (t : Tbl α) (k : Nat) :
    tblGet d (t.filter (fun e => p e.1)) k = if p k then tblGet d t k else d := by
  induction t with
  | nil => simp [tblGet]
  | cons e r ih =>
    obtain ⟨j, v⟩ := e
    by_cases hj : j = k
    · subst hj
      cases hp : p j <;> simp_all [tblGet]
    · cases hp : p j <;> simp_all [tblGet]

/-- An erased byte reads 0xFF; any other reads as before. -/
theorem flashByte_erase (a n : Nat) (s : State) (k : Nat) :
    flashByte (flashErase a n s) k = if k < a ∨ a + n ≤ k then flashByte s k else 0xFF := by
  unfold flashByte flashErase
  rw [tblGet_filter _ (fun k => k < a || a + n ≤ k)]
  simp only [Bool.or_eq_true, decide_eq_true_eq]

theorem flashByte_of_flash {s t : State} (h : t.flash = s.flash) (a : Nat) : flashByte t a = flashByte s a := by unfold flashByte; rw [h]
theorem flashBytes_of_flash {s t : State} (h : t.flash = s.flash) (a n : Nat) : flashBytes t a n = flashBytes s a n := by
  unfold flashBytes flashByte; rw [h]

/-- What has been programmed reads back. -/
theorem flashBytes_write {a n : Nat} {l : List Byte} (h : l.length = n) (s : State) : flashBytes (flashWrite a l s) a n = l := by
  subst h
  refine List.ext_getElem (flashBytes_length _ _ _) (fun i _ hi => ?_)
  simp only [flashBytes, List.getElem_map, List.getElem_range]
  exact flashWrite_same a l s i hi

theorem flashWrite_fw (a : Nat) (l : List Byte) (s : State) : (flashWrite a l s).fw = s.fw := flashWrite_only a l s .fw rfl
theorem flashWrite_fresh (a : Nat) (l : List Byte) (s : State) : (flashWrite a l s).fresh = s.fresh := flashWrite_only a l s .fresh rfl

theorem directoryBytes_length (seq bank : Nat) : (directoryBytes seq bank).length = 32 := by simp [directoryBytes]

/-! What the intake of a request leaves. -/

theorem IntakeOnly.bankVersions {s u : State} (h : IntakeOnly s u) (b : Nat) : bankVersions u b = bankVersions s b := by
  obtain ⟨_, _, e⟩ := h; rw [e]; rfl
theorem IntakeOnly.fwState {s u : State} (h : IntakeOnly s u) : u.fwState = s.fwState := by obtain ⟨_, _, e⟩ := h; rw [e]; rfl
theorem IntakeOnly.directory {s u : State} (h : IntakeOnly s u) : u.directory = s.directory := by obtain ⟨_, _, e⟩ := h; rw [e]; rfl
theorem IntakeOnly.committed {s u : State} (h : IntakeOnly s u) : u.committed = s.committed := by
  unfold State.committed; rw [h.directory]
theorem IntakeOnly.romTakes {s u : State} (h : IntakeOnly s u) : u.romTakes = s.romTakes := by unfold State.romTakes; rw [h.sill]
theorem IntakeOnly.stagedByOther {s u : State} (h : IntakeOnly s u) (q : Request) : stagedByOther q u = stagedByOther q s := by
  obtain ⟨_, _, e⟩ := h; rw [e]; rfl
theorem IntakeOnly.stagedBytes {s u : State} (h : IntakeOnly s u) (g : Staging) (off n : Nat) :
    stagedBytes u g off n = stagedBytes s g off n := by
  obtain ⟨_, _, e⟩ := h; rw [e]; rfl
theorem IntakeOnly.stagedCheck {s u : State} (h : IntakeOnly s u) (g : Staging) : stagedCheck u g = stagedCheck s g := by
  obtain ⟨_, _, e⟩ := h; rw [e]; rfl

/-! FIRMWARE.STAGE_BEGIN (R97). -/

/-- No activation pends, no trial runs and no other session stages: the checks of STAGE_BEGIN go on. -/
structure MayStage (q : Request) (s : State) : Prop where
  least : 4100 ≤ q.w 0
  most : q.w 0 ≤ 16777216
  words : q.w 0 % 4 = 0
  trial : s.fw.trial = false
  pending : s.fw.pendingEpoch = none
  other : stagedByOther q s = false

theorem MayStage.of_intake {q : Request} {s u : State} (may : MayStage q s) (h : IntakeOnly s u) : MayStage q u :=
  ⟨may.least, may.most, may.words, by rw [h.fw, may.trial], by rw [h.fw, may.pending], by rw [h.stagedByOther, may.other]⟩

/-- In the ROM, STAGE_BEGIN names hub memory. -/
theorem firmwareStageBegin_rom {q : Request} {s : State} (may : MayStage q s) (rom : s.romTakes = true) :
    firmwareStageBegin q s = .okWith (be 1 0xFF ++ zeros 3)
      (modFw (fun f => { f with staging := some { target := 0xFF, length := q.w 0, session := q.session.toNat } }) s) := by
  unfold firmwareStageBegin
  rw [checked_pass _ _ _ (by simp [may.least, may.most, may.words]),
    require_pass _ _ _ (by simp [may.trial, may.pending, may.other]), rom]
  rfl

/-- While Salurn runs, STAGE_BEGIN erases the header sector of the bank not committed; where the erase completes, the staging begins. -/
theorem firmwareStageBegin_bank {q : Request} {s : State} (may : MayStage q s) (rom : s.romTakes = false) :
    ∃ st pl v, firmwareStageBegin q s = .done st pl v id ∧ v.fw.staged = none ∧
      v.flash = (flashErase (bankBase (1 - s.committed)) 0x10000 s).flash ∧
      v.fw.staging = (if Config.freeNat s.fresh % 2 = 0 then
        some { target := 1 - s.committed, length := q.w 0, session := q.session.toNat } else none) := by
  unfold firmwareStageBegin
  rw [checked_pass _ _ _ (by simp [may.least, may.most, may.words]),
    require_pass _ _ _ (by simp [may.trial, may.pending, may.other]), rom]
  by_cases takes : Config.freeNat s.fresh % 2 = 0 <;> simp only [flashTakes, takes, decide_true, decide_false] <;>
    exact ⟨_, _, _, rfl, rfl, rfl, rfl⟩

/-! FIRMWARE.STAGE_WRITE (R97, R102). -/

/-- The next bytes of a staging, in order and within its length: they go to hub memory, or to flash where it takes them. -/
theorem firmwareStageWrite_next {q : Request} {g : Staging} {s : State} (hg : s.fw.staging = some g) (own : g.session = q.session.toNat)
    (fresh_ : g.prevOffset ≠ some (q.w 0)) (order : q.w 0 = g.written) (fits : q.w 0 + (q.payload.length - 4) ≤ g.length) :
    (Config.freeNat s.fresh % 2 = 0 ∨ g.target = 0xFF → ∃ v g', firmwareStageWrite q s = .okay v ∧ v.fw.staging = some g' ∧
      g'.written = q.w 0 + (q.payload.length - 4) ∧ g'.prevOffset = some (q.w 0) ∧ g'.target = g.target ∧ g'.length = g.length) ∧
    (Config.freeNat s.fresh % 2 ≠ 0 ∧ g.target ≠ 0xFF → firmwareStageWrite q s = .done .flash [] (flashTakes s).2 id) := by
  have fits' : ¬g.length < q.w 0 + (q.payload.drop 4).length := by rw [List.length_drop]; omega
  unfold firmwareStageWrite
  rw [hg]
  simp only [own, ne_eq, not_true_eq_false, if_false, fresh_, order.symm, fits']
  refine ⟨fun takes => ?_, fun ⟨fails, bank⟩ => ?_⟩
  · have ok : (if g.target = 0xFF then (true, s) else flashTakes s).1 = true := by
      split
      · rfl
      next bank => exact decide_eq_true (takes.resolve_right bank)
    generalize (if g.target = 0xFF then (true, s) else flashTakes s) = p at ok
    obtain ⟨_, u⟩ := p
    subst ok
    exact ⟨_, _, rfl, rfl, by rw [List.length_drop], rfl, rfl, rfl⟩
  · simp only [bank, if_false, flashTakes, fails, decide_false, Bool.not_false, if_true]

/-! FIRMWARE.STAGE_VERIFY (R91, R97, R104). -/

/-- R93, R150: INIT begins at its stage; the boot alarm is as it was. -/
theorem beginInit_sill (s : State) : ShowsErase { s.sill with stage := .init } (beginInit s).sill := by
  have loaded (t : State) : ShowsErase t.sill (loadCalRecord t).sill := by
    have untouched (u : State) : (forEach (List.range 5) (fun i s => modCal i (fun c => { c with badOverlays := 0 }) s) u).sill = u.sill :=
      OnlyChanges.each (fun i v => modCal_only i _ v) _ (.refl _ u) .sill rfl
    unfold loadCalRecord
    dsimp only
    refine ShowsErase.trans (.of_eq (untouched t)) ?_
    split
    · exact .of_eq (forEach_keeps State.sill (fun x u => loadOverlay_only _ _ _ _ u .sill rfl) _ _)
    split
    · exact raise_showsErase _ _ _ _ _
    · exact .refl _
  unfold beginInit
  rw [startFullCal_only _ _ _ .sill rfl]
  exact loaded (modSill _ s)

theorem ShowsErase.stage {x y : Sill} (h : ShowsErase x y) : y.stage = x.stage := by obtain ⟨_, _, _, rfl⟩ := h; rfl
theorem ShowsErase.bootAlarm {x y : Sill} (h : ShowsErase x y) : y.bootAlarm = x.bootAlarm := by obtain ⟨_, _, _, rfl⟩ := h; rfl

/-- What follows the reply to the verification of a good image in hub memory: it runs, and its INIT begins (R93). -/
def runFromMemory (i : Image) (u : State) : State :=
  beginInit (modSill (fun x => { x with bank := u.committed, bootAlarm := false })
    (modFw (fun f => { f with staging := none, fromMemory := true, running := i, runningBank := u.committed }) u))

theorem runFromMemory_sill (i : Image) (u : State) :
    (runFromMemory i u).sill.stage = .init ∧ (runFromMemory i u).sill.bootAlarm = false :=
  have init := beginInit_sill (modSill (fun x => { x with bank := u.committed, bootAlarm := false }) _)
  ⟨init.stage, init.bootAlarm⟩

theorem runFromMemory_fw (i : Image) (u : State) : (runFromMemory i u).fw =
    { u.fw with staging := none, fromMemory := true, running := i, runningBank := u.committed } := beginInit_only _ .fw rfl

theorem firmwareStageVerify_whole {q : Request} {g : Staging} {s : State} (hg : s.fw.staging = some g) (own : g.session = q.session.toNat)
    (whole : g.length ≤ g.written) :
    (∀ c, stagedCheck s g = some c → ∃ st pl v, firmwareStageVerify q s = .done st pl v id ∧ v.fw = { s.fw with staging := none } ∧
      v.flash = s.flash) ∧
    (stagedCheck s g = none → g.target = 0xFF → ∃ pl, firmwareStageVerify q s =
      .done .ok pl s (runFromMemory (headerImage (stagedBytes s g 0 352)))) ∧
    (stagedCheck s g = none → g.target ≠ 0xFF → ∃ st pl v, firmwareStageVerify q s = .done st pl v id ∧ v.fw.staging = none ∧
      (Config.freeNat s.fresh % 2 = 0 → v.fw.staged = some g.target ∧
        flashBytes v (bankBase g.target) 0x1000 = fitBytes 0x1000 g.held)) := by
  have goesOn : ¬(g.session ≠ q.session.toNat ∨ g.written < g.length) := by omega
  unfold firmwareStageVerify
  rw [hg]
  dsimp only
  rw [if_neg goesOn]
  refine ⟨fun c found => ?_, fun good rom => ?_, fun good bank => ?_⟩
  · unfold stagedCheck at found
    dsimp only at found
    rw [found]
    have noted : ((if s.romTakes then modSill (fun x => { x with failCode := c }) (modFw (fun f => { f with staging := none }) s)
          else modFw (fun f => { f with staging := none }) s).fw = { s.fw with staging := none }) ∧
        (if s.romTakes then modSill (fun x => { x with failCode := c }) (modFw (fun f => { f with staging := none }) s)
          else modFw (fun f => { f with staging := none }) s).flash = s.flash := by split <;> exact ⟨rfl, rfl⟩
    have counted (u : State) : (if authCode c then authFailure 7 u else u).fw = u.fw ∧
        (if authCode c then authFailure 7 u else u).flash = u.flash := by
      split
      · exact ⟨authFailure_only 7 u .fw rfl, authFailure_only 7 u .flash rfl⟩
      · exact ⟨rfl, rfl⟩
    dsimp only
    split <;> exact ⟨_, _, _, rfl, (counted _).1.trans noted.1, (counted _).2.trans noted.2⟩
  · unfold stagedCheck at good
    dsimp only at good
    rw [good]
    dsimp only
    rw [if_pos rom]
    exact ⟨_, rfl⟩
  · unfold stagedCheck at good
    dsimp only at good
    rw [good]
    dsimp only
    rw [if_neg bank]
    by_cases takes : Config.freeNat s.fresh % 2 = 0
    · simp only [flashTakes, takes, decide_true]
      refine ⟨_, _, _, rfl, ?_, fun _ => ⟨rfl, ?_⟩⟩
      · rw [modFw_fw, flashWrite_fw]
        rfl
      · rw [flashBytes_of_flash (modFw_flash _ _)]
        exact flashBytes_write (fitBytes_length _ _) _
    · simp only [flashTakes, takes, decide_false]
      exact ⟨_, _, _, rfl, rfl, fun h => h.elim⟩

/-! FIRMWARE.ACTIVATE (R98). -/

/-- MODE 1 pends for its second. -/
theorem firmwareActivate_pends {q : Request} {b : Nat} {s : State} (h1 : q.b 0 = 1) (hz : isZero q.payload 1 3 = true) (h4 : q.h 4 = 0)
    (later : s.timing.tod.sec < q.d 4) (hs : s.fw.staged = some b) (floor : s.domain.floor.getD 0 ≤ u32 (flashBytes s (bankBase b) 352) 8) :
    firmwareActivate q s = .okay (modFw (fun f => { f with pendingEpoch := some (q.d 4) }) s) := by
  unfold firmwareActivate
  rw [checked_pass _ _ _ (by simp [inByte, resv, h1, hz, h4, later]), hs]
  dsimp only
  rw [require_pass _ _ _ (by simpa using floor), if_pos h1]

/-- MODE 0 restarts once its reply has left and the journal is done (R502). -/
theorem firmwareActivate_now {q : Request} {b : Nat} {s : State} (h0 : q.b 0 = 0) (hz : isZero q.payload 1 3 = true) (hd : q.d 4 = 0)
    (hs : s.fw.staged = some b) (floor : s.domain.floor.getD 0 ≤ u32 (flashBytes s (bankBase b) 352) 8) :
    firmwareActivate q s = .okThen (modFw (fun f => { f with activateDue := true }) s)
      (fun s => settleIntake (modControl (fun c => { c with intakeStopped := true }) s)) := by
  unfold firmwareActivate
  rw [checked_pass _ _ _ (by simp [inByte, resv, h0, hz, hd]), hs]
  dsimp only
  rw [require_pass _ _ _ (by simpa using floor), if_neg (by omega)]

/-! FIRMWARE.COMMIT (R92, R99). -/

/-- The directory copy that a commit writes, and its SEQ (R89). -/
def State.nextDirectory (s : State) : Nat × Nat :=
  match s.directory with
  | some (c, d) => (1 - c, u32 d 4 + 1)
  | none => (0, 1)

/-- A commit whose directory is written: the trial ends, and the fuses burn last. -/
theorem firmwareCommit_written {q : Request} {s : State} (trial : s.fw.trial = true) (takes : Config.freeNat s.fresh % 2 = 0) :
    ∃ w v, firmwareCommit q s = .okay v ∧ w.otp = s.otp ∧ w.fresh = s.fresh + 1 ∧ v.fw.trial = false ∧
      flashBytes v (s.nextDirectory.1 * 0x10000) 32 = directoryBytes s.nextDirectory.2 s.fw.runningBank ∧
      v.otp = (burnFuses s.fw.running.secVersion s.fw.running.revoke w).otp := by
  have body : firmwareCommit q s =
      let w := flashWrite (s.nextDirectory.1 * 0x10000) (directoryBytes s.nextDirectory.2 s.fw.runningBank)
        (flashErase (s.nextDirectory.1 * 0x10000) 0x10000 (flashTakes s).2)
      .okay (modFw (fun f => { f with trial := false, staged := none }) (burnFuses w.fw.running.secVersion w.fw.running.revoke w)) := by
    unfold firmwareCommit State.nextDirectory
    rw [require_pass _ _ _ (by simp [trial])]
    simp only [flashTakes, takes, decide_true, Bool.not_true, Bool.false_eq_true, if_false] <;> rfl
  obtain ⟨w, written⟩ : ∃ w, w = flashWrite (s.nextDirectory.1 * 0x10000) (directoryBytes s.nextDirectory.2 s.fw.runningBank)
    (flashErase (s.nextDirectory.1 * 0x10000) 0x10000 (flashTakes s).2) := ⟨_, rfl⟩
  have fw : w.fw = s.fw := by rw [written, flashWrite_fw]; rfl
  dsimp only at body
  rw [← written, fw] at body
  refine ⟨w, _, body, by rw [written, flashWrite_otp]; rfl, by rw [written, flashWrite_fresh]; rfl, rfl, ?_, rfl⟩
  rw [flashBytes_of_flash (modFw_flash _ _), flashBytes_of_flash (burnFuses_only _ _ _ .flash rfl), written]
  exact flashBytes_write (directoryBytes_length _ _) _

theorem firmwareCommit_failed {q : Request} {s : State} (trial : s.fw.trial = true) (fails : Config.freeNat s.fresh % 2 ≠ 0) :
    firmwareCommit q s = .done .flash [] (flashTakes s).2 id := by
  unfold firmwareCommit
  rw [require_pass _ _ _ (by simp [trial])]
  simp only [flashTakes, fails, decide_false, Bool.not_false, if_true]

/-! FIRMWARE.ROLLBACK (R98, R100). -/

theorem firmwareRollback_pending {q : Request} {s : State} (trial : s.fw.trial = false) (pending : s.fw.pendingEpoch ≠ none) :
    firmwareRollback q s = .okThen (modFw (fun f => { f with pendingEpoch := none }) s) (raise 0x1002 0 (be 1 5 ++ zeros 3) false) := by
  unfold firmwareRollback
  rw [require_pass _ _ _ (by simp [Option.isSome_iff_ne_none, pending]), trial]
  rfl

theorem firmwareRollback_trial {q : Request} {s : State} (trial : s.fw.trial = true) :
    firmwareRollback q s = .okThen (modFw (fun f => { f with rollbackDue := true }) s)
      (fun s => settleIntake (modControl (fun c => { c with intakeStopped := true }) s)) := by
  unfold firmwareRollback
  rw [require_pass _ _ _ (by simp [trial]), trial]
  rfl

end Sys2Proof.Machine

open Sys2Proof Sys2Proof.Machine

/-- Settles O15: each clause is what its command's own part answers, on the state that has taken the request. -/
theorem firmwareCommandsComplete : Obligations.FirmwareCommandsComplete := by
  refine ⟨?info, ?begin_, ?write, ?verify, ?romBegin, ?romVerify, ?activate, ?commit, ?rollback⟩
  case info =>
    intro q s h
    have intake := admitted_intakeOnly h
    refine congrArg Host.Outcome.next (takeRequest_get (by decide) h ?_)
    simp only [← intake.committed, ← intake.fw, ← intake.fwState, ← intake.otp, ← intake.bankVersions]
    rfl
  case begin_ =>
    intro q s h least most words trial pending other rom
    have intake := admitted_intakeOnly h
    have may : MayStage q s := ⟨least, most, words, trial, pending, other⟩
    obtain ⟨st, pl, v, body, staged, flash, staging⟩ := firmwareStageBegin_bank (may.of_intake intake) (intake.romTakes.trans rom)
    rw [intake.committed] at flash staging
    rw [intake.fresh] at staging
    have reads (a : Nat) : flashByte (carriedOut 0x1002 q st pl v) a =
        if a < bankBase (1 - s.committed) ∨ bankBase (1 - s.committed) + 0x10000 ≤ a then flashByte s a else 0xFF := by
      rw [flashByte_of_flash ((carriedOut_flash (taken_port h)).trans flash), flashByte_erase, flashByte_of_flash intake.flash]
    refine ⟨_, congrArg Host.Outcome.next (takeRequest_completes (by decide) h body), ?_, fun a lo hi => ?_, fun a out => ?_, ?_⟩
    · rw [carriedOut_fw (taken_port h), staged]
    · rw [reads, if_neg (by omega)]
    · rw [reads, if_pos out]
    · rw [carriedOut_fw (taken_port h), staging]
  case write =>
    intro q g s h hg own fresh_ order fits
    have intake := admitted_intakeOnly h
    obtain ⟨takes, fails⟩ := firmwareStageWrite_next (s := admitted 0x1003 q s) (by rw [intake.fw, hg]) own fresh_ order fits
    rw [intake.fresh] at takes fails
    by_cases flash : Config.freeNat s.fresh % 2 = 0 ∨ g.target = 0xFF
    · obtain ⟨v, g', body, staging, marks⟩ := takes flash
      refine ⟨_, congrArg Host.Outcome.next (takeRequest_completes (by decide) h body), fun _ => ⟨g', ?_, marks⟩, fun no => ?_⟩
      · rw [carriedOut_fw (taken_port h), staging]
      · exact absurd flash (not_or.mpr no)
    · refine ⟨_, congrArg Host.Outcome.next (takeRequest_completes (by decide) h (fails (not_or.mp flash))), fun yes => absurd yes flash,
        fun _ => ⟨?_, ?_⟩⟩
      · rw [carriedOut_fw (taken_port h), ← hg, ← intake.fw]
        rfl
      · rw [carriedOut_flash (taken_port h), ← intake.flash]
        rfl
  case verify =>
    intro q g s h hg own whole bank rom
    have intake := admitted_intakeOnly h
    obtain ⟨bad, -, good⟩ := firmwareStageVerify_whole (s := admitted 0x1004 q s) (by rw [intake.fw, hg]) own whole
    simp only [intake.stagedCheck, intake.fresh, intake.fw, intake.flash] at bad good
    cases found : stagedCheck s g with
    | some c =>
      obtain ⟨st, pl, v, body, fw, flash⟩ := bad c found
      refine ⟨_, congrArg Host.Outcome.next (takeRequest_completes (by decide) h body), ?_, nofun, fun _ => ⟨?_, ?_⟩⟩
      · rw [carriedOut_fw (taken_port h), fw]
      · rw [carriedOut_fw (taken_port h), fw]
      · rw [carriedOut_flash (taken_port h), flash]
    | none =>
      obtain ⟨st, pl, v, body, staging, takes⟩ := good found bank
      refine ⟨_, congrArg Host.Outcome.next (takeRequest_completes (by decide) h body), ?_, fun ok => ⟨?_, ?_⟩, fun no => absurd rfl no⟩
      · rw [carriedOut_fw (taken_port h), staging]
      · rw [carriedOut_fw (taken_port h), (takes ok.2).1]
      · rw [flashBytes_of_flash (carriedOut_flash (taken_port h)), (takes ok.2).2]
  case romBegin =>
    intro q s h rom least most words trial pending other
    have intake := received_intakeOnly h
    have may : MayStage q s := ⟨least, most, words, trial, pending, other⟩
    have body := firmwareStageBegin_rom (may.of_intake intake) (intake.romTakes.trans rom)
    rw [takenWithoutSession_session h] at body
    exact congrArg Host.Outcome.next (takeRequest_done_unsessioned (by decide) h body)
  case romVerify =>
    intro q g s h hg own whole memory found
    have intake := received_intakeOnly h
    have own' : g.session = q.session.toNat := by rw [own, takenWithoutSession_session h]; rfl
    obtain ⟨-, good, -⟩ := firmwareStageVerify_whole (s := received 0x1004 q s) (by rw [intake.fw, hg]) own' whole
    obtain ⟨pl, body⟩ := good (by rw [intake.stagedCheck, found]) memory
    rw [intake.stagedBytes] at body
    obtain ⟨stage, alarm⟩ := runFromMemory_sill (headerImage (stagedBytes s g 0 352)) (carriedOut 0x1004 q .ok pl (received 0x1004 q s))
    refine ⟨_, congrArg Host.Outcome.next (takeRequest_done_unsessioned (by decide) h body), stage, ?_, ?_, ?_, alarm⟩ <;>
      rw [runFromMemory_fw]
  case activate =>
    intro q b s h _ hz hs floor
    have intake := admitted_intakeOnly h
    have staged : (admitted 0x1005 q s).fw.staged = some b := by rw [intake.fw, hs]
    have meets : (admitted 0x1005 q s).domain.floor.getD 0 ≤ u32 (flashBytes (admitted 0x1005 q s) (bankBase b) 352) 8 := by
      rw [intake.domain, flashBytes_of_flash intake.flash]
      exact floor
    refine ⟨fun h1 h4 later => ?_, fun h0 hd => ?_⟩
    · have body := firmwareActivate_pends h1 hz h4 (by rw [intake.timing]; exact later) staged meets
      exact congrArg Host.Outcome.next (takeRequest_completes (by decide) h body)
    · exact congrArg Host.Outcome.next (takeRequest_done (by decide) h (firmwareActivate_now h0 hz hd staged meets))
  case commit =>
    intro q s h trial
    have intake := admitted_intakeOnly h
    have trial' : (admitted 0x1006 q s).fw.trial = true := by rw [intake.fw, trial]
    by_cases takes : Config.freeNat s.fresh % 2 = 0
    · obtain ⟨w, v, body, otp, fresh_, ended, directory, burnt⟩ := firmwareCommit_written (q := q) trial' (by rw [intake.fresh, takes])
      rw [intake.fw] at directory burnt
      rw [intake.otp] at otp
      rw [intake.fresh] at fresh_
      have bounds := burnFuses_floor s.fw.running.secVersion s.fw.running.revoke w
      have next : (admitted 0x1006 q s).nextDirectory = s.nextDirectory := by unfold State.nextDirectory; rw [intake.directory]
      rw [next] at directory
      rw [otp] at bounds
      refine ⟨_, congrArg Host.Outcome.next (takeRequest_completes (by decide) h body), fun _ => ⟨?_, ?_, ?_, ?_, ?_, fun whole => ?_⟩,
        fun no => absurd takes no⟩
      · rw [carriedOut_fw (taken_port h), ended]
      · rw [carriedOut_otp (taken_port h), burnt, ← otp]
        rfl
      · refine ⟨s.nextDirectory.1, s.nextDirectory.2, ?_, fun none_ => ?_, fun c d some_ => ?_⟩
        · rw [flashBytes_of_flash (carriedOut_flash (taken_port h)), directory]
        · unfold State.nextDirectory; rw [none_]; exact ⟨rfl, rfl⟩
        · unfold State.nextDirectory; rw [some_]; exact ⟨rfl, rfl⟩
      · rw [carriedOut_otp (taken_port h), burnt]
        exact bounds.1
      · rw [carriedOut_otp (taken_port h), burnt]
        exact bounds.2
      · have done_ := burnFuses_whole (target := s.fw.running.secVersion) (revoke := s.fw.running.revoke) (s := w) (by rw [fresh_, whole])
        rw [otp] at done_
        rw [carriedOut_otp (taken_port h), burnt]
        exact done_
    · have body := firmwareCommit_failed (q := q) trial' (by rw [intake.fresh]; exact takes)
      refine ⟨_, congrArg Host.Outcome.next (takeRequest_completes (by decide) h body), fun yes => absurd yes takes, fun _ => ⟨?_, ?_, ?_⟩⟩
      · rw [carriedOut_fw (taken_port h), ← intake.fw]
        rfl
      · rw [carriedOut_otp (taken_port h), ← intake.otp]
        rfl
      · rw [carriedOut_flash (taken_port h), ← intake.flash]
        rfl
  case rollback =>
    intro q s h
    have intake := admitted_intakeOnly h
    refine ⟨fun trial pending => ?_, fun trial => ?_⟩
    · have body := firmwareRollback_pending (q := q) (s := admitted 0x1007 q s) (by rw [intake.fw, trial]) (by rw [intake.fw]; exact pending)
      refine ⟨_, congrArg Host.Outcome.next (takeRequest_done (by decide) h body), ?_, raise_lastEvent _ _ _ _ _⟩
      rw [raise_only _ _ _ _ _ .fw rfl, carriedOut_fw (taken_port h)]
      rfl
    · exact congrArg Host.Outcome.next (takeRequest_done (by decide) h (firmwareRollback_trial (by rw [intake.fw, trial])))

end

section
/-! PROOFS. Checks 2 to 11 of a request that comes by the control port (R116, R117, R121, R124, R485), and what answering it leaves
(R124, R126, R129, R131). -/

-- One theorem after another: with a thread for each, the package as one text outgrows the checker's memory limit.
set_option Elab.async false

namespace Sys2Proof.Machine

/-! Checks 2 to 7. -/

/-- LENGTH is that of a payload of whole words (check 2). -/
abbrev Request.sized (q : Request) : Prop := q.payload.length / 4 ≤ 4096 ∧ q.payload.length % 4 = 0

/-- VERSION is one of 2.0 to 2.4 (check 4). -/
abbrev Request.spoken (q : Request) : Prop := q.version.toNat / 16 = 2 ∧ q.version.toNat % 16 ≤ 4

/-- FLAGS and TARGET are those of a request to this device alone. -/
abbrev Request.plain (q : Request) : Prop := q.flags = 1 ∧ q.target = 0

/-- The payload's length is one that the opcode accepts (check 7). -/
abbrev Op.fits (o : Op) (q : Request) : Prop := o.lo ≤ q.payload.length / 4 ∧ q.payload.length / 4 ≤ o.hi

theorem Request.plain.valid {q : Request} (h : q.plain) :
    flagsValid q.flags = true ∧ targetValid q.flags q.target = true ∧ broadcastBit q.flags = false := by
  obtain ⟨flags, target⟩ := h
  rw [flags, target]
  decide

theorem Request.plain.notBarred {q : Request} (h : q.plain) (o : Op) : broadcastBarred o q.flags = false := by
  unfold broadcastBarred
  rw [h.valid.2.2, Bool.false_and]

theorem Request.plain.targetsSelf {q : Request} (h : q.plain) (s : State) : targetsSelf s q = true := by
  unfold Machine.targetsSelf
  rw [h.valid.2.2, h.2]
  rfl

section
variable {o : Op} {q : Request} {body : Request → State → Reply} {s : State}

theorem checks_missized (h : 4096 < q.payload.length / 4 ∨ q.payload.length % 4 ≠ 0) :
    checks o q body s = answer o.code { q with session := 0 } .length [] s := if_pos h

theorem checks_unspoken (size : q.sized) (h : ¬q.spoken) : checks o q body s = answer o.code q .unsupported [0x20, 0x24, 0, 0] s := by
  unfold checks
  dsimp only
  rw [if_neg (by omega), if_pos (by omega)]
  rfl

theorem checks_misaddressed (size : q.sized) (version : q.spoken)
    (h : flagsValid q.flags = false ∨ targetValid q.flags q.target = false ∨ broadcastBarred o q.flags = true) :
    checks o q body s = answer o.code q .param (paramAt 0xFFFF) s := by
  have fails : (!flagsValid q.flags || !targetValid q.flags q.target || broadcastBarred o q.flags) = true := by
    rcases h with h | h | h <;> simp [h]
  unfold checks
  dsimp only
  rw [if_neg (by omega), if_neg (by omega), if_pos fails]

/-- A plain request of a version that is spoken passes checks 1 to 5. -/
theorem checks_of_plain (size : q.sized) (version : q.spoken) (plain : q.plain) : checks o q body s =
    if q.version.toNat < o.since then answer o.code q .opcode [] s
    else if q.payload.length / 4 < o.lo ∨ o.hi < q.payload.length / 4 then answer o.code q .length [] s
    else letIn o q body s := by
  unfold checks
  dsimp only
  rw [if_neg (by omega), if_neg (by omega), plain.valid.1, plain.valid.2.1, plain.notBarred, plain.targetsSelf]
  simp only [Bool.not_true, Bool.or_self, Bool.and_false, Bool.false_eq_true, if_false]

/-! Checks 9 to 11. -/

/-- Session 0 may not send every opcode (R118). -/
theorem letIn_sessionless (port : q.port = .control) (own : q.session = 0) (h : sessionless s o.code = false) :
    letIn o q body s = answer o.code q .role [] s := by
  unfold letIn
  simp only [port, own, h, Bool.not_false, if_true]
  rfl

section
variable (port : q.port = .control) (own : q.session ≠ 0) (ordinary : o.code ≠ 0x1101 ∧ o.code ≠ 0x1102)
include port own ordinary

theorem letIn_unknownSession (h : s.session q.session.toNat = none) : letIn o q body s = answer o.code q .state [] s := by
  unfold letIn
  simp only [port, h]
  rw [if_neg own, if_neg (not_or.mpr ordinary)]
  rfl

variable {x : Session} (found : s.session q.session.toNat = some x)
include found

theorem letIn_shutSession (h : x.awaiting.isSome = true ∨ x.version ≠ q.version ∨ x.closing.any (fun c => c.2 == 0) = true) :
    letIn o q body s = answer o.code q .state [] s := by
  unfold letIn
  simp only [port, found]
  rw [if_neg own, if_neg (not_or.mpr ordinary), if_pos h]
  rfl

variable (opened : ¬(x.awaiting.isSome = true ∨ x.version ≠ q.version ∨ x.closing.any (fun c => c.2 == 0) = true))
include opened

theorem letIn_lostSequence (turn : q.seq ≠ x.nextSeq) (h : x.replies.find? (fun r => r.seq == q.seq) = none) :
    letIn o q body s = answer o.code q .sequence [] s := by
  unfold letIn
  simp only [port, found]
  rw [if_neg own, if_neg (not_or.mpr ordinary), if_neg opened, if_pos turn, h]
  rfl

theorem letIn_repeat {r : Packet} (turn : q.seq ≠ x.nextSeq) (h : x.replies.find? (fun r => r.seq == q.seq) = some r) :
    letIn o q body s = putReply .control q.origin r none s := by
  unfold letIn
  simp only [port, found]
  rw [if_neg own, if_neg (not_or.mpr ordinary), if_neg opened, if_pos turn, h]
  rfl

theorem letIn_lowRole (turn : q.seq = x.nextSeq) (h : neededRole o q x.grants s < x.role.code) :
    letIn o q body s = answerKept o.code q .role [] none (advanceSeq q s) := by
  have low : neededRole o q x.grants (advanceSeq q s) < x.role.code ∨ (urgentBit q.flags = true ∧ x.role ≠ .supervisor) := by
    rw [neededRole_congr o q x.grants (t := advanceSeq q s) (s := s) rfl rfl]
    exact .inl h
  unfold letIn
  simp only [port, found]
  rw [if_neg own, if_neg (not_or.mpr ordinary), if_neg opened, if_neg (not_not_intro turn), if_pos low]
  rfl

end
end

/-! What answering leaves. -/

theorem putOut_queues (c : Control) (o : OutItem) : (c.putOut o).outgoing ++ (c.putOut o).held = c.outgoing ++ c.held ++ [o] := by
  unfold Control.putOut
  split
  next h =>
    obtain ⟨empty, -⟩ := Bool.and_eq_true _ _ ▸ h
    simp [List.isEmpty_iff.mp empty]
  next => simp

theorem putOut_room {c : Control} {o : OutItem} (empty : c.held = []) (room : c.room o.packet = true) :
    (c.putOut o).outgoing = c.outgoing ++ [o] := by
  unfold Control.putOut
  rw [empty, room]
  rfl

/-- Beside the two queues of replies, the command protocol stays as it was. -/
theorem putOut_control (c : Control) (o : OutItem) : ∃ out held, c.putOut o = { c with outgoing := out, held := held } := by
  unfold Control.putOut
  split
  · exact ⟨_, _, rfl⟩
  · exact ⟨_, _, rfl⟩

/-- A reply by the control port is queued there and kept for a repeat. -/
theorem answerKept_eq {code : Nat} {q : Request} (port : q.port = .control) (st : Status) (pl : List Byte) (e : Option Nat) (s : State) :
    answerKept code q st pl e s =
      let p := replyPacket s (replyVersion q) code q.unit q.session q.seq st pl
      storeReply q.session.toNat p (modControl (fun c => c.putOut { packet := p, isReply := true, entry := e }) s) := by
  unfold answerKept keepReply putReply
  rw [port]
  rfl

/-- Beside the two queues of replies and the replies kept, answering leaves the command protocol as it was. -/
theorem answerKept_rest {code : Nat} {q : Request} (port : q.port = .control) (st : Status) (pl : List Byte) (e : Option Nat) (s : State) :
    ∃ out held sessions, (answerKept code q st pl e s).control = { s.control with outgoing := out, held := held, sessions := sessions } := by
  rw [answerKept_eq port]
  obtain ⟨out, held, h⟩ := putOut_control s.control
    { packet := replyPacket s (replyVersion q) code q.unit q.session q.seq st pl, isReply := true, entry := e }
  dsimp only [storeReply, modSession, modControl]
  rw [h]
  exact ⟨out, held, _, rfl⟩

theorem replyPacket_congr {s t : State} (h : t.domain = s.domain) (v : BitVec 8) (op : Nat) (unit session : BitVec 16) (seq : Word32)
    (st : Status) (pl : List Byte) : replyPacket t v op unit session seq st pl = replyPacket s v op unit session seq st pl := by
  unfold replyPacket State.ownTarget State.address
  rw [h]

/-- From `s` to `t` a packet that answers a journal entry, or none, was queued as a reply behind those that wait, in the outgoing
queue where it has room, and kept as the last of session `n`, which was `x` (R124, R126, R129). -/
structure Replied (n : Nat) (x : Session) (p : Packet) (e : Option Nat) (s t : State) : Prop where
  queues : t.control.outgoing ++ t.control.held = s.control.outgoing ++ s.control.held ++ [{ packet := p, isReply := true, entry := e }]
  enters : s.control.held = [] → s.control.room p = true →
    t.control.outgoing = s.control.outgoing ++ [{ packet := p, isReply := true, entry := e }]
  kept : t.session n = some { x with replies := (x.replies ++ [p]).drop (x.replies.length + 1 - 4) }

theorem room_congr {c d : Control} (h : d.outgoing = c.outgoing) (p : Packet) : d.room p = c.room p := by
  unfold Control.room Control.outBytes
  rw [h]

/-- A reply queued leaves the sessions. -/
theorem putOut_session (o : OutItem) (n : Nat) (s : State) : (modControl (fun c => c.putOut o) s).session n = s.session n := by
  obtain ⟨_, _, h⟩ := putOut_control s.control o
  unfold State.session
  rw [modControl_control, h]

/-- Answering from a state that has the queues, the sessions and the address of `s`. -/
theorem answerKept_replied {code : Nat} {q : Request} {x : Session} {s u : State} (port : q.port = .control)
    (found : s.session q.session.toNat = some x) (outgoing : u.control.outgoing = s.control.outgoing)
    (held : u.control.held = s.control.held) (sessions : u.control.sessions = s.control.sessions) (domain : u.domain = s.domain)
    (st : Status) (pl : List Byte) (e : Option Nat) :
    Replied q.session.toNat x (replyPacket s (replyVersion q) code q.unit q.session q.seq st pl) e s (answerKept code q st pl e u) := by
  rw [answerKept_eq port, replyPacket_congr domain]
  generalize replyPacket s (replyVersion q) code q.unit q.session q.seq st pl = p
  refine ⟨?_, fun empty room => ?_, ?_⟩
  · rw [← outgoing, ← held]
    exact putOut_queues u.control _
  · rw [← outgoing]
    exact putOut_room (held.trans empty) ((room_congr outgoing p).trans room)
  · have found' : u.session q.session.toNat = some x := by unfold State.session; rw [sessions]; exact found
    rw [storeReply_session, putOut_session, found']
    rfl

theorem journal_control (op : Nat) (q : Request) (undo : Undo) (st : EntryState) (s : State) : (journal op q undo st s).control =
    { s.control with journal := s.control.journal ++ [newEntry s.control.nextEntry op q undo st], nextEntry := s.control.nextEntry + 1 } := by
  unfold journal
  rw [bump_control]
  rfl

theorem digestCommand_control (op unit : Nat) (st : Status) (digest : List Byte) (s : State) :
    (digestCommand op unit st digest s).control = s.control := digestCommand_only op unit st digest s .control rfl

/-- The state in which a command that has executed is answered: counted, journaled DONE and in the digest (R131, R394). -/
def journaledDone (code : Nat) (q : Request) (st : Status) (s : State) : State :=
  digestCommand code q.u st (Config.sha512 q.payload) (journal code q .none .done (bump pmDevice 0 8 1 s))

theorem carriedOut_eq (code : Nat) (q : Request) (st : Status) (pl : List Byte) (s : State) :
    carriedOut code q st pl s = answerKept code q st pl (some s.control.nextEntry) (journaledDone code q st s) := rfl

theorem journaledDone_control (code : Nat) (q : Request) (st : Status) (s : State) : (journaledDone code q st s).control =
    { s.control with journal := s.control.journal ++ [newEntry s.control.nextEntry code q .none .done]
                     nextEntry := s.control.nextEntry + 1 } := by
  unfold journaledDone
  rw [digestCommand_control, journal_control, bump_control]

theorem journaledDone_domain (code : Nat) (q : Request) (st : Status) (s : State) : (journaledDone code q st s).domain = s.domain :=
  digestCommand_frame _ _ _ _ (journal_frame _ _ _ _ (bump_frame pmDevice 0 8 1
    (OnlyChanges.refl [.control, .counters, .security] s) rfl) rfl) rfl .domain rfl

/-- Beside the queues of replies and the replies kept, a command that has been carried out leaves one more entry of the journal. -/
theorem carriedOut_rest {q : Request} (port : q.port = .control) (code : Nat) (st : Status) (pl : List Byte) (s : State) :
    ∃ out held sessions, (carriedOut code q st pl s).control = { s.control with
      journal := s.control.journal ++ [newEntry s.control.nextEntry code q .none .done]
      nextEntry := s.control.nextEntry + 1, outgoing := out, held := held, sessions := sessions } := by
  obtain ⟨out, held, sessions, h⟩ := answerKept_rest (code := code) port st pl (some s.control.nextEntry) (journaledDone code q st s)
  rw [journaledDone_control] at h
  exact ⟨out, held, sessions, h⟩

end Sys2Proof.Machine

open Sys2Proof Sys2Proof.Machine

/-- Settles O6: a request that is taken now goes through the checks in their order, and each clause is the check that it fails. -/
theorem requestChecksAnswerInOrder : Obligations.RequestChecksAnswerInOrder := by
  intro code q body s now own
  have port := takenNow_port now
  have run := takeRequest_now body now
  have needed (g : Nat) : neededRole (opOf code) q g (arrived code q s) = neededRole (opOf code) q g s :=
    neededRole_congr _ _ _ (arrived_only code q s .otp rfl) (arrived_only code q s .security rfl)
  dsimp only
  rw [run]
  generalize opOf code = o at own needed ⊢
  subst own
  refine ⟨checks_missized, fun size => ⟨checks_unspoken size, fun version => ⟨checks_misaddressed size version, fun plain => ?_⟩⟩⟩
  rw [checks_of_plain size version plain]
  refine ⟨fun h => if_pos h, fun since => ?_⟩
  rw [if_neg (Nat.not_lt.mpr since)]
  refine ⟨fun h => if_pos (by omega), fun fits session0 h => ?_, fun fits session open_ auth => ?_⟩
  · rw [if_neg (by omega)]
    exact letIn_sessionless port session0 h
  · have ordinary : o.code ≠ 0x1101 ∧ o.code ≠ 0x1102 := ⟨open_, auth⟩
    rw [if_neg (by omega)]
    refine ⟨letIn_unknownSession port session ordinary, fun x found => ⟨letIn_shutSession port session ordinary found, fun opened =>
      ⟨letIn_lostSequence port session ordinary found opened, fun r => letIn_repeat port session ordinary found opened,
        fun turn low => letIn_lowRole port session ordinary found opened turn ?_⟩⟩⟩
    rw [needed]
    exact low

/-- Settles O7: what the reply leaves, and for a command that is journaled its entry besides. -/
theorem answeredRequestsLeaveTheirMark : Obligations.AnsweredRequestsLeaveTheirMark := by
  intro code q x st pl s port
  refine ⟨fun found => by rw [admitted_session, found]; rfl, fun found => ⟨?get, ?set⟩⟩
  case get =>
    obtain ⟨queues, enters, kept⟩ := answerKept_replied (code := code) (u := bump pmDevice 0 8 1 s) port found (by rw [bump_control])
      (by rw [bump_control]) (by rw [bump_control]) (bump_only _ _ _ _ _ .domain rfl) .ok pl none
    obtain ⟨_, _, _, rest⟩ := answerKept_rest (code := code) port .ok pl none (bump pmDevice 0 8 1 s)
    refine ⟨queues, enters, kept, ?_, got_only code q pl s port⟩
    unfold got
    rw [rest, bump_control]
  case set =>
    obtain ⟨queues, enters, kept⟩ := answerKept_replied (code := code) (u := journaledDone code q st s) port found
      (by rw [journaledDone_control]) (by rw [journaledDone_control]) (by rw [journaledDone_control])
      (journaledDone_domain code q st s) st pl (some s.control.nextEntry)
    obtain ⟨_, _, _, rest⟩ := carriedOut_rest port code st pl s
    refine ⟨queues, enters, kept, by rw [rest], ⟨_, by rw [rest], rfl, rfl, rfl, rfl, rfl, rfl, rfl⟩, carriedOut_only code q st pl s port⟩

end

section
/-! PROOFS. Every request command, by its opcode: the meaning of its row, alike for a request that has just arrived and for one that
waits in a receive buffer (R108, R111, R116), and the UNIT that it judges before any other field (R116, R117, R515). -/

-- One theorem after another: with a thread for each, the package as one text outgrows the checker's memory limit.
set_option Elab.async false

namespace Sys2Proof.Machine

/-! Packets that wait (R108, R111). -/

/-- The packet that is taken next is the one a command spells: the command takes it through the checks. -/
theorem takeRequest_named {code : Nat} {q : Request} {s : State} {i : Nat} {r : RxItem} (body : Request → State → Reply)
    (takes : s.portTakes q.port = true) (named : s.namesNext q.port (packetBytes (requestPacket code q)) = some (i, r)) :
    takeRequest code q body s = checks (opOf code) { q with origin := r.origin, originRole := r.originRole } body (takeAt i s) := by
  unfold takeRequest
  rw [takes, named]
  rfl

/-- The request of an opcode in the table of commands is its command's, after the checks. -/
theorem runRequest_found {code : Nat} {body : Request → State → Reply}
    (found : requestCommands.find? (fun e => e.1 == code) = some (code, body)) (q : Request) (s : State) :
    runRequest code q s = checks (opOf code) q body s := by
  unfold runRequest
  rw [found]

/-- Commands of a list, each its own opcode's taking. -/
def AllTakeNamed (cs : List (Nat × (Request → Instr))) : Prop := ∀ e ∈ cs, ∀ q s i r, s.portTakes q.port = true →
  s.namesNext q.port (packetBytes (requestPacket e.1 q)) = some (i, r) →
    exec (e.2 q) s = .next (runRequest e.1 { q with origin := r.origin, originRole := r.originRole } (takeAt i s))

theorem AllTakeNamed.nil : AllTakeNamed [] := fun _ h => nomatch h

/-- A command whose meaning takes a request for the command's own part that the table of opcodes holds. -/
theorem AllTakeNamed.cons {code : Nat} {cmd : Request → Instr} {cs : List (Nat × (Request → Instr))} (body : Request → State → Reply)
    (rest : AllTakeNamed cs) (means : ∀ q s, exec (cmd q) s = .next (takeRequest code q body s) := by exact fun _ _ => rfl)
    (found : requestCommands.find? (fun e => e.1 == code) = some (code, body) := by rfl) : AllTakeNamed ((code, cmd) :: cs) :=
  List.forall_mem_cons.2 ⟨fun q s i r takes named => by rw [means, takeRequest_named body takes named, runRequest_found found], rest⟩

/-! UNIT is judged first (R515). -/

/-- The first field at fault is the one that check 12 answers. -/
theorem checked_first {c : Bool × Nat} (h : c.1 = false) (cs : List (Bool × Nat)) (s : State) (k : Reply) :
    checked (c :: cs) s k = .reject .param (paramAt c.2) s := by
  unfold checked
  rw [List.find?_cons_of_pos (by simp [h])]

/-- A command's own part judges UNIT against a bound before anything else, whatever the request and the state. -/
def JudgesUnit (n : Nat) (body : Request → State → Reply) : Prop :=
  ∀ q s, ∃ c cs k, body q s = checked (c :: cs) s k ∧ c = (decide (q.u < n), 0xFFFF)

/-- Check 12 of another unit. -/
theorem JudgesUnit.rejects {n : Nat} {body : Request → State → Reply} (h : JudgesUnit n body) {q : Request} (other : n ≤ q.u)
    (s : State) : body q s = .reject .param (paramAt 0xFFFF) s := by
  obtain ⟨c, cs, k, judged, rfl⟩ := h q s
  rw [judged, checked_first (decide_eq_false (Nat.not_lt.mpr other))]

/-- Commands of a list, each refused where it is taken for a unit at or beyond its bound. -/
def AllJudgeUnit (cs : List (Nat × Nat × (Request → Instr))) : Prop := ∀ e ∈ cs, ∀ q s, taken e.1 q s = true → e.2.1 ≤ q.u →
  exec (e.2.2 q) s = .next (refused e.1 q .param (paramAt 0xFFFF) (admitted e.1 q s))

theorem AllJudgeUnit.nil : AllJudgeUnit [] := fun _ h => nomatch h

theorem AllJudgeUnit.judged {code n : Nat} {cmd : Request → Instr} {cs : List (Nat × Nat × (Request → Instr))}
    {body : Request → State → Reply} (rest : AllJudgeUnit cs) (means : ∀ q s, exec (cmd q) s = .next (takeRequest code q body s))
    (row : opFits code (opOf code).get = true) (first : JudgesUnit n body) : AllJudgeUnit ((code, n, cmd) :: cs) :=
  List.forall_mem_cons.2 ⟨fun q s h other => by rw [means, takeRequest_refuse row h (first.rejects other _)], rest⟩

/-- A command that accepts UNIT 0 alone. -/
theorem AllJudgeUnit.zero {code : Nat} {cmd : Request → Instr} {cs : List (Nat × Nat × (Request → Instr))}
    (body : Request → State → Reply) (rest : AllJudgeUnit cs)
    (means : ∀ q s, exec (cmd q) s = .next (takeRequest code q body s) := by exact fun _ _ => rfl)
    (row : opFits code (opOf code).get = true := by decide)
    (first : ∀ q s, ∃ cs k, body q s = checked (unitZero q :: cs) s k := by exact fun _ _ => ⟨_, _, rfl⟩) :
    AllJudgeUnit ((code, 1, cmd) :: cs) :=
  rest.judged means row fun q s => by
    obtain ⟨cs, k, h⟩ := first q s
    refine ⟨unitZero q, cs, k, h, ?_⟩
    unfold unitZero
    rw [Bool.beq_eq_decide_eq]
    exact congrArg (·, _) (decide_eq_decide.mpr Nat.lt_one_iff.symm)

/-- A command that accepts the units below a bound. -/
theorem AllJudgeUnit.below {code n : Nat} {cmd : Request → Instr} {cs : List (Nat × Nat × (Request → Instr))}
    (body : Request → State → Reply) (rest : AllJudgeUnit cs)
    (means : ∀ q s, exec (cmd q) s = .next (takeRequest code q body s) := by exact fun _ _ => rfl)
    (row : opFits code (opOf code).get = true := by decide)
    (first : ∀ q s, ∃ cs k, body q s = checked (unitBelow q n :: cs) s k := by exact fun _ _ => ⟨_, _, rfl⟩) :
    AllJudgeUnit ((code, n, cmd) :: cs) :=
  rest.judged means row fun q s => by
    obtain ⟨cs, k, h⟩ := first q s
    exact ⟨unitBelow q n, cs, k, h, rfl⟩

/-- Whether it removes the group or sets it, the command judges UNIT first. -/
theorem clientSetFlexe_first (q : Request) (s : State) : ∃ cs k, clientSetFlexe q s = checked (unitZero q :: cs) s k := by
  unfold clientSetFlexe
  dsimp only
  split
  · exact ⟨_, _, rfl⟩
  · exact ⟨_, _, rfl⟩

end Sys2Proof.Machine

open Sys2Proof Sys2Proof.Machine

/-- Settles O56: each constructor takes its request for the own part that the table of opcodes holds under its opcode. -/
theorem waitingPacketsRunTheirCommand : Obligations.WaitingPacketsRunTheirCommand := by
  refine ⟨?_, ?_, ?_, ?_, ?_⟩
  · exact show AllTakeNamed _ from
      .cons powerSetTolerance <| .cons powerGetState <| .cons powerGetPower <| .cons powerSetRegulator <| .cons systemGetIdentity <|
      .cons systemReset <| .cons systemGetDebugChallenge <| .cons systemDebugUnlock <| .cons systemGetEvents <|
      .cons carrierSetFormat <| .cons carrierSetPath <| .cons carrierSetDsp <| .cons carrierSetSpectralOrder <|
      .cons carrierGetStatus <| .cons carrierReacquire <| .cons carrierGetConfig <| .cons fecGetFrameInfo <| .cons fecGetCounts <|
      .cons fecSetInject <| .cons framerSetTti <| .cons framerSetDegrade <| .cons framerSetAps <| .cons framerSetOverhead <|
      .cons framerSetMaint <| .cons framerGetStatus <| .cons framerGetOverhead <| .cons framerGetCounts <| .cons clientSetClient <| .nil
  · exact show AllTakeNamed _ from
      .cons clientSetTrib <| .cons clientSetFlexe <| .cons clientSetClass <| .cons clientGetStatus <| .cons clientGetCounts <|
      .cons schedSetSubscriber <| .cons schedSetQueue <| .cons schedSetGates <| .cons schedGetGates <| .cons schedGetQueue <|
      .cons schedSetSampling <| .cons schedGetCounts <| .cons memorySetPolicy <| .cons memoryGetStatus <| .cons memoryGetLog <|
      .cons memoryRetrain <| .cons memorySetShim <| .cons memoryGetCounts <| .cons securitySetOwnerRoot <|
      .cons securitySetOwnerRecord <| .cons securityLoadKek <| .cons securityLoadKey <| .cons securityEraseKey <|
      .cons securitySetChannel <| .nil
  · exact show AllTakeNamed _ from
      .cons securityRollover <| .cons securityBench <| .cons securitySetPolicy <| .cons securityClearAlarm <| .cons securityAttest <|
      .cons securityGetCert <| .cons securityGetStatus <| .cons securityGetSlots <| .cons securityGetCounts <| .cons timingSetRefs <|
      .cons timingSetLoop <| .cons timingSetDco <| .cons timingSetTod <| .cons timingSetOutputs <| .cons timingRealign <|
      .cons timingGetStatus <| .cons calGetParam <| .cons calSetOverlay <| .cons calSaveRecord <| .cons calRun <|
      .cons calSetPolicy <| .cons calGetStats <| .cons calSetAnalog <| .cons calSetBias <| .nil
  · exact show AllTakeNamed _ from
      .cons calPicSpi <| .cons monitorSetConverter <| .cons monitorSetSequence <| .cons monitorSetDecim <| .cons monitorSetAccum <|
      .cons monitorTrigger <| .cons monitorInject <| .cons monitorReadSlots <| .cons monitorReadTrackers <| .cons monitorGetStatus <|
      .cons countersSetUnit <| .cons countersRead <| .cons countersClear <| .cons countersSetTrace <| .cons countersSetTags <|
      .cons countersSetStream <| .cons countersGetStream <| .cons domainSetPort <| .cons domainGetPorts <| .cons domainGetTopology <|
      .cons domainSetFloor <| .cons domainSetManager <| .cons domainDistribute <| .cons domainGetDist <| .nil
  · exact show AllTakeNamed _ from
      .cons domainFreePosition <| .cons protectSetTwin <| .cons protectRealign <| .cons protectSetMirror <| .cons protectClaim <|
      .cons protectGetStatus <| .cons protectGetCounts <| .cons firmwareGetInfo <| .cons firmwareStageBegin <|
      .cons firmwareStageWrite <| .cons firmwareStageVerify <| .cons firmwareActivate <| .cons firmwareCommit <|
      .cons firmwareRollback <| .cons sessionOpen <| .cons sessionAuth <| .cons sessionClose <| .cons sessionGrantCounters <|
      .cons sessionGetInfo <| .cons sessionSetEvents <| .nil

/-- Settles O57: check 12 of each command begins with UNIT. -/
theorem unitIsJudgedFirst : Obligations.UnitIsJudgedFirst := by
  refine ⟨?_, ?_, ?_, ?_, ?_⟩
  · exact show AllJudgeUnit _ from
      .zero systemGetEvents <| .below carrierSetPath <| .below carrierSetDsp <| .zero carrierSetSpectralOrder <|
      .below carrierGetStatus <| .below carrierReacquire <| .below carrierGetConfig <| .below fecGetFrameInfo <|
      .below fecGetCounts <| .below fecSetInject <| .below framerSetTti <| .below framerSetDegrade <| .below framerSetAps <|
      .below framerSetOverhead <| .below framerSetMaint <| .below framerGetStatus <| .below framerGetOverhead <|
      .below framerGetCounts <| .zero clientSetClient <| .zero clientSetTrib <| .nil
  · exact show AllJudgeUnit _ from
      .zero clientSetFlexe (first := clientSetFlexe_first) <|
      .zero clientSetClass <| .below clientGetStatus <| .zero schedSetSubscriber <| .zero schedSetQueue <|
      .zero schedSetGates <| .below schedGetGates <| .zero schedGetQueue <| .zero schedSetSampling <| .zero schedGetCounts <|
      .zero memorySetPolicy <| .below memoryGetStatus <| .below memoryGetLog <| .below memoryRetrain <| .below memorySetShim <|
      .below memoryGetCounts <| .zero securitySetOwnerRoot <| .zero securityLoadKek <| .zero securityLoadKey <|
      .zero securityEraseKey <| .below securitySetChannel <| .below securityRollover <| .zero securityBench <|
      .zero securitySetPolicy <| .nil
  · exact show AllJudgeUnit _ from
      .zero securityClearAlarm <| .zero securityAttest <| .zero securityGetCert <| .below securityGetStatus <|
      .zero securityGetSlots <| .below securityGetCounts <| .zero timingSetRefs <| .zero timingSetLoop <| .zero timingSetDco <|
      .zero timingSetTod <| .zero timingSetOutputs <| .zero timingRealign <| .zero timingGetStatus <| .below calSaveRecord <|
      .below calRun <| .below calSetPolicy <| .below calGetStats <| .below calSetAnalog <| .below calSetBias <| .below calPicSpi <|
      .zero monitorSetConverter <| .zero monitorSetSequence <| .zero monitorSetDecim <| .zero monitorSetAccum <| .nil
  · exact show AllJudgeUnit _ from
      .zero monitorTrigger <| .zero monitorInject <| .zero monitorGetStatus <| .below countersSetUnit <| .below countersRead <|
      .zero countersClear <| .below countersSetTags <| .zero countersSetStream <| .zero countersGetStream <| .zero domainSetPort <|
      .zero domainGetPorts <| .zero domainGetTopology <| .zero domainSetFloor <| .zero domainSetManager <| .zero domainDistribute <|
      .zero domainGetDist <| .zero domainFreePosition <| .zero protectSetTwin <| .zero protectRealign <| .zero protectSetMirror <|
      .zero protectClaim <| .zero protectGetStatus <| .below protectGetCounts <| .nil
  · exact show AllJudgeUnit _ from
      .zero monitorReadSlots <| .zero monitorReadTrackers <| .zero securitySetOwnerRecord <| .nil

end

section
/-! PROOFS. The control port's transactions (R105, R106, R108, R109, R124, R129), packets that are no command (R116), forwarding (R480)
and the event route of the control port (R110, R128). -/

-- One theorem after another: with a thread for each, the package as one text outgrows the checker's memory limit.
set_option Elab.async false

namespace Sys2Proof.Machine

theorem rxFull_of_room {s : State} (h : s.rxHeld < 4) (p : Port) : s.rxFull p = false := by
  unfold State.rxFull
  rw [decide_eq_false (Nat.not_le.mpr h), Bool.and_false]

theorem rxFull_of_full {s : State} (h : 4 ≤ s.rxHeld) : s.rxFull .control = true := decide_eq_true h

theorem portTakes_control {s : State} (h : s.portLives = true) : s.portTakes .control = true := h

/-! Pushes (R108, R124). -/

/-- CP_MISO shows what a transaction shifts out. -/
def shiftOut (out : List Byte) (s : State) : State := modPins (fun p => { p with cpMiso := out }) s

theorem shiftOut_only (out : List Byte) (s : State) : OnlyChanges [.pins] s (shiftOut out s) := modPins_only _ s

/-- The packet that a push leaves in its buffer: the first 16 412 bytes, and how many were clocked. -/
def pushed (bytes : List Byte) : RxItem := { port := .control, bytes := bytes.take 16412, count := bytes.length }

/-- A push repeats a request that waits or executes (R124). -/
def pushRepeats (bytes : List Byte) (s : State) : Bool :=
  (pushed bytes).sound && s.repeats (opOf (parsePacket (pushed bytes).bytes).opcode.toNat) (pushed bytes).request

theorem cpPushPacket_live {s : State} (live : s.portLives = true) (bytes : List Byte) :
    cpPushPacket bytes s = receive (pushed bytes) (shiftOut (statusByte s :: zeros bytes.length) s) := when_of_true live _ s

section
variable {bytes : List Byte} {s : State} (live : s.portLives = true)
include live

theorem cpPushPacket_kept (room : s.rxHeld < 4) (new : pushRepeats bytes s = false) :
    cpPushPacket bytes s = enqueueRx (pushed bytes) (shiftOut (statusByte s :: zeros bytes.length) s) := by
  have takes : (shiftOut (statusByte s :: zeros bytes.length) s).portTakes (pushed bytes).port = true := live
  have notFull : (shiftOut (statusByte s :: zeros bytes.length) s).rxFull (pushed bytes).port = false := rxFull_of_room room _
  rw [cpPushPacket_live live, receive, takes, notFull]
  exact if_neg (ne_true_of_eq_false new)

theorem cpPushPacket_repeat (room : s.rxHeld < 4) (again : pushRepeats bytes s = true) :
    cpPushPacket bytes s = shiftOut (statusByte s :: zeros bytes.length) s := by
  have takes : (shiftOut (statusByte s :: zeros bytes.length) s).portTakes (pushed bytes).port = true := live
  have notFull : (shiftOut (statusByte s :: zeros bytes.length) s).rxFull (pushed bytes).port = false := rxFull_of_room room _
  rw [cpPushPacket_live live, receive, takes, notFull]
  exact if_pos again

theorem cpPushPacket_overrun (full : 4 ≤ s.rxHeld) :
    cpPushPacket bytes s = overrun (shiftOut (statusByte s :: zeros bytes.length) s) := by
  have takes : (shiftOut (statusByte s :: zeros bytes.length) s).portTakes (pushed bytes).port = true := live
  have isFull : (shiftOut (statusByte s :: zeros bytes.length) s).rxFull (pushed bytes).port = true := rxFull_of_full full
  rw [cpPushPacket_live live, receive, takes, isFull]
  rfl

end

/-! Pulls (R109, R129, R131). -/

/-- The replies that wait enter in order, and none is lost. -/
theorem admitHeld_queues : ∀ (l : List OutItem) (c : Control),
    (Control.admitHeld l c).outgoing ++ (Control.admitHeld l c).held = c.outgoing ++ l
  | [], _ => rfl
  | o :: r, c => by
    unfold Control.admitHeld
    split
    next => rw [admitHeld_queues r]; simp
    next => rfl

/-- Beside the two queues of replies, the command protocol stays as it was. -/
theorem admitHeld_control : ∀ (l : List OutItem) (c : Control), ∃ out held, Control.admitHeld l c = { c with outgoing := out, held := held }
  | [], _ => ⟨_, _, rfl⟩
  | o :: r, c => by
    unfold Control.admitHeld
    split
    next => exact admitHeld_control r { c with outgoing := c.outgoing ++ [o] }
    next => exact ⟨_, _, rfl⟩

theorem freeEntry_control (e : Option Nat) (s : State) : (freeEntry e s).control =
    { s.control with journal := s.control.journal.filter (fun x => some x.id != e) } := by
  cases e with
  | none =>
    have all : s.control.journal.filter (fun x => some x.id != none) = s.control.journal := by simp
    rw [all]
    rfl
  | some id =>
    have same : (fun x : Entry => some x.id != some id) = fun x => x.id != id := funext fun _ => rfl
    rw [same]
    rfl

section
variable {n : Nat} {s : State} (live : s.portLives = true)
include live

theorem cpPull_empty (empty : s.control.outgoing = []) :
    cpPull n s = modSill (Sill.mark .underrun) (shiftOut (statusByte s :: zeros n) s) := by
  unfold cpPull
  rw [live, empty]
  rfl

variable {o : OutItem} {rest : List OutItem} (head : s.control.outgoing = o :: rest)
include head

theorem cpPull_whole (whole : (packetBytes o.packet).length ≤ n) :
    cpPull n s = freeEntry o.entry (admitReplies (modControl (fun c => { c with outgoing := rest })
      (shiftOut (statusByte s :: fitBytes n (packetBytes o.packet)) s))) := by
  unfold cpPull
  rw [live, head]
  exact if_pos whole

theorem cpPull_part (part : n < (packetBytes o.packet).length) :
    cpPull n s = shiftOut (statusByte s :: fitBytes n (packetBytes o.packet)) s := by
  unfold cpPull
  rw [live, head]
  exact if_neg (Nat.not_le.mpr part)

end

theorem cpInvalidTransaction_unknown {b : Byte} {s : State} (live : s.portLives = true) (h1 : b ≠ 0x0B) (h2 : b ≠ 0x02) (h3 : b ≠ 0x5A)
    (h4 : b ≠ 0xA5) : cpInvalidTransaction b s = shiftOut [statusByte s] s :=
  when_of_true (by rw [live, beq_false_of_ne h1, beq_false_of_ne h2, beq_false_of_ne h3, beq_false_of_ne h4]; rfl) _ s

/-! Packets that are no command (R116). -/

theorem rawChecks_start {bytes : List Byte} {count : Nat} (h : bytes.headD 0 ≠ 0xA6) : rawChecks bytes count = some .discard := if_pos h

theorem rawChecks_length {bytes : List Byte} {count : Nat} (start : bytes.headD 0 = 0xA6)
    (h : 4096 < u16 bytes 16 ∨ count ≠ 28 + 4 * u16 bytes 16) : rawChecks bytes count = some (.refuse .length [] true) := by
  unfold rawChecks
  rw [if_neg (not_not_intro start), if_pos h]

theorem rawChecks_crc {bytes : List Byte} {count : Nat} (start : bytes.headD 0 = 0xA6) (size : u16 bytes 16 ≤ 4096)
    (clocked : count = 28 + 4 * u16 bytes 16) (h : (crc32c (bytes.take (count - 4))).toNat ≠ u32 bytes (count - 4)) :
    rawChecks bytes count = some (.refuse .crc [] true) := by
  unfold rawChecks
  rw [if_neg (not_not_intro start), if_neg (by omega), if_pos h]

/-- Where nothing that could be taken waits, the packet is rejected as it comes. -/
theorem malformedPacket_now {bytes : List Byte} {count : Nat} {f : RawFail} {s : State} (live : s.portLives = true)
    (open_ : s.intakeOpen = true) (idle : s.recorded = none) (first : s.nextIndex = none) (room : s.rxHeld < 4)
    (fails : rawChecks bytes count = some f) : malformedPacket .control bytes count s = rejectRaw .control 0 bytes f s := by
  have unnamed : s.namesNext .control bytes = none := by unfold State.namesNext; rw [first]
  unfold malformedPacket
  rw [fails, unnamed]
  simp only [portTakes_control live, rxFull_of_room room, open_, idle, first, Option.isNone_none, Bool.and_self, Bool.not_true,
    Bool.false_eq_true, if_false, if_true]

/-! Forwarding (R480). -/

section
variable {p : Packet} {s : State} (live : s.portLives = true) (away : forwards .control p s = true)
include live away

theorem packetForward_now (unnamed : s.namesNext .control (packetBytes p) = none) (room : s.rxHeld < 4)
    (first : s.goesFirst (packetRequest .control 0 0 p) = true) :
    packetForward .control p s = forwardOne p.opcode.toNat (packetRequest .control 0 0 p) s := by
  unfold packetForward
  rw [portTakes_control live, away, unnamed, rxFull_of_room room, first]
  rfl

theorem packetForward_named {i : Nat} {r : RxItem} (named : s.namesNext .control (packetBytes p) = some (i, r)) :
    packetForward .control p s = forwardOne p.opcode.toNat r.request (takeAt i s) := by
  unfold packetForward
  rw [portTakes_control live, away, named]
  rfl

end

/-! Event routes (R128). -/

theorem flushLost_nothing {k : Nat} {s : State} (h : (s.route k).lost = 0) : flushLost k s = s := if_pos (.inl h)

@[simp] theorem modRoute_route (k : Nat) (f : Route → Route) (s : State) : (modRoute k f s).route k = f (s.route k) := by
  unfold modRoute State.route
  rw [modControl_control]
  split
  · rfl
  split
  · rfl
  · rfl

@[simp] theorem bump_route (fam inst ev n k : Nat) (s : State) : (bump fam inst ev n s).route k = s.route k := by
  unfold State.route
  rw [bump_control]
@[simp] theorem remember_route (e : EventRec) (k : Nat) (s : State) : (remember e s).route k = s.route k := by
  unfold remember State.route
  rw [modControl_control]
@[simp] theorem nextEventSeq_route (k : Nat) (s : State) : (nextEventSeq s).route k = s.route k := rfl

/-- The EV_EVENTS_LOST of a route, as it stands (R128). -/
def lostEvent (k : Nat) (s : State) : EventRec :=
  ⟨s.sill.eventSeq, 0x1102, 0, false, s.timing.tod, be 1 k ++ zeros 3 ++ be 4 (s.route k).firstLost.toNat ++ be 4 (s.route k).lost, false,
    none, 0x24⟩

/-- A route that dropped events and has room again. -/
theorem flushLost_room {k : Nat} {s : State} (lost : (s.route k).lost ≠ 0) (room : (s.route k).queue.length < 1024) :
    (flushLost k s).route k = { s.route k with queue := (s.route k).queue ++ [lostEvent k s], lost := 0 } ∧
      (flushLost k s).sill.eventSeq = s.sill.eventSeq + 1 := by
  have eq : flushLost k s = bump pmDevice 0 9 1 (remember (lostEvent k s) (nextEventSeq
      (modRoute k (fun r => { r with queue := r.queue ++ [lostEvent k s], lost := 0 }) s))) := if_neg (by omega)
  rw [eq]
  constructor
  · rw [bump_route, remember_route, nextEventSeq_route, modRoute_route]
  · rw [bump_sill]
    rfl

/-- The event at the head of the control-port route enters the outgoing queue. -/
theorem eventToOutgoingQueue_enters {e : EventRec} {rest : List EventRec} {s : State} (up : s.hubUp = true) (empty : s.control.held = [])
    (room : s.control.room (eventPacket s e) = true) (head : s.control.routeCp.queue = e :: rest) (none_ : s.control.routeCp.lost = 0) :
    eventToOutgoingQueue s = modControl (fun c => { c with
      outgoing := c.outgoing ++ [{ packet := eventPacket s e, isReply := false }], routeCp := { c.routeCp with queue := rest } }) s := by
  unfold eventToOutgoingQueue
  rw [head]
  simp only [up, empty, room, List.isEmpty_nil, Bool.and_self, Bool.not_true, Bool.false_eq_true, if_false]
  exact flushLost_nothing none_

end Sys2Proof.Machine

open Sys2Proof Sys2Proof.Machine

/-- Settles O8: what each transaction does once the port answers, in the order of the clauses. -/
theorem portTransactionsComplete : Obligations.PortTransactionsComplete := by
  refine ⟨?push, ?pull, ?invalid, ?malformed, ?forward, ?event, ?lost⟩
  case push =>
    intro bytes s live
    refine ⟨fun room new => ⟨_, congrArg Host.Outcome.next (cpPushPacket_kept live room new), rfl, rfl, ?_⟩,
      fun room again => congrArg Host.Outcome.next (cpPushPacket_repeat live room again),
      fun full => ⟨_, congrArg Host.Outcome.next (cpPushPacket_overrun live full), rfl, rfl, ?_⟩⟩
    · exact enqueueRx_frame _ ((shiftOut_only _ s).mono rfl) rfl
    · exact overrun_frame ((shiftOut_only _ s).mono rfl) rfl
  case pull =>
    intro n s live
    refine ⟨fun empty => ⟨_, congrArg Host.Outcome.next (cpPull_empty live empty), rfl, rfl, ?_⟩, fun o rest head => ⟨fun whole => ?_,
      fun part => ⟨_, congrArg Host.Outcome.next (cpPull_part live head part), rfl, shiftOut_only _ s⟩⟩⟩
    · exact modSill_frame _ ((shiftOut_only _ s).mono rfl) rfl
    · obtain ⟨out, held, control⟩ := admitHeld_control s.control.held { s.control with outgoing := rest }
      have queues := admitHeld_queues s.control.held { s.control with outgoing := rest }
      refine ⟨_, congrArg Host.Outcome.next (cpPull_whole live head whole), ?_, fun none_ => ?_, ?_, ?_, ?_⟩
      · rw [freeEntry_control]
        exact queues
      · rw [freeEntry_control]
        show (Control.admitHeld s.control.held { s.control with outgoing := rest }).outgoing = rest
        rw [none_]
        rfl
      · rw [freeEntry_only _ _ .pins rfl]
        rfl
      · rw [freeEntry_control]
        show (Control.admitHeld s.control.held { s.control with outgoing := rest }).journal.filter _ = _
        rw [control]
      · exact freeEntry_frame _ (modControl_frame _ (modControl_frame _ ((shiftOut_only _ s).mono rfl) rfl) rfl) rfl
  case invalid =>
    exact fun b s live h1 h2 h3 h4 => congrArg Host.Outcome.next (cpInvalidTransaction_unknown live h1 h2 h3 h4)
  case malformed =>
    intro bytes count s live open_ idle first room
    have now {f : RawFail} (h : rawChecks bytes count = some f) : exec (.malformedPacket .control bytes count) s = .next _ :=
      congrArg Host.Outcome.next (malformedPacket_now live open_ idle first room h)
    exact ⟨fun h => now (rawChecks_start h), fun start h => now (rawChecks_length start h),
      fun start size clocked h => now (rawChecks_crc start size clocked h)⟩
  case forward =>
    exact fun p s live away => ⟨fun unnamed room first => congrArg Host.Outcome.next (packetForward_now live away unnamed room first),
      fun i r named => congrArg Host.Outcome.next (packetForward_named live away named)⟩
  case event =>
    intro e rest s up empty room head none_ extest
    refine ⟨_, congrArg Host.Outcome.next (eventToOutgoingQueue_enters up empty room head none_), rfl, rfl, ?_,
      modControl_frame _ (OnlyChanges.refl _ s) rfl⟩
    simp [State.cpIrq, State.eventPending, extest]
  case lost =>
    intro k s lost room
    obtain ⟨route, seq⟩ := flushLost_room lost room
    exact ⟨_, rfl, by rw [route], seq, lostEvent k s, by rw [route], rfl, rfl⟩

end

section
/-! PROOFS. The SESSION commands (R118 to R123, R136), the two expiries of a session (R120, R121) and what closing one leaves. -/

-- One theorem after another: with a thread for each, the package as one text outgrows the checker's memory limit.
set_option Elab.async false

namespace Sys2Proof.Machine

/-! Fields. -/

theorem foldl_bytes_lt : ∀ (l : List Byte) (a : Nat), l.foldl (fun a b => a * 256 + b.toNat) a < (a + 1) * 256 ^ l.length
  | [], a => by simp
  | b :: r, a => by
    have step := foldl_bytes_lt r (a * 256 + b.toNat)
    have byte : a * 256 + b.toNat + 1 ≤ (a + 1) * 256 := by have := b.isLt; omega
    calc (b :: r).foldl (fun a b => a * 256 + b.toNat) a
        < (a * 256 + b.toNat + 1) * 256 ^ r.length := step
      _ ≤ (a + 1) * 256 * 256 ^ r.length := Nat.mul_le_mul_right _ byte
      _ = (a + 1) * 256 ^ (b :: r).length := by rw [List.length_cons, Nat.pow_succ', Nat.mul_assoc]

theorem field_lt (p : List Byte) (off n : Nat) : field p off n < 256 ^ n := by
  have lt := foldl_bytes_lt (bytesAt p off n) 0
  rw [Nat.zero_add, Nat.one_mul] at lt
  exact Nat.lt_of_lt_of_le lt (Nat.pow_le_pow_right (by omega) (List.length_take_le _ _))

theorem half_le (q : Request) (off : Nat) : q.h off ≤ 0xFFFF := Nat.le_of_lt_succ (field_lt q.payload off 2)

/-! One event in the version of a session (R123). -/

theorem raiseAs_history (version : BitVec 8) (code unit : Nat) (pl : List Byte) (urgent : Bool) (s : State) :
    ∃ e, (raiseAs version code unit pl urgent s).control.history.getLast? = some e ∧ e.code = code ∧ e.unit = unit ∧ e.payload = pl ∧
      e.version = version := by
  unfold raiseAs
  dsimp only
  rw [bump_control, remember_last]
  exact ⟨_, rfl, rfl, rfl, rfl, rfl⟩

theorem raiseAs_sessions (version : BitVec 8) (code unit : Nat) (pl : List Byte) (urgent : Bool) (s : State) :
    (raiseAs version code unit pl urgent s).control.sessions = s.control.sessions := by
  unfold raiseAs
  simp only [bump_control, remember, nextEventSeq, modControl_control, modSill_control]
  rw [flushLost_control 2, flushLost_control 1, flushLost_control 0]

/-! Changes of the sessions. -/

/-- A change of one session that keeps its number, as every session then reads. -/
theorem modSession_session_map (m : Nat) {f : Session → Session} (hf : ∀ x, (f x).number = x.number) (n : Nat) (s : State) :
    (modSession m f s).session n = (s.session n).map (fun x => if x.number = m then f x else x) := by
  have number (x : Session) : (if x.number = m then f x else x).number = x.number := by
    split
    · exact hf x
    · rfl
  have same : ((fun x : Session => x.number == n) ∘ fun x => if x.number = m then f x else x) = fun x => x.number == n :=
    funext fun x => by rw [Function.comp_apply, number]
  show List.find? _ (s.control.sessions.map _) = _
  rw [List.find?_map, same]
  rfl

/-- A session found has the number it was looked for by. -/
theorem session_number {s : State} {n : Nat} {x : Session} (h : s.session n = some x) : x.number = n :=
  beq_iff_eq.mp (List.find?_some (p := fun x : Session => x.number == n) h)

theorem dropSession_session (n : Nat) (s : State) : (dropSession n s).session n = none := by
  show List.find? _ (s.control.sessions.filter _) = none
  simp

theorem dropSession_session_other {n m : Nat} (h : m ≠ n) (s : State) : (dropSession n s).session m = s.session m := by
  show List.find? _ (s.control.sessions.filter _) = _
  rw [List.find?_filter]
  refine congrArg (List.find? · s.control.sessions) (funext fun x => ?_)
  by_cases hx : x.number = m
  · simp [hx, h]
  · simp [hx]

theorem session_of_sessions {s t : State} (h : t.control.sessions = s.control.sessions) (n : Nat) : t.session n = s.session n := by
  unfold State.session
  rw [h]

theorem closeSession_sessions (n c m : Nat) (s : State) : (closeSession n c s).session m = (dropSession n s).session m :=
  session_of_sessions (raiseAs_sessions _ _ _ _ _ _) m

theorem closeSession_session (n c : Nat) (s : State) : (closeSession n c s).session n = none :=
  (closeSession_sessions n c n s).trans (dropSession_session n s)

theorem closeSession_session_other {n m : Nat} (h : m ≠ n) (c : Nat) (s : State) : (closeSession n c s).session m = s.session m :=
  (closeSession_sessions n c m s).trans (dropSession_session_other h s)

/-- EV_SESSION_CLOSED says the cause. -/
theorem closeSession_lastEvent (n c : Nat) (s : State) :
    lastEvent (closeSession n c s) = some (0x1101, 0, be 2 n ++ be 1 c ++ zeros 1) := by
  obtain ⟨e, last, code, unit, payload, -⟩ :=
    raiseAs_history (s.sessionVersion n) 0x1101 0 (be 2 n ++ be 1 c ++ zeros 1) false (dropSession n s)
  unfold lastEvent closeSession
  rw [last, Option.map_some, code, unit, payload]

theorem closeSession_version (n c : Nat) (s : State) :
    (closeSession n c s).control.history.getLast?.map (fun e => e.version) = some (s.sessionVersion n) := by
  obtain ⟨e, last, -, -, -, version⟩ :=
    raiseAs_history (s.sessionVersion n) 0x1101 0 (be 2 n ++ be 1 c ++ zeros 1) false (dropSession n s)
  unfold closeSession
  rw [last, Option.map_some, version]

/-- R121: with nothing of its own left to reply, a session closes at once. -/
theorem endSession_now {n : Nat} {s : State} (idle : s.executing .control 0 n = false) (none_ : s.waitingOf n = 0) (c : Nat) :
    endSession n c s = closeSession n c s := by
  unfold endSession
  rw [idle, none_]
  rfl

theorem endSession_waits {n : Nat} {s : State} (busy : s.executing .control 0 n = true ∨ s.waitingOf n ≠ 0) (c : Nat) :
    endSession n c s = modSession n (fun x => { x with closing := some (c, s.waitingOf n) }) s :=
  if_pos (by simpa using busy)

/-! The expiries (R120, R121). -/

theorem sessionIdleExpiry_open {n : Nat} {x : Session} {s : State} (found : s.session n = some x) (open_ : x.awaiting = none) :
    sessionIdleExpiry n s = endSession n 2 s := by
  unfold sessionIdleExpiry
  rw [found]
  exact when_of_true (Option.isNone_iff_eq_none.mpr open_) _ s

theorem sessionAuthExpiry_awaiting {n : Nat} {x : Session} {s : State} (found : s.session n = some x) (awaits : x.awaiting ≠ none) :
    sessionAuthExpiry n s = closeSession n 4 s := by
  unfold sessionAuthExpiry
  rw [found]
  exact when_of_true (Option.isSome_iff_ne_none.mpr awaits) _ s

/-! Sessions once a command has been carried out. -/

/-- A reply is kept with the replies before it (R124). -/
def Session.keep (p : Packet) (x : Session) : Session := { x with replies := (x.replies ++ [p]).drop (x.replies.length + 1 - 4) }

theorem carriedOut_sessions {q : Request} (port : q.port = .control) (code : Nat) (st : Status) (pl : List Byte) (s : State) :
    ∃ p, (carriedOut code q st pl s).control.sessions =
      s.control.sessions.map (fun x => if x.number = q.session.toNat then x.keep p else x) := by
  refine ⟨replyPacket (journaledDone code q st s) (replyVersion q) code q.unit q.session q.seq st pl, ?_⟩
  rw [carriedOut_eq, answerKept_eq port]
  generalize replyPacket (journaledDone code q st s) (replyVersion q) code q.unit q.session q.seq st pl = p
  obtain ⟨out, held, h⟩ := putOut_control (journaledDone code q st s).control
    { packet := p, isReply := true, entry := some s.control.nextEntry }
  dsimp only [storeReply, modSession, modControl]
  rw [h, journaledDone_control]
  rfl

/-- A session after a command has been carried out is the one before, but for a reply that it keeps. -/
theorem carriedOut_session {q : Request} (port : q.port = .control) (code : Nat) (st : Status) (pl : List Byte) (s : State) :
    ∃ p, ∀ n, (carriedOut code q st pl s).session n =
      (s.session n).map (fun x => if x.number = q.session.toNat then x.keep p else x) := by
  obtain ⟨p, h⟩ := carriedOut_sessions port code st pl s
  refine ⟨p, fun n => ?_⟩
  rw [← modSession_session_map q.session.toNat (f := Session.keep p) (fun _ => rfl)]
  exact session_of_sessions h n

/-- What a command journals is DONE, so no request executes that did not before (R125). -/
theorem carriedOut_executing {q : Request} (port : q.port = .control) (code : Nat) (st : Status) (pl : List Byte) (s : State) (p : Port)
    (origin n : Nat) : (carriedOut code q st pl s).executing p origin n = s.executing p origin n := by
  obtain ⟨_, _, _, rest⟩ := carriedOut_rest port code st pl s
  unfold State.executing
  rw [rest]
  simp [newEntry]

theorem carriedOut_waitingOf {q : Request} (port : q.port = .control) (code : Nat) (st : Status) (pl : List Byte) (s : State) (n : Nat) :
    (carriedOut code q st pl s).waitingOf n = s.waitingOf n := by
  obtain ⟨_, _, _, rest⟩ := carriedOut_rest port code st pl s
  unfold State.waitingOf
  rw [rest]

/-! SESSION.OPEN (R118, R120). -/

/-- SESSION.OPEN and SESSION.AUTH, of session 0, once their own part has executed. -/
theorem takeRequest_done_ofSession0 {code : Nat} {q : Request} {body : Request → State → Reply} {s t : State} {st : Status}
    {pl : List Byte} {next : State → State} (row : opFits₀ code = true) (get : (opOf code).get = false)
    (h : takenWithoutSession code q s = true) (hb : body q (received code q s) = .done st pl t next) :
    takeRequest code q body s = next (carriedOut code q st pl t) := by
  rw [takeRequest_unsessioned row h, execute_set _ _ _ _ _ _ _ _ get hb, opFits₀_code row]
  rfl

theorem roleOf_code {c : Nat} (h1 : 1 ≤ c) (h3 : c ≤ 3) : (roleOf c).code = c := by
  obtain rfl | rfl | rfl : c = 1 ∨ c = 2 ∨ c = 3 := by omega
  · rfl
  · rfl
  · rfl

theorem roleOf_observer {c : Nat} (h1 : 1 ≤ c) (h3 : c ≤ 3) : roleOf c = .observer ↔ c = 3 := by
  obtain rfl | rfl | rfl : c = 1 ∨ c = 2 ∨ c = 3 := by omega
  · decide
  · decide
  · decide

/-- What a session is right after SESSION.OPEN. -/
structure Opened (q : Request) (n : Nat) (x : Session) : Prop where
  number : x.number = n
  role : x.role.code = q.b 0
  version : x.version = q.version
  idleS : x.idleS = if q.h 2 = 0 then 600 else q.h 2
  keySlot : x.keySlot = q.b 1
  awaiting : x.awaiting = none ↔ q.b 0 = 3

/-- A reply kept changes none of this. -/
theorem Opened.kept {q : Request} {n : Nat} {x : Session} (h : Opened q n x) (m : Nat) (p : Packet) :
    Opened q n (if x.number = m then x.keep p else x) := by
  split
  · exact ⟨h.number, h.role, h.version, h.idleS, h.keySlot, h.awaiting⟩
  · exact h

theorem sessionOpen_legal {q : Request} {s : State} (h1 : 1 ≤ q.b 0) (h3 : q.b 0 ≤ 3) (slot : q.b 1 ≤ 7) (plain : q.b 0 = 3 → q.b 1 = 0)
    (idle : q.h 2 = 0 ∨ 10 ≤ q.h 2) (room : s.control.sessions.length < 16) :
    ∃ x v pl, sessionOpen q s = .okWith pl v ∧ Opened q (nextNumber s) x ∧ v.sill.lastSession = nextNumber s ∧
      v.control.sessions = s.control.sessions ++ [x] := by
  have observer : (q.b 0 != 3 || q.b 1 == 0) = true := by
    by_cases h : q.b 0 = 3
    · simp [plain h]
    · simp [h]
  have idle' : (q.h 2 == 0 || decide (10 ≤ q.h 2)) = true := by simpa using idle
  unfold sessionOpen
  rw [checked_pass _ _ _ (by simp [inByte, h1, h3, slot, observer, idle']), require_pass _ _ _ (by simp [room])]
  by_cases role : roleOf (q.b 0) = .observer
  · simp only [role, if_true]
    exact ⟨_, _, _, rfl, ⟨rfl, role ▸ roleOf_code h1 h3, rfl, rfl, rfl, by simpa using (roleOf_observer h1 h3).mp role⟩, rfl, rfl⟩
  · simp only [role, if_false]
    exact ⟨_, _, _, rfl, ⟨rfl, roleOf_code h1 h3, rfl, rfl, rfl, by simpa using mt (roleOf_observer h1 h3).mpr role⟩, rfl, rfl⟩

/-- Leaving a receive buffer keeps the number of sessions. -/
theorem takeAt_sessions_length (i : Nat) (s : State) : (takeAt i s).control.sessions.length = s.control.sessions.length := by
  unfold takeAt
  split
  · rfl
  next r _ =>
    dsimp only
    split
    · simp [modSession]
    · simp [modSession]
    · rfl

theorem arrived_sessions_length (code : Nat) (q : Request) (s : State) :
    (arrived code q s).control.sessions.length = s.control.sessions.length := by
  unfold arrived
  split
  · exact takeAt_sessions_length _ s
  · rfl

/-! SESSION.AUTH (R120). -/

theorem IntakeOnly.authHolds {s u : State} (h : IntakeOnly s u) (q : Request) (x : Session) (nonce : List Byte) :
    authHolds q x nonce u = authHolds q x nonce s := by
  obtain ⟨_, _, e⟩ := h
  rw [e]
  rfl

theorem sessionAuth_legal {q : Request} {s : State} {x : Session} {nonce : List Byte} (h1 : 1 ≤ q.h 0) (hz : q.h 2 = 0)
    (found : s.session (q.h 0) = some x) (awaits : x.awaiting = some nonce) :
    (authHolds q x nonce s = true →
      sessionAuth q s = .okay (modSession x.number (fun y => { y with awaiting := none, nextSeq := 1 }) s)) ∧
    (authHolds q x nonce s = false → sessionAuth q s = .done .auth [] (authFailure 8 s) (closeSession x.number 5)) := by
  unfold sessionAuth authHolds
  rw [checked_pass _ _ _ (by simp [inHalf, resv, h1, half_le, isZero_of_half hz]), found]
  dsimp only
  rw [awaits]
  dsimp only
  refine ⟨fun holds => if_pos ?_, fun fails => if_neg ?_⟩
  · simpa [and_assoc] using holds
  · intro holds
    simp [holds] at fails

/-! The other commands. -/

theorem sessionClose_legal {q : Request} {s : State} {n : Nat} (hn : n = if q.h 0 = 0 then q.session.toNat else q.h 0)
    (port : q.port = .control) (hz : q.h 2 = 0) (found : (s.session n).isSome = true) :
    sessionClose q s = .okThen s (endSession n (if n = q.session.toNat then 1 else 3)) := by
  subst hn
  unfold sessionClose
  dsimp only
  rw [checked_pass _ _ _ (by simp [resv, found, isZero_of_half hz]), port]
  simp [Port.foreign]

theorem sessionGrantCounters_legal {q : Request} {s : State} {x : Session} (hz : q.h 2 = 0) (grant : q.w 4 ≤ 0xFFFFFF)
    (found : s.session (q.h 0) = some x) (role : x.role = .observer) (open_ : x.awaiting = none) :
    sessionGrantCounters q s = .okay (modSession (q.h 0) (fun x => { x with grants := q.w 4 }) s) := by
  unfold sessionGrantCounters
  rw [found]
  exact checked_pass _ _ _ (by simp [role, open_, resv, inWord, isZero_of_half hz, grant])

theorem sessionGetInfo_found {q : Request} {s : State} {x : Session} (found : s.session q.session.toNat = some x) :
    sessionGetInfo q s = .okWith (be 1 x.role.code ++ [x.version] ++ be 2 x.idleS ++ be 4 x.nextSeq.toNat ++ be 4 x.grants ++
      be 1 s.control.sessions.length ++ zeros 3) s := by
  unfold sessionGetInfo
  rw [found]

theorem sessionSetEvents_legal {q : Request} (route : q.b 0 ≤ 2) (hz : isZero q.payload 1 3 = true) (even : q.w 4 % 2 = 0)
    (mask : q.w 4 < 2 ^ 18) (s : State) :
    sessionSetEvents q s = .okThen s (modRoute (q.b 0) (fun r => { r with mask := BitVec.ofNat 32 (q.w 4) })) :=
  checked_pass _ _ _ (by simp [inByte, resv, route, hz, even] ; exact mask)

end Sys2Proof.Machine

open Sys2Proof Sys2Proof.Machine

/-- Settles O13: what each command's own part answers on legal fields, and what closing a session leaves. -/
theorem sessionCommandsComplete : Obligations.SessionCommandsComplete := by
  refine ⟨?open_, ?auth, ?close, ?grant, ?info, ?events, ?expiries, ?closed⟩
  case open_ =>
    intro q s h h1 h3 slot plain idle room
    have port := takenNow_port (takenWithoutSession_now h)
    obtain ⟨x, v, pl, body, opened, last, sessions⟩ := sessionOpen_legal (s := received 0x1101 q s) h1 h3 slot plain idle
      (by rw [received, arrived_sessions_length]; exact room)
    obtain ⟨p, kept⟩ := carriedOut_sessions port 0x1101 .ok pl v
    obtain ⟨number, role, version, idleS, keySlot, awaiting⟩ := opened.kept q.session.toNat p
    rw [sessions] at kept
    refine ⟨_, congrArg Host.Outcome.next (takeRequest_done_ofSession0 (by decide) (by decide) h body), ?_, ?_, _, ?_, number, role, version,
      idleS, keySlot, awaiting⟩
    · rw [id, carriedOut_sill port, last]
    · rw [id, kept, List.length_map, List.length_append, received, arrived_sessions_length, List.length_singleton]
    · rw [id, kept, List.map_append]
      exact List.mem_append_right _ List.mem_cons_self
  case auth =>
    intro q x nonce s h h1 hz found awaits
    have port := takenNow_port (takenWithoutSession_now h)
    have number := session_number found
    obtain ⟨accepts, refuses⟩ := sessionAuth_legal h1 hz found awaits
    rw [(received_intakeOnly h).authHolds] at accepts refuses
    cases holds : authHolds q x nonce s with
    | true =>
      refine ⟨_, congrArg Host.Outcome.next (takeRequest_done_ofSession0 (by decide) (by decide) h (accepts holds)), fun _ => ?_, nofun⟩
      obtain ⟨p, sessions⟩ := carriedOut_session port 0x1102 .ok []
        (modSession x.number (fun y => { y with awaiting := none, nextSeq := 1 }) (received 0x1102 q s))
      have other : x.number ≠ q.session.toNat := by
        rw [takenWithoutSession_session h, number]
        exact Nat.ne_of_gt h1
      rw [id, sessions, modSession_session_map _ (by intro; rfl), found, Option.map_some, if_pos rfl]
      exact congrArg some (if_neg other)
    | false =>
      refine ⟨_, congrArg Host.Outcome.next (takeRequest_done_ofSession0 (by decide) (by decide) h (refuses holds)), nofun, fun _ => ?_⟩
      rw [← number]
      exact ⟨closeSession_session _ _ _, closeSession_lastEvent _ _ _⟩
  case close =>
    intro q s h hz n cause u found
    have port := taken_port h
    have body : sessionClose q u = .okThen u (endSession n cause) := sessionClose_legal rfl port hz found
    have executing := carriedOut_executing port 0x1103 .ok [] u .control 0 n
    have waiting := carriedOut_waitingOf port 0x1103 .ok [] u n
    refine ⟨fun idle none_ => ⟨_, congrArg Host.Outcome.next (takeRequest_done (by decide) h body), ?_⟩, fun busy => ?_⟩
    · rw [endSession_now (executing.trans idle) (waiting.trans none_)]
      exact ⟨closeSession_session _ _ _, closeSession_lastEvent _ _ _⟩
    · obtain ⟨x, hx⟩ := Option.isSome_iff_exists.mp found
      obtain ⟨p, sessions⟩ := carriedOut_session port 0x1103 .ok [] u
      have waits : (endSession n cause (carriedOut 0x1103 q .ok [] u)).session n = some { (if x.number = q.session.toNat then x.keep p else x)
          with closing := some (cause, u.waitingOf n) } := by
        rw [endSession_waits (by rw [executing, waiting]; exact busy), waiting, modSession_session _ _ (by intro; rfl), sessions, hx]
        rfl
      exact ⟨_, _, congrArg Host.Outcome.next (takeRequest_done (by decide) h body), waits, rfl⟩
  case grant =>
    exact fun q x s h hz grant found role open_ => congrArg Host.Outcome.next
      (takeRequest_completes (by decide) h (sessionGrantCounters_legal hz grant found role open_))
  case info =>
    exact fun q x s h found => congrArg Host.Outcome.next (takeRequest_get (by decide) h (sessionGetInfo_found found))
  case events =>
    exact fun q s h route hz even mask => congrArg Host.Outcome.next
      (takeRequest_done (by decide) h (sessionSetEvents_legal route hz even mask _))
  case expiries =>
    intro n x s found
    refine ⟨fun open_ idle none_ => congrArg Host.Outcome.next ?_, fun open_ busy => congrArg Host.Outcome.next ?_,
      fun awaits => congrArg Host.Outcome.next (sessionAuthExpiry_awaiting found awaits)⟩
    · rw [sessionIdleExpiry_open found open_, endSession_now idle none_]
    · rw [sessionIdleExpiry_open found open_, endSession_waits busy]
  case closed =>
    exact fun n c s => ⟨closeSession_session n c s, fun m h => closeSession_session_other h c s, closeSession_lastEvent n c s,
      closeSession_version n c s⟩

end

section
/-! PROOFS. One carrier frame sent (R209 to R227) or received (R230), a decoded codeword (R232, R236), and the FEC commands (R238, R239). -/

-- One theorem after another: with a thread for each, the package as one text outgrows the checker's memory limit.
set_option Elab.async false

namespace Sys2Proof.Machine

/-! A carrier unit, and what counting leaves. -/

@[simp] theorem modCu_cu (u : Nat) (f : CarrierUnit → CarrierUnit) (s : State) : (modCu u f s).cu u = f (s.cu u) :=
  tblGet_mod_same _ _ _ _

theorem cu_of_carrier {s t : State} (h : t.carrier = s.carrier) (u : Nat) : t.cu u = s.cu u := by unfold State.cu; rw [h]

@[simp] theorem bump_cu (fam inst ev n : Nat) (s : State) (u : Nat) : (bump fam inst ev n s).cu u = s.cu u :=
  cu_of_carrier (bump_only fam inst ev n s .carrier rfl) u

theorem cu_ite (c : Prop) [Decidable c] (s t : State) (u : Nat) : (if c then s else t).cu u = if c then s.cu u else t.cu u := by
  split <;> rfl

@[simp] theorem calBoundary_cu (u : Nat) (tx fresh : Bool) (s : State) (v : Nat) : (calBoundary u tx fresh s).cu v = s.cu v :=
  cu_of_carrier (calBoundary_only u tx fresh s .carrier rfl) v

@[simp] theorem tagCodeword_cu (u : Nat) (f : Format) (w : Decoded) (n : Nat) (b : Bool) (s : State) (v : Nat) :
    (tagCodeword u f w n b s).cu v = s.cu v := cu_of_carrier (tagCodeword_only u f w n b s .carrier rfl) v

/-! Counts of the running second (R445, R446). -/

theorem live_of_counters {s t : State} (h : t.counters = s.counters) (fam inst ev : Nat) : t.live fam inst ev = s.live fam inst ev := by
  unfold State.live; rw [h]

/-- Where something is counted, the places of the running second are those that `bump` writes. -/
theorem bump_live (fam inst ev : Nat) {n : Nat} (hn : n ≠ 0) (s : State) (f i e : Nat) :
    (bump fam inst ev n s).live f i e = tblGet 0 (tblMod 0 s.counters.live (pmKey fam inst ev) (· + n)) (pmKey f i e) := by
  unfold bump; rw [if_neg hn]; rfl

@[simp] theorem bump_live_same (fam inst ev n : Nat) (s : State) :
    (bump fam inst ev n s).live fam inst ev = s.live fam inst ev + n := by
  by_cases hn : n = 0
  · subst hn; rfl
  · rw [bump_live fam inst ev hn, tblGet_mod_same]; rfl

theorem pmKey_ne {fam inst ev f i e : Nat} (h : e % 128 ≠ ev % 128) : pmKey f i e ≠ pmKey fam inst ev := by unfold pmKey; omega

/-- Counting one event leaves the counts of every other event, in whatever family and place. -/
@[simp] theorem bump_live_other {ev e : Nat} (h : e % 128 ≠ ev % 128) (fam inst n f i : Nat) (s : State) :
    (bump fam inst ev n s).live f i e = s.live f i e := by
  by_cases hn : n = 0
  · subst hn; rfl
  · rw [bump_live fam inst ev hn, tblGet_mod_other _ _ (pmKey_ne h)]; rfl

/-- Raising events counts them, as event 9 of the device (R462), and counts nothing else. -/
theorem raise_live {e : Nat} (h : e % 128 ≠ 9) (code unit : Nat) (pl : List Byte) (urgent : Bool) (f i : Nat) (s : State) :
    (raise code unit pl urgent s).live f i e = s.live f i e := by
  have flushed (k : Nat) (s : State) : (flushLost k s).live f i e = s.live f i e := by
    unfold flushLost
    dsimp only
    split
    · rfl
    · exact bump_live_other h ..
  unfold raise raiseAs
  dsimp only
  rw [bump_live_other h, live_of_counters (s := flushLost 2 (flushLost 1 (flushLost 0 s)))
    (by simp only [remember, nextEventSeq, modControl_counters, modSill_counters]), flushed, flushed, flushed]

/-! A calibration boundary (R156): it counts no event but those raised, and leaves the blocks running. -/

theorem endRound_live {e : Nat} (h : e % 128 ≠ 9) (u f i : Nat) (s : State) : (endRound u s).live f i e = s.live f i e := by
  unfold endRound
  dsimp only
  split
  · rfl
  · split
    · exact raise_live h ..
    · rfl

theorem calBoundary_live {e : Nat} (h : e % 128 ≠ 9) (u : Nat) (tx fresh : Bool) (f i : Nat) (s : State) :
    (calBoundary u tx fresh s).live f i e = s.live f i e :=
  (endRound_live h u f i _).trans (live_of_counters
    ((replyOverlays_only u _ .counters rfl).trans (stepTrims_only u tx fresh _ _ .counters rfl)) f i e)

/-- The command protocol's record that STAGE has reached RUN stays through a deferred reply. -/
theorem completeEntry_everRun (id : Nat) (st : Status) (pl : List Byte) (s : State) :
    (completeEntry id st pl s).control.everRun = s.control.everRun := by
  have put (port : Port) (origin : Nat) (p : Packet) (entry : Option Nat) (s : State) :
      (putReply port origin p entry s).control.everRun = s.control.everRun := by
    cases port with
    | control =>
      obtain ⟨out, held, e⟩ := putOut_control s.control { packet := p, isReply := true, entry }
      change (s.control.putOut _).everRun = _
      rw [e]
    | stream => rfl
    | tenon n => rfl
  have keep (port : Port) (n : Nat) (p : Packet) (s : State) : (keepReply port n p s).control.everRun = s.control.everRun := by
    unfold keepReply; split <;> rfl
  unfold completeEntry finishEntry
  split
  · split
    · rfl
    · dsimp only
      split
      · rfl
      · rw [keep, put, digestCommand_only _ _ _ _ _ .control rfl]
        rfl
  · rfl

theorem endRound_hold (u : Nat) (s : State) : (endRound u s).sill.hold = s.sill.hold := by
  unfold endRound
  dsimp only
  split
  · rfl
  · split
    · rw [raise_sill]; rfl
    · rfl

theorem endRound_everRun (u : Nat) (s : State) : (endRound u s).control.everRun = s.control.everRun := by
  unfold endRound
  dsimp only
  split
  · rfl
  · split
    · rw [raise_control]; rfl
    · rfl

theorem replyOverlays_everRun (u : Nat) (s : State) : (replyOverlays u s).control.everRun = s.control.everRun :=
  forEach_keeps (fun s => s.control.everRun) (fun _ _ => completeEntry_everRun _ _ _ _) _ s

theorem calBoundary_blocksRun (u : Nat) (tx fresh : Bool) (s : State) : (calBoundary u tx fresh s).blocksRun = s.blocksRun := by
  unfold calBoundary State.blocksRun State.hubUp
  dsimp only
  rw [endRound_hold, endRound_everRun, replyOverlays_everRun, replyOverlays_only _ _ .sill rfl, stepTrims_only _ _ _ _ _ .sill rfl,
    stepTrims_only _ _ _ _ _ .control rfl, modCal_sill, modCal_control]

/-- Whether the transmit chain runs is read from the blocks, the pins, the domain and the unit's enable and calibration. -/
theorem txRuns_congr {s t : State} {u : Nat} (blocks : t.blocksRun = s.blocksRun) (pins : t.pins = s.pins) (power : t.power = s.power)
    (enable : (t.cu u).txEn = (s.cu u).txEn) (calibrated : (t.cu u).txCalibrated = (s.cu u).txCalibrated) : t.txRuns u = s.txRuns u := by
  unfold State.txRuns State.trafficRuns
  rw [blocks, pins, dom_of_power power, enable, calibrated]

theorem calBoundary_txRuns (u : Nat) (tx fresh : Bool) (s : State) (v : Nat) : (calBoundary u tx fresh s).txRuns v = s.txRuns v :=
  txRuns_congr (calBoundary_blocksRun u tx fresh s) (calBoundary_only u tx fresh s .pins rfl) (calBoundary_only u tx fresh s .power rfl)
    (by rw [calBoundary_cu]) (by rw [calBoundary_cu])

/-- A change of a unit that leaves its enable and its calibration. -/
theorem modCu_txRuns {f : CarrierUnit → CarrierUnit} (u : Nat) (s : State) (enable : ∀ c, (f c).txEn = c.txEn := by intro; rfl)
    (calibrated : ∀ c, (f c).txCalibrated = c.txCalibrated := by intro; rfl) : (modCu u f s).txRuns u = s.txRuns u :=
  txRuns_congr rfl rfl rfl (by rw [modCu_cu, enable]) (by rw [modCu_cu, calibrated])

/-! Sending (R172, R203, R204, R209, R239). -/

/-- A unit after a transmit frame boundary for which no format and no disable waits. -/
def CarrierUnit.atTxBoundary (mute : Bool) (c : CarrierUnit) : CarrierUnit :=
  { c with dspTx := c.dsp, muted := mute, injectGroup := if c.injectForce = c.inject then c.injectGroup else 0, injectForce := c.inject }

theorem txBoundary_nothingWaits {u : Nat} {s : State} (format : (s.cu u).dueTx = none) (stays : (s.cu u).txOff = false)
    (steady : s.coreRising = false) : txBoundary u s = modCu u (CarrierUnit.atTxBoundary (s.muteDue u)) s := by
  have kept : ((modCu u (CarrierUnit.atTxBoundary (s.muteDue u)) s).cu u).txOff = false := by rw [modCu_cu]; exact stays
  unfold txBoundary
  simp only [format, steady, Bool.false_eq_true, if_false]
  exact if_neg (by rw [Bool.not_eq_true]; exact kept)

/-- The state in which a running transmit builds its frame, where nothing waits for the boundary before it. -/
def readyToSend (u : Nat) (s : State) : State := calBoundary u true true (modCu u (CarrierUnit.atTxBoundary (s.muteDue u)) s)

theorem readyToSend_cu (u : Nat) (s : State) : (readyToSend u s).cu u = (s.cu u).atTxBoundary (s.muteDue u) := by
  unfold readyToSend; rw [calBoundary_cu, modCu_cu]

theorem readyToSend_txRuns (u : Nat) (s : State) : (readyToSend u s).txRuns u = s.txRuns u :=
  (calBoundary_txRuns ..).trans (modCu_txRuns ..)

theorem readyToSend_live {e : Nat} (h : e % 128 ≠ 9) (u f i : Nat) (s : State) : (readyToSend u s).live f i e = s.live f i e :=
  calBoundary_live h ..

theorem readyToSend_muted {u : Nat} {s : State} (mute : s.muteDue u = true) : (readyToSend u s).txLive u = false := by
  unfold State.txLive
  rw [readyToSend_cu]
  exact Bool.and_eq_false_iff.mpr (.inr (by rw [CarrierUnit.atTxBoundary, mute]; rfl))

theorem acfFrameTx_nothingWaits {u : Nat} {f : Format} {s : State} (runs : s.txRuns u = true) (format : (s.cu u).fmtTx = some f)
    (due : (s.cu u).dueTx = none) (stays : (s.cu u).txOff = false) (steady : s.coreRising = false) (clipped : Nat) :
    acfFrameTx u clipped s = if f.lineMode = 0 then sendFrame u f (readyToSend u s) else bump pmCu u 0 clipped (readyToSend u s) := by
  have inForce : ((readyToSend u s).cu u).fmtTx = some f := by rw [readyToSend_cu]; exact format
  have on : (readyToSend u s).txRuns u = true := (readyToSend_txRuns u s).trans runs
  unfold readyToSend at on inForce ⊢
  unfold acfFrameTx
  simp only [txBoundary_nothingWaits due stays steady, runs, on, inForce, Bool.not_true, Bool.false_eq_true, if_false]

/-- A frame of a native format: one more is counted, settings and mute stay, and a transmit that is not live shows no symbol. -/
theorem sendFrame_cu (u : Nat) (f : Format) (s : State) :
    ((sendFrame u f s).cu u).txFrames = (s.cu u).txFrames + 1 ∧ ((sendFrame u f s).cu u).dspTx = (s.cu u).dspTx ∧
      ((sendFrame u f s).cu u).muted = (s.cu u).muted ∧
      (s.txLive u = false → ((sendFrame u f s).cu u).line = [] ∧ ((sendFrame u f s).cu u).dac = []) := by
  have drawn (n : Nat) (t : State) : State.cu { t with fresh := n } u = t.cu u := rfl
  unfold sendFrame
  simp only [bump_cu, cu_ite, drawn, ite_self, modCu_cu, true_and]
  intro off
  simp only [off, Bool.false_eq_true, if_false, and_self]

/-! Receiving in FRAME (R230). -/

theorem candidateHeader_good {c : CarrierUnit} (good : c.rxHeaderGood = true) (f : Format) (seen : AcfSeen) :
    candidateHeader f seen c = nextCounters f c.rxFrameCnt c.rxScPhase c := by
  unfold candidateHeader
  split
  · rw [good, Bool.not_true, Bool.and_false, if_neg Bool.false_ne_true]
  · rfl

theorem judgeCandidate_good {u : Nat} {s : State} (third : (s.cu u).rxVerify = 3) (good : (s.cu u).rxHeaderGood = true) :
    judgeCandidate u s = modCu u (fun c => { c with rxAligned := true }) s := by
  unfold judgeCandidate
  rw [if_neg (by rw [third]; decide), if_pos good]

/-- The third trained frame of a candidate with a good header aligns. -/
theorem verifyFrame_third {u : Nat} {seen : AcfSeen} {s : State} (hunts : (s.cu u).rxAligned = false) (second : (s.cu u).rxVerify = 2)
    (good : (s.cu u).rxHeaderGood = true) (trained : seen.training = true) (f : Format) :
    ((verifyFrame u f seen s).cu u).rxAligned = true ∧ ((verifyFrame u f seen s).cu u).acq = (s.cu u).acq := by
  unfold verifyFrame
  rw [if_neg (by rw [hunts]; exact Bool.false_ne_true), if_pos trained]
  rw [judgeCandidate_good, modCu_cu, modCu_cu, modCu_cu, candidateHeader_good good]
  · exact ⟨rfl, rfl⟩
  · rw [modCu_cu, modCu_cu, candidateHeader_good good]
    exact congrArg (· + 1) second
  · rw [modCu_cu, modCu_cu, candidateHeader_good good]
    exact good

theorem acfFrameRx_frame_native {u : Nat} {f : Format} {s : State} (runs : s.trafficRuns = true) (frame : (s.cu u).acq = 6)
    (format : (s.cu u).fmtRx = some f) (native : f.lineMode = 0) (seen : AcfSeen) :
    ∃ t, acfFrameRx u seen s = verifyFrame u f seen t ∧ t.cu u = nextCodewords (s.cu u) := by
  refine ⟨modCu u nextCodewords (calBoundary u false false (bump pmCu u 4 seen.slips s)), ?_, by rw [modCu_cu, calBoundary_cu, bump_cu]⟩
  unfold acfFrameRx
  simp only [runs, frame, format, native, Bool.not_true, Bool.false_eq_true, if_false, if_true]

/-! Receiving in TRACKING (R230, R231). -/

/-- What a frame received in TRACKING leaves once it is counted and its training judged: the stage, the training and the count of
frames (event 16, R240). -/
structure TrackingKept (u : Nat) (s t : State) : Prop where
  acq : (t.cu u).acq = (s.cu u).acq
  training : (t.cu u).rxTrainFails = (s.cu u).rxTrainFails
  frames : t.live pmCu u 16 = s.live pmCu u 16

namespace TrackingKept

variable {u : Nat} {s t v : State}

theorem refl (u : Nat) (s : State) : TrackingKept u s s := ⟨rfl, rfl, rfl⟩

theorem trans (a : TrackingKept u s t) (b : TrackingKept u t v) : TrackingKept u s v :=
  ⟨b.acq.trans a.acq, b.training.trans a.training, b.frames.trans a.frames⟩

/-- Counting another event. -/
theorem bump {fam inst ev n : Nat} (a : TrackingKept u s t) (h : 16 % 128 ≠ ev % 128 := by decide) :
    TrackingKept u s (Machine.bump fam inst ev n t) :=
  a.trans ⟨by rw [bump_cu], by rw [bump_cu], bump_live_other h ..⟩

/-- A change of the unit that leaves its stage and its training. -/
theorem modCu {f : CarrierUnit → CarrierUnit} (a : TrackingKept u s t) (acq : ∀ c, (f c).acq = c.acq := by intro; rfl)
    (training : ∀ c, (f c).rxTrainFails = c.rxTrainFails := by intro; rfl) : TrackingKept u s (Machine.modCu u f t) :=
  a.trans ⟨by rw [modCu_cu, acq], by rw [modCu_cu, training], rfl⟩

theorem ite {c : Prop} [Decidable c] (a : TrackingKept u s t) (b : TrackingKept u s v) : TrackingKept u s (if c then t else v) := by
  split
  · exact a
  · exact b

/-- A change of neither the carrier units nor the counters. -/
theorem ofFrame (a : TrackingKept u s t) {ps : List Part} (h : OnlyChanges ps t v) (carrier : ps.contains .carrier = false)
    (counters : ps.contains .counters = false) : TrackingKept u s v :=
  have same : v.cu u = t.cu u := cu_of_carrier (h .carrier carrier) u
  a.trans ⟨by rw [same], by rw [same], live_of_counters (h .counters counters) _ _ _⟩

end TrackingKept

theorem inFrameHeader_keeps (u : Nat) (f : Format) (seen : AcfSeen) (s : State) : TrackingKept u s (inFrameHeader u f seen s) := by
  have kept := TrackingKept.refl u s
  unfold inFrameHeader
  dsimp only
  generalize frameCounters f seen (s.cu u) = k
  refine TrackingKept.modCu ?_
  cases readHeader f seen.header with
  | none =>
    have failed : TrackingKept u s (bump pmCu u 18 1 s) := kept.bump
    exact .ite (.bump (.modCu failed)) failed
  | some x =>
    refine .ite (.bump (.modCu ?_)) ?_ <;> exact kept.modCu

theorem inFrameOverhead_keeps (u room : Nat) (f : Format) (oh : Option (List Byte)) (s : State) :
    TrackingKept u s (inFrameOverhead u room f oh s).2 := by
  have kept := TrackingKept.refl u s
  have failed (a : Bool) : TrackingKept u s (if a then bump pmCu u 19 1 s else s) := .ite kept.bump kept
  unfold inFrameOverhead
  dsimp only
  generalize oh.filter (fun b => (crc32c (b.take 12)).toNat == u32 b 12) = good
  cases good <;> exact .modCu (.modCu (.ite (.bump (failed _)) (failed _)))

theorem readAcf_keeps (u : Nat) (f : Format) (info : List (Option Bool)) (s : State) : TrackingKept u s (readAcf u f info s) := by
  unfold readAcf
  exact (inFrameOverhead_keeps ..).modCu

theorem readAcfs_keeps (u : Nat) (f : Format) : ∀ (n : Nat) (s : State), TrackingKept u s (readAcfs u f n s)
  | 0, s => TrackingKept.refl u s
  | n + 1, s => by
    have kept := TrackingKept.refl u s
    unfold readAcfs
    split
    · exact kept
    · split
      · exact kept
      · refine .trans (.trans ?_ (readAcf_keeps ..)) (readAcfs_keeps u f n _)
        exact kept.modCu

theorem decodeFrame_keeps (u : Nat) (f : Format) (phase : Nat) (s : State) : TrackingKept u s (decodeFrame u f phase s) := by
  unfold decodeFrame
  dsimp only
  obtain ⟨seg, bad⟩ := frameSegment f (s.cu u).decided
  refine .trans (.modCu ?_) (readAcfs_keeps ..)
  exact .bump (.bump (.bump (.refl u s)))

theorem daeFrame_keeps (u : Nat) (s : State) : TrackingKept u s (daeFrame u s) := by
  have kept := TrackingKept.refl u s
  unfold daeFrame
  dsimp only
  refine .ite kept (.ite ?_ (.ite (.bump ?_) ?_)) <;> exact kept.modCu

/-- A frame received in TRACKING is counted, and its training judged. -/
theorem inFrame_counts (u : Nat) (f : Format) (seen : AcfSeen) (s : State) :
    (inFrame u f seen s).live pmCu u 16 = s.live pmCu u 16 + 1 ∧ ((inFrame u f seen s).cu u).acq = (s.cu u).acq ∧
      ((inFrame u f seen s).cu u).rxTrainFails = if seen.training then 0 else (s.cu u).rxTrainFails + 1 := by
  have rest (t : State) : TrackingKept u t (modCu u nextCodewords (daeFrame u (pairSkew u seen
      (decodeFrame u f (frameCounters f seen (s.cu u)).2.1 (inFrameHeader u f seen t))))) := by
    refine .modCu (.trans (.ofFrame ?_ (pairSkew_only _ _ _) rfl rfl) (daeFrame_keeps ..))
    exact (inFrameHeader_keeps ..).trans (decodeFrame_keeps ..)
  unfold inFrame
  refine ⟨(rest _).frames.trans (bump_live_same ..), (rest _).acq.trans ?_, (rest _).training.trans ?_⟩ <;> rw [modCu_cu, bump_cu]

/-! The receive frame boundary (R195, R196, R205). -/

theorem fallbackPair_live {e : Nat} (h9 : e % 128 ≠ 9) (h5 : e % 128 ≠ 5) (p cause f i : Nat) (s : State) :
    (fallbackPair p cause s).live f i e = s.live f i e := by
  unfold fallbackPair
  dsimp only
  split
  · rfl
  · rw [raise_live h9, bump_live_other h5, bump_live_other h5]; rfl

/-- The order last commanded acts on the unit, whose other settings stay. -/
theorem applyOrder_cu (u : Nat) (s : State) : (applyOrder u s).cu u = { s.cu u with order := s.joinery.order } := by
  unfold applyOrder
  split
  next same => rw [← same]
  next =>
    refine (forEach_keeps (fun s => s.cu u) (fun p s => ?_) _ _).trans (modCu_cu ..)
    rw [cu_ite, cu_of_carrier (fallbackPair_only p 5 s .carrier rfl), ite_self]

theorem applyOrder_live {e : Nat} (h9 : e % 128 ≠ 9) (h5 : e % 128 ≠ 5) (u f i : Nat) (s : State) :
    (applyOrder u s).live f i e = s.live f i e := by
  unfold applyOrder
  split
  · rfl
  · refine (forEach_keeps (fun s => s.live f i e) (fun p s => ?_) _ _).trans rfl
    split
    · rfl
    · exact fallbackPair_live h9 h5 ..

/-- A receive boundary for which no format, no settings and no disable wait: the order alone applies. -/
theorem rxBoundary_nothingWaits {u : Nat} {s : State} (format : (s.cu u).dueRx = none) (settings : (s.cu u).dspRx = (s.cu u).dsp)
    (stays : (s.cu u).rxOff = false) : rxBoundary u s = settleTerms u (applyOrder u s) := by
  have unit : (settleTerms u (applyOrder u s)).cu u = { s.cu u with order := s.joinery.order } :=
    (cu_of_carrier (settleTerms_only u _ .carrier rfl) u).trans (applyOrder_cu u s)
  unfold rxBoundary
  simp only [unit, format, settings, stays, true_or, Bool.false_eq_true, if_true, if_false]

theorem rxBoundary_keeps {u : Nat} {s : State} (format : (s.cu u).dueRx = none) (settings : (s.cu u).dspRx = (s.cu u).dsp)
    (stays : (s.cu u).rxOff = false) : (rxBoundary u s).cu u = { s.cu u with order := s.joinery.order } ∧
      (rxBoundary u s).live pmCu u 16 = s.live pmCu u 16 := by
  rw [rxBoundary_nothingWaits format settings stays, cu_of_carrier (settleTerms_only u _ .carrier rfl),
    live_of_counters (settleTerms_only u _ .counters rfl)]
  exact ⟨applyOrder_cu u s, applyOrder_live (by decide) (by decide) ..⟩

theorem acfFrameRx_tracking_native {u : Nat} {f : Format} {s : State} (runs : s.trafficRuns = true) (tracking : (s.cu u).acq = 7)
    (format : (s.cu u).fmtRx = some f) (native : f.lineMode = 0) (due : (s.cu u).dueRx = none) (settings : (s.cu u).dspRx = (s.cu u).dsp)
    (stays : (s.cu u).rxOff = false) (seen : AcfSeen) :
    ∃ t, acfFrameRx u seen s = inFrame u f seen t ∧ t.cu u = { s.cu u with order := s.joinery.order } ∧
      t.live pmCu u 16 = s.live pmCu u 16 := by
  obtain ⟨unit, frames⟩ := rxBoundary_keeps (s := bump pmCu u 4 seen.slips s) (by rw [bump_cu]; exact due)
    (by rw [bump_cu]; exact settings) (by rw [bump_cu]; exact stays)
  rw [bump_cu, bump_only pmCu u 4 seen.slips s .joinery rfl] at unit
  rw [bump_live_other (by decide)] at frames
  refine ⟨calBoundary u false true (rxBoundary u (bump pmCu u 4 seen.slips s)), ?_, (calBoundary_cu ..).trans unit,
    (calBoundary_live (by decide) ..).trans frames⟩
  unfold acfFrameRx
  rw [runs, Bool.not_true, if_neg Bool.false_ne_true, if_neg (by rw [tracking]; decide), if_pos tracking]
  simp only [calBoundary_cu, unit, format, tracking, native, and_self, if_true]

/-! Decoding (R232, R236, R240). -/

/-- A codeword counts itself, its bits changed and whether it converged; its iterations (event 12) are counted apart. -/
theorem countCodeword_live (u bits changed : Nat) (converged : Bool) (s : State) :
    (countCodeword u bits changed converged s).live pmCu u 10 = s.live pmCu u 10 + 1 ∧
      (countCodeword u bits changed converged s).live pmCu u 9 = s.live pmCu u 9 + changed ∧
      (countCodeword u bits changed converged s).live pmCu u 11 = s.live pmCu u 11 + (if converged then 0 else 1) ∧
      (countCodeword u bits changed converged s).live pmCu u 12 = s.live pmCu u 12 := by
  unfold countCodeword
  cases converged <;> simp [b2n]

theorem countCodeword_cu (u bits changed : Nat) (converged : Bool) (s : State) (v : Nat) :
    (countCodeword u bits changed converged s).cu v = s.cu v :=
  cu_of_carrier (countCodeword_only u bits changed converged s .carrier rfl) v

/-- A tag record is counted in the counting unit alone. -/
theorem tagCodeword_live (u : Nat) (f : Format) (w : Decoded) (n : Nat) (b : Bool) (s : State) (fam i e : Nat) :
    (tagCodeword u f w n b s).live fam i e = s.live fam i e := by
  have drawn (k : Nat) (s : State) : (drawPick k s).2.live fam i e = s.live fam i e := by unfold drawPick; split <;> rfl
  unfold tagCodeword
  dsimp only
  split
  · rfl
  · split
    · exact drawn ..
    · exact drawn ..

theorem afterCodeword_counts (f : Format) (w : Decoded) (r : Received) (d : Decision) (c : CarrierUnit) :
    (afterCodeword f w r d c).cwTotal = c.cwTotal + 1 ∧
      tblGet [] (afterCodeword f w r d c).decided (4 * w.group + w.codeword) = d.bits := by
  unfold afterCodeword
  dsimp only
  split <;> exact ⟨rfl, tblGet_set_same ..⟩

theorem codewordDecoded_agreement {u : Nat} {w : Decoded} {f : Format} {s : State} (runs : s.trafficRuns = true)
    (tracking : (s.cu u).acq = 7) (format : (s.cu u).fmtRx = some f) (whole : w.incomplete = false) (agreed : f.lineMode ≠ 0) :
    codewordDecoded u w s = countCodeword u w.bits w.changed w.converged s := by
  unfold codewordDecoded
  simp only [format, runs, agreed, tracking, whole, Bool.not_true, Bool.not_false, Bool.false_eq_true, ne_eq, not_false_eq_true, and_self,
    if_true, if_false]

theorem codewordDecoded_native {u : Nat} {w : Decoded} {f : Format} {s : State} (runs : s.trafficRuns = true)
    (tracking : (s.cu u).acq = 7) (format : (s.cu u).fmtRx = some f) (whole : w.incomplete = false) (native : f.lineMode = 0) :
    codewordDecoded u w s =
      let x := decodeCodeword u f w s
      tagCodeword u f w x.2.2.iterations x.2.2.converged (bump pmCu u 12 x.2.2.iterations
        (countCodeword u (f.codedBits / f.c) (changedBits x.1 x.2.2.bits) x.2.2.converged (modCu u (afterCodeword f w x.2.1 x.2.2) s))) := by
  unfold codewordDecoded
  simp only [format, runs, native, tracking, whole, Bool.not_true, Bool.false_eq_true, ne_eq, not_true_eq_false, if_false]

/-! The FEC commands (R238, R239). -/

theorem admitted_cu (code : Nat) (q : Request) (s : State) (u : Nat) : (admitted code q s).cu u = s.cu u :=
  cu_of_carrier (admitted_only code q s .carrier rfl) u

theorem countsReply_of_counters {s t : State} (h : t.counters = s.counters) (fam inst start n : Nat) :
    countsReply t fam inst start n = countsReply s fam inst start n := by unfold countsReply State.latched; rw [h]

theorem unitBelow_pass {q : Request} {n : Nat} (h : q.u < n) : [unitBelow q n].all (fun c => c.1) = true := by simp [unitBelow, h]

theorem fecGetFrameInfo_native {q : Request} {f : Format} {s : State} (unit : q.u < 4) (format : (s.cu q.u).fmt = some f)
    (native : f.lineMode = 0) : fecGetFrameInfo q s = .okWith (be 1 f.c ++ be 1 f.mu ++ be 2 f.wg ++ be 2 f.groups ++ be 2 f.pad ++
      be 4 f.t ++ be 4 f.eMax ++ be 4 f.dg ++ be 4 f.capMbps ++ be 1 f.maxN ++ zeros 3) s := by
  unfold fecGetFrameInfo
  rw [checked_pass _ _ _ (unitBelow_pass unit), format]
  exact if_neg (not_not_intro native)

theorem fecGetFrameInfo_agreement {q : Request} {f : Format} {s : State} (unit : q.u < 4) (format : (s.cu q.u).fmt = some f)
    (agreed : f.lineMode ≠ 0) : fecGetFrameInfo q s = .refuse .state s := by
  unfold fecGetFrameInfo
  rw [checked_pass _ _ _ (unitBelow_pass unit), format]
  exact if_pos agreed

theorem fecGetCounts_below {q : Request} (unit : q.u < 4) (s : State) : fecGetCounts q s = .okWith (countsReply s pmCu q.u 8 15) s :=
  checked_pass _ _ _ (unitBelow_pass unit)

/-- The fields of FEC.SET_INJECT in the ranges of R239: RATE_EXP for MODE 1 alone, PERIOD for MODE 2 alone. -/
structure InjectLegal (q : Request) : Prop where
  unit : q.u < 4
  mode : q.b 0 ≤ 2
  rate : q.b 0 = 1 → 2 ≤ q.b 1 ∧ q.b 1 ≤ 12
  noRate : q.b 0 ≠ 1 → q.b 1 = 0
  reserved : q.h 2 = 0
  period : q.b 0 = 2 ↔ q.w 4 ≠ 0

/-- On a running transmit the injection waits for the next frame boundary. -/
theorem fecSetInject_running {q : Request} {s : State} (legal : InjectLegal q) (enabled : (s.cu q.u).txEn = true)
    (native : ∀ f, (s.cu q.u).fmt = some f → f.lineMode = 0) (runs : s.txRuns q.u = true) :
    fecSetInject q s = .okay (modCu q.u (fun c => { c with inject := ⟨q.b 0, q.b 1, q.w 4⟩ }) s) := by
  have rate : (if q.b 0 = 1 then decide (2 ≤ q.b 1 ∧ q.b 1 ≤ 12) else q.b 1 == 0) = true := by
    split
    next one => exact decide_eq_true (legal.rate one)
    next other => exact beq_iff_eq.mpr (legal.noRate other)
  have period : (if q.b 0 = 2 then q.w 4 != 0 else q.w 4 == 0) = true := by
    split
    next two => exact bne_iff_ne.mpr (legal.period.mp two)
    next other => exact beq_iff_eq.mpr (Decidable.not_not.mp (mt legal.period.mpr other))
  have format : (match (s.cu q.u).fmt with | some f => f.lineMode == 0 | none => true) = true := by
    split
    next f h => exact beq_iff_eq.mpr (native f h)
    next => rfl
  have waits : settleTx q.u (modCu q.u (fun c => { c with inject := ⟨q.b 0, q.b 1, q.w 4⟩ }) s) =
      modCu q.u (fun c => { c with inject := ⟨q.b 0, q.b 1, q.w 4⟩ }) s := by
    unfold settleTx
    exact if_pos ((modCu_txRuns ..).trans runs)
  unfold fecSetInject
  dsimp only
  rw [checked_pass _ _ _ (by
      simp only [List.all_cons, List.all_nil, unitBelow, inByte, resv, rate, period, isZero_of_half legal.reserved, legal.unit, legal.mode,
        Nat.zero_le, and_self, decide_true, Bool.and_self]),
    require_pass _ _ _ (by rw [enabled, List.all_cons, List.all_nil, Bool.true_and, Bool.and_true]; exact format), waits]

theorem admitted_txRuns {code : Nat} {q : Request} {s : State} (h : taken code q s = true) (u : Nat) :
    (admitted code q s).txRuns u = s.txRuns u := by
  obtain ⟨_, _, e⟩ := admitted_intakeOnly h
  rw [e]
  rfl

end Sys2Proof.Machine

open Sys2Proof Sys2Proof.Machine

/-- Settles O23: the frame sent on what the boundary before it leaves, the frame received by its stage, the codeword by its line mode,
and each command by its own part on the state that taking the request leaves. -/
theorem carrierFramesAndFec : Obligations.CarrierFramesAndFec := by
  refine ⟨?sent, ?received, ?decoded, ?info, ?counts, ?inject⟩
  case sent =>
    intro u clipped f s runs format due stays steady
    have sends := acfFrameTx_nothingWaits runs format due stays steady clipped
    have ready := readyToSend_cu u s
    by_cases native : f.lineMode = 0
    · rw [if_pos native] at sends
      obtain ⟨count, settings, mute, silent⟩ := sendFrame_cu u f (readyToSend u s)
      rw [ready] at count settings mute
      exact ⟨_, congrArg Host.Outcome.next sends, fun _ => ⟨count, fun due => silent (readyToSend_muted due)⟩, fun h => absurd native h,
        settings, mute⟩
    · rw [if_neg native] at sends
      refine ⟨_, congrArg Host.Outcome.next sends, fun h => absurd h native, fun _ => ⟨?_, ?_⟩, ?_, ?_⟩
      · rw [bump_cu, ready]; rfl
      · rw [bump_live_same, readyToSend_live (by decide)]
      · rw [bump_cu, ready]; rfl
      · rw [bump_cu, ready]; rfl
  case received =>
    intro u seen f s runs format native
    constructor
    · intro frame hunts second good trained
      obtain ⟨t, verifies, unit⟩ := acfFrameRx_frame_native runs frame format native seen
      obtain ⟨aligned, stage⟩ := verifyFrame_third (s := t) (by rw [unit]; exact hunts) (by rw [unit]; exact second)
        (by rw [unit]; exact good) trained f
      rw [unit] at stage
      exact ⟨_, congrArg Host.Outcome.next verifies, aligned, stage.trans frame⟩
    · intro tracking due settings stays
      obtain ⟨t, reads, unit, before⟩ := acfFrameRx_tracking_native runs tracking format native due settings stays seen
      obtain ⟨frames, stage, training⟩ := inFrame_counts u f seen t
      rw [unit] at stage training
      exact ⟨_, congrArg Host.Outcome.next reads, by rw [frames, before], stage.trans tracking, training⟩
  case decoded =>
    intro u w f s runs tracking format whole
    constructor
    · intro agreed
      obtain ⟨codewords, changed, failed, -⟩ := countCodeword_live u w.bits w.changed w.converged s
      exact ⟨_, congrArg Host.Outcome.next (codewordDecoded_agreement runs tracking format whole agreed), codewords, changed, failed,
        countCodeword_only _ _ _ _ s⟩
    · intro native d
      have decodes := codewordDecoded_native runs tracking format whole native
      have only : OnlyChanges [.carrier, .counters, .fresh] s (codewordDecoded u w s) := (codewordDecoded_only u w s).mono rfl
      obtain ⟨codewords, changed, failed, iterations⟩ := countCodeword_live u (f.codedBits / f.c)
        (changedBits (decodeCodeword u f w s).1 d.bits) d.converged (modCu u (afterCodeword f w (decodeCodeword u f w s).2.1 d) s)
      obtain ⟨total, bits⟩ := afterCodeword_counts f w (decodeCodeword u f w s).2.1 d (s.cu u)
      rw [decodes] at only
      refine ⟨_, congrArg Host.Outcome.next decodes, ?_, ?_, ?_, ?_, ?_, ?_, only⟩
      · rw [tagCodeword_live, bump_live_other (by decide)]; exact codewords
      · rw [tagCodeword_live, bump_live_other (by decide)]; exact changed
      · rw [tagCodeword_live, bump_live_other (by decide)]; exact failed
      · rw [tagCodeword_live, bump_live_same]; exact congrArg (· + d.iterations) iterations
      · rw [tagCodeword_cu, bump_cu, countCodeword_cu, modCu_cu]; exact total
      · rw [tagCodeword_cu, bump_cu, countCodeword_cu, modCu_cu]; exact bits
  case info =>
    intro q f s h unit format
    have format' : ((admitted 0x0401 q s).cu q.u).fmt = some f := by rw [admitted_cu]; exact format
    exact ⟨fun native => congrArg Host.Outcome.next (takeRequest_get (by decide) h (fecGetFrameInfo_native unit format' native)),
      fun agreed => congrArg Host.Outcome.next
        (takeRequest_refuse (get := true) (by decide) h (fecGetFrameInfo_agreement unit format' agreed))⟩
  case counts =>
    intro q s h unit
    have latched := countsReply_of_counters (admitted_only 0x0402 q s .counters rfl) pmCu q.u 8 15
    rw [← latched]
    exact congrArg Host.Outcome.next (takeRequest_get (by decide) h (fecGetCounts_below unit _))
  case inject =>
    intro q s h unit mode rate noRate reserved period enabled native runs
    exact congrArg Host.Outcome.next (takeRequest_completes (by decide) h (fecSetInject_running ⟨unit, mode, rate, noRate, reserved, period⟩
      (by rw [admitted_cu]; exact enabled) (by rw [admitted_cu]; exact native) ((admitted_txRuns h _).trans runs)))

end

section
/-! PROOFS. The defects of a framer (R255, R268): the masks bit by bit, what a change of DEFECTS leaves, and the rows that set or clear
the alignment defects (R246, R247) and those judged by persistence. -/

-- One theorem after another: with a thread for each, the package as one text outgrows the checker's memory limit.
set_option Elab.async false

namespace Sys2Proof.Machine

/-! A framer, and what the shared operations leave of it. -/

@[simp] theorem modFramer_frm (u : Nat) (f : Framer → Framer) (s : State) : (modFramer u f s).frm u = f (s.frm u) :=
  tblGet_mod_same _ _ _ _

theorem modFramer_frm_other {u v : Nat} (h : v ≠ u) (f : Framer → Framer) (s : State) : (modFramer u f s).frm v = s.frm v :=
  tblGet_mod_other _ _ h _

theorem frm_of_framer {s t : State} (h : t.framer = s.framer) (u : Nat) : t.frm u = s.frm u := by unfold State.frm; rw [h]

@[simp] theorem bump_frm (fam inst ev n : Nat) (s : State) (u : Nat) : (bump fam inst ev n s).frm u = s.frm u :=
  frm_of_framer (bump_only fam inst ev n s .framer rfl) u

@[simp] theorem raise_frm (code unit : Nat) (pl : List Byte) (urgent : Bool) (s : State) (u : Nat) :
    (raise code unit pl urgent s).frm u = s.frm u := frm_of_framer (raise_only code unit pl urgent s .framer rfl) u

theorem twin_of_protect {s t : State} (h : t.protect = s.protect) (g : Nat) : t.twin g = s.twin g := by unfold State.twin; rw [h]
theorem twinOf_of_protect {s t : State} (h : t.protect = s.protect) (u : Nat) : t.twinOf u = s.twinOf u := by
  unfold State.twinOf State.twin; rw [h]
theorem mergedHolds_of_protect {s t : State} (h : t.protect = s.protect) (u : Nat) : t.mergedHolds u = s.mergedHolds u := by
  unfold State.mergedHolds State.twinOf State.twin; rw [h]

/-! Bits of DEFECTS. -/

/-- Taking away a bit that is set clears it and no other. -/
theorem testBit_sub_two_pow : ∀ {d bit : Nat}, d.testBit bit = true → ∀ i, (d - 2 ^ bit).testBit i = (i != bit && d.testBit i)
  | d, 0, set, 0 => by
    rw [Nat.testBit_zero, decide_eq_true_eq] at set
    simp [Nat.testBit_zero]; omega
  | d, 0, set, i + 1 => by
    rw [Nat.testBit_zero, decide_eq_true_eq] at set
    have half : (d - 1) / 2 = d / 2 := by omega
    simp [Nat.testBit_succ, half]
  | d, bit + 1, set, 0 => by
    have even : (d - 2 ^ (bit + 1)) % 2 = d % 2 := by
      have := Nat.ge_two_pow_of_testBit set; omega
    simp [Nat.testBit_zero, even]
  | d, bit + 1, set, i + 1 => by
    rw [Nat.testBit_succ] at set
    have half : (d - 2 ^ (bit + 1)) / 2 = d / 2 - 2 ^ bit := by omega
    rw [Nat.testBit_succ, Nat.testBit_succ, half, testBit_sub_two_pow set]
    simp

/-- DEFECTS with one defect set or cleared. -/
def withDefect (d bit : Nat) (on : Bool) : Nat := if on then d ||| 2 ^ bit else if d.testBit bit then d - 2 ^ bit else d

theorem putDefect_eq (u bit : Nat) (on : Bool) (s : State) : putDefect u bit on s = setDefects u (withDefect (s.frm u).defects bit on) s := rfl

theorem testBit_withDefect (d bit : Nat) (on : Bool) (i : Nat) :
    (withDefect d bit on).testBit i = if i = bit then on else d.testBit i := by
  unfold withDefect
  cases on with
  | true => by_cases same : i = bit <;> simp [Nat.testBit_or, same, eq_comm (a := bit)]
  | false =>
    cases set : d.testBit bit with
    | true => by_cases same : i = bit <;> simp [testBit_sub_two_pow set, same]
    | false => by_cases same : i = bit <;> simp [same, set]

/-- The bits that stay while SSF or LOF stands: all but OOM and LOM. -/
def underLoss : Nat := 0x7FFFF - 0x18

/-- The bits that stay while SSF, LOF or LOM stands. -/
def underFail (merged : Bool) : Nat := 0x7FFFF - (if merged then maskedBits - pathBits else maskedBits)

/-- The masks of R255, one after the other. -/
theorem maskDefects_eq (merged : Bool) (d : Nat) : maskDefects merged d =
    let e := if d.testBit 0 || d.testBit 2 then d &&& underLoss else d
    if hardFail e then e &&& underFail merged else e := rfl

theorem hardFail_underLoss {d : Nat} (h : (d.testBit 0 || d.testBit 2) = true) : hardFail (d &&& underLoss) = hardFail d := by
  have zero : underLoss.testBit 0 = true := by decide
  have two : underLoss.testBit 2 = true := by decide
  unfold hardFail
  rw [Nat.testBit_and, Nat.testBit_and, zero, two, Bool.and_true, Bool.and_true, h, Bool.true_or, Bool.true_or]

/-- A defect stands that is detected and that no mask hides (R255). -/
theorem testBit_maskDefects (merged : Bool) (d i : Nat) : (maskDefects merged d).testBit i =
    (d.testBit i && (!(d.testBit 0 || d.testBit 2) || underLoss.testBit i) && (!hardFail d || (underFail merged).testBit i)) := by
  rw [maskDefects_eq]
  cases loss : d.testBit 0 || d.testBit 2 with
  | true =>
    have fails := hardFail_underLoss loss
    cases fail : hardFail d <;> simp [fails, fail]
  | false => cases fail : hardFail d <;> simp [fail]

theorem testBit_maskDefects_open {i : Nat} (loss : underLoss.testBit i = true) (fail : ∀ m, (underFail m).testBit i = true)
    (merged : Bool) (d : Nat) : (maskDefects merged d).testBit i = d.testBit i := by
  simp [testBit_maskDefects, loss, fail]

/-- No mask hides SSF and LOF. -/
theorem testBit_maskDefects_ssf (merged : Bool) (d : Nat) : (maskDefects merged d).testBit 0 = d.testBit 0 :=
  testBit_maskDefects_open (by decide) (by decide) merged d
theorem testBit_maskDefects_lof (merged : Bool) (d : Nat) : (maskDefects merged d).testBit 2 = d.testBit 2 :=
  testBit_maskDefects_open (by decide) (by decide) merged d

theorem hardFail_maskDefects (merged : Bool) (d : Nat) : hardFail (maskDefects merged d) = hardFail d := by
  have four : (underFail merged).testBit 4 = true := by cases merged <;> decide
  unfold hardFail
  rw [testBit_maskDefects_ssf, testBit_maskDefects_lof, testBit_maskDefects, four, Bool.or_true, Bool.and_true]
  cases d.testBit 0 <;> cases d.testBit 2 <;> simp

theorem maskDefects_fine {d : Nat} (fine : hardFail d = false) (merged : Bool) : maskDefects merged d = d := by
  have parts := fine
  unfold hardFail at parts
  obtain ⟨loss, -⟩ := Bool.or_eq_false_iff.mp parts
  rw [maskDefects_eq]
  dsimp only
  rw [loss, if_neg Bool.false_ne_true, fine, if_neg Bool.false_ne_true]

/-- What the masks have left, masks that hide no more leave. -/
theorem maskDefects_again {m n : Bool} (h : m = true → n = true) (d : Nat) : maskDefects n (maskDefects m d) = maskDefects m d := by
  cases fail : hardFail d with
  | false => rw [maskDefects_fine fail, maskDefects_fine fail]
  | true =>
    have wider : underFail m &&& underFail n = underFail m := by revert m n; decide
    have absorbs : ∀ x l a b : Bool, (a && b) = a → (x && l && a && l && b) = (x && l && a) := by decide
    refine Nat.eq_of_testBit_eq fun i => ?_
    rw [testBit_maskDefects n, testBit_maskDefects_ssf, testBit_maskDefects_lof, hardFail_maskDefects, testBit_maskDefects m, fail]
    exact absorbs _ _ _ _ ((Nat.testBit_and _ _ i).symm.trans (congrArg (Nat.testBit · i) wider))

/-! One change of DEFECTS (R255, R268). -/

theorem defectEvent_frm (u changed : Nat) (s : State) : ∃ m, (defectEvent u changed s).frm u = { s.frm u with gather := some m } := by
  unfold defectEvent
  split
  · exact ⟨_, modFramer_frm ..⟩
  · exact ⟨_, (raise_frm ..).trans (modFramer_frm ..)⟩

theorem defectEvent_frm_other {u v : Nat} (h : v ≠ u) (changed : Nat) (s : State) : (defectEvent u changed s).frm v = s.frm v := by
  unfold defectEvent
  split
  · exact modFramer_frm_other h ..
  · exact (raise_frm ..).trans (modFramer_frm_other h ..)

/-- A framer but for DEFECTS, their gathering period, and the runs and marks that a change of DEFECTS may end. -/
def Framer.beyondDefects (f : Framer) : Framer :=
  { f with defects := 0, gather := none, failNow := false, runs := [], psi := [], aps := {}, apsC := 0, mfasBad := 0, mfasRun := 0 }

/-- A framer whose DEFECTS become `d`: the runs that end with it, and that SSF, LOF or LOM stood in this second. -/
def Framer.changed (merged : Bool) (d : Nat) (f : Framer) : Framer :=
  { f with
    defects := d, failNow := f.failNow || hardFail d
    runs := if hardFail d then (if merged then pathRuns f.runs else []) else f.runs
    psi := if hardFail d && !merged then [] else f.psi
    aps := if hardFail d then {} else f.aps
    apsC := if hardFail f.defects && !hardFail d then 0 else f.apsC
    mfasBad := if [0, 2].any (fun i => d.testBit i || f.defects.testBit i) then 0 else f.mfasBad
    mfasRun := if [0, 2].any (fun i => d.testBit i || f.defects.testBit i) then 0 else f.mfasRun }

theorem writeDefects_same {u d : Nat} {s : State} (h : maskDefects (s.mergedHolds u) d = (s.frm u).defects) : writeDefects u d s = s :=
  if_pos h

theorem writeDefects_change {u d : Nat} {s : State} (h : maskDefects (s.mergedHolds u) d ≠ (s.frm u).defects) :
    writeDefects u d s = defectEvent u ((s.frm u).defects ^^^ maskDefects (s.mergedHolds u) d)
      (modFramer u (Framer.changed (s.mergedHolds u) (maskDefects (s.mergedHolds u) d)) s) := if_neg h

/-- DEFECTS as they are written, and what else stays. -/
theorem writeDefects_frm (u d : Nat) (s : State) : ((writeDefects u d s).frm u).defects = maskDefects (s.mergedHolds u) d ∧
    ((writeDefects u d s).frm u).beyondDefects = (s.frm u).beyondDefects ∧
    ((s.frm u).apsC = 0 → ((writeDefects u d s).frm u).apsC = 0) := by
  by_cases same : maskDefects (s.mergedHolds u) d = (s.frm u).defects
  · rw [writeDefects_same same]
    exact ⟨same.symm, rfl, id⟩
  · rw [writeDefects_change same]
    obtain ⟨m, e⟩ := defectEvent_frm u ((s.frm u).defects ^^^ maskDefects (s.mergedHolds u) d)
      (modFramer u (Framer.changed (s.mergedHolds u) (maskDefects (s.mergedHolds u) d)) s)
    rw [e, modFramer_frm]
    exact ⟨rfl, rfl, fun zero => by simp [Framer.changed, zero]⟩

theorem writeDefects_frm_other {u v : Nat} (h : v ≠ u) (d : Nat) (s : State) : (writeDefects u d s).frm v = s.frm v := by
  by_cases same : maskDefects (s.mergedHolds u) d = (s.frm u).defects
  · rw [writeDefects_same same]
  · rw [writeDefects_change same]
    exact (defectEvent_frm_other h ..).trans (modFramer_frm_other h ..)

theorem writeDefects_protect (u d : Nat) (s : State) : (writeDefects u d s).protect = s.protect := writeDefects_only u d s .protect rfl

/-! What the loss of a copy leaves of the twin groups (R356, R360). -/

/-- From `x` to `y` a twin group keeps its units, and where copy `k` is lost and that is A, an aligned copy B. -/
structure Twin.LosesOnly (k : Nat) (x y : Twin) : Prop where
  enabled : y.enabled = x.enabled
  home : y.home = x.home
  partner : y.partner = x.partner
  other : k = 0 → x.b.state = 3 → y.b.state = 3

theorem Twin.LosesOnly.refl (k : Nat) (x : Twin) : x.LosesOnly k x := ⟨rfl, rfl, rfl, fun _ => id⟩

theorem Twin.LosesOnly.trans {k : Nat} {x y z : Twin} (a : x.LosesOnly k y) (b : y.LosesOnly k z) : x.LosesOnly k z :=
  ⟨b.enabled.trans a.enabled, b.home.trans a.home, b.partner.trans a.partner, fun h => b.other h ∘ a.other h⟩

/-- So every twin group does from `s` to `t`. -/
def LosesOnly (k : Nat) (s t : State) : Prop := ∀ g, (s.twin g).LosesOnly k (t.twin g)

theorem LosesOnly.refl (k : Nat) (s : State) : LosesOnly k s s := fun _ => .refl k _

theorem LosesOnly.trans {k : Nat} {s t v : State} (a : LosesOnly k s t) (b : LosesOnly k t v) : LosesOnly k s v :=
  fun g => (a g).trans (b g)

theorem LosesOnly.ofProtect {k : Nat} {s t v : State} (a : LosesOnly k s t) (h : v.protect = t.protect) : LosesOnly k s v :=
  fun g => by rw [twin_of_protect h]; exact a g

theorem LosesOnly.modTwin {k : Nat} {s t : State} (a : LosesOnly k s t) (g : Nat) {f : Twin → Twin} (h : ∀ x : Twin, x.LosesOnly k (f x)) :
    LosesOnly k s (Machine.modTwin g f t) := by
  intro i
  refine (a i).trans ?_
  by_cases same : i = g
  · subst same
    have e : (Machine.modTwin i f t).twin i = f (t.twin i) := tblGet_mod_same _ _ _ _
    rw [e]
    exact h _
  · have e : (Machine.modTwin g f t).twin i = t.twin i := tblGet_mod_other _ _ same _
    rw [e]
    exact .refl k _

theorem twinEvent_losesOnly (k g old : Nat) (cause : Option Nat) (s : State) : LosesOnly k s (twinEvent g old cause s) :=
  LosesOnly.ofProtect (.refl k s) (twinEvent_only g old cause s .protect rfl)

theorem rebaseTo_control (g k : Nat) (s : State) : (rebaseTo g k s).control = s.control := rebaseTo_only g k s .control rfl

/-- A playout schedule that moves counts its empty slots, as event 5 of the twin group (R359). -/
theorem rebaseTo_live {e : Nat} (h : e % 128 ≠ 5) (g k f i : Nat) (s : State) : (rebaseTo g k s).live f i e = s.live f i e := by
  unfold rebaseTo
  dsimp only
  split
  · exact bump_live_other h ..
  · rfl

theorem rebaseTo_losesOnly (k g i : Nat) (s : State) : LosesOnly k s (rebaseTo g i s) := by
  unfold rebaseTo
  dsimp only
  split
  · refine LosesOnly.ofProtect (LosesOnly.modTwin (.refl k s) g (f := fun t => { t with next := _, stopped := _ }) ?_)
      (bump_only _ _ _ _ _ .protect rfl)
    exact fun _ => ⟨rfl, rfl, rfl, fun _ => id⟩
  · exact .refl k s

/-- A change of the copy lost, or of a copy that then stands ALIGNED. -/
theorem modCopy_losesOnly {k i : Nat} {f : Copy → Copy} (h : k = 0 → i ≠ 0 → ∀ c, c.state = 3 → (f c).state = 3) (x : Twin) :
    x.LosesOnly k (x.modCopy i f) := by
  unfold Twin.modCopy Twin.setCopy Twin.copy
  by_cases zero : i = 0
  · simp only [zero, if_true]
    exact ⟨rfl, rfl, rfl, fun _ => id⟩
  · simp only [zero, if_false]
    exact ⟨rfl, rfl, rfl, fun lost => h lost zero _⟩

/-- A copy that stood leaves, and the group's event tells of it. -/
theorem copyLost_cases (g k cause : Nat) (s : State) : copyLost g k cause s = s ∨ ∃ t, LosesOnly k s t ∧ t.control = s.control ∧
    (∀ f i e, e % 128 ≠ 5 → t.live f i e = s.live f i e) ∧
    copyLost g k cause s = twinEvent g (s.twin g).groupState (some cause) t := by
  have leaves : LosesOnly k s (modTwin g (fun t => t.modCopy k (fun c =>
      { c with state := 0, verified := 0, disagree := 0, late := 0, last := none })) s) :=
    LosesOnly.modTwin (.refl k s) g (modCopy_losesOnly (fun zero other => absurd zero other))
  unfold copyLost
  dsimp only
  split
  · exact .inl rfl
  · refine .inr ?_
    split
    · exact ⟨_, leaves, rfl, fun _ _ _ _ => rfl, rfl⟩
    · split
      · refine ⟨_, ?_, ?_, ?_, rfl⟩
        · exact (leaves.modTwin g (modCopy_losesOnly (fun _ _ _ _ => rfl))).trans (rebaseTo_losesOnly k g _ _)
        · exact (rebaseTo_control g _ _).trans rfl
        · exact fun f i e h => (rebaseTo_live h g _ f i _).trans rfl
      · refine ⟨_, leaves.modTwin g (f := fun t => { t with stopped := true }) ?_, rfl, fun _ _ _ _ => rfl, rfl⟩
        exact fun _ => ⟨rfl, rfl, rfl, fun _ => id⟩

theorem copyLost_losesOnly (g k cause : Nat) (s : State) : LosesOnly k s (copyLost g k cause s) := by
  rcases copyLost_cases g k cause s with same | ⟨t, loses, -, -, tells⟩
  · rw [same]; exact .refl k s
  · rw [tells]; exact loses.trans (twinEvent_losesOnly k g _ _ _)

theorem twinEvent_live {e : Nat} (h : e % 128 ≠ 9) (g old : Nat) (cause : Option Nat) (f i : Nat) (s : State) :
    (twinEvent g old cause s).live f i e = s.live f i e := by
  unfold twinEvent
  dsimp only
  split
  · rfl
  · split
    · exact raise_live h ..
    · split
      · cases cause with
        | some c => exact raise_live h ..
        | none => exact (raise_live h ..).trans rfl
      · split
        · rfl
        · exact raise_live h ..

theorem copyLost_live {e : Nat} (h9 : e % 128 ≠ 9) (h5 : e % 128 ≠ 5) (g k cause f i : Nat) (s : State) :
    (copyLost g k cause s).live f i e = s.live f i e := by
  rcases copyLost_cases g k cause s with same | ⟨t, -, -, counts, tells⟩
  · rw [same]
  · rw [tells, twinEvent_live h9, counts f i e h5]

theorem LosesOnly.twinOf {k : Nat} {s t : State} (h : LosesOnly k s t) (u : Nat) : t.twinOf u = s.twinOf u := by
  unfold State.twinOf
  refine congrArg (List.find? · [0, 1]) (funext fun g => ?_)
  rw [(h g).enabled, (h g).home, (h g).partner]

theorem framerLost_alone {u : Nat} {s : State} (h : s.twinOf u = none) : framerLost u s = s := by unfold framerLost; rw [h]
theorem framerLost_twin {u g : Nat} {s : State} (h : s.twinOf u = some g) :
    framerLost u s = copyLost g ((s.twin g).copyOf u) 1 s := by unfold framerLost; rw [h]

/-! A change of DEFECTS with what it does to a twin group (R255, R356). -/

/-- Unless SSF, LOF or LOM comes about, DEFECTS alone change. -/
theorem setDefects_soft {u d : Nat} {s : State} (h : hardFail d = true → hardFail (s.frm u).defects = true) :
    setDefects u d s = writeDefects u d s := by
  have stays : (hardFail (s.frm u).defects || !hardFail ((writeDefects u d s).frm u).defects) = true := by
    rw [(writeDefects_frm u d s).1, hardFail_maskDefects]
    cases fail : hardFail d with
    | false => simp
    | true => rw [h fail]; rfl
  unfold setDefects
  dsimp only
  rw [if_pos stays]

/-- Where SSF, LOF or LOM comes about on a unit of no twin group, DEFECTS alone change too. -/
theorem setDefects_alone {u : Nat} {s : State} (h : s.twinOf u = none) (d : Nat) : setDefects u d s = writeDefects u d s := by
  have none' : (writeDefects u d s).twinOf u = none := (twinOf_of_protect (writeDefects_protect u d s) u).trans h
  unfold setDefects
  dsimp only
  split
  · rfl
  · rw [framerLost_alone none', none']

/-- In a twin group the copy received on the unit leaves, and DEFECTS of the home unit are masked afresh. -/
theorem setDefects_twin {u d g : Nat} {s : State} (twin : s.twinOf u = some g) (fine : hardFail (s.frm u).defects = false)
    (fails : hardFail d = true) : setDefects u d s =
      let t := copyLost g ((s.twin g).copyOf u) 1 (writeDefects u d s)
      writeDefects (s.twin g).home (t.frm (s.twin g).home).defects t := by
  have twin' : (writeDefects u d s).twinOf u = some g := (twinOf_of_protect (writeDefects_protect u d s) u).trans twin
  have comes : ¬(hardFail (s.frm u).defects || !hardFail ((writeDefects u d s).frm u).defects) = true := by
    rw [(writeDefects_frm u d s).1, hardFail_maskDefects, fine, fails]
    decide
  have lost : framerLost u (writeDefects u d s) = copyLost g ((s.twin g).copyOf u) 1 (writeDefects u d s) := by
    rw [framerLost_twin twin', twin_of_protect (writeDefects_protect u d s)]
  have kept := copyLost_losesOnly g ((s.twin g).copyOf u) 1 (writeDefects u d s)
  have home : ((copyLost g ((s.twin g).copyOf u) 1 (writeDefects u d s)).twin g).home = (s.twin g).home := by
    rw [(kept g).home, twin_of_protect (writeDefects_protect u d s)]
  unfold setDefects
  dsimp only
  rw [if_neg comes, lost, kept.twinOf, twin']
  dsimp only
  rw [home]

theorem mergedHolds_twin {u g : Nat} {s : State} (h : s.twinOf u = some g) :
    s.mergedHolds u = ((s.twin g).home == u && (s.twin g).b.state == 3) := by unfold State.mergedHolds; rw [h]

theorem copyLost_frm (g k cause : Nat) (s : State) (u : Nat) : (copyLost g k cause s).frm u = s.frm u :=
  frm_of_framer (copyLost_only g k cause s .framer rfl) u

/-- The masks that a set of DEFECTS meets are those of the state before it: the loss of a copy can only lift them. -/
theorem setDefects_defects (u d : Nat) (s : State) : ((setDefects u d s).frm u).defects = maskDefects (s.mergedHolds u) d := by
  have written := (writeDefects_frm u d s).1
  by_cases soft : hardFail d = true → hardFail (s.frm u).defects = true
  · rw [setDefects_soft soft]
    exact written
  · obtain ⟨fails, fine⟩ := Classical.not_imp.mp soft
    cases twin : s.twinOf u with
    | none => rw [setDefects_alone twin]; exact written
    | some g =>
      have kept := copyLost_losesOnly g ((s.twin g).copyOf u) 1 (writeDefects u d s)
      rw [setDefects_twin twin (Bool.not_eq_true _ ▸ fine) fails]
      by_cases home : (s.twin g).home = u
      · have lifted : s.mergedHolds u = true →
            (copyLost g ((s.twin g).copyOf u) 1 (writeDefects u d s)).mergedHolds u = true := by
          have first : (s.twin g).copyOf u = 0 := if_pos home
          have twin' := (kept.twinOf u).trans ((twinOf_of_protect (writeDefects_protect u d s) u).trans twin)
          have same := twin_of_protect (writeDefects_protect u d s) g
          rw [mergedHolds_twin twin, mergedHolds_twin twin', (kept g).home, same, home]
          intro aligned
          have b : (s.twin g).b.state = 3 := by simpa using aligned
          simpa using (kept g).other first (by rw [same]; exact b)
        dsimp only
        rw [home, (writeDefects_frm _ _ _).1, copyLost_frm, written]
        exact maskDefects_again lifted d
      · dsimp only
        rw [writeDefects_frm_other (Ne.symm home), copyLost_frm]
        exact written


/-! One defect set or cleared. -/

/-- A change of a defect that brings about none of SSF, LOF and LOM. -/
abbrev SoftChange (bit : Nat) (on : Bool) : Prop := on = false ∨ (bit ≠ 0 ∧ bit ≠ 2 ∧ bit ≠ 4)

theorem hardFail_withDefect {bit : Nat} {on : Bool} (soft : SoftChange bit on) {d : Nat}
    (h : hardFail (withDefect d bit on) = true) : hardFail d = true := by
  have stood (i : Nat) (hard : i = 0 ∨ i = 2 ∨ i = 4) (set : (withDefect d bit on).testBit i = true) : d.testBit i = true := by
    rw [testBit_withDefect] at set
    split at set
    next same =>
      rcases soft with off | other
      · rw [off] at set
        exact absurd set Bool.false_ne_true
      · omega
    next => exact set
  unfold hardFail at h ⊢
  simp only [Bool.or_eq_true] at h ⊢
  exact h.imp (Or.imp (stood 0 (by omega)) (stood 2 (by omega))) (stood 4 (by omega))

/-- Clearing a defect, and setting one other than SSF, LOF and LOM, only writes DEFECTS. -/
theorem putDefect_soft {bit : Nat} {on : Bool} (soft : SoftChange bit on) (u : Nat) (s : State) :
    putDefect u bit on s = writeDefects u (withDefect (s.frm u).defects bit on) s :=
  (putDefect_eq ..).trans (setDefects_soft (hardFail_withDefect soft))

/-- Beside DEFECTS and what goes with them a soft change leaves the framer. -/
theorem putDefect_beyond {bit : Nat} {on : Bool} (soft : SoftChange bit on) (u : Nat) (s : State) :
    ((putDefect u bit on s).frm u).beyondDefects = (s.frm u).beyondDefects := by
  rw [putDefect_soft soft]
  exact (writeDefects_frm ..).2.1

theorem putDefect_has (u bit : Nat) (on : Bool) (s : State) (i : Nat) : ((putDefect u bit on s).frm u).has i =
    (maskDefects (s.mergedHolds u) (withDefect (s.frm u).defects bit on)).testBit i :=
  congrArg (Nat.testBit · i) (setDefects_defects u _ s)

/-- A defect cleared is gone. -/
theorem putDefect_clears (u bit : Nat) (s : State) : ((putDefect u bit false s).frm u).has bit = false := by
  rw [putDefect_has, testBit_maskDefects, testBit_withDefect, if_pos rfl, Bool.false_and, Bool.false_and]

/-- SSF, OOF and LOF stand once set. -/
theorem putDefect_sets {bit : Nat} (h : bit ≤ 2) (u : Nat) (s : State) : ((putDefect u bit true s).frm u).has bit = true := by
  have loss : underLoss.testBit bit = true := by revert bit; decide
  have fail (m : Bool) : (underFail m).testBit bit = true := by revert m bit; decide
  rw [putDefect_has, testBit_maskDefects_open loss fail, testBit_withDefect, if_pos rfl]

/-- OOM and LOM stand once set where neither SSF nor LOF does. -/
theorem putDefect_sets_multiframe {bit : Nat} (h : bit = 3 ∨ bit = 4) {u : Nat} {s : State} (ssf : (s.frm u).has 0 = false)
    (lof : (s.frm u).has 2 = false) : ((putDefect u bit true s).frm u).has bit = true := by
  have zero : (withDefect (s.frm u).defects bit true).testBit 0 = false := by
    rw [testBit_withDefect, if_neg (by omega)]; exact ssf
  have two : (withDefect (s.frm u).defects bit true).testBit 2 = false := by
    rw [testBit_withDefect, if_neg (by omega)]; exact lof
  have fail : (underFail (s.mergedHolds u)).testBit bit = true := by
    rcases h with rfl | rfl <;> cases s.mergedHolds u <;> decide
  rw [putDefect_has, testBit_maskDefects, zero, two, fail, testBit_withDefect, if_pos rfl]
  simp

/-- While SSF, LOF and LOM are clear, any other defect is as it is put. -/
theorem putDefect_has_fine {bit : Nat} (soft : bit ≠ 0 ∧ bit ≠ 2 ∧ bit ≠ 4) {u : Nat} {s : State}
    (fine : hardFail (s.frm u).defects = false) (on : Bool) : ((putDefect u bit on s).frm u).has bit = on := by
  have fine' : hardFail (withDefect (s.frm u).defects bit on) = false := by
    rw [← Bool.not_eq_true]
    exact fun h => Bool.eq_false_iff.mp fine (hardFail_withDefect (.inr soft) h)
  rw [putDefect_has, maskDefects_fine fine', testBit_withDefect, if_pos rfl]

/-! What a change of DEFECTS counts: the events that it raises, and the empty slots of a playout schedule that moves (events 9 and 5). -/

theorem defectEvent_live {e : Nat} (h : e % 128 ≠ 9) (u changed f i : Nat) (s : State) :
    (defectEvent u changed s).live f i e = s.live f i e := by
  unfold defectEvent
  split
  · rfl
  · exact raise_live h ..

theorem writeDefects_live {e : Nat} (h : e % 128 ≠ 9) (u d f i : Nat) (s : State) : (writeDefects u d s).live f i e = s.live f i e := by
  by_cases same : maskDefects (s.mergedHolds u) d = (s.frm u).defects
  · rw [writeDefects_same same]
  · rw [writeDefects_change same]
    exact defectEvent_live h ..

theorem setDefects_live {e : Nat} (h9 : e % 128 ≠ 9) (h5 : e % 128 ≠ 5) (u d f i : Nat) (s : State) :
    (setDefects u d s).live f i e = s.live f i e := by
  by_cases soft : hardFail d = true → hardFail (s.frm u).defects = true
  · rw [setDefects_soft soft, writeDefects_live h9]
  · obtain ⟨fails, fine⟩ := Classical.not_imp.mp soft
    cases twin : s.twinOf u with
    | none => rw [setDefects_alone twin, writeDefects_live h9]
    | some g =>
      rw [setDefects_twin twin (Bool.not_eq_true _ ▸ fine) fails]
      dsimp only
      rw [writeDefects_live h9, copyLost_live h9 h5, writeDefects_live h9]

theorem putDefect_live {e : Nat} (h9 : e % 128 ≠ 9) (h5 : e % 128 ≠ 5) (u bit : Nat) (on : Bool) (f i : Nat) (s : State) :
    (putDefect u bit on s).live f i e = s.live f i e := setDefects_live h9 h5 ..

/-- A soft change counts only the events that it raises. -/
theorem putDefect_live_soft {bit : Nat} {on : Bool} (soft : SoftChange bit on) {e : Nat} (h : e % 128 ≠ 9) (u f i : Nat) (s : State) :
    (putDefect u bit on s).live f i e = s.live f i e := by
  rw [putDefect_soft soft]
  exact writeDefects_live h ..

/-! Events still in the history (R512). -/

/-- `e` is one of the last `k` events of the history. -/
def Recent (k : Nat) (e : EventRec) (s : State) : Prop := e ∈ s.control.history.reverse.take k

theorem Recent.mem {k : Nat} {e : EventRec} {s : State} (h : Recent k e s) : e ∈ s.control.history :=
  List.mem_reverse.mp (List.mem_of_mem_take h)

theorem Recent.mono {k n : Nat} {e : EventRec} {s : State} (h : Recent k e s) (le : k ≤ n) : Recent n e s :=
  (List.take_subset_take_left _ le) h

theorem Recent.ofHistory {k : Nat} {e : EventRec} {s t : State} (h : Recent k e s) (same : t.control.history = s.control.history) :
    Recent k e t := by
  unfold Recent
  rw [same]
  exact h

theorem Recent.ofControl {k : Nat} {e : EventRec} {s t : State} (h : Recent k e s) (same : t.control = s.control) : Recent k e t :=
  h.ofHistory (congrArg Control.history same)

theorem remember_history (x : EventRec) (s : State) :
    (remember x s).control.history.reverse = (x :: s.control.history.reverse).take 4096 := by
  unfold remember
  rw [modControl_control, List.reverse_drop, List.reverse_append, List.take_eq_take_iff.mpr]
  · rfl
  · simp only [List.length_append, List.length_cons, List.length_reverse, List.length_nil]
    omega

/-- One event later. -/
theorem Recent.remember {k : Nat} {e : EventRec} {s : State} (h : Recent k e s) (room : k < 4096) (x : EventRec) :
    Recent (k + 1) e (Machine.remember x s) := by
  unfold Recent
  rw [remember_history, List.take_take, Nat.min_eq_left (by omega), List.take_succ_cons]
  exact List.mem_cons_of_mem _ h

theorem modRoute_history (k : Nat) (f : Route → Route) (s : State) : (modRoute k f s).control.history = s.control.history := by
  unfold modRoute
  rw [modControl_control]
  split
  · rfl
  · split <;> rfl

theorem Recent.flushLost {k : Nat} {e : EventRec} {s : State} (h : Recent k e s) (room : k < 4096) (i : Nat) :
    Recent (k + 1) e (Machine.flushLost i s) := by
  unfold Machine.flushLost
  dsimp only
  split
  · exact h.mono (Nat.le_succ k)
  · refine .ofControl (.remember ?_ room _) (bump_control ..)
    exact h.ofHistory ((congrArg Control.history (modSill_control _ _)).trans (modRoute_history i _ s))

/-- Raising another event puts at most four behind it. -/
theorem Recent.raise {k : Nat} {e : EventRec} {s : State} (h : Recent k e s) (room : k + 4 < 4096) (code unit : Nat) (pl : List Byte)
    (urgent : Bool) : Recent (k + 4) e (Machine.raise code unit pl urgent s) := by
  have flushed := ((h.flushLost (by omega) 0).flushLost (by omega) 1).flushLost (by omega) 2
  unfold Machine.raise raiseAs
  dsimp only
  generalize Machine.flushLost 2 (Machine.flushLost 1 (Machine.flushLost 0 s)) = t at flushed
  refine .ofControl (.remember ?_ (by omega) _) (bump_control ..)
  exact .ofHistory (s := t) flushed rfl

/-- An event just raised. -/
theorem raise_recent (code unit : Nat) (pl : List Byte) (urgent : Bool) (s : State) :
    ∃ e, Recent 1 e (raise code unit pl urgent s) ∧ e.code = code ∧ e.unit = unit ∧ e.urgent = urgent ∧ e.payload = pl := by
  unfold raise raiseAs Recent
  dsimp only
  rw [bump_control, remember_history]
  exact ⟨_, List.mem_cons_self, rfl, rfl, rfl, rfl⟩

theorem Recent.defectEvent {k : Nat} {e : EventRec} {s : State} (h : Recent k e s) (room : k + 4 < 4096) (u changed : Nat) :
    Recent (k + 4) e (Machine.defectEvent u changed s) := by
  unfold Machine.defectEvent
  split
  · exact h.mono (Nat.le_add_right k 4)
  · exact .raise (s := modFramer u _ s) h room ..

theorem Recent.writeDefects {k : Nat} {e : EventRec} {s : State} (h : Recent k e s) (room : k + 4 < 4096) (u d : Nat) :
    Recent (k + 4) e (Machine.writeDefects u d s) := by
  by_cases same : maskDefects (s.mergedHolds u) d = (s.frm u).defects
  · rw [writeDefects_same same]
    exact h.mono (Nat.le_add_right k 4)
  · rw [writeDefects_change same]
    exact .defectEvent (s := modFramer u _ s) h room ..

theorem Recent.twinEvent {k : Nat} {e : EventRec} {s : State} (h : Recent k e s) (room : k + 4 < 4096) (g old : Nat)
    (cause : Option Nat) : Recent (k + 4) e (Machine.twinEvent g old cause s) := by
  have unchanged := h.mono (Nat.le_add_right k 4)
  unfold Machine.twinEvent
  dsimp only
  split
  · exact unchanged
  · split
    · exact h.raise room ..
    · split
      · cases cause with
        | some c => exact h.raise room ..
        | none => exact .raise (s := { s with fresh := s.fresh + 1 }) h room ..
      · split
        · exact unchanged
        · exact h.raise room ..

theorem Recent.copyLost {k : Nat} {e : EventRec} {s : State} (h : Recent k e s) (room : k + 4 < 4096) (g i cause : Nat) :
    Recent (k + 4) e (Machine.copyLost g i cause s) := by
  rcases copyLost_cases g i cause s with same | ⟨t, -, control, -, tells⟩
  · rw [same]; exact h.mono (Nat.le_add_right k 4)
  · rw [tells]; exact .twinEvent (h.ofControl control) room ..

/-- A change of DEFECTS raises three events at most. -/
theorem Recent.setDefects {k : Nat} {e : EventRec} {s : State} {u d : Nat} (h : Recent k e (Machine.writeDefects u d s))
    (room : k + 8 < 4096) : e ∈ (Machine.setDefects u d s).control.history := by
  by_cases soft : hardFail d = true → hardFail (s.frm u).defects = true
  · rw [setDefects_soft soft]
    exact h.mem
  · obtain ⟨fails, fine⟩ := Classical.not_imp.mp soft
    cases twin : s.twinOf u with
    | none => rw [setDefects_alone twin]; exact h.mem
    | some g =>
      rw [setDefects_twin twin (Bool.not_eq_true _ ▸ fine) fails]
      exact ((h.copyLost (by omega) ..).writeDefects (by omega) ..).mem

/-- A change of DEFECTS outside a gathering period is raised at once, with the new value and the bits changed (R268). -/
theorem setDefects_raises {u d : Nat} {s : State} (changes : maskDefects (s.mergedHolds u) d ≠ (s.frm u).defects)
    (quiet : (s.frm u).gather = none) : ∃ e ∈ (setDefects u d s).control.history, e.code = 0x0501 ∧ e.unit = u ∧
      e.payload = be 4 (maskDefects (s.mergedHolds u) d) ++ be 4 ((s.frm u).defects ^^^ maskDefects (s.mergedHolds u) d) := by
  generalize written : modFramer u (Framer.changed (s.mergedHolds u) (maskDefects (s.mergedHolds u) d)) s = t
  have frm : t.frm u = (s.frm u).changed (s.mergedHolds u) (maskDefects (s.mergedHolds u) d) := by rw [← written, modFramer_frm]
  have closed : (t.frm u).gather = none := by rw [frm]; exact quiet
  have value : (t.frm u).defects = maskDefects (s.mergedHolds u) d := by rw [frm]; rfl
  have write := writeDefects_change changes
  rw [written] at write
  unfold defectEvent at write
  rw [closed, value] at write
  obtain ⟨e, recent, code, unit, -, payload⟩ := raise_recent 0x0501 u
    (be 4 (maskDefects (s.mergedHolds u) d) ++ be 4 ((s.frm u).defects ^^^ maskDefects (s.mergedHolds u) d))
    (((s.frm u).defects ^^^ maskDefects (s.mergedHolds u) d) &&& urgentBits != 0) (modFramer u (fun f => { f with gather := some 0 }) t)
  exact ⟨e, Recent.setDefects (by rw [write]; exact recent) (by omega), code, unit, payload⟩

/-! The alignment defects (R246, R247). -/

theorem Framer.state_of_beyond {f g : Framer} (h : g.beyondDefects = f.beyondDefects) : g.state = f.state := (congrArg Framer.state h :)
theorem Framer.mfas_of_beyond {f g : Framer} (h : g.beyondDefects = f.beyondDefects) : g.mfas = f.mfas := (congrArg Framer.mfas h :)
theorem Framer.verify_of_beyond {f g : Framer} (h : g.beyondDefects = f.beyondDefects) : g.verify = f.verify := (congrArg Framer.verify h :)
theorem Framer.candMfas_of_beyond {f g : Framer} (h : g.beyondDefects = f.beyondDefects) : g.candMfas = f.candMfas := (congrArg Framer.candMfas h :)

theorem oofDeclared_declares {u : Nat} {s : State} (up : s.hubUp = true) (state : (s.frm u).state = 3) (bad : 5 ≤ (s.frm u).fasBad) :
    ((oofDeclared u s).frm u).state = 4 ∧ ((oofDeclared u s).frm u).has 1 = true ∧
      (oofDeclared u s).live pmFramer u 5 = s.live pmFramer u 5 + 1 := by
  unfold oofDeclared
  dsimp only
  rw [when_of_true (by simp [up, state, bad])]
  have missed : (missFrame u s).counters = s.counters := missFrame_only u s .counters rfl
  have soft : SoftChange 1 true := by decide
  refine ⟨(Framer.state_of_beyond (putDefect_beyond soft u _)).trans ?_, putDefect_sets (by decide) u _,
    (putDefect_live_soft soft (by decide) u pmFramer u _).trans ((bump_live_same ..).trans (congrArg (· + 1) ?_))⟩
  · rw [bump_frm, modFramer_frm]
  · exact live_of_counters missed pmFramer u 5

theorem oofCleared_clears {u : Nat} {s : State} (up : s.hubUp = true) (state : (s.frm u).state = 4)
    (good : 2 ≤ (s.frm u).fasGood ∨ 3 ≤ (s.frm u).verify) :
    ((oofCleared u s).frm u).state = 3 ∧ ((oofCleared u s).frm u).has 1 = false := by
  unfold oofCleared
  dsimp only
  rw [when_of_true (by simp [up, state, good])]
  refine ⟨(Framer.state_of_beyond (putDefect_beyond (.inl rfl) u _)).trans ?_, putDefect_clears u 1 _⟩
  rw [modFramer_frm]

theorem oomCleared_clears {u : Nat} {s : State} (up : s.hubUp = true) (oom : (s.frm u).has 3 = true) (run : 1 ≤ (s.frm u).mfasRun) :
    ((oomCleared u s).frm u).has 3 = false ∧ ((oomCleared u s).frm u).mfas = ((s.frm u).lastMfas + 1) % 256 := by
  unfold oomCleared
  dsimp only
  rw [when_of_true (by simp [up, oom, run])]
  refine ⟨putDefect_clears u 3 _, (Framer.mfas_of_beyond (putDefect_beyond (.inl rfl) u _)).trans ?_⟩
  rw [modFramer_frm]

/-! The gathering period (R268). -/

theorem defectEventGather_closes {u : Nat} {s : State} (open_ : (s.frm u).gather = some 0) :
    defectEventGather u s = modFramer u (fun f => { f with gather := none }) s := by
  unfold defectEventGather
  rw [open_]
  rfl

theorem defectEventGather_raises {u m : Nat} {s : State} (open_ : (s.frm u).gather = some m) (gathered : m ≠ 0) :
    defectEventGather u s = raise 0x0501 u (be 4 (s.frm u).defects ++ be 4 m) (m &&& urgentBits != 0)
      (modFramer u (fun f => { f with gather := some 0 }) s) := by
  unfold defectEventGather
  rw [open_]
  cases m with
  | zero => exact absurd rfl gathered
  | succ n => rfl

end Sys2Proof.Machine

open Sys2Proof Sys2Proof.Machine

/-- Settles O27: each row by the change of DEFECTS that it makes once its condition holds, and that change by the masks bit by bit. -/
theorem framerDefects : Obligations.FramerDefects := by
  refine ⟨?put, ?raises, ?oof, ?oofEnds, ?lof, ?lofEnds, ?oom, ?oomEnds, ?lom, ?lomEnds, ?persists, ?gathers⟩
  case put => exact fun u bit on s => setDefects_defects u _ s
  case raises => exact fun u d s changes quiet => setDefects_raises changes quiet
  case oof => exact fun u s up state bad => ⟨_, rfl, oofDeclared_declares up state bad⟩
  case oofEnds => exact fun u s up state good => ⟨_, rfl, oofCleared_clears up state good⟩
  case lof =>
    intro u s up oof
    exact ⟨_, congrArg Host.Outcome.next (when_of_true (by simp [up, oof]) _ s), putDefect_sets (by decide) u s⟩
  case lofEnds =>
    intro u s up lof state
    exact ⟨_, congrArg Host.Outcome.next (when_of_true (by simp [up, lof, state]) _ s), putDefect_clears u 2 s⟩
  case oom =>
    intro u s up state bad ssf lof
    exact ⟨_, congrArg Host.Outcome.next (when_of_true (by simp [up, state, bad]) _ s), putDefect_sets_multiframe (.inl rfl) ssf lof⟩
  case oomEnds => exact fun u s up oom run => ⟨_, rfl, oomCleared_clears up oom run⟩
  case lom =>
    intro u s up oom ssf lof
    exact ⟨_, congrArg Host.Outcome.next (when_of_true (by simp [up, oom]) _ s), putDefect_sets_multiframe (.inr rfl) ssf lof⟩
  case lomEnds =>
    intro u s up lom oom
    exact ⟨_, congrArg Host.Outcome.next (when_of_true (by simp [up, lom, oom]) _ s), putDefect_clears u 4 s⟩
  case persists =>
    intro u bit s up judged run
    exact congrArg Host.Outcome.next (when_of_true (by simp [up, judged, run]) _ s)
  case gathers =>
    intro u m s up open_
    refine ⟨fun none_ => ?_, fun some_ => ?_⟩
    · subst none_
      exact congrArg Host.Outcome.next ((when_of_true up _ s).trans (defectEventGather_closes open_))
    · refine ⟨_, congrArg Host.Outcome.next ((when_of_true up _ s).trans (defectEventGather_raises open_ some_)), ?_,
        raise_lastEvent ..⟩
      rw [raise_frm, modFramer_frm]

end

section
/-! PROOFS. What a receive framer accepts (R251, R253, R254, R259, R261): each acceptance changes the framer's accepted value and puts the
defect that judges it. -/

-- One theorem after another: with a thread for each, the package as one text outgrows the checker's memory limit.
set_option Elab.async false

namespace Sys2Proof.Machine

/-! What the change of a defect keeps of what has been accepted. -/

theorem timDue_of_beyond {f g : Framer} (h : g.beyondDefects = f.beyondDefects) : timDue g = timDue f := (congrArg timDue h :)
theorem ltmDue_of_beyond {f g : Framer} (h : g.beyondDefects = f.beyondDefects) : ltmDue g = ltmDue f := (congrArg ltmDue h :)

theorem putDefect_apsC {bit : Nat} {on : Bool} (soft : SoftChange bit on) {u : Nat} {s : State}
    (zero : (s.frm u).apsC = 0) : ((putDefect u bit on s).frm u).apsC = 0 := by
  rw [putDefect_soft soft]
  exact (writeDefects_frm ..).2.2 zero

/-- An event raised before a soft change of a defect is still in the history after it. -/
theorem putDefect_raised {bit : Nat} {on : Bool} (soft : SoftChange bit on) (u code unit : Nat) (pl : List Byte)
    (urgent : Bool) (s : State) : ∃ e ∈ (putDefect u bit on (raise code unit pl urgent s)).control.history,
      e.code = code ∧ e.unit = unit ∧ e.urgent = urgent ∧ e.payload = pl := by
  obtain ⟨e, recent, fields⟩ := raise_recent code unit pl urgent s
  rw [putDefect_soft soft]
  exact ⟨e, (recent.writeDefects (by omega) ..).mem, fields⟩

/-! The defects of the path while it is not lost (R255, R257). -/

/-- While no SSF, LOF or LOM masks the path, its defects stand as they are detected. -/
theorem testBit_maskDefects_path {merged : Bool} {d i : Nat} (seen : hardFail d = true → merged = true) (path : pathBits.testBit i = true) :
    (maskDefects merged d).testBit i = d.testBit i := by
  have stays : pathBits &&& underLoss &&& underFail true = pathBits := by decide
  have at_i := congrArg (Nat.testBit · i) stays
  simp only [Nat.testBit_and, path, Bool.true_and, Bool.and_eq_true] at at_i
  obtain ⟨loss, fail⟩ := at_i
  rw [testBit_maskDefects, loss, Bool.or_true, Bool.and_true]
  cases failed : hardFail d with
  | false => simp
  | true => rw [seen failed, fail, Bool.or_true, Bool.and_true]

section
variable {u : Nat} {s : State} (path : s.pathLost u = false)
include path

/-- Where SSF, LOF or LOM stands, the path is not lost only by the other copy of a twin group. -/
theorem mergedHolds_of_path (fails : hardFail (s.frm u).defects = true) : s.mergedHolds u = true := by
  unfold State.pathLost at path
  rw [fails, Bool.true_and] at path
  simpa using path

variable {bit : Nat} {on : Bool} (soft : SoftChange bit on)
include soft

theorem putDefect_has_path {i : Nat} (h : pathBits.testBit i = true) :
    ((putDefect u bit on s).frm u).has i = if i = bit then on else (s.frm u).has i := by
  rw [putDefect_has, testBit_maskDefects_path (fun fails => mergedHolds_of_path path (hardFail_withDefect soft fails)) h, testBit_withDefect]
  rfl

theorem putDefect_pathLost : (putDefect u bit on s).pathLost u = false := by
  rw [putDefect_soft soft]
  unfold State.pathLost
  rw [(writeDefects_frm ..).1, hardFail_maskDefects, mergedHolds_of_protect (writeDefects_protect ..)]
  cases fails : hardFail (withDefect (s.frm u).defects bit on) with
  | false => rfl
  | true => rw [mergedHolds_of_path path (hardFail_withDefect soft fails)]; rfl

end

/-! Acceptances. -/

theorem apsAccept_accepts {u : Nat} {s : State} (up : s.hubUp = true) (fine : hardFail (s.frm u).defects = false)
    (arrived : (s.frm u).apsN ≤ (s.frm u).aps.count) (new : (s.frm u).aps.value ≠ (s.frm u).accAps) :
    apsAccept u s = putDefect u 17 false (raise 0x0502 u (be 4 (s.frm u).aps.value) true
      (bump pmFramer u 15 1 (modFramer u (fun f => { f with accAps := f.aps.value, apsC := 0 }) s))) := by
  unfold apsAccept
  exact when_of_true (by simp [up, fine, arrived, new]) _ _

/-- A framer that has taken the trail trace received whole (R254). -/
def Framer.acceptTti (f : Framer) : Framer := { f with accTti := some f.ttiLast }

theorem ttiAccept_accepts {u : Nat} {s : State} (up : s.hubUp = true) (whole : 3 ≤ (s.frm u).ttiRun)
    (new : (s.frm u).accTti ≠ some (s.frm u).ttiLast) :
    ttiAccept u s = putDefect u 5 (timDue (s.frm u).acceptTti)
      (raise 0x0503 u [] false (modFramer u Framer.acceptTti s)) := by
  have frm : (raise 0x0503 u [] false (modFramer u Framer.acceptTti s)).frm u = (s.frm u).acceptTti := by
    rw [raise_frm, modFramer_frm]
  rw [← frm]
  unfold ttiAccept
  exact when_of_true (by simp [up, whole, new]) _ s

/-- A framer that has taken the link tag received (R253). -/
def Framer.acceptTag (f : Framer) : Framer := { f with accTag := some f.tag.value }

theorem linkTagAccept_accepts {u : Nat} {s : State} (up : s.hubUp = true) (thrice : 3 ≤ (s.frm u).tag.count) :
    linkTagAccept u s = putDefect u 18 (ltmDue (s.frm u).acceptTag)
      (modFramer u Framer.acceptTag s) := by
  have frm : (modFramer u Framer.acceptTag s).frm u = (s.frm u).acceptTag := modFramer_frm ..
  rw [← frm]
  unfold linkTagAccept
  exact when_of_true (by simp [up, thrice]) _ s

/-- A framer that has taken the payload type and the MSI entries of whole runs (R261). -/
def Framer.acceptPsi (f : Framer) : Framer :=
  { f with accPt := if 3 ≤ (tblGet {} f.psi 0).count then some (tblGet {} f.psi 0).value else f.accPt
           accMsi := (List.range (20 * f.n)).foldl (acceptMsi f) f.accMsi }

theorem psiAccept_accepts {u : Nat} {s : State} (up : s.hubUp = true) (path : s.pathLost u = false)
    (thrice : 3 ≤ (tblGet {} (s.frm u).psi 0).count) :
    psiAccept u s = judgeMsim u (putDefect u 15 ((tblGet {} (s.frm u).psi 0).value != 0x22) (modFramer u Framer.acceptPsi s)) := by
  have type : ((modFramer u Framer.acceptPsi s).frm u).accPt = some (tblGet {} (s.frm u).psi 0).value := by
    rw [modFramer_frm]
    exact if_pos thrice
  unfold psiAccept
  rw [when_of_true (by simp [up, path])]
  change judgeMsim u (putDefect u 15 (match ((modFramer u Framer.acceptPsi s).frm u).accPt with
    | some p => p != 0x22 | none => false) (modFramer u Framer.acceptPsi s)) = _
  rw [type]

/-- A passed pair whose run is complete is taken (R251). -/
def Framer.acceptPassed (f : Framer) (t : Tbl Nat) (i : Nat) : Tbl Nat :=
  if 3 ≤ (tblGet {} f.passed i).count then tblSet 0 t i (tblGet {} f.passed i).value else t

theorem tblGet_acceptPassed (f : Framer) : ∀ {l : List Nat}, l.Nodup → ∀ (t : Tbl Nat) (i : Nat),
    tblGet 0 (l.foldl f.acceptPassed t) i =
      if i ∈ l ∧ 3 ≤ (tblGet {} f.passed i).count then (tblGet {} f.passed i).value else tblGet 0 t i := by
  intro l
  induction l with
  | nil => intro _ t i; simp
  | cons a r ih =>
    intro distinct t i
    obtain ⟨fresh, rest⟩ := List.nodup_cons.mp distinct
    rw [List.foldl_cons, ih rest]
    unfold Framer.acceptPassed
    by_cases same : i = a
    · subst same
      by_cases run : 3 ≤ (tblGet {} f.passed i).count <;> simp [fresh, run, tblGet_set_same]
    · by_cases run : 3 ≤ (tblGet {} f.passed a).count <;> simp [same, run, tblGet_set_other 0 t same]

theorem passedBytesAccept_accepts {u : Nat} {s : State} (up : s.hubUp = true) : passedBytesAccept u s =
    modFramer u (fun f => { f with accPassed := [0, 1, 2, 3].foldl f.acceptPassed f.accPassed }) s := by
  unfold passedBytesAccept
  exact when_of_true up _ _

end Sys2Proof.Machine

open Sys2Proof Sys2Proof.Machine

/-- Settles O28: each acceptance by the value it takes and the defect that judges it. -/
theorem framerOverheadIsAccepted : Obligations.FramerOverheadIsAccepted := by
  refine ⟨?aps, ?inconsistent, ?trace, ?payloadType, ?passed, ?tag⟩
  case aps =>
    intro u s up fine arrived new
    have soft : SoftChange 17 false := .inl rfl
    refine ⟨_, congrArg Host.Outcome.next (apsAccept_accepts up fine arrived new), ?_, putDefect_apsC soft ?_, ?_,
      putDefect_raised soft ..⟩
    · refine (congrArg Framer.accAps (putDefect_beyond soft _ _) :).trans ?_
      rw [raise_frm, bump_frm, modFramer_frm]
      rfl
    · rw [raise_frm, bump_frm, modFramer_frm]
    · rw [putDefect_live_soft soft (by decide), raise_live (by decide), bump_live_same]
      rfl
  case inconsistent =>
    exact fun u s up limit => congrArg Host.Outcome.next (when_of_true (by simp [up, limit]) _ s)
  case trace =>
    intro u s up whole new
    have soft : SoftChange 5 (timDue (s.frm u).acceptTti) := .inr (by decide)
    have kept := putDefect_beyond soft u (raise 0x0503 u [] false (modFramer u Framer.acceptTti s))
    have frm : (raise 0x0503 u [] false (modFramer u Framer.acceptTti s)).frm u = (s.frm u).acceptTti := by
      rw [raise_frm, modFramer_frm]
    obtain ⟨e, mem, code, unit, -⟩ := putDefect_raised soft u 0x0503 u [] false (modFramer u Framer.acceptTti s)
    refine ⟨_, congrArg Host.Outcome.next (ttiAccept_accepts up whole new), ?_, fun fine => ?_, e, mem, code, unit⟩
    · refine (congrArg Framer.accTti kept :).trans ?_
      rw [frm]
      rfl
    · rw [timDue_of_beyond kept, putDefect_has_fine (by decide) (by rw [frm]; exact fine), frm]
  case payloadType =>
    intro u s up path thrice
    have plm : SoftChange 15 ((tblGet {} (s.frm u).psi 0).value != 0x22) := .inr (by decide)
    have msim (on : Bool) : SoftChange 16 on := .inr (by decide)
    have path' : (modFramer u Framer.acceptPsi s).pathLost u = false := by
      unfold State.pathLost
      rw [modFramer_frm]
      exact path
    refine ⟨_, congrArg Host.Outcome.next (psiAccept_accepts up path thrice), ?_, ?_⟩
    · unfold judgeMsim
      refine (congrArg Framer.accPt ((putDefect_beyond (msim _) ..).trans (putDefect_beyond plm ..)) :).trans ?_
      rw [modFramer_frm]
      exact if_pos thrice
    · unfold judgeMsim
      rw [putDefect_has_path (putDefect_pathLost path' plm) (msim _) (by decide), if_neg (by decide),
        putDefect_has_path path' plm (by decide), if_pos rfl]
  case passed =>
    intro u s up
    refine ⟨_, congrArg Host.Outcome.next (passedBytesAccept_accepts up), modFramer_only _ _ s, fun i below => ?_⟩
    have listed : i ∈ [0, 1, 2, 3] := by simp; omega
    rw [modFramer_frm]
    simpa only [listed, true_and] using tblGet_acceptPassed (s.frm u) (l := [0, 1, 2, 3]) (by decide) (s.frm u).accPassed i
  case tag =>
    intro u s up thrice
    have soft : SoftChange 18 (ltmDue (s.frm u).acceptTag) := .inr (by decide)
    have kept := putDefect_beyond soft u (modFramer u Framer.acceptTag s)
    have frm : (modFramer u Framer.acceptTag s).frm u = (s.frm u).acceptTag := modFramer_frm ..
    refine ⟨_, congrArg Host.Outcome.next (linkTagAccept_accepts up thrice), ?_, fun fine => ?_⟩
    · refine (congrArg Framer.accTag kept :).trans ?_
      rw [frm]
      rfl
    · rw [ltmDue_of_beyond kept, putDefect_has_fine (by decide) (by rw [frm]; exact fine), frm]

end

section
/-! PROOFS. One OTUCn frame sent (R245) or received (R246 to R249), and the FRAMER commands (R258, R260, R264, R265, R267). -/

-- One theorem after another: with a thread for each, the package as one text outgrows the checker's memory limit.
set_option Elab.async false

namespace Sys2Proof.Machine

/-! Counting and tracing. -/

/-- A count of a later family leaves those of the framers. -/
theorem bump_live_later {fam f i e : Nat} (later : f < fam) (inst_ : i < 2 ^ 17) (event : e < 128) (inst ev n : Nat) (s : State) :
    (bump fam inst ev n s).live f i e = s.live f i e := by
  have ne : pmKey f i e ≠ pmKey fam inst ev := by unfold pmKey; omega
  by_cases hn : n = 0
  · subst hn; rfl
  · rw [bump_live fam inst ev hn, tblGet_mod_other _ _ ne]; rfl

/-- A work item traced is counted in its counting unit alone. -/
theorem traceItem_live (u dir inst flags item queue addr latency len : Nat) (s : State) (f i e : Nat) :
    (traceItem u dir inst flags item queue addr latency len s).live f i e = s.live f i e := by
  have drawn (k : Nat) (s : State) : (drawPick k s).2.live f i e = s.live f i e := by unfold drawPick; split <;> rfl
  have written (pick : Bool) (g : CountUnit → CountUnit) (r : List Byte) (t : State) :
      (if pick then writeRecord u 1 r (modCountUnit u g t) else modCountUnit u g t).live f i e = t.live f i e := by cases pick <;> rfl
  unfold traceItem
  dsimp only
  split
  · rfl
  · split
    · exact written ..
    · exact (written ..).trans (drawn _ s)

theorem drawNat_frm (s : State) (u : Nat) : (drawNat s).2.frm u = s.frm u := rfl
theorem drawNat_cu (s : State) (u : Nat) : (drawNat s).2.cu u = s.cu u := rfl
theorem drawNat_live (s : State) (f i e : Nat) : (drawNat s).2.live f i e = s.live f i e := rfl

theorem modFramer_blocksRun (u : Nat) (f : Framer → Framer) (s : State) : (modFramer u f s).blocksRun = s.blocksRun := by
  unfold State.blocksRun State.hubUp
  rw [modFramer_sill, modFramer_control]

theorem traceItem_frm (u dir inst flags item queue addr latency len : Nat) (s : State) (v : Nat) :
    (traceItem u dir inst flags item queue addr latency len s).frm v = s.frm v :=
  frm_of_framer (traceItem_only u dir inst flags item queue addr latency len s .framer rfl) v
theorem traceItem_cu (u dir inst flags item queue addr latency len : Nat) (s : State) (v : Nat) :
    (traceItem u dir inst flags item queue addr latency len s).cu v = s.cu v :=
  cu_of_carrier (traceItem_only u dir inst flags item queue addr latency len s .carrier rfl) v

/-! What sending a frame keeps until it is handed to the carrier unit. -/

/-- From `s` to `t` unit `u` has counted no frame as sent, blocks run as before, and only these parts have changed. -/
structure SendKeeps (u : Nat) (s t : State) : Prop where
  frames : t.live pmFramer u 16 = s.live pmFramer u 16
  blocks : t.blocksRun = s.blocksRun
  only : OnlyChanges [.sill, .control, .counters, .framer, .client, .security] s t

namespace SendKeeps

variable {u : Nat} {s t v : State}

theorem refl (u : Nat) (s : State) : SendKeeps u s s := ⟨rfl, rfl, .refl _ s⟩

theorem trans (a : SendKeeps u s t) (b : SendKeeps u t v) : SendKeeps u s v :=
  ⟨b.frames.trans a.frames, b.blocks.trans a.blocks, a.only.trans b.only⟩

theorem ite {c : Prop} [Decidable c] (a : SendKeeps u s t) (b : SendKeeps u s v) : SendKeeps u s (if c then t else v) := by
  split
  · exact a
  · exact b

/-- A change of the framers, the client side and the line's security alone. -/
theorem ofFrame (a : SendKeeps u s t) {ps : List Part} (h : OnlyChanges ps t v)
    (inside : ps.all (fun p => [Part.framer, .client, .security].contains p) = true) : SendKeeps u s v := by
  have h' : OnlyChanges [.framer, .client, .security] t v := h.mono inside
  refine a.trans ⟨live_of_counters (h' .counters rfl) .., ?_, h'.mono rfl⟩
  unfold State.blocksRun State.hubUp
  rw [h' .sill rfl, h' .control rfl]

theorem modFramer (a : SendKeeps u s t) (h : Nat) (f : Framer → Framer) : SendKeeps u s (Machine.modFramer h f t) :=
  a.ofFrame (modFramer_only h f t) rfl
theorem modChannel (a : SendKeeps u s t) (h d : Nat) (f : Channel → Channel) : SendKeeps u s (Machine.modChannel h d f t) :=
  a.ofFrame (modChannel_only h d f t) rfl
theorem modSlot (a : SendKeeps u s t) (i : Nat) (f : KeySlot → KeySlot) : SendKeeps u s (Machine.modSlot i f t) :=
  a.ofFrame (modSlot_only i f t) rfl

theorem bump {fam inst ev n : Nat} (a : SendKeeps u s t) (h : 16 % 128 ≠ ev % 128 := by decide) :
    SendKeeps u s (Machine.bump fam inst ev n t) := by
  refine a.trans ⟨bump_live_other h .., ?_, (bump_only fam inst ev n t).mono rfl⟩
  unfold State.blocksRun State.hubUp
  rw [bump_sill, bump_control]

theorem raise (a : SendKeeps u s t) (code unit : Nat) (pl : List Byte) (urgent : Bool) :
    SendKeeps u s (Machine.raise code unit pl urgent t) := by
  refine a.trans ⟨raise_live (by decide) .., ?_, (raise_only code unit pl urgent t).mono rfl⟩
  unfold State.blocksRun State.hubUp
  rw [raise_sill, raise_control]

theorem squelch (a : SendKeeps u s t) (h cause : Nat) : SendKeeps u s (Machine.squelch h cause t) := by
  unfold Machine.squelch
  exact .ite a (.raise (a.modChannel ..) ..)

theorem nonceWarn (a : SendKeeps u s t) (unit i warn : Nat) : SendKeeps u s (Machine.nonceWarn unit i warn t) := by
  unfold Machine.nonceWarn
  exact .ite a (.raise (a.modSlot ..) ..)

theorem putDefect {bit : Nat} {on : Bool} (a : SendKeeps u s t) (soft : SoftChange bit on) (h : Nat) :
    SendKeeps u s (Machine.putDefect h bit on t) := by
  rw [putDefect_soft soft]
  by_cases same : maskDefects (t.mergedHolds h) (withDefect (t.frm h).defects bit on) = (t.frm h).defects
  · rw [writeDefects_same same]
    exact a
  · rw [writeDefects_change same]
    unfold defectEvent
    split
    · exact .modFramer (.modFramer a ..) ..
    · exact .raise (.modFramer (.modFramer a ..) ..) ..

theorem encryptFrame (a : SendKeeps u s t) (h omfi : Nat) (slices : List (List Byte)) :
    SendKeeps u s (Machine.encryptFrame h omfi slices t).2 := by
  unfold Machine.encryptFrame
  dsimp only
  refine .ite (.squelch ?_ ..) ?_ <;> exact .nonceWarn (.bump (.modChannel (.modSlot a ..) ..)) ..

end SendKeeps

/-! One frame sent (R245). -/

/-- A frame of a unit of no twin group: built, encrypted where its channel asks for it, numbered, and handed to the unit itself. -/
theorem sendOtu_alone {h : Nat} {s : State} (alone : s.twinOf h = none) (n : Nat) (load : OtuLoad) :
    ∃ out epoch t, sendOtu h n [h] load s = handOff h (s.frm h).txMfas out epoch none t ∧ SendKeeps h s t ∧
      (t.frm h).txMfas = ((s.frm h).txMfas + 1) % 256 := by
  generalize sent : sendOtu h n [h] load s = r
  unfold sendOtu at sent
  extract_lets mfas omfi begun secure keyed squelched m plain epoch sec at sent
  have begins : SendKeeps h s begun := by
    refine .modFramer (.ite ?_ (.refl h s)) ..
    exact .putDefect (.ofFrame (.refl h s) (applyAllocs_only h s) rfl) (.inr (by decide)) h
  have keys : SendKeeps h s keyed := by
    refine .ite ?_ begins
    split
    · exact begins.squelch ..
    · exact begins
  have seals : SendKeeps h s (if secure = true ∧ m = 0 then encryptFrame h omfi plain keyed else
      (plain, modChannel h 0 (fun c => { c with wait := none }) (bump pmFramer h 25 (b2n squelched) keyed))).2 := by
    split
    · exact keys.encryptFrame ..
    · exact .modChannel keys.bump ..
  generalize (if secure = true ∧ m = 0 then encryptFrame h omfi plain keyed else
    (plain, modChannel h 0 (fun c => { c with wait := none }) (bump pmFramer h 25 (b2n squelched) keyed))) = sealed at sent seals
  obtain ⟨out, t⟩ := sealed
  dsimp only at sent seals
  have alone' : t.twinOf h = none := (twinOf_of_protect (seals.only .protect rfl) h).trans alone
  rw [alone'] at sent
  refine ⟨out, epoch, _, sent.symm, seals.modFramer .., ?_⟩
  rw [modFramer_frm]

/-- A running transmit takes the frame: it is marked, counted, and of the framer only what accompanies it changes (R256, R296). -/
theorem handOff_runs {v : Nat} {s : State} (runs : s.txRuns v = true) (mfas : Nat) (slices : List (List Byte)) (epoch : Bool)
    (twin : Option Word32) : ((handOff v mfas slices epoch twin s).frm v).txMfas = (s.frm v).txMfas ∧
      ((handOff v mfas slices epoch twin s).cu v).otuMarks.length = (s.cu v).otuMarks.length + 1 ∧
      (handOff v mfas slices epoch twin s).live pmFramer v 16 = s.live pmFramer v 16 + 1 := by
  have runs' (f : Framer → Framer) : (modFramer v f s).txRuns v = true :=
    (txRuns_congr (s := s) (modFramer_blocksRun v f s) rfl rfl rfl rfl).trans runs
  unfold handOff
  extract_lets own bits marked queued counted
  rw [if_neg (by rw [runs', Bool.not_true]; exact Bool.false_ne_true)]
  have framer : (counted.frm v).txMfas = (s.frm v).txMfas := by
    rw [modFramer_frm]
    change (queued.frm v).txMfas = _
    rw [frm_of_framer (s := marked) (modCu_framer ..), modFramer_frm]
  have marks : (counted.cu v).otuMarks.length = (s.cu v).otuMarks.length + 1 := by
    rw [cu_of_carrier (s := queued) (modFramer_carrier ..), modCu_cu, List.length_append, cu_of_carrier (s := s) (modFramer_carrier ..)]
    rfl
  have count : counted.counters = s.counters :=
    (modFramer_counters ..).trans ((modCu_counters ..).trans (modFramer_counters ..))
  dsimp only
  rw [traceItem_frm, traceItem_cu, traceItem_live, bump_frm, bump_cu, bump_live_same, drawNat_frm, drawNat_cu, drawNat_live,
    live_of_counters count]
  exact ⟨framer, marks, rfl⟩

/-- A unit of no twin group, on a running transmit with a native format, sends its frame. -/
theorem otucnFrameTx_alone {u : Nat} {f : Format} {s : State} (noPartner : s.twinPartner u = false) (alone : s.twinOf u = none)
    (runs : s.txRuns u = true) (native : (s.cu u).nativeTx = some f) (load : OtuLoad) :
    otucnFrameTx u load s = sendOtu u f.otucN [u] load s := by
  have traffic : s.trafficRuns = true := by
    unfold State.txRuns at runs
    simp only [Bool.and_eq_true] at runs
    obtain ⟨⟨⟨traffic, -⟩, -⟩, -⟩ := runs
    exact traffic
  unfold otucnFrameTx
  simp [noPartner, alone, traffic, native]

theorem otucnFrameTx_sends {u : Nat} {f : Format} {s : State} (noPartner : s.twinPartner u = false) (alone : s.twinOf u = none)
    (runs : s.txRuns u = true) (native : (s.cu u).nativeTx = some f) (load : OtuLoad) :
    ((otucnFrameTx u load s).frm u).txMfas = ((s.frm u).txMfas + 1) % 256 ∧
      ((otucnFrameTx u load s).cu u).otuMarks.length = (s.cu u).otuMarks.length + 1 ∧
      (otucnFrameTx u load s).live pmFramer u 16 = s.live pmFramer u 16 + 1 := by
  obtain ⟨out, epoch, t, hands, kept, mfas⟩ := sendOtu_alone alone f.otucN load
  have unit : t.cu u = s.cu u := cu_of_carrier (kept.only .carrier rfl) u
  have runs' : t.txRuns u = true := (txRuns_congr kept.blocks (kept.only .pins rfl) (kept.only .power rfl) (by rw [unit])
    (by rw [unit])).trans runs
  obtain ⟨number, marks, count⟩ := handOff_runs runs' (s.frm u).txMfas out epoch none
  rw [otucnFrameTx_alone noPartner alone runs native, hands, number, marks, count, mfas, unit, kept.frames]
  exact ⟨rfl, rfl, rfl⟩

/-! What receiving a frame keeps once it is aligned and counted. -/

/-- From `s` to `t` the framer of unit `u` keeps its alignment, and counts no frame as received in frame (event 0). -/
structure ReceiveKeeps (u : Nat) (s t : State) : Prop where
  state : (t.frm u).state = (s.frm u).state
  mfas : (t.frm u).mfas = (s.frm u).mfas
  frames : t.live pmFramer u 0 = s.live pmFramer u 0

namespace ReceiveKeeps

variable {u : Nat} {s t v : State}

theorem refl (u : Nat) (s : State) : ReceiveKeeps u s s := ⟨rfl, rfl, rfl⟩

theorem trans (a : ReceiveKeeps u s t) (b : ReceiveKeeps u t v) : ReceiveKeeps u s v :=
  ⟨b.state.trans a.state, b.mfas.trans a.mfas, b.frames.trans a.frames⟩

theorem ite {c : Prop} [Decidable c] (a : ReceiveKeeps u s t) (b : ReceiveKeeps u s v) : ReceiveKeeps u s (if c then t else v) := by
  split
  · exact a
  · exact b

theorem itePair {α : Type} {c : Prop} [Decidable c] {p q : α × State} (a : ReceiveKeeps u s p.2) (b : ReceiveKeeps u s q.2) :
    ReceiveKeeps u s (if c then p else q).2 := by
  split
  · exact a
  · exact b

theorem each {α : Type} {f : α → State → State} (h : ∀ x s, ReceiveKeeps u s (f x s)) :
    ∀ (l : List α) (s : State), ReceiveKeeps u s (forEach l f s)
  | [], s => refl u s
  | x :: r, s => (h x s).trans (each h r (f x s))

/-- A change of neither the framers nor the counters. -/
theorem ofFrame (a : ReceiveKeeps u s t) {ps : List Part} (h : OnlyChanges ps t v) (framer : ps.contains .framer = false)
    (counters : ps.contains .counters = false) : ReceiveKeeps u s v :=
  have same : v.frm u = t.frm u := frm_of_framer (h .framer framer) u
  a.trans ⟨by rw [same], by rw [same], live_of_counters (h .counters counters) ..⟩

theorem modChannel (a : ReceiveKeeps u s t) (h d : Nat) (f : Channel → Channel) : ReceiveKeeps u s (Machine.modChannel h d f t) :=
  a.ofFrame (modChannel_only h d f t) rfl rfl

/-- Counting another event. -/
theorem bump {fam inst ev n : Nat} (a : ReceiveKeeps u s t) (h : 0 % 128 ≠ ev % 128 := by decide) :
    ReceiveKeeps u s (Machine.bump fam inst ev n t) :=
  a.trans ⟨by rw [bump_frm], by rw [bump_frm], bump_live_other h ..⟩

/-- Counting in a tributary. -/
theorem bumpTrib (a : ReceiveKeeps u s t) (unit : u < 4) (inst ev n : Nat) : ReceiveKeeps u s (Machine.bump pmTrib inst ev n t) :=
  a.trans ⟨by rw [bump_frm], by rw [bump_frm], bump_live_later (by decide) (by omega) (by decide) ..⟩

theorem raise (a : ReceiveKeeps u s t) (code unit : Nat) (pl : List Byte) (urgent : Bool) :
    ReceiveKeeps u s (Machine.raise code unit pl urgent t) :=
  a.trans ⟨by rw [raise_frm], by rw [raise_frm], raise_live (by decide) ..⟩

/-- A change of the framer that leaves its alignment. -/
theorem modFramer {f : Framer → Framer} (a : ReceiveKeeps u s t) (state : ∀ x, (f x).state = x.state := by intro; rfl)
    (mfas : ∀ x, (f x).mfas = x.mfas := by intro; rfl) : ReceiveKeeps u s (Machine.modFramer u f t) :=
  a.trans ⟨by rw [modFramer_frm, state], by rw [modFramer_frm, mfas], rfl⟩

theorem putDefect {bit : Nat} {on : Bool} (a : ReceiveKeeps u s t) (soft : SoftChange bit on) :
    ReceiveKeeps u s (Machine.putDefect u bit on t) :=
  have beyond := putDefect_beyond soft u t
  a.trans ⟨Framer.state_of_beyond beyond, Framer.mfas_of_beyond beyond, putDefect_live_soft soft (by decide) ..⟩

theorem runDefect (a : ReceiveKeeps u s t) (bit : Nat) (on : Bool) : ReceiveKeeps u s (Machine.runDefect u bit on t) := by
  unfold Machine.runDefect
  exact .ite a a.modFramer

end ReceiveKeeps

theorem ttiStep_alignment (mfas : Nat) (b : Byte) (f : Framer) : (ttiStep mfas b f).state = f.state ∧ (ttiStep mfas b f).mfas = f.mfas := by
  constructor <;> unfold ttiStep <;> extract_lets <;> split <;> rfl

theorem apsStep_alignment (v : Nat) (f : Framer) : (apsStep v f).state = f.state ∧ (apsStep v f).mfas = f.mfas := by
  constructor <;> unfold apsStep <;> extract_lets <;> split <;> rfl

theorem sectionFrame_keeps (u mfas : Nat) (slices : List (List Byte)) (s : State) : ReceiveKeeps u s (sectionFrame u mfas slices s) := by
  unfold sectionFrame
  extract_lets f head sm viol bei errors counted pairs taken judged f' matched
  have counts : ReceiveKeeps u s counted := .ite (.refl u s) (.bump (.bump (.bump (.bump (.refl u s)))))
  have takes : ReceiveKeeps u s taken := by
    refine counts.modFramer (fun x => ?_) (fun x => ?_) <;> dsimp only <;> split
    · exact (apsStep_alignment ..).1.trans (ttiStep_alignment ..).1
    · exact (ttiStep_alignment ..).1
    · exact (apsStep_alignment ..).2.trans (ttiStep_alignment ..).2
    · exact (ttiStep_alignment ..).2
  have judges : ReceiveKeeps u s judged := .runDefect (.runDefect (.runDefect takes ..) ..) ..
  have matches_ : ReceiveKeeps u s matched := .putDefect (.putDefect judges (.inr (by decide))) (.inr (by decide))
  exact .ite (matches_.putDefect (.inl rfl)) matches_

theorem decryptFrame_keeps (u omfi : Nat) (epoch : Bool) (slices : List (List Byte)) (s : State) :
    ReceiveKeeps u s (decryptFrame u omfi epoch slices s).2 := by
  unfold decryptFrame
  extract_lets c pos sec bl b0 b1 checked c' counter seen key refused
  have checks : ReceiveKeeps u s checked := by
    unfold checked
    split
    · refine .ite (.refl u s) (.ite ?_ ?_) <;> exact .bump (.modChannel (.refl u s) ..)
    · exact .refl u s
  have refuses : ReceiveKeeps u s refused := .bump (.modChannel checks ..)
  clear_value key
  cases key with
  | none => exact .ite (refuses.raise ..) refuses
  | some k =>
    refine .itePair ?_ (.modChannel checks ..)
    dsimp only
    exact .bump (.modFramer (.modChannel checks ..))

/-- The path of a received frame, on a unit of the device. -/
theorem pathFrame_keeps {u : Nat} (unit : u < 4) (mfas : Nat) (epoch : Bool) (slices : List (List Byte)) (errs : List (Nat × Nat))
    (s : State) : ReceiveKeeps u s (pathFrame u mfas epoch slices errs s) := by
  unfold pathFrame
  extract_lets head f pm stat omfi lost blocked
  have decrypts : ReceiveKeeps u s (if ((s.channel u 1).secure && !blocked) = true then decryptFrame u omfi epoch slices s
      else (slices, dropTag u s)).2 :=
    .itePair (decryptFrame_keeps ..) (.ofFrame (.refl u s) (dropTag_only u s) rfl rfl)
  generalize (if ((s.channel u 1).secure && !blocked) = true then decryptFrame u omfi epoch slices s
      else (slices, dropTag u s)) = decrypted at decrypts ⊢
  obtain ⟨plain, t⟩ := decrypted
  dsimp only at decrypts
  dsimp -zeta only
  extract_lets counts viol errors backward counted evaluated judged tallied
  have tallies : ReceiveKeeps u s counted := .ite decrypts (.bump (.bump (.bump (.bump decrypts))))
  have evaluates : ReceiveKeeps u s evaluated := tallies.modFramer
  have judges : ReceiveKeeps u s judged := .runDefect (.runDefect (.runDefect (.runDefect evaluates ..) ..) ..) ..
  have tells : ReceiveKeeps u s tallied := judges.trans (.each (fun e t => .bumpTrib (.refl u t) unit ..) errs judged)
  refine .ite tells (tells.trans (.each (fun x t => ?_) _ tallied))
  split
  · exact .bumpTrib (.refl u t) unit ..
  · exact .refl u t

/-! A frame in frame (R247 to R249). -/

theorem inFrameOtu_advances {u : Nat} (unit : u < 4) (seen : OtuSeen) (s : State) :
    ((inFrameOtu u seen s).frm u).mfas = ((s.frm u).mfas + 1) % 256 ∧ ((inFrameOtu u seen s).frm u).state = (s.frm u).state ∧
      (inFrameOtu u seen s).live pmFramer u 0 = s.live pmFramer u 0 + 1 := by
  unfold inFrameOtu
  extract_lets c moved head m errored mfas counted aligned gained sectioned paced handed
  have count : counted.live pmFramer u 0 = s.live pmFramer u 0 + 1 := by
    rw [bump_live_other (by decide), bump_live_other (by decide), bump_live_same, bump_live_other (by decide)]
  have place : (aligned.frm u).mfas = ((s.frm u).mfas + 1) % 256 ∧ (aligned.frm u).state = (s.frm u).state := by
    rw [modFramer_frm, bump_frm, bump_frm, bump_frm, bump_frm]
    exact ⟨rfl, rfl⟩
  have gains : ReceiveKeeps u aligned gained := .ite (.refl u aligned) (.ofFrame (.refl u aligned) (framerGained_only u _) rfl rfl)
  have paces : ReceiveKeeps u aligned paced :=
    .ofFrame (gains.trans (sectionFrame_keeps u mfas seen.slices gained)) (modCu_only u _ sectioned) rfl rfl
  have hands : ReceiveKeeps u aligned handed := paces.trans (.ite (.modFramer (.refl u paced)) (pathFrame_keeps unit ..))
  dsimp only
  rw [traceItem_frm, traceItem_live, drawNat_frm, drawNat_live, hands.mfas, hands.state, hands.frames]
  exact ⟨place.1, place.2, count⟩

/-! A frame period (R246, R248). -/

theorem rxSettings_frm (u : Nat) (s : State) : (rxSettings u s).frm u = { s.frm u with rxSet := (s.frm u).set } := modFramer_frm ..

section
variable {u : Nat} {seen : OtuSeen} {f : Format} {s : State} (runs : s.trafficRuns = true) (enabled : (s.cu u).rxEn = true)
  (format : (s.cu u).fmtRx = some f) (native : f.lineMode = 0)
include runs enabled format native

theorem otucnFrameRx_invalid (marked : seen.valid = false ∨ (s.cu u).acq ≠ 7 ∨ (s.cu u).rxValid = false) :
    otucnFrameRx u seen s = invalidOtu u (rxSettings u s) := by
  have bad : (!seen.valid || (s.cu u).acq != 7 || !(s.cu u).rxValid) = true := by
    rcases marked with h | h | h <;> simp [h]
  unfold otucnFrameRx
  simp [format, runs, enabled, native, bad]

theorem otucnFrameRx_valid (valid : seen.valid = true) (tracking : (s.cu u).acq = 7) (good : (s.cu u).rxValid = true) :
    otucnFrameRx u seen s = validOtu u f.otucN seen (rxSettings u s) := by
  unfold otucnFrameRx
  simp [format, runs, enabled, native, valid, tracking, good]

end

/-- An invalid frame period is counted, and SSF stands. -/
theorem invalidOtu_counts (u : Nat) (s : State) : ((invalidOtu u s).frm u).has 0 = true ∧
    (invalidOtu u s).live pmFramer u 1 = s.live pmFramer u 1 + 1 := by
  unfold invalidOtu
  extract_lets held fails counted missed
  have count : counted.live pmFramer u 1 = s.live pmFramer u 1 + 1 := by
    rw [bump_live_other (by decide), bump_live_same]
    refine congrArg (· + 1) ?_
    split
    · exact bump_live_other (by decide) ..
    · rfl
  have miss : missed.counters = counted.counters := missFrame_only u counted .counters rfl
  refine ⟨putDefect_sets (by decide) u missed, ?_⟩
  rw [putDefect_live (by decide) (by decide), live_of_counters miss, count]

section
variable {u n : Nat} {s : State} (same : (s.frm u).n = n)
include same

/-- Where n is as before, clearing SSF leaves it so, and leaves the state of the framer. -/
theorem clearSsf_keeps : ((putDefect u 0 false s).frm u).n = n ∧ ((putDefect u 0 false s).frm u).state = (s.frm u).state := by
  have beyond := putDefect_beyond (bit := 0) (.inl rfl) u s
  exact ⟨(congrArg Framer.n beyond :).trans same, Framer.state_of_beyond beyond⟩

theorem validOtu_hunts (hunts : (s.frm u).state = 1 ∨ (s.frm u).state = 2) (seen : OtuSeen) :
    validOtu u n seen s = huntOtu u seen (putDefect u 0 false s) := by
  obtain ⟨n', state'⟩ := clearSsf_keeps same
  unfold validOtu
  dsimp only
  rw [if_pos n', state']
  rcases hunts with state | state <;> rw [state] <;> rfl

theorem validOtu_inFrame (state : (s.frm u).state = 3) (seen : OtuSeen) :
    validOtu u n seen s = inFrameOtu u seen (putDefect u 0 false s) := by
  obtain ⟨n', state'⟩ := clearSsf_keeps same
  unfold validOtu
  dsimp only
  rw [if_pos n', state', state]
  rfl

end

section
variable {u : Nat} {seen : OtuSeen} {s : State} (hunts : (s.frm u).state = 1 ∨ (s.frm u).state = 2)
  (whole : (seen.slices.headD []).take 6 = fas)
include hunts whole

/-- An exact FAS makes a candidate. -/
theorem huntOtu_first (none_ : (s.frm u).verify = 0) :
    ((huntOtu u seen s).frm u).state = 2 ∧ ((huntOtu u seen s).frm u).verify = 1 := by
  have lost : (s.frm u).state ≠ 4 := by omega
  unfold huntOtu
  dsimp only
  rw [if_pos none_, if_pos (beq_iff_eq.mpr whole), modFramer_frm]
  exact ⟨if_neg lost, rfl⟩

/-- The third exact FAS, with MFAS in sequence, takes the position. -/
theorem huntOtu_third (twice : (s.frm u).verify = 2)
    (next : u8 (cell (seen.slices.headD []) 1 7 1) 0 = ((s.frm u).candMfas + 1) % 256) : ((huntOtu u seen s).frm u).state = 3 := by
  have lost : (s.frm u).state ≠ 4 := by omega
  unfold huntOtu
  dsimp only
  rw [if_neg (by omega), if_pos (by rw [Bool.and_eq_true, beq_iff_eq, beq_iff_eq]; exact ⟨whole, next⟩), if_neg (by omega),
    if_neg lost, modFramer_frm]

end

/-! The FRAMER commands (R258, R260, R264, R265, R267). -/

theorem admitted_frm (code : Nat) (q : Request) (s : State) (u : Nat) : (admitted code q s).frm u = s.frm u :=
  frm_of_framer (admitted_only code q s .framer rfl) u

theorem admitted_native (code : Nat) (q : Request) (s : State) (u : Nat) : (admitted code q s).native u = s.native u := by
  unfold State.native
  rw [admitted_cu]

/-- A field that begins behind a part of the string. -/
theorem bytesAt_behind {a : List Byte} {k : Nat} (h : a.length = k) (r : List Byte) (off n : Nat) :
    bytesAt (a ++ r) (k + off) n = bytesAt r off n := by
  unfold bytesAt
  rw [← List.drop_drop, List.drop_left' h]

section
variable {q : Request} {s : State} (unit : q.u < 4)
include unit

theorem framerSetDegrade_holds (deg : 2 ≤ q.b 4 ∧ q.b 4 ≤ 10) (pre : 2 ≤ q.b 5 ∧ q.b 5 ≤ 10) (reserved : q.h 6 = 0)
    (set : q.w 8 ≤ 500000000) (clear : q.w 12 ≤ q.w 8) : framerSetDegrade q s =
      .okay (modFramer q.u (fun f => { f with degNext := some ⟨q.w 0, q.b 4, q.b 5, q.w 8, q.w 12⟩ }) s) :=
  checked_pass _ _ _ (by simp [unitBelow, inByte, inWord, resv, unit, deg, pre, isZero_of_half reserved, set, clear])

theorem framerGetStatus_answers : ∃ pl, framerGetStatus q s = .okWith pl s ∧ pl.length = 32 ∧
    bytesAt pl 4 4 = be 4 (if s.native q.u then (s.frm q.u).defects else (s.frm q.u).defects &&& 0x401) := by
  refine ⟨_, checked_pass _ _ _ (unitBelow_pass unit), by simp, ?_⟩
  simp only [List.append_assoc]
  refine (bytesAt_behind (be_length 1 _) _ 3 4).trans ((bytesAt_behind (be_length 1 _) _ 2 4).trans
    ((bytesAt_behind (zeros_length 2) _ 0 4).trans ?_))
  exact List.take_left' (be_length 4 _)

theorem framerGetOverhead_refused (agreed : s.native q.u = false) : framerGetOverhead q s = .refuse .state s := by
  unfold framerGetOverhead
  rw [checked_pass _ _ _ (unitBelow_pass unit)]
  exact require_first agreed _ _ _

theorem framerGetCounts_refused (agreed : s.native q.u = false) : framerGetCounts q s = .refuse .state s := by
  unfold framerGetCounts
  rw [checked_pass _ _ _ (unitBelow_pass unit)]
  exact require_first agreed _ _ _

section
variable (native : s.native q.u = true)
include native

/-- A setting of a unit with a native format, whose fields are in range, is carried out. -/
theorem framerSetting_holds {cs : List (Bool × Nat)} (legal : cs.all (fun c => c.1) = true) (k : Reply) :
    checked (unitBelow q 4 :: cs) s (require [(s.native q.u, .state)] s k) = k := by
  have unit' : (unitBelow q 4).1 = true := decide_eq_true unit
  rw [checked_pass _ _ _ (by rw [List.all_cons, unit', legal]; rfl), require_pass _ _ _ (by simp [native])]

theorem framerSetTti_holds (mode : q.b 96 ≤ 3) (act : q.b 97 ≤ 1) (reserved : q.h 98 = 0) : framerSetTti q s =
    .okay (modFramer q.u (fun f => { f with set := { f.set with
      tti := bytesAt q.payload 0 64, sapi := bytesAt q.payload 64 16, dapi := bytesAt q.payload 80 16, timMode := q.b 96
      timAct := q.b 97 } }) s) :=
  framerSetting_holds unit native (by simp [inByte, resv, mode, act, isZero_of_half reserved]) _

theorem framerSetAps_holds (times : q.b 4 = 0 ∨ (2 ≤ q.b 4 ∧ q.b 4 ≤ 15)) (reserved : isZero q.payload 5 3 = true) :
    framerSetAps q s = .okay (modFramer q.u (fun f => { f with set := { f.set with
      aps := q.w 0, apsN := if q.b 4 = 0 then f.set.apsN else q.b 4 } }) s) :=
  framerSetting_holds unit native (by simp [resv, times, reserved]) _

theorem framerSetOverhead_holds (check : q.b 10 ≤ 1) (reserved : q.b 11 = 0) : framerSetOverhead q s =
    .okay (modFramer q.u (fun f => { f with set := { f.set with
      gcc0 := q.h 0, gcc1 := q.h 2, gcc2 := q.h 4, exp := q.h 6, linkId := q.h 8, tagCheck := q.b 10, expTag := q.w 12 } }) s) :=
  framerSetting_holds unit native (by simp [inByte, resv, check, isZero_of_byte reserved]) _

theorem framerSetMaint_holds (signal : q.b 0 ≤ 3) (reserved : isZero q.payload 1 3 = true) : framerSetMaint q s =
    .okay (modFramer q.u (fun f => { f with set := { f.set with maint := q.b 0 } }) s) :=
  framerSetting_holds unit native (by simp [inByte, resv, signal, reserved]) _

theorem framerGetOverhead_answers : ∃ pl, framerGetOverhead q s = .okWith pl s ∧ pl.length = 152 ∧
    pl.take 64 = fitBytes 64 ((s.frm q.u).accTti.getD []) := by
  refine ⟨_, framerSetting_holds unit native rfl _, ?_, ?_⟩
  · rw [List.length_append, List.length_append, fitBytes_length, flatMap_length _ _ 2 (fun i _ => be_length 2 _),
      flatMap_length _ _ 1 (fun i _ => be_length 1 _), List.length_range]
    rfl
  · rw [List.append_assoc]
    exact List.take_left' (fitBytes_length 64 _)

theorem framerGetCounts_answers : framerGetCounts q s = .okWith (countsReply s pmFramer q.u 0 17) s :=
  framerSetting_holds unit native rfl _

end
end

end Sys2Proof.Machine
open Sys2Proof Sys2Proof.Machine

/-- Settles O29: a frame sent keeps what its handing over turns on; a frame received is invalid, in frame or hunted; and each
command is its own part on the state that taking the request leaves. -/
theorem framesAndFramerCommands : Obligations.FramesAndFramerCommands := by
  refine ⟨?sent, ?received, ?tti, ?degrade, ?aps, ?overhead, ?maint, ?status, ?getOverhead, ?counts⟩
  case sent =>
    intro u load f s noPartner alone runs native
    exact ⟨_, rfl, otucnFrameTx_sends noPartner alone runs native load⟩
  case received =>
    intro u seen f s runs enabled format native
    refine ⟨fun marked => ⟨_, congrArg Host.Outcome.next (otucnFrameRx_invalid runs enabled format native marked),
      invalidOtu_counts u (rxSettings u s)⟩, fun valid tracking good same => ?_⟩
    have receives := otucnFrameRx_valid runs enabled format native valid tracking good
    have frm := rxSettings_frm u s
    have same' : ((rxSettings u s).frm u).n = f.otucN := by rw [frm]; exact same
    have kept := putDefect_beyond (bit := 0) (on := false) (.inl rfl) u (rxSettings u s)
    have state : ((putDefect u 0 false (rxSettings u s)).frm u).state = (s.frm u).state := by rw [Framer.state_of_beyond kept, frm]
    refine ⟨fun inFrame => ?_, fun hunts whole => ⟨fun none_ => ?_, fun twice next => ?_⟩⟩
    · refine ⟨_, congrArg Host.Outcome.next receives, ?_⟩
      obtain ⟨mfas, stays, count⟩ := inFrameOtu_advances u.isLt seen (putDefect u 0 false (rxSettings u s))
      rw [validOtu_inFrame same' (by rw [frm]; exact inFrame), mfas, stays, count, state, Framer.mfas_of_beyond kept,
        putDefect_live (by decide) (by decide), frm]
      exact ⟨rfl, inFrame, rfl⟩
    · refine ⟨_, congrArg Host.Outcome.next receives, ?_⟩
      rw [validOtu_hunts same' (by rw [frm]; exact hunts)]
      exact huntOtu_first (by rw [state]; exact hunts) whole (by rw [Framer.verify_of_beyond kept, frm]; exact none_)
    · refine ⟨_, congrArg Host.Outcome.next receives, ?_⟩
      rw [validOtu_hunts same' (by rw [frm]; exact hunts)]
      exact huntOtu_third (by rw [state]; exact hunts) whole (by rw [Framer.verify_of_beyond kept, frm]; exact twice)
        (by rw [Framer.candMfas_of_beyond kept, frm]; exact next)
  case tti =>
    intro q s h unit mode act reserved native
    exact congrArg Host.Outcome.next (takeRequest_completes (by decide) h
      (framerSetTti_holds unit (by rw [admitted_native]; exact native) mode act reserved))
  case degrade =>
    intro q s h unit deg deg' pre pre' reserved set clear
    exact congrArg Host.Outcome.next (takeRequest_completes (by decide) h
      (framerSetDegrade_holds unit ⟨deg, deg'⟩ ⟨pre, pre'⟩ reserved set clear))
  case aps =>
    intro q s h unit times reserved native
    exact congrArg Host.Outcome.next (takeRequest_completes (by decide) h
      (framerSetAps_holds unit (by rw [admitted_native]; exact native) times reserved))
  case overhead =>
    intro q s h unit check reserved native
    exact congrArg Host.Outcome.next (takeRequest_completes (by decide) h
      (framerSetOverhead_holds unit (by rw [admitted_native]; exact native) check reserved))
  case maint =>
    intro q s h unit signal reserved native
    exact congrArg Host.Outcome.next (takeRequest_completes (by decide) h
      (framerSetMaint_holds unit (by rw [admitted_native]; exact native) signal reserved))
  case status =>
    intro q s h unit
    obtain ⟨pl, answers, length, field⟩ := framerGetStatus_answers (s := admitted 0x0506 q s) unit
    rw [admitted_native, admitted_frm] at field
    exact ⟨pl, congrArg Host.Outcome.next (takeRequest_get (by decide) h answers), length, field⟩
  case getOverhead =>
    intro q s h unit
    refine ⟨fun agreed => congrArg Host.Outcome.next (takeRequest_refuse (get := true) (by decide) h
      (framerGetOverhead_refused unit (by rw [admitted_native]; exact agreed))), fun native => ?_⟩
    obtain ⟨pl, answers, length, field⟩ :=
      framerGetOverhead_answers (s := admitted 0x0507 q s) unit (by rw [admitted_native]; exact native)
    rw [admitted_frm] at field
    exact ⟨pl, congrArg Host.Outcome.next (takeRequest_get (by decide) h answers), length, field⟩
  case counts =>
    intro q s h unit
    refine ⟨fun agreed => congrArg Host.Outcome.next (takeRequest_refuse (get := true) (by decide) h
      (framerGetCounts_refused unit (by rw [admitted_native]; exact agreed))), fun native => ?_⟩
    rw [← countsReply_of_counters (admitted_only 0x0508 q s .counters rfl)]
    exact congrArg Host.Outcome.next (takeRequest_get (by decide) h
      (framerGetCounts_answers unit (by rw [admitted_native]; exact native)))

end

section
/-! PROOFS. Host clients, tributaries and FlexE groups as the shared operations leave them, and the CLIENT commands (R271, R276 to R279,
R287 to R291). -/

-- One theorem after another: with a thread for each, the package as one text outgrows the checker's memory limit.
set_option Elab.async false

namespace Sys2Proof.Machine

/-! Entries of the client side. -/

@[simp] theorem modClient_clientOf (c : Nat) (f : Client → Client) (s : State) : (modClient c f s).clientOf c = f (s.clientOf c) :=
  tblGet_mod_same _ _ _ _
@[simp] theorem modFlexe_flexeOf (g : Nat) (f : FlexE → FlexE) (s : State) : (modFlexe g f s).flexeOf g = f (s.flexeOf g) :=
  tblGet_mod_same _ _ _ _
@[simp] theorem modTrib_trib (k : Nat) (f : Trib → Trib) (s : State) : (modTrib k f s).trib k = f (s.trib k) :=
  tblGet_mod_same _ _ _ _
@[simp] theorem modElastic_elasticOf (c dir : Nat) (f : Elastic → Elastic) (s : State) :
    (modElastic c dir f s).elasticOf c dir = f (s.elasticOf c dir) := tblGet_mod_same _ _ _ _

section
variable {s t : State} (h : t.client = s.client)
include h

theorem clientOf_of_client (c : Nat) : t.clientOf c = s.clientOf c := by unfold State.clientOf; rw [h]
theorem flexeOf_of_client (g : Nat) : t.flexeOf g = s.flexeOf g := by unfold State.flexeOf; rw [h]
theorem trib_of_client (k : Nat) : t.trib k = s.trib k := by unfold State.trib; rw [h]
theorem elasticOf_of_client (c dir : Nat) : t.elasticOf c dir = s.elasticOf c dir := by unfold State.elasticOf; rw [h]
theorem linkOf_of_client (c : Nat) : t.linkOf c = s.linkOf c := by unfold State.linkOf State.flexeGroup State.clientOf; rw [h]
theorem tribOfClient_of_client (c : Nat) : t.tribOfClient c = s.tribOfClient c := by unfold State.tribOfClient; rw [h]
theorem slotTaken_of_client (k u slots : Nat) : t.slotTaken k u slots = s.slotTaken k u slots := by unfold State.slotTaken; rw [h]
theorem physOk_of_client (q : Request) (n : Nat) : physOk q n t = physOk q n s := by unfold physOk State.clientOf; rw [h]

theorem clientUsed_of_client (carrier : t.carrier = s.carrier) (c : Nat) : t.clientUsed c = s.clientUsed c := by
  unfold State.clientUsed State.clientOf State.cu
  rw [h, carrier]

theorem zrOk_of_client (carrier : t.carrier = s.carrier) (c : Nat) (k : Client) : t.zrOk c k = s.zrOk c k := by
  unfold State.zrOk State.cu
  rw [h, carrier]

end

theorem admitted_client (code : Nat) (q : Request) (s : State) : (admitted code q s).client = s.client :=
  admitted_only code q s .client rfl

theorem carriedOut_client {q : Request} (port : q.port = .control) (code : Nat) (st : Status) (pl : List Byte) (s : State) :
    (carriedOut code q st pl s).client = s.client := carriedOut_only code q st pl s port .client rfl

/-- A table whose entries all change alike, the default staying what it is. -/
theorem tblGet_map {α : Type} {d : α} {f : α → α} (default : f d = d) (k : Nat) :
    ∀ t : Tbl α, tblGet d (t.map (fun e => (e.1, f e.2))) k = f (tblGet d t k)
  | [] => default.symm
  | (j, v) :: r => by
    rw [List.map_cons, tblGet, tblGet, tblGet_map default k r]
    split <;> rfl

/-! What waking lanes and following clients leave of chapter 10's state (R54, R61, R67). -/

/-- A client but for the mark that its PCS alignment starts again. -/
def Client.settled (k : Client) : Client := { k with realign := false }

/-- What CLIENT.SET_CLIENT writes of a client: all but LINK, the count of its frames and that mark. -/
def Client.configured (k : Client) : Client := { k with link := 0, rxCount := 0, realign := false }

theorem Client.configured_kind (k : Client) : k.configured.kind = k.kind := rfl

theorem clientAsked_configured (q : Request) : (clientAsked q).configured = clientAsked q := rfl

theorem Client.configured_of_settled {k l : Client} (h : k.settled = l.settled) : k.configured = l.configured :=
  congrArg (fun k : Client => { k with link := 0, rxCount := 0 }) h

/-- A client once the lanes of a quad have left electrical idle. -/
def Client.aligning (q : Nat) (k : Client) : Client := if k.inQuad q then { k with realign := true } else k

theorem trainQuad_clientOf (q : Nat) (s : State) (c : Nat) : (trainQuad q s).clientOf c = (s.clientOf c).aligning q :=
  tblGet_map (f := Client.aligning q) (if_neg (by simp [Client.inQuad])) c s.client.clients

/-- From `s` to `t` lanes have left electrical idle: a client may have to align again, and the tributaries stay. -/
structure OnlyTrains (s t : State) : Prop where
  client : ∀ c, (t.clientOf c).settled = (s.clientOf c).settled
  trib : ∀ k, t.trib k = s.trib k

namespace OnlyTrains

variable {s t v : State}

theorem refl (s : State) : OnlyTrains s s := ⟨fun _ => rfl, fun _ => rfl⟩

theorem trans (a : OnlyTrains s t) (b : OnlyTrains t v) : OnlyTrains s v :=
  ⟨fun c => (b.client c).trans (a.client c), fun k => (b.trib k).trans (a.trib k)⟩

theorem ite {c : Prop} [Decidable c] (a : OnlyTrains s t) (b : OnlyTrains s v) : OnlyTrains s (if c then t else v) := by
  split
  · exact a
  · exact b

/-- A change outside chapter 10's state. -/
theorem ofFrame (a : OnlyTrains s t) {ps : List Part} (h : OnlyChanges ps t v) (outside : ps.contains .client = false) :
    OnlyTrains s v :=
  have same : v.client = t.client := h .client outside
  a.trans ⟨fun c => by rw [clientOf_of_client same], trib_of_client same⟩

theorem each {α : Type} {f : α → State → State} (h : ∀ x s, OnlyTrains s (f x s)) :
    ∀ (l : List α) (s : State), OnlyTrains s (forEach l f s)
  | [], s => refl s
  | x :: r, s => (h x s).trans (each h r (f x s))

theorem trainQuad (a : OnlyTrains s t) (q : Nat) : OnlyTrains s (Machine.trainQuad q t) := by
  refine a.trans ⟨fun c => ?_, fun _ => rfl⟩
  rw [trainQuad_clientOf]
  unfold Client.aligning
  split <;> rfl

theorem trainLanes (a : OnlyTrains s t) (cls idx : Nat) : OnlyTrains s (Machine.trainLanes cls idx t) := .ite (a.trainQuad idx) a

theorem startExit (a : OnlyTrains s t) (cls idx : Nat) : OnlyTrains s (Machine.startExit cls idx t) := by
  have full (u : Nat) (tx : Bool) : OnlyTrains s (startFullCal u tx t) := a.ofFrame (startFullCal_only u tx t) rfl
  unfold Machine.startExit
  refine .ite a (.ite (.ite (full ..) a) (.ite a ?_))
  exact .trainLanes (.ofFrame (.ofFrame (.ite (full ..) a) (modDom_only _ _ _ _) rfl) (settlePlls_only _) rfl) ..

theorem demand (a : OnlyTrains s t) (cls idx : Nat) : OnlyTrains s (Machine.demand cls idx t) := .ite (a.startExit ..) a

theorem followEnable (a : OnlyTrains s t) (cls idx : Nat) : OnlyTrains s (Machine.followEnable cls idx t) :=
  .ite (.ofFrame (a.ofFrame (enterP4_only cls idx t) rfl) (settlePlls_only _) rfl)
    (.ite (.ofFrame (a.ofFrame (modDom_only 3 idx _ t) rfl) (settlePlls_only _) rfl) (a.startExit ..))

theorem followQuads (s : State) : OnlyTrains s (Machine.followQuads s) := each (fun q s => (refl s).followEnable 3 q) _ s

theorem demandLanes (c : Nat) (s : State) : OnlyTrains s (Machine.demandLanes c s) := each (fun q s => (refl s).demand 3 q) _ s

end OnlyTrains

/-! CLIENT.SET_CLIENT (R271, R288, R291). -/

theorem setClient_configured (c : Nat) (k : Client) (s : State) : ((setClient c k s).clientOf c).configured = k.configured := by
  unfold setClient
  extract_lets old same told written
  refine (Client.configured_of_settled ((OnlyTrains.followQuads written).client c)).trans ?_
  unfold written
  split
  · rw [modClient_clientOf]; rfl
  · change (tblGet {} (tblSet {} told.client.clients c k) c).configured = _
    rw [tblGet_set_same]

/-- The fields of CLIENT.SET_CLIENT that defines a client in the ranges of R291. -/
structure ClientLegal (q : Request) : Prop where
  unit : q.u = 0
  client : q.b 0 ≤ 63
  some_ : 1 ≤ q.b 1
  type : q.b 1 ≤ 5
  rate : q.b 3 ≤ 1
  lanes : q.b 4 = 4 ∨ (clientAsked q).lanes ≠ 0
  place : laneOk (clientAsked q) = true
  mode : q.b 4 ≤ 4
  member : q.b 4 = 2 → q.b 1 ≤ 3
  zrUnit : q.b 5 ≤ 3
  zrOnly : q.b 4 = 3 ∨ q.b 5 = 0
  least : 64 ≤ q.h 6
  most : q.h 6 ≤ 16000
  queue : q.w 8 ≤ 131071 ∨ q.w 8 = 0xFFFFFFFF
  fault : q.b 12 ≤ 1
  reserved : isZero q.payload 13 3 = true

/-- FIRST_LANE is a lane of the device, and 0 for a FlexE client. -/
theorem ClientLegal.firstLane {q : Request} (legal : ClientLegal q) :
    q.b 2 ≤ 63 ∧ if q.b 4 = 4 then q.b 2 = 0 else (clientAsked q).lanes = 0 ∨ laneOk (clientAsked q) = true := by
  by_cases flexe : (clientAsked q).mode = 4
  · have zero : q.b 2 = 0 := by
      have place := legal.place
      unfold laneOk at place
      rw [if_pos flexe] at place
      exact beq_iff_eq.mp place
    exact ⟨by omega, by rw [if_pos (c := q.b 4 = 4) flexe]; exact zero⟩
  · have lane : q.b 2 ≤ 63 := by
      have place := legal.place
      unfold laneOk at place
      rw [if_neg flexe, decide_eq_true_eq] at place
      exact place.1
    exact ⟨lane, by rw [if_neg (c := q.b 4 = 4) flexe]; exact .inr legal.place⟩

theorem clientSetClient_defines {q : Request} {s : State} (legal : ClientLegal q) (unused : s.clientUsed (q.b 0) = false)
    (free : ∀ e ∈ s.client.clients, e.1 ≠ q.b 0 → lanesOverlap (clientAsked q) e.2 = false ∧ quadClash (clientAsked q) e.2 = false)
    (suits : s.zrOk (q.b 0) (clientAsked q) = true) :
    clientSetClient q s = .okay (setClient (q.b 0) (clientAsked q) s) := by
  have some_ : q.b 1 ≠ 0 := by have := legal.some_; omega
  have others {p : Client → Bool} (h : ∀ e ∈ s.client.clients, e.1 ≠ q.b 0 → p e.2 = false) :
      ((s.client.clients.filter (fun e => e.1 != q.b 0)).map (fun e => e.2)).any p = false := by
    simp only [List.any_map, List.any_filter, List.any_eq_false, Function.comp, Bool.and_eq_true, bne_iff_ne, not_and, Bool.not_eq_true]
    exact h
  have member : (q.b 4 == 2 && decide (3 < q.b 1)) = false := by
    simpa using legal.member
  unfold clientSetClient
  dsimp only
  rw [if_neg some_, checked_pass _ _ _ (by
      simp [unitZero, inByte, inHalf, resv, legal.firstLane, legal.lanes, member, legal.unit, legal.client, legal.type, legal.rate,
        legal.mode, legal.zrUnit, legal.zrOnly, legal.least, legal.most, legal.queue, legal.fault, legal.reserved]),
    require_pass _ _ _ (by
      rw [others (fun e he ne => (free e he ne).1), others (fun e he ne => (free e he ne).2)]
      simp [unused, suits]), if_neg some_]

theorem clientSetClient_removes {q : Request} {s : State} (unit : q.u = 0) (client : q.b 0 ≤ 63) (none_ : q.b 1 = 0)
    (reserved : isZero q.payload 13 3 = true) (unused : s.clientUsed (q.b 0) = false) :
    clientSetClient q s = .okay (setClient (q.b 0) {} s) := by
  unfold clientSetClient
  dsimp only
  rw [if_pos none_, if_pos none_, checked_pass _ _ _ (by simp [unitZero, inByte, resv, unit, client, none_, reserved]),
    require_pass _ _ _ (by simp [none_, unused])]

/-! CLIENT.SET_TRIB (R277 to R279, R350, R374). -/

theorem isZero_of_word {q : Request} {off : Nat} (h : q.w off = 0) : isZero q.payload off 4 = true := beq_iff_eq.mpr h

/-- SLOTS of a request. -/
abbrev slotsAsked (q : Request) : Nat := slotMask (bytesAt q.payload 8 80)

/-- What CLIENT.SET_TRIB asks for a tributary. -/
def allocAsked (q : Request) : Alloc := ⟨q.b 1, q.b 2, q.b 3, slotsAsked q⟩

/-- A unit whose tributaries CLIENT.SET_TRIB may change, having a native format and being no twin partner; and the fields that every
such request has alike. -/
structure TribLegal (q : Request) (f : Format) (s : State) : Prop where
  unit : q.u = 0
  cu : q.b 1 ≤ 3
  reserved : q.w 4 = 0
  format : (s.cu (q.b 1)).fmt = some f
  native : f.lineMode = 0
  alone : s.twinPartner (q.b 1) = false
  client : q.b 3 ≤ 63
  slots : slotsAsked q < 2 ^ (20 * f.otucN)

theorem twinPartner_of_protect {s t : State} (h : t.protect = s.protect) (u : Nat) : t.twinPartner u = s.twinPartner u := by
  unfold State.twinPartner State.twin
  rw [h]

theorem secureUnit_of_security {s t : State} (h : t.security = s.security) (u : Nat) : t.secureUnit u = s.secureUnit u := by
  unfold State.secureUnit State.channel
  rw [h]

theorem TribLegal.admitted {q : Request} {f : Format} {s : State} (h : TribLegal q f s) (code : Nat) :
    TribLegal q f (admitted code q s) :=
  { h with
    format := by rw [admitted_cu]; exact h.format
    alone := (twinPartner_of_protect (admitted_only code q s .protect rfl) _).trans h.alone }

theorem TribLegal.isNative {q : Request} {f : Format} {s : State} (h : TribLegal q f s) : s.native (q.b 1) = true := by
  unfold State.native
  rw [h.format]
  exact beq_iff_eq.mpr h.native

theorem clientSetTrib_removes {q : Request} {f : Format} {s : State} (legal : TribLegal q f s) (none_ : q.b 2 = 0) :
    clientSetTrib q s = .okay (modTrib (q.b 0) (fun x => { x with set := {} }) s) := by
  unfold clientSetTrib
  dsimp only
  rw [legal.format, checked_pass _ _ _ (by
      simp [unitZero, inByte, resv, legal.unit, legal.cu, none_, legal.client, isZero_of_word legal.reserved, legal.slots]),
    require_pass _ _ _ (by simp [none_, legal.isNative, legal.alone]), if_pos none_]

/-- The client suits the kind of tributary: a transparent one whose slots are as many as its rate needs, or one of frames. -/
def SuitsTrib (q : Request) (s : State) : Prop :=
  (q.b 2 = 1 ∧ (s.clientOf (q.b 3)).mode = 1 ∧ (bitsOf 640 (slotsAsked q)).length = gmpSlots (s.clientOf (q.b 3)).kind) ∨
    (q.b 2 = 2 ∧ ((s.clientOf (q.b 3)).mode = 0 ∨ (s.clientOf (q.b 3)).mode = 4))

theorem clientSetTrib_allocates {q : Request} {f : Format} {s : State} (legal : TribLegal q f s) (suits : SuitsTrib q s)
    (client : (s.clientOf (q.b 3)).kind ≠ 0) (some_ : slotsAsked q ≠ 0)
    (old : (s.trib (q.b 0)).set.kind = 0 ∨ (s.trib (q.b 0)).set = allocAsked q)
    (free : s.slotTaken (q.b 0) (q.b 1) (slotsAsked q) = none)
    (last : (slotsAsked q).testBit (20 * f.otucN - 1) = true → s.secureUnit (q.b 1) = false) :
    clientSetTrib q s = .okay (modTrib (q.b 0) (fun x => { x with set := allocAsked q }) s) := by
  have enabled : q.b 2 ≠ 0 := by rcases suits with ⟨one, -⟩ | ⟨two, -⟩ <;> omega
  have kind : q.b 2 ≤ 2 := by rcases suits with ⟨one, -⟩ | ⟨two, -⟩ <;> omega
  have mode : (if q.b 2 = 1 then (s.clientOf (q.b 3)).mode == 1 else (s.clientOf (q.b 3)).mode == 0 || (s.clientOf (q.b 3)).mode == 4) =
      true := by
    rcases suits with ⟨one, mode, -⟩ | ⟨two, mode⟩
    · simp [one, mode]
    · simpa [two] using mode
  have count : ¬(q.b 2 = 1 ∧ (bitsOf 640 (slotsAsked q)).length ≠ gmpSlots (s.clientOf (q.b 3)).kind) := by
    rintro ⟨one, wrong⟩
    rcases suits with ⟨-, -, right⟩ | ⟨two, -⟩
    · exact wrong right
    · omega
  have secure : ¬((slotsAsked q).testBit (20 * f.otucN - 1) = true ∧ s.secureUnit (q.b 1) = true) := by
    rintro ⟨bit, secure⟩
    rw [last bit] at secure
    cases secure
  unfold clientSetTrib
  dsimp only
  rw [legal.format, if_neg enabled, checked_pass _ _ _ (by
      simp [unitZero, inByte, resv, legal.unit, legal.cu, kind, legal.client, client, isZero_of_word legal.reserved, mode, some_, legal.slots]),
    require_pass _ _ _ (by
      rcases old with none_ | same
      · simp [none_, legal.isNative, legal.alone]
      · simp [same, allocAsked, legal.isNative, legal.alone]), if_neg enabled, free]
  exact (if_neg secure).trans (if_neg count)

/-! The allocations in force from a frame with MFAS 0 (R278). -/

/-- A tributary once the allocations of a unit take effect. -/
def Trib.applied (u : Nat) (x : Trib) : Trib := if x.set.cu = u ∨ x.now.cu = u then { x with now := x.set } else x

theorem applyAllocs_trib (u : Nat) (s : State) (k : Nat) : (applyAllocs u s).trib k = (s.trib k).applied u :=
  tblGet_map (f := Trib.applied u) (by unfold Trib.applied; split <;> rfl) k s.client.tribs

/-- What sending a frame may change once the allocations are in force. -/
def frameParts : List Part := [.sill, .control, .counters, .carrier, .framer, .protect, .security, .fresh]

/-- Sending a frame with MFAS 0 changes of chapter 10's state only the allocations in force. -/
theorem sendOtu_client {h : Nat} {s : State} (first : (s.frm h).txMfas = 0) (n : Nat) (dest : List Nat) (load : OtuLoad) :
    (sendOtu h n dest load s).client = (applyAllocs h s).client := by
  suffices only : OnlyChanges frameParts (applyAllocs h s) (sendOtu h n dest load s) from only .client rfl
  unfold sendOtu
  extract_lets mfas omfi begun secure keyed squelched m plain epoch sec
  have begins : OnlyChanges frameParts (applyAllocs h s) begun :=
    modFramer_frame _ _ (by rw [if_pos first]; exact judgeMsim_frame _ (.refl _ _) rfl) rfl
  have keys : OnlyChanges frameParts (applyAllocs h s) keyed := by
    refine .ite ?_ begins
    split
    · exact squelch_frame _ _ begins rfl
    · exact begins
  have seals : OnlyChanges frameParts (applyAllocs h s) (if secure = true ∧ m = 0 then encryptFrame h omfi plain keyed else
      (plain, modChannel h 0 (fun c => { c with wait := none }) (bump pmFramer h 25 (b2n squelched) keyed))).2 := by
    split
    · exact encryptFrame_frame _ _ _ keys rfl
    · exact modChannel_frame _ _ _ (bump_frame _ _ _ _ keys rfl) rfl
  generalize (if secure = true ∧ m = 0 then encryptFrame h omfi plain keyed else
    (plain, modChannel h 0 (fun c => { c with wait := none }) (bump pmFramer h 25 (b2n squelched) keyed))) = sealed at seals ⊢
  obtain ⟨out, t⟩ := sealed
  dsimp only at seals ⊢
  refine .each (fun v u => handOff_frame _ _ _ _ _ (.refl _ u) rfl) dest (modFramer_frame _ _ ?_ rfl)
  split
  · exact modTwin_frame _ _ seals rfl
  · exact seals

/-- On a unit of no twin group a frame with MFAS 0 puts in force what its tributaries are allocated. -/
theorem otucnFrameTx_applies {u : Nat} {f : Format} {s : State} (traffic : s.trafficRuns = true) (noPartner : s.twinPartner u = false)
    (alone : s.twinOf u = none) (native : (s.cu u).nativeTx = some f) (first : (s.frm u).txMfas = 0) (load : OtuLoad) (k : Nat) :
    (otucnFrameTx u load s).trib k = (s.trib k).applied u := by
  have sends : otucnFrameTx u load s = sendOtu u f.otucN [u] load s := by
    unfold otucnFrameTx
    simp [noPartner, alone, traffic, native]
  rw [sends, trib_of_client (sendOtu_client first ..), applyAllocs_trib]

/-! CLIENT.SET_FLEXE (R276, R290, R291). -/

/-- The calendar that a request writes. -/
def calendarAsked (q : Request) : FlexECalendar :=
  ⟨q.w 4, q.b 2, (List.range (q.b 1)).map (fun i => q.b (8 + i)),
    (List.range (q.b 1 * phySlots (q.b 2))).map (fun i => q.b (24 + i))⟩

/-- A slot of a calendar is unused or names a FlexE client. -/
def SlotNames (s : State) (c : Nat) : Prop := c = 0xFF ∨ (c < 64 ∧ (s.clientOf c).kind ≠ 0 ∧ (s.clientOf c).mode = 4)

/-- The fields of CLIENT.SET_FLEXE that writes a calendar in the ranges of R291. -/
structure CalendarLegal (q : Request) (s : State) : Prop where
  unit : q.u = 0
  group : q.b 0 ≤ 7
  some_ : 1 ≤ q.b 1
  count : q.b 1 ≤ 16
  type : 1 ≤ q.b 2 ∧ q.b 2 ≤ 3
  length : q.payload.length = 24 + q.b 1 * phySlots (q.b 2)
  reserved : q.b 3 = 0
  number : 1 ≤ q.w 4 ∧ q.w 4 ≤ 0xFFFFE
  phys : physOk q (q.b 1) s = true
  slots : ∀ i < q.b 1 * phySlots (q.b 2), SlotNames s (q.b (24 + i))

theorem CalendarLegal.of_client {q : Request} {s t : State} (legal : CalendarLegal q s) (h : t.client = s.client) : CalendarLegal q t :=
  { legal with
    phys := (physOk_of_client h ..).trans legal.phys
    slots := by unfold SlotNames State.clientOf; rw [h]; exact legal.slots }

theorem clientSetFlexe_writes {q : Request} {s : State} (legal : CalendarLegal q s) :
    clientSetFlexe q s = require [((s.flexeOf (q.b 0)).pending.isNone, .busy)] s
      (.okay (modFlexe (q.b 0) (fun x => { x with pending := some (calendarAsked q) }) s)) := by
  have some_ : q.b 1 ≠ 0 := by have := legal.some_; omega
  have slots : ((List.range (q.b 1 * phySlots (q.b 2))).map (fun i => q.b (24 + i))).all (fun c =>
      c == 0xFF || (decide (c < 64) && (s.clientOf c).kind != 0 && (s.clientOf c).mode == 4)) = true := by
    simp only [List.all_map, List.all_eq_true, List.mem_range, Function.comp, Bool.or_eq_true, Bool.and_eq_true, beq_iff_eq, bne_iff_ne,
      decide_eq_true_eq, and_assoc]
    exact legal.slots
  unfold clientSetFlexe
  dsimp only
  rw [if_neg some_, checked_pass _ _ _ (by
    rw [slots]
    simp [unitZero, inByte, inWord, resv, legal.unit, legal.group, legal.count, legal.type, legal.length, isZero_of_byte legal.reserved,
      legal.number, legal.phys])]
  rfl

theorem clientSetFlexe_busy {q : Request} {s : State} (legal : CalendarLegal q s) (waits : (s.flexeOf (q.b 0)).pending ≠ none) :
    clientSetFlexe q s = .refuse .busy s := by
  rw [clientSetFlexe_writes legal]
  exact require_first (Option.isNone_eq_false_iff.mpr (Option.isSome_iff_ne_none.mpr waits)) ..

theorem clientSetFlexe_waits {q : Request} {s : State} (legal : CalendarLegal q s) (idle : (s.flexeOf (q.b 0)).pending = none) :
    clientSetFlexe q s = .okay (modFlexe (q.b 0) (fun x => { x with pending := some (calendarAsked q) }) s) := by
  rw [clientSetFlexe_writes legal]
  exact require_pass _ _ _ (by simp [idle])

theorem lastEvent_of_control {s t : State} (h : t.control = s.control) : lastEvent t = lastEvent s := by unfold lastEvent; rw [h]

theorem flexeEvent_lastEvent (g result : Nat) (s : State) : lastEvent (flexeEvent g result s) =
    some (0x0603, 0, be 1 g ++ be 1 (b2n (s.flexeOf g).useB) ++ be 1 result ++ zeros 1) := by
  unfold flexeEvent
  exact raise_lastEvent ..

/-- What follows the reply to the removal of a group: a switch under way ends with its event. -/
def endFlexe (g : Nat) (pending : Bool) (s : State) : State := modFlexe g (fun _ => {}) (if pending then flexeEvent g 2 s else s)

theorem endFlexe_lastEvent (g : Nat) (s : State) : lastEvent (endFlexe g true s) =
    some (0x0603, 0, be 1 g ++ be 1 (b2n (s.flexeOf g).useB) ++ be 1 2 ++ zeros 1) :=
  (lastEvent_of_control (modFlexe_only g _ (flexeEvent g 2 s) .control rfl)).trans (flexeEvent_lastEvent g 2 s)

theorem clientSetFlexe_removes {q : Request} (unit : q.u = 0) (group : q.b 0 ≤ 7) (none_ : q.b 1 = 0) (length : q.payload.length = 24)
    (reserved : q.b 3 = 0) (s : State) : clientSetFlexe q s =
      .okThen (modFlexe (q.b 0) (fun x => { ({} : FlexE) with useB := x.useB }) s) (endFlexe (q.b 0) (s.flexeOf (q.b 0)).pending.isSome) := by
  unfold clientSetFlexe
  dsimp only
  rw [if_pos none_, checked_pass _ _ _ (by simp [unitZero, inByte, resv, unit, group, length, isZero_of_byte reserved])]
  rfl

/-! CLIENT.SET_CLASS (R286, R287). -/

/-- The fields of CLIENT.SET_CLASS in the ranges of R291. -/
structure ClassLegal (q : Request) : Prop where
  unit : q.u = 0
  port : q.b 0 ≤ 63
  kind : q.b 1 ≤ 3
  key : keyOk q = true
  reserved : q.h 6 = 0
  queue : q.w 8 / 2 ^ 17 % 2 ^ 14 = 0

section
variable {q : Request} (legal : ClassLegal q) (s : State)
include legal

/-- On legal fields check 12 passes. -/
theorem ClassLegal.passes (k : Reply) : checked [unitZero q, inByte q 0 0 63, inByte q 1 0 3, (keyOk q, 2), resv q 6 2,
    (q.w 8 / 2 ^ 17 % 2 ^ 14 == 0, 8)] s k = k :=
  checked_pass _ _ _ (by
    simp only [unitZero, inByte, resv, legal.unit, legal.port, legal.kind, legal.key, isZero_of_half legal.reserved, legal.queue]
    rfl)

theorem clientSetClass_removes (remove : (q.w 8).testBit 31 = true) :
    clientSetClass q s = .okay (modClients (fun x => { x with classes := tblErase x.classes (q.d 0) }) s) := by
  unfold clientSetClass
  dsimp only
  rw [legal.passes, if_pos remove]

variable (keep : (q.w 8).testBit 31 = false)
include keep

theorem clientSetClass_full (new : tblGet 0 s.client.classes (q.d 0) = 0)
    (full : 4 ≤ (s.client.classes.filter (fun e => keyBucket e.1 == keyBucket (q.d 0))).length) :
    clientSetClass q s = .refuse .tableFull s := by
  unfold clientSetClass
  dsimp only
  rw [legal.passes, if_neg (ne_true_of_eq_false keep), if_pos ⟨new, full⟩]

theorem clientSetClass_sets (room : tblGet 0 s.client.classes (q.d 0) ≠ 0 ∨
    (s.client.classes.filter (fun e => keyBucket e.1 == keyBucket (q.d 0))).length < 4) :
    clientSetClass q s = .okay (modClients (fun x => { x with classes := tblSet 0 x.classes (q.d 0) (q.w 8 % 2 ^ 17 + 1) }) s) := by
  unfold clientSetClass
  dsimp only
  rw [legal.passes, if_neg (ne_true_of_eq_false keep), if_neg (by omega)]

end

/-! CLIENT.GET_STATUS and CLIENT.GET_COUNTS (R290). -/

/-- The status of a client. -/
def clientStatus (c : Nat) (s : State) : List Byte :=
  be 1 (s.linkOf c) ++ be 1 (s.clientOf c).mode ++ be 2 (s.tribOfClient c) ++
    be 2 (if (s.clientOf c).mode = 1 then (s.elasticOf c 1).blocks.length else 0) ++ zeros 2

theorem clientStatus_of_client {s t : State} (h : t.client = s.client) (c : Nat) : clientStatus c t = clientStatus c s := by
  unfold clientStatus
  rw [linkOf_of_client h, clientOf_of_client h, tribOfClient_of_client h, elasticOf_of_client h]

theorem clientGetStatus_below {q : Request} (unit : q.u < 64) (s : State) : clientGetStatus q s = .okWith (clientStatus q.u s) s :=
  checked_pass _ _ _ (unitBelow_pass unit)

theorem clientGetCounts_client {q : Request} (unit : q.u < 64) (s : State) :
    clientGetCounts q s = .okWith (countsReply s pmClient q.u 0 14) s := by
  unfold clientGetCounts
  rw [checked_pass _ _ _ (by simp [unit]), if_pos unit]

theorem clientGetCounts_trib {q : Request} (least : 0x100 ≤ q.u) (most : q.u ≤ 0x1FF) (s : State) :
    clientGetCounts q s = .okWith (countsReply s pmTrib (q.u - 0x100) 0 7 ++ zeros 56) s := by
  unfold clientGetCounts
  rw [checked_pass _ _ _ (by simp [least, most]), if_neg (by omega)]

end Sys2Proof.Machine
open Sys2Proof Sys2Proof.Machine

/-- Settles O31: what each command's own part answers on legal fields, and what a frame with MFAS 0 puts in force. -/
theorem clientCommandsComplete : Obligations.ClientCommandsComplete := by
  refine ⟨?client, ?trib, ?frame, ?flexe, ?classes, ?status, ?counts⟩
  case client =>
    intro q s h unit client unused
    have same := admitted_client 0x0601 q s
    have carrier : (admitted 0x0601 q s).carrier = s.carrier := admitted_only 0x0601 q s .carrier rfl
    have unused' := (clientUsed_of_client same carrier (q.b 0)).trans unused
    constructor
    · intro none_ reserved
      refine ⟨_, congrArg Host.Outcome.next
        (takeRequest_completes (by decide) h (clientSetClient_removes unit client none_ reserved unused')), ?_⟩
      rw [← Client.configured_kind, setClient_configured]
      rfl
    · intro some_ type rate lanes place mode member zrUnit zrOnly least most queue fault reserved free suits
      have legal : ClientLegal q := ⟨unit, client, some_, type, rate, lanes, place, mode, member, zrUnit, zrOnly, least, most, queue, fault,
        reserved⟩
      refine ⟨_, congrArg Host.Outcome.next (takeRequest_completes (by decide) h
        (clientSetClient_defines legal unused' (by rw [same]; exact free) ((zrOk_of_client same carrier ..).trans suits))), ?_⟩
      exact (setClient_configured (q.b 0) (clientAsked q) (admitted 0x0601 q s)).trans (clientAsked_configured q)
  case trib =>
    intro q f s h unit cu reserved format native alone client
    have legal (slots : slotsAsked q < 2 ^ (20 * f.otucN)) : TribLegal q f (admitted 0x0602 q s) :=
      TribLegal.admitted ⟨unit, cu, reserved, format, native, alone, client, slots⟩ 0x0602
    have same := admitted_client 0x0602 q s
    constructor
    · intro none_ slots
      exact ⟨_, congrArg Host.Outcome.next (takeRequest_completes (by decide) h (clientSetTrib_removes (legal slots) none_)),
        by rw [modTrib_trib]⟩
    · intro suits kind slots some_ old free last
      refine congrArg Host.Outcome.next (takeRequest_completes (by decide) h (clientSetTrib_allocates (legal slots) ?_ ?_ some_ ?_ ?_ ?_))
      · unfold SuitsTrib
        rw [clientOf_of_client same]
        exact suits
      · rw [clientOf_of_client same]
        exact kind
      · rw [trib_of_client same]
        exact old
      · rw [slotTaken_of_client same]
        exact free
      · rw [secureUnit_of_security (admitted_only 0x0602 q s .security rfl)]
        exact last
  case frame =>
    intro u load f k s traffic noPartner alone native first own
    refine ⟨_, rfl, ?_⟩
    rw [otucnFrameTx_applies traffic noPartner alone native first]
    unfold Trib.applied
    rw [if_pos (.inl own)]
  case flexe =>
    intro q s h unit group
    have same := admitted_client 0x0603 q s
    have group_ := flexeOf_of_client same (q.b 0)
    constructor
    · intro none_ length reserved
      refine ⟨_, congrArg Host.Outcome.next
        (takeRequest_done (by decide) h (clientSetFlexe_removes unit group none_ length reserved _)), ?_, fun waits => ?_⟩
      · unfold endFlexe
        rw [modFlexe_flexeOf]
      · rw [group_, Option.isSome_iff_ne_none.mpr waits, endFlexe_lastEvent,
          flexeOf_of_client (carriedOut_client (taken_port h) ..), modFlexe_flexeOf, group_]
    · intro some_ count least most length reserved first last phys slots
      have legal : CalendarLegal q (admitted 0x0603 q s) := CalendarLegal.of_client
        ⟨unit, group, some_, count, ⟨least, most⟩, length, reserved, ⟨first, last⟩, phys, slots⟩ same
      exact ⟨fun waits => congrArg Host.Outcome.next
          (takeRequest_refuse (get := false) (by decide) h (clientSetFlexe_busy legal (by rw [group_]; exact waits))),
        fun idle => congrArg Host.Outcome.next
          (takeRequest_completes (by decide) h (clientSetFlexe_waits legal (by rw [group_]; exact idle)))⟩
  case classes =>
    intro q s h unit port kind key reserved queue
    have legal : ClassLegal q := ⟨unit, port, kind, key, reserved, queue⟩
    have same := admitted_client 0x0604 q s
    refine ⟨fun remove => congrArg Host.Outcome.next (takeRequest_completes (by decide) h (clientSetClass_removes legal _ remove)),
      fun keep => ⟨fun ⟨new, full⟩ => ?_, fun room => ?_⟩⟩
    · exact congrArg Host.Outcome.next (takeRequest_refuse (get := false) (by decide) h
        (clientSetClass_full legal _ keep (by rw [same]; exact new) (by rw [same]; exact full)))
    · refine ⟨_, congrArg Host.Outcome.next
        (takeRequest_completes (by decide) h (clientSetClass_sets legal _ keep (by rw [same]; exact room))), ?_,
        modClients_frame _ ((admitted_only 0x0604 q s).mono rfl) rfl⟩
      exact tblGet_set_same (0 : Nat) (admitted 0x0604 q s).client.classes (q.d 0) (q.w 8 % 2 ^ 17 + 1)
  case status =>
    intro q s h unit
    change exec (.clientGetStatus q) s = .next (got 0x0605 q (clientStatus q.u s) (admitted 0x0605 q s))
    rw [← clientStatus_of_client (admitted_client 0x0605 q s)]
    exact congrArg Host.Outcome.next (takeRequest_get (by decide) h (clientGetStatus_below unit _))
  case counts =>
    intro q s h
    have latched := countsReply_of_counters (admitted_only 0x0606 q s .counters rfl)
    constructor
    · intro unit
      rw [← latched]
      exact congrArg Host.Outcome.next (takeRequest_get (by decide) h (clientGetCounts_client unit _))
    · intro least most
      rw [← latched]
      exact congrArg Host.Outcome.next (takeRequest_get (by decide) h (clientGetCounts_trib least most _))

end

section
/-! PROOFS. Frames from host clients (R273, R274) up to the scheduler that stores them (R304), changes of LINK (R292), elastic buffers (R280,
R281), FlexE switches (R276) and the GFP-F demapper (R284, R285). -/

-- One theorem after another: with a thread for each, the package as one text outgrows the checker's memory limit.
set_option Elab.async false

namespace Sys2Proof.Machine

/-! What a client keeps while a frame is stored and a port chooses. -/

theorem Client.rxCount_of_settled {k l : Client} (h : k.settled = l.settled) : k.rxCount = l.rxCount := by
  have same := congrArg Client.rxCount h
  exact same

/-- From `s` to `t` nothing has been counted of client `c` in events 0 to 8 (R293), and its next frame keeps its number. -/
structure ClientKeeps (c : Fin 64) (s t : State) : Prop where
  counts : ∀ e < 9, t.live pmClient c e = s.live pmClient c e
  received : (t.clientOf c).rxCount = (s.clientOf c).rxCount

namespace ClientKeeps

variable {c : Fin 64} {s t v : State}

theorem refl (c : Fin 64) (s : State) : ClientKeeps c s s := ⟨fun _ _ => rfl, rfl⟩

theorem trans (a : ClientKeeps c s t) (b : ClientKeeps c t v) : ClientKeeps c s v :=
  ⟨fun e h => (b.counts e h).trans (a.counts e h), b.received.trans a.received⟩

theorem ite {p : Prop} [Decidable p] (a : ClientKeeps c s t) (b : ClientKeeps c s v) : ClientKeeps c s (if p then t else v) := by
  split
  · exact a
  · exact b

theorem each {α : Type} {f : α → State → State} (h : ∀ x u, ClientKeeps c u (f x u)) :
    ∀ (l : List α) {t : State}, ClientKeeps c s t → ClientKeeps c s (forEach l f t)
  | [], _, a => a
  | x :: r, t, a => each h r (a.trans (h x t))

/-- A fold whose accumulator carries the state. -/
theorem fold {α β : Type} (get : β → State) {f : β → α → β} (h : ∀ b x, ClientKeeps c (get b) (get (f b x))) :
    ∀ (l : List α) (b : β), ClientKeeps c s (get b) → ClientKeeps c s (get (l.foldl f b))
  | [], _, a => a
  | x :: r, b, a => fold get h r (f b x) (a.trans (h b x))

/-- A change outside chapter 10's state and the counters. -/
theorem ofFrame (a : ClientKeeps c s t) {ps : List Part} (h : OnlyChanges ps t v) (client : ps.contains .client = false := by rfl)
    (counters : ps.contains .counters = false := by rfl) : ClientKeeps c s v :=
  a.trans ⟨fun _ _ => live_of_counters (h .counters counters) .., by rw [clientOf_of_client (h .client client)]⟩

theorem bump {fam inst ev n : Nat} (a : ClientKeeps c s t) (later : pmClient < fam := by decide) :
    ClientKeeps c s (Machine.bump fam inst ev n t) :=
  a.trans ⟨fun _ _ => bump_live_later later (by omega) (by omega) .., by rw [clientOf_of_client (bump_only _ _ _ _ t .client rfl)]⟩

theorem raise (a : ClientKeeps c s t) (code unit : Nat) (pl : List Byte) (urgent : Bool) :
    ClientKeeps c s (Machine.raise code unit pl urgent t) :=
  a.trans ⟨fun _ _ => raise_live (by omega) .., by rw [clientOf_of_client (raise_only code unit pl urgent t .client rfl)]⟩

theorem traceItem (a : ClientKeeps c s t) (u dir inst flags item queue addr latency len : Nat) :
    ClientKeeps c s (Machine.traceItem u dir inst flags item queue addr latency len t) :=
  a.trans ⟨fun _ _ => traceItem_live ..,
    by rw [clientOf_of_client (traceItem_only u dir inst flags item queue addr latency len t .client rfl)]⟩

theorem drawNat (a : ClientKeeps c s t) : ClientKeeps c s (Machine.drawNat t).2 := a.ofFrame (drawNat_only t)

/-- A demand wakes lanes and counts nothing. -/
theorem demand (a : ClientKeeps c s t) (cls idx : Nat) : ClientKeeps c s (Machine.demand cls idx t) :=
  a.trans ⟨fun _ _ => live_of_counters (demand_only cls idx t .counters rfl) ..,
    Client.rxCount_of_settled (((OnlyTrains.refl t).demand cls idx).client c)⟩

theorem modStack (a : ClientKeeps c s t) (k : Nat) (f : Stack → Stack) : ClientKeeps c s (Machine.modStack k f t) :=
  a.ofFrame (modStack_only k f t)
theorem modQueue (a : ClientKeeps c s t) (q : Nat) (f : SvcQueue → SvcQueue) : ClientKeeps c s (Machine.modQueue q f t) :=
  a.ofFrame (modQueue_only q f t)

/-! DRAM (R322 to R330). -/

theorem writeWords (a : ClientKeeps c s t) (k w : Nat) (ws : List (BitVec 128)) : ClientKeeps c s (Machine.writeWords k w ws t) :=
  .ite a (.bump (a.modStack ..))

theorem writePoison (a : ClientKeeps c s t) (k w : Nat) : ClientKeeps c s (Machine.writePoison k w t) :=
  .ite a (.bump (.bump (a.modStack ..)))

theorem corrected (a : ClientKeeps c s t) (k : Nat) : ClientKeeps c s (Machine.corrected k t) := by
  have counted := (a.bump (fam := pmStack) (inst := k) (ev := 2) (n := 1)).modStack k (fun x => { x with bucket := x.bucket + 1 })
  exact .ite (.raise (counted.modStack ..) ..) counted

theorem readWord (a : ClientKeeps c s t) (k w : Nat) (odd : Option WordSeen) : ClientKeeps c s (Machine.readWord k w odd t).2 := by
  unfold Machine.readWord
  dsimp only
  split
  · exact .corrected a.bump k
  · exact a.bump

theorem consumed (a : ClientKeeps c s t) (k : Nat) : ClientKeeps c s (Machine.consumed k t) := .bump (a.ofFrame (modSill_only _ t))

theorem memLog (a : ClientKeeps c s t) (k kind w : Nat) : ClientKeeps c s (Machine.memLog k kind w t) :=
  a.ofFrame (memLog_only k kind w t)

theorem flushEntry (a : ClientKeeps c s t) (k : Nat) (e : ClampEntry) (odd : Option WordSeen) :
    ClientKeeps c s (Machine.flushEntry k e odd t) := by
  have reads := a.readWord k e.word odd
  exact .ite (.bump (a.writeWords ..)) (.ite (.bump (reads.writeWords ..)) (.memLog (.consumed (.bump (reads.writePoison ..)) k) ..))

theorem flushWord (a : ClientKeeps c s t) (k w : Nat) (odd : Option WordSeen) : ClientKeeps c s (Machine.flushWord k w odd t) := by
  unfold Machine.flushWord
  split
  · exact a
  · exact .flushEntry (a.modStack ..) ..

theorem flushOldest (a : ClientKeeps c s t) (k : Nat) (odd : Option WordSeen) : ClientKeeps c s (Machine.flushOldest k odd t) := by
  unfold Machine.flushOldest
  split
  · exact a
  · exact .flushEntry (a.modStack ..) ..

theorem clampWrite (a : ClientKeeps c s t) (k w mask : Nat) (bytes : List Byte) (odd : List OddWord) :
    ClientKeeps c s (Machine.clampWrite k w mask bytes odd t) := by
  unfold Machine.clampWrite
  extract_lets flushed taken
  have takes : ClientKeeps c s taken := by
    unfold taken
    split
    · exact a.modStack ..
    · exact .modStack (.ite (a.flushOldest ..) a) ..
  split
  · exact .ite (takes.flushWord ..) takes
  · exact takes

theorem demandRead (a : ClientKeeps c s t) (k w : Nat) (odd : List OddWord) : ClientKeeps c s (Machine.demandRead k w odd t).2 := by
  unfold Machine.demandRead
  extract_lets held flushed
  have reads := (a.flushWord k w (oddAt odd k w)).readWord k w (if held = true then none else oddAt odd k w)
  change ClientKeeps c s (Machine.readWord k w _ flushed).2 at reads
  generalize Machine.readWord k w (if held = true then none else oddAt odd k w) flushed = r at reads ⊢
  obtain ⟨seen, u⟩ := r
  dsimp only at reads ⊢
  split
  · exact reads
  · dsimp only
    split
    · exact .memLog (.bump (reads.consumed k)) ..
    · exact .memLog (.bump (reads.consumed k)) ..
    · exact .memLog (reads.consumed k) ..

theorem takeCell {p : Nat} (a : ClientKeeps c s t) (h : Machine.takeCell t = some (p, v)) : ClientKeeps c s v := by
  unfold Machine.takeCell at h
  split at h
  · cases h
  next k _ =>
    cases h
    exact .bump (.ofFrame (.modStack (a.ofFrame (drawBelow_only (t.stack k).freeCells t)) ..) (modMemory_only _ _))

theorem takeCells : ∀ (n : Nat) {t : State}, ClientKeeps c s t → ClientKeeps c s (Machine.takeCells n t).2
  | 0, _, a => a
  | n + 1, t, a => by
    unfold Machine.takeCells
    split
    · exact a
    next h => exact takeCells n (a.takeCell h)

theorem freeCell (a : ClientKeeps c s t) (p : Nat) : ClientKeeps c s (Machine.freeCell p t) := .ite (.bump (a.modStack ..)) a

theorem traceCell (a : ClientKeeps c s t) (k owner p : Nat) : ClientKeeps c s (Machine.traceCell k owner p t) :=
  .traceItem (.modStack a.drawNat ..) ..

theorem writeFrame (a : ClientKeeps c s t) (owner enq : Nat) (data : List Byte) (cells : List Nat) :
    ClientKeeps c s (Machine.writeFrame owner enq data cells t) :=
  each (fun _ u => .traceCell (.writeWords (.writeWords (.refl c u) ..) ..) ..) _ a

theorem readCell (a : ClientKeeps c s t) (p fill : Nat) (odd : List OddWord) : ClientKeeps c s (Machine.readCell p fill odd t).2 := by
  have link := a.demandRead (p % 4) (linkWord p) odd
  unfold Machine.readCell
  dsimp only
  split
  · exact link
  · refine fold (get := Prod.snd) (fun (b : Nat × State) j => ?_) _ _ link
    split
    · exact .refl c _
    · exact (refl c b.2).demandRead ..

theorem readFrame (a : ClientKeeps c s t) (len : Nat) (cells : List Nat) (odd : List OddWord) :
    ClientKeeps c s (Machine.readFrame len cells odd t).2.2 := by
  refine fold (fun b : Nat × Nat × State => b.2.2) (fun b x => ?_) _ _ a
  dsimp only
  split
  · exact .refl c _
  · exact (refl c b.2.2).readCell ..

/-! Queues and ports (R298, R304, R305, R335). -/

theorem traceFrame (a : ClientKeeps c s t) (q flags : Nat) (f : StoredFrame) : ClientKeeps c s (Machine.traceFrame q flags f t) :=
  .traceItem (a.modQueue ..) ..

theorem freeCells (a : ClientKeeps c s t) (cells : List Nat) : ClientKeeps c s (forEach cells Machine.freeCell t) :=
  each (fun p u => (refl c u).freeCell p) cells a

theorem dropHead (a : ClientKeeps c s t) (q ev flags : Nat) : ClientKeeps c s (Machine.dropHead q ev flags t) := by
  unfold Machine.dropHead
  split
  · exact a
  · exact .traceFrame (.bump (.freeCells (a.modQueue ..) _)) ..

theorem quarantine (a : ClientKeeps c s t) (q k word : Nat) : ClientKeeps c s (Machine.quarantine q k word t) :=
  .raise (.modStack (.bump (.modQueue (each (fun f u => (refl c u).traceFrame q 1 f) _ a) ..)) ..) ..

theorem loseChain (a : ClientKeeps c s t) (q k word : Nat) : ClientKeeps c s (Machine.loseChain q k word t) := by
  unfold Machine.loseChain
  split
  · exact a
  · exact .quarantine (.traceFrame (.bump (a.modQueue ..)) ..) ..

theorem withTribs (a : ClientKeeps c s t) (tribs : Tbl Trib) : ClientKeeps c s { t with client := { t.client with tribs } } :=
  a.trans ⟨fun _ _ => rfl, rfl⟩

theorem sendGfp (a : ClientKeeps c s t) (k : Nat) (core area : List Byte) : ClientKeeps c s (Machine.sendGfp k core area t) := a.withTribs _

theorem startFrame (a : ClientKeeps c s t) (p i q : Nat) (rotP rotI : Rotation) (f : StoredFrame) :
    ClientKeeps c s (Machine.startFrame p i q rotP rotI f t) := by
  unfold Machine.startFrame
  extract_lets n now spent charged busy queued counted item clients sent
  have spends : ClientKeeps c s charged := .ofFrame (a.modQueue ..) (modSub_only _ _ _)
  have busies : ClientKeeps c s busy := .ofFrame (spends.freeCells f.cells) (modPort_only _ _ _)
  have counts : ClientKeeps c s counted := .bump (.bump (.bump (.bump (.bump (.bump busies)))))
  have sends : ClientKeeps c s sent := .sendGfp (counts.withTribs _) ..
  exact .traceItem (.drawNat (.bump (sends.traceFrame ..))) ..

theorem purgeQueue (a : ClientKeeps c s t) (p q : Nat) : ClientKeeps c s (Machine.purgeQueue p q t) :=
  each (fun _ u => .ite ((refl c u).dropHead ..) (refl c u)) _ a

theorem purgeHeads (a : ClientKeeps c s t) (p : Nat) : ClientKeeps c s (Machine.purgeHeads p t) :=
  .ite a (each (fun q u => (refl c u).purgeQueue p q) _ a)

theorem choose (p : Nat) (odd : List OddWord) : ∀ (n : Nat) {t : State}, ClientKeeps c s t → ClientKeeps c s (Machine.choose p odd n t)
  | 0, _, a => a
  | n + 1, t, a => by
    have purges := a.purgeHeads p
    unfold Machine.choose
    dsimp only
    split
    · exact purges
    · split
      · exact purges
      next f _ _ =>
        have reads := purges.readFrame f.len f.cells odd
        exact .ite (reads.startFrame ..) (.ite (choose p odd n (reads.loseChain ..)) (choose p odd n (reads.dropHead ..)))

theorem demandFor (a : ClientKeeps c s t) (p : Nat) : ClientKeeps c s (Machine.demandFor p t) := by
  have wakes (l : List Nat) := each (fun k u => (refl c u).demand 4 k) l a
  exact .ite (wakes _) (.demand (wakes _) ..)

theorem selectNext (a : ClientKeeps c s t) (p : Nat) (odd : List OddWord) : ClientKeeps c s (Machine.selectNext p odd t) :=
  .ite a (.ite (choose p odd _ (a.demandFor p)) (a.demandFor p))

theorem storeFrame (a : ClientKeeps c s t) (q : Nat) (data : List Byte) (odd : List OddWord) :
    ClientKeeps c s (Machine.storeFrame q data odd t) := by
  unfold Machine.storeFrame
  extract_lets x n policed
  have polices : ClientKeeps c s policed := .ite (a.modQueue ..) a
  have writes := (takeCells (cellsFor n) polices).writeFrame
  dsimp only
  refine .modQueue ?_ ..
  split
  · exact .clampWrite (writes ..) ..
  · exact writes ..

/-- A frame offered to a queue is none of a client's counts, whatever becomes of it. -/
theorem enqueue (a : ClientKeeps c s t) (q : Nat) (data : List Byte) (odd : List OddWord) :
    ClientKeeps c s (Machine.enqueue q data odd t) := by
  have offers := (a.demand 9 (q / 16384)).bump (fam := pmQueue) (inst := q) (ev := 0) (n := 1)
  unfold Machine.enqueue
  dsimp only
  split
  · exact .traceFrame offers.bump ..
  · exact .selectNext (offers.storeFrame ..) ..

end ClientKeeps

/-! One frame from a host client (R273, R274). -/

theorem Client.framed_kind {k : Client} (h : k.framed = true) : k.kind ≠ 0 := by
  unfold Client.framed at h
  simp only [Bool.and_eq_true, bne_iff_ne] at h
  exact h.1

theorem clientFrameRx_asleep {c : Nat} {s : State} (traffic : s.trafficRuns = true) (kind : (s.clientOf c).kind ≠ 0)
    (asleep : s.lanesAwake c = false) (data : List Byte) (ok : Bool) (fec : HostFec) (odd : List OddWord) :
    clientFrameRx c data ok fec odd s = demandLanes c s := by
  unfold clientFrameRx
  simp [traffic, kind, asleep]

/-- A frame counted and numbered, the time its classification takes being drawn: over-long, with a bad FCS, or missed by the classifier. -/
def frameCounted (c tooLong wrong missed : Nat) (s : State) : State :=
  bump pmClient c 3 missed (drawNat (modClient c (fun k => { k with rxCount := k.rxCount + 1 })
    (bump pmClient c 0 1 (bump pmClient c 2 tooLong (bump pmClient c 1 wrong s))))).2

section
variable (c tooLong wrong missed : Nat) (s : State)

theorem frameCounted_frames : (frameCounted c tooLong wrong missed s).live pmClient c 0 = s.live pmClient c 0 + 1 := by
  unfold frameCounted
  rw [bump_live_other (by decide), drawNat_live, live_of_counters (modClient_only c _ _ .counters rfl), bump_live_same,
    bump_live_other (by decide), bump_live_other (by decide)]

theorem frameCounted_tooLong : (frameCounted c tooLong wrong missed s).live pmClient c 2 = s.live pmClient c 2 + tooLong := by
  unfold frameCounted
  rw [bump_live_other (by decide), drawNat_live, live_of_counters (modClient_only c _ _ .counters rfl), bump_live_other (by decide),
    bump_live_same, bump_live_other (by decide)]

theorem frameCounted_rxCount : ((frameCounted c tooLong wrong missed s).clientOf c).rxCount = (s.clientOf c).rxCount + 1 := by
  unfold frameCounted
  rw [clientOf_of_client (bump_only _ _ _ _ _ .client rfl), clientOf_of_client (drawNat_only _ .client rfl), modClient_clientOf]
  simp only [clientOf_of_client (bump_only _ _ _ _ _ .client rfl)]

end

theorem ClientKeeps.countFec (c : Fin 64) (f : HostFec) (s : State) : ClientKeeps c s (Machine.countFec c f s) where
  counts e h := by
    unfold Machine.countFec
    rw [bump_live_other (by omega), bump_live_other (by omega), bump_live_other (by omega), bump_live_other (by omega)]
  received := by rw [clientOf_of_client (countFec_only c f s .client rfl)]

/-- A frame on lanes awake is counted, and what becomes of it then counts nothing more of its client. -/
theorem clientFrameRx_counts {c : Fin 64} {s : State} (traffic : s.trafficRuns = true) (framed : (s.clientOf c).framed = true)
    (awake : s.lanesAwake c = true) (data : List Byte) (ok : Bool) (fec : HostFec) (odd : List OddWord) :
    ∃ t wrong missed, ClientKeeps c s t ∧ ClientKeeps c (frameCounted c (b2n (decide ((s.clientOf c).maxFrame < data.length))) wrong missed t)
        (clientFrameRx c data ok fec odd s) := by
  have offered (queue : Option Nat) {t u : State} (a : ClientKeeps c t u) :
      ClientKeeps c t (match queue with | some q => enqueue q data odd u | none => u) := by
    cases queue with
    | some q => exact a.enqueue ..
    | none => exact a
  unfold clientFrameRx frameCounted
  dsimp only
  rw [if_neg (by simp [traffic, Client.framed_kind framed]), if_neg (by simp [awake]), if_neg (by simp [framed])]
  exact ⟨_, _, _, .ite (.refl c s) (.countFec c fec s),
    offered _ (.traceItem (.refl c _) ..)⟩

/-! LINK (R292). -/

theorem Recent.enterTiming {k : Nat} {e : EventRec} {s : State} (h : Recent k e s) (room : k + 4 < 4096) (new cause began : Nat) :
    Recent (k + 4) e (Machine.enterTiming new cause began s) := by
  unfold Machine.enterTiming
  dsimp only
  split
  · exact h.mono (Nat.le_add_right k 4)
  · exact .raise (s := modTiming _ s) h room ..

theorem Recent.sourcePresent {k : Nat} {e : EventRec} {s : State} (h : Recent k e s) (room : k + 4 < 4096) (i cause : Nat) :
    Recent (k + 4) e (Machine.sourcePresent i cause s) := by
  unfold Machine.sourcePresent
  split
  · exact h.mono (Nat.le_add_right k 4)
  · exact .enterTiming (s := modSource i _ s) h room ..

theorem Recent.disqualify {k : Nat} {e : EventRec} {s : State} (h : Recent k e s) (room : k + 8 < 4096) (i cause began : Nat) :
    Recent (k + 8) e (Machine.disqualify i cause began s) := by
  unfold Machine.disqualify
  dsimp only
  refine .enterTiming (k := k + 4) ?_ (by omega) ..
  split
  · exact .raise (s := modSource i _ s) h (by omega) ..
  · exact h.mono (Nat.le_add_right k 4)

theorem Recent.sourceAbsent {k : Nat} {e : EventRec} {s : State} (h : Recent k e s) (room : k + 8 < 4096) (i cause : Nat) :
    Recent (k + 8) e (Machine.sourceAbsent i cause s) := by
  unfold Machine.sourceAbsent
  split
  · exact h.mono (Nat.le_add_right k 8)
  · exact .disqualify (s := modSource i _ s) h room ..

/-- The timing source that follows a client's LINK raises two events at most. -/
theorem Recent.hostClock {k : Nat} {e : EventRec} {s : State} (h : Recent k e s) (room : k + 8 < 4096) (c : Nat) (up : Bool) :
    Recent (k + 8) e (Machine.hostClock c up s) := by
  unfold Machine.hostClock
  split
  · exact h.mono (Nat.le_add_right k 8)
  · split
    · exact (h.sourcePresent (by omega) ..).mono (by omega)
    · exact h.sourceAbsent room ..

/-- A client's new LINK is held, and EV_CL_LINK raised. -/
def linkTold (c link : Nat) (s : State) : State :=
  raise 0x0601 0 (be 1 c ++ be 1 link ++ zeros 2) ((s.clientOf c).link == 1) (modClient c (fun k => { k with link, realign := false }) s)

theorem linkTold_link (c link : Nat) (s : State) : ((linkTold c link s).clientOf c).link = link := by
  unfold linkTold
  rw [clientOf_of_client (raise_only _ _ _ _ _ .client rfl), modClient_clientOf]

theorem linkTold_recent (c link : Nat) (s : State) : ∃ e, Recent 1 e (linkTold c link s) ∧
    e.code = 0x0601 ∧ e.payload = be 1 c ++ be 1 link ++ zeros 2 ∧ e.urgent = ((s.clientOf c).link == 1) := by
  obtain ⟨e, recent, code, -, urgent, payload⟩ := raise_recent 0x0601 0 (be 1 c ++ be 1 link ++ zeros 2) ((s.clientOf c).link == 1)
    (modClient c (fun k => { k with link, realign := false }) s)
  exact ⟨e, recent, code, payload, urgent⟩

section
variable {c link : Nat} {s : State} (traffic : s.trafficRuns = true) (kind : (s.clientOf c).kind ≠ 0) (physical : (s.clientOf c).mode ≠ 4)
include traffic kind physical

theorem clientLinkChange_same (same : (s.clientOf c).link = link) :
    clientLinkChange c link s = modClient c (fun k => { k with realign := false }) s := by
  unfold clientLinkChange
  simp [traffic, kind, physical, same]

theorem clientLinkChange_other (other : (s.clientOf c).link ≠ link) : clientLinkChange c link s = linkTold c link s ∨
    clientLinkChange c link s = hostClock c (link == 1) (linkTold c link s) := by
  unfold clientLinkChange
  dsimp only
  rw [if_neg (by simp [traffic, kind, physical]), if_neg (by simpa using other)]
  split
  · exact .inr rfl
  · exact .inl rfl

theorem clientLinkChange_link (other : (s.clientOf c).link ≠ link) : ((clientLinkChange c link s).clientOf c).link = link := by
  rcases clientLinkChange_other traffic kind physical other with told | follows
  · rw [told, linkTold_link]
  · rw [follows, clientOf_of_client (hostClock_only _ _ _ .client rfl), linkTold_link]

theorem clientLinkChange_tells (other : (s.clientOf c).link ≠ link) : ∃ e ∈ (clientLinkChange c link s).control.history,
    e.code = 0x0601 ∧ e.payload = be 1 c ++ be 1 link ++ zeros 2 ∧ e.urgent = ((s.clientOf c).link == 1) := by
  obtain ⟨e, recent, fields⟩ := linkTold_recent c link s
  refine ⟨e, ?_, fields⟩
  rcases clientLinkChange_other traffic kind physical other with told | follows
  · rw [told]
    exact recent.mem
  · rw [follows]
    exact (recent.hostClock (by omega) ..).mem

end

/-! Elastic buffers (R280, R281). -/

section
variable {c dir : Nat} {s : State}

section
variable (traffic : s.trafficRuns = true) (kind : (s.clientOf c).kind ≠ 0) (mode : (s.clientOf c).mode = 1)
include traffic kind mode

theorem elasticBufferBlock_stopped (stopped : s.streamPasses c dir = false) (b : Option (Fin 4)) (l : Bool) :
    ((elasticBufferBlock c dir b l s).elasticOf c dir).blocks = [] := by
  unfold elasticBufferBlock
  simp [traffic, kind, mode, stopped]

theorem elasticBufferBlock_enters (passes : s.streamPasses c dir = true) (b : Fin 4) :
    elasticBufferBlock c dir (some b) false s = elasticEnter c dir (s.clientOf c).kind b s := by
  unfold elasticBufferBlock
  simp [traffic, kind, mode, passes]

theorem elasticBufferBlock_leaves (passes : s.streamPasses c dir = true) :
    elasticBufferBlock c dir none true s = elasticLeave c dir s := by
  unfold elasticBufferBlock
  simp [traffic, kind, mode, passes]

end

theorem elasticOf_bump (fam inst ev n : Nat) (s : State) (c dir : Nat) : (bump fam inst ev n s).elasticOf c dir = s.elasticOf c dir :=
  elasticOf_of_client (bump_only _ _ _ _ _ .client rfl) ..

theorem elasticEnter_data (keeps : (s.elasticOf c dir).discarding = false) (kind : Nat) : elasticEnter c dir kind 2 s =
    modElastic c dir (fun e => { e with blocks := e.blocks ++ [2], lastIdle := false }) s := by
  unfold elasticEnter
  simp [keeps]

theorem elasticEnter_startFull {kind : Nat} (keeps : (s.elasticOf c dir).discarding = false)
    (full : elasticDepth kind ≤ (s.elasticOf c dir).blocks.length + 64) : elasticEnter c dir kind 1 s =
      bump pmClient c 6 1 (modElastic c dir (fun e => { e with discarding := true }) s) := by
  unfold elasticEnter
  simp [keeps, full]

theorem elasticLeave_blocks {b : Nat} {r : List Nat} (front : (s.elasticOf c dir).blocks = b :: r) :
    ((elasticLeave c dir s).elasticOf c dir).blocks = r := by
  unfold elasticLeave
  simp only [front]
  split
  · rw [elasticOf_bump, modElastic_elasticOf]
  · rw [modElastic_elasticOf]

end

/-! FlexE switches (R276). -/

theorem flexeEvent_flexeOf (g result : Nat) (s : State) (h : Nat) : (flexeEvent g result s).flexeOf h = s.flexeOf h :=
  flexeOf_of_client (flexeEvent_only g result s .client rfl) h

/-- An acknowledgement: some clients lose the frame in progress, and the calendar written is in use. -/
theorem flexeCalAck_acknowledged {g : Nat} {cal : FlexECalendar} {s : State} (traffic : s.trafficRuns = true)
    (waits : (s.flexeOf g).pending = some cal) (inFrame : List Nat) :
    ∃ t, flexeCalAck g inFrame s = flexeEvent g 0 (modFlexe g (fun _ => ⟨some cal, !(s.flexeOf g).useB, none⟩) t) := by
  unfold flexeCalAck
  simp only [waits]
  rw [when_of_true traffic]
  exact ⟨_, rfl⟩

theorem flexeSwitchTimeout_waiting {g : Nat} {cal : FlexECalendar} {s : State} (traffic : s.trafficRuns = true)
    (waits : (s.flexeOf g).pending = some cal) :
    flexeSwitchTimeout g s = flexeEvent g 1 (modFlexe g (fun x => { x with pending := none }) s) :=
  when_of_true (by simp [traffic, waits]) ..

/-! The GFP-F demapper (R284, R285). -/

theorem gfpGo_gfp (t new : Nat) (s : State) : ((gfpGo t new s).trib t).gfp = new := by
  unfold gfpGo
  dsimp only
  split
  next same => exact same
  next =>
    split
    · rw [modTrib_trib]
    · rw [trib_of_client (gfpEvent_only _ _ _ .client rfl), modTrib_trib]

theorem gfpGo_lastEvent {t new : Nat} {s : State} (changes : (s.trib t).gfp ≠ new) (told : new ≠ 1) :
    lastEvent (gfpGo t new s) = some (0x0602, 0, be 2 t ++ be 1 new ++ zeros 1) := by
  unfold gfpGo gfpEvent
  dsimp only
  rw [if_neg changes, if_neg told, raise_lastEvent]

theorem modClients_trib {f : Clients → Clients} {s : State} (h : (f s.client).tribs = s.client.tribs) (k : Nat) :
    (modClients f s).trib k = s.trib k := by
  unfold State.trib
  rw [modClients_client, h]

theorem egressFrame_trib (t c n : Nat) (s : State) (k : Nat) : (egressFrame t c n s).trib k = s.trib k := by
  unfold egressFrame
  dsimp only
  rw [(OnlyTrains.demandLanes c _).trib, modClients_trib rfl, trib_of_client (bump_only _ _ _ _ _ .client rfl),
    trib_of_client (bump_only _ _ _ _ _ .client rfl)]

/-- A frame that arrives at its client's FIFO counts as received, whether or not it fits. -/
theorem egressFrame_received (t c n : Nat) (s : State) : (egressFrame t c n s).live pmTrib t 2 = s.live pmTrib t 2 + 1 := by
  unfold egressFrame
  dsimp only
  rw [live_of_counters (demandLanes_only c _ .counters rfl), live_of_counters (modClients_counters _ _), bump_live_same,
    bump_live_other (by split <;> decide)]

theorem traceItem_trib (u dir inst flags item queue addr latency len : Nat) (s : State) (k : Nat) :
    (traceItem u dir inst flags item queue addr latency len s).trib k = s.trib k :=
  trib_of_client (traceItem_only _ _ _ _ _ _ _ _ _ s .client rfl) k

theorem gfpFrame_gfp (t : Nat) (f : GfpSeen) (s : State) : ((gfpFrame t f s).trib t).gfp = (s.trib t).gfp := by
  unfold gfpFrame
  dsimp only
  split
  · rfl
  · rw [traceItem_trib, trib_of_client (drawNat_only _ .client rfl)]
    split
    · rw [trib_of_client (bump_only _ _ _ _ _ .client rfl), modTrib_trib]
    · rw [egressFrame_trib, modTrib_trib]

/-- A client frame that the demapper delivers: a good type header of a client data frame, no longer than the client takes. -/
abbrev GfpSeen.Good (f : GfpSeen) (k : Client) : Prop := f.thec = true ∧ f.upi = 1 ∧ f.length ≤ k.maxFrame

section
variable {t : Nat} {f : GfpSeen} {s : State} (client : f.idle = false)
include client

theorem gfpFrame_delivered (good : f.Good (s.clientOf (s.trib t).now.client)) :
    (gfpFrame t f s).live pmTrib t 2 = s.live pmTrib t 2 + 1 := by
  obtain ⟨thec, upi, fits⟩ := good
  unfold gfpFrame
  dsimp only
  rw [client, if_neg Bool.false_ne_true, traceItem_live, drawNat_live, if_neg (by simpa [thec, upi] using fits), egressFrame_received,
    live_of_counters (modTrib_only _ _ _ .counters rfl)]

theorem gfpFrame_discarded (bad : f.thec = false ∨ f.upi ≠ 1 ∨ (s.clientOf (s.trib t).now.client).maxFrame < f.length) :
    (gfpFrame t f s).live pmTrib t 5 = s.live pmTrib t 5 + 1 := by
  unfold gfpFrame
  dsimp only
  rw [client, if_neg Bool.false_ne_true, traceItem_live, drawNat_live, if_pos (by simpa [or_assoc] using bad), bump_live_same,
    live_of_counters (modTrib_only _ _ _ .counters rfl)]

end

section
variable {t : Nat} {f : GfpSeen} {s : State} (traffic : s.trafficRuns = true) (kind : (s.trib t).now.kind = 2)
include traffic kind

theorem gfpFrameRx_fails (fails : s.tribFail t = true) : gfpFrameRx t f s = gfpGo t 0 s := by
  unfold gfpFrameRx
  simp [traffic, kind, fails]

variable (fine : s.tribFail t = false)
include fine

theorem gfpFrameRx_hunt (hunt : (s.trib t).gfp = 0) (good : f.chec = 0) : gfpFrameRx t f s = gfpGo t 1 s := by
  unfold gfpFrameRx
  simp [traffic, kind, fine, hunt, good]

theorem gfpFrameRx_presync (presync : (s.trib t).gfp = 1) (good : f.chec = 0) : gfpFrameRx t f s = gfpFrame t f (gfpGo t 2 s) := by
  unfold gfpFrameRx
  simp [traffic, kind, fine, presync, good]

theorem gfpFrameRx_lost (sync : (s.trib t).gfp = 2) (bad : f.chec = 2) : gfpFrameRx t f s = gfpGo t 0 s := by
  unfold gfpFrameRx
  simp [traffic, kind, fine, sync, bad]

theorem gfpFrameRx_sync (sync : (s.trib t).gfp = 2) (good : f.chec ≠ 2) :
    gfpFrameRx t f s = gfpFrame t f (bump pmTrib t 4 (b2n (f.chec == 1)) s) := by
  unfold gfpFrameRx
  simp [traffic, kind, fine, sync, good]

end

end Sys2Proof.Machine
open Sys2Proof Sys2Proof.Machine

/-- Settles O30: clients' frames, changes of LINK, elastic buffers, FlexE switches and the demapper. -/
theorem clientTrafficFlows : Obligations.ClientTrafficFlows := by
  refine ⟨?frames, ?link, ?elastic, ?flexe, ?gfp⟩
  case frames =>
    intro c data ok fec odd s traffic
    refine ⟨fun kind asleep => congrArg Host.Outcome.next (clientFrameRx_asleep traffic kind asleep data ok fec odd),
      fun framed awake => ?_⟩
    obtain ⟨t, wrong, missed, before, after⟩ := clientFrameRx_counts traffic framed awake data ok fec odd
    refine ⟨_, rfl, ?_, ?_, ?_⟩
    · rw [after.counts 0 (by decide), frameCounted_frames, before.counts 0 (by decide)]
    · rw [after.received, frameCounted_rxCount, before.received]
    · rw [after.counts 2 (by decide), frameCounted_tooLong, before.counts 2 (by decide)]
      simp [b2n]
  case link =>
    intro c link s traffic kind physical
    exact ⟨fun same => congrArg Host.Outcome.next (clientLinkChange_same traffic kind physical same),
      fun other => ⟨_, rfl, clientLinkChange_link traffic kind physical other, clientLinkChange_tells traffic kind physical other⟩⟩
  case elastic =>
    intro c out s traffic kind mode
    refine ⟨fun stopped b l => ⟨_, rfl, elasticBufferBlock_stopped traffic kind mode stopped b l⟩,
      fun passes => ⟨fun keeps => ⟨?_, fun full => ?_⟩, fun b r front => ?_⟩⟩
    · refine ⟨_, congrArg Host.Outcome.next
        ((elasticBufferBlock_enters traffic kind mode passes 2).trans (elasticEnter_data keeps _)), ?_, modElastic_only _ _ _ s⟩
      rw [modElastic_elasticOf]
    · refine ⟨_, congrArg Host.Outcome.next
        ((elasticBufferBlock_enters traffic kind mode passes 1).trans (elasticEnter_startFull keeps full)), ?_, ?_, ?_⟩
      · rw [elasticOf_bump, modElastic_elasticOf]
      · rw [elasticOf_bump, modElastic_elasticOf]
      · rw [bump_live_same, live_of_counters (modElastic_only _ _ _ s .counters rfl)]
    · exact ⟨_, congrArg Host.Outcome.next (elasticBufferBlock_leaves traffic kind mode passes), elasticLeave_blocks front⟩
  case flexe =>
    intro g inFrame cal s traffic waits
    constructor
    · obtain ⟨t, acks⟩ := flexeCalAck_acknowledged traffic waits inFrame
      refine ⟨_, congrArg Host.Outcome.next acks, ?_, ?_⟩
      · rw [flexeEvent_flexeOf, modFlexe_flexeOf]
      · rw [flexeEvent_lastEvent, modFlexe_flexeOf]
    · refine ⟨_, congrArg Host.Outcome.next (flexeSwitchTimeout_waiting traffic waits), ?_, ?_⟩
      · rw [flexeEvent_flexeOf, modFlexe_flexeOf]
      · rw [flexeEvent_lastEvent, modFlexe_flexeOf]
  case gfp =>
    intro t f s traffic kind
    refine ⟨fun fails => ⟨_, congrArg Host.Outcome.next (gfpFrameRx_fails traffic kind fails), gfpGo_gfp ..⟩,
      fun fine => ⟨fun hunt good => ?_, fun presync good => ?_, fun sync => ⟨fun bad => ?_, fun good client => ?_⟩⟩⟩
    · exact ⟨_, congrArg Host.Outcome.next (gfpFrameRx_hunt traffic kind fine hunt good), gfpGo_gfp ..⟩
    · refine ⟨_, congrArg Host.Outcome.next (gfpFrameRx_presync traffic kind fine presync good), ?_⟩
      rw [gfpFrame_gfp, gfpGo_gfp]
    · exact ⟨_, congrArg Host.Outcome.next (gfpFrameRx_lost traffic kind fine sync bad), gfpGo_gfp ..,
        gfpGo_lastEvent (by omega) (by decide)⟩
    · have same : (bump pmTrib t 4 (b2n (f.chec == 1)) s).client = s.client := bump_only _ _ _ _ s .client rfl
      refine ⟨_, congrArg Host.Outcome.next (gfpFrameRx_sync traffic kind fine sync good), ?_, fun delivers => ?_, fun discards => ?_⟩
      · rw [gfpFrame_gfp, trib_of_client same, sync]
      · rw [gfpFrame_delivered client (by rw [trib_of_client same, clientOf_of_client same]; exact delivers), bump_live_other (by decide)]
      · rw [gfpFrame_discarded client (by rw [trib_of_client same, clientOf_of_client same]; exact discards), bump_live_other (by decide)]

end
